-- ==== Sys2Proof/Word.lean ====
section
/-!
DEFINITION. Word.lean: the machine's words, and their plainest arithmetic.
-/
namespace Sys2Proof

/-- A 32-bit instruction word, scalar, or one lane of a vector register (R22, R40). -/
abbrev Word := BitVec 32
/-- One byte of memory (R4). -/
abbrev Byte := BitVec 8
/-- A 64-bit value: a register pair, a pointer, an FP64 number (R23). -/
abbrev Dword := BitVec 64
/-- One bit per lane of a group, lane 0 in bit 0 (R17, R24). -/
abbrev Mask := BitVec 96
/-- A lane of a group (R17). -/
abbrev Lane := Fin 96
/-- A core of the device: bit 7 die, bits 6:3 cluster, bits 2:0 core (R2). -/
abbrev CoreId := Fin 256

/-- The even (low) and odd (high) registers of a pair, joined (R23). -/
def joinPair (lo hi : Word) : Dword := hi ++ lo
def pairLo (x : Dword) : Word := x.setWidth 32
def pairHi (x : Dword) : Word := (x >>> 32).setWidth 32

end Sys2Proof
end

