-- ==== Sys2Proof/Syntax.lean ====
section
/-!
DEFINITION. Syntax.lean: every row of the spec's opcode table as one constructor of `Instr`: the 90 steps
of the device's other agents, which no word encodes, then the 333 words of the opcode map (R54). The chain bit C (R43) is a
property of the packet and is held beside the instruction (`Coded`).
-/
namespace Sys2Proof

/-- A vector register v0-v63. -/
abbrev VReg := Fin 64
/-- A scalar register s0-s63. -/
abbrev SReg := Fin 64
/-- A predicate p0-p7. -/
abbrev PReg := Fin 8
/-- A queue register q0-q7; the field has six bits and values above 7 are ILLEGAL (R238, R259). -/
abbrev QReg := Fin 64

/-- Operand b of a vector word: a register, or the literal in the next word of the packet (R45). -/
inductive VSrc where
  | reg (r : VReg)
  | lit (w : Word)
  deriving DecidableEq, Repr

/-- Operand b of a scalar word (R45). -/
inductive SSrc where
  | reg (r : SReg)
  | lit (w : Word)
  deriving DecidableEq, Repr

/-- MOD of major 0x01 (R52). -/
inductive Sat where
  | wrap | satS | satN
  deriving DecidableEq, Repr

/-- MOD as a rounding mode (R52). -/
inductive Rm where
  | dyn | rne | rz | rd | ru | rna
  deriving DecidableEq, Repr

/-- MOD of the interval majors (R52, R126): MOD 000 acts as MOD 110. -/
inductive IKind where
  | dflt | f32 | f64
  deriving DecidableEq, Repr

/-- The scopes a MOD field can name (R52). -/
inductive Scope where
  | core | cluster | device | domain
  deriving DecidableEq, Repr

/-- MOD of loads and stores (R52). -/
inductive MemMod where
  | relaxed | stream | bypass | ordered (s : Scope)
  deriving DecidableEq, Repr

/-- MOD of the global atomics (R52). -/
structure AtomMod where
  scope : Scope
  ar : Bool
  deriving DecidableEq, Repr

/-- The scope field of a fence (R251). -/
inductive FScope where
  | core | cluster | device | domain | system
  deriving DecidableEq, Repr

/-- The senses of branches and guards (R53). -/
inductive Sense where
  | t | f | u | nt | nf | nu | always
  deriving DecidableEq, Repr

/-- The conditions of `brs` (R53). -/
inductive Cond where
  | z | nz | ltz | gez | gtz | lez | always
  deriving DecidableEq, Repr

/-- The flat and scalar-base address forms (R51, R59). -/
inductive GAddr where
  | flat (a : VReg)
  | base (s : SReg) (a : VReg)
  deriving DecidableEq, Repr

/-- The buffer form sB[vA] (R51, R59). -/
structure BAddr where
  s : SReg
  a : VReg
  deriving DecidableEq, Repr

/-- The core-memory form cm[sB + vA]; s63 adds zero (R51, R59). -/
structure CAddr where
  s : SReg
  a : VReg
  deriving DecidableEq, Repr

/-- An image offered at boot: its digest, whether its signature verifies, and its security version against the fused
minimum (R316). -/
structure BootImage where
  digest : BitVec 256
  signed : Bool
  version : Nat
  minimum : Nat
  deriving DecidableEq, Repr

/-- The atomics (R247-R250): the new value from the old one x, v and, for `cas`, w. -/
inductive AOp where
  | add | minS | maxS | minN | maxN | and | or | xor | xchg | cas | fadd | fmin | fmax | add64
  deriving DecidableEq, Repr
def AOp.size : AOp → Nat
  | .add64 => 8
  | _ => 4

/-- A request that arrives from another device over the Beljo fabric (R314); `p` and `flag` are the pointers presented there, tags included
(R206). -/
inductive RemoteReq where
  | load (p : BitVec 64) (n : Nat)
  | store (p : BitVec 64) (bytes : List Byte)
  | atomic (op : AOp) (p : BitVec 64) (v w : Nat)
  | signal (p : BitVec 64) (payload : List Byte) (flag : BitVec 64) (add : Bool) (v : Word)
  deriving DecidableEq, Repr

/-- Where a soft error strikes (R303). -/
inductive ErrPlace where
  /-- an array granule: corrected when next checked, or uncorrectable -/
  | array (granule : Nat) (uncorrectable : Bool)
  /-- an L2 or L1 line, or the bits held for a hop; `hop` is the handoff counter word 0-6, `die` the receiving die -/
  | hop (die : Fin 2) (hop : Fin 7) (granule : Nat) (uncorrectable : Bool)
  /-- a core-memory word of a workgroup -/
  | coreMem (wid : Nat) (word : Nat)
  /-- a vector register element of a group -/
  | vector (gid : Nat) (reg : VReg) (lane : Lane)
  /-- a scalar register of a group -/
  | scalar (gid : Nat) (reg : SReg)
  /-- a register element of a group, corrected -/
  | corrected (gid : Nat) (lane : Lane)
  /-- a word of a core's weight buffer, and an element of its accumulator store -/
  | weights (core : CoreId) (word : Nat)
  | accumulator (core : CoreId) (element : Nat)
  /-- a core-memory word, met when a multicast next writes it -/
  | cell (wid : Nat) (off : Nat)
  /-- a bit flip in the main arithmetic unit, met by a lane's next shadowed result (`second`: by its retry) -/
  | unit (lane : Lane) (second : Bool) (flip : BitVec 128)
  deriving DecidableEq, Repr

/-- The instructions and steps: one constructor per row of the opcode table, the steps of other agents first. -/
inductive Instr where
  /-- The Notch grants a ticket to a waiting .sc atomic or fence.sc. (R221) -/
  | notchTicket
  /-- The fence.wb stall ends when every covered dirty sector has reached DRAM. (R252) -/
  | fenceWbComplete (gid : Nat) (slot : Fin 2)
  /-- The copy engine accepts a copy and checks its descriptor. (R231) -/
  | copyAccept (cid : Nat)
  /-- A copy finishes moving data, writes its token and arrives on its barrier. (R256) -/
  | copyComplete (cid : Nat)
  /-- The putsig payload lands, the flag is updated and the token written. (R258) -/
  | putsigComplete (cid : Nat)
  /-- A waiting qpop takes a record once the queue holds one. (R260) -/
  | qpopTake (gid : Nat) (slot : Fin 2)
  /-- The base die performs a Basin operation as one read-combine-write step. (R280) -/
  | basinPerform (bid : Nat)
  /-- The core takes the next word of its matrix order, claims, checks and performs it. (R342) -/
  | matrixPerform (core : CoreId)
  /-- An mma finishes on every span core, arrives on CBAR and writes its token. (R344) -/
  | mmaComplete (core : CoreId)
  /-- After the follower's accepted words complete, it is slaved and the token written. (R351) -/
  | spanSlave (core : CoreId)
  /-- munspan takes effect once no span operation is in flight. (R352) -/
  | spanFree (core : CoreId)
  /-- mrel's free takes effect after operations naming the id complete. (R329) -/
  | reservationFree (core : CoreId) (rid : Fin 64)
  /-- A flush completes when its slots have retired and working copies are written back. (R370) -/
  | tflushComplete (gid : Nat) (slot : Fin 2)
  /-- A freed block is granted to the oldest waiting vgrow. (R27) -/
  | vgrowGrant (core : CoreId) (simd : Fin 4)
  /-- The block is released once issued accesses to v32-v63 complete. (R29) -/
  | vshrinkRelease (gid : Nat)
  /-- An ILLEGAL word raises ILLEGAL on the active lanes with no other effect. (R47) -/
  | illegalWord
  /-- An illegal packet raises ILLEGAL once per lane and is skipped. (R48) -/
  | illegalPacket (k : Fin 3)
  /-- A fetch from an XN or fatal page raises XN or PAGE, or parks on a missing page. (R41) -/
  | fetchFault (fatal : Bool)
  /-- A suspended leaf whose age counter reaches 512 displaces the longest-resident leaf. (R68) -/
  | ageForce (gid : Nat)
  /-- After issued words complete, a trap entry is pushed and the handler leaf starts. (R83) -/
  | trapEntry (cause : Byte) (pc : Word)
  /-- After issued words complete, the group stops and the host is told. `code`: the TRAPPC and the halt code it stops with. (R79) -/
  | groupHalt (gid : Nat) (code : Word × Word)
  /-- The parked word is replayed for the faulted lanes once the host resolves. (R82) -/
  | pageFaultReplay (gid : Nat)
  /-- A workgroup retires and frees its resources once groups and async work are done. (R39) -/
  | workgroupRetire (wid : Nat)
  /-- A slot's sleep time runs out and it resumes issuing. (R117) -/
  | sleepExpiry (gid : Nat) (slot : Fin 2)
  /-- The 16-cycle pass-over after yield ends. (R110) -/
  | yieldPassEnd (gid : Nat)
  /-- A group ready and unissued for 256 cycles is boosted. (R272) -/
  | issueBoost (gid : Nat)
  /-- In deterministic mode a turn is spent without issue when the slot waits on another party. (R186) -/
  | turnPass
  /-- A discarded restartable workgroup is restarted from each group's rgn. (R35) -/
  | regionRestart (wid : Nat) (core : CoreId)
  /-- A queued launch command is consumed once its predecessor started and its waits are met. (R264) -/
  | launchStart (q : Nat)
  /-- A finished launch writes back dirty sectors and performs its completion signal. (R264) -/
  | launchComplete (lid : Nat)
  /-- When a launch's producers are done, its remaining open slots are retired. (R365) -/
  | launchSlotsEnd (lid : Nat)
  /-- The allocator places an eligible workgroup on free group slots. (R271) -/
  | workgroupAdmit (lid : Nat) (stage : Fin 16) (core : CoreId)
  /-- A pixel method unit forms a method group from pixels whose oldest slot is filled. (R359) -/
  | methodGroupForm (lid : Nat) (handle : Byte) (tile : Nat) (block : Fin 16)
  /-- The rasteriser node takes a triangle record and bins it. (R375) -/
  | rasterRecord (lid : Nat)
  /-- After binning ends, the node processes a tile, announcing pixels and emitting quads. (R376) -/
  | rasterTile (lid : Nat) (handle : Byte) (tile : Nat)
  /-- A tile whose primitives are announced and slots retired is written back and marked finished. (R376) -/
  | tileCommit (lid : Nat) (handle : Byte) (tile : Nat)
  /-- The grace time runs out and the context enters HARD. (R273) -/
  | graceExpiry (ctx : Nat)
  /-- The kill time runs out and the context is KILLED. (R273) -/
  | killExpiry (ctx : Nat)
  /-- After async work lands, the save engine writes the context save area. (R274) -/
  | contextSave (ctx : Nat)
  /-- The save is written, STATE becomes VALID and the context is DONE. (R276) -/
  | saveComplete (ctx : Nat)
  /-- Host command that binds a context to its descriptor. (R309) -/
  | ctxbind (ctx : Nat) (addr : Nat)
  /-- Host command that frees an idle context. (R308) -/
  | ctxfree (ctx : Nat)
  /-- Host command that binds a work queue to its record. (R310) -/
  | qbind (q : Nat) (addr : Nat)
  /-- Host command that starts the pre-emption ladder for a context. (R273) -/
  | preempt (ctx : Nat)
  /-- Host command that cancels pre-emption in SOFT. (R273) -/
  | cancel (ctx : Nat)
  /-- Host command that restores a DONE context and resumes consumption. (R397) -/
  | restore (ctx : Nat)
  /-- Host command that invalidates one page's translations. (R198) -/
  | invpage (part : Fin 16) (asid : BitVec 12) (va : Nat)
  /-- Host command that invalidates an address space's translations. (R198) -/
  | invas (part : Fin 16) (asid : BitVec 12)
  /-- Host command that invalidates a partition's translations. (R198) -/
  | invpart (part : Fin 16)
  /-- Host command that resolves a page-fault event, starting replay or engine retry. (R82) -/
  | resolve (tag : Word)
  /-- Host command that declares a faulted page fatal. (R82) -/
  | fatal (tag : Word)
  /-- Host command that continues a halted group. (R308) -/
  | resume (ctx : Nat) (place : Word)
  /-- Host command that kills every lane of a halted group. (R308) -/
  | hostEnd (ctx : Nat) (place : Word)
  /-- Host command that resumes command consumption. (R313) -/
  | hostup
  /-- Host command that resets a function, winning over any save. (R278) -/
  | flr (fn : Fin 16)
  /-- A host write of a queue's command count. (R310) -/
  | doorbell (q : Nat) (n : Word)
  /-- Host write freeing event ring entries, letting held page faults post. (R311) -/
  | evack (n : Word)
  /-- Write of EVBASELO, EVBASEHI or EVLOG2, effective only with an empty ring. (R307) -/
  | eventRingConfig (which : Fin 3) (x : Word)
  /-- A host write of 0 clears a device counter; other writes are ignored. (R290) -/
  | counterClear (off : Nat) (x : Word)
  /-- Host write to a register with no behaviour of its own. (R7) -/
  | registerWrite (off : Nat) (x : Word)
  /-- Writing EN 1 checks the partition and enables it or records ERR. (R292) -/
  | partitionEnable (part : Fin 16)
  /-- Writing EN 0 disables a partition that holds no context. (R292) -/
  | partitionDisable (part : Fin 16)
  /-- Starts a dirty-bitmap bank flip. (R297) -/
  | flip (part : Fin 16)
  /-- A flip completes once earlier DRAM writes have their old-bank bits. (R297) -/
  | flipComplete (part : Fin 16)
  /-- Starts a partition write-back of dirty L2 sectors. (R298) -/
  | wbreq (part : Fin 16)
  /-- The partition write-back completes. (R298) -/
  | wbreqComplete (part : Fin 16)
  /-- Host write of a landing table entry, rejected if it breaks the map. (R281) -/
  | landingEntryWrite (idx : Byte) (words : List Word)
  /-- A base die receives a reduction packet and applies or stages it. (R282) -/
  | landingPacket (idx : Byte) (rank : Nat) (off : Nat) (data : List Byte)
  /-- A flit arrives on a compute-to-stack link and is CRC-checked. (R289) -/
  | stackFlitReceive (stack : Fin 8) (ok : Bool)
  /-- After eight failed replays the link retrains. (R289) -/
  | linkRetrain (stack : Fin 8)
  /-- A retrain ends and traffic resumes. (R289) -/
  | retrainComplete (stack : Fin 8) (ok : Bool)
  /-- A flit arrives on a Beljo port with CRC, replay and retrain. (R314) -/
  | beljoFlitReceive (port : Fin 24) (ok : Bool)
  /-- A remote access arrives and is performed at the same VA in its DAS. (R314) -/
  | remoteAccess (part : Fin 16) (asid : BitVec 12) (req : RemoteReq)
  /-- A remote access unanswered in 10 ms poisons the load or drops the store. (R315) -/
  | remoteAccessTimeout (port : Fin 24) (gid : Nat) (load : Bool) (lanes : Mask)
  /-- A CXL.mem host access is performed at the channel or refused. (R306) -/
  | hostMemoryAccess (pa : Nat) (store : Option (List Byte))
  /-- The CXL link goes down or the host resets; consumption stops. (R313) -/
  | hostLinkDown
  /-- Device reset clears state and runs the signed boot. (R317) -/
  | deviceReset (images : List BootImage)
  /-- An idle device enters the deepest state within LTR. (R318) -/
  | idleEntry
  /-- A doorbell, host access or Beljo request ends the idle state. (R318) -/
  | idleExit
  /-- Epter lowers the arithmetic clock by 50 MHz to hold margin. (R304) -/
  | clockStep
  /-- Epter marks a physical lane defective and drains its SIMD unit. (R301) -/
  | laneDefect (unit : Nat) (lane : Nat)
  /-- Once drained, lanes are steered onto the spare or the unit retires. (R301) -/
  | laneSpareSteer (unit : Nat)
  /-- After a 1 ms idle window a lane self-test or memory sweep starts. (R305) -/
  | selfTestStart (unit : Nat)
  /-- A test or sweep ends within 20 us after work arrives. (R305) -/
  | selfTestEnd (unit : Nat)
  /-- Epter changes a key id's key after write-back and drain. (R288) -/
  | keyChange (rid : Nat)
  /-- Epter signs a report on a tenant's nonce. (R299) -/
  | attestationReport (part : Fin 16) (nonce : List Byte)
  /-- A partition extends one of its measurement registers. (R300) -/
  | mrExtend (part : Fin 16) (reg : Fin 4) (digest : BitVec 256)
  /-- A soft error flips a bit in an array, link buffer, cache line, core memory or register element, to be corrected or turned into poison when next checked. (R303) -/
  | softError (place : ErrPlace)
  /-- A host command that takes time (invalidation, RESTORE, FLR and the like) completes and OP.BUSY clears with its RESULT. (R308) -/
  | commandCompletion
  /-- An mld or mst finishes moving its tile between global memory and the accumulator store and writes its token. (R347) -/
  | tileMoveComplete (core : CoreId)
  | add (m : Sat) (g : Bool) (d : VReg) (a : VReg) (b : VSrc)
  | sub (m : Sat) (g : Bool) (d : VReg) (a : VReg) (b : VSrc)
  | minS (g : Bool) (d : VReg) (a : VReg) (b : VSrc)
  | maxS (g : Bool) (d : VReg) (a : VReg) (b : VSrc)
  | minN (g : Bool) (d : VReg) (a : VReg) (b : VSrc)
  | maxN (g : Bool) (d : VReg) (a : VReg) (b : VSrc)
  | absd (m : Sat) (g : Bool) (d : VReg) (a : VReg) (b : VSrc)
  | and (g : Bool) (d : VReg) (a : VReg) (b : VSrc)
  | or (g : Bool) (d : VReg) (a : VReg) (b : VSrc)
  | xor (g : Bool) (d : VReg) (a : VReg) (b : VSrc)
  | andn (g : Bool) (d : VReg) (a : VReg) (b : VSrc)
  | shl (g : Bool) (d : VReg) (a : VReg) (b : VSrc)
  | shr (g : Bool) (d : VReg) (a : VReg) (b : VSrc)
  | sar (g : Bool) (d : VReg) (a : VReg) (b : VSrc)
  | mul (g : Bool) (d : VReg) (a : VReg) (b : VSrc)
  | mulhS (g : Bool) (d : VReg) (a : VReg) (b : VSrc)
  | mulhN (g : Bool) (d : VReg) (a : VReg) (b : VSrc)
  | mad (g : Bool) (d : VReg) (a : VReg) (b : VSrc)
  | dot4S8 (g : Bool) (d : VReg) (a : VReg) (b : VSrc)
  | popc (g : Bool) (d : VReg) (a : VReg)
  | clz (g : Bool) (d : VReg) (a : VReg)
  | eq (g : Bool) (d : PReg) (a : VReg) (b : VSrc)
  | ne (g : Bool) (d : PReg) (a : VReg) (b : VSrc)
  | ltS (g : Bool) (d : PReg) (a : VReg) (b : VSrc)
  | leS (g : Bool) (d : PReg) (a : VReg) (b : VSrc)
  | ltN (g : Bool) (d : PReg) (a : VReg) (b : VSrc)
  | leN (g : Bool) (d : PReg) (a : VReg) (b : VSrc)
  | test (g : Bool) (d : PReg) (a : VReg) (b : VSrc)
  | addi (g : Bool) (d : VReg) (a : VReg) (i : BitVec 9)
  | andi (g : Bool) (d : VReg) (a : VReg) (i : BitVec 9)
  | ori (g : Bool) (d : VReg) (a : VReg) (i : BitVec 9)
  | xori (g : Bool) (d : VReg) (a : VReg) (i : BitVec 9)
  | shli (g : Bool) (d : VReg) (a : VReg) (i : BitVec 9)
  | shri (g : Bool) (d : VReg) (a : VReg) (i : BitVec 9)
  | sari (g : Bool) (d : VReg) (a : VReg) (i : BitVec 9)
  | movi (g : Bool) (d : VReg) (i : BitVec 9)
  | mov (g : Bool) (d : VReg) (b : VSrc)
  | sel (g : Bool) (d : VReg) (a : VReg) (b : VSrc)
  | selu (g : Bool) (d : VReg) (a : VReg) (b : VSrc)
  | bfeN (g : Bool) (d : VReg) (a : VReg) (b : VSrc)
  | bfeS (g : Bool) (d : VReg) (a : VReg) (b : VSrc)
  | bfi (g : Bool) (d : VReg) (a : VReg) (b : VSrc)
  | laneid (g : Bool) (d : VReg)
  | fadd (m : Rm) (g : Bool) (d : VReg) (a : VReg) (b : VSrc)
  | fsub (m : Rm) (g : Bool) (d : VReg) (a : VReg) (b : VSrc)
  | fmul (m : Rm) (g : Bool) (d : VReg) (a : VReg) (b : VSrc)
  | ffma (m : Rm) (g : Bool) (d : VReg) (a : VReg) (b : VSrc)
  | ffms (m : Rm) (g : Bool) (d : VReg) (a : VReg) (b : VSrc)
  | fnfma (m : Rm) (g : Bool) (d : VReg) (a : VReg) (b : VSrc)
  | fmin (m : Rm) (g : Bool) (d : VReg) (a : VReg) (b : VSrc)
  | fmax (m : Rm) (g : Bool) (d : VReg) (a : VReg) (b : VSrc)
  | fdiv (m : Rm) (g : Bool) (d : VReg) (a : VReg) (b : VSrc)
  | fsqrt (m : Rm) (g : Bool) (d : VReg) (a : VReg)
  | frcp (g : Bool) (d : VReg) (a : VReg)
  | frsq (g : Bool) (d : VReg) (a : VReg)
  | fex2 (g : Bool) (d : VReg) (a : VReg)
  | flg2 (g : Bool) (d : VReg) (a : VReg)
  | fsin (g : Bool) (d : VReg) (a : VReg)
  | fcos (g : Bool) (d : VReg) (a : VReg)
  | feq (g : Bool) (d : PReg) (a : VReg) (b : VSrc)
  | fne (g : Bool) (d : PReg) (a : VReg) (b : VSrc)
  | flt (g : Bool) (d : PReg) (a : VReg) (b : VSrc)
  | fle (g : Bool) (d : PReg) (a : VReg) (b : VSrc)
  | funord (g : Bool) (d : PReg) (a : VReg) (b : VSrc)
  | fcls (g : Bool) (d : PReg) (a : VReg) (k : BitVec 6)
  | dadd (m : Rm) (g : Bool) (d : VReg) (a : VReg) (b : VReg)
  | dsub (m : Rm) (g : Bool) (d : VReg) (a : VReg) (b : VReg)
  | dmul (m : Rm) (g : Bool) (d : VReg) (a : VReg) (b : VReg)
  | dfma (m : Rm) (g : Bool) (d : VReg) (a : VReg) (b : VReg)
  | ddiv (m : Rm) (g : Bool) (d : VReg) (a : VReg) (b : VReg)
  | dsqrt (m : Rm) (g : Bool) (d : VReg) (a : VReg)
  | hadd2 (m : Rm) (g : Bool) (d : VReg) (a : VReg) (b : VSrc)
  | hmul2 (m : Rm) (g : Bool) (d : VReg) (a : VReg) (b : VSrc)
  | hfma2 (m : Rm) (g : Bool) (d : VReg) (a : VReg) (b : VSrc)
  | badd2 (m : Rm) (g : Bool) (d : VReg) (a : VReg) (b : VSrc)
  | bmul2 (m : Rm) (g : Bool) (d : VReg) (a : VReg) (b : VSrc)
  | bfma2 (m : Rm) (g : Bool) (d : VReg) (a : VReg) (b : VSrc)
  | cvtF32I32 (m : Rm) (g : Bool) (d : VReg) (a : VReg)
  | cvtI32F32 (m : Rm) (g : Bool) (d : VReg) (a : VReg)
  | cvtF32N32 (m : Rm) (g : Bool) (d : VReg) (a : VReg)
  | cvtN32F32 (m : Rm) (g : Bool) (d : VReg) (a : VReg)
  | cvtF32F16 (m : Rm) (g : Bool) (d : VReg) (a : VReg)
  | cvtF16x2F32 (m : Rm) (g : Bool) (d : VReg) (a : VReg) (b : VSrc)
  | cvtF64F32 (m : Rm) (g : Bool) (d : VReg) (a : VReg)
  | cvtF32F64 (m : Rm) (g : Bool) (d : VReg) (a : VReg)
  | cvtF32Bf16 (m : Rm) (g : Bool) (d : VReg) (a : VReg)
  | cvtBf16x2F32 (m : Rm) (g : Bool) (d : VReg) (a : VReg) (b : VSrc)
  | cvtF32E4m3 (m : Rm) (g : Bool) (d : VReg) (a : VReg)
  | cvtE4m3x2F32 (m : Rm) (g : Bool) (d : VReg) (a : VReg) (b : VSrc)
  | cvtF32E5m2 (m : Rm) (g : Bool) (d : VReg) (a : VReg)
  | cvtE5m2x2F32 (m : Rm) (g : Bool) (d : VReg) (a : VReg) (b : VSrc)
  | unpk4S (m : Rm) (g : Bool) (d : VReg) (a : VReg) (b : VSrc)
  | unpk4N (m : Rm) (g : Bool) (d : VReg) (a : VReg) (b : VSrc)
  | iadd (m : IKind) (g : Bool) (d : VReg) (a : VReg) (b : VReg)
  | isub (m : IKind) (g : Bool) (d : VReg) (a : VReg) (b : VReg)
  | imul (m : IKind) (g : Bool) (d : VReg) (a : VReg) (b : VReg)
  | idiv (m : IKind) (g : Bool) (d : VReg) (a : VReg) (b : VReg)
  | isqr (m : IKind) (g : Bool) (d : VReg) (a : VReg)
  | ihull (m : IKind) (g : Bool) (d : VReg) (a : VReg) (b : VReg)
  | isect (m : IKind) (g : Bool) (d : VReg) (a : VReg) (b : VReg)
  | iwid (m : IKind) (g : Bool) (d : VReg) (a : VReg)
  | isqrt (m : IKind) (g : Bool) (d : VReg) (a : VReg)
  | iabs (m : IKind) (g : Bool) (d : VReg) (a : VReg)
  | ineg (m : IKind) (g : Bool) (d : VReg) (a : VReg)
  | imid (m : IKind) (g : Bool) (d : VReg) (a : VReg)
  | isplit (m : IKind) (g : Bool) (d : VReg) (a : VReg)
  | imake (m : IKind) (g : Bool) (d : VReg) (a : VReg) (b : VSrc)
  | ipt (m : IKind) (g : Bool) (d : VReg) (a : VReg)
  | ilt (m : IKind) (g : Bool) (d : PReg) (a : VReg) (b : VReg)
  | ile (m : IKind) (g : Bool) (d : PReg) (a : VReg) (b : VReg)
  | ieq (m : IKind) (g : Bool) (d : PReg) (a : VReg) (b : VReg)
  | ine (m : IKind) (g : Bool) (d : PReg) (a : VReg) (b : VReg)
  | isubset (m : IKind) (g : Bool) (d : PReg) (a : VReg) (b : VReg)
  | icont (m : IKind) (g : Bool) (d : PReg) (a : VReg) (b : VReg)
  | iempty (m : IKind) (g : Bool) (d : PReg) (a : VReg)
  | pand (g : Bool) (d : PReg) (a : PReg) (b : PReg)
  | por (g : Bool) (d : PReg) (a : PReg) (b : PReg)
  | pnot (g : Bool) (d : PReg) (a : PReg)
  | pxor (g : Bool) (d : PReg) (a : PReg) (b : PReg)
  | pdf (g : Bool) (d : PReg) (a : PReg)
  | pdt (g : Bool) (d : PReg) (a : PReg)
  | pset (g : Bool) (d : PReg) (k : BitVec 2)
  | pund (g : Bool) (d : PReg) (a : PReg)
  | shflIdx (g : Bool) (d : VReg) (a : VReg) (b : VSrc)
  | shflUp (g : Bool) (d : VReg) (a : VReg) (b : VSrc)
  | shflDn (g : Bool) (d : VReg) (a : VReg) (b : VSrc)
  | shflXor (g : Bool) (d : VReg) (a : VReg) (b : VSrc)
  | bcast (g : Bool) (d : VReg) (a : VReg) (b : VSrc)
  | redadd (g : Bool) (d : VReg) (a : VReg)
  | vote (g : Bool) (d : PReg) (a : PReg)
  | ballot (g : Bool) (d : SReg) (a : PReg)
  | xaadd (x : Fin 2) (g : Bool) (a : VReg)
  | xachk (x : Fin 2)
  | xadrn (x : Fin 2) (g : Bool) (d : VReg)
  | xatst (x : Fin 2) (g : Bool) (d : PReg) (b : VSrc)
  | xaclr (x : Fin 2)
  | xard (x : Fin 2) (g : Bool) (d : VReg) (b : VSrc)
  | xastat (x : Fin 2) (g : Bool) (d : VReg)
  | sAdd (d : SReg) (a : SReg) (b : SSrc)
  | sSub (d : SReg) (a : SReg) (b : SSrc)
  | sAnd (d : SReg) (a : SReg) (b : SSrc)
  | sOr (d : SReg) (a : SReg) (b : SSrc)
  | sXor (d : SReg) (a : SReg) (b : SSrc)
  | sShl (d : SReg) (a : SReg) (b : SSrc)
  | sShr (d : SReg) (a : SReg) (b : SSrc)
  | sSar (d : SReg) (a : SReg) (b : SSrc)
  | sMul (d : SReg) (a : SReg) (b : SSrc)
  | sMulhS (d : SReg) (a : SReg) (b : SSrc)
  | sMulhN (d : SReg) (a : SReg) (b : SSrc)
  | sMinS (d : SReg) (a : SReg) (b : SSrc)
  | sMaxS (d : SReg) (a : SReg) (b : SSrc)
  | sSltS (d : SReg) (a : SReg) (b : SSrc)
  | sSltN (d : SReg) (a : SReg) (b : SSrc)
  | sSeq (d : SReg) (a : SReg) (b : SSrc)
  | sAddi (d : SReg) (a : SReg) (i : BitVec 10)
  | sAndi (d : SReg) (a : SReg) (i : BitVec 10)
  | sOri (d : SReg) (a : SReg) (i : BitVec 10)
  | sXori (d : SReg) (a : SReg) (i : BitVec 10)
  | sShli (d : SReg) (a : SReg) (i : BitVec 10)
  | sShri (d : SReg) (a : SReg) (i : BitVec 10)
  | sSari (d : SReg) (a : SReg) (i : BitVec 10)
  | sSltiS (d : SReg) (a : SReg) (i : BitVec 10)
  | sMovi (d : SReg) (i : BitVec 19)
  | movh (d : SReg) (i : BitVec 19)
  | add64 (d : SReg) (a : SReg) (b : SReg)
  | sub64 (d : SReg) (a : SReg) (b : SReg)
  | addz64 (d : SReg) (a : SReg) (b : SSrc)
  | mov64 (d : SReg) (a : SReg)
  | stov (d : VReg) (a : SReg)
  | vtos (d : SReg) (a : VReg) (b : SSrc)
  | vtosf (d : SReg) (a : VReg)
  | ssel (d : SReg) (a : SReg) (b : SSrc)
  | brp (s : Sense) (p : PReg) (t : BitVec 10) (r : BitVec 9)
  | brs (k : Cond) (a : SReg) (o : BitVec 16)
  | jmp (o : BitVec 22)
  | call (o : BitVec 22)
  | ret
  | jmpr (a : SReg)
  | callr (a : SReg)
  | exit
  | kill
  | brk
  | nop
  | yield
  | brpl (s : Sense) (p : PReg) (r : BitVec 16) (off : Word)
  | loop (l : Fin 3) (a : SReg) (e : BitVec 14)
  | loopi (l : Fin 3) (k : BitVec 6) (e : BitVec 14)
  | lbrk (l : Fin 3)
  | bar (n : Fin 16)
  | bararr (n : Fin 16)
  | barwait (n : Fin 16)
  | abinit (d : SReg) (k : BitVec 13)
  | abarr (d : SReg) (k : BitVec 13)
  | abwait (d : SReg) (p : Bool)
  | sleep (n : BitVec 13)
  | wtok (d : SReg)
  | rgn
  | rgnT
  | rgnend
  | ld8n (m : MemMod) (g : Bool) (d : VReg) (ad : GAddr)
  | ld8s (m : MemMod) (g : Bool) (d : VReg) (ad : GAddr)
  | ld16n (m : MemMod) (g : Bool) (d : VReg) (ad : GAddr)
  | ld16s (m : MemMod) (g : Bool) (d : VReg) (ad : GAddr)
  | ld32 (m : MemMod) (g : Bool) (d : VReg) (ad : GAddr)
  | ld64 (m : MemMod) (g : Bool) (d : VReg) (ad : GAddr)
  | ld128 (m : MemMod) (g : Bool) (d : VReg) (ad : GAddr)
  | ldi (m : MemMod) (g : Bool) (d : VReg) (ad : GAddr)
  | st8 (m : MemMod) (g : Bool) (d : VReg) (ad : GAddr)
  | st16 (m : MemMod) (g : Bool) (d : VReg) (ad : GAddr)
  | st32 (m : MemMod) (g : Bool) (d : VReg) (ad : GAddr)
  | st64 (m : MemMod) (g : Bool) (d : VReg) (ad : GAddr)
  | st128 (m : MemMod) (g : Bool) (d : VReg) (ad : GAddr)
  | sti (m : MemMod) (g : Bool) (d : VReg) (ad : GAddr)
  | ldb8n (m : MemMod) (g : Bool) (d : VReg) (ad : BAddr)
  | ldb8s (m : MemMod) (g : Bool) (d : VReg) (ad : BAddr)
  | ldb16n (m : MemMod) (g : Bool) (d : VReg) (ad : BAddr)
  | ldb16s (m : MemMod) (g : Bool) (d : VReg) (ad : BAddr)
  | ldb32 (m : MemMod) (g : Bool) (d : VReg) (ad : BAddr)
  | ldb64 (m : MemMod) (g : Bool) (d : VReg) (ad : BAddr)
  | ldb128 (m : MemMod) (g : Bool) (d : VReg) (ad : BAddr)
  | ldbi (m : MemMod) (g : Bool) (d : VReg) (ad : BAddr)
  | stb8 (m : MemMod) (g : Bool) (d : VReg) (ad : BAddr)
  | stb16 (m : MemMod) (g : Bool) (d : VReg) (ad : BAddr)
  | stb32 (m : MemMod) (g : Bool) (d : VReg) (ad : BAddr)
  | stb64 (m : MemMod) (g : Bool) (d : VReg) (ad : BAddr)
  | stb128 (m : MemMod) (g : Bool) (d : VReg) (ad : BAddr)
  | stbi (m : MemMod) (g : Bool) (d : VReg) (ad : BAddr)
  | ldc8n (m : MemMod) (g : Bool) (d : VReg) (ad : CAddr)
  | ldc8s (m : MemMod) (g : Bool) (d : VReg) (ad : CAddr)
  | ldc16n (m : MemMod) (g : Bool) (d : VReg) (ad : CAddr)
  | ldc16s (m : MemMod) (g : Bool) (d : VReg) (ad : CAddr)
  | ldc32 (m : MemMod) (g : Bool) (d : VReg) (ad : CAddr)
  | ldc64 (m : MemMod) (g : Bool) (d : VReg) (ad : CAddr)
  | ldc128 (m : MemMod) (g : Bool) (d : VReg) (ad : CAddr)
  | ldci (m : MemMod) (g : Bool) (d : VReg) (ad : CAddr)
  | stc8 (m : MemMod) (g : Bool) (d : VReg) (ad : CAddr)
  | stc16 (m : MemMod) (g : Bool) (d : VReg) (ad : CAddr)
  | stc32 (m : MemMod) (g : Bool) (d : VReg) (ad : CAddr)
  | stc64 (m : MemMod) (g : Bool) (d : VReg) (ad : CAddr)
  | stc128 (m : MemMod) (g : Bool) (d : VReg) (ad : CAddr)
  | stci (m : MemMod) (g : Bool) (d : VReg) (ad : CAddr)
  | atomAdd (m : AtomMod) (g : Bool) (d : VReg) (ad : GAddr)
  | atomMinS (m : AtomMod) (g : Bool) (d : VReg) (ad : GAddr)
  | atomMaxS (m : AtomMod) (g : Bool) (d : VReg) (ad : GAddr)
  | atomMinN (m : AtomMod) (g : Bool) (d : VReg) (ad : GAddr)
  | atomMaxN (m : AtomMod) (g : Bool) (d : VReg) (ad : GAddr)
  | atomAnd (m : AtomMod) (g : Bool) (d : VReg) (ad : GAddr)
  | atomOr (m : AtomMod) (g : Bool) (d : VReg) (ad : GAddr)
  | atomXor (m : AtomMod) (g : Bool) (d : VReg) (ad : GAddr)
  | atomXchg (m : AtomMod) (g : Bool) (d : VReg) (ad : GAddr)
  | atomCas (m : AtomMod) (g : Bool) (d : VReg) (ad : GAddr)
  | atomFadd (m : AtomMod) (g : Bool) (d : VReg) (ad : GAddr)
  | atomFmin (m : AtomMod) (g : Bool) (d : VReg) (ad : GAddr)
  | atomFmax (m : AtomMod) (g : Bool) (d : VReg) (ad : GAddr)
  | atomAdd64 (m : AtomMod) (g : Bool) (d : VReg) (ad : GAddr)
  | atomcAdd (m : Bool) (g : Bool) (d : VReg) (ad : CAddr)
  | atomcMinS (m : Bool) (g : Bool) (d : VReg) (ad : CAddr)
  | atomcMaxS (m : Bool) (g : Bool) (d : VReg) (ad : CAddr)
  | atomcOr (m : Bool) (g : Bool) (d : VReg) (ad : CAddr)
  | atomcXchg (m : Bool) (g : Bool) (d : VReg) (ad : CAddr)
  | atomcCas (m : Bool) (g : Bool) (d : VReg) (ad : CAddr)
  | atomAddSc (g : Bool) (d : VReg) (ad : GAddr)
  | atomXchgSc (g : Bool) (d : VReg) (ad : GAddr)
  | atomCasSc (g : Bool) (d : VReg) (ad : GAddr)
  | fenceAcq (k : FScope)
  | fenceRel (k : FScope)
  | fenceAr (k : FScope)
  | fenceSc
  | fenceWb (k : FScope)
  | fenceInval (k : FScope)
  | bfence (k : FScope)
  | pref (g : Bool) (ad : GAddr)
  | prefL1 (g : Bool) (ad : GAddr)
  | resid (g : Bool) (k : Bool) (ad : GAddr)
  | cwb (g : Bool) (ad : GAddr)
  | cinv (g : Bool) (ad : GAddr)
  | settag (g : Bool) (d : VReg) (ad : GAddr)
  | gettag (g : Bool) (d : VReg) (ad : GAddr)
  | cpyIn (d : SReg) (a : SReg) (b : SReg)
  | cpyOut (d : SReg) (a : SReg) (b : SReg)
  | cpyMc (d : SReg) (a : SReg) (b : SReg)
  | cpyCc (d : SReg) (a : SReg) (b : SReg)
  | cpy2d (d : SReg) (a : SReg) (b : SReg)
  | cpy2dmc (d : SReg) (a : SReg) (b : SReg)
  | cpyWb (d : SReg) (a : SReg) (b : SReg)
  | cseal (d : SReg)
  | cwait (d : SReg) (a : SReg)
  | cpoll (d : SReg) (a : SReg)
  | putsig (d : SReg) (a : SReg) (b : SReg)
  | qpush (d : SReg) (a : QReg) (b : SReg)
  | qpop (d : SReg) (a : QReg)
  | qpoll (d : SReg) (a : QReg)
  | baddS32 (g : Bool) (d : VReg) (ad : GAddr)
  | baddF32 (g : Bool) (d : VReg) (ad : GAddr)
  | baddBf16x2 (g : Bool) (d : VReg) (ad : GAddr)
  | bmaxF32 (g : Bool) (d : VReg) (ad : GAddr)
  | bminF32 (g : Bool) (d : VReg) (ad : GAddr)
  | mma (d : SReg) (a : SReg)
  | mld (d : SReg) (a : SReg)
  | mst (d : SReg) (a : SReg)
  | mzero (d : SReg) (a : SReg)
  | mres (d : SReg) (a : SReg)
  | mrel (a : SReg)
  | mspan (d : SReg) (a : SReg)
  | munspan
  | frag (g : Bool) (d : VReg) (a : VReg) (b : VReg)
  | fragKill (g : Bool) (a : VReg)
  | fannc (g : Bool) (a : VReg)
  | tsampNow (g : Bool) (d : VReg) (a : VReg) (b : VSrc)
  | tsampSet (g : Bool) (d : VReg) (a : VReg) (b : VSrc)
  | tflush (g : Bool) (b : VSrc)
  | pxld (g : Bool) (d : VReg) (k : BitVec 4)
  | pxst (g : Bool) (d : VReg) (k : BitVec 4)
  | texSample (g : Bool) (d : VReg) (a : VReg) (b : VReg)
  | texLod (g : Bool) (d : VReg) (a : VReg) (b : VReg)
  | texFetch (g : Bool) (d : VReg) (a : VReg) (b : VReg)
  | texGather4 (g : Bool) (d : VReg) (a : VReg) (b : VReg)
  | emit (g : Bool) (d : PReg) (a : VReg) (b : VReg)
  | spawn (g : Bool) (d : PReg) (a : VReg) (b : VReg)
  | csrr (d : SReg) (k : BitVec 13)
  | csrw (d : SReg) (k : BitVec 13)
  | csrs (d : SReg) (k : BitVec 13)
  | csrc (d : SReg) (k : BitVec 13)
  | csrwi (v : BitVec 6) (k : BitVec 13)
  | vgrow
  | vgrowTry (d : SReg)
  | vshrink
  | trap (n : BitVec 13)
  | tret
  | lkill
  | halt (n : BitVec 13)
  | frec (d : SReg)
  | poolGuard (x : BitVec 25)
  deriving DecidableEq, Repr

/-- A word of a packet as decoded: its chain bit (R43) and its instruction. -/
structure Coded where
  chain : Bool
  instr : Instr
  deriving DecidableEq, Repr

end Sys2Proof
end

