-- ==== Sys2Proof/WellFormed.lean ====
section
/-!
DEFINITION. WellFormed.lean: what an instruction must satisfy beyond the bits of its fields, else its word is ILLEGAL
(R23, R45, R47, R51 and each entry's own limits).
-/
namespace Sys2Proof

/-- A pair starts at an even register (R23). -/
def pair (r : Fin 64) : Bool := r.val % 2 == 0
/-- A quad starts at a multiple of 4 (R23). -/
def quad (r : Fin 64) : Bool := r.val % 4 == 0
/-- A multiple of 4 no greater than `n`: buffer and tile descriptors, `ballot` (R51, R100, R341). -/
def quadTo (r : Fin 64) (n : Nat) : Bool := quad r && decide (r.val ≤ n)
/-- A multiple of 8 no greater than 48: copy and matrix descriptors, `frec` (R16, R231, R341). -/
def descOk (r : Fin 64) : Bool := r.val % 8 == 0 && decide (r.val ≤ 48)
/-- A token scalar: s60 to s62 are ILLEGAL (R255, R341). -/
def tokenOk (r : Fin 64) : Bool := decide (r.val < 60) || r.val == 63

/-- Field value 63 is no register as operand b: it announces a literal (R45). -/
def VSrc.ok : VSrc → Bool
  | .reg r => r != 63
  | .lit _ => true
def SSrc.ok : SSrc → Bool
  | .reg r => r != 63
  | .lit _ => true

/-- An interval operand: a pair in FP32, a quad in FP64 (R163). -/
def IKind.intervalOk : IKind → Fin 64 → Bool
  | .f64, r => quad r
  | _, r => pair r
/-- A point operand or scalar result: one register in FP32, a pair in FP64 (R163). -/
def IKind.pointOk : IKind → Fin 64 → Bool
  | .f64, r => pair r
  | _, _ => true
/-- A point as operand b: a literal is allowed in FP32 only (R163). -/
def IKind.pointSrcOk : IKind → VSrc → Bool
  | .f64, .reg r => pair r
  | .f64, .lit _ => false
  | _, b => b.ok

/-- SB of the flat and scalar-base forms (R51): 63, or an even scalar 0 to 60; a flat pointer is a pair. -/
def GAddr.ok : GAddr → Bool
  | .flat a => pair a
  | .base s _ => pair s && decide (s.val ≤ 60)
/-- SB of the buffer form (R51): a multiple of 4, 0 to 56. -/
def BAddr.ok (x : BAddr) : Bool := quadTo x.s 56

/-- The CSR numbers of R30; every other number is ILLEGAL. -/
def csrListed (n : Nat) : Bool :=
  [0x000, 0x001, 0x002, 0x003, 0x004, 0x005, 0x006, 0x008, 0x009, 0x00A, 0x00B, 0x00C, 0x00D, 0x010, 0x011, 0x012,
   0x020, 0x021, 0x022, 0x023, 0x024, 0x025, 0x026, 0x027, 0x028, 0x029, 0x030, 0x031, 0x038, 0x039, 0x03A, 0x03B,
   0x040, 0x041, 0x042, 0x043, 0x044, 0x045, 0x046, 0x047, 0x048, 0x049, 0x050, 0x051, 0x052, 0x053, 0x054, 0x060,
   0x061, 0x070, 0x080, 0x0F0].contains n

/-- Everything the rules ask of an instruction beyond its fields' bits. The steps of other agents, the last row, carry
no encoding and are always well formed. -/
def Instr.wf : Instr → Bool
  | .add _ _ _ _ b => b.ok
  | .sub _ _ _ _ b => b.ok
  | .minS _ _ _ b => b.ok
  | .maxS _ _ _ b => b.ok
  | .minN _ _ _ b => b.ok
  | .maxN _ _ _ b => b.ok
  | .absd _ _ _ _ b => b.ok
  | .and _ _ _ b => b.ok
  | .or _ _ _ b => b.ok
  | .xor _ _ _ b => b.ok
  | .andn _ _ _ b => b.ok
  | .shl _ _ _ b => b.ok
  | .shr _ _ _ b => b.ok
  | .sar _ _ _ b => b.ok
  | .mul _ _ _ b => b.ok
  | .mulhS _ _ _ b => b.ok
  | .mulhN _ _ _ b => b.ok
  | .mad _ _ _ b => b.ok
  | .dot4S8 _ _ _ b => b.ok
  | .eq _ _ _ b => b.ok
  | .ne _ _ _ b => b.ok
  | .ltS _ _ _ b => b.ok
  | .leS _ _ _ b => b.ok
  | .ltN _ _ _ b => b.ok
  | .leN _ _ _ b => b.ok
  | .test _ _ _ b => b.ok
  | .mov _ _ b => b.ok
  | .sel _ _ _ b => b.ok
  | .selu _ _ _ b => b.ok
  | .bfeN _ _ _ b => b.ok
  | .bfeS _ _ _ b => b.ok
  | .bfi _ _ _ b => b.ok
  | .fadd _ _ _ _ b => b.ok
  | .fsub _ _ _ _ b => b.ok
  | .fmul _ _ _ _ b => b.ok
  | .ffma _ _ _ _ b => b.ok
  | .ffms _ _ _ _ b => b.ok
  | .fnfma _ _ _ _ b => b.ok
  | .fmin _ _ _ _ b => b.ok
  | .fmax _ _ _ _ b => b.ok
  | .fdiv _ _ _ _ b => b.ok
  | .feq _ _ _ b => b.ok
  | .fne _ _ _ b => b.ok
  | .flt _ _ _ b => b.ok
  | .fle _ _ _ b => b.ok
  | .funord _ _ _ b => b.ok
  | .fcls _ _ _ k => k != 63
  | .dadd _ _ d a b => pair d && pair a && pair b
  | .dsub _ _ d a b => pair d && pair a && pair b
  | .dmul _ _ d a b => pair d && pair a && pair b
  | .dfma _ _ d a b => pair d && pair a && pair b
  | .ddiv _ _ d a b => pair d && pair a && pair b
  | .dsqrt _ _ d a => pair d && pair a
  | .hadd2 _ _ _ _ b => b.ok
  | .hmul2 _ _ _ _ b => b.ok
  | .hfma2 _ _ _ _ b => b.ok
  | .badd2 _ _ _ _ b => b.ok
  | .bmul2 _ _ _ _ b => b.ok
  | .bfma2 _ _ _ _ b => b.ok
  | .cvtF16x2F32 _ _ _ _ b => b.ok
  | .cvtF64F32 _ _ d _ => pair d
  | .cvtF32F64 _ _ _ a => pair a
  | .cvtBf16x2F32 _ _ _ _ b => b.ok
  | .cvtE4m3x2F32 _ _ _ _ b => b.ok
  | .cvtE5m2x2F32 _ _ _ _ b => b.ok
  | .unpk4S _ _ _ _ b => b.ok
  | .unpk4N _ _ _ _ b => b.ok
  | .iadd m _ d a b => m.intervalOk d && m.intervalOk a && m.intervalOk b
  | .isub m _ d a b => m.intervalOk d && m.intervalOk a && m.intervalOk b
  | .imul m _ d a b => m.intervalOk d && m.intervalOk a && m.intervalOk b
  | .idiv m _ d a b => m.intervalOk d && m.intervalOk a && m.intervalOk b
  | .isqr m _ d a => m.intervalOk d && m.intervalOk a
  | .ihull m _ d a b => m.intervalOk d && m.intervalOk a && m.intervalOk b
  | .isect m _ d a b => m.intervalOk d && m.intervalOk a && m.intervalOk b
  | .iwid m _ d a => m.pointOk d && m.intervalOk a
  | .isqrt m _ d a => m.intervalOk d && m.intervalOk a
  | .iabs m _ d a => m.intervalOk d && m.intervalOk a
  | .ineg m _ d a => m.intervalOk d && m.intervalOk a
  | .imid m _ d a => m.pointOk d && m.intervalOk a
  | .isplit m _ d a => m.intervalOk d && m.intervalOk a && d != a
  | .imake m _ d a b => m.intervalOk d && m.pointOk a && m.pointSrcOk b
  | .ipt m _ d a => m.intervalOk d && m.pointOk a
  | .ilt m _ _ a b => m.intervalOk a && m.intervalOk b
  | .ile m _ _ a b => m.intervalOk a && m.intervalOk b
  | .ieq m _ _ a b => m.intervalOk a && m.intervalOk b
  | .ine m _ _ a b => m.intervalOk a && m.intervalOk b
  | .isubset m _ _ a b => m.intervalOk a && m.intervalOk b
  | .icont m _ _ a b => m.intervalOk a && m.intervalOk b
  | .iempty m _ _ a => m.intervalOk a
  | .pset _ _ k => k != 3
  | .shflIdx _ _ _ b => b.ok
  | .shflUp _ _ _ b => b.ok
  | .shflDn _ _ _ b => b.ok
  | .shflXor _ _ _ b => b.ok
  | .bcast _ _ _ b => b.ok
  | .ballot _ d _ => quadTo d 56
  | .xadrn _ _ d => pair d
  | .xatst _ _ _ b => b.ok
  | .xard _ _ d b => b.ok && pair d
  | .sAdd _ _ b => b.ok
  | .sSub _ _ b => b.ok
  | .sAnd _ _ b => b.ok
  | .sOr _ _ b => b.ok
  | .sXor _ _ b => b.ok
  | .sShl _ _ b => b.ok
  | .sShr _ _ b => b.ok
  | .sSar _ _ b => b.ok
  | .sMul _ _ b => b.ok
  | .sMulhS _ _ b => b.ok
  | .sMulhN _ _ b => b.ok
  | .sMinS _ _ b => b.ok
  | .sMaxS _ _ b => b.ok
  | .sSltS _ _ b => b.ok
  | .sSltN _ _ b => b.ok
  | .sSeq _ _ b => b.ok
  | .add64 d a b => pair d && pair a && pair b
  | .sub64 d a b => pair d && pair a && pair b
  | .addz64 d a b => b.ok && pair d && pair a
  | .mov64 d a => pair d && pair a
  | .vtos _ _ b => b.ok
  | .ssel _ _ b => b.ok
  | .loop _ _ e => e != 0
  | .loopi _ _ e => e != 0
  | .abinit _ k => k != 0
  | .abarr _ k => k != 0
  | .ld8n _ _ _ ad => ad.ok
  | .ld8s _ _ _ ad => ad.ok
  | .ld16n _ _ _ ad => ad.ok
  | .ld16s _ _ _ ad => ad.ok
  | .ld32 _ _ _ ad => ad.ok
  | .ld64 _ _ d ad => ad.ok && pair d
  | .ld128 _ _ d ad => ad.ok && quad d
  | .ldi _ _ d ad => ad.ok && pair d
  | .st8 _ _ _ ad => ad.ok
  | .st16 _ _ _ ad => ad.ok
  | .st32 _ _ _ ad => ad.ok
  | .st64 _ _ d ad => ad.ok && pair d
  | .st128 _ _ d ad => ad.ok && quad d
  | .sti _ _ d ad => ad.ok && pair d
  | .ldb8n _ _ _ ad => ad.ok
  | .ldb8s _ _ _ ad => ad.ok
  | .ldb16n _ _ _ ad => ad.ok
  | .ldb16s _ _ _ ad => ad.ok
  | .ldb32 _ _ _ ad => ad.ok
  | .ldb64 _ _ d ad => ad.ok && pair d
  | .ldb128 _ _ d ad => ad.ok && quad d
  | .ldbi _ _ d ad => ad.ok && pair d
  | .stb8 _ _ _ ad => ad.ok
  | .stb16 _ _ _ ad => ad.ok
  | .stb32 _ _ _ ad => ad.ok
  | .stb64 _ _ d ad => ad.ok && pair d
  | .stb128 _ _ d ad => ad.ok && quad d
  | .stbi _ _ d ad => ad.ok && pair d
  | .ldc64 _ _ d _ => pair d
  | .ldc128 _ _ d _ => quad d
  | .ldci _ _ d _ => pair d
  | .stc64 _ _ d _ => pair d
  | .stc128 _ _ d _ => quad d
  | .stci _ _ d _ => pair d
  | .atomAdd _ _ _ ad => ad.ok
  | .atomMinS _ _ _ ad => ad.ok
  | .atomMaxS _ _ _ ad => ad.ok
  | .atomMinN _ _ _ ad => ad.ok
  | .atomMaxN _ _ _ ad => ad.ok
  | .atomAnd _ _ _ ad => ad.ok
  | .atomOr _ _ _ ad => ad.ok
  | .atomXor _ _ _ ad => ad.ok
  | .atomXchg _ _ _ ad => ad.ok
  | .atomCas _ _ d ad => ad.ok && pair d
  | .atomFadd _ _ _ ad => ad.ok
  | .atomFmin _ _ _ ad => ad.ok
  | .atomFmax _ _ _ ad => ad.ok
  | .atomAdd64 _ _ d ad => ad.ok && pair d
  | .atomcCas _ _ d _ => pair d
  | .atomAddSc _ _ ad => ad.ok
  | .atomXchgSc _ _ ad => ad.ok
  | .atomCasSc _ d ad => ad.ok && pair d
  | .pref _ ad => ad.ok
  | .prefL1 _ ad => ad.ok
  | .resid _ _ ad => ad.ok
  | .cwb _ ad => ad.ok
  | .cinv _ ad => ad.ok
  | .settag _ _ ad => ad.ok
  | .gettag _ _ ad => ad.ok
  | .cpyIn d a _ => tokenOk d && descOk a
  | .cpyOut d a _ => tokenOk d && descOk a
  | .cpyMc d a _ => tokenOk d && descOk a
  | .cpyCc d a _ => tokenOk d && descOk a
  | .cpy2d d a _ => tokenOk d && descOk a
  | .cpy2dmc d a _ => tokenOk d && descOk a
  | .cpyWb d a _ => tokenOk d && descOk a
  | .cseal d => tokenOk d
  | .cwait d _ => tokenOk d
  | .cpoll d _ => tokenOk d
  | .putsig d a b => tokenOk d && descOk a && quadTo b 56
  | .qpush _ a _ => a.val < 8
  | .qpop _ a => a.val < 8
  | .qpoll _ a => a.val < 8
  | .baddS32 _ _ ad => ad.ok
  | .baddF32 _ _ ad => ad.ok
  | .baddBf16x2 _ _ ad => ad.ok
  | .bmaxF32 _ _ ad => ad.ok
  | .bminF32 _ _ ad => ad.ok
  | .mma d a => tokenOk d && descOk a
  | .mld d a => tokenOk d && quadTo a 56
  | .mst d a => tokenOk d && quadTo a 56
  | .mzero d _ => tokenOk d
  | .mres d a => tokenOk d && pair a && decide (a.val ≤ 58)
  | .mspan d _ => tokenOk d
  | .frag _ _ a b => pair a && quad b
  | .fragKill _ a => pair a
  | .fannc _ a => pair a
  | .tsampNow _ d a b => b.ok && quad d && pair a
  | .tsampSet _ d a b => b.ok && quad d && pair a
  | .tflush _ b => b.ok
  | .pxld _ d k => (!k.getLsbD 3 || quad d)
  | .pxst _ d k => (!k.getLsbD 3 || quad d)
  | .texSample _ d a b => quad d && quad a && pair b
  | .texLod _ _ a b => quad a && pair b
  | .texFetch _ d a b => quad d && quad a && pair b
  | .texGather4 _ d a b => quad d && quad a && pair b
  | .emit _ _ a b => pair a && pair b
  | .spawn _ _ a b => pair a && pair b
  | .csrr _ k => csrListed k.toNat
  | .csrw _ k => csrListed k.toNat
  | .csrs _ k => csrListed k.toNat
  | .csrc _ k => csrListed k.toNat
  | .csrwi _ k => csrListed k.toNat
  | .vgrowTry d => d != 63
  | .frec d => descOk d
  | _ => true

end Sys2Proof
end

