-- ==== Sys2Proof/Decode.lean ====
section
/-!
DEFINITION. Decode.lean (noncomputable only because Lean's compiler allows no inductive type more than some 240
constructors with fields; the kernel evaluates it): from the words of a packet to instructions, and back. `decode` reads one word and the word after
it, which is its literal where it owns one (R45); it refuses every word that is ILLEGAL by its encoding alone (R47), and
the step raises ILLEGAL for it by name.
-/
namespace Sys2Proof

noncomputable section

set_option linter.unusedVariables false

/-- Bits lo + len − 1 : lo of a word (R4). -/
def fld (w : Word) (lo len : Nat) : Nat := w.toNat / 2 ^ lo % 2 ^ len
theorem fld_lt (w : Word) (lo len : Nat) : fld w lo len < 2 ^ len := Nat.mod_lt _ (Nat.two_pow_pos len)
def reg (w : Word) (lo : Nat) : Fin 64 := ⟨fld w lo 6, fld_lt w lo 6⟩
def pred (w : Word) (lo : Nat) : PReg := ⟨fld w lo 3, fld_lt w lo 3⟩
def bit (w : Word) (lo : Nat) : Bool := fld w lo 1 == 1

/-- Operand b of formats V3 and S3: field value 63 takes the literal (R45). -/
def vsrc (w lit : Word) : VSrc := if fld w 0 6 = 63 then .lit lit else .reg (reg w 0)
def ssrc (w lit : Word) : SSrc := if fld w 0 6 = 63 then .lit lit else .reg (reg w 0)
/-- SB = 63 is the flat form (R51). -/
def gaddr (w : Word) : GAddr := if fld w 0 6 = 63 then .flat (reg w 6) else .base (reg w 0) (reg w 6)

def VSrc.code : VSrc → Nat
  | .reg r => r.val
  | .lit _ => 63
def SSrc.code : SSrc → Nat
  | .reg r => r.val
  | .lit _ => 63
def GAddr.code : GAddr → Nat
  | .flat a => a.val * 64 + 63
  | .base s a => a.val * 64 + s.val

/-- MOD of major 0x01 (R52). -/
def Sat.ofCode : Nat → Option Sat
  | 0 => some .wrap | 1 => some .satS | 2 => some .satN | _ => none
def Sat.code : Sat → Nat
  | .wrap => 0 | .satS => 1 | .satN => 2
/-- MOD as a rounding mode (R52). -/
def Rm.ofCode : Nat → Option Rm
  | 0 => some .dyn | 1 => some .rne | 2 => some .rz | 3 => some .rd | 4 => some .ru | 5 => some .rna | _ => none
def Rm.code : Rm → Nat
  | .dyn => 0 | .rne => 1 | .rz => 2 | .rd => 3 | .ru => 4 | .rna => 5
/-- MOD of the interval majors (R52). -/
def IKind.ofCode : Nat → Option IKind
  | 0 => some .dflt | 6 => some .f32 | 7 => some .f64 | _ => none
def IKind.code : IKind → Nat
  | .dflt => 0 | .f32 => 6 | .f64 => 7
def Scope.ofCode : Nat → Scope
  | 0 => .core | 1 => .cluster | 2 => .device | _ => .domain
def Scope.code : Scope → Nat
  | .core => 0 | .cluster => 1 | .device => 2 | .domain => 3
/-- MOD of loads and stores: 011 is not listed (R52). -/
def MemMod.ofCode : Nat → Option MemMod
  | 0 => some .relaxed | 1 => some .stream | 2 => some .bypass | 3 => none
  | n => some (.ordered (Scope.ofCode (n - 4)))
def MemMod.code : MemMod → Nat
  | .relaxed => 0 | .stream => 1 | .bypass => 2 | .ordered s => 4 + s.code
/-- MOD of the global atomics: scope in bits 2:1, acq_rel in bit 0 (R52). -/
def AtomMod.ofCode (n : Nat) : Option AtomMod := some ⟨Scope.ofCode (n / 2), n % 2 == 1⟩
def AtomMod.code (m : AtomMod) : Nat := m.scope.code * 2 + m.ar.toNat
/-- The scope field of a fence (R251). -/
def FScope.ofCode : Nat → Option FScope
  | 1 => some .core | 2 => some .cluster | 3 => some .device | 4 => some .domain | 5 => some .system | _ => none
def FScope.code : FScope → Nat
  | .core => 1 | .cluster => 2 | .device => 3 | .domain => 4 | .system => 5
/-- The senses (R53). -/
def Sense.ofCode : Nat → Option Sense
  | 0 => some .t | 1 => some .f | 2 => some .u | 3 => some .nt | 4 => some .nf | 5 => some .nu | 6 => some .always
  | _ => none
def Sense.code : Sense → Nat
  | .t => 0 | .f => 1 | .u => 2 | .nt => 3 | .nf => 4 | .nu => 5 | .always => 6
/-- The conditions of `brs` (R53). -/
def Cond.ofCode : Nat → Option Cond
  | 0 => some .z | 1 => some .nz | 2 => some .ltz | 3 => some .gez | 4 => some .gtz | 5 => some .lez
  | 6 => some .always | _ => none
def Cond.code : Cond → Nat
  | .z => 0 | .nz => 1 | .ltz => 2 | .gez => 3 | .gtz => 4 | .lez => 5 | .always => 6
/-- A loop level: 3 is ILLEGAL (R50). -/
def levelOf : Nat → Option (Fin 3)
  | 0 => some 0 | 1 => some 1 | 2 => some 2 | _ => none

/-- Major 0x01 (R54). -/
def dec01 (w lit : Word) : Option Instr :=
  match fld w 22 3 with
  | 0 => (Sat.ofCode (fld w 19 3)).bind fun m => some (.add m (bit w 18) (reg w 12) (reg w 6) (vsrc w lit))
  | 1 => (Sat.ofCode (fld w 19 3)).bind fun m => some (.sub m (bit w 18) (reg w 12) (reg w 6) (vsrc w lit))
  | 2 => if fld w 19 3 = 0 then some (.minS (bit w 18) (reg w 12) (reg w 6) (vsrc w lit)) else none
  | 3 => if fld w 19 3 = 0 then some (.maxS (bit w 18) (reg w 12) (reg w 6) (vsrc w lit)) else none
  | 4 => if fld w 19 3 = 0 then some (.minN (bit w 18) (reg w 12) (reg w 6) (vsrc w lit)) else none
  | 5 => if fld w 19 3 = 0 then some (.maxN (bit w 18) (reg w 12) (reg w 6) (vsrc w lit)) else none
  | 6 => (Sat.ofCode (fld w 19 3)).bind fun m => some (.absd m (bit w 18) (reg w 12) (reg w 6) (vsrc w lit))
  | _ => none

/-- Major 0x02 (R54). -/
def dec02 (w lit : Word) : Option Instr :=
  match fld w 22 3 with
  | 0 => if fld w 19 3 = 0 then some (.and (bit w 18) (reg w 12) (reg w 6) (vsrc w lit)) else none
  | 1 => if fld w 19 3 = 0 then some (.or (bit w 18) (reg w 12) (reg w 6) (vsrc w lit)) else none
  | 2 => if fld w 19 3 = 0 then some (.xor (bit w 18) (reg w 12) (reg w 6) (vsrc w lit)) else none
  | 3 => if fld w 19 3 = 0 then some (.andn (bit w 18) (reg w 12) (reg w 6) (vsrc w lit)) else none
  | 4 => if fld w 19 3 = 0 then some (.shl (bit w 18) (reg w 12) (reg w 6) (vsrc w lit)) else none
  | 5 => if fld w 19 3 = 0 then some (.shr (bit w 18) (reg w 12) (reg w 6) (vsrc w lit)) else none
  | 6 => if fld w 19 3 = 0 then some (.sar (bit w 18) (reg w 12) (reg w 6) (vsrc w lit)) else none
  | _ => none

/-- Major 0x03 (R54). -/
def dec03 (w lit : Word) : Option Instr :=
  match fld w 22 3 with
  | 0 => if fld w 19 3 = 0 then some (.mul (bit w 18) (reg w 12) (reg w 6) (vsrc w lit)) else none
  | 1 => if fld w 19 3 = 0 then some (.mulhS (bit w 18) (reg w 12) (reg w 6) (vsrc w lit)) else none
  | 2 => if fld w 19 3 = 0 then some (.mulhN (bit w 18) (reg w 12) (reg w 6) (vsrc w lit)) else none
  | 3 => if fld w 19 3 = 0 then some (.mad (bit w 18) (reg w 12) (reg w 6) (vsrc w lit)) else none
  | 4 => if fld w 19 3 = 0 then some (.dot4S8 (bit w 18) (reg w 12) (reg w 6) (vsrc w lit)) else none
  | 5 => if fld w 0 6 = 0 ∧ fld w 19 3 = 0 then some (.popc (bit w 18) (reg w 12) (reg w 6)) else none
  | 6 => if fld w 0 6 = 0 ∧ fld w 19 3 = 0 then some (.clz (bit w 18) (reg w 12) (reg w 6)) else none
  | _ => none

/-- Major 0x04 (R54). -/
def dec04 (w lit : Word) : Option Instr :=
  match fld w 22 3 with
  | 0 => if fld w 15 3 = 0 ∧ fld w 19 3 = 0 then some (.eq (bit w 18) (pred w 12) (reg w 6) (vsrc w lit)) else none
  | 1 => if fld w 15 3 = 0 ∧ fld w 19 3 = 0 then some (.ne (bit w 18) (pred w 12) (reg w 6) (vsrc w lit)) else none
  | 2 => if fld w 15 3 = 0 ∧ fld w 19 3 = 0 then some (.ltS (bit w 18) (pred w 12) (reg w 6) (vsrc w lit)) else none
  | 3 => if fld w 15 3 = 0 ∧ fld w 19 3 = 0 then some (.leS (bit w 18) (pred w 12) (reg w 6) (vsrc w lit)) else none
  | 4 => if fld w 15 3 = 0 ∧ fld w 19 3 = 0 then some (.ltN (bit w 18) (pred w 12) (reg w 6) (vsrc w lit)) else none
  | 5 => if fld w 15 3 = 0 ∧ fld w 19 3 = 0 then some (.leN (bit w 18) (pred w 12) (reg w 6) (vsrc w lit)) else none
  | 6 => if fld w 15 3 = 0 ∧ fld w 19 3 = 0 then some (.test (bit w 18) (pred w 12) (reg w 6) (vsrc w lit)) else none
  | _ => none

/-- Major 0x05 (R54). -/
def dec05 (w lit : Word) : Option Instr :=
  match fld w 22 3 with
  | 0 => some (.addi (bit w 21) (reg w 15) (reg w 9) (.ofNat 9 (fld w 0 9)))
  | 1 => some (.andi (bit w 21) (reg w 15) (reg w 9) (.ofNat 9 (fld w 0 9)))
  | 2 => some (.ori (bit w 21) (reg w 15) (reg w 9) (.ofNat 9 (fld w 0 9)))
  | 3 => some (.xori (bit w 21) (reg w 15) (reg w 9) (.ofNat 9 (fld w 0 9)))
  | 4 => some (.shli (bit w 21) (reg w 15) (reg w 9) (.ofNat 9 (fld w 0 9)))
  | 5 => some (.shri (bit w 21) (reg w 15) (reg w 9) (.ofNat 9 (fld w 0 9)))
  | 6 => some (.sari (bit w 21) (reg w 15) (reg w 9) (.ofNat 9 (fld w 0 9)))
  | 7 => if fld w 9 6 = 0 then some (.movi (bit w 21) (reg w 15) (.ofNat 9 (fld w 0 9))) else none
  | _ => none

/-- Major 0x06 (R54). -/
def dec06 (w lit : Word) : Option Instr :=
  match fld w 22 3 with
  | 0 => if fld w 6 6 = 0 ∧ fld w 19 3 = 0 then some (.mov (bit w 18) (reg w 12) (vsrc w lit)) else none
  | 1 => if fld w 19 3 = 0 then some (.sel (bit w 18) (reg w 12) (reg w 6) (vsrc w lit)) else none
  | 2 => if fld w 19 3 = 0 then some (.selu (bit w 18) (reg w 12) (reg w 6) (vsrc w lit)) else none
  | 3 => if fld w 19 3 = 0 then some (.bfeN (bit w 18) (reg w 12) (reg w 6) (vsrc w lit)) else none
  | 4 => if fld w 19 3 = 0 then some (.bfeS (bit w 18) (reg w 12) (reg w 6) (vsrc w lit)) else none
  | 5 => if fld w 19 3 = 0 then some (.bfi (bit w 18) (reg w 12) (reg w 6) (vsrc w lit)) else none
  | 6 => if fld w 0 12 = 0 ∧ fld w 19 3 = 0 then some (.laneid (bit w 18) (reg w 12)) else none
  | _ => none

/-- Major 0x08 (R54). -/
def dec08 (w lit : Word) : Option Instr :=
  match fld w 22 3 with
  | 0 => (Rm.ofCode (fld w 19 3)).bind fun m => some (.fadd m (bit w 18) (reg w 12) (reg w 6) (vsrc w lit))
  | 1 => (Rm.ofCode (fld w 19 3)).bind fun m => some (.fsub m (bit w 18) (reg w 12) (reg w 6) (vsrc w lit))
  | 2 => (Rm.ofCode (fld w 19 3)).bind fun m => some (.fmul m (bit w 18) (reg w 12) (reg w 6) (vsrc w lit))
  | 3 => (Rm.ofCode (fld w 19 3)).bind fun m => some (.ffma m (bit w 18) (reg w 12) (reg w 6) (vsrc w lit))
  | 4 => (Rm.ofCode (fld w 19 3)).bind fun m => some (.ffms m (bit w 18) (reg w 12) (reg w 6) (vsrc w lit))
  | 5 => (Rm.ofCode (fld w 19 3)).bind fun m => some (.fnfma m (bit w 18) (reg w 12) (reg w 6) (vsrc w lit))
  | 6 => (Rm.ofCode (fld w 19 3)).bind fun m => some (.fmin m (bit w 18) (reg w 12) (reg w 6) (vsrc w lit))
  | 7 => (Rm.ofCode (fld w 19 3)).bind fun m => some (.fmax m (bit w 18) (reg w 12) (reg w 6) (vsrc w lit))
  | _ => none

/-- Major 0x09 (R54). -/
def dec09 (w lit : Word) : Option Instr :=
  match fld w 22 3 with
  | 0 => (Rm.ofCode (fld w 19 3)).bind fun m => some (.fdiv m (bit w 18) (reg w 12) (reg w 6) (vsrc w lit))
  | 1 => if fld w 0 6 = 0 then (Rm.ofCode (fld w 19 3)).bind fun m => some (.fsqrt m (bit w 18) (reg w 12) (reg w 6)) else none
  | 2 => if fld w 0 6 = 0 ∧ fld w 19 3 = 0 then some (.frcp (bit w 18) (reg w 12) (reg w 6)) else none
  | 3 => if fld w 0 6 = 0 ∧ fld w 19 3 = 0 then some (.frsq (bit w 18) (reg w 12) (reg w 6)) else none
  | 4 => if fld w 0 6 = 0 ∧ fld w 19 3 = 0 then some (.fex2 (bit w 18) (reg w 12) (reg w 6)) else none
  | 5 => if fld w 0 6 = 0 ∧ fld w 19 3 = 0 then some (.flg2 (bit w 18) (reg w 12) (reg w 6)) else none
  | 6 => if fld w 0 6 = 0 ∧ fld w 19 3 = 0 then some (.fsin (bit w 18) (reg w 12) (reg w 6)) else none
  | 7 => if fld w 0 6 = 0 ∧ fld w 19 3 = 0 then some (.fcos (bit w 18) (reg w 12) (reg w 6)) else none
  | _ => none

/-- Major 0x0A (R54). -/
def dec0A (w lit : Word) : Option Instr :=
  match fld w 22 3 with
  | 0 => if fld w 15 3 = 0 ∧ fld w 19 3 = 0 then some (.feq (bit w 18) (pred w 12) (reg w 6) (vsrc w lit)) else none
  | 1 => if fld w 15 3 = 0 ∧ fld w 19 3 = 0 then some (.fne (bit w 18) (pred w 12) (reg w 6) (vsrc w lit)) else none
  | 2 => if fld w 15 3 = 0 ∧ fld w 19 3 = 0 then some (.flt (bit w 18) (pred w 12) (reg w 6) (vsrc w lit)) else none
  | 3 => if fld w 15 3 = 0 ∧ fld w 19 3 = 0 then some (.fle (bit w 18) (pred w 12) (reg w 6) (vsrc w lit)) else none
  | 4 => if fld w 15 3 = 0 ∧ fld w 19 3 = 0 then some (.funord (bit w 18) (pred w 12) (reg w 6) (vsrc w lit)) else none
  | 5 => if fld w 15 3 = 0 ∧ fld w 19 3 = 0 then some (.fcls (bit w 18) (pred w 12) (reg w 6) (.ofNat 6 (fld w 0 6))) else none
  | _ => none

/-- Major 0x0B (R54). -/
def dec0B (w lit : Word) : Option Instr :=
  match fld w 22 3 with
  | 0 => (Rm.ofCode (fld w 19 3)).bind fun m => some (.dadd m (bit w 18) (reg w 12) (reg w 6) (reg w 0))
  | 1 => (Rm.ofCode (fld w 19 3)).bind fun m => some (.dsub m (bit w 18) (reg w 12) (reg w 6) (reg w 0))
  | 2 => (Rm.ofCode (fld w 19 3)).bind fun m => some (.dmul m (bit w 18) (reg w 12) (reg w 6) (reg w 0))
  | 3 => (Rm.ofCode (fld w 19 3)).bind fun m => some (.dfma m (bit w 18) (reg w 12) (reg w 6) (reg w 0))
  | 4 => (Rm.ofCode (fld w 19 3)).bind fun m => some (.ddiv m (bit w 18) (reg w 12) (reg w 6) (reg w 0))
  | 5 => if fld w 0 6 = 0 then (Rm.ofCode (fld w 19 3)).bind fun m => some (.dsqrt m (bit w 18) (reg w 12) (reg w 6)) else none
  | _ => none

/-- Major 0x0C (R54). -/
def dec0C (w lit : Word) : Option Instr :=
  match fld w 22 3 with
  | 0 => (Rm.ofCode (fld w 19 3)).bind fun m => some (.hadd2 m (bit w 18) (reg w 12) (reg w 6) (vsrc w lit))
  | 1 => (Rm.ofCode (fld w 19 3)).bind fun m => some (.hmul2 m (bit w 18) (reg w 12) (reg w 6) (vsrc w lit))
  | 2 => (Rm.ofCode (fld w 19 3)).bind fun m => some (.hfma2 m (bit w 18) (reg w 12) (reg w 6) (vsrc w lit))
  | 3 => (Rm.ofCode (fld w 19 3)).bind fun m => some (.badd2 m (bit w 18) (reg w 12) (reg w 6) (vsrc w lit))
  | 4 => (Rm.ofCode (fld w 19 3)).bind fun m => some (.bmul2 m (bit w 18) (reg w 12) (reg w 6) (vsrc w lit))
  | 5 => (Rm.ofCode (fld w 19 3)).bind fun m => some (.bfma2 m (bit w 18) (reg w 12) (reg w 6) (vsrc w lit))
  | _ => none

/-- Major 0x0D (R54). -/
def dec0D (w lit : Word) : Option Instr :=
  match fld w 22 3 with
  | 0 => if fld w 0 6 = 0 then (Rm.ofCode (fld w 19 3)).bind fun m => some (.cvtF32I32 m (bit w 18) (reg w 12) (reg w 6)) else none
  | 1 => if fld w 0 6 = 0 then (Rm.ofCode (fld w 19 3)).bind fun m => some (.cvtI32F32 m (bit w 18) (reg w 12) (reg w 6)) else none
  | 2 => if fld w 0 6 = 0 then (Rm.ofCode (fld w 19 3)).bind fun m => some (.cvtF32N32 m (bit w 18) (reg w 12) (reg w 6)) else none
  | 3 => if fld w 0 6 = 0 then (Rm.ofCode (fld w 19 3)).bind fun m => some (.cvtN32F32 m (bit w 18) (reg w 12) (reg w 6)) else none
  | 4 => if fld w 0 6 = 0 then (Rm.ofCode (fld w 19 3)).bind fun m => some (.cvtF32F16 m (bit w 18) (reg w 12) (reg w 6)) else none
  | 5 => (Rm.ofCode (fld w 19 3)).bind fun m => some (.cvtF16x2F32 m (bit w 18) (reg w 12) (reg w 6) (vsrc w lit))
  | 6 => if fld w 0 6 = 0 then (Rm.ofCode (fld w 19 3)).bind fun m => some (.cvtF64F32 m (bit w 18) (reg w 12) (reg w 6)) else none
  | 7 => if fld w 0 6 = 0 then (Rm.ofCode (fld w 19 3)).bind fun m => some (.cvtF32F64 m (bit w 18) (reg w 12) (reg w 6)) else none
  | _ => none

/-- Major 0x0E (R54). -/
def dec0E (w lit : Word) : Option Instr :=
  match fld w 22 3 with
  | 0 => if fld w 0 6 = 0 then (Rm.ofCode (fld w 19 3)).bind fun m => some (.cvtF32Bf16 m (bit w 18) (reg w 12) (reg w 6)) else none
  | 1 => (Rm.ofCode (fld w 19 3)).bind fun m => some (.cvtBf16x2F32 m (bit w 18) (reg w 12) (reg w 6) (vsrc w lit))
  | 2 => if fld w 0 6 = 0 then (Rm.ofCode (fld w 19 3)).bind fun m => some (.cvtF32E4m3 m (bit w 18) (reg w 12) (reg w 6)) else none
  | 3 => (Rm.ofCode (fld w 19 3)).bind fun m => some (.cvtE4m3x2F32 m (bit w 18) (reg w 12) (reg w 6) (vsrc w lit))
  | 4 => if fld w 0 6 = 0 then (Rm.ofCode (fld w 19 3)).bind fun m => some (.cvtF32E5m2 m (bit w 18) (reg w 12) (reg w 6)) else none
  | 5 => (Rm.ofCode (fld w 19 3)).bind fun m => some (.cvtE5m2x2F32 m (bit w 18) (reg w 12) (reg w 6) (vsrc w lit))
  | 6 => (Rm.ofCode (fld w 19 3)).bind fun m => some (.unpk4S m (bit w 18) (reg w 12) (reg w 6) (vsrc w lit))
  | 7 => (Rm.ofCode (fld w 19 3)).bind fun m => some (.unpk4N m (bit w 18) (reg w 12) (reg w 6) (vsrc w lit))
  | _ => none

/-- Major 0x10 (R54). -/
def dec10 (w lit : Word) : Option Instr :=
  match fld w 22 3 with
  | 0 => (IKind.ofCode (fld w 19 3)).bind fun m => some (.iadd m (bit w 18) (reg w 12) (reg w 6) (reg w 0))
  | 1 => (IKind.ofCode (fld w 19 3)).bind fun m => some (.isub m (bit w 18) (reg w 12) (reg w 6) (reg w 0))
  | 2 => (IKind.ofCode (fld w 19 3)).bind fun m => some (.imul m (bit w 18) (reg w 12) (reg w 6) (reg w 0))
  | 3 => (IKind.ofCode (fld w 19 3)).bind fun m => some (.idiv m (bit w 18) (reg w 12) (reg w 6) (reg w 0))
  | 4 => if fld w 0 6 = 0 then (IKind.ofCode (fld w 19 3)).bind fun m => some (.isqr m (bit w 18) (reg w 12) (reg w 6)) else none
  | 5 => (IKind.ofCode (fld w 19 3)).bind fun m => some (.ihull m (bit w 18) (reg w 12) (reg w 6) (reg w 0))
  | 6 => (IKind.ofCode (fld w 19 3)).bind fun m => some (.isect m (bit w 18) (reg w 12) (reg w 6) (reg w 0))
  | 7 => if fld w 0 6 = 0 then (IKind.ofCode (fld w 19 3)).bind fun m => some (.iwid m (bit w 18) (reg w 12) (reg w 6)) else none
  | _ => none

/-- Major 0x11 (R54). -/
def dec11 (w lit : Word) : Option Instr :=
  match fld w 22 3 with
  | 0 => if fld w 0 6 = 0 then (IKind.ofCode (fld w 19 3)).bind fun m => some (.isqrt m (bit w 18) (reg w 12) (reg w 6)) else none
  | 1 => if fld w 0 6 = 0 then (IKind.ofCode (fld w 19 3)).bind fun m => some (.iabs m (bit w 18) (reg w 12) (reg w 6)) else none
  | 2 => if fld w 0 6 = 0 then (IKind.ofCode (fld w 19 3)).bind fun m => some (.ineg m (bit w 18) (reg w 12) (reg w 6)) else none
  | 3 => if fld w 0 6 = 0 then (IKind.ofCode (fld w 19 3)).bind fun m => some (.imid m (bit w 18) (reg w 12) (reg w 6)) else none
  | 4 => if fld w 0 6 = 0 then (IKind.ofCode (fld w 19 3)).bind fun m => some (.isplit m (bit w 18) (reg w 12) (reg w 6)) else none
  | 5 => (IKind.ofCode (fld w 19 3)).bind fun m => some (.imake m (bit w 18) (reg w 12) (reg w 6) (vsrc w lit))
  | 6 => if fld w 0 6 = 0 then (IKind.ofCode (fld w 19 3)).bind fun m => some (.ipt m (bit w 18) (reg w 12) (reg w 6)) else none
  | _ => none

/-- Major 0x12 (R54). -/
def dec12 (w lit : Word) : Option Instr :=
  match fld w 22 3 with
  | 0 => if fld w 15 3 = 0 then (IKind.ofCode (fld w 19 3)).bind fun m => some (.ilt m (bit w 18) (pred w 12) (reg w 6) (reg w 0)) else none
  | 1 => if fld w 15 3 = 0 then (IKind.ofCode (fld w 19 3)).bind fun m => some (.ile m (bit w 18) (pred w 12) (reg w 6) (reg w 0)) else none
  | 2 => if fld w 15 3 = 0 then (IKind.ofCode (fld w 19 3)).bind fun m => some (.ieq m (bit w 18) (pred w 12) (reg w 6) (reg w 0)) else none
  | 3 => if fld w 15 3 = 0 then (IKind.ofCode (fld w 19 3)).bind fun m => some (.ine m (bit w 18) (pred w 12) (reg w 6) (reg w 0)) else none
  | 4 => if fld w 15 3 = 0 then (IKind.ofCode (fld w 19 3)).bind fun m => some (.isubset m (bit w 18) (pred w 12) (reg w 6) (reg w 0)) else none
  | 5 => if fld w 15 3 = 0 then (IKind.ofCode (fld w 19 3)).bind fun m => some (.icont m (bit w 18) (pred w 12) (reg w 6) (reg w 0)) else none
  | 6 => if fld w 0 6 = 0 ∧ fld w 15 3 = 0 then (IKind.ofCode (fld w 19 3)).bind fun m => some (.iempty m (bit w 18) (pred w 12) (reg w 6)) else none
  | _ => none

/-- Major 0x13 (R54). -/
def dec13 (w lit : Word) : Option Instr :=
  match fld w 22 3 with
  | 0 => if fld w 3 3 = 0 ∧ fld w 9 3 = 0 ∧ fld w 15 3 = 0 ∧ fld w 19 3 = 0 then some (.pand (bit w 18) (pred w 12) (pred w 6) (pred w 0)) else none
  | 1 => if fld w 3 3 = 0 ∧ fld w 9 3 = 0 ∧ fld w 15 3 = 0 ∧ fld w 19 3 = 0 then some (.por (bit w 18) (pred w 12) (pred w 6) (pred w 0)) else none
  | 2 => if fld w 0 6 = 0 ∧ fld w 9 3 = 0 ∧ fld w 15 3 = 0 ∧ fld w 19 3 = 0 then some (.pnot (bit w 18) (pred w 12) (pred w 6)) else none
  | 3 => if fld w 3 3 = 0 ∧ fld w 9 3 = 0 ∧ fld w 15 3 = 0 ∧ fld w 19 3 = 0 then some (.pxor (bit w 18) (pred w 12) (pred w 6) (pred w 0)) else none
  | 4 => if fld w 0 6 = 0 ∧ fld w 9 3 = 0 ∧ fld w 15 3 = 0 ∧ fld w 19 3 = 0 then some (.pdf (bit w 18) (pred w 12) (pred w 6)) else none
  | 5 => if fld w 0 6 = 0 ∧ fld w 9 3 = 0 ∧ fld w 15 3 = 0 ∧ fld w 19 3 = 0 then some (.pdt (bit w 18) (pred w 12) (pred w 6)) else none
  | 6 => if fld w 2 10 = 0 ∧ fld w 15 3 = 0 ∧ fld w 19 3 = 0 then some (.pset (bit w 18) (pred w 12) (.ofNat 2 (fld w 0 2))) else none
  | 7 => if fld w 0 6 = 0 ∧ fld w 9 3 = 0 ∧ fld w 15 3 = 0 ∧ fld w 19 3 = 0 then some (.pund (bit w 18) (pred w 12) (pred w 6)) else none
  | _ => none

/-- Major 0x14 (R54). -/
def dec14 (w lit : Word) : Option Instr :=
  match fld w 22 3 with
  | 0 => if fld w 19 3 = 0 then some (.shflIdx (bit w 18) (reg w 12) (reg w 6) (vsrc w lit)) else none
  | 1 => if fld w 19 3 = 0 then some (.shflUp (bit w 18) (reg w 12) (reg w 6) (vsrc w lit)) else none
  | 2 => if fld w 19 3 = 0 then some (.shflDn (bit w 18) (reg w 12) (reg w 6) (vsrc w lit)) else none
  | 3 => if fld w 19 3 = 0 then some (.shflXor (bit w 18) (reg w 12) (reg w 6) (vsrc w lit)) else none
  | 4 => if fld w 19 3 = 0 then some (.bcast (bit w 18) (reg w 12) (reg w 6) (vsrc w lit)) else none
  | 5 => if fld w 0 6 = 0 ∧ fld w 19 3 = 0 then some (.redadd (bit w 18) (reg w 12) (reg w 6)) else none
  | 6 => if fld w 0 6 = 0 ∧ fld w 9 3 = 0 ∧ fld w 15 3 = 0 ∧ fld w 19 3 = 0 then some (.vote (bit w 18) (pred w 12) (pred w 6)) else none
  | 7 => if fld w 0 6 = 0 ∧ fld w 9 3 = 0 ∧ fld w 19 3 = 0 then some (.ballot (bit w 18) (reg w 12) (pred w 6)) else none
  | _ => none

/-- Major 0x16 (R54). -/
def dec16 (w lit : Word) : Option Instr :=
  match fld w 22 3 with
  | 0 => if fld w 0 6 = 0 ∧ fld w 12 6 = 0 ∧ fld w 20 2 = 0 then some (.xaadd ⟨fld w 19 1, fld_lt w 19 1⟩ (bit w 18) (reg w 6)) else none
  | 1 => if fld w 0 19 = 0 ∧ fld w 20 2 = 0 then some (.xachk ⟨fld w 19 1, fld_lt w 19 1⟩) else none
  | 2 => if fld w 0 12 = 0 ∧ fld w 20 2 = 0 then some (.xadrn ⟨fld w 19 1, fld_lt w 19 1⟩ (bit w 18) (reg w 12)) else none
  | 3 => if fld w 6 6 = 0 ∧ fld w 15 3 = 0 ∧ fld w 20 2 = 0 then some (.xatst ⟨fld w 19 1, fld_lt w 19 1⟩ (bit w 18) (pred w 12) (vsrc w lit)) else none
  | 4 => if fld w 0 19 = 0 ∧ fld w 20 2 = 0 then some (.xaclr ⟨fld w 19 1, fld_lt w 19 1⟩) else none
  | 5 => if fld w 6 6 = 0 ∧ fld w 20 2 = 0 then some (.xard ⟨fld w 19 1, fld_lt w 19 1⟩ (bit w 18) (reg w 12) (vsrc w lit)) else none
  | 6 => if fld w 0 12 = 0 ∧ fld w 20 2 = 0 then some (.xastat ⟨fld w 19 1, fld_lt w 19 1⟩ (bit w 18) (reg w 12)) else none
  | _ => none

/-- Major 0x18 (R54). -/
def dec18 (w lit : Word) : Option Instr :=
  match fld w 22 3 with
  | 0 => if fld w 18 4 = 0 then some (.sAdd (reg w 12) (reg w 6) (ssrc w lit)) else none
  | 1 => if fld w 18 4 = 0 then some (.sSub (reg w 12) (reg w 6) (ssrc w lit)) else none
  | 2 => if fld w 18 4 = 0 then some (.sAnd (reg w 12) (reg w 6) (ssrc w lit)) else none
  | 3 => if fld w 18 4 = 0 then some (.sOr (reg w 12) (reg w 6) (ssrc w lit)) else none
  | 4 => if fld w 18 4 = 0 then some (.sXor (reg w 12) (reg w 6) (ssrc w lit)) else none
  | 5 => if fld w 18 4 = 0 then some (.sShl (reg w 12) (reg w 6) (ssrc w lit)) else none
  | 6 => if fld w 18 4 = 0 then some (.sShr (reg w 12) (reg w 6) (ssrc w lit)) else none
  | 7 => if fld w 18 4 = 0 then some (.sSar (reg w 12) (reg w 6) (ssrc w lit)) else none
  | _ => none

/-- Major 0x19 (R54). -/
def dec19 (w lit : Word) : Option Instr :=
  match fld w 22 3 with
  | 0 => if fld w 18 4 = 0 then some (.sMul (reg w 12) (reg w 6) (ssrc w lit)) else none
  | 1 => if fld w 18 4 = 0 then some (.sMulhS (reg w 12) (reg w 6) (ssrc w lit)) else none
  | 2 => if fld w 18 4 = 0 then some (.sMulhN (reg w 12) (reg w 6) (ssrc w lit)) else none
  | 3 => if fld w 18 4 = 0 then some (.sMinS (reg w 12) (reg w 6) (ssrc w lit)) else none
  | 4 => if fld w 18 4 = 0 then some (.sMaxS (reg w 12) (reg w 6) (ssrc w lit)) else none
  | 5 => if fld w 18 4 = 0 then some (.sSltS (reg w 12) (reg w 6) (ssrc w lit)) else none
  | 6 => if fld w 18 4 = 0 then some (.sSltN (reg w 12) (reg w 6) (ssrc w lit)) else none
  | 7 => if fld w 18 4 = 0 then some (.sSeq (reg w 12) (reg w 6) (ssrc w lit)) else none
  | _ => none

/-- Major 0x1A (R54). -/
def dec1A (w lit : Word) : Option Instr :=
  match fld w 22 3 with
  | 0 => some (.sAddi (reg w 16) (reg w 10) (.ofNat 10 (fld w 0 10)))
  | 1 => some (.sAndi (reg w 16) (reg w 10) (.ofNat 10 (fld w 0 10)))
  | 2 => some (.sOri (reg w 16) (reg w 10) (.ofNat 10 (fld w 0 10)))
  | 3 => some (.sXori (reg w 16) (reg w 10) (.ofNat 10 (fld w 0 10)))
  | 4 => some (.sShli (reg w 16) (reg w 10) (.ofNat 10 (fld w 0 10)))
  | 5 => some (.sShri (reg w 16) (reg w 10) (.ofNat 10 (fld w 0 10)))
  | 6 => some (.sSari (reg w 16) (reg w 10) (.ofNat 10 (fld w 0 10)))
  | 7 => some (.sSltiS (reg w 16) (reg w 10) (.ofNat 10 (fld w 0 10)))
  | _ => none

/-- Major 0x1B (R54). -/
def dec1B (w lit : Word) : Option Instr :=
  some (.sMovi (reg w 19) (.ofNat 19 (fld w 0 19)))

/-- Major 0x1C (R54). -/
def dec1C (w lit : Word) : Option Instr :=
  some (.movh (reg w 19) (.ofNat 19 (fld w 0 19)))

/-- Major 0x1D (R54). -/
def dec1D (w lit : Word) : Option Instr :=
  match fld w 22 3 with
  | 0 => if fld w 18 4 = 0 then some (.add64 (reg w 12) (reg w 6) (reg w 0)) else none
  | 1 => if fld w 18 4 = 0 then some (.sub64 (reg w 12) (reg w 6) (reg w 0)) else none
  | 2 => if fld w 18 4 = 0 then some (.addz64 (reg w 12) (reg w 6) (ssrc w lit)) else none
  | 3 => if fld w 0 6 = 0 ∧ fld w 18 4 = 0 then some (.mov64 (reg w 12) (reg w 6)) else none
  | _ => none

/-- Major 0x1E (R54). -/
def dec1E (w lit : Word) : Option Instr :=
  match fld w 22 3 with
  | 0 => if fld w 0 6 = 0 ∧ fld w 18 4 = 0 then some (.stov (reg w 12) (reg w 6)) else none
  | 1 => if fld w 18 4 = 0 then some (.vtos (reg w 12) (reg w 6) (ssrc w lit)) else none
  | 2 => if fld w 0 6 = 0 ∧ fld w 18 4 = 0 then some (.vtosf (reg w 12) (reg w 6)) else none
  | 3 => if fld w 18 4 = 0 then some (.ssel (reg w 12) (reg w 6) (ssrc w lit)) else none
  | _ => none

/-- Major 0x20 (R54). -/
def dec20 (w lit : Word) : Option Instr :=
  (Sense.ofCode (fld w 22 3)).bind fun s => some (.brp s (pred w 19) (.ofNat 10 (fld w 9 10)) (.ofNat 9 (fld w 0 9)))

/-- Major 0x21 (R54). -/
def dec21 (w lit : Word) : Option Instr :=
  (Cond.ofCode (fld w 22 3)).bind fun k => some (.brs k (reg w 16) (.ofNat 16 (fld w 0 16)))

/-- Major 0x22 (R54). -/
def dec22 (w lit : Word) : Option Instr :=
  match fld w 22 3 with
  | 0 => some (.jmp (.ofNat 22 (fld w 0 22)))
  | 1 => some (.call (.ofNat 22 (fld w 0 22)))
  | _ => none

/-- Major 0x23 (R54). -/
def dec23 (w lit : Word) : Option Instr :=
  match fld w 22 3 with
  | 0 => if fld w 0 22 = 0 then some (.ret) else none
  | 1 => if fld w 0 6 = 0 ∧ fld w 12 10 = 0 then some (.jmpr (reg w 6)) else none
  | 2 => if fld w 0 6 = 0 ∧ fld w 12 10 = 0 then some (.callr (reg w 6)) else none
  | 3 => if fld w 0 22 = 0 then some (.exit) else none
  | 4 => if fld w 0 22 = 0 then some (.kill) else none
  | 5 => if fld w 0 22 = 0 then some (.brk) else none
  | 6 => if fld w 0 22 = 0 then some (.nop) else none
  | 7 => if fld w 0 22 = 0 then some (.yield) else none
  | _ => none

/-- Major 0x24 (R54). -/
def dec24 (w lit : Word) : Option Instr :=
  if fld w 0 3 = 0 then (Sense.ofCode (fld w 22 3)).bind fun s => some (.brpl s (pred w 19) (.ofNat 16 (fld w 3 16)) lit) else none

/-- Major 0x25 (R54). -/
def dec25 (w lit : Word) : Option Instr :=
  match fld w 22 3 with
  | 0 => (levelOf (fld w 20 2)).bind fun l => some (.loop l (reg w 14) (.ofNat 14 (fld w 0 14)))
  | 1 => (levelOf (fld w 20 2)).bind fun l => some (.loopi l (.ofNat 6 (fld w 14 6)) (.ofNat 14 (fld w 0 14)))
  | 2 => if fld w 0 20 = 0 then (levelOf (fld w 20 2)).bind fun l => some (.lbrk l) else none
  | _ => none

/-- Major 0x26 (R54). -/
def dec26 (w lit : Word) : Option Instr :=
  match fld w 19 6 with
  | 0 => if fld w 4 15 = 0 then some (.bar ⟨fld w 0 4, fld_lt w 0 4⟩) else none
  | 1 => if fld w 4 15 = 0 then some (.bararr ⟨fld w 0 4, fld_lt w 0 4⟩) else none
  | 2 => if fld w 4 15 = 0 then some (.barwait ⟨fld w 0 4, fld_lt w 0 4⟩) else none
  | 3 => some (.abinit (reg w 13) (.ofNat 13 (fld w 0 13)))
  | 4 => some (.abarr (reg w 13) (.ofNat 13 (fld w 0 13)))
  | 5 => if fld w 1 12 = 0 then some (.abwait (reg w 13) (bit w 0)) else none
  | 6 => if fld w 13 6 = 0 then some (.sleep (.ofNat 13 (fld w 0 13))) else none
  | 7 => if fld w 0 13 = 0 then some (.wtok (reg w 13)) else none
  | 8 => if fld w 0 19 = 0 then some (.rgn) else none
  | 9 => if fld w 0 19 = 0 then some (.rgnT) else none
  | 10 => if fld w 0 19 = 0 then some (.rgnend) else none
  | _ => none

/-- Major 0x28 (R54). -/
def dec28 (w lit : Word) : Option Instr :=
  match fld w 22 3 with
  | 0 => (MemMod.ofCode (fld w 19 3)).bind fun m => some (.ld8n m (bit w 18) (reg w 12) (gaddr w))
  | 1 => (MemMod.ofCode (fld w 19 3)).bind fun m => some (.ld8s m (bit w 18) (reg w 12) (gaddr w))
  | 2 => (MemMod.ofCode (fld w 19 3)).bind fun m => some (.ld16n m (bit w 18) (reg w 12) (gaddr w))
  | 3 => (MemMod.ofCode (fld w 19 3)).bind fun m => some (.ld16s m (bit w 18) (reg w 12) (gaddr w))
  | 4 => (MemMod.ofCode (fld w 19 3)).bind fun m => some (.ld32 m (bit w 18) (reg w 12) (gaddr w))
  | 5 => (MemMod.ofCode (fld w 19 3)).bind fun m => some (.ld64 m (bit w 18) (reg w 12) (gaddr w))
  | 6 => (MemMod.ofCode (fld w 19 3)).bind fun m => some (.ld128 m (bit w 18) (reg w 12) (gaddr w))
  | 7 => (MemMod.ofCode (fld w 19 3)).bind fun m => some (.ldi m (bit w 18) (reg w 12) (gaddr w))
  | _ => none

/-- Major 0x29 (R54). -/
def dec29 (w lit : Word) : Option Instr :=
  match fld w 22 3 with
  | 0 => (MemMod.ofCode (fld w 19 3)).bind fun m => some (.st8 m (bit w 18) (reg w 12) (gaddr w))
  | 1 => (MemMod.ofCode (fld w 19 3)).bind fun m => some (.st16 m (bit w 18) (reg w 12) (gaddr w))
  | 2 => (MemMod.ofCode (fld w 19 3)).bind fun m => some (.st32 m (bit w 18) (reg w 12) (gaddr w))
  | 3 => (MemMod.ofCode (fld w 19 3)).bind fun m => some (.st64 m (bit w 18) (reg w 12) (gaddr w))
  | 4 => (MemMod.ofCode (fld w 19 3)).bind fun m => some (.st128 m (bit w 18) (reg w 12) (gaddr w))
  | 5 => (MemMod.ofCode (fld w 19 3)).bind fun m => some (.sti m (bit w 18) (reg w 12) (gaddr w))
  | _ => none

/-- Major 0x2A (R54). -/
def dec2A (w lit : Word) : Option Instr :=
  match fld w 22 3 with
  | 0 => (MemMod.ofCode (fld w 19 3)).bind fun m => some (.ldb8n m (bit w 18) (reg w 12) ⟨reg w 0, reg w 6⟩)
  | 1 => (MemMod.ofCode (fld w 19 3)).bind fun m => some (.ldb8s m (bit w 18) (reg w 12) ⟨reg w 0, reg w 6⟩)
  | 2 => (MemMod.ofCode (fld w 19 3)).bind fun m => some (.ldb16n m (bit w 18) (reg w 12) ⟨reg w 0, reg w 6⟩)
  | 3 => (MemMod.ofCode (fld w 19 3)).bind fun m => some (.ldb16s m (bit w 18) (reg w 12) ⟨reg w 0, reg w 6⟩)
  | 4 => (MemMod.ofCode (fld w 19 3)).bind fun m => some (.ldb32 m (bit w 18) (reg w 12) ⟨reg w 0, reg w 6⟩)
  | 5 => (MemMod.ofCode (fld w 19 3)).bind fun m => some (.ldb64 m (bit w 18) (reg w 12) ⟨reg w 0, reg w 6⟩)
  | 6 => (MemMod.ofCode (fld w 19 3)).bind fun m => some (.ldb128 m (bit w 18) (reg w 12) ⟨reg w 0, reg w 6⟩)
  | 7 => (MemMod.ofCode (fld w 19 3)).bind fun m => some (.ldbi m (bit w 18) (reg w 12) ⟨reg w 0, reg w 6⟩)
  | _ => none

/-- Major 0x2B (R54). -/
def dec2B (w lit : Word) : Option Instr :=
  match fld w 22 3 with
  | 0 => (MemMod.ofCode (fld w 19 3)).bind fun m => some (.stb8 m (bit w 18) (reg w 12) ⟨reg w 0, reg w 6⟩)
  | 1 => (MemMod.ofCode (fld w 19 3)).bind fun m => some (.stb16 m (bit w 18) (reg w 12) ⟨reg w 0, reg w 6⟩)
  | 2 => (MemMod.ofCode (fld w 19 3)).bind fun m => some (.stb32 m (bit w 18) (reg w 12) ⟨reg w 0, reg w 6⟩)
  | 3 => (MemMod.ofCode (fld w 19 3)).bind fun m => some (.stb64 m (bit w 18) (reg w 12) ⟨reg w 0, reg w 6⟩)
  | 4 => (MemMod.ofCode (fld w 19 3)).bind fun m => some (.stb128 m (bit w 18) (reg w 12) ⟨reg w 0, reg w 6⟩)
  | 5 => (MemMod.ofCode (fld w 19 3)).bind fun m => some (.stbi m (bit w 18) (reg w 12) ⟨reg w 0, reg w 6⟩)
  | _ => none

/-- Major 0x2C (R54). -/
def dec2C (w lit : Word) : Option Instr :=
  match fld w 22 3 with
  | 0 => (MemMod.ofCode (fld w 19 3)).bind fun m => some (.ldc8n m (bit w 18) (reg w 12) ⟨reg w 0, reg w 6⟩)
  | 1 => (MemMod.ofCode (fld w 19 3)).bind fun m => some (.ldc8s m (bit w 18) (reg w 12) ⟨reg w 0, reg w 6⟩)
  | 2 => (MemMod.ofCode (fld w 19 3)).bind fun m => some (.ldc16n m (bit w 18) (reg w 12) ⟨reg w 0, reg w 6⟩)
  | 3 => (MemMod.ofCode (fld w 19 3)).bind fun m => some (.ldc16s m (bit w 18) (reg w 12) ⟨reg w 0, reg w 6⟩)
  | 4 => (MemMod.ofCode (fld w 19 3)).bind fun m => some (.ldc32 m (bit w 18) (reg w 12) ⟨reg w 0, reg w 6⟩)
  | 5 => (MemMod.ofCode (fld w 19 3)).bind fun m => some (.ldc64 m (bit w 18) (reg w 12) ⟨reg w 0, reg w 6⟩)
  | 6 => (MemMod.ofCode (fld w 19 3)).bind fun m => some (.ldc128 m (bit w 18) (reg w 12) ⟨reg w 0, reg w 6⟩)
  | 7 => (MemMod.ofCode (fld w 19 3)).bind fun m => some (.ldci m (bit w 18) (reg w 12) ⟨reg w 0, reg w 6⟩)
  | _ => none

/-- Major 0x2D (R54). -/
def dec2D (w lit : Word) : Option Instr :=
  match fld w 22 3 with
  | 0 => (MemMod.ofCode (fld w 19 3)).bind fun m => some (.stc8 m (bit w 18) (reg w 12) ⟨reg w 0, reg w 6⟩)
  | 1 => (MemMod.ofCode (fld w 19 3)).bind fun m => some (.stc16 m (bit w 18) (reg w 12) ⟨reg w 0, reg w 6⟩)
  | 2 => (MemMod.ofCode (fld w 19 3)).bind fun m => some (.stc32 m (bit w 18) (reg w 12) ⟨reg w 0, reg w 6⟩)
  | 3 => (MemMod.ofCode (fld w 19 3)).bind fun m => some (.stc64 m (bit w 18) (reg w 12) ⟨reg w 0, reg w 6⟩)
  | 4 => (MemMod.ofCode (fld w 19 3)).bind fun m => some (.stc128 m (bit w 18) (reg w 12) ⟨reg w 0, reg w 6⟩)
  | 5 => (MemMod.ofCode (fld w 19 3)).bind fun m => some (.stci m (bit w 18) (reg w 12) ⟨reg w 0, reg w 6⟩)
  | _ => none

/-- Major 0x2E (R54). -/
def dec2E (w lit : Word) : Option Instr :=
  match fld w 22 3 with
  | 0 => (AtomMod.ofCode (fld w 19 3)).bind fun m => some (.atomAdd m (bit w 18) (reg w 12) (gaddr w))
  | 1 => (AtomMod.ofCode (fld w 19 3)).bind fun m => some (.atomMinS m (bit w 18) (reg w 12) (gaddr w))
  | 2 => (AtomMod.ofCode (fld w 19 3)).bind fun m => some (.atomMaxS m (bit w 18) (reg w 12) (gaddr w))
  | 3 => (AtomMod.ofCode (fld w 19 3)).bind fun m => some (.atomMinN m (bit w 18) (reg w 12) (gaddr w))
  | 4 => (AtomMod.ofCode (fld w 19 3)).bind fun m => some (.atomMaxN m (bit w 18) (reg w 12) (gaddr w))
  | 5 => (AtomMod.ofCode (fld w 19 3)).bind fun m => some (.atomAnd m (bit w 18) (reg w 12) (gaddr w))
  | 6 => (AtomMod.ofCode (fld w 19 3)).bind fun m => some (.atomOr m (bit w 18) (reg w 12) (gaddr w))
  | 7 => (AtomMod.ofCode (fld w 19 3)).bind fun m => some (.atomXor m (bit w 18) (reg w 12) (gaddr w))
  | _ => none

/-- Major 0x2F (R54). -/
def dec2F (w lit : Word) : Option Instr :=
  match fld w 22 3 with
  | 0 => (AtomMod.ofCode (fld w 19 3)).bind fun m => some (.atomXchg m (bit w 18) (reg w 12) (gaddr w))
  | 1 => (AtomMod.ofCode (fld w 19 3)).bind fun m => some (.atomCas m (bit w 18) (reg w 12) (gaddr w))
  | 2 => (AtomMod.ofCode (fld w 19 3)).bind fun m => some (.atomFadd m (bit w 18) (reg w 12) (gaddr w))
  | 3 => (AtomMod.ofCode (fld w 19 3)).bind fun m => some (.atomFmin m (bit w 18) (reg w 12) (gaddr w))
  | 4 => (AtomMod.ofCode (fld w 19 3)).bind fun m => some (.atomFmax m (bit w 18) (reg w 12) (gaddr w))
  | 5 => (AtomMod.ofCode (fld w 19 3)).bind fun m => some (.atomAdd64 m (bit w 18) (reg w 12) (gaddr w))
  | _ => none

/-- Major 0x30 (R54). -/
def dec30 (w lit : Word) : Option Instr :=
  match fld w 22 3 with
  | 0 => if fld w 20 2 = 0 then some (.atomcAdd (bit w 19) (bit w 18) (reg w 12) ⟨reg w 0, reg w 6⟩) else none
  | 1 => if fld w 20 2 = 0 then some (.atomcMinS (bit w 19) (bit w 18) (reg w 12) ⟨reg w 0, reg w 6⟩) else none
  | 2 => if fld w 20 2 = 0 then some (.atomcMaxS (bit w 19) (bit w 18) (reg w 12) ⟨reg w 0, reg w 6⟩) else none
  | 3 => if fld w 20 2 = 0 then some (.atomcOr (bit w 19) (bit w 18) (reg w 12) ⟨reg w 0, reg w 6⟩) else none
  | 4 => if fld w 20 2 = 0 then some (.atomcXchg (bit w 19) (bit w 18) (reg w 12) ⟨reg w 0, reg w 6⟩) else none
  | 5 => if fld w 20 2 = 0 then some (.atomcCas (bit w 19) (bit w 18) (reg w 12) ⟨reg w 0, reg w 6⟩) else none
  | _ => none

/-- Major 0x31 (R54). -/
def dec31 (w lit : Word) : Option Instr :=
  match fld w 22 3 with
  | 0 => if fld w 19 3 = 0 then some (.atomAddSc (bit w 18) (reg w 12) (gaddr w)) else none
  | 1 => if fld w 19 3 = 0 then some (.atomXchgSc (bit w 18) (reg w 12) (gaddr w)) else none
  | 2 => if fld w 19 3 = 0 then some (.atomCasSc (bit w 18) (reg w 12) (gaddr w)) else none
  | _ => none

/-- Major 0x32 (R54). -/
def dec32 (w lit : Word) : Option Instr :=
  match fld w 19 6 with
  | 0 => if fld w 3 16 = 0 then (FScope.ofCode (fld w 0 3)).bind fun k => some (.fenceAcq k) else none
  | 1 => if fld w 3 16 = 0 then (FScope.ofCode (fld w 0 3)).bind fun k => some (.fenceRel k) else none
  | 2 => if fld w 3 16 = 0 then (FScope.ofCode (fld w 0 3)).bind fun k => some (.fenceAr k) else none
  | 3 => if fld w 0 19 = 3 then some (.fenceSc) else none
  | 4 => if fld w 3 16 = 0 then (FScope.ofCode (fld w 0 3)).bind fun k => some (.fenceWb k) else none
  | 5 => if fld w 3 16 = 0 then (FScope.ofCode (fld w 0 3)).bind fun k => some (.fenceInval k) else none
  | 6 => if fld w 3 16 = 0 then (FScope.ofCode (fld w 0 3)).bind fun k => some (.bfence k) else none
  | _ => none

/-- Major 0x33 (R54). -/
def dec33 (w lit : Word) : Option Instr :=
  match fld w 22 3 with
  | 0 => if fld w 12 6 = 0 ∧ fld w 19 3 = 0 then some (.pref (bit w 18) (gaddr w)) else none
  | 1 => if fld w 12 6 = 0 ∧ fld w 19 3 = 0 then some (.prefL1 (bit w 18) (gaddr w)) else none
  | 2 => if fld w 13 5 = 0 ∧ fld w 19 3 = 0 then some (.resid (bit w 18) (bit w 12) (gaddr w)) else none
  | 3 => if fld w 12 6 = 0 ∧ fld w 19 3 = 0 then some (.cwb (bit w 18) (gaddr w)) else none
  | 4 => if fld w 12 6 = 0 ∧ fld w 19 3 = 0 then some (.cinv (bit w 18) (gaddr w)) else none
  | 5 => if fld w 19 3 = 0 then some (.settag (bit w 18) (reg w 12) (gaddr w)) else none
  | 6 => if fld w 19 3 = 0 then some (.gettag (bit w 18) (reg w 12) (gaddr w)) else none
  | _ => none

/-- Major 0x34 (R54). -/
def dec34 (w lit : Word) : Option Instr :=
  match fld w 19 6 with
  | 0 => if fld w 18 1 = 0 then some (.cpyIn (reg w 12) (reg w 6) (reg w 0)) else none
  | 1 => if fld w 18 1 = 0 then some (.cpyOut (reg w 12) (reg w 6) (reg w 0)) else none
  | 2 => if fld w 18 1 = 0 then some (.cpyMc (reg w 12) (reg w 6) (reg w 0)) else none
  | 3 => if fld w 18 1 = 0 then some (.cpyCc (reg w 12) (reg w 6) (reg w 0)) else none
  | 4 => if fld w 18 1 = 0 then some (.cpy2d (reg w 12) (reg w 6) (reg w 0)) else none
  | 5 => if fld w 18 1 = 0 then some (.cpy2dmc (reg w 12) (reg w 6) (reg w 0)) else none
  | 6 => if fld w 18 1 = 0 then some (.cpyWb (reg w 12) (reg w 6) (reg w 0)) else none
  | 7 => if fld w 0 12 = 0 ∧ fld w 18 1 = 0 then some (.cseal (reg w 12)) else none
  | 8 => if fld w 0 6 = 0 ∧ fld w 18 1 = 0 then some (.cwait (reg w 12) (reg w 6)) else none
  | 9 => if fld w 0 6 = 0 ∧ fld w 18 1 = 0 then some (.cpoll (reg w 12) (reg w 6)) else none
  | 10 => if fld w 18 1 = 0 then some (.putsig (reg w 12) (reg w 6) (reg w 0)) else none
  | _ => none

/-- Major 0x35 (R54). -/
def dec35 (w lit : Word) : Option Instr :=
  match fld w 19 6 with
  | 0 => if fld w 18 1 = 0 then some (.qpush (reg w 12) (reg w 6) (reg w 0)) else none
  | 1 => if fld w 0 6 = 0 ∧ fld w 18 1 = 0 then some (.qpop (reg w 12) (reg w 6)) else none
  | 2 => if fld w 0 6 = 0 ∧ fld w 18 1 = 0 then some (.qpoll (reg w 12) (reg w 6)) else none
  | _ => none

/-- Major 0x36 (R54). -/
def dec36 (w lit : Word) : Option Instr :=
  match fld w 22 3 with
  | 0 => if fld w 19 3 = 0 then some (.baddS32 (bit w 18) (reg w 12) (gaddr w)) else none
  | 1 => if fld w 19 3 = 0 then some (.baddF32 (bit w 18) (reg w 12) (gaddr w)) else none
  | 2 => if fld w 19 3 = 0 then some (.baddBf16x2 (bit w 18) (reg w 12) (gaddr w)) else none
  | 3 => if fld w 19 3 = 0 then some (.bmaxF32 (bit w 18) (reg w 12) (gaddr w)) else none
  | 4 => if fld w 19 3 = 0 then some (.bminF32 (bit w 18) (reg w 12) (gaddr w)) else none
  | _ => none

/-- Major 0x37 (R54). -/
def dec37 (w lit : Word) : Option Instr :=
  match fld w 19 6 with
  | 0 => if fld w 0 6 = 0 ∧ fld w 18 1 = 0 then some (.mma (reg w 12) (reg w 6)) else none
  | 1 => if fld w 0 6 = 0 ∧ fld w 18 1 = 0 then some (.mld (reg w 12) (reg w 6)) else none
  | 2 => if fld w 0 6 = 0 ∧ fld w 18 1 = 0 then some (.mst (reg w 12) (reg w 6)) else none
  | 3 => if fld w 0 6 = 0 ∧ fld w 18 1 = 0 then some (.mzero (reg w 12) (reg w 6)) else none
  | 4 => if fld w 0 6 = 0 ∧ fld w 18 1 = 0 then some (.mres (reg w 12) (reg w 6)) else none
  | 5 => if fld w 0 6 = 0 ∧ fld w 12 7 = 0 then some (.mrel (reg w 6)) else none
  | 6 => if fld w 0 6 = 0 ∧ fld w 18 1 = 0 then some (.mspan (reg w 12) (reg w 6)) else none
  | 7 => if fld w 0 19 = 0 then some (.munspan) else none
  | _ => none

/-- Major 0x38 (R54). -/
def dec38 (w lit : Word) : Option Instr :=
  match fld w 22 3 with
  | 0 => if fld w 19 3 = 0 then some (.frag (bit w 18) (reg w 12) (reg w 6) (reg w 0)) else none
  | 1 => if fld w 0 6 = 0 ∧ fld w 12 6 = 0 ∧ fld w 19 3 = 0 then some (.fragKill (bit w 18) (reg w 6)) else none
  | 2 => if fld w 0 6 = 0 ∧ fld w 12 6 = 0 ∧ fld w 19 3 = 0 then some (.fannc (bit w 18) (reg w 6)) else none
  | 3 => if fld w 19 3 = 0 then some (.tsampNow (bit w 18) (reg w 12) (reg w 6) (vsrc w lit)) else none
  | 4 => if fld w 19 3 = 0 then some (.tsampSet (bit w 18) (reg w 12) (reg w 6) (vsrc w lit)) else none
  | 5 => if fld w 6 12 = 0 ∧ fld w 19 3 = 0 then some (.tflush (bit w 18) (vsrc w lit)) else none
  | 6 => if fld w 4 8 = 0 ∧ fld w 19 3 = 0 then some (.pxld (bit w 18) (reg w 12) (.ofNat 4 (fld w 0 4))) else none
  | 7 => if fld w 4 8 = 0 ∧ fld w 19 3 = 0 then some (.pxst (bit w 18) (reg w 12) (.ofNat 4 (fld w 0 4))) else none
  | _ => none

/-- Major 0x39 (R54). -/
def dec39 (w lit : Word) : Option Instr :=
  match fld w 22 3 with
  | 0 => if fld w 19 3 = 0 then some (.texSample (bit w 18) (reg w 12) (reg w 6) (reg w 0)) else none
  | 1 => if fld w 19 3 = 0 then some (.texLod (bit w 18) (reg w 12) (reg w 6) (reg w 0)) else none
  | 2 => if fld w 19 3 = 0 then some (.texFetch (bit w 18) (reg w 12) (reg w 6) (reg w 0)) else none
  | 3 => if fld w 19 3 = 0 then some (.texGather4 (bit w 18) (reg w 12) (reg w 6) (reg w 0)) else none
  | _ => none

/-- Major 0x3A (R54). -/
def dec3A (w lit : Word) : Option Instr :=
  match fld w 22 3 with
  | 0 => if fld w 15 3 = 0 ∧ fld w 19 3 = 0 then some (.emit (bit w 18) (pred w 12) (reg w 6) (reg w 0)) else none
  | 1 => if fld w 15 3 = 0 ∧ fld w 19 3 = 0 then some (.spawn (bit w 18) (pred w 12) (reg w 6) (reg w 0)) else none
  | _ => none

/-- Major 0x3B (R54). -/
def dec3B (w lit : Word) : Option Instr :=
  match fld w 19 6 with
  | 0 => some (.csrr (reg w 13) (.ofNat 13 (fld w 0 13)))
  | 1 => some (.csrw (reg w 13) (.ofNat 13 (fld w 0 13)))
  | 2 => some (.csrs (reg w 13) (.ofNat 13 (fld w 0 13)))
  | 3 => some (.csrc (reg w 13) (.ofNat 13 (fld w 0 13)))
  | 4 => some (.csrwi (.ofNat 6 (fld w 13 6)) (.ofNat 13 (fld w 0 13)))
  | 5 => if fld w 0 19 = 0 then some (.vgrow) else none
  | 6 => if fld w 0 13 = 0 then some (.vgrowTry (reg w 13)) else none
  | 7 => if fld w 0 19 = 0 then some (.vshrink) else none
  | _ => none

/-- Major 0x3C (R54). -/
def dec3C (w lit : Word) : Option Instr :=
  match fld w 19 6 with
  | 0 => if fld w 13 6 = 0 then some (.trap (.ofNat 13 (fld w 0 13))) else none
  | 1 => if fld w 0 19 = 0 then some (.tret) else none
  | 2 => if fld w 0 19 = 0 then some (.lkill) else none
  | 3 => if fld w 13 6 = 0 then some (.halt (.ofNat 13 (fld w 0 13))) else none
  | 4 => if fld w 0 13 = 0 then some (.frec (reg w 13)) else none
  | _ => none

/-- Major 0x3F (R54). -/
def dec3F (w lit : Word) : Option Instr :=
  some (.poolGuard (.ofNat 25 (fld w 0 25)))

/-- The fields of a word, by its major; an unassigned major is no instruction (R55). -/
def decodeFields (w lit : Word) : Option Instr :=
  match fld w 25 6 with
  | 1 => dec01 w lit
  | 2 => dec02 w lit
  | 3 => dec03 w lit
  | 4 => dec04 w lit
  | 5 => dec05 w lit
  | 6 => dec06 w lit
  | 8 => dec08 w lit
  | 9 => dec09 w lit
  | 10 => dec0A w lit
  | 11 => dec0B w lit
  | 12 => dec0C w lit
  | 13 => dec0D w lit
  | 14 => dec0E w lit
  | 16 => dec10 w lit
  | 17 => dec11 w lit
  | 18 => dec12 w lit
  | 19 => dec13 w lit
  | 20 => dec14 w lit
  | 22 => dec16 w lit
  | 24 => dec18 w lit
  | 25 => dec19 w lit
  | 26 => dec1A w lit
  | 27 => dec1B w lit
  | 28 => dec1C w lit
  | 29 => dec1D w lit
  | 30 => dec1E w lit
  | 32 => dec20 w lit
  | 33 => dec21 w lit
  | 34 => dec22 w lit
  | 35 => dec23 w lit
  | 36 => dec24 w lit
  | 37 => dec25 w lit
  | 38 => dec26 w lit
  | 40 => dec28 w lit
  | 41 => dec29 w lit
  | 42 => dec2A w lit
  | 43 => dec2B w lit
  | 44 => dec2C w lit
  | 45 => dec2D w lit
  | 46 => dec2E w lit
  | 47 => dec2F w lit
  | 48 => dec30 w lit
  | 49 => dec31 w lit
  | 50 => dec32 w lit
  | 51 => dec33 w lit
  | 52 => dec34 w lit
  | 53 => dec35 w lit
  | 54 => dec36 w lit
  | 55 => dec37 w lit
  | 56 => dec38 w lit
  | 57 => dec39 w lit
  | 58 => dec3A w lit
  | 59 => dec3B w lit
  | 60 => dec3C w lit
  | 63 => dec3F w lit
  | _ => none

/-- The instruction of a word and its literal; `none` for a word that is ILLEGAL by its encoding (R47). Bit 31 is the
chain bit and plays no part (R43). -/
def decode (w lit : Word) : Option Instr := (decodeFields w lit).filter (·.wf)

/-- The majors of formats V3 and S3 (R54). -/
def takesLiteral (maj : Nat) : Bool :=
  [0x01, 0x02, 0x03, 0x04, 0x06, 0x08, 0x09, 0x0A, 0x0B, 0x0C, 0x0D, 0x0E, 0x10, 0x11, 0x12, 0x13, 0x14, 0x16, 0x18, 0x19, 0x1D, 0x1E, 0x23, 0x38, 0x39, 0x3A].contains maj

/-- The word after this one is its literal (R45): decided from the major's format and the B field alone, and always so for
`brpl`. -/
def ownsLiteral (w : Word) : Bool :=
  fld w 25 6 == 0x24 || (takesLiteral (fld w 25 6) && fld w 0 6 == 63)

/-- A word as a packet holds it: its chain bit and its instruction (R43). -/
def decodeCoded (w lit : Word) : Option Coded := (decode w lit).map (Coded.mk (bit w 31))

/-- The fields of a word, from bit 25 up the major, put together (R50). -/
def word (n : Nat) : Word := BitVec.ofNat 32 n

/-- The word of an instruction with C = 0; `none` for a step that no word encodes. -/
def encode : Instr → Option Word
  | .add m g d a b => some (word (0x02000000 + m.code * 524288 + g.toNat * 262144 + d.val * 4096 + a.val * 64 + b.code))
  | .sub m g d a b => some (word (0x02400000 + m.code * 524288 + g.toNat * 262144 + d.val * 4096 + a.val * 64 + b.code))
  | .minS g d a b => some (word (0x02800000 + g.toNat * 262144 + d.val * 4096 + a.val * 64 + b.code))
  | .maxS g d a b => some (word (0x02C00000 + g.toNat * 262144 + d.val * 4096 + a.val * 64 + b.code))
  | .minN g d a b => some (word (0x03000000 + g.toNat * 262144 + d.val * 4096 + a.val * 64 + b.code))
  | .maxN g d a b => some (word (0x03400000 + g.toNat * 262144 + d.val * 4096 + a.val * 64 + b.code))
  | .absd m g d a b => some (word (0x03800000 + m.code * 524288 + g.toNat * 262144 + d.val * 4096 + a.val * 64 + b.code))
  | .and g d a b => some (word (0x04000000 + g.toNat * 262144 + d.val * 4096 + a.val * 64 + b.code))
  | .or g d a b => some (word (0x04400000 + g.toNat * 262144 + d.val * 4096 + a.val * 64 + b.code))
  | .xor g d a b => some (word (0x04800000 + g.toNat * 262144 + d.val * 4096 + a.val * 64 + b.code))
  | .andn g d a b => some (word (0x04C00000 + g.toNat * 262144 + d.val * 4096 + a.val * 64 + b.code))
  | .shl g d a b => some (word (0x05000000 + g.toNat * 262144 + d.val * 4096 + a.val * 64 + b.code))
  | .shr g d a b => some (word (0x05400000 + g.toNat * 262144 + d.val * 4096 + a.val * 64 + b.code))
  | .sar g d a b => some (word (0x05800000 + g.toNat * 262144 + d.val * 4096 + a.val * 64 + b.code))
  | .mul g d a b => some (word (0x06000000 + g.toNat * 262144 + d.val * 4096 + a.val * 64 + b.code))
  | .mulhS g d a b => some (word (0x06400000 + g.toNat * 262144 + d.val * 4096 + a.val * 64 + b.code))
  | .mulhN g d a b => some (word (0x06800000 + g.toNat * 262144 + d.val * 4096 + a.val * 64 + b.code))
  | .mad g d a b => some (word (0x06C00000 + g.toNat * 262144 + d.val * 4096 + a.val * 64 + b.code))
  | .dot4S8 g d a b => some (word (0x07000000 + g.toNat * 262144 + d.val * 4096 + a.val * 64 + b.code))
  | .popc g d a => some (word (0x07400000 + g.toNat * 262144 + d.val * 4096 + a.val * 64))
  | .clz g d a => some (word (0x07800000 + g.toNat * 262144 + d.val * 4096 + a.val * 64))
  | .eq g d a b => some (word (0x08000000 + g.toNat * 262144 + d.val * 4096 + a.val * 64 + b.code))
  | .ne g d a b => some (word (0x08400000 + g.toNat * 262144 + d.val * 4096 + a.val * 64 + b.code))
  | .ltS g d a b => some (word (0x08800000 + g.toNat * 262144 + d.val * 4096 + a.val * 64 + b.code))
  | .leS g d a b => some (word (0x08C00000 + g.toNat * 262144 + d.val * 4096 + a.val * 64 + b.code))
  | .ltN g d a b => some (word (0x09000000 + g.toNat * 262144 + d.val * 4096 + a.val * 64 + b.code))
  | .leN g d a b => some (word (0x09400000 + g.toNat * 262144 + d.val * 4096 + a.val * 64 + b.code))
  | .test g d a b => some (word (0x09800000 + g.toNat * 262144 + d.val * 4096 + a.val * 64 + b.code))
  | .addi g d a i => some (word (0x0A000000 + g.toNat * 2097152 + d.val * 32768 + a.val * 512 + i.toNat))
  | .andi g d a i => some (word (0x0A400000 + g.toNat * 2097152 + d.val * 32768 + a.val * 512 + i.toNat))
  | .ori g d a i => some (word (0x0A800000 + g.toNat * 2097152 + d.val * 32768 + a.val * 512 + i.toNat))
  | .xori g d a i => some (word (0x0AC00000 + g.toNat * 2097152 + d.val * 32768 + a.val * 512 + i.toNat))
  | .shli g d a i => some (word (0x0B000000 + g.toNat * 2097152 + d.val * 32768 + a.val * 512 + i.toNat))
  | .shri g d a i => some (word (0x0B400000 + g.toNat * 2097152 + d.val * 32768 + a.val * 512 + i.toNat))
  | .sari g d a i => some (word (0x0B800000 + g.toNat * 2097152 + d.val * 32768 + a.val * 512 + i.toNat))
  | .movi g d i => some (word (0x0BC00000 + g.toNat * 2097152 + d.val * 32768 + i.toNat))
  | .mov g d b => some (word (0x0C000000 + g.toNat * 262144 + d.val * 4096 + b.code))
  | .sel g d a b => some (word (0x0C400000 + g.toNat * 262144 + d.val * 4096 + a.val * 64 + b.code))
  | .selu g d a b => some (word (0x0C800000 + g.toNat * 262144 + d.val * 4096 + a.val * 64 + b.code))
  | .bfeN g d a b => some (word (0x0CC00000 + g.toNat * 262144 + d.val * 4096 + a.val * 64 + b.code))
  | .bfeS g d a b => some (word (0x0D000000 + g.toNat * 262144 + d.val * 4096 + a.val * 64 + b.code))
  | .bfi g d a b => some (word (0x0D400000 + g.toNat * 262144 + d.val * 4096 + a.val * 64 + b.code))
  | .laneid g d => some (word (0x0D800000 + g.toNat * 262144 + d.val * 4096))
  | .fadd m g d a b => some (word (0x10000000 + m.code * 524288 + g.toNat * 262144 + d.val * 4096 + a.val * 64 + b.code))
  | .fsub m g d a b => some (word (0x10400000 + m.code * 524288 + g.toNat * 262144 + d.val * 4096 + a.val * 64 + b.code))
  | .fmul m g d a b => some (word (0x10800000 + m.code * 524288 + g.toNat * 262144 + d.val * 4096 + a.val * 64 + b.code))
  | .ffma m g d a b => some (word (0x10C00000 + m.code * 524288 + g.toNat * 262144 + d.val * 4096 + a.val * 64 + b.code))
  | .ffms m g d a b => some (word (0x11000000 + m.code * 524288 + g.toNat * 262144 + d.val * 4096 + a.val * 64 + b.code))
  | .fnfma m g d a b => some (word (0x11400000 + m.code * 524288 + g.toNat * 262144 + d.val * 4096 + a.val * 64 + b.code))
  | .fmin m g d a b => some (word (0x11800000 + m.code * 524288 + g.toNat * 262144 + d.val * 4096 + a.val * 64 + b.code))
  | .fmax m g d a b => some (word (0x11C00000 + m.code * 524288 + g.toNat * 262144 + d.val * 4096 + a.val * 64 + b.code))
  | .fdiv m g d a b => some (word (0x12000000 + m.code * 524288 + g.toNat * 262144 + d.val * 4096 + a.val * 64 + b.code))
  | .fsqrt m g d a => some (word (0x12400000 + m.code * 524288 + g.toNat * 262144 + d.val * 4096 + a.val * 64))
  | .frcp g d a => some (word (0x12800000 + g.toNat * 262144 + d.val * 4096 + a.val * 64))
  | .frsq g d a => some (word (0x12C00000 + g.toNat * 262144 + d.val * 4096 + a.val * 64))
  | .fex2 g d a => some (word (0x13000000 + g.toNat * 262144 + d.val * 4096 + a.val * 64))
  | .flg2 g d a => some (word (0x13400000 + g.toNat * 262144 + d.val * 4096 + a.val * 64))
  | .fsin g d a => some (word (0x13800000 + g.toNat * 262144 + d.val * 4096 + a.val * 64))
  | .fcos g d a => some (word (0x13C00000 + g.toNat * 262144 + d.val * 4096 + a.val * 64))
  | .feq g d a b => some (word (0x14000000 + g.toNat * 262144 + d.val * 4096 + a.val * 64 + b.code))
  | .fne g d a b => some (word (0x14400000 + g.toNat * 262144 + d.val * 4096 + a.val * 64 + b.code))
  | .flt g d a b => some (word (0x14800000 + g.toNat * 262144 + d.val * 4096 + a.val * 64 + b.code))
  | .fle g d a b => some (word (0x14C00000 + g.toNat * 262144 + d.val * 4096 + a.val * 64 + b.code))
  | .funord g d a b => some (word (0x15000000 + g.toNat * 262144 + d.val * 4096 + a.val * 64 + b.code))
  | .fcls g d a k => some (word (0x15400000 + g.toNat * 262144 + d.val * 4096 + a.val * 64 + k.toNat))
  | .dadd m g d a b => some (word (0x16000000 + m.code * 524288 + g.toNat * 262144 + d.val * 4096 + a.val * 64 + b.val))
  | .dsub m g d a b => some (word (0x16400000 + m.code * 524288 + g.toNat * 262144 + d.val * 4096 + a.val * 64 + b.val))
  | .dmul m g d a b => some (word (0x16800000 + m.code * 524288 + g.toNat * 262144 + d.val * 4096 + a.val * 64 + b.val))
  | .dfma m g d a b => some (word (0x16C00000 + m.code * 524288 + g.toNat * 262144 + d.val * 4096 + a.val * 64 + b.val))
  | .ddiv m g d a b => some (word (0x17000000 + m.code * 524288 + g.toNat * 262144 + d.val * 4096 + a.val * 64 + b.val))
  | .dsqrt m g d a => some (word (0x17400000 + m.code * 524288 + g.toNat * 262144 + d.val * 4096 + a.val * 64))
  | .hadd2 m g d a b => some (word (0x18000000 + m.code * 524288 + g.toNat * 262144 + d.val * 4096 + a.val * 64 + b.code))
  | .hmul2 m g d a b => some (word (0x18400000 + m.code * 524288 + g.toNat * 262144 + d.val * 4096 + a.val * 64 + b.code))
  | .hfma2 m g d a b => some (word (0x18800000 + m.code * 524288 + g.toNat * 262144 + d.val * 4096 + a.val * 64 + b.code))
  | .badd2 m g d a b => some (word (0x18C00000 + m.code * 524288 + g.toNat * 262144 + d.val * 4096 + a.val * 64 + b.code))
  | .bmul2 m g d a b => some (word (0x19000000 + m.code * 524288 + g.toNat * 262144 + d.val * 4096 + a.val * 64 + b.code))
  | .bfma2 m g d a b => some (word (0x19400000 + m.code * 524288 + g.toNat * 262144 + d.val * 4096 + a.val * 64 + b.code))
  | .cvtF32I32 m g d a => some (word (0x1A000000 + m.code * 524288 + g.toNat * 262144 + d.val * 4096 + a.val * 64))
  | .cvtI32F32 m g d a => some (word (0x1A400000 + m.code * 524288 + g.toNat * 262144 + d.val * 4096 + a.val * 64))
  | .cvtF32N32 m g d a => some (word (0x1A800000 + m.code * 524288 + g.toNat * 262144 + d.val * 4096 + a.val * 64))
  | .cvtN32F32 m g d a => some (word (0x1AC00000 + m.code * 524288 + g.toNat * 262144 + d.val * 4096 + a.val * 64))
  | .cvtF32F16 m g d a => some (word (0x1B000000 + m.code * 524288 + g.toNat * 262144 + d.val * 4096 + a.val * 64))
  | .cvtF16x2F32 m g d a b => some (word (0x1B400000 + m.code * 524288 + g.toNat * 262144 + d.val * 4096 + a.val * 64 + b.code))
  | .cvtF64F32 m g d a => some (word (0x1B800000 + m.code * 524288 + g.toNat * 262144 + d.val * 4096 + a.val * 64))
  | .cvtF32F64 m g d a => some (word (0x1BC00000 + m.code * 524288 + g.toNat * 262144 + d.val * 4096 + a.val * 64))
  | .cvtF32Bf16 m g d a => some (word (0x1C000000 + m.code * 524288 + g.toNat * 262144 + d.val * 4096 + a.val * 64))
  | .cvtBf16x2F32 m g d a b => some (word (0x1C400000 + m.code * 524288 + g.toNat * 262144 + d.val * 4096 + a.val * 64 + b.code))
  | .cvtF32E4m3 m g d a => some (word (0x1C800000 + m.code * 524288 + g.toNat * 262144 + d.val * 4096 + a.val * 64))
  | .cvtE4m3x2F32 m g d a b => some (word (0x1CC00000 + m.code * 524288 + g.toNat * 262144 + d.val * 4096 + a.val * 64 + b.code))
  | .cvtF32E5m2 m g d a => some (word (0x1D000000 + m.code * 524288 + g.toNat * 262144 + d.val * 4096 + a.val * 64))
  | .cvtE5m2x2F32 m g d a b => some (word (0x1D400000 + m.code * 524288 + g.toNat * 262144 + d.val * 4096 + a.val * 64 + b.code))
  | .unpk4S m g d a b => some (word (0x1D800000 + m.code * 524288 + g.toNat * 262144 + d.val * 4096 + a.val * 64 + b.code))
  | .unpk4N m g d a b => some (word (0x1DC00000 + m.code * 524288 + g.toNat * 262144 + d.val * 4096 + a.val * 64 + b.code))
  | .iadd m g d a b => some (word (0x20000000 + m.code * 524288 + g.toNat * 262144 + d.val * 4096 + a.val * 64 + b.val))
  | .isub m g d a b => some (word (0x20400000 + m.code * 524288 + g.toNat * 262144 + d.val * 4096 + a.val * 64 + b.val))
  | .imul m g d a b => some (word (0x20800000 + m.code * 524288 + g.toNat * 262144 + d.val * 4096 + a.val * 64 + b.val))
  | .idiv m g d a b => some (word (0x20C00000 + m.code * 524288 + g.toNat * 262144 + d.val * 4096 + a.val * 64 + b.val))
  | .isqr m g d a => some (word (0x21000000 + m.code * 524288 + g.toNat * 262144 + d.val * 4096 + a.val * 64))
  | .ihull m g d a b => some (word (0x21400000 + m.code * 524288 + g.toNat * 262144 + d.val * 4096 + a.val * 64 + b.val))
  | .isect m g d a b => some (word (0x21800000 + m.code * 524288 + g.toNat * 262144 + d.val * 4096 + a.val * 64 + b.val))
  | .iwid m g d a => some (word (0x21C00000 + m.code * 524288 + g.toNat * 262144 + d.val * 4096 + a.val * 64))
  | .isqrt m g d a => some (word (0x22000000 + m.code * 524288 + g.toNat * 262144 + d.val * 4096 + a.val * 64))
  | .iabs m g d a => some (word (0x22400000 + m.code * 524288 + g.toNat * 262144 + d.val * 4096 + a.val * 64))
  | .ineg m g d a => some (word (0x22800000 + m.code * 524288 + g.toNat * 262144 + d.val * 4096 + a.val * 64))
  | .imid m g d a => some (word (0x22C00000 + m.code * 524288 + g.toNat * 262144 + d.val * 4096 + a.val * 64))
  | .isplit m g d a => some (word (0x23000000 + m.code * 524288 + g.toNat * 262144 + d.val * 4096 + a.val * 64))
  | .imake m g d a b => some (word (0x23400000 + m.code * 524288 + g.toNat * 262144 + d.val * 4096 + a.val * 64 + b.code))
  | .ipt m g d a => some (word (0x23800000 + m.code * 524288 + g.toNat * 262144 + d.val * 4096 + a.val * 64))
  | .ilt m g d a b => some (word (0x24000000 + m.code * 524288 + g.toNat * 262144 + d.val * 4096 + a.val * 64 + b.val))
  | .ile m g d a b => some (word (0x24400000 + m.code * 524288 + g.toNat * 262144 + d.val * 4096 + a.val * 64 + b.val))
  | .ieq m g d a b => some (word (0x24800000 + m.code * 524288 + g.toNat * 262144 + d.val * 4096 + a.val * 64 + b.val))
  | .ine m g d a b => some (word (0x24C00000 + m.code * 524288 + g.toNat * 262144 + d.val * 4096 + a.val * 64 + b.val))
  | .isubset m g d a b => some (word (0x25000000 + m.code * 524288 + g.toNat * 262144 + d.val * 4096 + a.val * 64 + b.val))
  | .icont m g d a b => some (word (0x25400000 + m.code * 524288 + g.toNat * 262144 + d.val * 4096 + a.val * 64 + b.val))
  | .iempty m g d a => some (word (0x25800000 + m.code * 524288 + g.toNat * 262144 + d.val * 4096 + a.val * 64))
  | .pand g d a b => some (word (0x26000000 + g.toNat * 262144 + d.val * 4096 + a.val * 64 + b.val))
  | .por g d a b => some (word (0x26400000 + g.toNat * 262144 + d.val * 4096 + a.val * 64 + b.val))
  | .pnot g d a => some (word (0x26800000 + g.toNat * 262144 + d.val * 4096 + a.val * 64))
  | .pxor g d a b => some (word (0x26C00000 + g.toNat * 262144 + d.val * 4096 + a.val * 64 + b.val))
  | .pdf g d a => some (word (0x27000000 + g.toNat * 262144 + d.val * 4096 + a.val * 64))
  | .pdt g d a => some (word (0x27400000 + g.toNat * 262144 + d.val * 4096 + a.val * 64))
  | .pset g d k => some (word (0x27800000 + g.toNat * 262144 + d.val * 4096 + k.toNat))
  | .pund g d a => some (word (0x27C00000 + g.toNat * 262144 + d.val * 4096 + a.val * 64))
  | .shflIdx g d a b => some (word (0x28000000 + g.toNat * 262144 + d.val * 4096 + a.val * 64 + b.code))
  | .shflUp g d a b => some (word (0x28400000 + g.toNat * 262144 + d.val * 4096 + a.val * 64 + b.code))
  | .shflDn g d a b => some (word (0x28800000 + g.toNat * 262144 + d.val * 4096 + a.val * 64 + b.code))
  | .shflXor g d a b => some (word (0x28C00000 + g.toNat * 262144 + d.val * 4096 + a.val * 64 + b.code))
  | .bcast g d a b => some (word (0x29000000 + g.toNat * 262144 + d.val * 4096 + a.val * 64 + b.code))
  | .redadd g d a => some (word (0x29400000 + g.toNat * 262144 + d.val * 4096 + a.val * 64))
  | .vote g d a => some (word (0x29800000 + g.toNat * 262144 + d.val * 4096 + a.val * 64))
  | .ballot g d a => some (word (0x29C00000 + g.toNat * 262144 + d.val * 4096 + a.val * 64))
  | .xaadd x g a => some (word (0x2C000000 + x.val * 524288 + g.toNat * 262144 + a.val * 64))
  | .xachk x => some (word (0x2C400000 + x.val * 524288))
  | .xadrn x g d => some (word (0x2C800000 + x.val * 524288 + g.toNat * 262144 + d.val * 4096))
  | .xatst x g d b => some (word (0x2CC00000 + x.val * 524288 + g.toNat * 262144 + d.val * 4096 + b.code))
  | .xaclr x => some (word (0x2D000000 + x.val * 524288))
  | .xard x g d b => some (word (0x2D400000 + x.val * 524288 + g.toNat * 262144 + d.val * 4096 + b.code))
  | .xastat x g d => some (word (0x2D800000 + x.val * 524288 + g.toNat * 262144 + d.val * 4096))
  | .sAdd d a b => some (word (0x30000000 + d.val * 4096 + a.val * 64 + b.code))
  | .sSub d a b => some (word (0x30400000 + d.val * 4096 + a.val * 64 + b.code))
  | .sAnd d a b => some (word (0x30800000 + d.val * 4096 + a.val * 64 + b.code))
  | .sOr d a b => some (word (0x30C00000 + d.val * 4096 + a.val * 64 + b.code))
  | .sXor d a b => some (word (0x31000000 + d.val * 4096 + a.val * 64 + b.code))
  | .sShl d a b => some (word (0x31400000 + d.val * 4096 + a.val * 64 + b.code))
  | .sShr d a b => some (word (0x31800000 + d.val * 4096 + a.val * 64 + b.code))
  | .sSar d a b => some (word (0x31C00000 + d.val * 4096 + a.val * 64 + b.code))
  | .sMul d a b => some (word (0x32000000 + d.val * 4096 + a.val * 64 + b.code))
  | .sMulhS d a b => some (word (0x32400000 + d.val * 4096 + a.val * 64 + b.code))
  | .sMulhN d a b => some (word (0x32800000 + d.val * 4096 + a.val * 64 + b.code))
  | .sMinS d a b => some (word (0x32C00000 + d.val * 4096 + a.val * 64 + b.code))
  | .sMaxS d a b => some (word (0x33000000 + d.val * 4096 + a.val * 64 + b.code))
  | .sSltS d a b => some (word (0x33400000 + d.val * 4096 + a.val * 64 + b.code))
  | .sSltN d a b => some (word (0x33800000 + d.val * 4096 + a.val * 64 + b.code))
  | .sSeq d a b => some (word (0x33C00000 + d.val * 4096 + a.val * 64 + b.code))
  | .sAddi d a i => some (word (0x34000000 + d.val * 65536 + a.val * 1024 + i.toNat))
  | .sAndi d a i => some (word (0x34400000 + d.val * 65536 + a.val * 1024 + i.toNat))
  | .sOri d a i => some (word (0x34800000 + d.val * 65536 + a.val * 1024 + i.toNat))
  | .sXori d a i => some (word (0x34C00000 + d.val * 65536 + a.val * 1024 + i.toNat))
  | .sShli d a i => some (word (0x35000000 + d.val * 65536 + a.val * 1024 + i.toNat))
  | .sShri d a i => some (word (0x35400000 + d.val * 65536 + a.val * 1024 + i.toNat))
  | .sSari d a i => some (word (0x35800000 + d.val * 65536 + a.val * 1024 + i.toNat))
  | .sSltiS d a i => some (word (0x35C00000 + d.val * 65536 + a.val * 1024 + i.toNat))
  | .sMovi d i => some (word (0x36000000 + d.val * 524288 + i.toNat))
  | .movh d i => some (word (0x38000000 + d.val * 524288 + i.toNat))
  | .add64 d a b => some (word (0x3A000000 + d.val * 4096 + a.val * 64 + b.val))
  | .sub64 d a b => some (word (0x3A400000 + d.val * 4096 + a.val * 64 + b.val))
  | .addz64 d a b => some (word (0x3A800000 + d.val * 4096 + a.val * 64 + b.code))
  | .mov64 d a => some (word (0x3AC00000 + d.val * 4096 + a.val * 64))
  | .stov d a => some (word (0x3C000000 + d.val * 4096 + a.val * 64))
  | .vtos d a b => some (word (0x3C400000 + d.val * 4096 + a.val * 64 + b.code))
  | .vtosf d a => some (word (0x3C800000 + d.val * 4096 + a.val * 64))
  | .ssel d a b => some (word (0x3CC00000 + d.val * 4096 + a.val * 64 + b.code))
  | .brp s p t r => some (word (0x40000000 + s.code * 4194304 + p.val * 524288 + t.toNat * 512 + r.toNat))
  | .brs k a o => some (word (0x42000000 + k.code * 4194304 + a.val * 65536 + o.toNat))
  | .jmp o => some (word (0x44000000 + o.toNat))
  | .call o => some (word (0x44400000 + o.toNat))
  | .ret => some (word (0x46000000))
  | .jmpr a => some (word (0x46400000 + a.val * 64))
  | .callr a => some (word (0x46800000 + a.val * 64))
  | .exit => some (word (0x46C00000))
  | .kill => some (word (0x47000000))
  | .brk => some (word (0x47400000))
  | .nop => some (word (0x47800000))
  | .yield => some (word (0x47C00000))
  | .brpl s p r _ => some (word (0x48000000 + s.code * 4194304 + p.val * 524288 + r.toNat * 8))
  | .loop l a e => some (word (0x4A000000 + l.val * 1048576 + a.val * 16384 + e.toNat))
  | .loopi l k e => some (word (0x4A400000 + l.val * 1048576 + k.toNat * 16384 + e.toNat))
  | .lbrk l => some (word (0x4A800000 + l.val * 1048576))
  | .bar n => some (word (0x4C000000 + n.val))
  | .bararr n => some (word (0x4C080000 + n.val))
  | .barwait n => some (word (0x4C100000 + n.val))
  | .abinit d k => some (word (0x4C180000 + d.val * 8192 + k.toNat))
  | .abarr d k => some (word (0x4C200000 + d.val * 8192 + k.toNat))
  | .abwait d p => some (word (0x4C280000 + d.val * 8192 + p.toNat))
  | .sleep n => some (word (0x4C300000 + n.toNat))
  | .wtok d => some (word (0x4C380000 + d.val * 8192))
  | .rgn => some (word (0x4C400000))
  | .rgnT => some (word (0x4C480000))
  | .rgnend => some (word (0x4C500000))
  | .ld8n m g d ad => some (word (0x50000000 + m.code * 524288 + g.toNat * 262144 + d.val * 4096 + ad.code))
  | .ld8s m g d ad => some (word (0x50400000 + m.code * 524288 + g.toNat * 262144 + d.val * 4096 + ad.code))
  | .ld16n m g d ad => some (word (0x50800000 + m.code * 524288 + g.toNat * 262144 + d.val * 4096 + ad.code))
  | .ld16s m g d ad => some (word (0x50C00000 + m.code * 524288 + g.toNat * 262144 + d.val * 4096 + ad.code))
  | .ld32 m g d ad => some (word (0x51000000 + m.code * 524288 + g.toNat * 262144 + d.val * 4096 + ad.code))
  | .ld64 m g d ad => some (word (0x51400000 + m.code * 524288 + g.toNat * 262144 + d.val * 4096 + ad.code))
  | .ld128 m g d ad => some (word (0x51800000 + m.code * 524288 + g.toNat * 262144 + d.val * 4096 + ad.code))
  | .ldi m g d ad => some (word (0x51C00000 + m.code * 524288 + g.toNat * 262144 + d.val * 4096 + ad.code))
  | .st8 m g d ad => some (word (0x52000000 + m.code * 524288 + g.toNat * 262144 + d.val * 4096 + ad.code))
  | .st16 m g d ad => some (word (0x52400000 + m.code * 524288 + g.toNat * 262144 + d.val * 4096 + ad.code))
  | .st32 m g d ad => some (word (0x52800000 + m.code * 524288 + g.toNat * 262144 + d.val * 4096 + ad.code))
  | .st64 m g d ad => some (word (0x52C00000 + m.code * 524288 + g.toNat * 262144 + d.val * 4096 + ad.code))
  | .st128 m g d ad => some (word (0x53000000 + m.code * 524288 + g.toNat * 262144 + d.val * 4096 + ad.code))
  | .sti m g d ad => some (word (0x53400000 + m.code * 524288 + g.toNat * 262144 + d.val * 4096 + ad.code))
  | .ldb8n m g d ad => some (word (0x54000000 + m.code * 524288 + g.toNat * 262144 + d.val * 4096 + (ad.a.val * 64 + ad.s.val)))
  | .ldb8s m g d ad => some (word (0x54400000 + m.code * 524288 + g.toNat * 262144 + d.val * 4096 + (ad.a.val * 64 + ad.s.val)))
  | .ldb16n m g d ad => some (word (0x54800000 + m.code * 524288 + g.toNat * 262144 + d.val * 4096 + (ad.a.val * 64 + ad.s.val)))
  | .ldb16s m g d ad => some (word (0x54C00000 + m.code * 524288 + g.toNat * 262144 + d.val * 4096 + (ad.a.val * 64 + ad.s.val)))
  | .ldb32 m g d ad => some (word (0x55000000 + m.code * 524288 + g.toNat * 262144 + d.val * 4096 + (ad.a.val * 64 + ad.s.val)))
  | .ldb64 m g d ad => some (word (0x55400000 + m.code * 524288 + g.toNat * 262144 + d.val * 4096 + (ad.a.val * 64 + ad.s.val)))
  | .ldb128 m g d ad => some (word (0x55800000 + m.code * 524288 + g.toNat * 262144 + d.val * 4096 + (ad.a.val * 64 + ad.s.val)))
  | .ldbi m g d ad => some (word (0x55C00000 + m.code * 524288 + g.toNat * 262144 + d.val * 4096 + (ad.a.val * 64 + ad.s.val)))
  | .stb8 m g d ad => some (word (0x56000000 + m.code * 524288 + g.toNat * 262144 + d.val * 4096 + (ad.a.val * 64 + ad.s.val)))
  | .stb16 m g d ad => some (word (0x56400000 + m.code * 524288 + g.toNat * 262144 + d.val * 4096 + (ad.a.val * 64 + ad.s.val)))
  | .stb32 m g d ad => some (word (0x56800000 + m.code * 524288 + g.toNat * 262144 + d.val * 4096 + (ad.a.val * 64 + ad.s.val)))
  | .stb64 m g d ad => some (word (0x56C00000 + m.code * 524288 + g.toNat * 262144 + d.val * 4096 + (ad.a.val * 64 + ad.s.val)))
  | .stb128 m g d ad => some (word (0x57000000 + m.code * 524288 + g.toNat * 262144 + d.val * 4096 + (ad.a.val * 64 + ad.s.val)))
  | .stbi m g d ad => some (word (0x57400000 + m.code * 524288 + g.toNat * 262144 + d.val * 4096 + (ad.a.val * 64 + ad.s.val)))
  | .ldc8n m g d ad => some (word (0x58000000 + m.code * 524288 + g.toNat * 262144 + d.val * 4096 + (ad.a.val * 64 + ad.s.val)))
  | .ldc8s m g d ad => some (word (0x58400000 + m.code * 524288 + g.toNat * 262144 + d.val * 4096 + (ad.a.val * 64 + ad.s.val)))
  | .ldc16n m g d ad => some (word (0x58800000 + m.code * 524288 + g.toNat * 262144 + d.val * 4096 + (ad.a.val * 64 + ad.s.val)))
  | .ldc16s m g d ad => some (word (0x58C00000 + m.code * 524288 + g.toNat * 262144 + d.val * 4096 + (ad.a.val * 64 + ad.s.val)))
  | .ldc32 m g d ad => some (word (0x59000000 + m.code * 524288 + g.toNat * 262144 + d.val * 4096 + (ad.a.val * 64 + ad.s.val)))
  | .ldc64 m g d ad => some (word (0x59400000 + m.code * 524288 + g.toNat * 262144 + d.val * 4096 + (ad.a.val * 64 + ad.s.val)))
  | .ldc128 m g d ad => some (word (0x59800000 + m.code * 524288 + g.toNat * 262144 + d.val * 4096 + (ad.a.val * 64 + ad.s.val)))
  | .ldci m g d ad => some (word (0x59C00000 + m.code * 524288 + g.toNat * 262144 + d.val * 4096 + (ad.a.val * 64 + ad.s.val)))
  | .stc8 m g d ad => some (word (0x5A000000 + m.code * 524288 + g.toNat * 262144 + d.val * 4096 + (ad.a.val * 64 + ad.s.val)))
  | .stc16 m g d ad => some (word (0x5A400000 + m.code * 524288 + g.toNat * 262144 + d.val * 4096 + (ad.a.val * 64 + ad.s.val)))
  | .stc32 m g d ad => some (word (0x5A800000 + m.code * 524288 + g.toNat * 262144 + d.val * 4096 + (ad.a.val * 64 + ad.s.val)))
  | .stc64 m g d ad => some (word (0x5AC00000 + m.code * 524288 + g.toNat * 262144 + d.val * 4096 + (ad.a.val * 64 + ad.s.val)))
  | .stc128 m g d ad => some (word (0x5B000000 + m.code * 524288 + g.toNat * 262144 + d.val * 4096 + (ad.a.val * 64 + ad.s.val)))
  | .stci m g d ad => some (word (0x5B400000 + m.code * 524288 + g.toNat * 262144 + d.val * 4096 + (ad.a.val * 64 + ad.s.val)))
  | .atomAdd m g d ad => some (word (0x5C000000 + m.code * 524288 + g.toNat * 262144 + d.val * 4096 + ad.code))
  | .atomMinS m g d ad => some (word (0x5C400000 + m.code * 524288 + g.toNat * 262144 + d.val * 4096 + ad.code))
  | .atomMaxS m g d ad => some (word (0x5C800000 + m.code * 524288 + g.toNat * 262144 + d.val * 4096 + ad.code))
  | .atomMinN m g d ad => some (word (0x5CC00000 + m.code * 524288 + g.toNat * 262144 + d.val * 4096 + ad.code))
  | .atomMaxN m g d ad => some (word (0x5D000000 + m.code * 524288 + g.toNat * 262144 + d.val * 4096 + ad.code))
  | .atomAnd m g d ad => some (word (0x5D400000 + m.code * 524288 + g.toNat * 262144 + d.val * 4096 + ad.code))
  | .atomOr m g d ad => some (word (0x5D800000 + m.code * 524288 + g.toNat * 262144 + d.val * 4096 + ad.code))
  | .atomXor m g d ad => some (word (0x5DC00000 + m.code * 524288 + g.toNat * 262144 + d.val * 4096 + ad.code))
  | .atomXchg m g d ad => some (word (0x5E000000 + m.code * 524288 + g.toNat * 262144 + d.val * 4096 + ad.code))
  | .atomCas m g d ad => some (word (0x5E400000 + m.code * 524288 + g.toNat * 262144 + d.val * 4096 + ad.code))
  | .atomFadd m g d ad => some (word (0x5E800000 + m.code * 524288 + g.toNat * 262144 + d.val * 4096 + ad.code))
  | .atomFmin m g d ad => some (word (0x5EC00000 + m.code * 524288 + g.toNat * 262144 + d.val * 4096 + ad.code))
  | .atomFmax m g d ad => some (word (0x5F000000 + m.code * 524288 + g.toNat * 262144 + d.val * 4096 + ad.code))
  | .atomAdd64 m g d ad => some (word (0x5F400000 + m.code * 524288 + g.toNat * 262144 + d.val * 4096 + ad.code))
  | .atomcAdd m g d ad => some (word (0x60000000 + m.toNat * 524288 + g.toNat * 262144 + d.val * 4096 + (ad.a.val * 64 + ad.s.val)))
  | .atomcMinS m g d ad => some (word (0x60400000 + m.toNat * 524288 + g.toNat * 262144 + d.val * 4096 + (ad.a.val * 64 + ad.s.val)))
  | .atomcMaxS m g d ad => some (word (0x60800000 + m.toNat * 524288 + g.toNat * 262144 + d.val * 4096 + (ad.a.val * 64 + ad.s.val)))
  | .atomcOr m g d ad => some (word (0x60C00000 + m.toNat * 524288 + g.toNat * 262144 + d.val * 4096 + (ad.a.val * 64 + ad.s.val)))
  | .atomcXchg m g d ad => some (word (0x61000000 + m.toNat * 524288 + g.toNat * 262144 + d.val * 4096 + (ad.a.val * 64 + ad.s.val)))
  | .atomcCas m g d ad => some (word (0x61400000 + m.toNat * 524288 + g.toNat * 262144 + d.val * 4096 + (ad.a.val * 64 + ad.s.val)))
  | .atomAddSc g d ad => some (word (0x62000000 + g.toNat * 262144 + d.val * 4096 + ad.code))
  | .atomXchgSc g d ad => some (word (0x62400000 + g.toNat * 262144 + d.val * 4096 + ad.code))
  | .atomCasSc g d ad => some (word (0x62800000 + g.toNat * 262144 + d.val * 4096 + ad.code))
  | .fenceAcq k => some (word (0x64000000 + k.code))
  | .fenceRel k => some (word (0x64080000 + k.code))
  | .fenceAr k => some (word (0x64100000 + k.code))
  | .fenceSc => some (word (0x64180003))
  | .fenceWb k => some (word (0x64200000 + k.code))
  | .fenceInval k => some (word (0x64280000 + k.code))
  | .bfence k => some (word (0x64300000 + k.code))
  | .pref g ad => some (word (0x66000000 + g.toNat * 262144 + ad.code))
  | .prefL1 g ad => some (word (0x66400000 + g.toNat * 262144 + ad.code))
  | .resid g k ad => some (word (0x66800000 + g.toNat * 262144 + k.toNat * 4096 + ad.code))
  | .cwb g ad => some (word (0x66C00000 + g.toNat * 262144 + ad.code))
  | .cinv g ad => some (word (0x67000000 + g.toNat * 262144 + ad.code))
  | .settag g d ad => some (word (0x67400000 + g.toNat * 262144 + d.val * 4096 + ad.code))
  | .gettag g d ad => some (word (0x67800000 + g.toNat * 262144 + d.val * 4096 + ad.code))
  | .cpyIn d a b => some (word (0x68000000 + d.val * 4096 + a.val * 64 + b.val))
  | .cpyOut d a b => some (word (0x68080000 + d.val * 4096 + a.val * 64 + b.val))
  | .cpyMc d a b => some (word (0x68100000 + d.val * 4096 + a.val * 64 + b.val))
  | .cpyCc d a b => some (word (0x68180000 + d.val * 4096 + a.val * 64 + b.val))
  | .cpy2d d a b => some (word (0x68200000 + d.val * 4096 + a.val * 64 + b.val))
  | .cpy2dmc d a b => some (word (0x68280000 + d.val * 4096 + a.val * 64 + b.val))
  | .cpyWb d a b => some (word (0x68300000 + d.val * 4096 + a.val * 64 + b.val))
  | .cseal d => some (word (0x68380000 + d.val * 4096))
  | .cwait d a => some (word (0x68400000 + d.val * 4096 + a.val * 64))
  | .cpoll d a => some (word (0x68480000 + d.val * 4096 + a.val * 64))
  | .putsig d a b => some (word (0x68500000 + d.val * 4096 + a.val * 64 + b.val))
  | .qpush d a b => some (word (0x6A000000 + d.val * 4096 + a.val * 64 + b.val))
  | .qpop d a => some (word (0x6A080000 + d.val * 4096 + a.val * 64))
  | .qpoll d a => some (word (0x6A100000 + d.val * 4096 + a.val * 64))
  | .baddS32 g d ad => some (word (0x6C000000 + g.toNat * 262144 + d.val * 4096 + ad.code))
  | .baddF32 g d ad => some (word (0x6C400000 + g.toNat * 262144 + d.val * 4096 + ad.code))
  | .baddBf16x2 g d ad => some (word (0x6C800000 + g.toNat * 262144 + d.val * 4096 + ad.code))
  | .bmaxF32 g d ad => some (word (0x6CC00000 + g.toNat * 262144 + d.val * 4096 + ad.code))
  | .bminF32 g d ad => some (word (0x6D000000 + g.toNat * 262144 + d.val * 4096 + ad.code))
  | .mma d a => some (word (0x6E000000 + d.val * 4096 + a.val * 64))
  | .mld d a => some (word (0x6E080000 + d.val * 4096 + a.val * 64))
  | .mst d a => some (word (0x6E100000 + d.val * 4096 + a.val * 64))
  | .mzero d a => some (word (0x6E180000 + d.val * 4096 + a.val * 64))
  | .mres d a => some (word (0x6E200000 + d.val * 4096 + a.val * 64))
  | .mrel a => some (word (0x6E280000 + a.val * 64))
  | .mspan d a => some (word (0x6E300000 + d.val * 4096 + a.val * 64))
  | .munspan => some (word (0x6E380000))
  | .frag g d a b => some (word (0x70000000 + g.toNat * 262144 + d.val * 4096 + a.val * 64 + b.val))
  | .fragKill g a => some (word (0x70400000 + g.toNat * 262144 + a.val * 64))
  | .fannc g a => some (word (0x70800000 + g.toNat * 262144 + a.val * 64))
  | .tsampNow g d a b => some (word (0x70C00000 + g.toNat * 262144 + d.val * 4096 + a.val * 64 + b.code))
  | .tsampSet g d a b => some (word (0x71000000 + g.toNat * 262144 + d.val * 4096 + a.val * 64 + b.code))
  | .tflush g b => some (word (0x71400000 + g.toNat * 262144 + b.code))
  | .pxld g d k => some (word (0x71800000 + g.toNat * 262144 + d.val * 4096 + k.toNat))
  | .pxst g d k => some (word (0x71C00000 + g.toNat * 262144 + d.val * 4096 + k.toNat))
  | .texSample g d a b => some (word (0x72000000 + g.toNat * 262144 + d.val * 4096 + a.val * 64 + b.val))
  | .texLod g d a b => some (word (0x72400000 + g.toNat * 262144 + d.val * 4096 + a.val * 64 + b.val))
  | .texFetch g d a b => some (word (0x72800000 + g.toNat * 262144 + d.val * 4096 + a.val * 64 + b.val))
  | .texGather4 g d a b => some (word (0x72C00000 + g.toNat * 262144 + d.val * 4096 + a.val * 64 + b.val))
  | .emit g d a b => some (word (0x74000000 + g.toNat * 262144 + d.val * 4096 + a.val * 64 + b.val))
  | .spawn g d a b => some (word (0x74400000 + g.toNat * 262144 + d.val * 4096 + a.val * 64 + b.val))
  | .csrr d k => some (word (0x76000000 + d.val * 8192 + k.toNat))
  | .csrw d k => some (word (0x76080000 + d.val * 8192 + k.toNat))
  | .csrs d k => some (word (0x76100000 + d.val * 8192 + k.toNat))
  | .csrc d k => some (word (0x76180000 + d.val * 8192 + k.toNat))
  | .csrwi v k => some (word (0x76200000 + v.toNat * 8192 + k.toNat))
  | .vgrow => some (word (0x76280000))
  | .vgrowTry d => some (word (0x76300000 + d.val * 8192))
  | .vshrink => some (word (0x76380000))
  | .trap n => some (word (0x78000000 + n.toNat))
  | .tret => some (word (0x78080000))
  | .lkill => some (word (0x78100000))
  | .halt n => some (word (0x78180000 + n.toNat))
  | .frec d => some (word (0x78200000 + d.val * 8192))
  | .poolGuard x => some (word (0x7E000000 + x.toNat))
  | _ => none

/-- The literal of an operand b. -/
def VSrc.literal : VSrc → Option Word
  | .reg _ => none
  | .lit w => some w
def SSrc.literal : SSrc → Option Word
  | .reg _ => none
  | .lit w => some w

/-- The literal that stands behind an instruction's word, if it has one (R45). -/
def Instr.literal : Instr → Option Word
  | .add _ _ _ _ b => b.literal
  | .sub _ _ _ _ b => b.literal
  | .minS _ _ _ b => b.literal
  | .maxS _ _ _ b => b.literal
  | .minN _ _ _ b => b.literal
  | .maxN _ _ _ b => b.literal
  | .absd _ _ _ _ b => b.literal
  | .and _ _ _ b => b.literal
  | .or _ _ _ b => b.literal
  | .xor _ _ _ b => b.literal
  | .andn _ _ _ b => b.literal
  | .shl _ _ _ b => b.literal
  | .shr _ _ _ b => b.literal
  | .sar _ _ _ b => b.literal
  | .mul _ _ _ b => b.literal
  | .mulhS _ _ _ b => b.literal
  | .mulhN _ _ _ b => b.literal
  | .mad _ _ _ b => b.literal
  | .dot4S8 _ _ _ b => b.literal
  | .eq _ _ _ b => b.literal
  | .ne _ _ _ b => b.literal
  | .ltS _ _ _ b => b.literal
  | .leS _ _ _ b => b.literal
  | .ltN _ _ _ b => b.literal
  | .leN _ _ _ b => b.literal
  | .test _ _ _ b => b.literal
  | .mov _ _ b => b.literal
  | .sel _ _ _ b => b.literal
  | .selu _ _ _ b => b.literal
  | .bfeN _ _ _ b => b.literal
  | .bfeS _ _ _ b => b.literal
  | .bfi _ _ _ b => b.literal
  | .fadd _ _ _ _ b => b.literal
  | .fsub _ _ _ _ b => b.literal
  | .fmul _ _ _ _ b => b.literal
  | .ffma _ _ _ _ b => b.literal
  | .ffms _ _ _ _ b => b.literal
  | .fnfma _ _ _ _ b => b.literal
  | .fmin _ _ _ _ b => b.literal
  | .fmax _ _ _ _ b => b.literal
  | .fdiv _ _ _ _ b => b.literal
  | .feq _ _ _ b => b.literal
  | .fne _ _ _ b => b.literal
  | .flt _ _ _ b => b.literal
  | .fle _ _ _ b => b.literal
  | .funord _ _ _ b => b.literal
  | .hadd2 _ _ _ _ b => b.literal
  | .hmul2 _ _ _ _ b => b.literal
  | .hfma2 _ _ _ _ b => b.literal
  | .badd2 _ _ _ _ b => b.literal
  | .bmul2 _ _ _ _ b => b.literal
  | .bfma2 _ _ _ _ b => b.literal
  | .cvtF16x2F32 _ _ _ _ b => b.literal
  | .cvtBf16x2F32 _ _ _ _ b => b.literal
  | .cvtE4m3x2F32 _ _ _ _ b => b.literal
  | .cvtE5m2x2F32 _ _ _ _ b => b.literal
  | .unpk4S _ _ _ _ b => b.literal
  | .unpk4N _ _ _ _ b => b.literal
  | .imake _ _ _ _ b => b.literal
  | .shflIdx _ _ _ b => b.literal
  | .shflUp _ _ _ b => b.literal
  | .shflDn _ _ _ b => b.literal
  | .shflXor _ _ _ b => b.literal
  | .bcast _ _ _ b => b.literal
  | .xatst _ _ _ b => b.literal
  | .xard _ _ _ b => b.literal
  | .sAdd _ _ b => b.literal
  | .sSub _ _ b => b.literal
  | .sAnd _ _ b => b.literal
  | .sOr _ _ b => b.literal
  | .sXor _ _ b => b.literal
  | .sShl _ _ b => b.literal
  | .sShr _ _ b => b.literal
  | .sSar _ _ b => b.literal
  | .sMul _ _ b => b.literal
  | .sMulhS _ _ b => b.literal
  | .sMulhN _ _ b => b.literal
  | .sMinS _ _ b => b.literal
  | .sMaxS _ _ b => b.literal
  | .sSltS _ _ b => b.literal
  | .sSltN _ _ b => b.literal
  | .sSeq _ _ b => b.literal
  | .addz64 _ _ b => b.literal
  | .vtos _ _ b => b.literal
  | .ssel _ _ b => b.literal
  | .brpl _ _ _ off => some off
  | .tsampNow _ _ _ b => b.literal
  | .tsampSet _ _ _ b => b.literal
  | .tflush _ b => b.literal
  | _ => none

/-- An instruction's word with a chain bit (R43). -/
def encodeCoded (c : Coded) : Option Word :=
  (encode c.instr).map fun w => BitVec.ofNat 32 (w.toNat + c.chain.toNat * 0x80000000)

/-- The little-endian word at a list of bytes, absent bytes read as 0 (R4). -/
def wordOfBytes : List Byte → Word
  | b0 :: b1 :: b2 :: b3 :: _ => b3 ++ b2 ++ b1 ++ b0
  | b0 :: b1 :: b2 :: _ => (0 : Byte) ++ b2 ++ b1 ++ b0
  | b0 :: b1 :: _ => (0 : Byte) ++ (0 : Byte) ++ b1 ++ b0
  | b0 :: _ => (0 : Byte) ++ (0 : Byte) ++ (0 : Byte) ++ b0
  | [] => 0

/-- The bytes of a word, lowest address first (R4). -/
def bytesOfWord (w : Word) : List Byte :=
  [w.extractLsb' 0 8, w.extractLsb' 8 8, w.extractLsb' 16 8, w.extractLsb' 24 8]

/-- Decoding from bytes in memory: a word, and the word after it where it owns a literal. -/
def decodeBytes (bs : List Byte) : Option Instr := decode (wordOfBytes bs) (wordOfBytes (bs.drop 4))

/-- The instruction that the decoder reads from the low `nbits` bits of `w`, laid out as the hardware stores its words; the
bits above are 0. -/
def decodeTableWord (nbits w : Nat) : Option Instr :=
  let x := w % 2 ^ nbits
  decodeBytes (bytesOfWord (BitVec.ofNat 32 x) ++ bytesOfWord (BitVec.ofNat 32 (x / 2 ^ 32)))

end

end Sys2Proof
end

