-- ==== Sys2Proof/Config.lean ====
section
/-!
DEFINITION. Config.lean: the values the spec leaves open, as opaque constants (nothing can evaluate one), and the
figures of R1 that rules use.
-/
namespace Sys2Proof.Config

/-- The six functions of R156, whose result inside its bound is the implementation's. -/
inductive Fn where
  | rcp | rsq | ex2 | lg2 | sin | cos
  deriving DecidableEq, Repr

/-- FREE VALUE (log 9): where inside its bound a function's result lies, as a count of units in the last place. -/
opaque ulps : Fn → Word → Int
/-- FREE VALUE (log 9): the result of `fsin` and `fcos` as the implementation gives it, before its bound. -/
opaque trig : Fn → Word → Word
/-- FREE VALUE (log 9): the sign of a zero bound of `ihull`, `isect` and `isqrt` that the spec leaves open (R143), by the two
zeros it is chosen from. -/
opaque zeroSign : Nat → Nat → Bool
/-- FREE VALUE (log 6): a word that the spec leaves undefined, by the counter `fresh` of the state. -/
opaque word : Nat → Word
/-- FREE VALUE (log 6): an element of the accumulator store that the spec leaves undefined, by counter and place. -/
opaque element : Nat → Nat → Word
/-- FREE VALUE (log 6): a byte that the spec leaves undefined. -/
opaque byte : Nat → Byte
/-- FREE VALUE (log 5): a choice the spec leaves to the device. -/
opaque choice : Nat → Nat
/-- FREE VALUE (log 6): the cycles beyond the first that pass in a step. -/
opaque cycles : Nat → Nat
/-- FREE VALUE (log 12): a byte of a sector that was encrypted under one key and is decrypted under another (R288): its
physical address, (key id, version) stored under and read under, the sector's bytes as stored. -/
opaque garble : Nat → Nat × Nat → Nat × Nat → List Byte → Byte
/-- FREE VALUE (log 4): which of a slice's 512 sets a line lies in, by the line's number VA / 256 (R1, R200). -/
opaque l2Set : Nat → Fin 512
/-- FREE VALUE (log 20): bytes of the parameter buffer that one triangle takes (R376): at most a page. -/
opaque triBytes : Fin 4097
/-- FREE VALUE (log 11): how many corrected errors and divergences a physical lane may show (R301). -/
opaque laneLimit : Nat
/-- FREE VALUE (log 11): SHA-256 (R300), and an SLH-DSA signature of 16,224 bytes (R299). -/
opaque sha256 : List Byte → BitVec 256
opaque slhSign : List Byte → List Byte
/-- FREE VALUE (log 1): the four measurements of the images booted before the reset state (R316). -/
opaque bootMeasure : Nat → BitVec 256
/-- FREE VALUE (log 11): the device's serial number, key digest and debug bit as a report shows them (R299), and the security versions
of the images booted before the reset state (R316; log 1). -/
opaque serial : List Byte
opaque keyDigest : BitVec 256
opaque firmware : Nat → Word

def lanes : Nat := 96
/-- R78: unread records a group holds at most. -/
def maxRecords : Nat := 128
/-- R236: copies in flight, and sealed uncompleted batches, a group holds at most. -/
def maxCopies : Nat := 64
def maxBatches : Nat := 255
/-- R36: the commit buffer of a core. -/
def commitBytes : Nat := 65536
/-- R364: slots of a block queue. -/
def blockSlots : Nat := 512
/-- R342: matrix words accepted and not completed on a core. -/
def matrixDepth : Nat := 8
/-- R1, R199: 256-byte lines of an L1 and of a die's remote line cache; ways of an L2 slice (R294); lines a set keeps marked (R253);
translations of a unit (R196). -/
def l1Lines : Nat := 1024
def rlcLines : Nat := 131072
def l2Ways : Nat := 16
def marksPerSet : Nat := 8
def tlbEntries : Nat := 4096
/-- R194: bytes of a channel, and where its tag carve-out starts. -/
def channelBytes : Nat := 0x60000000
def carveOut : Nat := 0x5E800000
/-- R27: register blocks of a SIMD unit. -/
def blocksPerSimd : Nat := 16
/-- R205: core memory. -/
def coreMemBytes : Nat := 786432
/-- R1: weight buffer. -/
def weightBytes : Nat := 524288

end Sys2Proof.Config
end

