-- ==== Sys2Proof/Machine/State.lean ====
section
/-!
DEFINITION. Machine/State.lean: everything the spec gives the machine, as plain data, and the state after reset. The issuing
group, its workgroup and its core stand in front (`g`, `w`); the others are listed beside them (log 5).
-/
namespace Sys2Proof.Machine

/-- Bytes by address, strictly rising, no entry equal to 0, which every unlisted address reads as (log 2). -/
abbrev Memory := List Host.Cell

/-- A predicate's two bits (R22). -/
inductive PVal where
  | f | t | u | never
  deriving DecidableEq, Repr, Inhabited

/-- The registers of a group (R22, R30); s60-s62 are the leaf's active mask (R24), s63 and p0 are fixed. -/
structure Regs where
  v : Vector (Vector Word 96) 64 := Vector.replicate 64 (Vector.replicate 96 0)
  s : Vector Word 60 := Vector.replicate 60 0
  /-- p1-p7 -/
  p : Vector (Vector PVal 96) 7 := Vector.replicate 7 (Vector.replicate 96 .never)
  fmode : Word := 0
  fstat : Word := 0
  guard : Word := 0
  trapcfg : Word := 0x55555555
  trapvec : Word := 0
  trappc : Word := 0
  trapcause : Word := 0
  shdcnt : Word := 0
  extb : Bool := false
  lc : Vector Word 3 := Vector.replicate 3 0
  lstart : Vector Word 3 := Vector.replicate 3 0
  lend : Vector Word 3 := Vector.replicate 3 0
  lactive : BitVec 3 := 0
  xactl : Vector Word 2 := Vector.replicate 2 0
  /-- the drain status of each lane, contexts 0 and 1 (R182); INSUF at start (log 7) -/
  dstat : Vector (Vector (BitVec 4) 96) 2 := Vector.replicate 2 (Vector.replicate 96 1)
  retired : Dword := 0
  /-- scalars with a pending token (R233) -/
  pending : BitVec 64 := 0
  /-- poisoned vector elements and scalars (R302, R87) -/
  vpois : Vector Mask 64 := Vector.replicate 64 0
  spois : BitVec 64 := 0
  deriving DecidableEq, Repr, Inhabited

inductive EKind where
  | leaf | split | call | trap
  deriving DecidableEq, Repr, Inhabited

/-- What a leaf waits on when another agent's step must end the wait. -/
inductive Wait where
  | none
  /-- `sleep` (R117) -/
  | sleep
  /-- `bar n` has arrived and waits (R115) -/
  | barred (n : Fin 16)
  /-- an `.sc` atomic or `fence.sc` waits for its ticket (R221) -/
  | ticket
  /-- the ticket is granted -/
  | ticketed
  /-- what the word waited for has come -/
  | granted
  /-- `fence.wb` waits for the sectors it covers (R252) -/
  | writeBack
  /-- `bararr` or `bar` waits for the phase its own slot has arrived in, to arrive anew (R115) -/
  | rearm (n : Fin 16)
  /-- `vgrow` waits for a block (R29) -/
  | grow
  /-- `tflush` waits for slots announced before it (R370) -/
  | flush (handles : List Byte) (before : Nat)
  /-- `qpop` into S[d] from queue q waits for a record (R260) -/
  | pop (d : SReg) (q : QReg)
  /-- `vshrink` waits for the other slot's word (R29) -/
  | shrink
  /-- `abwait` waits on the arrival barrier word at an offset of a workgroup's core memory (R116) -/
  | onWord (wid off : Nat)
  deriving DecidableEq, Repr, Inhabited

/-- An entry of the divergence tree (R63, R70). `id` is its place in creation order. -/
structure Entry where
  kind : EKind := .leaf
  id : Nat := 0
  parent : Option Nat := none
  /-- entry mask -/
  emask : Mask := 0
  /-- leaf: active mask; call entry: returned lanes -/
  amask : Mask := 0
  /-- leaf: packet; call entry: the calling leaf's rpc; split parent: the packet its children meet at -/
  pc : Word := 0
  /-- leaf: word slot -/
  ws : Nat := 0
  rpc : Word := 0xFFFFFFFF
  arr : Bool := false
  age : Nat := 0
  /-- trap entry: LACTIVE at entry, the leaves resident in slots 0 and 1, the cause -/
  slact : BitVec 3 := 0
  slot0 : Option Nat := none
  slot1 : Option Nat := none
  cause : Byte := 0
  /-- leaf: where a loop word with count 0 sends it on leaving its packet (R112) -/
  skip : Option Word := none
  /-- leaf: its word waits for another party, and so does its pair's second word -/
  wait : Wait := .none
  wait2 : Wait := .none
  /-- leaf: the registers that the word which has issued and waits, and its pair, have read (R43, R44) -/
  held : Option Regs := none
  /-- leaf: that word's place in issue order (R79) -/
  no : Option Nat := none
  /-- leaf: its word is the first of a chained pair that waits, or the second of one that began with `yield` -/
  chained : Bool := false
  deriving DecidableEq, Repr, Inhabited

/-- One of a group's two program-counter slots (R63, R67). -/
structure Slot where
  leaf : Option Entry := none
  /-- the word at the slot could not proceed when last tried, and nothing has happened since -/
  stalled : Bool := false
  /-- when its leaf became resident, as a value of `fresh` (R68) -/
  since : Nat := 0
  /-- captured upper halves of CYCLE and RETIRED (R119) -/
  cycCap : Option Word := none
  retCap : Option Word := none
  deriving DecidableEq, Repr, Inhabited

/-- R79, R81, R39: what a group is doing; `stopped`: at a region word or a boundary, for pre-emption (R273). -/
inductive GStatus where
  | ready | halted | parked | retired | stopped
  deriving DecidableEq, Repr, Inhabited

/-- A parked word's share on one page, waiting for the host (R81, R82, R311). -/
structure Replay where
  tag : Word := 0
  page : Nat
  ptr : Dword
  lanes : Mask
  write : Bool
  fetch : Bool
  second : Bool
  /-- 0 waiting, 1 resolved, 2 declared fatal -/
  state : Nat := 0
  deriving DecidableEq, Repr, Inhabited

/-- The seed of a region (R34). -/
structure Seed where
  s : Vector Word 16 := Vector.replicate 16 0
  pc : Word := 0
  mask : Mask := 0
  fmode : Word := 0
  deriving DecidableEq, Repr, Inhabited

inductive Region where
  | none | plain | trans
  deriving DecidableEq, Repr, Inhabited

/-- A method group's block and pixels (R359). -/
structure MethodInfo where
  lid : Nat := 0
  handle : Byte := 0
  tile : Nat := 0
  block : Nat := 0
  slice : Nat := 0
  deriving DecidableEq, Repr, Inhabited

/-- A parked word: the word, its slot, identity, leaf and the registers it read (R82). -/
structure Parked where
  instr : Instr
  slot : Fin 2
  ipc : Word
  regs : Regs
  leaf : Entry
  /-- DIVDEPTH at its issue, for its records (R15), and its place in issue order (R79) -/
  depth : Nat := 0
  no : Nat := 0
  parts : List Replay
  deriving DecidableEq, Repr

/-- A lane of a `tsamp.set`: the pixel, the target and the selector it reads with (R386); one that read a poisoned operand. -/
structure LiveLane where
  lane : Nat
  sick : Bool := false
  handle : Byte
  x : Nat
  y : Nat
  sel : Word
  deriving DecidableEq, Repr, Inhabited

/-- What a lane of a live read comes to: a fault with its address, a page that is not present (in the second stage or not), or the words
of the stored value. -/
structure LiveLook where
  fault : Option (Byte × Dword) := none
  park : Option (Dword × Bool) := none
  words : List Word := []
  deriving DecidableEq, Repr, Inhabited

/-- A `tsamp.set` that has issued and not answered every lane (R384, R387): the word, its slot, identity, leaf, DIVDEPTH and place in
issue order, and the registers it read, for its records; its destination, which is pending; where it stands among announcements; `got`:
what the lanes answered so far come to. -/
structure LiveRead where
  instr : Instr
  slot : Fin 2 := 0
  ipc : Word := 0
  leaf : Entry := {}
  regs : Regs := {}
  depth : Nat := 0
  no : Nat := 0
  d : VReg := 0
  before : Nat := 0
  lanes : List LiveLane := []
  got : List (Nat × LiveLook) := []
  deriving DecidableEq, Repr

/-- Remote accesses of a group's next words, or of an engine for it, that the device behind a port does not answer (R315): the lanes of a
word they are confined to. -/
structure Silence where
  port : Nat
  gid : Nat
  lanes : Mask
  deriving DecidableEq, Repr, Inhabited

/-- A fault found while a word runs, not yet acted on (R78, R79): the word by its place in issue order and by its identity. -/
structure FaultNote where
  no : Nat := 0
  ipc : Word
  lane : Nat
  cause : Byte
  /-- TRAPCFG's action as the word read it at issue: 0 trap, 1 kill, 2 and 3 halt -/
  act : Nat
  deriving DecidableEq, Repr, Inhabited

/-- What the words of a group have called for already, acted on when the words it has issued are complete: the replay of a parked
group, a word of the other slot (R13, R79, R81; log 16). -/
structure Debt where
  faults : List FaultNote := []
  dying : Mask := 0
  soft : Option (Word × Word) := none
  halting : Option (Word × Word) := none
  poison : BitVec 64 := 0
  deriving DecidableEq, Repr, Inhabited

/-- A resident group (R17-R22). Group number 0 is no group. -/
structure Group where
  gid : Nat := 0
  /-- its place in the order of admission to its SIMD unit: its age (R27, R272) -/
  admitted : Nat := 0
  wid : Nat := 0
  gidx : Nat := 0
  core : CoreId := 0
  simd : Fin 4 := 0
  gslot : Fin 16 := 0
  method : Option MethodInfo := none
  regs : Regs := {}
  /-- the issuing slot, its number, and the other slot -/
  me : Slot := {}
  sel : Fin 2 := 0
  mate : Slot := {}
  /-- the slot that issues next when both can (R67, R185) -/
  turn : Fin 2 := 0
  /-- every entry that is not resident in a slot -/
  entries : List Entry := []
  nextEntry : Nat := 1
  dead : Mask := 0
  exited : Mask := 0
  startExited : Mask := 0
  /-- unread fault records, oldest first, and lanes with lost faults (R15, R16, R78) -/
  records : List (Vector Word 8) := []
  lost : Mask := 0
  lostCount : Nat := 0
  divsp : Dword := 0
  spillN : Nat := 56
  status : GStatus := .ready
  haltCode : Word := 0
  /-- halted by a poisoned scalar that the host has not rewritten (R87) -/
  poisonHalt : BitVec 64 := 0
  parked : List Parked := []
  /-- live reads under way -/
  reads : List LiveRead := []
  debt : Debt := {}
  region : Region := .none
  seed : Seed := {}
  restartable : Bool := false
  barPhase : BitVec 16 := 0
  barPending : BitVec 16 := 0
  barSlot : BitVec 16 := 0
  /-- batches sealed so far, and failed copies as (batch, issue order, token) (R236) -/
  sealedTo : Nat := 0
  failed : List (Nat × Nat × Word) := []
  /-- passed over after `yield` (R110), boosted (R272) -/
  passed : Bool := false
  boost : Bool := false
  deriving DecidableEq, Repr

/-- A workgroup (R18). Number 0 is no workgroup. -/
structure Workgroup where
  wid : Nat := 0
  lid : Nat := 0
  stage : Fin 16 := 0
  linear : Word := 0
  x : Word := 0
  y : Word := 0
  z : Word := 0
  rank : Nat := 0
  gang : Nat := 1
  /-- identity shared by the members of one gang -/
  gangId : Nat := 0
  ngroups : Nat := 1
  core : CoreId := 0
  cmBytes : Nat := 0
  cm : Memory := []
  /-- poisoned 4-byte words of core memory (R302), by word number -/
  cmPois : Memory := []
  barArrived : Vector Nat 16 := Vector.replicate 16 0
  barPhase : BitVec 16 := 0
  /-- rotation pointer of deterministic issue (R185, R188) -/
  rotation : Nat := 0
  deadgroup : Bool := false
  /-- of a stage that a rasteriser node feeds: each lane's quad, as GIDX, lane, handle and tile (R379) -/
  quads : List (Nat × Nat × Byte × Nat) := []
  /-- the host's pre-emption holds it stopped -/
  stopped : Bool := false
  deriving DecidableEq, Repr, Inhabited

/-- The columns of R199: how an access's MOD lets caches hold its line. -/
inductive Pol where
  | normal | stream | bypass
  deriving DecidableEq, Repr, Inhabited

/-- A store held in a core's commit buffer (R36). -/
structure Held where
  gid : Nat
  part : Fin 16
  asid : BitVec 12
  ctx : Nat
  va : Nat
  leaf : Dword
  pa : Nat
  pol : Pol := .normal
  /-- a store through the register window: its offset there -/
  win : Option Nat := none
  bytes : List Byte
  deriving DecidableEq, Repr, Inhabited

inductive MKind where
  | mma | mld | mst | mzero | mres | mrel | mspan | munspan
  deriving DecidableEq, Repr, Inhabited

/-- A matrix word in a core's order (R342): waiting, or performed and to complete. -/
structure MOp where
  id : Nat
  kind : MKind
  gid : Nat
  wid : Nat
  token : SReg
  desc : Vector Word 8
  ipc : Word
  /-- in a span core's order: the place of a span's `mma`, which the leader's core performs (R342) -/
  lead : Option CoreId := none
  /-- FMODE.SHM at issue -/
  shm : Nat := 0
  started : Bool := false
  /-- of a performed `mma`: its token, whether an element clamped, whether its checksum failed under SHM 1; of an `mspan`: its
  place among the words accepted before it -/
  result : Word := 0
  sat : Bool := false
  miss : Bool := false
  mark : Nat := 0
  /-- a tile move waiting for the host: its reply tag, and whether RESOLVE or FATAL came -/
  tag : Option Word := none
  fatal : Bool := false
  deriving DecidableEq, Repr, Inhabited

/-- A matrix operation's write of a tile, as `mst` of other groups sees it (R322): the group it was for, the completion barriers, as
workgroup and offset, once they have had their arrivals, and the groups that have acquired one of them. -/
structure TileWrite where
  op : Nat
  tile : Nat
  gid : Nat
  bars : List (Nat × Nat) := []
  seen : List Nat := []
  deriving DecidableEq, Repr, Inhabited

/-- A core's matrix array and what goes with it (R324-R330), its L1 directory and commit buffer. -/
structure Core where
  id : CoreId
  claim : Option Nat := none
  /-- the workgroup that held the claim has retired but the span is not free (R324) -/
  orphan : Bool := false
  /-- the `mspan` that has made the claim and has not slaved the core yet (R351) -/
  bid : Option Nat := none
  /-- held reservations by id: the record of R328 -/
  res : List (Nat × Vector Word 4) := []
  wb : Memory := []
  wbPois : Memory := []
  acc : Memory := []
  accPois : Memory := []
  heldTiles : BitVec 16 := 0
  /-- span code it leads (0: none), and the core it is slaved to -/
  spanCode : Nat := 0
  master : Option CoreId := none
  order : List MOp := []
  writes : List TileWrite := []
  commit : List Held := []
  deriving DecidableEq, Repr, Inhabited

/-- A copy of a 128-byte sector in a cache (R199-R201), tagged with partition, address space and VA. -/
structure Line where
  part : Fin 16
  asid : BitVec 12
  /-- sector number: VA / 128 -/
  sector : Nat
  /-- the context whose fill allocated it -/
  ctx : Nat
  leaf : Dword
  /-- where the sector lies in DRAM -/
  pa : Nat
  /-- its bytes by offset, the tags (R206) and the poison (R302) of its granules -/
  data : Memory := []
  tags : Vector (BitVec 4) 4 := Vector.replicate 4 0
  pois : BitVec 4 := 0
  /-- L2: the bytes not yet in DRAM, the way its line lies in, and the order of its mark among the set's (R253, R294, R295) -/
  dmask : BitVec 128 := 0
  way : Fin 16 := 0
  mark : Option Nat := none
  occ : Byte := 0
  /-- filled as first to evict (R199) -/
  stream : Bool := false
  /-- no acquire has dropped it: a dropped copy answers nothing but keeps its place (R201, R295) -/
  live : Bool := true
  deriving DecidableEq, Repr, Inhabited

/-- A translation held by a channel's unit (R196). -/
structure Tlb where
  part : Fin 16
  asid : BitVec 12
  page : Nat
  leaf : Dword
  /-- host frame under nested translation -/
  frame : Nat
  deriving DecidableEq, Repr, Inhabited

/-- A command of a copy engine (R231-R237). `putsig` carries the flag description in `flag`. -/
structure Copy where
  id : Nat
  /-- SUB6 of the word: 0-6 copies, 10 putsig -/
  kind : Nat
  gid : Nat
  wid : Nat
  core : CoreId
  ctx : Nat
  part : Fin 16
  asid : BitVec 12
  place : Word
  ipc : Word
  desc : Vector Word 8
  opb : Word := 0
  flag : Vector Word 4 := Vector.replicate 4 0
  token : SReg
  batch : Nat
  accepted : Bool := false
  tag : Option Word := none
  fatal : Bool := false
  deriving DecidableEq, Repr, Inhabited

inductive BasinOp where
  | addS32 | addF32 | addBf16 | maxF32 | minF32
  deriving DecidableEq, Repr, Inhabited

/-- A Basin operation on its way to its stack (R240, R280). -/
structure Basin where
  id : Nat
  gid : Nat
  core : CoreId := 0
  op : BasinOp
  pa : Nat
  va : Nat
  leaf : Dword
  part : Fin 16
  asid : BitVec 12
  value : Word
  deriving DecidableEq, Repr, Inhabited

/-- A stage of a launch (R267). -/
structure Stage where
  desc : Vector Word 32 := Vector.replicate 32 0
  entry : Word := 0
  bucket : Nat := 0
  /-- queued records, oldest first -/
  queue : List (List Word) := []
  /-- its overflow ring in memory: the oldest record's place and how many it holds (R239) -/
  ringHead : Nat := 0
  ringCount : Nat := 0
  /-- workgroups started from records (R270) -/
  started : Nat := 0
  /-- records still queued that a rasteriser node made (R378, R379) -/
  quads : List (List Word) := []
  deriving DecidableEq, Repr, Inhabited

/-- A triangle the rasteriser node has binned (R375-R377). -/
structure Tri where
  vert : Vector Word 12
  attr : Vector Word 3
  psn : BitVec 24
  handle : Byte
  deriving DecidableEq, Repr, Inhabited

/-- A launch that has started (R263-R266). -/
structure Launch where
  lid : Nat := 0
  queue : Nat := 0
  /-- its command's number in the queue -/
  num : Nat := 0
  ctx : Nat := 0
  cmd : Vector Word 16 := Vector.replicate 16 0
  hdr : Vector Word 16 := Vector.replicate 16 0
  stages : List Stage := []
  next : Nat := 0
  status : Byte := 0
  deadgroup : Bool := false
  /-- posts have ended (R365) -/
  ended : Bool := false
  /-- the target table as the launch start read it (R354) -/
  targets : List (Vector Word 16) := []
  tris : List Tri := []
  /-- quads that the rasteriser node has done, by (handle, tile) -/
  progress : List ((Byte × Nat) × Nat) := []
  /-- finished tiles, as (handle, tile) -/
  finished : List (Byte × Nat) := []
  deriving DecidableEq, Repr, Inhabited

/-- A host work queue (R310). -/
structure Queue where
  q : Nat
  ring : Nat
  log2n : Nat
  ctx : Nat
  wb : Nat
  firstSeq : Word
  count : Word := 0
  started : Nat := 0
  /-- command numbers completed out of order -/
  done : List Nat := []
  completed : Nat := 0
  status : Byte := 0
  deadgroup : Bool := false
  /-- a killed context's queue consumes nothing until it is bound again (R397) -/
  closed : Bool := false
  deriving DecidableEq, Repr, Inhabited

inductive Phase where
  | run | soft | hard | saving | done | killed
  deriving DecidableEq, Repr, Inhabited

/-- A group of a discarded workgroup: its seed lies in its slot of the work area, which stays its own (R266, R277); region `none`:
retired. -/
structure LostGroup where
  gidx : Nat := 0
  gone : Mask := 0
  region : Region := .none
  area : Nat := 0
  spill : Nat := 56
  deriving DecidableEq, Repr, Inhabited

/-- A discarded restartable workgroup (R35): where it stood, and its groups. -/
structure Discarded where
  wg : Workgroup
  groups : List LostGroup
  deriving DecidableEq, Repr, Inhabited

inductive SlotState where
  | opened | filled | cancelled | running
  deriving DecidableEq, Repr, Inhabited

/-- A slot of a block queue (R364). -/
structure PixSlot where
  lid : Nat
  handle : Byte
  x : Nat
  y : Nat
  psn : BitVec 24
  order : Nat
  coverage : Byte
  idepth : Word := 0
  state : SlotState := .opened
  depth : Word := 0
  colour : Vector Word 4 := Vector.replicate 4 0
  /-- the method group that runs it -/
  runner : Nat := 0
  deriving DecidableEq, Repr, Inhabited

/-- A bound context (R309). -/
structure Ctx where
  ctx : Nat := 0
  desc : Vector Word 16 := Vector.replicate 16 0
  phase : Phase := .run
  discarded : List Discarded := []
  lostRecords : Nat := 0
  /-- fault records of method groups (R367) -/
  faults : List (Vector Word 8) := []
  /-- what was saved, as it stood: the save area holds the rest of it (R277; log 21) -/
  savedLaunches : List Launch := []
  savedWgs : List Workgroup := []
  savedGroups : List Group := []
  savedCores : List Core := []
  savedPixels : List PixSlot := []
  saved : Bool := false
  deriving DecidableEq, Repr, Inhabited

/-- A partition entry (R291), its measurement registers (R300) and the last report in its mailbox (R299). -/
structure Part where
  word : Vector Word 32 := Vector.replicate 32 0
  mr : Vector (BitVec 256) 4 := Vector.replicate 4 0
  report : List Byte := []
  deriving DecidableEq, Repr, Inhabited

/-- The reset of R290: every counter 0 and the link up. -/
structure Stack where
  words : Vector Word 7 := Vector.replicate 7 0
  up : Bool := true
  failedReplays : Nat := 0
  failedRetrains : Nat := 0
  retraining : Bool := false
  deriving DecidableEq, Repr, Inhabited

/-- A Beljo port's counters (R315). -/
structure Port where
  words : Vector Word 4 := Vector.replicate 4 0
  up : Bool := true
  failedReplays : Nat := 0
  failedRetrains : Nat := 0
  packets : Nat := 0
  deriving DecidableEq, Repr, Inhabited

/-- A tile's working copy (R362): its bytes, and as live reads and write-backs see them, without the fragments under way (R369);
sample s of pixel p of block b has 8 bytes from 8 × (8 × (64 b + p) + s), in the colour plane from 65,536 more. ZFAR of its 16
blocks (R372). -/
structure Tile where
  lid : Nat
  handle : Byte
  tile : Nat
  bytes : Memory := []
  shown : Memory := []
  /-- what pixels, by 64 × block + pixel, have shown before: their bytes in both planes (R369) -/
  past : List (Nat × List Byte × List Byte) := []
  /-- poisoned elements, by place / 8 (R302) -/
  pois : Memory := []
  zfar : Vector Word 16 := Vector.replicate 16 0
  deriving DecidableEq, Repr, Inhabited

/-- A page fault that waits for room in the event ring, or one that the host has not answered (R311). -/
structure Event where
  kind : Byte
  part : Fin 16 := 0
  ctx : Word := 0
  va : Dword := 0
  place : Word := 0
  ipc : Word := 0
  code : Word := 0
  rtag : Word := 0
  deriving DecidableEq, Repr, Inhabited

/-- Host link, commands and event ring (R307, R308, R311). -/
structure HostIf where
  devid : Word := 0
  bootst : Word := 0x100
  ltr : Word := 0
  idle : Word := 0
  op : Word := 0
  /-- the command that runs while BUSY = 1 -/
  busy : Option Instr := none
  arg : Vector Word 3 := Vector.replicate 3 0
  evbase : Nat := 0
  evlog2 : Nat := 8
  evhead : Word := 0
  evack : Word := 0
  evlost : Word := 0
  evseq : Word := 0
  /-- page faults that found the ring full -/
  held : List Event := []
  linkDown : Bool := false
  nextTag : Word := 1
  deriving DecidableEq, Repr

/-- What a landing has to do (R282-R285): take a packet, combine the contributions of the chunk at an offset, see whether every chunk
is complete, signal. -/
inductive LandDo where
  | packet (rank off : Nat) (data : List Byte)
  | combine (off : Nat)
  | finish
  | signal (faulted : Bool)
  deriving DecidableEq, Repr, Inhabited

/-- Work of a landing that has not been done: the reply tag of the page it waits for, and whether that was declared fatal (R282). -/
structure LandJob where
  what : LandDo
  tag : Option Word := none
  fatal : Bool := false
  deriving DecidableEq, Repr, Inhabited

/-- One landing table entry (R281); its work, in order; the contributions that have come, as rank and offset, and the offsets of chunks
of which one came twice (R282). -/
structure Landing where
  words : Vector Word 8 := Vector.replicate 8 0
  jobs : List LandJob := []
  seen : List (Nat × Nat) := []
  spoilt : List Nat := []
  deriving DecidableEq, Repr, Inhabited

/-- A spare-lane word and its self-test (R301, R305); units from 1,024 on are channels, which are swept. -/
structure Spare where
  unit : Nat
  state : Nat := 0
  def0 : Nat := 63
  def1 : Nat := 63
  /-- lanes that failed a self-test, and each lane's count of corrected register errors and shadow divergences -/
  failed : List Nat := []
  errs : List (Nat × Nat) := []
  testing : Bool := false
  deriving DecidableEq, Repr, Inhabited

/-- What the words of one issue share (R43, R79; log 15). -/
structure Latch where
  /-- the group as both words of a pair read it; none outside a pair -/
  snap : Option Group := none
  /-- the word now issuing is the first of a pair: its faults wait for the second -/
  first : Bool := false
  /-- packet words the word now issuing takes (R45) -/
  len : Nat := 1
  /-- the word was found ILLEGAL with no active lane: it is skipped and not counted (R47, R396) -/
  skipped : Bool := false
  faults : List FaultNote := []
  /-- lanes that consumed poison and die whatever TRAPCFG says (R85) -/
  dying : Mask := 0
  /-- `trap n` or `brk` was executed: its cause word and return word -/
  soft : Option (Word × Word) := none
  /-- the word must be tried again -/
  stall : Bool := false
  /-- it waits for another party (R186) -/
  party : Bool := false
  /-- a replay: the lanes it is confined to, those whose page the host declared fatal, those pages, and its word's identity (R82) -/
  only : Option Mask := none
  fatal : Mask := 0
  fatalAt : List Nat := []
  ipc : Option Word := none
  /-- the word has issued and waits to be complete -/
  begun : Bool := false
  /-- DIVDEPTH when the word issued, for its records (R15), and its place in issue order (R79) -/
  depth : Option Nat := none
  no : Option Nat := none
  /-- the word's accesses pass over L1 (R52) -/
  bypass : Bool := false
  /-- granules of DRAM that reached the word as poison on their way to its registers (R303) -/
  hurt : List Nat := []
  /-- poisoned scalars that were consumed (R87) -/
  poison : BitVec 64 := 0
  /-- flags and shadow divergences the words of this issue have raised (R43) -/
  flags : Byte := 0
  shadows : Nat := 0
  /-- `halt n` was executed: its identity and n (R121) -/
  halting : Option (Word × Word) := none
  deriving DecidableEq, Repr, Inhabited

/-- Who moves next (log 5): another agent's step, or a group's issue. -/
inductive Turn where
  | agent (i : Instr)
  | issue (gid : Nat)
  deriving DecidableEq, Repr

/-- Bit flips that the next shadowed results of a lane meet (R141; log 17). -/
structure Upset where
  lane : Lane
  second : Bool
  flip : BitVec 128
  deriving DecidableEq, Repr, Inhabited

/-- A soft error not yet met (R303): the granule it struck, the hop whose check will see it (0-6, the handoff counter word; 7
the array's own ECC), the die that receives, and whether it can be corrected. -/
structure HopError where
  granule : Nat
  hop : Nat
  die : Fin 2
  unc : Bool
  deriving DecidableEq, Repr, Inhabited

/-- Bytes that a store has replaced and that another leaf's load may still return (R214; log 4). The store covered `old.length` bytes from
`at_`, of core memory of workgroup `wid`, or, `wid` 0, of the address space of `part` and `asid`; `core` made it; `may`: the leaves, as
group and entry, whose loads may still return what it replaced. -/
structure Past where
  wid : Nat := 0
  part : Fin 16 := 0
  asid : BitVec 12 := 0
  at_ : Nat
  old : List Byte
  core : CoreId := 0
  may : List (Nat × Nat) := []
  deriving DecidableEq, Repr, Inhabited

structure State where
  /-- the issuing group and the others; its workgroup and the others -/
  g : Group := {}
  others : List Group := []
  w : Workgroup := {}
  otherWgs : List Workgroup := []
  latch : Latch := {}
  cores : List Core := []
  /-- DRAM by 39-bit physical address (R194), tags (R206) and poison (R302) by physical granule (address / 32) -/
  mem : Memory := []
  tags : Memory := []
  pois : Memory := []
  /-- 256-byte blocks stored in the recoded form, whose fallback flag is 0 (R286, R287) -/
  recoded : List Nat := []
  /-- key id and version each sector was last written under, where not plain (R288) -/
  keyed : List (Nat × Nat × Nat) := []
  /-- version of each key id's key, where not 0 -/
  keyVer : List (Nat × Nat) := []
  /-- keys loaded in the key table (R196, R288), by id -/
  keyLoaded : List Nat := []
  l1 : List (CoreId × Line) := []
  l2 : List Line := []
  rlc : List (Fin 2 × Line) := []
  /-- copies of code that a workgroup's fetches, or a method group's, may still read (R42), by `fetchKey` -/
  icache : List (Nat × Line) := []
  tlb : List Tlb := []
  copies : List Copy := []
  /-- the model's own: the next command's number, in issue order -/
  nextCopy : Nat := 1
  basins : List Basin := []
  /-- tickets granted (R221) -/
  tickets : Nat := 0
  /-- what stores have replaced, oldest first (R214) -/
  past : List Past := []
  /-- remote accesses that go unanswered (R315) -/
  silent : List Silence := []
  launches : List Launch := []
  queues : List Queue := []
  ctxs : List Ctx := []
  parts : Vector Part 16 := Vector.replicate 16 {}
  mr : Vector (BitVec 256) 4 := Vector.replicate 4 0
  /-- security versions of the booted images (R299, R316) -/
  versions : Vector Word 4 := Vector.replicate 4 0
  host : HostIf := {}
  landing : Vector Landing 256 := Vector.replicate 256 {}
  dramStack : Vector Stack 8 := Vector.replicate 8 {}
  handoff : Vector (Vector Word 14) 2 := Vector.replicate 2 (Vector.replicate 14 0)
  /-- soft errors not yet met (R303) -/
  upsetBits : List HopError := []
  /-- core-memory words whose next multicast write meets an uncorrectable error (R235), by workgroup and byte offset -/
  upsetCells : List (Nat × Nat) := []
  /-- second-stage maps: partition, guest frame, host frame (R197) -/
  stage2 : List (Nat × Nat × Nat) := []
  spares : List Spare := []
  ports : Vector Port 24 := Vector.replicate 24 {}
  /-- route table entries that are not 0 (R314) -/
  routes : List (Nat × Word) := []
  smargin : Word := 1000
  aclk : Word := 3600
  service : Word := 0
  pixels : List PixSlot := []
  lastPsn : List ((Nat × Byte × Nat × Nat) × BitVec 24) := []
  tiles : List Tile := []
  cycle : Dword := 0
  upsets : List Upset := []
  /-- the model's own: who moves next, the counter behind free values and identities -/
  plan : List Turn := []
  fresh : Nat := 1
  deriving DecidableEq, Repr

/-- Why the machine stops. -/
inductive Fault where
  /-- `step`, after a boot that stopped (R316): only CXL.io configuration and BOOTST respond. Safe: nothing else can happen
  before the next device reset. -/
  | bootStopped
  deriving DecidableEq, Repr

/-- Why an instruction has no meaning here. -/
inductive Refusal where
  /-- an arm of `exec` that has no meaning yet. Safe: nothing is claimed of it. -/
  | notModelled (mnemonic : String)
  deriving DecidableEq, Repr

/-- The machine right after reset (R316, R317, R398): booted, no partition enabled, no group resident, memory with nothing
listed. DESIGN CHOICE (log 1): the measurements and the security versions of the images that were booted are opaque. -/
noncomputable def State.reset : State :=
  { mr := Vector.ofFn fun i => Config.bootMeasure i.val, versions := Vector.ofFn fun i => Config.firmware i.val }

end Sys2Proof.Machine
end

