-- ==== Sys2Proof/Machine/Space.lean ====
section
/-!
DEFINITION. Machine/Space.lean: bytes of memory, DRAM behind its keys, codes and logs, and page tables (13 R191-R202, 18 R279-R289,
19 R291-R303).
-/
namespace Sys2Proof.Machine

/-! ### Bytes in canonical form -/

/-- The byte at `a`: 0 where nothing is listed (log 2). -/
def memGet (m : Memory) (a : Nat) : Byte := ((m.find? fun c => c.1 == a).map (·.2)).getD 0

/-- `m` with byte `b` at `a`; writing 0 removes the entry. -/
def memSet (m : Memory) (a : Nat) (b : Byte) : Memory :=
  (m.filter fun c => c.1 < a) ++ (if b = 0 then [] else [(a, b)]) ++ (m.filter fun c => a < c.1)

/-- The canonical form: addresses strictly rising, no entry 0. -/
def Memory.wf (m : Memory) : Bool := decide (m.Pairwise fun c d => c.1 < d.1) && m.all fun c => decide (c.2 ≠ 0)

def memRead (m : Memory) (a n : Nat) : List Byte := (List.range n).map fun k => memGet m (a + k)
def memWrite (m : Memory) (a : Nat) : List Byte → Memory
  | [] => m
  | b :: bs => memWrite (memSet m a b) (a + 1) bs

/-- R4: bytes as a little-endian value, and back. -/
def leNat : List Byte → Nat
  | [] => 0
  | b :: bs => b.toNat + 256 * leNat bs
def leBytes : Nat → Nat → List Byte
  | 0, _ => []
  | n + 1, x => BitVec.ofNat 8 x :: leBytes n (x / 256)
def memWord (m : Memory) (a : Nat) : Word := BitVec.ofNat 32 (leNat (memRead m a 4))
def memSetWord (m : Memory) (a : Nat) (w : Word) : Memory := memWrite m a (leBytes 4 w.toNat)

/-- Counters stop at 0xFFFF_FFFF (R290, R291). -/
def satInc (w : Word) (n : Nat) : Word := BitVec.ofNat 32 (min (w.toNat + n) 0xFFFFFFFF)

/-- A choice the spec leaves free, by its kind and place (log 6). -/
def State.free (s : State) (kind n : Nat) : Nat := Config.choice ((s.fresh * 64 + kind) * 2 ^ 64 + n)

/-! ### Bit fields of words (R4) -/
def bits (x : Nat) (hi lo : Nat) : Nat := x >>> lo % 2 ^ (hi + 1 - lo)
def wbits (w : Word) (hi lo : Nat) : Nat := bits w.toNat hi lo

/-! ### Partitions and what they own (R291, R293) -/
def State.partWord (s : State) (p : Fin 16) (i : Fin 32) : Word := s.parts[p].word[i]
def State.setPartWord (s : State) (p : Fin 16) (i : Fin 32) (w : Word) : State :=
  { s with parts := s.parts.set p { s.parts[p] with word := s.parts[p].word.set i w } }
def State.countPart (s : State) (p : Fin 16) (i : Fin 32) (n : Nat) : State :=
  s.setPartWord p i (satInc (s.partWord p i) n)
def State.enabled (s : State) (p : Fin 16) : Bool := (s.partWord p 0).getLsbD 0
/-- Words lo to lo + n - 1 of a partition entry as one bit field. -/
def partField (pt : Part) (lo n : Nat) : Nat :=
  (List.range n).foldl (fun acc k => acc + (pt.word[lo + k]?.getD 0).toNat * 2 ^ (32 * k)) 0
def ownList (x n : Nat) : List Nat := (List.range n).filter fun i => x.testBit i
def State.ownChannels (s : State) (p : Fin 16) : List Nat := ownList (partField s.parts[p] 7 8) 256
def State.ownSlices (s : State) (p : Fin 16) (die : Nat) : List Nat :=
  (ownList (partField s.parts[p] 2 5) 160).filter fun i => i / 80 == die
def State.ownsCluster (s : State) (p : Fin 16) (c : Nat) : Bool := (s.partWord p 1).getLsbD c
def State.engines (s : State) (p : Fin 16) : Nat := partField s.parts[p] 15 3

/-! ### Steering (R195, R200) -/
def xorBytes (va : Nat) (los : List Nat) : Nat := los.foldl (fun acc lo => acc ^^^ (va >>> lo % 256)) 0
def hashPage (va : Nat) : Nat := xorBytes va [16, 24, 32, 40] ^^^ (va >>> 48 % 16)
def hashLine (va : Nat) : Nat := xorBytes va [8, 16, 24, 32, 40] ^^^ (va >>> 48 % 16)
def pick (l : List Nat) (i : Nat) : Option Nat := l[i % l.length]?
def State.channelOf (s : State) (p : Fin 16) (va : Nat) : Option Nat := pick (s.ownChannels p) (hashPage va)
def State.homeOf (s : State) (p : Fin 16) (va : Nat) : Option Nat :=
  match s.channelOf p va with
  | none => none
  | some c => pick (s.ownSlices p (c / 128)) (hashLine va)

/-! ### DRAM (R194, R279-R288) -/
def channelOfPa (pa : Nat) : Nat := pa >>> 31 % 256
def stackOfPa (pa : Nat) : Fin 8 := Fin.ofNat 8 (channelOfPa pa / 32)
def offsetOfPa (pa : Nat) : Nat := pa % 2 ^ 31
def State.linkUp (s : State) (pa : Nat) : Bool := s.dramStack[stackOfPa pa].up
def State.countStack (s : State) (k : Fin 8) (i : Fin 7) (n : Nat) : State :=
  { s with dramStack := s.dramStack.set k { s.dramStack[k] with words := s.dramStack[k].words.set i (satInc s.dramStack[k].words[i] n) } }
def State.countHop (s : State) (die : Fin 2) (i : Fin 14) : State :=
  { s with handoff := s.handoff.set die (s.handoff[die].set i (satInc s.handoff[die][i] 1)) }

/-! Leaf fields (R193). -/
def leafKey (l : Dword) : Nat := bits l.toNat 51 39
def leafCp (l : Dword) : Nat := bits l.toNat 4 3
def leafRo (l : Dword) : Bool := l.getLsbD 1
def leafXn (l : Dword) : Bool := l.getLsbD 2
def leafTagged (l : Dword) : Bool := l.getLsbD 5
def leafCmp (l : Dword) : Bool := l.getLsbD 6
def leafDlog (l : Dword) : Bool := l.getLsbD 7
def leafRem (l : Dword) : Bool := l.getLsbD 8

/-- Version of a key id's key; id 0 is no encryption (R288). -/
def State.keyNow (s : State) (k : Nat) : Nat × Nat := (k, if k = 0 then 0 else (s.keyVer.lookup k).getD 0)
def State.keyAt (s : State) (pa : Nat) : Nat × Nat := ((s.keyed.lookup (pa / 128)).getD (0, 0))
/-- The bytes that are encrypted as one unit with the byte at `pa`: a recoded block or a sector (R287, R288), as address and length. -/
def State.unitOf (s : State) (pa : Nat) : Nat × Nat := if s.recoded.contains (pa / 256) then (pa / 256 * 256, 256) else (pa / 128 * 128, 128)
/-- A byte of DRAM read under the leaf's key. -/
def State.dramByte (s : State) (leaf : Dword) (pa : Nat) : Byte :=
  if s.keyAt pa = s.keyNow (leafKey leaf) then memGet s.mem pa
  else Config.garble pa (s.keyAt pa) (s.keyNow (leafKey leaf)) (memRead s.mem (s.unitOf pa).1 (s.unitOf pa).2)

/-- R286: 128 BF16 values that the recoded form can hold. -/
def recodable (l : List Byte) : Bool :=
  let vals := (List.range 128).map fun i => leNat ((l.drop (2 * i)).take 2) % 32768
  let x := (vals.filter (· ≠ 0)).foldl (fun m v => max m (v / 128)) 0
  vals.all fun v => v = 0 || (v / 128 ≠ 0 && v / 128 ≠ 255 && x - v / 128 ≤ 6)

/-- The guest-physical frame that a leaf names (R193, R197). -/
def leafFrame (l : Dword) : Nat := bits l.toNat 38 16 * 65536

/-! ### Poison and hops (R302, R303) -/
/-- An uncorrectable error that the array's ECC will find when it is next read there (R287, R290). -/
def State.doomed (s : State) (pa : Nat) : Bool :=
  s.upsetBits.any fun e => e.hop = 7 && e.unc &&
    if s.recoded.contains (pa / 256) then e.granule / 8 = pa / 256 && e.granule % 8 < 6 else e.granule = pa / 32
/-- What a read of the array gets there is poison. -/
def State.poisoned (s : State) (pa : Nat) : Bool := memGet s.pois (pa / 32) ≠ 0 || !s.linkUp pa || s.doomed pa
def State.setPoison (s : State) (granule : Nat) (on : Bool) : State :=
  { s with pois := memSet s.pois granule (if on then 1 else 0) }

/-- One error is met at a hop: counted, and in the array (hop 7) turned into poison there, of the whole block where it is recoded
(R287, R290). At hop 5 the error was in L2, at hop 6 in L1 (R303). -/
def State.meet (hop : Nat) (die : Fin 2) (s : State) (e : HopError) : State :=
  if hop = 7 then
    let t := s.countStack (stackOfPa (e.granule * 32)) (if e.unc then 4 else 3) 1
    if !e.unc then t
    else if t.recoded.contains (e.granule / 8) then (List.range 8).foldl (fun t k => t.setPoison (e.granule / 8 * 8 + k) true) t
    else t.setPoison e.granule true
  else
    let t := s.countHop die (Fin.ofNat 14 hop)
    if hop < 5 then t else t.countHop die (Fin.ofNat 14 ((if e.unc then 10 else 7) + (hop - 5)))
/-- Data of the granules cross a hop (or leave the array, hop 7): errors waiting there are found, counted and corrected; the granules
that enter the new level as poison. -/
def State.cross (s : State) (grans : List Nat) (hop : Nat) (die : Fin 2) : State × List Nat :=
  let met := fun (e : HopError) => grans.contains e.granule && e.hop = hop && (hop = 7 || e.die = die)
  let hit := s.upsetBits.filter met
  (hit.foldl (State.meet hop die) { s with upsetBits := s.upsetBits.filter fun e => !met e }, (hit.filter fun e => e.unc).map fun e => e.granule)
def sectorGranules (pa : Nat) : List Nat := (List.range 4).map fun k => pa / 128 * 4 + k
def dieOfPa (pa : Nat) : Fin 2 := Fin.ofNat 2 (channelOfPa pa / 128)
/-- The array is read at `pa`: the sector, or the 192 bytes of a recoded block. -/
def State.arrayRead (s : State) (pa : Nat) : State :=
  (s.cross (if s.recoded.contains (pa / 256) then (List.range 6).map fun k => pa / 256 * 8 + k else sectorGranules pa) 7 (dieOfPa pa)).1
/-- The array is read over `n` bytes from `pa`. -/
def State.arrayReads (s : State) (pa n : Nat) : State :=
  (List.range ((pa % 128 + n + 127) / 128)).foldl (fun s k => s.arrayRead (pa / 128 * 128 + 128 * k)) s
/-! ### Writes to the array (R202, R286-R289) -/
/-- The poison of granules that a write covers whole is cleared (R302). -/
def clearWhole (g0 : Nat) (l : List (Nat × Byte)) (m : Memory) : Memory :=
  (List.range 4).foldl (fun m k => if (l.filter fun c => c.1 / 32 = k).length ≥ 32 then memSet m (g0 + k) 0 else m) m
/-- Bytes of one sector are written to the array under the leaf's key; `l` holds offsets within the sector at `spa`. A block of a CMP
page is decoded, merged and encoded again as a whole; DESIGN CHOICE (log 12): a write through a page without CMP leaves its block
raw. Where bytes already there are merged, the array is read first. A stack whose link is down drops the write (R286-R290). -/
def State.dramWrite (s : State) (leaf : Dword) (spa : Nat) (l : List (Nat × Byte)) : State :=
  if !s.linkUp spa then s
  else
    let key := s.keyNow (leafKey leaf)
    let (base, len) := if leafCmp leaf then (spa / 256 * 256, 256) else s.unitOf spa
    let s := if l.length < len && (len = 256 || s.keyAt spa ≠ key) then s.arrayReads base len else s
    let m0 := if (List.range (len / 128)).all fun k => s.keyAt (base + 128 * k) = key then s.mem
      else memWrite s.mem base ((List.range len).map fun k => s.dramByte leaf (base + k))
    let m := l.foldl (fun m c => memSet m (spa + c.1) c.2) m0
    let mine := fun (x : Nat) => x * 128 ≥ base && x * 128 < base + len
    { s with
      mem := m
      keyed := (if key = (0, 0) then [] else (List.range (len / 128)).map fun k => (base / 128 + k, key)) ++ s.keyed.filter fun c : Nat × Nat × Nat => !mine c.1
      recoded := (if leafCmp leaf && recodable (memRead m base 256) then [spa / 256] else []) ++ s.recoded.filter fun b => b ≠ spa / 256
      pois := clearWhole (spa / 32) l s.pois }
/-- The device writes bytes within a sector as plain data. -/
def State.plainWrite (s : State) (a : Nat) (bs : List Byte) : State :=
  s.dramWrite 0 (a / 128 * 128) (bs.zipIdx.map fun b => (a % 128 + b.2, b.1))

def sectorChunks : Nat → Nat → List Byte → List (Nat × List Byte)
  | 0, _, _ => []
  | n + 1, a, bs => if bs.isEmpty then [] else (a, bs.take (128 - a % 128)) :: sectorChunks n (a + (128 - a % 128)) (bs.drop (128 - a % 128))
def State.plainPuts (s : State) (a : Nat) (bs : List Byte) : State :=
  (sectorChunks bs.length a bs).foldl (fun s c => s.plainWrite c.1 c.2) s
/-- Plain data as the device reads it at the channel, whatever key wrote it (R288, R312); the value of a poisoned byte is free (log 6). -/
def State.plainByte (s : State) (a : Nat) : Byte := if s.poisoned a then Config.byte (s.fresh * 2 ^ 60 + a) else s.dramByte 0 a
def State.plainRead (s : State) (a n : Nat) : List Byte := (List.range n).map fun k => s.plainByte (a + k)
def State.plainWord (s : State) (a : Nat) : Word := BitVec.ofNat 32 (leNat (s.plainRead a 4))

/-- R297: the receiving bank, or, while a flip runs, the old bank, the new one or both. -/
def State.logBanks (s : State) (w : Word) : List Nat :=
  let bank := if w.getLsbD 1 then 1 else 0
  if w.getLsbD 2 then (match Config.choice s.fresh % 3 with | 0 => [1 - bank] | 1 => [bank] | _ => [1 - bank, bank]) else [bank]
/-- R202, R296: the bitmap bit of the sector at `pa`, numbered by its guest-physical address; the channel index is its place in the
partition's list. -/
def State.logWrite (s : State) (p : Fin 16) (leaf : Dword) (pa : Nat) : State :=
  let w := s.partWord p 21
  if leafDlog leaf && w.getLsbD 0 then
    let own := s.ownChannels p
    let gpa := leafFrame leaf + pa % 65536
    let idx := if (s.partWord p 0).getLsbD 2 then channelOfPa gpa else own.idxOf (channelOfPa gpa)
    let num := idx * 12582912 + offsetOfPa gpa / 128
    let base := (s.partWord p 19).toNat + (s.partWord p 20).toNat * 2 ^ 32
    let put := fun (s : State) (bank : Nat) =>
      let a := base + bank * own.length * 1572864 + num / 8
      (s.arrayRead a).plainWrite a [s.dramByte 0 a ||| (1#8 <<< (num % 8))]
    (s.logBanks w).foldl put s
  else s

/-- Bytes of one sector reach DRAM (R202, R287, R288): logged, and counted when a CMP page's block is stored raw. -/
def State.writeSector (s : State) (p : Fin 16) (leaf : Dword) (spa : Nat) (l : List (Nat × Byte)) : State :=
  if !s.linkUp spa then s
  else
    let s := (s.dramWrite leaf spa l).logWrite p leaf spa
    if leafCmp leaf && !s.recoded.contains (spa / 256) then s.countStack (stackOfPa spa) 5 1 else s

/-! ### From the array to L2 (R303) -/
/-- A sector comes from the array to L2, or to what stands for L2 where no slice keeps it. -/
def State.lift (s : State) (pa : Nat) : State × List Nat :=
  let (s, a) := (s.arrayRead pa).cross (sectorGranules pa) ((stackOfPa pa).val % 4) (dieOfPa pa)
  let (s, b) := s.cross (sectorGranules pa) 4 (dieOfPa pa)
  (s, a ++ b)

/-! ### Who accesses, and contexts -/
/-- `engine`: an engine or the device itself, which reads at the home and has no L1; `bypass`: the access passes over L1 (R52, R199). -/
structure Who where
  core : CoreId := 0
  ctx : Nat := 0
  part : Fin 16 := 0
  asid : BitVec 12 := 0
  gid : Nat := 0
  engine : Bool := false
  bypass : Bool := false
  deriving DecidableEq, Repr

def State.ctx? (s : State) (c : Nat) : Option Ctx := s.ctxs.find? fun x => x.ctx = c
def State.ctxDesc (s : State) (c : Nat) : Vector Word 16 := ((s.ctx? c).map (·.desc)).getD (Vector.replicate 16 0)
def ctxPart (d : Vector Word 16) : Fin 16 := Fin.ofNat 16 (wbits d[2] 15 12)
def ctxAsid (d : Vector Word 16) : BitVec 12 := d[2].setWidth 12
def ctxRoot (d : Vector Word 16) : Nat := bits (joinPair d[0] d[1]).toNat 38 12 * 4096
def State.who (s : State) (c : Nat) (core : CoreId) (gid : Nat) : Who :=
  { core := core, ctx := c, part := ctxPart (s.ctxDesc c), asid := ctxAsid (s.ctxDesc c), gid := gid, engine := gid = 0 }
/-- The same party, reading at the home. -/
def Who.home (w : Who) : Who := { w with engine := true }
def dieOf (c : CoreId) : Fin 2 := Fin.ofNat 2 (c.val / 128)
def clusterOf (c : CoreId) : Nat := c.val / 8

/-! ### Page tables (R193, R196, R197) -/
inductive Tr where
  /-- not present; in the second stage or not -/
  | absent (second : Bool)
  | bad (cause : Byte)
  | page (leaf : Dword)
  deriving DecidableEq, Repr

/-- A guest-physical address as a host-physical one; the address itself where the partition is not nested. -/
def State.hostPa (s : State) (p : Fin 16) (gpa : Nat) : Option (Option Nat) :=
  if (s.partWord p 0).getLsbD 2 then
    match (s.ownChannels p)[channelOfPa gpa]? with
    | none => none
    | some _ =>
      match s.stage2.find? fun e => e.1 = p.val && e.2.1 = gpa / 65536 with
      | none => some none
      | some e => some (some (e.2.2 * 65536 + gpa % 65536))
  else some (some gpa)

/-- One table entry of a walk, read as plain data. DESIGN CHOICE (log 4): a poisoned entry gives ECCUE, since the spec names no
fault for it. -/
def State.tableEntry (s : State) (p : Fin 16) (tbl idx : Nat) : Except Tr Nat :=
  if offsetOfPa tbl ≥ Config.carveOut then .error (.bad 0x06)
  else
    match s.hostPa p tbl with
    | none => .error (.bad 0x06)
    | some none => .error (.absent true)
    | some (some h) =>
      if !(s.ownChannels p).contains (channelOfPa h) then .error (.bad 0x06)
      else if s.poisoned (h + 8 * idx) then .error (.bad 0x0D)
      else .ok (leNat ((List.range 8).map fun k => s.dramByte 0 (h + 8 * idx + k)))

def State.walk (s : State) (p : Fin 16) (tbl : Nat) (va : Nat) : List Nat → Tr
  | [] => .bad 0x06
  | [lo] =>
    match s.tableEntry p tbl (va >>> lo % 512) with
    | .error t => t
    | .ok e =>
      if e % 2 = 0 then .absent false
      else
        let l : Dword := BitVec.ofNat 64 e
        if bits e 15 9 ≠ 0 || bits e 63 52 ≠ 0 || leafCp l = 3 then .bad 0x06
        else if leafRem l then (if bits e 26 16 > 1535 then .bad 0x06 else .page l)
        else if offsetOfPa (leafFrame l) ≥ Config.carveOut then .bad 0x06
        else .page l
  | lo :: rest =>
    match s.tableEntry p tbl (va >>> lo % 512) with
    | .error t => t
    | .ok e =>
      if e % 2 = 0 then .absent false
      else if bits e 11 1 ≠ 0 || bits e 63 39 ≠ 0 then .bad 0x06
      else s.walk p (bits e 38 12 * 4096) va rest

def State.tlb? (s : State) (who : Who) (va : Nat) : Option Tlb :=
  s.tlb.find? fun t => t.part = who.part && t.asid = who.asid && t.page = va / 65536
/-- Where the entries of a walk lie, as far as it goes (R193, R196). -/
def State.walkPlaces (s : State) (p : Fin 16) (tbl : Nat) (va : Nat) : List Nat → List Nat
  | [] => []
  | lo :: rest =>
    match s.hostPa p tbl with
    | some (some h) =>
      (h + 8 * (va >>> lo % 512)) :: match s.tableEntry p tbl (va >>> lo % 512) with
        | .ok e => if e % 2 = 0 then [] else s.walkPlaces p (bits e 38 12 * 4096) va rest
        | .error _ => []
    | _ => []
/-- The translation of a page: held by its channel's unit, or walked. -/
def State.translate (s : State) (who : Who) (va : Nat) : Tr :=
  match s.tlb? who va with
  | some t => .page t.leaf
  | none => s.walk who.part (ctxRoot (s.ctxDesc who.ctx)) va [43, 34, 25, 16]
/-- The host frame of a page whose leaf names a local frame: held by the unit, or found in the second stage; none where that has no
entry (R197). -/
def State.frameOf (s : State) (who : Who) (va : Nat) (leaf : Dword) : Option Nat :=
  match s.tlb? who va with
  | some t => some t.frame
  | none => (s.hostPa who.part (leafFrame leaf)).join
/-- R196, R197: the frame's channel, or its index under nested translation, is that of the steered channel. -/
def State.coloured (s : State) (who : Who) (va : Nat) (leaf : Dword) : Bool :=
  let c := channelOfPa (leafFrame leaf)
  if (s.partWord who.part 0).getLsbD 2 then (s.ownChannels who.part)[c]? = s.channelOf who.part va && (s.channelOf who.part va).isSome
  else some c = s.channelOf who.part va

/-- R293: the key id may be used and is loaded. -/
def State.keyOk (s : State) (p : Fin 16) (k : Nat) : Bool :=
  if k = 0 then !(s.partWord p 0).getLsbD 1
  else
    let base := wbits (s.partWord p 18) 12 0
    base ≤ k && k < base + wbits (s.partWord p 18) 29 16 && s.keyLoaded.contains k

end Sys2Proof.Machine
end

