-- ==== Sys2Proof/Machine/Caches.lean ====
section
/-!
DEFINITION. Machine/Caches.lean: the caches and what they hold, one access from pointer to byte, and the device's own accesses
(13 R191-R208, 16 R253, 19 R294, R295, R302, R303). A copy keeps the bytes it was filled with: a store reaches its own core's L1 and
the home, so other cores' L1 copies and the other die's remote-line copies may be older until an acquire drops them (R201, R214; log 4).
-/
namespace Sys2Proof.Machine

/-! ### Finding copies -/
def lineAt (who : Who) (va : Nat) (l : Line) : Bool := l.part = who.part && l.asid = who.asid && l.sector = va / 128
def Line.hit (who : Who) (va : Nat) (l : Line) : Bool := l.live && lineAt who va l
/-- The two sectors of one 256-byte line. -/
def sameLine (who : Who) (va : Nat) (l : Line) : Bool := l.part = who.part && l.asid = who.asid && l.sector / 2 = va / 256
def Line.key (l : Line) : Fin 16 × BitVec 12 × Nat := (l.part, l.asid, l.sector / 2)
def State.l1Line (s : State) (who : Who) (va : Nat) : Option Line := (s.l1.find? fun e => e.1 = who.core && e.2.hit who va).map (·.2)
def State.rlcLine (s : State) (who : Who) (va : Nat) : Option Line :=
  (s.rlc.find? fun e => e.1 = dieOf who.core && e.2.hit who va).map (·.2)
def State.l2Line (s : State) (who : Who) (va : Nat) : Option Line := s.l2.find? (Line.hit who va)
/-- The first cache level that holds the line for this accessor. -/
def State.heldLine (s : State) (who : Who) (va : Nat) : Option Line :=
  if who.engine then s.l2Line who va
  else (if who.bypass then none else s.l1Line who va).orElse fun _ => (s.rlcLine who va).orElse fun _ => s.l2Line who va

/-! ### One access, in the order of R76 -/
inductive Acc where
  | ok (leaf : Dword) (pa : Nat) (held : Bool)
  | fault (cause : Byte)
  | park (second : Bool)
  | remote (leaf : Dword)
  | window (off : Nat)
  deriving DecidableEq, Repr

def State.tagAt (s : State) (pa : Nat) : BitVec 4 := (memGet s.tags (pa / 32)).setWidth 4
/-- The tag of a granule as the level that is asked holds it. -/
def State.tagSeen (s : State) (held : Option Line) (pa : Nat) : BitVec 4 :=
  match held with
  | some l => l.tags[Fin.ofNat 4 (pa % 128 / 32)]
  | none => s.tagAt pa
/-- R206: every granule touched carries the pointer's tag. -/
def State.tagOk (s : State) (held : Option Line) (leaf : Dword) (pa n : Nat) (tag : BitVec 4) : Bool :=
  !leafTagged leaf || (s.tagSeen held pa = tag && s.tagSeen held (pa + n - 1) = tag)

def vaOf (p : Dword) : Nat := p.toNat % 2 ^ 52
def tagOfPtr (p : Dword) : BitVec 4 := (p >>> 56).setWidth 4
def ptrBad (p : Dword) : Bool := bits p.toNat 55 52 ≠ 0 || bits p.toNat 63 60 ≠ 0
def windowBase : Nat := 0xFFF8000000000
def windowSize : Nat := 0x80000000
/-- R293: the partition owns a Beljo port. -/
def State.ownsPort (s : State) (p : Fin 16) : Bool := s.engines p / 2 ^ 48 ≠ 0

/-- What an access does: `write`: store, atomic or Basin operation; `fetch`; `tags`: tags are compared; `tagged`: the page must be
TAGGED (R254). -/
structure Ask where
  write : Bool := false
  fetch : Bool := false
  tags : Bool := true
  tagged : Bool := false
  deriving DecidableEq, Repr

/-- Permission (R196). -/
def Ask.refuse (m : Ask) (leaf : Dword) : Option Byte :=
  if m.write && leafRo leaf then some 0x06
  else if m.tagged && !leafTagged leaf then some 0x06
  else if m.fetch && leafXn leaf then some 0x07 else none
/-- The checks of an access that no cache answers (R196, R197). -/
def State.placed (s : State) (who : Who) (va n : Nat) (tag : BitVec 4) (m : Ask) (leaf : Dword) : Acc :=
  if leafRem leaf then
    if !s.ownsPort who.part then .fault 0x14
    else match m.refuse leaf with
      | some c => .fault c
      | none => if s.keyOk who.part (leafKey leaf) then .remote leaf else .fault 0x15
  else if !s.coloured who va leaf then .fault 0x06
  else match s.frameOf who va leaf with
    | none => .park true
    | some frame => match m.refuse leaf with
      | some c => .fault c
      | none =>
        if !s.keyOk who.part (leafKey leaf) then .fault 0x15
        else if m.tags && !m.fetch && !s.tagOk none leaf (frame + va % 65536) n tag then .fault 0x05
        else .ok leaf (frame + va % 65536) false
/-- The checks of an access whose line a cache holds. -/
def State.atLine (s : State) (who : Who) (va n : Nat) (tag : BitVec 4) (m : Ask) (l : Line) : Acc :=
  if leafRem l.leaf then
    if !s.ownsPort who.part then .fault 0x14
    else if !m.fetch && m.tags && !s.tagOk (some l) l.leaf (l.pa + va % 128) n tag then .fault 0x05
    else match m.refuse l.leaf with | some c => .fault c | none => .remote l.leaf
  else if !m.fetch && m.tags && !s.tagOk (some l) l.leaf (l.pa + va % 128) n tag then .fault 0x05
  else match m.refuse l.leaf with | some c => .fault c | none => .ok l.leaf (l.pa + va % 128) true

/-- One access of `n` bytes through pointer `p` (R76 orders 2 to 8). -/
def State.access (s : State) (who : Who) (p : Dword) (n : Nat) (m : Ask) : Acc :=
  let va := vaOf p
  if ptrBad p then .fault 0x06
  else if va ≥ windowBase && va - windowBase < windowSize then .window (va - windowBase)
  else if va ≥ windowBase then .fault 0x06
  else if va % n ≠ 0 then .fault 0x03
  else match s.heldLine who va with
    | some l => s.atLine who va n (tagOfPtr p) m l
    | none => match s.translate who va with
      | .absent second => .park second
      | .bad c => .fault c
      | .page leaf => s.placed who va n (tagOfPtr p) m leaf

/-- The port a remote access leaves through (R314): the lowest that is up, routed to the device and owned. -/
def State.routePorts (s : State) (p : Fin 16) (leaf : Dword) : List Nat :=
  let ports := ((s.routes.lookup (bits leaf.toNat 26 16)).getD 0).toNat % 2 ^ 24
  (List.range 24).filter fun k => ports.testBit k && (s.engines p).testBit (48 + k)
def State.route? (s : State) (p : Fin 16) (leaf : Dword) : Option Nat :=
  (s.routePorts p leaf).find? fun k => (s.ports[k]?.map (·.up)).getD false

/-- A remote access of `who` has no answer: no port is up, or the device behind it stays silent (R315; log 13); `L`: the lane that asks. -/
def State.farLost (s : State) (who : Who) (leaf : Dword) (L : Option (Fin 96)) : Bool :=
  match s.route? who.part leaf with
  | none => true
  | some k => s.silent.any fun x => x.port = k && x.gid = who.gid && L.all fun L => x.lanes.getLsbD L.val

/-! ### What an accessor reads -/
/-- A byte of a remote page: what the other device answers is free (log 13), one value per location and step (R210). -/
def State.farByte (s : State) (va : Nat) : Byte := Config.byte (s.fresh * 2 ^ 60 + va)
/-- The tag that another device holds for the granule at `va` (log 13). -/
def State.farTag (s : State) (va : Nat) : BitVec 4 := (s.farByte (2 ^ 59 + va / 32)).setWidth 4
/-- A byte where its home or channel holds it, no cache answering first. -/
def State.baseByte (s : State) (leaf : Dword) (pa va : Nat) : Byte := if leafRem leaf then s.farByte va else s.dramByte leaf pa
/-- The accessor's own held store of a byte (R36). -/
def State.heldByte (s : State) (who : Who) (va : Nat) : Option Byte :=
  if who.engine then none
  else
    let mine := (s.cores.filter fun c => c.id = who.core).flatMap (·.commit)
    (mine.reverse.find? fun h => h.win.isNone && h.gid = who.gid && h.part = who.part && h.asid = who.asid && h.va ≤ va
      && va < h.va + h.bytes.length).map fun h => (h.bytes[va - h.va]?).getD 0
/-- A byte as this accessor's loads see it: its group's held stores, then the first cache that holds it, then DRAM. -/
def State.viewByte (s : State) (who : Who) (leaf : Dword) (pa va : Nat) : Byte :=
  match s.heldByte who va with
  | some b => b
  | none => match s.heldLine who va with
    | some l => memGet l.data (va % 128)
    | none => s.baseByte leaf pa va
def State.view (s : State) (who : Who) (leaf : Dword) (pa va n : Nat) : List Byte :=
  (List.range n).map fun k => s.viewByte who leaf (pa + k) (va + k)
/-- The byte is poisoned where this accessor reads it (R302). -/
def State.sick (s : State) (who : Who) (pa va : Nat) : Bool :=
  if (s.heldByte who va).isSome then false
  else match s.heldLine who va with
    | some l => l.pois.getLsbD (va % 128 / 32)
    | none => s.poisoned pa

/-! ### Room in the caches -/
/-- A page's home on this access: its CP and a slice to hold it (R199, R200). -/
def State.cacheable (s : State) (who : Who) (leaf : Dword) (va : Nat) : Bool :=
  leafCp leaf ≠ 2 && (leafRem leaf || (s.homeOf who.part va).isSome)
/-- The lines, not sectors, of a list of copies. -/
def linesOf (l : List Line) : List (Fin 16 × BitVec 12 × Nat) := (l.map Line.key).dedup
/-- Lines that go first when room is needed: those filled as first to evict, and those an acquire has dropped (log 4). -/
def goesFirst (l : List Line) (k : Fin 16 × BitVec 12 × Nat) : Bool := (l.filter fun x => x.key = k).all fun x => x.stream || !x.live
/-- FREE VALUE (log 4): the line that leaves when another is filled: in a full cache one of those that go first, else any; before the
cache is full none or any, since the spec does not say how an L1 or remote line cache is organised. -/
def leaving (cap c : Nat) (l : List Line) : Option (Fin 16 × BitVec 12 × Nat) :=
  let ks := linesOf l
  if ks.length < cap then ks[c % (ks.length + 1)]?
  else
    let first := ks.filter (goesFirst l)
    if first.isEmpty then ks[c % ks.length]? else first[c % first.length]?
/-- `x` takes the place of its sector's copy, or a new place. -/
def addCopy {κ : Type} [DecidableEq κ] (k : κ) (cap c : Nat) (x : Line) (l : List (κ × Line)) : List (κ × Line) :=
  let l := l.filter fun e => !(e.1 = k && e.2.key = x.key && e.2.sector = x.sector)
  let own := (l.filter fun e => e.1 = k).map (·.2)
  let out := if own.any fun y => y.key = x.key then none else leaving cap c own
  (k, x) :: l.filter fun e => !(e.1 = k && out = some e.2.key)

/-! ### L2 (R200, R294, R295) -/
/-- FILLMASK of a context as a list of ways. -/
def fillWays (d : Vector Word 16) : List (Fin 16) :=
  let m := wbits d[3] 15 0
  if m = 0 then List.finRange 16 else (List.finRange 16).filter fun w => m.testBit w.val
def State.inSet (s : State) (p : Fin 16) (va : Nat) (l : Line) : Bool :=
  s.homeOf l.part (l.sector * 128) = s.homeOf p va && Config.l2Set (l.sector / 2) = Config.l2Set (va / 256)
/-- Which lines of a set go first: first to evict, then unmarked, then marked (R199, R253). -/
def wayClass (set : List Line) (w : Fin 16) : Nat :=
  let ls := set.filter fun l => l.way = w
  if ls.any fun l => l.mark.isSome then 2 else if ls.all fun l => l.stream || !l.live then 0 else 1
/-- The way a fill takes: its line's own, a free one of the mask, or a victim's among the mask's (FREE VALUE, log 4, inside a class). -/
def State.wayFor (s : State) (who : Who) (va : Nat) : Fin 16 :=
  match s.l2.find? (sameLine who va) with
  | some l => l.way
  | none =>
    let ways := fillWays (s.ctxDesc who.ctx)
    let set := s.l2.filter (s.inSet who.part va)
    match ways.find? fun w => set.all fun l => l.way ≠ w with
    | some w => w
    | none =>
      let best := fun (k : Nat) => ways.filter fun w => wayClass set w = k
      let l := if !(best 0).isEmpty then best 0 else if !(best 1).isEmpty then best 1 else best 2
      (l[s.free 2 va % l.length]?).getD 0

/-- The dirty bytes of a line, in order. -/
def Line.dirtyBytes (l : Line) : List (Nat × Byte) :=
  ((List.range 128).filter fun k => l.dmask.getLsbD k).map fun k => (k, memGet l.data k)
/-- The dirty bytes of a line reach DRAM, with the poison of its granules. -/
def State.putLine (s : State) (l : Line) : State :=
  let s := s.writeSector l.part l.leaf l.pa l.dirtyBytes
  (List.range 4).foldl (fun s k =>
    if l.pois.getLsbD k && (List.range 32).any fun j => l.dmask.getLsbD (32 * k + j) then s.setPoison (l.pa / 32 + k) true else s) s
def Line.same (l x : Line) : Bool := x.part = l.part && x.asid = l.asid && x.sector = l.sector
/-- A line's dirty bytes reach DRAM and the line stays, clean. -/
def State.writeBack (s : State) (l : Line) : State :=
  let s := if l.dmask = 0 then s else s.putLine l
  { s with l2 := s.l2.map fun x => if l.same x then { x with dmask := 0 } else x }
/-- Every L2 line that satisfies `f` is written back. -/
def State.writeBackAll (s : State) (f : Line → Bool) : State := (s.l2.filter fun l => f l && l.dmask ≠ 0).foldl State.writeBack s
/-- The L2 sectors that satisfy `f` are written back and dropped. -/
def State.evict (s : State) (f : Line → Bool) : State :=
  let s := s.writeBackAll f
  { s with l2 := s.l2.filter fun l => !f l }
/-- Every cached copy of the sectors that satisfy `f` is dropped, after its dirty bytes are written back (R198). -/
def State.purge (s : State) (f : Line → Bool) : State :=
  let s := s.evict f
  { s with l1 := s.l1.filter fun e => !f e.2, rlc := s.rlc.filter fun e => !f e.2, icache := s.icache.filter fun e => !f e.2 }

/-- A sector as DRAM holds it, for the cache of `who`. -/
def newLine (s : State) (who : Who) (leaf : Dword) (pa va : Nat) (pol : Pol) : Line :=
  let spa := pa / 128 * 128
  let sva := va / 128 * 128
  { part := who.part, asid := who.asid, sector := va / 128, ctx := who.ctx, leaf := leaf, pa := spa
    data := memWrite [] 0 ((List.range 128).map fun k => s.baseByte leaf (spa + k) (sva + k))
    tags := Vector.ofFn fun k => s.tagAt (spa + 32 * k.val)
    pois := BitVec.ofNat 4 ((List.range 4).foldl (fun a k => if !leafRem leaf && s.poisoned (spa + 32 * k) then a + 2 ^ k else a) 0)
    occ := BitVec.ofNat 8 (wbits (s.ctxDesc who.ctx)[3] 23 16), stream := pol = .stream }
/-- Granules that reached the copy as poison. -/
def Line.hurt (l : Line) (grans : List Nat) : Line :=
  { l with pois := l.pois ||| BitVec.ofNat 4 ((List.range 4).foldl (fun a k => if grans.contains (l.pa / 32 + k) then a + 2 ^ k else a) 0) }
def Line.under (l : Line) (pol : Pol) : Line := { l with stream := pol = .stream }
/-- A sector is put into its home slice; the other sector of its line gives it its way, mark and OCCID. -/
def State.addL2 (s : State) (l : Line) (who : Who) (va : Nat) : State :=
  let w := s.wayFor who va
  let set := s.inSet who.part va
  let s := if s.l2.length < (fillWays (s.ctxDesc who.ctx)).length then s else s.evict fun x => !sameLine who va x && set x && x.way = w
  let kin := s.l2.find? (sameLine who va)
  { s with
    l2 := { l with way := w, mark := kin.bind (·.mark), occ := (kin.map (·.occ)).getD l.occ } :: s.l2.filter fun x => !lineAt who va x }
def State.addL1 (s : State) (who : Who) (l : Line) : State :=
  { s with l1 := addCopy who.core Config.l1Lines (s.free 3 l.sector) { l with dmask := 0, mark := none } s.l1 }
def State.addRlc (s : State) (who : Who) (l : Line) : State :=
  { s with rlc := addCopy (dieOf who.core) Config.rlcLines (s.free 4 l.sector) { l with dmask := 0, mark := none } s.rlc }
/-- The walk of a page that no unit holds reads its entries in the array (R290). -/
def State.readWalk (s : State) (who : Who) (va : Nat) : State :=
  if (s.tlb? who va).isSome then s
  else (s.walkPlaces who.part (ctxRoot (s.ctxDesc who.ctx)) va [43, 34, 25, 16]).foldl State.arrayRead s
/-- A page is walked, and its channel's unit, which keeps 4,096 translations, holds it (R196). FREE VALUE (log 4): which one leaves, and
whether one leaves before the unit is full. -/
def State.addTlb (s : State) (who : Who) (leaf : Dword) (pa va : Nat) : State :=
  if (s.tlb? who va).isSome then s
  else
    let s := s.readWalk who va
    let unit := fun (t : Tlb) => s.channelOf t.part (t.page * 65536) = s.channelOf who.part va
    let own := s.tlb.filter unit
    let out := own[s.free 5 va % (if own.length < Config.tlbEntries then own.length + 1 else own.length)]?
    { s with
      tlb := { part := who.part, asid := who.asid, page := va / 65536, leaf := leaf, frame := pa - va % 65536 } :: s.tlb.filter fun t => some t ≠ out }

/-! ### Fills (R199, R201, R303) -/
/-- Where an access leaves its line, with the translation and the hops that its data take where no cache answers. `deep`: 0 L2 only, 1
the remote line cache as well, 2 L1 as well, 3 and on to the registers. The granules that arrive as poison where no cache keeps it are
noted for the access. -/
def State.fill (s : State) (who : Who) (leaf : Dword) (pa va deep : Nat) (pol : Pol) : State :=
  let inL1 := !who.engine && !who.bypass && (s.l1Line who va).isSome
  let inR := !who.engine && (s.rlcLine who va).isSome
  let got := (s.heldLine who va).isSome
  let s := if got then s else s.addTlb who leaf pa va
  let keep := s.cacheable who leaf va
  let (s, up) := if got then (s, []) else s.lift pa
  let s := if keep && !got then s.addL2 ((newLine s who leaf pa va pol).hurt up) who va else s
  let far := (s.homeOf who.part va).any fun h => h / 80 ≠ (dieOf who.core).val
  let s := if deep ≥ 1 && keep && far && !inL1 && !inR then
      (match s.l2Line who va with | some l => s.addRlc who (l.under pol) | none => s) else s
  let src := s.heldLine who va
  let (s, up2) := if deep ≥ 2 && !inL1 then s.cross (sectorGranules pa) 5 (dieOf who.core) else (s, [])
  let s := if deep ≥ 2 && keep && !inL1 && leafCp leaf = 0 && pol ≠ .bypass then
      (match src with | some l => s.addL1 who ((l.under pol).hurt up2) | none => s) else s
  if deep ≥ 3 then
    let (s, up3) := s.cross [pa / 32] 6 (dieOf who.core)
    { s with latch := { s.latch with hurt := s.latch.hurt ++ up ++ up2 ++ up3 } }
  else if keep then s else { s with latch := { s.latch with hurt := s.latch.hurt ++ up } }
/-- A sector of a remote page as the other device gives it; the granules, by VA / 32, that `touch` names have let an access with the tag
pass (R206). -/
def farLine (s : State) (who : Who) (leaf : Dword) (va : Nat) (touch : Nat → Bool) (tag : BitVec 4) (pol : Pol) : Line :=
  { newLine s who leaf 0 va pol with
    tags := Vector.ofFn fun k => let g := va / 128 * 4 + k.val; if touch g then tag else s.farTag (32 * g) }
/-- The same for a line of a remote page (R199, R201). -/
def State.fillFar (s : State) (who : Who) (leaf : Dword) (va : Nat) (touch : Nat → Bool) (tag : BitVec 4) (deep : Nat) (pol : Pol) : State :=
  if leafCp leaf = 2 || (s.heldLine who va).isSome && (deep < 2 || (s.l1Line who va).isSome) then s
  else
    let l := ((s.heldLine who va).getD (farLine s who leaf va touch tag pol)).under pol
    let s := if deep ≥ 1 && (s.rlcLine who va).isNone then s.addRlc who l else s
    if deep ≥ 2 && leafCp leaf = 0 && pol ≠ .bypass then s.addL1 who l else s

/-- The granules, by VA / 32, of an access. -/
def touches (va n g : Nat) : Bool := va / 32 ≤ g && g ≤ (va + n - 1) / 32
/-- What a hint brings: both sectors of its line into the home and the remote line cache, whatever an upper level holds, and under 2 into L1
too (R253). -/
def State.hintFill (s : State) (who : Who) (leaf : Dword) (pa va deep : Nat) : State :=
  [0, 128].foldl (fun s k =>
    let p := pa / 256 * 256 + k
    let a := va / 256 * 256 + k
    let t := (s.fill who.home leaf p a 0 .normal).fill { who with bypass := true } leaf p a 1 .normal
    if deep ≥ 2 then t.fill who leaf p a 2 .normal else t) s
def State.hintFar (s : State) (who : Who) (leaf : Dword) (va : Nat) (tag : BitVec 4) (deep : Nat) : State :=
  [0, 128].foldl (fun s k =>
    let a := va / 256 * 256 + k
    let t := s.fillFar { who with bypass := true } leaf a (touches va 1) tag 1 .normal
    if deep ≥ 2 then t.fillFar who leaf a (touches va 1) tag 2 .normal else t) s

/-! ### Stores (R199) -/
def State.dropL1 (s : State) (core : CoreId) (who : Who) (va : Nat) : State :=
  { s with l1 := s.l1.filter fun e => !(e.1 = core && lineAt who va e.2) }
def State.dropRlc (s : State) (die : Fin 2) (who : Who) (va : Nat) : State :=
  { s with rlc := s.rlc.filter fun e => !(e.1 = die && lineAt who va e.2) }
/-- Bytes within a sector are written into a copy; a whole granule's poison is cleared (R302). -/
def Line.write (bs : List Byte) (off : Nat) (l : Line) : Line :=
  { l with data := memWrite l.data off bs, pois := if bs.length = 32 then l.pois &&& ~~~(1#4 <<< (off / 32)) else l.pois }
def Line.put (bs : List Byte) (off : Nat) (l : Line) : Line :=
  { l.write bs off with dmask := l.dmask ||| (BitVec.ofNat 128 (2 ^ bs.length - 1) <<< off) }
def updL2 (who : Who) (va : Nat) (f : Line → Line) (l : List Line) : List Line := l.map fun x => if lineAt who va x then f x else x
/-- The issuing core's L1 copy is written, or dropped under MOD 010. -/
def State.storeL1 (s : State) (who : Who) (va : Nat) (pol : Pol) (bs : List Byte) : State :=
  if who.engine then s
  else if pol = .bypass then s.dropL1 who.core who va
  else { s with l1 := s.l1.map fun e => if e.1 = who.core && lineAt who va e.2 then (e.1, e.2.write bs (va % 128)) else e }
/-- Bytes within one granule are stored at their home: into L2, or at the channel. -/
def State.putBytes (s : State) (who : Who) (leaf : Dword) (pa va : Nat) (pol : Pol) (bs : List Byte) : State :=
  let s := (s.storeL1 who va pol bs).dropRlc (dieOf who.core) who va
  if s.cacheable who leaf va then
    let s := s.fill who.home leaf pa va 0 pol
    { s with l2 := updL2 who va (Line.put bs (va % 128)) s.l2 }
  else (s.addTlb who leaf pa va).writeSector who.part leaf (pa / 128 * 128) (bs.zipIdx.map fun b => (pa % 128 + b.2, b.1))
/-- The granule at `pa` becomes poison where a store leaves it (R302). -/
def State.putPoison (s : State) (who : Who) (pa va : Nat) : State :=
  if (s.l2Line who va).isSome then
    { s with l2 := updL2 who va (fun l => { l with pois := l.pois ||| (1#4 <<< (va % 128 / 32)), dmask := l.dmask ||| (0xFFFFFFFF#128 <<< (va % 128 / 32 * 32)) }) s.l2 }
  else s.setPoison (pa / 32) true
/-- A granule written whole loses its poison (R302). -/
def State.cure (s : State) (who : Who) (pa va : Nat) : State :=
  if (s.l2Line who va).isSome then { s with l2 := updL2 who va (fun l => { l with pois := l.pois &&& ~~~(1#4 <<< (va % 128 / 32)) }) s.l2 }
  else s.setPoison (pa / 32) false
/-- Bytes within one granule are stored at a remote page: the issuing core's copies follow R199, and the rest is the other device's. -/
def State.putFar (s : State) (who : Who) (va : Nat) (pol : Pol) (bs : List Byte) : State :=
  (s.storeL1 who va pol bs).dropRlc (dieOf who.core) who va

/-! ### Acquires (R201, R242) -/
def Line.drop (l : Line) : Line := { l with live := false }
/-- Clean copies go: 1 the core's L1, 2 and the die's remote line cache, 3 and clean L2 sectors. DESIGN CHOICE (log 4): those of the
issuing context's whole address space, since every context of it reads the same copies. -/
def State.dropCopiesOf (s : State) (who : Who) (level : Nat) : State :=
  let mine := fun (l : Line) => l.part = who.part && l.asid = who.asid
  { s with
    l1 := if level ≥ 1 then s.l1.map fun e => if e.1 = who.core && mine e.2 then (e.1, e.2.drop) else e else s.l1
    rlc := if level ≥ 2 then s.rlc.map fun e => if e.1 = dieOf who.core && mine e.2 then (e.1, e.2.drop) else e else s.rlc
    l2 := if level ≥ 3 then s.l2.map fun l => if mine l && l.dmask = 0 then l.drop else l else s.l2 }
/-- An acquire at SYSTEM by the device itself, on behalf of every core (R264). -/
def State.dropEverywhere (s : State) (who : Who) : State :=
  let drop := fun (l : Line) => if l.part = who.part && l.asid = who.asid && l.dmask = 0 then l.drop else l
  { s with l1 := s.l1.map fun e => (e.1, drop e.2), rlc := s.rlc.map fun e => (e.1, drop e.2), l2 := s.l2.map drop }
/-- R295: the lines that a slice's counter of an OCCID counts. -/
def State.occupancy (s : State) (slice : Nat) (occ : Byte) : Nat :=
  (linesOf (s.l2.filter fun l => l.occ = occ && s.homeOf l.part (l.sector * 128) = some slice)).length

/-! ### The device's own accesses -/
/-- A byte that the device reads for a launch; one that is poisoned, or that it cannot reach, is undefined (log 20). -/
def State.devByte (s : State) (who : Who) (va : Nat) : Byte :=
  match s.access who.home (BitVec.ofNat 64 va) 1 { tags := false } with
  | .ok leaf pa _ => if s.sick who.home pa va then Config.byte (s.fresh * 2 ^ 60 + va) else s.viewByte who.home leaf pa va
  | _ => Config.byte (s.fresh * 2 ^ 60 + va)
/-- What reading `n` bytes does to the array's counters and errors, before their bytes are taken (R290). -/
def State.devSee (s : State) (who : Who) (va n : Nat) : State :=
  (List.range ((va % 128 + n + 127) / 128)).foldl (fun s k =>
    let a := if k = 0 then va else va / 128 * 128 + 128 * k
    match s.access who.home (BitVec.ofNat 64 a) 1 { tags := false } with
    | .ok _ pa false => (s.readWalk who.home a).arrayRead pa
    | _ => s) s
def State.devRead (s : State) (who : Who) (va n : Nat) : List Byte := (List.range n).map fun k => s.devByte who (va + k)
def State.devWord (s : State) (who : Who) (va : Nat) : Word := BitVec.ofNat 32 (leNat (s.devRead who va 4))
/-- A word that the device stores for a launch; one it cannot reach is dropped. -/
def State.devPut (s : State) (who : Who) (va : Nat) (bs : List Byte) : State :=
  match s.access who.home (BitVec.ofNat 64 va) bs.length { write := true, tags := false } with
  | .ok leaf pa _ => s.putBytes who.home leaf pa va .normal bs
  | _ => s
def State.devPuts (s : State) (who : Who) (va : Nat) (ws : List Word) : State :=
  (ws.zipIdx).foldl (fun s e => s.devPut who (va + 4 * e.2) (leBytes 4 e.1.toNat)) s
/-- A granule that the device fills a working copy from, with the hops its data cross; no line is added (R362, R303). -/
def State.devGranule (s : State) (who : Who) (va : Nat) : State × List Byte × Bool :=
  match s.access who.home (BitVec.ofNat 64 va) 32 { tags := false } with
  | .ok leaf pa held =>
    let (s, up) := if held then (s, []) else (s.readWalk who.home va).lift pa
    (s, s.view who.home leaf pa va 32, s.sick who.home pa va || up.contains (pa / 32))
  | _ => (s, s.devRead who va 32, false)
/-- A whole granule is stored at its home; `sick`: as poison (R302). -/
def State.devPutGranule (s : State) (who : Who) (va : Nat) (bs : List Byte) (sick : Bool) : State :=
  match s.access who.home (BitVec.ofNat 64 va) 32 { write := true, tags := false } with
  | .ok leaf pa _ =>
    let t := s.putBytes who.home leaf pa va .normal bs
    if sick then t.putPoison who.home pa va else t
  | _ => s
/-- The clean copies of a range of addresses that a core's loads read go (R370). -/
def State.dropRange (s : State) (who : Who) (va n : Nat) : State :=
  let mine := fun (l : Line) => l.part = who.part && l.asid = who.asid && va < (l.sector + 1) * 128 && l.sector * 128 < va + n
  { s with
    l1 := s.l1.map fun e => if e.1 = who.core && mine e.2 then (e.1, e.2.drop) else e
    rlc := s.rlc.map fun e => if e.1 = dieOf who.core && mine e.2 then (e.1, e.2.drop) else e }

/-! ### Events (R311) -/
def Event.words (e : Event) (seq : Word) : List Word :=
  [seq, BitVec.ofNat 32 (e.kind.toNat + e.part.val * 256) ||| (e.ctx <<< 16), pairLo e.va, pairHi e.va, e.place, e.ipc, e.code, e.rtag]
def State.ringFull (s : State) : Bool := (s.host.evhead - s.host.evack).toNat ≥ 2 ^ s.host.evlog2
def State.writeEvent (s : State) (e : Event) : State :=
  let h := s.host
  let a := h.evbase + 32 * (h.evhead.toNat % 2 ^ h.evlog2)
  let s := s.plainWrite a ((e.words (h.evseq + 1)).flatMap fun w => leBytes 4 w.toNat)
  { s with host := { h with evseq := h.evseq + 1, evhead := h.evhead + 1 } }
/-- An event is written, or dropped and counted when the ring is full; a page fault is held instead. -/
def State.postEvent (s : State) (e : Event) : State :=
  if s.ringFull || (e.kind = 1 && !s.host.held.isEmpty) then
    if e.kind = 1 then { s with host := { s.host with held := s.host.held ++ [e] } }
    else { s with host := { s.host with evlost := satInc s.host.evlost 1 } }
  else s.writeEvent e

end Sys2Proof.Machine
end

