-- ==== Sys2Proof/Machine/Ops.lean ====
section
/-!
DEFINITION. Machine/Ops.lean: the named operations on a group: registers, masks, the divergence tree, fault records, taking a trap
and returning from one, halting, lane death, retirement, and moving the program counter (02 R22-R39, 04 R63-R87).
-/
namespace Sys2Proof.Machine

/-! ### Lanes and masks -/
/-- The mask of the lanes below `n` that satisfy `f`. -/
def maskTo (f : Nat → Bool) : Nat → Mask
  | 0 => 0
  | n + 1 => maskTo f n ||| (if f n then 1#96 <<< n else 0)
def maskOf (f : Lane → Bool) : Mask := maskTo (fun i => if h : i < 96 then f ⟨i, h⟩ else false) 96
/-- The lanes of a mask in ascending order. -/
def lanesOf (m : Mask) : List Lane := (List.finRange 96).filter fun L => m.getLsbD L.val
def allLanes : Mask := BitVec.allOnes 96
/-- Word k of a mask: lanes 32k to 32k + 31. -/
def maskWord (m : Mask) (k : Nat) : Word := (m >>> (32 * k)).setWidth 32
def setMaskWord (m : Mask) (k : Nat) (w : Word) : Mask :=
  (m &&& ~~~((BitVec.allOnes 32).setWidth 96 <<< (32 * k))) ||| (w.setWidth 96 <<< (32 * k))

/-! ### A group's slots and entries -/
def Group.slot (g : Group) (k : Fin 2) : Slot := if k = g.sel then g.me else g.mate
def Group.setSlot (g : Group) (k : Fin 2) (x : Slot) : Group := if k = g.sel then { g with me := x } else { g with mate := x }
/-- The same group with slot `k` as the issuing slot. -/
def Group.select (g : Group) (k : Fin 2) : Group := if k = g.sel then g else { g with sel := k, me := g.mate, mate := g.me }
def Group.residents (g : Group) : List Entry := g.me.leaf.toList ++ g.mate.leaf.toList
def Group.allEntries (g : Group) : List Entry := g.residents ++ g.entries
/-- R12: entries held, resident or spilled. -/
def Group.depth (g : Group) : Nat := g.allEntries.length
/-- The issuing slot's active mask (R24); dead and exited lanes are never in it. -/
def Group.amask (g : Group) : Mask := match g.me.leaf with | some l => l.amask | none => 0
def Group.owned (g : Group) : Mask := match g.me.leaf with | some l => l.emask | none => 0
def Group.live (g : Group) : Mask := ~~~(g.dead ||| g.exited)
/-- R53, packet × 4 + slot of the word at the issuing slot. -/
def Group.ipc (g : Group) : Word := match g.me.leaf with | some l => l.pc * 4 + BitVec.ofNat 32 l.ws | none => 0
/-- The word that faults name: the issuing word, or the word being replayed. -/
def State.ipc (s : State) : Word := s.latch.ipc.getD s.g.ipc
def Group.pc (g : Group) : Word := match g.me.leaf with | some l => l.pc | none => 0
/-- The open trap entry; a group holds at most one (R71). -/
def Group.openTrap (g : Group) : Option Entry := g.entries.find? fun e => e.kind = .trap
def Group.afterTrap (g : Group) (e : Entry) : Bool := match g.openTrap with | some t => t.id < e.id | none => true
/-- R74: exactly one leaf and no split parent, among the entries since the innermost open trap entry. -/
def Group.splitOpen (g : Group) : Bool :=
  let l := g.allEntries.filter g.afterTrap
  (l.filter fun e => e.kind = .leaf && !e.arr).length ≠ 1 || l.any fun e => e.kind = .split
/-- Lanes with unread records or unacknowledged lost faults (R16). -/
def Group.faultm (g : Group) : Mask :=
  g.records.foldl (fun m r => let L := wbits r[0] 14 8; if L < 96 then m ||| (1#96 <<< L) else m) g.lost

/-! ### Reading registers -/
/-- The group whose registers the issuing word reads: as it stood at the issue of the pair (R43). -/
def State.src (s : State) : Group := s.latch.snap.getD s.g
def Group.readV (g : Group) (r : VReg) (L : Lane) : Word := g.regs.v[r][L]
def Group.readS (g : Group) (r : SReg) : Word :=
  if h : r.val < 60 then g.regs.s[r.val] else if r.val < 63 then maskWord g.amask (r.val - 60) else 0
def Group.readP (g : Group) (p : PReg) (L : Lane) : PVal := if h : p.val = 0 then .t else g.regs.p[p.val - 1][L]
/-- An odd or even register of a pair or quad. -/
def vreg (r : VReg) (k : Nat) : VReg := Fin.ofNat 64 (r.val + k)
def sreg (r : SReg) (k : Nat) : SReg := Fin.ofNat 64 (r.val + k)
def Group.readV64 (g : Group) (r : VReg) (L : Lane) : Dword := joinPair (g.readV r L) (g.readV (vreg r 1) L)
def Group.readS64 (g : Group) (r : SReg) : Dword := joinPair (g.readS r) (g.readS (sreg r 1))

/-! ### Writing registers -/
def setLanes (old : Vector Word 96) (m : Mask) (f : Lane → Word) : Vector Word 96 :=
  Vector.ofFn fun L => if m.getLsbD L.val then f L else old[L]
def State.setRegs (s : State) (f : Regs → Regs) : State := { s with g := { s.g with regs := f s.g.regs } }
def Regs.setV (r : Regs) (d : VReg) (m : Mask) (f : Lane → Word) : Regs :=
  { r with v := r.v.set d (setLanes r.v[d] m f), vpois := r.vpois.set d (r.vpois[d] &&& ~~~m) }
/-- V[d][L] ← f L in the lanes of `m`. -/
def State.setV (s : State) (d : VReg) (m : Mask) (f : Lane → Word) : State := s.setRegs fun r => r.setV d m f
def State.setV64 (s : State) (d : VReg) (m : Mask) (f : Lane → Dword) : State :=
  (s.setV d m fun L => pairLo (f L)).setV (vreg d 1) m fun L => pairHi (f L)
/-- P[d][L] ← f L in the lanes of `m`; p0 ignores writes (R22). -/
def Regs.setP (r : Regs) (d : PReg) (m : Mask) (f : Lane → PVal) : Regs :=
  if h : d.val = 0 then r
  else { r with p := r.p.set (d.val - 1) (Vector.ofFn fun L => if m.getLsbD L.val then f L else r.p[d.val - 1][L]) }
def State.setP (s : State) (d : PReg) (m : Mask) (f : Lane → PVal) : State := s.setRegs fun r => r.setP d m f
def State.setActive (s : State) (m : Mask) : State :=
  match s.g.me.leaf with
  | some l => { s with g := { s.g with me := { s.g.me with leaf := some { l with amask := m &&& l.emask } } } }
  | none => s
/-- S[d] ← w: s60-s62 write the active mask under R24, s63 ignores writes (R22). -/
def State.setS (s : State) (d : SReg) (w : Word) : State :=
  if h : d.val < 60 then s.setRegs fun r => { r with s := r.s.set d.val w, spois := r.spois &&& ~~~(1#64 <<< d.val) }
  else if d.val < 63 then s.setActive (setMaskWord s.g.amask (d.val - 60) w)
  else s
def State.setS64 (s : State) (d : SReg) (x : Dword) : State := (s.setS d (pairLo x)).setS (sreg d 1) (pairHi x)
/-- Consecutive scalars from `d`. -/
def State.setSs (s : State) (d : SReg) : List Word → State
  | [] => s
  | w :: ws => (s.setS d w).setSs (sreg d 1) ws
def Group.readSs (g : Group) (a : SReg) (n : Nat) : List Word := (List.range n).map fun k => g.readS (sreg a k)
/-- Flags are ORed into FSTAT (R89). -/
def State.orFlags (s : State) (f : Byte) : State :=
  { s with
    g := { s.g with regs := { s.g.regs with fstat := s.g.regs.fstat ||| f.setWidth 32 } }
    latch := { s.latch with flags := s.latch.flags ||| f } }
def State.setPending (s : State) (d : SReg) (on : Bool) : State :=
  if d.val = 63 then s
  else s.setRegs fun r => { r with pending := if on then r.pending ||| (1#64 <<< d.val) else r.pending &&& ~~~(1#64 <<< d.val) }

/-! ### Guards and senses (R53, R91) -/
/-- Meets(p, s) under a sense code. -/
def meets (p : PVal) (sense : Nat) : Bool :=
  match sense, p with
  | 0, .t => true
  | 1, .f => true
  | 2, .u | 2, .never => true
  | 3, .f | 3, .u | 3, .never => true
  | 4, .t | 4, .u | 4, .never => true
  | 5, .t | 5, .f => true
  | 0, _ | 1, _ | 2, _ | 3, _ | 4, _ | 5, _ => false
  | _, _ => true
def Group.guardReg (g : Group) : PReg := Fin.ofNat 8 (wbits g.regs.guard 2 0)
def Group.guardSense (g : Group) : Nat := wbits g.regs.guard 5 3
def Group.guardMask (g : Group) : Mask := maskOf fun L => meets (g.readP g.guardReg L) g.guardSense
/-- R9: the active lanes of a word whose G bit is `guarded`. -/
def Group.lanes (g : Group) (guarded : Bool) : Mask := if guarded then g.amask &&& g.guardMask else g.amask

/-- Whose copies of code a group's fetches read (R42): its workgroup's, or its own where it is a method group. -/
def Group.fetchKey (g : Group) : Nat := if g.method.isSome then 2 * g.gid + 1 else 2 * g.wid

/-! ### Finding launches, stages, contexts; other groups and workgroups -/
def State.launch? (s : State) (lid : Nat) : Option Launch := s.launches.find? fun l => l.lid = lid
def State.updLaunch (s : State) (lid : Nat) (f : Launch → Launch) : State :=
  { s with launches := s.launches.map fun l => if l.lid = lid then f l else l }
def State.updCtx (s : State) (c : Nat) (f : Ctx → Ctx) : State :=
  { s with ctxs := s.ctxs.map fun x => if x.ctx = c then f x else x }
def Launch.stage (l : Launch) (k : Nat) : Stage := (l.stages[k]?).getD {}
/-- The launch, stage and context of the issuing group. -/
def State.myLid (s : State) : Nat := match s.g.method with | some m => m.lid | none => s.w.lid
def State.myLaunch (s : State) : Launch := (s.launch? s.myLid).getD {}
def State.myStage (s : State) : Stage := s.myLaunch.stage s.w.stage.val
def State.myCtx (s : State) : Nat := s.myLaunch.ctx
def State.me (s : State) : Who := { s.who s.myCtx s.g.core s.g.gid with bypass := s.latch.bypass }
def State.codeBase (s : State) : Nat := s.myLaunch.hdr[1].toNat + wbits s.myLaunch.hdr[2] 19 0 * 2 ^ 32
def State.allGroups (s : State) : List Group := s.g :: s.others
def State.allWgs (s : State) : List Workgroup := s.w :: s.otherWgs
def State.group? (s : State) (gid : Nat) : Option Group := s.allGroups.find? fun g => g.gid = gid && gid ≠ 0
def State.wg? (s : State) (wid : Nat) : Option Workgroup := s.allWgs.find? fun w => w.wid = wid && wid ≠ 0
def State.updGroup (s : State) (gid : Nat) (f : Group → Group) : State :=
  { s with g := if s.g.gid = gid then f s.g else s.g, others := s.others.map fun g => if g.gid = gid then f g else g }
def State.updWg (s : State) (wid : Nat) (f : Workgroup → Workgroup) : State :=
  { s with w := if s.w.wid = wid then f s.w else s.w, otherWgs := s.otherWgs.map fun w => if w.wid = wid then f w else w }
def State.core? (s : State) (c : CoreId) : Core := (s.cores.find? fun x => x.id = c).getD { id := c }
def State.updCore (s : State) (c : CoreId) (f : Core → Core) : State :=
  { s with cores := f (s.core? c) :: s.cores.filter fun x => x.id ≠ c }
/-- The workgroup `wid` in front; no workgroup where there is none. -/
def State.focusWg (s : State) (wid : Nat) : State :=
  if s.w.wid = wid then s
  else
    let rest := (if s.w.wid = 0 then [] else [s.w]) ++ s.otherWgs
    { s with w := (rest.find? fun w => w.wid = wid).getD {}, otherWgs := rest.filter fun w : Workgroup => w.wid ≠ wid }
/-- The state with group `gid` and its workgroup in front, and slot `k` issuing; unchanged where there is no such group. -/
def State.focus (s : State) (gid : Nat) (k : Fin 2) : State :=
  if s.g.gid = gid then { s with g := s.g.select k }
  else
    match s.others.find? fun g => g.gid = gid with
    | none => s
    | some g =>
      ({ s with g := g.select k, others := (if s.g.gid = 0 then [] else [s.g]) ++ s.others.filter fun x : Group => x.gid ≠ gid }).focusWg g.wid
/-- Who a group's own accesses are by. -/
def State.groupWho (s : State) (g : Group) : Who :=
  s.who (((s.wg? g.wid).bind fun w => (s.launch? w.lid).map (·.ctx)).getD 0) g.core g.gid
def Slot.wake (x : Slot) : Slot := { x with stalled := false }
def Group.wake (g : Group) : Group := { g with me := g.me.wake, mate := g.mate.wake }
/-- Something happened: every slot that could not proceed may try again. -/
def State.wake (s : State) : State := { s with g := s.g.wake, others := s.others.map Group.wake }
def State.tick (s : State) : State := { s with fresh := s.fresh + 1 }

/-- R201: the clean copies that an acquire of the issuing group drops. -/
def State.dropCopies (s : State) (level : Nat) : State := s.dropCopiesOf s.me level

/-! ### TRAPCFG (R32, R77) -/
/-- Where a cause's field of TRAPCFG lies. -/
def classShift (cause : Byte) : Nat :=
  match cause.toNat with
  | 0x01 | 0x02 => 0
  | 0x03 => 2
  | 0x04 => 4
  | 0x05 => 6
  | 0x06 | 0x07 => 8
  | 0x08 => 10
  | 0x09 => 12
  | 0x0A => 14
  | 0x0B => 16
  | 0x0C => 18
  | 0x0D => 20
  | 0x0E => 22
  | 0x0F => 24
  | 0x14 => 26
  | 0x15 => 28
  | 0x16 => 30
  | _ => 0
/-- TRAPCFG's action for a cause: 0 trap, 1 kill, 2 and 3 halt. -/
def actionOf (cfg : Word) (cause : Byte) : Nat := wbits cfg (classShift cause + 1) (classShift cause)
/-- A method group's TRAPCFG cannot be written and kills (R366, R367). -/
def Group.trapcfgNow (g : Group) : Word := if g.method.isSome then 0x55555555 else g.regs.trapcfg

/-! ### Fault records (R15, R78) -/
/-- DIVDEPTH when the word issued. -/
def State.depthNow (s : State) : Nat := s.latch.depth.getD s.src.depth
/-- Word 4 of a record, and PLACE of an event. -/
def placeOf (g : Group) (ctx : Nat) : Word :=
  match g.method with
  | some m => BitVec.ofNat 32 (m.slice + ctx * 65536)
  | none => BitVec.ofNat 32 (g.core.val + g.simd.val * 256 + g.gslot.val * 1024 + ctx * 65536)
def State.record (s : State) (cause : Byte) (lane : Nat) (va : Dword) : Vector Word 8 :=
  #v[BitVec.ofNat 32 (cause.toNat + lane * 256 + s.g.sel.val * 32768 + s.depthNow * 65536), s.ipc, pairLo va, pairHi va,
    placeOf s.g s.myCtx, if s.g.method.isSome then 0 else BitVec.ofNat 32 s.w.stage.val,
    if s.g.method.isSome then 0xFFFFFFFF else s.w.linear, 0]
/-- A record is written, or the fault is lost (R78); a method group's record goes to its context (R367). -/
def State.writeRecord (s : State) (cause : Byte) (lane : Nat) (va : Dword) : State :=
  if s.g.method.isSome then s.updCtx s.myCtx fun c => { c with faults := c.faults ++ [s.record cause lane va] }
  else if s.g.records.length < Config.maxRecords then
    { s with g := { s.g with records := s.g.records ++ [s.record cause lane va] } }
  else
    let s := s.updCtx s.myCtx fun c => { c with lostRecords := c.lostRecords + 1 }
    let s := s.countPart (ctxPart (s.ctxDesc s.myCtx)) 24 1
    { s with g := { s.g with lost := if lane < 96 then s.g.lost ||| (1#96 <<< lane) else s.g.lost, lostCount := s.g.lostCount + 1 } }
/-- The issuing word's place in issue order: a pair's second word comes after its first (R79). -/
def State.noNow (s : State) : Nat := s.latch.no.getD (2 * s.fresh + if s.latch.first then 0 else 1)
/-- The fault of a lane, with TRAPCFG's action as the word read it at issue (R43, R79). -/
def State.note (s : State) (cause : Byte) (lane : Nat) : FaultNote :=
  { no := s.noNow, ipc := s.ipc, lane := lane, cause := cause, act := actionOf s.src.trapcfgNow cause }
/-- Fault(L, cause) with the address the lane presented (R9). -/
def State.raise1 (cause : Byte) (s : State) (L : Lane) (va : Dword) : State :=
  let s := s.writeRecord cause L.val va
  { s with latch := { s.latch with faults := s.latch.faults ++ [s.note cause L.val] } }
/-- The lanes of `m` fault, in ascending order. They present no address: VALO and VAHI are 0, DESIGN CHOICE, since the spec gives
no value there (R15; log 16). -/
def State.raise (s : State) (cause : Byte) (m : Mask) : State := (lanesOf m).foldl (fun s L => s.raise1 cause L 0) s

/-! ### The divergence tree (R63-R67) -/
/-- Dead and exited lanes leave every entry's masks (R66, R86). -/
def Entry.strip (gone : Mask) (e : Entry) : Entry := { e with emask := e.emask &&& ~~~gone, amask := e.amask &&& ~~~gone }
def Slot.strip (gone : Mask) (x : Slot) : Slot := { x with leaf := x.leaf.map (Entry.strip gone) }
def Group.strip (g : Group) : Group :=
  let gone := g.dead ||| g.exited
  { g with me := g.me.strip gone, mate := g.mate.strip gone, entries := g.entries.map (Entry.strip gone) }
def Group.dropEntry (g : Group) (id : Nat) : Group := { g with entries := g.entries.filter fun e => e.id ≠ id }
/-- A leaf that stands at its reconvergence packet (R65). -/
def Entry.atRpc (e : Entry) : Bool := e.kind = .leaf && !e.arr && e.rpc ≠ 0xFFFFFFFF && e.pc = e.rpc && e.ws = 0
/-- Leaves that the open trap entry holds for its `tret` (R67, R84). -/
def Group.saved (g : Group) (e : Entry) : Bool :=
  match g.openTrap with | some t => t.slot0 = some e.id || t.slot1 = some e.id | none => false
/-- Every child of split parent `e` has arrived or been removed. -/
def Group.splitDone (g : Group) (e : Entry) : Bool := (g.allEntries.filter fun c => c.parent = some e.id).all (·.arr)
/-- A leaf takes slot `k`. -/
def Group.seat (g : Group) (k : Fin 2) (l : Entry) (now : Nat) : Group :=
  g.setSlot k { g.slot k with leaf := some { l with age := 0, arr := false }, stalled := false, since := now }
/-- A merged or returned leaf takes the freed slot, or waits for one. -/
def Group.place (g : Group) (freed : Option (Fin 2)) (l : Entry) (now : Nat) : Group :=
  match freed with
  | some k => if (g.slot k).leaf.isNone then g.seat k l now else { g with entries := g.entries ++ [l] }
  | none => { g with entries := g.entries ++ [l] }
/-- Unblocked suspended leaves (R67). -/
def Group.waiting (g : Group) : List Entry :=
  g.entries.filter fun e => e.kind = .leaf && !e.arr && g.afterTrap e && !g.saved e
/-- The one with the highest age counter, the latest created among equals. -/
def oldest : List Entry → Option Entry
  | [] => none
  | e :: es =>
    match oldest es with
    | none => some e
    | some f => if f.age > e.age || (f.age = e.age && f.id > e.id) then some f else some e

/-- A suspended leaf that is empty goes; one at its reconvergence packet arrives; else a free slot is filled, DESIGN CHOICE (log 16): slot 0
first, since the spec does not say which where both are free (R67). -/
def Group.treeSuspended (now : Nat) (g : Group) : Option (Group × Option (Fin 2)) :=
  match g.entries.find? fun e => e.kind = .leaf && !g.saved e && (e.emask = 0 || e.atRpc) with
  | some e =>
    if e.emask = 0 then some (g.dropEntry e.id, none)
    else some ({ g with entries := g.entries.map fun x => if x.id = e.id then { x with arr := true } else x }, none)
  | none =>
    match oldest g.waiting with
    | none => none
    | some l =>
      if (g.slot 0).leaf.isNone then some ((g.dropEntry l.id).seat 0 l now, none)
      else if (g.slot 1).leaf.isNone then some ((g.dropEntry l.id).seat 1 l now, none)
      else none
/-- The leaf of slot `k` is removed when it owns no lane, or arrives at its reconvergence packet; its slot is free. -/
def Group.treeSlot (g : Group) (k : Fin 2) : Option (Group × Option (Fin 2)) :=
  match (g.slot k).leaf with
  | none => none
  | some l =>
    let g' := g.setSlot k { g.slot k with leaf := none }
    if l.emask = 0 then some (g', some k)
    else if l.atRpc then some ({ g' with entries := g'.entries ++ [{ l with arr := true }] }, some k)
    else none
/-- A call entry whose lanes are all back, or a split parent whose children are, becomes a leaf; an empty one goes. -/
def Group.treeParent (now : Nat) (g : Group) (freed : Option (Fin 2)) : Option (Group × Option (Fin 2)) :=
  match g.entries.find? fun e => e.kind = .call && (e.emask = 0 || e.amask = e.emask) with
  | some e =>
    let g := g.dropEntry e.id
    if e.emask = 0 then some (g, freed)
    else some (g.place freed { e with kind := .leaf, pc := e.rpc, ws := 0, rpc := e.pc } now, none)
  | none =>
    match g.entries.find? fun e => e.kind = .split && (e.emask = 0 || g.splitDone e) with
    | some e =>
      let g := { g with entries := g.entries.filter fun c => c.id ≠ e.id && c.parent ≠ some e.id }
      if e.emask = 0 then some (g, freed)
      else some (g.place freed { e with kind := .leaf, ws := 0, amask := e.emask } now, none)
    | none => none
/-- One change that the tree rules force, with the slot freed by the last arrival or removal; none when nothing is left. The leaves in
the slots arrive or go first, so that a parent which their going completes finds the slot they have freed (R65). -/
def Group.treeStep (now : Nat) (g : Group) (freed : Option (Fin 2)) : Option (Group × Option (Fin 2)) :=
  let slots := (g.treeSlot 0).orElse fun _ => g.treeSlot 1
  let parents := g.treeParent now freed
  (if freed.isSome then parents.orElse fun _ => slots else slots.orElse fun _ => parents).orElse fun _ => g.treeSuspended now

def Group.treeLoop (now : Nat) : Nat → Group → Option (Fin 2) → Group
  | 0, g, _ => g
  | n + 1, g, freed =>
    match g.treeStep now freed with
    | none => g
    | some (g', f') => g'.treeLoop now n f'
/-- Arrivals, removals, merges and the filling of free slots, to their end (R64-R67). Each change removes, arrives, merges
or seats an entry, so three per entry suffice. -/
def Group.regrow (now : Nat) (g : Group) (freed : Option (Fin 2)) : Group := g.treeLoop now (3 * g.depth + 8) freed
def State.regrow (s : State) (freed : Option (Fin 2)) : State := { s with g := s.g.regrow s.fresh freed }

/-! ### The register window (R37, R38) -/
/-- A predicate as a fragment of memory or of the register window holds it (R22, R37). -/
def pBits : PVal → BitVec 2
  | .f => 0
  | .t => 1
  | .u => 2
  | .never => 3
def pOfBits (b : BitVec 2) : PVal := if b = 0 then .f else if b = 1 then .t else if b = 2 then .u else .never
/-- A write to XACTLc keeps HEAD and COUNT, but sets both to 0 when it changes DEPTH (R176). -/
def xactlWrite (old w : Word) : Word :=
  let rw : Word := 0x3F03FFFF
  if wbits old 8 6 = wbits w 8 6 then (w &&& rw) ||| (old &&& 0x00FC0000) else w &&& rw
/-- Writes act on RW fields; a write to an RO or HW register is ignored (R7, R30). -/
def Regs.csrSet (r : Regs) (n : Nat) (w : Word) : Regs :=
  match n with
  | 0x000 => { r with fmode := w &&& 0x1FFF }
  | 0x001 => { r with fstat := w &&& 0xFF }
  | 0x002 => { r with guard := w &&& 0x3F }
  | 0x003 => { r with trapcfg := w }
  | 0x004 => { r with trapvec := w }
  | 0x030 => { r with xactl := r.xactl.set 0 (xactlWrite r.xactl[0] w) }
  | 0x031 => { r with xactl := r.xactl.set 1 (xactlWrite r.xactl[1] w) }
  | 0x070 => { r with shdcnt := w }
  | _ => r
/-- What a window address names (R37). -/
structure Win where
  lane : Nat
  reg : Nat
  cls : Nat
  gslot : Nat
  simd : Nat
  core : Nat
  csr : Nat
  deriving DecidableEq, Repr
def winOf (off : Nat) : Win :=
  { lane := bits off 8 2, reg := bits off 14 9, cls := bits off 16 15, gslot := bits off 20 17, simd := bits off 22 21
    core := bits off 30 23, csr := bits off 14 2 }
def State.ctxOfGroup (s : State) (g : Group) : Option Nat := (s.wg? g.wid).bind fun w => (s.launch? w.lid).map (·.ctx)
/-- The group a window address names in a context: a retired one too, which holds its slot until its workgroup retires (R39). -/
def State.winGroup (s : State) (ctx : Nat) (x : Win) : Option Group :=
  s.allGroups.find? fun g => g.gid ≠ 0 && g.method.isNone && g.core.val = x.core && g.simd.val = x.simd
    && g.gslot.val = x.gslot && s.ctxOfGroup g = some ctx
/-- R38: the register exists. A scalar's LANE field must be 0, and a predicate's REG below 8 (log 18). -/
def winOk (g : Group) (x : Win) : Bool :=
  match x.cls with
  | 0 => x.lane < 96 && (x.reg < 32 || g.regs.extb)
  | 1 => x.lane = 0
  | 2 => x.lane < 96 && x.reg < 8
  | _ => csrListed x.csr
/-- The group of a valid window access; a write needs it halted or parked. -/
def State.window? (s : State) (ctx off : Nat) (write : Bool) : Option Group :=
  if off % 4 ≠ 0 then none
  else
    match s.winGroup ctx (winOf off) with
    | none => none
    | some g => if winOk g (winOf off) && (!write || g.status = .halted || g.status = .parked) then some g else none

/-- A register of the issuing group, as the window writes it. DESIGN CHOICE (log 18): s60-s62 are the active mask of slot 0, since R38
names no slot. -/
def State.winSet (x : Win) (w : Word) (s : State) : State :=
  match x.cls with
  | 0 => s.setV (Fin.ofNat 64 x.reg) (1#96 <<< x.lane) fun _ => w
  | 1 =>
    let t := s.setS (Fin.ofNat 64 x.reg) w
    { t with g := { t.g with poisonHalt := t.g.poisonHalt &&& ~~~(1#64 <<< x.reg) } }
  | 2 => s.setP (Fin.ofNat 8 x.reg) (1#96 <<< x.lane) fun _ => pOfBits (w.setWidth 2)
  | _ => s.setRegs fun r => r.csrSet x.csr w
/-- A write through the window; a rewritten scalar lets its group resume (R87). -/
def State.winWrite (s : State) (g : Group) (x : Win) (w : Word) : State :=
  s.updGroup g.gid fun h => (State.winSet x w { s with g := h.select 0 }).g.select h.sel
/-- Poison written through the window lands as poison (R302). -/
def State.winHurt (s : State) (g : Group) (x : Win) : State :=
  let f : Regs → Regs := fun r => match x.cls with
    | 0 => { r with vpois := r.vpois.set (Fin.ofNat 64 x.reg) (r.vpois[Fin.ofNat 64 x.reg] ||| (1#96 <<< x.lane)) }
    | 1 => if x.reg < 60 then { r with spois := r.spois ||| (1#64 <<< x.reg) } else r
    | _ => r
  s.updGroup g.gid fun g => { g with regs := f g.regs }

/-! ### Physical lanes (R1, R301) -/
def State.spare (s : State) (u : Nat) : Spare := (s.spares.find? fun x => x.unit = u).getD { unit := u }
def State.setSpare (s : State) (x : Spare) : State := { s with spares := x :: s.spares.filter fun y => y.unit ≠ x.unit }
/-- DEDUCED (log 11): a beat takes 32 lanes in order, so lane L runs on physical lane L mod 32, one place up from a defect that has been
steered around. -/
def Spare.place (x : Spare) (L : Lane) : Nat :=
  let p := L.val % 32
  if (x.state = 1 || x.def1 ≠ 63) && p ≥ x.def0 then p + 1 else p
/-- A corrected register error or a shadow divergence counts against the physical lane. -/
def Spare.count (x : Spare) (L : Lane) : Spare :=
  { x with errs := (x.place L, (x.errs.lookup (x.place L)).getD 0 + 1) :: x.errs.filter fun e => e.1 ≠ x.place L }
def State.laneError (s : State) (L : Lane) : State :=
  if s.g.method.isSome then s else s.setSpare ((s.spare (s.g.core.val * 4 + s.g.simd.val)).count L)

/-! ### Committing held stores (R36) -/
def State.countPort (s : State) (k : Fin 24) (i : Fin 4) : State :=
  { s with ports := s.ports.set k { s.ports[k] with words := s.ports[k].words.set i (satInc s.ports[k].words[i] 1) } }
/-- R315: a store with no route that is up is dropped. DESIGN CHOICE (log 13): its timeout is counted at the lowest-numbered port of the
route entry that the partition owns, since the spec does not say which port it means. -/
def State.putRemote (s : State) (who : Who) (leaf : Dword) (va : Nat) (pol : Pol) (bs : List Byte) : State :=
  let s := s.putFar who va pol bs
  if (s.route? who.part leaf).isSome then s
  else match s.routePorts who.part leaf with
    | k :: _ => s.countPort (Fin.ofNat 24 k) 3
    | [] => s
/-- A held store is performed where its page lies now (R198). DESIGN CHOICE (log 4): where an invalidation has left its page with no
translation that allows it, it is performed at the frame it was checked for, which is not installed again. -/
def State.performHeld (s : State) (core : CoreId) (h : Held) : State :=
  let who : Who := { core := core, ctx := h.ctx, part := h.part, asid := h.asid, gid := h.gid }
  match h.win with
  | some off => match s.window? h.ctx off true with
    | some g => s.winWrite g (winOf off) (BitVec.ofNat 32 (leNat h.bytes))
    | none => s
  | none =>
    if leafRem h.leaf then s.putRemote who h.leaf h.va h.pol h.bytes
    else match s.access who.home (BitVec.ofNat 64 h.va) h.bytes.length { write := true, tags := false } with
      | .ok leaf pa _ => s.putBytes who leaf pa h.va h.pol h.bytes
      | _ => ((s.storeL1 who h.va h.pol h.bytes).dropRlc (dieOf core) who h.va).writeSector h.part h.leaf (h.pa / 128 * 128)
          (h.bytes.zipIdx.map fun b => (h.pa % 128 + b.2, b.1))
/-- The held stores of one group are performed, oldest first. -/
def State.commitGroup (s : State) (g : Group) : State :=
  let mine := (s.core? g.core).commit.filter fun h => h.gid = g.gid
  if mine.isEmpty then s
  else mine.foldl (fun s h => s.performHeld g.core h) (s.updCore g.core fun c => { c with commit := c.commit.filter fun h => h.gid ≠ g.gid })
/-- The whole buffer of a core commits; every region with stores in it is no longer restartable. -/
def State.commitCore (s : State) (core : CoreId) : State :=
  let all := (s.core? core).commit
  let s := all.foldl (fun s h => s.performHeld core h) (s.updCore core fun c => { c with commit := [] })
  let spoil := fun (g : Group) => if all.any (fun h => h.gid = g.gid) then { g with restartable := false } else g
  { s with g := { spoil s.g with restartable := false }, others := s.others.map spoil }
/-- R36: an atomic, copy, Basin operation, putsig, emit, spawn or push inside a transactional region first commits it. -/
def State.endTransaction (s : State) : State :=
  if s.g.region = .trans then
    let s := s.commitCore s.g.core
    { s with g := { s.g with restartable := false } }
  else s

/-! ### Barriers (R115) -/
def State.expected (s : State) (wid : Nat) : Nat := (s.allGroups.filter fun g => g.wid = wid && g.gid ≠ 0 && g.status ≠ .retired).length
/-- The arrivals on barrier n complete its phase. -/
def Workgroup.barFull (w : Workgroup) (expected : Nat) (n : Fin 16) : Bool := w.barArrived[n] ≥ expected && w.barArrived[n] > 0
/-- Phases of a workgroup's barriers that the arrivals now complete. -/
def Workgroup.completeBars (w : Workgroup) (expected : Nat) : Workgroup :=
  let full := w.barFull expected
  { w with
    barPhase := w.barPhase ^^^ BitVec.ofNat 16 ((List.finRange 16).foldl (fun a n => if full n then a + 2 ^ n.val else a) 0)
    barArrived := Vector.ofFn fun n => if full n then 0 else w.barArrived[n] }
/-- The wait `w` is for a barrier that satisfies `full`. -/
def Wait.onBar (full : Fin 16 → Bool) : Wait → Bool
  | .barred n | .rearm n => full n
  | _ => false
/-- What a wait becomes when its phase completes: `bar` and `barwait` go on, and an arrival that had to wait is tried anew. -/
def Wait.passBar (full : Fin 16 → Bool) (w : Wait) : Wait :=
  match w with
  | .barred n => if full n then .granted else w
  | .rearm n => if full n then .none else w
  | _ => w
def Entry.passBars (full : Fin 16 → Bool) (e : Entry) : Entry := { e with wait := e.wait.passBar full, wait2 := e.wait2.passBar full }
def Slot.passBars (full : Fin 16 → Bool) (x : Slot) : Slot := { x with leaf := x.leaf.map (Entry.passBars full) }
/-- The slots of a group that wait for a barrier see its completion together, whatever either then does (R115). -/
def Group.passBars (full : Fin 16 → Bool) (g : Group) : Group :=
  let seen := fun (n : Fin 16) => full n && g.allEntries.any fun e => e.wait = .barred n || e.wait2 = .barred n
  { g with
    me := g.me.passBars full, mate := g.mate.passBars full, entries := g.entries.map (Entry.passBars full)
    barPending := g.barPending &&& ~~~BitVec.ofNat 16 ((List.finRange 16).foldl (fun a n => if seen n then a + 2 ^ n.val else a) 0) }
def State.completeBars (s : State) (wid : Nat) : State :=
  let n := s.expected wid
  let full := ((s.wg? wid).getD {}).barFull n
  let pass := fun (g : Group) => if g.wid = wid then g.passBars full else g
  ({ s with g := pass s.g, others := s.others.map pass }.updWg wid fun w => w.completeBars n).wake

/-- A host access, a Beljo request or a group that becomes resident ends an idle state (R318). -/
def State.endIdle (s : State) : State := { s with host := { s.host with idle := 0 } }

/-! ### Retirement (R39, R87) -/
/-- The place of a pixel in its block (R355). -/
def PixSlot.lane (q : PixSlot) : Nat := 8 * (q.y % 8) + q.x % 8
def PixSlot.sameAs (q r : PixSlot) : Bool := q.lid = r.lid && q.handle = r.handle && q.x = r.x && q.y = r.y
/-- A cancelled slot retires once it is the oldest of its pixel (R364). -/
def settleFrom : List PixSlot → List PixSlot → List PixSlot
  | _, [] => []
  | seen, q :: qs =>
    if q.state = .cancelled && !(seen.any fun r => r.sameAs q) then settleFrom seen qs else q :: settleFrom (q :: seen) qs
def State.settlePixels (s : State) : State := { s with pixels := settleFrom [] s.pixels }
/-- The bytes of one pixel in both planes. -/
def pixelBytes (m : Memory) (block pixel : Nat) : List Byte × List Byte :=
  (memRead m (64 * (64 * block + pixel)) 64, memRead m (65536 + 64 * (64 * block + pixel)) 64)
def putPixel (m : Memory) (block pixel : Nat) (x : List Byte × List Byte) : Memory :=
  memWrite (memWrite m (64 * (64 * block + pixel)) x.1) (65536 + 64 * (64 * block + pixel)) x.2
/-- Bytes of one pixel of a working copy become visible to live reads; what it showed before is kept (R369). -/
def Tile.showPixel (block pixel : Nat) (t : Tile) : Tile :=
  { t with
    shown := putPixel t.shown block pixel (pixelBytes t.bytes block pixel)
    past := t.past ++ [(64 * block + pixel, pixelBytes t.shown block pixel)] }
/-- Running slots of a method group whose lanes have exited or died retire (R364). -/
def State.retirePixels (s : State) : State :=
  match s.g.method with
  | none => s
  | some m =>
    let gone := fun (q : PixSlot) => q.state = .running && q.runner = s.g.gid && (s.g.dead ||| s.g.exited).getLsbD q.lane
    let show_ := fun (t : Tile) =>
      if t.lid = m.lid && t.handle = m.handle && t.tile = m.tile then
        (s.pixels.filter gone).foldl (fun t q => t.showPixel m.block q.lane) t
      else t
    ({ s with tiles := s.tiles.map show_, pixels := s.pixels.filter fun q => !gone q }).settlePixels.wake
/-- Every running lane has died. -/
def Group.allDied (g : Group) : Bool := g.startExited ≠ allLanes && (g.dead ||| g.startExited) = allLanes
def Group.gone (g : Group) : Bool := (g.dead ||| g.exited) = allLanes
/-- The group retires when no lane is left: its region closes and commits, and its barriers expect one group fewer. -/
def State.retireIfGone (s : State) : State :=
  if s.g.gone && s.g.status ≠ .retired then
    let s := if s.g.region = .trans then s.commitGroup s.g else s
    let s := { s with
      g := { s.g with status := .retired, region := .none, me := { s.g.me with leaf := none }, mate := { s.g.mate with leaf := none }, entries := [], reads := [] }
      w := { s.w with deadgroup := s.w.deadgroup || s.g.allDied } }
    s.completeBars s.g.wid
  else s
/-- Lanes leave every entry, by `exit` or by death, and the tree follows. -/
def State.removeLanes (s : State) : State :=
  ({ s with g := s.g.strip }.retirePixels.regrow none).retireIfGone
/-- R85, R86: the lanes die. -/
def State.kill (s : State) (m : Mask) : State :=
  if m = 0 then s else ({ s with g := { s.g with dead := s.g.dead ||| m } }).removeLanes
/-- R66: the lanes exit. -/
def State.exitLanes (s : State) (m : Mask) : State :=
  if m = 0 then s else ({ s with g := { s.g with exited := s.g.exited ||| m } }).removeLanes

/-! ### Halting, and taking a trap (R79, R80, R83) -/
def State.hostEvent (s : State) (kind : Byte) (ipc code : Word) : State :=
  s.postEvent { kind := kind, part := ctxPart (s.ctxDesc s.myCtx), ctx := BitVec.ofNat 32 s.myCtx, place := placeOf s.g s.myCtx, ipc := ipc, code := code }
/-- The group stops, keeping its resources, and the host is told. -/
def State.haltGroup (s : State) (kind : Byte) (ipc code : Word) : State :=
  ({ s with g := { s.g with status := .halted, haltCode := code } }).hostEvent kind ipc code
/-- A group stops for the word `pc`: for a fault, whose cause is the code, TRAPPC and TRAPCAUSE are set; for a `halt n`, bit 31 of
whose code is 1, they stay (R79, R121). -/
def State.haltFor (s : State) (pc code : Word) : State :=
  (if code.getLsbD 31 then s else s.setRegs fun r => { r with trappc := pc, trapcause := code }).haltGroup 2 pc code
/-- Taking an exception (R83): the resident leaves are kept in a trap entry with LACTIVE, TRAPPC and TRAPCAUSE are set, and one
handler leaf of every live lane starts at TRAPVEC in slot 0. -/
def Group.enterTrap (g : Group) (pc cause : Word) (now : Nat) : Group :=
  let t : Entry := { kind := .trap, id := g.nextEntry, emask := g.live, slact := g.regs.lactive, cause := cause.setWidth 8
                     slot0 := (g.slot 0).leaf.map (·.id), slot1 := (g.slot 1).leaf.map (·.id) }
  let h : Entry := { id := g.nextEntry + 1, parent := some g.nextEntry, emask := g.live, amask := g.live, pc := g.regs.trapvec }
  let g := { g with
    entries := g.entries ++ g.residents ++ [t]
    nextEntry := g.nextEntry + 2
    regs := { g.regs with lactive := 0, trappc := pc, trapcause := cause }
    me := { g.me with leaf := none, stalled := false }, mate := { g.mate with leaf := none, stalled := false } }
  g.seat 0 h now
def State.enterTrap (s : State) (pc cause : Word) : State := { s with g := s.g.enterTrap pc cause s.fresh }
/-- Returning from an exception (R84): the handler leaf and the trap entry go, LACTIVE comes back, levels the handler left
installed are dropped, and the saved leaves return to their slots. -/
def Group.leaveTrap (g : Group) (t : Entry) (now : Nat) : Group :=
  let l0 := g.entries.find? fun e => some e.id = t.slot0
  let l1 := g.entries.find? fun e => some e.id = t.slot1
  let drop := g.regs.lactive &&& ~~~t.slact
  let g := { g with
    entries := g.entries.filter fun e => e.id ≠ t.id && some e.id ≠ t.slot0 && some e.id ≠ t.slot1
    regs := { g.regs with lactive := t.slact, lc := Vector.ofFn fun n => if drop.getLsbD n.val then 0 else g.regs.lc[n] }
    me := { g.me with leaf := none, stalled := false }, mate := { g.mate with leaf := none, stalled := false } }
  let g := match l0 with | some l => g.seat 0 l now | none => g
  match l1 with | some l => g.seat 1 l now | none => g
/-- R84: the issuing leaf is a handler's root leaf with nothing open above the trap entry. -/
def Group.tretTrap (g : Group) : Option Entry :=
  match g.openTrap with
  | none => none
  | some t =>
    match g.me.leaf with
    | none => none
    | some l => if l.parent = some t.id && (g.entries.all fun e => e.id ≤ t.id) && g.mate.leaf.isNone then some t else none

/-! ### Acting on faults (R79) -/
def noteMask (l : List FaultNote) : Mask := l.foldl (fun m n => if n.lane < 96 then m ||| (1#96 <<< n.lane) else m) 0
def causeWord (c : Byte) : Word := c.setWidth 32

/-- DOUBLE (R80): the group halts with TRAPCAUSE 0x12 and its context is told. -/
def State.doubleFault (s : State) (pc cause : Word) : State :=
  (s.setRegs fun r => { r with trappc := pc, trapcause := 0x12 }).haltGroup 3 pc cause
/-- A fault's halt action (R79). -/
def State.faultHalt (s : State) (n : FaultNote) : State := s.haltFor n.ipc (causeWord n.cause)
/-- What the faults `l` and a soft trap lead to once the dying lanes are gone: a halt, or the handler. DEDUCED (log 15): TRAPPC names
the first fault whose class says trap, as R79 says of a halt, whether or not an earlier word of the pair has faulted with kill; a
fault's entry or halt leaves no entry for a `trap` or `brk` of the same pair. -/
def State.actOn (s : State) (l : List FaultNote) (soft : Option (Word × Word)) : State :=
  match l.find? fun n => n.act ≥ 2 with
  | some n => s.faultHalt n
  | none =>
    match l.find? fun n => n.act = 0 with
    | some n => s.enterTrap n.ipc (causeWord n.cause)
    | none => match soft with
      | some (c, pc) => s.enterTrap pc c
      | none => s
/-- Faults stand in issue order, those of one word in lane order (R79). -/
def FaultNote.before (a b : FaultNote) : Bool := a.no < b.no || (a.no = b.no && a.lane < b.lane)
def insertNote (n : FaultNote) : List FaultNote → List FaultNote
  | [] => [n]
  | m :: ms => if n.before m then n :: m :: ms else m :: insertNote n ms
/-- What an issue calls for, among what words of a parked or waiting group have called for. -/
def Debt.add (d : Debt) (l : Latch) : Debt :=
  { faults := l.faults.foldl (fun d n => insertNote n d) d.faults, dying := d.dying ||| l.dying, soft := d.soft.orElse fun _ => l.soft
    halting := d.halting.orElse fun _ => l.halting, poison := d.poison ||| l.poison }
/-- What follows the faults `l`: kills first, then a halt, then the handler (R79); DOUBLE inside a handler (R80). A consumed
poisoned scalar halts (R87). -/
def State.act (s : State) (inside : Bool) (l : Debt) : State :=
  if l.faults.isEmpty && l.soft.isNone && l.dying = 0 && l.halting.isNone then s
  else
    let s := { s with g := { s.g with poisonHalt := s.g.poisonHalt ||| l.poison } }
    let kills := if inside then 0 else noteMask (l.faults.filter fun n => n.act = 1)
    let s := s.kill (l.dying ||| kills)
    if s.g.status = .retired then s
    else
      let s :=
        if inside then
          match l.faults, l.soft with
          | n :: _, _ => s.doubleFault n.ipc (causeWord n.cause)
          | [], some (c, pc) => s.doubleFault pc (c &&& 0xFF)
          | [], none => s
        else s.actOn l.faults l.soft
      match l.halting with
      | some (pc, n) => if s.g.status = .ready then s.haltFor pc (0x80000000 ||| n) else s
      | none => s
/-- The group goes to its handler or halts. -/
def Debt.stops (l : Debt) (inside : Bool) : Bool :=
  l.faults.any (fun n => inside || n.act ≠ 1) || l.soft.isSome || l.halting.isSome
/-- A word that is issued and not complete (R13). -/
def Wait.busy : Wait → Bool
  | .ticket | .ticketed => true
  | _ => false
def Slot.busy (x : Slot) : Bool := x.leaf.any fun l => l.wait.busy
/-- The other slot's word, or a live read of either (R387), is issued and not complete. -/
def Group.mateBusy (g : Group) : Bool := g.mate.busy || !g.reads.isEmpty
/-- A word of the group is issued and not complete: a handler or a halt waits for it. -/
def Group.busy (g : Group) : Bool := g.me.busy || g.mateBusy
/-- The faults of one issue are acted on; those of a parked group wait for its replay, and a handler or a halt for the words that the
group has issued (R13, R121). -/
def State.settle (s : State) : State :=
  let l := s.g.debt.add s.latch
  let inside := s.src.openTrap.isSome
  if s.g.status = .parked || (l.stops inside && s.g.busy) then { s with latch := {}, g := { s.g with debt := l } }
  else State.act { s with latch := {}, g := { s.g with debt := {} } } inside l

/-! ### Moving the program counter (R40, R41, R75) -/
def State.setLeaf (s : State) (f : Entry → Entry) : State :=
  { s with g := { s.g with me := { s.g.me with leaf := s.g.me.leaf.map f } } }
/-- No word of the leaf waits. -/
def Entry.idle (l : Entry) : Entry := { l with wait := .none, wait2 := .none, held := none, no := none, chained := false }
/-- The slot's leaf continues at word 0 of packet `t` (and may arrive there). -/
def State.goto (s : State) (t : Word) : State :=
  (s.setLeaf fun l => { l.idle with pc := t, ws := 0, skip := none }).regrow none
/-- Level n is uninstalled: its LC becomes 0 and its LACTIVE bit clears. -/
def Regs.uninstall (r : Regs) (n : Fin 3) : Regs := { r with lc := r.lc.set n 0, lactive := r.lactive &&& ~~~(1#3 <<< n.val) }
def topLevel (lactive : BitVec 3) : Option (Fin 3) :=
  if lactive.getLsbD 2 then some 2 else if lactive.getLsbD 1 then some 1 else if lactive.getLsbD 0 then some 0 else none
/-- The loop end check of a slot that leaves packet `p` in sequence (R75). `n`: levels still to look at. -/
def State.loopCheck (p : Word) : Nat → State → State
  | 0, s => s.goto (p + 1)
  | n + 1, s =>
    match topLevel s.g.regs.lactive with
    | none => s.goto (p + 1)
    | some k =>
      if s.g.regs.lend[k] ≠ p then s.goto (p + 1)
      else if s.g.splitOpen then ((s.raise 0x0F s.g.amask).setRegs fun r => r.uninstall k).goto (p + 1)
      else if s.g.regs.lc[k].toNat > 1 then (s.setRegs fun r => { r with lc := r.lc.set k (r.lc[k] - 1) }).goto s.g.regs.lstart[k]
      else State.loopCheck p n (s.setRegs fun r => r.uninstall k)
/-- The slot leaves its packet without transferring control. DESIGN CHOICE (log 16): a loop word with count 0 sends the slot past its
body also where a control-transfer word of its packet transfers no lane, or splits the leaf, and a transfer that is taken wins over
it (R112). -/
def State.leave (s : State) : State :=
  match s.g.me.leaf with
  | none => s
  | some l => match l.skip with
    | some t => s.goto t
    | none => s.loopCheck l.pc 3
/-- The slot goes on after a word that takes `len` places of its packet. -/
def State.advance (s : State) (len : Nat) : State :=
  if s.latch.only.isSome then s else
  match s.g.me.leaf with
  | none => s
  | some l =>
    if l.ws + len < 3 then s.setLeaf fun l => { l.idle with ws := l.ws + len } else s.leave
/-- RETIRED counts an issued word; one that was skipped is not counted, nor is a replay (R396). -/
def State.countRetired (s : State) : State := if s.latch.only.isSome || s.latch.skipped then s else s.setRegs fun r => { r with retired := r.retired + 1 }
/-- Unless this is the first word of a pair, the faults of the issue are acted on. -/
def State.closeIssue (s : State) : State := if s.latch.first then s else s.settle

end Sys2Proof.Machine
end

