-- ==== Sys2Proof/Machine/Legal.lean ====
section
/-!
DEFINITION. Machine/Legal.lean: the words whose own rules make them ILLEGAL at run time, whatever their encoding (R29, R33, R38, R45, R47,
R123, R167, R236, R259, R368), what those rules look at, and the areas of memory that a program must not access (R10).
-/
namespace Sys2Proof.Machine

/-! ### What the rules look at -/
def stageDet (st : Stage) : Bool := st.desc[1].getLsbD 7
def stageExt (st : Stage) : Bool := st.desc[1].getLsbD 4
/-- A group's workgroup, launch and stage. -/
def State.wgOf (s : State) (g : Group) : Workgroup := (s.wg? g.wid).getD {}
def State.launchOf (s : State) (g : Group) : Launch :=
  (s.launch? (match g.method with | some m => m.lid | none => (s.wgOf g).lid)).getD {}
def State.stageOf (s : State) (g : Group) : Stage := (s.launchOf g).stage (s.wgOf g).stage.val
def State.detGroup (s : State) (g : Group) : Bool := g.method.isNone && stageDet (s.stageOf g)
def stageWidth (st : Stage) : Nat := wbits st.desc[3] 15 12 + 1
/-- The stage whose queue register q names. -/
def State.boundQueue (s : State) (q : QReg) : Option Nat :=
  let st := s.myStage
  if q.val < 8 && st.desc[10].getLsbD q.val then some (wbits st.desc[9] (4 * q.val + 3) (4 * q.val)) else none
/-- The next stage, where this one may emit (R123, R395). -/
def State.emitTo (s : State) : Option Nat :=
  let k := s.w.stage.val
  if s.myStage.desc[1].getLsbD 11 && k + 1 < s.myLaunch.stages.length then some (k + 1) else none
def State.spawnTo (s : State) : Option Nat :=
  if s.myStage.desc[1].getLsbD 12 && s.w.stage.val ≠ 0 then some s.w.stage.val else none
/-- The batch that a number names: none where it is not taken. -/
def Group.batchOf (g : Group) (n : Word) : Option Nat :=
  let back := (BitVec.ofNat 32 g.sealedTo - n).toNat
  if back < 2 ^ 31 then some (g.sealedTo - back) else none
/-- R33: the group has one live leaf and no loop level installed. DESIGN CHOICE (log 16): a leaf that has arrived at its rpc is none,
since it issues nothing until it merges; the spec does not say. -/
def Group.regionOk (g : Group) : Bool :=
  (g.allEntries.filter fun e => e.kind = .leaf && !e.arr).length = 1 && g.regs.lactive = 0

/-- XACTLc (R175). -/
structure Xctl where
  base : Nat
  depth : Nat
  method : Nat
  fmt64 : Bool
  thr : Nat
  head : Nat
  count : Nat
  wbase : Nat
  deriving DecidableEq, Repr
def xctl (w : Word) : Xctl :=
  { base := wbits w 5 0, depth := wbits w 8 6, method := wbits w 10 9, fmt64 := w.getLsbD 11, thr := wbits w 17 12
    head := wbits w 20 18, count := wbits w 23 21, wbase := wbits w 29 24 }
/-- R167: the fields make the word ILLEGAL. -/
def Xctl.bad (x : Xctl) (extb : Bool) : Bool :=
  let top := x.base + 2 * (3 + x.depth)
  x.base % 2 = 1 || x.depth < 2 || x.method ≥ 2 || top > 64 || (top > 32 && !extb) || (x.method = 1 && x.wbase + x.depth > 60)
def Group.xctl (r : Group) (c : Fin 2) : Xctl := Machine.xctl r.regs.xactl[c]

structure Target where
  base : Nat
  w : Nat
  h : Nat
  cf : Nat
  dz : Bool
  lg : Nat
  entry : Word
  deriving DecidableEq, Repr
def targetOf (d : Vector Word 16) : Target :=
  { base := d[0].toNat + wbits d[1] 19 0 * 2 ^ 32, w := wbits d[2] 15 0, h := wbits d[2] 31 16, cf := wbits d[3] 1 0
    dz := d[3].getLsbD 2, lg := wbits d[3] 5 4, entry := d[4] }
def Launch.target? (l : Launch) (h : Byte) : Option Target := (l.targets[h.toNat]?).map targetOf
def Target.samples (t : Target) : Nat := 2 ^ t.lg
/-- Bytes of an element of a plane: 0 where the plane is absent. -/
def Target.elem (t : Target) (colour : Bool) : Nat :=
  if colour then (match t.cf with | 1 => 4 | 2 => 8 | _ => 0) else if t.dz then 4 else 0
def Tile.is (lid : Nat) (h : Byte) (k : Nat) (t : Tile) : Bool := t.lid = lid && t.handle = h && t.tile = k
def State.tile? (s : State) (lid : Nat) (h : Byte) (k : Nat) : Option Tile := s.tiles.find? (Tile.is lid h k)
def Launch.rast? (l : Launch) : Option Nat := l.stages.findIdx? fun st => st.desc[1].getLsbD 13
/-- The method group's target and its tile's working copy. -/
def State.myTile (s : State) : Option (MethodInfo × Target × Tile) :=
  match s.g.method with
  | none => none
  | some m =>
    match s.myLaunch.target? m.handle, s.tile? m.lid m.handle m.tile with
    | some t, some x => some (m, t, x)
    | _, _ => none
def selColour (k : BitVec 4) : Bool := k.getLsbD 3
def selSample (k : BitVec 4) : Nat := k.toNat % 8
def Target.selOk (t : Target) (colour : Bool) (sample : Nat) : Bool := t.elem colour ≠ 0 && sample < t.samples

/-! ### What a program must not access (R10) -/
def Target.across (t : Target) : Nat := (t.w + 31) / 32
def Target.tiles (t : Target) : Nat := t.across * ((t.h + 31) / 32)
/-- Bytes of target memory (R355). -/
def Target.bytes (t : Target) : Nat := t.tiles * 1024 * t.samples * (t.elem false + t.elem true)
def Launch.work (l : Launch) : Nat × Nat := (l.hdr[6].toNat + wbits l.hdr[7] 19 0 * 2 ^ 32, l.hdr[8].toNat * 4096)
def landRanks (e : Vector Word 8) : Nat := wbits e[0] 18 8
def landStage (e : Vector Word 8) : Nat := e[4].toNat + e[5].toNat * 2 ^ 32
/-- The context whose address space a landing entry names: the one bound last (log 20). -/
def State.landWho? (s : State) (e : Vector Word 8) : Option Who :=
  (s.ctxs.find? fun c => ctxAsid c.desc = BitVec.ofNat 12 (wbits e[0] 31 20)).map fun c => s.who c.ctx 0 0
/-- The areas of an address space that belong to the device, by address and length: the work areas and parameter buffers of the launches
under way (R266, R374), the staging areas of armed landings (R281), and, for stores, target memory with a slot or a working copy (R363). -/
def State.deviceAreas (s : State) (who : Who) (write : Bool) : List (Nat × Nat) :=
  let same := fun w : Who => w.part = who.part && w.asid = who.asid
  let launches := s.launches.filter fun l => same (s.who l.ctx 0 0)
  let used := fun (l : Launch) (h : Nat) =>
    s.pixels.any (fun q => q.lid = l.lid && q.handle.toNat = h) || s.tiles.any fun x => x.lid = l.lid && x.handle.toNat = h
  launches.map Launch.work ++
  (launches.flatMap fun l => (l.stages.filter fun st => st.desc[1].getLsbD 13).map fun st =>
    (st.desc[14].toNat + wbits st.desc[15] 19 0 * 2 ^ 32, st.desc[16].toNat * 4096)) ++
  ((s.landing.toList.filter fun e => e.words[0].getLsbD 0 && wbits e.words[0] 7 6 = 0 && (s.landWho? e.words).any same).map fun e =>
    (landStage e.words, landRanks e.words * e.words[3].toNat + e.words[3].toNat / 32 * 4)) ++
  if write then launches.flatMap fun l => (l.targets.zipIdx.filter fun t => used l t.2).map fun t => ((targetOf t.1).base, (targetOf t.1).bytes) else []
/-- The spill areas that a debugger may read, or write, in an address space (R69): those of groups that do not run, or are halted. -/
def State.openSpills (s : State) (who : Who) (write : Bool) : List (Nat × Nat) :=
  (s.allGroups.filter fun g => g.gid ≠ 0 && g.method.isNone && (g.status = .halted || (!write && g.status = .parked)) &&
    (let w := s.who (s.launchOf g).ctx 0 0; w.part = who.part && w.asid = who.asid)).map fun g => (g.divsp.toNat, 48 * g.spillN)
/-- The bytes lie, one of them at least, where a program must not read or write them. R10: what it then sees is undefined (log 6). -/
def State.offLimits (s : State) (who : Who) (write : Bool) (va n : Nat) : Bool :=
  let meets := fun a : Nat × Nat => a.1 < va + n && va < a.1 + a.2
  (s.deviceAreas who write).any meets && !(s.openSpills who write).any fun a => a.1 ≤ va && va + n ≤ a.1 + a.2
/-- The bytes that a program reads at, or leaves at, a place in memory. -/
def State.readOr (s : State) (who : Who) (va : Nat) (bs : List Byte) : List Byte :=
  if s.offLimits who false va bs.length then (List.range bs.length).map fun k => Config.byte (s.fresh * 2 ^ 60 + 2 ^ 55 + va + k) else bs
def State.writeOr (s : State) (who : Who) (va : Nat) (bs : List Byte) : List Byte :=
  if s.offLimits who true va bs.length then (List.range bs.length).map fun k => Config.byte (s.fresh * 2 ^ 60 + 2 ^ 56 + va + k) else bs

/-! ### ILLEGAL at run time -/
/-- A queue word on a register that is not bound, or whose `n` registers from `r` pass s59 (R259, R260). -/
def State.queueBad (s : State) (q : QReg) (r extra : Nat) : Bool :=
  match s.boundQueue q with
  | none => true
  | some k => r + stageWidth (s.myLaunch.stage k) + extra > 60
/-- A batch number that no `cseal` of the group has given (R236); one that is not known yet, or is poisoned, is judged later. -/
def State.batchBad (s : State) (a : SReg) : Bool :=
  !(s.src.regs.pending ||| s.src.regs.spois).getLsbD a.val && (s.src.batchOf (s.src.readS a)).isNone
/-- A pixel word of a group that runs no block, or on a plane or sample that the target lacks (R368). -/
def State.pixelBad (s : State) (k : BitVec 4) : Bool :=
  match s.myTile with
  | none => true
  | some (_, t, _) => !t.selOk (selColour k) (selSample k)
/-- An accumulator word whose context is malformed (R167). -/
def State.xctlBad (s : State) (c : Fin 2) : Bool := (s.src.xctl c).bad s.src.regs.extb
/-- The registers of the context that an accumulator word works on (R177). -/
def State.contextRegs (s : State) : Instr → List VReg
  | .xaadd c _ _ | .xachk c | .xaclr c | .xadrn c _ _ | .xatst c _ _ _ | .xard c _ _ _ | .xastat c _ _ =>
    (List.range (2 * (3 + (s.src.xctl c).depth))).map fun k => Fin.ofNat 64 ((s.src.xctl c).base + k)
  | _ => []
/-- The word is ILLEGAL by its own rule as the machine stands. `ret` and `tret`, which name no destination, look for themselves. -/
def State.outlaw (s : State) : Instr → Bool
  | .qpush _ q b => s.queueBad q b.val 0
  | .qpop d q => s.queueBad q d.val 0
  | .qpoll d q => s.queueBad q d.val 1
  | .cwait _ a | .cpoll _ a => s.batchBad a
  | .emit _ _ _ _ => s.emitTo.isNone
  | .spawn _ _ _ _ => s.spawnTo.isNone
  | .vgrow | .vgrowTry _ => !stageExt s.myStage
  | .rgn | .rgnT | .rgnend => !s.src.regionOk
  | .pxld _ _ k | .pxst _ _ k => s.pixelBad k
  | .fannc _ _ => s.myLaunch.rast?.isSome
  | .xaadd c _ a => s.xctlBad c || ((s.src.xctl c).fmt64 && a.val % 2 = 1)
  | .xachk c | .xaclr c | .xadrn c _ _ | .xatst c _ _ _ | .xard c _ _ _ | .xastat c _ _ => s.xctlBad c
  | _ => false

end Sys2Proof.Machine
end

