-- ==== Sys2Proof/Machine/Operands.lean ====
section
/-!
DEFINITION. Machine/Operands.lean: what every word names (registers it reads and writes, its pipe), the operand forms, and the
issue of one word around its effect (R8, R14, R23, R43-R48, R85, R88, R233).
-/
namespace Sys2Proof.Machine

/-- The pipes of R54. -/
inductive Pipe where
  | V | X | S | M | A
  deriving DecidableEq, Repr

/-- What a word names. `vr`: vector registers a lane reads of its own; `vx`: others it names (read across lanes, or ignored);
`vw`: vector registers it writes; `sr`, `sw`: scalars; `pw`: predicates it writes; `cw`: the CSR it writes. -/
structure Names where
  pipe : Pipe := .V
  vr : List VReg := []
  vx : List VReg := []
  vw : List VReg := []
  sr : List SReg := []
  sw : List SReg := []
  pw : List PReg := []
  cw : Option (BitVec 13) := none
  /-- a method program may use it (R366) -/
  meth : Bool := false
  /-- a hint, which consumes no poison (R209) -/
  hint : Bool := false
  /-- pipe M: a load, store, atomic or hint that acquires nothing (R215) -/
  quiet : Bool := false
  deriving DecidableEq, Repr

/-- `n` registers from `r`. -/
def regRun (r : Fin 64) (n : Nat) : List (Fin 64) := (List.range n).map fun k => Fin.ofNat 64 (r.val + k)
end Sys2Proof.Machine

namespace Sys2Proof
def VSrc.regs : VSrc → List VReg
  | .reg r => [r]
  | .lit _ => []
def SSrc.regs : SSrc → List SReg
  | .reg r => [r]
  | .lit _ => []
def GAddr.vregs : GAddr → List VReg
  | .flat a => Machine.regRun a 2
  | .base _ a => [a]
def GAddr.sregs : GAddr → List SReg
  | .flat _ => []
  | .base s _ => Machine.regRun s 2
def CAddr.sregs (x : CAddr) : List SReg := if x.s.val = 63 then [] else [x.s]
/-- MOD orders the access (R215). -/
def Machine.memOrders : MemMod → Bool
  | .ordered _ => true
  | _ => false
/-- Registers of an interval, and of a point, in each format (R163). -/
def IKind.width : IKind → Nat
  | .f64 => 4
  | _ => 2
def IKind.points : IKind → Nat
  | .f64 => 2
  | _ => 1

open Machine in
/-- What each word names; the steps of other agents name nothing. -/
def Instr.names : Instr → Names
  | .add _ _ d a b => { vr := [a] ++ b.regs, vw := [d], meth := true }
  | .sub _ _ d a b => { vr := [a] ++ b.regs, vw := [d], meth := true }
  | .minS _ d a b => { vr := [a] ++ b.regs, vw := [d], meth := true }
  | .maxS _ d a b => { vr := [a] ++ b.regs, vw := [d], meth := true }
  | .minN _ d a b => { vr := [a] ++ b.regs, vw := [d], meth := true }
  | .maxN _ d a b => { vr := [a] ++ b.regs, vw := [d], meth := true }
  | .absd _ _ d a b => { vr := [a] ++ b.regs, vw := [d], meth := true }
  | .and _ d a b => { vr := [a] ++ b.regs, vw := [d], meth := true }
  | .or _ d a b => { vr := [a] ++ b.regs, vw := [d], meth := true }
  | .xor _ d a b => { vr := [a] ++ b.regs, vw := [d], meth := true }
  | .andn _ d a b => { vr := [a] ++ b.regs, vw := [d], meth := true }
  | .shl _ d a b => { vr := [a] ++ b.regs, vw := [d], meth := true }
  | .shr _ d a b => { vr := [a] ++ b.regs, vw := [d], meth := true }
  | .sar _ d a b => { vr := [a] ++ b.regs, vw := [d], meth := true }
  | .mul _ d a b => { vr := [a] ++ b.regs, vw := [d], meth := true }
  | .mulhS _ d a b => { vr := [a] ++ b.regs, vw := [d], meth := true }
  | .mulhN _ d a b => { vr := [a] ++ b.regs, vw := [d], meth := true }
  | .mad _ d a b => { vr := [a] ++ b.regs ++ [d], vw := [d], meth := true }
  | .dot4S8 _ d a b => { vr := [a] ++ b.regs ++ [d], vw := [d], meth := true }
  | .popc _ d a => { vr := [a], vw := [d], meth := true }
  | .clz _ d a => { vr := [a], vw := [d], meth := true }
  | .eq _ d a b => { vr := [a] ++ b.regs, pw := [d], meth := true }
  | .ne _ d a b => { vr := [a] ++ b.regs, pw := [d], meth := true }
  | .ltS _ d a b => { vr := [a] ++ b.regs, pw := [d], meth := true }
  | .leS _ d a b => { vr := [a] ++ b.regs, pw := [d], meth := true }
  | .ltN _ d a b => { vr := [a] ++ b.regs, pw := [d], meth := true }
  | .leN _ d a b => { vr := [a] ++ b.regs, pw := [d], meth := true }
  | .test _ d a b => { vr := [a] ++ b.regs, pw := [d], meth := true }
  | .addi _ d a _ => { vr := [a], vw := [d], meth := true }
  | .andi _ d a _ => { vr := [a], vw := [d], meth := true }
  | .ori _ d a _ => { vr := [a], vw := [d], meth := true }
  | .xori _ d a _ => { vr := [a], vw := [d], meth := true }
  | .shli _ d a _ => { vr := [a], vw := [d], meth := true }
  | .shri _ d a _ => { vr := [a], vw := [d], meth := true }
  | .sari _ d a _ => { vr := [a], vw := [d], meth := true }
  | .movi _ d _ => { vw := [d], meth := true }
  | .mov _ d b => { vr := b.regs, vw := [d], meth := true }
  | .sel _ d a b => { vr := [a] ++ b.regs, vw := [d], meth := true }
  | .selu _ d a b => { vr := [a] ++ b.regs ++ [d], vw := [d], meth := true }
  | .bfeN _ d a b => { vr := [a] ++ b.regs, vw := [d], meth := true }
  | .bfeS _ d a b => { vr := [a] ++ b.regs, vw := [d], meth := true }
  | .bfi _ d a b => { vr := [a] ++ b.regs ++ [d], vw := [d], meth := true }
  | .laneid _ d => { vw := [d], meth := true }
  | .fadd _ _ d a b => { vr := [a] ++ b.regs, vw := [d], meth := true }
  | .fsub _ _ d a b => { vr := [a] ++ b.regs, vw := [d], meth := true }
  | .fmul _ _ d a b => { vr := [a] ++ b.regs, vw := [d], meth := true }
  | .ffma _ _ d a b => { vr := [a] ++ b.regs ++ [d], vw := [d], meth := true }
  | .ffms _ _ d a b => { vr := [a] ++ b.regs ++ [d], vw := [d], meth := true }
  | .fnfma _ _ d a b => { vr := [a] ++ b.regs ++ [d], vw := [d], meth := true }
  | .fmin _ _ d a b => { vr := [a] ++ b.regs, vw := [d], meth := true }
  | .fmax _ _ d a b => { vr := [a] ++ b.regs, vw := [d], meth := true }
  | .fdiv _ _ d a b => { pipe := .X, vr := [a] ++ b.regs, vw := [d], meth := true }
  | .fsqrt _ _ d a => { pipe := .X, vr := [a], vw := [d], meth := true }
  | .frcp _ d a => { pipe := .X, vr := [a], vw := [d], meth := true }
  | .frsq _ d a => { pipe := .X, vr := [a], vw := [d], meth := true }
  | .fex2 _ d a => { pipe := .X, vr := [a], vw := [d], meth := true }
  | .flg2 _ d a => { pipe := .X, vr := [a], vw := [d], meth := true }
  | .fsin _ d a => { pipe := .X, vr := [a], vw := [d], meth := true }
  | .fcos _ d a => { pipe := .X, vr := [a], vw := [d], meth := true }
  | .feq _ d a b => { vr := [a] ++ b.regs, pw := [d], meth := true }
  | .fne _ d a b => { vr := [a] ++ b.regs, pw := [d], meth := true }
  | .flt _ d a b => { vr := [a] ++ b.regs, pw := [d], meth := true }
  | .fle _ d a b => { vr := [a] ++ b.regs, pw := [d], meth := true }
  | .funord _ d a b => { vr := [a] ++ b.regs, pw := [d], meth := true }
  | .fcls _ d a _ => { vr := [a], pw := [d], meth := true }
  | .dadd _ _ d a b => { vr := regRun a 2 ++ regRun b 2, vw := regRun d 2 }
  | .dsub _ _ d a b => { vr := regRun a 2 ++ regRun b 2, vw := regRun d 2 }
  | .dmul _ _ d a b => { vr := regRun a 2 ++ regRun b 2, vw := regRun d 2 }
  | .dfma _ _ d a b => { vr := regRun a 2 ++ regRun b 2 ++ regRun d 2, vw := regRun d 2 }
  | .ddiv _ _ d a b => { vr := regRun a 2 ++ regRun b 2, vw := regRun d 2 }
  | .dsqrt _ _ d a => { vr := regRun a 2, vw := regRun d 2 }
  | .hadd2 _ _ d a b => { vr := [a] ++ b.regs, vw := [d], meth := true }
  | .hmul2 _ _ d a b => { vr := [a] ++ b.regs, vw := [d], meth := true }
  | .hfma2 _ _ d a b => { vr := [a] ++ b.regs ++ [d], vw := [d], meth := true }
  | .badd2 _ _ d a b => { vr := [a] ++ b.regs, vw := [d], meth := true }
  | .bmul2 _ _ d a b => { vr := [a] ++ b.regs, vw := [d], meth := true }
  | .bfma2 _ _ d a b => { vr := [a] ++ b.regs ++ [d], vw := [d], meth := true }
  | .cvtF32I32 _ _ d a => { vr := [a], vw := [d] }
  | .cvtI32F32 _ _ d a => { vr := [a], vw := [d] }
  | .cvtF32N32 _ _ d a => { vr := [a], vw := [d] }
  | .cvtN32F32 _ _ d a => { vr := [a], vw := [d] }
  | .cvtF32F16 _ _ d a => { vr := [a], vw := [d] }
  | .cvtF16x2F32 _ _ d a b => { vr := [a] ++ b.regs, vw := [d] }
  | .cvtF64F32 _ _ d a => { vr := [a], vw := regRun d 2 }
  | .cvtF32F64 _ _ d a => { vr := regRun a 2, vw := [d] }
  | .cvtF32Bf16 _ _ d a => { vr := [a], vw := [d] }
  | .cvtBf16x2F32 _ _ d a b => { vr := [a] ++ b.regs, vw := [d] }
  | .cvtF32E4m3 _ _ d a => { vr := [a], vw := [d] }
  | .cvtE4m3x2F32 _ _ d a b => { vr := [a] ++ b.regs, vw := [d] }
  | .cvtF32E5m2 _ _ d a => { vr := [a], vw := [d] }
  | .cvtE5m2x2F32 _ _ d a b => { vr := [a] ++ b.regs, vw := [d] }
  | .unpk4S _ _ d a b => { vr := [a] ++ b.regs, vw := [d] }
  | .unpk4N _ _ d a b => { vr := [a] ++ b.regs, vw := [d] }
  | .iadd m _ d a b => { vr := regRun a m.width ++ regRun b m.width, vw := regRun d m.width }
  | .isub m _ d a b => { vr := regRun a m.width ++ regRun b m.width, vw := regRun d m.width }
  | .imul m _ d a b => { pipe := .X, vr := regRun a m.width ++ regRun b m.width, vw := regRun d m.width }
  | .idiv m _ d a b => { pipe := .X, vr := regRun a m.width ++ regRun b m.width, vw := regRun d m.width }
  | .isqr m _ d a => { pipe := .X, vr := regRun a m.width, vw := regRun d m.width }
  | .ihull m _ d a b => { pipe := .X, vr := regRun a m.width ++ regRun b m.width, vw := regRun d m.width }
  | .isect m _ d a b => { pipe := .X, vr := regRun a m.width ++ regRun b m.width, vw := regRun d m.width }
  | .iwid m _ d a => { pipe := .X, vr := regRun a m.width, vw := regRun d m.points }
  | .isqrt m _ d a => { pipe := .X, vr := regRun a m.width, vw := regRun d m.width }
  | .iabs m _ d a => { pipe := .X, vr := regRun a m.width, vw := regRun d m.width }
  | .ineg m _ d a => { pipe := .X, vr := regRun a m.width, vw := regRun d m.width }
  | .imid m _ d a => { pipe := .X, vr := regRun a m.width, vw := regRun d m.points }
  | .isplit m _ d a => { pipe := .X, vr := regRun a m.width, vw := regRun d m.width ++ regRun a m.width }
  | .imake m _ d a b => { pipe := .X, vr := regRun a m.points ++ (b.regs.flatMap fun r => regRun r m.points), vw := regRun d m.width }
  | .ipt m _ d a => { pipe := .X, vr := regRun a m.points, vw := regRun d m.width }
  | .ilt m _ d a b => { pipe := .X, vr := regRun a m.width ++ regRun b m.width, pw := [d] }
  | .ile m _ d a b => { pipe := .X, vr := regRun a m.width ++ regRun b m.width, pw := [d] }
  | .ieq m _ d a b => { pipe := .X, vr := regRun a m.width ++ regRun b m.width, pw := [d] }
  | .ine m _ d a b => { pipe := .X, vr := regRun a m.width ++ regRun b m.width, pw := [d] }
  | .isubset m _ d a b => { pipe := .X, vr := regRun a m.width ++ regRun b m.width, pw := [d] }
  | .icont m _ d a b => { pipe := .X, vr := regRun a m.width ++ regRun b m.width, pw := [d] }
  | .iempty m _ d a => { pipe := .X, vr := regRun a m.width, pw := [d] }
  | .pand _ d _ _ => { pw := [d], meth := true }
  | .por _ d _ _ => { pw := [d], meth := true }
  | .pnot _ d _ => { pw := [d], meth := true }
  | .pxor _ d _ _ => { pw := [d], meth := true }
  | .pdf _ d _ => { pw := [d], meth := true }
  | .pdt _ d _ => { pw := [d], meth := true }
  | .pset _ d _ => { pw := [d], meth := true }
  | .pund _ d _ => { pw := [d], meth := true }
  | .shflIdx _ d a b => { vr := b.regs, vx := [a], vw := [d] }
  | .shflUp _ d a b => { vr := b.regs, vx := [a], vw := [d] }
  | .shflDn _ d a b => { vr := b.regs, vx := [a], vw := [d] }
  | .shflXor _ d a b => { vr := b.regs, vx := [a], vw := [d] }
  | .bcast _ d a b => { vx := [a] ++ b.regs, vw := [d] }
  | .redadd _ d a => { vx := [a], vw := [d] }
  | .vote _ d _ => { pw := [d] }
  | .ballot _ d _ => { sw := regRun d 3 }
  | .xaadd _ _ a => { pipe := .X, vr := [a] }
  | .xachk x => { pipe := .X, cw := some (BitVec.ofNat 13 (0x30 + x.val)) }
  | .xadrn _ _ d => { pipe := .X, vw := regRun d 2 }
  | .xatst _ _ d b => { pipe := .X, vr := b.regs, pw := [d] }
  | .xaclr x => { pipe := .X, cw := some (BitVec.ofNat 13 (0x30 + x.val)) }
  | .xard _ _ d b => { pipe := .X, vr := b.regs, vw := regRun d 2 }
  | .xastat _ _ d => { pipe := .X, vw := [d] }
  | .sAdd d a b => { pipe := .S, sr := [a] ++ b.regs, sw := [d], meth := true }
  | .sSub d a b => { pipe := .S, sr := [a] ++ b.regs, sw := [d], meth := true }
  | .sAnd d a b => { pipe := .S, sr := [a] ++ b.regs, sw := [d], meth := true }
  | .sOr d a b => { pipe := .S, sr := [a] ++ b.regs, sw := [d], meth := true }
  | .sXor d a b => { pipe := .S, sr := [a] ++ b.regs, sw := [d], meth := true }
  | .sShl d a b => { pipe := .S, sr := [a] ++ b.regs, sw := [d], meth := true }
  | .sShr d a b => { pipe := .S, sr := [a] ++ b.regs, sw := [d], meth := true }
  | .sSar d a b => { pipe := .S, sr := [a] ++ b.regs, sw := [d], meth := true }
  | .sMul d a b => { pipe := .S, sr := [a] ++ b.regs, sw := [d], meth := true }
  | .sMulhS d a b => { pipe := .S, sr := [a] ++ b.regs, sw := [d], meth := true }
  | .sMulhN d a b => { pipe := .S, sr := [a] ++ b.regs, sw := [d], meth := true }
  | .sMinS d a b => { pipe := .S, sr := [a] ++ b.regs, sw := [d], meth := true }
  | .sMaxS d a b => { pipe := .S, sr := [a] ++ b.regs, sw := [d], meth := true }
  | .sSltS d a b => { pipe := .S, sr := [a] ++ b.regs, sw := [d], meth := true }
  | .sSltN d a b => { pipe := .S, sr := [a] ++ b.regs, sw := [d], meth := true }
  | .sSeq d a b => { pipe := .S, sr := [a] ++ b.regs, sw := [d], meth := true }
  | .sAddi d a _ => { pipe := .S, sr := [a], sw := [d], meth := true }
  | .sAndi d a _ => { pipe := .S, sr := [a], sw := [d], meth := true }
  | .sOri d a _ => { pipe := .S, sr := [a], sw := [d], meth := true }
  | .sXori d a _ => { pipe := .S, sr := [a], sw := [d], meth := true }
  | .sShli d a _ => { pipe := .S, sr := [a], sw := [d], meth := true }
  | .sShri d a _ => { pipe := .S, sr := [a], sw := [d], meth := true }
  | .sSari d a _ => { pipe := .S, sr := [a], sw := [d], meth := true }
  | .sSltiS d a _ => { pipe := .S, sr := [a], sw := [d], meth := true }
  | .sMovi d _ => { pipe := .S, sw := [d], meth := true }
  | .movh d _ => { pipe := .S, sr := [d], sw := [d], meth := true }
  | .add64 d a b => { pipe := .S, sr := regRun a 2 ++ regRun b 2, sw := regRun d 2 }
  | .sub64 d a b => { pipe := .S, sr := regRun a 2 ++ regRun b 2, sw := regRun d 2 }
  | .addz64 d a b => { pipe := .S, sr := regRun a 2 ++ b.regs, sw := regRun d 2 }
  | .mov64 d a => { pipe := .S, sr := regRun a 2, sw := regRun d 2 }
  | .stov d a => { vw := [d], sr := [a] }
  | .vtos d a b => { vx := [a], sr := b.regs, sw := [d] }
  | .vtosf d a => { vx := [a], sw := [d] }
  | .ssel d a b => { sr := [d] ++ [a] ++ b.regs, sw := [d] }
  | .brp _ _ _ _ => { pipe := .S, meth := true }
  | .brs k a _ => { pipe := .S, sr := if k = .always then [] else [a], meth := true }
  | .jmp _ => { pipe := .S, meth := true }
  | .call _ => { pipe := .S }
  | .ret => { pipe := .S }
  | .jmpr a => { pipe := .S, sr := [a] }
  | .callr a => { pipe := .S, sr := [a] }
  | .exit => { pipe := .S, meth := true }
  | .kill => { pipe := .S }
  | .brk => { pipe := .S }
  | .nop => { pipe := .S, meth := true }
  | .yield => { pipe := .S }
  | .brpl _ _ _ _ => { pipe := .S, meth := true }
  | .loop _ a _ => { pipe := .S, sr := [a] }
  | .loopi _ _ _ => { pipe := .S }
  | .lbrk _ => { pipe := .S }
  | .bar _ => { pipe := .S }
  | .bararr _ => { pipe := .S }
  | .barwait _ => { pipe := .S }
  | .abinit d _ => { pipe := .S, sr := [d] }
  | .abarr d _ => { pipe := .S, sr := [d] }
  | .abwait d _ => { pipe := .S, sr := [d] }
  | .sleep _ => { pipe := .S }
  | .wtok d => { pipe := .S, sr := [d] }
  | .rgn => { pipe := .S, sr := regRun 0 16 }
  | .rgnT => { pipe := .S, sr := regRun 0 16 }
  | .rgnend => { pipe := .S }
  | .ld8n m _ d ad => { pipe := .M, vr := ad.vregs, vw := [d], sr := ad.sregs, quiet := !memOrders m }
  | .ld8s m _ d ad => { pipe := .M, vr := ad.vregs, vw := [d], sr := ad.sregs, quiet := !memOrders m }
  | .ld16n m _ d ad => { pipe := .M, vr := ad.vregs, vw := [d], sr := ad.sregs, quiet := !memOrders m }
  | .ld16s m _ d ad => { pipe := .M, vr := ad.vregs, vw := [d], sr := ad.sregs, quiet := !memOrders m }
  | .ld32 m _ d ad => { pipe := .M, vr := ad.vregs, vw := [d], sr := ad.sregs, quiet := !memOrders m }
  | .ld64 m _ d ad => { pipe := .M, vr := ad.vregs, vw := regRun d 2, sr := ad.sregs, quiet := !memOrders m }
  | .ld128 m _ d ad => { pipe := .M, vr := ad.vregs, vw := regRun d 4, sr := ad.sregs, quiet := !memOrders m }
  | .ldi m _ d ad => { pipe := .M, vr := ad.vregs, vw := regRun d 2, sr := ad.sregs, quiet := !memOrders m }
  | .st8 _ _ d ad => { pipe := .M, vr := ad.vregs ++ [d], sr := ad.sregs, quiet := true }
  | .st16 _ _ d ad => { pipe := .M, vr := ad.vregs ++ [d], sr := ad.sregs, quiet := true }
  | .st32 _ _ d ad => { pipe := .M, vr := ad.vregs ++ [d], sr := ad.sregs, quiet := true }
  | .st64 _ _ d ad => { pipe := .M, vr := ad.vregs ++ regRun d 2, sr := ad.sregs, quiet := true }
  | .st128 _ _ d ad => { pipe := .M, vr := ad.vregs ++ regRun d 4, sr := ad.sregs, quiet := true }
  | .sti _ _ d ad => { pipe := .M, vr := ad.vregs ++ regRun d 2, sr := ad.sregs, quiet := true }
  | .ldb8n m _ d ad => { pipe := .M, vr := [ad.a], vw := [d], sr := regRun ad.s 4, quiet := !memOrders m }
  | .ldb8s m _ d ad => { pipe := .M, vr := [ad.a], vw := [d], sr := regRun ad.s 4, quiet := !memOrders m }
  | .ldb16n m _ d ad => { pipe := .M, vr := [ad.a], vw := [d], sr := regRun ad.s 4, quiet := !memOrders m }
  | .ldb16s m _ d ad => { pipe := .M, vr := [ad.a], vw := [d], sr := regRun ad.s 4, quiet := !memOrders m }
  | .ldb32 m _ d ad => { pipe := .M, vr := [ad.a], vw := [d], sr := regRun ad.s 4, quiet := !memOrders m }
  | .ldb64 m _ d ad => { pipe := .M, vr := [ad.a], vw := regRun d 2, sr := regRun ad.s 4, quiet := !memOrders m }
  | .ldb128 m _ d ad => { pipe := .M, vr := [ad.a], vw := regRun d 4, sr := regRun ad.s 4, quiet := !memOrders m }
  | .ldbi m _ d ad => { pipe := .M, vr := [ad.a], vw := regRun d 2, sr := regRun ad.s 4, quiet := !memOrders m }
  | .stb8 _ _ d ad => { pipe := .M, vr := [ad.a] ++ [d], sr := regRun ad.s 4, quiet := true }
  | .stb16 _ _ d ad => { pipe := .M, vr := [ad.a] ++ [d], sr := regRun ad.s 4, quiet := true }
  | .stb32 _ _ d ad => { pipe := .M, vr := [ad.a] ++ [d], sr := regRun ad.s 4, quiet := true }
  | .stb64 _ _ d ad => { pipe := .M, vr := [ad.a] ++ regRun d 2, sr := regRun ad.s 4, quiet := true }
  | .stb128 _ _ d ad => { pipe := .M, vr := [ad.a] ++ regRun d 4, sr := regRun ad.s 4, quiet := true }
  | .stbi _ _ d ad => { pipe := .M, vr := [ad.a] ++ regRun d 2, sr := regRun ad.s 4, quiet := true }
  | .ldc8n m _ d ad => { pipe := .M, vr := [ad.a], vw := [d], sr := ad.sregs, quiet := !memOrders m }
  | .ldc8s m _ d ad => { pipe := .M, vr := [ad.a], vw := [d], sr := ad.sregs, quiet := !memOrders m }
  | .ldc16n m _ d ad => { pipe := .M, vr := [ad.a], vw := [d], sr := ad.sregs, quiet := !memOrders m }
  | .ldc16s m _ d ad => { pipe := .M, vr := [ad.a], vw := [d], sr := ad.sregs, quiet := !memOrders m }
  | .ldc32 m _ d ad => { pipe := .M, vr := [ad.a], vw := [d], sr := ad.sregs, quiet := !memOrders m }
  | .ldc64 m _ d ad => { pipe := .M, vr := [ad.a], vw := regRun d 2, sr := ad.sregs, quiet := !memOrders m }
  | .ldc128 m _ d ad => { pipe := .M, vr := [ad.a], vw := regRun d 4, sr := ad.sregs, quiet := !memOrders m }
  | .ldci m _ d ad => { pipe := .M, vr := [ad.a], vw := regRun d 2, sr := ad.sregs, quiet := !memOrders m }
  | .stc8 _ _ d ad => { pipe := .M, vr := [ad.a] ++ [d], sr := ad.sregs, quiet := true }
  | .stc16 _ _ d ad => { pipe := .M, vr := [ad.a] ++ [d], sr := ad.sregs, quiet := true }
  | .stc32 _ _ d ad => { pipe := .M, vr := [ad.a] ++ [d], sr := ad.sregs, quiet := true }
  | .stc64 _ _ d ad => { pipe := .M, vr := [ad.a] ++ regRun d 2, sr := ad.sregs, quiet := true }
  | .stc128 _ _ d ad => { pipe := .M, vr := [ad.a] ++ regRun d 4, sr := ad.sregs, quiet := true }
  | .stci _ _ d ad => { pipe := .M, vr := [ad.a] ++ regRun d 2, sr := ad.sregs, quiet := true }
  | .atomAdd m _ d ad => { pipe := .M, vr := ad.vregs ++ [d], vw := [d], sr := ad.sregs, quiet := !m.ar }
  | .atomMinS m _ d ad => { pipe := .M, vr := ad.vregs ++ [d], vw := [d], sr := ad.sregs, quiet := !m.ar }
  | .atomMaxS m _ d ad => { pipe := .M, vr := ad.vregs ++ [d], vw := [d], sr := ad.sregs, quiet := !m.ar }
  | .atomMinN m _ d ad => { pipe := .M, vr := ad.vregs ++ [d], vw := [d], sr := ad.sregs, quiet := !m.ar }
  | .atomMaxN m _ d ad => { pipe := .M, vr := ad.vregs ++ [d], vw := [d], sr := ad.sregs, quiet := !m.ar }
  | .atomAnd m _ d ad => { pipe := .M, vr := ad.vregs ++ [d], vw := [d], sr := ad.sregs, quiet := !m.ar }
  | .atomOr m _ d ad => { pipe := .M, vr := ad.vregs ++ [d], vw := [d], sr := ad.sregs, quiet := !m.ar }
  | .atomXor m _ d ad => { pipe := .M, vr := ad.vregs ++ [d], vw := [d], sr := ad.sregs, quiet := !m.ar }
  | .atomXchg m _ d ad => { pipe := .M, vr := ad.vregs ++ [d], vw := [d], sr := ad.sregs, quiet := !m.ar }
  | .atomCas m _ d ad => { pipe := .M, vr := ad.vregs ++ regRun d 2, vw := [d], sr := ad.sregs, quiet := !m.ar }
  | .atomFadd m _ d ad => { pipe := .M, vr := ad.vregs ++ [d], vw := [d], sr := ad.sregs, quiet := !m.ar }
  | .atomFmin m _ d ad => { pipe := .M, vr := ad.vregs ++ [d], vw := [d], sr := ad.sregs, quiet := !m.ar }
  | .atomFmax m _ d ad => { pipe := .M, vr := ad.vregs ++ [d], vw := [d], sr := ad.sregs, quiet := !m.ar }
  | .atomAdd64 m _ d ad => { pipe := .M, vr := ad.vregs ++ regRun d 2, vw := regRun d 2, sr := ad.sregs, quiet := !m.ar }
  | .atomcAdd m _ d ad => { pipe := .M, vr := [ad.a] ++ [d], vw := [d], sr := ad.sregs, quiet := !m }
  | .atomcMinS m _ d ad => { pipe := .M, vr := [ad.a] ++ [d], vw := [d], sr := ad.sregs, quiet := !m }
  | .atomcMaxS m _ d ad => { pipe := .M, vr := [ad.a] ++ [d], vw := [d], sr := ad.sregs, quiet := !m }
  | .atomcOr m _ d ad => { pipe := .M, vr := [ad.a] ++ [d], vw := [d], sr := ad.sregs, quiet := !m }
  | .atomcXchg m _ d ad => { pipe := .M, vr := [ad.a] ++ [d], vw := [d], sr := ad.sregs, quiet := !m }
  | .atomcCas m _ d ad => { pipe := .M, vr := [ad.a] ++ regRun d 2, vw := [d], sr := ad.sregs, quiet := !m }
  | .atomAddSc _ d ad => { pipe := .M, vr := ad.vregs ++ [d], vw := [d], sr := ad.sregs }
  | .atomXchgSc _ d ad => { pipe := .M, vr := ad.vregs ++ [d], vw := [d], sr := ad.sregs }
  | .atomCasSc _ d ad => { pipe := .M, vr := ad.vregs ++ regRun d 2, vw := [d], sr := ad.sregs }
  | .notchTicket => {}
  | .fenceAcq _ => { pipe := .M }
  | .fenceRel _ => { pipe := .M }
  | .fenceAr _ => { pipe := .M }
  | .fenceSc => { pipe := .M }
  | .fenceWb _ => { pipe := .M }
  | .fenceWbComplete _ _ => {}
  | .fenceInval _ => { pipe := .M }
  | .bfence _ => { pipe := .M }
  | .pref _ ad => { pipe := .M, vr := ad.vregs, sr := ad.sregs, hint := true, quiet := true }
  | .prefL1 _ ad => { pipe := .M, vr := ad.vregs, sr := ad.sregs, hint := true, quiet := true }
  | .resid _ _ ad => { pipe := .M, vr := ad.vregs, sr := ad.sregs, hint := true, quiet := true }
  | .cwb _ ad => { pipe := .M, vr := ad.vregs, sr := ad.sregs }
  | .cinv _ ad => { pipe := .M, vr := ad.vregs, sr := ad.sregs }
  | .settag _ d ad => { pipe := .M, vr := ad.vregs ++ [d], sr := ad.sregs }
  | .gettag _ d ad => { pipe := .M, vr := ad.vregs, vw := [d], sr := ad.sregs }
  | .cpyIn d a b => { pipe := .A, sr := regRun a 8 ++ [b], sw := [d] }
  | .cpyOut d a b => { pipe := .A, sr := regRun a 8 ++ [b], sw := [d] }
  | .cpyMc d a b => { pipe := .A, sr := regRun a 8 ++ [b], sw := [d] }
  | .cpyCc d a b => { pipe := .A, sr := regRun a 8 ++ [b], sw := [d] }
  | .cpy2d d a b => { pipe := .A, sr := regRun a 8 ++ [b], sw := [d] }
  | .cpy2dmc d a b => { pipe := .A, sr := regRun a 8 ++ [b], sw := [d] }
  | .cpyWb d a b => { pipe := .A, sr := regRun a 8 ++ [b], sw := [d] }
  | .cseal d => { pipe := .A, sw := [d] }
  | .cwait d a => { pipe := .A, sr := [a], sw := [d] }
  | .cpoll d a => { pipe := .A, sr := [a], sw := [d] }
  | .putsig d a b => { pipe := .A, sr := regRun a 8 ++ regRun b 4, sw := [d] }
  | .copyAccept _ => {}
  | .copyComplete _ => {}
  | .putsigComplete _ => {}
  | .qpush d _ _ => { pipe := .A, sw := [d] }
  | .qpop d _ => { pipe := .A, sw := [d] }
  | .qpoll d _ => { pipe := .A, sw := [d] }
  | .qpopTake _ _ => {}
  | .baddS32 _ d ad => { pipe := .M, vr := ad.vregs ++ [d], sr := ad.sregs }
  | .baddF32 _ d ad => { pipe := .M, vr := ad.vregs ++ [d], sr := ad.sregs }
  | .baddBf16x2 _ d ad => { pipe := .M, vr := ad.vregs ++ [d], sr := ad.sregs }
  | .bmaxF32 _ d ad => { pipe := .M, vr := ad.vregs ++ [d], sr := ad.sregs }
  | .bminF32 _ d ad => { pipe := .M, vr := ad.vregs ++ [d], sr := ad.sregs }
  | .basinPerform _ => {}
  | .mma d a => { pipe := .A, sr := regRun a 8, sw := [d] }
  | .mld d a => { pipe := .A, sr := regRun a 4, sw := [d] }
  | .mst d a => { pipe := .A, sr := regRun a 4, sw := [d] }
  | .mzero d a => { pipe := .A, sr := [a], sw := [d] }
  | .mres d a => { pipe := .A, sr := regRun a 2, sw := [d] }
  | .mrel a => { pipe := .A, sr := [a] }
  | .mspan d a => { pipe := .A, sr := [a], sw := [d] }
  | .munspan => { pipe := .A }
  | .matrixPerform _ => {}
  | .mmaComplete _ => {}
  | .spanSlave _ => {}
  | .spanFree _ => {}
  | .reservationFree _ _ => {}
  | .frag _ d a b => { pipe := .A, vr := [d] ++ regRun a 2 ++ regRun b 4 }
  | .fragKill _ a => { pipe := .A, vr := regRun a 2 }
  | .fannc _ a => { pipe := .A, vr := regRun a 2 }
  | .tsampNow _ d a b => { pipe := .A, vr := regRun a 2 ++ b.regs, vw := regRun d 4 }
  | .tsampSet _ d a b => { pipe := .A, vr := regRun a 2 ++ b.regs, vw := regRun d 4 }
  | .tflush _ b => { pipe := .A, vr := b.regs }
  | .tflushComplete _ _ => {}
  | .pxld _ d k => { pipe := .A, vw := if k.getLsbD 3 then regRun d 4 else [d], meth := true }
  | .pxst _ d k => { pipe := .A, vr := if k.getLsbD 3 then regRun d 4 else [d], meth := true }
  | .texSample _ d a b => { pipe := .A, vr := regRun a 3 ++ regRun b 2, vx := regRun a 4, vw := regRun d 4 }
  | .texLod _ d a b => { pipe := .A, vr := regRun a 3 ++ regRun b 2, vx := regRun a 4, vw := [d] }
  | .texFetch _ d a b => { pipe := .A, vr := regRun a 3 ++ regRun b 2, vx := regRun a 4, vw := regRun d 4 }
  | .texGather4 _ d a b => { pipe := .A, vr := regRun a 3 ++ regRun b 2, vx := regRun a 4, vw := regRun d 4 }
  | .emit _ d a b => { pipe := .A, vr := regRun a 2 ++ regRun b 2, pw := [d] }
  | .spawn _ d a b => { pipe := .A, vr := regRun a 2 ++ regRun b 2, pw := [d] }
  | .csrr d k => { pipe := .S, sw := [d], meth := decide (k.toNat < 3) }
  | .csrw d k => { pipe := .S, sr := [d], cw := some k, meth := decide (k.toNat < 3) }
  | .csrs d k => { pipe := .S, sr := [d], cw := some k, meth := decide (k.toNat < 3) }
  | .csrc d k => { pipe := .S, sr := [d], cw := some k, meth := decide (k.toNat < 3) }
  | .csrwi _ k => { pipe := .S, cw := some k, meth := decide (k.toNat < 3) }
  | .vgrow => { pipe := .S }
  | .vgrowTry d => { pipe := .S, sw := [d] }
  | .vshrink => { pipe := .S }
  | .vgrowGrant _ _ => {}
  | .vshrinkRelease _ => {}
  | .trap _ => { pipe := .S }
  | .tret => { pipe := .S }
  | .lkill => { pipe := .S }
  | .halt _ => { pipe := .S }
  | .frec d => { pipe := .S, sw := regRun d 8 }
  | .poolGuard _ => { pipe := .A }
  | .illegalWord => {}
  | .illegalPacket _ => {}
  | .fetchFault _ => {}
  | .ageForce _ => {}
  | .trapEntry _ _ => {}
  | .groupHalt _ _ => {}
  | .pageFaultReplay _ => {}
  | .workgroupRetire _ => {}
  | .sleepExpiry _ _ => {}
  | .yieldPassEnd _ => {}
  | .issueBoost _ => {}
  | .turnPass => {}
  | .regionRestart _ _ => {}
  | .launchStart _ => {}
  | .launchComplete _ => {}
  | .launchSlotsEnd _ => {}
  | .workgroupAdmit _ _ _ => {}
  | .methodGroupForm _ _ _ _ => {}
  | .rasterRecord _ => {}
  | .rasterTile _ _ _ => {}
  | .tileCommit _ _ _ => {}
  | .graceExpiry _ => {}
  | .killExpiry _ => {}
  | .contextSave _ => {}
  | .saveComplete _ => {}
  | .ctxbind _ _ => {}
  | .ctxfree _ => {}
  | .qbind _ _ => {}
  | .preempt _ => {}
  | .cancel _ => {}
  | .restore _ => {}
  | .invpage _ _ _ => {}
  | .invas _ _ => {}
  | .invpart _ => {}
  | .resolve _ => {}
  | .fatal _ => {}
  | .resume _ _ => {}
  | .hostEnd _ _ => {}
  | .hostup => {}
  | .flr _ => {}
  | .doorbell _ _ => {}
  | .evack _ => {}
  | .eventRingConfig _ _ => {}
  | .counterClear _ _ => {}
  | .registerWrite _ _ => {}
  | .partitionEnable _ => {}
  | .partitionDisable _ => {}
  | .flip _ => {}
  | .flipComplete _ => {}
  | .wbreq _ => {}
  | .wbreqComplete _ => {}
  | .landingEntryWrite _ _ => {}
  | .landingPacket _ _ _ _ => {}
  | .stackFlitReceive _ _ => {}
  | .linkRetrain _ => {}
  | .retrainComplete _ _ => {}
  | .beljoFlitReceive _ _ => {}
  | .remoteAccess _ _ _ => {}
  | .remoteAccessTimeout _ _ _ _ => {}
  | .hostMemoryAccess _ _ => {}
  | .hostLinkDown => {}
  | .deviceReset _ => {}
  | .idleEntry => {}
  | .idleExit => {}
  | .clockStep => {}
  | .laneDefect _ _ => {}
  | .laneSpareSteer _ => {}
  | .selfTestStart _ => {}
  | .selfTestEnd _ => {}
  | .keyChange _ => {}
  | .attestationReport _ _ => {}
  | .mrExtend _ _ _ => {}
  | .softError _ => {}
  | .commandCompletion => {}
  | .tileMoveComplete _ => {}

/-- The word acquires, or hands its work to an engine: its leaf comes after whatever has been stored (R215, R222; log 4). -/
def Instr.acquires (i : Instr) : Bool :=
  match i.names.pipe with
  | .V | .X => false
  | .M => !i.names.quiet
  | .A => true
  | .S => match i with
    | .bar _ | .barwait _ | .abwait _ _ | .wtok _ => true
    | _ => false
/-- Packet words the instruction takes (R45). -/
def Instr.len (i : Instr) : Nat := if i.literal.isSome then 2 else 1
def Machine.Names.vall (n : Machine.Names) : List VReg := n.vr ++ n.vx ++ n.vw
/-- R47: the word names v32-v63. -/
def Machine.Names.ext (n : Machine.Names) : Bool := n.vall.any fun r => decide (r.val ≥ 32)
end Sys2Proof

namespace Sys2Proof.Machine

/-! ### Operand forms -/
def Group.vb (g : Group) (b : VSrc) (L : Lane) : Word :=
  match b with
  | .reg r => g.readV r L
  | .lit w => w
def Group.sb (g : Group) (b : SSrc) : Word :=
  match b with
  | .reg r => g.readS r
  | .lit w => w
/-- A point of an interval operation: a register or pair, or the literal (R163). -/
def Group.vb64 (g : Group) (b : VSrc) (L : Lane) : Dword :=
  match b with
  | .reg r => g.readV64 r L
  | .lit w => w.setWidth 64
/-- The active lanes of the issuing word; in a replay, those of them that faulted (R82). -/
def State.lanes (s : State) (guarded : Bool) : Mask := s.src.lanes guarded &&& s.latch.only.getD allLanes
/-- FLAGS bits of FSTAT (R31). -/
def flagNV : Byte := 1
def flagDZ : Byte := 2
def flagOF : Byte := 4
def flagUF : Byte := 8
def flagNX : Byte := 16
def flagEMPTY : Byte := 32
def flagABSENT : Byte := 64
def flagSAT : Byte := 128

/-! ### Poison (R85, R87) -/
/-- Lanes of `m` in which one of the registers is poisoned. -/
def Group.poisonIn (g : Group) (rs : List VReg) (m : Mask) : Mask := rs.foldl (fun acc r => acc ||| (g.regs.vpois[r] &&& m)) 0
/-- Lanes consume an uncorrectable error: an ECCUE record each, and they die (R85). -/
def State.consume (s : State) (m : Mask) : State :=
  if m = 0 then s
  else
    let s := s.raise 0x0D m
    { s with latch := { s.latch with dying := s.latch.dying ||| m } }
/-- The lanes of `m` that the word may act on, its poisoned lanes dying. -/
def State.sift (s : State) (n : Names) (m : Mask) : Mask × State :=
  let p := s.src.poisonIn n.vr m
  (m &&& ~~~p, s.consume p)
def regBits (l : List SReg) : BitVec 64 := l.foldl (fun m r => m ||| (1#64 <<< r.val)) 0

/-! ### The issue of one word -/
abbrev Out := Host.Outcome State Fault Refusal
def bindOut (x : Out) (f : State → Out) : Out :=
  match x with
  | .next s => f s
  | .fault r => .fault r
  | .refused r => .refused r
def mapOut (x : Out) (f : State → State) : Out := bindOut x fun s => .next (f s)
/-- The word cannot proceed now; nothing has changed. -/
def State.stallNow (s : State) : State :=
  { s with latch := { s.latch with stall := true }, g := { s.g with me := { s.g.me with stalled := true } } }
/-- Waits for another party, before the word issues; the others are waits of a word that has issued and is not complete. -/
def Wait.early : Wait → Bool
  | .barred _ | .rearm _ | .sleep | .pop _ _ | .grow | .onWord _ _ => true
  | _ => false
/-- The word waits; another agent's step ends the wait. Trying it again changes nothing. -/
def State.waitFor (s : State) (w : Wait) : State :=
  let t := (s.setLeaf fun l => { l with wait := w }).stallNow
  { t with latch := { t.latch with party := w.early, begun := !w.early } }
def State.myWait (s : State) : Wait := match s.g.me.leaf with | some l => l.wait | none => .none
/-- A word of the issuing slot raises ILLEGAL on every active lane and has no effect (R47); with no active lane it is skipped
(R396). -/
def State.illegalWord (s : State) (len : Nat) : State :=
  let m := s.lanes false
  ((if m = 0 then s else (s.raise 0x01 m).countRetired).advance len).closeIssue
/-- R87: a poisoned scalar is consumed: a record with LANE 127, and the group halts. -/
def State.consumeScalars (s : State) (which : BitVec 64) : State :=
  let s := s.writeRecord 0x0D 127 0
  { s with latch := { s.latch with
    faults := s.latch.faults ++ [{ no := s.noNow, ipc := s.ipc, lane := 127, cause := 0x0D, act := 2 }], poison := s.latch.poison ||| which } }
def State.poisonedScalar (s : State) (which : BitVec 64) (len : Nat) : State :=
  ((s.consumeScalars which).countRetired.advance len).closeIssue
/-- R47, R366: the word may not be used here: v32-v63 are not held, or a method program may not use it, or only it may. -/
def State.barred (s : State) (i : Instr) : Bool :=
  (i.names.ext && !s.src.regs.extb) || (s.g.method.isSome && !i.names.meth)
/-- The issuing slot holds a leaf of a group that may issue, or a word is replayed. -/
def State.canIssue (s : State) : Bool := s.src.me.leaf.isSome && (s.g.status = .ready || s.latch.only.isSome || s.latch.snap.isSome)
/-- A vector register that the word names, or that its context holds, is the destination of a live read that has not answered (R178,
R384). -/
def State.livePending (s : State) (i : Instr) : Bool :=
  s.latch.only.isNone && s.src.reads.any fun x => (regRun x.d 4).any fun r => (i.names.vall ++ s.contextRegs i).contains r
/-- The word is ILLEGAL where it stands (R47, R366): barred, or by its own rule, which a replay has met already. -/
def State.illegal (s : State) (i : Instr) : Bool := s.barred i || (s.latch.only.isNone && s.outlaw i)
/-- The issue of word `i` with effect `body`, which leaves the pc where the slot goes on. An ILLEGAL word, a pending register (R233, R384)
and a poisoned scalar (R87) come before the effect; a memory or engine word of a slot with no active lane has none (R14, R241,
R342). -/
def issue (i : Instr) (body : State → State) (s : State) : Out :=
  if !s.canIssue then .next s
  else if s.illegal i then .next (s.illegalWord i.len)
  else if (i.names.pipe = .M || i.names.pipe = .A) && s.lanes false = 0 then .next (s.countRetired.advance i.len).closeIssue
  else if s.src.regs.pending &&& regBits (i.names.sr ++ i.names.sw) ≠ 0 || s.livePending i then .next s.stallNow
  else if !i.names.hint && s.src.regs.spois &&& regBits i.names.sr ≠ 0 then
    .next (s.poisonedScalar (s.src.regs.spois &&& regBits i.names.sr) i.len)
  else
    let t := body { s with latch := { s.latch with depth := some s.depthNow } }
    if t.latch.stall then .next t else .next t.countRetired.closeIssue
/-- The same for a word after which its slot goes on in sequence. -/
def issueSeq (i : Instr) (body : State → State) (s : State) : Out :=
  issue i (fun s => let t := body s; if t.latch.stall then t else t.advance i.len) s

/-! ### Words that act lane by lane -/
/-- V[d][L] ← f in each active lane. -/
def laneWord (i : Instr) (guarded : Bool) (d : VReg) (f : Group → Lane → Word) : State → Out :=
  issueSeq i fun s =>
    let (m, t) := s.sift i.names (s.lanes guarded)
    t.setV d m (f s.src)
/-- The same with flags. -/
def laneFlag (i : Instr) (guarded : Bool) (d : VReg) (f : Group → Lane → Word × Byte) : State → Out :=
  issueSeq i fun s =>
    let (m, t) := s.sift i.names (s.lanes guarded)
    (t.setV d m fun L => (f s.src L).1).orFlags ((lanesOf m).foldl (fun acc L => acc ||| (f s.src L).2) 0)
/-- P[d][L] ← f in each active lane. -/
def lanePred (i : Instr) (guarded : Bool) (d : PReg) (f : Group → Lane → PVal) : State → Out :=
  issueSeq i fun s =>
    let (m, t) := s.sift i.names (s.lanes guarded)
    t.setP d m (f s.src)
/-- S[d] ← f once for the group. -/
def scalarWord (i : Instr) (d : SReg) (f : Group → Word) : State → Out :=
  issueSeq i fun s => s.setS d (f s.src)
def scalarPair (i : Instr) (d : SReg) (f : Group → Dword) : State → Out :=
  issueSeq i fun s => s.setS64 d (f s.src)

end Sys2Proof.Machine
end

