-- ==== Sys2Proof/Machine/Flags.lean ====
section
/-!
DEFINITION. Machine/Flags.lean: the integer results of the core chapter and the flags they raise (R89-R104).
-/
namespace Sys2Proof.Machine

/-- Clamp to s32 or n32; FSTAT.SAT when the clamp changed the value (R92). -/
def clampS (x : Int) : Word × Byte :=
  if x < -2147483648 then (0x80000000, flagSAT) else if x > 2147483647 then (0x7FFFFFFF, flagSAT) else (BitVec.ofInt 32 x, 0)
def clampN (x : Int) : Word × Byte :=
  if x < 0 then (0, flagSAT) else if x > 4294967295 then (0xFFFFFFFF, flagSAT) else (BitVec.ofInt 32 x, 0)
def narrow (m : Sat) (f : Int → Int → Int) (a b : Word) : Word × Byte :=
  match m with
  | .wrap => (BitVec.ofInt 32 (f a.toInt b.toInt), 0)
  | .satS => clampS (f a.toInt b.toInt)
  | .satN => clampN (f a.toNat b.toNat)
def absDiff (a b : Int) : Int := if a < b then b - a else a - b

/-- Shift counts of 32 and more (R90). -/
def shiftL (a : Word) (c : Nat) : Word := if c ≥ 32 then 0 else a <<< c
def shiftR (a : Word) (c : Nat) : Word := if c ≥ 32 then 0 else a >>> c
def shiftSar (a : Word) (c : Nat) : Word := a.sshiftRight (min c 31)

def minS32 (a b : Word) : Word := if a.toInt ≤ b.toInt then a else b
def maxS32 (a b : Word) : Word := if a.toInt ≤ b.toInt then b else a
def minN32 (a b : Word) : Word := if a.toNat ≤ b.toNat then a else b
def maxN32 (a b : Word) : Word := if a.toNat ≤ b.toNat then b else a
/-- Bits 63:32 of the product (R94). -/
def mulHighS (a b : Word) : Word := BitVec.ofInt 32 (a.toInt * b.toInt / 4294967296)
def mulHighN (a b : Word) : Word := BitVec.ofNat 32 (a.toNat * b.toNat / 4294967296)
def byteS (w : Word) (i : Nat) : Int := ((w >>> (8 * i)).setWidth 8).toInt
def dot4 (a b d : Word) : Word :=
  BitVec.ofInt 32 (d.toInt + byteS a 0 * byteS b 0 + byteS a 1 * byteS b 1 + byteS a 2 * byteS b 2 + byteS a 3 * byteS b 3)
def onesIn (a : Word) : Nat := ((List.range 32).filter fun i => a.getLsbD i).length
def leadingZeros (a : Word) : Nat := ((List.range 32).takeWhile fun i => !a.getLsbD (31 - i)).length

/-- R97: POS and the width that fits. -/
def bfPos (b : Word) : Nat := wbits b 4 0
def bfWid (b : Word) : Nat := min (wbits b 13 8) (32 - bfPos b)
def bfMask (w : Nat) : Word := BitVec.ofNat 32 (2 ^ w - 1)
def extractN (a b : Word) : Word := (a >>> bfPos b) &&& bfMask (bfWid b)
def extractS (a b : Word) : Word :=
  let w := bfWid b
  let x := extractN a b
  if w ≠ 0 && x.getLsbD (w - 1) then x ||| ~~~bfMask w else x
def insertBits (d a b : Word) : Word :=
  let m := bfMask (bfWid b) <<< bfPos b
  (d &&& ~~~m) ||| ((a <<< bfPos b) &&& m)

/-! ### Three-valued predicates (R98) -/
def pof (b : Bool) : PVal := if b then .t else .f
def pRead : PVal → PVal
  | .never => .u
  | x => x
def pAnd (a b : PVal) : PVal :=
  match pRead a, pRead b with
  | .f, _ | _, .f => .f
  | .t, .t => .t
  | _, _ => .u
def pNot (a : PVal) : PVal :=
  match pRead a with
  | .t => .f
  | .f => .t
  | _ => .u
def pOr (a b : PVal) : PVal := pNot (pAnd (pNot a) (pNot b))
def pXor (a b : PVal) : PVal :=
  match pRead a, pRead b with
  | .t, .t | .f, .f => .f
  | .t, .f | .f, .t => .t
  | _, _ => .u
/-- The constants of `pset`. -/
def pConst (k : BitVec 2) : PVal := if k = 0 then .f else if k = 1 then .t else .u

/-! ### Scalar results -/
def sltS (a b : Word) : Word := if a.toInt < b.toInt then 1 else 0
def sltN (a b : Word) : Word := if a.toNat < b.toNat then 1 else 0
/-- COND of `brs` (R53). -/
def condHolds (k : Cond) (w : Word) : Bool :=
  match k with
  | .z => w = 0
  | .nz => w ≠ 0
  | .ltz => w.toInt < 0
  | .gez => w.toInt ≥ 0
  | .gtz => w.toInt > 0
  | .lez => w.toInt ≤ 0
  | .always => true
/-- SENSE of a branch as the code of R53. -/
def senseCode : Sense → Nat
  | .t => 0
  | .f => 1
  | .u => 2
  | .nt => 3
  | .nf => 4
  | .nu => 5
  | .always => 6

end Sys2Proof.Machine
end

