-- ==== Sys2Proof/Machine/Workgroups.lean ====
section
/-!
DEFINITION. Machine/Workgroups.lean: what a workgroup's groups share: core memory, arrival barriers, the SIMD unit's blocks, and what
is freed when a workgroup ends or is discarded (02 R18-R39, 05 R115-R116, 13 R205, 17 R273).
-/
namespace Sys2Proof.Machine

/-! ### Core memory (R205) -/
/-- The member of the issuing gang with a rank. -/
def State.member? (s : State) (w : Workgroup) (rank : Nat) : Option Workgroup :=
  if rank = w.rank then some w else s.allWgs.find? fun x => x.gangId = w.gangId && x.rank = rank && x.wid ≠ 0
/-- Where a 32-bit core-memory address leads, or its fault, in the order of R205. -/
def State.cmPlace (s : State) (w : Workgroup) (a : Word) (n : Nat) : Except Byte (Nat × Nat) :=
  if wbits a 31 23 ≠ 0 then .error 0x06
  else if a.toNat % n ≠ 0 then .error 0x03
  else if wbits a 22 20 ≥ w.gang then .error 0x14
  else
    match s.member? w (wbits a 22 20) with
    | none => .error 0x14
    | some m => if wbits a 19 0 + n > m.cmBytes then .error 0x04 else .ok (m.wid, wbits a 19 0)
def State.cmRead (s : State) (wid off n : Nat) : List Byte := match s.wg? wid with | some w => memRead w.cm off n | none => []
/-- A write that covers a whole 4-byte word clears its poison (R302). -/
def Workgroup.cmPut (off : Nat) (bs : List Byte) (w : Workgroup) : Workgroup :=
  let whole := (List.range ((off % 4 + bs.length + 3) / 4)).filter fun k =>
    off ≤ (off / 4 + k) * 4 && (off / 4 + k) * 4 + 4 ≤ off + bs.length
  { w with cm := memWrite w.cm off bs, cmPois := whole.foldl (fun m k => memSet m (off / 4 + k) 0) w.cmPois }
def State.cmWrite (s : State) (wid off : Nat) (bs : List Byte) : State := s.updWg wid (Workgroup.cmPut off bs)
/-- One of the 4-byte words is poisoned. -/
def State.cmPoisoned (s : State) (wid off n : Nat) : Bool :=
  match s.wg? wid with
  | some w => (List.range ((off % 4 + n + 3) / 4)).any fun k => memGet w.cmPois (off / 4 + k) ≠ 0
  | none => false

/-- A write to the words at `offs` meets an uncorrectable error (R235). -/
def State.hitCells (s : State) (wid : Nat) (offs : List Nat) : Bool := s.upsetCells.any fun c => c.1 = wid && offs.contains c.2
/-- The errors have been met; CMUNC of the core's die counts each (R303). -/
def State.spendCells (s : State) (core : CoreId) (wid : Nat) (offs : List Nat) : State :=
  let met := fun (c : Nat × Nat) => c.1 = wid && offs.contains c.2
  (s.upsetCells.filter met).foldl (fun s _ => s.countHop (dieOf core) 13) { s with upsetCells := s.upsetCells.filter fun c => !met c }

/-! ### Arrival barrier words (R116) -/
def barExpected (x : Nat) : Nat := x % 2 ^ 32
def barPend (x : Nat) : Nat := x / 2 ^ 32 % 2 ^ 31
def barPh (x : Nat) : Nat := x / 2 ^ 63 % 2
def barFaulted (x : Nat) : Bool := barPend x = 0x7FFFFFFF
def mkBar (e p ph : Nat) : Nat := e + p * 2 ^ 32 + ph * 2 ^ 63
/-- `k` arrivals on a barrier word. -/
def arriveWord (k x : Nat) : Nat :=
  if barFaulted x then x
  else if k > barPend x then mkBar (barExpected x) 0x7FFFFFFF (barPh x)
  else if barPend x = k then mkBar (barExpected x) (barExpected x % 2 ^ 31) (1 - barPh x)
  else mkBar (barExpected x) (barPend x - k) (barPh x)
/-- The word set FAULTED (R235, R332). -/
def faultWord (x : Nat) : Nat := mkBar (barExpected x) 0x7FFFFFFF (barPh x)
def State.updBarWord (s : State) (wid off : Nat) (f : Nat → Nat) : State :=
  (s.cmWrite wid off (leBytes 8 (f (leNat (s.cmRead wid off 8))))).wake

/-- A token, or a value that a word writes when it completes, lands in S[d] (R233). -/
def Regs.land (d : SReg) (w : Word) (r : Regs) : Regs :=
  if h : d.val < 60 then
    { r with s := r.s.set d.val w, spois := r.spois &&& ~~~(1#64 <<< d.val), pending := r.pending &&& ~~~(1#64 <<< d.val) }
  else r

/-- A group acquires the completion arrivals on a barrier word: `mst` may then read what those operations wrote (R322). -/
def TileWrite.acquire (gid wid off : Nat) (x : TileWrite) : TileWrite := if x.bars.contains (wid, off) then { x with seen := gid :: x.seen } else x
def State.acquireBar (s : State) (wid off : Nat) : State :=
  { s with cores := s.cores.map fun c : Core => { c with writes := c.writes.map (TileWrite.acquire s.g.gid wid off) } }

/-! ### Hardware barriers (R115) -/
def bitSet (m : BitVec 16) (n : Fin 16) (b : Bool) : BitVec 16 :=
  if b then m ||| (1#16 <<< n.val) else m &&& ~~~(1#16 <<< n.val)
/-- The group's arrival in the current phase of barrier n is open. -/
def State.barOpen (s : State) (n : Fin 16) : Bool :=
  s.g.barPending.getLsbD n.val && (s.w.barPhase.getLsbD n.val == s.g.barPhase.getLsbD n.val)
/-- `bararr n`: none when the slot must wait for the completion of the phase it arrived in, and then arrive anew. -/
def State.arriveBar (s : State) (n : Fin 16) : Option State :=
  if s.barOpen n then
    if s.g.barSlot.getLsbD n.val ≠ (s.g.sel == 1) then some s else none
  else
    let s := { s with
      w := { s.w with barArrived := s.w.barArrived.set n (s.w.barArrived[n] + 1) }
      g := { s.g with
        barPhase := bitSet s.g.barPhase n (s.w.barPhase.getLsbD n.val)
        barPending := bitSet s.g.barPending n true
        barSlot := bitSet s.g.barSlot n (s.g.sel == 1) } }
    some (s.completeBars s.w.wid)
/-- `barwait n`: none while the phase of the group's arrival is not complete. -/
def State.waitBar (s : State) (n : Fin 16) : Option State :=
  if !s.g.barPending.getLsbD n.val then some s
  else if s.w.barPhase.getLsbD n.val == s.g.barPhase.getLsbD n.val then none
  else some { s with g := { s.g with barPending := bitSet s.g.barPending n false } }

/-! ### The extended block (R26-R29) -/
def State.onUnit (s : State) (core : CoreId) (simd : Fin 4) : List Group :=
  s.allGroups.filter fun g => g.gid ≠ 0 && g.method.isNone && g.core = core && g.simd = simd
/-- Free blocks of a SIMD unit: a resident group holds one, and one more while EXTB = 1. -/
def State.freeBlocks (s : State) (core : CoreId) (simd : Fin 4) : Nat :=
  Config.blocksPerSimd - (s.onUnit core simd).foldl (fun n g => n + if g.regs.extb then 2 else 1) 0
/-- A word at the leaf waits in the way `f`: its word, or the second of its pair. -/
def Entry.waitsIn (f : Wait → Bool) (l : Entry) : Bool := f l.wait || f l.wait2
def Group.waitsIn (g : Group) (f : Wait → Bool) : Bool := g.me.leaf.any (Entry.waitsIn f) || g.mate.leaf.any (Entry.waitsIn f)
/-- The group waits for a block that it does not hold. -/
def Group.growing (g : Group) : Bool := !g.regs.extb && g.waitsIn fun w => w = .grow
/-- The group takes a block: v32-v63 read zero in every lane. -/
def Regs.grow (r : Regs) : Regs :=
  { r with
    extb := true
    v := Vector.ofFn fun k => if k.val < 32 then r.v[k] else Vector.replicate 96 0
    vpois := Vector.ofFn fun k => if k.val < 32 then r.vpois[k] else 0 }

/-! ### Ends of workgroups (R35, R39) -/
def Core.drop (c : Core) (wid : Nat) : Core :=
  if c.claim = some wid then
    -- a slaved follower's core stays claimed until the span is free (R324)
    if c.master.isSome then { c with res := [], wb := [], wbPois := [], orphan := true }
    else { c with claim := none, bid := none, orphan := false, res := [], wb := [], wbPois := [], acc := [], accPois := [], heldTiles := 0, writes := [] }
  else c
def Core.forget (wid : Nat) (gids : List Nat) (c : Core) : Core :=
  { c.drop wid with commit := c.commit.filter fun h => !gids.contains h.gid }
/-- The matrix words of a workgroup are dropped (R35), with the places that its spans' `mma` words took in other cores' orders and the
claims of its `mspan` words; the place of another workgroup's word stays. -/
def State.dropOrders (s : State) (wid : Nat) : State :=
  let ids := (s.cores.flatMap (·.order)).filterMap fun o => if o.lead.isNone && o.wid = wid then some o.id else none
  { s with cores := s.cores.map fun c : Core =>
      let c := { c with order := c.order.filter fun o => !ids.contains o.id }
      if c.bid.any ids.contains then { c with claim := none, bid := none } else c }
/-- The span that `core` leads is free: its followers are no longer slaved, and the claims of retired ones end (R352). -/
def State.freeSpan (s : State) (core : CoreId) : State :=
  let free := fun (c : Core) =>
    if c.id = core then { c with spanCode := 0 }
    else if c.master = some core then
      let c := { c with master := none }
      if c.orphan then { c with claim := none, orphan := false, acc := [], accPois := [], heldTiles := 0, writes := [] } else c
    else c
  { s with cores := s.cores.map free }
/-- A workgroup leaves: its groups, claims, spans and held stores go. -/
def State.freeWg (s : State) (w : Workgroup) : State :=
  let gids := (s.allGroups.filter fun g => g.wid = w.wid).map (·.gid)
  let s := if (s.core? w.core).claim = some w.wid && (s.core? w.core).spanCode ≠ 0 then s.freeSpan w.core else s
  let s := { s with cores := s.cores.map (Core.forget w.wid gids) }
  { s with
    g := if s.g.wid = w.wid then {} else s.g
    others := s.others.filter fun g => g.wid ≠ w.wid
    icache := s.icache.filter fun e => e.1 ≠ 2 * w.wid
    w := if s.w.wid = w.wid then {} else s.w
    otherWgs := s.otherWgs.filter fun x => x.wid ≠ w.wid }.wake
/-- R34: every group of the workgroup has an open region or has retired. -/
def State.wgRestartable (s : State) (wid : Nat) : Bool :=
  (s.allGroups.filter fun g => g.wid = wid && g.gid ≠ 0).all fun g => g.status = .retired || (g.region ≠ .none && g.restartable)
/-- R35: a restartable workgroup is discarded, its engine commands dropped, its seeds kept in the work area for the restart. DESIGN CHOICE (log 16): its
hardware barriers start anew, with no arrival and phase 0; the spec does not say. -/
def State.discard (s : State) (w : Workgroup) (ctx : Nat) : State :=
  let gs := s.allGroups.filter fun g => g.wid = w.wid && g.gid ≠ 0
  let d : Discarded := { wg := { w with cm := [], cmPois := [], barArrived := Vector.replicate 16 0, barPhase := 0 }
                         groups := gs.map fun g => { gidx := g.gidx, gone := g.startExited ||| ~~~g.seed.mask, area := g.divsp.toNat, spill := g.spillN
                                                     region := if g.status = .retired then .none else g.region } }
  let s := { s with copies := s.copies.filter fun c => c.wid ≠ w.wid }.dropOrders w.wid
  (s.freeWg w).updCtx ctx fun c => { c with discarded := c.discarded ++ [d] }
/-- In SOFT, a workgroup whose groups have all stopped at a region or retired may be discarded (R273). -/
def State.softDone (s : State) (w : Workgroup) : Bool :=
  let gs := s.allGroups.filter fun g => g.wid = w.wid && g.gid ≠ 0
  gs.any (fun g => g.status = .stopped) && gs.all (fun g => g.status = .stopped || g.status = .retired) && s.wgRestartable w.wid
def State.discardIfStopped (s : State) : State := if s.softDone s.w then s.discard s.w s.myCtx else s
/-- The workgroups of contexts in SOFT that have come to that, by whatever step. -/
def State.discardStopped (s : State) : State :=
  s.allWgs.foldl (fun s w =>
    match (s.launch? w.lid).bind fun l => s.ctx? l.ctx with
    | some c => if c.phase = .soft && w.wid ≠ 0 && s.softDone w then s.discard w c.ctx else s
    | none => s) s
def State.myPhase (s : State) : Phase := match s.ctx? s.myCtx with | some c => c.phase | none => .run

end Sys2Proof.Machine
end

