-- ==== Sys2Proof/Machine/Control.lean ====
section
/-!
DEFINITION. Machine/Control.lean: majors 0x20 to 0x26: branches, calls, exits, loops, barriers, waits and regions (R33-R36,
R63-R75, R106-R117).
-/
namespace Sys2Proof.Machine
noncomputable section

/-- A control-transfer word: `body` leaves the slot where it goes on (R46). -/
def issueCtl (i : Instr) (body : State → State) (s : State) : Out := issue i body s
/-- ILLEGAL for a word whose own rule declares it so, its effect withheld; with no active lane it is skipped (R47, R396). -/
def State.illegalHere (s : State) : State :=
  if s.lanes false = 0 then { s with latch := { s.latch with skipped := true } } else s.raise 0x01 (s.lanes false)
/-- The same for a control-transfer word: the `nop`s after it are not issued. -/
def State.illegalCtl (s : State) : State := s.illegalHere.leave

/-! ### Branches -/
/-- R64: the leaf becomes a split parent with a fall-through child in this slot, still in its packet, and a taken child. -/
def Group.split (g : Group) (l : Entry) (t f : Mask) (target rpc : Word) (now : Nat) : Group :=
  let parent := { l.idle with kind := .split, amask := 0, pc := rpc, ws := 0, skip := none }
  let fall := { l with id := g.nextEntry, parent := some l.id, emask := f, amask := f, rpc := rpc, age := 0 }
  let taken : Entry := { id := g.nextEntry + 1, parent := some l.id, emask := t, amask := t, pc := target, rpc := rpc }
  let g := { g with nextEntry := g.nextEntry + 2, entries := g.entries ++ [parent], me := { g.me with leaf := some fall, since := now } }
  if g.mate.leaf.isNone then { g with mate := { g.mate with leaf := some taken, stalled := false, since := now } }
  else { g with entries := g.entries ++ [taken] }
/-- R71: the entries a group may hold outside a trap entry and its handler leaf. -/
def Group.entryLimit (g : Group) : Nat := 6 + g.spillN
/-- `brp` and `brpl` in packet p, with target and reconvergence packet (0: the leaf's own), R106. -/
def State.branch (s : State) (sense : Sense) (p : PReg) (off : Word) (roff : Nat) : State :=
  match s.g.me.leaf with
  | none => s
  | some l =>
    let r := s.src
    let m := s.lanes false
    let t := m &&& maskOf fun L => meets (r.readP p L) (senseCode sense)
    let f := m &&& ~~~t
    let rpc := if roff = 0 then l.rpc else l.pc + BitVec.ofNat 32 roff
    if t = 0 then s.leave
    else if f = 0 then s.goto (l.pc + off)
    else if s.g.depth + 2 > s.g.entryLimit then (s.raise 0x16 m).leave
    else { s with g := s.g.split l t f (l.pc + off) rpc s.fresh }.leave
def execBrp (sn : Sense) (p : PReg) (t : BitVec 10) (r : BitVec 9) : State → Out :=
  issueCtl (.brp sn p t r) fun s => s.branch sn p (t.signExtend 32) r.toNat
def execBrpl (sn : Sense) (p : PReg) (r : BitVec 16) (off : Word) : State → Out :=
  issueCtl (.brpl sn p r off) fun s => s.branch sn p off r.toNat
def execBrs (k : Cond) (a : SReg) (o : BitVec 16) : State → Out :=
  issueCtl (.brs k a o) fun s => if condHolds k (s.src.readS a) then s.goto (s.g.pc + o.signExtend 32) else s.leave
def execJmp (o : BitVec 22) : State → Out := issueCtl (.jmp o) fun s => s.goto (s.g.pc + o.signExtend 32)
def execJmpr (a : SReg) : State → Out := issueCtl (.jmpr a) fun s => s.goto (s.src.readS a)

/-! ### Calls (R72) -/
def State.callTo (s : State) (target : Word) : State :=
  match s.g.me.leaf with
  | none => s
  | some l =>
    if s.g.depth + 1 > s.g.entryLimit then (s.raise 0x16 (s.lanes false)).leave
    else
      let e := { l.idle with kind := .call, pc := l.rpc, ws := 0, rpc := l.pc + 1, amask := l.emask &&& ~~~l.amask, skip := none }
      let f : Entry := { id := s.g.nextEntry, parent := some l.id, emask := l.amask, amask := l.amask, pc := target }
      { s with g := { s.g with
          nextEntry := s.g.nextEntry + 1, entries := s.g.entries ++ [e], me := { s.g.me with leaf := some f, since := s.fresh } } }.regrow none
def execCall (o : BitVec 22) : State → Out := issueCtl (.call o) fun s => s.callTo (s.g.pc + o.signExtend 32)
def execCallr (a : SReg) : State → Out := issueCtl (.callr a) fun s => s.callTo (s.src.readS a)
/-- The entries from `parent` up to the nearest call entry, the call entry last; none where a trap entry or the root comes
first. -/
def Group.upToCall (g : Group) : Nat → Option Nat → Option (List Entry)
  | 0, _ => none
  | _, none => none
  | n + 1, some id =>
    match g.entries.find? fun e => e.id = id with
    | none => none
    | some e => match e.kind with
      | .call => some [e]
      | .split => (g.upToCall n e.parent).map (e :: ·)
      | _ => none
/-- The issuing leaf's lanes are returned: they leave its split parents and are marked in the call entry. -/
def Group.giveBack (g : Group) (l : Entry) (path : List Entry) : Group :=
  let upd := fun (e : Entry) =>
    if path.any (fun x => x.id = e.id) then
      if e.kind = .call then { e with amask := e.amask ||| l.emask } else { e with emask := e.emask &&& ~~~l.emask }
    else e
  { g with entries := g.entries.map upd, me := { g.me with leaf := none } }
def execRet : State → Out :=
  issueCtl .ret fun s =>
    match s.g.me.leaf with
    | none => s
    | some l =>
      match s.g.upToCall (s.g.depth + 1) l.parent with
      | none => s.illegalCtl
      | some path => { s with g := s.g.giveBack l path }.regrow (some s.g.sel)

/-! ### exit, kill, brk, nop, yield (R109, R110) -/
/-- After lanes have left the issuing leaf: the leaf, if it still owns lanes, goes on at p + 1. -/
def State.leaveIfLeft (id : Nat) (s : State) : State :=
  match s.g.me.leaf with
  | some l => if l.id = id && s.g.status ≠ .retired then s.leave else s
  | none => s
def State.myId (s : State) : Nat := match s.g.me.leaf with | some l => l.id | none => 0
def execExit : State → Out :=
  issueCtl .exit fun s =>
    let m := s.lanes false
    if m = s.g.owned && m ≠ 0 then s.exitLanes m else (s.exitLanes m).leaveIfLeft s.myId
def execKill : State → Out :=
  issueCtl .kill fun s =>
    let m := s.lanes false
    if m = s.g.owned && m ≠ 0 then s.kill m else (s.kill m).leaveIfLeft s.myId
/-- Entry to the handler by a word (R83, R109, R120): inside a handler it is DOUBLE, with records (R80); DESIGN CHOICE (log 16): also
where no lane is active, and then no record is written. -/
def State.softTrap (s : State) (cause : Word) : State :=
  let s' := if s.src.openTrap.isSome then s.raise (cause.setWidth 8) (s.lanes false) else s
  { s'.goto (s.g.pc + 1) with latch := { s'.latch with soft := some (cause, (s.g.pc + 1) * 4) } }
def execBrk : State → Out := issueCtl .brk fun s => s.softTrap 0x11
def execNop : State → Out := issueSeq .nop fun s => s
/-- The unblocked suspended leaf with the highest age takes the issuing slot, whose leaf is suspended (R68, R110). -/
def Group.swapIn (g : Group) (now : Nat) : Group :=
  match g.me.leaf, oldest g.waiting with
  | some l, some w =>
    let g := g.dropEntry w.id
    { g with
      entries := g.entries ++ [{ l with age := 0 }]
      me := { g.me with leaf := some { w with age := 0 }, stalled := false, since := now } }
  | _, _ => g
/-- The swap of `yield`, where the leaf `id` that issued it is still there. -/
def State.swapAfter (s : State) (id : Nat) : State := if s.myId = id then { s with g := s.g.swapIn s.fresh } else s
/-- As the first word of a pair it leaves the swap to the end of the pair (see `issuePair`). -/
def execYield : State → Out :=
  issue .yield fun s =>
    let t := s.advance 1
    let u := { t with g := { t.g with passed := true } }
    if s.latch.first then u else u.swapAfter s.myId

/-! ### Loops (R74, R112, R113) -/
def State.loopInstall (s : State) (n : Fin 3) (c : Word) (e : BitVec 14) : State :=
  let p := s.g.pc
  if s.g.splitOpen || (s.g.regs.lactive >>> n.val) ≠ 0 then s.raise 0x0F (s.lanes false)
  else if c = 0 then s.setLeaf fun l => { l with skip := some (p + e.setWidth 32 + 1) }
  else s.setRegs fun r => { r with
    lc := r.lc.set n c, lstart := r.lstart.set n (p + 1), lend := r.lend.set n (p + e.setWidth 32), lactive := r.lactive ||| (1#3 <<< n.val) }
def execLoop (n : Fin 3) (a : SReg) (e : BitVec 14) : State → Out :=
  issueSeq (.loop n a e) fun s => s.loopInstall n (s.src.readS a) e
def execLoopi (n : Fin 3) (k : BitVec 6) (e : BitVec 14) : State → Out :=
  issueSeq (.loopi n k e) fun s => s.loopInstall n (k.setWidth 32) e
/-- Levels n and above are uninstalled. -/
def Regs.uninstallFrom (r : Regs) (n : Nat) : Regs :=
  { r with
    lc := Vector.ofFn fun k => if k.val ≥ n && r.lactive.getLsbD k.val then 0 else r.lc[k]
    lactive := r.lactive &&& BitVec.ofNat 3 (2 ^ n - 1) }
def execLbrk (n : Fin 3) : State → Out :=
  issueCtl (.lbrk n) fun s =>
    if !s.g.regs.lactive.getLsbD n.val || s.g.splitOpen then (s.raise 0x0F (s.lanes false)).leave
    else (s.setRegs fun r => r.uninstallFrom n.val).goto (s.g.regs.lend[n] + 1)

/-! ### Barriers and waits (R114-R117) -/
/-- `bararr n`; the same slot again waits for the completion first. -/
def execBararr (n : Fin 16) : State → Out :=
  issueSeq (.bararr n) fun s => match s.arriveBar n with | some t => t | none => s.waitFor (.rearm n)
def execBarwait (n : Fin 16) : State → Out :=
  issueSeq (.barwait n) fun s =>
    if s.myWait = .granted then s else match s.waitBar n with | some t => t | none => s.waitFor (.barred n)
/-- `bar` arrives once, when it begins to wait. -/
def execBar (n : Fin 16) : State → Out :=
  issueSeq (.bar n) fun s =>
    if s.myWait = .granted then s
    else if s.myWait = .barred n then s.waitFor (.barred n)
    else
      match s.arriveBar n with
      | none => s.waitFor (.rearm n)
      | some t => match t.waitBar n with | some u => u | none => t.waitFor (.barred n)
/-- An arrival barrier word at the core-memory offset in S[d]: `f` acts on it, or every active lane faults. -/
def State.withBarWord (s : State) (d : SReg) (f : Nat → Nat → State → State) : State :=
  let a := s.src.readS d
  match s.cmPlace s.w a 8 with
  | .error c => (lanesOf (s.lanes false)).foldl (fun s L => s.raise1 c L (a.setWidth 64)) s
  | .ok (wid, off) => if s.cmPoisoned wid off 8 then s.consume (s.lanes false) else f wid off s
/-- Whether a waiter on a barrier word that `abinit` writes goes on: a free choice for each slot (R116; log 6). -/
def Slot.freeWaiter (wid off : Nat) (go : Bool) (x : Slot) : Slot :=
  let f := fun (w : Wait) => if w = .onWord wid off && go then .granted else w
  { x with leaf := x.leaf.map fun l => { l with wait := f l.wait, wait2 := f l.wait2 } }
def State.freeWaiters (s : State) (wid off : Nat) : State :=
  let one := fun (g : Group) => { g with
    me := g.me.freeWaiter wid off (s.free 1 (2 * g.gid) % 2 = 1), mate := g.mate.freeWaiter wid off (s.free 1 (2 * g.gid + 1) % 2 = 1) }
  { s with g := one s.g, others := s.others.map one }
/-- `abinit` writes the whole word, poisoned or not. What the slots that wait on the word then do is undefined (R116): each of them goes
on, by a free value, or tests the new word (log 6). -/
def execAbinit (d : SReg) (k : BitVec 13) : State → Out :=
  issueSeq (.abinit d k) fun s =>
    match s.cmPlace s.w (s.src.readS d) 8 with
    | .error c => (lanesOf (s.lanes false)).foldl (fun t L => t.raise1 c L ((s.src.readS d).setWidth 64)) s
    | .ok (wid, off) => ((s.freeWaiters wid off).cmWrite wid off (leBytes 8 (mkBar k.toNat k.toNat 0))).wake
def execAbarr (d : SReg) (k : BitVec 13) : State → Out :=
  issueSeq (.abarr d k) fun s => s.withBarWord d fun wid off s => s.updBarWord wid off (arriveWord k.toNat)
def execAbwait (d : SReg) (p : Bool) : State → Out :=
  issueSeq (.abwait d p) fun s => s.withBarWord d fun wid off s =>
    let x := leNat (s.cmRead wid off 8)
    if s.myWait = .granted || barPh x ≠ (if p then 1 else 0) || barFaulted x then
      (s.dropCopies (if wid = s.g.wid then 0 else 1)).acquireBar wid off
    else s.waitFor (.onWord wid off)
def execSleep (n : BitVec 13) : State → Out :=
  issueSeq (.sleep n) fun s => if n = 0 || s.myWait = .granted then s else s.waitFor .sleep
/-- `issue` itself waits while S[d] is pending. -/
def execWtok (d : SReg) : State → Out := issueSeq (.wtok d) fun s => s

/-! ### Regions (R33-R36) -/
def State.commitMine (s : State) : State := if s.g.region = .trans then s.commitGroup s.g else s
/-- The group's slot of the workgroup context area, behind its spill records (R266). DEDUCED (log 16): s0-s15, the packet, the mask and
FMODE in this order. -/
def State.putSeed (s : State) : State :=
  let x := s.g.seed
  s.devPuts (s.groupWho s.g) (s.g.divsp.toNat + 48 * s.g.spillN) (x.s.toList ++ [x.pc, maskWord x.mask 0, maskWord x.mask 1, maskWord x.mask 2, x.fmode])
/-- R34: any open transactional region commits, the seed is taken, and a region opens. In SOFT the group then stops (R273). -/
def State.openRegion (s : State) (kind : Region) : State :=
  let s := s.commitMine
  let seed : Seed := { s := Vector.ofFn fun k => s.src.readS (Fin.castLE (by decide) k), pc := s.g.pc, mask := s.src.owned, fmode := s.src.regs.fmode }
  { s with g := { s.g with region := kind, restartable := true, seed := seed } }.putSeed
def State.stopInSoft (s : State) : State :=
  if s.myPhase = .soft && s.g.region ≠ .none && s.g.status = .ready then { s with g := { s.g with status := .stopped } }.discardIfStopped
  else s
def execRgn : State → Out :=
  issue .rgn fun s => ((s.openRegion .plain).advance 1).stopInSoft
def execRgnT : State → Out :=
  issue .rgnT fun s => ((s.openRegion .trans).advance 1).stopInSoft
def execRgnend : State → Out :=
  issueSeq .rgnend fun s =>
    let s := s.commitMine
    { s with g := { s.g with region := .none, restartable := false } }

end
end Sys2Proof.Machine
end

