-- ==== Sys2Proof/Machine/Float.lean ====
section
/-!
DEFINITION. Machine/Float.lean: floating-point values, exact results, one rounding, and the flags of it (07 R127-R136).
-/
namespace Sys2Proof.Machine

/-- A format of R127: width of the exponent field and of the fraction; `e4m3` has no infinity. -/
structure Fmt where
  ew : Nat
  fw : Nat
  e4m3 : Bool := false
  deriving DecidableEq, Repr
def fp64 : Fmt := { ew := 11, fw := 52 }
def fp32 : Fmt := { ew := 8, fw := 23 }
def fp16 : Fmt := { ew := 5, fw := 10 }
def bf16 : Fmt := { ew := 8, fw := 7 }
def fe4m3 : Fmt := { ew := 4, fw := 3, e4m3 := true }
def fe5m2 : Fmt := { ew := 5, fw := 2 }

def Fmt.bias (f : Fmt) : Nat := 2 ^ (f.ew - 1) - 1
def Fmt.signBit (f : Fmt) : Nat := 2 ^ (f.ew + f.fw)
/-- Magnitude bits of infinity; in E4M3, of NaN. -/
def Fmt.infBits (f : Fmt) : Nat := if f.e4m3 then 2 ^ (f.ew + f.fw) - 1 else (2 ^ f.ew - 1) * 2 ^ f.fw
def Fmt.maxBits (f : Fmt) : Nat := f.infBits - 1
/-- The canonical NaN (R127, R128). -/
def Fmt.nan (f : Fmt) : Nat := if f.e4m3 then 0x7F else f.infBits + 2 ^ (f.fw - 1)
/-- Magnitude bits of the smallest normal number. -/
def Fmt.minNormal (f : Fmt) : Nat := 2 ^ f.fw

/-- A value read from a format; `fin` is ± m × 2^e. -/
inductive Val where
  | nan (signalling : Bool)
  | inf (neg : Bool)
  | fin (neg : Bool) (m : Nat) (e : Int)
  deriving DecidableEq, Repr

def Fmt.neg (f : Fmt) (b : Nat) : Bool := decide (b / f.signBit % 2 = 1)
def Fmt.mag (f : Fmt) (b : Nat) : Nat := b % f.signBit
/-- The value of bit pattern `b` (R127, R128). -/
def Fmt.val (f : Fmt) (b : Nat) : Val :=
  let mg := f.mag b
  let x := mg / 2 ^ f.fw
  let fr := mg % 2 ^ f.fw
  if f.e4m3 && mg = f.infBits then .nan false
  else if !f.e4m3 && x = 2 ^ f.ew - 1 then (if fr = 0 then .inf (f.neg b) else .nan (decide (fr < 2 ^ (f.fw - 1))))
  else if x = 0 then .fin (f.neg b) fr (1 - (f.bias : Int) - f.fw)
  else .fin (f.neg b) (2 ^ f.fw + fr) ((x : Int) - f.bias - f.fw)
def Fmt.isSub (f : Fmt) (b : Nat) : Bool := f.mag b ≠ 0 && f.mag b < f.minNormal
/-- The class bits of R130. -/
def Fmt.cls (f : Fmt) (b : Nat) : Nat :=
  match f.val b with
  | .nan s => if s then 8 else 9
  | .inf n => if n then 0 else 7
  | .fin n m _ =>
    if m = 0 then (if n then 3 else 4) else if f.isSub b then (if n then 2 else 5) else if n then 1 else 6
/-- FTZI: a subnormal input reads as zero of its sign (R133). -/
def Fmt.flushIn (f : Fmt) (ftzi : Bool) (b : Nat) : Nat := if ftzi && f.isSub b then b / f.signBit * f.signBit else b

inductive Mode where
  | rne | rz | rd | ru | rna
  deriving DecidableEq, Repr
/-- FMODE.RND; 5 to 7 act as RNE (R31). -/
def modeOf (rnd : Nat) : Mode :=
  match rnd with
  | 1 => .rz
  | 2 => .rd
  | 3 => .ru
  | 4 => .rna
  | _ => .rne
end Sys2Proof.Machine

namespace Sys2Proof
open Machine in
/-- MOD as a rounding mode; DYN takes FMODE.RND (R132). -/
def Rm.mode (m : Rm) (fmode : Word) : Machine.Mode :=
  match m with
  | .dyn => modeOf (fmode.toNat % 8)
  | .rne => .rne
  | .rz => .rz
  | .rd => .rd
  | .ru => .ru
  | .rna => .rna
end Sys2Proof

namespace Sys2Proof.Machine

/-- An exact result: NaN (with invalid or not), infinity, or ± (m + δ) × 2^e with 0 ≤ δ < 1, δ > 0 exactly when `sticky`. -/
inductive Exact where
  | nan (invalid : Bool)
  | inf (neg : Bool)
  | val (neg : Bool) (m : Nat) (e : Int) (sticky : Bool)
  deriving DecidableEq, Repr

def bitLen (m : Nat) : Nat := if m = 0 then 0 else Nat.log2 m + 1
/-- The quotient of (m + δ) × 2^e by 2^q, and what is left: 0 exact, 1 below half, 2 half, 3 above half. -/
def cutAt (m : Nat) (e : Int) (sticky : Bool) (q : Int) : Nat × Nat :=
  if q ≤ e then (m * 2 ^ (e - q).toNat, if sticky then 1 else 0)
  else
    let k := (q - e).toNat
    let r := m % 2 ^ k
    let half := 2 ^ (k - 1)
    (m / 2 ^ k, if r = 0 && !sticky then 0 else if r < half then 1 else if r = half && !sticky then 2 else 3)
/-- Whether the magnitude is rounded up (R131). -/
def roundsUp (md : Mode) (neg : Bool) (q rest : Nat) : Bool :=
  match md with
  | .rne => rest = 3 || (rest = 2 && q % 2 = 1)
  | .rz => false
  | .rd => neg && rest ≠ 0
  | .ru => !neg && rest ≠ 0
  | .rna => rest ≥ 2
/-- Whether an overflow gives infinity (R131). -/
def toInf (md : Mode) (neg : Bool) : Bool :=
  match md with
  | .rne | .rna => true
  | .rz => false
  | .rd => neg
  | .ru => !neg

/-- What one rounding yields: bits, flags (NV 1, OF 4, UF 8, NX 16), and whether the result is tiny (R134). -/
structure Rounded where
  bits : Nat
  flags : Byte := 0
  tiny : Bool := false
  deriving DecidableEq, Repr, Inhabited
def signed (f : Fmt) (neg : Bool) (mag : Nat) : Nat := if neg then mag + f.signBit else mag
/-- Round(fmt, mode, ±(m + δ) 2^e) with m > 0: R131, flags by R134. -/
def roundMag (f : Fmt) (md : Mode) (neg : Bool) (m : Nat) (e : Int) (sticky : Bool) : Rounded :=
  let top : Int := e + bitLen m - 1
  let emin : Int := 1 - (f.bias : Int)
  let qu := top - f.fw
  let q := max qu (emin - f.fw)
  let (n, rest) := cutAt m e sticky q
  let n := if roundsUp md neg n rest then n + 1 else n
  let (nu, ru) := cutAt m e sticky qu
  let nu := if roundsUp md neg nu ru then nu + 1 else nu
  let tiny := decide ((if nu = 2 ^ (f.fw + 1) then top + 1 else top) < emin)
  let mag := (q + f.bias + f.fw - 1).toNat * 2 ^ f.fw + n
  if mag ≥ f.infBits then
    { bits := signed f neg (if f.e4m3 then f.maxBits else if toInf md neg then f.infBits else f.maxBits), flags := 20 }
  else
    { bits := signed f neg mag, flags := if rest = 0 then 0 else if tiny then 24 else 16, tiny := tiny }
/-- An exact result rounded once, a tiny one flushed under FTZO (R131, R133). -/
def finish (f : Fmt) (md : Mode) (ftzo : Bool) : Exact → Rounded
  | .nan inv => { bits := f.nan, flags := if inv then 1 else 0 }
  | .inf neg => if f.e4m3 then { bits := signed f neg f.maxBits, flags := 1 } else { bits := signed f neg f.infBits }
  | .val neg m e st =>
    if m = 0 && !st then { bits := signed f neg 0 }
    else
      let r := roundMag f md neg m e st
      if ftzo && r.tiny then { bits := signed f neg 0, flags := 24, tiny := true } else r

/-! ### Exact operations -/
def Val.neg : Val → Val
  | .nan s => .nan s
  | .inf n => .inf (!n)
  | .fin n m e => .fin (!n) m e
def Val.abs : Val → Val
  | .nan s => .nan s
  | .inf _ => .inf false
  | .fin _ m e => .fin false m e
def Val.snan : Val → Bool
  | .nan s => s
  | _ => false
def Val.isNan : Val → Bool
  | .nan _ => true
  | _ => false
/-- A value as an exact result. -/
def Val.exact : Val → Exact
  | .nan s => .nan s
  | .inf n => .inf n
  | .fin n m e => .val n m e false
def scaled (neg : Bool) (m : Nat) (k : Nat) : Int := if neg then -((m * 2 ^ k : Nat) : Int) else ((m * 2 ^ k : Nat) : Int)
/-- The sum of two finite values; an exact zero of opposite signs is −0 under RD only (R131). -/
def addFin (md : Mode) (na : Bool) (ma : Nat) (ea : Int) (nb : Bool) (mb : Nat) (eb : Int) : Exact :=
  let e := min ea eb
  let x := scaled na ma (ea - e).toNat + scaled nb mb (eb - e).toNat
  if x = 0 then .val (if na = nb then na else md = .rd) 0 0 false else .val (decide (x < 0)) x.natAbs e false
def addV (md : Mode) (a b : Val) : Exact :=
  match a, b with
  | .nan s, y => .nan (s || y.snan)
  | x, .nan s => .nan (s || x.snan)
  | .inf na, .inf nb => if na = nb then .inf na else .nan true
  | .inf na, _ => .inf na
  | _, .inf nb => .inf nb
  | .fin na ma ea, .fin nb mb eb => addFin md na ma ea nb mb eb
def mulV (a b : Val) : Exact :=
  match a, b with
  | .nan s, y => .nan (s || y.snan)
  | x, .nan s => .nan (s || x.snan)
  | .inf na, .inf nb => .inf (na != nb)
  | .inf na, .fin nb mb _ => if mb = 0 then .nan true else .inf (na != nb)
  | .fin na ma _, .inf nb => if ma = 0 then .nan true else .inf (na != nb)
  | .fin na ma ea, .fin nb mb eb => .val (na != nb) (ma * mb) (ea + eb) false
/-- a × b + d, rounded once by the caller; 0 × ∞ is invalid whatever d is (R153). -/
def fmaV (md : Mode) (a b d : Val) : Exact :=
  match mulV a b with
  | .nan inv => .nan (inv || d.snan)
  | .inf n => addV md (.inf n) d
  | .val n m e _ => addV md (.fin n m e) d
/-- a / b (R155): the flag is divzero. -/
def divV (prec : Nat) (a b : Val) : Exact × Bool :=
  match a, b with
  | .nan s, y => (.nan (s || y.snan), false)
  | x, .nan s => (.nan (s || x.snan), false)
  | .inf _, .inf _ => (.nan true, false)
  | .inf na, .fin nb _ _ => (.inf (na != nb), false)
  | .fin na _ _, .inf nb => (.val (na != nb) 0 0 false, false)
  | .fin na ma ea, .fin nb mb eb =>
    if mb = 0 then (if ma = 0 then (.nan true, false) else (.inf (na != nb), true))
    else if ma = 0 then (.val (na != nb) 0 0 false, false)
    else
      let k := prec + bitLen mb
      let x := ma * 2 ^ k
      (.val (na != nb) (x / mb) (ea - eb - k) (decide (x % mb ≠ 0)), false)
/-- The integer square root, bit by bit from bit `k` down. -/
def isqrtFrom (n : Nat) : Nat → Nat → Nat
  | 0, r => if (r + 1) * (r + 1) ≤ n then r + 1 else r
  | k + 1, r => isqrtFrom n k (if (r + 2 ^ (k + 1)) * (r + 2 ^ (k + 1)) ≤ n then r + 2 ^ (k + 1) else r)
def natSqrt (n : Nat) : Nat := isqrtFrom n (bitLen n / 2 + 1) 0
def sqrtV (prec : Nat) (a : Val) : Exact :=
  match a with
  | .nan s => .nan s
  | .inf n => if n then .nan true else .inf false
  | .fin n m e =>
    if m = 0 then .val n 0 0 false
    else if n then .nan true
    else
      -- an even exponent, and enough bits
      let odd := e % 2 ≠ 0
      let m := if odd then m * 2 else m
      let e := if odd then e - 1 else e
      let k := prec + 2
      let x := m * 2 ^ (2 * k)
      let r := natSqrt x
      .val false r (e / 2 - k) (decide (r * r ≠ x))

/-! ### Comparing values: −0 equals +0 -/
def scaleTo (n : Bool) (m : Nat) (e e0 : Int) : Int := scaled n m (e - e0).toNat
/-- a < b, neither a NaN. -/
def Val.lt (a b : Val) : Bool :=
  match a, b with
  | .nan _, _ | _, .nan _ => false
  | .inf na, .inf nb => na && !nb
  | .inf na, .fin _ _ _ => na
  | .fin _ _ _, .inf nb => !nb
  | .fin na ma ea, .fin nb mb eb => decide (scaleTo na ma ea (min ea eb) < scaleTo nb mb eb (min ea eb))
def Val.eq (a b : Val) : Bool := !a.isNan && !b.isNan && !Val.lt a b && !Val.lt b a
def Val.le (a b : Val) : Bool := !a.isNan && !b.isNan && !Val.lt b a
def Val.isNeg : Val → Bool
  | .nan _ => false
  | .inf n => n
  | .fin n _ _ => n
def Val.isZero : Val → Bool
  | .fin _ m _ => m = 0
  | _ => false
/-- R154: minimumNumber and maximumNumber on bit patterns. -/
def minNum (f : Fmt) (a b : Nat) : Rounded :=
  let x := f.val a
  let y := f.val b
  let fl : Byte := if x.snan || y.snan then 1 else 0
  if x.isNan && y.isNan then { bits := f.nan, flags := fl }
  else if x.isNan then { bits := b, flags := fl }
  else if y.isNan then { bits := a, flags := fl }
  else if Val.eq x y then { bits := if x.isNeg then a else b, flags := fl }
  else { bits := if Val.lt x y then a else b, flags := fl }
def maxNum (f : Fmt) (a b : Nat) : Rounded :=
  let x := f.val a
  let y := f.val b
  let fl : Byte := if x.snan || y.snan then 1 else 0
  if x.isNan && y.isNan then { bits := f.nan, flags := fl }
  else if x.isNan then { bits := b, flags := fl }
  else if y.isNan then { bits := a, flags := fl }
  else if Val.eq x y then { bits := if x.isNeg then b else a, flags := fl }
  else { bits := if Val.lt x y then b else a, flags := fl }

/-! ### Conversions (R136) -/
/-- A value rounded to an integer under a mode, exactly or not. -/
def toIntegral (md : Mode) (n : Bool) (m : Nat) (e : Int) : Int × Bool :=
  let (q, rest) := cutAt m e false 0
  let q := if roundsUp md n q rest then q + 1 else q
  (if n then -(q : Int) else q, decide (rest ≠ 0))
/-- To an integer in [lo, hi]. DESIGN CHOICE (log 9): a value out of range raises invalid alone, also where it has a fraction: R136 names
invalid, and R134 inexact for every result that differs. -/
def toInteger (md : Mode) (lo hi : Int) (a : Val) : Int × Byte :=
  match a with
  | .nan _ => (0, 1)
  | .inf n => (if n then lo else hi, 1)
  | .fin n m e =>
    let (x, nx) := toIntegral md n m e
    if x < lo then (lo, 1) else if x > hi then (hi, 1) else (x, if nx then 16 else 0)
def ofInteger (x : Int) : Exact := .val (decide (x < 0)) x.natAbs 0 false

/-! ### The shadow key (R139, R140) -/
/-- Top w fraction bits under the exponent field. -/
def keyOfBits (f : Fmt) (w : Nat) (b : Nat) : Nat := f.mag b / 2 ^ (f.fw - w)

end Sys2Proof.Machine
end

