-- ==== Sys2Proof/Machine/Functions.lean ====
section
/-!
DEFINITION. Machine/Functions.lean: the six functions of R156: the true value in fixed point, and the implementation's result, which is
free inside the bound that R156 gives (log 9).
-/
namespace Sys2Proof.Machine
open Sys2Proof.Config (Fn)

/-- ln 2 and π as integers, times 2^128, truncated. -/
def ln2Fix : Nat := 0xB17217F7D1CF79ABC9E3B39803F2F6AF
def piFix : Nat := 0x3243F6A8885A308D313198A2E03707344
/-- 2^f for 0 ≤ f < 1, both times 2^128: the exponential series; `t` the term, `k` its number. -/
def expSeries (x : Nat) : Nat → Nat → Nat → Nat → Nat
  | 0, _, _, acc => acc
  | n + 1, k, t, acc =>
    let t := t * x / 2 ^ 128 / k
    expSeries x n (k + 1) t (acc + t)
def exp2Fix (f : Nat) : Nat := expSeries (f * ln2Fix / 2 ^ 128) 40 1 (2 ^ 128) (2 ^ 128)
/-- log₂ of x for 1 ≤ x < 2, x times 2^192: the result's bits, one per squaring. -/
def log2Bits : Nat → Nat → Nat → Nat
  | 0, _, acc => acc
  | n + 1, x, acc =>
    let y := x * x / 2 ^ 192
    if y ≥ 2 ^ 193 then log2Bits n (y / 2) (2 * acc + 1) else log2Bits n y (2 * acc)
/-- log₂ x times 2^96. -/
def log2Fix (x : Nat) : Nat := log2Bits 96 x 0
/-- The sine and cosine series at x (times 2^128), from term `t` numbered `k`. -/
def trigSeries (x2 : Int) : Nat → Nat → Int → Int → Int
  | 0, _, _, acc => acc
  | n + 1, k, t, acc =>
    let t := -(t * x2 / 2 ^ 128 / ((k + 1) * (k + 2) : Nat))
    trigSeries x2 n (k + 2) t (acc + t)
/-- sin and cos of ±(m × 2^e), times 2^128, after reduction by 2π. -/
def trigFix (cos neg : Bool) (m : Nat) (e : Int) : Int :=
  let (x, _) := cutAt m (e + 128) false 0
  let r : Int := (x % (2 * piFix) : Nat)
  let r := if r > piFix then r - 2 * piFix else r
  let r := if neg then -r else r
  let x2 := r * r / 2 ^ 128
  if cos then trigSeries x2 30 0 (2 ^ 128) (2 ^ 128) else trigSeries x2 30 1 r r

/-! ### Choosing inside the bound -/
/-- Numerator of |v(c) − t × 2^−k| against a bound, for FP32 magnitude bits `c` (signed by the caller) and a true magnitude t × 2^−k:
within two units in the last place of the true value, less 2^−16 unit for the fixed-point error. -/
def within2 (c t : Nat) (k : Nat) : Bool :=
  match fp32.val c with
  | .fin _ m e =>
    -- both times 2^(k + 149)
    let v := (m * 2 ^ (e + 149).toNat) * 2 ^ k
    let x := t * 2 ^ 149
    let ulp := 2 ^ (max ((bitLen t : Int) - 1 - k) (-126) + 126).toNat * 2 ^ k
    let d := if v ≤ x then x - v else v - x
    decide (d * 65536 + ulp ≤ 2 * ulp * 65536)
  | _ => false
/-- The implementation's magnitude bits for a true magnitude t × 2^−k: the nearest, moved by `off` units where that stays inside the
bound. -/
def nearTrue (t k : Nat) (off : Int) : Nat :=
  let n := (roundMag fp32 .rne false t (-(k : Int)) true).bits
  let c := ((n : Int) + off).toNat
  if (n : Int) + off ≥ 0 && within2 c t k then c else n
/-- Faithful: one of the two values that bracket the exact one. -/
def faithful (fn : Fn) (a : Word) (ftzo : Bool) (x : Exact) : Rounded :=
  let neg := match x with | .val n _ _ _ => n | _ => false
  let up : Mode := if neg then .rd else .ru
  finish fp32 (if Config.ulps fn a % 2 = 0 then .rz else up) ftzo x
/-- An inexact result with magnitude bits `c`. DESIGN CHOICE (log 9): a zero, or a value below the smallest normal, is tiny: 2^a and the
logarithm are not zero here, and R134 calls a non-zero result tiny. -/
def inexactBits (ftzo neg : Bool) (c : Nat) : Rounded :=
  if c < fp32.minNormal then { bits := signed fp32 neg (if ftzo then 0 else c), flags := 24, tiny := true }
  else { bits := signed fp32 neg c, flags := 16 }

/-- 1 / √(m × 2^e). -/
def rsqrtExact (m : Nat) (e : Int) : Exact :=
  let odd := e % 2 ≠ 0
  let m := if odd then m * 2 else m
  let e := if odd then e - 1 else e
  let k := 30 + bitLen m
  let r := natSqrt (2 ^ (2 * k) / m)
  .val false r (-(e / 2) - k) (decide (r * r * m ≠ 2 ^ (2 * k)))
def ex2At (neg : Bool) (m : Nat) (e : Int) (a : Word) (ftzo : Bool) : Rounded :=
  if m = 0 then { bits := 0x3F800000 }
  else
    -- a × 2^128 rounded towards −∞, and whether a is an integer
    let (x, rest) := cutAt m (e + 128) false 0
    let fix : Int := if neg then -(x : Int) - (if rest = 0 then 0 else 1) else x
    let n := fix / 2 ^ 128
    let f := (fix % 2 ^ 128).toNat
    let whole := f = 0 && rest = 0
    if n ≥ 128 then { bits := fp32.infBits, flags := 20 }
    else if n < -150 then { bits := 0, flags := 24, tiny := true }
    else if whole && n ≥ -149 then finish fp32 .rne ftzo (.val false 1 n false)
    else
      -- 2^a = t × 2^−(328), t from the 128-bit fraction
      inexactBits ftzo false (nearTrue (exp2Fix f * 2 ^ (n + 200).toNat) 328 (Config.ulps .ex2 a))
def lg2At (m : Nat) (e : Int) (a : Word) (ftzo : Bool) : Rounded :=
  let n := e + bitLen m - 1
  if m = 2 ^ (bitLen m - 1) then finish fp32 .rne ftzo (ofInteger n)
  else
    let r : Int := n * 2 ^ 96 + log2Fix (m * 2 ^ (193 - bitLen m))
    inexactBits ftzo (decide (r < 0)) (nearTrue r.natAbs 96 (Config.ulps .lg2 a))
/-- Whether magnitude-and-sign bits `y` may be the result of `fsin` or `fcos` at ±(m × 2^e). -/
def trigOk (cos neg : Bool) (m : Nat) (e : Int) (y : Word) : Bool :=
  match fp32.val y.toNat with
  | .fin yn ym ye =>
    decide (fp32.mag y.toNat ≤ 0x3F800000) &&
      (if bitLen m + e > 21 || (bitLen m + e = 21 && m ≠ 2 ^ (bitLen m - 1)) then true
       else
        -- |y − t| ≤ 2^−22, less 2^−60 for the fixed-point error, all times 2^277
        decide ((scaled yn ym (ye + 277).toNat - trigFix cos neg m e * 2 ^ 149).natAbs ≤ 2 ^ 255 - 2 ^ 217))
  | _ => false
/-- DESIGN CHOICE (log 9): a zero that the implementation returns for a true value that is not zero is inexact and not tiny, R134 judging the
result; the spec does not say which value is judged. -/
def trigAt (fn : Fn) (cos neg : Bool) (m : Nat) (e : Int) (a : Word) (ftzo : Bool) : Rounded :=
  if m = 0 then (if cos then { bits := 0x3F800000 } else { bits := signed fp32 neg 0 })
  else
    let t := trigFix cos neg m e
    let near := signed fp32 (decide (t < 0)) (min 0x3F800000 (roundMag fp32 .rne false (max 1 t.natAbs) (-128) true).bits)
    let y := if trigOk cos neg m e (Config.trig fn a) then (Config.trig fn a).toNat else near
    if fp32.mag y = 0 then { bits := y, flags := 16 } else inexactBits ftzo (fp32.neg y) (fp32.mag y)

/-- The result of a function on an FP32 operand already flushed under FTZI (R156). -/
def fnResult (fn : Fn) (ftzo : Bool) (a : Word) : Rounded :=
  match fp32.val a.toNat with
  | .nan s => { bits := fp32.nan, flags := if s then 1 else 0 }
  | .inf n =>
    match fn with
    | .rcp => { bits := signed fp32 n 0 }
    | .rsq => if n then { bits := fp32.nan, flags := 1 } else { bits := 0 }
    | .ex2 => { bits := if n then 0 else fp32.infBits }
    | .lg2 => if n then { bits := fp32.nan, flags := 1 } else { bits := fp32.infBits }
    | .sin | .cos => { bits := fp32.nan, flags := 1 }
  | .fin n m e =>
    match fn with
    | .rcp => if m = 0 then { bits := signed fp32 n fp32.infBits, flags := 2 }
              else faithful .rcp a ftzo (divV 30 (.fin false 1 0) (.fin n m e)).1
    | .rsq => if m = 0 then { bits := signed fp32 n fp32.infBits, flags := 2 }
              else if n then { bits := fp32.nan, flags := 1 } else faithful .rsq a ftzo (rsqrtExact m e)
    | .ex2 => ex2At n m e a ftzo
    | .lg2 => if m = 0 then { bits := signed fp32 true fp32.infBits, flags := 2 }
              else if n then { bits := fp32.nan, flags := 1 } else lg2At m e a ftzo
    | .sin => trigAt .sin false n m e a ftzo
    | .cos => trigAt .cos true n m e a ftzo

end Sys2Proof.Machine
end

