-- ==== Sys2Proof/Machine/Arith.lean ====
section
/-!
DEFINITION. Machine/Arith.lean: what a floating-point or interval word does with each lane's result (R135, R139-R141), and majors
0x08 to 0x0E (R153-R162).
-/
namespace Sys2Proof.Machine
noncomputable section
open Sys2Proof.Config (Fn)

/-! ### A lane's outcome -/
/-- A shadowed result inside a lane's result bits: its format and place, the correct bits, and the bits its key is taken from: the
exact result truncated, as the shadow unit has it (R139). -/
structure Piece where
  fmt : Fmt
  off : Nat := 0
  good : Nat
  key : Nat
  deriving DecidableEq, Repr
/-- What a word computes in a lane: its result bits, its flags (R134, R145), or a fault that comes first (R76). -/
structure FOut where
  val : BitVec 128 := 0
  flags : Byte := 0
  fault : Option Byte := none
  pieces : List Piece := []
  deriving DecidableEq, Repr
/-- What becomes of it. -/
structure Verdict where
  write : Option (BitVec 128) := none
  flags : Byte := 0
  fault : Option Byte := none
  count : Nat := 0
  deriving DecidableEq, Repr
def Verdict.diverged (v : Verdict) : Bool := v.count ≠ 0 || v.fault = some 0x0C

def Fmt.width (f : Fmt) : Nat := f.ew + f.fw + 1
def keyWidth (f : Fmt) : Nat := if f.width = 16 then 4 else 7
/-- R140. -/
def Piece.diverges (p : Piece) (x : BitVec 128) : Bool :=
  let b := x.toNat >>> p.off % 2 ^ p.fmt.width
  let w := keyWidth p.fmt
  let km := keyOfBits p.fmt w b
  let ks := keyOfBits p.fmt w p.key
  let finite := match p.fmt.val p.good with | .fin _ m _ => m ≠ 0 | _ => false
  p.fmt.cls b ≠ p.fmt.cls p.good || p.fmt.neg b ≠ p.fmt.neg p.good || (finite && (km > ks + 1 || ks > km + 1))
/-- The flips that a lane's result meets at its first attempt, or at its retry (log 17). -/
def flipOf (l : List Upset) (L : Lane) (second : Bool) : BitVec 128 :=
  match l.find? fun u => u.lane = L && u.second = second with | some u => u.flip | none => 0
def ten (fmode : Word) : Byte := BitVec.ofNat 8 (wbits fmode 10 6)
def shm (fmode : Word) : Nat := wbits fmode 12 11
def ftzi (fmode : Word) : Bool := fmode.getLsbD 3
def ftzo (fmode : Word) : Bool := fmode.getLsbD 4
def eim (fmode : Word) : Bool := fmode.getLsbD 5
def judge (fmode : Word) (ups : List Upset) (L : Lane) (o : FOut) : Verdict :=
  match o.fault with
  | some c => { fault := some c }
  | none =>
    if o.flags &&& ten fmode ≠ 0 then { flags := o.flags, fault := some 0x0B }
    else if o.pieces.isEmpty then { write := some o.val, flags := o.flags }
    else
      let x := o.val ^^^ flipOf ups L false
      if shm fmode = 0 || !(o.pieces.any fun p => p.diverges x) then { write := some x, flags := o.flags }
      else if shm fmode = 1 then { write := some x, flags := o.flags, count := 1 }
      else if shm fmode = 2 then { fault := some 0x0C }
      else
        let y := o.val ^^^ flipOf ups L true
        if o.pieces.any fun p => p.diverges y then { fault := some 0x0C, count := 1 }
        else { write := some y, flags := o.flags, count := 1 }

/-! ### A whole word -/
/-- Records of the lanes of `m` whose cause `c` gives one, in ascending order (R78); ECCUE lanes die (R85). -/
def State.raiseEach (s : State) (m : Mask) (c : Lane → Option (Byte × Dword)) : State :=
  (lanesOf m).foldl (fun s L =>
    match c L with
    | none => s
    | some (k, va) =>
      let t := s.raise1 k L va
      if k = 0x0D then { t with latch := { t.latch with dying := t.latch.dying ||| (1#96 <<< L.val) } } else t) s
/-- SHDCNT counts and stops at its top (R141). -/
def State.countShadow (s : State) (n : Nat) : State :=
  if n = 0 then s
  else
    let t := s.setRegs fun r => { r with shdcnt := satInc r.shdcnt n }
    { t with latch := { t.latch with shadows := t.latch.shadows + n } }
/-- `f` gives each active lane's outcome; `put` writes the destinations of the lanes that keep theirs. -/
def floatBody (i : Instr) (guarded : Bool) (f : Group → Lane → FOut) (put : Group → Mask → (Lane → BitVec 128) → State → State)
    (s : State) : State :=
  let r := s.src
  let m := s.lanes guarded
  let sick := r.poisonIn i.names.vr m
  let v := fun (L : Lane) => judge r.regs.fmode s.upsets L (f r L)
  let ok := maskOf fun L => m.getLsbD L.val && !sick.getLsbD L.val && (v L).write.isSome
  let well := (lanesOf m).filter fun L => !sick.getLsbD L.val
  let t := s.raiseEach m fun L => if sick.getLsbD L.val then some (0x0D, 0) else (v L).fault.map fun c => (c, 0)
  let t := (put r ok (fun L => ((v L).write).getD 0) t).orFlags (well.foldl (fun a L => a ||| (v L).flags) 0)
  let t := t.countShadow (well.foldl (fun n L => n + (v L).count) 0)
  let t := (well.filter fun L => (v L).diverged).foldl State.laneError t
  if s.upsets.isEmpty then t
  else { t with upsets := t.upsets.filter fun u => !(well.any fun L => L = u.lane && !(f r L).pieces.isEmpty) }
def floatWord (i : Instr) (guarded : Bool) (f : Group → Lane → FOut) (put : Group → Mask → (Lane → BitVec 128) → State → State) :
    State → Out :=
  issueSeq i (floatBody i guarded f put)
def low32 (x : BitVec 128) : Word := x.setWidth 32
/-- The result is one register; a pair; a predicate. -/
def put32 (d : VReg) (_ : Group) (m : Mask) (x : Lane → BitVec 128) (s : State) : State := s.setV d m fun L => low32 (x L)
def put64 (d : VReg) (_ : Group) (m : Mask) (x : Lane → BitVec 128) (s : State) : State := s.setV64 d m fun L => (x L).setWidth 64
def putP (d : PReg) (_ : Group) (m : Mask) (x : Lane → BitVec 128) (s : State) : State := s.setP d m fun L => pof ((x L).getLsbD 0)

/-- A rounded result as a lane's outcome; `shadowed` with the bits for its key. -/
def Rounded.out (r : Rounded) : FOut := { val := BitVec.ofNat 128 r.bits, flags := r.flags }
/-- The piece of a result of format `f` at `off`, rounded from `e`: one that overflowed or was flushed has the stored result's key
(log 17). -/
def pieceOf (f : Fmt) (off : Nat) (fl : Bool) (e : Exact) (r : Rounded) : Piece :=
  { fmt := f, off := off, good := r.bits
    key := if r.flags &&& flagOF ≠ 0 || (fl && r.tiny) then r.bits else (finish f .rz false e).bits }

/-! ### Arithmetic in one format -/
/-- The arithmetic of the V pipe: sums, products and the FMA family (R153). -/
inductive Arith where
  | add | sub | mul | fma | fms | nfma
  deriving DecidableEq, Repr
def Arith.exact (op : Arith) (md : Mode) (a b d : Val) : Exact :=
  match op with
  | .add => addV md a b
  | .sub => addV md a b.neg
  | .mul => mulV a b
  | .fma => fmaV md a b d
  | .fms => fmaV md a b d.neg
  | .nfma => fmaV md a.neg b d
/-- One element: operands flushed under FTZI, one rounding, FTZO. -/
def arithOne (op : Arith) (f : Fmt) (fmode : Word) (md : Mode) (off a b d : Nat) : Rounded × Piece :=
  let v := fun x => f.val (f.flushIn (ftzi fmode) x)
  let e := op.exact md (v a) (v b) (v d)
  let r := finish f md (ftzo fmode) e
  (r, pieceOf f off (ftzo fmode) e r)
def arithOut (op : Arith) (f : Fmt) (fmode : Word) (md : Mode) (a b d : Nat) : FOut :=
  let (r, p) := arithOne op f fmode md 0 a b d
  { r.out with pieces := [p] }
/-- Two halves (R160). -/
def arithPair (op : Arith) (f : Fmt) (fmode : Word) (md : Mode) (a b d : Word) : FOut :=
  let h := fun (w : Word) => w.toNat / 65536
  let l := fun (w : Word) => w.toNat % 65536
  let (r0, p0) := arithOne op f fmode md 0 (l a) (l b) (l d)
  let (r1, p1) := arithOne op f fmode md 16 (h a) (h b) (h d)
  { val := BitVec.ofNat 128 (r0.bits + 65536 * r1.bits), flags := r0.flags ||| r1.flags, pieces := [p0, p1] }

def arith32 (i : Instr) (op : Arith) (m : Rm) (g : Bool) (d a : VReg) (b : VSrc) : State → Out :=
  floatWord i g (fun r L => arithOut op fp32 r.regs.fmode (m.mode r.regs.fmode) (r.readV a L).toNat (r.vb b L).toNat (r.readV d L).toNat)
    (put32 d)
def arith64 (i : Instr) (op : Arith) (m : Rm) (g : Bool) (d a b : VReg) : State → Out :=
  floatWord i g (fun r L => arithOut op fp64 r.regs.fmode (m.mode r.regs.fmode) (r.readV64 a L).toNat (r.readV64 b L).toNat
    (r.readV64 d L).toNat) (put64 d)
def arith16 (i : Instr) (op : Arith) (f : Fmt) (m : Rm) (g : Bool) (d a : VReg) (b : VSrc) : State → Out :=
  floatWord i g (fun r L => arithPair op f r.regs.fmode (m.mode r.regs.fmode) (r.readV a L) (r.vb b L) (r.readV d L)) (put32 d)
/-- FP32 words that round once and are not shadowed. -/
def plain32 (i : Instr) (g : Bool) (d : VReg) (f : Group → Lane → Rounded) : State → Out :=
  floatWord i g (fun r L => (f r L).out) (put32 d)
/-- FP32 operands as FTZI leaves them. -/
def Group.fa (r : Group) (a : VReg) (L : Lane) : Nat := fp32.flushIn (ftzi r.regs.fmode) (r.readV a L).toNat
def Group.fb (r : Group) (b : VSrc) (L : Lane) : Nat := fp32.flushIn (ftzi r.regs.fmode) (r.vb b L).toNat
/-- A quotient or root in a format, rounded once. -/
def divOut (f : Fmt) (fmode : Word) (md : Mode) (a b : Nat) : Rounded :=
  let v := fun x => f.val (f.flushIn (ftzi fmode) x)
  let (e, dz) := divV (f.fw + 3) (v a) (v b)
  let r := finish f md (ftzo fmode) e
  if dz then { r with flags := r.flags ||| flagDZ } else r
def sqrtOut (f : Fmt) (fmode : Word) (md : Mode) (a : Nat) : Rounded :=
  finish f md (ftzo fmode) (sqrtV (f.fw + 3) (f.val (f.flushIn (ftzi fmode) a)))

/-! Major 0x08 (R153, R154). -/
def execFadd (m : Rm) (g : Bool) (d a : VReg) (b : VSrc) : State → Out := arith32 (.fadd m g d a b) .add m g d a b
def execFsub (m : Rm) (g : Bool) (d a : VReg) (b : VSrc) : State → Out := arith32 (.fsub m g d a b) .sub m g d a b
def execFmul (m : Rm) (g : Bool) (d a : VReg) (b : VSrc) : State → Out := arith32 (.fmul m g d a b) .mul m g d a b
def execFfma (m : Rm) (g : Bool) (d a : VReg) (b : VSrc) : State → Out := arith32 (.ffma m g d a b) .fma m g d a b
def execFfms (m : Rm) (g : Bool) (d a : VReg) (b : VSrc) : State → Out := arith32 (.ffms m g d a b) .fms m g d a b
def execFnfma (m : Rm) (g : Bool) (d a : VReg) (b : VSrc) : State → Out := arith32 (.fnfma m g d a b) .nfma m g d a b
def execFmin (m : Rm) (g : Bool) (d a : VReg) (b : VSrc) : State → Out :=
  plain32 (.fmin m g d a b) g d fun r L => minNum fp32 (r.fa a L) (r.fb b L)
def execFmax (m : Rm) (g : Bool) (d a : VReg) (b : VSrc) : State → Out :=
  plain32 (.fmax m g d a b) g d fun r L => maxNum fp32 (r.fa a L) (r.fb b L)

/-! Major 0x09 (R155, R156). -/
def execFdiv (m : Rm) (g : Bool) (d a : VReg) (b : VSrc) : State → Out :=
  plain32 (.fdiv m g d a b) g d fun r L =>
    divOut fp32 r.regs.fmode (m.mode r.regs.fmode) (r.readV a L).toNat (r.vb b L).toNat
def execFsqrt (m : Rm) (g : Bool) (d a : VReg) : State → Out :=
  plain32 (.fsqrt m g d a) g d fun r L => sqrtOut fp32 r.regs.fmode (m.mode r.regs.fmode) (r.readV a L).toNat
def fnWord (i : Instr) (fn : Fn) (g : Bool) (d a : VReg) : State → Out :=
  plain32 i g d fun r L => fnResult fn (ftzo r.regs.fmode) (BitVec.ofNat 32 (r.fa a L))
def execFrcp (g : Bool) (d a : VReg) : State → Out := fnWord (.frcp g d a) .rcp g d a
def execFrsq (g : Bool) (d a : VReg) : State → Out := fnWord (.frsq g d a) .rsq g d a
def execFex2 (g : Bool) (d a : VReg) : State → Out := fnWord (.fex2 g d a) .ex2 g d a
def execFlg2 (g : Bool) (d a : VReg) : State → Out := fnWord (.flg2 g d a) .lg2 g d a
def execFsin (g : Bool) (d a : VReg) : State → Out := fnWord (.fsin g d a) .sin g d a
def execFcos (g : Bool) (d a : VReg) : State → Out := fnWord (.fcos g d a) .cos g d a

/-! Major 0x0A (R157, R158). -/
/-- A relation and the NaNs for which it is invalid: `quiet` any, else signalling ones only. -/
def compare32 (i : Instr) (quiet g : Bool) (d : PReg) (a : VReg) (b : VSrc) (rel : Val → Val → Bool) : State → Out :=
  floatWord i g (fun r L =>
    let x := fp32.val (r.fa a L)
    let y := fp32.val (r.fb b L)
    { val := if rel x y then 1 else 0
      flags := if x.snan || y.snan || (quiet && (x.isNan || y.isNan)) then flagNV else 0 }) (putP d)
def execFeq (g : Bool) (d : PReg) (a : VReg) (b : VSrc) : State → Out := compare32 (.feq g d a b) false g d a b Val.eq
def execFne (g : Bool) (d : PReg) (a : VReg) (b : VSrc) : State → Out := compare32 (.fne g d a b) false g d a b fun x y => !Val.eq x y
def execFlt (g : Bool) (d : PReg) (a : VReg) (b : VSrc) : State → Out := compare32 (.flt g d a b) true g d a b Val.lt
def execFle (g : Bool) (d : PReg) (a : VReg) (b : VSrc) : State → Out := compare32 (.fle g d a b) true g d a b Val.le
def execFunord (g : Bool) (d : PReg) (a : VReg) (b : VSrc) : State → Out :=
  compare32 (.funord g d a b) false g d a b fun x y => x.isNan || y.isNan
/-- The mask bit of a class (R158). -/
def classBit (c : Nat) : Nat :=
  match c with
  | 0 | 7 => 0
  | 1 | 6 => 1
  | 2 | 5 => 2
  | 3 | 4 => 3
  | 8 => 4
  | _ => 5
def execFcls (g : Bool) (d : PReg) (a : VReg) (k : BitVec 6) : State → Out :=
  floatWord (.fcls g d a k) g (fun r L =>
    { val := if k.getLsbD (classBit (fp32.cls (r.fa a L))) then 1 else 0
      flags := if (fp32.val (r.fa a L)).snan then flagNV else 0 }) (putP d)

/-! Major 0x0B (R159). -/
def execDadd (m : Rm) (g : Bool) (d a b : VReg) : State → Out := arith64 (.dadd m g d a b) .add m g d a b
def execDsub (m : Rm) (g : Bool) (d a b : VReg) : State → Out := arith64 (.dsub m g d a b) .sub m g d a b
def execDmul (m : Rm) (g : Bool) (d a b : VReg) : State → Out := arith64 (.dmul m g d a b) .mul m g d a b
def execDfma (m : Rm) (g : Bool) (d a b : VReg) : State → Out := arith64 (.dfma m g d a b) .fma m g d a b
def execDdiv (m : Rm) (g : Bool) (d a b : VReg) : State → Out :=
  floatWord (.ddiv m g d a b) g (fun r L =>
    (divOut fp64 r.regs.fmode (m.mode r.regs.fmode) (r.readV64 a L).toNat (r.readV64 b L).toNat).out) (put64 d)
def execDsqrt (m : Rm) (g : Bool) (d a : VReg) : State → Out :=
  floatWord (.dsqrt m g d a) g (fun r L => (sqrtOut fp64 r.regs.fmode (m.mode r.regs.fmode) (r.readV64 a L).toNat).out) (put64 d)

/-! Major 0x0C (R160). -/
def execHadd2 (m : Rm) (g : Bool) (d a : VReg) (b : VSrc) : State → Out := arith16 (.hadd2 m g d a b) .add fp16 m g d a b
def execHmul2 (m : Rm) (g : Bool) (d a : VReg) (b : VSrc) : State → Out := arith16 (.hmul2 m g d a b) .mul fp16 m g d a b
def execHfma2 (m : Rm) (g : Bool) (d a : VReg) (b : VSrc) : State → Out := arith16 (.hfma2 m g d a b) .fma fp16 m g d a b
def execBadd2 (m : Rm) (g : Bool) (d a : VReg) (b : VSrc) : State → Out := arith16 (.badd2 m g d a b) .add bf16 m g d a b
def execBmul2 (m : Rm) (g : Bool) (d a : VReg) (b : VSrc) : State → Out := arith16 (.bmul2 m g d a b) .mul bf16 m g d a b
def execBfma2 (m : Rm) (g : Bool) (d a : VReg) (b : VSrc) : State → Out := arith16 (.bfma2 m g d a b) .fma bf16 m g d a b

/-! Majors 0x0D and 0x0E (R136, R161, R162). -/
/-- A value of `src` in format `dst`. -/
def cvtOut (src dst : Fmt) (fmode : Word) (md : Mode) (a : Nat) : Rounded :=
  finish dst md (ftzo fmode) (src.val (src.flushIn (ftzi fmode) a)).exact
def execCvtF32I32 (m : Rm) (g : Bool) (d a : VReg) : State → Out :=
  plain32 (.cvtF32I32 m g d a) g d fun r L => finish fp32 (m.mode r.regs.fmode) (ftzo r.regs.fmode) (ofInteger (r.readV a L).toInt)
def execCvtF32N32 (m : Rm) (g : Bool) (d a : VReg) : State → Out :=
  plain32 (.cvtF32N32 m g d a) g d fun r L => finish fp32 (m.mode r.regs.fmode) (ftzo r.regs.fmode) (ofInteger (r.readV a L).toNat)
/-- A conversion to an integer between bounds. -/
def toIntWord (i : Instr) (lo hi : Int) (m : Rm) (g : Bool) (d a : VReg) : State → Out :=
  floatWord i g (fun r L =>
    let (x, fl) := toInteger (m.mode r.regs.fmode) lo hi (fp32.val (r.fa a L))
    { val := (BitVec.ofInt 32 x).setWidth 128, flags := fl }) (put32 d)
def execCvtI32F32 (m : Rm) (g : Bool) (d a : VReg) : State → Out :=
  toIntWord (.cvtI32F32 m g d a) (-2147483648) 2147483647 m g d a
def execCvtN32F32 (m : Rm) (g : Bool) (d a : VReg) : State → Out := toIntWord (.cvtN32F32 m g d a) 0 4294967295 m g d a
def widenWord (i : Instr) (src : Fmt) (m : Rm) (g : Bool) (d a : VReg) : State → Out :=
  plain32 i g d fun r L => cvtOut src fp32 r.regs.fmode (m.mode r.regs.fmode) ((r.readV a L).toNat % 2 ^ src.width)
/-- Elements 0 and 1 from a and b. -/
def packWord (i : Instr) (dst : Fmt) (m : Rm) (g : Bool) (d a : VReg) (b : VSrc) : State → Out :=
  floatWord i g (fun r L =>
    let r0 := cvtOut fp32 dst r.regs.fmode (m.mode r.regs.fmode) (r.readV a L).toNat
    let r1 := cvtOut fp32 dst r.regs.fmode (m.mode r.regs.fmode) (r.vb b L).toNat
    { val := BitVec.ofNat 128 (r0.bits + 2 ^ dst.width * r1.bits), flags := r0.flags ||| r1.flags }) (put32 d)
def execCvtF32F16 (m : Rm) (g : Bool) (d a : VReg) : State → Out := widenWord (.cvtF32F16 m g d a) fp16 m g d a
def execCvtF32Bf16 (m : Rm) (g : Bool) (d a : VReg) : State → Out := widenWord (.cvtF32Bf16 m g d a) bf16 m g d a
def execCvtF32E4m3 (m : Rm) (g : Bool) (d a : VReg) : State → Out := widenWord (.cvtF32E4m3 m g d a) fe4m3 m g d a
def execCvtF32E5m2 (m : Rm) (g : Bool) (d a : VReg) : State → Out := widenWord (.cvtF32E5m2 m g d a) fe5m2 m g d a
def execCvtF16x2F32 (m : Rm) (g : Bool) (d a : VReg) (b : VSrc) : State → Out := packWord (.cvtF16x2F32 m g d a b) fp16 m g d a b
def execCvtBf16x2F32 (m : Rm) (g : Bool) (d a : VReg) (b : VSrc) : State → Out := packWord (.cvtBf16x2F32 m g d a b) bf16 m g d a b
def execCvtE4m3x2F32 (m : Rm) (g : Bool) (d a : VReg) (b : VSrc) : State → Out := packWord (.cvtE4m3x2F32 m g d a b) fe4m3 m g d a b
def execCvtE5m2x2F32 (m : Rm) (g : Bool) (d a : VReg) (b : VSrc) : State → Out := packWord (.cvtE5m2x2F32 m g d a b) fe5m2 m g d a b
def execCvtF64F32 (m : Rm) (g : Bool) (d a : VReg) : State → Out :=
  floatWord (.cvtF64F32 m g d a) g (fun r L => (cvtOut fp32 fp64 r.regs.fmode (m.mode r.regs.fmode) (r.readV a L).toNat).out) (put64 d)
def execCvtF32F64 (m : Rm) (g : Bool) (d a : VReg) : State → Out :=
  plain32 (.cvtF32F64 m g d a) g d fun r L => cvtOut fp64 fp32 r.regs.fmode (m.mode r.regs.fmode) (r.readV64 a L).toNat
/-- Four nibbles of a, from nibble 4h, as bytes. -/
def unpack4 (sx : Bool) (a b : Word) : Word :=
  let h := if b.getLsbD 0 then 16 else 0
  let q := fun i : Nat => (a >>> (h + 4 * i)).setWidth 4
  let byte := fun i : Nat => if sx then (q i).signExtend 8 else (q i).setWidth 8
  byte 3 ++ byte 2 ++ byte 1 ++ byte 0
def execUnpk4S (m : Rm) (g : Bool) (d a : VReg) (b : VSrc) : State → Out :=
  laneWord (.unpk4S m g d a b) g d fun r L => unpack4 true (r.readV a L) (r.vb b L)
def execUnpk4N (m : Rm) (g : Bool) (d a : VReg) (b : VSrc) : State → Out :=
  laneWord (.unpk4N m g d a b) g d fun r L => unpack4 false (r.readV a L) (r.vb b L)

end
end Sys2Proof.Machine
end

