-- ==== Sys2Proof/Machine/Intervals.lean ====
section
/-!
DEFINITION. Machine/Intervals.lean: majors 0x10 to 0x12: intervals, their arithmetic with outward rounding, splitting, and
three-valued comparisons (R143-R149, R163-R166).
-/
namespace Sys2Proof.Machine
noncomputable section

/-! ### Bounds -/
/-- Two bounds, as bits of their format. -/
structure Iv where
  lo : Nat
  hi : Nat
  deriving DecidableEq, Repr
inductive IvKind where
  | valid | empty | malformed
  deriving DecidableEq, Repr
def isInf (neg : Bool) (v : Val) : Bool := v = .inf neg
/-- R143. -/
def Iv.kind (f : Fmt) (x : Iv) : IvKind :=
  let l := f.val x.lo
  let h := f.val x.hi
  if isInf false l && isInf true h then .empty
  else if Val.le l h && !isInf false l && !isInf true h then .valid
  else .malformed
def ivEmpty (f : Fmt) : Iv := { lo := f.infBits, hi := f.infBits + f.signBit }
def Iv.pack (f : Fmt) (x : Iv) : BitVec 128 := BitVec.ofNat 128 (x.lo + 2 ^ f.width * x.hi)
def negBits (f : Fmt) (b : Nat) : Nat := if f.neg b then b - f.signBit else b + f.signBit
def IKind.fmt (k : IKind) : Fmt := match k with | .f64 => fp64 | _ => fp32
/-- An interval operand, and a point operand, of a lane (R129, R163). -/
def Group.readIv (r : Group) (k : IKind) (a : VReg) (L : Lane) : Iv :=
  match k with
  | .f64 => { lo := (r.readV64 a L).toNat, hi := (r.readV64 (vreg a 2) L).toNat }
  | _ => { lo := (r.readV a L).toNat, hi := (r.readV (vreg a 1) L).toNat }
def Group.readPt (r : Group) (k : IKind) (b : VSrc) (L : Lane) : Nat :=
  match k with
  | .f64 => (r.vb64 b L).toNat
  | _ => (r.vb b L).toNat
/-- An interval, or a scalar or point, written to a lane's registers. -/
def State.setIv (s : State) (k : IKind) (d : VReg) (m : Mask) (x : Lane → BitVec 128) : State :=
  match k with
  | .f64 => (s.setV64 d m fun L => (x L).setWidth 64).setV64 (vreg d 2) m fun L => (x L >>> 64).setWidth 64
  | _ => s.setV64 d m fun L => (x L).setWidth 64
def putIv (k : IKind) (d : VReg) (_ : Group) (m : Mask) (x : Lane → BitVec 128) (s : State) : State := s.setIv k d m x
def putPt (k : IKind) (d : VReg) (r : Group) (m : Mask) (x : Lane → BitVec 128) (s : State) : State :=
  match k with
  | .f64 => put64 d r m x s
  | _ => put32 d r m x s

/-- One bound, rounded outwards, with FTZO for bounds (R133, R144). -/
def bound (f : Fmt) (up fl : Bool) (e : Exact) : Rounded :=
  let r := finish f (if up then .ru else .rd) false e
  if fl && r.tiny then
    let n := f.neg r.bits
    { r with bits := if up then (if n then f.signBit else f.minNormal) else if n then f.minNormal + f.signBit else 0
             flags := 24 }
  else r
/-- Two rounded bounds as a lane's outcome; `shadowed` where R139 covers them. -/
def boundsOut (f : Fmt) (shadowed fl : Bool) (lo hi : Exact) : FOut :=
  let a := bound f false fl lo
  let b := bound f true fl hi
  { val := Iv.pack f { lo := a.bits, hi := b.bits }, flags := a.flags ||| b.flags
    pieces := if shadowed then [pieceOf f 0 fl lo a, pieceOf f f.width fl hi b] else [] }
def exactOut (f : Fmt) (x : Iv) : FOut := { val := x.pack f }
/-- R145 for an empty operand or result with the bits `e` written under EIM = 0. -/
def emptyOut (fmode : Word) (e : BitVec 128) : FOut :=
  if eim fmode then { fault := some 0x09 } else { val := e, flags := flagEMPTY }

/-! ### Products and quotients of bounds (R146) -/
/-- ± m / d × 2^e, or an infinity. -/
inductive Ratio where
  | inf (neg : Bool)
  | rat (neg : Bool) (m d : Nat) (e : Int)
  deriving DecidableEq, Repr
def ratioZero : Ratio := .rat false 0 1 0
/-- 0 × ∞ is 0, and a zero product is +0. -/
def mulBound (a b : Val) : Ratio :=
  match a, b with
  | .fin na ma ea, .fin nb mb eb => if ma = 0 || mb = 0 then ratioZero else .rat (na != nb) (ma * mb) 1 (ea + eb)
  | .inf na, .fin nb mb _ => if mb = 0 then ratioZero else .inf (na != nb)
  | .fin na ma _, .inf nb => if ma = 0 then ratioZero else .inf (na != nb)
  | .inf na, .inf nb => .inf (na != nb)
  | _, _ => ratioZero
/-- x / ±∞ is 0 for every x; the divisor is not 0. -/
def divBound (a b : Val) : Ratio :=
  match a, b with
  | .fin na ma ea, .fin nb mb eb => if ma = 0 || mb = 0 then ratioZero else .rat (na != nb) ma mb (ea - eb)
  | .inf na, .fin nb _ _ => .inf (na != nb)
  | _, _ => ratioZero
def Ratio.lt (a b : Ratio) : Bool :=
  match a, b with
  | .inf na, .inf nb => na && !nb
  | .inf na, .rat _ _ _ _ => na
  | .rat _ _ _ _, .inf nb => !nb
  | .rat na ma da ea, .rat nb mb db eb =>
    decide (scaled na (ma * db) (ea - min ea eb).toNat < scaled nb (mb * da) (eb - min ea eb).toNat)
def Ratio.min (a b : Ratio) : Ratio := if Ratio.lt b a then b else a
def Ratio.max (a b : Ratio) : Ratio := if Ratio.lt a b then b else a
def Ratio.exact (prec : Nat) (a : Ratio) : Exact :=
  match a with
  | .inf n => .inf n
  | .rat n m d e =>
    if d = 1 then .val n m e false
    else
      let k := prec + bitLen d
      .val n (m * 2 ^ k / d) (e - k) (decide (m * 2 ^ k % d ≠ 0))
def extremes (f : Fmt) (shadowed fl : Bool) (op : Val → Val → Ratio) (al ah bl bh : Val) : FOut :=
  let p := op al bl
  let q := op al bh
  let u := op ah bl
  let v := op ah bh
  boundsOut f shadowed fl ((((p.min q).min u).min v).exact (f.fw + 3)) ((((p.max q).max u).max v).exact (f.fw + 3))

/-! ### The words -/
/-- One interval operand, checked (R143); `body` sees a valid one, `empty` answers for an empty one. -/
def iv1 (f : Fmt) (x : Iv) (empty : FOut) (body : Val → Val → FOut) : FOut :=
  match x.kind f with
  | .malformed => { fault := some 0x0A }
  | .empty => empty
  | .valid => body (f.val x.lo) (f.val x.hi)
/-- Two interval operands, `body` for the kinds they have. -/
def iv2 (f : Fmt) (x y : Iv) (body : Bool → Bool → FOut) : FOut :=
  match x.kind f, y.kind f with
  | .malformed, _ | _, .malformed => { fault := some 0x0A }
  | p, q => body (p = .empty) (q = .empty)
/-- A word from two intervals to one that is empty when either is. -/
def arithIv (i : Instr) (k : IKind) (g : Bool) (d a b : VReg) (op : Fmt → Bool → Val → Val → Val → Val → FOut) : State → Out :=
  floatWord i g (fun r L =>
    let f := IKind.fmt k
    let x := r.readIv k a L
    let y := r.readIv k b L
    iv2 f x y fun ea eb =>
      if ea || eb then emptyOut r.regs.fmode ((ivEmpty f).pack f)
      else op f (ftzo r.regs.fmode) (f.val x.lo) (f.val x.hi) (f.val y.lo) (f.val y.hi)) (putIv k d)
/-- A word from one interval to another. -/
def unaryIv (i : Instr) (k : IKind) (g : Bool) (d a : VReg) (op : Fmt → Word → Iv → Val → Val → FOut) : State → Out :=
  floatWord i g (fun r L =>
    let f := IKind.fmt k
    let x := r.readIv k a L
    iv1 f x (emptyOut r.regs.fmode ((ivEmpty f).pack f)) fun l h => op f r.regs.fmode x l h) (putIv k d)

/-! Major 0x10 (R146, R164). -/
def execIadd (m : IKind) (g : Bool) (d a b : VReg) : State → Out :=
  arithIv (.iadd m g d a b) m g d a b fun f fl al ah bl bh => boundsOut f true fl (addV .rd al bl) (addV .ru ah bh)
def execIsub (m : IKind) (g : Bool) (d a b : VReg) : State → Out :=
  arithIv (.isub m g d a b) m g d a b fun f fl al ah bl bh => boundsOut f true fl (addV .rd al bh.neg) (addV .ru ah bl.neg)
def execImul (m : IKind) (g : Bool) (d a b : VReg) : State → Out :=
  arithIv (.imul m g d a b) m g d a b fun f fl al ah bl bh => extremes f true fl mulBound al ah bl bh
/-- 0 lies in the interval. -/
def hasZero (l h : Val) : Bool := (l.isZero || Val.lt l (.fin false 0 0)) && (h.isZero || Val.lt (.fin false 0 0) h)
def execIdiv (m : IKind) (g : Bool) (d a b : VReg) : State → Out :=
  arithIv (.idiv m g d a b) m g d a b fun f fl al ah bl bh =>
    if hasZero bl bh then
      if al.isZero && ah.isZero then exactOut f { lo := 0, hi := 0 } else exactOut f { lo := f.infBits + f.signBit, hi := f.infBits }
    else extremes f false fl divBound al ah bl bh
def nonneg (v : Val) : Bool := v.isZero || !v.isNeg
def nonpos (v : Val) : Bool := v.isZero || v.isNeg
def execIsqr (m : IKind) (g : Bool) (d a : VReg) : State → Out :=
  unaryIv (.isqr m g d a) m g d a fun f w _ l h =>
    let sq := fun (v : Val) => (mulBound v v).exact (f.fw + 3)
    if nonneg l then boundsOut f true (ftzo w) (sq l) (sq h)
    else if nonpos h then boundsOut f true (ftzo w) (sq h) (sq l)
    else boundsOut f true (ftzo w) (.val false 0 0 false) (((mulBound l l).max (mulBound h h)).exact (f.fw + 3))
/-- The lesser of two bounds; of zeros of unlike sign, either (log 9). -/
def minBits (f : Fmt) (x y : Nat) : Nat :=
  if Val.lt (f.val x) (f.val y) then x
  else if Val.lt (f.val y) (f.val x) then y
  else if x = y then x else if Config.zeroSign x y then x else y
def maxBits (f : Fmt) (x y : Nat) : Nat :=
  if Val.lt (f.val x) (f.val y) then y
  else if Val.lt (f.val y) (f.val x) then x
  else if x = y then x else if Config.zeroSign x y then x else y
def execIhull (m : IKind) (g : Bool) (d a b : VReg) : State → Out :=
  floatWord (.ihull m g d a b) g (fun r L =>
    let f := IKind.fmt m
    let x := r.readIv m a L
    let y := r.readIv m b L
    iv2 f x y fun ea eb =>
      if ea && eb then emptyOut r.regs.fmode ((ivEmpty f).pack f)
      else if ea then exactOut f y
      else if eb then exactOut f x
      else exactOut f { lo := minBits f x.lo y.lo, hi := maxBits f x.hi y.hi }) (putIv m d)
def execIsect (m : IKind) (g : Bool) (d a b : VReg) : State → Out :=
  floatWord (.isect m g d a b) g (fun r L =>
    let f := IKind.fmt m
    let x := r.readIv m a L
    let y := r.readIv m b L
    iv2 f x y fun ea eb =>
      let lo := maxBits f x.lo y.lo
      let hi := minBits f x.hi y.hi
      if ea || eb || Val.lt (f.val hi) (f.val lo) then emptyOut r.regs.fmode ((ivEmpty f).pack f) else exactOut f { lo := lo, hi := hi })
    (putIv m d)
def execIwid (m : IKind) (g : Bool) (d a : VReg) : State → Out :=
  floatWord (.iwid m g d a) g (fun r L =>
    let f := IKind.fmt m
    iv1 f (r.readIv m a L) (emptyOut r.regs.fmode (BitVec.ofNat 128 f.nan)) fun l h =>
      let e := addV .ru h l.neg
      let x := bound f true (ftzo r.regs.fmode) e
      { x.out with pieces := [pieceOf f 0 (ftzo r.regs.fmode) e x] }) (putPt m d)

/-! Major 0x11 (R146, R147, R165). -/
def execIsqrt (m : IKind) (g : Bool) (d a : VReg) : State → Out :=
  unaryIv (.isqrt m g d a) m g d a fun f w x l h =>
    if Val.lt h (.fin false 0 0) then emptyOut w ((ivEmpty f).pack f)
    else
      let lo := if Val.lt l (.fin false 0 0) then 0 else if l.isZero then maxBits f x.lo 0 else x.lo
      boundsOut f false (ftzo w) (sqrtV (f.fw + 3) (f.val lo)) (sqrtV (f.fw + 3) h)
def execIabs (m : IKind) (g : Bool) (d a : VReg) : State → Out :=
  unaryIv (.iabs m g d a) m g d a fun f _ x l h =>
    if nonneg l then exactOut f x
    else if nonpos h then exactOut f { lo := negBits f x.hi, hi := negBits f x.lo }
    else exactOut f { lo := 0, hi := maxBits f (negBits f x.lo) x.hi }
def execIneg (m : IKind) (g : Bool) (d a : VReg) : State → Out :=
  unaryIv (.ineg m g d a) m g d a fun f _ x _ _ => exactOut f { lo := negBits f x.hi, hi := negBits f x.lo }
/-- The midpoint of a valid interval: the exact value of (lo + hi) / 2, and m (R147). -/
def midpoint (f : Fmt) (x : Iv) : Exact × Rounded :=
  let l := f.val x.lo
  let h := f.val x.hi
  let e : Exact := match l, h with
    | .inf _, .inf _ => .val false 0 0 false
    | .inf _, _ => (f.val (f.maxBits + f.signBit)).exact
    | _, .inf _ => (f.val f.maxBits).exact
    | _, _ => match addV .rne l h with
      | .val n m e st => .val n m (e - 1) st
      | y => y
  let r := finish f .rne false e
  let v := f.val r.bits
  let r := if Val.lt v l then { r with bits := x.lo } else if Val.lt h v then { r with bits := x.hi } else r
  (e, r)
def execImid (m : IKind) (g : Bool) (d a : VReg) : State → Out :=
  floatWord (.imid m g d a) g (fun r L =>
    let f := IKind.fmt m
    let x := r.readIv m a L
    iv1 f x (emptyOut r.regs.fmode (BitVec.ofNat 128 f.nan)) fun _ _ =>
      let (e, y) := midpoint f x
      { y.out with flags := y.flags &&& flagNX, pieces := [pieceOf f 0 false e y] }) (putPt m d)
/-- The halves of `x` about `m` (R147): lower and upper. -/
def halves (f : Fmt) (x : Iv) (m : Nat) : Iv × Iv :=
  match x.kind f with
  | .empty => (ivEmpty f, ivEmpty f)
  | _ =>
    if Val.eq (f.val m) (f.val x.lo) || Val.eq (f.val m) (f.val x.hi) then (x, ivEmpty f) else ({ lo := x.lo, hi := m }, { lo := m, hi := x.hi })
def execIsplit (m : IKind) (g : Bool) (d a : VReg) : State → Out :=
  floatWord (.isplit m g d a) g (fun r L =>
    let f := IKind.fmt m
    let x := r.readIv m a L
    iv1 f x (emptyOut r.regs.fmode 0) fun _ _ =>
      let (e, y) := midpoint f x
      { val := BitVec.ofNat 128 y.bits, pieces := [pieceOf f 0 false e y] })
    fun r ok y s =>
      let f := IKind.fmt m
      let h := fun L => halves f (r.readIv m a L) (y L).toNat
      (s.setIv m d ok fun L => (h L).1.pack f).setIv m a ok fun L => (h L).2.pack f
def execImake (m : IKind) (g : Bool) (d a : VReg) (b : VSrc) : State → Out :=
  floatWord (.imake m g d a b) g (fun r L =>
    let f := IKind.fmt m
    let x : Iv := { lo := r.readPt m (.reg a) L, hi := r.readPt m b L }
    if x.kind f = .valid then exactOut f x else emptyOut r.regs.fmode ((ivEmpty f).pack f)) (putIv m d)
def execIpt (m : IKind) (g : Bool) (d a : VReg) : State → Out :=
  floatWord (.ipt m g d a) g (fun r L =>
    let f := IKind.fmt m
    let x := r.readPt m (.reg a) L
    match f.val x with
    | .fin _ _ _ => exactOut f { lo := x, hi := x }
    | _ => emptyOut r.regs.fmode ((ivEmpty f).pack f)) (putIv m d)

/-! Major 0x12 (R149, R166). -/
def verdictBits (p : PVal) : BitVec 128 := (pBits p).setWidth 128
def putP3 (d : PReg) (_ : Group) (m : Mask) (x : Lane → BitVec 128) (s : State) : State :=
  s.setP d m fun L => pOfBits ((x L).setWidth 2)
def three (t f : Bool) : PVal := if t then .t else if f then .f else .u
/-- A comparison of two valid intervals; an empty operand gives false and acts under R145. -/
def compareIv (i : Instr) (k : IKind) (g : Bool) (d : PReg) (a b : VReg) (rel : Val → Val → Val → Val → PVal) : State → Out :=
  floatWord i g (fun r L =>
    let f := IKind.fmt k
    let x := r.readIv k a L
    let y := r.readIv k b L
    iv2 f x y fun ea eb =>
      if ea || eb then emptyOut r.regs.fmode (verdictBits .f)
      else { val := verdictBits (rel (f.val x.lo) (f.val x.hi) (f.val y.lo) (f.val y.hi)) }) (putP3 d)
def allEq (al ah bl bh : Val) : Bool := Val.eq al ah && Val.eq ah bl && Val.eq bl bh
def execIlt (m : IKind) (g : Bool) (d : PReg) (a b : VReg) : State → Out :=
  compareIv (.ilt m g d a b) m g d a b fun al ah bl bh => three (Val.lt ah bl) (Val.le bh al)
def execIle (m : IKind) (g : Bool) (d : PReg) (a b : VReg) : State → Out :=
  compareIv (.ile m g d a b) m g d a b fun al ah bl bh => three (Val.le ah bl) (Val.lt bh al)
def execIeq (m : IKind) (g : Bool) (d : PReg) (a b : VReg) : State → Out :=
  compareIv (.ieq m g d a b) m g d a b fun al ah bl bh => three (allEq al ah bl bh) (Val.lt ah bl || Val.lt bh al)
def execIne (m : IKind) (g : Bool) (d : PReg) (a b : VReg) : State → Out :=
  compareIv (.ine m g d a b) m g d a b fun al ah bl bh => three (Val.lt ah bl || Val.lt bh al) (allEq al ah bl bh)
/-- A relation of sets, never undecided. -/
def setIv (i : Instr) (k : IKind) (g : Bool) (d : PReg) (a b : VReg) (rel : Val → Val → Bool) : State → Out :=
  floatWord i g (fun r L =>
    let f := IKind.fmt k
    let x := r.readIv k a L
    let y := r.readIv k b L
    iv2 f x y fun ea eb =>
      { val := verdictBits (pof (ea || (!eb && rel (f.val y.lo) (f.val x.lo) && rel (f.val x.hi) (f.val y.hi)))) }) (putP3 d)
def execIsubset (m : IKind) (g : Bool) (d : PReg) (a b : VReg) : State → Out := setIv (.isubset m g d a b) m g d a b Val.le
def execIcont (m : IKind) (g : Bool) (d : PReg) (a b : VReg) : State → Out := setIv (.icont m g d a b) m g d a b Val.lt
def execIempty (m : IKind) (g : Bool) (d : PReg) (a : VReg) : State → Out :=
  floatWord (.iempty m g d a) g (fun r L =>
    iv1 (IKind.fmt m) (r.readIv m a L) { val := verdictBits .t } fun _ _ => { val := verdictBits .f }) (putP3 d)

end
end Sys2Proof.Machine
end

