-- ==== Sys2Proof/Machine/Accumulator.lean ====
section
/-!
DEFINITION. Machine/Accumulator.lean: major 0x16: the extrapolating accumulator (R167-R184). Its arithmetic is binary64 under RNE
with subnormals kept, raises no flag and ignores FMODE.
-/
namespace Sys2Proof.Machine
noncomputable section

/-- Pair k of the context (R177): 0 sum, 1 last estimate, 2 last delta, 3 + s ring slot s. -/
def Xctl.pair (x : Xctl) (k : Nat) : VReg := Fin.ofNat 64 (x.base + 2 * k)
def Xctl.ring (x : Xctl) (s : Nat) : VReg := x.pair (3 + s % x.depth)
/-- The ring slot of the newest entry (R174). -/
def Xctl.newest (x : Xctl) : Nat := x.head + x.depth - 1

/-! ### Binary64 on bits -/
def rne64 (e : Exact) : Nat := (finish fp64 .rne false e).bits
def add64b (a b : Nat) : Nat := rne64 (addV .rne (fp64.val a) (fp64.val b))
def sub64b (a b : Nat) : Nat := rne64 (addV .rne (fp64.val a) (fp64.val b).neg)
def rcp64b (a : Nat) : Nat := rne64 (divV 60 (.fin false 1 0) (fp64.val a)).1
/-- An FP32 value widened exactly. -/
def wide (a : Word) : Nat := rne64 (fp32.val a.toNat).exact
def finite64 (b : Nat) : Bool := match fp64.val b with | .fin _ _ _ => true | _ => false
def abs64 (b : Nat) : Nat := if b = fp64.nan then b else fp64.mag b

/-! ### The drain (R178-R181) -/
/-- An entry of the epsilon table; `none` is singular. -/
abbrev Eps := Option Nat
/-- |d| ≤ 2^−thr × max(|a|, |b|), exactly; false with a NaN. -/
def nearZero (thr d a b : Nat) : Bool :=
  let big := if Val.lt (fp64.val a).abs (fp64.val b).abs then (fp64.val b).abs else (fp64.val a).abs
  !(fp64.val a).isNan && !(fp64.val b).isNan &&
    (match big with
     | .fin n m e => Val.le (fp64.val d).abs (.fin n m (e - thr))
     | v => Val.le (fp64.val d).abs v)
/-- Column k + 1 from columns k − 1 and k. -/
def epsColumn (thr : Nat) (prev cur : List Eps) : List Eps :=
  (List.range (cur.length - 1)).map fun n =>
    match prev[n + 1]?.join, cur[n + 1]?.join, cur[n]?.join with
    | some p, some c1, some c0 =>
      let d := sub64b c1 c0
      if nearZero thr d c1 c0 then none else some (add64b p (rcp64b d))
    | _, _, _ => none
/-- Columns k, k + 1, … of the table. -/
def epsTable (thr : Nat) : Nat → List Eps → List Eps → List (List Eps)
  | 0, _, cur => [cur]
  | k + 1, prev, cur => cur :: epsTable thr k cur (epsColumn thr prev cur)
/-- The newest entries of the even columns below 2m, the highest column first; the first that is not singular is the fallback. -/
def epsFallback (cols : List (List Eps)) (m : Nat) : Option Nat :=
  ((List.range m).reverse.filterMap fun j => (cols[2 * j]?.bind fun c => c.getLast?.join)).head?
/-- The method's estimate, and whether it is the fallback of a singular one. -/
def epsEstimate (thr : Nat) (h : List Nat) : Nat × Bool :=
  let m := (h.length - 1) / 2
  let cols := epsTable thr (2 * m) (List.replicate (h.length + 1) (some 0)) (h.map some)
  match (cols[2 * m]?.bind fun c => c.head?).join with
  | some e => (e, false)
  | none => ((epsFallback cols m).getD fp64.nan, true)
/-- R181, newest first: `h` newest first. -/
def mixEstimate (w h : List Nat) : Nat :=
  match w, h with
  | w0 :: ws, h0 :: hs =>
    (ws.zip hs).foldl (fun acc p => rne64 (fmaV .rne (fp64.val p.1) (fp64.val p.2) (fp64.val acc)))
      (rne64 (mulV (fp64.val w0) (fp64.val h0)))
  | _, _ => fp64.nan
/-- Estimate and status of a full history, oldest first, newest `new` and before it `old` (rows 3 to 7 of R178). -/
def fullEstimate (x : Xctl) (h w : List Nat) (new old : Nat) : Nat × BitVec 4 :=
  if h.any fun e => !finite64 e then (new, 8)
  else if x.method = 0 && Val.eq (fp64.val new) (fp64.val old) then (new, 4)
  else
    let (e, sing) := if x.method = 0 then epsEstimate x.thr h else (mixEstimate w h.reverse, false)
    if !finite64 e then (new, 8) else if sing then (e, 2) else (e, 0)
/-- Every NaN that an accumulator word writes is the canonical one (R128, R167). -/
def canon64 (x : Dword) : Dword := match fp64.val x.toNat with | .nan _ => BitVec.ofNat 64 fp64.nan | _ => x
def Group.ringVal (r : Group) (x : Xctl) (L : Lane) (s : Nat) : Nat := (canon64 (r.readV64 (x.ring s) L)).toNat
def Group.estimate (r : Group) (x : Xctl) (L : Lane) : Nat × BitVec 4 :=
  if x.count = 0 then (fp64.nan, 1)
  else if x.count < x.depth then (r.ringVal x L x.newest, 1)
  else
    let h := (List.range x.depth).map fun i => r.ringVal x L (x.head + i)
    let w := (List.range x.depth).map fun j => wide (r.readS (Fin.ofNat 64 (x.wbase + j)))
    fullEstimate x h w (r.ringVal x L x.newest) (r.ringVal x L (x.newest + x.depth - 1))

/-! ### The words -/
def pairRegs (p : VReg) : List VReg := [p, vreg p 1]
/-- A word of context c, which is not malformed (see `outlaw`): `body` with the context and the lanes it may act on. DESIGN CHOICE (log 16):
those of `m` that read a poisoned register of `reads` die, as R85 says of every word, though R183 gives these words no fault but
ILLEGAL. -/
def xaBody (c : Fin 2) (m : State → Mask) (reads : Group → Xctl → Lane → List VReg)
    (body : Group → Xctl → Mask → State → State) (s : State) : State :=
  let r := s.src
  let x := r.xctl c
  let m := m s
  let sick := maskOf fun L => m.getLsbD L.val && (reads r x L).any fun v => r.regs.vpois[v].getLsbD L.val
  body r x (m &&& ~~~sick) (s.consume sick)
def xaWord (i : Instr) (c : Fin 2) (m : State → Mask) (reads : Group → Xctl → Lane → List VReg)
    (body : Group → Xctl → Mask → State → State) : State → Out :=
  issueSeq i (xaBody c m reads body)
def setHeadCount (w : Word) (head count : Nat) : Word := (w &&& 0xFF03FFFF) ||| BitVec.ofNat 32 (head * 2 ^ 18 + count * 2 ^ 21)
def State.setXactl (s : State) (c : Fin 2) (head count : Nat) : State :=
  s.setRegs fun r => { r with xactl := r.xactl.set c (setHeadCount r.xactl[c] head count) }
def State.setDstat (s : State) (c : Fin 2) (m : Mask) (f : Lane → BitVec 4) : State :=
  s.setRegs fun r => { r with dstat := r.dstat.set c (Vector.ofFn fun L => if m.getLsbD L.val then f L else r.dstat[c][L]) }
def ofBits64 (n : Nat) : Dword := BitVec.ofNat 64 n

/-- R168. -/
def execXaadd (c : Fin 2) (g : Bool) (a : VReg) : State → Out :=
  xaWord (.xaadd c g a) c (fun s => s.lanes g)
    (fun _ x _ => pairRegs (x.pair 0) ++ (if x.fmt64 then pairRegs a else [a]))
    fun r x m s => s.setV64 (x.pair 0) m fun L =>
      let term := if x.fmt64 then (r.readV64 a L).toNat else wide (r.readV a L)
      ofBits64 (add64b (r.readV64 (x.pair 0) L).toNat term)
/-- R169: every live lane of the group. -/
def execXachk (c : Fin 2) : State → Out :=
  xaWord (.xachk c) c (fun s => s.src.live) (fun _ x _ => pairRegs (x.pair 0))
    fun r x m s =>
      (s.setV64 (x.ring x.head) m fun L => canon64 (r.readV64 (x.pair 0) L)).setXactl c ((x.head + 1) % x.depth) (min (x.count + 1) x.depth)
/-- The scalars a drain reads as weights (R181). DESIGN CHOICE (log 16): it reads none while fewer than D entries stand, and waits for none
and consumes none; the spec does not say. -/
def Xctl.weights (x : Xctl) : List SReg := if x.method = 1 && x.count ≥ x.depth then regRun (Fin.ofNat 64 x.wbase) x.depth else []
/-- Registers a drain reads in its lane. -/
def Xctl.drainReads (x : Xctl) : List VReg :=
  pairRegs (x.pair 1) ++
    (if x.count = 0 then [] else if x.count < x.depth then pairRegs (x.ring x.newest)
     else (List.range x.depth).flatMap fun i => pairRegs (x.ring i))
/-- R170. -/
def State.drain (c : Fin 2) (d : VReg) (r : Group) (x : Xctl) (m : Mask) (s : State) : State :=
  let last := fun L => (r.readV64 (x.pair 1) L).toNat
  let s := s.setV64 (x.pair 2) m fun L => ofBits64 (abs64 (sub64b (r.estimate x L).1 (last L)))
  let s := s.setV64 (x.pair 1) m fun L => ofBits64 (r.estimate x L).1
  (s.setDstat c m fun L => (r.estimate x L).2).setV64 d m fun L => ofBits64 (r.estimate x L).1
def execXadrn (c : Fin 2) (g : Bool) (d : VReg) : State → Out :=
  issueSeq (.xadrn c g d) fun s =>
    let r := s.src
    let ws := regBits (r.xctl c).weights
    if r.regs.pending &&& ws ≠ 0 then s.stallNow
    else if r.regs.spois &&& ws ≠ 0 then s.consumeScalars (r.regs.spois &&& ws)
    else xaBody c (fun s => s.lanes g) (fun _ x _ => x.drainReads) (fun r x m s => s.drain c d r x m) s
/-- R171. -/
def execXatst (c : Fin 2) (g : Bool) (d : PReg) (b : VSrc) : State → Out :=
  xaWord (.xatst c g d b) c (fun s => s.lanes g) (fun _ x _ => pairRegs (x.pair 2) ++ b.regs)
    fun r x m s => s.setP d m fun L =>
      if r.regs.dstat[c][L] &&& 0b1011 ≠ 0 then .u
      else pof (Val.le (fp64.val (r.readV64 (x.pair 2) L).toNat) (fp32.val (r.vb b L).toNat) && x.count = x.depth)
/-- R172. -/
def execXaclr (c : Fin 2) : State → Out :=
  xaWord (.xaclr c) c (fun s => s.src.live) (fun _ _ _ => [])
    fun _ x m s =>
      let s := (s.setV64 (x.pair 0) m fun _ => 0).setV64 (x.pair 1) m fun _ => ofBits64 fp64.nan
      ((s.setV64 (x.pair 2) m fun _ => ofBits64 fp64.infBits).setDstat c m fun _ => 1).setXactl c 0 0
/-- The pair that selector k names (R172): none past the entries filled. -/
def Xctl.select (x : Xctl) (k : Nat) : Option VReg :=
  if k < 3 then some (x.pair k) else if k ≥ 3 + x.count then none else some (x.ring (x.newest + x.depth - (k - 3)))
def execXard (c : Fin 2) (g : Bool) (d : VReg) (b : VSrc) : State → Out :=
  xaWord (.xard c g d b) c (fun s => s.lanes g)
    (fun r x L => b.regs ++ (match x.select (wbits (r.vb b L) 3 0) with | some p => pairRegs p | none => []))
    fun r x m s => s.setV64 d m fun L =>
      match x.select (wbits (r.vb b L) 3 0) with
      | some p => canon64 (r.readV64 p L)
      | none => ofBits64 fp64.nan
def execXastat (c : Fin 2) (g : Bool) (d : VReg) : State → Out :=
  xaWord (.xastat c g d) c (fun s => s.lanes g) (fun _ _ _ => [])
    fun r _ m s => s.setV d m fun L => r.regs.dstat[c][L].setWidth 32

end
end Sys2Proof.Machine
end

