-- ==== Sys2Proof/Machine/System.lean ====
section
/-!
DEFINITION. Machine/System.lean: majors 0x3B and 0x3C: control and status registers, the extended block, traps and their return,
halts and fault records (R16, R29-R32, R118-R121).
-/
namespace Sys2Proof.Machine
noncomputable section

/-! ### Control and status registers (R30, R31, R118, R119) -/
/-- DIVSP points past the records of entries beyond the eight held in hardware (R69). -/
def Group.divspNow (g : Group) : Dword := g.divsp + BitVec.ofNat 64 (48 * (g.depth - 8))
/-- The groups of a workgroup that have not retired: the rotation of R185. -/
def State.rotationOf (s : State) (w : Workgroup) : List Group :=
  s.allGroups.filter fun g => g.wid = w.wid && g.gid ≠ 0 && g.status ≠ .retired
/-- The next GIDX of a rotation after k, else the lowest. -/
def nextAfter (live : List Nat) (k : Nat) : Nat :=
  match live.filter fun j => k < j with
  | [] => live.foldl min (live.headD k)
  | a :: as => as.foldl min a
/-- The GIDX that the current turn falls to: the rotation pointer, or the next group where that one has retired (R185, R186). -/
def State.turnGidx (s : State) (w : Workgroup) : Nat :=
  let live := (s.rotationOf w).map (·.gidx)
  if live.contains w.rotation then w.rotation else nextAfter live w.rotation
/-- Group slot of the group that holds the turn (R185). -/
def State.turnSlot (s : State) : Nat :=
  match s.allGroups.find? fun g => g.wid = s.w.wid && g.gidx = s.turnGidx s.w && g.gid ≠ 0 with
  | some g => g.gslot.val
  | none => 0
/-- The 64-bit count that CYCLE reads: RETIRED in deterministic issue mode (R119, R188). -/
def State.cycleNow (s : State) : Dword := if stageDet s.myStage then s.src.regs.retired else s.cycle
/-- A CSR of the issuing group, as the registers `r` hold it; 0 for a number not listed. -/
def State.csr (s : State) (r : Group) (n : Nat) : Word :=
  match n with
  | 0x000 => r.regs.fmode
  | 0x001 => r.regs.fstat
  | 0x002 => r.regs.guard
  | 0x003 => r.regs.trapcfg
  | 0x004 => r.regs.trapvec
  | 0x005 => r.regs.trappc
  | 0x006 => r.regs.trapcause
  | 0x008 => maskWord r.faultm 0
  | 0x009 => maskWord r.faultm 1
  | 0x00A => maskWord r.faultm 2
  | 0x00B => maskWord r.dead 0
  | 0x00C => maskWord r.dead 1
  | 0x00D => maskWord r.dead 2
  | 0x010 => pairLo r.divspNow
  | 0x011 => pairHi r.divspNow
  | 0x012 => BitVec.ofNat 32 r.depth
  | 0x020 => r.regs.lc[0]
  | 0x021 => r.regs.lc[1]
  | 0x022 => r.regs.lc[2]
  | 0x023 => r.regs.lstart[0]
  | 0x024 => r.regs.lstart[1]
  | 0x025 => r.regs.lstart[2]
  | 0x026 => r.regs.lend[0]
  | 0x027 => r.regs.lend[1]
  | 0x028 => r.regs.lend[2]
  | 0x029 => r.regs.lactive.setWidth 32
  | 0x030 => r.regs.xactl[0]
  | 0x031 => r.regs.xactl[1]
  | 0x038 => pairLo s.cycleNow
  | 0x039 => pairHi s.cycleNow
  | 0x03A => pairLo r.regs.retired
  | 0x03B => pairHi r.regs.retired
  | 0x040 => BitVec.ofNat 32 r.gidx
  | 0x041 => s.w.x
  | 0x042 => s.w.y
  | 0x043 => s.w.z
  | 0x044 => BitVec.ofNat 32 s.w.rank
  | 0x045 => BitVec.ofNat 32 r.core.val
  | 0x046 => BitVec.ofNat 32 (clusterOf r.core)
  | 0x047 => BitVec.ofNat 32 (dieOf r.core).val
  | 0x048 => BitVec.ofNat 32 s.w.stage.val
  | 0x049 => BitVec.ofNat 32 s.w.ngroups
  | 0x050 => s.myLaunch.cmd[2]
  | 0x051 => s.myLaunch.cmd[3]
  | 0x052 => s.myLaunch.cmd[4]
  | 0x053 => s.myLaunch.cmd[5]
  | 0x054 => BitVec.ofNat 32 s.myStage.bucket
  | 0x060 => s.myLaunch.hdr[1]
  | 0x061 => s.myLaunch.hdr[2] &&& 0xFFFFF
  | 0x070 => r.regs.shdcnt
  | 0x080 => if r.regs.extb then 1 else 0
  | 0x0F0 => if stageDet s.myStage then BitVec.ofNat 32 (1 + 2 * s.turnSlot) else 0
  | _ => 0
/-- A CSR write by a word (DESIGN CHOICE, log 16: the old value that `csrs` and `csrc` read makes no capture, R119); what its partner has raised in FSTAT and SHDCNT is kept (R43). -/
def State.csrWrite (s : State) (n : Nat) (w : Word) : State :=
  s.setRegs fun r =>
    let r := r.csrSet n w
    if n = 0x001 then { r with fstat := r.fstat ||| s.latch.flags.setWidth 32 }
    else if n = 0x070 then { r with shdcnt := satInc r.shdcnt s.latch.shadows }
    else r
/-- A read, with the captures of R119. -/
def State.csrRead (s : State) (n : Nat) : Word × State :=
  let x := s.csr s.src n
  let upd := fun (f : Slot → Slot) => { s with g := { s.g with me := f s.g.me } }
  match n with
  | 0x038 => (x, upd fun k => { k with cycCap := some (pairHi s.cycleNow) })
  | 0x039 => (s.src.me.cycCap.getD x, upd fun k => { k with cycCap := none })
  | 0x03A => (x, upd fun k => { k with retCap := some (pairHi s.src.regs.retired) })
  | 0x03B => (s.src.me.retCap.getD x, upd fun k => { k with retCap := none })
  | _ => (x, s)
def execCsrr (d : SReg) (k : BitVec 13) : State → Out :=
  issueSeq (.csrr d k) fun s => let (x, t) := s.csrRead k.toNat; t.setS d x
def execCsrw (d : SReg) (k : BitVec 13) : State → Out :=
  issueSeq (.csrw d k) fun s => s.csrWrite k.toNat (s.src.readS d)
def execCsrs (d : SReg) (k : BitVec 13) : State → Out :=
  issueSeq (.csrs d k) fun s => s.csrWrite k.toNat (s.csr s.src k.toNat ||| s.src.readS d)
def execCsrc (d : SReg) (k : BitVec 13) : State → Out :=
  issueSeq (.csrc d k) fun s => s.csrWrite k.toNat (s.csr s.src k.toNat &&& ~~~s.src.readS d)
def execCsrwi (v : BitVec 6) (k : BitVec 13) : State → Out :=
  issueSeq (.csrwi v k) fun s => s.csrWrite k.toNat (v.setWidth 32)

/-! ### Spill records (R69, R70) -/
/-- Entries, oldest first. -/
def insertById (e : Entry) : List Entry → List Entry
  | [] => [e]
  | f :: fs => if e.id ≤ f.id then e :: f :: fs else f :: insertById e fs
def Group.ordered (g : Group) : List Entry := g.allEntries.foldr insertById []
def posOf (ids : List Nat) (o : Option Nat) : Nat := match o with | some i => if ids.contains i then ids.idxOf i else 255 | none => 255
def idAt (ids : List Nat) (pos : Nat) : Option Nat := ids[pos]?
def EKind.code : EKind → Nat
  | .leaf => 0
  | .split => 1
  | .call => 2
  | .trap => 3
def EKind.ofCode : Nat → EKind
  | 0 => .leaf
  | 1 => .split
  | 2 => .call
  | _ => .trap
/-- `ids`: the group's entries in creation order. -/
def Entry.words (ids : List Nat) (e : Entry) : List Word :=
  let trap := e.kind = .trap
  [ if e.kind = .leaf || e.kind = .call then e.pc else 0, e.rpc, maskWord e.emask 0, maskWord e.emask 1, maskWord e.emask 2,
    if e.kind = .leaf || e.kind = .call then maskWord e.amask 0 else 0, if e.kind = .leaf || e.kind = .call then maskWord e.amask 1 else 0,
    if e.kind = .leaf || e.kind = .call then maskWord e.amask 2 else 0,
    BitVec.ofNat 32 (e.kind.code + (if e.arr then 4 else 0) + e.ws * 16 + posOf ids e.parent * 256), BitVec.ofNat 32 e.age,
    if trap then BitVec.ofNat 32 (e.slact.toNat + posOf ids e.slot0 * 256 + posOf ids e.slot1 * 65536) else 0,
    if trap then e.cause.setWidth 32 else 0 ]
def joinMask (a b c : Word) : Mask := setMaskWord (setMaskWord (setMaskWord 0 0 a) 1 b) 2 c
/-- The entry that a record describes; what a record has no place for stays as `e` has it. A split parent's packet is its
children's rpc (R64). -/
def Entry.ofWords (ids : List Nat) (w : Nat → Word) (e : Entry) : Entry :=
  let kind := EKind.ofCode (wbits (w 8) 1 0)
  { e with
    kind := kind, pc := if kind = .leaf || kind = .call then w 0 else e.pc, rpc := w 1, emask := joinMask (w 2) (w 3) (w 4)
    amask := if kind = .leaf || kind = .call then joinMask (w 5) (w 6) (w 7) else e.amask
    arr := (w 8).getLsbD 2, ws := wbits (w 8) 5 4, parent := idAt ids (wbits (w 8) 15 8), age := wbits (w 9) 9 0
    slact := (w 10).setWidth 3, slot0 := if kind = .trap then idAt ids (wbits (w 10) 15 8) else e.slot0
    slot1 := if kind = .trap then idAt ids (wbits (w 10) 23 16) else e.slot1, cause := if kind = .trap then (w 11).setWidth 8 else e.cause }
/-- Entries not held in hardware while the group stands still: the oldest, beyond eight. -/
def Group.spilled (g : Group) : List Entry :=
  (g.ordered.filter fun e => !(g.residents.any fun r => r.id = e.id)).take (g.depth - 8)
/-- The records are in the spill area while the group is halted, parked or stopped (R69). -/
def State.spillOut (s : State) (gid : Nat) : State :=
  match s.group? gid with
  | none => s
  | some g =>
    if g.method.isSome || g.status = .ready || g.status = .retired then s
    else
      let ids := g.ordered.map (·.id)
      s.devPuts (s.groupWho g) g.divsp.toNat (g.spilled.flatMap (Entry.words ids))
/-- They are brought back when it goes on: a debugger may have written them; dead and exited lanes stay out (R86). -/
def State.spillIn (s : State) (gid : Nat) : State :=
  match s.group? gid with
  | none => s
  | some g =>
    if g.method.isSome then s
    else
      let who := s.groupWho g
      let ids := g.ordered.map (·.id)
      let s := s.devSee who g.divsp.toNat (48 * g.spilled.length)
      let l := g.spilled.zipIdx.map fun e => e.1.ofWords ids (fun k => s.devWord who (g.divsp.toNat + 48 * e.2 + 4 * k))
      s.updGroup gid fun g => { g with entries := g.entries.map fun e => ((l.find? fun x => x.id = e.id).getD e).strip (g.dead ||| g.exited) }

/-! ### The extended block (R26-R29) -/
/-- Another group of the SIMD unit waits in `vgrow`. -/
def State.othersGrow (s : State) : Bool := (s.onUnit s.g.core s.g.simd).any fun g => g.gid ≠ s.g.gid && g.growing
def execVgrow : State → Out :=
  issueSeq .vgrow fun s =>
    if s.g.regs.extb then s
    else if s.myWait ≠ .grow && s.freeBlocks s.g.core s.g.simd ≥ 1 && !s.othersGrow then s.setRegs Regs.grow
    else s.waitFor .grow
def execVgrowTry (d : SReg) : State → Out :=
  issueSeq (.vgrowTry d) fun s =>
    if s.g.regs.extb then s.setS d 1
    else if !(s.onUnit s.g.core s.g.simd).any Group.growing && s.freeBlocks s.g.core s.g.simd ≥ 2 then (s.setRegs Regs.grow).setS d 1
    else s.setS d 0
/-- An issued word may still read or write the extended block: the other slot's, a live read, a parked word (R29). -/
def Group.usesBlock (g : Group) : Bool := g.mateBusy || !g.parked.isEmpty
def execVshrink : State → Out :=
  issueSeq .vshrink fun s =>
    if !s.g.regs.extb then s
    else if s.g.usesBlock then s.waitFor .shrink
    else (s.setRegs fun r => { r with extb := false }).wake

/-! ### Traps (R120, R121) -/
def execTrap (n : BitVec 13) : State → Out :=
  issueCtl (.trap n) fun s => s.softTrap (0x10 ||| (n.setWidth 32 <<< 16))
def execTret : State → Out :=
  issueCtl .tret fun s =>
    match s.g.tretTrap with
    | none => s.illegalCtl
    | some t => { s with g := s.g.leaveTrap t s.fresh }.regrow none
def execLkill : State → Out :=
  issue .lkill fun s =>
    let m := s.lanes false
    if s.latch.first || s.latch.snap.isSome then { s with latch := { s.latch with dying := s.latch.dying ||| m } }.advance 1
    else
      let t := s.kill m
      if t.myId = s.myId && t.g.status ≠ .retired then t.advance 1 else t
def execHalt (n : BitVec 13) : State → Out :=
  issueCtl (.halt n) fun s =>
    let t := s.leave
    { t with latch := { t.latch with halting := some (s.ipc, n.setWidth 32) } }
/-- R49: POOL on every active lane and nothing else, in a method group too; the slot goes on at the next packet. -/
def execPoolGuard (_ : BitVec 25) : State → Out := fun s =>
  if s.canIssue then .next ((s.raise 0x02 (s.lanes false)).leave.closeIssue) else .next s
/-- R16: the oldest unread record, or zeros and every lost fault acknowledged. -/
def execFrec (d : SReg) : State → Out :=
  issueSeq (.frec d) fun s =>
    match s.src.records with
    | r :: _ => { s with g := { s.g with records := s.g.records.tail } }.setSs d r.toList
    | [] => { s with g := { s.g with lost := s.g.lost &&& ~~~s.src.lost } }.setSs d (List.replicate 8 0)

end
end Sys2Proof.Machine
end

