-- ==== Sys2Proof/Machine/Agents.lean ====
section
/-!
DEFINITION. Machine/Agents.lean: the steps of the issue logic that no word encodes: words and packets that are not instructions,
forced leaves, trap entry and halt, replays, the ends of waits, turns and boosts (R27-R29, R41, R47, R48, R67, R68, R79-R83, R110,
R117, R185, R186, R272).
-/
namespace Sys2Proof.Machine
noncomputable section

/-- The word at the issuing slot is ILLEGAL (R47). -/
def execIllegalWord : State → Out := fun s => if s.canIssue then .next (s.illegalWord s.latch.len) else .next s
/-- The packet at the issuing slot is illegal, word `k` offending first (R48): ILLEGAL once on each active lane, nothing else,
and on to the next packet. -/
def execIllegalPacket (k : Fin 3) : State → Out := fun s =>
  if s.canIssue then
    let s' := { s with latch := { s.latch with ipc := some (s.g.pc * 4 + BitVec.ofNat 32 k.val) } }
    let t := s'.raise 0x01 (s.lanes false)
    .next { t with latch := { t.latch with ipc := none } }.leave.closeIssue
  else .next s
/-- A fetch fault (R41): the cause on every active lane, no word issues, and on to the next packet. DEDUCED (log 4): a packet that reaches
the slot as poison is consumed by every active lane (R85), since the spec names no fault for it. -/
def State.fetchFault (s : State) (cause : Byte) : State :=
  (if cause = 0x0D then s.consume (s.lanes false) else s.raise cause (s.lanes false)).leave.closeIssue
/-- XN, or PAGE for a page that the host has declared fatal. -/
def execFetchFault (fatal : Bool) : State → Out := fun s =>
  if s.canIssue then .next (s.fetchFault (if fatal then 0x08 else 0x07)) else .next s

/-- A suspended leaf whose age counter has reached 512 takes the slot of the leaf that has been resident longest (R68). DESIGN CHOICE (log
16): slot 0's leaf where both have been resident equally long, as after a split; the spec does not say. -/
def Group.force (g : Group) (now : Nat) : Group :=
  match oldest g.waiting with
  | none => g
  | some w =>
    if w.age < 512 then g
    else
      let k : Fin 2 := if (g.slot 1).since < (g.slot 0).since then 1 else 0
      ((g.select k).swapIn now).select g.sel
/-- It happens at an issue opportunity of the group, which in deterministic issue mode is the end of its turn (see `closeTurn`). -/
def execAgeForce (gid : Nat) : State → Out := fun s =>
  match s.group? gid with
  | none => .next s
  | some g => if g.status = .ready && !stageDet (s.stageOf g) then .next (s.updGroup gid fun g => g.force s.fresh) else .next s
/-- R67, R68: at an issue opportunity of the group every unblocked suspended leaf ages by one, up to the field's 10 bits. -/
def Group.age (g : Group) : Group :=
  { g with entries := g.entries.map fun e => if g.waiting.any (fun w => w.id = e.id) then { e with age := min 1023 (e.age + 1) } else e }

/-- The issuing group enters its handler (R83), or, inside one, halts with DOUBLE (R80). -/
def execTrapEntry (cause : Byte) (pc : Word) : State → Out := fun s =>
  if s.g.status = .retired || s.g.gone || s.g.busy then .next s
  else if s.g.openTrap.isSome then .next (s.doubleFault pc (causeWord cause))
  else .next (s.enterTrap pc (causeWord cause))
/-- A group halts for the word `code.1` once the words it has issued are complete (R79). -/
def execGroupHalt (gid : Nat) (code : Word × Word) : State → Out := fun s =>
  match s.group? gid with
  | none => .next s
  | some g => if g.status = .ready && !g.busy then .next (((s.focus gid g.sel).haltFor code.1 code.2).spillOut gid) else .next s

/-- R82: every page of the parked words is resolved or declared fatal: the group is ready, and its replay runs (see
`replayParked`). -/
def execPageFaultReplay (gid : Nat) : State → Out := fun s =>
  match s.group? gid with
  | none => .next s
  | some g =>
    if g.status = .parked && g.parked.all (fun p => p.parts.all fun r => r.state ≠ 0) then
      .next ((s.spillIn gid).updGroup gid fun g => { g with status := .ready })
    else .next s

/-- The wait `w` of the leaf in a slot is over: its word goes on when it is tried again. -/
def Entry.endWait (w : Wait) (l : Entry) : Entry :=
  let f := fun (x : Wait) => if x = w then (if w = .ticket then .ticketed else .granted) else x
  { l with wait := f l.wait, wait2 := f l.wait2 }
def Slot.endWait (w : Wait) (x : Slot) : Slot := { x with leaf := x.leaf.map (Entry.endWait w) }
def State.endWait (s : State) (gid : Nat) (k : Fin 2) (w : Wait) : State :=
  (s.updGroup gid fun g => g.setSlot k ((g.slot k).endWait w)).wake
/-- `sleep` ends (R117). -/
def execSleepExpiry (gid : Nat) (k : Fin 2) : State → Out := fun s => .next (s.endWait gid k .sleep)
/-- The 16 cycles of `yield` are over (R110). -/
def execYieldPassEnd (gid : Nat) : State → Out := fun s => .next (s.updGroup gid fun g => { g with passed := false })
/-- A group ready and unissued for 256 cycles goes first (R272). -/
def execIssueBoost (gid : Nat) : State → Out := fun s => .next (s.updGroup gid fun g => { g with boost := true })
/-- The turn moves on from the group that has it, to the next GIDX that has not retired (R185). -/
def State.passTurn (s : State) : State :=
  { s with w := { s.w with rotation := nextAfter ((s.rotationOf s.w).map (·.gidx)) s.g.gidx } }
/-- A turn is spent without an issue; the other slot issues in the group's next turn (R186). -/
def execTurnPass : State → Out := fun s =>
  if stageDet s.myStage then .next { s.passTurn with g := { s.g with turn := 1 - s.g.turn } } else .next s

/-- The slot of a group whose word waits for `w`, slot 0 first. -/
def Group.waitingSlot (g : Group) (w : Wait) : Fin 2 := if (g.slot 0).leaf.any (Entry.waitsIn (· = w)) then 0 else 1
/-- A free block goes to the oldest waiting group of the SIMD unit (R27). A slot of a group that holds the block already waits for none:
its `vgrow` has no effect (R29). -/
def execVgrowGrant (core : CoreId) (simd : Fin 4) : State → Out := fun s =>
  match (s.onUnit core simd).find? fun g => g.regs.extb && g.waitsIn fun w => w = .grow with
  | some g => .next (s.endWait g.gid (g.waitingSlot .grow) .grow)
  | none =>
    if s.freeBlocks core simd = 0 then .next s
    else
      match (s.onUnit core simd).filter Group.growing with
      | [] => .next s
      | g :: gs =>
        let o := gs.foldl (fun a b => if b.admitted < a.admitted then b else a) g
        .next ((s.updGroup o.gid fun g => { g with regs := g.regs.grow }).endWait o.gid (o.waitingSlot .grow) .grow)
/-- The block of a waiting `vshrink` is released once no issued access to v32-v63 is open (R29). -/
def execVshrinkRelease (gid : Nat) : State → Out := fun s =>
  match s.group? gid with
  | none => .next s
  | some g =>
    let k := g.waitingSlot .shrink
    if g.waitsIn (· = .shrink) && !(g.select k).usesBlock then
      .next ((s.updGroup gid fun g => { g with regs := { g.regs with extb := false } }).endWait gid k .shrink)
    else .next s

end
end Sys2Proof.Machine
end

