-- ==== Sys2Proof/Machine/Access.lean ====
section
/-!
DEFINITION. Machine/Access.lean: where a lane's memory access leads, parking, loads, stores and atomics as shared operations
(R37, R38, R76, R81, R192-R210, R241-R250).
-/
namespace Sys2Proof.Machine
noncomputable section

/-! ### Where an access leads -/
/-- A lane's access after its checks: a fault, a missing page, dropped out of bounds (R204), bytes of DRAM or caches, a remote page,
the register window, core memory. The last word is the address the lane presented. -/
inductive LRes where
  | fault (c : Byte) (va : Dword)
  | park (va : Dword) (second : Bool)
  | drop (va : Dword)
  | mem (leaf : Dword) (pa : Nat) (va : Dword)
  | remote (leaf : Dword) (va : Dword)
  | window (off : Nat) (va : Dword)
  | core (wid off : Nat) (va : Dword)
  deriving DecidableEq, Repr

/-- The pointer of the flat and scalar-base forms, and whether the sum carries out of bit 51 (R192). -/
def Group.gptr (g : Group) (ad : GAddr) (L : Lane) : Dword × Bool :=
  match ad with
  | .flat a => (g.readV64 a L, false)
  | .base s a =>
    let b := g.readS64 s
    let va := vaOf b + (g.readV a L).toNat
    ((b &&& ~~~0xFFFFFFFFFFFFF#64) ||| BitVec.ofNat 64 (va % 2 ^ 52), decide (va ≥ 2 ^ 52))
/-- What the other device answers to an access of its page (log 13): bit 0, it refuses; bit 1, the tag differs. -/
def State.answerOf (s : State) (p : Dword) : Nat := Config.choice (s.fresh * 2 ^ 64 + p.toNat)
/-- A checked pointer: the faults of R76 up to order 8. `win`: the word is one the window takes. A remote page's device may refuse the
access (R315), and compares its tag where no cache holds the line (R206; log 13); one that does not answer does neither. -/
def State.resolve (s : State) (p : Dword) (n : Nat) (m : Ask) (win : Bool) (L : Option Lane) : LRes :=
  match s.access s.me p n m with
  | .ok leaf pa _ => .mem leaf pa p
  | .fault c => .fault c p
  | .park second => .park p second
  | .remote leaf =>
    let held := (s.heldLine s.me (vaOf p)).isSome
    if (held && !m.write) || s.farLost s.me leaf L then .remote leaf p
    else if s.answerOf p % 2 = 1 then .fault 0x06 p
    else if !held && m.tags && leafTagged leaf && s.answerOf p / 2 % 2 = 1 then .fault 0x05 p
    else .remote leaf p
  | .window off => if win && (s.window? s.myCtx off m.write).isSome then .window off p else .fault 0x06 p
/-- A lane whose page the host declared fatal raises PAGE in the replay, whether or not the page is mapped by now (R82). -/
def State.orFatal (s : State) (L : Lane) (p : Dword) (r : LRes) : LRes :=
  if s.latch.fatal.getLsbD L.val && s.latch.fatalAt.contains (vaOf p / 65536) then .fault 0x08 p else r
def State.resolveG (s : State) (ad : GAddr) (n : Nat) (m : Ask) (win : Bool) (L : Lane) : LRes :=
  let (p, carry) := s.src.gptr ad L
  if carry then .fault 0x06 p else s.orFatal L p (s.resolve p n m win L)
/-- The buffer form (R204). -/
def State.resolveB (s : State) (ad : BAddr) (n : Nat) (m : Ask) (L : Lane) : LRes :=
  let g := s.src
  let w1 := g.readS (sreg ad.s 1)
  let stride := (g.readS (sreg ad.s 3)).toNat
  let o := if stride = 0 then (g.readV ad.a L).toNat else (g.readV ad.a L).toNat * stride
  let va := (g.readS ad.s).toNat + wbits w1 19 0 * 2 ^ 32 + o
  let p : Dword := BitVec.ofNat 64 (va % 2 ^ 52 + wbits w1 27 24 * 2 ^ 56)
  if wbits w1 23 20 ≠ 0 || wbits w1 31 29 ≠ 0 || va ≥ windowBase then .fault 0x06 p
  else if va % n ≠ 0 then .fault 0x03 p
  else if o + n > (g.readS (sreg ad.s 2)).toNat then (if w1.getLsbD 28 then .drop p else .fault 0x04 p)
  else s.orFatal L p (s.resolve p n m false L)
/-- The core-memory form (R205). -/
def State.resolveC (s : State) (ad : CAddr) (n : Nat) (L : Lane) : LRes :=
  let a := (if ad.s.val = 63 then 0 else s.src.readS ad.s) + s.src.readV ad.a L
  match s.cmPlace s.w a n with
  | .error c => .fault c (a.setWidth 64)
  | .ok (wid, off) => .core wid off (a.setWidth 64)

/-! ### Parking (R81, R311) -/
/-- Lanes of one page join; the pointer is the lowest lane's. -/
def addPark (write : Bool) (L : Lane) (va : Dword) (second : Bool) : List Replay → List Replay
  | [] => [{ page := vaOf va / 65536, ptr := va, lanes := 1#96 <<< L.val, write := write, fetch := false, second := second }]
  | r :: rs =>
    if r.page = vaOf va / 65536 then { r with lanes := r.lanes ||| (1#96 <<< L.val) } :: rs else r :: addPark write L va second rs
def parksOf (write : Bool) (m : Mask) (r : Lane → LRes) : List Replay :=
  (lanesOf m).foldl (fun l L => match r L with | .park va second => addPark write L va second l | _ => l) []
def pageCode (r : Replay) : Word :=
  BitVec.ofNat 32 ((if r.write then 1 else 0) + (if r.fetch then 2 else 0) + (if r.second then 4 else 0))
/-- A page fault of the issuing group takes a reply tag and posts its event. -/
def State.postPage (s : State) (ipc : Word) (r : Replay) : State × Replay :=
  let tag := s.host.nextTag
  let s := { s with host := { s.host with nextTag := tag + 1 } }
  let e : Event := { kind := 1, part := ctxPart (s.ctxDesc s.myCtx), ctx := BitVec.ofNat 32 s.myCtx, va := r.ptr
                     place := placeOf s.g s.myCtx, ipc := ipc, code := pageCode r, rtag := tag }
  (s.postEvent e, { r with tag := tag })
def State.postPages (s : State) (ipc : Word) : List Replay → State × List Replay
  | [] => (s, [])
  | r :: rs =>
    let (s, r) := s.postPage ipc r
    let (s, rs) := s.postPages ipc rs
    (s, r :: rs)
/-- The group parks at its word, which keeps the registers it read. -/
def State.parkOn (s : State) (i : Instr) (l : List Replay) : State :=
  if l.isEmpty then s
  else
    let src := s.src
    let ipc := s.ipc
    let (t, parts) := s.postPages ipc l
    { t with g := { t.g with
        status := .parked
        parked := t.g.parked ++ [{ instr := i, slot := s.g.sel, ipc := ipc, regs := src.regs, leaf := src.me.leaf.getD {}, depth := s.depthNow, no := s.noNow, parts := parts }] } }

/-! ### Values -/
/-- The registers of a halted or running group as the window shows them (R37). DESIGN CHOICE (log 18): a predicate that nothing has written
shows its two bits 11, as R37 says, though R22 and R150 read it as undecided everywhere. -/
def State.winRead (s : State) (g : Group) (x : Win) : Word :=
  match x.cls with
  | 0 => g.readV (Fin.ofNat 64 x.reg) (Fin.ofNat 96 x.lane)
  | 1 => (g.select 0).readS (Fin.ofNat 64 x.reg)
  | 2 => (pBits (g.readP (Fin.ofNat 8 x.reg) (Fin.ofNat 96 x.lane))).setWidth 32
  | _ => let t := { s with latch := {} }.focus g.gid g.sel; t.csr t.g x.csr
def winPoison (g : Group) (x : Win) : Bool :=
  match x.cls with
  | 0 => g.regs.vpois[Fin.ofNat 64 x.reg].getLsbD x.lane
  | 1 => g.regs.spois.getLsbD x.reg
  | _ => false
/-- The issuing group's held store to a window offset (R36). -/
def State.heldWin (s : State) (off : Nat) : Option Word :=
  ((s.core? s.g.core).commit.reverse.find? fun h => h.gid = s.g.gid && h.win = some off).map fun h => BitVec.ofNat 32 (leNat h.bytes)
/-- What an access by `who` returns. -/
def State.valAs (s : State) (who : Who) (n : Nat) (r : LRes) : Nat :=
  match r with
  | .mem leaf pa va => leNat (s.readOr who (vaOf va) (s.view who leaf pa (vaOf va) n))
  | .core wid off _ => leNat (s.cmRead wid off n)
  | .window off _ => match s.window? s.myCtx off false with
    | some g => ((s.heldWin off).getD (s.winRead g (winOf off))).toNat
    | none => 0
  | .remote leaf va => leNat (s.view who leaf 0 (vaOf va) n)
  | _ => 0
/-- What a lane's load returns. -/
def State.loadVal (s : State) (n : Nat) (r : LRes) : Nat := s.valAs s.me n r
/-- One of the bytes that an access reads, none of the accessor's own held ones, is poisoned (R302), or its granule met an uncorrectable
error on the way (R303); a remote access without an answer gets poison (R315). -/
def State.datumPoison (s : State) (who : Who) (hurt : List Nat) (n : Nat) (L : Option Lane) (r : LRes) : Bool :=
  match r with
  | .mem _ pa va => (List.range n).any fun k =>
      s.sick who (pa + k) (vaOf va + k) || (hurt.contains (pa / 32) && (s.heldByte who (vaOf va + k)).isNone)
  | .core wid off _ => s.cmPoisoned wid off n
  | .window off _ => match s.window? s.myCtx off false with | some g => (s.heldWin off).isNone && winPoison g (winOf off) | none => false
  | .remote leaf va => ((List.range n).any fun k => (s.heldByte who (vaOf va + k)).isNone) && (s.heldLine who (vaOf va)).isNone &&
      s.farLost who leaf L
  | _ => false
/-! ### What a load may still see (R214) -/
/-- The leaf that issues. -/
def State.myLeaf (s : State) : Nat × Nat := (s.g.gid, (s.src.me.leaf.map (·.id)).getD 0)
/-- The bytes at `a` of core memory of `wid`, or of the address space of `who`, stand in the same 16 bytes as those the store replaced. -/
def Past.near (wid : Nat) (who : Who) (a : Nat) (x : Past) : Bool :=
  x.wid = wid && (wid ≠ 0 || (x.part = who.part && x.asid = who.asid)) && x.at_ / 16 = a / 16
/-- Where an access lies as a place of `Past`: memory of this device alone. -/
def LRes.pastAt : LRes → Option (Nat × Nat)
  | .mem _ _ va => some (0, vaOf va)
  | .core wid off _ => some (wid, off)
  | _ => none
/-- What stores have replaced in an access's 16 bytes, oldest first. -/
def State.pastOf (s : State) (r : LRes) : List Past :=
  match r.pastAt with
  | some (wid, a) => s.past.filter (Past.near wid s.me a)
  | none => []
/-- The leaf may read what the store has replaced: it has not come after that store, and no older copy answers it. -/
def State.mayUndo (s : State) (r : LRes) (x : Past) : Bool :=
  x.may.contains s.myLeaf && (x.core = s.g.core || match r with
    | .mem _ _ va => (s.l1Line s.me (vaOf va)).isNone && (s.rlcLine s.me (vaOf va)).isNone
    | _ => true)
/-- FREE VALUE (log 4): the point, among the stores to its 16 bytes, that a load reads at: behind every store that must be visible to it.
None: it reads what is there, as every load does in deterministic issue mode or where its group holds stores of its own there. -/
def State.pastFrom (s : State) (r : LRes) : Option Nat :=
  match r.pastAt with
  | none => none
  | some (_, a) =>
    let l := s.pastOf r
    let own := match r with | .mem _ _ _ => (List.range 16).any fun k => (s.heldByte s.me (a / 16 * 16 + k)).isSome | _ => false
    if l.isEmpty || own || s.detGroup s.g then none
    else
      let old := (l.reverse.takeWhile (s.mayUndo r)).length
      some (l.length - s.free 11 (a / 16) % (old + 1))
/-- The bytes of a datum at `a` with the stores `l`, oldest first, undone. -/
def undo (a : Nat) (l : List Past) (bs : List Byte) : List Byte :=
  l.reverse.foldl (fun bs x => bs.zipIdx.map fun b => if x.at_ ≤ a + b.2 then (x.old[a + b.2 - x.at_]?).getD b.1 else b.1) bs
/-- What a lane's load returns: one of the values that R214 allows. -/
def State.seenVal (s : State) (n : Nat) (r : LRes) : Nat :=
  match r.pastAt, s.pastFrom r with
  | some (_, a), some j => leNat (undo a ((s.pastOf r).drop j) (leBytes n (s.loadVal n r)))
  | _, _ => s.loadVal n r
def Past.seenBy (leaf : Nat × Nat) (x : Past) : Past := { x with may := x.may.filter fun y => y ≠ leaf }
/-- What the stores have replaced no longer matters once no leaf may read it. -/
def State.prunePast (s : State) : State := { s with past := s.past.filter fun x => !x.may.isEmpty }
/-- The leaf has read at point `j`, or what is there: it no longer reads what an older store has replaced. -/
def State.sawPast (s : State) (j : Option Nat) (r : LRes) : State :=
  match r.pastAt with
  | none => s
  | some (wid, a) =>
    let l := s.pastOf r
    let old := l.take (j.getD l.length)
    { s with past := s.past.map fun (x : Past) => if x.near wid s.me a && old.contains x then x.seenBy s.myLeaf else x }.prunePast
/-- The leaves that need not see a store of the issuing leaf at once: those of other slots and groups, of its own core alone where the core
or its die holds a copy, whose bytes another core need not have seen; none where a byte it replaces is poisoned. -/
def State.lateFor (s : State) (n : Nat) (r : LRes) : List (Nat × Nat) :=
  let copied := match r with | .mem _ _ va => (s.l1Line s.me (vaOf va)).isSome || (s.rlcLine s.me (vaOf va)).isSome | _ => false
  let all := (s.allGroups.filter fun g => g.gid ≠ 0 && !s.detGroup g && (!copied || g.core = s.g.core)).flatMap fun g =>
    g.residents.map fun e => (g.gid, e.id)
  if s.g.region = .trans || s.detGroup s.g || s.datumPoison s.me [] n none r then [] else all.filter fun y => y ≠ s.myLeaf
/-- A store is about to replace `n` bytes: the leaf comes after every store there, and other leaves may still read them. -/
def State.keepPast (s : State) (n : Nat) (r : LRes) : State :=
  match r.pastAt with
  | none => s
  | some (wid, a) =>
    let t := s.sawPast none r
    let may := s.lateFor n r
    if may.isEmpty then t
    else { t with past := t.past ++ [{ wid := wid, part := s.me.part, asid := s.me.asid, at_ := a, old := leBytes n (s.loadVal n r), core := s.g.core, may := may }] }

/-- The access reaches its place. -/
def LRes.reaches : LRes → Bool
  | .mem _ _ _ | .remote _ _ | .window _ _ | .core _ _ _ => true
  | _ => false
def LRes.va : LRes → Dword
  | .fault _ va | .park va _ | .drop va | .mem _ _ va | .remote _ va | .window _ va | .core _ _ va => va
def LRes.isDrop : LRes → Bool
  | .drop _ => true
  | _ => false

/-! ### Acquires (R211, R242) -/
def scopeLevel : Scope → Nat
  | .core => 0
  | .cluster => 1
  | .device | .domain => 2
def memLevel : MemMod → Nat
  | .ordered k => scopeLevel k
  | _ => 0
/-- What an acquire drops: on core memory its scope is CORE whatever MOD says, CLUSTER for another gang member's (R211, R244). -/
def State.widened (s : State) (ordered : Bool) (level : Nat) (r : Lane → LRes) (ls : List Lane) : Nat :=
  if ls.any (fun L => match r L with | .core _ _ _ => true | _ => false) then
    (if ordered && ls.any (fun L => match r L with | .core wid _ _ => wid ≠ s.g.wid | _ => false) then 1 else 0)
  else level

/-! ### Loads (R243, R244) -/
/-- The SUBs of a load. -/
inductive LdKind where
  | n8 | s8 | n16 | s16 | w32 | w64 | w128 | iv
  deriving DecidableEq, Repr
def LdKind.size : LdKind → Nat
  | .n8 | .s8 => 1
  | .n16 | .s16 => 2
  | .w32 => 4
  | .w64 | .iv => 8
  | .w128 => 16
def LdKind.regs : LdKind → Nat
  | .w64 | .iv => 2
  | .w128 => 4
  | _ => 1
def LdKind.extend (k : LdKind) (x : Nat) : BitVec 128 :=
  match k with
  | .s8 => ((BitVec.ofNat 8 x).signExtend 32).setWidth 128
  | .s16 => ((BitVec.ofNat 16 x).signExtend 32).setWidth 128
  | _ => BitVec.ofNat 128 x
/-- R143 on an FP32 interval of 8 bytes. -/
def badIv (x : Nat) : Bool := ({ lo := x % 2 ^ 32, hi := x / 2 ^ 32 } : Iv).kind fp32 = .malformed
/-- Words 0 to k − 1 of a lane's value go to consecutive registers. -/
def State.setVs (s : State) (d : VReg) (m : Mask) (f : Lane → BitVec 128) : Nat → State
  | 0 => s
  | k + 1 => (s.setVs d m f k).setV (vreg d k) m fun L => (f L >>> (32 * k)).setWidth 32
/-- R199's column of a word's MOD. -/
def memPol : MemMod → Pol
  | .stream => .stream
  | .bypass => .bypass
  | _ => .normal
/-- Where the bytes an access read leave their line. -/
def State.fillFor (n deep : Nat) (pol : Pol) (r : Lane → LRes) (s : State) (L : Lane) : State :=
  match r L with
  | .mem leaf pa va => s.fill s.me leaf pa (vaOf va) deep pol
  | .remote leaf va => if s.farLost s.me leaf (some L) then s else s.fillFar s.me leaf (vaOf va) (touches (vaOf va) n) (tagOfPtr va) deep pol
  | _ => s
/-- The word's accesses pass over L1 where its MOD says so. -/
def State.withMod (s : State) (m : MemMod) : State := { s with latch := { s.latch with bypass := memPol m = .bypass } }
def State.countDrops (s : State) (m : Mask) (r : Lane → LRes) : State :=
  let n := ((lanesOf m).filter fun L => (r L).isDrop).length
  if n = 0 then s else s.countPart (s.me).part 22 n
/-- The fault a loading lane takes, with its address, in the order of R76; `sick` lanes read a poisoned register. -/
def State.loadFault (s : State) (hurt : List Nat) (k : LdKind) (sick : Mask) (r : Lane → LRes) (L : Lane) : Option (Byte × Dword) :=
  match r L with
  | .fault c va => some (c, va)
  | .park _ _ => none
  | x =>
    if sick.getLsbD L.val || s.datumPoison s.me hurt k.size L x then some (0x0D, x.va)
    else if k = .iv && x.reaches && badIv (s.seenVal k.size x) then some (0x0A, x.va)
    else none
/-- A load: every lane reads the state as the word found it, so lanes read one value per location (R210); then the lines they read are
kept as R199 says. -/
def loadBody (i : Instr) (k : LdKind) (m : MemMod) (guarded : Bool) (d : VReg) (res : State → Lane → LRes) (s0 : State) : State :=
  let s := s0.withMod m
  let lanes := s.lanes guarded
  let sick := s.src.poisonIn i.names.vr lanes
  let r := res s
  let s1 := (lanesOf (lanes &&& ~~~sick)).foldl (State.fillFor k.size 3 (memPol m) r) s
  let fault := s.loadFault s1.latch.hurt k sick r
  let ok := maskOf fun L => lanes.getLsbD L.val && (fault L).isNone && ((r L).reaches || (r L).isDrop)
  let t := s1.raiseEach lanes fault
  let t := t.setVs d ok (fun L => k.extend (s.seenVal k.size (r L))) k.regs
  let t := t.countDrops lanes r
  let t := if (lanesOf ok).any fun L => (r L).reaches then t.dropCopies (s.widened (memOrders m) (memLevel m) r (lanesOf ok)) else t
  let t := (lanesOf ok).foldl (fun t L => t.sawPast (s.pastFrom (r L)) (r L)) t
  (t.withMod .relaxed).parkOn i (parksOf false lanes r)
def loadWord (i : Instr) (k : LdKind) (m : MemMod) (guarded : Bool) (d : VReg) (res : State → Lane → LRes) : State → Out :=
  issueSeq i (loadBody i k m guarded d res)

/-! ### Stores (R245, R246) -/
/-- A store held in the commit buffer (R36); one that would overflow it commits it first. DESIGN CHOICE (log 16): each held store takes
room for its bytes, also where they lie over bytes already held, since R36 does not say how stores fill the buffer. -/
def State.hold (s : State) (leaf : Dword) (pa : Nat) (va : Dword) (pol : Pol) (win : Option Nat) (bs : List Byte) : State :=
  let used := ((s.core? s.g.core).commit.map fun h => h.bytes.length).sum
  let s := if used + bs.length > Config.commitBytes then s.commitCore s.g.core else s
  let who := s.me
  s.updCore s.g.core fun c => { c with
    commit := c.commit ++ [{ gid := s.g.gid, part := who.part, asid := who.asid, ctx := who.ctx, va := vaOf va, leaf := leaf, pa := pa
                             pol := pol, win := win, bytes := bs }] }
/-- One lane's bytes are stored: held inside a transactional region, where they are global. -/
def State.storeAt (pol : Pol) (s : State) (r : LRes) (bs : List Byte) : State :=
  let trans := s.g.region = .trans
  match r with
  | .mem leaf pa va =>
    let bs := s.writeOr s.me (vaOf va) bs
    if trans then s.hold leaf pa va pol none bs else s.putBytes s.me leaf pa (vaOf va) pol bs
  | .core wid off _ => s.cmWrite wid off bs
  | .window off va =>
    if trans then s.hold 0 0 va .normal (some off) bs
    else match s.window? s.myCtx off true with
      | some g => s.winWrite g (winOf off) (BitVec.ofNat 32 (leNat bs))
      | none => s
  | .remote leaf va => if trans then s.hold leaf 0 va pol none bs else s.putRemote s.me leaf (vaOf va) pol bs
  | _ => s
/-- The value a lane stores, from n bytes of registers d, d + 1, … -/
def Group.storeVal (g : Group) (d : VReg) (n : Nat) (L : Lane) : Nat :=
  let w := fun k => (g.readV (vreg d k) L).toNat
  (w 0 + (if n > 4 then w 1 * 2 ^ 32 else 0) + (if n > 8 then w 2 * 2 ^ 64 + w 3 * 2 ^ 96 else 0)) % 2 ^ (8 * n)
/-- The fault a storing lane takes. -/
def storeFault (iv : Bool) (g : Group) (d : VReg) (sick : Mask) (r : Lane → LRes) (L : Lane) : Option (Byte × Dword) :=
  match r L with
  | .fault c va => some (c, va)
  | .park _ _ => none
  | x =>
    if sick.getLsbD L.val then some (0x0D, x.va)
    else if iv && x.reaches && badIv (g.storeVal d 8 L) then some (0x0A, x.va) else none
/-- R210: lanes in ascending order, so the highest lane's bytes stand. -/
def storeBody (i : Instr) (n : Nat) (iv : Bool) (m : MemMod) (guarded : Bool) (d : VReg) (res : State → Lane → LRes) (s : State) : State :=
  let lanes := s.lanes guarded
  let src := s.src
  let sick := src.poisonIn i.names.vr lanes
  let r := res s
  let ok := (lanesOf lanes).filter fun L => (storeFault iv src d sick r L).isNone && (r L).reaches
  let t := s.raiseEach lanes (storeFault iv src d sick r)
  let t := ok.foldl (fun t L => t.keepPast n (r L)) t
  let t := ok.foldl (fun t L => t.storeAt (memPol m) (r L) (leBytes n (src.storeVal d n L))) t
  let t := (t.countDrops lanes r).parkOn i (parksOf true lanes r)
  if ok.isEmpty then t else t.wake
def storeWord (i : Instr) (n : Nat) (iv : Bool) (m : MemMod) (guarded : Bool) (d : VReg) (res : State → Lane → LRes) : State → Out :=
  issueSeq i (storeBody i n iv m guarded d res)

/-! ### Atomics (R247-R250) -/
/-- The new value from the old one x, v and, for `cas`, w. -/
def aopNew (op : AOp) (x v w : Nat) : Nat :=
  let a := BitVec.ofNat 32 x
  let b := BitVec.ofNat 32 v
  match op with
  | .add => (a + b).toNat
  | .minS => (minS32 a b).toNat
  | .maxS => (maxS32 a b).toNat
  | .minN => min x v
  | .maxN => max x v
  | .and => (a &&& b).toNat
  | .or => (a ||| b).toNat
  | .xor => (a ^^^ b).toNat
  | .xchg => v
  | .cas => if x = v then w else x
  | .fadd => (finish fp32 .rne false (addV .rne (fp32.val x) (fp32.val v))).bits
  | .fmin => (minNum fp32 x v).bits
  | .fmax => (maxNum fp32 x v).bits
  | .add64 => (x + v) % 2 ^ 64
/-- Operands v and w of a lane. -/
def aopOperands (op : AOp) (g : Group) (d : VReg) (L : Lane) : Nat × Nat :=
  match op with
  | .add64 => ((g.readV64 d L).toNat, 0)
  | .cas => ((g.readV d L).toNat, (g.readV (vreg d 1) L).toNat)
  | _ => ((g.readV d L).toNat, 0)
/-- One lane's read-modify-write at the home, as one step: the old value, and `far`, what the word's lower lanes have left at remote
locations (R210, R220). The issuing core's L1 copy is dropped. -/
def State.atomicAt (op : AOp) (g : Group) (d : VReg) (r : Lane → LRes) (far : List (Nat × Nat)) (s : State) (L : Lane) :
    Nat × List (Nat × Nat) × State :=
  let here := s.valAs s.me.home op.size (r L)
  let x := match r L with | .remote _ va => (far.lookup (vaOf va)).getD here | _ => here
  let (v, w) := aopOperands op g d L
  let y := aopNew op x v w
  let far := match r L with | .remote _ va => (vaOf va, y) :: far | _ => far
  (x, far, s.storeAt .bypass (r L) (leBytes op.size y))
/-- The lanes `ls` in order; the old values by lane. -/
def State.atomicLanes (op : AOp) (g : Group) (d : VReg) (r : Lane → LRes) : List Lane → List (Nat × Nat) → State → List (Nat × Nat) × State
  | [], _, s => ([], s)
  | L :: ls, far, s =>
    let (x, far, s) := s.atomicAt op g d r far L
    let (xs, s) := s.atomicLanes op g d r ls far
    ((L.val, x) :: xs, s)
def atomicFault (s : State) (op : AOp) (sick : Mask) (r : Lane → LRes) (L : Lane) : Option (Byte × Dword) :=
  match r L with
  | .fault c va => some (c, va)
  | .park _ _ => none
  | x => if sick.getLsbD L.val || s.datumPoison s.me.home s.latch.hurt op.size L x then some (0x0D, x.va) else none
/-- The lanes that are performed. -/
def atomicOk (s : State) (op : AOp) (sick lanes : Mask) (r : Lane → LRes) : List Lane :=
  (lanesOf lanes).filter fun L => (atomicFault s op sick r L).isNone && (r L).reaches
def atomicBody (i : Instr) (op : AOp) (ar : Bool) (level : Nat) (guarded : Bool) (d : VReg) (res : State → Lane → LRes) (s0 : State) : State :=
  let s := if s0.g.region = .trans then s0.endTransaction else s0
  let lanes := s.lanes guarded
  let src := s.src
  let sick := src.poisonIn i.names.vr lanes
  let r := res s
  let home := fun (s : State) (L : Lane) => match r L with | .mem leaf pa va => s.fill s.me.home leaf pa (vaOf va) 0 .normal | _ => s
  let s1 := (lanesOf (lanes &&& ~~~sick)).foldl home s
  let ok := atomicOk s1 op sick lanes r
  let t := s1.raiseEach lanes (atomicFault s1 op sick r)
  -- an atomic is not held in the commit buffer
  let region := t.g.region
  let (xs, t) := ({ t with g := { t.g with region := .none } }).atomicLanes op src d r ok []
  let t := { t with g := { t.g with region := region } }
  let m := maskOf fun L => ok.any fun K => K = L
  let t := t.setVs d m (fun L => BitVec.ofNat 128 ((xs.lookup L.val).getD 0)) (op.size / 4)
  let t := ok.foldl (fun t L => t.sawPast none (r L)) t
  let t := if ok.isEmpty then t else (t.dropCopies (s.widened ar level r ok)).wake
  t.parkOn i (parksOf true lanes r)
def atomicWord (i : Instr) (op : AOp) (ar : Bool) (level : Nat) (guarded : Bool) (d : VReg) (res : State → Lane → LRes) : State → Out :=
  issueSeq i (atomicBody i op ar level guarded d res)
def atomLevel (m : AtomMod) : Nat := if m.ar then scopeLevel m.scope else 0

end
end Sys2Proof.Machine
end

