-- ==== Sys2Proof/Machine/Memory.lean ====
section
/-!
DEFINITION. Machine/Memory.lean: majors 0x28 to 0x33 and 0x36: loads, stores, atomics, fences, cache and tag words, Basin words, and
the steps that complete them (R221, R240-R254, R261, R280).
-/
namespace Sys2Proof.Machine
noncomputable section

/-! Majors 0x28, 0x2A, 0x2C (R243, R244). The register window takes only `ld.32` (R38). -/
def execLd8n (m : MemMod) (g : Bool) (d : VReg) (ad : GAddr) : State → Out :=
  loadWord (.ld8n m g d ad) .n8 m g d (fun s => s.resolveG ad (LdKind.size .n8) {} false)
def execLd8s (m : MemMod) (g : Bool) (d : VReg) (ad : GAddr) : State → Out :=
  loadWord (.ld8s m g d ad) .s8 m g d (fun s => s.resolveG ad (LdKind.size .s8) {} false)
def execLd16n (m : MemMod) (g : Bool) (d : VReg) (ad : GAddr) : State → Out :=
  loadWord (.ld16n m g d ad) .n16 m g d (fun s => s.resolveG ad (LdKind.size .n16) {} false)
def execLd16s (m : MemMod) (g : Bool) (d : VReg) (ad : GAddr) : State → Out :=
  loadWord (.ld16s m g d ad) .s16 m g d (fun s => s.resolveG ad (LdKind.size .s16) {} false)
def execLd32 (m : MemMod) (g : Bool) (d : VReg) (ad : GAddr) : State → Out :=
  loadWord (.ld32 m g d ad) .w32 m g d (fun s => s.resolveG ad (LdKind.size .w32) {} true)
def execLd64 (m : MemMod) (g : Bool) (d : VReg) (ad : GAddr) : State → Out :=
  loadWord (.ld64 m g d ad) .w64 m g d (fun s => s.resolveG ad (LdKind.size .w64) {} false)
def execLd128 (m : MemMod) (g : Bool) (d : VReg) (ad : GAddr) : State → Out :=
  loadWord (.ld128 m g d ad) .w128 m g d (fun s => s.resolveG ad (LdKind.size .w128) {} false)
def execLdi (m : MemMod) (g : Bool) (d : VReg) (ad : GAddr) : State → Out :=
  loadWord (.ldi m g d ad) .iv m g d (fun s => s.resolveG ad (LdKind.size .iv) {} false)
def execLdb8n (m : MemMod) (g : Bool) (d : VReg) (ad : BAddr) : State → Out :=
  loadWord (.ldb8n m g d ad) .n8 m g d (fun s => s.resolveB ad (LdKind.size .n8) {})
def execLdb8s (m : MemMod) (g : Bool) (d : VReg) (ad : BAddr) : State → Out :=
  loadWord (.ldb8s m g d ad) .s8 m g d (fun s => s.resolveB ad (LdKind.size .s8) {})
def execLdb16n (m : MemMod) (g : Bool) (d : VReg) (ad : BAddr) : State → Out :=
  loadWord (.ldb16n m g d ad) .n16 m g d (fun s => s.resolveB ad (LdKind.size .n16) {})
def execLdb16s (m : MemMod) (g : Bool) (d : VReg) (ad : BAddr) : State → Out :=
  loadWord (.ldb16s m g d ad) .s16 m g d (fun s => s.resolveB ad (LdKind.size .s16) {})
def execLdb32 (m : MemMod) (g : Bool) (d : VReg) (ad : BAddr) : State → Out :=
  loadWord (.ldb32 m g d ad) .w32 m g d (fun s => s.resolveB ad (LdKind.size .w32) {})
def execLdb64 (m : MemMod) (g : Bool) (d : VReg) (ad : BAddr) : State → Out :=
  loadWord (.ldb64 m g d ad) .w64 m g d (fun s => s.resolveB ad (LdKind.size .w64) {})
def execLdb128 (m : MemMod) (g : Bool) (d : VReg) (ad : BAddr) : State → Out :=
  loadWord (.ldb128 m g d ad) .w128 m g d (fun s => s.resolveB ad (LdKind.size .w128) {})
def execLdbi (m : MemMod) (g : Bool) (d : VReg) (ad : BAddr) : State → Out :=
  loadWord (.ldbi m g d ad) .iv m g d (fun s => s.resolveB ad (LdKind.size .iv) {})
def execLdc8n (m : MemMod) (g : Bool) (d : VReg) (ad : CAddr) : State → Out :=
  loadWord (.ldc8n m g d ad) .n8 m g d (fun s => s.resolveC ad (LdKind.size .n8))
def execLdc8s (m : MemMod) (g : Bool) (d : VReg) (ad : CAddr) : State → Out :=
  loadWord (.ldc8s m g d ad) .s8 m g d (fun s => s.resolveC ad (LdKind.size .s8))
def execLdc16n (m : MemMod) (g : Bool) (d : VReg) (ad : CAddr) : State → Out :=
  loadWord (.ldc16n m g d ad) .n16 m g d (fun s => s.resolveC ad (LdKind.size .n16))
def execLdc16s (m : MemMod) (g : Bool) (d : VReg) (ad : CAddr) : State → Out :=
  loadWord (.ldc16s m g d ad) .s16 m g d (fun s => s.resolveC ad (LdKind.size .s16))
def execLdc32 (m : MemMod) (g : Bool) (d : VReg) (ad : CAddr) : State → Out :=
  loadWord (.ldc32 m g d ad) .w32 m g d (fun s => s.resolveC ad (LdKind.size .w32))
def execLdc64 (m : MemMod) (g : Bool) (d : VReg) (ad : CAddr) : State → Out :=
  loadWord (.ldc64 m g d ad) .w64 m g d (fun s => s.resolveC ad (LdKind.size .w64))
def execLdc128 (m : MemMod) (g : Bool) (d : VReg) (ad : CAddr) : State → Out :=
  loadWord (.ldc128 m g d ad) .w128 m g d (fun s => s.resolveC ad (LdKind.size .w128))
def execLdci (m : MemMod) (g : Bool) (d : VReg) (ad : CAddr) : State → Out :=
  loadWord (.ldci m g d ad) .iv m g d (fun s => s.resolveC ad (LdKind.size .iv))

/-! Majors 0x29, 0x2B, 0x2D (R245, R246). -/
def execSt8 (m : MemMod) (g : Bool) (d : VReg) (ad : GAddr) : State → Out :=
  storeWord (.st8 m g d ad) 1 false m g d (fun s => s.resolveG ad 1 { write := true } false)
def execSt16 (m : MemMod) (g : Bool) (d : VReg) (ad : GAddr) : State → Out :=
  storeWord (.st16 m g d ad) 2 false m g d (fun s => s.resolveG ad 2 { write := true } false)
def execSt32 (m : MemMod) (g : Bool) (d : VReg) (ad : GAddr) : State → Out :=
  storeWord (.st32 m g d ad) 4 false m g d (fun s => s.resolveG ad 4 { write := true } true)
def execSt64 (m : MemMod) (g : Bool) (d : VReg) (ad : GAddr) : State → Out :=
  storeWord (.st64 m g d ad) 8 false m g d (fun s => s.resolveG ad 8 { write := true } false)
def execSt128 (m : MemMod) (g : Bool) (d : VReg) (ad : GAddr) : State → Out :=
  storeWord (.st128 m g d ad) 16 false m g d (fun s => s.resolveG ad 16 { write := true } false)
def execSti (m : MemMod) (g : Bool) (d : VReg) (ad : GAddr) : State → Out :=
  storeWord (.sti m g d ad) 8 true m g d (fun s => s.resolveG ad 8 { write := true } false)
def execStb8 (m : MemMod) (g : Bool) (d : VReg) (ad : BAddr) : State → Out :=
  storeWord (.stb8 m g d ad) 1 false m g d (fun s => s.resolveB ad 1 { write := true })
def execStb16 (m : MemMod) (g : Bool) (d : VReg) (ad : BAddr) : State → Out :=
  storeWord (.stb16 m g d ad) 2 false m g d (fun s => s.resolveB ad 2 { write := true })
def execStb32 (m : MemMod) (g : Bool) (d : VReg) (ad : BAddr) : State → Out :=
  storeWord (.stb32 m g d ad) 4 false m g d (fun s => s.resolveB ad 4 { write := true })
def execStb64 (m : MemMod) (g : Bool) (d : VReg) (ad : BAddr) : State → Out :=
  storeWord (.stb64 m g d ad) 8 false m g d (fun s => s.resolveB ad 8 { write := true })
def execStb128 (m : MemMod) (g : Bool) (d : VReg) (ad : BAddr) : State → Out :=
  storeWord (.stb128 m g d ad) 16 false m g d (fun s => s.resolveB ad 16 { write := true })
def execStbi (m : MemMod) (g : Bool) (d : VReg) (ad : BAddr) : State → Out :=
  storeWord (.stbi m g d ad) 8 true m g d (fun s => s.resolveB ad 8 { write := true })
def execStc8 (m : MemMod) (g : Bool) (d : VReg) (ad : CAddr) : State → Out :=
  storeWord (.stc8 m g d ad) 1 false m g d (fun s => s.resolveC ad 1)
def execStc16 (m : MemMod) (g : Bool) (d : VReg) (ad : CAddr) : State → Out :=
  storeWord (.stc16 m g d ad) 2 false m g d (fun s => s.resolveC ad 2)
def execStc32 (m : MemMod) (g : Bool) (d : VReg) (ad : CAddr) : State → Out :=
  storeWord (.stc32 m g d ad) 4 false m g d (fun s => s.resolveC ad 4)
def execStc64 (m : MemMod) (g : Bool) (d : VReg) (ad : CAddr) : State → Out :=
  storeWord (.stc64 m g d ad) 8 false m g d (fun s => s.resolveC ad 8)
def execStc128 (m : MemMod) (g : Bool) (d : VReg) (ad : CAddr) : State → Out :=
  storeWord (.stc128 m g d ad) 16 false m g d (fun s => s.resolveC ad 16)
def execStci (m : MemMod) (g : Bool) (d : VReg) (ad : CAddr) : State → Out :=
  storeWord (.stci m g d ad) 8 true m g d (fun s => s.resolveC ad 8)

/-! Majors 0x2E to 0x30 (R247-R249). -/
def execAtomAdd (m : AtomMod) (g : Bool) (d : VReg) (ad : GAddr) : State → Out :=
  atomicWord (.atomAdd m g d ad) .add m.ar (atomLevel m) g d (fun s => s.resolveG ad (AOp.size .add) { write := true } false)
def execAtomMinS (m : AtomMod) (g : Bool) (d : VReg) (ad : GAddr) : State → Out :=
  atomicWord (.atomMinS m g d ad) .minS m.ar (atomLevel m) g d (fun s => s.resolveG ad (AOp.size .minS) { write := true } false)
def execAtomMaxS (m : AtomMod) (g : Bool) (d : VReg) (ad : GAddr) : State → Out :=
  atomicWord (.atomMaxS m g d ad) .maxS m.ar (atomLevel m) g d (fun s => s.resolveG ad (AOp.size .maxS) { write := true } false)
def execAtomMinN (m : AtomMod) (g : Bool) (d : VReg) (ad : GAddr) : State → Out :=
  atomicWord (.atomMinN m g d ad) .minN m.ar (atomLevel m) g d (fun s => s.resolveG ad (AOp.size .minN) { write := true } false)
def execAtomMaxN (m : AtomMod) (g : Bool) (d : VReg) (ad : GAddr) : State → Out :=
  atomicWord (.atomMaxN m g d ad) .maxN m.ar (atomLevel m) g d (fun s => s.resolveG ad (AOp.size .maxN) { write := true } false)
def execAtomAnd (m : AtomMod) (g : Bool) (d : VReg) (ad : GAddr) : State → Out :=
  atomicWord (.atomAnd m g d ad) .and m.ar (atomLevel m) g d (fun s => s.resolveG ad (AOp.size .and) { write := true } false)
def execAtomOr (m : AtomMod) (g : Bool) (d : VReg) (ad : GAddr) : State → Out :=
  atomicWord (.atomOr m g d ad) .or m.ar (atomLevel m) g d (fun s => s.resolveG ad (AOp.size .or) { write := true } false)
def execAtomXor (m : AtomMod) (g : Bool) (d : VReg) (ad : GAddr) : State → Out :=
  atomicWord (.atomXor m g d ad) .xor m.ar (atomLevel m) g d (fun s => s.resolveG ad (AOp.size .xor) { write := true } false)
def execAtomXchg (m : AtomMod) (g : Bool) (d : VReg) (ad : GAddr) : State → Out :=
  atomicWord (.atomXchg m g d ad) .xchg m.ar (atomLevel m) g d (fun s => s.resolveG ad (AOp.size .xchg) { write := true } false)
def execAtomCas (m : AtomMod) (g : Bool) (d : VReg) (ad : GAddr) : State → Out :=
  atomicWord (.atomCas m g d ad) .cas m.ar (atomLevel m) g d (fun s => s.resolveG ad (AOp.size .cas) { write := true } false)
def execAtomFadd (m : AtomMod) (g : Bool) (d : VReg) (ad : GAddr) : State → Out :=
  atomicWord (.atomFadd m g d ad) .fadd m.ar (atomLevel m) g d (fun s => s.resolveG ad (AOp.size .fadd) { write := true } false)
def execAtomFmin (m : AtomMod) (g : Bool) (d : VReg) (ad : GAddr) : State → Out :=
  atomicWord (.atomFmin m g d ad) .fmin m.ar (atomLevel m) g d (fun s => s.resolveG ad (AOp.size .fmin) { write := true } false)
def execAtomFmax (m : AtomMod) (g : Bool) (d : VReg) (ad : GAddr) : State → Out :=
  atomicWord (.atomFmax m g d ad) .fmax m.ar (atomLevel m) g d (fun s => s.resolveG ad (AOp.size .fmax) { write := true } false)
def execAtomAdd64 (m : AtomMod) (g : Bool) (d : VReg) (ad : GAddr) : State → Out :=
  atomicWord (.atomAdd64 m g d ad) .add64 m.ar (atomLevel m) g d (fun s => s.resolveG ad (AOp.size .add64) { write := true } false)
def execAtomcAdd (m : Bool) (g : Bool) (d : VReg) (ad : CAddr) : State → Out :=
  atomicWord (.atomcAdd m g d ad) .add m 0 g d (fun s => s.resolveC ad 4)
def execAtomcMinS (m : Bool) (g : Bool) (d : VReg) (ad : CAddr) : State → Out :=
  atomicWord (.atomcMinS m g d ad) .minS m 0 g d (fun s => s.resolveC ad 4)
def execAtomcMaxS (m : Bool) (g : Bool) (d : VReg) (ad : CAddr) : State → Out :=
  atomicWord (.atomcMaxS m g d ad) .maxS m 0 g d (fun s => s.resolveC ad 4)
def execAtomcOr (m : Bool) (g : Bool) (d : VReg) (ad : CAddr) : State → Out :=
  atomicWord (.atomcOr m g d ad) .or m 0 g d (fun s => s.resolveC ad 4)
def execAtomcXchg (m : Bool) (g : Bool) (d : VReg) (ad : CAddr) : State → Out :=
  atomicWord (.atomcXchg m g d ad) .xchg m 0 g d (fun s => s.resolveC ad 4)
def execAtomcCas (m : Bool) (g : Bool) (d : VReg) (ad : CAddr) : State → Out :=
  atomicWord (.atomcCas m g d ad) .cas m 0 g d (fun s => s.resolveC ad 4)

/-! Major 0x31 (R221, R250). -/
/-- The leaf of the page an address lies on, where it is present. -/
def State.pageLeaf (s : State) (va : Nat) : Option Dword :=
  match s.heldLine s.me va with
  | some l => some l.leaf
  | none => match s.translate s.me va with | .page leaf => some leaf | _ => none
/-- A remote lane of a sequentially consistent atomic or a Basin word takes PROT, whatever else its page would give. -/
def State.resolveSc (s : State) (ad : GAddr) (L : Lane) : LRes :=
  match s.resolveG ad 4 { write := true } false L with
  | .remote _ va => .fault 0x06 va
  | .fault c va =>
    if c ≠ 0x03 && c ≠ 0x06 && c ≠ 0x08 && (s.pageLeaf (vaOf va)).any leafRem then .fault 0x06 va else .fault c va
  | r => r
/-- Some lane passes its checks and so takes a ticket. -/
def State.scReady (s : State) (i : Instr) (op : AOp) (g : Bool) (ad : GAddr) : Bool :=
  !(atomicOk s op (s.src.poisonIn i.names.vr (s.lanes g)) (s.lanes g) (s.resolveSc ad)).isEmpty
/-- The lanes of a word take their tickets together; the word is performed when it holds them. A replayed word takes them at once. -/
def scWord (i : Instr) (op : AOp) (guarded : Bool) (d : VReg) (ad : GAddr) : State → Out :=
  issueSeq i fun s =>
    if s.scReady i op guarded ad && s.myWait ≠ .ticketed && s.latch.only.isNone then
      s.waitFor .ticket
    else
      let n := (atomicOk s op (s.src.poisonIn i.names.vr (s.lanes guarded)) (s.lanes guarded) (s.resolveSc ad)).length
      let t := atomicBody i op true 2 guarded d (fun s => s.resolveSc ad) s
      { t with tickets := t.tickets + n }
def execAtomAddSc (g : Bool) (d : VReg) (ad : GAddr) : State → Out := scWord (.atomAddSc g d ad) .add g d ad
def execAtomXchgSc (g : Bool) (d : VReg) (ad : GAddr) : State → Out := scWord (.atomXchgSc g d ad) .xchg g d ad
def execAtomCasSc (g : Bool) (d : VReg) (ad : GAddr) : State → Out := scWord (.atomCasSc g d ad) .cas g d ad
/-- Groups and slots whose word waits for a ticket. -/
def State.ticketWaits (s : State) : List (Nat × Fin 2) :=
  s.allGroups.flatMap fun g => [(0 : Fin 2), 1].filterMap fun k =>
    if (g.slot k).leaf.any fun l => l.wait = .ticket then some (g.gid, k) else none
/-- Some word holds a ticket and has not been performed. -/
def State.ticketOut (s : State) : Bool := s.allGroups.any fun g => g.allEntries.any fun l => l.wait = .ticketed
/-- The Notch grants the next ticket to a waiting word of its choice (log 5), once the word with the last one has been performed: words are
performed in the order of their tickets (R221). -/
def execNotchTicket : State → Out := fun s =>
  if s.ticketOut then .next s
  else match s.ticketWaits[Config.choice s.fresh % s.ticketWaits.length]? with
  | none => .next s
  | some (gid, k) => .next (s.endWait gid k .ticket)

/-! Major 0x32 (R216, R223, R251, R252). -/
def fscopeLevel : FScope → Nat
  | .core => 0
  | .cluster => 1
  | .device | .domain => 2
  | .system => 3
def execFenceAcq (k : FScope) : State → Out := issueSeq (.fenceAcq k) fun s => s.dropCopies (fscopeLevel k)
/-- Every access is performed when its word issues, so a release fence has nothing left to order (log 4). -/
def execFenceRel (k : FScope) : State → Out := issueSeq (.fenceRel k) fun s => s
def execFenceAr (k : FScope) : State → Out := issueSeq (.fenceAr k) fun s => s.dropCopies (fscopeLevel k)
def execFenceSc : State → Out :=
  issueSeq .fenceSc fun s =>
    if s.myWait = .ticketed then { s.dropCopies 2 with tickets := s.tickets + 1 }
    else s.waitFor .ticket
/-- A dirty L2 sector of a context's address space, which its stores may have made dirty whoever filled it (R208, R223). -/
def dirtyOf (who : Who) (l : Line) : Bool := l.part = who.part && l.asid = who.asid && l.dmask ≠ 0
def State.dirty (s : State) (who : Who) : Bool := s.l2.any (dirtyOf who)
def execFenceWb (k : FScope) : State → Out :=
  issueSeq (.fenceWb k) fun s =>
    if s.myWait = .granted then s
    else if s.myWait = .writeBack || s.dirty s.me then s.waitFor .writeBack else s
/-- The covered sectors have reached DRAM. -/
def execFenceWbComplete (gid : Nat) (k : Fin 2) : State → Out := fun s =>
  match s.group? gid with
  | none => .next s
  | some g =>
    if (g.slot k).leaf.any fun l => l.wait = .writeBack then
      match s.ctxOfGroup g with
      | none => .next s
      | some c => .next ((s.writeBackAll (dirtyOf (s.who c g.core gid))).endWait gid k .writeBack)
    else .next s
def execFenceInval (k : FScope) : State → Out := issueSeq (.fenceInval k) fun s => s.dropCopies (fscopeLevel k)
def execBfence (k : FScope) : State → Out :=
  issueSeq (.bfence k) fun s => if s.basins.any fun b => b.gid = s.g.gid then s.stallNow else s.dropCopies (fscopeLevel k)

/-! Major 0x33 (R207, R209, R253, R254). -/
/-- Hints: each lane's line is fetched or marked, or the hint is dropped and counted; a lane whose address registers are poisoned, its
scalar base among them, has a malformed address, and nothing consumes it (R209; log 16). -/
def hintBody (i : Instr) (guarded : Bool) (ad : GAddr) (f : State → Dword → Nat → Dword → State) (far : State → Dword → Dword → State)
    (s : State) : State :=
  let lanes := s.lanes guarded
  let sick := s.src.poisonIn i.names.vr lanes
  let base := s.src.regs.spois &&& regBits i.names.sr ≠ 0
  let one := fun (t : State) (L : Lane) =>
    if base || sick.getLsbD L.val then t.countPart s.me.part 23 1
    else match s.resolveG ad 1 {} false L with
      | .mem leaf pa va => f t leaf pa va
      | .remote leaf va => if s.farLost s.me leaf (some L) then t else far t leaf va
      | _ => t.countPart s.me.part 23 1
  let t := (lanesOf lanes).foldl one s
  { t with latch := { t.latch with hurt := s.latch.hurt } }
def execPref (g : Bool) (ad : GAddr) : State → Out :=
  issueSeq (.pref g ad) (hintBody (.pref g ad) g ad (fun s leaf pa va => s.hintFill s.me leaf pa (vaOf va) 1)
    fun s leaf va => s.hintFar s.me leaf (vaOf va) (tagOfPtr va) 1)
def execPrefL1 (g : Bool) (ad : GAddr) : State → Out :=
  issueSeq (.prefL1 g ad) (hintBody (.prefL1 g ad) g ad (fun s leaf pa va => s.hintFill s.me leaf pa (vaOf va) 2)
    fun s leaf va => s.hintFar s.me leaf (vaOf va) (tagOfPtr va) 2)
/-- The order number of a new mark, and the set's oldest marked line where the mark is one too many (R253). -/
def State.nextMark (s : State) (who : Who) (va : Nat) : Nat × Option Nat :=
  let marks := ((s.l2.filter fun l => s.inSet who.part va l && !sameLine who va l).filterMap (·.mark)).dedup
  (marks.foldl max 0 + 1, if marks.length ≥ Config.marksPerSet then marks.min? else none)
/-- `resid`: the line is marked, or its mark cleared, where its home slice holds it. -/
def State.setMark (s : State) (who : Who) (va : Nat) (k : Bool) : State :=
  let (n, out) := s.nextMark who va
  let k' := k && s.l2.any (sameLine who va)
  { s with
    l2 := s.l2.map fun l =>
      if sameLine who va l then { l with mark := if k then some n else none }
      else if k' && out.isSome && l.mark = out && s.inSet who.part va l then { l with mark := none } else l }
def execResid (g : Bool) (k : Bool) (ad : GAddr) : State → Out :=
  issueSeq (.resid g k ad) (hintBody (.resid g k ad) g ad (fun s _ _ va => s.setMark s.me (vaOf va) k) fun s _ _ => s)
/-- `cwb` and `cinv`: the pointer alone is checked; `f` acts on the line. -/
def lineWord (i : Instr) (guarded : Bool) (ad : GAddr) (f : State → Nat → State) : State → Out :=
  issueSeq i fun s =>
    let lanes := s.lanes guarded
    let sick := s.src.poisonIn i.names.vr lanes
    let s := if s.g.region = .trans then s.endTransaction else s
    let ptr := fun L => s.src.gptr ad L
    let bad := fun L => (ptr L).2 || ptrBad (ptr L).1 || vaOf (ptr L).1 ≥ windowBase
    let t := s.raiseEach lanes fun L => if bad L then some (0x06, (ptr L).1) else if sick.getLsbD L.val then some (0x0D, (ptr L).1) else none
    (lanesOf (lanes &&& ~~~sick)).foldl (fun t L => if bad L then t else f t (vaOf (ptr L).1)) t
def execCwb (g : Bool) (ad : GAddr) : State → Out :=
  lineWord (.cwb g ad) g ad fun s va => s.writeBackAll (sameLine s.me va)
def execCinv (g : Bool) (ad : GAddr) : State → Out :=
  lineWord (.cinv g ad) g ad fun s va =>
    let mine := sameLine s.me va
    let t := s.evict mine
    { t with
      l1 := t.l1.filter fun e => !(e.1 = s.g.core && mine e.2)
      rlc := t.rlc.filter fun e => !(e.1 = dieOf s.g.core && mine e.2) }
/-- A tag word's lane: a page that is not TAGGED takes PROT from `settag`. -/
def State.resolveTag (s : State) (ad : GAddr) (write : Bool) (L : Lane) : LRes :=
  s.resolveG ad 1 { write := write, tags := false, tagged := write } false L
/-- The tag of a granule in a copy. -/
def Line.setTag (off : Nat) (t : BitVec 4) (l : Line) : Line := { l with tags := l.tags.set (Fin.ofNat 4 (off / 32)) t }
/-- The issuing core's L1 copy takes the tag. -/
def State.tagL1 (s : State) (who : Who) (va : Nat) (t : BitVec 4) : State :=
  { s with l1 := s.l1.map fun e => if e.1 = who.core && lineAt who va e.2 then (e.1, e.2.setTag (va % 128) t) else e }
/-- A tag is written as a store to its granule is (R207): the issuing core's L1 copy follows, its die's remote-line copy goes, and the
home has it; a stack whose link is down drops it (R289). On a DLOG page its sector is logged. -/
def State.setTag (s : State) (who : Who) (leaf : Dword) (pa va : Nat) (t : BitVec 4) : State :=
  let s := (s.tagL1 who va t).dropRlc (dieOf who.core) who va
  let s := { s with l2 := updL2 who va (Line.setTag (va % 128) t) s.l2 }
  if s.linkUp pa then { s with tags := memSet s.tags (pa / 32) (t.setWidth 8) }.logWrite who.part leaf pa else s
/-- The fault of a lane whose word reads no data: R76 with ECCUE from its registers alone. -/
def plainFault (sick : Mask) (r : Lane → LRes) (L : Lane) : Option (Byte × Dword) :=
  match r L with
  | .fault c va => some (c, va)
  | .park _ _ => none
  | x => if sick.getLsbD L.val then some (0x0D, x.va) else none
def execSettag (g : Bool) (d : VReg) (ad : GAddr) : State → Out :=
  issueSeq (.settag g d ad) fun s =>
    let lanes := s.lanes g
    let src := s.src
    let sick := src.poisonIn (Instr.settag g d ad).names.vr lanes
    let s := if s.g.region = .trans then s.endTransaction else s
    let r := s.resolveTag ad true
    let t := s.raiseEach lanes (plainFault sick r)
    let one := fun (t : State) (L : Lane) =>
      match r L with
      | .mem leaf pa va => (t.addTlb s.me leaf pa (vaOf va)).setTag s.me leaf pa (vaOf va) ((src.readV d L).setWidth 4)
      | .remote leaf va => (t.tagL1 s.me (vaOf va) ((src.readV d L).setWidth 4)).putRemote s.me leaf (vaOf va) .normal []
      | _ => t
    ((lanesOf (lanes &&& ~~~sick)).foldl one t).parkOn (.settag g d ad) (parksOf true lanes r)
/-- R253: 0 on a page that is not TAGGED; the tag as the first level that holds the granule has it; a remote granule's is free (log 13). -/
def State.tagVal (s : State) (r : LRes) : Word :=
  match r with
  | .mem leaf pa va => if leafTagged leaf then (s.tagSeen (s.heldLine s.me (vaOf va)) pa).setWidth 32 else 0
  | .remote leaf va =>
    if !leafTagged leaf then 0
    else match s.heldLine s.me (vaOf va) with
      | some l => l.tags[Fin.ofNat 4 (vaOf va % 128 / 32)].setWidth 32
      | none => (s.farTag (vaOf va)).setWidth 32
  | _ => 0
/-- The tag cannot be read: its stack's link is down (R289), or the other device does not answer (R315). -/
def State.tagLost (s : State) (L : Lane) (r : LRes) : Bool :=
  match r with
  | .mem leaf pa va => leafTagged leaf && (s.heldLine s.me (vaOf va)).isNone && !s.linkUp pa
  | .remote leaf va => (s.heldLine s.me (vaOf va)).isNone && s.farLost s.me leaf (some L)
  | _ => false
def execGettag (g : Bool) (d : VReg) (ad : GAddr) : State → Out :=
  issueSeq (.gettag g d ad) fun s =>
    let lanes := s.lanes g
    let sick := s.src.poisonIn (Instr.gettag g d ad).names.vr lanes
    let r := s.resolveTag ad false
    let lost := maskOf fun L => lanes.getLsbD L.val && s.tagLost L (r L)
    let fault := plainFault (sick ||| lost) r
    let ok := maskOf fun L => lanes.getLsbD L.val && (fault L).isNone && (r L).reaches
    let t := s.raiseEach lanes fault
    (t.setV d ok fun L => s.tagVal (r L)).parkOn (.gettag g d ad) (parksOf false lanes r)

/-! Major 0x36 (R240, R261, R280). -/
/-- A lane's Basin operation goes on its way to the stack, and the issuing core's L1 copy goes (R261). -/
def State.sendBasin (s : State) (op : BasinOp) (leaf : Dword) (pa : Nat) (va : Dword) (v : Word) : State :=
  let s := (s.addTlb s.me leaf pa (vaOf va)).dropL1 s.g.core s.me (vaOf va)
  { s with
    basins := s.basins ++ [{ id := (s.basins.map (·.id)).foldl max 0 + 1, gid := s.g.gid, core := s.g.core, op := op, pa := pa, va := vaOf va
                             leaf := leaf, part := s.me.part, asid := s.me.asid, value := v }] }
/-- R240: the combination of the word x and the operand v. -/
def BasinOp.combine (op : BasinOp) (x v : Word) : Word :=
  let add := fun (f : Fmt) (a b : Nat) => (finish f .rne false (addV .rne (f.val a) (f.val b))).bits
  match op with
  | .addS32 => x + v
  | .addF32 => BitVec.ofNat 32 (add fp32 x.toNat v.toNat)
  | .addBf16 => BitVec.ofNat 32 (add bf16 (x.toNat % 65536) (v.toNat % 65536) + 65536 * add bf16 (x.toNat / 65536) (v.toNat / 65536))
  | .maxF32 => BitVec.ofNat 32 (maxNum fp32 x.toNat v.toNat).bits
  | .minF32 => BitVec.ofNat 32 (minNum fp32 x.toNat v.toNat).bits
/-- A party's access leaves the caches for the array: the home slice writes back and drops the sector, and the copies that the party's
own core and die hold go too, so that its later loads find what is written (R227, R280). -/
def State.toArray (s : State) (who : Who) (va : Nat) : State :=
  ((s.evict (lineAt who va)).dropL1 who.core who va).dropRlc (dieOf who.core) who va
/-- At the stack the word is read, combined and written as one step; a word that is poisoned, or that the array finds uncorrectable,
stays or becomes poison and nothing is combined. -/
def State.combineAt (s : State) (part : Fin 16) (leaf : Dword) (pa : Nat) (op : BasinOp) (v : Word) : State :=
  let s := s.arrayRead pa
  if s.poisoned pa then s
  else
    let x : Word := BitVec.ofNat 32 (leNat ((List.range 4).map fun k => s.dramByte leaf (pa + k)))
    let bs := leBytes 4 (op.combine x v).toNat
    s.writeSector part leaf (pa / 128 * 128) (bs.zipIdx.map fun b => (pa % 128 + b.2, b.1))
def State.performBasin (s : State) (b : Basin) : State :=
  (s.toArray { core := b.core, part := b.part, asid := b.asid, gid := b.gid } b.va).combineAt b.part b.leaf b.pa b.op b.value
/-- Every operation that a group has sent is performed. -/
def State.flushBasins (s : State) (gid : Nat) : State :=
  let (mine, rest) := s.basins.partition fun b => b.gid = gid
  { mine.foldl State.performBasin s with basins := rest }
/-- Each lane's operation is sent; in deterministic issue mode a word of pipe M is performed in its turn (R54, R187). -/
def basinWord (i : Instr) (op : BasinOp) (guarded : Bool) (d : VReg) (ad : GAddr) : State → Out :=
  issueSeq i fun s =>
    let lanes := s.lanes guarded
    let src := s.src
    let sick := src.poisonIn i.names.vr lanes
    let s := if s.g.region = .trans then s.endTransaction else s
    let r := s.resolveSc ad
    let t := s.raiseEach lanes (plainFault sick r)
    let one := fun (t : State) (L : Lane) =>
      match r L with
      | .mem leaf pa va => t.sendBasin op leaf pa va (if s.offLimits s.me true (vaOf va) 4 then Config.word (s.fresh * 2 ^ 60 + 2 ^ 56 + vaOf va) else src.readV d L)
      | _ => t
    let t := (lanesOf (lanes &&& ~~~sick)).foldl one t
    (if stageDet s.myStage then t.flushBasins s.g.gid else t).parkOn i (parksOf true lanes r)
def execBaddS32 (g : Bool) (d : VReg) (ad : GAddr) : State → Out := basinWord (.baddS32 g d ad) .addS32 g d ad
def execBaddF32 (g : Bool) (d : VReg) (ad : GAddr) : State → Out := basinWord (.baddF32 g d ad) .addF32 g d ad
def execBaddBf16x2 (g : Bool) (d : VReg) (ad : GAddr) : State → Out := basinWord (.baddBf16x2 g d ad) .addBf16 g d ad
def execBmaxF32 (g : Bool) (d : VReg) (ad : GAddr) : State → Out := basinWord (.bmaxF32 g d ad) .maxF32 g d ad
def execBminF32 (g : Bool) (d : VReg) (ad : GAddr) : State → Out := basinWord (.bminF32 g d ad) .minF32 g d ad
def execBasinPerform (bid : Nat) : State → Out := fun s =>
  match s.basins.find? fun b => b.id = bid with
  | none => .next s
  | some b => .next { s.performBasin b with basins := s.basins.filter fun x => x.id ≠ bid }.wake

end
end Sys2Proof.Machine
end

