-- ==== Sys2Proof/Machine/Engines.lean ====
section
/-!
DEFINITION. Machine/Engines.lean: majors 0x34, 0x35 and 0x3A: copies, batches, put with signal, queues, `emit` and `spawn`, and the
steps that accept and complete them (R123, R124, R224-R239, R255-R262).
-/
namespace Sys2Proof.Machine
noncomputable section

/-! ### Issuing a copy (R231, R233, R236, R256) -/
def State.inFlight (s : State) (gid : Nat) : Nat := (s.copies.filter fun c => c.gid = gid).length
def readDesc (g : Group) (a : SReg) : Vector Word 8 := Vector.ofFn fun k => g.readS (sreg a k.val)
def State.newCopy (s : State) (kind : Nat) (d a b : SReg) (flag : Bool) : Copy :=
  let g := s.src
  { id := s.nextCopy, kind := kind, gid := s.g.gid, wid := s.g.wid, core := s.g.core, ctx := s.myCtx, part := s.me.part
    asid := s.me.asid, place := placeOf s.g s.myCtx, ipc := s.ipc, desc := readDesc g a
    opb := if flag then 0 else g.readS b
    flag := if flag then Vector.ofFn fun k => g.readS (sreg b k.val) else Vector.replicate 4 0
    token := d, batch := s.g.sealedTo + 1 }
/-- The partition owns the copy engine of the issuing cluster. -/
def State.ownsEngine (s : State) : Bool := (s.engines s.me.part).testBit (clusterOf s.g.core)
/-! ### Batches (R236, R257) -/
/-- Batch numbers of the group's outstanding copies. -/
def State.openBatches (s : State) : List Nat := ((s.copies.filter fun c => c.gid = s.g.gid).map (·.batch)).eraseDups
def execCseal (d : SReg) : State → Out :=
  issueSeq (.cseal d) fun s =>
    if (s.openBatches.filter fun b => b ≤ s.g.sealedTo).length ≥ Config.maxBatches then s.stallNow
    else { s with g := { s.g with sealedTo := s.g.sealedTo + 1 } }.setS d (BitVec.ofNat 32 (s.g.sealedTo + 1))
def State.batchesDone (s : State) (b : Nat) : Bool := s.openBatches.all fun x => b < x
/-- The token of the first copy, in issue order, that failed in a batch up to b. -/
def Group.firstFailure (g : Group) (b : Nat) : Word :=
  let l := g.failed.filter fun f => f.1 ≤ b
  match l with
  | [] => 0
  | f :: fs => (fs.foldl (fun a x => if x.2.1 < a.2.1 then x else a) f).2.2
/-- A `cwait` that returns is an acquire that pairs with the engine (R211, R224): CLUSTER. -/
def execCwait (d a : SReg) : State → Out :=
  issueSeq (.cwait d a) fun s =>
    match s.src.batchOf (s.src.readS a) with
    | none => s
    | some b => if s.batchesDone b then (s.dropCopies 1).setS d (s.g.firstFailure b) else s.stallNow
def execCpoll (d a : SReg) : State → Out :=
  issueSeq (.cpoll d a) fun s =>
    match s.src.batchOf (s.src.readS a) with
    | none => s
    | some b => s.setS d (if s.batchesDone b then 1 else 0)

/-! ### Where an engine reads and writes (R232) -/
/-- One 4-byte place of a command: global, core memory, or a weight reservation. -/
inductive EPlace where
  | glob (p : Dword)
  | cm (a : Nat)
  | wb (rid off : Nat)
  deriving DecidableEq, Repr
inductive ERes where
  | fault (c : Byte)
  | park (p : Dword) (second : Bool)
  | mem (leaf : Dword) (pa va : Nat)
  | remote (leaf : Dword) (va : Nat)
  | window (off : Nat)
  | core (wid off : Nat)
  | weights (off : Nat)
  deriving DecidableEq, Repr
def Copy.who (c : Copy) : Who := { core := c.core, ctx := c.ctx, part := c.part, asid := c.asid, gid := c.gid, engine := true }
/-- The pointer `base` + delta, malformed where the sum carries out of bit 51 (R191). -/
def ptrPlus (lo hi : Word) (delta : Nat) : Dword :=
  let va := lo.toNat + wbits hi 19 0 * 2 ^ 32 + delta
  BitVec.ofNat 64 (va % 2 ^ 52 + (if va ≥ 2 ^ 52 then 2 ^ 52 else 0) + wbits hi 31 20 * 2 ^ 52)
/-- A checked 4-byte access of an engine (R191-R207, R205, R328). -/
def State.engRes (s : State) (who : Who) (wid : Nat) (write : Bool) (x : EPlace) : ERes :=
  match x with
  | .glob p =>
    match s.access who p 4 { write := write } with
    | .ok leaf pa _ => .mem leaf pa (vaOf p)
    | .fault c => .fault c
    | .park second => .park p second
    | .remote leaf =>
      if s.farLost who leaf none then .remote leaf (vaOf p)
      else if s.answerOf p % 2 = 1 then .fault 0x06
      else if leafTagged leaf && s.answerOf p / 2 % 2 = 1 then .fault 0x05
      else .remote leaf (vaOf p)
    | .window off => if (s.window? who.ctx off write).isSome then .window off else .fault 0x06
  | .cm a =>
    match s.wg? wid with
    | none => .fault 0x14
    | some w =>
      if a ≥ 2 ^ 32 then .fault 0x06
      else
        match s.cmPlace w (BitVec.ofNat 32 a) 4 with
        | .error c => .fault c
        | .ok (m, off) => .core m off
  | .wb rid off =>
    match (s.core? who.core).claim, (s.core? who.core).res.lookup rid with
    | some w, some r => if w = wid && off + 4 ≤ wbits r[1] 19 0 then .weights (wbits r[0] 18 0 + off) else .fault 0x04
    | _, _ => .fault 0x04
/-- The word an engine reads, and whether it is poisoned: in its granule, on its way (R303), or for want of an answer (R315). -/
def State.engRead (s : State) (who : Who) (r : ERes) : Word × Bool :=
  match r with
  | .mem leaf pa va => (BitVec.ofNat 32 (leNat (s.readOr who va (s.view who leaf pa va 4))), s.sick who pa va || s.latch.hurt.contains (pa / 32))
  | .core wid off => (BitVec.ofNat 32 (leNat (s.cmRead wid off 4)), s.cmPoisoned wid off 4)
  | .window off =>
    match s.window? who.ctx off false with
    | some g => (s.winRead g (winOf off), winPoison g (winOf off))
    | none => (0, false)
  | .remote leaf va => (BitVec.ofNat 32 (leNat (s.view who leaf 0 va 4)), s.farLost who leaf none)
  | _ => (0, false)
/-- An engine's reads bring their lines to their homes, crossing the hops to L2 (R303). -/
def State.engFill (who : Who) (s : State) (r : ERes) : State :=
  match r with | .mem leaf pa va => s.fill who leaf pa va 0 .normal | _ => s
/-- The word an engine writes; poison is carried through (R302). -/
def State.engWrite (s : State) (who : Who) (r : ERes) (w : Word) (poison : Bool) : State :=
  match r with
  | .mem leaf pa va =>
    let t := s.putBytes who leaf pa va .normal (s.writeOr who va (leBytes 4 w.toNat))
    if poison then t.putPoison who pa va else t
  | .remote leaf va => s.putRemote who leaf va .normal (leBytes 4 w.toNat)
  | .core wid off =>
    let t := s.cmWrite wid off (leBytes 4 w.toNat)
    if poison then t.updWg wid fun x => { x with cmPois := memSet x.cmPois (off / 4) 1 } else t
  | .weights off =>
    s.updCore who.core fun c => { c with wb := memWrite c.wb off (leBytes 4 w.toNat), wbPois := memSet c.wbPois (off / 4) (if poison then 1 else 0) }
  | .window off =>
    match s.window? who.ctx off true with
    | some g => let t := s.winWrite g (winOf off) w; if poison then t.winHurt g (winOf off) else t
    | none => s
  | _ => s
/-- Granules that a command wrote whole, and clean, lose their poison (R302). -/
def State.clearWhole (s : State) (who : Who) (l : List (ERes × Word × Bool)) : State :=
  let at? : ERes × Word × Bool → Option (Nat × Nat) := fun e => match e.1 with | .mem _ pa va => some (pa, va) | _ => none
  let pas := (l.filterMap at?).eraseDups
  let bad := (l.filter fun e => e.2.2).filterMap at?
  let grans := (pas.map fun a => (a.1 / 32, a.2 / 32)).eraseDups
  grans.foldl (fun s g =>
    if (pas.filter fun a => a.2 / 32 = g.2).length = 8 && !(bad.any fun a => a.2 / 32 = g.2) then s.cure who (g.1 * 32) (g.2 * 32) else s) s

/-! ### Descriptors -/
def Copy.rows (c : Copy) : Nat := wbits c.desc[5] 15 0
def Copy.rowb (c : Copy) : Nat := wbits c.desc[4] 19 0
def Copy.multi (c : Copy) : Bool := c.kind = 2 || c.kind = 5
/-- The source lies in core memory. -/
def Copy.fromCore (c : Copy) : Bool := c.kind = 1 || c.kind = 3 || ((c.kind = 4 || c.kind = 10) && c.desc[1].getLsbD 31)
/-- R231: what the engine checks when it accepts the command. -/
def Copy.ok (c : Copy) : Bool :=
  let d := c.desc
  let free31 := c.kind = 4 || c.kind = 10
  wbits d[1] 23 20 = 0 && wbits d[1] 30 28 = 0 && (free31 || !d[1].getLsbD 31) &&
  (!c.fromCore || wbits d[1] 19 0 = 0) &&
  wbits d[3] 23 20 = 0 && wbits d[3] 31 28 = 0 && (c.kind ≠ 6 || wbits d[3] 31 20 = 0) &&
  (c.kind ≠ 6 || wbits d[2] 31 6 = 0) && (!c.multi || wbits d[2] 31 20 = 0) &&
  wbits d[4] 31 20 = 0 && c.rowb ≥ 4 && c.rowb % 4 = 0 &&
  wbits d[5] 31 16 = 0 && c.rows ≥ 1 && (c.kind = 4 || c.kind = 5 || c.rows = 1) &&
  d[6].toNat % 4 = 0 && d[7].toNat % 4 = 0 && d[0].toNat % 4 = 0 &&
  (if c.kind = 6 then d[3].toNat % 4 = 0 else d[2].toNat % 4 = 0) &&
  (c.kind ≠ 10 || wbits c.flag[3] 31 1 = 0)
def Copy.srcAt (c : Copy) (r j : Nat) : EPlace :=
  let delta := r * c.desc[6].toNat + 4 * j
  if c.fromCore then .cm (c.desc[0].toNat + delta) else .glob (ptrPlus c.desc[0] c.desc[1] delta)
/-- The place written; `offset` is a multicast's offset in each core. -/
def Copy.dstAt (c : Copy) (r j : Nat) : EPlace :=
  let delta := r * c.desc[7].toNat + 4 * j
  match c.kind with
  | 0 | 3 => .cm (c.desc[2].toNat + delta)
  | 6 => .wb (wbits c.desc[2] 5 0) (wbits c.desc[3] 19 0 + delta)
  | _ => .glob (ptrPlus c.desc[2] c.desc[3] delta)
/-- Rows and words of the command, in order. -/
def Copy.places (c : Copy) : List (Nat × Nat) :=
  (List.range c.rows).flatMap fun r => (List.range (c.rowb / 4)).map fun j => (r, j)

/-! ### Ends of commands (R233-R235) -/
/-- The barrier word at offset BAR × 8. -/
def Copy.bar (c : Copy) : Nat := c.opb.toNat / 256 * 8
/-- The token scalar is written, which is an acquire by the group that pairs with the engine (R224: CLUSTER), the failure kept for `cwait`, and the command is gone. -/
def State.endCopy (s : State) (c : Copy) (token : Word) : State :=
  let put := fun (g : Group) =>
    let g := if token = 0 then g else { g with failed := g.failed ++ [(c.batch, c.id, token)] }
    { g with regs := g.regs.land c.token token }
  let t := { s with copies := s.copies.filter fun x => x.id ≠ c.id }.updGroup c.gid put
  (if c.token.val = 63 then t else t.dropCopiesOf c.who 1).wake
def faultToken (c : Byte) : Word := 0xC0000000 ||| c.setWidth 32
/-- The barrier of a copy that is no multicast, on the issuing core. -/
def State.signal (s : State) (c : Copy) (f : Nat → Nat) : State :=
  match s.wg? c.wid with
  | some w => if c.bar ≠ 0 && c.bar + 8 ≤ w.cmBytes then s.updBarWord c.wid c.bar f else s
  | none => s
def State.failCopy (s : State) (c : Copy) (cause : Byte) : State := (s.signal c faultWord).endCopy c (faultToken cause)
/-- The member of the issuing gang on core k of the issuing cluster, when it passes the checks of R235. -/
def State.receiver? (s : State) (c : Copy) (k : Nat) : Option Workgroup :=
  match s.wg? c.wid with
  | none => none
  | some w =>
    let top := (c.rows - 1) * c.desc[7].toNat + c.rowb
    let fits := fun (m : Workgroup) => wbits c.desc[2] 19 0 + top ≤ m.cmBytes && (c.bar = 0 || c.bar + 8 ≤ m.cmBytes)
    match s.allWgs.find? fun m => m.wid ≠ 0 && m.gangId = w.gangId && m.core.val = clusterOf c.core * 8 + k with
    | some m => if fits m then some m else none
    | none => if c.core.val % 8 = k then (if fits w then some w else none) else none
def Copy.named (c : Copy) : List Nat := (List.range 8).filter fun k => c.opb.getLsbD k
def State.receivers (s : State) (c : Copy) : List Workgroup := c.named.filterMap fun k => s.receiver? c k
def State.signalAll (s : State) (c : Copy) (f : Nat → Nat) : State :=
  if c.bar = 0 then s else (s.receivers c).foldl (fun s m => s.updBarWord m.wid c.bar f) s
/-- A multicast whose source faults, or whose descriptor is refused (log 18). -/
def State.failMulti (s : State) (c : Copy) (cause : Byte) : State := (s.signalAll c faultWord).endCopy c (faultToken cause)
def State.failAny (s : State) (c : Copy) (cause : Byte) : State := if c.multi then s.failMulti c cause else s.failCopy c cause

def updCopy (id : Nat) (f : Copy → Copy) (l : List Copy) : List Copy := l.map fun x => if x.id = id then f x else x
/-- The engine accepts a command and checks its descriptor. -/
def State.acceptCopy (s : State) (c : Copy) : State :=
  if c.ok then { s with copies := updCopy c.id (fun x => { x with accepted := true }) s.copies } else s.failAny c 0x01
/-- PARTITION comes before any scalar is looked at. In deterministic issue mode the engine accepts the command in the word's turn (R187,
R256). -/
def copyWord (i : Instr) (kind : Nat) (d a b : SReg) (flag : Bool) : State → Out := fun s =>
  if s.canIssue && !s.illegal i && s.lanes false ≠ 0 && !s.ownsEngine then
    .next ((s.raise 0x14 (s.lanes false)).countRetired.advance i.len).closeIssue
  else s |> issueSeq i fun s =>
    if s.inFlight s.g.gid ≥ Config.maxCopies then s.stallNow
    else
      let c := s.newCopy kind d a b flag
      let s := s.endTransaction
      let s := ({ s with copies := s.copies ++ [c], nextCopy := s.nextCopy + 1 }).setPending d true
      if stageDet s.myStage then s.acceptCopy c else s
def execCpyIn (d a b : SReg) : State → Out := copyWord (.cpyIn d a b) 0 d a b false
def execCpyOut (d a b : SReg) : State → Out := copyWord (.cpyOut d a b) 1 d a b false
def execCpyMc (d a b : SReg) : State → Out := copyWord (.cpyMc d a b) 2 d a b false
def execCpyCc (d a b : SReg) : State → Out := copyWord (.cpyCc d a b) 3 d a b false
def execCpy2d (d a b : SReg) : State → Out := copyWord (.cpy2d d a b) 4 d a b false
def execCpy2dmc (d a b : SReg) : State → Out := copyWord (.cpy2dmc d a b) 5 d a b false
def execCpyWb (d a b : SReg) : State → Out := copyWord (.cpyWb d a b) 6 d a b false
def execPutsig (d a b : SReg) : State → Out := copyWord (.putsig d a b) 10 d a b true

/-- The engine accepts a command: copies of one group start in issue order (R256). -/
def execCopyAccept (cid : Nat) : State → Out := fun s =>
  match s.copies.find? fun c => c.id = cid with
  | none => .next s
  | some c =>
    if c.accepted || (s.copies.any fun x => x.gid = c.gid && !x.accepted && x.id < c.id) then .next s
    else .next (s.acceptCopy c)
/-- The command waits for the host to resolve a page (R232, R311). -/
def State.engPark (s : State) (c : Copy) (p : Dword) (second write : Bool) : State :=
  let tag := s.host.nextTag
  let e : Event := { kind := 1, part := c.part, ctx := BitVec.ofNat 32 c.ctx, va := p, place := c.place, ipc := c.ipc
                     code := BitVec.ofNat 32 (8 + (if write then 1 else 0) + (if second then 4 else 0)), rtag := tag }
  ({ s with
    host := { s.host with nextTag := tag + 1 }
    copies := updCopy c.id (fun x => { x with tag := some tag }) s.copies }).postEvent e
/-- The first of the command's accesses that faults, or waits for the host. -/
inductive Bar where
  | clear
  | fault (c : Byte)
  | park (p : Dword) (second write : Bool)
  deriving DecidableEq, Repr
def firstBar : List (Bool × ERes) → Bar
  | [] => .clear
  | (w, r) :: rs =>
    match r with
    | .fault c => .fault c
    | .park p second => .park p second w
    | _ => firstBar rs
/-- After a fault, any part of the destination may have been written (R233): each word that could be, by a free choice. -/
def State.partWrites (s : State) (who : Who) : List (ERes × ERes) → Nat → State
  | [], _ => s
  | (a, b) :: rest, k =>
    let ok := fun r => match r with | ERes.fault _ | ERes.park _ _ => false | _ => true
    let t := if ok a && ok b && Config.choice (s.fresh * 4096 + k) % 2 = 1 then
        s.engWrite who b (s.engRead who a).1 (s.engRead who a).2
      else s
    t.partWrites who rest (k + 1)
/-- Words written in order, each with its poison; where a place has been written already (rows overlap), which row's word it
keeps is a free choice (R212, R232). -/
def State.putWords (s : State) (who : Who) : List (ERes × Word × Bool) → List ERes → Nat → State
  | [], _, _ => s
  | e :: rest, seen, k =>
    if seen.contains e.1 && Config.choice (s.fresh * 4096 + k) % 2 = 1 then s.putWords who rest seen (k + 1)
    else (s.engWrite who e.1 e.2.1 e.2.2).putWords who rest (e.1 :: seen) (k + 1)
/-- The data move: what each word reads, then the writes; each with its poison. -/
def State.moveWords (s : State) (who : Who) (l : List (ERes × ERes)) : State × List (ERes × Word × Bool) :=
  let s := (l.map (·.1)).foldl (State.engFill who) s
  let data := l.map fun e => (e.2, s.engRead who e.1)
  let t := s.putWords who data [] 0
  (t.clearWhole who data, data)
def State.engPairs (s : State) (c : Copy) : List (ERes × ERes) :=
  c.places.map fun p => (s.engRes c.who c.wid false (c.srcAt p.1 p.2), s.engRes c.who c.wid true (c.dstAt p.1 p.2))
/-- A copy of one destination runs to its end, or waits. A page that the host declared fatal ends it (R232). -/
def State.runCopy (s : State) (c : Copy) : State :=
  let l := s.engPairs c
  let barBad := match s.wg? c.wid with | some w => c.bar ≠ 0 && c.bar + 8 > w.cmBytes | none => true
  if c.fatal then (s.partWrites c.who l 0).failCopy c 0x08
  else match firstBar (l.flatMap fun p => [(false, p.1), (true, p.2)]) with
  | .park p second write => s.engPark c p second write
  | .fault k => (s.partWrites c.who l 0).failCopy c k
  | .clear =>
    if barBad then s.failCopy c 0x04
    else
      let (t, data) := s.moveWords c.who l
      (t.signal c (arriveWord 1)).endCopy c (if data.any fun e => e.2.2 then 0xC000000D else 0)
/-- A multicast's words go to one receiver: its barrier takes the arrival; where the write meets an uncorrectable error the data are
undefined and the barrier is FAULTED (R235). -/
def State.putReceiver (s : State) (c : Copy) (data : List ((Nat × Nat) × Word × Bool)) (m : Workgroup) : State :=
  let off := fun (p : Nat × Nat) => wbits c.desc[2] 19 0 + p.1 * c.desc[7].toNat + 4 * p.2
  let hit := s.hitCells m.wid (data.map fun e => off e.1)
  let data := data.map fun e => (ERes.core m.wid (off e.1), if hit then (Config.word (s.fresh * 2 ^ 64 + m.wid * 2 ^ 32 + off e.1), e.2.2) else e.2)
  let t := s.putWords c.who data [] 0
  let t := if hit then t.spendCells c.core m.wid (data.map fun e => match e.1 with | .core _ o => o | _ => 0) else t
  if c.bar = 0 then t else t.updBarWord m.wid c.bar (if hit then faultWord else arriveWord 1)
/-- The cores a multicast fails: those that do not pass its checks, and those whose writes meet an uncorrectable error. -/
def State.multiFailed (s : State) (c : Copy) : Nat :=
  (c.named.filter fun k => match s.receiver? c k with
    | none => true
    | some m => s.hitCells m.wid (c.places.map fun p => wbits c.desc[2] 19 0 + p.1 * c.desc[7].toNat + 4 * p.2)).foldl (fun a k => a + 2 ^ k) 0
/-- A multicast reads its source once and writes every receiver that passes its checks (R235); an empty mask is success (R234). -/
def State.runMulti (s : State) (c : Copy) : State :=
  let src := c.places.map fun p => (p, s.engRes c.who c.wid false (c.srcAt p.1 p.2))
  if c.named.isEmpty then s.endCopy c 0
  else if c.fatal then s.failMulti c 0x08
  else match firstBar (src.map fun p => (false, p.2)) with
  | .park p second write => s.engPark c p second write
  | .fault k => s.failMulti c k
  | .clear =>
    let s := (src.map (·.2)).foldl (State.engFill c.who) s
    let data := src.map fun e => (e.1, s.engRead c.who e.2)
    let t := (s.receivers c).foldl (fun t m => t.putReceiver c data m) s
    let failed := s.multiFailed c
    t.endCopy c (if failed ≠ 0 then BitVec.ofNat 32 (2 ^ 31 + failed) else if data.any fun e => e.2.2 then 0xC000000D else 0)
def execCopyComplete (cid : Nat) : State → Out := fun s =>
  match s.copies.find? fun c => c.id = cid with
  | none => .next s
  | some c =>
    if !c.accepted || c.tag.isSome || c.kind = 10 then .next s
    else .next (if c.multi then s.runMulti c else s.runCopy c)

/-! ### Put with signal (R228, R237, R258) -/
def remoteDev (r : ERes) : Option Nat := match r with | .remote leaf _ => some (bits leaf.toNat 26 16) | _ => none
/-- The device that holds a global pointer's page (none: this one), where it is known. -/
def State.deviceOf (s : State) (who : Who) (p : Dword) : Option (Option Nat) :=
  let leaf := match s.heldLine who (vaOf p) with
    | some l => some l.leaf
    | none => match s.translate who (vaOf p) with | .page leaf => some leaf | _ => none
  if ptrBad p || vaOf p ≥ windowBase then none
  else leaf.map fun l => if leafRem l then some (bits l.toNat 26 16) else none
/-- The flag word: FVAL stored or added. -/
def State.setFlag (s : State) (c : Copy) (r : ERes) : State :=
  let (x, _) := s.engRead c.who r
  s.engWrite c.who r (if c.flag[3].getLsbD 0 then x + c.flag[2] else c.flag[2]) false
def execPutsigComplete (cid : Nat) : State → Out := fun s =>
  match s.copies.find? fun c => c.id = cid with
  | none => .next s
  | some c =>
    if !c.accepted || c.tag.isSome || c.kind ≠ 10 then .next s
    else
      let l := s.engPairs c
      -- the window takes no flag update (R38)
      let fl := match s.engRes c.who c.wid true (.glob (joinPair c.flag[0] c.flag[1])) with | .window _ => .fault 0x06 | r => r
      .next <|
        if c.fatal then (s.partWrites c.who l 0).endCopy c (faultToken 0x08)
        else match firstBar (l.flatMap fun p => [(false, p.1), (true, p.2)]) with
        | .park p second write => s.engPark c p second write
        | .fault k => (s.partWrites c.who l 0).endCopy c (faultToken k)
        | .clear =>
          -- the devices are compared before what the flag's page allows is looked at
          if (s.deviceOf c.who (joinPair c.flag[0] c.flag[1])).any fun dev => l.any fun p => remoteDev p.2 ≠ dev then
            s.endCopy c (faultToken 0x06)
          else match firstBar [(true, fl)] with
          | .park p second write => s.engPark c p second write
          | .fault k => s.endCopy c (faultToken k)
          | .clear =>
            let (t, data) := s.moveWords c.who l
            (t.setFlag c fl).endCopy c (if data.any fun e => e.2.2 then 0xC000000D else 0)

/-! ### Queues (R238, R239, R259, R260) -/
def Launch.updStage (k : Nat) (f : Stage → Stage) (l : Launch) : Launch :=
  { l with stages := l.stages.mapIdx fun i st => if i = k then f st else st }
/-- On-chip records, and records of the overflow ring in memory (R239). -/
def stageChip (st : Stage) : Nat := wbits st.desc[3] 10 0
def stageRing (st : Stage) : Nat := wbits st.desc[6] 20 0
/-- Where record i of a stage's ring lies. -/
def ringAt (st : Stage) (i : Nat) : Nat := st.desc[4].toNat + wbits st.desc[5] 19 0 * 2 ^ 32 + 64 * (i % stageRing st)
/-- The stage holds no record. -/
def Stage.empty (st : Stage) : Bool := st.queue.isEmpty && st.ringCount = 0
/-- A push: the state after it, or none where both parts are full. The on-chip part takes the record, or once it is full the ring. -/
def State.pushOf (s : State) (lid ctx k : Nat) (r : List Word) : Option State :=
  let st := ((s.launch? lid).getD {}).stage k
  if st.queue.length < stageChip st then
    some (s.updLaunch lid (Launch.updStage k fun st => { st with queue := st.queue ++ [r] })).wake
  else if st.ringCount < stageRing st then
    let t := s.devPuts (s.who ctx 0 0) (ringAt st (st.ringHead + st.ringCount)) r
    some (t.updLaunch lid (Launch.updStage k fun st => { st with ringCount := st.ringCount + 1 })).wake
  else none
def State.push (s : State) (k : Nat) (r : List Word) : Option State := s.pushOf s.myLid s.myCtx k r
/-- The record that leaves the queue, the `n`-th in this step: which one is the device's choice among the on-chip ones and the ring's oldest (R125, R260). -/
def State.popOf (s : State) (lid ctx k n : Nat) : Option (List Word × State) :=
  let st := ((s.launch? lid).getD {}).stage k
  let j := s.free 6 n % (st.queue.length + (if st.ringCount = 0 then 0 else 1))
  match st.queue[j]? with
  | some r => some (r, (s.updLaunch lid (Launch.updStage k fun st => { st with queue := st.queue.eraseIdx j, quads := st.quads.erase r })).wake)
  | none =>
    if st.ringCount = 0 then none
    else
      let s := s.devSee (s.who ctx 0 0) (ringAt st st.ringHead) (4 * stageWidth st)
      let r := (List.range (stageWidth st)).map fun i => s.devWord (s.who ctx 0 0) (ringAt st st.ringHead + 4 * i)
      some (r, (s.updLaunch lid (Launch.updStage k fun st =>
        { st with ringHead := (st.ringHead + 1) % stageRing st, ringCount := st.ringCount - 1, quads := st.quads.erase r })).wake)
def State.pop (s : State) (k : Nat) : Option (List Word × State) := s.popOf s.myLid s.myCtx k 0
/-- The scalars a queue word names beyond those in its fields wait for tokens and may be poisoned. -/
def State.withScalars (s : State) (reads writes : List SReg) (f : State → State) : State :=
  let r := s.src.regs
  if r.pending &&& regBits (reads ++ writes) ≠ 0 then s.stallNow
  else if r.spois &&& regBits reads ≠ 0 then s.consumeScalars (r.spois &&& regBits reads)
  else f s
def execQpush (d : SReg) (a : QReg) (b : SReg) : State → Out :=
  issueSeq (.qpush d a b) fun s =>
    match s.boundQueue a with
    | none => s
    | some k =>
      let w := stageWidth (s.myLaunch.stage k)
      s.withScalars (regRun b w) [] fun s =>
        let s := s.endTransaction
        match s.push k (s.src.readSs b w) with
        | some t => t.setS d 1
        | none => s.setS d 0
/-- `qpop` with a record to take, or none. Taking a record is an acquire at DEVICE (R229). -/
def State.tryPop (s : State) (d : SReg) (k : Nat) : Option State := (s.pop k).map fun p => (p.2.dropCopies 2).setSs d p.1
def execQpop (d : SReg) (a : QReg) : State → Out :=
  issueSeq (.qpop d a) fun s =>
    match s.boundQueue a with
    | none => s
    | some k =>
      s.withScalars [] (regRun d (stageWidth (s.myLaunch.stage k))) fun s =>
        match s.tryPop d k with
        | some t => t
        | none => s.waitFor (.pop d a)
/-- The waiting `qpop` completes with a record; in a chained pair, or in
deterministic issue mode (R186), its words are tried again in their turn (log 15). -/
def execQpopTake (gid : Nat) (k : Fin 2) : State → Out := fun s =>
  let t := s.focus gid k
  if t.g.gid ≠ gid || gid = 0 then .next s
  else
    match t.g.me.leaf with
    | some l =>
      match l.wait with
      | .pop d a => if l.chained || stageDet t.myStage then .next t.wake else mapOut (execQpop d a { t with latch := {} }) fun u => u.spillOut gid
      | _ => .next s
    | none => .next s
def execQpoll (d : SReg) (a : QReg) : State → Out :=
  issueSeq (.qpoll d a) fun s =>
    match s.boundQueue a with
    | none => s
    | some k =>
      s.withScalars [] (regRun d (stageWidth (s.myLaunch.stage k) + 1)) fun s =>
        match s.pop k with
        | some (r, t) => (t.dropCopies 2).setSs d (1 :: r)
        | none => s.setS d 0

/-! Major 0x3A (R123, R124, R262). -/
/-- A record padded with zero words to the queue's width. -/
def padTo (w : Nat) (r : List Word) : List Word := r ++ List.replicate (w - r.length) 0
/-- Pushes of the lanes `ls` in order; the predicate each lane gets. -/
def State.pushLanes (s : State) (k : Nat) (skip : Lane → Bool) (rec4 : Lane → List Word) : List Lane → State × List (Nat × PVal)
  | [] => (s, [])
  | L :: ls =>
    if skip L then
      let (t, l) := s.pushLanes k skip rec4 ls
      (t, (L.val, .t) :: l)
    else
      match s.push k (padTo (stageWidth (s.myLaunch.stage k)) (rec4 L)) with
      | some t =>
        let (t, l) := t.pushLanes k skip rec4 ls
        (t, (L.val, .t) :: l)
      | none =>
        let (t, l) := s.pushLanes k skip rec4 ls
        (t, (L.val, .f) :: l)
def pushWord (i : Instr) (guarded : Bool) (d : PReg) (a b : VReg) (spawn : Bool) (k : State → Option Nat) : State → Out :=
  issueSeq i fun s =>
    match k s with
    | none => s
    | some k =>
      let s := s.endTransaction
      let src := s.src
      let lanes := s.lanes guarded
      let sick := src.poisonIn i.names.vr lanes
      let kind := fun L => ({ lo := (src.readV a L).toNat, hi := (src.readV (vreg a 1) L).toNat } : Iv).kind fp32
      let bad := fun L => spawn && kind L = .malformed
      let t := s.raiseEach lanes fun L => if sick.getLsbD L.val then some (0x0D, 0) else if bad L then some (0x0A, 0) else none
      let ok := (lanesOf (lanes &&& ~~~sick)).filter fun L => !bad L
      let words := fun L => [src.readV a L, src.readV (vreg a 1) L, src.readV b L, src.readV (vreg b 1) L]
      let (t, l) := t.pushLanes k (fun L => spawn && kind L = .empty) words ok
      t.setP d (maskOf fun L => ok.any fun K => K = L) fun L => (l.lookup L.val).getD .f
def execEmit (g : Bool) (d : PReg) (a b : VReg) : State → Out := pushWord (.emit g d a b) g d a b false State.emitTo
def execSpawn (g : Bool) (d : PReg) (a b : VReg) : State → Out := pushWord (.spawn g d a b) g d a b true State.spawnTo

end
end Sys2Proof.Machine
end

