-- ==== Sys2Proof/Machine/Matrix.lean ====
section
/-!
DEFINITION. Machine/Matrix.lean: major 0x37: the matrix words as they issue, and the steps of a core's matrix order: claims, spans,
reservations, products and tile moves (21 R319-R323, 22 R324-R340, 23 R341-R352, 07 R142).
-/
namespace Sys2Proof.Machine
noncomputable section

/-! ### Issue (R342) -/
/-- The word reads its operand scalars and enters its core's matrix order; the slot stalls while the order is full. -/
def matrixWord (i : Instr) (kind : MKind) (d a : SReg) (n : Nat) : State → Out :=
  issueSeq i fun s =>
    if (s.core? s.g.core).order.length ≥ Config.matrixDepth then s.stallNow
    else
      let s := if kind = .mld || kind = .mst then s.endTransaction else s
      let g := s.src
      let op : MOp := { id := s.fresh, kind := kind, gid := s.g.gid, wid := s.g.wid, token := d, ipc := s.ipc, shm := shm g.regs.fmode
                        desc := Vector.ofFn fun k => if k.val < n then g.readS (sreg a k.val) else 0 }
      (s.updCore s.g.core fun c => { c with order := c.order ++ [op] }).setPending d true
def execMma (d a : SReg) : State → Out := matrixWord (.mma d a) .mma d a 8
def execMld (d a : SReg) : State → Out := matrixWord (.mld d a) .mld d a 4
def execMst (d a : SReg) : State → Out := matrixWord (.mst d a) .mst d a 4
def execMzero (d a : SReg) : State → Out := matrixWord (.mzero d a) .mzero d a 1
def execMres (d a : SReg) : State → Out := matrixWord (.mres d a) .mres d a 2
def execMrel (a : SReg) : State → Out := matrixWord (.mrel a) .mrel 63 a 1
def execMspan (d a : SReg) : State → Out := matrixWord (.mspan d a) .mspan d a 1
def execMunspan : State → Out := matrixWord .munspan .munspan 63 63 0

/-! ### The matrix order of a core (R324, R342, R343) -/
def MOp.claims (o : MOp) : Bool :=
  match o.kind with
  | .mst | .mrel | .munspan => false
  | _ => true
/-- The first word of each workgroup, in order. -/
def firstsOf : List Nat → List MOp → List MOp
  | _, [] => []
  | seen, o :: os => if seen.contains o.wid then firstsOf seen os else o :: firstsOf (o.wid :: seen) os
/-- The word is this core's own to take, and need not wait for the claim, nor, an `mma`, for the end of a span that its core is slaved
to. -/
def Core.ready (c : Core) (o : MOp) : Bool :=
  o.lead.isNone && (!o.claims || c.claim = none || c.claim = some o.wid) && !(o.kind = .mma && c.master.isSome)
def Core.nextOp (c : Core) : Option MOp := if c.order.any (·.started) then none else (firstsOf [] c.order).find? c.ready
def Core.openOp (c : Core) (k : MKind) : Option MOp := c.order.find? fun o => o.started && o.kind = k
def State.setOp (s : State) (core : CoreId) (id : Nat) (f : MOp → MOp) : State :=
  s.updCore core fun c => { c with order := c.order.map fun o => if o.id = id then f o else o }
/-- The places that a span's `mma` took in the followers' orders are free. -/
def State.leaveOrders (s : State) (id : Nat) : State :=
  { s with cores := s.cores.map fun c : Core => { c with order := c.order.filter fun o => !(o.id = id && o.lead.isSome) } }
def State.dropOp (s : State) (core : CoreId) (id : Nat) : State :=
  ((s.updCore core fun c => { c with order := c.order.filter fun o => o.id ≠ id }).leaveOrders id).wake
def State.opWho (s : State) (core : CoreId) (o : MOp) : Who :=
  match s.group? o.gid with
  | some g => { s.who ((s.ctxOfGroup g).getD 0) core 0 with gid := o.gid }
  | none => { core := core, engine := true }
/-- The word completes: its token lands, with the SAT and the SHDCNT it leaves (R337, R142); the token of an `mst` orders its writes for
the group, whose later loads find them (R226, R347). -/
def State.endMOp (s : State) (core : CoreId) (o : MOp) (token : Word) : State :=
  let s := if o.kind = .mst then s.dropCopiesOf (s.opWho core o) 1 else s
  (s.dropOp core o.id).updGroup o.gid fun g =>
    let r := g.regs.land o.token token
    { g with regs := { r with
      fstat := if o.sat then r.fstat ||| flagSAT.setWidth 32 else r.fstat
      shdcnt := if o.miss then satInc r.shdcnt 1 else r.shdcnt } }
/-- The workgroup claims a free core, for itself or, `bid`, for an `mspan` of its leader: every accumulator element reads +0 and no
reservation is held (R324). A word of its own makes the claim its own. -/
def Core.claimFor (wid : Nat) (bid : Option Nat) (c : Core) : Core :=
  if c.claim = none then { c with claim := some wid, bid := bid, orphan := false, acc := [], accPois := [], res := [], heldTiles := 0, writes := [] }
  else if bid.isNone && c.claim = some wid then { c with bid := none } else c
/-- The claims that a refused `mspan` has made end (R351). -/
def State.dropBids (s : State) (id : Nat) : State :=
  { s with cores := s.cores.map fun c : Core => if c.bid = some id then { c with claim := none, bid := none } else c }

/-! ### Spans (R325, R326) -/
def spanSize (code : Nat) : Nat := 2 ^ code
def spanCols (code : Nat) : Nat := match code with | 0 => 1 | 1 | 2 => 2 | _ => 4
def spanRows (code : Nat) : Nat := match code with | 0 | 1 => 1 | _ => 2
def spanCores (core : CoreId) (code : Nat) : List CoreId := (List.range (spanSize code)).map fun k => Fin.ofNat 256 (core.val + k)
/-- The member of a workgroup's gang on a core. -/
def State.memberOn (s : State) (w : Workgroup) (core : CoreId) : Option Workgroup :=
  if core = w.core then some w else s.allWgs.find? fun m => m.wid ≠ 0 && m.gangId = w.gangId && m.core = core

/-! ### The accumulator store (R330) -/
/-- An element's place: byte 4 × place of `acc`, entry place of `accPois`. -/
def elemAt (trow tcol i j : Nat) : Nat := 256 * (64 * trow + i) + 64 * tcol + j
def Core.elem (c : Core) (at_ : Nat) : Word := memWord c.acc (4 * at_)
def Core.setElem (at_ : Nat) (w : Word) (poison : Bool) (c : Core) : Core :=
  { c with acc := memSetWord c.acc (4 * at_) w, accPois := memSet c.accPois at_ (if poison then 1 else 0) }
def Core.hold (trow tcol : Nat) (c : Core) : Core := { c with heldTiles := c.heldTiles ||| (1#16 <<< (4 * trow + tcol)) }
def tilePlaces : List (Nat × Nat) := (List.range 64).flatMap fun i => (List.range 64).map fun j => (i, j)
/-- Every element of a tile, by its place in the tile. -/
def Core.setTile (trow tcol : Nat) (f : Nat → Nat → Word × Bool) (c : Core) : Core :=
  (tilePlaces.foldl (fun c p => c.setElem (elemAt trow tcol p.1 p.2) (f p.1 p.2).1 (f p.1 p.2).2) c).hold trow tcol
/-- The tiles are written for an operation. -/
def Core.noteWrite (o : MOp) (tiles : List Nat) (c : Core) : Core :=
  { c with writes := c.writes ++ tiles.map fun k => { op := o.id, tile := k, gid := o.gid } }
/-- Another group's write of the tile behind every operation that the reading group issued itself or whose arrival it has acquired: what the
array performed before one of those comes before it (R322, R340). -/
def Core.unordered (c : Core) (gid tile : Nat) : Bool :=
  (c.writes.reverse.takeWhile fun x => x.gid ≠ gid && !x.seen.contains gid).any fun x => x.tile = tile
/-- The tile's values are undefined (R10). -/
def State.freeTile (s : State) (trow tcol : Nat) (c : Core) : Core :=
  c.setTile trow tcol fun i j => (Config.element s.fresh (elemAt trow tcol i j), false)

/-! ### Reservations (R327-R329) -/
def elemBits (fmt : Nat) : Nat := match fmt with | 0 | 1 => 16 | 6 => 4 | 7 => 32 | _ => 8
def grouped (fmt : Nat) : Bool := fmt = 5 || fmt = 6
def groupLen (code : Nat) : Nat := 32 * 2 ^ code
def colStride (fmt k : Nat) : Nat := ((k * elemBits fmt + 7) / 8 + 31) / 32 * 32
def scaleOff (fmt k n : Nat) : Nat := (n * colStride fmt k + 255) / 256 * 256
def packedSize (fmt glen k n : Nat) : Nat := scaleOff fmt k n + if grouped fmt then 4 * n * k / groupLen glen else 0
/-- Fields of a reservation record. -/
structure Res where
  base : Nat
  size : Nat
  fmt : Nat
  glen : Nat
  cols : Nat
  k : Nat
  soff : Nat
  deriving DecidableEq, Repr
def resOf (r : Vector Word 4) : Res :=
  { base := wbits r[0] 18 0, size := wbits r[1] 19 0, fmt := wbits r[1] 23 20, glen := wbits r[1] 25 24
    cols := wbits r[2] 15 0, k := wbits r[2] 31 16, soff := wbits r[3] 19 0 }
def Core.res? (c : Core) (rid : Nat) : Option Res := (c.res.lookup rid).map resOf
def mresIllegal (a0 a1 : Word) : Bool :=
  let fmt := wbits a0 23 20
  let gl := wbits a0 25 24
  let n := wbits a1 15 0
  let k := wbits a1 31 16
  wbits a0 31 26 ≠ 0 || fmt ≥ 7 || gl = 3 || (gl ≠ 0 && !grouped fmt) || n = 0 || n > 4096 || k = 0 || k % 16 ≠ 0 ||
  (grouped fmt && k % groupLen gl ≠ 0) || wbits a0 19 0 < packedSize fmt gl k n
/-- The lowest free run of `size` bytes. -/
def Core.freeRun (c : Core) (size : Nat) : Option Nat :=
  let held := c.res.map fun r => resOf r.2
  let fits := fun b => b + size ≤ Config.weightBytes && held.all fun r => b + size ≤ r.base || r.base + r.size ≤ b
  let bases := (0 :: held.map fun r => r.base + r.size).filter fits
  match bases with
  | [] => none
  | b :: bs => some (bs.foldl min b)
def Core.freeId (c : Core) : Option Nat := (List.range 64).find? fun i => (c.res.lookup i).isNone
def State.performMres (s : State) (core : CoreId) (o : MOp) : State :=
  let a0 := o.desc[0]
  let a1 := o.desc[1]
  let size := (wbits a0 19 0 + 255) / 256 * 256
  let fmt := wbits a0 23 20
  if mresIllegal a0 a1 then s.endMOp core o 0xC0000001
  else
    match (s.core? core).freeId, (s.core? core).freeRun size with
    | some id, some base =>
      let r : Vector Word 4 := #v[BitVec.ofNat 32 (base + 2 ^ 31), BitVec.ofNat 32 size ||| (a0 &&& 0x03F00000), a1,
        BitVec.ofNat 32 (scaleOff fmt (wbits a1 31 16) (wbits a1 15 0))]
      (s.updCore core fun c => { c with res := (id, r) :: c.res }).endMOp core o (BitVec.ofNat 32 id)
    | _, _ => s.endMOp core o 0xC0000004

/-! ### The descriptor of `mma` (R331) -/
structure MDesc where
  aoff : Nat
  swz : Nat
  afmt : Nat
  astr : Nat
  k : Nat
  rid : Nat
  kst : Nat
  m : Nat
  n : Nat
  span : Nat
  rnd : Nat
  absb : Bool
  zeroacc : Bool
  int32 : Bool
  trow : Nat
  tcol : Nat
  cbar : Nat
  deriving DecidableEq, Repr
def mdesc (d : Vector Word 8) : MDesc :=
  { aoff := wbits d[0] 19 0, swz := wbits d[0] 23 20, afmt := wbits d[0] 27 24, astr := wbits d[1] 15 0, k := wbits d[1] 31 16
    rid := wbits d[2] 7 0, kst := wbits d[2] 31 8, m := wbits d[3] 9 0, n := wbits d[3] 19 10, span := wbits d[3] 21 20
    rnd := wbits d[3] 23 22, absb := d[3].getLsbD 24, zeroacc := d[3].getLsbD 25, int32 := d[3].getLsbD 26
    trow := wbits d[4] 1 0, tcol := wbits d[4] 3 2, cbar := wbits d[5] 19 0 }
def mReserved (d : Vector Word 8) : Bool :=
  wbits d[0] 31 28 ≠ 0 || wbits d[3] 31 27 ≠ 0 || wbits d[4] 31 4 ≠ 0 || wbits d[5] 31 20 ≠ 0 || d[6] ≠ 0 || d[7] ≠ 0
def tileCount (x : Nat) : Bool := x = 64 || x = 128 || x = 192 || x = 256
/-- The pairs of R334. -/
def goodPair (a b : Nat) : Bool :=
  match a with
  | 0 => b = 0 || grouped b
  | 1 => b = 1
  | 2 => b = 2 || b = 3 || grouped b
  | 3 => b = 2 || b = 3
  | 4 => b = 4
  | _ => false
def aSize (afmt : Nat) : Nat := elemBits afmt / 8
/-- R332 and R333, the ILLEGAL checks, on the reservations of the span cores. A K of 0 is out of range (log 19). -/
def mmaIllegal (d : Vector Word 8) (code : Nat) (rs : List (Option Res)) : Bool :=
  let x := mdesc d
  mReserved d || !tileCount x.m || !tileCount x.n || x.k = 0 || x.k % 16 ≠ 0 || x.rnd = 3 || x.span ≠ code || x.afmt > 4 ||
  x.swz > 1 || x.cbar % 8 ≠ 0 || (x.int32 != decide (x.afmt = 4)) ||
  (rs.any fun r => match r with | some r => !goodPair x.afmt r.fmt | none => false) ||
  (x.swz = 1 && (x.astr % 128 ≠ 0 || x.k * aSize x.afmt % 128 ≠ 0))
def mmaBounds (d : Vector Word 8) (code : Nat) (w : Workgroup) (rs : List (Option Res)) (members : List (Option Workgroup)) : Bool :=
  let x := mdesc d
  let bad := fun (r : Option Res) => match r with
    | none => true
    | some r => decide (x.kst + x.k > r.k) || decide (x.n > r.cols) ||
      (grouped r.fmt && (x.kst % groupLen r.glen ≠ 0 || x.k % groupLen r.glen ≠ 0))
  let barBad := fun (m : Option Workgroup) => match m with | none => true | some m => decide (x.cbar + 8 > m.cmBytes)
  x.trow + x.m / 64 > 4 || x.tcol + x.n / 64 > 4 || x.k * aSize x.afmt > x.astr ||
  x.aoff + (spanRows code * x.m - 1) * x.astr + x.k * aSize x.afmt > w.cmBytes ||
  rs.any bad || (x.cbar ≠ 0 && members.any barBad)

/-! ### Operand elements (R326, R328, R333, R138) -/
def smallFmt (code : Nat) : Fmt := match code with | 0 => fp16 | 1 => bf16 | 2 => fe4m3 | _ => fe5m2
def intVal (x : Int) : Val := .fin (decide (x < 0)) x.natAbs 0
/-- Byte of element k of A's row `i`, counted over the whole span. -/
def aAddr (x : MDesc) (i k : Nat) : Nat :=
  let b := k * aSize x.afmt
  x.aoff + i * x.astr + if x.swz = 1 then ((b / 16) ^^^ (i % 8)) * 16 + b % 16 else b
def aRaw (w : Workgroup) (x : MDesc) (i k : Nat) : Nat := leNat (memRead w.cm (aAddr x i k) (aSize x.afmt))
def aVal (w : Workgroup) (x : MDesc) (i k : Nat) : Val := (smallFmt x.afmt).val (aRaw w x i k)
/-- A poisoned word holds part of the element; one may straddle two words. -/
def aSick (w : Workgroup) (x : MDesc) (i k : Nat) : Bool :=
  (List.range (aSize x.afmt)).any fun j => memGet w.cmPois ((aAddr x i k + j) / 4) ≠ 0
def bAddr (r : Res) (n k : Nat) : Nat := r.base + n * colStride r.fmt r.k + k * elemBits r.fmt / 8
def bRaw (c : Core) (r : Res) (n k : Nat) : Nat :=
  match elemBits r.fmt with
  | 16 => leNat (memRead c.wb (bAddr r n k) 2)
  | 4 => (memGet c.wb (bAddr r n k)).toNat / 16 ^ (k % 2) % 16
  | _ => (memGet c.wb (bAddr r n k)).toNat
def recAddr (r : Res) (n g : Nat) : Nat := r.base + r.soff + 4 * (n * (r.k / groupLen r.glen) + g)
/-- The record of the group that holds row k: scale, zero point. -/
def scaleVal (c : Core) (r : Res) (n k : Nat) : Val := fp16.val (leNat (memRead c.wb (recAddr r n (k / groupLen r.glen)) 2))
def zeroPoint (c : Core) (r : Res) (n k : Nat) : Nat :=
  let z := (memGet c.wb (recAddr r n (k / groupLen r.glen) + 2)).toNat
  if r.fmt = 6 then z % 16 else z
def qMinusZ (c : Core) (r : Res) (n k : Nat) : Int := (bRaw c r n k : Int) - zeroPoint c r n k
def bVal (absb : Bool) (c : Core) (r : Res) (n k : Nat) : Val :=
  let v := (smallFmt r.fmt).val (bRaw c r n k)
  if absb then v.abs else v
def s8 (x : Nat) : Int := (BitVec.ofNat 8 x).toInt
def bSick (c : Core) (r : Res) (n k : Nat) : Bool :=
  memGet c.wbPois (bAddr r n k / 4) ≠ 0 || (grouped r.fmt && memGet c.wbPois (recAddr r n (k / groupLen r.glen) / 4) ≠ 0)

/-! ### Arithmetic order (R335-R338) -/
def Exact.toVal : Exact → Val
  | .nan _ => .nan false
  | .inf n => .inf n
  | .val n m e _ => .fin n m e
/-- The exact sum; ∞ and −∞ give NaN. -/
def sumV (md : Mode) : List Val → Val
  | [] => .fin false 0 0
  | x :: xs => xs.foldl (fun a b => (addV md a b).toVal) x
def roundV (md : Mode) (x : Exact) : Nat := (finish fp32 md false x).bits
/-- acc ← Round(Round(x) + acc). -/
def addStep (md : Mode) (acc : Nat) (x : Val) : Nat :=
  roundV md (addV md (fp32.val (roundV md x.exact)) (fp32.val acc))
def plusZero : Val → Val
  | .fin n m e => if m = 0 then .fin false 0 e else .fin n m e
  | v => v
def chunkList (k len : Nat) : List Nat := (List.range (k / len)).map (· * len)
/-- R335: 16 products at a time. -/
def dotFloat (md : Mode) (a b : Nat → Val) (k acc : Nat) : Nat :=
  (chunkList k 16).foldl (fun acc k0 =>
    addStep md acc (sumV md ((List.range 16).map fun j => (mulV (a (k0 + j)) (b (k0 + j))).toVal))) acc
/-- R336: a group at a time. -/
def dotGroup (md : Mode) (absb : Bool) (a : Nat → Val) (q : Nat → Int) (scale : Nat → Val) (len k acc : Nat) : Nat :=
  (chunkList k len).foldl (fun acc k0 =>
    let term := fun j => (mulV (a (k0 + j)) (intVal (if absb then (q (k0 + j)).natAbs else q (k0 + j)))).toVal
    let d := plusZero (sumV md ((List.range len).map term))
    let sc := if absb then (scale k0).abs else scale k0
    addStep md acc (fp32.val (roundV md (mulV sc d)))) acc
/-- R337: the sums are clamped chunk by chunk; whether any was. -/
def dotInt (a b : Nat → Int) (k : Nat) (acc : Int) : Int × Bool :=
  (chunkList k 16).foldl (fun st k0 =>
    let x := st.1 + ((List.range 16).map fun j => a (k0 + j) * b (k0 + j)).sum
    if x < -2147483648 then (-2147483648, true) else if x > 2147483647 then (2147483647, true) else (x, st.2)) (acc, false)
def mMode (rnd : Nat) : Mode := match rnd with | 1 => .rd | 2 => .ru | _ => .rne
/-- Element (i, n) of a span core's result: its value, and whether it clamped. `row` is A's row over the whole span. -/
def mmaElem (w : Workgroup) (x : MDesc) (c : Core) (r : Res) (row i n : Nat) : Word × Bool :=
  let old : Word := if x.zeroacc then 0 else c.elem (elemAt x.trow x.tcol i n)
  let md := mMode x.rnd
  if x.int32 then
    let b := fun k => let v := s8 (bRaw c r n (x.kst + k)); if x.absb then (v.natAbs : Int) else v
    let (v, sat) := dotInt (fun k => s8 (aRaw w x row k)) b x.k old.toInt
    (BitVec.ofInt 32 v, sat)
  else if grouped r.fmt then
    (BitVec.ofNat 32 (dotGroup md x.absb (aVal w x row) (fun k => qMinusZ c r n (x.kst + k)) (fun k => scaleVal c r n (x.kst + k))
      (groupLen r.glen) x.k old.toNat), false)
  else (BitVec.ofNat 32 (dotFloat md (aVal w x row) (fun k => bVal x.absb c r n (x.kst + k)) x.k old.toNat), false)
/-- A poisoned operand reaches the element (R302, R344). -/
def mmaSick (w : Workgroup) (x : MDesc) (c : Core) (r : Res) (row n : Nat) : Bool :=
  (List.range x.k).any fun k => aSick w x row k || bSick c r n (x.kst + k)

/-! ### The checksum column (R142, R339) -/
/-- The B value of the column: the tile's 64 values summed, and rounded once to FP32. -/
def checkB (x : MDesc) (c : Core) (r : Res) (n0 k : Nat) : Val :=
  let one := fun n =>
    if grouped r.fmt then
      let v := (mulV (scaleVal c r n k) (intVal (qMinusZ c r n k))).toVal
      if x.absb then v.abs else v
    else bVal x.absb c r n k
  fp32.val (roundV .rne (sumV .rne ((List.range 64).map fun j => one (n0 + j))).exact)
/-- The checksum of row i of a tile: it starts from the row's elements summed and rounded once (log 19). -/
def rowCheck (w : Workgroup) (x : MDesc) (c : Core) (r : Res) (row i n0 : Nat) : Nat :=
  let old := (List.range 64).map fun j => fp32.val (c.elem (elemAt x.trow x.tcol i (n0 + j))).toNat
  let start := if x.zeroacc then 0 else roundV .rne (sumV .rne old).exact
  let len := if grouped r.fmt then groupLen r.glen else 16
  (chunkList x.k len).foldl (fun acc k0 => addStep .rne acc
    (sumV .rne ((List.range len).map fun j => (mulV (aVal w x row (k0 + j)) (checkB x c r n0 (x.kst + k0 + j))).toVal))) start
/-- The row passes: |checksum − sum| ≤ 2^-8 × Σ|row| + 2^-20; a NaN or an infinity in it fails. -/
def rowPasses (chk : Nat) (row : List Nat) : Bool :=
  let vs := row.map fp32.val
  let diff := (addV .rne (fp32.val chk) (sumV .rne vs).neg).toVal.abs
  let size := sumV .rne (vs.map Val.abs)
  let lim := match size with | .fin _ m e => (addV .rne (.fin false m (e - 8)) (.fin false 1 (-20))).toVal | v => v
  match diff, lim with
  | .fin _ _ _, .fin _ _ _ => Val.le diff lim
  | _, _ => false
/-- Every row of every tile of a core's result passes; INT32 sums in the array are exact, so theirs always do. -/
def coreChecks (w : Workgroup) (x : MDesc) (c : Core) (r : Res) (rowBase : Nat) : Bool :=
  x.int32 || (List.range x.m).all fun i => (List.range (x.n / 64)).all fun t =>
    rowPasses (rowCheck w x c r (rowBase + i) i (64 * t)) ((List.range 64).map fun j => (mmaElem w x c r (rowBase + i) i (64 * t + j)).1.toNat)

/-! ### `mma` (R344) -/
/-- A span core's result is written; what it read was whole, nothing clamped, its checksums held. -/
structure Part1 where
  sick : Bool
  sat : Bool
  checks : Bool
  deriving DecidableEq, Repr
def resultPlaces (x : MDesc) : List (Nat × Nat) := (List.range x.m).flatMap fun i => (List.range x.n).map fun n => (i, n)
def Core.writeResult (w : Workgroup) (x : MDesc) (r : Res) (rowBase : Nat) (c : Core) : Core :=
  let put := fun (t : Core) (p : Nat × Nat) =>
    let at_ := elemAt x.trow x.tcol p.1 p.2
    let old := !x.zeroacc && decide (memGet c.accPois at_ ≠ 0)
    t.setElem at_ (mmaElem w x c r (rowBase + p.1) p.1 p.2).1 (old || mmaSick w x c r (rowBase + p.1) p.2)
  let t := (resultPlaces x).foldl put c
  ((List.range (x.m / 64)).flatMap fun a => (List.range (x.n / 64)).map fun b => (a, b)).foldl
    (fun t p => t.hold (x.trow + p.1) (x.tcol + p.2)) t
def coreReport (w : Workgroup) (x : MDesc) (c : Core) (r : Res) (rowBase : Nat) : Part1 :=
  { sick := (resultPlaces x).any fun p => mmaSick w x c r (rowBase + p.1) p.2
    sat := (resultPlaces x).any fun p => (mmaElem w x c r (rowBase + p.1) p.1 p.2).2
    checks := coreChecks w x c r rowBase }
def State.faultBars (s : State) (cbar : Nat) (members : List (Option Workgroup)) : State :=
  if cbar = 0 || cbar % 8 ≠ 0 then s
  else (members.filterMap id).foldl (fun s m => if cbar + 8 ≤ m.cmBytes then s.updBarWord m.wid cbar faultWord else s) s
/-- The tiles of an `mma` on each span core. -/
def mmaTiles (x : MDesc) : List Nat :=
  (List.range (x.m / 64)).flatMap fun a => (List.range (x.n / 64)).map fun b => 4 * (x.trow + a) + x.tcol + b
/-- A span's `mma` enters every span core's order as the leader's array accepts it (R342). -/
def State.enterOrders (s : State) (core : CoreId) (o : MOp) (ms : List (CoreId × Option Workgroup)) : State :=
  ms.foldl (fun s m =>
    if m.1 = core || (s.core? m.1).order.any fun x => x.id = o.id then s
    else s.updCore m.1 fun c => { c with order := c.order ++ [{ o with lead := some core, wid := (m.2.map (·.wid)).getD o.wid, token := 63 }] }) s
/-- Every word before the span's `mma` in this core's order is complete, but for the core's own `mma` that waits for the end of the span,
and the words behind that one (R321). -/
def Core.reached (c : Core) (id : Nat) : Bool :=
  match c.order.find? fun o => o.id = id with
  | none => true
  | some p => (((c.order.takeWhile fun o => o.id ≠ id).filter fun o => o.wid = p.wid || o.started).takeWhile fun o => !(o.kind = .mma && o.lead.isNone && !o.started)).isEmpty
/-- The array accepts an `mma`; when its turn has come in every span core's order it is checked on each of them, and performed there or
nowhere. -/
def State.performMma (s : State) (core : CoreId) (o : MOp) : State :=
  match s.wg? o.wid with
  | none => s.dropOp core o.id
  | some w =>
    let code := (s.core? core).spanCode
    let ks := spanCores core code
    let members := ks.map fun k => s.memberOn w k
    let s := s.enterOrders core o (ks.zip members)
    let x := mdesc o.desc
    let rs := ks.map fun k => (s.core? k).res? x.rid
    if ks.any fun k => k ≠ core && !(s.core? k).reached o.id then s
    else if mmaIllegal o.desc code rs then (s.faultBars x.cbar members).endMOp core o 0xC0000001
    else if mmaBounds o.desc code w rs members then (s.faultBars x.cbar members).endMOp core o 0xC0000004
    else
      let work := (ks.zip rs).zipIdx.filterMap fun e => e.1.2.map fun r => (e.1.1, r, e.2 / spanCols code * x.m)
      let reps := work.map fun e => coreReport w x (s.core? e.1) e.2.1 e.2.2
      let t := work.foldl (fun t e => t.updCore e.1 fun c => (c.writeResult w x e.2.1 e.2.2).noteWrite o (mmaTiles x)) s
      let failed := o.shm ≠ 0 && reps.any fun p => !p.checks
      let token : Word := if reps.any fun p => p.sick then 0xC000000D else if failed && o.shm ≠ 1 then 0xC000000C else 0
      (t.leaveOrders o.id).setOp core o.id fun o =>
        { o with started := true, result := token, sat := reps.any fun p => p.sat, miss := failed && o.shm = 1 }
/-- The completion arrivals of an operation have happened: its writes name the barrier words. -/
def State.noteArrivals (s : State) (op : Nat) (bars : List (Nat × Nat)) : State :=
  { s with cores := s.cores.map fun c : Core => { c with writes := c.writes.map fun x => if x.op = op then { x with bars := bars } else x } }
/-- The product is complete on every span core: it arrives on CBAR there and its token lands. -/
def execMmaComplete (core : CoreId) : State → Out := fun s =>
  match (s.core? core).openOp .mma with
  | none => .next s
  | some o =>
    let cbar := (mdesc o.desc).cbar
    let members := match s.wg? o.wid with
      | some w => (spanCores core (s.core? core).spanCode).filterMap fun k => s.memberOn w k
      | none => []
    let t := if cbar = 0 then s
      else (members.foldl (fun s m => s.updBarWord m.wid cbar (arriveWord 1)) s).noteArrivals o.id (members.map fun m => (m.wid, cbar))
    .next (t.endMOp core o o.result)

/-! ### Meeting an operation in flight (R322, R340) -/
/-- An `mma` of the span's leader is writing the tile on this slaved core. -/
def State.tileInFlight (s : State) (core : CoreId) (trow tcol : Nat) : Bool :=
  match (s.core? core).master with
  | none => false
  | some m =>
    match (s.core? m).openOp .mma with
    | none => false
    | some o =>
      let x := mdesc o.desc
      x.trow ≤ trow && trow < x.trow + x.m / 64 && x.tcol ≤ tcol && tcol < x.tcol + x.n / 64
/-- R348. -/
def State.performMzero (s : State) (core : CoreId) (o : MOp) : State :=
  if wbits o.desc[0] 31 16 ≠ 0 then s.endMOp core o 0xC0000001
  else
    let zero := fun (c : Core) (t : Nat) =>
      if !o.desc[0].getLsbD t then c
      else if s.tileInFlight core (t / 4) (t % 4) then s.freeTile (t / 4) (t % 4) c
      else c.setTile (t / 4) (t % 4) fun _ _ => (0, false)
    let tiles := (List.range 16).filter fun k => o.desc[0].getLsbD k
    (s.updCore core fun c => ((List.range 16).foldl zero c).noteWrite o tiles).endMOp core o 0

/-! ### Tile moves (R323, R345-R347) -/
def tileFmt (d : Vector Word 8) : Nat := wbits d[3] 7 4
def tileElem (d : Vector Word 8) : Nat := if tileFmt d = 7 then 4 else 2
def tileIllegal (d : Vector Word 8) : Bool := wbits d[3] 31 8 ≠ 0 || (tileFmt d ≠ 0 && tileFmt d ≠ 1 && tileFmt d ≠ 7)
def tilePtrBad (d : Vector Word 8) : Bool :=
  ptrBad (joinPair d[0] d[1]) || vaOf (joinPair d[0] d[1]) + 63 * d[2].toNat + 64 * tileElem d > 2 ^ 52
/-- The checks that come before any page is touched. -/
def tileCause (d : Vector Word 8) : Option Byte :=
  if tileIllegal d then some 0x01
  else if tilePtrBad d then some 0x06
  else if d[0].toNat % 16 ≠ 0 || d[2].toNat % 16 ≠ 0 then some 0x03
  else none
/-- The 4-byte words of a tile: row, and word of the row. -/
def tileWords (d : Vector Word 8) : List (Nat × Nat) :=
  (List.range 64).flatMap fun i => (List.range (16 * tileElem d)).map fun w => (i, w)
def tilePlace (d : Vector Word 8) (p : Nat × Nat) : EPlace := .glob (ptrPlus d[0] d[1] (p.1 * d[2].toNat + 4 * p.2))
/-- The register window is not for tile moves (R37). -/
def State.tileRes (s : State) (core : CoreId) (o : MOp) (write : Bool) (p : Nat × Nat) : ERes :=
  match s.engRes (s.opWho core o) o.wid write (tilePlace o.desc p) with
  | .window _ => .fault 0x06
  | r => r
/-- The move waits for the host to resolve a page (R232, R311). -/
def State.tilePark (s : State) (core : CoreId) (o : MOp) (p : Dword) (second write : Bool) : State :=
  let tag := s.host.nextTag
  let who := s.opWho core o
  let place := match s.group? o.gid with | some g => placeOf g who.ctx | none => 0
  let e : Event := { kind := 1, part := who.part, ctx := BitVec.ofNat 32 who.ctx, va := p, place := place, ipc := o.ipc
                     code := BitVec.ofNat 32 (8 + (if write then 1 else 0) + (if second then 4 else 0)), rtag := tag }
  (({ s with host := { s.host with nextTag := tag + 1 } }).setOp core o.id fun o => { o with tag := some tag }).postEvent e
/-- An element as `mst` writes it. -/
def narrowElem (fmt : Nat) (w : Word) : Nat :=
  if fmt = 7 then w.toNat else (finish (smallFmt fmt) .rne false (fp32.val w.toNat).exact).bits
def widenElem (fmt : Nat) (x : Nat) : Word :=
  if fmt = 7 then BitVec.ofNat 32 x else BitVec.ofNat 32 (finish fp32 .rne false ((smallFmt fmt).val x).exact).bits
/-- The word that `mst` writes for a group, and whether an element of it is poisoned. A tile in flight, or one that another group's
operation wrote and whose arrival this group has not acquired, has undefined values (R322). -/
def State.mstWord (s : State) (core : CoreId) (gid : Nat) (d : Vector Word 8) (p : Nat × Nat) : Word × Bool :=
  let c := s.core? core
  let tr := wbits d[3] 1 0
  let tc := wbits d[3] 3 2
  let fl := s.tileInFlight core tr tc || c.unordered gid (4 * tr + tc)
  let el := fun j => let at_ := elemAt tr tc p.1 j; if fl then Config.element s.fresh at_ else c.elem at_
  let sick := fun j => !fl && decide (memGet c.accPois (elemAt tr tc p.1 j) ≠ 0)
  if tileElem d = 4 then (el p.2, sick p.2)
  else (BitVec.ofNat 32 (narrowElem (tileFmt d) (el (2 * p.2)) + 65536 * narrowElem (tileFmt d) (el (2 * p.2 + 1))),
    sick (2 * p.2) || sick (2 * p.2 + 1))
def State.moveMst (s : State) (core : CoreId) (o : MOp) : State :=
  let who := s.opWho core o
  let l := (tileWords o.desc).map fun p => (p, s.tileRes core o true p)
  let data := l.map fun e => (e.2, s.mstWord core o.gid o.desc e.1)
  let reaches := fun (e : ERes × Word × Bool) => match e.1 with | .fault _ | .park _ _ => false | _ => true
  let fail := fun (c : Byte) =>
    let some_ := (data.zipIdx.filter fun e => reaches e.1 && Config.choice (s.fresh * 4096 + e.2) % 2 = 1).map (·.1)
    (s.putWords who some_ [] 0).endMOp core o (faultToken c)
  if o.fatal then fail 0x08
  else match firstBar (l.map fun e => (true, e.2)) with
  | .park p second write => s.tilePark core o p second write
  | .fault c => fail c
  | .clear =>
    let t := (s.putWords who data [] 0).clearWhole who data
    t.endMOp core o (if data.any fun e => e.2.2 then 0xC000000D else 0)
def State.moveMld (s : State) (core : CoreId) (o : MOp) : State :=
  let who := s.opWho core o
  let d := o.desc
  let tr := wbits d[3] 1 0
  let tc := wbits d[3] 3 2
  let l := (tileWords d).map fun p => s.tileRes core o false p
  let fail := fun (c : Byte) => (s.updCore core fun k => (s.freeTile tr tc k).noteWrite o [4 * tr + tc]).endMOp core o (faultToken c)
  if o.fatal then fail 0x08
  else match firstBar (l.map fun r => (false, r)) with
  | .park p second write => s.tilePark core o p second write
  | .fault c => fail c
  | .clear =>
    let s := l.foldl (State.engFill who) s
    let data := l.map fun r => s.engRead who r
    let el := fun (i j : Nat) =>
      if tileElem d = 4 then (data[64 * i + j]?).getD (0, false)
      else
        let w := (data[32 * i + j / 2]?).getD (0, false)
        (widenElem (tileFmt d) (w.1.toNat / 65536 ^ (j % 2) % 65536), w.2)
    let put := if s.tileInFlight core tr tc then s.freeTile tr tc else Core.setTile tr tc el
    (s.updCore core fun c => (put c).noteWrite o [4 * tr + tc]).endMOp core o (if data.any (·.2) then 0xC000000D else 0)
/-- A tile move takes its accesses to the end, or to a page that is not present. -/
def execTileMoveComplete (core : CoreId) : State → Out := fun s =>
  match (s.core? core).order.find? fun o => o.started && (o.kind = .mld || o.kind = .mst) with
  | none => .next s
  | some o => if o.tag.isSome then .next s else .next (if o.kind = .mld then s.moveMld core o else s.moveMst core o)

/-! ### `mspan`, `munspan`, `mrel` (R350-R352) -/
/-- Follower cores that exist in the gang. -/
def State.followers (s : State) (w : Workgroup) (core : CoreId) (code : Nat) : List (CoreId × Workgroup) :=
  ((spanCores core code).drop 1).filterMap fun k => (s.memberOn w k).map fun m => (k, m)
def State.performMspan (s : State) (core : CoreId) (o : MOp) : State :=
  match s.wg? o.wid with
  | none => (s.dropBids o.id).dropOp core o.id
  | some w =>
    let code := wbits o.desc[0] 1 0
    if wbits o.desc[0] 31 2 ≠ 0 || code = 0 then (s.dropBids o.id).endMOp core o 0xC0000001
    else
      let c := s.core? core
      let fs := s.followers w core code
      let beyond := w.rank + spanSize code > w.gang
      let taken := fun (k : CoreId) => (s.core? k).master.isSome || decide ((s.core? k).spanCode ≠ 0)
      if c.spanCode ≠ 0 || c.master.isSome || fs.any (fun f => taken f.1) then (s.dropBids o.id).endMOp core o 0xC0000001
      else if beyond || fs.length + 1 ≠ spanSize code then (s.dropBids o.id).endMOp core o 0xC0000004
      else
        -- each follower core in turn, until one belongs to another workgroup
        let free := fs.takeWhile fun f => (s.core? f.1).claim = none || (s.core? f.1).claim = some f.2.wid
        let t := free.foldl (fun t f => t.updCore f.1 (Core.claimFor f.2.wid (some o.id))) s
        if free.length = fs.length then t.setOp core o.id fun o => { o with started := true, mark := s.fresh } else t
/-- The followers' words accepted before the span have completed: they are slaved, unless one of them now leads a span or is slaved, or its
workgroup has retired meanwhile; then no follower stays claimed. -/
def execSpanSlave (core : CoreId) : State → Out := fun s =>
  match (s.core? core).openOp .mspan with
  | none => .next s
  | some o =>
    let code := wbits o.desc[0] 1 0
    let ks := (spanCores core code).drop 1
    if ks.any fun k => (s.core? k).order.any fun x => x.id < o.mark then .next s
    -- one of those words may have been a span of its own (R351)
    else if (s.core? core).master.isSome || ks.any fun k => (s.core? k).master.isSome || decide ((s.core? k).spanCode ≠ 0) then
      .next ((s.dropBids o.id).endMOp core o 0xC0000001)
    else if !(s.wg? o.wid).any fun w => ks.all fun k => (s.memberOn w k).any fun m => (s.core? k).claim = some m.wid then
      .next ((s.dropBids o.id).endMOp core o 0xC0000004)
    else
      let t := ks.foldl (fun t k => t.updCore k fun c => { c with master := some core, bid := none }) s
      .next ((t.updCore core fun c => { c with spanCode := code }).endMOp core o 0)
/-- `munspan` has no operation of the span before it any more. -/
def execSpanFree (core : CoreId) : State → Out := fun s =>
  match (s.core? core).openOp .munspan with
  | none => .next s
  | some o => .next ((s.freeSpan core).dropOp core o.id)
/-- A product of the span's leader, or an accepted `cpy.wb`, still names the reservation. -/
def State.resInUse (s : State) (core : CoreId) (rid : Nat) : Bool :=
  (match (s.core? core).master with
    | some m => (match (s.core? m).openOp .mma with | some o => decide ((mdesc o.desc).rid = rid) | none => false)
    | none => false) ||
  s.copies.any fun c => c.core = core && c.kind = 6 && c.accepted && decide (wbits c.desc[2] 5 0 = rid)
/-- The free of `mrel` takes effect. -/
def execReservationFree (core : CoreId) (rid : Fin 64) : State → Out := fun s =>
  match (s.core? core).openOp .mrel with
  | none => .next s
  | some o =>
    if o.desc[0].toNat ≠ rid.val || s.resInUse core rid.val then .next s
    else .next ((s.updCore core fun c => { c with res := c.res.filter fun r => r.1 ≠ rid.val }).dropOp core o.id)

/-! ### The core takes its next word (R342, R343) -/
def State.startOp (s : State) (core : CoreId) (o : MOp) : State := s.setOp core o.id fun o => { o with started := true }
def State.takeOp (s0 : State) (core : CoreId) (o : MOp) : State :=
  let c := s0.core? core
  let s := if o.claims && !(c.claim = some o.wid && c.bid.isNone) then s0.updCore core (Core.claimFor o.wid none) else s0
  let mine := (s.core? core).claim = some o.wid
  match o.kind with
  | .mma => s.performMma core o
  | .mzero => s.performMzero core o
  | .mres => s.performMres core o
  | .mspan => s.performMspan core o
  | .mld => match tileCause o.desc with
    | some c => (s.updCore core (s.freeTile (wbits o.desc[3] 1 0) (wbits o.desc[3] 3 2))).endMOp core o (faultToken c)
    | none => s.startOp core o
  | .mst =>
    if !mine then s.endMOp core o 0xC0000001
    else match tileCause o.desc with
      | some c => s.endMOp core o (faultToken c)
      | none => s.startOp core o
  | .mrel =>
    if mine && wbits o.desc[0] 31 6 = 0 && ((s.core? core).res? o.desc[0].toNat).isSome then s.startOp core o else s.dropOp core o.id
  | .munspan => if mine && (s.core? core).spanCode ≠ 0 then s.startOp core o else s.dropOp core o.id
def execMatrixPerform (core : CoreId) : State → Out := fun s =>
  match (s.core? core).nextOp with
  | none => .next s
  | some o => .next (s.takeOp core o)

end
end Sys2Proof.Machine
end

