-- ==== Sys2Proof/Machine/Graphics.lean ====
section
/-!
DEFINITION. Machine/Graphics.lean: targets and their working copies, block queues, major 0x38, method groups, and the rasteriser
node (24 R353-R361, 25 R362-R378, 26 R384-R388).
-/
namespace Sys2Proof.Machine
noncomputable section

/-! ### Targets (R354, R355) -/
/-- No reserved bit is set and no value is rejected. -/
def targetOk (d : Vector Word 16) : Bool :=
  let t := targetOf d
  d[0].toNat % 4096 = 0 && wbits d[1] 31 20 = 0 && t.w ≥ 1 && t.w ≤ 16384 && t.h ≥ 1 && t.h ≤ 16384 && t.cf ≠ 3 && !d[3].getLsbD 3 &&
  wbits d[3] 31 6 = 0 && (List.range 11).all fun k => d[5 + k]?.getD 0 = 0
def Target.tileOf (t : Target) (x y : Nat) : Nat := y / 32 * t.across + x / 32
def blockOf (x y : Nat) : Nat := 4 * (y % 32 / 8) + x % 32 / 8
def pixOf (x y : Nat) : Nat := 8 * (y % 8) + x % 8
/-- Where tile `k` starts in a plane. -/
def Target.planeVa (t : Target) (colour : Bool) (k : Nat) : Nat :=
  let whole := t.tiles * 1024 * t.samples
  if colour then t.base + (if t.dz then whole * 4 else 0) + k * 1024 * t.samples * t.elem true else t.base + k * 1024 * t.samples * 4
/-- Where a sample lies in a working copy. -/
def copyAt (colour : Bool) (block pixel sample : Nat) : Nat := (if colour then 65536 else 0) + 8 * (8 * (64 * block + pixel) + sample)

/-! ### The device's own accesses for a launch -/
def State.launchWho (s : State) (l : Launch) (die : Nat) : Who := s.who l.ctx (Fin.ofNat 256 (128 * die)) 0
/-- The context forms method groups and runs its nodes: before HARD (R379). -/
def State.moving (s : State) (ctx : Nat) : Bool := match s.ctx? ctx with | some c => c.phase = .run || c.phase = .soft | none => false

/-! ### Working copies (R361-R363, R372) -/
/-- Samples of a tile: block, pixel, sample. -/
def Target.places (t : Target) : List (Nat × Nat × Nat) :=
  (List.range 16).flatMap fun b => (List.range 64).flatMap fun p => (List.range t.samples).map fun k => (b, p, k)
def Target.sampleVa (t : Target) (colour : Bool) (k : Nat) (p : Nat × Nat × Nat) : Nat :=
  t.planeVa colour k + ((64 * p.1 + p.2.1) * t.samples + p.2.2) * t.elem colour
def depthAt (m : Memory) (p : Nat × Nat × Nat) : Word := memWord m (copyAt false p.1 p.2.1 p.2.2)
/-- The largest stored depth of a block, a NaN as +∞. -/
def Target.zfarOf (t : Target) (m : Memory) (b : Nat) : Word :=
  let key := fun (w : Word) => if (fp32.val w.toNat).isNan then (0x7F800000 : Word) else w
  let ds := ((List.range 64).flatMap fun p => (List.range t.samples).map fun k => key (depthAt m (b, p, k)))
  if !t.dz then 0x7F800000
  else ds.foldl (fun a d => if Val.lt (fp32.val a.toNat) (fp32.val d.toNat) then d else a) 0xFF800000
def Target.zfars (t : Target) (m : Memory) : Vector Word 16 := Vector.ofFn fun b => t.zfarOf m b.val
/-- Granules of a tile's plane, and the elements of one: place in memory order as block, pixel, sample. -/
def Target.granules (t : Target) (colour : Bool) : Nat := 32 * t.samples * t.elem colour
def Target.inGranule (t : Target) (colour : Bool) (g : Nat) : List (Nat × Nat × Nat) :=
  (List.range (32 / t.elem colour)).map fun j =>
    let e := g * (32 / t.elem colour) + j
    (e / t.samples / 64, e / t.samples % 64, e % t.samples)
/-- One granule of a plane enters a working copy, with its poison. -/
def Tile.enter (t : Target) (colour : Bool) (g : Nat) (bs : List Byte) (sick : Bool) (x : Tile) : Tile :=
  (t.inGranule colour g).zipIdx.foldl (fun x p =>
    let a := copyAt colour p.1.1 p.1.2.1 p.1.2.2
    { x with bytes := memWrite x.bytes a ((bs.drop (p.2 * t.elem colour)).take (t.elem colour)), pois := memSet x.pois (a / 8) (if sick then 1 else 0) }) x
/-- A plane is read into a working copy. -/
def State.readPlane (who : Who) (t : Target) (colour : Bool) (x : State × Tile) : State × Tile :=
  (List.range (t.granules colour)).foldl (fun x g =>
    let (s, bs, sick) := x.1.devGranule who (t.planeVa colour x.2.tile + 32 * g)
    (s, x.2.enter t colour g bs sick)) x
def State.homeSlice (s : State) (l : Launch) (t : Target) (k : Nat) : Nat :=
  (s.homeOf (ctxPart (s.ctxDesc l.ctx)) (t.planeVa (!t.dz) k)).getD 0
/-- The tile has a working copy, filled if it had none. -/
def State.fillTile (s : State) (l : Launch) (h : Byte) (t : Target) (k : Nat) : State :=
  if (s.tile? l.lid h k).isSome then s
  else
    let who := s.launchWho l (s.homeSlice l t k / 80)
    let (s, x) := State.readPlane who t true (State.readPlane who t false (s, { lid := l.lid, handle := h, tile := k }))
    { s with tiles := { x with shown := x.bytes, zfar := t.zfars x.bytes } :: s.tiles }
/-- A working copy as live reads see it goes to target memory whole (R362), granule by granule with its poison (R302). -/
def State.writeTile (s : State) (l : Launch) (t : Target) (x : Tile) : State :=
  let who := s.launchWho l (s.homeSlice l t x.tile / 80)
  let plane := fun (s : State) (colour : Bool) => (List.range (t.granules colour)).foldl (fun s g =>
    let ps := t.inGranule colour g
    s.devPutGranule who (t.planeVa colour x.tile + 32 * g)
      (ps.flatMap fun p => memRead x.shown (copyAt colour p.1 p.2.1 p.2.2) (t.elem colour))
      (ps.any fun p => memGet x.pois (copyAt colour p.1 p.2.1 p.2.2 / 8) ≠ 0)) s
  plane (plane s false) true
/-- The tile is written back; its copy goes unless a slot of the tile is still held. -/
def State.flushTile (s : State) (l : Launch) (t : Target) (x : Tile) : State :=
  let busy := s.pixels.any fun q => q.lid = x.lid && q.handle = x.handle && t.tileOf q.x q.y = x.tile
  let s := s.writeTile l t x
  if busy then s else { s with tiles := s.tiles.filter fun y => !Tile.is x.lid x.handle x.tile y }
def State.flushTiles (s : State) (l : Launch) (f : Tile → Bool) : State :=
  (s.tiles.filter fun x => x.lid = l.lid && f x).foldl (fun s x =>
    match l.target? x.handle with | some t => s.flushTile l t x | none => s) s

/-! ### Fragments and slots (R356, R357, R364) -/
structure Frag where
  h : Byte
  x : Nat
  y : Nat
  psn : BitVec 24
  deriving DecidableEq, Repr
def fragAt (g : Group) (a : VReg) (L : Lane) : Frag :=
  let lo := g.readV a L
  let hi := g.readV (vreg a 1) L
  { h := (hi >>> 24).setWidth 8, x := wbits lo 15 0, y := wbits lo 31 16, psn := hi.setWidth 24 }
def Launch.inside (l : Launch) (f : Frag) : Bool := match l.target? f.h with | some t => f.x < t.w && f.y < t.h | none => false
def Frag.key (f : Frag) (lid : Nat) : Nat × Byte × Nat × Nat := (lid, f.h, f.x, f.y)
/-- Slots of the pixel's block. -/
def State.blockSlots (s : State) (l : Launch) (f : Frag) : List PixSlot :=
  match l.target? f.h with
  | none => []
  | some t => s.pixels.filter fun q => q.lid = l.lid && q.handle = f.h && t.tileOf q.x q.y = t.tileOf f.x f.y && blockOf q.x q.y = blockOf f.x f.y
/-- Announcements are numbered in order: those of one step by `k`. -/
def State.orderNow (s : State) (k : Nat) : Nat := s.fresh * 2 ^ 20 + k
def State.announce (s : State) (l : Launch) (f : Frag) (cov : Byte) (z : Word) (k : Nat) : State :=
  let s := match l.target? f.h with | some t => s.fillTile l f.h t (t.tileOf f.x f.y) | none => s
  let q : PixSlot := { lid := l.lid, handle := f.h, x := f.x, y := f.y, psn := f.psn, order := s.orderNow k, coverage := cov, idepth := z }
  { s with
    pixels := s.pixels ++ [q]
    lastPsn := (f.key l.lid, f.psn) :: s.lastPsn.filter fun e => e.1 ≠ f.key l.lid }
/-- R357: what a lane's announcement comes to. -/
def State.annFault (s : State) (l : Launch) (f : Frag) : Option Byte :=
  if !l.inside f then some 0x04
  else match s.lastPsn.lookup (f.key l.lid) with
    | some p => if f.psn.toNat ≤ p.toNat then some 0x0E else none
    | none => none
def Target.allSamples (t : Target) : Byte := BitVec.ofNat 8 (2 ^ t.samples - 1)
/-- The fault of a lane with a poisoned operand: the pixel is judged first (R76). -/
def Launch.sickFault (l : Launch) (f : Frag) : Byte := if l.inside f then 0x0D else 0x04
/-- The lanes in order; the faults beside the state. `sick` lanes read a poisoned operand. -/
def State.annLanes (l : Launch) (g : Group) (a : VReg) (sick : Mask) : List Lane → State → State × List (Nat × Byte)
  | [], s => (s, [])
  | L :: ls, s =>
    let f := fragAt g a L
    match (if sick.getLsbD L.val then some (l.sickFault f) else s.annFault l f) with
    | some c => let (t, r) := s.annLanes l g a sick ls; (t, (L.val, c) :: r)
    | none =>
      let cov := match l.target? f.h with | some t => t.allSamples | none => 0
      (s.announce l f cov 0 L.val).annLanes l g a sick ls
def execFannc (g : Bool) (a : VReg) : State → Out :=
  issueSeq (.fannc g a) fun s =>
    let l := s.myLaunch
    let sick := s.src.poisonIn (Instr.fannc g a).names.vr (s.lanes g)
    let (t, faults) := (s.endTransaction).annLanes l s.src a sick (lanesOf (s.lanes g))
    let full := (lanesOf (s.lanes g &&& ~~~sick)).any fun L => (t.blockSlots l (fragAt s.src a L)).length > Config.blockSlots
    if full then s.stallNow
    else t.raiseEach (s.lanes g) fun L => (faults.lookup L.val).map fun c => (c, 0)

def State.openSlot (s : State) (l : Launch) (f : Frag) : Option PixSlot :=
  s.pixels.find? fun q => q.lid = l.lid && q.handle = f.h && q.x = f.x && q.y = f.y && q.psn = f.psn && q.state = .opened
def State.setSlot (s : State) (q : PixSlot) : State :=
  { s with pixels := s.pixels.map fun r => if r.order = q.order && r.sameAs q then q else r }
/-- A post or a kill at the pixel's queue (R364); in an EARLYZ stage DECL too where R373 says so. -/
def State.postFrag (s : State) (l : Launch) (early : Bool) (f : Frag) (kill : Bool) (z : Word) (c : Vector Word 4) : State × Option Byte :=
  if !l.inside f then (s, some 0x04)
  else
    match s.openSlot l f with
    | none => (s, some 0x0E)
    | some q =>
      if early then
        (s.setSlot { q with state := .filled, depth := q.idepth, colour := if kill then Vector.replicate 4 0 else c },
          if kill || z ≠ q.idepth then some 0x0E else none)
      else if kill then ((s.setSlot { q with state := .cancelled }).settlePixels, none)
      else (s.setSlot { q with state := .filled, depth := z, colour := c }, none)
def State.postLanes (l : Launch) (early kill : Bool) (g : Group) (d a b : VReg) (sick : Mask) : List Lane → State → State × List (Nat × Byte)
  | [], s => (s, [])
  | L :: ls, s =>
    let (t, c) :=
      if sick.getLsbD L.val then (s, some (l.sickFault (fragAt g a L)))
      else s.postFrag l early (fragAt g a L) kill (g.readV d L) (Vector.ofFn fun k => g.readV (vreg b k.val) L)
    let (t, r) := t.postLanes l early kill g d a b sick ls
    match c with
    | some c => (t, (L.val, c) :: r)
    | none => (t, r)
def postWord (i : Instr) (g kill : Bool) (d a b : VReg) : State → Out :=
  issueSeq i fun s =>
    let sick := s.src.poisonIn i.names.vr (s.lanes g)
    let (t, faults) := (s.endTransaction).postLanes s.myLaunch (s.myStage.desc[1].getLsbD 8) kill s.src d a b sick (lanesOf (s.lanes g))
    (t.raiseEach (s.lanes g) fun L => (faults.lookup L.val).map fun c => (c, 0)).wake
def execFrag (g : Bool) (d a b : VReg) : State → Out := postWord (.frag g d a b) g false d a b
def execFragKill (g : Bool) (a : VReg) : State → Out := postWord (.fragKill g a) g true 0 a 0

/-! ### Elements as methods and live reads see them (R360) -/
/-- c / 255 in FP32. -/
def unorm (c : Nat) : Word := BitVec.ofNat 32 (finish fp32 .rne false (divV 26 (.fin false c 0) (.fin false 255 0)).1).bits
/-- An FP32 channel as a byte. -/
def toUnorm (w : Word) : Nat :=
  match fp32.val w.toNat with
  | .nan _ => 0
  | .inf n => if n then 0 else 255
  | .fin n m e => if n then 0 else (min 255 (max 0 (toIntegral .rne false (m * 255) e).1)).toNat
def decodeColour (cf x : Nat) (i : Nat) : Word :=
  if cf = 1 then unorm (x / 256 ^ i % 256)
  else BitVec.ofNat 32 (finish fp32 .rne false (fp16.val (x / 65536 ^ i % 65536)).exact).bits
def encodeColour (cf : Nat) (c : Nat → Word) : Nat :=
  if cf = 1 then toUnorm (c 0) + 256 * toUnorm (c 1) + 65536 * toUnorm (c 2) + 16777216 * toUnorm (c 3)
  else
    let h := fun i => (finish fp16 .rne false (fp32.val (c i).toNat).exact).bits
    h 0 + 65536 * h 1 + 65536 ^ 2 * h 2 + 65536 ^ 3 * h 3
/-- A stored element as the words a lane receives. -/
def Target.words (t : Target) (colour : Bool) (x : Nat) : List Word :=
  if colour then (List.range 4).map (decodeColour t.cf x) else [BitVec.ofNat 32 x]
def State.setVlist (s : State) (d : VReg) (m : Mask) (f : Lane → List Word) : Nat → State
  | 0 => s
  | k + 1 => (s.setVlist d m f k).setV (vreg d k) m fun L => ((f L)[k]?).getD 0

def execPxld (g : Bool) (d : VReg) (k : BitVec 4) : State → Out :=
  issueSeq (.pxld g d k) fun s =>
    match s.myTile with
    | none => s
    | some (m, t, x) =>
      let col := selColour k
      let at_ := fun (L : Lane) => copyAt col m.block L.val (selSample k)
      let sick := maskOf fun L => (s.lanes g).getLsbD L.val && memGet x.pois (at_ L / 8) ≠ 0
      let val := fun (L : Lane) => t.words col (leNat (memRead x.bytes (at_ L) (t.elem col)))
      (s.consume sick).setVlist d (s.lanes g &&& ~~~sick) val (if col then 4 else 1)
/-- The lane's running slot covers the sample (R368). -/
def State.covered (s : State) (L : Lane) (sample : Nat) : Bool :=
  s.pixels.any fun q => q.state = .running && q.runner = s.g.gid && q.lane = L.val && q.coverage.getLsbD sample
def Target.encode (t : Target) (colour : Bool) (g : Group) (d : VReg) (L : Lane) : List Byte :=
  leBytes (t.elem colour) (if colour then encodeColour t.cf fun i => g.readV (vreg d i) L else (g.readV d L).toNat)
def execPxst (g : Bool) (d : VReg) (k : BitVec 4) : State → Out :=
  issueSeq (.pxst g d k) fun s =>
    match s.myTile with
    | none => s
    | some (m, t, x) =>
      let col := selColour k
      let (ok, t1) := s.sift (Instr.pxst g d k).names (s.lanes g)
      let go := (lanesOf ok).filter fun L => s.covered L (selSample k)
      let put := fun (b : Memory) (L : Lane) => memWrite b (copyAt col m.block L.val (selSample k)) (t.encode col s.src d L)
      { t1 with tiles := t1.tiles.map fun y =>
          if Tile.is x.lid x.handle x.tile y then { y with bytes := go.foldl put y.bytes } else y }

/-! ### Live reads (R369, R386, R387) -/
/-- A lane's read: its target, or BOUNDS. -/
def State.liveTarget (s : State) (f : Frag) (sel : Word) : Option Target :=
  if !s.myLaunch.inside f || wbits sel 31 4 ≠ 0 then none
  else
    match s.myLaunch.target? f.h with
    | none => none
    | some t => if t.selOk (sel.getLsbD 3) (wbits sel 2 0) then some t else none
/-- Where a live read finds its element: in the working copy (`none`), or in target memory, read at its home as the device reads
(DESIGN CHOICE, log 20: with no tag, and its faults carry the element's address). -/
def State.livePlace (s : State) (L : Lane) (f : Frag) (sel : Word) (t : Target) : Option LRes :=
  let k := t.tileOf f.x f.y
  if (s.tile? s.myLaunch.lid f.h k).isSome then none
  else
    let p : Dword := BitVec.ofNat 64 (t.sampleVa (sel.getLsbD 3) k (blockOf f.x f.y, pixOf f.x f.y, wbits sel 2 0))
    some (s.orFatal L p (s.resolve p (t.elem (sel.getLsbD 3)) { tags := false } false (some L)))
/-- What a pixel has shown before, oldest first (R369). -/
def Tile.pastOf (y : Tile) (block pixel : Nat) : List (List Byte × List Byte) := (y.past.filter fun e => e.1 = 64 * block + pixel).map (·.2)
/-- The bytes of a sample as a working copy shows them; `back`: as that older state of the pixel showed them. -/
def Tile.shows (y : Tile) (col : Bool) (block pixel sample n : Nat) (back : Option Nat) : List Byte :=
  match back.bind fun j => (y.pastOf block pixel)[j]? with
  | some x => ((if col then x.2 else x.1).drop (8 * sample)).take n
  | none => memRead y.shown (copyAt col block pixel sample) n
/-- FREE VALUE (log 20): the prefix of its pixel's retired slots that a lane of `tsamp.now` sees, each lane's its own. -/
def State.prefixOf (s : State) (L : Lane) (f : Frag) : Option Nat :=
  match s.myLaunch.target? f.h with
  | none => none
  | some t => (s.tile? s.myLaunch.lid f.h (t.tileOf f.x f.y)).map fun y =>
      s.free 12 L.val % ((y.pastOf (blockOf f.x f.y) (pixOf f.x f.y)).length + 1)
/-- The stored value as `pxld` converts it. -/
def State.liveValue (s : State) (f : Frag) (sel : Word) (t : Target) (back : Option Nat) (r : Option LRes) : List Word :=
  let col := sel.getLsbD 3
  let n := t.elem col
  t.words col (match r, s.tile? s.myLaunch.lid f.h (t.tileOf f.x f.y) with
    | some (.mem leaf pa va), _ => leNat (s.view s.me.home leaf pa (vaOf va) n)
    | some r, _ => s.valAs s.me.home n r
    | none, some y => leNat (y.shows col (blockOf f.x f.y) (pixOf f.x f.y) (wbits sel 2 0) n back)
    | none, none => 0)
/-- The stored value is poisoned (R302). -/
def State.liveSick (s : State) (L : Lane) (f : Frag) (sel : Word) (t : Target) (r : Option LRes) : Bool :=
  let col := sel.getLsbD 3
  match r, s.tile? s.myLaunch.lid f.h (t.tileOf f.x f.y) with
  | some r, _ => s.datumPoison s.me.home s.latch.hurt (t.elem col) (some L) r
  | none, some y => memGet y.pois (copyAt col (blockOf f.x f.y) (pixOf f.x f.y) (wbits sel 2 0) / 8) ≠ 0
  | none, none => false
/-- The data of a lane that reads target memory cross from its home to the lane's registers (R303). -/
def State.liveFill (f : Lane → Frag) (sel : Lane → Word) (s : State) (L : Lane) : State :=
  match (s.liveTarget (f L) (sel L)).bind fun t => s.livePlace L (f L) (sel L) t with
  | some (.mem leaf pa va) =>
    let s := s.fill s.me.home leaf pa (vaOf va) 0 .normal
    let (s, up) := s.cross [pa / 32] 5 (dieOf s.g.core)
    let (s, up2) := s.cross [pa / 32] 6 (dieOf s.g.core)
    { s with latch := { s.latch with hurt := s.latch.hurt ++ up ++ up2 } }
  | _ => s
/-- What a lane comes to, in the order of R76; `sick`: it read a poisoned operand. -/
def State.liveLook (s : State) (f : Frag) (sel : Word) (L : Lane) (sick : Bool) (back : Option Nat) : LiveLook :=
  match s.liveTarget f sel with
  | none => { fault := some (0x04, 0) }
  | some t => match s.livePlace L f sel t with
    | some (.fault c va) => { fault := some (c, va) }
    | some (.park va second) => { park := some (va, second) }
    | r => if sick || s.liveSick L f sel t r then { fault := some (0x0D, (r.map (·.va)).getD 0) } else { words := s.liveValue f sel t back r }
/-- The lanes `m` of a live read are answered together: their faults in lane order, their registers, their pages (R78, R384); a depth
read leaves the quad's other registers. -/
def State.liveLand (s : State) (i : Instr) (m : Mask) (d : VReg) (sel : Lane → Word) (look : Lane → LiveLook) : State :=
  let ok := maskOf fun L => m.getLsbD L.val && (look L).fault.isNone && !(look L).words.isEmpty
  let col := maskOf fun L => ok.getLsbD L.val && (sel L).getLsbD 3
  let t := s.raiseEach m fun L => (look L).fault
  let t := (t.setVlist d ok (fun L => (look L).words) 1).setVlist d col (fun L => (look L).words) 4
  t.parkOn i (parksOf false m fun L => match (look L).park with | some (va, second) => .park va second | none => .drop 0)
/-- A live read whose lanes answer at issue; `back`: the prefix that each sees. -/
def liveBody (i : Instr) (lanes : Mask) (d a : VReg) (b : VSrc) (back : Lane → Frag → Option Nat) (s : State) : State :=
  let r := s.src
  let sick := r.poisonIn i.names.vr lanes
  let f := fragAt r a
  let t := (lanesOf (lanes &&& ~~~sick)).foldl (State.liveFill f (r.vb b)) s
  t.liveLand i lanes d (r.vb b) fun L => t.liveLook (f L) (r.vb b L) L (sick.getLsbD L.val) (back L (f L))
def execTsampNow (g : Bool) (d a : VReg) (b : VSrc) : State → Out :=
  issueSeq (.tsampNow g d a b) fun s => liveBody (.tsampNow g d a b) (s.lanes g) d a b s.prefixOf s
/-- A slot announced before `before` stands in the pixel's block (R369). -/
def State.blockOpen (s : State) (l : Launch) (f : Frag) (before : Nat) : Bool := (s.blockSlots l f).any fun q => q.order < before
def LiveLane.frag (y : LiveLane) : Frag := { h := y.handle, x := y.x, y := y.y, psn := 0 }
/-- A lane waits for its block's slots (R387). -/
def State.liveWaits (s : State) (before : Nat) (y : LiveLane) : Bool :=
  !y.sick && (s.liveTarget y.frag y.sel).isSome && s.blockOpen s.myLaunch y.frag before
/-- The lanes of a `tsamp.set` as the group's word reads them. -/
def Group.liveLanes (r : Group) (lanes : Mask) (names : Names) (a : VReg) (b : VSrc) : List LiveLane :=
  (lanesOf lanes).map fun L =>
    let f := fragAt r a L
    { lane := L.val, sick := (r.poisonIn names.vr lanes).getLsbD L.val, handle := f.h, x := f.x, y := f.y, sel := r.vb b L }
/-- Where no lane waits, the word is performed at once; else the whole word is under way, its destination pending, until each lane has been
answered (R384, R387). A replay has waited. -/
def execTsampSet (g : Bool) (d a : VReg) (b : VSrc) : State → Out :=
  issueSeq (.tsampSet g d a b) fun s =>
    let i := Instr.tsampSet g d a b
    let now := s.orderNow 0
    let ls := s.src.liveLanes (s.lanes g) i.names a b
    if s.latch.only.isNone && ls.any (s.liveWaits now) then
      { s with g := { s.g with reads := s.g.reads ++ [{ instr := i, slot := s.g.sel, ipc := s.ipc, leaf := s.src.me.leaf.getD {}, regs := s.src.regs, depth := s.depthNow, no := s.noNow, d := d, before := now, lanes := ls }] } }
    else liveBody i (s.lanes g) d a b (fun _ _ => none) s
/-- The group in front, as the word of a live read under way saw it: its records and its accesses are that word's. -/
def State.asRead (s : State) (gid : Nat) (x : LiveRead) : State :=
  let s := s.focus gid x.slot
  let seen : Group := { s.g with regs := x.regs, me := { s.g.me with leaf := some (x.leaf.strip (s.g.dead ||| s.g.exited)) } }
  { s with latch := { snap := some seen, ipc := some x.ipc, depth := some x.depth, no := some x.no, faults := s.latch.faults, dying := s.latch.dying } }
/-- A lane is answered once its block's slots have retired: what its element holds then. -/
def State.askLane (x : State × LiveRead) (y : LiveLane) : State × LiveRead :=
  let L : Lane := Fin.ofNat 96 y.lane
  if (x.2.got.lookup y.lane).isSome || x.1.liveWaits x.2.before y then x
  else
    let s := if y.sick then x.1 else State.liveFill (fun _ => y.frag) (fun _ => y.sel) x.1 L
    (s, { x.2 with got := x.2.got ++ [(y.lane, s.liveLook y.frag y.sel L y.sick none)] })
def State.askRead (gid : Nat) (x : State × List LiveRead) (r : LiveRead) : State × List LiveRead :=
  let (s, r) := r.lanes.foldl State.askLane (x.1.asRead gid r, r)
  (s, x.2 ++ [r])
def LiveRead.done (x : LiveRead) : Bool := x.lanes.all fun y => (x.got.lookup y.lane).isSome
/-- The read is withdrawn with its destination unchanged, and issued again in full (R387). -/
def LiveRead.again (now : Nat) (x : LiveRead) : LiveRead := { x with before := now, got := [] }
/-- Every lane is answered: the word is performed in those that are alive. -/
def State.landRead (gid : Nat) (s : State) (x : LiveRead) : State :=
  let t := s.asRead gid x
  let m := maskOf fun L => (x.got.lookup L.val).isSome && t.g.live.getLsbD L.val
  t.liveLand x.instr m x.d (fun L => ((x.lanes.find? fun y => y.lane = L.val).map (·.sel)).getD 0) fun L => (x.got.lookup L.val).getD {}
/-- The reads of a group that are done are performed in the order of their issue, and their faults are acted on together (R79). -/
def State.answerGroup (s : State) (g : Group) : State :=
  let (t, l) := g.reads.foldl (State.askRead g.gid) (s, [])
  let t := ({ t with latch := {} }).updGroup g.gid fun g => { g with reads := l.filter fun x => !x.done }
  let done := l.filter (·.done)
  if done.isEmpty then t else (done.foldl (State.landRead g.gid) t).settle.wake.spillOut g.gid
/-- After a step: the live reads whose slots have retired in it are answered (R369), unless their context is stopped (R273). -/
def State.answerReads (s : State) : State :=
  let due := s.allGroups.filter fun g => !g.reads.isEmpty && s.moving ((s.ctxOfGroup g).getD 0)
  if due.isEmpty then s
  else (due.foldl State.answerGroup s).focus s.g.gid s.g.sel

/-! ### `tflush` (R370, R388) -/
def State.flushOk (s : State) (w : Word) : Bool := wbits w 31 8 = 0 && wbits w 7 0 < s.myLaunch.targets.length
def execTflush (g : Bool) (b : VSrc) : State → Out :=
  issueSeq (.tflush g b) fun s =>
    let i := Instr.tflush g b
    let (m, _) := s.sift i.names (s.lanes g)
    let hs := ((lanesOf m).filter fun L => s.flushOk (s.src.vb b L)).map fun L => (s.src.vb b L).setWidth 8
    let done := fun (s : State) => s.raiseEach (s.lanes g) fun L =>
      if !s.flushOk (s.src.vb b L) then some (0x04, 0) else if m.getLsbD L.val then none else some (0x0D, 0)
    if hs.isEmpty || s.myWait = .granted then done s
    else match s.myWait with
      | .flush hs before => s.waitFor (.flush hs before)
      | _ => s.endTransaction.waitFor (.flush hs.eraseDups (s.orderNow 0))
/-- A slot's flush completes: the slots before it have retired, and the working copies are written back; the issuing core's later loads
see them (R370, R388). -/
def execTflushComplete (gid : Nat) (k : Fin 2) : State → Out := fun s =>
  match (s.group? gid).bind fun g => (g.slot k).leaf with
  | none => .next s
  | some l =>
    match l.wait with
    | .flush hs before =>
      let lid := match s.group? gid with | some g => ((s.wg? g.wid).map (·.lid)).getD 0 | none => 0
      let old := s.pixels.any fun q => q.lid = lid && hs.contains q.handle && q.order < before
      match s.launch? lid with
      | none => .next s
      | some la =>
        if old then .next s
        else
          let who := match s.group? gid with | some g => s.who la.ctx g.core gid | none => s.who la.ctx 0 gid
          let drop := fun (s : State) (h : Byte) => match la.target? h with | some t => s.dropRange who t.base t.bytes | none => s
          .next (((hs.foldl drop (s.flushTiles la fun x => hs.contains x.handle)).endWait gid k l.wait))
    | _ => .next s

/-! ### Method groups (R359, R366) -/
/-- Oldest unretired slots of a block's pixels. -/
def oldestOf : List PixSlot → List PixSlot → List PixSlot
  | _, [] => []
  | seen, q :: qs => if seen.any (fun r => r.sameAs q) then oldestOf seen qs else q :: oldestOf (q :: seen) qs
def State.methodReady (s : State) (lid : Nat) (h : Byte) (t : Target) (k b : Nat) : List PixSlot :=
  ((oldestOf [] (s.pixels.filter fun q => q.lid = lid && q.handle = h && t.tileOf q.x q.y = k && blockOf q.x q.y = b)).filter
    fun q => q.state = .filled)
def methodRegs (l : List PixSlot) : Regs :=
  let at_ := fun (L : Lane) => l.find? fun q => q.lane = L.val
  { v := Vector.ofFn fun r =>
      if r.val = 0 then Vector.ofFn fun L => match at_ L with | some q => q.depth | none => 0
      else if r.val ≤ 4 then Vector.ofFn fun L => match at_ L with | some q => q.colour[r.val - 1]?.getD 0 | none => 0
      else Vector.replicate 96 0 }
def execMethodGroupForm (lid : Nat) (h : Byte) (k : Nat) (b : Fin 16) : State → Out := fun s =>
  match s.launch? lid with
  | none => .next s
  | some l =>
    match l.target? h with
    | none => .next s
    | some t =>
      let ready := s.methodReady lid h t k b.val
      let busy := s.allGroups.any fun g => g.gid ≠ 0 && match g.method with
        | some m => m.lid = lid && m.handle = h && m.tile = k && m.block = b.val
        | none => false
      if ready.isEmpty || busy || (s.tile? lid h k).isNone || !s.moving l.ctx then .next s
      else
        let gid := s.fresh * 256
        let slice := s.homeSlice l t k
        let on := maskOf fun L => ready.any fun q => q.lane = L.val
        let leaf : Entry := { emask := on, amask := on, pc := t.entry }
        let g : Group := { gid := gid, core := Fin.ofNat 256 (128 * (slice / 80)), regs := methodRegs ready, exited := ~~~on
                           startExited := ~~~on, me := { leaf := some leaf }
                           method := some { lid := lid, handle := h, tile := k, block := b.val, slice := slice } }
        let run := fun (q : PixSlot) => if ready.any (fun r => r.sameAs q && r.order = q.order) then { q with state := SlotState.running, runner := gid } else q
        .next { s with others := s.others ++ [g], pixels := s.pixels.map run }.endIdle
/-- A method group that has retired is gone, and its block's ZFAR is computed again (R372). -/
def State.endMethod (s : State) : State :=
  match s.g.method with
  | none => s
  | some m =>
    if s.g.status ≠ .retired then s
    else
      let z := fun (x : Tile) =>
        match s.myLaunch.target? m.handle with
        | some t => if Tile.is m.lid m.handle m.tile x then { x with zfar := x.zfar.set! m.block (t.zfarOf x.bytes m.block) } else x
        | none => x
      { s with g := {}, tiles := s.tiles.map z, icache := s.icache.filter fun e => e.1 ≠ s.g.fetchKey }.wake

/-! ### The rasteriser node (R374-R378) -/
/-- A vertex in 1/256 pixel, with its depth. -/
structure Vert where
  x : Int
  y : Int
  z : Word
  deriving DecidableEq, Repr
def fix8 (w : Word) : Int := match fp32.val w.toNat with | .fin n m e => (toIntegral .rne n m (e + 8)).1 | _ => 0
def Tri.vertex (t : Tri) (k : Nat) : Vert :=
  { x := fix8 (t.vert[4 * k]?.getD 0), y := fix8 (t.vert[4 * k + 1]?.getD 0), z := t.vert[4 * k + 2]?.getD 0 }
def edge (a b : Vert) (px py : Int) : Int := (b.x - a.x) * (py - a.y) - (b.y - a.y) * (px - a.x)
def Tri.area (t : Tri) : Int := edge (t.vertex 0) (t.vertex 1) (t.vertex 2).x (t.vertex 2).y
/-- Vertices a, b, c after the swap that makes the area positive, with their attribute references. -/
def Tri.oriented (t : Tri) : Tri :=
  if t.area < 0 then
    { t with vert := Vector.ofFn fun i => t.vert[if i.val < 4 then i.val else if i.val < 8 then i.val + 4 else i.val - 4]?.getD 0
             attr := #v[t.attr[0], t.attr[2], t.attr[1]] }
  else t
def isNan32 (w : Word) : Bool := (fp32.val w.toNat).isNan
def outOfRange (w : Word) : Bool := Val.lt (.fin false 32768 0) (fp32.val w.toNat).abs
/-- Step 1, and the culls of step 3. -/
def Tri.culled (t : Tri) (flags : Word) : Bool :=
  (List.range 12).any (fun i => isNan32 (t.vert[i]?.getD 0)) ||
  (List.range 3).any (fun k => Val.le (fp32.val (t.vert[4 * k + 3]?.getD 0).toNat) (.fin false 0 0) ||
    outOfRange (t.vert[4 * k]?.getD 0) || outOfRange (t.vert[4 * k + 1]?.getD 0)) ||
  t.area = 0 || (flags.getLsbD 0 && t.area < 0) || (flags.getLsbD 1 && t.area > 0)
/-- The device can read the `n` bytes at a pointer, with its tag (R76): no fault, no page missing, no poison, and an answer of the other
device for a remote page (log 13). -/
def State.nodeReads (s : State) (who : Who) (p : Dword) (n : Nat) : Bool :=
  match s.access who p n {} with
  | .ok _ pa _ => (List.range n).all fun k => !s.sick who (pa + k) (vaOf p + k)
  | .remote leaf =>
    let held := (s.heldLine who (vaOf p)).isSome
    held || (!s.farLost who leaf none && s.answerOf p % 2 = 0 && !(leafTagged leaf && s.answerOf p / 2 % 2 = 1))
  | _ => false
/-- Word 15 and the flags of a record must be 0 where reserved; its pointer and handle good, its block readable (R375). -/
def State.takeTri (s : State) (l : Launch) (r : List Word) : State :=
  let w := fun k => (r[k]?).getD 0
  let p := joinPair (w 0) (w 1)
  let who := (s.launchWho l 0).home
  let handle : Byte := (w 2 >>> 24).setWidth 8
  let bad := wbits (w 3) 31 2 ≠ 0 || handle.toNat ≥ l.targets.length
  let s := if bad then s else s.devSee who (vaOf p) 64
  let block : Nat → Word := fun k => s.devWord who (vaOf p + 4 * k)
  let reach := (List.range 16).all fun k => s.nodeReads who (ptrPlus (w 0) (w 1) (4 * k)) 4
  if bad || !reach || block 15 ≠ 0 then
    s.updLaunch l.lid fun x => { x with status := 1 }
  else
    let t : Tri := { vert := Vector.ofFn fun k => block k.val, attr := #v[block 12, block 13, block 14], psn := (w 2).setWidth 24, handle := handle }
    if t.culled (w 3) then s else s.updLaunch l.lid fun x => { x with tris := x.tris ++ [t.oriented] }
/-- The node takes a record, while its parameter buffer has room for one more triangle (R376). -/
def execRasterRecord (lid : Nat) : State → Out := fun s =>
  match s.launch? lid with
  | none => .next s
  | some l =>
    match l.rast? with
    | none => .next s
    | some k =>
      if !s.moving l.ctx || (l.tris.length + 1) * Config.triBytes.val > (l.stage k).desc[16].toNat * 4096 then .next s
      else match s.popOf lid l.ctx k 0 with
        | some (r, t) => .next (t.takeTri l r)
        | none => .next s

/-- Tiles of a target that the triangle's bounding box touches. -/
def Tri.touches (t : Tri) (g : Target) : List Nat :=
  let v := [t.vertex 0, t.vertex 1, t.vertex 2]
  let lo := fun (f : Vert → Int) => v.foldl (fun a p => min a (f p)) (f (t.vertex 0))
  let hi := fun (f : Vert → Int) => v.foldl (fun a p => max a (f p)) (f (t.vertex 0))
  (List.range g.tiles).filter fun k =>
    let x0 : Int := (k % g.across : Nat) * 8192
    let y0 : Int := (k / g.across : Nat) * 8192
    x0 ≤ hi (·.x) && lo (·.x) < x0 + 8192 && y0 ≤ hi (·.y) && lo (·.y) < y0 + 8192
/-- Sample positions in 1/16 pixel (R377). -/
def samplePos (lg : Nat) : List (Nat × Nat) :=
  match lg with
  | 0 => [(8, 8)]
  | 1 => [(4, 4), (12, 12)]
  | 2 => [(2, 10), (6, 2), (10, 14), (14, 6)]
  | _ => [(1, 5), (5, 13), (9, 1), (13, 9), (3, 11), (7, 3), (11, 15), (15, 7)]
def topLeft (u v : Vert) : Bool := (u.y = v.y && v.x > u.x) || v.y < u.y
def Tri.covers (t : Tri) (px py : Int) : Bool :=
  let a := t.vertex 0
  let b := t.vertex 1
  let c := t.vertex 2
  let on := fun (u v : Vert) => edge u v px py > 0 || (edge u v px py = 0 && topLeft u v)
  on a b && on b c && on c a
/-- Coverage of a pixel of the target. -/
def Tri.coverage (t : Tri) (g : Target) (x y : Nat) : Byte :=
  if x ≥ g.w || y ≥ g.h then 0
  else BitVec.ofNat 8 ((samplePos g.lg).zipIdx.foldl (fun a p =>
    if t.covers (x * 256 + p.1.1 * 16 : Nat) (y * 256 + p.1.2 * 16 : Nat) then a + 2 ^ p.2 else a) 0)
def centre (x : Nat) : Int := (x * 256 + 128 : Nat)
def ratio (a b : Int) : Word := BitVec.ofNat 32 (finish fp32 .rne false (divV 26 (intVal a) (intVal b)).1).bits
/-- Depth at a pixel's centre: A times za + λb(zb − za) + λc(zc − za), formed exactly, over A, and rounded once. -/
def Tri.depth (t : Tri) (x y : Nat) : Word :=
  let a := t.vertex 0
  let b := t.vertex 1
  let c := t.vertex 2
  let ca := edge c a (centre x) (centre y)
  let ab := edge a b (centre x) (centre y)
  let z := fun (v : Vert) => fp32.val v.z.toNat
  let term := fun (k : Int) (v : Vert) => (mulV (intVal k) (addV .rne (z v) (z a).neg).toVal).toVal
  let sum := sumV .rne [(mulV (intVal t.area) (z a)).toVal, term ca b, term ab c]
  BitVec.ofNat 32 (finish fp32 .rne false (divV 26 sum (intVal t.area)).1).bits
/-- A quad's pixels: 0 (X, Y), 1 (X+1, Y), 2 (X, Y+1), 3 (X+1, Y+1). -/
def quadPix (x y : Nat) : List (Nat × Nat) := [(x, y), (x + 1, y), (x, y + 1), (x + 1, y + 1)]
def Tri.quadRecord (t : Tri) (x y : Nat) (cov : List Byte) : List Word :=
  let a := t.vertex 0
  let b := t.vertex 1
  let c := t.vertex 2
  let lb := fun (x y : Nat) => edge c a (centre x) (centre y)
  let lc := fun (x y : Nat) => edge a b (centre x) (centre y)
  let r := fun (k : Int) => ratio k t.area
  [BitVec.ofNat 32 (x + 65536 * y), t.psn.setWidth 32 ||| (t.handle.setWidth 32 <<< 24), BitVec.ofNat 32 (leNat cov)] ++
  (quadPix x y).map (fun p => t.depth p.1 p.2) ++
  [r (lb x y), r (lc x y), r (lb (x + 1) y - lb x y), r (lc (x + 1) y - lc x y), r (lb x (y + 1) - lb x y), r (lc x (y + 1) - lc x y)] ++
  [t.attr[0], t.attr[1], t.attr[2]]
/-- Triangles in ascending PSN. -/
def insertTri (t : Tri) : List Tri → List Tri
  | [] => [t]
  | u :: us => if t.psn.toNat < u.psn.toNat then t :: u :: us else u :: insertTri t us
def Launch.tileTris (l : Launch) (h : Byte) (g : Target) (k : Nat) : List Tri :=
  (l.tris.filter fun t => t.handle = h && (t.touches g).contains k).foldr insertTri []
/-- Quad `q` of the tile's work: primitive q / 256, quad q mod 256 in row-major order. -/
def quadAt (g : Target) (k q : Nat) : Nat × Nat := (k % g.across * 32 + q % 16 * 2, k / g.across * 32 + q % 256 / 16 * 2)
def Launch.rangeX (l : Launch) : Nat := l.cmd[6].toNat
def Launch.rangeY (l : Launch) : Nat := max 1 (wbits l.cmd[7] 15 0)
def Launch.rangeZ (l : Launch) : Nat := max 1 (wbits l.cmd[7] 31 16)
/-- Workgroups of the range node (R263, R269). -/
def Launch.range (l : Launch) : Nat := l.rangeX * l.rangeY * l.rangeZ
/-- The input queue is empty, and no workgroup of the stage before it remains or can start. -/
def State.binned (s : State) (l : Launch) : Bool :=
  match l.rast? with
  | none => false
  | some k =>
    ((List.range (k + 1)).all fun j => (l.stage j).empty) && l.next ≥ l.range &&
    (s.allWgs.all fun w => !(w.wid ≠ 0 && w.lid = l.lid && w.stage.val < k)) &&
    !(s.ctxs.any fun c => c.discarded.any fun d => d.wg.lid = l.lid && d.wg.stage.val < k)
def Launch.doneQuads (l : Launch) (h : Byte) (k : Nat) : Nat := (l.progress.lookup (h, k)).getD 0
/-- Every tile and handle that holds a primitive. -/
def Launch.rasterTiles (l : Launch) : List (Byte × Nat) :=
  (l.tris.flatMap fun t => match l.target? t.handle with | some g => (t.touches g).map fun k => (t.handle, k) | none => []).eraseDups
def Launch.tileDone (l : Launch) (h : Byte) (g : Target) (k : Nat) : Bool := l.doneQuads h k ≥ 256 * (l.tileTris h g k).length
/-- Rasteriser nodes that the partition owns (R293). -/
def State.rasterNodes (s : State) (p : Fin 16) : Nat := (ownList (s.engines p / 2 ^ 32 % 2 ^ 16) 16).length
/-- Its node has done every lower tile. -/
def State.tileTurn (s : State) (l : Launch) (k : Nat) : Bool :=
  let n := max 1 (s.rasterNodes (ctxPart (s.ctxDesc l.ctx)))
  l.rasterTiles.all fun e => !(e.2 < k && e.2 % n = k % n) || match l.target? e.1 with | some g => l.tileDone e.1 g e.2 | none => true
/-- One quad of a tile: its covered pixels are announced, then its record is emitted; it waits for room in both (R364, R238). -/
def State.rasterQuad (s : State) (l : Launch) (h : Byte) (g : Target) (k q : Nat) (stage : Nat) : State :=
  let count := fun (s : State) => s.updLaunch l.lid fun x =>
    { x with progress := ((h, k), q + 1) :: x.progress.filter fun e => e.1 ≠ (h, k) }
  match (l.tileTris h g k)[q / 256]? with
  | none => s
  | some t =>
    let (x, y) := quadAt g k q
    let s1 := s.fillTile l h g k
    let far := fun (p : Nat × Nat) => match s1.tile? l.lid h k with | some c => c.zfar[blockOf p.1 p.2]?.getD 0 | none => 0
    let early := (l.stage (stage + 1)).desc[1].getLsbD 8
    let cov := (quadPix x y).map fun p =>
      let c := t.coverage g p.1 p.2
      if early && c ≠ 0 && Val.le (fp32.val (far p).toNat) (fp32.val (t.depth p.1 p.2).toNat) then 0 else c
    if cov.all (· = 0) then count s
    else
      let f : Frag := { h := h, x := x, y := y, psn := t.psn }
      let new := (cov.filter (· ≠ 0)).length
      let next := l.stage (stage + 1)
      if (s1.blockSlots l f).length + new > Config.blockSlots || next.queue.length + next.ringCount ≥ stageChip next + stageRing next then s
      else
        let ann := fun (s : State) (p : ((Nat × Nat) × Byte) × Nat) =>
          if p.1.2 = 0 then s else s.announce l { f with x := p.1.1.1, y := p.1.1.2 } p.1.2 (t.depth p.1.1.1 p.1.1.2) p.2
        let s := (((quadPix x y).zip cov).zipIdx).foldl ann s1
        let r := t.quadRecord x y cov
        (count (((s.pushOf l.lid l.ctx (stage + 1) r).getD s).updLaunch l.lid (Launch.updStage (stage + 1) fun st => { st with quads := st.quads ++ [r] }))).wake
def execRasterTile (lid : Nat) (h : Byte) (k : Nat) : State → Out := fun s =>
  match s.launch? lid with
  | none => .next s
  | some l =>
    match l.rast?, l.target? h with
    | some stage, some g =>
      if s.moving l.ctx && s.binned l && s.tileTurn l k && !l.tileDone h g k then .next (s.rasterQuad l h g k (l.doneQuads h k) stage) else .next s
    | _, _ => .next s
/-- A tile commits: every primitive announced, every slot retired; it is written back and marked finished. -/
def execTileCommit (lid : Nat) (h : Byte) (k : Nat) : State → Out := fun s =>
  match s.launch? lid with
  | none => .next s
  | some l =>
    match l.rast?, l.target? h with
    | some _, some g =>
      let held := s.pixels.any fun q => q.lid = lid && q.handle = h && g.tileOf q.x q.y = k
      if s.moving l.ctx && s.binned l && l.tileDone h g k && !held && !l.finished.contains (h, k) then
        .next ((s.flushTiles l fun x => x.handle = h && x.tile = k).updLaunch lid fun x => { x with finished := x.finished ++ [(h, k)] })
      else .next s
    | _, _ => .next s

/-! ### The end of a launch's slots (R365) -/
/-- Its workgroups have retired, its range and queues are empty, and its node, if it has one, has done every tile. -/
def State.postsOver (s : State) (l : Launch) : Bool :=
  l.next ≥ l.range && (l.stages.all (·.empty)) &&
  !(s.ctxs.any fun c => c.discarded.any fun d => d.wg.lid = l.lid) &&
  (s.allWgs.all fun w => !(w.wid ≠ 0 && w.lid = l.lid)) &&
  (l.rast?.isNone || l.rasterTiles.all fun e => match l.target? e.1 with | some g => l.tileDone e.1 g e.2 | none => true)
def execLaunchSlotsEnd (lid : Nat) : State → Out := fun s =>
  match s.launch? lid with
  | none => .next s
  | some l =>
    if s.postsOver l then
      let t := { s with pixels := s.pixels.filter fun q => !(q.lid = lid && q.state = SlotState.opened) }.settlePixels
      .next (t.updLaunch lid fun x => { x with ended := true }).wake
    else .next s

end
end Sys2Proof.Machine
end

