-- ==== Sys2Proof/Machine/Launch.lean ====
section
/-!
DEFINITION. Machine/Launch.lean: launches: commands, checks, completion, the allocator, the start of groups, retirement and restart
of workgroups (02 R17-R39, 05 R125, 17 R263-R271, 20 R310).
-/
namespace Sys2Proof.Machine
noncomputable section

/-! ### Queues' records in device memory (R310, R312) -/
def State.hostPut (s : State) (pa : Nat) (ws : List Word) : State := s.plainPuts pa (ws.flatMap fun w => leBytes 4 w.toNat)
def Queue.record (q : Queue) : List Word :=
  [q.firstSeq - 1 + BitVec.ofNat 32 q.started, q.firstSeq - 1 + BitVec.ofNat 32 q.completed,
    q.status.setWidth 32 ||| (if q.deadgroup then 0x100 else 0), 0]
def State.queue? (s : State) (q : Nat) : Option Queue := s.queues.find? fun x => x.q = q
def State.updQueue (s : State) (q : Nat) (f : Queue → Queue) : State :=
  { s with queues := s.queues.map fun x => if x.q = q then f x else x }
/-- The write-back record is written whole. -/
def State.writeRecordOf (s : State) (q : Nat) : State := match s.queue? q with | some x => s.hostPut x.wb x.record | none => s
/-- Commands completed together with every earlier one. -/
def settleDone : Nat → Nat → List Nat → Nat
  | 0, c, _ => c
  | n + 1, c, l => if l.contains c then settleDone n (c + 1) l else c
def Queue.finish (num : Nat) (status : Byte) (dead : Bool) (q : Queue) : Queue :=
  let l := num :: q.done
  let c := settleDone l.length q.completed l
  { q with done := l.filter fun k => k ≥ c, completed := c, status := status, deadgroup := dead }

/-! ### Signals (R263, R264) -/
def sigVa (d : Vector Word 16) (i : Nat) : Nat := d[8].toNat + wbits d[9] 19 0 * 2 ^ 32 + 8 * i
def sigCount (d : Vector Word 16) : Nat := wbits d[10] 15 0
def cmdWaits (cmd : Vector Word 16) : List (Nat × Nat) :=
  ([(wbits cmd[10] 15 0, cmd[11].toNat + cmd[12].toNat * 2 ^ 32), (wbits cmd[10] 31 16, cmd[13].toNat + cmd[14].toNat * 2 ^ 32)]).take
    (if wbits cmd[8] 3 2 = 3 then 0 else wbits cmd[8] 3 2)
def cmdSignals (cmd : Vector Word 16) : List Nat := (cmdWaits cmd).map (·.1) ++ (if cmd[8].getLsbD 4 then [wbits cmd[15] 15 0] else [])
/-- An atomic add of `n` to a signal, seen at SYSTEM scope. -/
def State.addSignal (s : State) (who : Who) (va n : Nat) : State :=
  let s := s.devSee who va 8
  let x := leNat (s.devRead who va 8)
  (s.devPut who va (leBytes 8 ((x + n) % 2 ^ 64))).writeBackAll fun l => lineAt who va l
/-- A launch is over: its signal, then its queue's record. -/
def State.endLaunch (s : State) (l : Launch) (signal : Bool) : State :=
  let who := s.launchWho l 0
  let s := if signal && l.cmd[8].getLsbD 4 then s.addSignal who (sigVa (s.ctxDesc l.ctx) (wbits l.cmd[15] 15 0)) 1 else s
  let s := { s with
    launches := s.launches.filter fun x => x.lid ≠ l.lid
    pixels := s.pixels.filter fun q => q.lid ≠ l.lid
    tiles := s.tiles.filter fun t => t.lid ≠ l.lid
    lastPsn := s.lastPsn.filter fun e => e.1.1 ≠ l.lid }
  ((s.updQueue l.queue (Queue.finish l.num l.status l.deadgroup)).writeRecordOf l.queue).wake

/-! ### Checks of a command (R263, R265-R268, R319, R354, R371, R374) -/
def cmdBad (cmd : Vector Word 16) : Bool :=
  cmd[0].toNat % 64 ≠ 0 || wbits cmd[1] 31 20 ≠ 0 || cmd[6] = 0 || wbits cmd[8] 31 5 ≠ 0 || wbits cmd[8] 3 2 = 3 || wbits cmd[15] 31 16 ≠ 0
def hdrBad (h : Vector Word 16) : Bool :=
  wbits h[0] 4 0 = 0 || wbits h[0] 4 0 > 16 || wbits h[0] 31 5 ≠ 0 || (h[1].toNat + wbits h[2] 19 0 * 2 ^ 32) % 384 ≠ 0 ||
  wbits h[2] 31 20 ≠ 0 || h[3].toNat % 64 ≠ 0 || wbits h[4] 31 20 ≠ 0 || wbits h[5] 31 9 ≠ 0 || wbits h[5] 8 0 > 256 ||
  h[6].toNat % 4096 ≠ 0 || wbits h[7] 31 20 ≠ 0 || (List.range 7).any fun k => h[9 + k]?.getD 0 ≠ 0
def stageEmit (st : Stage) : Bool := st.desc[1].getLsbD 11
def stageSpawn (st : Stage) : Bool := st.desc[1].getLsbD 12
def stageRast (st : Stage) : Bool := st.desc[1].getLsbD 13
def stageGang (st : Stage) : Nat := 2 ^ wbits st.desc[1] 6 5
def stageGroups (st : Stage) : Nat := wbits st.desc[1] 3 0 + 1
def stageSpill (st : Stage) : Nat := if wbits st.desc[1] 27 20 = 0 then 56 else wbits st.desc[1] 27 20
def stageCap (st : Stage) : Nat := wbits st.desc[3] 10 0
/-- Field ranges and reserved bits of stage k of n. -/
def stageBad (n k : Nat) (st : Stage) : Bool :=
  let d := st.desc
  let spill := wbits d[1] 27 20
  wbits d[1] 15 14 ≠ 0 || wbits d[1] 31 28 ≠ 0 || wbits d[1] 19 16 > 8 || (spill ≠ 0 && spill < 8) || spill > 248 ||
  wbits d[2] 31 20 ≠ 0 || d[2].toNat % 4096 ≠ 0 || d[3].getLsbD 11 || wbits d[3] 31 16 ≠ 0 ||
  (if k = 0 then decide (stageCap st ≠ 0) || decide (d[6] ≠ 0) else decide (stageCap st = 0) || decide (stageCap st > 1024)) ||
  d[4].toNat % 64 ≠ 0 || wbits d[5] 31 20 ≠ 0 || d[6].toNat > 2 ^ 20 ||
  wbits d[7] 8 0 > 256 || wbits d[7] 15 9 ≠ 0 || wbits d[7] 24 16 > 256 || wbits d[7] 31 25 ≠ 0 ||
  (List.range 8).any (fun q => wbits d[9] (4 * q + 3) (4 * q) ≥ n || (d[10].getLsbD q && wbits d[9] (4 * q + 3) (4 * q) = 0)) ||
  wbits d[10] 31 8 ≠ 0 || d[11].toNat > 8 ||
  d[12].toNat % 8 ≠ 0 || wbits d[13] 31 20 ≠ 0 ||
  (if stageRast st then decide (d[14].toNat % 4096 ≠ 0) || decide (wbits d[15] 31 20 ≠ 0) || decide (d[16] = 0)
    else decide (d[14] ≠ 0) || decide (d[15] ≠ 0) || decide (d[16] ≠ 0)) ||
  (List.range 7).any fun j => d[17 + j]?.getD 0 ≠ 0
/-- Where nodes may stand, and EARLYZ. -/
def nodesBad (sts : List Stage) : Bool :=
  let at_ := fun k => (sts[k]?).getD {}
  (sts.filter stageRast).length > 1 ||
  (List.range sts.length).any fun k =>
    (stageRast (at_ k) && (k = 0 || k + 1 = sts.length || stageWidth (at_ k) ≠ 4 || stageWidth (at_ (k + 1)) ≠ 16)) ||
    ((at_ k).desc[1].getLsbD 8 && !(k > 0 && stageRast (at_ (k - 1))))
def emitNarrow (sts : List Stage) : Bool :=
  (List.range sts.length).any fun k =>
    let st := (sts[k]?).getD {}
    (stageEmit st && k + 1 < sts.length && stageWidth ((sts[k + 1]?).getD {}) < 4) || (stageSpawn st && k ≠ 0 && stageWidth st < 4)
def stageNoFit (st : Stage) : Bool :=
  wbits st.desc[2] 19 0 > Config.coreMemBytes || (stageDet st && stageExt st && stageGroups st = 16)
def gangCores (st : Stage) (core : CoreId) : List CoreId := (List.range (stageGang st)).map fun k => Fin.ofNat 256 (core.val + k)

/-- R268: the buckets of a stage: bounds, entry, zero word. -/
def State.buckets (s : State) (who : Who) (d : Vector Word 32) : List (List Word) :=
  (List.range d[11].toNat).map fun b =>
    (List.range 6).map fun j => s.devWord who (d[12].toNat + wbits d[13] 19 0 * 2 ^ 32 + 24 * b + 4 * j)
def bucketHit (cmd : Vector Word 16) (b : List Word) : Bool :=
  let w := fun k => ((b[k]?).getD 0).toNat
  w 0 ≤ cmd[2].toNat && cmd[2].toNat ≤ w 1 && w 2 ≤ cmd[3].toNat && cmd[3].toNat ≤ w 3
/-- A stage's entry and bucket for the launch, none where no bucket matches. -/
def chooseEntry (cmd : Vector Word 16) (d : Vector Word 32) (bs : List (List Word)) : Option (Word × Nat) :=
  if bs.isEmpty then some (d[0], 0)
  else match bs.findIdx? (bucketHit cmd) with
    | some k => some ((((bs[k]?).getD [])[4]?).getD 0, k)
    | none => none
/-- A SIMD unit's spare-lane word (R301). -/
def State.spareOf (s : State) (core : CoreId) (simd : Fin 4) : Spare :=
  s.spare (core.val * 4 + simd.val)
/-- The unit is whole, spared or draining to be spared: it can still admit groups, now or later. -/
def Spare.lives (x : Spare) : Bool := x.state ≠ 2 && x.def1 = 63
def State.anyUnit (s : State) (p : Fin 16) : Bool :=
  (List.finRange 256).any fun c => s.ownsCluster p (c.val / 8) && (List.finRange 4).any fun u => (s.spareOf c u).lives
/-- The units of the core can hold a workgroup of the stage when nothing else is there (R19, R27, R185, R301). -/
def State.couldHold (s : State) (st : Stage) (core : CoreId) : Bool :=
  let n := ((List.finRange 4).filter fun u => (s.spareOf core u).lives).length
  let per := if stageExt st then 15 else 16
  if stageDet st then decide (n ≥ 1) && decide (stageGroups st ≤ per) else decide (stageGroups st ≤ per * n)
/-- A gang, or a workgroup, of the stage fits nowhere on the clusters that the partition owns. -/
def State.gangNoFit (s : State) (p : Fin 16) (st : Stage) : Bool :=
  !(List.finRange 256).any fun c => c.val % 8 % stageGang st = 0 && s.ownsCluster p (clusterOf c) && (gangCores st c).all (s.couldHold st)
/-- The reads of the device for a command: the program's header and, where it is good, its stages, targets and buckets (R264, R290). -/
def State.draftSee (s : State) (who : Who) (cmd : Vector Word 16) : State :=
  let pd := cmd[0].toNat + wbits cmd[1] 19 0 * 2 ^ 32
  let s := s.devSee who pd 64
  let hdr : Vector Word 16 := Vector.ofFn fun k => s.devWord who (pd + 4 * k.val)
  if hdrBad hdr then s
  else
    let n := wbits hdr[0] 4 0
    let s := (s.devSee who (pd + 64) (128 * n)).devSee who (hdr[3].toNat + wbits hdr[4] 19 0 * 2 ^ 32) (64 * wbits hdr[5] 8 0)
    (List.range n).foldl (fun s i =>
      let d := fun (k : Nat) => s.devWord who (pd + 64 + 128 * i + 4 * k)
      s.devSee who ((d 12).toNat + wbits (d 13) 19 0 * 2 ^ 32) (24 * min 8 (d 11).toNat)) s
/-- What the device reads for a command before it starts it. -/
structure Draft where
  hdr : Vector Word 16
  stages : List Stage
  status : Byte
  targets : List (Vector Word 16)
  deriving DecidableEq, Repr
def State.draft (s : State) (ctx : Nat) (cmd : Vector Word 16) (seqOk : Bool) : Draft :=
  let who := s.who ctx 0 0
  let p := who.part
  let pd := cmd[0].toNat + wbits cmd[1] 19 0 * 2 ^ 32
  if cmdBad cmd || !seqOk then { hdr := Vector.replicate 16 0, stages := [], status := 1, targets := [] }
  else
    let hdr : Vector Word 16 := Vector.ofFn fun k => s.devWord who (pd + 4 * k.val)
    if hdrBad hdr then { hdr := hdr, stages := [], status := 1, targets := [] }
    else
      let n := wbits hdr[0] 4 0
      let raw := (List.range n).map fun i =>
        let d : Vector Word 32 := Vector.ofFn fun k => s.devWord who (pd + 64 + 128 * i + 4 * k.val)
        ({ desc := d } : Stage)
      let bks := raw.map fun st => s.buckets who st.desc
      let picks := (raw.zip bks).map fun e => chooseEntry cmd e.1.desc e.2
      let sts := (raw.zip picks).map fun e => { e.1 with entry := (e.2.getD (0, 0)).1, bucket := (e.2.getD (0, 0)).2 }
      let tgt := hdr[3].toNat + wbits hdr[4] 19 0 * 2 ^ 32
      let targets := (List.range (wbits hdr[5] 8 0)).map fun h =>
        (Vector.ofFn fun k : Fin 16 => s.devWord who (tgt + 64 * h + 4 * k.val))
      let l : Launch := { cmd }
      let bad := raw.zipIdx.any (fun e => stageBad n e.2 e.1) || nodesBad raw || l.range % stageGang ((raw[0]?).getD {}) ≠ 0 ||
        bks.any (fun bs => bs.any fun b => (b[5]?).getD 0 ≠ 0) || targets.any fun t => !targetOk t
      let status : Byte :=
        if bad then 1
        else if picks.any (·.isNone) then 2
        else if raw.any stageNoFit || (s.anyUnit p && raw.any fun st => !stageRast st && s.gangNoFit p st) then 3
        else if emitNarrow raw then 4
        else if !s.anyUnit p || (raw.any stageRast && s.rasterNodes p = 0) then 5
        else 0
      { hdr := hdr, stages := sts, status := status, targets := targets }

/-! ### Starting a launch (R264) -/
def State.consumes (s : State) (q : Queue) : Bool :=
  !q.closed && !s.host.linkDown && (match s.ctx? q.ctx with | some c => c.phase = .run | none => false) &&
  (q.count - BitVec.ofNat 32 q.started) ≠ 0
/-- Where a queue's next command lies. -/
def Queue.nextAt (x : Queue) : Nat := x.ring + 64 * (x.started % 2 ^ x.log2n)
/-- The device reads the next command and the signals it waits for. -/
def State.commandSee (s : State) (x : Queue) (cmd : Vector Word 16) : State :=
  (cmdWaits cmd).foldl (fun s w => s.devSee (s.who x.ctx 0 0) (sigVa (s.ctxDesc x.ctx) w.1) 8) s
def execLaunchStart (q : Nat) : State → Out := fun s0 =>
  match s0.queue? q with
  | none => .next s0
  | some x =>
    if !s0.consumes x then .next s0
    else
      let s := s0.arrayReads x.nextAt 64
      let cmd : Vector Word 16 := Vector.ofFn fun k => s.plainWord (x.nextAt + 4 * k.val)
      let s := s.commandSee x cmd
      let d := s.ctxDesc x.ctx
      let sigOk := (cmdSignals cmd).all fun i => i < sigCount d
      let met := (cmdWaits cmd).all fun w => leNat (s.devRead (s.who x.ctx 0 0) (sigVa d w.1) 8) ≥ w.2
      if sigOk && !met then .next s0
      else
        let seqOk := cmd[9] = x.firstSeq + BitVec.ofNat 32 x.started
        let s1 := s.updQueue q fun x => { x with started := x.started + 1 }
        let s1 := if sigOk && !(cmdWaits cmd).isEmpty then s1.dropEverywhere (s.who x.ctx 0 0) else s1
        let l : Launch := { lid := s.fresh, queue := q, num := x.started, ctx := x.ctx, cmd := cmd }
        if !sigOk then .next (s1.endLaunch { l with status := 1 } false)
        else
          let s1 := if cmdBad cmd || !seqOk then s1 else s1.draftSee (s1.who x.ctx 0 0) cmd
          let dr := s1.draft x.ctx cmd seqOk
          let l := { l with hdr := dr.hdr, stages := dr.stages, status := dr.status, targets := dr.targets }
          if dr.status ≠ 0 then .next (s1.endLaunch l true)
          else .next ({ s1 with launches := s1.launches ++ [l] }.writeRecordOf q).wake

/-! ### Completion (R264, R361, R365) -/
def State.launchOver (s : State) (l : Launch) : Bool :=
  s.postsOver l && !(s.pixels.any fun q => q.lid = l.lid) &&
  !(s.ctxs.any fun c => c.ctx = l.ctx && c.discarded.any fun d => d.wg.lid = l.lid) &&
  !(s.allGroups.any fun g => match g.method with | some m => g.gid ≠ 0 && m.lid = l.lid | none => false) &&
  (l.rast?.isNone || l.rasterTiles.all fun e => l.finished.contains e)
def execLaunchComplete (lid : Nat) : State → Out := fun s =>
  match s.launch? lid with
  | none => .next s
  | some l =>
    if !s.launchOver l then .next s
    else
      let who := s.who l.ctx 0 0
      .next (((s.flushTiles l fun _ => true).writeBackAll fun x => x.part = who.part && x.asid = who.asid).endLaunch l true)

/-! ### Where a workgroup can be placed (R18, R19, R27, R185, R271, R301) -/
def State.unitGroups (s : State) (core : CoreId) (simd : Fin 4) : List Group := s.onUnit core simd
def State.isExt (s : State) (g : Group) : Bool :=
  match s.wg? g.wid with
  | some w => match s.launch? w.lid with | some l => stageExt (l.stage w.stage.val) | none => false
  | none => false
/-- Free group slots of a unit that admission may use. -/
def State.unitRoom (s : State) (ext : Bool) (core : CoreId) (simd : Fin 4) : List (Fin 4 × Fin 16) :=
  let gs := s.unitGroups core simd
  -- a self-test holds admission to the whole core (R305)
  if (s.spareOf core simd).state ≥ 2 || (List.finRange 4).any (fun u => (s.spareOf core u).testing) then []
  else
    let reserve := if ext || gs.any s.isExt then 1 else 0
    ((List.finRange 16).filter fun k => !(gs.any fun g => g.gslot = k)).map (fun k => (simd, k)) |>.take (s.freeBlocks core simd - reserve)
/-- The units of a core in the order the allocator takes them: its own choice. -/
def State.unitOrder (s : State) : List (Fin 4) := (List.range 4).map fun k => Fin.ofNat 4 (k + Config.choice s.fresh)
/-- Places for n groups on a core: a `.det` workgroup's on one unit. -/
def State.placesOn (s : State) (det ext : Bool) (n : Nat) (core : CoreId) : Option (List (Fin 4 × Fin 16)) :=
  let rooms := s.unitOrder.map fun u => s.unitRoom ext core u
  if det then (rooms.find? fun r => n ≤ r.length).map fun r => r.take n
  else if n ≤ rooms.flatten.length then some (rooms.flatten.take n) else none
def State.cmUsed (s : State) (core : CoreId) : Nat := ((s.allWgs.filter fun w => w.wid ≠ 0 && w.core = core).map (·.cmBytes)).sum
def areaBytes (n : Nat) : Nat := 48 * n + 128
/-- Work-area runs that resident groups of the launch hold, and those that keep the seeds of discarded ones (R277). -/
def State.areas (s : State) (lid : Nat) : List (Nat × Nat) :=
  ((s.allGroups.filter fun g => g.gid ≠ 0 && g.method.isNone && (s.wg? g.wid).any fun w => w.lid = lid).map fun g =>
    (g.divsp.toNat, areaBytes g.spillN)) ++
  s.ctxs.flatMap fun c => (c.discarded.filter fun d => d.wg.lid = lid).flatMap fun d => d.groups.map fun g => (g.area, areaBytes g.spill)
/-- The lowest free run of the work area, `held` taken. -/
def freeArea (base size need : Nat) (held : List (Nat × Nat)) : Option Nat :=
  let fits := fun b => b + need ≤ base + size && held.all fun h => b + need ≤ h.1 || h.1 + h.2 ≤ b
  match (base :: held.map fun h => h.1 + h.2).filter fits with
  | [] => none
  | b :: bs => some (bs.foldl min b)
def freeAreas (base size need : Nat) : Nat → List (Nat × Nat) → Option (List Nat)
  | 0, _ => some []
  | n + 1, held =>
    match freeArea base size need held with
    | none => none
    | some b => (freeAreas base size need n ((b, need) :: held)).map fun l => b :: l
def State.shareOf (s : State) (lid k : Nat) : List CoreId :=
  ((s.allWgs.filter fun w => w.wid ≠ 0 && w.lid = lid && w.stage.val = k).map (·.core)).eraseDups
def smax (st : Stage) : Nat := if wbits st.desc[7] 24 16 = 0 then 256 else wbits st.desc[7] 24 16
/-- Records that a stage's queue holds, in both parts. -/
def Stage.held (st : Stage) : Nat := st.queue.length + st.ringCount
/-- The stage has work, and may have more admitted. -/
def Launch.eligible (l : Launch) (k : Nat) : Bool :=
  let st := l.stage k
  let next := l.stage (k + 1)
  k < l.stages.length && !stageRast st && (if k = 0 then decide (l.next < l.range) else !st.empty) &&
  !(stageEmit st && k + 1 < l.stages.length && next.held ≥ stageChip next + stageRing next)
/-- Records of each group of a workgroup about to start, of `avail` that it may take: the allocator's choice, a free value of its own for
each member `m` of the gang and each group (R125, R270; log 20). -/
def State.groupShares (s : State) (m : Nat) : Nat → Nat → List Nat
  | 0, _ => []
  | n + 1, avail =>
    if avail = 0 then []
    else
      let c := 1 + s.free 7 ((m * 64 + n) * 2 ^ 32 + avail) % min 96 avail
      c :: s.groupShares m n (avail - c)
/-- The same for the members of a gang. DESIGN CHOICE (log 20): where the queue holds a record for each of the later members, they are
left one; a member for which none is left starts with no group. -/
def State.gangShares (s : State) (groups : Nat) : Nat → Nat → List (List Nat)
  | 0, _ => []
  | n + 1, avail =>
    let mine := s.groupShares n groups (if avail > n then avail - n else min 1 avail)
    mine :: s.gangShares groups n (avail - mine.sum)
/-- The groups of each workgroup about to be admitted, by the records they take (the range node's: none). -/
def State.sharesNow (s : State) (l : Launch) (k : Nat) : List (List Nat) :=
  let st := l.stage k
  if k = 0 then List.replicate (stageGang st) (List.replicate (stageGroups st) 0)
  else s.gangShares (stageGroups st) (stageGang st) st.held
/-- Everything a workgroup, or a gang, of the stage needs is there from `core` on. -/
def State.fits (s : State) (l : Launch) (k : Nat) (core : CoreId) (shares : List (List Nat)) : Bool :=
  let st := l.stage k
  let p := ctxPart (s.ctxDesc l.ctx)
  let cores := gangCores st core
  let new := (cores.filter fun c => !(s.shareOf l.lid k).contains c).length
  let (base, size) := l.work
  core.val % 8 % stageGang st = 0 && s.ownsCluster p (clusterOf core) &&
  ((cores.zip shares).all fun c => (s.placesOn (stageDet st) (stageExt st) c.2.length c.1).isSome &&
    s.cmUsed c.1 + wbits st.desc[2] 19 0 ≤ Config.coreMemBytes) &&
  (s.shareOf l.lid k).length + new ≤ smax st &&
  (freeAreas base size (areaBytes (stageSpill st)) (shares.map (·.length)).sum (s.areas l.lid)).isSome
/-- The allocator's order of preference, higher first (R271). -/
def State.preference (s : State) (l : Launch) (k : Nat) : Nat :=
  let st := l.stage k
  let cls := if (s.shareOf l.lid k).length < wbits st.desc[7] 8 0 then 2 else if 4 * st.held > 3 * stageCap st then 1 else 0
  ((cls * 4 + wbits l.cmd[8] 1 0) * 4 + wbits st.desc[1] 10 9) * 16 + (15 - k)
def State.admits (s : State) (ctx : Nat) : Bool := match s.ctx? ctx with | some c => c.phase = .run | none => false
/-- No stage that the core could admit is preferred to this one. -/
def State.preferred (s : State) (l : Launch) (k : Nat) (core : CoreId) : Bool :=
  s.launches.all fun m => (List.range m.stages.length).all fun j =>
    !(s.admits m.ctx && m.eligible j && s.fits m j core (s.sharesNow m j)) || s.preference m j ≤ s.preference l k

/-! ### The start of a group (R21, R22, R125, R269) -/
def startScalars (st : Stage) : Vector Word 60 := Vector.ofFn fun k =>
  if k.val < wbits st.desc[1] 19 16 then st.desc[24 + k.val]?.getD 0 else 0
def startRegs (st : Stage) (records : List (List Word)) : Regs :=
  { s := startScalars st, trapcfg := st.desc[8]
    v := Vector.ofFn fun r => Vector.ofFn fun L => (((records[L.val]?).getD [])[r.val]?).getD 0 }
def newGroup (gid wid gidx : Nat) (core : CoreId) (at_ : Fin 4 × Fin 16) (st : Stage) (area : Nat) (on : Mask) (now : Nat)
    (records : List (List Word)) : Group :=
  let leaf : Entry := { emask := on, amask := on, pc := st.entry }
  { gid := gid, admitted := gid, wid := wid, gidx := gidx, core := core, simd := at_.1, gslot := at_.2, regs := startRegs st records
    me := if on = 0 then {} else { leaf := some leaf, since := now }, exited := ~~~on, startExited := ~~~on
    divsp := BitVec.ofNat 64 area, spillN := stageSpill st, status := if on = 0 then .retired else .ready }
/-- Lanes inside the true shape. -/
def rangeMask (sh0 x n g : Nat) : Mask := maskOf fun L => sh0 = 0 || (x * n + g) * 96 + L.val < sh0
/-- `n` records leave a stage's queue, in the device's order; `from_`: how many have left in this step. -/
def State.takeRecords (s : State) (lid ctx k : Nat) (from_ : Nat) : Nat → List (List Word) × State
  | 0 => ([], s)
  | n + 1 =>
    match s.popOf lid ctx k from_ with
    | none => ([], s)
    | some (r, t) =>
      let (rs, t) := t.takeRecords lid ctx k (from_ + 1) n
      (r :: rs, t)
/-- The records of each group. -/
def State.takeShares (s : State) (lid ctx k : Nat) (from_ : Nat) : List Nat → List (List (List Word)) × State
  | [] => ([], s)
  | n :: ns =>
    let (r, s) := s.takeRecords lid ctx k from_ n
    let (rs, s) := s.takeShares lid ctx k (from_ + n) ns
    (r :: rs, s)
/-- One workgroup on its core, with its groups. -/
def State.addWg (s : State) (l : Launch) (k : Nat) (w : Workgroup) (areas : List Nat) (sh0 : Nat) (recs : List (List (List Word))) : State :=
  let st := l.stage k
  let n := recs.length
  let places := ((s.placesOn (stageDet st) (stageExt st) n w.core).getD [])
  let one := fun (g : Nat) =>
    let mine := (recs[g]?).getD []
    let on := if k = 0 then rangeMask sh0 w.x.toNat n g else maskOf fun L => L.val < mine.length
    newGroup (s.fresh * 256 + w.rank * 16 + g) w.wid g w.core ((places[g]?).getD (0, 0)) st ((areas[g]?).getD 0) on s.fresh mine
  { s with otherWgs := s.otherWgs ++ [w], others := s.others ++ (List.range n).map one }.endIdle
/-- The workgroup of the range node with linear index `i` (R269), as rank `r` of its gang. -/
def rangeWg (s : State) (l : Launch) (core : CoreId) (i r : Nat) : Workgroup :=
  let st := l.stage 0
  { wid := s.fresh * 16 + r + 1, lid := l.lid, linear := BitVec.ofNat 32 i, x := BitVec.ofNat 32 (i % l.rangeX)
    y := BitVec.ofNat 32 (i / l.rangeX % l.rangeY), z := BitVec.ofNat 32 (i / (l.rangeX * l.rangeY)), rank := r, gang := stageGang st
    gangId := s.fresh, ngroups := stageGroups st, core := Fin.ofNat 256 (core.val + r), cmBytes := wbits st.desc[2] 19 0 }
def State.admitRange (s : State) (l : Launch) (core : CoreId) : State :=
  let st := l.stage 0
  let n := stageGroups st
  let (base, size) := l.work
  let areas := (freeAreas base size (areaBytes (stageSpill st)) (n * stageGang st) (s.areas l.lid)).getD []
  let s1 := (List.range (stageGang st)).foldl (fun t r =>
    t.addWg l 0 (rangeWg s l core (l.next + r) r) ((areas.drop (n * r)).take n) l.cmd[2].toNat (List.replicate n [])) s
  (s1.updLaunch l.lid fun x => { x with next := x.next + stageGang st }).wake
/-- The target and tile of a rasteriser node's record. -/
def Launch.quadTile (l : Launch) (r : List Word) : Byte × Nat :=
  let w : Nat → Word := fun k => (r[k]?).getD 0
  let h : Byte := (w 1 >>> 24).setWidth 8
  (h, match l.target? h with | some t => t.tileOf (wbits (w 0) 15 0) (wbits (w 0) 31 16) | none => 0)
/-- The quads that the lanes of a workgroup start with, as GIDX, lane and tile; `made`: the queued records that a rasteriser node made. -/
def Launch.quadsOf (l : Launch) : List (List Word) → List (Nat × Nat × List Word) → List (Nat × Nat × Byte × Nat)
  | _, [] => []
  | made, e :: es =>
    if made.contains e.2.2 then (e.1, e.2.1, l.quadTile e.2.2) :: l.quadsOf (made.erase e.2.2) es else l.quadsOf made es
/-- Records with the group and lane that start with them. -/
def startLanes (recs : List (List (List Word))) : List (Nat × Nat × List Word) :=
  recs.zipIdx.flatMap fun g => g.1.zipIdx.map fun r => (g.2, r.2, r.1)
/-- A workgroup, or the members of a gang, of a stage fed by records start. Taking their records is an acquire at DEVICE by their groups
(R125, R229). -/
def State.admitRecords (s : State) (l : Launch) (k : Nat) (core : CoreId) (shares : List (List Nat)) : State :=
  let st := l.stage k
  let (base, size) := l.work
  let areas := (freeAreas base size (areaBytes (stageSpill st)) (shares.map (·.length)).sum (s.areas l.lid)).getD []
  let one := fun (t : State) (e : List Nat × Nat) =>
    let r := e.2
    let before := (shares.take r).map (·.length) |>.sum
    let now := ((t.launch? l.lid).getD l).stage k
    let (recs, t) := t.takeShares l.lid l.ctx k ((shares.take r).map (·.sum)).sum e.1
    let w : Workgroup := { wid := s.fresh * 16 + r + 1, lid := l.lid, stage := Fin.ofNat 16 k, linear := BitVec.ofNat 32 now.started
                           x := BitVec.ofNat 32 now.started, rank := r, gang := stageGang st, gangId := s.fresh, ngroups := e.1.length
                           core := Fin.ofNat 256 (core.val + r), cmBytes := wbits st.desc[2] 19 0
                           quads := l.quadsOf now.quads (startLanes recs) }
    ((t.addWg l k w ((areas.drop before).take e.1.length) 0 recs).updLaunch l.lid
      (Launch.updStage k fun x => { x with started := x.started + 1 })).dropCopiesOf (s.who l.ctx w.core 0) 2
  (shares.zipIdx.foldl one s).wake
def execWorkgroupAdmit (lid : Nat) (stage : Fin 16) (core : CoreId) : State → Out := fun s =>
  match s.launch? lid with
  | none => .next s
  | some l =>
    let k := stage.val
    let shares := s.sharesNow l k
    if !s.admits l.ctx || !l.eligible k || !s.preferred l k core || !s.fits l k core shares then .next s
    else if k = 0 then .next (s.admitRange l core)
    else .next (s.admitRecords l k core shares)

/-! ### Retirement of a workgroup (R39, R87) -/
def State.wgBusy (s : State) (wid : Nat) : Bool :=
  let gids := (s.allGroups.filter fun g => g.wid = wid && g.gid ≠ 0).map (·.gid)
  (s.allGroups.any fun g => g.wid = wid && g.gid ≠ 0 && g.status ≠ .retired) || s.copies.any (fun c => c.wid = wid) ||
  s.cores.any (fun c => c.order.any fun o => o.wid = wid) || s.basins.any fun b => gids.contains b.gid
def execWorkgroupRetire (wid : Nat) : State → Out := fun s =>
  match s.wg? wid with
  | none => .next s
  | some w =>
    if s.wgBusy wid then .next s
    else .next ((s.updLaunch w.lid fun l => { l with deadgroup := l.deadgroup || w.deadgroup }).freeWg w)

/-! ### Restart of a discarded workgroup (R35) -/
/-- Registers that the restart leaves undefined, but for their reserved fields, which read zero (R7). DEDUCED (log 6): LACTIVE is 0, since the
group's `rgn` runs again and needs it (R33). -/
def State.undefinedRegs (s : State) (gidx : Nat) (seed : Seed) : Regs :=
  let x := fun k => Config.element s.fresh (gidx * 16384 + k)
  { v := Vector.ofFn fun r => Vector.ofFn fun L => if r.val < 32 then x (r.val * 96 + L.val) else 0
    s := Vector.ofFn fun k => if h : k.val < 16 then seed.s[k.val] else x (6144 + k.val)
    p := Vector.ofFn fun r => Vector.ofFn fun L => match (x (6400 + r.val * 96 + L.val)).toNat % 4 with | 0 => .f | 1 => .t | 2 => .u | _ => .never
    fmode := seed.fmode, fstat := x 8000 &&& 0xFF, guard := x 8001 &&& 0x3F, trapcfg := x 8002, trapvec := x 8003, trappc := x 8004, trapcause := x 8005
    shdcnt := x 8006, xactl := #v[x 8007 &&& 0x3FFFFFFF, x 8008 &&& 0x3FFFFFFF], retired := x 8009 ++ x 8010
    lc := Vector.ofFn fun k => x (8012 + k.val), lstart := Vector.ofFn fun k => x (8015 + k.val), lend := Vector.ofFn fun k => x (8018 + k.val)
    dstat := Vector.ofFn fun c => Vector.ofFn fun L => (x (8100 + c.val * 96 + L.val)).setWidth 4 }
/-- The seed that a group's slot of the workgroup context area holds. -/
def State.readSeed (s : State) (who : Who) (g : LostGroup) : Seed :=
  let w := fun (k : Nat) => s.devWord who (g.area + 48 * g.spill + 4 * k)
  { s := Vector.ofFn fun k => w k.val, pc := w 16, mask := joinMask (w 17) (w 18) (w 19), fmode := w 20 &&& 0x1FFF }
/-- A group of the workgroup as it starts again. DESIGN CHOICE (log 6): DEADM and FAULTM are 0 and no fault record is unread, though R35 calls
every register that it does not name undefined: a dead lane would not restart, and a record has no word that raised it. -/
def restartGroup (s : State) (who : Who) (d : Discarded) (core : CoreId) (places : List (Fin 4 × Fin 16)) (e : LostGroup × Nat) : Group :=
  let gidx := e.1.gidx
  let gone := e.1.gone
  let region := e.1.region
  let seed := s.readSeed who e.1
  let at_ := (places[e.2]?).getD (0, 0)
  let leaf : Entry := { emask := seed.mask &&& ~~~gone, amask := seed.mask &&& ~~~gone, pc := seed.pc }
  let gid := s.fresh * 256 + d.wg.rank * 16 + gidx
  { gid := gid, admitted := gid, wid := d.wg.wid, gidx := gidx, core := core, simd := at_.1, gslot := at_.2
    regs := s.undefinedRegs (d.wg.rank * 16 + gidx) seed, me := if region = .none then {} else { leaf := some leaf, since := s.fresh }
    exited := if region = .none then allLanes else gone, startExited := gone, divsp := BitVec.ofNat 64 e.1.area, spillN := e.1.spill
    status := if region = .none then .retired else .ready, region := region, seed := seed, restartable := region ≠ .none }
/-- A gang's members keep their consecutive cores. -/
def State.gangPlace (s : State) (w : Workgroup) (core : CoreId) : Bool :=
  core.val % 8 ≥ w.rank && (core.val - w.rank) % 8 % w.gang = 0 &&
  s.allWgs.all fun m => !(m.wid ≠ 0 && m.gangId = w.gangId && w.gang > 1) || m.core.val + w.rank = core.val + m.rank
/-- A core may take a workgroup of the stage without its share rising above SMAX (R271). -/
def State.shareOk (s : State) (lid k : Nat) (st : Stage) (core : CoreId) : Bool :=
  (s.shareOf lid k).contains core || (s.shareOf lid k).length < smax st
/-- One discarded workgroup starts again on a core, if it can. -/
def State.restartWg (s : State) (ctx : Nat) (d : Discarded) (core : CoreId) : Option State :=
  let l := (s.launch? d.wg.lid).getD {}
  let st := l.stage d.wg.stage.val
  let n := d.groups.length
  if !s.ownsCluster (ctxPart (s.ctxDesc ctx)) (clusterOf core) || !s.gangPlace d.wg core || s.cmUsed core + d.wg.cmBytes > Config.coreMemBytes ||
    !s.shareOk d.wg.lid d.wg.stage.val st core then none
  else
    match s.placesOn (stageDet st) (stageExt st) n core with
    | some places =>
      let who := s.who ctx core 0
      let s := d.groups.foldl (fun s g => s.devSee who (g.area + 48 * g.spill) 84) s
      let cm := memWrite [] 0 ((List.range d.wg.cmBytes).map fun k => Config.byte (s.fresh * 2 ^ 20 + k))
      let w := { d.wg with core := core, cm := cm, rotation := 0 }
      let t := { s with otherWgs := s.otherWgs ++ [w], others := s.others ++ d.groups.zipIdx.map (restartGroup s who d core places) }
      -- its core is no longer that of a workgroup that has gone, and holds no copy older than its own stores (R218, R324)
      let t := (t.updCore core fun c => if c.claim = some d.wg.wid then { c with orphan := false } else c).dropCopiesOf who 2
      some (t.updCtx ctx fun c => { c with discarded := c.discarded.filter fun x => x.wg.wid ≠ d.wg.wid }).endIdle.wake
    | none => none
/-- The workgroup `d` stands for, and in a gang every other discarded member, from `d`'s place: all of them or none (R19). -/
def State.restartGang (s : State) (ctx : Nat) (d : Discarded) (core : CoreId) : List Discarded → Option State
  | [] => some s
  | e :: es => match s.restartWg ctx e (Fin.ofNat 256 (core.val + e.wg.rank - d.wg.rank)) with
    | some t => t.restartGang ctx d core es
    | none => none
def execRegionRestart (wid : Nat) (core : CoreId) : State → Out := fun s =>
  match s.ctxs.find? fun c => c.discarded.any fun d => d.wg.wid = wid with
  | none => .next s
  | some c =>
    match c.discarded.find? fun d => d.wg.wid = wid with
    | none => .next s
    | some d =>
      let gang := c.discarded.filter fun e => e.wg.wid = wid || (d.wg.gang > 1 && e.wg.gangId = d.wg.gangId)
      if c.phase = .run then .next ((s.restartGang c.ctx d core gang).getD s) else .next s

end
end Sys2Proof.Machine
end

