-- ==== Sys2Proof/Machine/Preempt.lean ====
section
/-!
DEFINITION. Machine/Preempt.lean: the pre-emption ladder, the context save area, restore, and the death of a context (17 R273-R278,
R397, 11 R184, 12 R189, 25 R379).
-/
namespace Sys2Proof.Machine
noncomputable section

/-! ### What a context holds -/
def State.ctxLaunches (s : State) (ctx : Nat) : List Launch := s.launches.filter fun l => l.ctx = ctx
def State.lidIn (s : State) (ctx lid : Nat) : Bool := s.launches.any fun l => l.lid = lid && l.ctx = ctx
def State.ctxWgs (s : State) (ctx : Nat) : List Workgroup := s.allWgs.filter fun w => w.wid ≠ 0 && s.lidIn ctx w.lid
def State.ctxGroups (s : State) (ctx : Nat) : List Group :=
  s.allGroups.filter fun g => g.gid ≠ 0 && g.method.isNone && (s.ctxWgs ctx).any fun w => w.wid = g.wid
def State.ctxMethods (s : State) (ctx : Nat) : List Group :=
  s.allGroups.filter fun g => g.gid ≠ 0 && match g.method with | some m => s.lidIn ctx m.lid | none => false
def State.mapGroups (s : State) (gids : List Nat) (f : Group → Group) : State :=
  let one := fun (g : Group) => if gids.contains g.gid then f g else g
  { s with g := one s.g, others := s.others.map one }
def State.dropGroups (s : State) (gids : List Nat) : State :=
  { s with g := if gids.contains s.g.gid then {} else s.g, others := s.others.filter fun g => !gids.contains g.gid }
/-- Words of the save area (R276). -/
def saveBase (d : Vector Word 16) : Nat := d[4].toNat + wbits d[5] 19 0 * 2 ^ 32
def State.saveWord (s : State) (ctx k : Nat) : Word := s.devWord (s.who ctx 0 0) (saveBase (s.ctxDesc ctx) + 4 * k)
def State.putSave (s : State) (ctx k : Nat) (ws : List Word) : State := s.devPuts (s.who ctx 0 0) (saveBase (s.ctxDesc ctx) + 4 * k) ws
def State.ctxEvent (s : State) (kind : Byte) (ctx : Nat) : State :=
  s.postEvent { kind := kind, part := ctxPart (s.ctxDesc ctx), ctx := BitVec.ofNat 32 ctx }
/-- A workgroup goes with everything its words have under way. -/
def State.dropWg (s : State) (w : Workgroup) : State :=
  ({ s with copies := s.copies.filter fun c => c.wid ≠ w.wid }.dropOrders w.wid).freeWg w

/-! ### Death of a context (R273, R278, R397) -/
/-- Everything of the context goes; its queues wait to be bound again. -/
def State.resetContext (s : State) (ctx : Nat) : State :=
  let s := (s.ctxWgs ctx).foldl State.dropWg s
  let s := s.dropGroups ((s.ctxMethods ctx).map (·.gid))
  let gone := fun lid => s.lidIn ctx lid
  let s := { s with
    pixels := s.pixels.filter fun q => !gone q.lid
    tiles := s.tiles.filter fun t => !gone t.lid
    lastPsn := s.lastPsn.filter fun e => !gone e.1.1
    launches := s.launches.filter fun l => l.ctx ≠ ctx
    queues := s.queues.map fun q : Queue => if q.ctx = ctx then { q with closed := true } else q }
  (s.updCtx ctx fun c => { ctx := c.ctx, desc := c.desc, phase := .killed }).wake
def State.killContext (s : State) (ctx : Nat) : State := (((s.resetContext ctx).putSave ctx 1 [3]).ctxEvent 5 ctx).wake

/-! ### The ladder (R273, R397) -/
/-- The lanes of a workgroup's group whose quads lie in unfinished tiles. -/
def Workgroup.undone (w : Workgroup) (done : List (Byte × Nat)) (gidx : Nat) : Mask :=
  maskOf fun L => w.quads.any fun q => q.1 = gidx && q.2.1 = L.val && !done.contains q.2.2
/-- Lanes of a group leave, as by `exit`. -/
def State.leaveLanes (s : State) (gid : Nat) (m : Mask) : State :=
  if m = 0 then s else ((s.focus gid 0).exitLanes m).focus s.g.gid s.g.sel
/-- Every lane that the workgroup started with has a quad of an unfinished tile. -/
def State.useless (s : State) (done : List (Byte × Nat)) (w : Workgroup) : Bool :=
  !w.quads.isEmpty && (s.allGroups.filter fun g => g.gid ≠ 0 && g.wid = w.wid).all fun g => (w.undone done g.gidx ||| g.startExited) = allLanes
def Discarded.useless (done : List (Byte × Nat)) (d : Discarded) : Bool :=
  !d.wg.quads.isEmpty && d.groups.all fun g => (d.wg.undone done g.gidx ||| g.gone) = allLanes
/-- The records of a stage's overflow ring, oldest first. -/
def State.ringRecords (s : State) (ctx : Nat) (st : Stage) : List (List Word) :=
  (List.range st.ringCount).map fun j =>
    (List.range (stageWidth st)).map fun i => s.devWord (s.who ctx 0 0) (ringAt st (st.ringHead + j) + 4 * i)
/-- The records that a rasteriser node made for unfinished tiles leave the queue of the stage after it, and every other record stays (R241). -/
def State.dropQuads (s : State) (l : Launch) (k : Nat) : State :=
  let st := ((s.launch? l.lid).getD l).stage k
  let gone := st.quads.filter fun r => !l.finished.contains (l.quadTile r)
  let ring := s.ringRecords l.ctx st
  let left := gone.diff st.queue
  let keep := ring.diff left
  let s := if keep.length = ring.length then s
    else keep.zipIdx.foldl (fun s e => s.devPuts (s.who l.ctx 0 0) (ringAt st (st.ringHead + e.2)) e.1) s
  s.updLaunch l.lid (Launch.updStage k fun st =>
    { st with queue := st.queue.diff gone, ringCount := keep.length, quads := st.quads.diff gone })
/-- In a launch with a node, unfinished tiles are given up with their slots, copies, method groups and the quads that announce their
fragments; the node processes them again (R379). A workgroup that serves finished tiles alone stays. DESIGN CHOICE (log 20): of one
that serves both kinds, the lanes with quads of unfinished tiles leave, and the others stay. -/
def State.stopNode (s : State) (l : Launch) : State :=
  match l.rast? with
  | none => s
  | some k =>
    let mine := fun (w : Workgroup) => w.lid = l.lid && w.stage.val = k + 1
    let s := (s.allWgs.filter fun w => w.wid ≠ 0 && mine w && s.useless l.finished w).foldl State.dropWg s
    let part := (s.allGroups.filter fun g => g.gid ≠ 0 && g.method.isNone).filterMap fun g =>
      ((s.wg? g.wid).filter mine).map fun w => (g.gid, w.undone l.finished g.gidx)
    let s := part.foldl (fun s e => s.leaveLanes e.1 e.2) s
    let less := fun (d : Discarded) =>
      if mine d.wg then { d with groups := d.groups.map fun g =>
        let gone := g.gone ||| d.wg.undone l.finished g.gidx
        { g with gone := gone, region := if gone = allLanes then .none else g.region } } else d
    let s := s.updCtx l.ctx fun c => { c with discarded := (c.discarded.filter fun d => !(mine d.wg && d.useless l.finished)).map less }
    let ms := s.allGroups.filter fun g => g.gid ≠ 0 && match g.method with | some m => m.lid = l.lid | none => false
    let s := s.dropGroups (ms.map (·.gid))
    let s := { s with
      pixels := s.pixels.filter fun q => q.lid ≠ l.lid
      tiles := s.tiles.filter fun t => t.lid ≠ l.lid
      lastPsn := s.lastPsn.filter fun e => e.1.1 ≠ l.lid }
    (s.dropQuads l (k + 1)).updLaunch l.lid fun x => { x with progress := x.progress.filter fun e => x.finished.contains e.1 }
/-- A word of the leaf, or the first word of its pair, has issued and is not complete. -/
def Slot.midWord (x : Slot) : Bool := x.leaf.any fun l => l.held.isSome
/-- A turn of the workgroup is open: the group that holds it is parked inside its word, or has a word that has issued and waits, and the
turn lasts until the word is complete (R186, R189). -/
def State.turnOpen (s : State) (w : Workgroup) : Bool :=
  stageDet (((s.launch? w.lid).getD {}).stage w.stage.val) &&
  s.allGroups.any fun g => g.gid ≠ 0 && g.wid = w.wid && g.status ≠ .halted &&
    (g.me.midWord || g.mate.midWord || (!g.parked.isEmpty && !g.parked.any fun p => p.parts.any (·.fetch)))
/-- A stalled fence or `.sc` atomic is withdrawn and issued again on restore (R274). -/
def Wait.untake : Wait → Wait
  | .ticket | .ticketed => .none
  | w => w
def Entry.untake (e : Entry) : Entry := { e with wait := e.wait.untake, wait2 := e.wait2.untake }
def Group.untake (g : Group) : Group :=
  let f := fun (x : Slot) => { x with leaf := x.leaf.map Entry.untake }
  { g with me := f g.me, mate := f g.mate, entries := g.entries.map Entry.untake }
/-- The groups of a workgroup stop: held stores commit, stalled fences and live reads are withdrawn (R274, R387), and the divergence
records go to their areas. -/
def State.stopWg (s : State) (wid : Nat) : State :=
  let gs := s.allGroups.filter fun g => g.gid ≠ 0 && g.wid = wid
  let s := gs.foldl (fun s g => if g.region = .trans then s.commitGroup g else s) s
  let stop := fun (g : Group) =>
    { g with status := if g.status = .ready then .stopped else g.status, restartable := g.restartable && g.region ≠ .trans
             reads := g.reads.map (LiveRead.again 0) }
  let s := s.mapGroups (gs.map (·.gid)) fun g => stop g.untake
  let s := gs.foldl (fun s g => s.spillOut g.gid) s
  s.updWg wid fun w => { w with stopped := true }
/-- HARD: restartable workgroups are discarded; the others stop, those of deterministic issue mode at a turn boundary (R189). -/
def State.toHard (s : State) (ctx : Nat) : State :=
  let s := (s.ctxLaunches ctx).foldl State.stopNode s
  let lost := (s.ctxWgs ctx).filter fun w =>
    s.wgRestartable w.wid && s.allGroups.any fun g => g.wid = w.wid && g.gid ≠ 0 && g.status ≠ .retired
  let s := lost.foldl (fun s w => s.discard w ctx) s
  let s := ((s.ctxWgs ctx).filter fun w => !s.turnOpen w).foldl (fun s w => s.stopWg w.wid) s
  s.updCtx ctx fun c => { c with phase := .hard }
/-- In HARD, a workgroup of deterministic issue mode that has reached its turn boundary stops. -/
def State.stopAtBoundary (s : State) : State :=
  let late := fun (w : Workgroup) => w.wid ≠ 0 && !w.stopped && !s.turnOpen w &&
    match (s.launch? w.lid).bind fun l => s.ctx? l.ctx with | some c => c.phase = .hard | none => false
  match s.allWgs.find? late with
  | some w => s.stopWg w.wid
  | none => s
def execGraceExpiry (ctx : Nat) : State → Out := fun s =>
  match s.ctx? ctx with
  | some c => if c.phase = .soft then .next (s.toHard ctx) else .next s
  | none => .next s
def execKillExpiry (ctx : Nat) : State → Out := fun s =>
  match s.ctx? ctx with
  | some c => if c.phase = .hard || c.phase = .saving then .next (s.killContext ctx) else .next s
  | none => .next s

/-! ### Records of the save area (R277) -/
def padTo64 (l : List Word) : List Word := l ++ List.replicate ((64 - l.length % 64) % 64) 0
def padBy (n : Nat) (l : List Word) : List Word := l ++ List.replicate (n - l.length) 0
def memWords (m : Memory) (a n : Nat) : List Word := (List.range n).map fun k => memWord m (a + 4 * k)
/-- Four bytes to a word, two half-words to a word. -/
def packBytes (n : Nat) (f : Nat → Byte) : List Word :=
  (List.range (n / 4)).map fun k => BitVec.ofNat 32 (leNat ((List.range 4).map fun j => f (4 * k + j)))

def PixSlot.words (q : PixSlot) : List Word :=
  q.colour.toList ++ [q.depth, q.idepth, BitVec.ofNat 32 (q.x + q.y * 65536), BitVec.ofNat 32 (q.psn.toNat + q.coverage.toNat * 2 ^ 24)]
def PixSlot.ofWords (q : PixSlot) (w : Nat → Word) : PixSlot :=
  { q with colour := Vector.ofFn fun k => w k.val, depth := w 4, idepth := w 5, psn := (w 7).setWidth 24, coverage := ((w 7) >>> 24).setWidth 8 }
/-- A launch's record, and after it the slots of a launch in direct mode (R379). DEDUCED (log 21): its contents follow one another in the
order of R277, and its size is 256 bytes and 64 for each queued record, so that what is left over lies at its end. -/
def Launch.record (l : Launch) : List Word :=
  padTo64 (padBy (64 + 16 * (l.stages.map fun st => st.queue.length).sum)
    (l.cmd.toList ++ [BitVec.ofNat 32 l.next, BitVec.ofNat 32 (l.next / 2 ^ 32)] ++
      l.stages.flatMap fun st => BitVec.ofNat 32 st.queue.length :: st.queue.flatMap (padBy 16)))
def Launch.words (l : Launch) (pix : List PixSlot) : List Word := l.record ++ padTo64 (pix.flatMap PixSlot.words)
/-- Records of a stage's queue from word `k` on. -/
def loadStages (w : Nat → Word) : Nat → List Stage → List Stage
  | _, [] => []
  | k, st :: rest =>
    let q := st.queue.zipIdx.map fun e => (List.range e.1.length).map fun j => w (k + 1 + 16 * e.2 + j)
    { st with queue := q } :: loadStages w (k + 1 + 16 * st.queue.length) rest
def Launch.ofWords (l : Launch) (w : Nat → Word) : Launch :=
  { l with cmd := Vector.ofFn fun k => w k.val, next := (w 16).toNat + (w 17).toNat * 2 ^ 32, stages := loadStages w 18 l.stages }
def Launch.pixelsFrom (l : Launch) (w : Nat → Word) (pix : List PixSlot) : List PixSlot :=
  let k := l.record.length
  pix.zipIdx.map fun e => e.1.ofWords fun j => w (k + 8 * e.2 + j)

/-- The 32 registers from FMODE to EXTB, DIVSP and the masks among them. -/
def Group.saveCsrs (g : Group) : List Word :=
  let r := g.regs
  [r.fmode, r.fstat, r.guard, r.trapcfg, r.trapvec, r.trappc, r.trapcause, maskWord g.faultm 0, maskWord g.faultm 1, maskWord g.faultm 2,
    maskWord g.dead 0, maskWord g.dead 1, maskWord g.dead 2, pairLo g.divspNow, pairHi g.divspNow, BitVec.ofNat 32 g.depth,
    r.lc[0], r.lc[1], r.lc[2], r.lstart[0], r.lstart[1], r.lstart[2], r.lend[0], r.lend[1], r.lend[2], r.lactive.setWidth 32,
    r.xactl[0], r.xactl[1], pairLo r.retired, pairHi r.retired, r.shdcnt, if r.extb then 1 else 0]
def Group.saveState (g : Group) : List Word :=
  let ids := g.ordered.map (·.id)
  let parked := g.parked.headD { instr := .nop, slot := 0, ipc := 0, regs := {}, leaf := {}, parts := [] }
  let lanes := parked.parts.foldl (fun m p => m ||| p.lanes) 0
  let st : Nat := match g.status with | .halted => 1 | .parked => 2 | .retired => 3 | .ready | .stopped => 0
  padBy 16 [BitVec.ofNat 32 st, g.haltCode,
    BitVec.ofNat 32 (posOf ids ((g.slot 0).leaf.map (·.id)) + posOf ids ((g.slot 1).leaf.map (·.id)) * 256),
    BitVec.ofNat 32 (g.barPhase.toNat + g.barPending.toNat * 65536), BitVec.ofNat 32 (g.barSlot.toNat + g.turn.val * 65536), parked.ipc,
    maskWord lanes 0, maskWord lanes 1, maskWord lanes 2, BitVec.ofNat 32 g.records.length, BitVec.ofNat 32 g.lostCount,
    BitVec.ofNat 32 g.sealedTo]
def predWord (r : Regs) (L : Lane) : Nat :=
  (List.finRange 7).foldl (fun a k => a + (pBits r.p[k][L]).toNat * 4 ^ k.val) 0
def Group.vregs (g : Group) : Nat := if g.regs.extb then 64 else 32
def Group.words (g : Group) : List Word :=
  let r := g.regs
  let ids := g.ordered.map (·.id)
  padTo64 (padBy 64 r.s.toList ++ g.saveCsrs ++ g.saveState ++ g.ordered.flatMap (Entry.words ids) ++
    packBytes 192 (fun k => BitVec.ofNat 8 (predWord r (Fin.ofNat 96 (k / 2)) / 256 ^ (k % 2))) ++
    packBytes 96 (fun k => BitVec.ofNat 8 (r.dstat[0][Fin.ofNat 96 k].toNat + 16 * r.dstat[1][Fin.ofNat 96 k].toNat)) ++
    g.records.flatMap (·.toList) ++ (List.range g.vregs).flatMap fun k => r.v[Fin.ofNat 64 k].toList)
def wordByte (w : Nat → Word) (base k : Nat) : Nat := wbits (w (base + k / 4)) (8 * (k % 4) + 7) (8 * (k % 4))
/-- The group as its record gives it; what the record has no place for is as it was saved (log 21). -/
def Group.ofWords (g : Group) (w : Nat → Word) : Group :=
  let ids := g.ordered.map (·.id)
  let ents := g.ordered.zipIdx.map fun e => e.1.ofWords ids fun k => w (112 + 12 * e.2 + k)
  let slot0 := wbits (w 98) 7 0
  let slot1 := wbits (w 98) 15 8
  let at_ := fun (k : Nat) => ents[k]?
  let seat := fun (x : Slot) (since : Nat) (k : Nat) => { x with leaf := at_ k, since := since }
  let p0 := 112 + 12 * ents.length
  let d0 := p0 + 48
  let f0 := d0 + 24
  let v0 := f0 + 8 * g.records.length
  let since0 := (g.slot 0).since
  let since1 := (g.slot 1).since
  let r := g.regs
  let pv := fun (k : Nat) (L : Nat) => pOfBits (BitVec.ofNat 2 ((wordByte w p0 (2 * L) + 256 * wordByte w p0 (2 * L + 1)) / 4 ^ k))
  let regs : Regs := { r with
    s := Vector.ofFn fun k => w k.val
    fmode := w 64 &&& 0x1FFF, fstat := w 65 &&& 0xFF, guard := w 66 &&& 0x3F, trapcfg := w 67, trapvec := w 68, trappc := w 69, trapcause := w 70
    lc := #v[w 80, w 81, w 82], lstart := #v[w 83, w 84, w 85], lend := #v[w 86, w 87, w 88], lactive := (w 89).setWidth 3
    xactl := #v[w 90 &&& 0x3FFFFFFF, w 91 &&& 0x3FFFFFFF], retired := joinPair (w 92) (w 93), shdcnt := w 94, extb := (w 95).getLsbD 0, pending := 0
    p := Vector.ofFn fun k => Vector.ofFn fun L => pv k.val L.val
    dstat := Vector.ofFn fun c => Vector.ofFn fun L => BitVec.ofNat 4 (wordByte w d0 L.val / 16 ^ c.val)
    v := Vector.ofFn fun k => if k.val < g.vregs then Vector.ofFn fun L => w (v0 + 96 * k.val + L.val) else r.v[k] }
  let g := ({ g with me := {}, mate := {}, entries := ents.filter fun e => at_ slot0 ≠ some e && at_ slot1 ≠ some e }).select 0
  let status : GStatus := match (w 96).toNat with | 1 => .halted | 2 => .parked | 3 => .retired | _ => .ready
  { g with
    regs := regs, dead := joinMask (w 74) (w 75) (w 76), me := seat g.me since0 slot0, mate := seat g.mate since1 slot1
    status := status, haltCode := w 97, barPhase := (w 99).setWidth 16, barPending := (w 99 >>> 16).setWidth 16
    barSlot := (w 100).setWidth 16, turn := Fin.ofNat 2 (wbits (w 100) 16 16), lostCount := (w 106).toNat, sealedTo := (w 107).toNat
    records := g.records.zipIdx.map fun e => Vector.ofFn fun k => w (f0 + 8 * e.2 + k.val) }

/-- A core is slaved to the span that one of the workgroups leads: the one that claims the leader's core (R324). -/
def State.slavedTo (s : State) (ws : List Workgroup) (c : Core) : Bool :=
  c.master.any fun m => ws.any fun w => w.core = m && (s.core? m).claim = some w.wid
/-- Gang ranks of the followers slaved to the span that a workgroup leads. -/
def followersOf (s : State) (w : Workgroup) : Nat :=
  ((s.cores.filter (s.slavedTo [w])).map fun c => 2 ^ (c.id.val - w.core.val + w.rank)).sum
def Core.forWg (c : Core) (wid : Nat) : Core := if c.claim = some wid then c else { id := c.id }
def Workgroup.header (w : Workgroup) (c : Core) (followers : Nat) : List Word :=
  padBy 384 ([w.stage.val, w.linear.toNat, w.x.toNat, w.y.toNat, w.z.toNat, w.rank, w.gang, w.ngroups, w.cmBytes, w.rotation].map (BitVec.ofNat 32) ++
    ((List.finRange 16).flatMap fun n => [BitVec.ofNat 32 w.barArrived[n], if w.barPhase.getLsbD n.val then 1 else 0]) ++
    ((List.range 64).flatMap fun k => ((c.res.lookup k).getD (Vector.replicate 4 0)).toList) ++
    [BitVec.ofNat 32 c.spanCode, BitVec.ofNat 32 followers, c.heldTiles.setWidth 32])
def heldList (m : BitVec 16) : List Nat := (List.range 16).filter fun t => m.getLsbD t
/-- Start and words of each held reservation, in id order. -/
def Core.resList (c : Core) : List (Nat × Nat) :=
  (List.range 64).filterMap fun k => (c.res.lookup k).map fun r => (wbits r[0] 18 0, (wbits r[1] 19 0 + 3) / 4)
/-- A tile's elements, row by row. -/
def Core.tileWords (c : Core) (t : Nat) : List Word := tilePlaces.map fun p => c.elem (elemAt (t / 4) (t % 4) p.1 p.2)
def putTile (acc : Memory) (t : Nat) (ws : List Word) : Memory :=
  (tilePlaces.zip ws).foldl (fun m e => memSetWord m (4 * elemAt (t / 4) (t % 4) e.1.1 e.1.2) e.2) acc
def Workgroup.words (w : Workgroup) (c : Core) (followers : Nat) (gs : List Group) : List Word :=
  padTo64 (w.header c followers ++ gs.flatMap Group.words ++ memWords w.cm 0 ((w.cmBytes + 3) / 4) ++
    (c.resList.flatMap fun r => memWords c.wb r.1 r.2) ++ (heldList c.heldTiles).flatMap c.tileWords)
def putMemWords (m : Memory) (a : Nat) (ws : List Word) : Memory := memWrite m a (ws.flatMap fun w => leBytes 4 w.toNat)
def wordsFrom (w : Nat → Word) (k n : Nat) : List Word := (List.range n).map fun j => w (k + j)
def Workgroup.ofWords (v : Workgroup) (w : Nat → Word) (cm0 : Nat) : Workgroup :=
  { v with
    stage := Fin.ofNat 16 (w 0).toNat, linear := w 1, x := w 2, y := w 3, z := w 4, rank := (w 5).toNat, gang := (w 6).toNat
    ngroups := (w 7).toNat, rotation := (w 9).toNat
    barArrived := Vector.ofFn fun n => (w (10 + 2 * n.val)).toNat
    barPhase := BitVec.ofNat 16 (((List.range 16).map fun n => (w (11 + 2 * n)).toNat % 2 * 2 ^ n).sum)
    cm := (putMemWords [] 0 (wordsFrom w cm0 ((v.cmBytes + 3) / 4))).filter fun c => c.1 < v.cmBytes }
/-- A core's store and weight buffer as the record gives them, from word `k` on. -/
def Core.ofWords (c : Core) (w : Nat → Word) (k : Nat) : Core :=
  let res := c.res.map fun e => (e.1, (Vector.ofFn fun j : Fin 4 => w (42 + 4 * e.1 + j.val)))
  let wb := c.resList.foldl (fun (a : Memory × Nat) r => (putMemWords a.1 r.1 (wordsFrom w a.2 r.2), a.2 + r.2)) (c.wb, k)
  let acc := (heldList c.heldTiles).foldl (fun (a : Memory × Nat) t => (putTile a.1 t (wordsFrom w a.2 4096), a.2 + 4096)) (c.acc, wb.2)
  { c with res := res, spanCode := (w 298).toNat, heldTiles := (w 300).setWidth 16, wb := wb.1, acc := acc.1 }

/-! ### Saving (R274, R276, R277) -/
/-- `sleep` ends, also in an entry that holds no slot (R117); words that wait are issued again after the restore (R274). -/
def Wait.forSave : Wait → Wait
  | .sleep | .granted => .granted
  | .barred n => .barred n
  | _ => .none
/-- DESIGN CHOICE (log 21): a word that has issued and waits keeps the registers it has read. -/
def Entry.forSave (l : Entry) : Entry := { l with wait := l.wait.forSave, wait2 := l.wait2.forSave }
def Group.forSave (g : Group) : Group :=
  let f := fun (x : Slot) => { x with leaf := x.leaf.map Entry.forSave }
  { g with me := f g.me, mate := f g.mate, entries := g.entries.map Entry.forSave, passed := false, boost := false }
/-- Nothing of the context is still under way. -/
def State.quiet (s : State) (ctx : Nat) : Bool :=
  let ws := (s.ctxWgs ctx).map (·.wid)
  let gs := (s.ctxGroups ctx).map (·.gid)
  (s.ctxWgs ctx).all (·.stopped) && (s.ctxMethods ctx).isEmpty && (s.copies.all fun c => c.ctx ≠ ctx) &&
  (s.cores.all fun c => c.order.all fun o => !ws.contains o.wid) && s.basins.all fun b => !gs.contains b.gid
def headerWords (size used nwg nlaunch : Nat) : List Word :=
  padTo64 [1, 1, BitVec.ofNat 32 size, BitVec.ofNat 32 used, BitVec.ofNat 32 nwg, BitVec.ofNat 32 nlaunch]
/-- The save engine writes the area, and the context gives its cores back. -/
def State.save (s : State) (ctx : Nat) : State :=
  let s := s.mapGroups ((s.ctxGroups ctx).map (·.gid)) Group.forSave
  let ls := s.ctxLaunches ctx
  let ws := s.ctxWgs ctx
  let gs := s.ctxGroups ctx
  let pix := s.pixels.filter fun q => s.lidIn ctx q.lid && (q.state = .opened || q.state = .filled)
  let s := { s with pixels := s.pixels.filter fun q => !s.lidIn ctx q.lid }
  let s := ls.foldl (fun s l => s.flushTiles l fun _ => true) s
  let groupsOf := fun (w : Workgroup) => gs.filter fun g => g.wid = w.wid
  let body := ls.flatMap (fun l => l.words (pix.filter fun q => q.lid = l.lid)) ++
    ws.flatMap fun w => w.words ((s.core? w.core).forWg w.wid) (followersOf s w) (groupsOf w)
  let used := 256 + 4 * body.length
  let size := (s.ctxDesc ctx)[6].toNat
  let cores := s.cores.filter fun c => match c.claim with
    | some i => ws.any (fun w => w.wid = i) || s.slavedTo ws c
    | none => false
  if ls.isEmpty && ws.isEmpty then (s.putSave ctx 1 [0]).updCtx ctx fun c => { c with phase := .saving, saved := false }
  else if used > size then s.killContext ctx
  else
    let s := s.putSave ctx 0 (headerWords size used ws.length ls.length ++ body)
    let s := ws.foldl State.dropWg s
    let s := { s with launches := s.launches.filter fun l => l.ctx ≠ ctx }
    s.updCtx ctx fun c => { c with
      phase := .saving, saved := true, savedLaunches := ls, savedWgs := ws, savedGroups := gs, savedCores := cores, savedPixels := pix }
def execContextSave (ctx : Nat) : State → Out := fun s =>
  match s.ctx? ctx with
  | none => .next s
  | some c =>
    if c.phase = .hard && s.quiet ctx then .next (s.save ctx)
    else if c.phase = .soft && (s.ctxWgs ctx).isEmpty && (s.toHard ctx).quiet ctx then .next ((s.toHard ctx).save ctx)
    else .next s
/-- STATE becomes VALID when anything was saved, and the host is told. -/
def execSaveComplete (ctx : Nat) : State → Out := fun s =>
  match s.ctx? ctx with
  | none => .next s
  | some c =>
    if c.phase = .saving then
      let s := if c.saved then s.putSave ctx 1 [2] else s
      .next ((s.updCtx ctx fun c => { c with phase := .done }).ctxEvent 4 ctx)
    else .next s

/-! ### Restoring (R275, R276, R397) -/
/-- The saved workgroups and launches as the area gives them now. -/
def restoreLaunches (s : State) (ctx : Nat) (pix : List PixSlot) : Nat → List Launch → List Launch × List PixSlot × Nat
  | k, [] => ([], [], k)
  | k, l :: rest =>
    let w := fun j => s.saveWord ctx (k + j)
    let mine := pix.filter fun q => q.lid = l.lid
    let (ls, ps, e) := restoreLaunches s ctx pix (k + (l.words mine).length) rest
    (l.ofWords w :: ls, l.pixelsFrom w mine ++ ps, e)
def restoreGroups (w : Nat → Word) : Nat → List Group → List Group × Nat
  | k, [] => ([], k)
  | k, g :: rest =>
    let (gs, e) := restoreGroups w (k + g.words.length) rest
    (g.ofWords (fun j => w (k + j)) :: gs, e)
def restoreWgs (s : State) (ctx : Nat) (c : Ctx) : Nat → List Workgroup → List (Workgroup × List Group × Core)
  | _, [] => []
  | k, v :: rest =>
    let w := fun j => s.saveWord ctx (k + j)
    let mine := c.savedGroups.filter fun g => g.wid = v.wid
    let core := ((c.savedCores.find? fun x => x.claim = some v.wid).getD { id := v.core })
    let (gs, e) := restoreGroups w 384 mine
    (v.ofWords w e, gs, core.ofWords w (e + (v.cmBytes + 3) / 4)) ::
      restoreWgs s ctx c (k + (v.words core 0 mine).length) rest
/-- A parked group's replay runs again, whatever the host had answered (R274). -/
def Group.readyReplay (g : Group) : Group :=
  if g.status = .parked then
    { g with status := .ready, parked := g.parked.map fun p =>
        { p with parts := p.parts.map fun r => { r with tag := 0, state := if r.state = 0 then 1 else r.state } } }
  else g
/-- Blocks that a unit may still give to groups, none where it admits none. -/
def State.unitFree (s : State) (core : CoreId) (simd : Fin 4) : Nat :=
  if (s.unitRoom false core simd).isEmpty then 0 else s.freeBlocks core simd
/-- `n` groups with EXTB = 1 over units with `fs` free blocks: one to each unit at first, which then needs no block held back. -/
def oneEach : Nat → List Nat → List Nat
  | _, [] => []
  | n, f :: fs => if n > 0 && f ≥ 2 then 1 :: oneEach (n - 1) fs else 0 :: oneEach n fs
/-- The others of them, two blocks each; with every unit's free blocks stands what it has been given. -/
def theRest : Nat → List (Nat × Nat) → List Nat
  | _, [] => []
  | n, (f, x) :: fs =>
    let k := min n (f / 2 - x)
    (x + k) :: theRest (n - k) fs
/-- `n` groups over units with room for so many. -/
def fillUnits : Nat → List Nat → List Nat
  | _, [] => []
  | n, r :: rs => min n r :: fillUnits (n - min n r) rs
/-- The places `ext` go to the groups with EXTB = 1, the places `base` to the others. -/
def dealPlaces : List Group → List (Fin 4 × Fin 16) → List (Fin 4 × Fin 16) → List (Fin 4 × Fin 16)
  | [], _, _ => []
  | g :: gs, ext, base =>
    if g.regs.extb then ext.headD (0, 0) :: dealPlaces gs ext.tail base else base.headD (0, 0) :: dealPlaces gs ext base.tail
/-- Places for the saved groups of an ext-mode stage. The base blocks leave the unit's grow reserve, which the extended blocks that the groups
held may use, as their `vgrow` did (R27, R275). -/
def State.placesExt (s : State) (det : Bool) (gs : List Group) (core : CoreId) : Option (List (Fin 4 × Fin 16)) :=
  let e := (gs.filter fun g => g.regs.extb).length
  let n := gs.length - e
  let all := s.unitOrder.map fun u => (u, s.unitFree core u)
  let us := if det then (all.filter fun x => 2 * e + n ≤ x.2 && (e > 0 || n < x.2)).take 1 else all
  let fs := us.map (·.2)
  let one := oneEach e fs
  let exts := theRest (e - one.sum) (fs.zip one)
  let bases := fillUnits n ((fs.zip exts).map fun x => if x.2 = 0 then x.1 - 1 else x.1 - 2 * x.2)
  if exts.sum ≠ e || bases.sum ≠ n then none
  else
    let at_ := (us.zip (exts.zip bases)).map fun x => (s.unitRoom false core x.1.1, x.2)
    some (dealPlaces gs (at_.flatMap fun x => x.1.take x.2.1) (at_.flatMap fun x => (x.1.drop x.2.1).take x.2.2))
/-- One workgroup is placed as a whole on a core, if there is room: within SMAX (R271), with the grow reserve left (R27), and where it
holds a core's array, on a core that nobody claims (R324); it finds no copy older than its own stores there (R218). `claims`: it holds
an array. -/
def State.placeSaved (s : State) (claims : Nat → Bool) (e : Workgroup × List Group × Core) (core : CoreId) : Option State :=
  let (v, gs, _) := e
  let st := ((s.launch? v.lid).getD {}).stage v.stage.val
  let p := ctxPart (s.ctxDesc ((s.launch? v.lid).getD {}).ctx)
  if !s.ownsCluster p (clusterOf core) || s.cmUsed core + v.cmBytes > Config.coreMemBytes || !s.shareOk v.lid v.stage.val st core ||
    (claims v.wid && (s.core? core).claim.isSome) then none
  else
    match (if stageExt st then s.placesExt (stageDet st) gs core else s.placesOn (stageDet st) false gs.length core) with
    | none => none
    | some places =>
      let one := fun (g : Group × Nat) =>
        let at_ := (places[g.2]?).getD (0, 0)
        ({ g.1.readyReplay with core := core, simd := at_.1, gslot := at_.2, admitted := s.fresh * 256 + v.rank * 16 + g.2
                                reads := g.1.reads.map (LiveRead.again (s.orderNow 0)) } : Group)
      let t := { s with otherWgs := s.otherWgs ++ [{ v with core := core, stopped := false }], others := s.others ++ gs.zipIdx.map one }
      let t := if claims v.wid then t.updCore core fun c => { c with claim := some v.wid } else t
      some (t.dropCopiesOf (t.who ((s.launch? v.lid).getD {}).ctx core 0) 2).endIdle
def State.placeGang (s : State) (claims : Nat → Bool) (base : CoreId) : List (Workgroup × List Group × Core) → Option State
  | [] => some s
  | e :: rest =>
    match s.placeSaved claims e (Fin.ofNat 256 (base.val + e.1.rank)) with
    | some t => t.placeGang claims base rest
    | none => none
/-- Gangs are placed one after another, each at a place the device chooses. -/
def State.placeGangs (s : State) (claims : Nat → Bool) (l : List (Workgroup × List Group × Core)) : List Nat → Option State
  | [] => some s
  | id :: rest =>
    let gang := l.filter fun e => e.1.gangId = id
    let size := (gang.headD ({}, [], { id := 0 })).1.gang
    let at_ := (List.range 256).map fun k => (Fin.ofNat 256 (k + s.free 8 id) : CoreId)
    match (at_.filter fun c => c.val % 8 % size = 0).filterMap fun c => s.placeGang claims c gang with
    | t :: _ => t.placeGangs claims l rest
    | [] => none
/-- Where a saved core's array goes: to its claimant's new core, or, where that has retired, beside its span's leader (R275, R324). -/
def State.newCore (s : State) (c : Ctx) (k : Core) : CoreId :=
  match k.claim.bind s.wg? with
  | some w => w.core
  | none =>
    match k.master.bind fun m => (c.savedCores.find? fun x => x.id = m).bind fun x => (x.claim.bind s.wg?).map fun w => (m, w.core) with
    | some (m, n) => Fin.ofNat 256 (n.val + k.id.val - m.val)
    | none => k.id
def State.newMaster (s : State) (c : Ctx) (k : Core) : Option CoreId :=
  k.master.bind fun m => (c.savedCores.find? fun x => x.id = m).bind fun x => (x.claim.bind s.wg?).map (·.core)
/-- The arrays that a retired member left claimed find their places free. -/
def State.orphansFit (s : State) (c : Ctx) : Bool :=
  c.savedCores.all fun k => (k.claim.bind s.wg?).isSome || (s.core? (s.newCore c k)).claim.isNone
/-- The cores as they stood, on the new cores: claims, reservations, tiles and spans (R275, R340). -/
def State.rebuildCores (s : State) (c : Ctx) (l : List (Workgroup × List Group × Core)) : State :=
  c.savedCores.foldl (fun t k =>
    let k' := ((l.find? fun e => k.claim = some e.1.wid).map (·.2.2)).getD k
    t.updCore (s.newCore c k) fun x => { k' with id := x.id, order := x.order, commit := x.commit, master := s.newMaster c k }) s
/-- The context runs again from its save area; none while there is no room for a workgroup. -/
def State.restore (s : State) (ctx : Nat) (c : Ctx) : Option State :=
  let s := s.devSee (s.who ctx 0 0) (saveBase c.desc) (min (s.saveWord ctx 3).toNat c.desc[6].toNat)
  let (ls, pix, k) := restoreLaunches s ctx c.savedPixels 64 c.savedLaunches
  let l := restoreWgs s ctx c k c.savedWgs
  let t := { s with launches := s.launches ++ ls, pixels := s.pixels ++ pix }
  match t.placeGangs (fun wid => c.savedCores.any fun k => k.claim = some wid) l (c.savedWgs.map (·.gangId)).eraseDups with
  | none => none
  | some t =>
    if !t.orphansFit c then none else
    let t := ls.foldl (fun t la => (pix.filter fun q => q.lid = la.lid).foldl (fun t q =>
      match la.target? q.handle with | some g => t.fillTile la q.handle g (g.tileOf q.x q.y) | none => t) t) (t.rebuildCores c l)
    let t := t.putSave ctx 1 [0]
    some (t.updCtx ctx fun c => { ctx := c.ctx, desc := c.desc, discarded := c.discarded, lostRecords := c.lostRecords, faults := c.faults }).wake

end
end Sys2Proof.Machine
end

