-- ==== Sys2Proof/Machine/Landing.lean ====
section
/-!
DEFINITION. Machine/Landing.lean: collective landing (18 R281-R285). What a landing has to do stands in its entry, in order: it takes a
packet, combines a chunk, sees whether it is complete, signals; a page that is not present makes it wait for the host (R282).
-/
namespace Sys2Proof.Machine
noncomputable section

/-! ### The table's map (R281) -/
def landMode (e : Vector Word 8) : Bool := e[0].getLsbD 1
def landOp (e : Vector Word 8) : Nat := wbits e[0] 3 2
def landFmt (e : Vector Word 8) : Nat := wbits e[0] 5 4
def landDst (e : Vector Word 8) : Nat := e[1].toNat + e[2].toNat * 2 ^ 32
def landSig (e : Vector Word 8) : Nat := e[6].toNat + e[7].toNat * 2 ^ 32
/-- Count word of the chunk at byte offset `off`. -/
def landCount (e : Vector Word 8) (off : Nat) : Nat := landStage e + landRanks e * e[3].toNat + 4 * (off / 32)
/-- The rule of the map that one word must keep. -/
def landWordBad (k : Fin 8) (x : Word) : Bool :=
  match k.val with
  | 0 => wbits x 3 2 = 3 || wbits x 5 4 = 3 || (wbits x 3 2 ≠ 0 && wbits x 5 4 ≠ 1) || wbits x 18 8 < 2 || wbits x 18 8 > 1536
  | 1 | 4 => x.toNat % 256 ≠ 0
  | 3 => x.toNat % 32 ≠ 0 || x.toNat < 32 || x.toNat > 2 ^ 31
  | 6 => x.toNat % 8 ≠ 0
  | _ => false
def landBad (e : Vector Word 8) : Bool := (List.finRange 8).any fun k => landWordBad k e[k]
/-- Word 0 as written over `old`: bit 19 reads 0 (R7); STATUS is the device's, and 0 once the entry is armed. -/
def landWord0 (old x : Word) : Word := (x &&& 0xFFF7FF3F) ||| (if x.getLsbD 0 then (0 : Word) else old &&& 0xC0)
/-- DESIGN CHOICE (log 20): a write that is rejected leaves the entry invalid also where it was armed, and a write of word 0 gives up
what the landing had left to do. -/
def State.writeLanding (s : State) (i : Byte) (e : Vector Word 8) : State :=
  let old := s.landing[i.toNat]!.words
  let new := if landBad e then old.set 0 (old[0] &&& 0xFFFFFFFE) else e.set 0 (landWord0 old[0] e[0])
  { s with landing := s.landing.set! i.toNat { words := new } }
/-- One word of an entry: its own rule holds at every write, every rule once the entry is armed. -/
def State.writeLandingWord (s : State) (i : Byte) (w : Fin 8) (x : Word) : State :=
  let l := s.landing[i.toNat]!
  let e := l.words.set w x
  if w.val = 0 && x.getLsbD 0 then s.writeLanding i e
  else
    let kept := if w.val = 0 then e.set 0 (landWord0 l.words[0] x) else e
    let new := if landWordBad w x then l.words.set 0 (l.words[0] &&& 0xFFFFFFFE) else kept
    { s with landing := s.landing.set! i.toNat (if w.val = 0 then { words := new } else { l with words := new }) }

/-! ### A landing's accesses (R282) -/
/-- A place in memory, a wait for the host, or a fault. -/
inductive LandAcc where
  | at_ (leaf : Dword) (pa : Nat)
  | wait (va : Nat) (second : Bool)
  | fault
  deriving DecidableEq, Repr
/-- Every access is checked as a store in AS, its tag included. DEDUCED (log 20): DST, STAGE and SIG are pointers, whose bits 59:56 are that
tag. -/
def State.landAcc (s : State) (who : Option Who) (va n : Nat) : LandAcc :=
  match who with
  | none => .fault
  | some w =>
    match s.access w.home (BitVec.ofNat 64 va) n { write := true } with
    | .ok leaf pa _ => .at_ leaf pa
    | .park second => .wait va second
    | _ => .fault
def LandAcc.waits : LandAcc → Option (Nat × Bool)
  | .wait va second => some (va, second)
  | _ => none
/-- The L2 copies of the sector that holds a place: they are written back and dropped before the base die acts on it (R280). -/
def lineOver (pa : Nat) (l : Line) : Bool := l.pa = pa / 128 * 128 && !leafRem l.leaf
/-- The base die stores bytes inside one sector. -/
def State.landPut (s : State) (who : Who) (leaf : Dword) (pa : Nat) (bs : List Byte) : State :=
  (s.evict (lineOver pa)).writeSector who.part leaf (pa / 128 * 128)
    ((List.range bs.length).zipWith (fun k b => (pa % 128 + k, b)) bs)
/-- The array as the base die reads it there, once dirty bytes have reached it and its ECC is checked (R290). -/
def State.landSee (s : State) (pa : Nat) : State := (s.evict (lineOver pa)).arrayRead pa
def State.landGet (s : State) (leaf : Dword) (pa n : Nat) : List Byte := (List.range n).map fun k => (s.landSee pa).dramByte leaf (pa + k)

/-! ### Combining (R283, R284) -/
def landBasin (e : Vector Word 8) : BasinOp :=
  match landOp e, landFmt e with
  | 1, _ => .maxF32
  | 2, _ => .minF32
  | _, 0 => .addS32
  | _, 1 => .addF32
  | _, _ => .addBf16
/-- R284: the fixed tree, on values widened to FP32 for bf16. `n`: rounds left. -/
def treeRound (op : Word → Word → Word) (s : Nat) (v : List Word) : List Word :=
  v.zipIdx.map fun e => if e.2 % (2 * s) = 0 then (match v[e.2 + s]? with | some y => op e.1 y | none => e.1) else e.1
def treeCombine (op : Word → Word → Word) : Nat → Nat → List Word → Word
  | 0, _, v => v.headD 0
  | n + 1, s, v => if s < v.length then treeCombine op n (2 * s) (treeRound op s v) else v.headD 0
def addF32 (x y : Word) : Word := BasinOp.addF32.combine x y
/-- An FP32 value rounded once to BF16. -/
def toBf16 (x : Word) : Nat := (finish bf16 .rne false (fp32.val x.toNat).exact).bits
def landWord (e : Vector Word 8) (v : List Word) : Word :=
  match landOp e, landFmt e with
  | 0, 2 =>
    let half := fun (sh : Nat) => toBf16 (treeCombine addF32 11 1 (v.map fun x : Word => (x >>> sh).setWidth 16 ++ (0 : BitVec 16)))
    BitVec.ofNat 32 (half 0 + 65536 * half 16)
  | _, _ => treeCombine (landBasin e).combine 11 1 v
/-- R283: each word is combined into the destination, as a Basin operation is. -/
def State.landArrival (s : State) (e : Vector Word 8) (who : Who) (leaf : Dword) (pa : Nat) (data : List Byte) : State :=
  (List.range 8).foldl (fun s k => s.combineAt who.part leaf (pa + 4 * k) (landBasin e) (BitVec.ofNat 32 (leNat ((data.drop (4 * k)).take 4))))
    (s.evict (lineOver pa))
/-- R284: the contributions of a chunk, combined; a poisoned one poisons the result. -/
def State.landRanked (s : State) (e : Vector Word 8) (who : Who) (leaf : Dword) (pa : Nat) (src : List (Dword × Nat)) : State :=
  let s := src.foldl (fun s a => s.landSee a.2) s
  let rows := src.map fun a => s.landGet a.1 a.2 32
  let out := (List.range 8).flatMap fun k =>
    leBytes 4 (landWord e (rows.map fun b => BitVec.ofNat 32 (leNat ((b.drop (4 * k)).take 4)))).toNat
  let t := s.landPut who leaf pa out
  if src.any fun a => s.poisoned a.2 then t.setPoison (pa / 32) true else t
/-- R282: the result of a chunk that had a contribution twice is undefined (log 6). -/
def State.landSpoil (s : State) (who : Who) (leaf : Dword) (pa off : Nat) : State :=
  s.landPut who leaf pa ((List.range 32).map fun k => Config.byte (s.fresh * 2 ^ 60 + off + k))

/-! ### The work of an entry, in order -/
/-- How a piece of work ends: done, with what follows it; on a page that is not present; on a fault. -/
inductive LandEnd where
  | done (s : State) (then_ : List LandDo)
  | wait (va : Nat) (second : Bool)
  | fault
/-- DESIGN CHOICE (log 20): LANDERR of the stack that holds the packet's place in DST, of stack 0 where it has none. -/
def State.landError (s : State) (who : Option Who) (va : Nat) : State :=
  let k : Fin 8 := match s.landAcc who va 32 with | .at_ _ pa => stackOfPa pa | _ => 0
  s.countStack k 6 1
/-- R282: the entry takes the packet. -/
def landTakes (e : Vector Word 8) (rank off : Nat) : Bool := e[0].getLsbD 0 && rank < landRanks e && off + 32 ≤ e[3].toNat
def State.updLanding (s : State) (i : Byte) (f : Landing → Landing) : State :=
  { s with landing := s.landing.set! i.toNat (f s.landing[i.toNat]!) }
/-- The places one packet touches: destination, or staging in RANKED mode; the count. -/
def State.landPlaces (s : State) (e : Vector Word 8) (who : Option Who) (rank off : Nat) : LandAcc × LandAcc :=
  (if landMode e then s.landAcc who (landStage e + rank * e[3].toNat + off) 32 else s.landAcc who (landDst e + off) 32,
    s.landAcc who (landCount e off) 4)
/-- R283, R284: a packet is combined or staged, and its chunk's count rises. -/
def State.landPacket (s : State) (i : Byte) (rank off : Nat) (data : List Byte) : LandEnd :=
  let l := s.landing[i.toNat]!
  let e := l.words
  let who := s.landWho? e
  if !landTakes e rank off then .done (s.landError who (landDst e + off)) []
  else
    match who, s.landPlaces e who rank off with
    | some w, (.at_ ld pd, .at_ lc pc) =>
      let s := s.landSee pc
      let n := leNat (s.landGet lc pc 4) + 1
      let twice := l.seen.contains (rank, off) || l.spoilt.contains off
      let t := if landMode e then s.landPut w ld pd data else s.landArrival e w ld pd data
      let t := if twice && !landMode e then t.landSpoil w ld pd off else t
      let t := t.landPut w lc pc (leBytes 4 (n % 2 ^ 32))
      let t := t.updLanding i fun l => { l with seen := (rank, off) :: l.seen, spoilt := if twice then off :: l.spoilt else l.spoilt }
      .done t (if landMode e && (n = landRanks e || (twice && n > landRanks e)) then [.combine off, .finish] else [.finish])
    | _, (.wait va second, _) | _, (.at_ _ _, .wait va second) => .wait va second
    | _, _ => .fault
/-- R284: the contributions of a chunk are combined and written to DST. -/
def State.landCombine (s : State) (i : Byte) (off : Nat) : LandEnd :=
  let l := s.landing[i.toNat]!
  let e := l.words
  let who := s.landWho? e
  let dst := s.landAcc who (landDst e + off) 32
  let src := (List.range (landRanks e)).map fun r => s.landAcc who (landStage e + r * e[3].toNat + off) 32
  let places := src.filterMap fun a => match a with | .at_ leaf pa => some (leaf, pa) | _ => none
  if (dst :: src).contains .fault then .fault
  else match (dst :: src).findSome? LandAcc.waits, who, dst with
    | none, some w, .at_ leaf pa => .done (if l.spoilt.contains off then s.landSpoil w leaf pa off else s.landRanked e w leaf pa places) []
    | some (va, second), _, _ => .wait va second
    | _, _, _ => .fault
/-- R285: every chunk count that can be read has reached NRANKS; then those that cannot are waited for. -/
def State.landFinish (s : State) (i : Byte) : LandEnd :=
  let e := s.landing[i.toNat]!.words
  let who := s.landWho? e
  let counts := (List.range (e[3].toNat / 32)).map fun k => s.landAcc who (landCount e (32 * k)) 4
  let s := counts.foldl (fun s a => match a with | .at_ _ pa => s.landSee pa | _ => s) s
  if counts.any fun a => match a with | .at_ leaf pa => leNat (s.landGet leaf pa 4) < landRanks e | _ => false then .done s []
  else if counts.contains .fault then .fault
  else match counts.findSome? LandAcc.waits with
    | some (va, second) => .wait va second
    | none => .done s [.signal false]
/-- STATUS and VALID at the end of a landing. -/
def landEnded (faulted : Bool) (l : Landing) : Landing :=
  { l with words := l.words.set 0 ((l.words[0] &&& ~~~(0xC1 : Word)) ||| (if faulted then 0x80 else 0x40)) }
/-- R285: the signal, and with it the end of a landing that has not faulted. A poisoned signal word stays poisoned. -/
def State.landSignal (s : State) (i : Byte) (faulted : Bool) : LandEnd :=
  let e := s.landing[i.toNat]!.words
  let who := s.landWho? e
  match who, s.landAcc who (landSig e) 8 with
  | some w, .at_ leaf pa =>
    let s := s.landSee pa
    let t := if s.poisoned pa then s
      else s.landPut w leaf pa (leBytes 8 ((leNat (s.landGet leaf pa 8) + (if faulted then 0x100000001 else 1)) % 2 ^ 64))
    .done (if faulted then t else t.updLanding i (landEnded false)) []
  | _, .wait va second => .wait va second
  | _, _ => .fault
def State.landDo (s : State) (i : Byte) : LandDo → LandEnd
  | .packet rank off data => s.landPacket i rank off data
  | .combine off => s.landCombine i off
  | .finish => s.landFinish i
  | .signal faulted => s.landSignal i faulted
/-- STATUS becomes faulted, and the signal of R285 follows; where it is the signal that faults, none. -/
def landFault (j : LandJob) (l : Landing) : Landing :=
  let next := match j.what with | .signal _ => [] | _ => [{ what := .signal true }]
  { landEnded true l with jobs := next ++ l.jobs.filter fun k => match k.what with | .packet _ _ _ => true | _ => false }
/-- A page fault of the landing: it parks no group (R311). DESIGN CHOICE (log 20): CODE says an engine's access, a write; PLACE and
IPC are 0. -/
def State.landEvent (s : State) (e : Vector Word 8) (va : Nat) (second : Bool) : State × Word :=
  let tag := s.host.nextTag
  let w := (s.landWho? e).getD {}
  (({ s with host := { s.host with nextTag := tag + 1 } }).postEvent
    { kind := 1, part := w.part, ctx := BitVec.ofNat 32 w.ctx, va := BitVec.ofNat 64 va, code := if second then 13 else 9, rtag := tag }, tag)
/-- The entry's work goes on until it waits or is done. `n`: pieces of work to look at. -/
def State.landRun (i : Byte) : Nat → State → State
  | 0, s => s
  | n + 1, s =>
    match s.landing[i.toNat]!.jobs with
    | [] => s
    | j :: rest =>
      if j.tag.isSome then s
      else
        let t := s.updLanding i fun l => { l with jobs := rest }
        match (if j.fatal then LandEnd.fault else t.landDo i j.what) with
        | .done u next => State.landRun i n (u.updLanding i fun l => { l with jobs := next.map ({ what := · }) ++ l.jobs }).wake
        | .wait va second =>
          let (u, tag) := t.landEvent s.landing[i.toNat]!.words va second
          u.updLanding i fun l => { l with jobs := { j with tag := some tag } :: rest }
        | .fault => State.landRun i n (t.updLanding i (landFault j)).wake
/-- A packet gives rise to four pieces of work at most: itself, its chunk, the check and the signal; a fault to one more. -/
def State.landGo (s : State) (i : Byte) : State := s.landRun i (5 * s.landing[i.toNat]!.jobs.length + 5)
def execLandingPacket (i : Byte) (rank off : Nat) (data : List Byte) : State → Out := fun s =>
  .next ((s.endIdle.updLanding i fun l => { l with jobs := l.jobs ++ [{ what := .packet rank off data }] }).landGo i)
/-- The host answers a landing's page fault: the landing goes on, or faults. -/
def LandJob.answer (tag : Word) (bad : Bool) (j : LandJob) : LandJob := if j.tag = some tag then { j with tag := none, fatal := bad } else j
def State.landAnswer (s : State) (tag : Word) (bad : Bool) (i : Byte) : State :=
  if s.landing[i.toNat]!.jobs.any fun j => j.tag = some tag then
    (s.updLanding i fun l => { l with jobs := l.jobs.map (LandJob.answer tag bad) }).landGo i
  else s
def State.landWaits (s : State) (tag : Word) : Bool := s.landing.toList.any fun l => l.jobs.any fun j => j.tag = some tag

end
end Sys2Proof.Machine
end

