-- ==== Sys2Proof/Machine/Host.lean ====
section
/-!
DEFINITION. Machine/Host.lean: what the host does: commands, doorbells, the event ring, registers, partition entries, host memory
accesses (13 R198, 17 R273-R278, R397, 19 R291-R298, 20 R306-R313, R398).
-/
namespace Sys2Proof.Machine
noncomputable section

/-! ### Commands (R308) -/
/-- OP while a command runs, and with its result. -/
def opBusy (code : Nat) : Word := BitVec.ofNat 32 (code + 2 ^ 31)
def opDone (code result : Nat) : Word := BitVec.ofNat 32 (code + result * 65536)
/-- A command that ends at once: the host writes its arguments and OP; while BUSY = 1 the write is ignored. `f`: 0 done, 1 bad
argument, 2 refused, and the state after it. -/
def State.command (s : State) (code : Nat) (args : Vector Word 3) (f : State → Nat × State) : State :=
  let s := s.endIdle
  if s.host.busy.isSome then s
  else
    let (r, t) := f { s with host := { s.host with arg := args } }
    { t with host := { t.host with op := opDone code r } }
/-- A command that stays BUSY until its work is done (see `execCommandCompletion`), unless it is turned away at once. -/
def State.longCommand (s : State) (code : Nat) (args : Vector Word 3) (i : Instr) (f : State → Nat × State) : State :=
  let s := s.endIdle
  if s.host.busy.isSome then s
  else
    let (r, t) := f { s with host := { s.host with arg := args } }
    if r ≠ 0 then { t with host := { t.host with op := opDone code r } }
    else { t with host := { t.host with op := opBusy code, busy := some i } }
def argOf (n : Nat) : Word := BitVec.ofNat 32 n
def addrArgs (x a : Nat) : Vector Word 3 := #v[argOf x, argOf a, argOf (a / 2 ^ 32)]

/-! ### Contexts and queues (R309, R310) -/
/-- An aligned place in a channel below its carve-out. -/
def devAddr (a n : Nat) : Bool := a % n = 0 && a < 2 ^ 39 && offsetOfPa a < Config.carveOut
def descBad (d : Vector Word 16) : Bool :=
  wbits d[2] 31 16 ≠ 0 || wbits d[3] 31 24 ≠ 0 || wbits d[10] 31 16 ≠ 0 || wbits d[11] 31 2 ≠ 0 || d[12] ≠ 0 || d[13] ≠ 0 || d[14] ≠ 0 ||
  d[15] ≠ 0 || (!d[11].getLsbD 0 && wbits d[7] 15 0 ≠ 0) || (if d[11].getLsbD 1 then wbits d[7] 31 16 = 0 else wbits d[7] 31 16 ≠ 0)
def State.hostWord (s : State) (a k : Nat) : Word := s.plainWord (a + 4 * k)
def State.bindCtx (s : State) (ctx : Nat) (d : Vector Word 16) : State :=
  if (s.ctx? ctx).isSome then s.updCtx ctx fun c => { c with desc := d } else { s with ctxs := { ctx := ctx, desc := d } :: s.ctxs }
def execCtxbind (ctx addr : Nat) : State → Out := fun s =>
  .next (s.command 1 (addrArgs ctx addr) fun s =>
    if ctx > 65535 || !devAddr addr 64 then (1, s)
    else
      let s := s.arrayReads addr 64
      let d : Vector Word 16 := Vector.ofFn fun k => s.hostWord addr k.val
      if descBad d || !s.enabled (ctxPart d) then (2, s) else (0, s.bindCtx ctx d))
def execCtxfree (ctx : Nat) : State → Out := fun s =>
  .next (s.command 2 (addrArgs ctx 0) fun s =>
    match s.ctx? ctx with
    | none => (1, s)
    | some c =>
      if !(s.ctxLaunches ctx).isEmpty || (c.phase ≠ .done && !c.discarded.isEmpty) || c.phase = .saving then (2, s)
      else (0, { s with
        ctxs := s.ctxs.filter fun x => x.ctx ≠ ctx
        queues := s.queues.map fun q : Queue => if q.ctx = ctx then { q with closed := true } else q }))
def queueBad (s : State) (a : Nat) : Bool :=
  let w := s.hostWord a
  let ring := (joinPair (w 0) (w 1)).toNat
  let wb := (joinPair (w 3) (w 4)).toNat
  !devAddr ring 64 || !devAddr wb 16 || wbits (w 2) 4 0 < 4 || wbits (w 2) 4 0 > 16 || wbits (w 2) 15 5 ≠ 0 || w 6 ≠ 0 || w 7 ≠ 0 ||
  (s.ctx? (wbits (w 2) 31 16)).isNone
/-- No queue: where a launch's queue is bound anew before it completes. -/
def noQueue : Nat := 65536
def State.bindQueue (s : State) (q a : Nat) : State :=
  let w := s.hostWord a
  let x : Queue := { q := q, ring := (joinPair (w 0) (w 1)).toNat, log2n := wbits (w 2) 4 0, ctx := wbits (w 2) 31 16
                     wb := (joinPair (w 3) (w 4)).toNat, firstSeq := w 5 }
  let loose := fun (l : Launch) => if l.queue = q then { l with queue := noQueue } else l
  let s := { s with queues := x :: s.queues.filter fun y => y.q ≠ q, launches := s.launches.map loose }
  let s := { s with ctxs := s.ctxs.map fun c : Ctx => { c with savedLaunches := c.savedLaunches.map loose } }
  (s.updCtx x.ctx fun c => if c.phase = .killed then { c with phase := .run } else c).writeRecordOf q
def execQbind (q addr : Nat) : State → Out := fun s =>
  .next (s.command 3 (addrArgs q addr) fun s =>
    if q > 4095 || !devAddr addr 32 then (1, s)
    else
      let s := s.arrayReads addr 32
      if queueBad s addr then (2, s) else (0, s.bindQueue q addr))
/-- A count of commands written (R310): one that moves backwards, or more than the ring ahead of those started, is a QERR. -/
def State.ring (s : State) (q : Nat) (n : Word) : State :=
  match s.queue? q with
  | none => s
  | some x =>
    let base := BitVec.ofNat 32 x.started
    if (n - base).toNat < (x.count - base).toNat || (n - base).toNat > 2 ^ x.log2n then
      s.postEvent { kind := 7, part := ctxPart (s.ctxDesc x.ctx), ctx := 0xFFFF, code := BitVec.ofNat 32 q }
    else (s.updQueue q fun x => { x with count := n }).wake
def execDoorbell (q : Nat) (n : Word) : State → Out := fun s => .next (s.endIdle.ring q n)

/-! ### Pre-emption (R273, R397) -/
def execPreempt (ctx : Nat) : State → Out := fun s =>
  .next (s.command 4 (addrArgs ctx 0) fun s =>
    match s.ctx? ctx with
    | none => (1, s)
    | some c =>
      if c.phase ≠ .run then (0, s)
      else
        let t := s.updCtx ctx fun c => { c with phase := .soft }
        (0, if c.desc[11].getLsbD 0 && wbits c.desc[7] 15 0 = 0 then t.toHard ctx else t))
def execCancel (ctx : Nat) : State → Out := fun s =>
  .next (s.command 5 (addrArgs ctx 0) fun s =>
    match s.ctx? ctx with
    | none => (1, s)
    | some c =>
      if c.phase ≠ .soft then (0, s)
      else
        let t := s.mapGroups ((s.ctxGroups ctx).map (·.gid)) fun g => if g.status = .stopped then { g with status := .ready } else g
        (0, (t.updCtx ctx fun c => { c with phase := .run }).wake))
def execRestore (ctx : Nat) : State → Out := fun s =>
  .next (s.longCommand 6 (addrArgs ctx 0) (.restore ctx) fun s =>
    match s.ctx? ctx with
    | none => (1, s)
    | some c => (if c.phase ≠ .done || wbits (s.saveWord ctx 1) 1 0 = 1 || wbits (s.saveWord ctx 1) 1 0 = 3 then 2 else 0, s))
/-- The restore itself: none while no core has room for a workgroup. From an EMPTY area nothing of the context is left (R397). -/
def State.restoreNow (s : State) (ctx : Nat) : Option State :=
  match s.ctx? ctx with
  | none => some s
  | some c =>
    if wbits (s.saveWord ctx 1) 1 0 = 2 then s.restore ctx c
    else some (s.updCtx ctx fun c => { ctx := c.ctx, desc := c.desc, lostRecords := c.lostRecords, faults := c.faults }).wake

/-! ### Invalidation (R198) -/
def execInvpage (part : Fin 16) (asid : BitVec 12) (va : Nat) : State → Out := fun s =>
  .next (s.longCommand 7 (addrArgs (part.val + asid.toNat * 65536) va) (.invpage part asid va) fun s => (if va ≥ 2 ^ 52 then 1 else 0, s))
def execInvas (part : Fin 16) (asid : BitVec 12) : State → Out := fun s =>
  .next (s.longCommand 8 (addrArgs (part.val + asid.toNat * 65536) 0) (.invas part asid) fun s => (0, s))
def execInvpart (part : Fin 16) : State → Out := fun s =>
  .next (s.longCommand 9 (addrArgs part.val 0) (.invpart part) fun s => (0, s))
/-- Dirty sectors of the pages reach their old frames, every copy is dropped, and no translation of them is held. -/
def State.invalidate (s : State) (line : Line → Bool) (entry : Tlb → Bool) : State :=
  let t := s.purge line
  { t with tlb := t.tlb.filter fun e => !entry e }

/-! ### Page faults answered (R82, R232, R308, R347) -/
def Parked.answer (tag : Word) (st : Nat) (p : Parked) : Parked :=
  { p with parts := p.parts.map fun r => if r.tag = tag && r.state = 0 then { r with state := st } else r }
def Group.answer (tag : Word) (st : Nat) (g : Group) : Group := { g with parked := g.parked.map (Parked.answer tag st) }
def Group.waitsOn (tag : Word) (g : Group) : Bool := g.status = .parked && g.parked.any fun p => p.parts.any fun r => r.tag = tag && r.state = 0
def MOp.answer (tag : Word) (bad : Bool) (o : MOp) : MOp := if o.tag = some tag then { o with tag := none, fatal := bad } else o
def Copy.answer (tag : Word) (bad : Bool) (c : Copy) : Copy := if c.tag = some tag then { c with tag := none, fatal := bad } else c
def State.answer (s : State) (tag : Word) (bad : Bool) : Nat × State :=
  let hit := s.allGroups.any (Group.waitsOn tag) || s.copies.any (fun c => c.tag = some tag) || s.landWaits tag ||
    s.cores.any fun c => c.order.any fun o => o.tag = some tag
  if !hit then (1, s)
  else
    let f := Group.answer tag (if bad then 2 else 1)
    let t := { s with
      g := f s.g, others := s.others.map f, copies := s.copies.map (Copy.answer tag bad)
      cores := s.cores.map fun c : Core => { c with order := c.order.map (MOp.answer tag bad) } }.wake
    (0, (List.range 256).foldl (fun t i => t.landAnswer tag bad (BitVec.ofNat 8 i)) t)
/-- BUSY until the replay, or the engine's retry or failure, has started: a group's starts with its own step, an engine's with the
answer. DEDUCED (log 21): while other pages of the word wait for answers of their own, the command is done once it is accepted, since
no other command could run. -/
def State.answering (s : State) (tag : Word) : Bool :=
  s.allGroups.any fun g => g.status = .parked && (g.parked.any fun p => p.parts.any fun r => r.tag = tag) &&
    g.parked.all fun p => p.parts.all fun r => r.state ≠ 0
def execResolve (tag : Word) : State → Out := fun s => .next (s.longCommand 10 #v[tag, 0, 0] (.resolve tag) fun s => s.answer tag false)
def execFatal (tag : Word) : State → Out := fun s => .next (s.longCommand 11 #v[tag, 0, 0] (.fatal tag) fun s => s.answer tag true)

/-! ### Halted groups (R308) -/
def State.atPlace (s : State) (ctx : Nat) (place : Word) : Option Group :=
  s.allGroups.find? fun g => g.gid ≠ 0 && placeOf g ctx = place && g.status ≠ .retired &&
    match g.method with | some m => s.lidIn ctx m.lid | none => s.ctxOfGroup g = some ctx
def execResume (ctx : Nat) (place : Word) : State → Out := fun s =>
  .next (s.command 12 #v[argOf ctx, place, 0] fun s =>
    match s.atPlace ctx place with
    | none => (1, s)
    | some g =>
      if g.status ≠ .halted || g.poisonHalt ≠ 0 then (2, s)
      else (0, ((s.spillIn g.gid).updGroup g.gid fun g => { g with status := .ready }).wake))
/-- Every lane is dead, and the group retires with DEADGROUP. -/
def State.endGroup (s : State) (gid : Nat) (k : Fin 2) : State :=
  let t := (s.focus gid k).updGroup gid fun g => { g with status := .ready, poisonHalt := 0 }
  { t with latch := {} }.kill allLanes
def execHostEnd (ctx : Nat) (place : Word) : State → Out := fun s =>
  .next (s.command 13 #v[argOf ctx, place, 0] fun s =>
    match s.atPlace ctx place with
    | none => (1, s)
    | some g => if g.status ≠ .halted then (2, s) else (0, s.endGroup g.gid g.sel))

/-! ### A lost host; function-level reset (R278, R313) -/
def execHostup : State → Out := fun s =>
  .next (s.command 14 #v[0, 0, 0] fun s => (0, { s with host := { s.host with linkDown := false } }.wake))
def execHostLinkDown : State → Out := fun s => .next { s with host := { s.host with linkDown := true } }
/-- The restore that is under way when its function is reset: nothing has been placed, the save area stays as it was, and the context is
reset (R278). -/
def State.abandonRestore (s : State) (p : Fin 16) : State :=
  match s.host.busy with
  | some (.restore ctx) => if ctxPart (s.ctxDesc ctx) = p then { s.resetContext ctx with host := { s.host with busy := none } } else s
  | _ => s
/-- DEDUCED (log 21): a function's reset is taken while a RESTORE of one of its contexts is BUSY, since R278 says what it does there. -/
def execFlr (fn : Fin 16) : State → Out := fun s =>
  .next ((s.abandonRestore fn).longCommand 15 (addrArgs fn.val 0) (.flr fn) fun s => (0, s))
/-- A save under way is abandoned; every context of the partition dies. -/
def State.resetFunction (s : State) (p : Fin 16) : State :=
  ((s.ctxs.filter fun c => ctxPart c.desc = p && c.phase ≠ .killed).map (·.ctx)).foldl State.killContext s
def State.finishCommand (s : State) : State :=
  { s with host := { s.host with op := s.host.op &&& 0x7FFFFFFF, busy := none } }.wake
/-- The command that is BUSY completes. -/
def execCommandCompletion : State → Out := fun s =>
  match s.host.busy with
  | some (.restore ctx) => .next (match s.restoreNow ctx with | some t => t.finishCommand | none => s)
  | some (.invpage p a va) =>
    .next (s.invalidate (fun l => l.part = p && l.asid = a && l.sector / 512 = va / 65536)
      fun e => e.part = p && e.asid = a && e.page = va / 65536).finishCommand
  | some (.invas p a) => .next (s.invalidate (fun l => l.part = p && l.asid = a) fun e => e.part = p && e.asid = a).finishCommand
  | some (.invpart p) => .next (s.invalidate (fun l => l.part = p) fun e => e.part = p).finishCommand
  | some (.flr p) => .next (s.resetFunction p).finishCommand
  | some (.resolve tag) | some (.fatal tag) => .next (if s.answering tag then s else s.finishCommand)
  | some _ => .next s.finishCommand
  | none => .next s

/-! ### The event ring (R307, R311) -/
/-- Page faults that were held are posted while there is room. -/
def State.postHeld : Nat → State → State
  | 0, s => s
  | n + 1, s =>
    match s.host.held with
    | [] => s
    | e :: es => if s.ringFull then s else State.postHeld n ({ s with host := { s.host with held := es } }.writeEvent e)
def State.ackEvents (s : State) (n : Word) : State :=
  let t := { s with host := { s.host with evack := n } }
  t.postHeld t.host.held.length
def execEvack (n : Word) : State → Out := fun s => .next (s.endIdle.ackEvents n)
/-- EVBASELO, EVBASEHI, EVLOG2: taken only while EVHEAD = EVACK, and then the ring is set anew. DESIGN CHOICE (log 20): a base that is
not aligned, or a size out of range, is not taken. -/
def State.setRing (s : State) (which : Fin 3) (x : Word) : State :=
  let h := s.host
  let x := match which.val with | 0 => x | 1 => x &&& 0x7F | _ => x &&& 0x1F
  let bad := match which.val with | 0 => wbits x 5 0 ≠ 0 | 1 => false | _ => x.toNat < 8 || x.toNat > 16
  if h.evhead ≠ h.evack || bad then s
  else
    let h := { h with evhead := 0, evack := 0 }
    { s with host := match which.val with
      | 0 => { h with evbase := h.evbase / 2 ^ 32 * 2 ^ 32 + x.toNat }
      | 1 => { h with evbase := h.evbase % 2 ^ 32 + x.toNat * 2 ^ 32 }
      | _ => { h with evlog2 := x.toNat } }
def execEventRingConfig (which : Fin 3) (x : Word) : State → Out := fun s => .next (s.endIdle.setRing which x)

/-! ### Counters (R290, R291, R303, R307, R315) -/
/-- The register block of a BAR0 offset. -/
inductive Bar0 where
  | devid | bootst | ltr | idle | op | arg (k : Fin 3) | ring (which : Fin 3) | evhead | evack | evlost
  | doorbell (q : Nat)
  | part (p : Fin 16) (w : Fin 32)
  | landing (i : Byte) (w : Fin 8)
  | stack (k : Fin 8) (w : Fin 8)
  | handoff (die : Fin 2) (w : Fin 16)
  | spare (u : Fin 1024)
  | margin (w : Fin 3)
  | route (d : Nat)
  | port (p : Fin 24) (w : Fin 4)
  | other
  deriving DecidableEq, Repr
def bar0 (off : Nat) : Bar0 :=
  if off % 4 ≠ 0 then .other
  else if off = 0 then .devid
  else if off = 4 then .bootst
  else if off = 8 then .ltr
  else if off = 12 then .idle
  else if off = 0x1000 then .op
  else if 0x1004 ≤ off && off ≤ 0x100C then .arg (Fin.ofNat 3 ((off - 0x1004) / 4))
  else if 0x1010 ≤ off && off ≤ 0x1018 then .ring (Fin.ofNat 3 ((off - 0x1010) / 4))
  else if off = 0x101C then .evhead
  else if off = 0x1020 then .evack
  else if off = 0x1024 then .evlost
  else if 0x10000 ≤ off && off < 0x18000 && off % 8 = 0 then .doorbell ((off - 0x10000) / 8)
  else if 0x20000 ≤ off && off < 0x20800 then .part (Fin.ofNat 16 ((off - 0x20000) / 128)) (Fin.ofNat 32 (off / 4))
  else if 0x21000 ≤ off && off < 0x23000 then .landing (BitVec.ofNat 8 ((off - 0x21000) / 32)) (Fin.ofNat 8 (off / 4))
  else if 0x30000 ≤ off && off < 0x30100 then .stack (Fin.ofNat 8 ((off - 0x30000) / 32)) (Fin.ofNat 8 (off / 4))
  else if 0x31000 ≤ off && off < 0x31080 then .handoff (Fin.ofNat 2 ((off - 0x31000) / 64)) (Fin.ofNat 16 (off / 4))
  else if 0x32000 ≤ off && off < 0x33000 then .spare (Fin.ofNat 1024 ((off - 0x32000) / 4))
  else if 0x33000 ≤ off && off < 0x3300C then .margin (Fin.ofNat 3 ((off - 0x33000) / 4))
  else if 0x40000 ≤ off && off < 0x41800 then .route ((off - 0x40000) / 4)
  else if 0x42000 ≤ off && off < 0x42180 then .port (Fin.ofNat 24 ((off - 0x42000) / 16)) (Fin.ofNat 4 (off / 4))
  else .other
/-- What a BAR0 register holds for a host's read; offsets not listed read 0. DESIGN CHOICE (log 20): a doorbell reads the count that its queue
holds. -/
def State.barWord (s : State) (off : Nat) : Word :=
  let h := s.host
  match bar0 off with
  | .devid => h.devid
  | .bootst => h.bootst
  | .ltr => h.ltr
  | .idle => h.idle
  | .op => h.op
  | .arg k => h.arg[k]
  | .ring k => match k.val with | 0 => BitVec.ofNat 32 h.evbase | 1 => BitVec.ofNat 32 (h.evbase / 2 ^ 32) | _ => BitVec.ofNat 32 h.evlog2
  | .evhead => h.evhead
  | .evack => h.evack
  | .evlost => h.evlost
  | .doorbell q => ((s.queue? q).map (·.count)).getD 0
  | .part p w => s.partWord p w
  | .landing i w => s.landing[i.toNat]!.words[w]
  | .stack k w => if h : w.val < 7 then s.dramStack[k].words[w.val] else if s.dramStack[k].up then 1 else 0
  | .handoff d w => if h : w.val < 14 then s.handoff[d][w.val] else 0
  | .spare u => let x := s.spare u.val; BitVec.ofNat 32 (x.state + x.def0 * 4 + x.def1 * 256)
  | .margin w => match w.val with | 0 => s.smargin | 1 => s.aclk | _ => s.service
  | .route d => (s.routes.lookup d).getD 0
  | .port p w => s.ports[p].words[w]
  | .other => 0
/-- Boot is complete; until then only BOOTST and CXL.io configuration respond (R316). -/
def State.booted (s : State) : Bool := s.host.bootst.getLsbD 8
/-- What a host's read of a BAR0 register returns: none where nothing responds. -/
def State.readBar (s : State) (off : Nat) : Option Word := if s.booted || bar0 off = .bootst then some (s.barWord off) else none
/-- A write of 0 clears the counter. -/
def State.clearCounter (s : State) (b : Bar0) : State :=
  match b with
  | .evlost => { s with host := { s.host with evlost := 0 } }
  | .part p w => if 22 ≤ w.val && w.val ≤ 24 then s.setPartWord p w 0 else s
  | .stack k w =>
    if h : w.val < 7 then { s with dramStack := s.dramStack.set k { s.dramStack[k] with words := s.dramStack[k].words.set w.val 0 } } else s
  | .handoff d w => if h : w.val < 14 then { s with handoff := s.handoff.set d (s.handoff[d].set w.val 0) } else s
  | .port p w => { s with ports := s.ports.set p { s.ports[p] with words := s.ports[p].words.set w 0 } }
  | _ => s
def execCounterClear (off : Nat) (x : Word) : State → Out := fun s => .next (if x = 0 then s.endIdle.clearCounter (bar0 off) else s.endIdle)

/-! ### Partition entries (R291, R292, R297, R298, R398) -/
def overlaps (a b : Nat) : Bool := a &&& b ≠ 0
def keyRange (pt : Part) : Nat × Nat := (wbits pt.word[18] 12 0, wbits pt.word[18] 29 16)
def Part.clashes (a b : Part) : Bool :=
  let (ka, na) := keyRange a
  let (kb, nb) := keyRange b
  overlaps (partField a 1 1) (partField b 1 1) || overlaps (partField a 2 5) (partField b 2 5) || overlaps (partField a 7 8) (partField b 7 8) ||
  overlaps (partField a 15 3) (partField b 15 3) || (na > 0 && nb > 0 && ka < kb + nb && kb < ka + na)
def dlBase (pt : Part) : Nat := pt.word[19].toNat + pt.word[20].toNat * 2 ^ 32
/-- The first check of R292 that fails; 0 when none does. DESIGN CHOICE (log 7): ERR 5 looks at the bits that the map of words 18, 19 and 20
does not list, which `writePart` stores. -/
def State.enableError (s : State) (p : Fin 16) : Nat :=
  let pt := s.parts[p]
  let own := s.ownChannels p
  let (kb, kc) := keyRange pt
  let base := dlBase pt
  let last := base + 2 * own.length * 1572864 - 1
  if (List.finRange 16).any fun q => q ≠ p && s.enabled q && pt.clashes s.parts[q] then 1
  else if pt.word[1] = 0 || own.isEmpty then 2
  else if kc ≠ 0 && (kb < 1 || kb + kc > 8192) then 3
  else if pt.word[21].getLsbD 0 && !(base / 2 ^ 31 = last / 2 ^ 31 && own.contains (channelOfPa base) && offsetOfPa last < Config.carveOut) then 4
  else if wbits pt.word[18] 15 13 ≠ 0 || wbits pt.word[18] 31 30 ≠ 0 || wbits pt.word[19] 11 0 ≠ 0 || wbits pt.word[20] 31 7 ≠ 0 then 5
  else 0
def State.enablePart (s : State) (p : Fin 16) : State :=
  if s.enabled p then s
  else
    let e := s.enableError p
    let w := s.partWord p 0
    s.setPartWord p 0 (if e = 0 then w ||| 1 else (w &&& 0xFFFFFF0F) ||| BitVec.ofNat 32 (e * 16))
def State.disablePart (s : State) (p : Fin 16) : State :=
  if s.ctxs.any fun c => ctxPart c.desc = p then s else s.setPartWord p 0 (s.partWord p 0 &&& 0xFFFFFFFE)
def execPartitionEnable (p : Fin 16) : State → Out := fun s => .next (s.endIdle.enablePart p)
def execPartitionDisable (p : Fin 16) : State → Out := fun s => .next (s.endIdle.disablePart p)
/-- BANK changes when the flip starts. -/
def State.flip (s : State) (p : Fin 16) : State :=
  let w := s.partWord p 21
  if w.getLsbD 2 then s else s.setPartWord p 21 ((w ^^^ 2) ||| 4)
def execFlip (p : Fin 16) : State → Out := fun s => .next (s.endIdle.flip p)
def execFlipComplete (p : Fin 16) : State → Out := fun s => .next (s.setPartWord p 21 (s.partWord p 21 &&& 0xFFFFFFFB))
def State.wbreq (s : State) (p : Fin 16) : State := s.setPartWord p 21 (s.partWord p 21 ||| 8)
def execWbreq (p : Fin 16) : State → Out := fun s => .next (s.endIdle.wbreq p)
def execWbreqComplete (p : Fin 16) : State → Out := fun s =>
  if (s.partWord p 21).getLsbD 3 then
    let t := s.writeBackAll fun l => l.part = p
    .next (t.setPartWord p 21 (t.partWord p 21 &&& 0xFFFFFFF7))
  else .next s
/-- A write to word w of an entry. DESIGN CHOICE (log 7): bits 15:13 and 31:30 of word 18, 11:0 of word 19 and 31:7 of word 20, which the map
does not list, are stored and read back, so that ERR 5 of R292 can refuse them, where R7 would have a reserved field ignore the write. -/
def State.writePart (s : State) (p : Fin 16) (w : Fin 32) (x : Word) : State :=
  match w.val with
  | 0 =>
    if s.enabled p then (if x.getLsbD 0 then s else s.disablePart p)
    else
      let t := s.setPartWord p 0 ((s.partWord p 0 &&& 0xF0) ||| (x &&& 6))
      if x.getLsbD 0 then t.enablePart p else t
  | 21 =>
    let t := s.setPartWord p 21 ((s.partWord p 21 &&& 0xFFFFFFFE) ||| (x &&& 1))
    let t := if x.getLsbD 2 then t.flip p else t
    if x.getLsbD 3 then t.wbreq p else t
  | 22 | 23 | 24 => if x = 0 then s.setPartWord p w 0 else s
  | k => if s.enabled p || k > 20 then s else s.setPartWord p w (if k = 17 then x &&& 0xFF else x)

/-! ### The landing table (R281) -/
def execLandingEntryWrite (i : Byte) (words : List Word) : State → Out := fun s =>
  .next (s.endIdle.writeLanding i (Vector.ofFn fun k => (words[k.val]?).getD 0))

/-! ### Register writes (R307) -/
/-- Offsets that are not listed, and read-only ones, ignore writes. OP is written by the commands themselves. -/
def State.writeBar (s : State) (off : Nat) (x : Word) : State :=
  let s := s.endIdle
  match bar0 off with
  | .devid => { s with host := { s.host with devid := x &&& 0x7FF } }
  | .ltr => { s with host := { s.host with ltr := x &&& 0xFFFF } }
  | .arg k => if s.host.busy.isSome then s else { s with host := { s.host with arg := s.host.arg.set k x } }
  | .ring k => s.setRing k x
  | .evack => s.ackEvents x
  | .doorbell q => s.ring q x
  | .part p w => s.writePart p w x
  | .landing i w => s.writeLandingWord i w x
  | .route d => { s with routes := (if x &&& 0xFFFFFF = 0 then [] else [(d, x &&& 0xFFFFFF)]) ++ s.routes.filter fun e : Nat × Word => e.1 ≠ d }
  | b => if x = 0 then s.clearCounter b else s
def execRegisterWrite (off : Nat) (x : Word) : State → Out := fun s => .next (s.writeBar off x)

/-! ### Host accesses to device memory (R306, R312) -/
/-- One of the bytes lies in a carve-out or past its channel: the access completes with a CXL.mem error and touches nothing. -/
def hostRefuses (pa n : Nat) : Bool := (List.range n).any fun k => pa + k ≥ 2 ^ 39 || offsetOfPa (pa + k) ≥ Config.carveOut
def execHostMemoryAccess (pa : Nat) (store : Option (List Byte)) : State → Out := fun s =>
  let n := match store with | none => 1 | some bs => bs.length
  if hostRefuses pa n then .next s.endIdle
  else
    match store with
    | none => .next (s.endIdle.arrayRead pa)
    | some bs => .next (s.endIdle.plainPuts pa bs).wake
/-- How a host's access of memory completes: with a load's bytes, as poison (R289, R302), done, with an error, or not at all (R316). -/
inductive HostReply where
  | data (bs : List Byte)
  | poison
  | done
  | error
  | silent
  deriving DecidableEq, Repr
/-- A load's reply: plain data at the channel, no cache asked (R288, R312). -/
def State.hostRead (s : State) (pa n : Nat) : HostReply :=
  if !s.booted then .silent
  else if hostRefuses pa n then .error
  else
    let t := s.arrayReads pa n
    if (List.range n).any fun k => t.poisoned (pa + k) then .poison else .data (t.plainRead pa n)
/-- A store's reply. -/
def State.hostWrite (s : State) (pa n : Nat) : HostReply := if !s.booted then .silent else if hostRefuses pa n then .error else .done

end
end Sys2Proof.Machine
end

