-- ==== Sys2Proof/Machine/Device.lean ====
section
/-!
DEFINITION. Machine/Device.lean: what the device does beside its groups: links, remote requests, reset and boot, idle
states, clocks, lane sparing, keys, attestation, soft errors (18 R288-R290, 19 R299-R305, 20 R314-R318).
-/
namespace Sys2Proof.Machine
noncomputable section

/-! ### Links (R289, R290, R314) -/
def State.updStack (s : State) (k : Fin 8) (f : Stack → Stack) : State := { s with dramStack := s.dramStack.set k (f s.dramStack[k]) }
/-- CRC errors of one flit after which the link retrains: the first, and eight replays that failed. -/
def replayLimit : Nat := 9
def execStackFlitReceive (k : Fin 8) (ok : Bool) : State → Out := fun s =>
  let x := s.dramStack[k]
  if !x.up || x.retraining || x.failedReplays ≥ replayLimit then .next s
  else if ok then .next (s.updStack k fun x => { x with failedReplays := 0, failedRetrains := 0 })
  else
    let t := (s.countStack k 0 1).updStack k fun x => { x with failedReplays := x.failedReplays + 1 }
    .next (if x.failedReplays + 1 < replayLimit then t.countStack k 1 1 else t)
def execLinkRetrain (k : Fin 8) : State → Out := fun s =>
  let x := s.dramStack[k]
  if x.up && !x.retraining && x.failedReplays ≥ replayLimit then
    .next ((s.countStack k 2 1).updStack k fun x => { x with retraining := true })
  else .next s
def linkDownEvent (code : Nat) : Event := { kind := 6, ctx := 0xFFFF, code := BitVec.ofNat 32 code }
def execRetrainComplete (k : Fin 8) (ok : Bool) : State → Out := fun s =>
  let x := s.dramStack[k]
  if !x.retraining then .next s
  else if ok then .next (s.updStack k fun x => { x with retraining := false, failedReplays := 0, failedRetrains := 0 })
  else
    let t := s.updStack k fun x => { x with retraining := false, failedRetrains := x.failedRetrains + 1 }
    if x.failedRetrains + 1 ≥ 3 then .next ((t.updStack k fun x => { x with up := false }).postEvent (linkDownEvent k.val)).wake else .next t
def State.updPort (s : State) (k : Fin 24) (f : Port → Port) : State := { s with ports := s.ports.set k (f s.ports[k]) }
def Port.count (i : Fin 4) (x : Port) : Port := { x with words := x.words.set i (satInc x.words[i] 1) }
/-- The table has no step for a port's retrain: it runs with the error that calls for it, and the next good flit shows that it
succeeded (log 20). -/
def execBeljoFlitReceive (k : Fin 24) (ok : Bool) : State → Out := fun s =>
  let x := s.ports[k]
  if !x.up then .next s
  else if ok then .next (s.endIdle.updPort k fun x => { x with failedReplays := 0, failedRetrains := 0, packets := x.packets + 1 })
  else
    let t := s.updPort k fun x => { x.count 0 with failedReplays := x.failedReplays + 1 }
    if x.failedReplays + 1 < replayLimit then .next (t.updPort k (Port.count 1))
    else if x.failedRetrains < 3 then
      .next (t.updPort k fun x => { x.count 2 with failedReplays := 0, failedRetrains := x.failedRetrains + 1 })
    else .next ((t.updPort k fun x => { x with up := false }).postEvent (linkDownEvent (0x100 + k.val))).wake

/-! ### Remote pages (R314, R315) -/
/-- The partition's context that has the address space. -/
def State.remoteWho? (s : State) (p : Fin 16) (asid : BitVec 12) : Option Who :=
  (s.ctxs.find? fun c => ctxPart c.desc = p && ctxAsid c.desc = asid).map fun c => s.who c.ctx 0 0
/-- A place that a request from another device reaches with its pointer, whose tag is compared (R206); anything else answers a fault and
changes nothing. -/
def State.remotePlace (s : State) (who : Who) (p : Dword) (n : Nat) (write : Bool) : Option (Dword × Nat) :=
  match s.access who.home p n { write := write } with | .ok leaf pa _ => some (leaf, pa) | _ => none
def State.remoteStore (s : State) (who : Who) (p : Dword) (bs : List Byte) : State :=
  match s.remotePlace who p bs.length true with | some (leaf, pa) => s.putBytes who.home leaf pa (vaOf p) .normal bs | none => s
/-- An atomic at its home, as one step (R220); a poisoned location stays as it is. -/
def State.remoteAtomic (s : State) (who : Who) (op : AOp) (p : Dword) (v w : Nat) : State :=
  match s.remotePlace who p op.size true with
  | some (leaf, pa) =>
    let t := s.fill who.home leaf pa (vaOf p) 0 .normal
    if t.datumPoison who.home t.latch.hurt op.size none (.mem leaf pa p) then t
    else t.putBytes who.home leaf pa (vaOf p) .normal (leBytes op.size (aopNew op (leNat (t.view who.home leaf pa (vaOf p) op.size)) v w))
  | none => s
def execRemoteAccess (p : Fin 16) (asid : BitVec 12) (req : RemoteReq) : State → Out := fun s =>
  let s := s.endIdle
  match s.remoteWho? p asid with
  | none => .next s
  | some who =>
    match req with
    | .load p n => match s.remotePlace who p n false with | some (leaf, pa) => .next (s.fill who.home leaf pa (vaOf p) 0 .normal) | none => .next s
    | .store p bs => .next (s.remoteStore who p bs).wake
    | .atomic op p v w => .next (s.remoteAtomic who op p v w).wake
    | .signal p payload flag add v =>
      -- the payload first, whole or not at all, then the flag (R237)
      let words := (List.range (payload.length / 4)).map fun k => (p + BitVec.ofNat 64 (4 * k), (payload.drop (4 * k)).take 4)
      if words.all (fun e => (s.remotePlace who e.1 4 true).isSome) && (s.remotePlace who flag 4 true).isSome then
        let t := words.foldl (fun s e => s.remoteStore who e.1 e.2) s
        .next (if add then t.remoteAtomic who .add flag v.toNat 0 else t.remoteStore who flag (leBytes 4 v.toNat)).wake
      else .next s
/-- The device behind a port does not answer within 10 ms. A store is dropped and counted. A load, an atomic or an engine's read gets poison:
DESIGN CHOICE (log 13): the row stands before the word or the engine's step that gets no answer, so that the lane's poison is the word's own
result (R15, R85); `lanes`: the lanes of a word that get none. -/
def execRemoteAccessTimeout (k : Fin 24) (gid : Nat) (load : Bool) (lanes : Mask) : State → Out := fun s =>
  if load then .next { s with silent := { port := k.val, gid := gid, lanes := lanes } :: s.silent } else .next (s.updPort k (Port.count 3))

/-! ### Reset and signed boot (R316, R317) -/
def be256 (x : BitVec 256) : List Byte := (leBytes 32 x.toNat).reverse
def extendMr (m d : BitVec 256) : BitVec 256 := Config.sha256 (be256 m ++ be256 d)
/-- MR3 is extended with the option image's digest, or with 32 zero bytes when none is given. -/
def bootStages (images : List BootImage) : List (Option BootImage) :=
  (List.range 4).map fun k => if k = 3 && images.length < 4 then some { digest := 0, signed := true, version := 0, minimum := 0 } else images[k]?
/-- BOOTST and the measurement registers after the images from stage k on. -/
def boot (k : Nat) (mr : Vector (BitVec 256) 4) : List (Option BootImage) → Word × Vector (BitVec 256) 4
  | [] => (0x100, mr)
  | none :: _ => (BitVec.ofNat 32 (k + 1), mr)
  | some i :: rest =>
    if i.signed && i.version ≥ i.minimum then boot (k + 1) (mr.set! k (extendMr (mr[k]?.getD 0) i.digest)) rest else (BitVec.ofNat 32 (k + 1), mr)
/-- Every key id under which something was written has another key from now on. -/
def State.newKeys (s : State) : List (Nat × Nat) := ((s.keyed.map (·.2.1)).eraseDups).map fun k => (k, (s.keyNow k).2 + 1)
def execDeviceReset (images : List BootImage) : State → Out := fun s =>
  let (st, mr) := boot 0 (Vector.replicate 4 0) (bootStages images)
  .next { mem := s.mem, tags := s.tags, pois := s.pois, recoded := s.recoded, keyed := s.keyed, keyVer := s.newKeys, upsetBits := s.upsetBits
          spares := s.spares.map fun x => { x with testing := false }
          smargin := s.smargin, aclk := s.aclk, service := s.service, mr := mr
          versions := Vector.ofFn fun k => ((images[k.val]?).map fun i => BitVec.ofNat 32 i.version).getD 0, host := { bootst := st }, plan := s.plan, fresh := s.fresh }

/-! ### Idle states (R318) -/
def State.idleNow (s : State) : Bool :=
  (s.allGroups.all fun g => g.gid = 0) && (s.queues.all fun q => q.closed || q.count = BitVec.ofNat 32 q.started) &&
  (match s.host.busy with | some (.restore _) => false | _ => true) && (s.landing.toList.all fun l => !l.words[0].getLsbD 0)
/-- The deepest state whose exit latency is at or below LTR. -/
def idleFor (ltr : Nat) : Nat := if ltr ≥ 400 then 3 else if ltr ≥ 40 then 2 else if ltr ≥ 2 then 1 else 0
def execIdleEntry : State → Out := fun s =>
  if !s.idleNow then .next s
  else
    let k := idleFor s.host.ltr.toNat
    let t := if k ≥ 2 then s.purge fun _ => true else s
    .next { t with host := { t.host with idle := BitVec.ofNat 32 k } }
def execIdleExit : State → Out := fun s => .next s.endIdle

/-! ### Ageing, spare lanes, self-tests (R301, R304, R305) -/
/-- The clock goes down by 50 MHz, never below 3,000; there, SERVICE asks for help. The margin reported is Epter's (log 6). -/
def execClockStep : State → Out := fun s =>
  let s := { s with smargin := BitVec.ofNat 32 (Config.choice s.fresh % 1001) }
  if s.aclk.toNat ≥ 3050 then .next { s with aclk := s.aclk - 50 } else .next { s with service := 1 }
def State.unitEmpty (s : State) (u : Nat) : Bool := s.allGroups.all fun g => g.gid = 0 || g.method.isSome || g.core.val * 4 + g.simd.val ≠ u
/-- The two grounds of R301. -/
def Spare.grounds (x : Spare) (lane : Nat) : Bool := x.failed.contains lane || (x.errs.lookup lane).getD 0 > Config.laneLimit
def execLaneDefect (u lane : Nat) : State → Out := fun s =>
  let x := s.spare u
  if u ≥ 1024 || lane > 32 || !x.grounds lane || x.state = 2 || x.def0 = lane || x.def1 ≠ 63 then .next s
  else .next (s.setSpare { x with state := 3, def0 := if x.def0 = 63 then lane else x.def0, def1 := if x.def0 = 63 then 63 else lane })
def execLaneSpareSteer (u : Nat) : State → Out := fun s =>
  let x := s.spare u
  if x.state = 3 && s.unitEmpty u then .next (s.setSpare { x with state := if x.def1 = 63 then 1 else 2 }) else .next s
/-- No group on the core, or no request of an engine or a stack on the way to the channel: the windows of R305. -/
def State.quietUnit (s : State) (u : Nat) : Bool :=
  if u < 1024 then s.allGroups.all fun g => g.gid = 0 || g.method.isSome || g.core.val ≠ u / 4
  else u < 1280 && s.basins.all fun b => channelOfPa b.pa ≠ u - 1024
/-- A lane self-test of a SIMD unit, or a sweep of channel u − 1,024. -/
def execSelfTestStart (u : Nat) : State → Out := fun s =>
  if s.quietUnit u then .next (s.setSpare { s.spare u with testing := true }) else .next s
/-- FREE VALUE (log 11): whether a lane fails the test, and which. A sweep keeps the memory's contents. -/
def execSelfTestEnd (u : Nat) : State → Out := fun s =>
  let x := s.spare u
  if !x.testing then .next s
  else
    let lane := Config.choice s.fresh % 34
    .next (s.setSpare { x with testing := false, failed := if u < 1024 && lane < 33 then lane :: x.failed else x.failed })

/-! ### Keys (R288) -/
/-- No dirty sector and no request is under the id. -/
def State.keyIdle (s : State) (k : Nat) : Bool :=
  (s.l2.all fun l => l.dmask = 0 || leafKey l.leaf ≠ k) && s.basins.all fun b => leafKey b.leaf ≠ k
def execKeyChange (k : Nat) : State → Out := fun s =>
  if k = 0 || k ≥ 8192 || !s.keyIdle k then .next s
  else .next { s with
    keyVer := (k, (s.keyNow k).2 + 1) :: s.keyVer.filter fun e : Nat × Nat => e.1 ≠ k
    keyLoaded := if s.keyLoaded.contains k then s.keyLoaded else k :: s.keyLoaded }

/-! ### Attestation (R299, R300) -/
def wordsBytes (l : List Word) : List Byte := l.flatMap fun w => leBytes 4 w.toNat
def fitBytes (n : Nat) (l : List Byte) : List Byte := (l ++ List.replicate n 0).take n
/-- Bytes 0 to 391 of a report. -/
def State.reportBody (s : State) (p : Fin 16) (nonce : List Byte) : List Byte :=
  let pt := s.parts[p]
  wordsBytes [1, 16616] ++ fitBytes 16 Config.serial ++ fitBytes 32 nonce ++
  wordsBytes [BitVec.ofNat 32 p.val, s.versions[0], s.versions[1],
    (if pt.word[0].getLsbD 1 then 1 else 0) ||| (Config.firmware 2 &&& 2)] ++
  (s.mr.toList ++ pt.mr.toList).flatMap be256 ++ be256 (Config.sha256 (wordsBytes (pt.word.toList.take 22))) ++ be256 Config.keyDigest
def execAttestationReport (p : Fin 16) (nonce : List Byte) : State → Out := fun s =>
  if nonce.length ≠ 32 then .next s
  else
    let b := s.reportBody p nonce
    .next { s with parts := s.parts.set p { s.parts[p] with report := b ++ fitBytes 16224 (Config.slhSign b) } }
def execMrExtend (p : Fin 16) (r : Fin 4) (d : BitVec 256) : State → Out := fun s =>
  .next { s with parts := s.parts.set p { s.parts[p] with mr := s.parts[p].mr.set r (extendMr s.parts[p].mr[r] d) } }

/-! ### Soft errors (R141, R302, R303) -/
def State.vectorPoison (s : State) (gid : Nat) (r : VReg) (L : Lane) : State :=
  s.updGroup gid fun g => { g with regs := { g.regs with vpois := g.regs.vpois.set r (g.regs.vpois[r] ||| (1#96 <<< L.val)) } }
def State.scalarPoison (s : State) (gid : Nat) (r : SReg) : State :=
  s.updGroup gid fun g => if r.val < 60 then { g with regs := { g.regs with spois := g.regs.spois ||| (1#64 <<< r.val) } } else g
def execSoftError (place : ErrPlace) : State → Out := fun s =>
  match place with
  | .array g unc => .next { s with upsetBits := s.upsetBits ++ [{ granule := g, hop := 7, die := 0, unc := unc }] }
  | .hop die hop g unc => .next { s with upsetBits := s.upsetBits ++ [{ granule := g, hop := hop.val, die := die, unc := unc }] }
  | .coreMem wid word =>
    match s.wg? wid with
    | none => .next s
    | some w =>
      if 4 * word ≥ w.cmBytes then .next s
      else .next ((s.countHop (dieOf w.core) 13).updWg wid fun w => { w with cmPois := memSet w.cmPois word 1 })
  | .vector gid r L =>
    match s.group? gid with
    | none => .next s
    | some g => .next ((s.countHop (dieOf g.core) 12).vectorPoison gid r L)
  | .scalar gid r =>
    match s.group? gid with
    | none => .next s
    | some g => .next ((s.countHop (dieOf g.core) 12).scalarPoison gid r)
  | .corrected gid L =>
    match s.group? gid with
    | none => .next s
    | some g =>
      let t := s.countHop (dieOf g.core) 9
      .next (if g.method.isSome then t else t.setSpare ((t.spare (g.core.val * 4 + g.simd.val)).count L))
  | .weights core word =>
    if 4 * word ≥ Config.weightBytes then .next s else .next (s.updCore core fun c => { c with wbPois := memSet c.wbPois word 1 })
  | .accumulator core element =>
    if element ≥ 65536 then .next s else .next (s.updCore core fun c => { c with accPois := memSet c.accPois element 1 })
  | .cell wid off => .next { s with upsetCells := (wid, off) :: s.upsetCells }
  | .unit L second flip => .next { s with upsets := s.upsets ++ [{ lane := L, second := second, flip := flip }] }

end
end Sys2Proof.Machine
end

