-- ==== Sys2Proof/Machine/Integer.lean ====
section
/-!
DEFINITION. Machine/Integer.lean: majors 0x01 to 0x06: integer arithmetic, logic and shifts, products, compares, immediates, moves
and bit fields (R92-R97).
-/
namespace Sys2Proof.Machine
noncomputable section

/-! Major 0x01 (R92). -/
def execAdd (m : Sat) (g : Bool) (d a : VReg) (b : VSrc) : State → Out :=
  laneFlag (.add m g d a b) g d fun r L => narrow m (· + ·) (r.readV a L) (r.vb b L)
def execSub (m : Sat) (g : Bool) (d a : VReg) (b : VSrc) : State → Out :=
  laneFlag (.sub m g d a b) g d fun r L => narrow m (· - ·) (r.readV a L) (r.vb b L)
def execMinS (g : Bool) (d a : VReg) (b : VSrc) : State → Out :=
  laneWord (.minS g d a b) g d fun r L => minS32 (r.readV a L) (r.vb b L)
def execMaxS (g : Bool) (d a : VReg) (b : VSrc) : State → Out :=
  laneWord (.maxS g d a b) g d fun r L => maxS32 (r.readV a L) (r.vb b L)
def execMinN (g : Bool) (d a : VReg) (b : VSrc) : State → Out :=
  laneWord (.minN g d a b) g d fun r L => minN32 (r.readV a L) (r.vb b L)
def execMaxN (g : Bool) (d a : VReg) (b : VSrc) : State → Out :=
  laneWord (.maxN g d a b) g d fun r L => maxN32 (r.readV a L) (r.vb b L)
def execAbsd (m : Sat) (g : Bool) (d a : VReg) (b : VSrc) : State → Out :=
  laneFlag (.absd m g d a b) g d fun r L => narrow m absDiff (r.readV a L) (r.vb b L)

/-! Major 0x02 (R93). -/
def execAnd (g : Bool) (d a : VReg) (b : VSrc) : State → Out :=
  laneWord (.and g d a b) g d fun r L => r.readV a L &&& r.vb b L
def execOr (g : Bool) (d a : VReg) (b : VSrc) : State → Out :=
  laneWord (.or g d a b) g d fun r L => r.readV a L ||| r.vb b L
def execXor (g : Bool) (d a : VReg) (b : VSrc) : State → Out :=
  laneWord (.xor g d a b) g d fun r L => r.readV a L ^^^ r.vb b L
def execAndn (g : Bool) (d a : VReg) (b : VSrc) : State → Out :=
  laneWord (.andn g d a b) g d fun r L => r.readV a L &&& ~~~(r.vb b L)
def execShl (g : Bool) (d a : VReg) (b : VSrc) : State → Out :=
  laneWord (.shl g d a b) g d fun r L => shiftL (r.readV a L) (r.vb b L).toNat
def execShr (g : Bool) (d a : VReg) (b : VSrc) : State → Out :=
  laneWord (.shr g d a b) g d fun r L => shiftR (r.readV a L) (r.vb b L).toNat
def execSar (g : Bool) (d a : VReg) (b : VSrc) : State → Out :=
  laneWord (.sar g d a b) g d fun r L => shiftSar (r.readV a L) (r.vb b L).toNat

/-! Major 0x03 (R94). -/
def execMul (g : Bool) (d a : VReg) (b : VSrc) : State → Out :=
  laneWord (.mul g d a b) g d fun r L => r.readV a L * r.vb b L
def execMulhS (g : Bool) (d a : VReg) (b : VSrc) : State → Out :=
  laneWord (.mulhS g d a b) g d fun r L => mulHighS (r.readV a L) (r.vb b L)
def execMulhN (g : Bool) (d a : VReg) (b : VSrc) : State → Out :=
  laneWord (.mulhN g d a b) g d fun r L => mulHighN (r.readV a L) (r.vb b L)
def execMad (g : Bool) (d a : VReg) (b : VSrc) : State → Out :=
  laneWord (.mad g d a b) g d fun r L => r.readV a L * r.vb b L + r.readV d L
def execDot4S8 (g : Bool) (d a : VReg) (b : VSrc) : State → Out :=
  laneWord (.dot4S8 g d a b) g d fun r L => dot4 (r.readV a L) (r.vb b L) (r.readV d L)
def execPopc (g : Bool) (d a : VReg) : State → Out :=
  laneWord (.popc g d a) g d fun r L => BitVec.ofNat 32 (onesIn (r.readV a L))
def execClz (g : Bool) (d a : VReg) : State → Out :=
  laneWord (.clz g d a) g d fun r L => BitVec.ofNat 32 (leadingZeros (r.readV a L))

/-! Major 0x04 (R95). -/
def execEq (g : Bool) (d : PReg) (a : VReg) (b : VSrc) : State → Out :=
  lanePred (.eq g d a b) g d fun r L => pof (r.readV a L = r.vb b L)
def execNe (g : Bool) (d : PReg) (a : VReg) (b : VSrc) : State → Out :=
  lanePred (.ne g d a b) g d fun r L => pof (r.readV a L ≠ r.vb b L)
def execLtS (g : Bool) (d : PReg) (a : VReg) (b : VSrc) : State → Out :=
  lanePred (.ltS g d a b) g d fun r L => pof ((r.readV a L).toInt < (r.vb b L).toInt)
def execLeS (g : Bool) (d : PReg) (a : VReg) (b : VSrc) : State → Out :=
  lanePred (.leS g d a b) g d fun r L => pof ((r.readV a L).toInt ≤ (r.vb b L).toInt)
def execLtN (g : Bool) (d : PReg) (a : VReg) (b : VSrc) : State → Out :=
  lanePred (.ltN g d a b) g d fun r L => pof ((r.readV a L).toNat < (r.vb b L).toNat)
def execLeN (g : Bool) (d : PReg) (a : VReg) (b : VSrc) : State → Out :=
  lanePred (.leN g d a b) g d fun r L => pof ((r.readV a L).toNat ≤ (r.vb b L).toNat)
def execTest (g : Bool) (d : PReg) (a : VReg) (b : VSrc) : State → Out :=
  lanePred (.test g d a b) g d fun r L => pof (r.readV a L &&& r.vb b L ≠ 0)

/-! Major 0x05 (R96): k is IMM9 sign-extended, c the same bits unsigned. -/
def execAddi (g : Bool) (d a : VReg) (i : BitVec 9) : State → Out :=
  laneWord (.addi g d a i) g d fun r L => r.readV a L + i.signExtend 32
def execAndi (g : Bool) (d a : VReg) (i : BitVec 9) : State → Out :=
  laneWord (.andi g d a i) g d fun r L => r.readV a L &&& i.signExtend 32
def execOri (g : Bool) (d a : VReg) (i : BitVec 9) : State → Out :=
  laneWord (.ori g d a i) g d fun r L => r.readV a L ||| i.signExtend 32
def execXori (g : Bool) (d a : VReg) (i : BitVec 9) : State → Out :=
  laneWord (.xori g d a i) g d fun r L => r.readV a L ^^^ i.signExtend 32
def execShli (g : Bool) (d a : VReg) (i : BitVec 9) : State → Out :=
  laneWord (.shli g d a i) g d fun r L => shiftL (r.readV a L) i.toNat
def execShri (g : Bool) (d a : VReg) (i : BitVec 9) : State → Out :=
  laneWord (.shri g d a i) g d fun r L => shiftR (r.readV a L) i.toNat
def execSari (g : Bool) (d a : VReg) (i : BitVec 9) : State → Out :=
  laneWord (.sari g d a i) g d fun r L => shiftSar (r.readV a L) i.toNat
def execMovi (g : Bool) (d : VReg) (i : BitVec 9) : State → Out :=
  laneWord (.movi g d i) g d fun _ _ => i.signExtend 32

/-! Major 0x06 (R97). -/
def execMov (g : Bool) (d : VReg) (b : VSrc) : State → Out :=
  laneWord (.mov g d b) g d fun r L => r.vb b L
def execSel (g : Bool) (d a : VReg) (b : VSrc) : State → Out :=
  laneWord (.sel g d a b) g d fun r L => if meets (r.readP r.guardReg L) r.guardSense then r.readV a L else r.vb b L
def execSelu (g : Bool) (d a : VReg) (b : VSrc) : State → Out :=
  laneWord (.selu g d a b) g d fun r L =>
    match r.readP r.guardReg L with
    | .t => r.readV a L
    | .f => r.vb b L
    | _ => r.readV d L
def execBfeN (g : Bool) (d a : VReg) (b : VSrc) : State → Out :=
  laneWord (.bfeN g d a b) g d fun r L => extractN (r.readV a L) (r.vb b L)
def execBfeS (g : Bool) (d a : VReg) (b : VSrc) : State → Out :=
  laneWord (.bfeS g d a b) g d fun r L => extractS (r.readV a L) (r.vb b L)
def execBfi (g : Bool) (d a : VReg) (b : VSrc) : State → Out :=
  laneWord (.bfi g d a b) g d fun r L => insertBits (r.readV d L) (r.readV a L) (r.vb b L)
def execLaneid (g : Bool) (d : VReg) : State → Out :=
  laneWord (.laneid g d) g d fun _ L => BitVec.ofNat 32 L.val

end
end Sys2Proof.Machine
end

