-- ==== Sys2Proof/Machine/Lanes.lean ====
section
/-!
DEFINITION. Machine/Lanes.lean: majors 0x13, 0x14 and 0x1E: three-valued predicates, shuffles, reductions, votes, and moves
between scalars and lanes (R98-R100, R105).
-/
namespace Sys2Proof.Machine
noncomputable section

/-! Major 0x13 (R98). -/
def execPand (g : Bool) (d a b : PReg) : State → Out := lanePred (.pand g d a b) g d fun r L => pAnd (r.readP a L) (r.readP b L)
def execPor (g : Bool) (d a b : PReg) : State → Out := lanePred (.por g d a b) g d fun r L => pOr (r.readP a L) (r.readP b L)
def execPnot (g : Bool) (d a : PReg) : State → Out := lanePred (.pnot g d a) g d fun r L => pNot (r.readP a L)
def execPxor (g : Bool) (d a b : PReg) : State → Out := lanePred (.pxor g d a b) g d fun r L => pXor (r.readP a L) (r.readP b L)
def execPdf (g : Bool) (d a : PReg) : State → Out := lanePred (.pdf g d a) g d fun r L => pof (pRead (r.readP a L) = .t)
def execPdt (g : Bool) (d a : PReg) : State → Out := lanePred (.pdt g d a) g d fun r L => pof (pRead (r.readP a L) ≠ .f)
def execPset (g : Bool) (d : PReg) (k : BitVec 2) : State → Out := lanePred (.pset g d k) g d fun _ _ => pConst k
def execPund (g : Bool) (d a : PReg) : State → Out := lanePred (.pund g d a) g d fun r L => pof (pRead (r.readP a L) = .u)

/-! Major 0x14. -/
/-- R99: lane j is present: in the issuing slot's active mask, guard or no guard, and not dead. -/
def Group.present (g : Group) (j : Nat) : Option Lane :=
  if h : j < 96 then (if g.amask.getLsbD j && !g.dead.getLsbD j then some ⟨j, h⟩ else none) else none
def lowest (m : Mask) : Option Lane := (lanesOf m).head?
/-- A shuffle: `pick` names the lane whose V[a] each active lane takes, none where it is absent; `bad`: lanes that an index read
from another lane poisons (R85). -/
def shuffle (i : Instr) (guarded : Bool) (d a : VReg) (pick : Group → Mask → Lane → Option Lane) (bad : Group → Mask → Mask) : State → Out :=
  issueSeq i fun s =>
    let r := s.src
    let sick := r.poisonIn i.names.vr (s.lanes guarded)
    let m := s.lanes guarded &&& ~~~sick
    let bad := bad r m ||| maskOf fun L => m.getLsbD L.val && ((pick r m L).any fun j => r.regs.vpois[a].getLsbD j.val)
    let ok := m &&& ~~~bad
    let t := (s.consume (sick ||| bad)).setV d ok fun L => match pick r m L with | some j => r.readV a j | none => 0
    if (lanesOf ok).any fun L => (pick r m L).isNone then t.orFlags flagABSENT else t
def execShflIdx (g : Bool) (d a : VReg) (b : VSrc) : State → Out :=
  shuffle (.shflIdx g d a b) g d a (fun r _ L => r.present (wbits (r.vb b L) 6 0)) fun _ _ => 0
def execShflUp (g : Bool) (d a : VReg) (b : VSrc) : State → Out :=
  shuffle (.shflUp g d a b) g d a (fun r _ L =>
    if (r.vb b L).toNat ≤ L.val then r.present (L.val - (r.vb b L).toNat) else some L) fun _ _ => 0
def execShflDn (g : Bool) (d a : VReg) (b : VSrc) : State → Out :=
  shuffle (.shflDn g d a b) g d a (fun r _ L =>
    if L.val + (r.vb b L).toNat < 96 then r.present (L.val + (r.vb b L).toNat) else some L) fun _ _ => 0
def execShflXor (g : Bool) (d a : VReg) (b : VSrc) : State → Out :=
  shuffle (.shflXor g d a b) g d a (fun r _ L => r.present (L.val ^^^ wbits (r.vb b L) 6 0)) fun _ _ => 0
def execBcast (g : Bool) (d a : VReg) (b : VSrc) : State → Out :=
  shuffle (.bcast g d a b) g d a (fun r m _ => match lowest m with | some l0 => r.present (wbits (r.vb b l0) 6 0) | none => none)
    fun r m => if b.regs.any fun v => (lowest m).any fun l0 => r.regs.vpois[v].getLsbD l0.val then m else 0
/-- R100. A poisoned element reaches every active lane through the sum (log 16). -/
def execRedadd (g : Bool) (d a : VReg) : State → Out :=
  issueSeq (.redadd g d a) fun s =>
    let r := s.src
    let m := s.lanes g
    if r.regs.vpois[a] &&& m ≠ 0 then s.consume m
    else
      let sum := (lanesOf m).foldl (fun acc L => acc + r.readV a L) (0 : Word)
      s.setV d m fun _ => sum
def execVote (g : Bool) (d a : PReg) : State → Out :=
  issueSeq (.vote g d a) fun s =>
    let r := s.src
    let m := s.lanes g
    let x := if (lanesOf m).all fun L => r.readP a L = .t then .t else if (lanesOf m).all fun L => r.readP a L = .f then .f else .u
    s.setP d m fun _ => x
def execBallot (g : Bool) (d : SReg) (a : PReg) : State → Out :=
  issueSeq (.ballot g d a) fun s =>
    let r := s.src
    let m := s.lanes g
    let x := maskOf fun L => m.getLsbD L.val && r.readP a L = .t
    s.setSs d [maskWord x 0, maskWord x 1, maskWord x 2]

/-! Major 0x1E (R105). -/
def execStov (d : VReg) (a : SReg) : State → Out :=
  issueSeq (.stov d a) fun s => s.setV d (s.lanes false) fun _ => s.src.readS a
/-- The scalar takes lane j's element; absent: 0 and FSTAT.ABSENT. A lane whose poisoned element is read dies (log 16). -/
def fromLane (i : Instr) (d : SReg) (a : VReg) (j : Group → Option Lane) : State → Out :=
  issueSeq i fun s =>
    match j s.src with
    | none => (s.setS d 0).orFlags flagABSENT
    | some L => if s.src.regs.vpois[a].getLsbD L.val then s.consume (1#96 <<< L.val) else s.setS d (s.src.readV a L)
def execVtos (d : SReg) (a : VReg) (b : SSrc) : State → Out := fromLane (.vtos d a b) d a fun r => r.present (wbits (r.sb b) 6 0)
def execVtosf (d : SReg) (a : VReg) : State → Out := fromLane (.vtosf d a) d a fun r => lowest r.amask
def execSsel (d a : SReg) (b : SSrc) : State → Out :=
  scalarWord (.ssel d a b) d fun r => if r.readS d ≠ 0 then r.readS a else r.sb b

end
end Sys2Proof.Machine
end

