-- ==== Sys2Proof/Machine/Scalar.lean ====
section
/-!
DEFINITION. Machine/Scalar.lean: majors 0x18 to 0x1D: scalar arithmetic, immediates, constants and pairs (R101-R104).
-/
namespace Sys2Proof.Machine
noncomputable section

/-! Majors 0x18 and 0x19 (R101). -/
def execSAdd (d a : SReg) (b : SSrc) : State → Out := scalarWord (.sAdd d a b) d fun r => r.readS a + r.sb b
def execSSub (d a : SReg) (b : SSrc) : State → Out := scalarWord (.sSub d a b) d fun r => r.readS a - r.sb b
def execSAnd (d a : SReg) (b : SSrc) : State → Out := scalarWord (.sAnd d a b) d fun r => r.readS a &&& r.sb b
def execSOr (d a : SReg) (b : SSrc) : State → Out := scalarWord (.sOr d a b) d fun r => r.readS a ||| r.sb b
def execSXor (d a : SReg) (b : SSrc) : State → Out := scalarWord (.sXor d a b) d fun r => r.readS a ^^^ r.sb b
def execSShl (d a : SReg) (b : SSrc) : State → Out := scalarWord (.sShl d a b) d fun r => shiftL (r.readS a) (r.sb b).toNat
def execSShr (d a : SReg) (b : SSrc) : State → Out := scalarWord (.sShr d a b) d fun r => shiftR (r.readS a) (r.sb b).toNat
def execSSar (d a : SReg) (b : SSrc) : State → Out := scalarWord (.sSar d a b) d fun r => shiftSar (r.readS a) (r.sb b).toNat
def execSMul (d a : SReg) (b : SSrc) : State → Out := scalarWord (.sMul d a b) d fun r => r.readS a * r.sb b
def execSMulhS (d a : SReg) (b : SSrc) : State → Out := scalarWord (.sMulhS d a b) d fun r => mulHighS (r.readS a) (r.sb b)
def execSMulhN (d a : SReg) (b : SSrc) : State → Out := scalarWord (.sMulhN d a b) d fun r => mulHighN (r.readS a) (r.sb b)
def execSMinS (d a : SReg) (b : SSrc) : State → Out := scalarWord (.sMinS d a b) d fun r => minS32 (r.readS a) (r.sb b)
def execSMaxS (d a : SReg) (b : SSrc) : State → Out := scalarWord (.sMaxS d a b) d fun r => maxS32 (r.readS a) (r.sb b)
def execSSltS (d a : SReg) (b : SSrc) : State → Out := scalarWord (.sSltS d a b) d fun r => sltS (r.readS a) (r.sb b)
def execSSltN (d a : SReg) (b : SSrc) : State → Out := scalarWord (.sSltN d a b) d fun r => sltN (r.readS a) (r.sb b)
def execSSeq (d a : SReg) (b : SSrc) : State → Out := scalarWord (.sSeq d a b) d fun r => if r.readS a = r.sb b then 1 else 0

/-! Major 0x1A (R102). -/
def execSAddi (d a : SReg) (i : BitVec 10) : State → Out := scalarWord (.sAddi d a i) d fun r => r.readS a + i.signExtend 32
def execSAndi (d a : SReg) (i : BitVec 10) : State → Out := scalarWord (.sAndi d a i) d fun r => r.readS a &&& i.signExtend 32
def execSOri (d a : SReg) (i : BitVec 10) : State → Out := scalarWord (.sOri d a i) d fun r => r.readS a ||| i.signExtend 32
def execSXori (d a : SReg) (i : BitVec 10) : State → Out := scalarWord (.sXori d a i) d fun r => r.readS a ^^^ i.signExtend 32
def execSShli (d a : SReg) (i : BitVec 10) : State → Out := scalarWord (.sShli d a i) d fun r => shiftL (r.readS a) i.toNat
def execSShri (d a : SReg) (i : BitVec 10) : State → Out := scalarWord (.sShri d a i) d fun r => shiftR (r.readS a) i.toNat
def execSSari (d a : SReg) (i : BitVec 10) : State → Out := scalarWord (.sSari d a i) d fun r => shiftSar (r.readS a) i.toNat
def execSSltiS (d a : SReg) (i : BitVec 10) : State → Out := scalarWord (.sSltiS d a i) d fun r => sltS (r.readS a) (i.signExtend 32)

/-! Majors 0x1B and 0x1C (R103). -/
def execSMovi (d : SReg) (i : BitVec 19) : State → Out := scalarWord (.sMovi d i) d fun _ => i.signExtend 32
def execMovh (d : SReg) (i : BitVec 19) : State → Out :=
  scalarWord (.movh d i) d fun r => (i.setWidth 32 <<< 13) ||| (r.readS d &&& 0x1FFF)

/-! Major 0x1D (R104). -/
def execAdd64 (d a b : SReg) : State → Out := scalarPair (.add64 d a b) d fun r => r.readS64 a + r.readS64 b
def execSub64 (d a b : SReg) : State → Out := scalarPair (.sub64 d a b) d fun r => r.readS64 a - r.readS64 b
def execAddz64 (d a : SReg) (b : SSrc) : State → Out := scalarPair (.addz64 d a b) d fun r => r.readS64 a + (r.sb b).setWidth 64
def execMov64 (d a : SReg) : State → Out := scalarPair (.mov64 d a) d fun r => r.readS64 a

end
end Sys2Proof.Machine
end

