-- ==== Sys2Proof/Machine/Astc.lean ====
section
/-!
DEFINITION. Machine/Astc.lean: the Khronos ASTC LDR-profile decode of one texel of a 2D block to 8-bit UNORM channels, which R381 names
and does not write out. PRESUMED throughout (log 10): the algorithm is the Khronos Data Format Specification's.
-/
namespace Sys2Proof.Machine.Astc

/-! ### Integer sequences -/
/-- A range of values: power of two (0), three times one (1) or five times one (2), and the bits of a value. -/
abbrev Level := Nat × Nat
/-- Ranges of 2, 3, 4, 5, 6, 8, 10, 12, … 256 values, numbered from 0. -/
def level (q : Nat) : Level :=
  match q with
  | 0 => (0, 1)
  | 1 => (1, 0)
  | q + 2 => match q % 3 with
    | 0 => (0, q / 3 + 2)
    | 1 => (2, q / 3)
    | _ => (1, q / 3 + 1)
/-- Bits that `count` values take. -/
def seqBits (l : Level) (count : Nat) : Nat :=
  l.2 * count + (match l.1 with | 0 => 0 | 1 => (8 * count + 4) / 5 | _ => (7 * count + 2) / 3)
def b1 (x k : Nat) : Nat := x / 2 ^ k % 2
def bf (x hi lo : Nat) : Nat := bits x hi lo
/-- Five trits of eight bits, and three quints of seven. -/
def trits (t : Nat) : List Nat :=
  let (c, t4, t3) :=
    if bf t 4 2 = 7 then (bf t 7 5 * 4 + bf t 1 0, 2, 2)
    else if bf t 6 5 = 3 then (bf t 4 0, 2, b1 t 7) else (bf t 4 0, b1 t 7, bf t 6 5)
  let (t2, t1, t0) :=
    if bf c 1 0 = 3 then (2, b1 c 4, b1 c 3 * 2 + b1 c 2 * (1 - b1 c 3))
    else if bf c 3 2 = 3 then (2, 2, bf c 1 0) else (b1 c 4, bf c 3 2, b1 c 1 * 2 + b1 c 0 * (1 - b1 c 1))
  [t0, t1, t2, t3, t4]
def quints (q : Nat) : List Nat :=
  if bf q 2 1 = 3 && bf q 6 5 = 0 then [4, 4, b1 q 0 * 4 + b1 q 4 * (1 - b1 q 0) * 2 + b1 q 3 * (1 - b1 q 0)]
  else
    let (q2, c) := if bf q 2 1 = 3 then (4, bf q 4 3 * 8 + (3 - bf q 6 5) * 2 + b1 q 0) else (bf q 6 5, bf q 4 0)
    if bf c 2 0 = 5 then [bf c 4 3, 4, q2] else [bf c 2 0, bf c 4 3, q2]
/-- Value i of a sequence of `count`, as its trit or quint and its bits. -/
def seqAt (l : Level) (count x i : Nat) : Nat × Nat :=
  let x := x % 2 ^ seqBits l count
  let n := l.2
  let take := fun (lo w : Nat) => x / 2 ^ lo % 2 ^ w
  match l.1 with
  | 0 => (0, take (n * i) n)
  | 1 =>
    let b := i / 5 * (5 * n + 8)
    let t := take (b + n) 2 + 4 * take (b + 2 * n + 2) 2 + 16 * take (b + 3 * n + 4) 1 + 32 * take (b + 4 * n + 5) 2 + 128 * take (b + 5 * n + 7) 1
    let off := ([0, n + 2, 2 * n + 4, 3 * n + 5, 4 * n + 7][i % 5]?).getD 0
    (((trits t)[i % 5]?).getD 0, take (b + off) n)
  | _ =>
    let b := i / 3 * (3 * n + 7)
    let q := take (b + n) 3 + 8 * take (b + 2 * n + 3) 2 + 32 * take (b + 3 * n + 5) 2
    let off := ([0, n + 3, 2 * n + 5][i % 3]?).getD 0
    (((quints q)[i % 3]?).getD 0, take (b + off) n)

/-! ### Unquantisation -/
/-- `x` of n bits repeated to `w` bits. -/
def repeated (n w x : Nat) : Nat := (List.range w).foldl (fun a k => a * 2 + b1 x (n - 1 - k % n)) 0
/-- The pattern of a value's bits, from the top, 0 for none (bits above the lowest are numbered from 1), and the factor of its trit or
quint: for endpoints and for weights. -/
def colourMix (l : Level) : List Nat × Nat :=
  match l with
  | (1, 1) => ([], 204)
  | (2, 1) => ([], 113)
  | (1, 2) => ([1, 0, 0, 0, 1, 0, 1, 1, 0], 93)
  | (2, 2) => ([1, 0, 0, 0, 0, 1, 1, 0, 0], 54)
  | (1, 3) => ([2, 1, 0, 0, 0, 2, 1, 2, 1], 44)
  | (2, 3) => ([2, 1, 0, 0, 0, 0, 2, 1, 2], 26)
  | (1, 4) => ([3, 2, 1, 0, 0, 0, 3, 2, 1], 22)
  | (2, 4) => ([3, 2, 1, 0, 0, 0, 0, 3, 2], 13)
  | (1, 5) => ([4, 3, 2, 1, 0, 0, 0, 4, 3], 11)
  | (2, 5) => ([4, 3, 2, 1, 0, 0, 0, 0, 4], 6)
  | (1, 6) => ([5, 4, 3, 2, 1, 0, 0, 0, 5], 5)
  | _ => ([], 0)
def weightMix (l : Level) : List Nat × Nat :=
  match l with
  | (1, 1) => ([], 50)
  | (2, 1) => ([], 28)
  | (1, 2) => ([1, 0, 0, 0, 1, 0, 1], 23)
  | (2, 2) => ([1, 0, 0, 0, 0, 1, 0], 13)
  | (1, 3) => ([2, 1, 0, 0, 0, 2, 1], 11)
  | _ => ([], 0)
/-- `w`: bits of the result. -/
def unquantise (mix : List Nat × Nat) (w d m : Nat) : Nat :=
  let b := mix.1.foldl (fun a k => a * 2 + (if k = 0 then 0 else b1 m k)) 0
  let t := (d * mix.2 + b) ^^^ (if m % 2 = 1 then 2 ^ (w + 1) - 1 else 0)
  (if m % 2 = 1 then 2 ^ (w - 1) else 0) ||| (t / 4 % 2 ^ (w - 1))
def colourOf (l : Level) (v : Nat × Nat) : Nat := if l.1 = 0 then repeated l.2 8 v.2 else unquantise (colourMix l) 8 v.1 v.2
def weightOf (l : Level) (v : Nat × Nat) : Nat :=
  let x := match l with
    | (0, n) => repeated n 6 v.2
    | (1, 0) => ([0, 32, 63][v.1]?).getD 0
    | (_, 0) => ([0, 16, 32, 47, 63][v.1]?).getD 0
    | l => unquantise (weightMix l) 6 v.1 v.2
  if x > 32 then x + 1 else x

/-! ### Block modes -/
structure Mode where
  w : Nat
  h : Nat
  dual : Bool
  lev : Level
  deriving DecidableEq, Repr
def Mode.count (m : Mode) : Nat := m.w * m.h * (if m.dual then 2 else 1)
def Mode.bits (m : Mode) : Nat := seqBits m.lev m.count
/-- The weight grid of an 11-bit block mode, with the base of its range; none where it is reserved. -/
def grid (m : Nat) : Option (Nat × Nat × Bool) :=
  let a := bf m 6 5
  if bf m 1 0 ≠ 0 then
    let b := bf m 8 7
    match bf m 3 2 with
    | 0 => some (b + 4, a + 2, true)
    | 1 => some (b + 8, a + 2, true)
    | 2 => some (a + 2, b + 8, true)
    | _ => if b1 m 8 = 1 then some (b % 2 + 2, a + 2, true) else some (a + 2, b % 2 + 6, true)
  else if bf m 3 2 = 0 then none
  else match bf m 8 7 with
    | 0 => some (12, a + 2, true)
    | 1 => some (a + 2, 12, true)
    | 2 => some (a + 6, bf m 10 9 + 6, false)
    | _ => if a = 0 then some (6, 10, true) else if a = 1 then some (10, 6, true) else none
def modeOf (side m : Nat) : Option Mode :=
  match grid m with
  | none => none
  | some (w, h, full) =>
    let r := (if bf m 1 0 ≠ 0 then bf m 1 0 else bf m 3 2) * 2 + b1 m 4
    let x : Mode := { w := w, h := h, dual := full && b1 m 10 = 1, lev := level (r - 2 + (if full && b1 m 9 = 1 then 6 else 0)) }
    if w > side || h > side || x.count > 64 || x.bits < 24 || x.bits > 96 then none else some x

/-! ### Partitions -/
def hash52 (p : Nat) : Nat :=
  let w := fun (x : Nat) => x % 2 ^ 32
  let p := p ^^^ p / 2 ^ 15
  let p := w (p + 2 ^ 32 - w (p * 2 ^ 17))
  let p := w (p + p * 2 ^ 7)
  let p := w (p + p * 2 ^ 4)
  let p := p ^^^ p / 2 ^ 5
  let p := w (p + p * 2 ^ 16)
  let p := p ^^^ p / 2 ^ 7
  let p := p ^^^ p / 2 ^ 3
  let p := p ^^^ w (p * 2 ^ 6)
  p ^^^ p / 2 ^ 17
/-- The partition of a texel of a block with `n` of them. -/
def partOf (side n seed x y : Nat) : Nat :=
  if n = 1 then 0
  else
    let x := if side = 4 then 2 * x else x
    let y := if side = 4 then 2 * y else y
    let r := hash52 (seed + (n - 1) * 1024)
    let s3 := if n = 3 then 6 else 5
    let s2 := if b1 seed 1 = 1 then 4 else 5
    let (sa, sb) := if seed % 2 = 1 then (s2, s3) else (s3, s2)
    let sd := fun (k : Nat) => (bf r (4 * k + 3) (4 * k)) ^ 2 / 2 ^ (if k % 2 = 0 then sa else sb)
    let at_ := fun (k off : Nat) => (sd k * x + sd (k + 1) * y + r / 2 ^ off) % 64
    let a := at_ 0 14
    let b := at_ 2 10
    let c := if n < 3 then 0 else at_ 4 6
    let d := if n < 4 then 0 else at_ 6 2
    if a ≥ b && a ≥ c && a ≥ d then 0 else if b ≥ c && b ≥ d then 1 else if c ≥ d then 2 else 3

/-! ### Endpoints -/
abbrev Colour := List Int
def contract (x : Colour) : Colour :=
  let b := (x[2]?).getD 0
  [((x[0]?).getD 0 + b) / 2, ((x[1]?).getD 0 + b) / 2, b, (x[3]?).getD 0]
def clampColour (c : Colour) : Colour := c.map fun x => max 0 (min 255 x)
/-- The pair (a, b) with the top bit of a moved to b: the offset a, signed, and the base b. -/
def transfer (a b : Nat) : Int × Int :=
  let x : Int := (a / 2 % 64 : Nat)
  (if x ≥ 32 then x - 64 else x, (b / 2 + a / 128 * 128 : Nat))
/-- The two endpoints of an LDR endpoint mode; none for an HDR mode. -/
def endpoints (cem : Nat) (v : Nat → Nat) : Option (Colour × Colour) :=
  let i := fun (k : Nat) => (v k : Int)
  let scale := fun (k : Nat) => ((v k * v 3 / 256 : Nat) : Int)
  let direct := fun (a0 a1 : Int) =>
    if v 1 + v 3 + v 5 ≥ v 0 + v 2 + v 4 then some ([i 0, i 2, i 4, a0], [i 1, i 3, i 5, a1])
    else some (contract [i 1, i 3, i 5, a1], contract [i 0, i 2, i 4, a0])
  let offset := fun (a0 a1 : Int) =>
    let (r, r0) := transfer (v 1) (v 0)
    let (g, g0) := transfer (v 3) (v 2)
    let (b, b0) := transfer (v 5) (v 4)
    let lo : Colour := [r0, g0, b0, a0]
    let hi : Colour := [r0 + r, g0 + g, b0 + b, a1]
    if r + g + b ≥ 0 then some (clampColour lo, clampColour hi) else some (clampColour (contract hi), clampColour (contract lo))
  match cem with
  | 0 => some ([i 0, i 0, i 0, 255], [i 1, i 1, i 1, 255])
  | 1 =>
    let l0 := v 0 / 4 + v 1 / 64 * 64
    let l1 := min 255 (l0 + v 1 % 64)
    some ([l0, l0, l0, 255], [l1, l1, l1, 255])
  | 4 => some ([i 0, i 0, i 0, i 2], [i 1, i 1, i 1, i 3])
  | 5 =>
    let (l, l0) := transfer (v 1) (v 0)
    let (a, a0) := transfer (v 3) (v 2)
    some (clampColour [l0, l0, l0, a0], clampColour [l0 + l, l0 + l, l0 + l, a0 + a])
  | 6 => some ([scale 0, scale 1, scale 2, 255], [i 0, i 1, i 2, 255])
  | 8 => direct 255 255
  | 9 => offset 255 255
  | 10 => some ([scale 0, scale 1, scale 2, i 4], [i 0, i 1, i 2, i 5])
  | 12 => direct (i 6) (i 7)
  | 13 => let (a, a0) := transfer (v 7) (v 6); offset a0 (a0 + a)
  | _ => none

/-! ### One texel -/
/-- What a block says of its partitions: their number, seed, endpoint modes, where the endpoint values start and how many bits below the
weights the modes take. -/
structure Parts where
  n : Nat
  seed : Nat
  cems : List Nat
  start : Nat
  extra : Nat
  deriving DecidableEq, Repr
def partsOf (b wbits : Nat) : Parts :=
  let n := bf b 12 11 + 1
  if n = 1 then { n := 1, seed := 0, cems := [bf b 16 13], start := 17, extra := 0 }
  else if bf b 24 23 = 0 then { n := n, seed := bf b 22 13, cems := List.replicate n (bf b 28 25), start := 29, extra := 0 }
  else
    let extra := 3 * n - 4
    let enc := bf b 28 23 + 64 * (b / 2 ^ (128 - wbits - extra) % 2 ^ extra)
    let cems := (List.range n).map fun k => (b1 enc (2 + k) + bf enc 1 0 - 1) * 4 + bf enc (2 + n + 2 * k + 1) (2 + n + 2 * k)
    { n := n, seed := bf b 22 13, cems := cems, start := 29, extra := extra }
def values (cem : Nat) : Nat := cem / 4 * 2 + 2
/-- The widest range whose sequence of `count` values fits in `room` bits. -/
def colourLevel (count room : Nat) : Option Nat := ((List.range 21).reverse.find? fun q => seqBits (level q) count ≤ room)
/-- The block's bits from the top down. -/
def reversed (b : Nat) : Nat := (List.range 128).foldl (fun a k => a * 2 + b1 b k) 0
/-- A weight of the grid brought to a texel. -/
def infill (side : Nat) (m : Mode) (x y : Nat) (w : Nat → Nat) : Nat :=
  let d := (1024 + side / 2) / (side - 1)
  let gs := (d * x * (m.w - 1) + 32) / 64
  let gt := (d * y * (m.h - 1) + 32) / 64
  let fs := gs % 16
  let ft := gt % 16
  let v := gs / 16 + gt / 16 * m.w
  let w11 := (fs * ft + 8) / 16
  (w v * (16 + w11 - fs - ft) + w (v + 1) * (fs - w11) + w (v + m.w) * (ft - w11) + w (v + m.w + 1) * w11 + 8) / 16
/-- One channel between its endpoints. UNVERIFIED (log 10): an endpoint is repeated to 16 bits, and the top 8 bits of the mix are the
channel. -/
def mixChannel (a b : Int) (w : Nat) : Nat := ((a.toNat * 257 * (64 - w) + b.toNat * 257 * w + 32) / 64) / 256
def word4 (c : List Nat) : Word := BitVec.ofNat 32 (leNat (c.map fun x => BitVec.ofNat 8 x))
/-- A block of one colour. -/
def voidExtent (b : Nat) : Option Word :=
  let e := [bf b 24 12, bf b 37 25, bf b 50 38, bf b 63 51]
  let at_ := fun (k : Nat) => (e[k]?).getD 0
  if b1 b 9 = 1 || bf b 11 10 ≠ 3 then none
  else if !(e.all (· = 8191)) && (at_ 0 ≥ at_ 1 || at_ 2 ≥ at_ 3) then none
  else some (word4 ((List.range 4).map fun k => bf b (79 + 16 * k) (72 + 16 * k)))
/-- A texel of a block; none for a block that the LDR profile treats as an error. -/
def texel (side : Nat) (block : BitVec 128) (x y : Nat) : Option Word :=
  let b := block.toNat
  if bf b 8 0 = 508 then voidExtent b
  else match modeOf side (bf b 10 0) with
    | none => none
    | some m =>
      let p := partsOf b m.bits
      let count := (p.cems.map values).sum
      let below := m.bits + p.extra + (if m.dual then 2 else 0)
      match colourLevel count (128 - p.start - below) with
      | none => none
      | some q =>
        let k := partOf side p.n p.seed x y
        let first := ((p.cems.take k).map values).sum
        let val := fun (j : Nat) => colourOf (level q) (seqAt (level q) count (b / 2 ^ p.start) (first + j))
        if (m.dual && p.n = 4) || count > 18 || q < 4 || p.cems.any (fun c => (endpoints c fun _ => 0).isNone) then none
        else match endpoints ((p.cems[k]?).getD 0) val with
          | none => none
          | some (e0, e1) =>
            let ws := reversed b
            let plane := fun (j : Nat) => infill side m x y fun i =>
              weightOf m.lev (seqAt m.lev m.count ws (if m.dual then 2 * i + j else i))
            let second := b / 2 ^ (128 - below) % 4
            some (word4 ((List.range 4).map fun c =>
              mixChannel ((e0[c]?).getD 0) ((e1[c]?).getD 0) (plane (if m.dual && second = c then 1 else 0))))

end Sys2Proof.Machine.Astc
end

