-- ==== Sys2Proof/Machine/Texture.lean ====
section
/-!
DEFINITION. Machine/Texture.lean: texture descriptors, formats, addressing and filtering, and major 0x39 (25 R380-R383, 26
R389-R394).
-/
namespace Sys2Proof.Machine
noncomputable section

/-! ### Descriptors (R380, R390) -/
structure Tex where
  base : Nat
  tag : Nat
  w : Nat
  h : Nat
  fmt : Nat
  levels : Nat
  filt : Nat
  au : Nat
  av : Nat
  deriving DecidableEq, Repr
def texOf (x : List Word) : Tex :=
  let w := fun k => (x[k]?).getD 0
  { base := (w 0).toNat + wbits (w 1) 19 0 * 2 ^ 32, tag := wbits (w 1) 27 24, w := wbits (w 2) 15 0, h := wbits (w 2) 31 16
    fmt := wbits (w 3) 2 0, levels := wbits (w 3) 7 4, filt := wbits (w 3) 9 8, au := wbits (w 3) 11 10, av := wbits (w 3) 13 12 }
/-- No reserved bit is set and no value is rejected. -/
def texOk (x : List Word) : Bool :=
  let w := fun k => (x[k]?).getD 0
  let t := texOf x
  t.base % 256 = 0 && wbits (w 1) 23 20 = 0 && wbits (w 1) 31 28 = 0 && t.w ≥ 1 && t.w ≤ 16384 && t.h ≥ 1 && t.h ≤ 16384 &&
  t.fmt ≤ 4 && !(w 3).getLsbD 3 && t.levels ≥ 1 && t.filt ≠ 3 && t.au ≠ 3 && t.av ≠ 3 && wbits (w 3) 31 14 = 0 &&
  w 4 = 0 && w 5 = 0 && w 6 = 0 && w 7 = 0
def Tex.levelW (t : Tex) (l : Nat) : Nat := max 1 (t.w / 2 ^ l)
def Tex.levelH (t : Tex) (l : Nat) : Nat := max 1 (t.h / 2 ^ l)
/-- Side of a block, and bytes of a texel or block. -/
def Tex.side (t : Tex) : Nat := match t.fmt with | 3 => 4 | 4 => 8 | _ => 1
def Tex.unit (t : Tex) : Nat := match t.fmt with | 0 | 2 => 4 | 1 => 8 | _ => 16
def Tex.blocksW (t : Tex) (l : Nat) : Nat := (t.levelW l + t.side - 1) / t.side
def Tex.blocksH (t : Tex) (l : Nat) : Nat := (t.levelH l + t.side - 1) / t.side
def Tex.levelAt (t : Tex) (l : Nat) : Nat :=
  ((List.range l).map fun k => (t.blocksW k * t.blocksH k * t.unit + 255) / 256 * 256).sum
/-- A texel: level, column, row. -/
structure Texel where
  l : Nat
  i : Nat
  j : Nat
  deriving DecidableEq, Repr
/-- Pointers of the 4-byte words that hold a texel, or its block; malformed past bit 51. -/
def Tex.pointers (t : Tex) (x : Texel) : List Dword :=
  let off := t.levelAt x.l + (x.j / t.side * t.blocksW x.l + x.i / t.side) * t.unit
  (List.range (t.unit / 4)).map fun k =>
    ptrPlus (BitVec.ofNat 32 t.base) (BitVec.ofNat 32 (t.base / 2 ^ 32 + t.tag * 2 ^ 24)) (off + 4 * k)

/-! ### Values (R381) -/
/-- Channels of a texel: numerators, over 255 in the UNORM formats. -/
def Tex.den (t : Tex) : Nat := match t.fmt with | 1 | 2 => 1 | _ => 255
def byteVal (w : Word) (k : Nat) : Val := .fin false (w.toNat / 256 ^ k % 256) 0
def Tex.channels (t : Tex) (x : Texel) (ws : List Word) : List Val :=
  let w := fun k => (ws[k]?).getD 0
  match t.fmt with
  | 0 => (List.range 4).map (byteVal (w 0))
  | 1 => (List.range 4).map fun k => fp16.val ((w (k / 2)).toNat / 65536 ^ (k % 2) % 65536)
  | 2 => [fp32.val (w 0).toNat, .fin false 0 0, .fin false 0 0, .fin false 1 0]
  | _ =>
    match Astc.texel t.side (w 3 ++ w 2 ++ w 1 ++ w 0) (x.i % t.side) (x.j % t.side) with
    | some c => (List.range 4).map (byteVal c)
    | none => [.fin false 255 0, .fin false 0 0, .fin false 255 0, .fin false 255 0]
/-- An exact channel sum over 2^shift and the denominator, rounded once. -/
def channelOut (den shift : Nat) (v : Val) : Word :=
  let v := match v with | .fin n m e => Val.fin n m (e - shift) | v => v
  BitVec.ofNat 32 (finish fp32 .rne false (if den = 1 then v.exact else (divV 26 v (.fin false den 0)).1)).bits
/-- A texel with no filter: R32F keeps the bits of r, but a NaN is the canonical one (R128). -/
def Tex.plain (t : Tex) (x : Texel) (ws : List Word) : List Word :=
  let r := (ws[0]?).getD 0
  if t.fmt = 2 then [if isNan32 r then 0x7FC00000 else r, 0, 0, 0x3F800000] else (t.channels x ws).map (channelOut t.den 0)

/-! ### Coordinates (R382, R383) -/
/-- A coordinate: NaN reads as 0, infinities as ±2^31. -/
def coord (w : Word) : Val :=
  match fp32.val w.toNat with
  | .nan _ => .fin false 0 0
  | .inf n => .fin n 2147483648 0
  | v => v
/-- ⌊v × k⌋. -/
def floorMul (v : Val) (k : Nat) : Int :=
  match v with
  | .fin n m e => if e ≥ 0 then scaled n (m * k) e.toNat else scaled n (m * k) 0 / 2 ^ (-e).toNat
  | _ => 0
/-- An index brought into [0, W − 1]. -/
def wrapAt (mode : Nat) (i : Int) (w : Nat) : Nat :=
  match mode with
  | 0 => (i % w).toNat
  | 1 => (min (max i 0) (w - 1)).toNat
  | _ => let m := (i % (2 * w)).toNat; if m < w then m else 2 * w - 1 - m
/-- 256 x + 128 is 256 u W: the texel and the fraction of a filtered coordinate. -/
def footprint (u : Word) (w : Nat) : Int × Nat :=
  let y := floorMul (coord u) (256 * w) - 128
  (y / 256, (y % 256).toNat)
/-- 256 λ, clamped to [0, LEVELS − 1]. -/
def Tex.lambda (t : Tex) (l : Word) : Nat :=
  let y : Int := match fp32.val l.toNat with
    | .nan _ => 0
    | .inf n => if n then 0 else 256 * (t.levels - 1 : Int)
    | v => floorMul v 256
  min y.toNat (256 * (t.levels - 1))
def Tex.at_ (t : Tex) (l : Nat) (i j : Int) : Texel := { l := l, i := wrapAt t.au i (t.levelW l), j := wrapAt t.av j (t.levelH l) }
/-- The four texels of a level with their weights over 65,536. -/
def Tex.bilinear (t : Tex) (l : Nat) (u v : Word) : List (Nat × Texel) :=
  let (i, f) := footprint u (t.levelW l)
  let (j, g) := footprint v (t.levelH l)
  [((256 - f) * (256 - g), t.at_ l i j), (f * (256 - g), t.at_ l (i + 1) j), ((256 - f) * g, t.at_ l i (j + 1)), (f * g, t.at_ l (i + 1) (j + 1))]
def Tex.nearest (t : Tex) (l : Nat) (u v : Word) : Texel :=
  t.at_ l (floorMul (coord u) (t.levelW l)) (floorMul (coord v) (t.levelH l))

/-- What a lane reads, and what it makes of it. -/
inductive TexWork where
  /-- texels of non-zero weight, summed over 2^shift -/
  | filter (shift : Nat) (l : List (Nat × Texel))
  | plain (x : Texel)
  /-- the red channel of each -/
  | reds (l : List Texel)
  | zero
  deriving DecidableEq, Repr
def TexWork.texels : TexWork → List Texel
  | .filter _ l => l.map (·.2)
  | .plain x => [x]
  | .reds l => l
  | .zero => []
def sampleWork (t : Tex) (u v lam : Word) : TexWork :=
  let y := t.lambda lam
  match t.filt with
  | 0 => .plain (t.nearest (y / 256) u v)
  | 1 => .filter 16 ((t.bilinear (y / 256) u v).filter fun p => p.1 ≠ 0)
  | _ =>
    let h := y % 256
    let lo := (t.bilinear (y / 256) u v).map fun p => ((256 - h) * p.1, p.2)
    let hi := if h = 0 then [] else (t.bilinear (y / 256 + 1) u v).map fun p => (h * p.1, p.2)
    .filter 24 ((lo ++ hi).filter fun p => p.1 ≠ 0)
def gatherWork (t : Tex) (u v lam : Word) : TexWork := .reds ((t.bilinear (t.lambda lam / 256) u v).map (·.2))
/-- R393. -/
def fetchWork (t : Tex) (i j l : Word) : TexWork :=
  if l.toNat ≥ t.levels || i.toInt < 0 || i.toInt ≥ t.levelW l.toNat || j.toInt < 0 || j.toInt ≥ t.levelH l.toNat then .zero
  else .plain { l := l.toNat, i := i.toNat, j := j.toNat }
/-- The four words of the result, from the words of each texel. -/
def TexWork.out (t : Tex) (w : TexWork) (read : Texel → List Word) : List Word :=
  match w with
  | .zero => [0, 0, 0, 0]
  | .plain x => t.plain x (read x)
  | .reds l => l.map fun x => ((t.plain x (read x))[0]?).getD 0
  | .filter shift l =>
    (List.range 4).map fun k =>
      let one := fun (p : Nat × Texel) => (mulV (.fin false p.1 0) (((t.channels p.2 (read p.2))[k]?).getD (.fin false 0 0))).toVal
      channelOut t.den shift (sumV .rne (l.map one))

/-! ### A lane's reads (R390) -/
def State.texRes (s : State) (L : Lane) (p : Dword) (n : Nat) : LRes := s.orFatal L p (s.resolve p n {} false (some L))
/-- An access `k` bytes further on. -/
def LRes.plus (k : Nat) : LRes → LRes
  | .mem leaf pa va => .mem leaf (pa + k) (va + BitVec.ofNat 64 k)
  | .remote leaf va => .remote leaf (va + BitVec.ofNat 64 k)
  | r => r
/-- The words of one load of n bytes. -/
def State.texWords (s : State) (r : LRes) (n : Nat) : List Word :=
  let x := s.seenVal n r
  (List.range (n / 4)).map fun k => BitVec.ofNat 32 (x / 2 ^ (32 * k))
/-- The loads of a descriptor: four of 8 bytes. -/
def LRes.eights (r : LRes) : List LRes := (List.range 4).map fun k => r.plus (8 * k)
/-- The first of a lane's accesses that stops it: a fault, poison, or a missing page. -/
inductive TexStop where
  | go
  | fault (c : Byte) (va : Dword)
  | park (r : LRes)
  deriving DecidableEq, Repr
/-- `hurt`: granules that met an uncorrectable error on their way. -/
def State.stopOf (s : State) (hurt : List Nat) (L : Lane) (n : Nat) (r : LRes) : TexStop :=
  match r with
  | .fault c va => .fault c va
  | .park _ _ => .park r
  | r => if s.datumPoison s.me hurt n (some L) r then .fault 0x0D r.va else .go
/-- What stops a lane, and the accesses it has made by then. -/
def State.firstStop (s : State) (hurt : List Nat) (L : Lane) : List LRes → TexStop × List LRes
  | [] => (.go, [])
  | r :: rs => match s.stopOf hurt L 4 r with
    | .go => let (x, l) := s.firstStop hurt L rs; (x, r :: l)
    | x => (x, [r])
/-- The texture of a lane: its descriptor, or what stops it; a bad descriptor is BOUNDS with its pointer. -/
def State.laneTex (s : State) (b : VReg) (L : Lane) : LRes × List Word :=
  let r := s.texRes L (s.src.readV64 b L) 32
  (r, r.eights.flatMap fun r => s.texWords r 8)
/-- Everything a lane does: what stops it, its accesses in order with their sizes, and its result. -/
structure TexLane where
  stop : TexStop
  reads : List (Nat × LRes) := []
  out : List Word := []
  deriving DecidableEq, Repr
/-- A lane's descriptor is read and judged, and `f` does the rest. A lane with a poisoned operand (`sick`) takes what its descriptor comes
to before ECCUE (R76). -/
def State.withTex (s : State) (b : VReg) (hurt : List Nat) (sick : Bool) (L : Lane) (f : Tex → TexLane) : TexLane :=
  let (r, ws) := s.laneTex b L
  match s.stopOf hurt L 32 r with
  | .go =>
    if !texOk ws then { stop := .fault 0x04 (s.src.readV64 b L), reads := [(32, r)] }
    else if sick then { stop := .fault 0x0D r.va }
    else
      let x := f (texOf ws)
      { x with reads := (32, r) :: x.reads }
  | x => { stop := x, reads := [(32, r)] }
def State.texLane (s : State) (b : VReg) (work : Tex → Lane → TexWork) (hurt : List Nat) (sick : Bool) (L : Lane) : TexLane :=
  s.withTex b hurt sick L fun t =>
    let w := work t L
    let (x, rs) := s.firstStop hurt L ((w.texels.flatMap t.pointers).map fun p => s.texRes L p 4)
    { stop := x, reads := rs.map fun r => (4, r), out := w.out t fun x => (t.pointers x).flatMap fun p => s.texWords (s.texRes L p 4) 4 }
/-- Every lane reads the state as the word found it, after the lines it reads are kept. `f`: a lane's work, where `sick` lanes read a poisoned
operand and given granules reached the word as poison. -/
def texBody (i : Instr) (g : Bool) (d : VReg) (n : Nat) (sick : Mask) (f : State → List Nat → Bool → Lane → TexLane) (s0 : State) : State :=
  let lanes := s0.lanes g
  let keep := fun (s : State) (L : Lane) =>
    (f s0 [] (sick.getLsbD L.val) L).reads.foldl (fun s r => State.fillFor r.1 3 .normal (fun _ => r.2) s L) s
  let s := (lanesOf lanes).foldl keep s0
  let out := fun (L : Lane) => f s0 s.latch.hurt (sick.getLsbD L.val) L
  let ok := maskOf fun L => lanes.getLsbD L.val && (out L).stop = .go
  let t := s.raiseEach lanes fun L => match (out L).stop with | .fault c va => some (c, va) | _ => none
  let t := t.setVlist d ok (fun L => (out L).out) n
  let t := (lanesOf ok).foldl (fun t L => (out L).reads.foldl (fun t r =>
    (if r.1 = 32 then r.2.eights else [r.2]).foldl (fun t r => t.sawPast (s0.pastFrom r) r) t) t) t
  t.parkOn i (parksOf false lanes fun L => match (out L).stop with | .park r => r | _ => .drop 0)
def texWord (i : Instr) (g : Bool) (d a b : VReg) (work : Tex → Word → Word → Word → TexWork) : State → Out :=
  issueSeq i fun s0 =>
    texBody i g d 4 (s0.src.poisonIn i.names.vr (s0.lanes g)) (fun s hurt sick L =>
      s.texLane b (fun t L => work t (s.src.readV a L) (s.src.readV (vreg a 1) L) (s.src.readV (vreg a 2) L)) hurt sick L) s0
def execTexSample (g : Bool) (d a b : VReg) : State → Out := texWord (.texSample g d a b) g d a b sampleWork
def execTexFetch (g : Bool) (d a b : VReg) : State → Out := texWord (.texFetch g d a b) g d a b fetchWork
def execTexGather4 (g : Bool) (d a b : VReg) : State → Out := texWord (.texGather4 g d a b) g d a b gatherWork

/-! ### `tex.lod` (R392) -/
def rnd32 (x : Exact) : Nat := (finish fp32 .rne false x).bits
def sub32 (a b : Word) : Nat := rnd32 (addV .rne (fp32.val a.toNat) (fp32.val b.toNat).neg)
def mul32 (a b : Nat) : Nat := rnd32 (mulV (fp32.val a) (fp32.val b))
def add32 (a b : Nat) : Nat := rnd32 (addV .rne (fp32.val a) (fp32.val b))
def nat32 (n : Nat) : Nat := rnd32 (.val false n 0 false)
def hyp32 (x y : Nat) : Nat := rnd32 (sqrtV 26 (fp32.val (add32 (mul32 x x) (mul32 y y))))
/-- Differences of u and v between pixel 0 of the lane quad and pixel k, scaled. -/
def lodDiff (g : Group) (a : VReg) (t : Tex) (b0 k : Nat) : Nat × Nat :=
  match g.present b0, g.present (b0 + k) with
  | some p, some q =>
    (mul32 (sub32 (g.readV a q) (g.readV a p)) (nat32 t.w), mul32 (sub32 (g.readV (vreg a 1) q) (g.readV (vreg a 1) p)) (nat32 t.h))
  | _, _ => (0, 0)
def lodOf (g : Group) (a : VReg) (t : Tex) (L : Lane) : Word :=
  let b0 := 4 * (L.val / 4)
  let (ux, vx) := lodDiff g a t b0 1
  let (uy, vy) := lodDiff g a t b0 2
  let rho := (maxNum fp32 (hyp32 ux vx) (hyp32 uy vy)).bits
  BitVec.ofNat 32 (add32 (fnResult .lg2 false (BitVec.ofNat 32 rho)).bits (g.readV (vreg a 2) L).toNat)
/-- A poisoned coordinate that a difference of the quad reads reaches the lane. -/
def lodSick (g : Group) (a : VReg) (L : Lane) : Bool :=
  let hurt := fun (j : Lane) => g.regs.vpois[a].getLsbD j.val || g.regs.vpois[vreg a 1].getLsbD j.val
  let b0 := 4 * (L.val / 4)
  [1, 2].any fun k => match g.present b0, g.present (b0 + k) with
    | some p, some q => hurt p || hurt q
    | _, _ => false
/-- `tex.lod` reads its lane's descriptor pointer and bias and the coordinates of its quad. -/
def execTexLod (g : Bool) (d a b : VReg) : State → Out :=
  issueSeq (.texLod g d a b) fun s0 =>
    let own := s0.src.poisonIn [vreg a 2, b, vreg b 1] (s0.lanes g)
    texBody (.texLod g d a b) g d 1 (own ||| maskOf (lodSick s0.src a)) (fun s hurt sick L =>
      s.withTex b hurt sick L fun t => { stop := .go, out := [lodOf s.src a t L] }) s0

end
end Sys2Proof.Machine
end

