-- ==== Sys2Proof/Machine/Dispatch.lean ====
section
/-!
DEFINITION. Machine/Dispatch.lean: one arm per constructor of `Instr`, each one call of its meaning. `exec` is noncomputable only because
Lean's compiler allows no inductive type more than some 240 constructors that carry data; the kernel evaluates it.
-/
namespace Sys2Proof.Machine
open Sys2Proof in noncomputable
def exec (i : Instr) (s : State) : Host.Outcome State Fault Refusal :=
  match i with
  | .notchTicket => Sys2Proof.Machine.execNotchTicket s
  | .fenceWbComplete gid slot => Sys2Proof.Machine.execFenceWbComplete gid slot s
  | .copyAccept cid => Sys2Proof.Machine.execCopyAccept cid s
  | .copyComplete cid => Sys2Proof.Machine.execCopyComplete cid s
  | .putsigComplete cid => Sys2Proof.Machine.execPutsigComplete cid s
  | .qpopTake gid slot => Sys2Proof.Machine.execQpopTake gid slot s
  | .basinPerform bid => Sys2Proof.Machine.execBasinPerform bid s
  | .matrixPerform core => Sys2Proof.Machine.execMatrixPerform core s
  | .mmaComplete core => Sys2Proof.Machine.execMmaComplete core s
  | .spanSlave core => Sys2Proof.Machine.execSpanSlave core s
  | .spanFree core => Sys2Proof.Machine.execSpanFree core s
  | .reservationFree core rid => Sys2Proof.Machine.execReservationFree core rid s
  | .tflushComplete gid slot => Sys2Proof.Machine.execTflushComplete gid slot s
  | .vgrowGrant core simd => Sys2Proof.Machine.execVgrowGrant core simd s
  | .vshrinkRelease gid => Sys2Proof.Machine.execVshrinkRelease gid s
  | .illegalWord => Sys2Proof.Machine.execIllegalWord s
  | .illegalPacket k => Sys2Proof.Machine.execIllegalPacket k s
  | .fetchFault fatal => Sys2Proof.Machine.execFetchFault fatal s
  | .ageForce gid => Sys2Proof.Machine.execAgeForce gid s
  | .trapEntry cause pc => Sys2Proof.Machine.execTrapEntry cause pc s
  | .groupHalt gid code => Sys2Proof.Machine.execGroupHalt gid code s
  | .pageFaultReplay gid => Sys2Proof.Machine.execPageFaultReplay gid s
  | .workgroupRetire wid => Sys2Proof.Machine.execWorkgroupRetire wid s
  | .sleepExpiry gid slot => Sys2Proof.Machine.execSleepExpiry gid slot s
  | .yieldPassEnd gid => Sys2Proof.Machine.execYieldPassEnd gid s
  | .issueBoost gid => Sys2Proof.Machine.execIssueBoost gid s
  | .turnPass => Sys2Proof.Machine.execTurnPass s
  | .regionRestart wid core => Sys2Proof.Machine.execRegionRestart wid core s
  | .launchStart q => Sys2Proof.Machine.execLaunchStart q s
  | .launchComplete lid => Sys2Proof.Machine.execLaunchComplete lid s
  | .launchSlotsEnd lid => Sys2Proof.Machine.execLaunchSlotsEnd lid s
  | .workgroupAdmit lid stage core => Sys2Proof.Machine.execWorkgroupAdmit lid stage core s
  | .methodGroupForm lid handle tile block => Sys2Proof.Machine.execMethodGroupForm lid handle tile block s
  | .rasterRecord lid => Sys2Proof.Machine.execRasterRecord lid s
  | .rasterTile lid handle tile => Sys2Proof.Machine.execRasterTile lid handle tile s
  | .tileCommit lid handle tile => Sys2Proof.Machine.execTileCommit lid handle tile s
  | .graceExpiry ctx => Sys2Proof.Machine.execGraceExpiry ctx s
  | .killExpiry ctx => Sys2Proof.Machine.execKillExpiry ctx s
  | .contextSave ctx => Sys2Proof.Machine.execContextSave ctx s
  | .saveComplete ctx => Sys2Proof.Machine.execSaveComplete ctx s
  | .ctxbind ctx addr => Sys2Proof.Machine.execCtxbind ctx addr s
  | .ctxfree ctx => Sys2Proof.Machine.execCtxfree ctx s
  | .qbind q addr => Sys2Proof.Machine.execQbind q addr s
  | .preempt ctx => Sys2Proof.Machine.execPreempt ctx s
  | .cancel ctx => Sys2Proof.Machine.execCancel ctx s
  | .restore ctx => Sys2Proof.Machine.execRestore ctx s
  | .invpage part asid va => Sys2Proof.Machine.execInvpage part asid va s
  | .invas part asid => Sys2Proof.Machine.execInvas part asid s
  | .invpart part => Sys2Proof.Machine.execInvpart part s
  | .resolve tag => Sys2Proof.Machine.execResolve tag s
  | .fatal tag => Sys2Proof.Machine.execFatal tag s
  | .resume ctx place => Sys2Proof.Machine.execResume ctx place s
  | .hostEnd ctx place => Sys2Proof.Machine.execHostEnd ctx place s
  | .hostup => Sys2Proof.Machine.execHostup s
  | .flr fn => Sys2Proof.Machine.execFlr fn s
  | .doorbell q n => Sys2Proof.Machine.execDoorbell q n s
  | .evack n => Sys2Proof.Machine.execEvack n s
  | .eventRingConfig which x => Sys2Proof.Machine.execEventRingConfig which x s
  | .counterClear off x => Sys2Proof.Machine.execCounterClear off x s
  | .registerWrite off x => Sys2Proof.Machine.execRegisterWrite off x s
  | .partitionEnable part => Sys2Proof.Machine.execPartitionEnable part s
  | .partitionDisable part => Sys2Proof.Machine.execPartitionDisable part s
  | .flip part => Sys2Proof.Machine.execFlip part s
  | .flipComplete part => Sys2Proof.Machine.execFlipComplete part s
  | .wbreq part => Sys2Proof.Machine.execWbreq part s
  | .wbreqComplete part => Sys2Proof.Machine.execWbreqComplete part s
  | .landingEntryWrite idx words => Sys2Proof.Machine.execLandingEntryWrite idx words s
  | .landingPacket idx rank off data => Sys2Proof.Machine.execLandingPacket idx rank off data s
  | .stackFlitReceive stack ok => Sys2Proof.Machine.execStackFlitReceive stack ok s
  | .linkRetrain stack => Sys2Proof.Machine.execLinkRetrain stack s
  | .retrainComplete stack ok => Sys2Proof.Machine.execRetrainComplete stack ok s
  | .beljoFlitReceive port ok => Sys2Proof.Machine.execBeljoFlitReceive port ok s
  | .remoteAccess part asid req => Sys2Proof.Machine.execRemoteAccess part asid req s
  | .remoteAccessTimeout port gid load lanes => Sys2Proof.Machine.execRemoteAccessTimeout port gid load lanes s
  | .hostMemoryAccess pa store => Sys2Proof.Machine.execHostMemoryAccess pa store s
  | .hostLinkDown => Sys2Proof.Machine.execHostLinkDown s
  | .deviceReset images => Sys2Proof.Machine.execDeviceReset images s
  | .idleEntry => Sys2Proof.Machine.execIdleEntry s
  | .idleExit => Sys2Proof.Machine.execIdleExit s
  | .clockStep => Sys2Proof.Machine.execClockStep s
  | .laneDefect unit lane => Sys2Proof.Machine.execLaneDefect unit lane s
  | .laneSpareSteer unit => Sys2Proof.Machine.execLaneSpareSteer unit s
  | .selfTestStart unit => Sys2Proof.Machine.execSelfTestStart unit s
  | .selfTestEnd unit => Sys2Proof.Machine.execSelfTestEnd unit s
  | .keyChange rid => Sys2Proof.Machine.execKeyChange rid s
  | .attestationReport part nonce => Sys2Proof.Machine.execAttestationReport part nonce s
  | .mrExtend part reg digest => Sys2Proof.Machine.execMrExtend part reg digest s
  | .softError place => Sys2Proof.Machine.execSoftError place s
  | .commandCompletion => Sys2Proof.Machine.execCommandCompletion s
  | .tileMoveComplete core => Sys2Proof.Machine.execTileMoveComplete core s
  | .add m g d a b => Sys2Proof.Machine.execAdd m g d a b s
  | .sub m g d a b => Sys2Proof.Machine.execSub m g d a b s
  | .minS g d a b => Sys2Proof.Machine.execMinS g d a b s
  | .maxS g d a b => Sys2Proof.Machine.execMaxS g d a b s
  | .minN g d a b => Sys2Proof.Machine.execMinN g d a b s
  | .maxN g d a b => Sys2Proof.Machine.execMaxN g d a b s
  | .absd m g d a b => Sys2Proof.Machine.execAbsd m g d a b s
  | .and g d a b => Sys2Proof.Machine.execAnd g d a b s
  | .or g d a b => Sys2Proof.Machine.execOr g d a b s
  | .xor g d a b => Sys2Proof.Machine.execXor g d a b s
  | .andn g d a b => Sys2Proof.Machine.execAndn g d a b s
  | .shl g d a b => Sys2Proof.Machine.execShl g d a b s
  | .shr g d a b => Sys2Proof.Machine.execShr g d a b s
  | .sar g d a b => Sys2Proof.Machine.execSar g d a b s
  | .mul g d a b => Sys2Proof.Machine.execMul g d a b s
  | .mulhS g d a b => Sys2Proof.Machine.execMulhS g d a b s
  | .mulhN g d a b => Sys2Proof.Machine.execMulhN g d a b s
  | .mad g d a b => Sys2Proof.Machine.execMad g d a b s
  | .dot4S8 g d a b => Sys2Proof.Machine.execDot4S8 g d a b s
  | .popc g d a => Sys2Proof.Machine.execPopc g d a s
  | .clz g d a => Sys2Proof.Machine.execClz g d a s
  | .eq g d a b => Sys2Proof.Machine.execEq g d a b s
  | .ne g d a b => Sys2Proof.Machine.execNe g d a b s
  | .ltS g d a b => Sys2Proof.Machine.execLtS g d a b s
  | .leS g d a b => Sys2Proof.Machine.execLeS g d a b s
  | .ltN g d a b => Sys2Proof.Machine.execLtN g d a b s
  | .leN g d a b => Sys2Proof.Machine.execLeN g d a b s
  | .test g d a b => Sys2Proof.Machine.execTest g d a b s
  | .addi g d a imm => Sys2Proof.Machine.execAddi g d a imm s
  | .andi g d a imm => Sys2Proof.Machine.execAndi g d a imm s
  | .ori g d a imm => Sys2Proof.Machine.execOri g d a imm s
  | .xori g d a imm => Sys2Proof.Machine.execXori g d a imm s
  | .shli g d a imm => Sys2Proof.Machine.execShli g d a imm s
  | .shri g d a imm => Sys2Proof.Machine.execShri g d a imm s
  | .sari g d a imm => Sys2Proof.Machine.execSari g d a imm s
  | .movi g d imm => Sys2Proof.Machine.execMovi g d imm s
  | .mov g d b => Sys2Proof.Machine.execMov g d b s
  | .sel g d a b => Sys2Proof.Machine.execSel g d a b s
  | .selu g d a b => Sys2Proof.Machine.execSelu g d a b s
  | .bfeN g d a b => Sys2Proof.Machine.execBfeN g d a b s
  | .bfeS g d a b => Sys2Proof.Machine.execBfeS g d a b s
  | .bfi g d a b => Sys2Proof.Machine.execBfi g d a b s
  | .laneid g d => Sys2Proof.Machine.execLaneid g d s
  | .fadd m g d a b => Sys2Proof.Machine.execFadd m g d a b s
  | .fsub m g d a b => Sys2Proof.Machine.execFsub m g d a b s
  | .fmul m g d a b => Sys2Proof.Machine.execFmul m g d a b s
  | .ffma m g d a b => Sys2Proof.Machine.execFfma m g d a b s
  | .ffms m g d a b => Sys2Proof.Machine.execFfms m g d a b s
  | .fnfma m g d a b => Sys2Proof.Machine.execFnfma m g d a b s
  | .fmin m g d a b => Sys2Proof.Machine.execFmin m g d a b s
  | .fmax m g d a b => Sys2Proof.Machine.execFmax m g d a b s
  | .fdiv m g d a b => Sys2Proof.Machine.execFdiv m g d a b s
  | .fsqrt m g d a => Sys2Proof.Machine.execFsqrt m g d a s
  | .frcp g d a => Sys2Proof.Machine.execFrcp g d a s
  | .frsq g d a => Sys2Proof.Machine.execFrsq g d a s
  | .fex2 g d a => Sys2Proof.Machine.execFex2 g d a s
  | .flg2 g d a => Sys2Proof.Machine.execFlg2 g d a s
  | .fsin g d a => Sys2Proof.Machine.execFsin g d a s
  | .fcos g d a => Sys2Proof.Machine.execFcos g d a s
  | .feq g d a b => Sys2Proof.Machine.execFeq g d a b s
  | .fne g d a b => Sys2Proof.Machine.execFne g d a b s
  | .flt g d a b => Sys2Proof.Machine.execFlt g d a b s
  | .fle g d a b => Sys2Proof.Machine.execFle g d a b s
  | .funord g d a b => Sys2Proof.Machine.execFunord g d a b s
  | .fcls g d a k => Sys2Proof.Machine.execFcls g d a k s
  | .dadd m g d a b => Sys2Proof.Machine.execDadd m g d a b s
  | .dsub m g d a b => Sys2Proof.Machine.execDsub m g d a b s
  | .dmul m g d a b => Sys2Proof.Machine.execDmul m g d a b s
  | .dfma m g d a b => Sys2Proof.Machine.execDfma m g d a b s
  | .ddiv m g d a b => Sys2Proof.Machine.execDdiv m g d a b s
  | .dsqrt m g d a => Sys2Proof.Machine.execDsqrt m g d a s
  | .hadd2 m g d a b => Sys2Proof.Machine.execHadd2 m g d a b s
  | .hmul2 m g d a b => Sys2Proof.Machine.execHmul2 m g d a b s
  | .hfma2 m g d a b => Sys2Proof.Machine.execHfma2 m g d a b s
  | .badd2 m g d a b => Sys2Proof.Machine.execBadd2 m g d a b s
  | .bmul2 m g d a b => Sys2Proof.Machine.execBmul2 m g d a b s
  | .bfma2 m g d a b => Sys2Proof.Machine.execBfma2 m g d a b s
  | .cvtF32I32 m g d a => Sys2Proof.Machine.execCvtF32I32 m g d a s
  | .cvtI32F32 m g d a => Sys2Proof.Machine.execCvtI32F32 m g d a s
  | .cvtF32N32 m g d a => Sys2Proof.Machine.execCvtF32N32 m g d a s
  | .cvtN32F32 m g d a => Sys2Proof.Machine.execCvtN32F32 m g d a s
  | .cvtF32F16 m g d a => Sys2Proof.Machine.execCvtF32F16 m g d a s
  | .cvtF16x2F32 m g d a b => Sys2Proof.Machine.execCvtF16x2F32 m g d a b s
  | .cvtF64F32 m g d a => Sys2Proof.Machine.execCvtF64F32 m g d a s
  | .cvtF32F64 m g d a => Sys2Proof.Machine.execCvtF32F64 m g d a s
  | .cvtF32Bf16 m g d a => Sys2Proof.Machine.execCvtF32Bf16 m g d a s
  | .cvtBf16x2F32 m g d a b => Sys2Proof.Machine.execCvtBf16x2F32 m g d a b s
  | .cvtF32E4m3 m g d a => Sys2Proof.Machine.execCvtF32E4m3 m g d a s
  | .cvtE4m3x2F32 m g d a b => Sys2Proof.Machine.execCvtE4m3x2F32 m g d a b s
  | .cvtF32E5m2 m g d a => Sys2Proof.Machine.execCvtF32E5m2 m g d a s
  | .cvtE5m2x2F32 m g d a b => Sys2Proof.Machine.execCvtE5m2x2F32 m g d a b s
  | .unpk4S m g d a b => Sys2Proof.Machine.execUnpk4S m g d a b s
  | .unpk4N m g d a b => Sys2Proof.Machine.execUnpk4N m g d a b s
  | .iadd m g d a b => Sys2Proof.Machine.execIadd m g d a b s
  | .isub m g d a b => Sys2Proof.Machine.execIsub m g d a b s
  | .imul m g d a b => Sys2Proof.Machine.execImul m g d a b s
  | .idiv m g d a b => Sys2Proof.Machine.execIdiv m g d a b s
  | .isqr m g d a => Sys2Proof.Machine.execIsqr m g d a s
  | .ihull m g d a b => Sys2Proof.Machine.execIhull m g d a b s
  | .isect m g d a b => Sys2Proof.Machine.execIsect m g d a b s
  | .iwid m g d a => Sys2Proof.Machine.execIwid m g d a s
  | .isqrt m g d a => Sys2Proof.Machine.execIsqrt m g d a s
  | .iabs m g d a => Sys2Proof.Machine.execIabs m g d a s
  | .ineg m g d a => Sys2Proof.Machine.execIneg m g d a s
  | .imid m g d a => Sys2Proof.Machine.execImid m g d a s
  | .isplit m g d a => Sys2Proof.Machine.execIsplit m g d a s
  | .imake m g d a b => Sys2Proof.Machine.execImake m g d a b s
  | .ipt m g d a => Sys2Proof.Machine.execIpt m g d a s
  | .ilt m g d a b => Sys2Proof.Machine.execIlt m g d a b s
  | .ile m g d a b => Sys2Proof.Machine.execIle m g d a b s
  | .ieq m g d a b => Sys2Proof.Machine.execIeq m g d a b s
  | .ine m g d a b => Sys2Proof.Machine.execIne m g d a b s
  | .isubset m g d a b => Sys2Proof.Machine.execIsubset m g d a b s
  | .icont m g d a b => Sys2Proof.Machine.execIcont m g d a b s
  | .iempty m g d a => Sys2Proof.Machine.execIempty m g d a s
  | .pand g d a b => Sys2Proof.Machine.execPand g d a b s
  | .por g d a b => Sys2Proof.Machine.execPor g d a b s
  | .pnot g d a => Sys2Proof.Machine.execPnot g d a s
  | .pxor g d a b => Sys2Proof.Machine.execPxor g d a b s
  | .pdf g d a => Sys2Proof.Machine.execPdf g d a s
  | .pdt g d a => Sys2Proof.Machine.execPdt g d a s
  | .pset g d k => Sys2Proof.Machine.execPset g d k s
  | .pund g d a => Sys2Proof.Machine.execPund g d a s
  | .shflIdx g d a b => Sys2Proof.Machine.execShflIdx g d a b s
  | .shflUp g d a b => Sys2Proof.Machine.execShflUp g d a b s
  | .shflDn g d a b => Sys2Proof.Machine.execShflDn g d a b s
  | .shflXor g d a b => Sys2Proof.Machine.execShflXor g d a b s
  | .bcast g d a b => Sys2Proof.Machine.execBcast g d a b s
  | .redadd g d a => Sys2Proof.Machine.execRedadd g d a s
  | .vote g d a => Sys2Proof.Machine.execVote g d a s
  | .ballot g d a => Sys2Proof.Machine.execBallot g d a s
  | .xaadd x g a => Sys2Proof.Machine.execXaadd x g a s
  | .xachk x => Sys2Proof.Machine.execXachk x s
  | .xadrn x g d => Sys2Proof.Machine.execXadrn x g d s
  | .xatst x g d b => Sys2Proof.Machine.execXatst x g d b s
  | .xaclr x => Sys2Proof.Machine.execXaclr x s
  | .xard x g d b => Sys2Proof.Machine.execXard x g d b s
  | .xastat x g d => Sys2Proof.Machine.execXastat x g d s
  | .sAdd d a b => Sys2Proof.Machine.execSAdd d a b s
  | .sSub d a b => Sys2Proof.Machine.execSSub d a b s
  | .sAnd d a b => Sys2Proof.Machine.execSAnd d a b s
  | .sOr d a b => Sys2Proof.Machine.execSOr d a b s
  | .sXor d a b => Sys2Proof.Machine.execSXor d a b s
  | .sShl d a b => Sys2Proof.Machine.execSShl d a b s
  | .sShr d a b => Sys2Proof.Machine.execSShr d a b s
  | .sSar d a b => Sys2Proof.Machine.execSSar d a b s
  | .sMul d a b => Sys2Proof.Machine.execSMul d a b s
  | .sMulhS d a b => Sys2Proof.Machine.execSMulhS d a b s
  | .sMulhN d a b => Sys2Proof.Machine.execSMulhN d a b s
  | .sMinS d a b => Sys2Proof.Machine.execSMinS d a b s
  | .sMaxS d a b => Sys2Proof.Machine.execSMaxS d a b s
  | .sSltS d a b => Sys2Proof.Machine.execSSltS d a b s
  | .sSltN d a b => Sys2Proof.Machine.execSSltN d a b s
  | .sSeq d a b => Sys2Proof.Machine.execSSeq d a b s
  | .sAddi d a imm => Sys2Proof.Machine.execSAddi d a imm s
  | .sAndi d a imm => Sys2Proof.Machine.execSAndi d a imm s
  | .sOri d a imm => Sys2Proof.Machine.execSOri d a imm s
  | .sXori d a imm => Sys2Proof.Machine.execSXori d a imm s
  | .sShli d a imm => Sys2Proof.Machine.execSShli d a imm s
  | .sShri d a imm => Sys2Proof.Machine.execSShri d a imm s
  | .sSari d a imm => Sys2Proof.Machine.execSSari d a imm s
  | .sSltiS d a imm => Sys2Proof.Machine.execSSltiS d a imm s
  | .sMovi d imm => Sys2Proof.Machine.execSMovi d imm s
  | .movh d imm => Sys2Proof.Machine.execMovh d imm s
  | .add64 d a b => Sys2Proof.Machine.execAdd64 d a b s
  | .sub64 d a b => Sys2Proof.Machine.execSub64 d a b s
  | .addz64 d a b => Sys2Proof.Machine.execAddz64 d a b s
  | .mov64 d a => Sys2Proof.Machine.execMov64 d a s
  | .stov d a => Sys2Proof.Machine.execStov d a s
  | .vtos d a b => Sys2Proof.Machine.execVtos d a b s
  | .vtosf d a => Sys2Proof.Machine.execVtosf d a s
  | .ssel d a b => Sys2Proof.Machine.execSsel d a b s
  | .brp sn p t r => Sys2Proof.Machine.execBrp sn p t r s
  | .brs k a o => Sys2Proof.Machine.execBrs k a o s
  | .jmp o => Sys2Proof.Machine.execJmp o s
  | .call o => Sys2Proof.Machine.execCall o s
  | .ret => Sys2Proof.Machine.execRet s
  | .jmpr a => Sys2Proof.Machine.execJmpr a s
  | .callr a => Sys2Proof.Machine.execCallr a s
  | .exit => Sys2Proof.Machine.execExit s
  | .kill => Sys2Proof.Machine.execKill s
  | .brk => Sys2Proof.Machine.execBrk s
  | .nop => Sys2Proof.Machine.execNop s
  | .yield => Sys2Proof.Machine.execYield s
  | .brpl sn p r off => Sys2Proof.Machine.execBrpl sn p r off s
  | .loop l a e => Sys2Proof.Machine.execLoop l a e s
  | .loopi l k e => Sys2Proof.Machine.execLoopi l k e s
  | .lbrk l => Sys2Proof.Machine.execLbrk l s
  | .bar n => Sys2Proof.Machine.execBar n s
  | .bararr n => Sys2Proof.Machine.execBararr n s
  | .barwait n => Sys2Proof.Machine.execBarwait n s
  | .abinit d k => Sys2Proof.Machine.execAbinit d k s
  | .abarr d k => Sys2Proof.Machine.execAbarr d k s
  | .abwait d p => Sys2Proof.Machine.execAbwait d p s
  | .sleep n => Sys2Proof.Machine.execSleep n s
  | .wtok d => Sys2Proof.Machine.execWtok d s
  | .rgn => Sys2Proof.Machine.execRgn s
  | .rgnT => Sys2Proof.Machine.execRgnT s
  | .rgnend => Sys2Proof.Machine.execRgnend s
  | .ld8n m g d ad => Sys2Proof.Machine.execLd8n m g d ad s
  | .ld8s m g d ad => Sys2Proof.Machine.execLd8s m g d ad s
  | .ld16n m g d ad => Sys2Proof.Machine.execLd16n m g d ad s
  | .ld16s m g d ad => Sys2Proof.Machine.execLd16s m g d ad s
  | .ld32 m g d ad => Sys2Proof.Machine.execLd32 m g d ad s
  | .ld64 m g d ad => Sys2Proof.Machine.execLd64 m g d ad s
  | .ld128 m g d ad => Sys2Proof.Machine.execLd128 m g d ad s
  | .ldi m g d ad => Sys2Proof.Machine.execLdi m g d ad s
  | .st8 m g d ad => Sys2Proof.Machine.execSt8 m g d ad s
  | .st16 m g d ad => Sys2Proof.Machine.execSt16 m g d ad s
  | .st32 m g d ad => Sys2Proof.Machine.execSt32 m g d ad s
  | .st64 m g d ad => Sys2Proof.Machine.execSt64 m g d ad s
  | .st128 m g d ad => Sys2Proof.Machine.execSt128 m g d ad s
  | .sti m g d ad => Sys2Proof.Machine.execSti m g d ad s
  | .ldb8n m g d ad => Sys2Proof.Machine.execLdb8n m g d ad s
  | .ldb8s m g d ad => Sys2Proof.Machine.execLdb8s m g d ad s
  | .ldb16n m g d ad => Sys2Proof.Machine.execLdb16n m g d ad s
  | .ldb16s m g d ad => Sys2Proof.Machine.execLdb16s m g d ad s
  | .ldb32 m g d ad => Sys2Proof.Machine.execLdb32 m g d ad s
  | .ldb64 m g d ad => Sys2Proof.Machine.execLdb64 m g d ad s
  | .ldb128 m g d ad => Sys2Proof.Machine.execLdb128 m g d ad s
  | .ldbi m g d ad => Sys2Proof.Machine.execLdbi m g d ad s
  | .stb8 m g d ad => Sys2Proof.Machine.execStb8 m g d ad s
  | .stb16 m g d ad => Sys2Proof.Machine.execStb16 m g d ad s
  | .stb32 m g d ad => Sys2Proof.Machine.execStb32 m g d ad s
  | .stb64 m g d ad => Sys2Proof.Machine.execStb64 m g d ad s
  | .stb128 m g d ad => Sys2Proof.Machine.execStb128 m g d ad s
  | .stbi m g d ad => Sys2Proof.Machine.execStbi m g d ad s
  | .ldc8n m g d ad => Sys2Proof.Machine.execLdc8n m g d ad s
  | .ldc8s m g d ad => Sys2Proof.Machine.execLdc8s m g d ad s
  | .ldc16n m g d ad => Sys2Proof.Machine.execLdc16n m g d ad s
  | .ldc16s m g d ad => Sys2Proof.Machine.execLdc16s m g d ad s
  | .ldc32 m g d ad => Sys2Proof.Machine.execLdc32 m g d ad s
  | .ldc64 m g d ad => Sys2Proof.Machine.execLdc64 m g d ad s
  | .ldc128 m g d ad => Sys2Proof.Machine.execLdc128 m g d ad s
  | .ldci m g d ad => Sys2Proof.Machine.execLdci m g d ad s
  | .stc8 m g d ad => Sys2Proof.Machine.execStc8 m g d ad s
  | .stc16 m g d ad => Sys2Proof.Machine.execStc16 m g d ad s
  | .stc32 m g d ad => Sys2Proof.Machine.execStc32 m g d ad s
  | .stc64 m g d ad => Sys2Proof.Machine.execStc64 m g d ad s
  | .stc128 m g d ad => Sys2Proof.Machine.execStc128 m g d ad s
  | .stci m g d ad => Sys2Proof.Machine.execStci m g d ad s
  | .atomAdd m g d ad => Sys2Proof.Machine.execAtomAdd m g d ad s
  | .atomMinS m g d ad => Sys2Proof.Machine.execAtomMinS m g d ad s
  | .atomMaxS m g d ad => Sys2Proof.Machine.execAtomMaxS m g d ad s
  | .atomMinN m g d ad => Sys2Proof.Machine.execAtomMinN m g d ad s
  | .atomMaxN m g d ad => Sys2Proof.Machine.execAtomMaxN m g d ad s
  | .atomAnd m g d ad => Sys2Proof.Machine.execAtomAnd m g d ad s
  | .atomOr m g d ad => Sys2Proof.Machine.execAtomOr m g d ad s
  | .atomXor m g d ad => Sys2Proof.Machine.execAtomXor m g d ad s
  | .atomXchg m g d ad => Sys2Proof.Machine.execAtomXchg m g d ad s
  | .atomCas m g d ad => Sys2Proof.Machine.execAtomCas m g d ad s
  | .atomFadd m g d ad => Sys2Proof.Machine.execAtomFadd m g d ad s
  | .atomFmin m g d ad => Sys2Proof.Machine.execAtomFmin m g d ad s
  | .atomFmax m g d ad => Sys2Proof.Machine.execAtomFmax m g d ad s
  | .atomAdd64 m g d ad => Sys2Proof.Machine.execAtomAdd64 m g d ad s
  | .atomcAdd m g d ad => Sys2Proof.Machine.execAtomcAdd m g d ad s
  | .atomcMinS m g d ad => Sys2Proof.Machine.execAtomcMinS m g d ad s
  | .atomcMaxS m g d ad => Sys2Proof.Machine.execAtomcMaxS m g d ad s
  | .atomcOr m g d ad => Sys2Proof.Machine.execAtomcOr m g d ad s
  | .atomcXchg m g d ad => Sys2Proof.Machine.execAtomcXchg m g d ad s
  | .atomcCas m g d ad => Sys2Proof.Machine.execAtomcCas m g d ad s
  | .atomAddSc g d ad => Sys2Proof.Machine.execAtomAddSc g d ad s
  | .atomXchgSc g d ad => Sys2Proof.Machine.execAtomXchgSc g d ad s
  | .atomCasSc g d ad => Sys2Proof.Machine.execAtomCasSc g d ad s
  | .fenceAcq k => Sys2Proof.Machine.execFenceAcq k s
  | .fenceRel k => Sys2Proof.Machine.execFenceRel k s
  | .fenceAr k => Sys2Proof.Machine.execFenceAr k s
  | .fenceSc => Sys2Proof.Machine.execFenceSc s
  | .fenceWb k => Sys2Proof.Machine.execFenceWb k s
  | .fenceInval k => Sys2Proof.Machine.execFenceInval k s
  | .bfence k => Sys2Proof.Machine.execBfence k s
  | .pref g ad => Sys2Proof.Machine.execPref g ad s
  | .prefL1 g ad => Sys2Proof.Machine.execPrefL1 g ad s
  | .resid g k ad => Sys2Proof.Machine.execResid g k ad s
  | .cwb g ad => Sys2Proof.Machine.execCwb g ad s
  | .cinv g ad => Sys2Proof.Machine.execCinv g ad s
  | .settag g d ad => Sys2Proof.Machine.execSettag g d ad s
  | .gettag g d ad => Sys2Proof.Machine.execGettag g d ad s
  | .cpyIn d a b => Sys2Proof.Machine.execCpyIn d a b s
  | .cpyOut d a b => Sys2Proof.Machine.execCpyOut d a b s
  | .cpyMc d a b => Sys2Proof.Machine.execCpyMc d a b s
  | .cpyCc d a b => Sys2Proof.Machine.execCpyCc d a b s
  | .cpy2d d a b => Sys2Proof.Machine.execCpy2d d a b s
  | .cpy2dmc d a b => Sys2Proof.Machine.execCpy2dmc d a b s
  | .cpyWb d a b => Sys2Proof.Machine.execCpyWb d a b s
  | .cseal d => Sys2Proof.Machine.execCseal d s
  | .cwait d a => Sys2Proof.Machine.execCwait d a s
  | .cpoll d a => Sys2Proof.Machine.execCpoll d a s
  | .putsig d a b => Sys2Proof.Machine.execPutsig d a b s
  | .qpush d a b => Sys2Proof.Machine.execQpush d a b s
  | .qpop d a => Sys2Proof.Machine.execQpop d a s
  | .qpoll d a => Sys2Proof.Machine.execQpoll d a s
  | .baddS32 g d ad => Sys2Proof.Machine.execBaddS32 g d ad s
  | .baddF32 g d ad => Sys2Proof.Machine.execBaddF32 g d ad s
  | .baddBf16x2 g d ad => Sys2Proof.Machine.execBaddBf16x2 g d ad s
  | .bmaxF32 g d ad => Sys2Proof.Machine.execBmaxF32 g d ad s
  | .bminF32 g d ad => Sys2Proof.Machine.execBminF32 g d ad s
  | .mma d a => Sys2Proof.Machine.execMma d a s
  | .mld d a => Sys2Proof.Machine.execMld d a s
  | .mst d a => Sys2Proof.Machine.execMst d a s
  | .mzero d a => Sys2Proof.Machine.execMzero d a s
  | .mres d a => Sys2Proof.Machine.execMres d a s
  | .mrel a => Sys2Proof.Machine.execMrel a s
  | .mspan d a => Sys2Proof.Machine.execMspan d a s
  | .munspan => Sys2Proof.Machine.execMunspan s
  | .frag g d a b => Sys2Proof.Machine.execFrag g d a b s
  | .fragKill g a => Sys2Proof.Machine.execFragKill g a s
  | .fannc g a => Sys2Proof.Machine.execFannc g a s
  | .tsampNow g d a b => Sys2Proof.Machine.execTsampNow g d a b s
  | .tsampSet g d a b => Sys2Proof.Machine.execTsampSet g d a b s
  | .tflush g b => Sys2Proof.Machine.execTflush g b s
  | .pxld g d k => Sys2Proof.Machine.execPxld g d k s
  | .pxst g d k => Sys2Proof.Machine.execPxst g d k s
  | .texSample g d a b => Sys2Proof.Machine.execTexSample g d a b s
  | .texLod g d a b => Sys2Proof.Machine.execTexLod g d a b s
  | .texFetch g d a b => Sys2Proof.Machine.execTexFetch g d a b s
  | .texGather4 g d a b => Sys2Proof.Machine.execTexGather4 g d a b s
  | .emit g d a b => Sys2Proof.Machine.execEmit g d a b s
  | .spawn g d a b => Sys2Proof.Machine.execSpawn g d a b s
  | .csrr d k => Sys2Proof.Machine.execCsrr d k s
  | .csrw d k => Sys2Proof.Machine.execCsrw d k s
  | .csrs d k => Sys2Proof.Machine.execCsrs d k s
  | .csrc d k => Sys2Proof.Machine.execCsrc d k s
  | .csrwi v k => Sys2Proof.Machine.execCsrwi v k s
  | .vgrow => Sys2Proof.Machine.execVgrow s
  | .vgrowTry d => Sys2Proof.Machine.execVgrowTry d s
  | .vshrink => Sys2Proof.Machine.execVshrink s
  | .trap n => Sys2Proof.Machine.execTrap n s
  | .tret => Sys2Proof.Machine.execTret s
  | .lkill => Sys2Proof.Machine.execLkill s
  | .halt n => Sys2Proof.Machine.execHalt n s
  | .frec d => Sys2Proof.Machine.execFrec d s
  | .poolGuard x => Sys2Proof.Machine.execPoolGuard x s

end Sys2Proof.Machine
end

