-- ==== Sys2Proof/Machine/Issue.lean ====
section
/-!
DEFINITION. Machine/Issue.lean: one issue of a group: the fetch of its packet, the packet's check, single words and chained pairs,
replays, and what follows (R40-R49, R67-R68, R81-R82, R110, R185-R189, R272).
-/
namespace Sys2Proof.Machine
noncomputable section

/-! ### Steps that other agents take -/
/-- The rows of the table that are no words, but for those that the issue logic itself performs when their time has come. -/
def isStep : Instr → Bool
  | .notchTicket | .fenceWbComplete _ _ | .copyAccept _ | .copyComplete _ | .putsigComplete _ | .qpopTake _ _ | .basinPerform _
  | .matrixPerform _ | .mmaComplete _ | .spanSlave _ | .spanFree _ | .reservationFree _ _ | .tflushComplete _ _
  | .vgrowGrant _ _ | .vshrinkRelease _ | .ageForce _ | .pageFaultReplay _ | .workgroupRetire _ | .sleepExpiry _ _
  | .yieldPassEnd _ | .issueBoost _ | .regionRestart _ _ | .launchStart _ | .launchComplete _ | .launchSlotsEnd _
  | .workgroupAdmit _ _ _ | .methodGroupForm _ _ _ _ | .rasterRecord _ | .rasterTile _ _ _ | .tileCommit _ _ _ | .graceExpiry _
  | .killExpiry _ | .contextSave _ | .saveComplete _ | .ctxbind _ _ | .ctxfree _ | .qbind _ _ | .preempt _ | .cancel _
  | .restore _ | .invpage _ _ _ | .invas _ _ | .invpart _ | .resolve _ | .fatal _ | .resume _ _ | .hostEnd _ _ | .hostup
  | .flr _ | .doorbell _ _ | .evack _ | .eventRingConfig _ _ | .counterClear _ _ | .registerWrite _ _ | .partitionEnable _
  | .partitionDisable _ | .flip _ | .flipComplete _ | .wbreq _ | .wbreqComplete _ | .landingEntryWrite _ _
  | .landingPacket _ _ _ _ | .stackFlitReceive _ _ | .linkRetrain _ | .retrainComplete _ _ | .beljoFlitReceive _ _
  | .remoteAccess _ _ _ | .remoteAccessTimeout _ _ _ _ | .hostMemoryAccess _ _ | .hostLinkDown | .deviceReset _ | .idleEntry
  | .idleExit | .clockStep | .laneDefect _ _ | .laneSpareSteer _ | .selfTestStart _ | .selfTestEnd _ | .keyChange _
  | .attestationReport _ _ | .mrExtend _ _ _ | .softError _ | .commandCompletion | .tileMoveComplete _ => true
  | _ => false

/-! ### Fetch (R40, R41) -/
/-- Where word k of packet p lies; past bit 51 the address is malformed (R191). -/
def State.fetchPtr (s : State) (p : Word) (k : Nat) : Dword := BitVec.ofNat 64 (s.codeBase + 12 * p.toNat + 4 * k)
inductive Fetch where
  | word (w : Word)
  | fault (c : Byte)
  | park (second : Bool)
  deriving DecidableEq, Repr
/-- The copy of code that the group's workgroup fetched before (R42). -/
def State.oldCode (s : State) (va : Nat) : Option Line := (s.icache.find? fun e => e.1 = s.g.fetchKey && lineAt s.me va e.2).map (·.2)
/-- FREE VALUE (log 4): where code has been stored to since, each word is the one fetched before or the present one. -/
def State.codeWord (s : State) (leaf : Dword) (pa va : Nat) : Word :=
  let now := BitVec.ofNat 32 (leNat (s.view s.me.home leaf pa va 4))
  match s.oldCode va with
  | none => now
  | some l =>
    let old := BitVec.ofNat 32 (leNat (memRead l.data (va % 128) 4))
    if old = now then now else if s.free 9 va % 2 = 0 then old else now
/-- One word as a group fetches it: held stores are not seen (R36, R42), and tags are not compared. DEDUCED (log 13): from a remote page
it is the other device's answer, its refusal (PROT), or, without an answer, poison (R315). -/
def State.fetchWord (s : State) (p : Word) (k : Nat) : Fetch :=
  let a := s.fetchPtr p k
  match s.access s.me.home a 4 { fetch := true, tags := false } with
  | .ok leaf pa _ => if (s.oldCode (vaOf a)).isNone && s.sick s.me.home pa (vaOf a) then .fault 0x0D else .word (s.codeWord leaf pa (vaOf a))
  | .fault c => .fault c
  | .park second => .park second
  | .remote leaf =>
    if s.farLost s.me.home leaf none then .fault 0x0D
    else if s.answerOf a % 2 = 1 then .fault 0x06
    else .word (Config.word (s.fresh * 4096 + 4000 + k))
  | .window _ => .fault 0x06
/-- The three words of a packet, or the first that cannot be fetched. -/
inductive Packet where
  | words (w0 w1 w2 : Word)
  | fault (c : Byte)
  | park (k : Nat) (second : Bool)
  deriving DecidableEq, Repr
def State.fetchPacket (s : State) (p : Word) : Packet :=
  match s.fetchWord p 0, s.fetchWord p 1, s.fetchWord p 2 with
  | .word a, .word b, .word c => .words a b c
  | .fault c, _, _ => .fault c
  | .park second, _, _ => .park 0 second
  | _, .fault c, _ => .fault c
  | _, .park second, _ => .park 1 second
  | _, _, .fault c => .fault c
  | _, _, .park second => .park 2 second
/-- The sector of a fetched word stays as a copy; one that stores have made old may give way to the present one (log 4). -/
def State.keepWord (p : Word) (s : State) (k : Nat) : State :=
  let a := s.fetchPtr p k
  let va := vaOf a
  match s.access s.me.home a 4 { fetch := true, tags := false } with
  | .ok leaf pa held =>
    let l := newLine s s.me.home leaf pa va .normal
    let now := { l with data := memWrite [] 0 (s.view s.me.home leaf (pa / 128 * 128) (va / 128 * 128) 128) }
    match s.oldCode va with
    | none =>
      let t := if held then s else (s.readWalk s.me.home va).arrayRead pa
      { t with icache := (s.g.fetchKey, now) :: t.icache }
    | some old =>
      if old.data = now.data || s.free 10 va % 2 = 0 then s
      else { s with icache := (s.g.fetchKey, now) :: s.icache.filter fun e => !(e.1 = s.g.fetchKey && lineAt s.me va e.2) }
  | _ => s
def State.keepCode (s : State) (p : Word) : State := [0, 1, 2].foldl (State.keepWord p) s
/-- The group parks at the packet (R41, R81). -/
def State.parkFetch (s : State) (p : Word) (k : Nat) (second : Bool) : State :=
  let r : Replay := { page := vaOf (s.fetchPtr p k) / 65536, ptr := s.fetchPtr p k, lanes := s.lanes false, write := false, fetch := true, second := second }
  s.parkOn .nop [r]

/-! ### Words of a packet (R43-R49) -/
structure PWord where
  k : Nat
  len : Nat
  word : Word
  /-- none: ILLEGAL by its encoding -/
  instr : Option Instr
  deriving DecidableEq, Repr
def pword (w0 w1 w2 : Word) (k : Nat) : PWord :=
  let at_ := fun (j : Nat) => match j with | 0 => w0 | 1 => w1 | 2 => w2 | _ => 0
  let w := at_ k
  { k := k, len := if ownsLiteral w then 2 else 1, word := w, instr := decode w (at_ (k + 1)) }
def PWord.chains (p : PWord) : Bool := bit p.word 31
def PWord.guard (p : PWord) : Bool := fld p.word 25 6 == 0x3F
def PWord.next (p : PWord) : Nat := p.k + p.len
def isControl : Instr → Bool
  | .brp .. | .brpl .. | .brs .. | .jmp .. | .call .. | .ret | .jmpr .. | .callr .. | .exit | .kill | .brk | .lbrk .. | .trap .. | .tret
  | .halt .. => true
  | _ => false
/-- DESIGN CHOICE (log 15): a word that its encoding makes ILLEGAL is no control-transfer word, whatever its major, so that R46 asks
nothing of it and of the words after it. -/
def PWord.control (p : PWord) : Bool := p.instr.any isControl
/-- The pipe of a word, listed or not: none for an unassigned major (R45, R54). -/
def majorPipe (maj sub : Nat) : Option Pipe :=
  if maj ∈ [0x00, 0x07, 0x0F, 0x15, 0x17, 0x1F, 0x27, 0x3D, 0x3E, 0x3F] then none
  else if maj ∈ [0x09, 0x11, 0x12, 0x16] || (maj = 0x10 && sub ≥ 2) then some .X
  else if maj ≤ 0x14 || maj = 0x1E then some .V
  else if maj ∈ [0x34, 0x35, 0x37, 0x38, 0x39, 0x3A] then some .A
  else if maj ≥ 0x28 && maj ≤ 0x36 then some .M
  else some .S
def PWord.pipe (p : PWord) : Option Pipe := majorPipe (fld p.word 25 6) (fld p.word 22 3)
/-- What a pair's words write: an ILLEGAL word, by its encoding or as the machine stands, names no destination (R45). -/
def State.dests (s : State) (p : PWord) : Names :=
  match p.instr with
  | some i => if s.illegal i then {} else i.names
  | none => {}
def meets2 {α : Type} [BEq α] (a b : List α) : Bool := a.any fun x => b.contains x
/-- The two words have a destination in common. DESIGN CHOICE (log 15): a partner that only reads a destination pair of `isplit` does not
name it in the sense of R148 and R165, which R43 tells of common destinations. -/
def Names.clash (a b : Names) : Bool :=
  meets2 a.vw b.vw || meets2 a.sw b.sw || meets2 a.pw b.pw || (a.cw.isSome && a.cw = b.cw)
/-- R43: different pipes, C = 0 in the second, no common destination, no control-transfer word first. -/
def State.pairOk (s : State) (a b : PWord) : Bool :=
  !a.control && !b.chains && (a.pipe.isNone || a.pipe ≠ b.pipe) && !(s.dests a).clash (s.dests b)
/-- The first offending word of a packet from word k on (R46, R48), looked for before its first pool guard. `after`: a
control-transfer word stands before. DESIGN CHOICE (log 15): of a pair that breaks R43 the first word offends, and of words that
may not follow a control-transfer word the first of them, a pair's second word included. -/
def State.offender (s : State) (w0 w1 w2 : Word) : Nat → Nat → Bool → Option (Fin 3)
  | 0, _, _ => none
  | n + 1, k, after =>
    if k ≥ 3 then none
    else
      let a := pword w0 w1 w2 k
      if a.guard then none
      else if after && a.instr ≠ some .nop then some (Fin.ofNat 3 k)
      else if a.next > 3 then some (Fin.ofNat 3 k)
      else if !a.chains then s.offender w0 w1 w2 n a.next (after || a.control)
      else if a.next > 2 || a.control then some (Fin.ofNat 3 k)
      else
        let b := pword w0 w1 w2 a.next
        if b.guard then none
        else if !s.pairOk a b then some (Fin.ofNat 3 k)
        else if b.next > 3 || (after && b.instr ≠ some .nop) then some (Fin.ofNat 3 b.k)
        else s.offender w0 w1 w2 n b.next (after || b.control)

/-! ### Issuing (R41, R43) -/
/-- The meaning of one word of a packet. -/
def PWord.run (p : PWord) (s : State) : Out := match p.instr with | some i => exec i s | none => execIllegalWord s
def State.withLatch (s : State) (l : Latch) : State := { s with latch := l }
/-- The registers that the slot's word has read, where it has issued and waits. -/
def State.heldRegs (s : State) : Option Regs := s.g.me.leaf.bind (·.held)
/-- The group as the slot's words read it (R43, R44). -/
def State.readGroup (s : State) : Group := match s.heldRegs with | some r => { s.g with regs := r } | none => s.g
/-- The word that has issued and waits keeps the registers it read and its place in issue order. -/
def State.hold1 (s : State) (r : Regs) (no : Nat) (swap : Bool) : State :=
  s.setLeaf fun l => { l with held := some r, no := some (l.no.getD no), chained := swap }
/-- The word is tried again when something has happened; a wait for another party spends a turn (R186). -/
def State.tryAgain (s : State) (party : Bool) : State := s.withLatch { stall := true, party := party }
/-- The word cannot begin: it waits neither for another party nor for its own completion. -/
def Latch.stuck (l : Latch) : Bool := l.stall && !l.party && !l.begun
/-- The latch that a word of the slot begins with: its place in issue order is that of its issue. -/
def State.latchFor (s : State) (len : Nat) (first : Bool) (pair : Bool) : Latch :=
  { len := len, first := first, snap := if pair || s.heldRegs.isSome then some s.readGroup else none, no := s.g.me.leaf.bind (·.no) }
/-- One word by itself; the second word of a pair that `yield` began is followed by that word's swap. -/
def State.issueOne (s : State) (p : PWord) : Out :=
  let swap := s.g.me.leaf.any (·.chained)
  mapOut (p.run (s.withLatch (s.latchFor p.len false false))) fun t =>
    if t.latch.stall then (if t.latch.begun then t.hold1 s.readGroup.regs t.noNow swap else t).tryAgain t.latch.party
    else if swap then t.swapAfter s.myId else t
/-- `s` as a pair's second word sees it where the first has no effect yet. -/
def State.atSecond (s : State) (b : PWord) (g : Group) : State :=
  (s.setLeaf fun l => { l with ws := b.k, wait := l.wait2 }).withLatch { snap := some g, len := b.len }
/-- A pair that waits for another party: of what its words have done, `s` holds what beginning to wait has done. -/
def State.pairWaits (s : State) (a : PWord) (w w2 : Wait) : State :=
  (({ s with g := { s.g with me := { s.g.me with stalled := true } } }).setLeaf fun l =>
    { l with ws := a.k, wait := w, wait2 := w2, chained := true }).tryAgain true
def State.myWait2 (s : State) : Wait := match s.g.me.leaf with | some l => l.wait2 | none => .none
/-- The second word of a pair whose first has taken effect as `t`. Where it waits, the first stays performed, its faults are acted on, and
the slot stands at the second alone, which keeps the registers it read. -/
def State.secondWord (s : State) (b : PWord) (swap : Bool) (t : State) : Out :=
  let no := t.latch.no.map (· + 1)
  let t := t.setLeaf fun l => { l with wait := s.myWait2 }
  mapOut (b.run { t with latch := { t.latch with first := false, len := b.len, depth := none, skipped := false, no := no } }) fun u =>
    if u.latch.stall then
      ({ u with latch := { u.latch with stall := false } }.hold1 s.readGroup.regs (no.getD (2 * s.fresh + 1)) swap).settle.tryAgain u.latch.party
    else if swap then u.swapAfter s.myId else u
/-- A chained pair: both words read the group as it stands, and it issues when both can (R43; log 15). Where a word cannot begin, nothing
has happened; where one waits for another party, the pair waits with it. The swap of a `yield` that comes first follows the pair
(R110). -/
def State.issuePair (s : State) (a b : PWord) : Out :=
  let issued := s.heldRegs.isSome
  let swap := a.instr = some .yield && !s.barred .yield
  bindOut (a.run (s.withLatch (s.latchFor a.len true true))) fun t =>
    if issued && t.latch.stall then .next (t.tryAgain t.latch.party)
    else if issued then s.secondWord b swap t
    else
      let s1 := if t.latch.party then t else s
      bindOut (b.run (s1.atSecond b s.readGroup)) fun u =>
        if t.latch.stuck || u.latch.stuck then .next (({ s with g := { s.g with me := { s.g.me with stalled := true } } }).tryAgain false)
        else if t.latch.party || u.latch.party then
          .next ((if u.latch.party then u else s1).pairWaits a (if t.latch.party then t.myWait else s.myWait)
            (if u.latch.party then u.myWait else s.myWait2))
        else if t.latch.stall then .next ((t.hold1 s.readGroup.regs t.noNow true).tryAgain false)
        else s.secondWord b swap t
/-- The words that the slot issues, and what it does instead (R41, R47-R49). -/
inductive Todo where
  | one (a : PWord)
  | pair (a b : PWord)
  | offend (k : Fin 3)
  | fault (c : Byte)
  | park (p : Word) (k : Nat) (second : Bool)
  deriving DecidableEq, Repr
def State.todo (s : State) (l : Entry) : Todo :=
  match s.fetchPacket l.pc with
  | .fault c => .fault c
  | .park k second => .park l.pc k second
  | .words w0 w1 w2 =>
    match (if l.ws = 0 then s.offender w0 w1 w2 3 0 false else none) with
    | some k => .offend k
    | none =>
      let a := pword w0 w1 w2 l.ws
      let b := pword w0 w1 w2 a.next
      if a.chains && !a.guard && a.next < 3 && !b.guard then .pair a b else .one a
def State.doIt (s : State) : Todo → Out
  | .one a => s.issueOne a
  | .pair a b => s.issuePair a b
  | .offend k => execIllegalPacket k (s.withLatch {})
  | .fault c => .next ((s.withLatch {}).fetchFault c)
  | .park p k second => .next ((s.withLatch {}).parkFetch p k second)

/-! ### Replay (R41, R82) -/
/-- Lanes of a parked word that are replayed, and those whose page is fatal. -/
def Parked.lanes (p : Parked) : Mask := p.parts.foldl (fun m r => m ||| r.lanes) 0
def Parked.fatal (p : Parked) : Mask := p.parts.foldl (fun m r => if r.state = 2 then m ||| r.lanes else m) 0
def Parked.fatalPages (p : Parked) : List Nat := (p.parts.filter fun r => r.state = 2).map (·.page)
def Parked.isFetch (p : Parked) : Bool := p.parts.any (·.fetch)
/-- The word again, for the lanes that parked, with the operands it had. -/
def State.replayOne (s : State) (p : Parked) (last : Bool) : Out :=
  let gone := s.g.dead ||| s.g.exited
  let g := s.g.select p.slot
  let snap := { g with regs := p.regs, me := { g.me with leaf := some (p.leaf.strip gone) } }
  exec p.instr { s with
    g := g
    latch := { snap := some snap, first := !last, only := some p.lanes, fatal := p.fatal, fatalAt := p.fatalPages, ipc := some p.ipc, depth := some p.depth, no := some p.no, len := p.instr.len, faults := s.latch.faults
               dying := s.latch.dying, poison := s.latch.poison } }
def State.replayAll (s : State) : List Parked → Out
  | [] => .next s
  | p :: ps => bindOut (s.replayOne p ps.isEmpty) fun t => t.replayAll ps
/-- Slot 0 first. A packet that parked is fetched again, in the turn that it has (R186), unless its page is fatal. -/
def State.replayParked (s : State) : Out :=
  let ps := (s.g.parked.filter fun p => p.slot = 0) ++ s.g.parked.filter fun p => p.slot = 1
  let s := { s with latch := {}, g := { s.g with parked := [] } }
  match ps.find? (·.isFetch) with
  | some p =>
    if p.fatal = 0 && p.parts.all (fun r => r.state ≠ 2) then .next { s with latch := { stall := true } } else .next ({ s with g := s.g.select p.slot }.fetchFault 0x08)
  | none => s.replayAll ps

/-! ### Who issues (R67, R110, R185, R272) -/
/-- The slot whose turn it is: the one in turn when both hold leaves. -/
def Group.turnOf (g : Group) : Option (Fin 2) :=
  match (g.slot 0).leaf.isSome, (g.slot 1).leaf.isSome with
  | true, true => some g.turn
  | true, false => some 0
  | false, true => some 1
  | false, false => none
/-- A handler or a halt waits for words that are issued and not complete (R13, R121): no further word issues. -/
def Group.draining (g : Group) : Bool := g.debt ≠ {} && g.busy
/-- The slots that may issue: in deterministic issue mode the one in turn (R186). -/
def Group.openSlots (g : Group) (det : Bool) : List (Fin 2) :=
  [0, 1].filter fun k => (g.slot k).leaf.isSome && (!g.draining || (g.slot k).busy) && (!det || g.draining || g.turnOf = some k)
/-- The slot in turn, or the other where that one could not proceed when last tried. -/
def Group.pickSlot (g : Group) (det : Bool) : Option (Fin 2) :=
  let l := g.openSlots det
  let go := l.filter fun k => !(g.slot k).stalled
  let l := if go.isEmpty then l else go
  if l.contains g.turn then some g.turn else l.head?
/-- The GIDX that holds the turn of a workgroup; a halted group stops the rotation (R186). -/
def State.holder (s : State) (w : Workgroup) : Option Nat :=
  if (s.rotationOf w).any fun g => g.status = .halted then none else some (s.turnGidx w)
def State.mayRun (s : State) (g : Group) : Bool :=
  g.gid ≠ 0 && g.status = .ready && (g.turnOf.isSome || !g.parked.isEmpty) &&
  (match s.ctx? (s.launchOf g).ctx with
    | some c => g.method.isSome || c.phase = .run || c.phase = .soft || (c.phase = .hard && !(s.wgOf g).stopped)
    | none => true) &&
  (!s.detGroup g || s.holder (s.wgOf g) = some g.gidx)
/-- Some word of the group may be able to proceed. -/
def State.ready (s : State) (g : Group) : Bool :=
  s.mayRun g && (!g.parked.isEmpty || (g.openSlots (s.detGroup g)).any fun k => !(g.slot k).stalled)
def Group.sameUnit (a b : Group) : Bool :=
  if a.method.isSome || b.method.isSome then a.gid = b.gid else a.core = b.core && a.simd = b.simd
/-- R272: boost, launch PRI, stage PRI, age; a group passed over by `yield` after every other. -/
def State.rank (s : State) (g : Group) : Nat :=
  (if g.passed then 0 else 64) + (if g.boost then 32 else 0) + wbits (s.launchOf g).cmd[8] 1 0 * 4 +
    (if g.method.isSome then 0 else wbits (s.stageOf g).desc[1] 10 9)
def State.beats (s : State) (a b : Group) : Bool :=
  s.rank a > s.rank b || (s.rank a = s.rank b && (a.admitted < b.admitted || (a.admitted = b.admitted && a.gid < b.gid)))
/-- The choices of the units that have one. -/
def State.tops (s : State) : List Group :=
  let l := s.allGroups.filter s.ready
  l.filter fun g => l.all fun h => h.gid = g.gid || !g.sameUnit h || s.beats g h
/-- A group named by the plan issues when it is its unit's choice; one whose slots could not proceed may be tried again. -/
def State.mayIssue (s : State) (gid : Nat) : Bool :=
  match s.group? gid with
  | none => false
  | some g => s.mayRun g && (!s.ready g || s.tops.any fun h => h.gid = gid)

/-! ### One issue opportunity -/
/-- The other slot issues next when both hold leaves; slot 0 begins (R67, R185). -/
def Group.afterTurn (both : Bool) (g : Group) : Group := { g with turn := if both then 1 - g.sel else 0, boost := false }
/-- A turn of deterministic issue mode ends: the group's suspended leaves age, and one that has waited long enough comes in (R68; log 16:
here, and not when a turn is tried again), and the turn passes (R186). -/
def State.closeTurn (s : State) : State := { s with g := (s.g.age.force s.fresh).wake }.passTurn
/-- What follows an issue: a method group or a method's slots end, the spill area is filled, turns move on. A word that holds the turn
leaves it open, and so does a group that parks (R186). -/
def State.afterIssue (gid : Nat) (det both : Bool) (s : State) : State :=
  let holds := s.latch.stall && !(det && s.latch.party) || (det && s.g.status = .parked)
  let t := { s with latch := {} }
  if t.g.gid ≠ gid then (if t.g.gid = 0 then { t with g := {} } else t)
  else
    let t := t.endMethod
    if t.g.gid ≠ gid then t
    else
      let t := t.spillOut gid
      if holds then t
      else
        let t := { t with g := t.g.afterTurn both }
        if det then t.closeTurn else t
/-- The state in which a group's word issues: the group in front, its suspended leaves aged, its slot selected (R67, R68). -/
def State.front (s : State) (gid : Nat) : State :=
  let s := (s.focus gid s.g.sel).withLatch {}
  let det := s.detGroup s.g
  let g := if det then s.g else (s.g.force s.fresh).age
  { s with g := g.select ((g.pickSlot det).getD 0) }
/-- The words that an issue takes. -/
def Todo.words : Todo → List PWord
  | .one a => [a]
  | .pair a b => [a, b]
  | _ => []
/-- What an issue of the leaf `id` leaves of what stores have replaced: one that acquires comes after all of it, and one that changes the
group's leaves or its state has them all come after it (R213, R222; log 4). -/
def State.orderPast (s : State) (id : Nat) (acquires : Bool) (t : State) : State :=
  let still := match t.group? s.g.gid with
    | some g => g.status = s.g.status && g.residents.map (·.id) = s.g.residents.map (·.id)
    | none => false
  if t.past.isEmpty then t
  else if !still then { t with past := t.past.map fun (x : Past) => { x with may := x.may.filter fun y => y.1 ≠ s.g.gid } }.prunePast
  else if acquires then { t with past := t.past.map (Past.seenBy (s.g.gid, id)) }.prunePast
  else t
/-- One issue opportunity of a group. -/
def State.issueGroup (s : State) (gid : Nat) : Out :=
  let t := s.front gid
  let det := t.detGroup t.g
  let both := t.g.me.leaf.isSome && t.g.mate.leaf.isSome
  if !t.g.parked.isEmpty then mapOut t.replayParked fun u => ({ u with past := [] }).afterIssue gid det both
  else
    match t.g.me.leaf with
    | none => .next t
    | some l =>
      let words := (t.todo l).words.any fun p => p.instr.any Instr.acquires
      mapOut ((t.keepCode l.pc).doIt (t.todo l)) fun u => t.orderPast l.id (words && !u.latch.stall) (u.afterIssue gid det both)

/-! ### The next turn -/
inductive Move where
  | agent (i : Instr)
  | issue (gid : Nat)
  | idle
  deriving DecidableEq, Repr
/-- The plan's next turn; where it is empty, a group that can issue: which unit comes first is the device's choice. -/
def State.move (s : State) : Move :=
  match s.plan with
  | .agent i :: _ => if isStep i then .agent i else .idle
  | .issue gid :: _ => if s.mayIssue gid then .issue gid else .idle
  | [] =>
    match s.tops with
    | [] => .idle
    | [g] => .issue g.gid
    | g :: gs => .issue (((g :: gs)[Config.choice s.fresh % (gs.length + 1)]?).getD g).gid
/-- Cycles pass, and the next free values are others. -/
def State.pass (s : State) : State :=
  { s with plan := s.plan.tail, fresh := s.fresh + 1, cycle := s.cycle + 1 + BitVec.ofNat 64 (Config.cycles s.fresh) }
/-- After a boot that stopped, nothing but a device reset happens (R316). -/
def State.stopped (s : State) : Bool :=
  !s.host.bootst.getLsbD 8 && match s.move with | .agent (.deviceReset _) => false | _ => true
/-- Steps of other agents that leave memory and its order alone. -/
def keepsPast : Instr → Bool
  | .notchTicket | .ageForce _ | .sleepExpiry _ _ | .yieldPassEnd _ | .issueBoost _ | .clockStep | .remoteAccessTimeout _ _ _ _ => true
  | _ => false
/-- After another agent's step: its accesses and orders come after what stores have replaced (log 4); a device that stays silent does so in
the very next step (log 13). -/
def State.afterAgent (i : Instr) (s : State) : State :=
  let s := if keepsPast i then s else { s with past := [] }
  match i with
  | .remoteAccessTimeout _ _ _ _ => s
  | _ => { s with silent := [] }
/-- What follows every step: a method group that has retired goes, live reads are answered (R369), and in HARD a workgroup that has
come to its turn boundary stops (R189), and in SOFT one whose groups have all stopped is discarded (R273). -/
def State.follow (s : State) : State := s.endMethod.answerReads.discardStopped.stopAtBoundary
def State.moveOn (s : State) : Out :=
  match s.move with
  | .agent i => mapOut (exec i (s.withLatch {})) fun t => (t.follow.afterAgent i).pass
  | .issue gid => mapOut (s.issueGroup gid) fun t => { t.follow with silent := [] }.pass
  | .idle => .next s.pass

end
end Sys2Proof.Machine
end

