-- ==== Sys2Proof/Machine/Step.lean ====
section
/-!
DEFINITION. Machine/Step.lean: one step of the machine (see Machine/Issue.lean for the issue of a group), and the placing of one
instruction where the next step fetches it.
-/
namespace Sys2Proof.Machine
noncomputable section

def step (s : State) : Host.Outcome State Fault Refusal :=
  if s.stopped then .fault .bootStopped else s.moveOn

/-- A partition that owns one cluster and one channel. -/
def fetchPart : Part := { word := ((Vector.replicate 32 0).set 0 1 |>.set 1 1 |>.set 7 1 |>.set 2 1) }
/-- One group of one workgroup of one launch, every lane at word 0 of packet 0. -/
def fetchGroup : Group := { gid := 1, wid := 1, me := { leaf := some { emask := allLanes, amask := allLanes } } }
/-- The words of a packet that opens with the instruction: its own, and `nop` after it. -/
def fetchBytes (nbits w : Nat) : List Byte :=
  let x := w % 2 ^ nbits
  let a : Word := BitVec.ofNat 32 x
  let b : Word := if ownsLiteral a then BitVec.ofNat 32 (x / 2 ^ 32) else 0x47800000
  leBytes 4 a.toNat ++ leBytes 4 b.toNat ++ leBytes 4 0x47800000
/-- `s` with the instruction where the next step fetches: a group is resident at packet 0 of a program whose page is mapped at
address 0, and the plan names it (log 14). -/
def State.withFetchWord (s : State) (nbits w : Nat) : State :=
  { s with
    g := fetchGroup, others := [], w := { wid := 1, lid := 1 }, otherWgs := [], latch := {}
    launches := [{ lid := 1, stages := [{}] }], ctxs := [{}], parts := s.parts.set 0 fetchPart
    tlb := [{ part := 0, asid := 0, page := 0, leaf := 1, frame := 0 }], l1 := [], l2 := [], rlc := [], icache := [], keyed := [], past := [], silent := []
    mem := memWrite s.mem 0 (fetchBytes nbits w), host := { s.host with bootst := 0x100 }, plan := [.issue 1] }

end
end Sys2Proof.Machine
end

