-- ==== Sys2Proof/Safety.lean ====
section
/-!
DEFINITION. Safety.lean: what counts as a safe run, and the terms in which the statements speak: when a word issues undisturbed, what
it leaves, and how its slot goes on.
-/
namespace Sys2Proof.Machine
noncomputable section

/-! ### Runs -/
/-- The step does not stop the machine (R316). -/
def State.Runs (s : State) : Prop := ∃ t, step s = .next t
/-- The memories that every agent shares are in canonical form. -/
def State.memOk (s : State) : Bool := Memory.wf s.mem && Memory.wf s.tags && Memory.wf s.pois

/-- No word of the major has the sub-operation (R55). -/
def NoWord (maj sub : Nat) : Prop := ∀ w lit : Word, fld w 25 6 = maj → fld w 22 3 = sub → decode w lit = none

/-! ### One word, undisturbed -/
/-- Word `i` stands by itself at the issuing slot of a ready group, and nothing holds it back: it is allowed there (R47, R366) and no rule of
its own makes it ILLEGAL as the machine stands (R45), no
scalar it names waits for a token (R233) or is read poisoned (R87), no register for a live read (R384), and the slot has an active lane where the pipe asks for one
(R241, R342). -/
structure Issues (i : Instr) (s : State) : Prop where
  alone : s.latch = { len := i.len }
  leaf : s.g.me.leaf.isSome = true
  ready : s.g.status = .ready
  calm : s.g.debt = {}
  allowed : s.barred i = false
  lawful : s.outlaw i = false
  landed : s.g.regs.pending &&& regBits (i.names.sr ++ i.names.sw) = 0
  settled : s.livePending i = false
  sound : s.g.regs.spois &&& regBits i.names.sr = 0
  lanes : i.names.pipe = .M ∨ i.names.pipe = .A → s.g.amask ≠ 0

/-- The word stands by itself at the issuing slot of a ready group. -/
structure Stands (i : Instr) (s : State) : Prop where
  alone : s.latch = { len := i.len }
  leaf : s.g.me.leaf.isSome = true
  ready : s.g.status = .ready
/-- The word is ILLEGAL there, whatever its registers hold: on every active lane, and its slot goes on after it; with no active lane it is
skipped and not counted (R47, R396). -/
def Outlawed (i : Instr) (s : State) : Prop :=
  Stands i s → exec i s = .next (((if s.g.amask = 0 then s
    else (s.raise 0x01 s.g.amask).setRegs fun r => { r with retired := r.retired + 1 }).advance i.len).closeIssue)

/-- A slot that goes on after a word of `len` places meets no loop end check that faults (R75). -/
def Flows (s : State) (len : Nat) : Prop :=
  ∀ l, s.g.me.leaf = some l → l.ws + len < 3 ∨ s.g.regs.lactive = 0 ∨ s.g.splitOpen = false

/-- The state after a word of `len` places that had the effect `u`: its slot goes on (R40, R75) and RETIRED counts it (R396). -/
def State.onward (u : State) (len : Nat) : State :=
  let t := u.advance len
  { t with latch := {}, g := { t.g with regs := { t.g.regs with retired := t.g.regs.retired + 1 } } }
/-- The state after a control-transfer word that left its slot at `u`. -/
def State.moved (u : State) : State :=
  { u with latch := {}, g := { u.g with regs := { u.g.regs with retired := u.g.regs.retired + 1 } } }

/-- A lane of `m` reads no poisoned element (R85). -/
def Clean (i : Instr) (m : Mask) (s : State) : Prop := s.g.poisonIn i.names.vr m = 0

/-- The word answers `u`, gone on. -/
def GoesOn (i : Instr) (s u : State) : Prop := exec i s = .next (u.onward i.len)
/-- An undisturbed sequential word whose active lanes `m` read no poison has the effect `u`. -/
def Effect (i : Instr) (s : State) (m : Mask) (u : State) : Prop :=
  Issues i s → Flows s i.len → Clean i m s → GoesOn i s u
/-- V[d] takes x in the active lanes, and nothing else happens. -/
def GivesV (i : Instr) (s : State) (g : Bool) (d : VReg) (x : Lane → Word) : Prop :=
  Effect i s (s.g.lanes g) (s.setV d (s.g.lanes g) x)
/-- P[d] takes x in the active lanes. -/
def GivesP (i : Instr) (s : State) (g : Bool) (d : PReg) (x : Lane → PVal) : Prop :=
  Effect i s (s.g.lanes g) (s.setP d (s.g.lanes g) x)
/-- S[d] takes x. -/
def GivesS (i : Instr) (s : State) (d : SReg) (x : Word) : Prop := Effect i s 0 (s.setS d x)
/-- The pair S[d], S[d + 1] takes x. -/
def GivesS64 (i : Instr) (s : State) (d : SReg) (x : Dword) : Prop := Effect i s 0 (s.setS64 d x)

/-- An undisturbed control-transfer word leaves its slot at `u` (R46). -/
def Moves (i : Instr) (s u : State) : Prop := Issues i s → exec i s = .next u.moved
/-- The state as the word's effect sees it. -/
def State.begun (s : State) (i : Instr) : State := s.withLatch { len := i.len, depth := some s.depthNow }
/-- An undisturbed word does `u`, counts in RETIRED, and what its faults call for follows (R79). -/
def Does (i : Instr) (s : State) (u : State → State) : Prop := Issues i s → exec i s = .next (u (s.begun i)).countRetired.closeIssue
/-- An undisturbed word cannot proceed: its slot is left at `u`, to try again. -/
def Waits (i : Instr) (s : State) (u : State → State) : Prop := Issues i s → exec i s = .next (u (s.begun i))
/-- Leaving the packet meets no loop end check that faults (R75). -/
def Quits (s : State) : Prop := s.g.regs.lactive = 0 ∨ s.g.splitOpen = false
/-- The state but for its issuing group and the latch. -/
def State.rest (s : State) : State := { s with g := {}, latch := {} }

/-- The issuing slot holds the group's only entry, the root leaf `l` (R63), which owns a lane. -/
structure Single (s : State) (l : Entry) : Prop where
  leaf : s.g.me.leaf = some l
  kind : l.kind = .leaf
  owns : l.emask ≠ 0
  root : l.rpc = 0xFFFFFFFF
  mate : s.g.mate.leaf = none
  rest : s.g.entries = []
/-- The leaf stands at word 0 of packet `t`. -/
def State.standAt (s : State) (t : Word) : State :=
  s.setLeaf fun l => { l with pc := t, ws := 0, skip := none, wait := .none, wait2 := .none, held := none, no := none, chained := false }

/-- A predicate value of a decidable proposition. -/
def truth (p : Prop) [Decidable p] : PVal := if p then .t else .f

/-- The nearest value in lo..hi. -/
def limit (lo hi x : Int) : Int := max lo (min hi x)
/-- V[d] takes the low bits of the exact result x held to lo..hi, and FSTAT.SAT is set where the limit changed one (R92). -/
def GivesLimited (i : Instr) (s : State) (g : Bool) (d : VReg) (lo hi : Int) (x : Lane → Int) : Prop :=
  Effect i s (s.g.lanes g) ((s.setV d (s.g.lanes g) fun L => BitVec.ofInt 32 (limit lo hi (x L))).orFlags
    (if ∃ L : Lane, (s.g.lanes g).getLsbD L.val = true ∧ limit lo hi (x L) ≠ x L then 0x80 else 0))
/-- A predicate's place in the order false, undecided, true; 0b11 counts as undecided (R98). -/
def PVal.rank : PVal → Nat
  | .f => 0
  | .u | .never => 1
  | .t => 2
def PVal.ofRank (n : Nat) : PVal := if n = 0 then .f else if n = 1 then .u else .t
/-- A shuffle (R99): lane L takes lane j L of V[a], 0 with FSTAT.ABSENT where that lane is absent, and its own value where `edge`
and there is no such lane. -/
def GivesShuffled (i : Instr) (s : State) (g : Bool) (d a : VReg) (edge : Bool) (j : Lane → Int) : Prop :=
  let here := fun k : Int => 0 ≤ k ∧ k < 96 ∧ s.g.amask.getLsbD k.toNat = true ∧ s.g.dead.getLsbD k.toNat = false
  let keeps := fun k : Int => edge = true ∧ (k < 0 ∨ 96 ≤ k)
  let m := s.g.lanes g
  s.g.regs.vpois[a] &&& s.g.amask = 0 →
    Effect i s m ((s.setV d m fun L => if keeps (j L) then s.g.readV a L else if here (j L) then s.g.readV a (Fin.ofNat 96 (j L).toNat) else 0).orFlags
      (if ∃ L : Lane, m.getLsbD L.val = true ∧ ¬keeps (j L) ∧ ¬here (j L) then 0x40 else 0))

/-! ### Floating-point words -/
/-- The flags of the lanes of `m`, together (R89). -/
def flagsOf (m : Mask) (o : Lane → FOut) : Byte := (lanesOf m).foldl (fun a L => a ||| (o L).flags) 0
/-- No soft error strikes, the shadow is off, and no active lane faults or raises a flag that traps (R135, R141). -/
def Quiet (s : State) (m : Mask) (o : Lane → FOut) : Prop :=
  s.upsets = [] ∧ shm s.g.regs.fmode = 0 ∧
  ∀ L : Lane, m.getLsbD L.val = true → (o L).fault = none ∧ (o L).flags &&& ten s.g.regs.fmode = 0
/-- A lane word with outcomes `o`: `put` writes them in the active lanes, and their flags are ORed into FSTAT. -/
def GivesF (i : Instr) (s : State) (g : Bool) (put : Group → Mask → (Lane → BitVec 128) → State → State) (o : Lane → FOut) : Prop :=
  Quiet s (s.g.lanes g) o →
  Effect i s (s.g.lanes g) ((put s.g (s.g.lanes g) (fun L => (o L).val) s).orFlags (flagsOf (s.g.lanes g) o))

/-- The rational number that a finite value is (R127); 0 for the others. -/
def Val.real : Val → ℚ
  | .fin n m e => (if n then -1 else 1) * m * 2 ^ e
  | _ => 0
def Exact.real : Exact → ℚ
  | .val n m e _ => (if n then -1 else 1) * m * 2 ^ e
  | _ => 0
def Val.finite : Val → Prop
  | .fin _ _ _ => True
  | _ => False
/-- An exact result with nothing left over. -/
def Exact.is (x : Exact) (r : ℚ) : Prop := (∃ n m e, x = .val n m e false) ∧ x.real = r
/-- The magnitude that magnitude bits `c` stand for, the exponent unbounded above (R127, R131). -/
def Fmt.mval (f : Fmt) (c : Nat) : ℚ :=
  if c / 2 ^ f.fw = 0 then c * 2 ^ (1 - (f.bias : Int) - f.fw)
  else (2 ^ f.fw + c % 2 ^ f.fw : Nat) * 2 ^ ((c / 2 ^ f.fw : Nat) - (f.bias : Int) - f.fw)
/-- Whether a mode takes the upper of two neighbours at distances `below` and `above` (R131); `odd`: the lower one's last bit is 1. -/
def takesUpper (md : Mode) (neg odd : Bool) (below above : ℚ) : Prop :=
  match md with
  | .rne => above < below ∨ above = below ∧ odd = true
  | .rz => False
  | .rd => neg = true ∧ below ≠ 0
  | .ru => neg = false ∧ below ≠ 0
  | .rna => above ≤ below

/-! ### Intervals -/
/-- x lies between two bounds, either of which may be infinite. -/
def inside (l h : Val) (x : ℚ) : Prop := (l = .inf true ∨ l.finite ∧ l.real ≤ x) ∧ (h = .inf false ∨ h.finite ∧ x ≤ h.real)
/-- The interval that a lane's result bits are. -/
def FOut.lo (f : Fmt) (o : FOut) : Val := f.val (o.val.toNat % 2 ^ f.width)
def FOut.hi (f : Fmt) (o : FOut) : Val := f.val (o.val.toNat / 2 ^ f.width % 2 ^ f.width)
/-- What a lane makes of interval operands (R143, R145): IVMAL for a malformed one; `e` for an empty one under EIM 0, the EMPTY
fault under EIM 1; else `o`. -/
def whenValid (w : Word) (kinds : List IvKind) (e : BitVec 128) (o : FOut) : FOut :=
  if .malformed ∈ kinds then { fault := some 0x0A }
  else if .empty ∈ kinds then (if w.getLsbD 5 then { fault := some 0x09 } else { val := e, flags := 0x20 })
  else o

/-! ### Memory words -/
/-- The state but for which lines and translations are held, and for what stores have replaced (log 4). -/
def State.uncached (s : State) : State := { s with l1 := [], l2 := [], rlc := [], tlb := [], past := [] }
/-- Every copy that the caches hold, at any level. -/
def State.copiesHeld (s : State) : List Line := s.l2 ++ s.rlc.map (·.2) ++ s.l1.map (·.2)
/-- The copy has the bytes of a copy that `s` holds of the same sector, and no more dirty ones, or it is a clean one of the array. -/
def State.copyOf (s : State) (l : Line) : Prop :=
  (∃ x ∈ s.copiesHeld, x.part = l.part ∧ x.asid = l.asid ∧ x.sector = l.sector ∧ x.data = l.data ∧ (l.dmask = 0 ∨ l.dmask = x.dmask)) ∨
    l.dmask = 0 ∧ ∀ k < 128, memGet l.data k = s.baseByte l.leaf (l.pa + k) (l.sector * 128 + k)
/-- Nothing but copies has been added to the caches. -/
def OnlyCopies (s t : State) : Prop := ∀ l ∈ t.copiesHeld, s.copyOf l
/-- No L2 sector is dirty and no soft error waits, so that filling a line brings nothing else about. -/
def CleanCaches (s : State) : Prop := s.upsetBits = [] ∧ ∀ l ∈ s.l2, l.dmask = 0
/-- A load: the active lanes' accesses, which `r` says where they lead, reach their places or are dropped out of bounds, read no
poison and, for an interval, no malformed one. V[d] and the k − 1 registers after it take the words of x of the n bytes read, least
significant byte first: those that the word's own view of memory holds, with the latest of the stores that it may not have seen yet
undone (R214; log 4); a dropped lane takes 0 and is counted; a remote page's bytes are free (log 13), and those of a register are
`RegisterWindow`'s. Memory and all the rest stay; the caches take copies. `mo`: the word's MOD, under which it may pass over L1. -/
def GivesLoad (i : Instr) (s0 : State) (mo : MemMod) (g : Bool) (d : VReg) (n k : Nat) (iv : Bool) (res : State → Lane → LRes)
    (x : Nat → BitVec 128) : Prop :=
  let s := s0.withMod mo
  let r := res s
  let m := s.g.lanes g
  CleanCaches s →
  (∀ L : Lane, m.getLsbD L.val = true →
    ((r L).reaches = true ∨ (r L).isDrop = true) ∧ s.datumPoison s.me [] n (some L) (r L) = false ∧
    (iv = true → badIv (s.seenVal n (r L)) = false)) →
  Issues i s0 → Flows s0 i.len → Clean i m s0 →
  ∃ (u : State) (y : Lane → Nat), GoesOn i s0 u ∧ OnlyCopies s u ∧
    u.uncached = ((s0.setVs d m (fun L => x (y L)) k).countDrops m r).uncached ∧
    ∀ L : Lane, m.getLsbD L.val = true →
      (∀ leaf pa va, r L = .mem leaf pa va → ∃ l, l <:+ s.pastOf (r L) ∧ (∀ e ∈ l, s.mayUndo (r L) e = true) ∧
        y L = leNat (undo (vaOf va) l (leBytes n (leNat (s.view s.me leaf pa (vaOf va) n))))) ∧
      (∀ leaf va, r L = .remote leaf va → y L = leNat (s.view s.me leaf 0 (vaOf va) n)) ∧
      (∀ wid off va, r L = .core wid off va → ∃ l, l <:+ s.pastOf (r L) ∧ (∀ e ∈ l, s.mayUndo (r L) e = true) ∧
        y L = leNat (undo off l (leBytes n (leNat (s.cmRead wid off n))))) ∧
      ((r L).isDrop = true → y L = 0)
/-- A store: each active lane's n bytes of V[d], V[d + 1], … go to where its access leads, lane by lane in ascending order, so that the
highest lane's bytes stand (R210); dropped lanes are counted; nothing else happens, but that waiting slots may try again and that what
other leaves may not have seen yet is noted (R214; log 4). -/
def GivesStore (i : Instr) (s : State) (g : Bool) (d : VReg) (n : Nat) (iv : Bool) (pol : Pol) (r : Lane → LRes) : Prop :=
  let m := s.g.lanes g
  let ls := (lanesOf m).filter fun L => (r L).reaches
  let kept := ls.foldl (fun t L => t.keepPast n (r L)) s
  let u := (ls.foldl (fun t L => t.storeAt pol (r L) (leBytes n (s.g.storeVal d n L))) kept).countDrops m r
  (∀ L : Lane, m.getLsbD L.val = true →
    ((r L).reaches = true ∨ (r L).isDrop = true) ∧ (∀ off va, r L ≠ .window off va) ∧ (iv = true → badIv (s.g.storeVal d 8 L) = false)) →
  Issues i s → Flows s i.len → Clean i m s → GoesOn i s (if ls = [] then u else u.wake)
/-- The lines that the lanes of an atomic need are at their homes. -/
def State.atHome (s : State) (m : Mask) (r : Lane → LRes) : State :=
  (lanesOf m).foldl (fun (s : State) (L : Lane) => match r L with | .mem leaf pa va => s.fill s.me.home leaf pa (vaOf va) 0 .normal | _ => s) s
/-- An atomic in the lanes of m, after the transactional region it ends (R36) and once the lines are held: each lane reads, combines and
writes as one step, in ascending order (`atomicLanes`, outside the commit buffer), its old value goes to V[d], and copies are dropped
where the word is an acquire. -/
def State.afterAtomic (s : State) (m : Mask) (op : AOp) (ar : Bool) (level : Nat) (d : VReg) (r : Lane → LRes) : State :=
  let s1 := s.endTransaction
  let f := s1.atHome m r
  let p := ({ f with g := { f.g with region := .none } }).atomicLanes op s.g d r (lanesOf m) []
  let t := { p.2 with g := { p.2.g with region := f.g.region } }.setVs d m (fun L => BitVec.ofNat 128 ((p.1.lookup L.val).getD 0)) (op.size / 4)
  let t := (lanesOf m).foldl (fun t L => t.sawPast none (r L)) t
  if m = 0 then t else (t.dropCopies (s1.widened ar level r (lanesOf m))).wake
/-- The active lanes of an atomic reach memory and read no poison there. -/
def AtomicGood (s : State) (m : Mask) (op : AOp) (r : Lane → LRes) : Prop :=
  ∀ L : Lane, m.getLsbD L.val = true →
    (r L).reaches = true ∧ (∀ off va, r L ≠ .window off va) ∧ (s.atHome m r).datumPoison s.me.home (s.atHome m r).latch.hurt op.size (some L) (r L) = false
def GivesAtomic (i : Instr) (s : State) (g : Bool) (op : AOp) (ar : Bool) (level : Nat) (d : VReg) (r : Lane → LRes) : Prop :=
  AtomicGood s.endTransaction (s.g.lanes g) op r → Effect i s (s.g.lanes g) (s.afterAtomic (s.g.lanes g) op ar level d r)
/-- The translation unit's answer for an accessor's page that no cache and no unit holds: the four table entries of its walk (R193). -/
def State.entryOf (s : State) (va tbl lo : Nat) : Nat := leNat (s.plainRead (tbl + 8 * (va / 2 ^ lo % 512)) 8)
def nextTable (e : Nat) : Nat := e / 2 ^ 12 % 2 ^ 27 * 4096

/-! ### Engines and matrix words -/
/-- The matrix word that the issuing group appends to its core's order: its kind, token and the n scalars from S[a]. -/
def State.matrixOp (s : State) (kind : MKind) (d a : SReg) (n : Nat) : MOp :=
  { id := s.fresh, kind := kind, gid := s.g.gid, wid := s.g.wid, token := d, ipc := s.ipc, shm := shm s.g.regs.fmode
    desc := Vector.ofFn fun k => if k.val < n then s.g.readS (sreg a k.val) else 0 }
/-- What a copy that is no multicast meets on its way, in order: each word's read, then its write. -/
def State.meets (s : State) (c : Copy) : Bar := firstBar ((s.engPairs c).flatMap fun p => [(false, p.1), (true, p.2)])
/-- The record of lane L for a queue of width w. -/
def pushRecord (g : Group) (a b : VReg) (w : Nat) (L : Lane) : List Word :=
  padTo w [g.readV a L, g.readV (vreg a 1) L, g.readV b L, g.readV (vreg b 1) L]
/-- The interval of lane L in V[a], V[a + 1]. -/
def Group.ivKind (g : Group) (a : VReg) (L : Lane) : IvKind :=
  ({ lo := (g.readV a L).toNat, hi := (g.readV (vreg a 1) L).toNat } : Iv).kind fp32
/-- The stage queue k of the issuing group's launch holds other records. -/
def State.queued (s : State) (k : Nat) (f : List (List Word) → List (List Word)) : State :=
  s.updLaunch s.myLid (Launch.updStage k fun st => { st with queue := f st.queue })

/-! ### Other agents -/
/-- A host command with its arguments in ARG0 to ARG2, any idle state ended (R318), and its end with a result in OP (R308). -/
def State.asked (s : State) (args : Vector Word 3) : State := { s with host := { s.host with idle := 0, arg := args } }
def State.answered (u : State) (code r : Nat) : State := { u with host := { u.host with op := BitVec.ofNat 32 (code + r * 65536) } }
/-- While no command runs, the command `i` does `u` and ends at once with result r. -/
def Commands (i : Instr) (s : State) (code : Nat) (args : Vector Word 3) (r : Nat) (u : State → State) : Prop :=
  s.host.busy = none → exec i s = .next ((u (s.asked args)).answered code r)
/-- While no command runs, the command `i` does `u` and stays BUSY, OP bit 31. -/
def Starts (i : Instr) (s : State) (code : Nat) (args : Vector Word 3) (u : State → State) : Prop :=
  s.host.busy = none → exec i s = .next { u (s.asked args) with
    host := { (u (s.asked args)).host with op := BitVec.ofNat 32 (code + 2 ^ 31), busy := some i } }
/-- A resident group of the workgroup has the index n and has not retired. -/
def State.liveIndex (s : State) (w : Workgroup) (n : Nat) : Prop :=
  ∃ g ∈ s.allGroups, g.wid = w.wid ∧ g.gid ≠ 0 ∧ g.status ≠ .retired ∧ g.gidx = n

end
end Sys2Proof.Machine
end

