-- ==== Sys2Proof/Certificates/Slice0/Obligations.lean ====
section
/-!
DEFINITION. Certificates/Slice0/Obligations.lean: what the model is held to, from the numbered rules of the spec.
-/
section
open Sys2Proof Sys2Proof.Machine

/-! ### Words -/
/-- Words that the spec writes out beside their assembly (08 to 16), decoded. -/
def Obligations.DecodesSpecWords : Prop :=
  decode 0x02083042 0 = some (.add .satS false 3 1 (.reg 2)) ∧
  decode 0x0A0105FD 0 = some (.addi false 2 2 (-3)) ∧
  decode 0x28C0617F 1 = some (.shflXor false 6 5 (.lit 1)) ∧
  decode 0x10183042 0 = some (.fadd .rd false 3 1 (.reg 2)) ∧
  decode 0x20388310 0 = some (.iadd .f64 false 8 12 16) ∧
  decode 0x340517FF 0 = some (.sAddi 5 5 (-1)) ∧
  decode 0x4A014003 0 = some (.loop 0 5 3) ∧
  decode 0x53800142 0 = none ∧
  decode 0x5E6841C2 0 = some (.atomCas ⟨.device, true⟩ false 4 (.base 2 7)) ∧
  decode 0x6E194240 0 = some (.mzero 20 9) ∧
  decode 0x74001002 0 = some (.emit false 1 0 2) ∧
  decode 0x76028008 0 = some (.csrr 20 0x008) ∧
  decode 0x78230000 0 = some (.frec 24)

/-- R54, R45: no bit of an operand is lost: every well-formed vector or accumulator word decodes to itself. -/
def Obligations.VectorWordsDecode : Prop :=
  ∀ (i : Instr) (w lit : Word), i.wf = true → encode i = some w → w.toNat < 0x30000000 → decode w (i.literal.getD lit) = some i

/-- The same of the scalar, control and wait words. -/
def Obligations.ScalarWordsDecode : Prop :=
  ∀ (i : Instr) (w lit : Word), i.wf = true → encode i = some w → 0x30000000 ≤ w.toNat → w.toNat < 0x50000000 →
    decode w (i.literal.getD lit) = some i

/-- The same of the memory, engine, matrix, graphics and system words. -/
def Obligations.MemoryWordsDecode : Prop :=
  ∀ (i : Instr) (w lit : Word), i.wf = true → encode i = some w → 0x50000000 ≤ w.toNat → decode w (i.literal.getD lit) = some i

/-- R47, R51: a word that decodes is its instruction's own word, but for the chain bit; every other word, one with a bit set in
a field that must be 0 among them, is no instruction. -/
def Obligations.OnlyEncodedWordsDecode : Prop :=
  ∀ (w lit : Word) (i : Instr), decode w lit = some i →
    i.wf = true ∧ encode i = some (w &&& 0x7FFFFFFF) ∧ i.literal = if ownsLiteral w then some lit else none


/-! ### Steps -/
/-- R40, R42: word k of packet p is the four bytes, least significant first, at CODEBASE + 12 p + 4 k, or a fetch fault where
poison lies there; where the group's workgroup still holds a copy of code that has been stored to since, the word is that copy's
four bytes or the present ones (R302; logs 4 and 13: that a poisoned fetch faults is the model's reading). -/
def Obligations.FetchReadsPacketWords : Prop :=
  ∀ (s : State) (p : Word) (k : Nat) (leaf : Dword) (pa : Nat) (held : Bool),
    let at_ := BitVec.ofNat 64 (s.codeBase + 12 * p.toNat + 4 * k)
    let word := fun b0 b1 b2 b3 : Byte => BitVec.ofNat 32 (b0.toNat + 2 ^ 8 * b1.toNat + 2 ^ 16 * b2.toNat + 2 ^ 24 * b3.toNat)
    s.access s.me.home at_ 4 { fetch := true, tags := false } = .ok leaf pa held →
      ∃ b0 b1 b2 b3 : Byte, s.view s.me.home leaf pa (vaOf at_) 4 = [b0, b1, b2, b3] ∧
        (s.oldCode (vaOf at_) = none → s.fetchWord p k = if s.sick s.me.home pa (vaOf at_) then .fault 0x0D else .word (word b0 b1 b2 b3)) ∧
        ∀ l, s.oldCode (vaOf at_) = some l → ∃ c0 c1 c2 c3 : Byte, memRead l.data (vaOf at_ % 128) 4 = [c0, c1, c2, c3] ∧
          (s.fetchWord p k = .word (word b0 b1 b2 b3) ∨ s.fetchWord p k = .word (word c0 c1 c2 c3))

/-- A step of a group whose slot stands at a word that decodes and does not chain runs that instruction, as the group stands
once its leaves are aged and its slot is chosen (R67, R68), reading the registers it read at its issue where it has begun and
waits (R44). Where it waits it is tried again later; the swap of a chained `yield` follows it (R110). Then the turn passes
(R185, R186), what stores have replaced is seen in its order (log 4), what follows every step is done, and time goes on. -/
def Clause.StepRunsDecodedWord : Prop :=
  ∀ (s : State) (gid : Nat) (l : Entry) (w0 w1 w2 : Word) (i : Instr),
    let t := s.front gid
    let c := t.keepCode l.pc
    let a := pword w0 w1 w2 l.ws
    s.stopped = false → s.move = .issue gid → t.g.parked = [] → t.g.me.leaf = some l → t.fetchPacket l.pc = .words w0 w1 w2 →
    (l.ws = 0 → t.offender w0 w1 w2 3 0 false = none) → a.instr = some i → a.chains = false →
    step s = mapOut (exec i (c.withLatch (c.latchFor a.len false false))) fun u =>
      let swap := c.g.me.leaf.any (·.chained)
      let v := if u.latch.stall then (if u.latch.begun then u.hold1 c.readGroup.regs u.noNow swap else u).tryAgain u.latch.party
        else if swap then u.swapAfter c.myId else u
      { (t.orderPast l.id (i.acquires && !v.latch.stall)
          (v.afterIssue gid (t.detGroup t.g) (t.g.me.leaf.isSome && t.g.mate.leaf.isSome))).follow with silent := [] }.pass

/-- R43: a step of a group whose slot stands at a chained pair, neither word of which waits, runs both words, which read the
registers as they were before the pair; the swap of a `yield` follows the pair (R110). A pair that has not begun issues when
neither word, run from where the pair stands, would wait (log 15). -/
def Clause.StepRunsPair : Prop :=
  ∀ (s : State) (gid : Nat) (l : Entry) (w0 w1 w2 : Word) (i j : Instr) (u v : State),
    let t := s.front gid
    let c := t.keepCode l.pc
    let a := pword w0 w1 w2 l.ws
    let b := pword w0 w1 w2 a.next
    s.stopped = false → s.move = .issue gid → t.g.parked = [] → t.g.me.leaf = some l → t.fetchPacket l.pc = .words w0 w1 w2 →
    (l.ws = 0 → t.offender w0 w1 w2 3 0 false = none) → a.chains = true → a.guard = false → a.next < 3 → b.guard = false →
    a.instr = some i → b.instr = some j →
    exec i (c.withLatch (c.latchFor a.len true true)) = .next u → u.latch.stall = false → u.latch.party = false →
    (c.heldRegs = none → ∃ d, exec j (c.atSecond b c.readGroup) = .next d ∧ d.latch.stall = false ∧ d.latch.party = false) →
    exec j { u.setLeaf (fun x => { x with wait := c.myWait2 }) with
      latch := { u.latch with first := false, len := b.len, depth := none, skipped := false, no := u.latch.no.map (· + 1) } } = .next v →
    v.latch.stall = false →
    step s = .next { (t.orderPast l.id (i.acquires || j.acquires)
      ((if i = Instr.yield && !c.barred .yield then v.swapAfter c.myId else v).afterIssue gid (t.detGroup t.g)
        (t.g.me.leaf.isSome && t.g.mate.leaf.isSome))).follow with silent := [] }.pass

/-- A step that another agent takes runs that agent's row of the table, and what follows every step is done: its accesses come
after what stores have replaced, and a device that stays silent has done so (R213, R315; logs 4 and 13). -/
def Clause.StepRunsAgent : Prop :=
  ∀ (s : State) (i : Instr) (rest : List Turn), s.stopped = false → s.plan = .agent i :: rest → isStep i = true →
    step s = mapOut (exec i (s.withLatch {})) fun t => (t.follow.afterAgent i).pass

/-- A step runs the decoded instruction, or the row that the plan names. That a plan names the next turn is the model's own
(DESIGN CHOICE, log 5). -/
def Obligations.StepRunsDecodedInstruction : Prop :=
  Clause.StepRunsDecodedWord ∧ Clause.StepRunsPair ∧ Clause.StepRunsAgent

/-- R316: nothing stops the machine but a boot that failed. -/
def Obligations.OnlyFailedBootStops : Prop :=
  (∀ (i : Instr) (s : State), ∃ t, exec i s = .next t) ∧
  ∀ s : State, (s.stopped = false → s.Runs) ∧ (s.stopped = true → step s = .fault .bootStopped)


/-! ### Memory -/
/-- Bytes read back as written, and a write leaves every other byte. -/
def Clause.MemoryReadsBack : Prop :=
  ∀ (m : Memory) (a b : Nat) (x : Byte) (xs : List Byte),
    memGet (memSet m a x) b = (if b = a then x else memGet m b) ∧
    memGet (memWrite m a xs) b = (if h : a ≤ b ∧ b - a < xs.length then xs[b - a]'h.2 else memGet m b)

/-- In canonical form, memories that read alike are the same data. -/
def Clause.MemoryIsCanonical : Prop :=
  ∀ m n : Memory, m.wf = true → n.wf = true → (∀ a, memGet m a = memGet n a) → m = n

/-- Memory reads back what was written, and equal memories are equal data. -/
def Obligations.MemoryReadsBack : Prop :=
  Clause.MemoryReadsBack ∧ Clause.MemoryIsCanonical

/-- Every step keeps the canonical form of memory, tags and poison. -/
def Obligations.StepKeepsMemoryForm : Prop := ∀ s t : State, s.memOk = true → step s = .next t → t.memOk = true


/-! ### Reset -/
/-- R316, R317, R290, R398: after reset the device is booted (BOOTST bit 8), no partition is enabled, nothing is resident, no
context, queue, key, landing entry or command stands, every counter reads 0, every link is up, and memory lists nothing. That
memory and tags list nothing, that is, read 0, is the model's choice (logs 2, 3); so are a boot that has succeeded, BOOTST 0x100
(log 1), and what the host's registers, the landing entries, the ports and the links hold at reset where the spec gives nothing
(log 7). -/
def Obligations.ResetState : Prop :=
  let s := State.reset
  s.host.bootst = 0x100 ∧ s.g.gid = 0 ∧ s.others = [] ∧ s.otherWgs = [] ∧ s.launches = [] ∧ s.queues = [] ∧ s.ctxs = [] ∧
  (∀ p : Fin 16, s.parts[p].word = Vector.replicate 32 0) ∧ s.mem = [] ∧ s.tags = [] ∧ s.pois = [] ∧ s.keyed = [] ∧
  (∀ e : Fin 256, s.landing[e].words = Vector.replicate 8 0) ∧ s.host.op = 0 ∧
  (∀ k : Fin 8, s.dramStack[k].words = Vector.replicate 7 0 ∧ s.dramStack[k].up = true) ∧
  (∀ k : Fin 2, s.handoff[k] = Vector.replicate 14 0) ∧ (∀ k : Fin 24, s.ports[k].words = Vector.replicate 4 0 ∧ s.ports[k].up = true) ∧ s.memOk = true ∧ s.stopped = false


/-! ### Registers -/
/-- R22: a write of a vector register in the lanes of m takes those lanes of that register, clears their poison (R302), and
leaves everything else. -/
def Clause.VectorRegisterWrites : Prop :=
  ∀ (s : State) (d : VReg) (m : Mask) (x : Lane → Word),
    let t := s.setV d m x
    (∀ (r : VReg) (L : Lane), t.g.readV r L = if r = d ∧ m.getLsbD L.val = true then x L else s.g.readV r L) ∧
    (∀ r : VReg, t.g.regs.vpois[r] = if r = d then s.g.regs.vpois[r] &&& ~~~m else s.g.regs.vpois[r]) ∧
    { t with g := { t.g with regs := { t.g.regs with v := s.g.regs.v, vpois := s.g.regs.vpois } } } = s

/-- R22: a write of a predicate; p0 reads true and ignores writes. -/
def Clause.PredicateWrites : Prop :=
  ∀ (s : State) (d : PReg) (m : Mask) (x : Lane → PVal),
    let t := s.setP d m x
    (∀ (r : PReg) (L : Lane), t.g.readP r L = if r = d ∧ r ≠ 0 ∧ m.getLsbD L.val = true then x L else s.g.readP r L) ∧
    (∀ L : Lane, s.g.readP 0 L = .t) ∧
    { t with g := { t.g with regs := { t.g.regs with p := s.g.regs.p } } } = s

/-- R22, R24: a write of a scalar: s0-s59 take it, s60-s62 set a third of the slot's active mask within the lanes it owns, s63
reads zero and ignores it. -/
def Clause.ScalarWrites : Prop :=
  ∀ (s : State) (d : SReg) (x : Word),
    let t := s.setS d x
    (d.val < 60 → (∀ r : SReg, t.g.readS r = if r = d then x else s.g.readS r) ∧
      t.g.regs.spois = s.g.regs.spois &&& ~~~(1#64 <<< d.val) ∧
      { t with g := { t.g with regs := { t.g.regs with s := s.g.regs.s, spois := s.g.regs.spois } } } = s) ∧
    (60 ≤ d.val → d.val < 63 → ∀ l, s.g.me.leaf = some l →
      (∀ L : Lane, t.g.amask.getLsbD L.val =
        ((if L.val / 32 = d.val - 60 then x.getLsbD (L.val % 32) else l.amask.getLsbD L.val) && l.emask.getLsbD L.val)) ∧
      { t with g := { t.g with me := s.g.me } } = s ∧ t.g.me = { s.g.me with leaf := some { l with amask := t.g.amask } }) ∧
    (d.val = 63 → t = s ∧ s.g.readS d = 0) ∧
    (∀ k : Fin 3, ∀ i < 32, (s.g.readS (Fin.ofNat 64 (60 + k.val))).getLsbD i = s.g.amask.getLsbD (32 * k.val + i))

/-- R89, R31: flags are ORed into FSTAT and nothing else; a read of FSTAT in the same step sees them. -/
def Clause.FlagsAreSticky : Prop :=
  ∀ (s : State) (f : Byte) (i : Nat),
    (s.orFlags f).g.regs.fstat.getLsbD i = (s.g.regs.fstat.getLsbD i || f.getLsbD i) ∧
    { s.orFlags f with latch := s.latch, g := { (s.orFlags f).g with regs := { (s.orFlags f).g.regs with fstat := s.g.regs.fstat } } } = s

/-- R9, R53: without a guard the active lanes are the slot's active mask; with one, those of them whose guard predicate meets
the guard's sense. -/
def Clause.GuardedLanes : Prop :=
  ∀ (g : Machine.Group) (L : Lane),
    (g.lanes false).getLsbD L.val = g.amask.getLsbD L.val ∧
    (g.lanes true).getLsbD L.val = (g.amask.getLsbD L.val &&
      meets (g.readP (Fin.ofNat 8 (g.regs.guard.toNat % 8)) L) (g.regs.guard.toNat / 8 % 8))

/-- What a write of a register, a mask scalar or a flag changes, and which lanes are active. -/
def Obligations.RegisterWrites : Prop :=
  Clause.VectorRegisterWrites ∧ Clause.PredicateWrites ∧ Clause.ScalarWrites ∧ Clause.FlagsAreSticky ∧ Clause.GuardedLanes

/-- R91: the test that a sense makes of a predicate; 0b11 tests as undecided. -/
def Clause.SensesOfPredicates : Prop :=
  ∀ p : PVal,
    (meets p 0 = true ↔ p.rank = 2) ∧ (meets p 1 = true ↔ p.rank = 0) ∧ (meets p 2 = true ↔ p.rank = 1) ∧
    (meets p 3 = true ↔ p.rank ≠ 2) ∧ (meets p 4 = true ↔ p.rank ≠ 0) ∧ (meets p 5 = true ↔ p.rank ≠ 1) ∧ meets p 6 = true


/-! ### Predicates, shuffles, reductions -/
/-- R98: three-valued logic, in which 0b11 reads as undecided and no result is 0b11. -/
def Clause.PredicateLogic : Prop :=
  ∀ (s : State) (g : Bool) (d a b : PReg),
    let x := fun L : Lane => (s.g.readP a L).rank
    let y := fun L : Lane => (s.g.readP b L).rank
    GivesP (.pand g d a b) s g d (fun L => PVal.ofRank (min (x L) (y L))) ∧
    GivesP (.por g d a b) s g d (fun L => PVal.ofRank (max (x L) (y L))) ∧
    GivesP (.pxor g d a b) s g d (fun L => if x L = 1 ∨ y L = 1 then .u else truth (x L ≠ y L)) ∧
    GivesP (.pnot g d a) s g d (fun L => PVal.ofRank (2 - x L)) ∧
    GivesP (.pdf g d a) s g d (fun L => truth (x L = 2)) ∧
    GivesP (.pdt g d a) s g d (fun L => truth (x L ≠ 0)) ∧
    GivesP (.pund g d a) s g d (fun L => truth (x L = 1)) ∧
    GivesP (.pset g d 0) s g d (fun _ => .f) ∧ GivesP (.pset g d 1) s g d (fun _ => .t) ∧ GivesP (.pset g d 2) s g d (fun _ => .u)


/-! ### The device -/
/-- R98: fields that are no operand are 0, and `pset` takes three constants; the examples' words. -/
def Clause.PredicateEncodings : Prop :=
  (∀ w lit : Word, fld w 25 6 = 0x13 → fld w 22 3 ∈ [2, 4, 5, 7] → fld w 0 6 ≠ 0 → decode w lit = none) ∧
  (∀ w lit : Word, fld w 25 6 = 0x13 → fld w 22 3 = 6 → fld w 6 6 ≠ 0 ∨ 3 ≤ fld w 0 6 → decode w lit = none) ∧
  decode 0x26004083 0 = some (.pand false 4 2 3) ∧ decode 0x27803002 0 = some (.pset false 3 2)

/-- Senses and three-valued logic. -/
def Obligations.PredicateLogic : Prop :=
  Clause.SensesOfPredicates ∧ Clause.PredicateLogic ∧ Clause.PredicateEncodings


/-! ### Going on -/
/-- R40, R396: after a word its slot stands at the next word of its packet, or leaves the packet; RETIRED counts the word; only
where leaves stand and the loop counters may change beside. -/
def Clause.WordsGoOn : Prop :=
  ∀ (u : State) (len : Nat), u.latch.only = none → Flows u len →
    let t := u.onward len
    t.g.regs.retired = u.g.regs.retired + 1 ∧
    { t with latch := u.latch, g := { t.g with
        me := { t.g.me with leaf := u.g.me.leaf, stalled := u.g.me.stalled, since := u.g.me.since }
        mate := { t.g.mate with leaf := u.g.mate.leaf, stalled := u.g.mate.stalled, since := u.g.mate.since }
        entries := u.g.entries, regs := { t.g.regs with lc := u.g.regs.lc, lactive := u.g.regs.lactive, retired := u.g.regs.retired } } } = u ∧
    (∀ l, u.g.me.leaf = some l → l.ws + len < 3 →
      t = ((u.setLeaf fun l => { l with ws := l.ws + len, wait := .none, held := none, chained := false })).moved) ∧
    (∀ l, u.g.me.leaf = some l → 3 ≤ l.ws + len → l.skip = none → u.g.regs.lactive = 0 → t = (u.goto (l.pc + 1)).moved)

/-- R40, R65: where the group's only leaf is the root, going to a packet puts it at word 0 there. -/
def Clause.RootLeafGoes : Prop := ∀ (s : State) (l : Entry) (t : Word), Single s l → s.goto t = s.standAt t

/-- How a slot goes on after a word, and what else stays. -/
def Obligations.SlotsGoOn : Prop :=
  Clause.WordsGoOn ∧ Clause.RootLeafGoes

/-- R75: the end check of the highest installed level. -/
def Clause.LoopEndCheck : Prop :=
  ∀ (s : State) (p : Word) (k : Fin 3) (n : Nat), s.g.regs.lactive.getLsbD k.val = true →
    (∀ j : Fin 3, k < j → s.g.regs.lactive.getLsbD j.val = false) →
    let off := s.setRegs fun r => { r with lc := r.lc.set k 0, lactive := r.lactive &&& ~~~(1#3 <<< k.val) }
    (s.g.regs.lend[k] ≠ p → State.loopCheck p (n + 1) s = s.goto (p + 1)) ∧
    (s.g.regs.lend[k] = p → s.g.splitOpen = false → 1 < s.g.regs.lc[k].toNat →
      State.loopCheck p (n + 1) s = (s.setRegs fun r => { r with lc := r.lc.set k (r.lc[k] - 1) }).goto s.g.regs.lstart[k]) ∧
    (s.g.regs.lend[k] = p → s.g.splitOpen = false → s.g.regs.lc[k].toNat ≤ 1 → State.loopCheck p (n + 1) s = State.loopCheck p n off) ∧
    (s.g.regs.lend[k] = p → s.g.splitOpen = true →
      State.loopCheck p (n + 1) s = ((s.raise 0x0F s.g.amask).setRegs fun r =>
        { r with lc := r.lc.set k 0, lactive := r.lactive &&& ~~~(1#3 <<< k.val) }).goto (p + 1))


/-! ### Loops, barriers, waits -/
/-- R74, R112, R113: loop levels. -/
def Clause.Loops : Prop :=
  ∀ (s : State) (n : Fin 3) (a : SReg) (k : BitVec 6) (e : BitVec 14),
    let free := s.g.splitOpen = false ∧ ∀ j : Fin 3, n ≤ j → s.g.regs.lactive.getLsbD j.val = false
    let does := fun (i : Instr) (c : Word) =>
      (free → c ≠ 0 → Effect i s 0 (s.setRegs fun r => { r with
        lc := r.lc.set n c, lstart := r.lstart.set n (s.g.pc + 1), lend := r.lend.set n (s.g.pc + BitVec.ofNat 32 e.toNat)
        lactive := r.lactive ||| (1#3 <<< n.val) })) ∧
      (free → c = 0 → Effect i s 0 (s.setLeaf fun l => { l with skip := some (s.g.pc + BitVec.ofNat 32 e.toNat + 1) })) ∧
      (¬free → Does i s fun u => (u.raise 0x0F s.g.amask).advance 1)
    does (.loop n a e) (s.g.readS a) ∧ does (.loopi n k e) (BitVec.ofNat 32 k.toNat) ∧
    (s.g.regs.lactive.getLsbD n.val = true → s.g.splitOpen = false →
      Moves (.lbrk n) s ((s.setRegs fun r => { r with
        lc := Vector.ofFn fun j => if n ≤ j ∧ r.lactive.getLsbD j.val = true then 0 else r.lc[j]
        lactive := r.lactive &&& BitVec.ofNat 3 (2 ^ n.val - 1) }).goto (s.g.regs.lend[n] + 1))) ∧
    (s.g.regs.lactive.getLsbD n.val = false ∨ s.g.splitOpen = true → Does (.lbrk n) s fun u => (u.raise 0x0F s.g.amask).leave)

/-- Loop levels: installation, the end check, and leaving. -/
def Obligations.LoopLevels : Prop :=
  Clause.LoopEndCheck ∧ Clause.Loops


/-! ### Integer words of the lanes -/
/-- R92: the sums, differences, minima, maxima and absolute differences of the lanes, wrapped or held to their range. -/
def Clause.IntegerArithmetic : Prop :=
  ∀ (s : State) (g : Bool) (d a : VReg) (b : VSrc),
    let x := fun L : Lane => (s.g.readV a L).toInt
    let y := fun L : Lane => (s.g.vb b L).toInt
    let xn := fun L : Lane => ((s.g.readV a L).toNat : Int)
    let yn := fun L : Lane => ((s.g.vb b L).toNat : Int)
    GivesV (.add .wrap g d a b) s g d (fun L => BitVec.ofInt 32 (x L + y L)) ∧
    GivesV (.sub .wrap g d a b) s g d (fun L => BitVec.ofInt 32 (x L - y L)) ∧
    GivesV (.absd .wrap g d a b) s g d (fun L => BitVec.ofInt 32 |x L - y L|) ∧
    GivesLimited (.add .satS g d a b) s g d (-2 ^ 31) (2 ^ 31 - 1) (fun L => x L + y L) ∧
    GivesLimited (.sub .satS g d a b) s g d (-2 ^ 31) (2 ^ 31 - 1) (fun L => x L - y L) ∧
    GivesLimited (.absd .satS g d a b) s g d (-2 ^ 31) (2 ^ 31 - 1) (fun L => |x L - y L|) ∧
    GivesLimited (.add .satN g d a b) s g d 0 (2 ^ 32 - 1) (fun L => xn L + yn L) ∧
    GivesLimited (.sub .satN g d a b) s g d 0 (2 ^ 32 - 1) (fun L => xn L - yn L) ∧
    GivesLimited (.absd .satN g d a b) s g d 0 (2 ^ 32 - 1) (fun L => |xn L - yn L|) ∧
    GivesV (.minS g d a b) s g d (fun L => BitVec.ofInt 32 (min (x L) (y L))) ∧
    GivesV (.maxS g d a b) s g d (fun L => BitVec.ofInt 32 (max (x L) (y L))) ∧
    GivesV (.minN g d a b) s g d (fun L => BitVec.ofInt 32 (min (xn L) (yn L))) ∧
    GivesV (.maxN g d a b) s g d (fun L => BitVec.ofInt 32 (max (xn L) (yn L)))

/-- R95: integer compares write true or false, never undecided. -/
def Clause.IntegerCompares : Prop :=
  ∀ (s : State) (g : Bool) (d : PReg) (a : VReg) (b : VSrc),
    let x := fun L : Lane => s.g.readV a L
    let y := fun L : Lane => s.g.vb b L
    GivesP (.eq g d a b) s g d (fun L => truth (x L = y L)) ∧
    GivesP (.ne g d a b) s g d (fun L => truth (x L ≠ y L)) ∧
    GivesP (.ltS g d a b) s g d (fun L => truth ((x L).toInt < (y L).toInt)) ∧
    GivesP (.leS g d a b) s g d (fun L => truth ((x L).toInt ≤ (y L).toInt)) ∧
    GivesP (.ltN g d a b) s g d (fun L => truth ((x L).toNat < (y L).toNat)) ∧
    GivesP (.leN g d a b) s g d (fun L => truth ((x L).toNat ≤ (y L).toNat)) ∧
    GivesP (.test g d a b) s g d (fun L => truth (x L &&& y L ≠ 0))


/-! ### The device -/
/-- R92, R95, R55: the majors of the integer words hold no other words; the examples' words. -/
def Clause.IntegerEncodings : Prop :=
  NoWord 1 7 ∧ NoWord 4 7 ∧
  (∀ w lit : Word, fld w 25 6 = 1 → 2 < fld w 19 3 ∨ (2 ≤ fld w 22 3 ∧ fld w 22 3 ≤ 5 ∧ fld w 19 3 ≠ 0) → decode w lit = none) ∧
  decode 0x02083042 0 = some (.add .satS false 3 1 (.reg 2)) ∧ decode 0x08803042 0 = some (.ltS false 3 1 (.reg 2))

/-- Integer sums, minima, maxima, absolute differences and compares. -/
def Obligations.IntegerWords : Prop :=
  Clause.IntegerArithmetic ∧ Clause.IntegerCompares ∧ Clause.IntegerEncodings


/-! ### Integer words of the lanes -/
/-- R93, R90: logic, and shifts by any count up to 2^32 − 1. -/
def Clause.LogicAndShifts : Prop :=
  ∀ (s : State) (g : Bool) (d a : VReg) (b : VSrc),
    let x := fun L : Lane => s.g.readV a L
    let y := fun L : Lane => s.g.vb b L
    GivesV (.and g d a b) s g d (fun L => x L &&& y L) ∧
    GivesV (.or g d a b) s g d (fun L => x L ||| y L) ∧
    GivesV (.xor g d a b) s g d (fun L => x L ^^^ y L) ∧
    GivesV (.andn g d a b) s g d (fun L => x L &&& ~~~y L) ∧
    GivesV (.shl g d a b) s g d (fun L => BitVec.ofNat 32 ((x L).toNat * 2 ^ (y L).toNat)) ∧
    GivesV (.shr g d a b) s g d (fun L => BitVec.ofNat 32 ((x L).toNat / 2 ^ (y L).toNat)) ∧
    GivesV (.sar g d a b) s g d (fun L => BitVec.ofInt 32 ((x L).toInt / 2 ^ (y L).toNat))

/-- R94: products, the dot product of signed bytes, and bit counts. -/
def Clause.ProductsAndCounts : Prop :=
  ∀ (s : State) (g : Bool) (d a : VReg) (b : VSrc),
    let x := fun L : Lane => s.g.readV a L
    let y := fun L : Lane => s.g.vb b L
    let z := fun L : Lane => s.g.readV d L
    let byte := fun (w : Word) (i : Fin 4) => (w.extractLsb' (8 * i.val) 8).toInt
    GivesV (.mul g d a b) s g d (fun L => BitVec.ofNat 32 ((x L).toNat * (y L).toNat)) ∧
    GivesV (.mulhS g d a b) s g d (fun L => BitVec.ofInt 32 ((x L).toInt * (y L).toInt / 2 ^ 32)) ∧
    GivesV (.mulhN g d a b) s g d (fun L => BitVec.ofNat 32 ((x L).toNat * (y L).toNat / 2 ^ 32)) ∧
    GivesV (.mad g d a b) s g d (fun L => BitVec.ofNat 32 ((x L).toNat * (y L).toNat + (z L).toNat)) ∧
    GivesV (.dot4S8 g d a b) s g d (fun L => BitVec.ofInt 32 ((z L).toInt + ∑ i : Fin 4, byte (x L) i * byte (y L) i)) ∧
    GivesV (.popc g d a) s g d (fun L => BitVec.ofNat 32 (∑ i : Fin 32, ((x L).getLsbD i.val).toNat)) ∧
    GivesV (.clz g d a) s g d (fun L => BitVec.ofNat 32 (32 - Nat.size (x L).toNat))


/-! ### The device -/
/-- R93, R94, R55: the same of the logic, shift and product words. -/
def Clause.LogicEncodings : Prop :=
  NoWord 2 7 ∧ NoWord 3 7 ∧
  (∀ w lit : Word, fld w 25 6 = 3 → fld w 22 3 = 5 ∨ fld w 22 3 = 6 → fld w 0 6 ≠ 0 → decode w lit = none) ∧
  decode 0x05805106 0 = some (.sar false 5 4 (.reg 6)) ∧ decode 0x07007209 0 = some (.dot4S8 false 7 8 (.reg 9))

/-- Logic, shifts, products and bit counts. -/
def Obligations.LogicAndProducts : Prop :=
  Clause.LogicAndShifts ∧ Clause.ProductsAndCounts ∧ Clause.LogicEncodings


/-! ### Integer words of the lanes -/
/-- R96: the words with a 9-bit immediate, sign-extended, or unsigned as a count. -/
def Clause.ImmediateWords : Prop :=
  ∀ (s : State) (g : Bool) (d a : VReg) (i : BitVec 9),
    let x := fun L : Lane => s.g.readV a L
    let k := BitVec.ofInt 32 i.toInt
    GivesV (.addi g d a i) s g d (fun L => x L + k) ∧
    GivesV (.andi g d a i) s g d (fun L => x L &&& k) ∧
    GivesV (.ori g d a i) s g d (fun L => x L ||| k) ∧
    GivesV (.xori g d a i) s g d (fun L => x L ^^^ k) ∧
    GivesV (.shli g d a i) s g d (fun L => BitVec.ofNat 32 ((x L).toNat * 2 ^ i.toNat)) ∧
    GivesV (.shri g d a i) s g d (fun L => BitVec.ofNat 32 ((x L).toNat / 2 ^ i.toNat)) ∧
    GivesV (.sari g d a i) s g d (fun L => BitVec.ofInt 32 ((x L).toInt / 2 ^ i.toNat)) ∧
    GivesV (.movi g d i) s g d (fun _ => k)


/-! ### The device -/
/-- R96: `movi` has no source; the examples' words. -/
def Clause.ImmediateEncodings : Prop :=
  (∀ w lit : Word, fld w 25 6 = 5 → fld w 22 3 = 7 → fld w 9 6 ≠ 0 → decode w lit = none) ∧
  decode 0x0A0105FD 0 = some (.addi false 2 2 (-3)) ∧ decode 0x0B008002 0 = some (.shli false 1 0 2)

/-- Words with a 9-bit immediate. -/
def Obligations.ImmediateWords : Prop :=
  Clause.ImmediateWords ∧ Clause.ImmediateEncodings


/-! ### Integer words of the lanes -/
/-- R97: moves, selects on the predicate that GUARD names, and bit fields. -/
def Clause.MovesAndFields : Prop :=
  ∀ (s : State) (g : Bool) (d a : VReg) (b : VSrc),
    let x := fun L : Lane => s.g.readV a L
    let y := fun L : Lane => s.g.vb b L
    let z := fun L : Lane => s.g.readV d L
    let p := fun L : Lane => s.g.readP (Fin.ofNat 8 (s.g.regs.guard.toNat % 8)) L
    let pos := fun L : Lane => (y L).toNat % 32
    let wid := fun L : Lane => min ((y L).toNat / 256 % 64) (32 - pos L)
    let fields := fun L : Lane => (x L).toNat / 2 ^ pos L % 2 ^ wid L
    let m := fun L : Lane => BitVec.ofNat 32 ((2 ^ wid L - 1) * 2 ^ pos L)
    GivesV (.mov g d b) s g d y ∧
    GivesV (.sel g d a b) s g d (fun L => if meets (p L) (s.g.regs.guard.toNat / 8 % 8) then x L else y L) ∧
    GivesV (.selu g d a b) s g d (fun L => if p L = .t then x L else if p L = .f then y L else z L) ∧
    GivesV (.bfeN g d a b) s g d (fun L => BitVec.ofNat 32 (fields L)) ∧
    GivesV (.bfeS g d a b) s g d (fun L =>
      if wid L = 0 ∨ fields L < 2 ^ (wid L - 1) then BitVec.ofNat 32 (fields L) else BitVec.ofInt 32 (fields L - 2 ^ wid L)) ∧
    GivesV (.bfi g d a b) s g d (fun L => (z L &&& ~~~m L) ||| (BitVec.ofNat 32 ((x L).toNat * 2 ^ pos L) &&& m L)) ∧
    GivesV (.laneid g d) s g d (fun L => BitVec.ofNat 32 L.val)


/-! ### Predicates, shuffles, reductions -/
/-- R99: the shuffles. -/
def Clause.Shuffles : Prop :=
  ∀ (s : State) (g : Bool) (d a : VReg) (b : VSrc),
    let y := fun L : Lane => (s.g.vb b L).toNat
    GivesShuffled (.shflIdx g d a b) s g d a false (fun L => y L % 128) ∧
    GivesShuffled (.shflUp g d a b) s g d a true (fun L => L.val - y L) ∧
    GivesShuffled (.shflDn g d a b) s g d a true (fun L => L.val + y L) ∧
    GivesShuffled (.shflXor g d a b) s g d a false (fun L => (L.val ^^^ (y L % 128) : Nat)) ∧
    ∀ L0 : Lane, (s.g.lanes g).getLsbD L0.val = true → (∀ L : Lane, (s.g.lanes g).getLsbD L.val = true → L0 ≤ L) →
      (∀ v ∈ b.regs, s.g.regs.vpois[v].getLsbD L0.val = false) →
      GivesShuffled (.bcast g d a b) s g d a false (fun _ => y L0 % 128)

/-- R100: sums, votes and ballots of the active lanes. -/
def Clause.Reductions : Prop :=
  ∀ (s : State) (g : Bool) (d a : VReg) (dp ap : PReg) (ds : SReg),
    let m := s.g.lanes g
    let act := fun L : Lane => m.getLsbD L.val = true
    (s.g.regs.vpois[a] &&& m = 0 →
      GivesV (.redadd g d a) s g d (fun _ => BitVec.ofNat 32 (∑ L : Lane, if act L then (s.g.readV a L).toNat else 0))) ∧
    GivesP (.vote g dp ap) s g dp (fun _ =>
      if ∀ L, act L → s.g.readP ap L = .t then .t else if ∀ L, act L → s.g.readP ap L = .f then .f else .u) ∧
    ∀ w : Fin 3 → Word, (∀ (k : Fin 3) (i : Fin 32) (L : Lane), L.val = 32 * k.val + i.val →
        ((w k).getLsbD i.val = true ↔ act L ∧ s.g.readP ap L = .t)) →
      Effect (.ballot g ds ap) s 0 (((s.setS ds (w 0)).setS (sreg ds 1) (w 1)).setS (sreg (sreg ds 1) 1) (w 2))

/-- Moves, selects, bit fields, shuffles and reductions. -/
def Obligations.MovesShufflesReductions : Prop :=
  Clause.MovesAndFields ∧ Clause.Shuffles ∧ Clause.Reductions


/-! ### Scalar words -/
/-- R101, R102: scalar arithmetic and its immediate forms. -/
def Clause.ScalarArithmetic : Prop :=
  ∀ (s : State) (d a : SReg) (b : SSrc) (i : BitVec 10),
    let x := s.g.readS a
    let y := s.g.sb b
    let k := BitVec.ofInt 32 i.toInt
    GivesS (.sAdd d a b) s d (x + y) ∧ GivesS (.sSub d a b) s d (x - y) ∧
    GivesS (.sAnd d a b) s d (x &&& y) ∧ GivesS (.sOr d a b) s d (x ||| y) ∧ GivesS (.sXor d a b) s d (x ^^^ y) ∧
    GivesS (.sShl d a b) s d (BitVec.ofNat 32 (x.toNat * 2 ^ y.toNat)) ∧
    GivesS (.sShr d a b) s d (BitVec.ofNat 32 (x.toNat / 2 ^ y.toNat)) ∧
    GivesS (.sSar d a b) s d (BitVec.ofInt 32 (x.toInt / 2 ^ y.toNat)) ∧
    GivesS (.sMul d a b) s d (BitVec.ofNat 32 (x.toNat * y.toNat)) ∧
    GivesS (.sMulhS d a b) s d (BitVec.ofInt 32 (x.toInt * y.toInt / 2 ^ 32)) ∧
    GivesS (.sMulhN d a b) s d (BitVec.ofNat 32 (x.toNat * y.toNat / 2 ^ 32)) ∧
    GivesS (.sMinS d a b) s d (BitVec.ofInt 32 (min x.toInt y.toInt)) ∧
    GivesS (.sMaxS d a b) s d (BitVec.ofInt 32 (max x.toInt y.toInt)) ∧
    GivesS (.sSltS d a b) s d (if x.toInt < y.toInt then 1 else 0) ∧
    GivesS (.sSltN d a b) s d (if x.toNat < y.toNat then 1 else 0) ∧
    GivesS (.sSeq d a b) s d (if x = y then 1 else 0) ∧
    GivesS (.sAddi d a i) s d (x + k) ∧ GivesS (.sAndi d a i) s d (x &&& k) ∧
    GivesS (.sOri d a i) s d (x ||| k) ∧ GivesS (.sXori d a i) s d (x ^^^ k) ∧
    GivesS (.sShli d a i) s d (BitVec.ofNat 32 (x.toNat * 2 ^ i.toNat)) ∧
    GivesS (.sShri d a i) s d (BitVec.ofNat 32 (x.toNat / 2 ^ i.toNat)) ∧
    GivesS (.sSari d a i) s d (BitVec.ofInt 32 (x.toInt / 2 ^ i.toNat)) ∧
    GivesS (.sSltiS d a i) s d (if x.toInt < i.toInt then 1 else 0)


/-! ### The device -/
/-- R101, R102: the examples' words. -/
def Clause.ScalarEncodings : Prop :=
  decode 0x30C3EFD6 0 = some (.sOr 62 63 (.reg 22)) ∧ decode 0x33409105 0 = some (.sSltS 9 4 (.reg 5)) ∧
  decode 0x345060FF 0 = some (.sAndi 16 24 0xFF) ∧ decode 0x340517FF 0 = some (.sAddi 5 5 (-1))

/-- Scalar arithmetic. -/
def Obligations.ScalarArithmetic : Prop :=
  Clause.ScalarArithmetic ∧ Clause.ScalarEncodings


/-! ### Predicates, shuffles, reductions -/
/-- R105: between scalars and lanes. -/
def Clause.ScalarsAndLanes : Prop :=
  ∀ (s : State) (ds as : SReg) (d a : VReg) (b : SSrc),
    let j := (s.g.sb b).toNat % 128
    let here := fun k : Nat => s.g.amask.getLsbD k = true ∧ s.g.dead.getLsbD k = false
    Effect (.stov d as) s 0 (s.setV d s.g.amask fun _ => s.g.readS as) ∧
    (∀ L : Lane, L.val = j → here j → s.g.regs.vpois[a].getLsbD j = false → GivesS (.vtos ds a b) s ds (s.g.readV a L)) ∧
    (96 ≤ j ∨ ¬here j → Effect (.vtos ds a b) s 0 ((s.setS ds 0).orFlags 0x40)) ∧
    (∀ L : Lane, here L.val → (∀ k : Lane, s.g.amask.getLsbD k.val = true → L ≤ k) → s.g.regs.vpois[a].getLsbD L.val = false →
      GivesS (.vtosf ds a) s ds (s.g.readV a L)) ∧
    (s.g.amask = 0 → Effect (.vtosf ds a) s 0 ((s.setS ds 0).orFlags 0x40)) ∧
    GivesS (.ssel ds as b) s ds (if s.g.readS ds ≠ 0 then s.g.readS as else s.g.sb b)


/-! ### Scalar words -/
/-- R103, R104: scalar constants and pairs. -/
def Clause.ScalarConstantsAndPairs : Prop :=
  ∀ (s : State) (d a b : SReg) (c : SSrc) (i : BitVec 19),
    let pair := fun r : SReg => (s.g.readS r).toNat + 2 ^ 32 * (s.g.readS (sreg r 1)).toNat
    GivesS (.sMovi d i) s d (BitVec.ofInt 32 i.toInt) ∧
    GivesS (.movh d i) s d (BitVec.ofNat 32 (i.toNat * 2 ^ 13 + (s.g.readS d).toNat % 2 ^ 13)) ∧
    GivesS64 (.add64 d a b) s d (BitVec.ofNat 64 (pair a + pair b)) ∧
    GivesS64 (.sub64 d a b) s d (BitVec.ofInt 64 (pair a - pair b)) ∧
    GivesS64 (.addz64 d a c) s d (BitVec.ofNat 64 (pair a + (s.g.sb c).toNat)) ∧
    GivesS64 (.mov64 d a) s d (BitVec.ofNat 64 (pair a))

/-- Scalar constants and pairs, and moves between scalars and lanes. -/
def Obligations.ScalarsAndLanes : Prop :=
  Clause.ScalarsAndLanes ∧ Clause.ScalarConstantsAndPairs


/-! ### Floating point -/
/-- R131, R153: the exact results of sums, products and the FMA family on finite operands, the sign of a zero, NaNs, and the
invalid operations. -/
def Clause.FloatExactResults : Prop :=
  ∀ (md : Mode) (a b d : Val),
    (a.finite → b.finite → d.finite →
      (Arith.exact .add md a b d).is (a.real + b.real) ∧ (Arith.exact .sub md a b d).is (a.real - b.real) ∧
      (Arith.exact .mul md a b d).is (a.real * b.real) ∧ (Arith.exact .fma md a b d).is (a.real * b.real + d.real) ∧
      (Arith.exact .fms md a b d).is (a.real * b.real - d.real) ∧ (Arith.exact .nfma md a b d).is (-(a.real * b.real) + d.real)) ∧
    (∀ na nb ea eb, Arith.exact .add md (.fin na 0 ea) (.fin nb 0 eb) d = .val (if na = nb then na else md = .rd) 0 0 false) ∧
    (∀ n m e, 0 < m → Arith.exact .add md (.fin n m e) (.fin (!n) m e) d = .val (md = .rd) 0 0 false) ∧
    (a.isNan = true ∨ b.isNan = true →
      Arith.exact .add md a b d = .nan (a.snan || b.snan) ∧ Arith.exact .sub md a b d = .nan (a.snan || b.snan) ∧
      Arith.exact .mul md a b d = .nan (a.snan || b.snan) ∧ Arith.exact .fma md a b d = .nan (a.snan || b.snan || d.snan)) ∧
    (∀ n k e, Arith.exact .mul md (.fin n 0 e) (.inf k) d = .nan true ∧ Arith.exact .fma md (.fin n 0 e) (.inf k) d = .nan true ∧
      Arith.exact .add md (.inf k) (.inf !k) d = .nan true ∧ Arith.exact .sub md (.inf k) (.inf k) d = .nan true)

/-- R155: quotients and roots, cut after `prec` bits, with what is left over told apart from nothing. -/
def Clause.QuotientsAndRoots : Prop :=
  ∀ (prec : Nat) (a b : Val), a.finite → b.finite →
    (b.real ≠ 0 → a.real ≠ 0 → ∃ n m e st, divV prec a b = (.val n m e st, false) ∧ (n = true ↔ a.real / b.real < 0) ∧
      (m : ℚ) * 2 ^ e ≤ |a.real / b.real| ∧ |a.real / b.real| < (m + 1 : ℚ) * 2 ^ e ∧
      (st = false ↔ (m : ℚ) * 2 ^ e = |a.real / b.real|) ∧ 2 ^ prec ≤ m) ∧
    (0 < a.real → ∃ m e st, sqrtV prec a = .val false m e st ∧ ((m : ℚ) * 2 ^ e) ^ 2 ≤ a.real ∧ a.real < ((m + 1 : ℚ) * 2 ^ e) ^ 2 ∧
      (st = false ↔ ((m : ℚ) * 2 ^ e) ^ 2 = a.real) ∧ 2 ^ prec ≤ m) ∧
    (b.real = 0 → a.real = 0 → divV prec a b = (.nan true, false)) ∧
    (∀ n k x e, x ≠ 0 → divV prec (.fin n x e) (.fin k 0 e) = (.inf (n != k), true)) ∧
    (∀ n x e, x ≠ 0 → sqrtV prec (.fin true x e) = .nan true ∧ sqrtV prec (.fin n 0 e) = .val n 0 0 false)

/-- Exact results of floating-point operations before they are rounded. -/
def Obligations.FloatExactResults : Prop :=
  Clause.FloatExactResults ∧ Clause.QuotientsAndRoots

/-- R131, R134: rounding picks one of the two neighbours of the exact value as the mode says, overflows as it says, and is
inexact where the value is not in the format. x is the exact value's magnitude: m × 2^e, or above it by less than 2^e. -/
def Clause.RoundingPicksNeighbours : Prop :=
  ∀ (f : Fmt) (md : Mode) (neg : Bool) (m : Nat) (e : Int) (st : Bool) (x : ℚ),
    f ∈ [fp64, fp32, fp16, bf16, fe4m3, fe5m2] → 0 < m → (st = false → x = m * 2 ^ e) →
    (st = true → (m : ℚ) * 2 ^ e < x ∧ x < (m + 1 : ℚ) * 2 ^ e ∧ 2 ^ (f.fw + 2) ≤ m) →
    let r := roundMag f md neg m e st
    ∃ lo c : Nat, f.mval lo ≤ x ∧ x < f.mval (lo + 1) ∧ (c = lo ∨ c = lo + 1) ∧
      (c = lo + 1 ↔ takesUpper md neg (decide (lo % 2 = 1)) (x - f.mval lo) (f.mval (lo + 1) - x)) ∧
      (c < f.infBits → r.bits = signed f neg c ∧ (r.flags = 0 ↔ f.mval lo = x)) ∧
      (f.infBits ≤ c → r.flags = 20 ∧ r.bits = signed f neg (if f.e4m3 then f.maxBits else if toInf md neg then f.infBits else f.maxBits))

/-- R127, R128: a finite value rounds to itself in its own format, under every mode, with no flag. -/
def Clause.FiniteValuesRoundToThemselves : Prop :=
  ∀ (f : Fmt) (md : Mode) (b : Nat), f ∈ [fp64, fp32, fp16, bf16, fe4m3, fe5m2] → b < 2 * f.signBit → (f.val b).finite →
    finish f md false (f.val b).exact = { bits := b, tiny := f.isSub b }

/-- Rounding picks one of the two neighbours, as the mode says. -/
def Obligations.FloatRounding : Prop :=
  Clause.RoundingPicksNeighbours ∧ Clause.FiniteValuesRoundToThemselves

/-- R157: the order of values: by number, −0 equal to +0, infinities at the ends, NaNs outside it. -/
def Clause.FloatOrder : Prop :=
  ∀ (a b : Val),
    (a.finite → b.finite → (Val.lt a b = true ↔ a.real < b.real) ∧ (Val.eq a b = true ↔ a.real = b.real) ∧ (Val.le a b = true ↔ a.real ≤ b.real)) ∧
    (a.finite → Val.lt (.inf true) a = true ∧ Val.lt a (.inf false) = true ∧ Val.lt a (.inf true) = false ∧ Val.lt (.inf false) a = false) ∧
    (a.isNan = true ∨ b.isNan = true → Val.lt a b = false ∧ Val.eq a b = false ∧ Val.le a b = false)

/-- R136: the integer that a finite value converts to: cut towards zero under RZ, within one half under RNE, at most the value
under RD; held to the target's range with the invalid flag, and inexact where the value is no integer. -/
def Clause.FloatToInteger : Prop :=
  ∀ (md : Mode) (lo hi : Int) (v : Val), lo ≤ 0 → 0 ≤ hi → v.finite →
    let r := toInteger md lo hi v
    ∃ z : Int, |(z : ℚ) - v.real| < 1 ∧ (md = .rd → (z : ℚ) ≤ v.real) ∧ (md = .ru → v.real ≤ (z : ℚ)) ∧ (md = .rz → |(z : ℚ)| ≤ |v.real|) ∧
      (md = .rne ∨ md = .rna → |(z : ℚ) - v.real| ≤ 1 / 2) ∧
      (md = .rne → |(z : ℚ) - v.real| = 1 / 2 → z % 2 = 0) ∧ (md = .rna → |(z : ℚ) - v.real| = 1 / 2 → |v.real| < |(z : ℚ)|) ∧
      (z < lo → r = (lo, 1)) ∧ (hi < z → r = (hi, 1)) ∧ (lo ≤ z → z ≤ hi → r = (z, if (z : ℚ) = v.real then 0 else 16))

/-- R154, R156: minimum and maximum of numbers, NaNs and zeros, and the special cases of the functions; no sine or cosine
exceeds 1. -/
def Clause.FloatSpecialCases : Prop :=
  (∀ a b : Nat, (fp32.val a).isNan = false → (fp32.val b).isNan = true →
    (minNum fp32 a b).bits = a ∧ (minNum fp32 b a).bits = a ∧ (maxNum fp32 a b).bits = a ∧ (maxNum fp32 b a).bits = a) ∧
  (minNum fp32 0 0x80000000).bits = 0x80000000 ∧ (minNum fp32 0x80000000 0).bits = 0x80000000 ∧
  (maxNum fp32 0 0x80000000).bits = 0 ∧ (maxNum fp32 0x80000000 0).bits = 0 ∧
  (∀ a b : Nat, Val.lt (fp32.val a) (fp32.val b) = true → (minNum fp32 a b).bits = a ∧ (maxNum fp32 a b).bits = b) ∧
  ∀ fl : Bool,
    (∀ k, fnResult k fl 0x7FC00000 = { bits := 0x7FC00000 } ∧ fnResult k fl 0x7F800001 = { bits := 0x7FC00000, flags := 1 }) ∧
    fnResult .rcp fl 0 = { bits := 0x7F800000, flags := 2 } ∧ fnResult .rcp fl 0x80000000 = { bits := 0xFF800000, flags := 2 } ∧
    fnResult .rcp fl 0x7F800000 = { bits := 0 } ∧ fnResult .rcp fl 0xFF800000 = { bits := 0x80000000 } ∧
    fnResult .rsq fl 0 = { bits := 0x7F800000, flags := 2 } ∧ fnResult .rsq fl 0x80000000 = { bits := 0xFF800000, flags := 2 } ∧
    fnResult .rsq fl 0x7F800000 = { bits := 0 } ∧ fnResult .rsq fl 0xBF800000 = { bits := 0x7FC00000, flags := 1 } ∧
    fnResult .ex2 fl 0 = { bits := 0x3F800000 } ∧ fnResult .ex2 fl 0x80000000 = { bits := 0x3F800000 } ∧
    fnResult .ex2 fl 0xFF800000 = { bits := 0 } ∧ fnResult .ex2 fl 0x7F800000 = { bits := 0x7F800000 } ∧
    fnResult .ex2 fl 0x43000000 = { bits := 0x7F800000, flags := 20 } ∧
    fnResult .lg2 fl 0 = { bits := 0xFF800000, flags := 2 } ∧ fnResult .lg2 fl 0x7F800000 = { bits := 0x7F800000 } ∧
    fnResult .lg2 fl 0xBF800000 = { bits := 0x7FC00000, flags := 1 } ∧
    fnResult .sin fl 0 = { bits := 0 } ∧ fnResult .sin fl 0x80000000 = { bits := 0x80000000 } ∧
    fnResult .cos fl 0 = { bits := 0x3F800000 } ∧
    fnResult .sin fl 0x7F800000 = { bits := 0x7FC00000, flags := 1 } ∧ fnResult .cos fl 0xFF800000 = { bits := 0x7FC00000, flags := 1 } ∧
    ∀ a : Word, (fp32.val a.toNat).finite → (fnResult .sin fl a).bits % 2 ^ 31 ≤ 0x3F800000 ∧ (fnResult .cos fl a).bits % 2 ^ 31 ≤ 0x3F800000

/-- The order of values, conversion to integers, and special cases. The values of the functions between their special cases are
free (log 9). -/
def Obligations.FloatOrderAndSpecials : Prop :=
  Clause.FloatOrder ∧ Clause.FloatToInteger ∧ Clause.FloatSpecialCases

/-- R153, R159, R160: the arithmetic words: each lane's exact result, rounded once in the mode of the word; in the paired halves
each half by itself. -/
def Clause.FloatArithmeticWords : Prop :=
  ∀ (s : State) (m : Rm) (g : Bool) (d a b : VReg) (c : VSrc),
    let w := s.g.regs.fmode
    let md := m.mode w
    let one := fun (op : Arith) (L : Lane) => arithOut op fp32 w md (s.g.readV a L).toNat (s.g.vb c L).toNat (s.g.readV d L).toNat
    let two := fun (op : Arith) (L : Lane) => arithOut op fp64 w md (s.g.readV64 a L).toNat (s.g.readV64 b L).toNat (s.g.readV64 d L).toNat
    let half := fun (op : Arith) (f : Fmt) (L : Lane) => arithPair op f w md (s.g.readV a L) (s.g.vb c L) (s.g.readV d L)
    GivesF (.fadd m g d a c) s g (put32 d) (one .add) ∧ GivesF (.fsub m g d a c) s g (put32 d) (one .sub) ∧
    GivesF (.fmul m g d a c) s g (put32 d) (one .mul) ∧ GivesF (.ffma m g d a c) s g (put32 d) (one .fma) ∧
    GivesF (.ffms m g d a c) s g (put32 d) (one .fms) ∧ GivesF (.fnfma m g d a c) s g (put32 d) (one .nfma) ∧
    GivesF (.dadd m g d a b) s g (put64 d) (two .add) ∧ GivesF (.dsub m g d a b) s g (put64 d) (two .sub) ∧
    GivesF (.dmul m g d a b) s g (put64 d) (two .mul) ∧ GivesF (.dfma m g d a b) s g (put64 d) (two .fma) ∧
    GivesF (.hadd2 m g d a c) s g (put32 d) (half .add fp16) ∧ GivesF (.hmul2 m g d a c) s g (put32 d) (half .mul fp16) ∧
    GivesF (.hfma2 m g d a c) s g (put32 d) (half .fma fp16) ∧ GivesF (.badd2 m g d a c) s g (put32 d) (half .add bf16) ∧
    GivesF (.bmul2 m g d a c) s g (put32 d) (half .mul bf16) ∧ GivesF (.bfma2 m g d a c) s g (put32 d) (half .fma bf16)

/-- R154, R155, R156, R159: minimum and maximum, quotients, roots, and the functions. -/
def Clause.FloatUnaryAndDivideWords : Prop :=
  ∀ (s : State) (m : Rm) (g : Bool) (d a b : VReg) (c : VSrc),
    let w := s.g.regs.fmode
    let md := m.mode w
    let x := fun L : Lane => fp32.flushIn (w.getLsbD 3) (s.g.readV a L).toNat
    let y := fun L : Lane => fp32.flushIn (w.getLsbD 3) (s.g.vb c L).toNat
    let fn := fun (k : Config.Fn) (L : Lane) => (fnResult k (w.getLsbD 4) (BitVec.ofNat 32 (x L))).out
    GivesF (.fmin m g d a c) s g (put32 d) (fun L => (minNum fp32 (x L) (y L)).out) ∧
    GivesF (.fmax m g d a c) s g (put32 d) (fun L => (maxNum fp32 (x L) (y L)).out) ∧
    GivesF (.fdiv m g d a c) s g (put32 d) (fun L => (divOut fp32 w md (s.g.readV a L).toNat (s.g.vb c L).toNat).out) ∧
    GivesF (.fsqrt m g d a) s g (put32 d) (fun L => (sqrtOut fp32 w md (s.g.readV a L).toNat).out) ∧
    GivesF (.ddiv m g d a b) s g (put64 d) (fun L => (divOut fp64 w md (s.g.readV64 a L).toNat (s.g.readV64 b L).toNat).out) ∧
    GivesF (.dsqrt m g d a) s g (put64 d) (fun L => (sqrtOut fp64 w md (s.g.readV64 a L).toNat).out) ∧
    GivesF (.frcp g d a) s g (put32 d) (fn .rcp) ∧ GivesF (.frsq g d a) s g (put32 d) (fn .rsq) ∧
    GivesF (.fex2 g d a) s g (put32 d) (fn .ex2) ∧ GivesF (.flg2 g d a) s g (put32 d) (fn .lg2) ∧
    GivesF (.fsin g d a) s g (put32 d) (fn .sin) ∧ GivesF (.fcos g d a) s g (put32 d) (fn .cos)

/-- The floating-point arithmetic words. -/
def Obligations.FloatWords : Prop :=
  Clause.FloatArithmeticWords ∧ Clause.FloatUnaryAndDivideWords

/-- R157, R158, R130: comparisons and class tests. -/
def Clause.FloatCompareWords : Prop :=
  ∀ (s : State) (g : Bool) (d : PReg) (a : VReg) (b : VSrc) (k : BitVec 6),
    let w := s.g.regs.fmode
    let xb := fun L : Lane => fp32.flushIn (w.getLsbD 3) (s.g.readV a L).toNat
    let x := fun L : Lane => fp32.val (xb L)
    let y := fun L : Lane => fp32.val (fp32.flushIn (w.getLsbD 3) (s.g.vb b L).toNat)
    let quiet := fun (t : Bool) (L : Lane) => ({ val := if t then 1 else 0, flags := if (x L).snan || (y L).snan then 1 else 0 } : FOut)
    let loud := fun (t : Bool) (L : Lane) => ({ val := if t then 1 else 0, flags := if (x L).isNan || (y L).isNan then 1 else 0 } : FOut)
    let cls := fun L : Lane => fp32.cls (xb L)
    GivesF (.feq g d a b) s g (putP d) (fun L => quiet (Val.eq (x L) (y L)) L) ∧
    GivesF (.fne g d a b) s g (putP d) (fun L => quiet (!Val.eq (x L) (y L)) L) ∧
    GivesF (.flt g d a b) s g (putP d) (fun L => loud (Val.lt (x L) (y L)) L) ∧
    GivesF (.fle g d a b) s g (putP d) (fun L => loud (Val.le (x L) (y L)) L) ∧
    GivesF (.funord g d a b) s g (putP d) (fun L => quiet ((x L).isNan || (y L).isNan) L) ∧
    GivesF (.fcls g d a k) s g (putP d) (fun L =>
      { val := if (k.getLsbD 0 && (cls L = 0 || cls L = 7)) || (k.getLsbD 1 && (cls L = 1 || cls L = 6)) ||
          (k.getLsbD 2 && (cls L = 2 || cls L = 5)) || (k.getLsbD 3 && (cls L = 3 || cls L = 4)) ||
          (k.getLsbD 4 && cls L = 8) || (k.getLsbD 5 && cls L = 9) then 1 else 0
        flags := if cls L = 8 then 1 else 0 })

/-- R136, R161, R162: conversions, and the expansion of nibbles. -/
def Clause.ConversionWords : Prop :=
  ∀ (s : State) (m : Rm) (g : Bool) (d a : VReg) (b : VSrc),
    let w := s.g.regs.fmode
    let md := m.mode w
    let x := fun L : Lane => (s.g.readV a L).toNat
    let y := fun L : Lane => (s.g.vb b L).toNat
    let fromInt := fun z : Int => (finish fp32 md (w.getLsbD 4) (.val (decide (z < 0)) z.natAbs 0 false)).out
    let toInt := fun (lo hi : Int) (L : Lane) =>
      let r := toInteger md lo hi (fp32.val (fp32.flushIn (w.getLsbD 3) (x L)))
      ({ val := (BitVec.ofInt 32 r.1).setWidth 128, flags := r.2 } : FOut)
    let cvt := fun (src dst : Fmt) (z : Nat) => finish dst md (w.getLsbD 4) (src.val (src.flushIn (w.getLsbD 3) z)).exact
    let pack := fun (dst : Fmt) (n : Nat) (L : Lane) =>
      ({ val := BitVec.ofNat 128 ((cvt fp32 dst (x L)).bits + 2 ^ n * (cvt fp32 dst (y L)).bits)
         flags := (cvt fp32 dst (x L)).flags ||| (cvt fp32 dst (y L)).flags } : FOut)
    let nibble := fun (L : Lane) (i : Nat) => x L / 2 ^ (4 * (4 * (y L % 2) + i)) % 16
    GivesF (.cvtF32I32 m g d a) s g (put32 d) (fun L => fromInt (s.g.readV a L).toInt) ∧
    GivesF (.cvtF32N32 m g d a) s g (put32 d) (fun L => fromInt (x L)) ∧
    GivesF (.cvtI32F32 m g d a) s g (put32 d) (toInt (-2 ^ 31) (2 ^ 31 - 1)) ∧
    GivesF (.cvtN32F32 m g d a) s g (put32 d) (toInt 0 (2 ^ 32 - 1)) ∧
    GivesF (.cvtF32F16 m g d a) s g (put32 d) (fun L => (cvt fp16 fp32 (x L % 2 ^ 16)).out) ∧
    GivesF (.cvtF32Bf16 m g d a) s g (put32 d) (fun L => (cvt bf16 fp32 (x L % 2 ^ 16)).out) ∧
    GivesF (.cvtF32E4m3 m g d a) s g (put32 d) (fun L => (cvt fe4m3 fp32 (x L % 2 ^ 8)).out) ∧
    GivesF (.cvtF32E5m2 m g d a) s g (put32 d) (fun L => (cvt fe5m2 fp32 (x L % 2 ^ 8)).out) ∧
    GivesF (.cvtF16x2F32 m g d a b) s g (put32 d) (pack fp16 16) ∧ GivesF (.cvtBf16x2F32 m g d a b) s g (put32 d) (pack bf16 16) ∧
    GivesF (.cvtE4m3x2F32 m g d a b) s g (put32 d) (pack fe4m3 8) ∧ GivesF (.cvtE5m2x2F32 m g d a b) s g (put32 d) (pack fe5m2 8) ∧
    GivesF (.cvtF64F32 m g d a) s g (put64 d) (fun L => (cvt fp32 fp64 (x L)).out) ∧
    GivesF (.cvtF32F64 m g d a) s g (put32 d) (fun L => (cvt fp64 fp32 (s.g.readV64 a L).toNat).out) ∧
    GivesV (.unpk4N m g d a b) s g d (fun L => BitVec.ofNat 32 (∑ i : Fin 4, nibble L i.val * 2 ^ (8 * i.val))) ∧
    GivesV (.unpk4S m g d a b) s g d (fun L => BitVec.ofNat 32 (∑ i : Fin 4,
      (if nibble L i.val < 8 then nibble L i.val else nibble L i.val + 240) * 2 ^ (8 * i.val)))

/-- Floating-point compares, class tests and conversions. -/
def Obligations.FloatComparesAndConversions : Prop :=
  Clause.FloatCompareWords ∧ Clause.ConversionWords

/-- R76, R135, R141: what becomes of a lane's result: the destination keeps its value where the lane faults, an enabled flag
raises FPX, and under SHM 1, 2 and 3 a divergence is counted, faults, or is counted and retried. That a flip waits for the next
checked result of its lane, and that a retry computes without it, are the model's choices (log 17). -/
def Obligations.LaneVerdicts : Prop :=
  ∀ (w : Word) (ups : List Upset) (L : Lane) (o : FOut),
    let v := judge w ups L o
    let first := o.val ^^^ flipOf ups L false
    let again := o.val ^^^ flipOf ups L true
    let bad := fun x : BitVec 128 => o.pieces.any fun p => p.diverges x
    (∀ c, o.fault = some c → v = { fault := some c }) ∧
    (o.fault = none → o.flags &&& BitVec.ofNat 8 (w.toNat / 64 % 32) ≠ 0 → v = { flags := o.flags, fault := some 0x0B }) ∧
    (o.fault = none → o.flags &&& BitVec.ofNat 8 (w.toNat / 64 % 32) = 0 → o.pieces ≠ [] →
      (w.toNat / 2 ^ 11 % 4 = 0 ∨ bad first = false → v = { write := some first, flags := o.flags }) ∧
      (w.toNat / 2 ^ 11 % 4 = 1 → bad first = true → v = { write := some first, flags := o.flags, count := 1 }) ∧
      (w.toNat / 2 ^ 11 % 4 = 2 → bad first = true → v = { fault := some 0x0C }) ∧
      (w.toNat / 2 ^ 11 % 4 = 3 → bad first = true → bad again = false → v = { write := some again, flags := o.flags, count := 1 }) ∧
      (w.toNat / 2 ^ 11 % 4 = 3 → bad first = true → bad again = true → v = { fault := some 0x0C, count := 1 }))


/-! ### Intervals -/
/-- R133, R144: a lower bound is rounded down and an upper bound up, and a flushed one outwards: the exact value stays between.
-/
def Clause.BoundsRoundOutwards : Prop :=
  ∀ (f : Fmt) (fl : Bool) (n : Bool) (m : Nat) (e : Int), f = fp32 ∨ f = fp64 →
    let x := Exact.val n m e false
    let lo := f.val (bound f false fl x).bits
    let hi := f.val (bound f true fl x).bits
    (lo = .inf true ∨ lo.finite ∧ lo.real ≤ x.real) ∧ (hi = .inf false ∨ hi.finite ∧ x.real ≤ hi.real)

/-- R144, R146: sums, differences, products and squares of intervals hold every sum, difference, product and square of their
points. -/
def Clause.IntervalsEnclose : Prop :=
  ∀ (f : Fmt) (fl : Bool) (a b : Iv) (x y : ℚ), f = fp32 ∨ f = fp64 → a.kind f = .valid → b.kind f = .valid →
    inside (f.val a.lo) (f.val a.hi) x → inside (f.val b.lo) (f.val b.hi) y →
    let sum := boundsOut f true fl (addV .rd (f.val a.lo) (f.val b.lo)) (addV .ru (f.val a.hi) (f.val b.hi))
    let diff := boundsOut f true fl (addV .rd (f.val a.lo) (f.val b.hi).neg) (addV .ru (f.val a.hi) (f.val b.lo).neg)
    let prod := extremes f true fl mulBound (f.val a.lo) (f.val a.hi) (f.val b.lo) (f.val b.hi)
    inside (sum.lo f) (sum.hi f) (x + y) ∧ inside (diff.lo f) (diff.hi f) (x - y) ∧ inside (prod.lo f) (prod.hi f) (x * y)

/-- Interval results enclose every result of their points. -/
def Obligations.IntervalBounds : Prop :=
  Clause.BoundsRoundOutwards ∧ Clause.IntervalsEnclose

/-- R146, R164: the interval words of major 0x10. -/
def Clause.IntervalArithmeticWords : Prop :=
  ∀ (s : State) (k : IKind) (g : Bool) (d a b : VReg),
    let w := s.g.regs.fmode
    let fl := w.getLsbD 4
    let f := IKind.fmt k
    let x := s.g.readIv k a
    let y := s.g.readIv k b
    let al := fun L : Lane => f.val (x L).lo
    let ah := fun L : Lane => f.val (x L).hi
    let bl := fun L : Lane => f.val (y L).lo
    let bh := fun L : Lane => f.val (y L).hi
    let one := fun (o : Lane → FOut) (L : Lane) => whenValid w [(x L).kind f] ((ivEmpty f).pack f) (o L)
    let two := fun (o : Lane → FOut) (L : Lane) => whenValid w [(x L).kind f, (y L).kind f] ((ivEmpty f).pack f) (o L)
    let sq := fun v : Val => (mulBound v v).exact (f.fw + 3)
    GivesF (.iadd k g d a b) s g (putIv k d) (two fun L => boundsOut f true fl (addV .rd (al L) (bl L)) (addV .ru (ah L) (bh L))) ∧
    GivesF (.isub k g d a b) s g (putIv k d)
      (two fun L => boundsOut f true fl (addV .rd (al L) (bh L).neg) (addV .ru (ah L) (bl L).neg)) ∧
    GivesF (.imul k g d a b) s g (putIv k d) (two fun L => extremes f true fl mulBound (al L) (ah L) (bl L) (bh L)) ∧
    GivesF (.idiv k g d a b) s g (putIv k d) (two fun L =>
      if Val.le (bl L) (.fin false 0 0) && Val.le (.fin false 0 0) (bh L) then
        (if Val.eq (al L) (.fin false 0 0) && Val.eq (ah L) (.fin false 0 0) then exactOut f ⟨0, 0⟩
         else exactOut f ⟨f.infBits + f.signBit, f.infBits⟩)
      else extremes f false fl divBound (al L) (ah L) (bl L) (bh L)) ∧
    GivesF (.isqr k g d a) s g (putIv k d) (one fun L =>
      if Val.le (.fin false 0 0) (al L) then boundsOut f true fl (sq (al L)) (sq (ah L))
      else if Val.le (ah L) (.fin false 0 0) then boundsOut f true fl (sq (ah L)) (sq (al L))
      else boundsOut f true fl (.val false 0 0 false) (((mulBound (al L) (al L)).max (mulBound (ah L) (ah L))).exact (f.fw + 3))) ∧
    GivesF (.iwid k g d a) s g (putPt k d) (fun L => whenValid w [(x L).kind f] (BitVec.ofNat 128 f.nan)
      (let r := bound f true fl (addV .ru (ah L) (al L).neg)
       { val := BitVec.ofNat 128 r.bits, flags := r.flags, pieces := [pieceOf f 0 fl (addV .ru (ah L) (al L).neg) r] })) ∧
    GivesF (.ihull k g d a b) s g (putIv k d) (fun L =>
      if (x L).kind f = .malformed ∨ (y L).kind f = .malformed then { fault := some 0x0A }
      else if (x L).kind f = .empty ∧ (y L).kind f = .empty then emptyOut w ((ivEmpty f).pack f)
      else if (x L).kind f = .empty then exactOut f (y L)
      else if (y L).kind f = .empty then exactOut f (x L)
      else exactOut f ⟨minBits f (x L).lo (y L).lo, maxBits f (x L).hi (y L).hi⟩) ∧
    GivesF (.isect k g d a b) s g (putIv k d) (two fun L =>
      if Val.lt (f.val (minBits f (x L).hi (y L).hi)) (f.val (maxBits f (x L).lo (y L).lo)) then emptyOut w ((ivEmpty f).pack f)
      else exactOut f ⟨maxBits f (x L).lo (y L).lo, minBits f (x L).hi (y L).hi⟩)

/-- R146, R147, R165: the interval words of major 0x11. -/
def Clause.IntervalUnaryWords : Prop :=
  ∀ (s : State) (k : IKind) (g : Bool) (d a : VReg) (b : VSrc),
    let w := s.g.regs.fmode
    let fl := w.getLsbD 4
    let f := IKind.fmt k
    let zero : Val := .fin false 0 0
    let x := s.g.readIv k a
    let l := fun L : Lane => f.val (x L).lo
    let h := fun L : Lane => f.val (x L).hi
    let one := fun (o : Lane → FOut) (L : Lane) => whenValid w [(x L).kind f] ((ivEmpty f).pack f) (o L)
    let pt := fun (c : VSrc) (L : Lane) => if k = .f64 then (s.g.vb64 c L).toNat else (s.g.vb c L).toNat
    GivesF (.isqrt k g d a) s g (putIv k d) (one fun L =>
      if Val.lt (h L) zero then emptyOut w ((ivEmpty f).pack f)
      else boundsOut f false fl (sqrtV (f.fw + 3) (f.val (if Val.lt (l L) zero then 0 else if (l L).isZero then maxBits f (x L).lo 0 else (x L).lo)))
        (sqrtV (f.fw + 3) (h L))) ∧
    GivesF (.iabs k g d a) s g (putIv k d) (one fun L =>
      if Val.le zero (l L) then exactOut f (x L)
      else if Val.le (h L) zero then exactOut f ⟨negBits f (x L).hi, negBits f (x L).lo⟩
      else exactOut f ⟨0, maxBits f (negBits f (x L).lo) (x L).hi⟩) ∧
    GivesF (.ineg k g d a) s g (putIv k d) (one fun L => exactOut f ⟨negBits f (x L).hi, negBits f (x L).lo⟩) ∧
    GivesF (.imid k g d a) s g (putPt k d) (fun L => whenValid w [(x L).kind f] (BitVec.ofNat 128 f.nan)
      { val := BitVec.ofNat 128 (midpoint f (x L)).2.bits, flags := (midpoint f (x L)).2.flags &&& 0x10
        pieces := [pieceOf f 0 false (midpoint f (x L)).1 (midpoint f (x L)).2] }) ∧
    GivesF (.imake k g d a b) s g (putIv k d) (fun L =>
      if Iv.kind f ⟨pt (.reg a) L, pt b L⟩ = .valid then exactOut f ⟨pt (.reg a) L, pt b L⟩ else emptyOut w ((ivEmpty f).pack f)) ∧
    GivesF (.ipt k g d a) s g (putIv k d) (fun L =>
      match f.val (pt (.reg a) L) with
      | .fin _ _ _ => exactOut f ⟨pt (.reg a) L, pt (.reg a) L⟩
      | _ => emptyOut w ((ivEmpty f).pack f))

/-- R147: a split about a midpoint that is neither bound: the lower half in D, the upper in A; about a bound: the interval
itself in D and the empty interval in A, with no flag; an empty interval under EIM 0: two empty ones, with the flag. -/
def Clause.IntervalSplit : Prop :=
  ∀ (s : State) (k : IKind) (g : Bool) (d a : VReg),
    let f := IKind.fmt k
    let x := s.g.readIv k a
    let act := s.g.lanes g
    let mid := fun L : Lane => (midpoint f (x L)).2.bits
    let whole := fun L : Lane => Val.eq (f.val (mid L)) (f.val (x L).lo) || Val.eq (f.val (mid L)) (f.val (x L).hi)
    let lower := fun L : Lane => if whole L then x L else ⟨(x L).lo, mid L⟩
    let upper := fun L : Lane => if whole L then ivEmpty f else ⟨mid L, (x L).hi⟩
    s.upsets = [] → s.g.regs.fmode.toNat / 2 ^ 11 % 4 = 0 →
    ((∀ L : Lane, act.getLsbD L.val = true → (x L).kind f = .valid) →
      Effect (.isplit k g d a) s act ((s.setIv k d act fun L => (lower L).pack f).setIv k a act fun L => (upper L).pack f)) ∧
    ((∀ L : Lane, act.getLsbD L.val = true → (x L).kind f = .empty) → s.g.regs.fmode.getLsbD 5 = false →
      Effect (.isplit k g d a) s act
        (((s.setIv k d act fun _ => (ivEmpty f).pack f).setIv k a act fun _ => (ivEmpty f).pack f).orFlags (if act = 0 then 0 else 0x20)))

/-- R149, R166: the three-valued comparisons of major 0x12. -/
def Clause.IntervalCompareWords : Prop :=
  ∀ (s : State) (k : IKind) (g : Bool) (d : PReg) (a b : VReg),
    let w := s.g.regs.fmode
    let f := IKind.fmt k
    let x := s.g.readIv k a
    let y := s.g.readIv k b
    let al := fun L : Lane => f.val (x L).lo
    let ah := fun L : Lane => f.val (x L).hi
    let bl := fun L : Lane => f.val (y L).lo
    let bh := fun L : Lane => f.val (y L).hi
    let cmp := fun (t u : Lane → Bool) (L : Lane) => whenValid w [(x L).kind f, (y L).kind f] 0
      { val := if t L then 1 else if u L then 0 else 2 }
    let set := fun (t : Lane → Bool) (L : Lane) => if (x L).kind f = .malformed ∨ (y L).kind f = .malformed then ({ fault := some 0x0A } : FOut)
      else { val := if (x L).kind f = .empty ∨ ((y L).kind f ≠ .empty ∧ t L = true) then 1 else 0 }
    let apart := fun L : Lane => Val.lt (ah L) (bl L) || Val.lt (bh L) (al L)
    let same := fun L : Lane => Val.eq (al L) (ah L) && Val.eq (ah L) (bl L) && Val.eq (bl L) (bh L)
    GivesF (.ilt k g d a b) s g (putP3 d) (cmp (fun L => Val.lt (ah L) (bl L)) fun L => Val.le (bh L) (al L)) ∧
    GivesF (.ile k g d a b) s g (putP3 d) (cmp (fun L => Val.le (ah L) (bl L)) fun L => Val.lt (bh L) (al L)) ∧
    GivesF (.ieq k g d a b) s g (putP3 d) (cmp same apart) ∧ GivesF (.ine k g d a b) s g (putP3 d) (cmp apart same) ∧
    GivesF (.isubset k g d a b) s g (putP3 d) (set fun L => Val.le (bl L) (al L) && Val.le (ah L) (bh L)) ∧
    GivesF (.icont k g d a b) s g (putP3 d) (set fun L => Val.lt (bl L) (al L) && Val.lt (ah L) (bh L)) ∧
    GivesF (.iempty k g d a) s g (putP3 d) (fun L =>
      if (x L).kind f = .malformed then { fault := some 0x0A } else { val := if (x L).kind f = .empty then 1 else 0 })

/-- The interval words. -/
def Obligations.IntervalWords : Prop :=
  Clause.IntervalArithmeticWords ∧ Clause.IntervalUnaryWords ∧ Clause.IntervalSplit ∧ Clause.IntervalCompareWords


/-! ### The accumulator -/
/-- R167 to R172, R177: the accumulator words of a well-formed context, where no register that they read is poisoned and no
weight is pending. Every NaN that they write is the canonical one. -/
def Clause.AccumulatorWords : Prop :=
  ∀ (s : State) (c : Fin 2) (g : Bool) (d a : VReg) (p : PReg) (b : VSrc),
    let w := s.g.regs.xactl[c]
    let x := s.g.xctl c
    let m := s.g.lanes g
    let base := w.toNat % 64
    let pair := fun k : Nat => (Fin.ofNat 64 (base + 2 * k) : VReg)
    let depth := w.toNat / 2 ^ 6 % 8
    let method := w.toNat / 2 ^ 9 % 4
    let head := w.toNat / 2 ^ 18 % 8
    let count := w.toNat / 2 ^ 21 % 8
    let top := base + 2 * (3 + depth)
    let term := fun L : Lane => if w.getLsbD 11 then (s.g.readV64 a L).toNat else wide (s.g.readV a L)
    let k := fun L : Lane => (s.g.vb b L).toNat % 16
    let est := fun L : Lane => s.g.estimate x L
    let canon := fun y : Dword => if (fp64.val y.toNat).isNan = true then 0x7FF8000000000000 else y
    base % 2 = 0 → 2 ≤ depth → method ≤ 1 → top ≤ 64 → (top ≤ 32 ∨ s.g.regs.extb = true) → (method = 1 → w.toNat / 2 ^ 24 % 64 + depth ≤ 60) →
    (∀ v : VReg, s.g.regs.vpois[v] = 0) → s.g.regs.spois = 0 → s.g.regs.pending = 0 →
    (∀ h n : Nat, h < 8 → n < 8 → (s.setXactl c h n).g.xctl c = { x with head := h, count := n } ∧
      { (s.setXactl c h n).g.regs with xactl := s.g.regs.xactl } = s.g.regs ∧ (s.setXactl c h n).g.regs.xactl[1 - c] = s.g.regs.xactl[1 - c]) ∧
    (w.getLsbD 11 = false ∨ a.val % 2 = 0 →
      Effect (.xaadd c g a) s m (s.setV64 (pair 0) m fun L => BitVec.ofNat 64 (add64b (s.g.readV64 (pair 0) L).toNat (term L)))) ∧
    Effect (.xachk c) s 0 ((s.setV64 (pair (3 + head % depth)) s.g.live fun L => canon (s.g.readV64 (pair 0) L)).setXactl c
      ((head + 1) % depth) (min (count + 1) depth)) ∧
    Effect (.xadrn c g d) s m ((((s.setV64 (pair 2) m fun L =>
        BitVec.ofNat 64 (abs64 (sub64b (est L).1 (s.g.readV64 (pair 1) L).toNat))).setV64 (pair 1) m fun L => BitVec.ofNat 64 (est L).1).setDstat c m
          fun L => (est L).2).setV64 d m fun L => BitVec.ofNat 64 (est L).1) ∧
    Effect (.xatst c g p b) s m (s.setP p m fun L =>
      if s.g.regs.dstat[c][L].getLsbD 0 || s.g.regs.dstat[c][L].getLsbD 1 || s.g.regs.dstat[c][L].getLsbD 3 then .u
      else truth (Val.le (fp64.val (s.g.readV64 (pair 2) L).toNat) (fp32.val (s.g.vb b L).toNat) = true ∧ count = depth)) ∧
    Effect (.xaclr c) s 0 (((((s.setV64 (pair 0) s.g.live fun _ => 0).setV64 (pair 1) s.g.live fun _ => 0x7FF8000000000000).setV64 (pair 2)
      s.g.live fun _ => 0x7FF0000000000000).setDstat c s.g.live fun _ => 1).setXactl c 0 0) ∧
    Effect (.xard c g d b) s m (s.setV64 d m fun L =>
      if k L < 3 then canon (s.g.readV64 (pair (k L)) L)
      else if k L < 3 + count then canon (s.g.readV64 (pair (3 + (head + 2 * depth - 1 - (k L - 3)) % depth)) L)
      else 0x7FF8000000000000) ∧
    Effect (.xastat c g d) s m (s.setV d m fun L => (s.g.regs.dstat[c][L]).setWidth 32)

/-- R167, R168, R183: where XACTLc is malformed, or an FP64 term has an odd register, a word of its context is ILLEGAL: it
raises ILLEGAL on the active lanes and does nothing else, and is skipped uncounted where there are none. -/
def Clause.AccumulatorIllegal : Prop :=
  ∀ (s : State) (c : Fin 2) (g : Bool) (d a : VReg) (p : PReg) (b : VSrc),
    let w := s.g.regs.xactl[c]
    let base := w.toNat % 64
    let depth := w.toNat / 2 ^ 6 % 8
    let method := w.toNat / 2 ^ 9 % 4
    let top := base + 2 * (3 + depth)
    (w.getLsbD 11 = true → a.val % 2 = 1 → Outlawed (.xaadd c g a) s) ∧
    (base % 2 = 1 ∨ depth < 2 ∨ 2 ≤ method ∨ 64 < top ∨ 32 < top ∧ s.g.regs.extb = false ∨ method = 1 ∧ 60 < w.toNat / 2 ^ 24 % 64 + depth →
      ∀ i ∈ [.xaadd c g a, .xachk c, .xadrn c g d, .xatst c g p b, .xaclr c, .xard c g d b, .xastat c g d], Outlawed i s)

/-- R174, R178 to R181: a drain's estimate of a lane and its status, from the history, oldest entry first. -/
def Clause.AccumulatorEstimate : Prop :=
  (∀ (r : Machine.Group) (c : Fin 2) (L : Lane),
    let w := r.regs.xactl[c]
    let depth := w.toNat / 2 ^ 6 % 8
    let method := w.toNat / 2 ^ 9 % 4
    let thr := w.toNat / 2 ^ 12 % 64
    let head := w.toNat / 2 ^ 18 % 8
    let count := w.toNat / 2 ^ 21 % 8
    let entry := fun i : Nat => r.readV64 (Fin.ofNat 64 (w.toNat % 64 + 2 * (3 + (head + i) % depth))) L
    let H := fun i : Nat => if (fp64.val (entry i).toNat).isNan = true then 0x7FF8000000000000 else (entry i).toNat
    let weight := fun j : Nat => wide (r.readS (Fin.ofNat 64 (w.toNat / 2 ^ 24 % 64 + j)))
    let last := H (depth - 1)
    let est := r.estimate (r.xctl c) L
    let finite := ∀ i, i < depth → finite64 (H i) = true
    let stag := method = 0 ∧ Val.eq (fp64.val last) (fp64.val (H (depth - 2))) = true
    let gives := fun (e : Nat) (st : BitVec 4) => if finite64 e = true then (e, st) else (last, 8)
    2 ≤ depth → method ≤ 1 →
      (count = 0 → est = (0x7FF8000000000000, 1)) ∧
      (0 < count → count < depth → est = (last, 1)) ∧
      (depth ≤ count → ¬finite → est = (last, 8)) ∧
      (depth ≤ count → finite → stag → est = (last, 4)) ∧
      (depth ≤ count → finite → ¬stag → method = 0 → ∀ e : Nat → Nat → Option Nat, (∀ n, e 0 n = some 0) → (∀ n, e 1 n = some (H n)) →
        (∀ k n, e (k + 2) n = match e k (n + 1), e (k + 1) (n + 1), e (k + 1) n with
          | some p, some c1, some c0 => if nearZero thr (sub64b c1 c0) c1 c0 then none else some (add64b p (rcp64b (sub64b c1 c0)))
          | _, _, _ => none) →
        let m := (depth - 1) / 2
        (∀ x, e (2 * m + 1) 0 = some x → est = gives x 0) ∧
        (e (2 * m + 1) 0 = none → ∀ j x, j < m → e (2 * j + 1) (depth - 1 - 2 * j) = some x →
          (∀ i, j < i → i < m → e (2 * i + 1) (depth - 1 - 2 * i) = none) → est = gives x 2)) ∧
      (depth ≤ count → finite → method = 1 → ∀ acc : Nat → Nat, acc 0 = rne64 (mulV (fp64.val (weight 0)) (fp64.val last)) →
        (∀ j, acc (j + 1) = rne64 (fmaV .rne (fp64.val (weight (j + 1))) (fp64.val (H (depth - 1 - (j + 1)))) (fp64.val (acc j)))) →
        est = gives (acc (depth - 1)) 0)) ∧
  ∀ thr d a b : Nat, let v := fp64.val
    ((v d).isNan = true ∨ (v a).isNan = true ∨ (v b).isNan = true → nearZero thr d a b = false) ∧
    ((v d).finite → (v a).finite → (v b).finite →
      (nearZero thr d a b = true ↔ |(v d).real| ≤ max |(v a).real| |(v b).real| / 2 ^ thr))

/-- The extrapolating accumulator's words. -/
def Obligations.AccumulatorWords : Prop :=
  Clause.AccumulatorWords ∧ Clause.AccumulatorIllegal ∧ Clause.AccumulatorEstimate


/-! ### Control -/
/-- R53, R107, R108: jumps, and scalar branches on each condition. -/
def Clause.JumpsAndScalarBranches : Prop :=
  ∀ (s : State) (k : Cond) (a : SReg) (o : BitVec 16) (j : BitVec 22),
    let x := (s.g.readS a).toInt
    let holds : Prop := match k with
      | .z => x = 0 | .nz => x ≠ 0 | .ltz => x < 0 | .gez => 0 ≤ x | .gtz => 0 < x | .lez => x ≤ 0 | .always => True
    Moves (.jmp j) s (s.goto (s.g.pc + BitVec.ofInt 32 j.toInt)) ∧ Moves (.jmpr a) s (s.goto (s.g.readS a)) ∧
    (holds → Moves (.brs k a o) s (s.goto (s.g.pc + BitVec.ofInt 32 o.toInt))) ∧ (¬holds → Quits s → Moves (.brs k a o) s s.leave)

/-- R64: a branch on a predicate whose active lanes all agree creates no entry: it goes to the target, or on to the next packet.
-/
def Clause.UniformBranches : Prop :=
  ∀ (s : State) (sn : Sense) (p : PReg) (t : BitVec 10) (r : BitVec 9) (r' : BitVec 16) (off : Word) (l : Entry),
    let takes := fun L : Lane => meets (s.g.readP p L) (senseCode sn) = true
    s.g.me.leaf = some l →
    (l.amask ≠ 0 → (∀ L : Lane, l.amask.getLsbD L.val = true → takes L) →
      Moves (.brp sn p t r) s (s.goto (l.pc + BitVec.ofInt 32 t.toInt)) ∧ Moves (.brpl sn p r' off) s (s.goto (l.pc + off))) ∧
    ((∀ L : Lane, l.amask.getLsbD L.val = true → ¬takes L) → Quits s →
      Moves (.brp sn p t r) s s.leave ∧ Moves (.brpl sn p r' off) s s.leave)

/-- Jumps, scalar branches, and branches on which the lanes agree. -/
def Obligations.Branches : Prop :=
  Clause.JumpsAndScalarBranches ∧ Clause.UniformBranches

/-- R64, R63, R75: a branch that divides the lanes of a group's only leaf makes it a split parent that waits at the
reconvergence packet, with a fall-through child at the next packet in this slot and a taken child at the target in the other.
Dead and exited lanes own nothing and change nothing; where the packet ends the innermost loop level, the fall-through child's
way on meets the loop end check, which faults, since a split is open. That the fall-through child is created first, and that it
is the one checked, are the model's readings (log 16). -/
def Clause.DivergentBranches : Prop :=
  ∀ (s : State) (sn : Sense) (p : PReg) (t : BitVec 10) (r : BitVec 9) (r' : BitVec 16) (off : Word) (l : Entry),
    let T := l.amask &&& maskOf fun L => meets (s.g.readP p L) (senseCode sn)
    let F := l.amask &&& ~~~T
    let splits := fun (i : Instr) (target rpc : Word) => l.pc + 1 ≠ rpc → target ≠ rpc → Issues i s → ∃ u, exec i s = .next u ∧ u.rest = s.rest ∧
      u.g.entries = [{ l with kind := .split, amask := 0, pc := rpc, ws := 0, skip := none, wait := .none, wait2 := .none, held := none, no := none, chained := false }] ∧
      u.g.me.leaf = some { l with
        id := s.g.nextEntry, parent := some l.id, emask := F, amask := F, rpc := rpc, age := 0, pc := l.pc + 1, ws := 0, skip := none
        wait := .none, wait2 := .none, held := none, no := none, chained := false } ∧
      u.g.mate.leaf = some { id := s.g.nextEntry + 1, parent := some l.id, emask := T, amask := T, pc := target, rpc := rpc } ∧
      { u.g with me := s.g.me, mate := s.g.mate, entries := [], nextEntry := s.g.nextEntry, regs := s.g.regs } = s.g ∧
      u.g.regs = { s.g.regs with retired := s.g.regs.retired + 1 }
    let checked := fun (i : Instr) (target rpc : Word) (k : Fin 3) => Does i s fun u =>
      (({ u with g := u.g.split l T F target rpc s.fresh }.raise 0x0F F).setRegs fun r => r.uninstall k).goto (l.pc + 1)
    let target := l.pc + BitVec.ofInt 32 t.toInt
    let rpc := if r = 0 then l.rpc else l.pc + BitVec.ofNat 32 r.toNat
    let rpc' := if r' = 0 then l.rpc else l.pc + BitVec.ofNat 32 r'.toNat
    Single s l → l.arr = false → l.skip = none → T ≠ 0 → F ≠ 0 →
    ((∀ k, topLevel s.g.regs.lactive = some k → s.g.regs.lend[k] ≠ l.pc) →
      splits (.brp sn p t r) target rpc ∧ splits (.brpl sn p r' off) (l.pc + off) rpc') ∧
    ∀ k, topLevel s.g.regs.lactive = some k → s.g.regs.lend[k] = l.pc →
      checked (.brp sn p t r) target rpc k ∧ checked (.brpl sn p r' off) (l.pc + off) rpc' k

/-- R65: when the last child of a split reaches the reconvergence packet, the children go and the parent is a leaf there with
the lanes of both. -/
def Clause.LeavesMerge : Prop :=
  ∀ (s : State) (l p a : Entry), s.g.me.leaf = some l → s.g.mate.leaf = none → s.g.entries = [p, a] →
    l.kind = .leaf → l.arr = false → l.emask ≠ 0 → l.parent = some p.id → l.rpc ≠ 0xFFFFFFFF →
    p.kind = .split → p.emask ≠ 0 → p.parent = none → p.rpc = 0xFFFFFFFF → p.pc = l.rpc → a.kind = .leaf → a.arr = true → a.parent = some p.id →
    p.id ≠ a.id → p.id ≠ l.id → a.id ≠ l.id →
    (s.goto l.rpc).g.me.leaf = some { p with kind := .leaf, pc := l.rpc, ws := 0, amask := p.emask, age := 0, arr := false } ∧
    (s.goto l.rpc).g.mate.leaf = none ∧ (s.goto l.rpc).g.entries = [] ∧ (s.goto l.rpc).rest = s.rest ∧ (s.goto l.rpc).g.regs = s.g.regs

/-- Branches that divide a leaf, and leaves that merge. -/
def Obligations.Divergence : Prop :=
  Clause.DivergentBranches ∧ Clause.LeavesMerge

/-- R72: a call makes the leaf a call entry that will go on at the next packet, and starts a leaf of the active lanes at the
target; the last return makes the call entry a leaf again. -/
def Clause.CallsAndReturns : Prop :=
  ∀ (s : State) (l : Entry) (o : BitVec 22) (a : SReg),
    let called := fun target : Word => { s with g := { s.g with
      nextEntry := s.g.nextEntry + 1
      entries := [{ l with kind := .call, pc := l.rpc, ws := 0, rpc := l.pc + 1, amask := l.emask &&& ~~~l.amask, skip := none
                           wait := .none, wait2 := .none, held := none, no := none, chained := false }]
      me := { s.g.me with leaf := some { id := s.g.nextEntry, parent := some l.id, emask := l.amask, amask := l.amask, pc := target }, since := s.fresh } } }
    (Single s l → l.amask ≠ 0 → l.amask &&& l.emask = l.amask → l.arr = false →
      Moves (.call o) s (called (l.pc + BitVec.ofInt 32 o.toInt)) ∧ Moves (.callr a) s (called (s.g.readS a))) ∧
    ∀ c : Entry, s.g.me.leaf = some l → s.g.mate.leaf = none → s.g.entries = [c] → c.kind = .call → l.parent = some c.id → c.id ≠ l.id →
      c.emask ≠ 0 → c.pc = 0xFFFFFFFF → c.amask ||| l.emask = c.emask → Issues .ret s →
      ∃ u, exec .ret s = .next u ∧ u.rest = s.rest ∧ u.g.entries = [] ∧ u.g.mate.leaf = none ∧
        u.g.me.leaf = some { c with kind := .leaf, pc := c.rpc, ws := 0, rpc := c.pc, amask := c.emask, age := 0, arr := false } ∧
        u.g.regs = { s.g.regs with retired := s.g.regs.retired + 1 }

/-- R66, R85, R86, R109: `exit`, `kill` and `lkill` take the active lanes out: what the leaf still owns goes on, at the next
packet or, after `lkill`, at the next word; the group with no lane left retires. -/
def Clause.LanesLeave : Prop :=
  ∀ (s : State) (l : Entry), Single s l → l.skip = none → s.g.regs.lactive = 0 → s.g.method = none → s.g.region = .none →
    l.emask &&& (s.g.dead ||| s.g.exited) = 0 → l.amask &&& l.emask = l.amask → l.amask ≠ 0 → s.g.startExited ≠ allLanes →
    let left := { l with emask := l.emask &&& ~~~l.amask, amask := 0, pc := l.pc + 1, ws := 0
                         wait := .none, wait2 := .none, held := none, no := none, chained := false }
    (l.amask ≠ l.emask →
      (Issues .exit s → ∃ u, exec .exit s = .next u ∧ u.g.me.leaf = some left ∧ u.g.exited = s.g.exited ||| l.amask ∧ u.g.dead = s.g.dead ∧
        u.g.status = .ready ∧ u.g.regs = { s.g.regs with retired := s.g.regs.retired + 1 } ∧ u.rest = s.rest) ∧
      (Issues .kill s → ∃ u, exec .kill s = .next u ∧ u.g.me.leaf = some left ∧ u.g.dead = s.g.dead ||| l.amask ∧ u.g.exited = s.g.exited ∧
        u.g.status = .ready ∧ u.g.regs = { s.g.regs with retired := s.g.regs.retired + 1 } ∧ u.rest = s.rest) ∧
      (Issues .lkill s → l.ws < 2 → ∃ u, exec .lkill s = .next u ∧ u.g.dead = s.g.dead ||| l.amask ∧ u.g.exited = s.g.exited ∧
        u.g.me.leaf = some { left with pc := l.pc, ws := l.ws + 1 } ∧
        u.g.status = .ready ∧ u.g.regs = { s.g.regs with retired := s.g.regs.retired + 1 } ∧ u.rest = s.rest)) ∧
    (l.amask = l.emask → s.g.dead ||| s.g.exited ||| l.emask = allLanes →
      (Issues .exit s → ∃ u, exec .exit s = .next u ∧ u.g.status = .retired ∧ u.g.exited = s.g.exited ||| l.amask ∧ u.g.me.leaf = none) ∧
      (Issues .kill s → ∃ u, exec .kill s = .next u ∧ u.g.status = .retired ∧ u.g.dead = s.g.dead ||| l.amask ∧ u.g.me.leaf = none) ∧
      (Issues .lkill s → ∃ u, exec .lkill s = .next u ∧ u.g.status = .retired ∧ u.g.dead = s.g.dead ||| l.amask ∧ u.g.me.leaf = none))

/-- Calls, returns, and lanes that leave. -/
def Obligations.CallsAndExits : Prop :=
  Clause.CallsAndReturns ∧ Clause.LanesLeave


/-! ### Traps -/
/-- R83: taking an exception saves the resident leaves and LACTIVE in a trap entry, clears LACTIVE, sets TRAPPC and TRAPCAUSE,
and starts one handler leaf of every live lane at TRAPVEC in slot 0; registers, flags and masks stay. -/
def Clause.TrapEntrySaves : Prop :=
  ∀ (g : Machine.Group) (pc cause : Word) (now : Nat),
    let h := g.enterTrap pc cause now
    let id := fun k : Fin 2 => (g.slot k).leaf.map (·.id)
    h.regs = { g.regs with lactive := 0, trappc := pc, trapcause := cause } ∧
    h.entries = g.entries ++ g.me.leaf.toList ++ g.mate.leaf.toList ++
      [{ kind := .trap, id := g.nextEntry, emask := ~~~(g.dead ||| g.exited), slact := g.regs.lactive, cause := cause.setWidth 8
         slot0 := id 0, slot1 := id 1 }] ∧
    (h.slot 0).leaf = some { id := g.nextEntry + 1, parent := some g.nextEntry, emask := ~~~(g.dead ||| g.exited), amask := ~~~(g.dead ||| g.exited), pc := g.regs.trapvec } ∧
    (h.slot 1).leaf = none ∧
    { h with regs := g.regs, entries := g.entries, nextEntry := g.nextEntry, me := g.me, mate := g.mate } = g

/-- R83, R109, R120: `trap n` and `brk` enter the handler with causes SOFT and BRK, once the words that the group has issued are
complete; TRAPPC and the saved leaf name the next packet. -/
def Clause.SoftTraps : Prop :=
  ∀ (s : State) (l : Entry) (n : BitVec 13), Single s l → s.g.reads = [] →
    let enters := fun (i : Instr) (cause : Word) => Issues i s → ∃ u, exec i s = .next u ∧ u.rest = s.rest ∧
      u.g = (((s.standAt (l.pc + 1)).setRegs fun r => { r with retired := r.retired + 1 }).g.enterTrap ((l.pc + 1) * 4) cause s.fresh)
    enters (.trap n) (BitVec.ofNat 32 (0x10 + 2 ^ 16 * n.toNat)) ∧ enters .brk 0x11

/-- R83, R80: entry by the issue logic once the words that the group has issued are complete; inside a handler it is DOUBLE:
TRAPCAUSE 0x12 and TRAPPC the faulting word, the group halts, and the host is told. -/
def Clause.TrapEntryAndDouble : Prop :=
  ∀ (s : State) (cause : Byte) (pc : Word), s.g.status = .ready → s.g.dead ||| s.g.exited ≠ allLanes → s.g.busy = false →
    (s.g.openTrap = none → exec (.trapEntry cause pc) s = .next { s with g := s.g.enterTrap pc (cause.setWidth 32) s.fresh }) ∧
    (s.g.openTrap ≠ none → exec (.trapEntry cause pc) s = .next (({ s with g := { s.g with
      status := .halted, haltCode := cause.setWidth 32, regs := { s.g.regs with trappc := pc, trapcause := 0x12 } } }).hostEvent 3 pc (cause.setWidth 32)))

/-- Taking an exception: what is saved and where the group goes. That DOUBLE sets TRAPPC to the faulting word is the model's
reading (log 16). -/
def Obligations.TrapEntry : Prop :=
  Clause.TrapEntrySaves ∧ Clause.SoftTraps ∧ Clause.TrapEntryAndDouble

/-- R84: `tret` from a handler's root leaf removes the handler and its trap entry, gives LACTIVE back, and puts the saved leaves
back in their slots; anywhere else it is ILLEGAL, or, with no active lane, is skipped and not counted (R47, R396). -/
def Clause.TrapReturn : Prop :=
  (∀ (g : Machine.Group) (pc cause : Word) (now then_ : Nat) (t : Entry), (g.allEntries.map (·.id)).Nodup → (∀ e ∈ g.allEntries, e.id < g.nextEntry) →
    (g.enterTrap pc cause now).entries.getLast? = some t →
    let h := (g.enterTrap pc cause now).leaveTrap t then_
    (∀ k : Fin 2, (h.slot k).leaf = (g.slot k).leaf.map fun l => { l with age := 0, arr := false }) ∧ h.entries = g.entries ∧
    h.regs = { g.regs with trappc := pc, trapcause := cause }) ∧
  (∀ (s : State) (t : Entry), s.g.tretTrap = some t → Moves .tret s ({ s with g := s.g.leaveTrap t s.fresh }.regrow none)) ∧
  ∀ s : State, s.g.tretTrap = none →
    (s.g.amask ≠ 0 → Does .tret s fun u => (u.raise 0x01 s.g.amask).leave) ∧
    (s.g.amask = 0 → Issues .tret s → exec .tret s = .next { s.leave with latch := {} })

/-- R121, R79: `halt n` stops the group, once the words it has issued are complete, where its slot goes on in sequence, with
code n and an event; TRAPPC and TRAPCAUSE stay. A halt for a fault sets TRAPPC to the faulting word and TRAPCAUSE to its cause.
A halted group's entries beyond eight are written to its spill area, oldest first (R69). -/
def Clause.Halts : Prop :=
  (∀ (s : State) (l : Entry) (n : BitVec 13), Single s l → s.g.reads = [] → Quits s → Issues (.halt n) s →
    let t := s.leave
    let code := 0x80000000 ||| n.setWidth 32
    exec (.halt n) s = .next (({ t with latch := {}, g := { t.g with
      status := .halted, haltCode := code, regs := { t.g.regs with retired := t.g.regs.retired + 1 } } }).hostEvent 2 s.g.ipc code)) ∧
  ∀ (s : State) (pc code : Word), s.g.gid ≠ 0 → s.g.status = .ready → s.g.busy = false →
    let t := { s with g := { s.g with
      status := .halted, haltCode := code
      regs := if code.getLsbD 31 = true then s.g.regs else { s.g.regs with trappc := pc, trapcause := code } } }
    let u := t.hostEvent 2 pc code
    (s.g.method ≠ none → exec (.groupHalt s.g.gid (pc, code)) s = .next u) ∧
    (s.g.method = none → exec (.groupHalt s.g.gid (pc, code)) s = .next
      (u.devPuts (u.groupWho t.g) s.g.divsp.toNat (t.g.spilled.flatMap (Entry.words (t.g.ordered.map (·.id)))))) ∧
    t.g.spilled = (t.g.ordered.filter fun e => !(t.g.residents.any fun r => r.id = e.id)).take (t.g.depth - 8)

/-- Return from an exception, and halts. -/
def Obligations.TrapReturnAndHalt : Prop :=
  Clause.TrapReturn ∧ Clause.Halts


/-! ### Faults -/
/-- R15, R78: a lane's fault writes a record of its cause, lane, slot, DIVDEPTH, word, address, place and workgroup while the
group holds fewer than 128, and else marks the lane as holding a lost fault and counts it for the context; nothing else changes.
What the fault leads to is TRAPCFG's action as the word read it at issue, and it keeps the word's place in issue order (R79). -/
def Clause.FaultRecords : Prop :=
  ∀ (s : State) (cause : Byte) (L : Lane) (va : Dword), s.g.method = none →
    let t := s.raise1 cause L va
    t.latch = { s.latch with faults := s.latch.faults ++ [{ no := s.noNow, ipc := s.ipc, lane := L.val, cause := cause, act := actionOf s.src.trapcfgNow cause }] } ∧
    (s.g.records.length < 128 → { t with latch := s.latch, g := { t.g with records := s.g.records } } = s ∧
      ∃ r : Vector Word 8, t.g.records = s.g.records ++ [r] ∧
        r[0] = BitVec.ofNat 32 (cause.toNat + 2 ^ 8 * L.val + 2 ^ 15 * s.g.sel.val + 2 ^ 16 * s.depthNow) ∧ r[1] = s.ipc ∧
        r[2] = BitVec.ofNat 32 va.toNat ∧ r[3] = BitVec.ofNat 32 (va.toNat / 2 ^ 32) ∧
        r[4] = BitVec.ofNat 32 (s.g.core.val + 2 ^ 8 * s.g.simd.val + 2 ^ 10 * s.g.gslot.val + 2 ^ 16 * s.myCtx) ∧
        r[5] = BitVec.ofNat 32 s.w.stage.val ∧ r[6] = s.w.linear ∧ r[7] = 0) ∧
    (128 ≤ s.g.records.length → t.g = { s.g with lost := s.g.lost ||| (1#96 <<< L.val), lostCount := s.g.lostCount + 1 } ∧
      t.ctx? s.myCtx = (s.ctx? s.myCtx).map fun c => { c with lostRecords := c.lostRecords + 1 })

/-- R16: `frec` gives the oldest unread record, or zeros when there is none and every lost fault is acknowledged. -/
def Clause.RecordReads : Prop :=
  ∀ (s : State) (d : SReg), d.val % 8 = 0 → d.val ≤ 48 →
    (∀ r rs, s.g.records = r :: rs → Effect (.frec d) s 0 ({ s with g := { s.g with records := rs } }.setSs d r.toList)) ∧
    (s.g.records = [] → Effect (.frec d) s 0 ({ s with g := { s.g with lost := 0 } }.setSs d (List.replicate 8 0)))

/-- Fault records: written, lost, and read. -/
def Obligations.FaultRecords : Prop :=
  Clause.FaultRecords ∧ Clause.RecordReads

/-- R32, R79, R80: the class of a cause selects two bits of TRAPCFG. What the faults of an issue lead to: first the lanes whose
class says kill die; then the first fault whose class says halt stops the group with TRAPPC and TRAPCAUSE set; else the first
whose class says trap enters the handler. Inside a handler the first of them is DOUBLE, whatever its class. The first is so in
issue order, and by lane within a word, whenever the faults were found. That TRAPPC names the first fault whose class says trap,
whatever killed before it (log 15), and that DOUBLE sets TRAPPC to the faulting word (log 16), are the model's readings. -/
def Clause.FaultActions : Prop :=
  (∀ cfg : Word, ∀ c ∈ ([(0x01, 0), (0x02, 0), (0x03, 1), (0x04, 2), (0x05, 3), (0x06, 4), (0x07, 4), (0x08, 5), (0x09, 6), (0x0A, 7), (0x0B, 8),
      (0x0C, 9), (0x0D, 10), (0x0E, 11), (0x0F, 12), (0x14, 13), (0x15, 14), (0x16, 15)] : List (Nat × Nat)),
    actionOf cfg (BitVec.ofNat 8 c.1) = cfg.toNat / 4 ^ c.2 % 4) ∧
  ∀ (s : State) (d : Debt) (l : List FaultNote), d = { faults := l } → (∀ n ∈ l, n.lane < 96) → l ≠ [] →
    let halted := fun (v : State) (kind : Byte) (n : FaultNote) (cause : Word) => ({ v with g := { v.g with
      status := .halted, haltCode := n.cause.setWidth 32, regs := { v.g.regs with trappc := n.ipc, trapcause := cause } } }).hostEvent kind n.ipc (n.cause.setWidth 32)
    let v := s.kill (noteMask (l.filter fun n => n.act = 1))
    (v.g.status ≠ .retired →
      (∀ n, l.find? (fun n => decide (2 ≤ n.act)) = some n → s.act false d = halted v 2 n (n.cause.setWidth 32)) ∧
      (l.find? (fun n => decide (2 ≤ n.act)) = none → ∀ n, l.find? (fun n => decide (n.act = 0)) = some n →
        s.act false d = { v with g := v.g.enterTrap n.ipc (n.cause.setWidth 32) v.fresh }) ∧
      ((∀ n ∈ l, n.act = 1) → s.act false d = v)) ∧
    (s.g.status ≠ .retired → ∀ n, l.head? = some n → s.act true d = halted s 3 n 0x12) ∧
    ∀ x : Latch, let sorted := fun l : List FaultNote => l.Pairwise fun a b => ¬(b.no < a.no ∨ b.no = a.no ∧ b.lane < a.lane)
      (∀ n, n ∈ (d.add x).faults ↔ n ∈ l ∨ n ∈ x.faults) ∧ (sorted l → sorted (d.add x).faults)

/-- R47, R48, R49, R41, R396: an ILLEGAL word, an illegal packet, a pool guard and a page that may not be fetched from raise
their cause on every active lane, and the slot goes on: after the word, or at the next packet. Only an ILLEGAL word with an
active lane counts in RETIRED. -/
def Clause.NoInstructionFaults : Prop :=
  ∀ (s : State) (k : Fin 3) (x : BitVec 25), s.latch = {} → s.g.me.leaf.isSome = true → s.g.status = .ready →
    exec .illegalWord s = .next (((if s.g.amask = 0 then s else
      (s.raise 0x01 s.g.amask).setRegs fun r => { r with retired := r.retired + 1 }).advance 1).closeIssue) ∧
    exec (.poolGuard x) s = .next (((s.raise 0x02 s.g.amask).leave).closeIssue) ∧
    exec (.fetchFault false) s = .next (((s.raise 0x07 s.g.amask).leave).closeIssue) ∧
    exec (.fetchFault true) s = .next (((s.raise 0x08 s.g.amask).leave).closeIssue) ∧
    ∃ u, exec (.illegalPacket k) s = .next u ∧
      u = ((({ s with latch := { s.latch with ipc := some (s.g.pc * 4 + BitVec.ofNat 32 k.val) } }.raise 0x01 s.g.amask).withLatch
        { ({ s with latch := { s.latch with ipc := some (s.g.pc * 4 + BitVec.ofNat 32 k.val) } }.raise 0x01 s.g.amask).latch with ipc := none }).leave).closeIssue

/-- What faults lead to. -/
def Obligations.FaultActions : Prop :=
  Clause.FaultActions ∧ Clause.NoInstructionFaults


/-! ### Loops, barriers, waits -/
/-- R110, R117: `nop` does nothing; `sleep 0` and `wtok` on a scalar that waits for no token go on at once, `sleep n` waits for
its time, and a word that names a scalar with a pending token waits; `yield` lets other groups pass, and gives its slot to the
oldest waiting leaf. -/
def Obligations.NopsAndWaits : Prop :=
  ∀ (s : State) (n : BitVec 13) (d : SReg),
    let after := fun l : Entry => { l with ws := l.ws + 1, wait := .none, wait2 := .none, held := none, no := none, chained := false }
    Effect .nop s 0 s ∧ Effect (.sleep 0) s 0 s ∧ Effect (.wtok d) s 0 s ∧
    (n ≠ 0 → s.myWait ≠ .granted → Waits (.sleep n) s fun u => u.waitFor .sleep) ∧
    (n ≠ 0 → s.myWait = .granted → Effect (.sleep n) s 0 s) ∧
    (s.g.regs.pending.getLsbD d.val = true → s.latch = { len := 1 } → s.g.me.leaf.isSome = true → s.g.status = .ready → s.g.method = none →
      exec (.wtok d) s = .next s.stallNow) ∧
    (∀ l, Single s l → l.ws < 2 → Issues .yield s → ∃ u, exec .yield s = .next u ∧ u.rest = s.rest ∧ u.g = { s.g with
      passed := true, me := { s.g.me with leaf := some (after l) }, regs := { s.g.regs with retired := s.g.regs.retired + 1 } }) ∧
    (∀ l w, s.g.me.leaf = some l → l.ws < 2 → oldest s.g.waiting = some w → Issues .yield s → ∃ u, exec .yield s = .next u ∧ u.rest = s.rest ∧
      u.g = { s.g with
        passed := true, regs := { s.g.regs with retired := s.g.regs.retired + 1 }
        entries := (s.g.entries.filter fun e => e.id ≠ w.id) ++ [{ after l with age := 0 }]
        me := { s.g.me with leaf := some { w with age := 0 }, stalled := false, since := s.fresh } })

/-- R115: arrivals on a workgroup's barriers, the completion of a phase, and the wait for it. Every slot of the workgroup that
waits for the phase sees its completion, and one that waits to arrive again may. -/
def Clause.Barriers : Prop :=
  (∀ (w : Workgroup) (e : Nat) (n : Fin 16),
    let full := e ≤ w.barArrived[n] ∧ 0 < w.barArrived[n]
    (w.completeBars e).barArrived[n] = (if full then 0 else w.barArrived[n]) ∧
    ((w.completeBars e).barPhase.getLsbD n.val = if full then !w.barPhase.getLsbD n.val else w.barPhase.getLsbD n.val)) ∧
  (∀ (s : State) (wid : Nat),
    let full := ((s.wg? wid).getD {}).barFull (s.expected wid)
    (s.completeBars wid).allGroups = s.allGroups.map fun h => (if h.wid = wid then h.passBars full else h).wake) ∧
  (∀ (full : Fin 16 → Bool) (h : Machine.Group) (k : Fin 2) (l : Entry) (n : Fin 16),
    let goes := fun w : Wait => match w with
      | .barred j => if full j then .granted else w
      | .rearm j => if full j then .none else w
      | _ => w
    ((h.slot k).leaf = some l → ((h.passBars full).slot k).leaf = some { l with wait := goes l.wait, wait2 := goes l.wait2 }) ∧
    ((h.passBars full).barPending.getLsbD n.val =
      (h.barPending.getLsbD n.val && !(full n && h.allEntries.any fun e => e.wait = .barred n || e.wait2 = .barred n)))) ∧
  ∀ (s : State) (n : Fin 16),
    let phase := s.w.barPhase.getLsbD n.val
    let isOpen := s.g.barPending.getLsbD n.val = true ∧ phase = s.g.barPhase.getLsbD n.val
    let one := (s.g.sel == 1)
    let arrived := fun u : State => ({ u with
      w := { u.w with barArrived := u.w.barArrived.set n (s.w.barArrived[n] + 1) }
      g := { u.g with barPhase := bitSet u.g.barPhase n phase, barPending := bitSet u.g.barPending n true, barSlot := bitSet u.g.barSlot n one } }).completeBars u.w.wid
    let done := fun t : State => { t with g := { t.g with barPending := bitSet t.g.barPending n false } }
    (¬isOpen → Effect (.bararr n) s 0 (arrived s)) ∧
    (isOpen → s.g.barSlot.getLsbD n.val ≠ one → Effect (.bararr n) s 0 s) ∧
    (isOpen → s.g.barSlot.getLsbD n.val = one → Waits (.bararr n) s fun u => u.waitFor (.rearm n)) ∧
    (s.g.barPending.getLsbD n.val = false → Effect (.barwait n) s 0 s) ∧
    (s.myWait ≠ .granted → s.g.barPending.getLsbD n.val = true → phase ≠ s.g.barPhase.getLsbD n.val → Effect (.barwait n) s 0 (done s)) ∧
    (s.myWait ≠ .granted → isOpen → Waits (.barwait n) s fun u => u.waitFor (.barred n)) ∧
    (s.myWait = .granted → Effect (.barwait n) s 0 s ∧ Effect (.bar n) s 0 s) ∧
    (s.myWait = .barred n → Waits (.bar n) s fun u => u.waitFor (.barred n)) ∧
    (s.myWait ≠ .granted → s.myWait ≠ .barred n →
      (¬isOpen → s.w.wid ≠ 0 → s.expected s.w.wid ≤ s.w.barArrived[n] + 1 → Effect (.bar n) s 0 (done (arrived s))) ∧
      (¬isOpen → s.w.barArrived[n] + 1 < s.expected s.w.wid → Waits (.bar n) s fun u => (arrived u).waitFor (.barred n)) ∧
      (isOpen → s.g.barSlot.getLsbD n.val ≠ one → Waits (.bar n) s fun u => u.waitFor (.barred n)) ∧
      (isOpen → s.g.barSlot.getLsbD n.val = one → Waits (.bar n) s fun u => u.waitFor (.rearm n)))

/-- R116: arrival barrier words in core memory: initialised whole, poisoned or not; arrivals; and a wait, which ends where the
phase has changed or the word is FAULTED and is then an acquire. What waiters on a word that `abinit` writes do is a free choice
(log 6). -/
def Clause.ArrivalBarriers : Prop :=
  (∀ k x : Nat, x < 2 ^ 64 →
    let y := arriveWord k x
    barExpected y = barExpected x ∧
    (barPend x = 0x7FFFFFFF → y = x) ∧
    (barPend x ≠ 0x7FFFFFFF → barPend x < k → barPend y = 0x7FFFFFFF ∧ barPh y = barPh x) ∧
    (barPend x ≠ 0x7FFFFFFF → k < barPend x → barPend y = barPend x - k ∧ barPh y = barPh x) ∧
    (barPend x ≠ 0x7FFFFFFF → k = barPend x → barPend y = barExpected x % 2 ^ 31 ∧ barPh y = 1 - barPh x)) ∧
  (∀ (s : State) (wid off : Nat), (∀ g ∈ s.allGroups, ∀ (k : Fin 2) (l : Entry), (g.slot k).leaf = some l → l.wait ≠ .onWord wid off ∧ l.wait2 ≠ .onWord wid off) →
    s.freeWaiters wid off = s) ∧
  ∀ (s : State) (d : SReg) (k : BitVec 13) (p : Bool) (wid off : Nat),
    let x := leNat (s.cmRead wid off 8)
    s.cmPlace s.w (s.g.readS d) 8 = .ok (wid, off) →
    Effect (.abinit d k) s 0 (((s.freeWaiters wid off).cmWrite wid off (leBytes 8 (k.toNat + 2 ^ 32 * k.toNat))).wake) ∧
    (s.cmPoisoned wid off 8 = false →
      Effect (.abarr d k) s 0 ((s.cmWrite wid off (leBytes 8 (arriveWord k.toNat x))).wake) ∧
      (s.myWait = .granted ∨ barPh x ≠ p.toNat ∨ barPend x = 0x7FFFFFFF →
        Effect (.abwait d p) s 0 ((s.dropCopies (if wid = s.g.wid then 0 else 1)).acquireBar wid off)) ∧
      (s.myWait ≠ .granted → barPh x = p.toNat → barPend x ≠ 0x7FFFFFFF → Waits (.abwait d p) s fun u => u.waitFor (.onWord wid off)))

/-- Workgroup barriers and arrival barriers. -/
def Obligations.Barriers : Prop :=
  Clause.Barriers ∧ Clause.ArrivalBarriers

/-- R33, R34, R36: regions open with a seed of s0-s15, pc, mask and FMODE, which goes to the group's slot of the work area
(R266), and close, where the group has one leaf and no loop level; elsewhere the words are ILLEGAL. The stores that a
transactional region holds are performed when it closes, oldest first; before an atomic, a copy and their like all that its core
holds are, and its restart ends. The order and place of the seed behind the spill records are the model's reading (log 16). -/
def Clause.Regions : Prop :=
  (∀ (s : State) (l : Entry), Single s l → l.arr = false → l.ws < 2 → s.g.regs.lactive = 0 → s.myPhase ≠ .soft →
    (s.g.region = .trans → ∀ h ∈ (s.core? s.g.core).commit, h.gid ≠ s.g.gid) →
    let seed : Seed := { s := Vector.ofFn fun k => s.g.readS (Fin.ofNat 64 k.val), pc := l.pc, mask := l.emask, fmode := s.g.regs.fmode }
    let opened := fun r : Region =>
      { s with g := { s.g with region := r, restartable := true, seed := seed } }.devPuts (s.groupWho s.g) (s.g.divsp.toNat + 48 * s.g.spillN)
        (seed.s.toList ++ [l.pc, maskWord l.emask 0, maskWord l.emask 1, maskWord l.emask 2, s.g.regs.fmode])
    Effect .rgn s 0 (opened .plain) ∧ Effect .rgnT s 0 (opened .trans) ∧
    Effect .rgnend s 0 { s with g := { s.g with region := .none, restartable := false } }) ∧
  (∀ s : State, s.g.regionOk = false → Outlawed .rgn s ∧ Outlawed .rgnT s ∧ Outlawed .rgnend s) ∧
  (∀ s : State, s.g.region = .trans →
    let all := (s.core? s.g.core).commit
    let mine := all.filter fun h => h.gid = s.g.gid
    let perform := fun (t : State) (h : Held) => t.performHeld s.g.core h
    let t := mine.foldl perform (s.updCore s.g.core fun c => { c with commit := all.filter fun h => h.gid ≠ s.g.gid })
    let u := all.foldl perform (s.updCore s.g.core fun c => { c with commit := [] })
    (mine ≠ [] → s.g.regionOk = true → Effect .rgnend s 0 { t with g := { t.g with region := .none, restartable := false } }) ∧
    s.endTransaction = { u with
      g := { u.g with restartable := false }
      others := u.others.map fun g => if all.any (fun h => h.gid = g.gid) then { g with restartable := false } else g }) ∧
  ∀ (s : State) (core : CoreId) (h : Held) (leaf : Dword) (pa : Nat) (held : Bool),
    let who : Who := { core := core, ctx := h.ctx, part := h.part, asid := h.asid, gid := h.gid }
    h.win = none → leafRem h.leaf = false →
    s.access who.home (BitVec.ofNat 64 h.va) h.bytes.length { write := true, tags := false } = .ok leaf pa held →
    s.performHeld core h = s.putBytes who leaf pa h.va h.pol h.bytes


/-! ### Control and status registers -/
/-- R26 to R29: the extended block. -/
def Clause.ExtendedBlock : Prop :=
  (∀ (r : Regs) (k : VReg), r.grow.extb = true ∧ r.grow.v[k] = (if k.val < 32 then r.v[k] else Vector.replicate 96 0) ∧
    { r.grow with extb := r.extb, v := r.v, vpois := r.vpois } = r) ∧
  ∀ (s : State) (d : SReg),
    let growing := (s.onUnit s.g.core s.g.simd).any Group.growing
    (s.myStage.desc[1].getLsbD 4 = true →
      (s.g.regs.extb = true → Effect .vgrow s 0 s ∧ GivesS (.vgrowTry d) s d 1) ∧
      (s.g.regs.extb = false → s.myWait ≠ .grow → 1 ≤ s.freeBlocks s.g.core s.g.simd → s.othersGrow = false → Effect .vgrow s 0 (s.setRegs Regs.grow)) ∧
      (s.g.regs.extb = false → s.myWait = .grow ∨ s.freeBlocks s.g.core s.g.simd = 0 ∨ s.othersGrow = true → Waits .vgrow s fun u => u.waitFor .grow) ∧
      (s.g.regs.extb = false → growing = false → 2 ≤ s.freeBlocks s.g.core s.g.simd →
        Effect (.vgrowTry d) s 0 ((s.setRegs Regs.grow).setS d 1)) ∧
      (s.g.regs.extb = false → growing = true ∨ s.freeBlocks s.g.core s.g.simd < 2 → GivesS (.vgrowTry d) s d 0)) ∧
    (s.myStage.desc[1].getLsbD 4 = false → Outlawed .vgrow s ∧ Outlawed (.vgrowTry d) s) ∧
    (s.g.regs.extb = false → Effect .vshrink s 0 s) ∧
    (s.g.regs.extb = true → s.g.mateBusy = false → s.g.parked = [] → Effect .vshrink s 0 ((s.setRegs fun r => { r with extb := false }).wake)) ∧
    (s.g.regs.extb = true → s.g.mateBusy = true ∨ s.g.parked ≠ [] → Waits .vshrink s fun u => u.waitFor .shrink)

/-- Restartable regions and the extended block. -/
def Obligations.RegionsAndBlocks : Prop :=
  Clause.Regions ∧ Clause.ExtendedBlock

/-- R7, R30, R118, R119, R175, R176: reads and writes of the control and status registers. That `csrs` and `csrc` of CYCLE_LO
and RETIRED_LO capture nothing is the model's choice (log 16). -/
def Clause.ControlRegisters : Prop :=
  ∀ (s : State) (d : SReg) (k : BitVec 13) (v : BitVec 6),
    let x := s.g.readS d
    let old := s.csr s.g k.toNat
    let into := fun w : Word => s.setRegs fun r =>
      if k = 0x000 then { r with fmode := w &&& 0x1FFF } else if k = 0x001 then { r with fstat := w &&& 0xFF }
      else if k = 0x002 then { r with guard := w &&& 0x3F } else if k = 0x003 then { r with trapcfg := w }
      else if k = 0x004 then { r with trapvec := w } else if k = 0x070 then { r with shdcnt := w }
      else if k = 0x030 then { r with xactl := r.xactl.set 0 (xactlWrite r.xactl[0] w) }
      else if k = 0x031 then { r with xactl := r.xactl.set 1 (xactlWrite r.xactl[1] w) } else r
    Effect (.csrw d k) s 0 (into x) ∧ Effect (.csrs d k) s 0 (into (old ||| x)) ∧ Effect (.csrc d k) s 0 (into (old &&& ~~~x)) ∧
    Effect (.csrwi v k) s 0 (into (BitVec.ofNat 32 v.toNat)) ∧
    (k.toNat < 0x38 ∨ 0x3B < k.toNat → GivesS (.csrr d k) s d old) ∧
    (k = 0x038 → Effect (.csrr d k) s 0 (({ s with g := { s.g with me := { s.g.me with cycCap := some (pairHi s.cycleNow) } } }).setS d (pairLo s.cycleNow))) ∧
    (k = 0x039 → Effect (.csrr d k) s 0 (({ s with g := { s.g with me := { s.g.me with cycCap := none } } }).setS d (s.g.me.cycCap.getD (pairHi s.cycleNow)))) ∧
    (k = 0x03A → Effect (.csrr d k) s 0 (({ s with g := { s.g with me := { s.g.me with retCap := some (pairHi s.g.regs.retired) } } }).setS d (pairLo s.g.regs.retired))) ∧
    (k = 0x03B → Effect (.csrr d k) s 0 (({ s with g := { s.g with me := { s.g.me with retCap := none } } }).setS d (s.g.me.retCap.getD (pairHi s.g.regs.retired))))

/-- R30: what the registers read, and that a write to one that is not RW changes nothing. -/
def Clause.ControlRegisterValues : Prop :=
  (∀ s : State,
    let c := s.csr s.g
    let r := s.g.regs
    (∀ k : Fin 3, c (0x008 + k.val) = maskWord s.g.faultm k.val ∧ c (0x00B + k.val) = maskWord s.g.dead k.val ∧ c (0x020 + k.val) = r.lc[k] ∧
      c (0x023 + k.val) = r.lstart[k] ∧ c (0x026 + k.val) = r.lend[k]) ∧
    c 0x000 = r.fmode ∧ c 0x001 = r.fstat ∧ c 0x002 = r.guard ∧ c 0x003 = r.trapcfg ∧ c 0x004 = r.trapvec ∧ c 0x005 = r.trappc ∧ c 0x006 = r.trapcause ∧
    c 0x010 = BitVec.ofNat 32 (s.g.divsp.toNat + 48 * (s.g.depth - 8)) ∧
    c 0x011 = BitVec.ofNat 32 ((s.g.divsp + BitVec.ofNat 64 (48 * (s.g.depth - 8))).toNat / 2 ^ 32) ∧ c 0x012 = BitVec.ofNat 32 s.g.depth ∧ c 0x029 = BitVec.ofNat 32 r.lactive.toNat ∧ c 0x030 = r.xactl[0] ∧ c 0x031 = r.xactl[1] ∧
    c 0x040 = BitVec.ofNat 32 s.g.gidx ∧ c 0x041 = s.w.x ∧ c 0x042 = s.w.y ∧ c 0x043 = s.w.z ∧ c 0x044 = BitVec.ofNat 32 s.w.rank ∧
    c 0x045 = BitVec.ofNat 32 s.g.core.val ∧ c 0x046 = BitVec.ofNat 32 (s.g.core.val / 8) ∧ c 0x047 = BitVec.ofNat 32 (s.g.core.val / 128) ∧
    (∀ k : Fin 4, c (0x050 + k.val) = s.myLaunch.cmd[2 + k.val]) ∧ c 0x054 = BitVec.ofNat 32 s.myStage.bucket ∧ c 0x060 = s.myLaunch.hdr[1] ∧
    c 0x061 = s.myLaunch.hdr[2] &&& 0xFFFFF ∧
    c 0x048 = BitVec.ofNat 32 s.w.stage.val ∧ c 0x049 = BitVec.ofNat 32 s.w.ngroups ∧ c 0x070 = r.shdcnt ∧ c 0x080 = (if r.extb then 1 else 0)) ∧
  ∀ (r : Regs) (n : Nat) (w : Word), n ∉ [0x000, 0x001, 0x002, 0x003, 0x004, 0x030, 0x031, 0x070] → r.csrSet n w = r

/-- Control and status registers. -/
def Obligations.ControlRegisters : Prop :=
  Clause.ControlRegisters ∧ Clause.ControlRegisterValues


/-! ### Memory access -/
/-- R192, R204, R205: the address forms of a lane. -/
def Clause.AddressForms : Prop :=
  ∀ (s : State) (L : Lane) (b : SReg) (a : VReg) (n : Nat) (m : Ask) (win : Bool), s.latch.snap = none → s.latch.fatal = 0 → 0 < n →
    let x := (s.g.readV a L).toNat
    let base := vaOf (s.g.readS64 b)
    let c := (if b = 63 then 0 else s.g.readS b) + s.g.readV a L
    let rank := c.toNat / 2 ^ 20 % 8
    let off := c.toNat % 2 ^ 20
    let w1 := (s.g.readS (sreg b 1)).toNat
    let limit := (s.g.readS (sreg b 2)).toNat
    let stride := (s.g.readS (sreg b 3)).toNat
    let o := if stride = 0 then x else x * stride
    let va := (s.g.readS b).toNat + 2 ^ 32 * (w1 % 2 ^ 20) + o
    let p := BitVec.ofNat 64 (va % 2 ^ 52 + 2 ^ 56 * (w1 / 2 ^ 24 % 16))
    s.resolveG (.flat a) n m win L = s.resolve (s.g.readV64 a L) n m win (some L) ∧
    (base + x < 2 ^ 52 → s.resolveG (.base b a) n m win L =
      s.resolve (BitVec.ofNat 64 ((s.g.readS64 b).toNat / 2 ^ 52 * 2 ^ 52 + base + x)) n m win (some L)) ∧
    (2 ^ 52 ≤ base + x → ∃ q, s.resolveG (.base b a) n m win L = .fault 0x06 q) ∧
    (2 ^ 23 ≤ c.toNat → s.resolveC ⟨b, a⟩ n L = .fault 0x06 (c.setWidth 64)) ∧
    (c.toNat < 2 ^ 23 → c.toNat % n ≠ 0 → s.resolveC ⟨b, a⟩ n L = .fault 0x03 (c.setWidth 64)) ∧
    (c.toNat < 2 ^ 23 → c.toNat % n = 0 → s.w.gang ≤ rank → s.resolveC ⟨b, a⟩ n L = .fault 0x14 (c.setWidth 64)) ∧
    (∀ k, c.toNat < 2 ^ 23 → c.toNat % n = 0 → rank < s.w.gang → s.member? s.w rank = some k →
      s.resolveC ⟨b, a⟩ n L = if off + n ≤ k.cmBytes then .core k.wid off (c.setWidth 64) else .fault 0x04 (c.setWidth 64)) ∧
    (w1 / 2 ^ 20 % 16 ≠ 0 ∨ w1 / 2 ^ 29 ≠ 0 ∨ windowBase ≤ va → s.resolveB ⟨b, a⟩ n m L = .fault 0x06 p) ∧
    (w1 / 2 ^ 20 % 16 = 0 → w1 / 2 ^ 29 = 0 → va < windowBase →
      s.resolveB ⟨b, a⟩ n m L =
        if va % n ≠ 0 then .fault 0x03 p
        else if limit < o + n then (if w1 / 2 ^ 28 % 2 = 1 then .drop p else .fault 0x04 p)
        else s.resolve p n m false (some L))

/-- R76, R191, R193, R196, R197, R206, R254, R293: the checks of one access in their order, for a pointer, an aligned address, a
page that no cache holds and a line that one does. -/
def Clause.AccessChecks : Prop :=
  ∀ (s : State) (who : Who) (p : Dword) (n : Nat) (m : Ask), 0 < n →
    let va := vaOf p
    let acc := s.access who p n m
    let good := p.toNat / 2 ^ 52 % 16 = 0 ∧ p.toNat / 2 ^ 60 = 0
    let chan := s.channelOf who.part va
    let colour := fun leaf : Dword =>
      if (s.partWord who.part 0).getLsbD 2 = true then ∃ k, (s.ownChannels who.part)[channelOfPa (leafFrame leaf)]? = some k ∧ chan = some k
      else chan = some (channelOfPa (leafFrame leaf))
    let refused := fun (leaf : Dword) (c : Byte) =>
      m.write = true ∧ leafRo leaf = true ∧ c = 0x06 ∨
      ¬(m.write = true ∧ leafRo leaf = true) ∧ m.tagged = true ∧ leafTagged leaf = false ∧ c = 0x06 ∨
      ¬(m.write = true ∧ leafRo leaf = true) ∧ ¬(m.tagged = true ∧ leafTagged leaf = false) ∧ m.fetch = true ∧ leafXn leaf = true ∧ c = 0x07
    let allowed := fun leaf : Dword => ∀ c, ¬refused leaf c
    let tagBad := fun (leaf : Dword) (held : Option Line) (pa : Nat) => m.fetch = false ∧ m.tags = true ∧ leafTagged leaf = true ∧
      ¬(s.tagSeen held pa = tagOfPtr p ∧ s.tagSeen held (pa + n - 1) = tagOfPtr p)
    (¬good → acc = .fault 0x06) ∧
    (good → windowBase + windowSize ≤ va → acc = .fault 0x06) ∧
    (good → windowBase ≤ va → va < windowBase + windowSize → acc = .window (va - windowBase)) ∧
    (good → va < windowBase → va % n ≠ 0 → acc = .fault 0x03) ∧
    (good → va < windowBase → va % n = 0 → s.heldLine who va = none →
      (∀ b, s.translate who va = .absent b → acc = .park b) ∧
      (∀ c, s.translate who va = .bad c → acc = .fault c) ∧
      (∀ leaf, s.translate who va = .page leaf → leafRem leaf = true →
        (s.ownsPort who.part = false → acc = .fault 0x14) ∧
        (s.ownsPort who.part = true →
          (∀ c, refused leaf c → acc = .fault c) ∧
          (allowed leaf → acc = if s.keyOk who.part (leafKey leaf) then .remote leaf else .fault 0x15))) ∧
      (∀ leaf, s.translate who va = .page leaf → leafRem leaf = false →
        (¬colour leaf → acc = .fault 0x06) ∧
        (colour leaf → s.frameOf who va leaf = none → acc = .park true) ∧
        (∀ frame, colour leaf → s.frameOf who va leaf = some frame →
          let pa := frame + va % 65536
          (∀ c, refused leaf c → acc = .fault c) ∧
          (allowed leaf → s.keyOk who.part (leafKey leaf) = false → acc = .fault 0x15) ∧
          (allowed leaf → s.keyOk who.part (leafKey leaf) = true → tagBad leaf none pa → acc = .fault 0x05) ∧
          (allowed leaf → s.keyOk who.part (leafKey leaf) = true → ¬tagBad leaf none pa → acc = .ok leaf pa false)))) ∧
    (∀ l, good → va < windowBase → va % n = 0 → s.heldLine who va = some l →
      let pa := l.pa + va % 128
      (leafRem l.leaf = true → s.ownsPort who.part = false → acc = .fault 0x14) ∧
      (leafRem l.leaf = true → s.ownsPort who.part = true →
        (tagBad l.leaf (some l) pa → acc = .fault 0x05) ∧
        (¬tagBad l.leaf (some l) pa → (∀ c, refused l.leaf c → acc = .fault c) ∧ (allowed l.leaf → acc = .remote l.leaf))) ∧
      (leafRem l.leaf = false →
        (tagBad l.leaf (some l) pa → acc = .fault 0x05) ∧
        (¬tagBad l.leaf (some l) pa → (∀ c, refused l.leaf c → acc = .fault c) ∧ (allowed l.leaf → acc = .ok l.leaf pa true))))

/-- R193, R302: the walk of a page of an address space that is not nested: four tables, then the leaf. That a poisoned entry
gives ECCUE is the model's choice (log 4). -/
def Clause.PageWalks : Prop :=
  ∀ (s : State) (who : Who) (va : Nat),
    let root := ctxRoot (s.ctxDesc who.ctx)
    let e0 := s.entryOf va root 43
    let e1 := s.entryOf va (nextTable e0) 34
    let e2 := s.entryOf va (nextTable e1) 25
    let e3 := s.entryOf va (nextTable e2) 16
    let here := fun t : Nat => t % 2 ^ 31 < Config.carveOut ∧ (s.ownChannels who.part).contains (channelOfPa t) = true
    let sound := fun (t lo : Nat) => s.poisoned (t + 8 * (va / 2 ^ lo % 512)) = false
    let table := fun (e lo : Nat) => e % 2 = 1 ∧ e / 2 % 2 ^ 11 = 0 ∧ e / 2 ^ 39 = 0 ∧ here (nextTable e) ∧ sound (nextTable e) lo
    let leaf : Dword := BitVec.ofNat 64 e3
    (s.partWord who.part 0).getLsbD 2 = false → s.tlb? who va = none →
    (¬here root → s.translate who va = .bad 0x06) ∧
    (here root → ¬sound root 43 → s.translate who va = .bad 0x0D) ∧
    (here root → sound root 43 →
      (e0 % 2 = 0 → s.translate who va = .absent false) ∧
      (e0 % 2 = 1 → (e0 / 2 % 2 ^ 11 ≠ 0 ∨ e0 / 2 ^ 39 ≠ 0) → s.translate who va = .bad 0x06) ∧
      (table e0 34 → table e1 25 → table e2 16 → e3 % 2 = 0 → s.translate who va = .absent false) ∧
      (table e0 34 → table e1 25 → table e2 16 → e3 % 2 = 1 → (e3 / 2 ^ 9 % 2 ^ 7 ≠ 0 ∨ e3 / 2 ^ 52 ≠ 0 ∨ e3 / 8 % 4 = 3) → s.translate who va = .bad 0x06) ∧
      (table e0 34 → table e1 25 → table e2 16 → e3 % 2 = 1 → e3 / 2 ^ 9 % 2 ^ 7 = 0 → e3 / 2 ^ 52 = 0 → e3 / 8 % 4 ≠ 3 →
        (e3 / 2 ^ 8 % 2 = 0 → s.translate who va = if leafFrame leaf % 2 ^ 31 < Config.carveOut then .page leaf else .bad 0x06) ∧
        (e3 / 2 ^ 8 % 2 = 1 → s.translate who va = if e3 / 2 ^ 16 % 2 ^ 11 ≤ 1535 then .page leaf else .bad 0x06))) ∧
    leafFrame leaf = e3 / 2 ^ 16 % 2 ^ 23 * 65536 ∧ s.frameOf who va leaf = some (leafFrame leaf)

/-- Address forms, the checks of an access, and page walks. -/
def Obligations.MemoryAccesses : Prop :=
  Clause.AddressForms ∧ Clause.AccessChecks ∧ Clause.PageWalks

/-- R199, R201, R202, R205, R302: where stored bytes of one granule are read again: at the home slice, or at the channel, and by
the storing core itself; every other byte of the sector reads as before, no other sector of L2 changes and nothing dirty is
lost, and a store of a whole granule clears its poison. In core memory. A fill or an acquire adds or drops copies and changes
nothing else. -/
def Clause.StoredBytes : Prop :=
  (∀ (s : State) (who : Who) (leaf : Dword) (pa va : Nat) (pol : Pol) (bs : List Byte), va % 32 + bs.length ≤ 32 → pa % 128 = va % 128 →
    leafRem leaf = false → CleanCaches s →
    let t := s.putBytes who leaf pa va pol bs
    let at_ := fun a : Nat => pa - va % 128 + a % 128
    t.tags = s.tags ∧ t.w = s.w ∧ t.otherWgs = s.otherWgs ∧ t.g = s.g ∧ t.others = s.others ∧
    (∀ x ∈ t.l2, lineAt who va x = false → x ∈ s.l2) ∧
    (s.cacheable who leaf va = true → t.mem = s.mem ∧ t.pois = s.pois ∧
      (∀ a, a / 128 = va / 128 → t.viewByte who.home leaf (at_ a) a =
        if h : va ≤ a ∧ a - va < bs.length then bs[a - va]'h.2 else s.viewByte who.home leaf (at_ a) a) ∧
      t.sick who.home pa va = (if bs.length = 32 then false else s.sick who.home pa va)) ∧
    (s.cacheable who leaf va = false → s.linkUp pa = true → leafDlog leaf = false →
      (∀ a : Nat, t.dramByte leaf a = if h : pa ≤ a ∧ a - pa < bs.length then bs[a - pa]'h.2 else s.dramByte leaf a) ∧
      t.pois = if bs.length = 32 then memSet s.pois (pa / 32) 0 else s.pois) ∧
    (s.cacheable who leaf va = true → (∀ c ∈ s.cores, c.commit = []) → ∀ (a : Nat) (h : va ≤ a ∧ a - va < bs.length),
      t.viewByte who leaf (at_ a) a = bs[a - va]'h.2)) ∧
  (∀ (s : State) (wid off : Nat) (bs : List Byte) (w : Workgroup), s.wg? wid = some w →
    let t := s.cmWrite wid off bs
    (∃ w', t.wg? wid = some w' ∧ ∀ a : Nat, memGet w'.cm a = if h : off ≤ a ∧ a - off < bs.length then bs[a - off]'h.2 else memGet w.cm a) ∧
    (∀ v, v ≠ wid → t.wg? v = s.wg? v) ∧ { t with w := s.w, otherWgs := s.otherWgs } = s) ∧
  (∀ (s : State) (who : Who) (leaf : Dword) (pa va deep : Nat) (pol : Pol), CleanCaches s →
    OnlyCopies s (s.fill who leaf pa va deep pol) ∧ (s.fill who leaf pa va deep pol).uncached = s.uncached) ∧
  (∀ (s : State) (level : Nat),
    let t := s.dropCopies level
    let mine := fun l : Line => l.part = s.me.part ∧ l.asid = s.me.asid
    t.uncached = s.uncached ∧ OnlyCopies s t ∧ (∀ l ∈ s.l2, l.dmask ≠ 0 → l ∈ t.l2) ∧ (level < 3 → t.l2 = s.l2) ∧ (level < 2 → t.rlc = s.rlc) ∧
    (level = 0 → t.l1 = s.l1) ∧
    (1 ≤ level → ∀ e ∈ t.l1, e.1 = s.g.core → mine e.2 → e.2.live = false) ∧
    (2 ≤ level → ∀ e ∈ t.rlc, e.1 = dieOf s.g.core → mine e.2 → e.2.live = false) ∧
    (3 ≤ level → ∀ l ∈ t.l2, mine l → l.dmask = 0 → l.live = false))

/-- R37, R38: the register window: which group an offset names, what is read and what a write changes. That scalars s60-s62 are
slot 0's active mask is the model's choice (log 18). -/
def Clause.RegisterWindow : Prop :=
  (∀ (s : State) (ctx off : Nat) (write : Bool) (h : Machine.Group), s.window? ctx off write = some h →
    off % 4 = 0 ∧ h ∈ s.allGroups ∧ h.gid ≠ 0 ∧ h.method = none ∧ h.core.val = off / 2 ^ 23 % 256 ∧
    h.simd.val = off / 2 ^ 21 % 4 ∧ h.gslot.val = off / 2 ^ 17 % 16 ∧ s.ctxOfGroup h = some ctx ∧
    (write = true → h.status = .halted ∨ h.status = .parked) ∧
    (off / 2 ^ 15 % 4 = 0 → off / 4 % 128 < 96 ∧ (off / 2 ^ 9 % 64 < 32 ∨ h.regs.extb = true))) ∧
  ∀ (s : State) (h : Machine.Group) (off : Nat) (va : Dword) (pol : Pol) (w : Word), s.window? s.myCtx off false = some h → s.heldWin off = none →
    let r := off / 2 ^ 9 % 64
    let j := off / 4 % 128
    let x := BitVec.ofNat 32 (s.loadVal 4 (.window off va))
    (off / 2 ^ 15 % 4 = 0 → x = h.readV (Fin.ofNat 64 r) (Fin.ofNat 96 j)) ∧
    (off / 2 ^ 15 % 4 = 1 → x = (h.select 0).readS (Fin.ofNat 64 r)) ∧
    (off / 2 ^ 15 % 4 = 2 → x = (pBits (h.readP (Fin.ofNat 8 r) (Fin.ofNat 96 j))).setWidth 32) ∧
    (s.window? s.myCtx off true = some h → s.g.region ≠ .trans → (s.allGroups.map (·.gid)).Nodup →
      let t := s.storeAt pol (.window off va) (leBytes 4 w.toNat)
      (∀ k, k ≠ h.gid → t.group? k = s.group? k) ∧ { t with g := s.g, others := s.others } = s ∧
      (off / 2 ^ 15 % 4 = 0 → t.group? h.gid = some { h with regs := h.regs.setV (Fin.ofNat 64 r) (1#96 <<< j) fun _ => w }) ∧
      (off / 2 ^ 15 % 4 = 1 → r < 60 → ∃ u, t.group? h.gid = some u ∧ u.readS (Fin.ofNat 64 r) = w ∧
        { u with regs := h.regs, poisonHalt := h.poisonHalt } = h) ∧
      (off / 2 ^ 15 % 4 = 2 → t.group? h.gid = some { h with regs := h.regs.setP (Fin.ofNat 8 r) (1#96 <<< j) fun _ =>
        match w.toNat % 4 with | 0 => .f | 1 => .t | 2 => .u | _ => .never }) ∧
      (off / 2 ^ 15 % 4 = 3 → t.group? h.gid = some { h with regs := h.regs.csrSet (off / 4 % 2 ^ 13) w }))

/-- Where stored bytes are read again, and the register window. Which lines the caches hold is the model's choice (log 4). -/
def Obligations.StoredBytes : Prop :=
  Clause.StoredBytes ∧ Clause.RegisterWindow

/-- R243, R244, R187: the loads, in the three address forms; no load in deterministic issue mode reads what a store has
replaced. What a load reads of memory is what is there, but where it may not look: inside an area that belongs to the device
(R10, R266; log 6). Bytes of remote pages are free (log 13). -/
def Obligations.LoadWords : Prop :=
  (∀ (s : State) (m : MemMod) (g : Bool) (d : VReg) (ad : GAddr) (ab : BAddr) (ac : CAddr),
    let zero := fun x : Nat => BitVec.ofNat 128 x
    let sign := fun (n x : Nat) => ((BitVec.ofNat n x).signExtend 32).setWidth 128
    let G := fun (n : Nat) (t : State) => t.resolveG ad n {} (n == 4)
    let B := fun (n : Nat) (t : State) => t.resolveB ab n {}
    let C := fun (n : Nat) (t : State) => t.resolveC ac n
    GivesLoad (.ld8n m g d ad) s m g d 1 1 false (G 1) zero ∧ GivesLoad (.ld8s m g d ad) s m g d 1 1 false (G 1) (sign 8) ∧
    GivesLoad (.ld16n m g d ad) s m g d 2 1 false (G 2) zero ∧ GivesLoad (.ld16s m g d ad) s m g d 2 1 false (G 2) (sign 16) ∧
    GivesLoad (.ld32 m g d ad) s m g d 4 1 false (G 4) zero ∧ GivesLoad (.ld64 m g d ad) s m g d 8 2 false (G 8) zero ∧
    GivesLoad (.ld128 m g d ad) s m g d 16 4 false (G 16) zero ∧ GivesLoad (.ldi m g d ad) s m g d 8 2 true (G 8) zero ∧
    GivesLoad (.ldb8n m g d ab) s m g d 1 1 false (B 1) zero ∧ GivesLoad (.ldb8s m g d ab) s m g d 1 1 false (B 1) (sign 8) ∧
    GivesLoad (.ldb16n m g d ab) s m g d 2 1 false (B 2) zero ∧ GivesLoad (.ldb16s m g d ab) s m g d 2 1 false (B 2) (sign 16) ∧
    GivesLoad (.ldb32 m g d ab) s m g d 4 1 false (B 4) zero ∧ GivesLoad (.ldb64 m g d ab) s m g d 8 2 false (B 8) zero ∧
    GivesLoad (.ldb128 m g d ab) s m g d 16 4 false (B 16) zero ∧ GivesLoad (.ldbi m g d ab) s m g d 8 2 true (B 8) zero ∧
    GivesLoad (.ldc8n m g d ac) s m g d 1 1 false (C 1) zero ∧ GivesLoad (.ldc8s m g d ac) s m g d 1 1 false (C 1) (sign 8) ∧
    GivesLoad (.ldc16n m g d ac) s m g d 2 1 false (C 2) zero ∧ GivesLoad (.ldc16s m g d ac) s m g d 2 1 false (C 2) (sign 16) ∧
    GivesLoad (.ldc32 m g d ac) s m g d 4 1 false (C 4) zero ∧ GivesLoad (.ldc64 m g d ac) s m g d 8 2 false (C 8) zero ∧
    GivesLoad (.ldc128 m g d ac) s m g d 16 4 false (C 16) zero ∧ GivesLoad (.ldci m g d ac) s m g d 8 2 true (C 8) zero) ∧
  (∀ (s : State) (r : LRes) (n : Nat), (s.past = [] ∨ s.detGroup s.g = true) → s.seenVal n r = s.loadVal n r) ∧
  (∀ (s : State) (leaf va : Dword) (pa n : Nat), s.offLimits s.me false (vaOf va) n = false →
    s.loadVal n (.mem leaf pa va) = leNat (s.view s.me leaf pa (vaOf va) n)) ∧
  (∀ (s : State) (who : Who) (write : Bool) (va n : Nat), s.launches = [] → (∀ e ∈ s.landing.toList, e.words[0].getLsbD 0 = false) →
    s.offLimits who write va n = false) ∧
  ∀ (s : State) (l : Launch) (who : Who) (write : Bool) (va n : Nat), l ∈ s.launches → ctxPart (s.ctxDesc l.ctx) = who.part → ctxAsid (s.ctxDesc l.ctx) = who.asid →
    0 < n → l.work.1 ≤ va → va + n ≤ l.work.1 + l.work.2 → (∀ g ∈ s.allGroups, g.status ≠ .halted ∧ g.status ≠ .parked) →
    s.offLimits who write va n = true

/-- R245, R246, R36: the stores, in the three address forms; the bytes are the registers', least significant first, and lie
where the word says but in an area that belongs to the device (R10; log 6). In a transactional region a global store is held,
and only its own group's loads see it. -/
def Obligations.StoreWords : Prop :=
  (∀ (s : State) (m : MemMod) (g : Bool) (d : VReg) (ad : GAddr) (ab : BAddr) (ac : CAddr),
    let by_ : Pol := match m with | .stream => .stream | .bypass => .bypass | _ => .normal
    let G := fun n : Nat => s.resolveG ad n { write := true } (n == 4)
    let B := fun n : Nat => s.resolveB ab n { write := true }
    let C := fun n : Nat => s.resolveC ac n
    GivesStore (.st8 m g d ad) s g d 1 false by_ (G 1) ∧ GivesStore (.st16 m g d ad) s g d 2 false by_ (G 2) ∧
    GivesStore (.st32 m g d ad) s g d 4 false by_ (G 4) ∧ GivesStore (.st64 m g d ad) s g d 8 false by_ (G 8) ∧
    GivesStore (.st128 m g d ad) s g d 16 false by_ (G 16) ∧ GivesStore (.sti m g d ad) s g d 8 true by_ (G 8) ∧
    GivesStore (.stb8 m g d ab) s g d 1 false by_ (B 1) ∧ GivesStore (.stb16 m g d ab) s g d 2 false by_ (B 2) ∧
    GivesStore (.stb32 m g d ab) s g d 4 false by_ (B 4) ∧ GivesStore (.stb64 m g d ab) s g d 8 false by_ (B 8) ∧
    GivesStore (.stb128 m g d ab) s g d 16 false by_ (B 16) ∧ GivesStore (.stbi m g d ab) s g d 8 true by_ (B 8) ∧
    GivesStore (.stc8 m g d ac) s g d 1 false by_ (C 1) ∧ GivesStore (.stc16 m g d ac) s g d 2 false by_ (C 2) ∧
    GivesStore (.stc32 m g d ac) s g d 4 false by_ (C 4) ∧ GivesStore (.stc64 m g d ac) s g d 8 false by_ (C 8) ∧
    GivesStore (.stc128 m g d ac) s g d 16 false by_ (C 16) ∧ GivesStore (.stci m g d ac) s g d 8 true by_ (C 8)) ∧
  (∀ (s : State) (d : VReg) (L : Lane) (leaf va : Dword) (pa wid off : Nat) (pol : Pol),
    let v := fun n : Nat => leBytes n (s.g.storeVal d n L)
    (∀ (n : Nat) (k : Fin n), n ∈ [1, 2, 4, 8, 16] →
      (v n)[k.val]? = some (((s.g.readV (vreg d (k.val / 4)) L) >>> (8 * (k.val % 4))).setWidth 8)) ∧
    (s.g.region ≠ .trans → s.offLimits s.me true (vaOf va) 4 = false → s.storeAt pol (.mem leaf pa va) (v 4) = s.putBytes s.me leaf pa (vaOf va) pol (v 4)) ∧
    s.storeAt pol (.core wid off va) (v 4) = s.cmWrite wid off (v 4)) ∧
  ∀ (s : State) (leaf va : Dword) (pa : Nat) (pol : Pol) (bs : List Byte), s.g.region = .trans → s.g.gid ≠ 0 →
    ((s.core? s.g.core).commit.map fun h => h.bytes.length).sum + bs.length ≤ Config.commitBytes → s.offLimits s.me true (vaOf va) bs.length = false →
    let t := s.storeAt pol (.mem leaf pa va) bs
    { t with cores := s.cores } = s ∧
    ∀ (leaf' : Dword) (pa' a : Nat) (h : vaOf va ≤ a ∧ a - vaOf va < bs.length), t.viewByte s.me leaf' pa' a = bs[a - vaOf va]'h.2

/-- R247 to R249, R36, R211: the atomics: what each combines, one lane after the other, and the words. -/
def Clause.AtomicWords : Prop :=
  (∀ x v w : Nat, x < 2 ^ 32 → v < 2 ^ 32 → w < 2 ^ 32 →
    let sx := (BitVec.ofNat 32 x).toInt
    let sv := (BitVec.ofNat 32 v).toInt
    aopNew .add x v w = (x + v) % 2 ^ 32 ∧
    aopNew .minS x v w = (if sx ≤ sv then x else v) ∧ aopNew .maxS x v w = (if sx ≤ sv then v else x) ∧
    aopNew .minN x v w = min x v ∧ aopNew .maxN x v w = max x v ∧
    aopNew .and x v w = x &&& v ∧ aopNew .or x v w = x ||| v ∧ aopNew .xor x v w = x ^^^ v ∧
    aopNew .xchg x v w = v ∧ aopNew .cas x v w = (if x = v then w else x) ∧
    aopNew .fadd x v w = (finish fp32 .rne false (addV .rne (fp32.val x) (fp32.val v))).bits ∧
    ((fp32.val x).isNan = true ∨ (fp32.val v).isNan = true → aopNew .fadd x v w = 0x7FC00000) ∧
    aopNew .fmin x v w = (minNum fp32 x v).bits ∧ aopNew .fmax x v w = (maxNum fp32 x v).bits ∧
    ((fp32.val x).isNan = true → (fp32.val v).isNan = true → aopNew .fmin x v w = 0x7FC00000 ∧ aopNew .fmax x v w = 0x7FC00000)) ∧
  (∀ x v w : Nat, aopNew .add64 x v w = (x + v) % 2 ^ 64) ∧
  (∀ (op : AOp) (g : Machine.Group) (d : VReg) (r : Lane → LRes) (L : Lane) (ls : List Lane) (far : List (Nat × Nat)) (s : State),
    let here := s.valAs s.me.home op.size (r L)
    let remote := match r L with | .remote _ va => some (vaOf va) | _ => none
    let x := (remote.bind fun va => far.lookup va).getD here
    let v := if op = .add64 then (g.readV64 d L).toNat else (g.readV d L).toNat
    let w := if op = .cas then (g.readV (vreg d 1) L).toNat else 0
    let t := s.storeAt .bypass (r L) (leBytes op.size (aopNew op x v w))
    let rest := t.atomicLanes op g d r ls ((remote.map fun va => (va, aopNew op x v w)).toList ++ far)
    s.atomicLanes op g d r (L :: ls) far = ((L.val, x) :: rest.1, rest.2)) ∧
  ∀ (s : State) (m : AtomMod) (ar g : Bool) (d : VReg) (ad : GAddr) (ac : CAddr), (s.g.region = .trans → ∀ h ∈ s.others, h.gid ≠ s.g.gid) →
    let k := if m.ar then (match m.scope with | .core => 0 | .cluster => 1 | _ => 2) else 0
    let G := s.endTransaction.resolveG ad 4 { write := true } false
    let C := s.endTransaction.resolveC ac 4
    let A := fun (i : Instr) (op : AOp) => GivesAtomic i s g op m.ar k d G
    let K := fun (i : Instr) (op : AOp) => GivesAtomic i s g op ar 0 d C
    A (.atomAdd m g d ad) .add ∧ A (.atomMinS m g d ad) .minS ∧ A (.atomMaxS m g d ad) .maxS ∧ A (.atomMinN m g d ad) .minN ∧
    A (.atomMaxN m g d ad) .maxN ∧ A (.atomAnd m g d ad) .and ∧ A (.atomOr m g d ad) .or ∧ A (.atomXor m g d ad) .xor ∧
    A (.atomXchg m g d ad) .xchg ∧ A (.atomCas m g d ad) .cas ∧ A (.atomFadd m g d ad) .fadd ∧ A (.atomFmin m g d ad) .fmin ∧
    A (.atomFmax m g d ad) .fmax ∧
    GivesAtomic (.atomAdd64 m g d ad) s g .add64 m.ar k d (s.endTransaction.resolveG ad 8 { write := true } false) ∧
    K (.atomcAdd ar g d ac) .add ∧ K (.atomcMinS ar g d ac) .minS ∧ K (.atomcMaxS ar g d ac) .maxS ∧ K (.atomcOr ar g d ac) .or ∧
    K (.atomcXchg ar g d ac) .xchg ∧ K (.atomcCas ar g d ac) .cas

/-- R221, R250: a sequentially consistent atomic, and `fence.sc`, wait for a ticket and then act as an atomic, or a fence, at
DEVICE; one ticket is granted at a time, once the word with the last one has been performed. -/
def Clause.TicketedWords : Prop :=
  (∀ (s : State) (g : Bool) (d : VReg) (ad : GAddr),
    let m := s.g.lanes g
    let r := s.resolveSc ad
    let word := fun (i : Instr) (op : AOp) =>
      (s.g.region ≠ .trans → AtomicGood s m op r → (∀ L : Lane, m.getLsbD L.val = true → s.datumPoison s.me.home [] 4 (some L) (r L) = false) → m ≠ 0 → Clean i m s →
        (s.myWait = .none ∨ s.myWait = .ticket → Waits i s fun u => u.waitFor .ticket) ∧
        (s.myWait = .ticketed →
          Effect i s m { s.afterAtomic m op true 2 d r with tickets := (s.afterAtomic m op true 2 d r).tickets + (lanesOf m).length }))
    word (.atomAddSc g d ad) .add ∧ word (.atomXchgSc g d ad) .xchg ∧ word (.atomCasSc g d ad) .cas) ∧
  (∀ s : State,
    (s.myWait = .none ∨ s.myWait = .ticket → Waits .fenceSc s fun u => u.waitFor .ticket) ∧
    (s.myWait = .ticketed → Effect .fenceSc s 0 { s.dropCopies 2 with tickets := s.tickets + 1 }) ∧
    (s.ticketOut = true ↔ ∃ h ∈ s.allGroups, ∃ l ∈ h.allEntries, l.wait = .ticketed) ∧
    (s.ticketOut = true ∨ s.ticketWaits = [] → exec .notchTicket s = .next s) ∧
    (s.ticketOut = false → s.ticketWaits ≠ [] → ∃ e ∈ s.ticketWaits, exec .notchTicket s = .next (s.endWait e.1 e.2 .ticket))) ∧
  (∀ (s : State) (gid : Nat) (k : Fin 2), (gid, k) ∈ s.ticketWaits ↔
    ∃ g ∈ s.allGroups, g.gid = gid ∧ ∃ l, (g.slot k).leaf = some l ∧ l.wait = .ticket) ∧
  ∀ (s : State) (l : Entry), s.g.gid ≠ 0 → s.g.me.leaf = some l → l.wait = .ticket →
    (s.endWait s.g.gid s.g.sel .ticket).g.me.leaf = some { l with wait := .ticketed }

/-- The atomics, sequentially consistent ones among them. -/
def Obligations.AtomicWords : Prop :=
  Clause.AtomicWords ∧ Clause.TicketedWords

/-- R216, R223, R251, R252: the other fences. -/
def Clause.Fences : Prop :=
  ∀ (s : State) (k : FScope) (gid : Nat) (n : Fin 2),
    let level := match k with | .core => 0 | .cluster => 1 | .device | .domain => 2 | .system => 3
    let dirty := fun (w : Who) (l : Line) => l.part = w.part ∧ l.asid = w.asid ∧ l.dmask ≠ 0
    Effect (.fenceAcq k) s 0 (s.dropCopies level) ∧ Effect (.fenceRel k) s 0 s ∧ Effect (.fenceAr k) s 0 (s.dropCopies level) ∧
    Effect (.fenceInval k) s 0 (s.dropCopies level) ∧
    ((∀ b ∈ s.basins, b.gid ≠ s.g.gid) → Effect (.bfence k) s 0 (s.dropCopies level)) ∧
    ((∃ b ∈ s.basins, b.gid = s.g.gid) → Waits (.bfence k) s State.stallNow) ∧
    ((∀ l ∈ s.l2, ¬dirty s.me l) → s.myWait = .none → Effect (.fenceWb k) s 0 s) ∧ (s.myWait = .granted → Effect (.fenceWb k) s 0 s) ∧
    ((∃ l ∈ s.l2, dirty s.me l) → s.myWait = .none → Waits (.fenceWb k) s fun u => u.waitFor .writeBack) ∧
    (s.myWait = .writeBack → Waits (.fenceWb k) s fun u => u.waitFor .writeBack) ∧
    (∀ g l c, s.group? gid = some g → (g.slot n).leaf = some l → l.wait = .writeBack → s.ctxOfGroup g = some c →
      exec (.fenceWbComplete gid n) s =
        .next ((s.writeBackAll fun l => decide (dirty (s.who c g.core gid) l)).endWait gid n .writeBack))

/-- R207, R209, R253, R254: hints, line words and tags, where every active lane reaches memory; a hint's mark changes nothing
but marks; a tag is read back by the party that wrote it, and a stack whose link is down drops it (R289). -/
def Clause.LineAndTagWords : Prop :=
  (∀ (s : State) (g k : Bool) (d : VReg) (ad : GAddr),
    let m := s.g.lanes g
    let G := s.resolveG ad 1 {} false
    let hint := fun (i : Instr) (f : State → Dword → Nat → Dword → State) => ∀ (leaf : Lane → Dword) (pa : Lane → Nat) (va : Lane → Dword),
      (∀ L : Lane, m.getLsbD L.val = true → G L = .mem (leaf L) (pa L) (va L)) →
      Effect i s m ((lanesOf m).foldl (fun t L => f t (leaf L) (pa L) (va L)) s)
    let line := fun (i : Instr) (f : State → Nat → State) => s.g.region ≠ .trans →
      (∀ L : Lane, m.getLsbD L.val = true → (s.g.gptr ad L).2 = false ∧ ptrBad (s.g.gptr ad L).1 = false ∧ vaOf (s.g.gptr ad L).1 < windowBase) →
      Effect i s m ((lanesOf m).foldl (fun t L => f t (vaOf (s.g.gptr ad L).1)) s)
    hint (.pref g ad) (fun t leaf pa va => t.hintFill t.me leaf pa (vaOf va) 1) ∧
    hint (.prefL1 g ad) (fun t leaf pa va => t.hintFill t.me leaf pa (vaOf va) 2) ∧
    hint (.resid g k ad) (fun t _ _ va => t.setMark t.me (vaOf va) k) ∧
    ((∀ L : Lane, m.getLsbD L.val = true → (∃ c va, G L = .fault c va) ∨ ∃ va b, G L = .park va b) →
      ∀ i ∈ [Instr.pref g ad, .prefL1 g ad, .resid g k ad], Effect i s m ((lanesOf m).foldl (fun t _ => t.countPart s.me.part 23 1) s)) ∧
    line (.cwb g ad) (fun t va => t.writeBackAll (sameLine t.me va)) ∧
    line (.cinv g ad) (fun t va =>
      let mine := sameLine t.me va
      let u := t.writeBackAll mine
      { u with
        l2 := u.l2.filter fun l => !mine l
        l1 := u.l1.filter fun e => !(e.1 = t.g.core && mine e.2)
        rlc := u.rlc.filter fun e => !(e.1 = dieOf t.g.core && mine e.2) }) ∧
    (∀ (leaf : Lane → Dword) (pa : Lane → Nat) (va : Lane → Dword), s.g.region ≠ .trans →
      (∀ L : Lane, m.getLsbD L.val = true → s.resolveG ad 1 { write := true, tags := false, tagged := true } false L = .mem (leaf L) (pa L) (va L)) →
      Effect (.settag g d ad) s m ((lanesOf m).foldl
        (fun t L => (t.addTlb s.me (leaf L) (pa L) (vaOf (va L))).setTag s.me (leaf L) (pa L) (vaOf (va L)) ((s.g.readV d L).setWidth 4)) s)) ∧
    (∀ (leaf : Lane → Dword) (pa : Lane → Nat) (va : Lane → Dword),
      (∀ L : Lane, m.getLsbD L.val = true → s.resolveG ad 1 { tags := false } false L = .mem (leaf L) (pa L) (va L) ∧
        (s.heldLine s.me (vaOf (va L)) = none → leafTagged (leaf L) = true → s.linkUp (pa L) = true)) →
      GivesV (.gettag g d ad) s g d (fun L =>
        if leafTagged (leaf L) = true then (s.tagSeen (s.heldLine s.me (vaOf (va L))) (pa L)).setWidth 32 else 0))) ∧
  (∀ (s : State) (who : Who) (va : Nat) (k : Bool),
    let t := s.setMark who va k
    { t with l2 := s.l2 } = s ∧ (t.l2.map fun l => { l with mark := none }) = (s.l2.map fun l => { l with mark := none }) ∧
    ∀ l ∈ t.l2, sameLine who va l = true → l.mark.isSome = k) ∧
  ∀ (s : State) (who : Who) (leaf : Dword) (pa va qa : Nat) (x : BitVec 4), leafDlog leaf = false → pa % 128 = va % 128 → who.engine = false →
    let t := s.setTag who leaf pa va x
    (s.linkUp pa = true → t.tagAt qa = (if qa / 32 = pa / 32 then x else s.tagAt qa) ∧ t.tagSeen (t.heldLine who va) pa = x) ∧
    (s.linkUp pa = false → t.tags = s.tags) ∧
    { t with tags := s.tags, l1 := s.l1, l2 := s.l2, rlc := s.rlc } = s

/-- Fences, hints, line words and tags. That hints change only which lines are held rests on log 4. -/
def Obligations.FencesAndLines : Prop :=
  Clause.Fences ∧ Clause.LineAndTagWords

/-- R240, R261, R280, R187: the Basin words send one operation for each active lane, and perform them at once in deterministic
issue mode; an operation combines the word in its stack. They aim at no area that belongs to the device (R10; log 6). -/
def Clause.BasinWords : Prop :=
  (∀ (s : State) (g : Bool) (d : VReg) (ad : GAddr) (leaf : Lane → Dword) (pa : Lane → Nat) (va : Lane → Dword),
    let m := s.g.lanes g
    s.g.region ≠ .trans → (∀ L : Lane, m.getLsbD L.val = true → s.resolveSc ad L = .mem (leaf L) (pa L) (va L) ∧ s.offLimits s.me true (vaOf (va L)) 4 = false) →
    let sent := fun op : BasinOp => (lanesOf m).foldl (fun t L => t.sendBasin op (leaf L) (pa L) (va L) (s.g.readV d L)) s
    let does := fun (i : Instr) (op : BasinOp) =>
      (s.myStage.desc[1].getLsbD 7 = false → Effect i s m (sent op)) ∧ (s.myStage.desc[1].getLsbD 7 = true → Effect i s m ((sent op).flushBasins s.g.gid))
    does (.baddS32 g d ad) .addS32 ∧ does (.baddF32 g d ad) .addF32 ∧ does (.baddBf16x2 g d ad) .addBf16 ∧
    does (.bmaxF32 g d ad) .maxF32 ∧ does (.bminF32 g d ad) .minF32) ∧
  (∀ (s : State) (op : BasinOp) (leaf va : Dword) (pa : Nat) (v : Word), ∃ n : Nat,
    (s.sendBasin op leaf pa va v).basins = s.basins ++ [{ id := n, gid := s.g.gid, core := s.g.core, op := op, pa := pa, va := vaOf va, leaf := leaf
                                                          part := s.me.part, asid := s.me.asid, value := v }] ∧
    ∀ b ∈ s.basins, b.id ≠ n) ∧
  (∀ (s : State) (b : Basin), b ∈ s.basins → (s.basins.map (·.id)).Nodup →
    exec (.basinPerform b.id) s = .next { s.performBasin b with basins := s.basins.filter fun x => x.id ≠ b.id }.wake) ∧
  ∀ (s : State) (b : Basin), b.pa % 4 = 0 → s.l2 = [] → s.upsetBits = [] → s.poisoned b.pa = false → leafDlog b.leaf = false →
    let old : Word := BitVec.ofNat 32 (leNat ((List.range 4).map fun k => s.dramByte b.leaf (b.pa + k)))
    let new := fun k : Nat => ((b.op.combine old b.value) >>> (8 * k)).setWidth 8
    (∀ a : Nat, (s.performBasin b).dramByte b.leaf a = if b.pa ≤ a ∧ a - b.pa < 4 then new (a - b.pa) else s.dramByte b.leaf a) ∧
    (b.op = .addS32 → b.op.combine old b.value = old + b.value)


/-! ### Engines -/
/-- R123, R124, R229, R238, R239, R259, R260, R262: stage queues: on chip first, and in the overflow ring in memory once that is
full. A record that leaves a queue is of the device's choosing (R125), and taking it is an acquire at DEVICE. -/
def Clause.QueueWords : Prop :=
  (∀ (s : State) (d b : SReg) (q : QReg) (k : Nat), s.boundQueue q = some k → (s.g.region = .trans → ∀ h ∈ s.others, h.gid ≠ s.g.gid) →
    let st := s.myLaunch.stage k
    let w := stageWidth st
    let out := fun n : Nat => s.g.regs.pending &&& regBits (regRun d n) = 0
    let r := s.g.readSs b w
    let taken := fun (f : State → List Word → Prop) =>
      (∃ j r, st.queue[j]? = some r ∧ f ((s.updLaunch s.myLid (Launch.updStage k fun st =>
          { st with queue := st.queue.eraseIdx j, quads := st.quads.erase r })).wake.dropCopies 2) r) ∨
      (let seen := s.devSee (s.who s.myCtx 0 0) (ringAt st st.ringHead) (4 * w)
       let r := (List.range w).map fun i => seen.devWord (s.who s.myCtx 0 0) (ringAt st st.ringHead + 4 * i)
       st.ringCount ≠ 0 ∧ f ((seen.updLaunch s.myLid (Launch.updStage k fun st =>
          { st with ringHead := (st.ringHead + 1) % stageRing st, ringCount := st.ringCount - 1, quads := st.quads.erase r })).wake.dropCopies 2) r)
    (b.val + w ≤ 60 → s.g.regs.pending &&& regBits (regRun b w) = 0 → s.g.regs.spois &&& regBits (regRun b w) = 0 →
      (st.queue.length < st.desc[3].toNat % 2 ^ 11 →
        Effect (.qpush d q b) s 0 (((s.endTransaction.queued k fun l => l ++ [r]).wake).setS d 1)) ∧
      (st.desc[3].toNat % 2 ^ 11 ≤ st.queue.length → st.ringCount < st.desc[6].toNat % 2 ^ 21 →
        Effect (.qpush d q b) s 0 (((s.endTransaction.devPuts (s.who s.myCtx 0 0) (ringAt st (st.ringHead + st.ringCount)) r).updLaunch s.myLid
          (Launch.updStage k fun st => { st with ringCount := st.ringCount + 1 })).wake.setS d 1)) ∧
      (st.desc[3].toNat % 2 ^ 11 ≤ st.queue.length → st.desc[6].toNat % 2 ^ 21 ≤ st.ringCount →
        Effect (.qpush d q b) s 0 (s.endTransaction.setS d 0))) ∧
    (∀ i, ringAt st i = (st.desc[4].toNat + st.desc[5].toNat % 2 ^ 20 * 2 ^ 32) + 64 * (i % (st.desc[6].toNat % 2 ^ 21))) ∧
    (d.val + w ≤ 60 → out w → ¬(st.queue = [] ∧ st.ringCount = 0) →
      taken fun u r => Effect (.qpop d q) s 0 (u.setSs d r) ∧
        (s.g.gid ≠ 0 → s.myWait = .pop d q → (∀ l, s.g.me.leaf = some l → l.chained = false) → s.myStage.desc[1].getLsbD 7 = false →
          Issues (.qpop d q) s → Flows s 1 → exec (.qpopTake s.g.gid s.g.sel) s = .next ((u.setSs d r).onward 1))) ∧
    (d.val + w ≤ 60 → out w → st.queue = [] → st.ringCount = 0 →
      Waits (.qpop d q) s fun u => u.waitFor (.pop d q)) ∧
    (d.val + w + 1 ≤ 60 → out (w + 1) →
      (¬(st.queue = [] ∧ st.ringCount = 0) → taken fun u r => Effect (.qpoll d q) s 0 (u.setSs d (1 :: r))) ∧
      (st.queue = [] → st.ringCount = 0 → GivesS (.qpoll d q) s d 0)) ∧
    (60 < b.val + w → Outlawed (.qpush d q b) s) ∧ (60 < d.val + w → Outlawed (.qpop d q) s) ∧
    (60 < d.val + w + 1 → Outlawed (.qpoll d q) s)) ∧
  (∀ (s : State) (d b : SReg) (q : QReg), s.boundQueue q = none →
    Outlawed (.qpush d q b) s ∧ Outlawed (.qpop d q) s ∧ Outlawed (.qpoll d q) s) ∧
  ∀ (s : State) (g : Bool) (d : PReg) (a b : VReg), (s.g.region = .trans → ∀ h ∈ s.others, h.gid ≠ s.g.gid) →
    let m := s.g.lanes g
    let word := fun (i : Instr) (k : Nat) =>
      let w := stageWidth (s.myLaunch.stage k)
      let st := s.myLaunch.stage k
      let pushed := s.endTransaction.queued k fun l => l ++ (lanesOf m).map (pushRecord s.g a b w)
      (st.queue.length + (lanesOf m).length ≤ st.desc[3].toNat % 2 ^ 11 → m ≠ 0 → Effect i s m (pushed.wake.setP d m fun _ => .t)) ∧
      (st.desc[3].toNat % 2 ^ 11 ≤ st.queue.length → st.desc[6].toNat % 2 ^ 21 ≤ st.ringCount → Effect i s m (s.endTransaction.setP d m fun _ => .f)) ∧
      Effect i s m (
        let p := s.endTransaction.pushLanes k (fun _ => false) (fun L => [s.g.readV a L, s.g.readV (vreg a 1) L, s.g.readV b L, s.g.readV (vreg b 1) L]) (lanesOf m)
        p.1.setP d m fun L => (p.2.lookup L.val).getD .f)
    (∀ k, s.emitTo = some k → word (.emit g d a b) k) ∧ (s.emitTo = none → Outlawed (.emit g d a b) s) ∧
    (∀ k, s.spawnTo = some k → (∀ L : Lane, m.getLsbD L.val = true → s.g.ivKind a L = .valid) → word (.spawn g d a b) k) ∧
    (s.spawnTo = none → Outlawed (.spawn g d a b) s) ∧
    ((∃ k, s.spawnTo = some k) → (∀ L : Lane, m.getLsbD L.val = true → s.g.ivKind a L = .empty) →
      Effect (.spawn g d a b) s m (s.endTransaction.setP d m fun _ => .t))

/-- Basin operations and stage queues. -/
def Obligations.BasinsAndQueues : Prop :=
  Clause.BasinWords ∧ Clause.QueueWords

/-- R231, R233, R236, R256, R257, R187: copies and `putsig` as they issue, accepted at once in deterministic issue mode, and the
batch words; a `cwait` that returns is an acquire at CLUSTER (R224). A copy whose partition does not own the engine is refused
before any of its scalars is looked at (R256). -/
def Clause.CopyWords : Prop :=
  (∀ (s : State) (d a b : SReg),
    let word := fun (i : Instr) (kind : Nat) (flag : Bool) =>
      let c := s.newCopy kind d a b flag
      let t := ({ s.endTransaction with copies := s.copies ++ [c], nextCopy := s.nextCopy + 1 }).setPending d true
      (s.ownsEngine = true → s.inFlight s.g.gid < 64 →
        (s.myStage.desc[1].getLsbD 7 = false → Effect i s 0 t) ∧ (s.myStage.desc[1].getLsbD 7 = true → Effect i s 0 (t.acceptCopy c))) ∧
      (s.ownsEngine = true → 64 ≤ s.inFlight s.g.gid → Waits i s State.stallNow) ∧
      (s.ownsEngine = false → s.barred i = false → s.g.amask ≠ 0 → Stands i s → exec i s =
        .next ((((s.raise 0x14 s.g.amask).setRegs fun r => { r with retired := r.retired + 1 }).advance 1).closeIssue))
    word (.cpyIn d a b) 0 false ∧ word (.cpyOut d a b) 1 false ∧ word (.cpyMc d a b) 2 false ∧ word (.cpyCc d a b) 3 false ∧
    word (.cpy2d d a b) 4 false ∧ word (.cpy2dmc d a b) 5 false ∧ word (.cpyWb d a b) 6 false ∧ word (.putsig d a b) 10 true) ∧
  (∀ (s : State) (kind : Nat) (d a b : SReg) (flag : Bool), s.latch.snap = none →
    let c := s.newCopy kind d a b flag
    (∀ k : Fin 8, c.desc[k] = s.g.readS (Fin.ofNat 64 (a.val + k.val))) ∧ c.gid = s.g.gid ∧ c.kind = kind ∧ c.token = d ∧
    c.batch = s.g.sealedTo + 1 ∧ c.accepted = false ∧ c.id = s.nextCopy ∧
    (flag = true → ∀ k : Fin 4, c.flag[k] = s.g.readS (Fin.ofNat 64 (b.val + k.val))) ∧ (flag = false → c.opb = s.g.readS b)) ∧
  (∀ (s : State) (d a : SReg) (n : Nat),
    let unfinished := (s.openBatches.filter fun b => b ≤ s.g.sealedTo).length
    (unfinished < 255 → Effect (.cseal d) s 0 ({ s with g := { s.g with sealedTo := s.g.sealedTo + 1 } }.setS d (BitVec.ofNat 32 (s.g.sealedTo + 1)))) ∧
    (255 ≤ unfinished → Waits (.cseal d) s State.stallNow) ∧
    (n ≤ s.g.sealedTo → s.g.sealedTo < n + 2 ^ 31 → s.g.readS a = BitVec.ofNat 32 n →
      let done := ∀ c ∈ s.copies, c.gid = s.g.gid → n < c.batch
      (done → Effect (.cwait d a) s 0 ((s.dropCopies 1).setS d (s.g.firstFailure n)) ∧ GivesS (.cpoll d a) s d 1) ∧
      (¬done → Waits (.cwait d a) s State.stallNow ∧ GivesS (.cpoll d a) s d 0)) ∧
    (2 ^ 31 ≤ (BitVec.ofNat 32 s.g.sealedTo - s.g.readS a).toNat → (s.g.regs.pending ||| s.g.regs.spois).getLsbD a.val = false →
      Outlawed (.cwait d a) s ∧ Outlawed (.cpoll d a) s)) ∧
  ∀ (g : Machine.Group) (n : Nat),
    ((∀ f ∈ g.failed, n < f.1) → g.firstFailure n = 0) ∧
    ∀ f ∈ g.failed, f.1 ≤ n → (∀ h ∈ g.failed, h.1 ≤ n → h ≠ f → f.2.1 < h.2.1) → g.firstFailure n = f.2.2

/-- R231 to R237, R256, R258, R38: how an engine takes a command, and how it ends: its token lands, its barrier word arrives or
is set FAULTED, a page declared fatal ends it, and a put's flag, never in the register window, comes after its payload; a flag
on another device than the payload is refused before its page is looked at further. Which words a failed copy has written, that
a barrier word out of range ends the copy with nothing written, that a refused multicast sets its barrier words FAULTED, and
that a page declared fatal ends a copy though it is present by now, are the model's readings and choices (log 18). -/
def Clause.CopySteps : Prop :=
  (∀ (s : State) (c : Copy), s.copies.find? (fun x => x.id = c.id) = some c →
    let l := s.engPairs c
    let moved := (s.moveWords c.who l).1
    let poison := (s.moveWords c.who l).2.any fun e => e.2.2
    let inside := ∃ w, s.wg? c.wid = some w ∧ (c.bar = 0 ∨ c.bar + 8 ≤ w.cmBytes)
    let token := fun k : Byte => 0xC0000000 ||| k.setWidth 32
    let fails := fun k : Byte => Host.Outcome.next (((s.partWrites c.who l 0).signal c faultWord).endCopy c (token k))
    (c.accepted = false → (∀ x ∈ s.copies, x.gid = c.gid → x.accepted = false → c.id ≤ x.id) → exec (.copyAccept c.id) s = .next (s.acceptCopy c)) ∧
    (c.accepted = true → c.tag = none → c.multi = false → c.kind ≠ 10 →
      (c.fatal = true → exec (.copyComplete c.id) s = fails 0x08) ∧
      (c.fatal = false →
        (s.meets c = .clear → inside →
          exec (.copyComplete c.id) s = .next ((moved.signal c (arriveWord 1)).endCopy c (if poison then 0xC000000D else 0))) ∧
        (s.meets c = .clear → ¬inside → exec (.copyComplete c.id) s = .next ((s.signal c faultWord).endCopy c 0xC0000004)) ∧
        (∀ k, s.meets c = .fault k → exec (.copyComplete c.id) s = fails k) ∧
        (∀ p second write, s.meets c = .park p second write → exec (.copyComplete c.id) s = .next (s.engPark c p second write)))) ∧
    (c.accepted = true → c.tag = none → c.multi = true → c.kind ≠ 10 →
      let src := c.places.map fun p => s.engRes c.who c.wid false (c.srcAt p.1 p.2)
      let f := src.foldl (State.engFill c.who) s
      let data := c.places.map fun p => (p, f.engRead c.who (s.engRes c.who c.wid false (c.srcAt p.1 p.2)))
      let failed := f.multiFailed c
      (c.named = [] → exec (.copyComplete c.id) s = .next (s.endCopy c 0)) ∧
      (c.named ≠ [] → c.fatal = true → exec (.copyComplete c.id) s = .next ((s.signalAll c faultWord).endCopy c 0xC0000008)) ∧
      (c.named ≠ [] → c.fatal = false → firstBar (src.map fun r => (false, r)) = .clear →
        exec (.copyComplete c.id) s = .next (((f.receivers c).foldl (fun t m => t.putReceiver c data m) f).endCopy c
          (if failed ≠ 0 then BitVec.ofNat 32 (2 ^ 31 + failed) else if data.any fun e => e.2.2 then 0xC000000D else 0)))) ∧
    (c.accepted = true → c.tag = none → c.kind = 10 →
      let fl := match s.engRes c.who c.wid true (.glob (joinPair c.flag[0] c.flag[1])) with | .window _ => .fault 0x06 | r => r
      (c.fatal = true → exec (.putsigComplete c.id) s = .next ((s.partWrites c.who l 0).endCopy c 0xC0000008)) ∧
      (c.fatal = false → ∀ k, s.meets c = .fault k → exec (.putsigComplete c.id) s = .next ((s.partWrites c.who l 0).endCopy c (token k))) ∧
      (c.fatal = false → s.meets c = .clear →
        (∀ dev, s.deviceOf c.who (joinPair c.flag[0] c.flag[1]) = some dev → (∃ p ∈ l, remoteDev p.2 ≠ dev) →
          exec (.putsigComplete c.id) s = .next (s.endCopy c 0xC0000006)) ∧
        ((∀ dev, s.deviceOf c.who (joinPair c.flag[0] c.flag[1]) = some dev → ∀ p ∈ l, remoteDev p.2 = dev) →
          (∀ k, firstBar [(true, fl)] = .fault k → exec (.putsigComplete c.id) s = .next (s.endCopy c (token k))) ∧
          (∀ p second, firstBar [(true, fl)] = .park p second true → exec (.putsigComplete c.id) s = .next (s.engPark c p second true)) ∧
          (firstBar [(true, fl)] = .clear →
            exec (.putsigComplete c.id) s = .next ((moved.setFlag c fl).endCopy c (if poison then 0xC000000D else 0))))))) ∧
  (∀ (s : State) (who : Who) (p leaf : Dword), ptrBad p = false → vaOf p < windowBase → s.heldLine who (vaOf p) = none →
    s.translate who (vaOf p) = .page leaf →
      s.deviceOf who p = some (if leafRem leaf = true then some (leaf.toNat / 2 ^ 16 % 2 ^ 11) else none)) ∧
  (∀ (s : State) (c : Copy),
    (c.ok = true → s.acceptCopy c = { s with copies := updCopy c.id (fun x => { x with accepted := true }) s.copies }) ∧
    (c.ok = false → c.multi = false → s.acceptCopy c = (s.signal c faultWord).endCopy c 0xC0000001) ∧
    (c.ok = false → c.multi = true → s.acceptCopy c = (s.signalAll c faultWord).endCopy c 0xC0000001)) ∧
  (∀ (s : State) (c : Copy) (data : List ((Nat × Nat) × Word × Bool)) (m : Workgroup),
    let off := fun p : Nat × Nat => c.desc[2].toNat % 2 ^ 20 + p.1 * c.desc[7].toNat + 4 * p.2
    (s.upsetCells = [] →
      let t := s.putWords c.who (data.map fun e => (ERes.core m.wid (off e.1), e.2)) [] 0
      s.putReceiver c data m = if c.bar = 0 then t else t.updBarWord m.wid c.bar (arriveWord 1)) ∧
    ((∃ e ∈ data, (m.wid, off e.1) ∈ s.upsetCells) → c.bar ≠ 0 → ∃ t : State, s.putReceiver c data m = t.updBarWord m.wid c.bar faultWord)) ∧
  (∀ (s : State) (who : Who) (l : List (ERes × Word × Bool)), (l.map (·.1)).Nodup →
    s.putWords who l [] 0 = l.foldl (fun t e => t.engWrite who e.1 e.2.1 e.2.2) s) ∧
  (∀ (s : State) (c : Copy) (w : Word),
    let t := s.endCopy c w
    (∀ x : Copy, x ∈ t.copies ↔ x ∈ s.copies ∧ x.id ≠ c.id) ∧ t.mem = s.mem ∧ t.l2 = s.l2 ∧ t.rlc = s.rlc ∧ t.w = s.w ∧ t.otherWgs = s.otherWgs ∧
    (c.gid ≠ s.g.gid → t.g.regs = s.g.regs ∧ t.g.failed = s.g.failed) ∧
    (c.gid = s.g.gid → c.token.val < 60 → t.g.readS c.token = w ∧ t.g.regs.pending.getLsbD c.token.val = false ∧
      (w ≠ 0 → t.g.failed = s.g.failed ++ [(c.batch, c.id, w)]) ∧ (w = 0 → t.g.failed = s.g.failed))) ∧
  ∀ (s : State) (c : Copy) (r : ERes),
    s.setFlag c r = s.engWrite c.who r (if c.flag[3].getLsbD 0 then (s.engRead c.who r).1 + c.flag[2] else c.flag[2]) false

/-- Copies, batches and put with signal. -/
def Obligations.Copies : Prop :=
  Clause.CopyWords ∧ Clause.CopySteps


/-! ### The matrix array -/
/-- R342, R348 to R352: a matrix word enters its core's order, with the scalars it read, and its token is pending. -/
def Clause.MatrixWords : Prop :=
  ∀ (s : State) (d a : SReg), (s.g.region = .trans → ∀ h ∈ s.others, h.gid ≠ s.g.gid) →
    let room := (s.core? s.g.core).order.length < 8
    let put := fun (t : State) (o : MOp) => (t.updCore s.g.core fun c => { c with order := c.order ++ [o] }).setPending o.token true
    let word := fun (i : Instr) (t : State) (o : MOp) => (room → Effect i s 0 (put t o)) ∧ (¬room → Waits i s State.stallNow)
    word (.mma d a) s (s.matrixOp .mma d a 8) ∧ word (.mld d a) s.endTransaction (s.matrixOp .mld d a 4) ∧
    word (.mst d a) s.endTransaction (s.matrixOp .mst d a 4) ∧ word (.mzero d a) s (s.matrixOp .mzero d a 1) ∧
    word (.mres d a) s (s.matrixOp .mres d a 2) ∧ word (.mrel a) s (s.matrixOp .mrel 63 a 1) ∧
    word (.mspan d a) s (s.matrixOp .mspan d a 1) ∧ word .munspan s (s.matrixOp .munspan 63 63 0)

/-- R233, R337, R142: the end of a matrix word. -/
def Clause.MatrixTokens : Prop :=
  ∀ (s : State) (core : CoreId) (o : MOp) (w : Word), o.gid = s.g.gid →
    let t := s.endMOp core o w
    (t.core? core).order = (s.core? core).order.filter (fun x => decide (x.id ≠ o.id)) ∧
    (o.token.val < 60 → t.g.readS o.token = w ∧ t.g.regs.pending.getLsbD o.token.val = false) ∧
    (∀ r : SReg, r ≠ o.token → t.g.readS r = s.g.readS r) ∧
    t.g.regs.fstat = (if o.sat = true then s.g.regs.fstat ||| 0x80 else s.g.regs.fstat) ∧
    t.g.regs.shdcnt.toNat = (if o.miss = true then min (s.g.regs.shdcnt.toNat + 1) (2 ^ 32 - 1) else s.g.regs.shdcnt.toNat) ∧
    t.mem = s.mem ∧ t.w = s.w

/-- Matrix words enter their core's order, and end with a token. -/
def Obligations.MatrixWords : Prop :=
  Clause.MatrixWords ∧ Clause.MatrixTokens

/-- R326, R328, R330, R333 to R338, R344: the sums of the array, and where elements stand. -/
def Clause.MatrixArithmetic : Prop :=
  (∀ (md : Mode) (l : List Val), l ≠ [] → (∀ v ∈ l, v.finite) → (sumV md l).finite ∧ (sumV md l).real = (l.map Val.real).sum) ∧
  (∀ (md : Mode) (a b : Nat → Val) (acc : Nat),
    dotFloat md a b 16 acc = addStep md acc (sumV md ((List.range 16).map fun j => (mulV (a j) (b j)).toVal)) ∧
    dotFloat md a b 32 acc = addStep md (dotFloat md a b 16 acc) (sumV md ((List.range 16).map fun j => (mulV (a (16 + j)) (b (16 + j))).toVal))) ∧
  (∀ (a b : Nat → Int) (n : Nat) (acc : Int), -2 ^ 31 ≤ acc → acc < 2 ^ 31 →
    ((∀ m, m ≤ n → -2 ^ 31 ≤ acc + ∑ k ∈ Finset.range (16 * m), a k * b k ∧ acc + ∑ k ∈ Finset.range (16 * m), a k * b k < 2 ^ 31) →
      dotInt a b (16 * n) acc = (acc + ∑ k ∈ Finset.range (16 * n), a k * b k, false)) ∧
    dotInt a b 16 acc = (limit (-2 ^ 31) (2 ^ 31 - 1) (acc + ∑ k ∈ Finset.range 16, a k * b k),
      decide (limit (-2 ^ 31) (2 ^ 31 - 1) (acc + ∑ k ∈ Finset.range 16, a k * b k) ≠ acc + ∑ k ∈ Finset.range 16, a k * b k))) ∧
  (∀ (c : Core) (p q : Nat) (w : Word) (b : Bool), (c.setElem p w b).elem q = if q = p then w else c.elem q) ∧
  (∀ (c : Core) (tr tc : Nat) (f : Nat → Nat → Word × Bool) (tr' tc' i j : Nat), tr < 4 → tc < 4 → tr' < 4 → tc' < 4 → i < 64 → j < 64 →
    (c.setTile tr tc f).elem (elemAt tr' tc' i j) = if tr' = tr ∧ tc' = tc then (f i j).1 else c.elem (elemAt tr' tc' i j)) ∧
  ∀ (w : Workgroup) (x : MDesc) (r : Res) (c : Core) (base i n : Nat), x.trow * 64 + x.m ≤ 256 → x.tcol * 64 + x.n ≤ 256 →
    (i < x.m → n < x.n → (c.writeResult w x r base).elem (elemAt x.trow x.tcol i n) = (mmaElem w x c r (base + i) i n).1) ∧
    (∀ p, (∀ i' n', i' < x.m → n' < x.n → p ≠ elemAt x.trow x.tcol i' n') → (c.writeResult w x r base).elem p = c.elem p)

/-- R324, R325, R327 to R329, R332, R343 to R352: how a core performs the words of its order: the first word of the workgroup
that holds the claim, or of one that takes it. An `mspan` claims its followers' cores and, refused, claims none. That a span's
slaving waits for its followers' earlier words and is checked again then, which tiles count as unordered, and how words of
several workgroups take turns, are the model's readings and choices (log 19). -/
def Clause.MatrixSteps : Prop :=
  ∀ (s : State) (core : CoreId) (o : MOp),
    let c := s.core? core
    let first := c.order.head? = some o ∧ (∀ x ∈ c.order, x.started = false) ∧ o.lead = none ∧ c.master = none
    let mine := c.claim = some o.wid
    let next := first ∧ mine ∧ c.bid = none
    let runs := fun (u : State) => exec (.matrixPerform core) s = .next u
    let res := resOf
    (c.nextOp = none → runs s) ∧ (c.nextOp = some o → runs (s.takeOp core o)) ∧ (next → c.nextOp = some o) ∧
    (first → c.claim = none ∨ mine ∧ c.bid ≠ none → o.claims = true →
      exec (.matrixPerform core) s = exec (.matrixPerform core) (s.updCore core (Core.claimFor o.wid none))) ∧
    (mine → (c.claimFor o.wid none) = { c with bid := none }) ∧
    (∀ wid bid, c.claim = none → let d := c.claimFor wid bid
      d.claim = some wid ∧ d.bid = bid ∧ d.res = [] ∧ d.heldTiles = 0 ∧ (∀ p, d.elem p = 0) ∧ d.order = c.order) ∧
    (first → ¬mine → (o.kind = .mst → runs (s.endMOp core o 0xC0000001)) ∧ (o.kind = .mrel ∨ o.kind = .munspan → runs (s.dropOp core o.id))) ∧
    (next → o.kind = .mzero → o.desc[0].toNat < 2 ^ 16 → ∃ v : State, runs (v.endMOp core o 0) ∧ { v with cores := s.cores } = s ∧
      ∀ tr tc i j, tr < 4 → tc < 4 → i < 64 → j < 64 →
        (v.core? core).elem (elemAt tr tc i j) = if o.desc[0].getLsbD (4 * tr + tc) = true then 0 else c.elem (elemAt tr tc i j)) ∧
    (next → o.kind = .mzero → 2 ^ 16 ≤ o.desc[0].toNat → runs (s.endMOp core o 0xC0000001)) ∧
    (next → o.kind = .mres → mresIllegal o.desc[0] o.desc[1] = true → runs (s.endMOp core o 0xC0000001)) ∧
    (next → o.kind = .mres → mresIllegal o.desc[0] o.desc[1] = false →
      let size := (wbits o.desc[0] 19 0 + 255) / 256 * 256
      (∀ id base, c.freeId = some id → c.freeRun size = some base → ∃ (v : State) (r : Vector Word 4), runs (v.endMOp core o (BitVec.ofNat 32 id)) ∧
        { v with cores := s.cores } = s ∧ (v.core? core).res = (id, r) :: c.res ∧ (res r).base = base ∧ (res r).size = size) ∧
      (c.freeId = none ∨ c.freeRun size = none → runs (s.endMOp core o 0xC0000004))) ∧
    (next → o.kind = .mrel → (c.res? o.desc[0].toNat).isSome = true → o.desc[0].toNat < 64 → runs (s.startOp core o)) ∧
    (next → o.kind = .mrel → 64 ≤ o.desc[0].toNat ∨ (c.res? o.desc[0].toNat).isNone = true → runs (s.dropOp core o.id)) ∧
    (∀ rid : Fin 64, c.openOp .mrel = some o → o.desc[0].toNat = rid.val → s.resInUse core rid.val = false →
      exec (.reservationFree core rid) s = .next ((s.updCore core fun x => { x with res := x.res.filter fun r => r.1 ≠ rid.val }).dropOp core o.id)) ∧
    (next → o.kind = .munspan → runs (if c.spanCode = 0 then s.dropOp core o.id else s.startOp core o)) ∧
    (c.openOp .munspan = some o → exec (.spanFree core) s = .next ((s.freeSpan core).dropOp core o.id)) ∧
    (∀ w code, next → o.kind = .mspan → s.wg? o.wid = some w → o.desc[0].toNat = code → code < 4 → code ≠ 0 → c.spanCode = 0 →
      (s.followers w core code).length + 1 = spanSize code → w.rank + spanSize code ≤ w.gang →
      (∀ f ∈ s.followers w core code, (s.core? f.1).master = none ∧ (s.core? f.1).spanCode = 0 ∧
        ((s.core? f.1).claim = none ∨ (s.core? f.1).claim = some f.2.wid)) →
      ∃ v : State, runs (v.setOp core o.id fun x => { x with started := true, mark := s.fresh }) ∧ { v with cores := s.cores } = s ∧
        (∀ f ∈ s.followers w core code, v.core? f.1 = (s.core? f.1).claimFor f.2.wid (some o.id)) ∧
        ∀ k, (∀ f ∈ s.followers w core code, f.1 ≠ k) → v.core? k = s.core? k) ∧
    (∀ k, (s.dropBids o.id).core? k = if (s.core? k).bid = some o.id then { s.core? k with claim := none, bid := none } else s.core? k) ∧
    (∀ w, next → o.kind = .mspan → s.wg? o.wid = some w → o.desc[0].toNat % 4 = 0 ∨ 4 ≤ o.desc[0].toNat ∨ c.spanCode ≠ 0 →
      runs ((s.dropBids o.id).endMOp core o 0xC0000001)) ∧
    (c.openOp .mspan = some o →
      let ks := (spanCores core (wbits o.desc[0] 1 0)).drop 1
      let free := c.master = none ∧ ∀ k ∈ ks, (s.core? k).master = none ∧ (s.core? k).spanCode = 0
      let owned := ∃ w, s.wg? o.wid = some w ∧ ∀ k ∈ ks, ∃ m, s.memberOn w k = some m ∧ (s.core? k).claim = some m.wid
      (∀ k ∈ ks, ∀ x ∈ (s.core? k).order, o.mark ≤ x.id) →
        (free → owned → exec (.spanSlave core) s = .next (((ks.foldl (fun t k => t.updCore k fun x => { x with master := some core, bid := none }) s).updCore core
          fun x => { x with spanCode := wbits o.desc[0] 1 0 }).endMOp core o 0)) ∧
        (¬free → exec (.spanSlave core) s = .next ((s.dropBids o.id).endMOp core o 0xC0000001)) ∧
        (free → ¬owned → exec (.spanSlave core) s = .next ((s.dropBids o.id).endMOp core o 0xC0000004))) ∧
    (∀ w r, next → o.kind = .mma → s.wg? o.wid = some w → c.spanCode = 0 → c.res? (mdesc o.desc).rid = some r → w.core = core →
      mmaIllegal o.desc 0 [some r] = false → mmaBounds o.desc 0 w [some r] [some w] = false →
      let x := mdesc o.desc
      let rep := coreReport w x c r 0
      let failed := o.shm ≠ 0 ∧ rep.checks = false
      runs (((s.updCore core fun k => (k.writeResult w x r 0).noteWrite o (mmaTiles x)).leaveOrders o.id).setOp core o.id fun p =>
        { p with
          started := true
          result := if rep.sick = true then 0xC000000D else if failed ∧ o.shm ≠ 1 then 0xC000000C else 0
          sat := rep.sat, miss := decide (failed ∧ o.shm = 1) })) ∧
    (∀ w, next → o.kind = .mma → s.wg? o.wid = some w → c.spanCode = 0 → w.core = core →
      let x := mdesc o.desc
      let ends := fun code : Word => runs ((s.faultBars x.cbar [some w]).endMOp core o code)
      (mmaIllegal o.desc 0 [c.res? x.rid] = true → ends 0xC0000001) ∧
      (mmaIllegal o.desc 0 [c.res? x.rid] = false → mmaBounds o.desc 0 w [c.res? x.rid] [some w] = true → ends 0xC0000004)) ∧
    (c.openOp .mma = none → exec (.mmaComplete core) s = .next s) ∧
    (∀ w, c.openOp .mma = some o → s.wg? o.wid = some w → c.spanCode = 0 → w.core = core →
      let cbar := (mdesc o.desc).cbar
      exec (.mmaComplete core) s =
        .next ((if cbar = 0 then s else (s.updBarWord w.wid cbar (arriveWord 1)).noteArrivals o.id [(w.wid, cbar)]).endMOp core o o.result)) ∧
    (∀ gid tile, c.unordered gid tile = true ↔ ∃ pre x post, c.writes = pre ++ x :: post ∧ x.tile = tile ∧ ∀ y ∈ x :: post, y.gid ≠ gid ∧ gid ∉ y.seen) ∧
    (next → o.kind = .mld ∨ o.kind = .mst → tileCause o.desc = none → runs (s.startOp core o)) ∧
    (∀ k, next → o.kind = .mst → tileCause o.desc = some k → runs (s.endMOp core o (0xC0000000 ||| k.setWidth 32))) ∧
    (c.order.find? (fun x => x.started && (x.kind = .mld || x.kind = .mst)) = some o → o.tag = none → o.fatal = false → tileFmt o.desc = 7 →
      c.master = none →
      let places := fun write : Bool => (tileWords o.desc).map fun p => s.tileRes core o write p
      let bar := fun write : Bool => firstBar ((places write).map fun r => (write, r))
      let who := s.opWho core o
      let tr := wbits o.desc[3] 1 0
      let tc := wbits o.desc[3] 3 2
      let runs := fun u : State => exec (.tileMoveComplete core) s = .next u
      (o.kind = .mld → bar false = .clear →
        let f := (places false).foldl (State.engFill who) s
        ∃ (v : State) (token : Word), runs (v.endMOp core o token) ∧ { v with cores := f.cores } = f ∧
          (∀ p ∈ tileWords o.desc, (v.core? core).elem (elemAt tr tc p.1 p.2) = (f.engRead who (s.tileRes core o false p)).1) ∧
          token = if (places false).any fun r => (f.engRead who r).2 then 0xC000000D else 0) ∧
      (o.kind = .mst → bar true = .clear → c.unordered o.gid (4 * tr + tc) = false →
        let data := (tileWords o.desc).map fun p => (s.tileRes core o true p, c.elem (elemAt tr tc p.1 p.2), decide (memGet c.accPois (elemAt tr tc p.1 p.2) ≠ 0))
        runs (((s.putWords who data [] 0).clearWhole who data).endMOp core o (if data.any fun e => e.2.2 then 0xC000000D else 0))) ∧
      (∀ p second write, (o.kind = .mld → bar false = .park p second write) → (o.kind = .mst → bar true = .park p second write) →
        o.kind = .mld ∨ o.kind = .mst → runs (s.tilePark core o p second write)))

/-- How a core performs its matrix words. -/
def Obligations.MatrixArray : Prop :=
  Clause.MatrixArithmetic ∧ Clause.MatrixSteps


/-! ### Pixels and textures -/
/-- R356, R357, R364, R373: announcing, posting and killing fragments. -/
def Clause.FragmentWords : Prop :=
  (∀ (s : State) (g : Bool) (d a b : VReg),
    let m := s.g.lanes g
    let l := s.myLaunch
    let early := s.myStage.desc[1].getLsbD 8
    let ann := State.annLanes l s.g a 0 (lanesOf m) s.endTransaction
    let post := fun (kill : Bool) (d b : VReg) => State.postLanes l early kill s.g d a b 0 (lanesOf m) s.endTransaction
    let full := ∃ L : Lane, m.getLsbD L.val = true ∧ 512 < (ann.1.blockSlots l (fragAt s.g a L)).length
    (l.rast? = none → ann.2 = [] → ¬full → Effect (.fannc g a) s m ann.1) ∧
    (l.rast? = none → full → Clean (.fannc g a) m s → Waits (.fannc g a) s State.stallNow) ∧
    (l.rast? ≠ none → Outlawed (.fannc g a) s) ∧
    ((post false d b).2 = [] → Effect (.frag g d a b) s m (post false d b).1.wake) ∧
    ((post true 0 0).2 = [] → Effect (.fragKill g a) s m (post true 0 0).1.wake)) ∧
  (∀ (s : State) (l : Launch) (g : Machine.Group) (a : VReg) (L : Lane) (ls : List Lane) (t : Target), l.target? (fragAt g a L).h = some t →
    let f := fragAt g a L
    f.x = (g.readV a L).toNat % 2 ^ 16 ∧ f.y = (g.readV a L).toNat / 2 ^ 16 ∧ f.psn.toNat = (g.readV (vreg a 1) L).toNat % 2 ^ 24 ∧
    f.h.toNat = (g.readV (vreg a 1) L).toNat / 2 ^ 24 ∧
    s.annFault l f = (if ¬(f.x < t.w ∧ f.y < t.h) then some 0x04
      else if ∃ p, s.lastPsn.lookup (f.key l.lid) = some p ∧ f.psn.toNat ≤ p.toNat then some 0x0E else none) ∧
    (∀ sick : Mask, sick.getLsbD L.val = false → s.annFault l f = none →
      State.annLanes l g a sick (L :: ls) s = State.annLanes l g a sick ls (s.announce l f (BitVec.ofNat 8 (2 ^ 2 ^ t.lg - 1)) 0 L.val)) ∧
    (∀ sick : Mask, sick.getLsbD L.val = true →
      let u := State.annLanes l g a sick ls s
      State.annLanes l g a sick (L :: ls) s = (u.1, (L.val, if f.x < t.w ∧ f.y < t.h then 0x0D else 0x04) :: u.2))) ∧
  (∀ (s : State) (l : Launch) (f : Frag) (cov : Byte) (z : Word) (k : Nat),
    let u := s.announce l f cov z k
    (∃ q : PixSlot, u.pixels = s.pixels ++ [q] ∧ q.lid = l.lid ∧ q.handle = f.h ∧ q.x = f.x ∧ q.y = f.y ∧ q.psn = f.psn ∧ q.state = SlotState.opened ∧
      q.coverage = cov ∧ q.idepth = z) ∧
    u.lastPsn.lookup (f.key l.lid) = some f.psn ∧ (∀ e, e ≠ f.key l.lid → u.lastPsn.lookup e = s.lastPsn.lookup e) ∧ u.g = s.g ∧ u.mem = s.mem) ∧
  ∀ (s : State) (l : Launch) (f : Frag) (kill : Bool) (z : Word) (c : Vector Word 4),
    (l.inside f = false → s.postFrag l false f kill z c = (s, some 0x04)) ∧
    (l.inside f = true → s.openSlot l f = none → s.postFrag l false f kill z c = (s, some 0x0E)) ∧
    (∀ q, l.inside f = true → s.openSlot l f = some q →
      s.postFrag l false f false z c = (s.setSlot { q with state := .filled, depth := z, colour := c }, none) ∧
      s.postFrag l false f true z c = ((s.setSlot { q with state := .cancelled }).settlePixels, none) ∧
      s.postFrag l true f false z c = (s.setSlot { q with state := .filled, depth := q.idepth, colour := c }, if z = q.idepth then none else some 0x0E) ∧
      s.postFrag l true f true z c = (s.setSlot { q with state := .filled, depth := q.idepth, colour := Vector.replicate 4 0 }, some 0x0E))

/-- R360, R368 to R370, R386 to R388: pixel loads and stores of a method group, live reads, and the flush. -/
def Clause.PixelWords : Prop :=
  (∀ (s : State) (g : Bool) (d : VReg) (k : BitVec 4) (mi : MethodInfo) (t : Target) (x : Tile), s.myTile = some (mi, t, x) →
    let col := k.getLsbD 3
    let smp := k.toNat % 8
    let m := s.g.lanes g
    let at_ := fun L : Lane => copyAt col mi.block L.val smp
    let whole := ∀ L : Lane, m.getLsbD L.val = true → memGet x.pois (at_ L / 8) = 0
    let hit := (lanesOf m).filter fun L => s.covered L smp
    let put := fun (b : Memory) (L : Lane) => memWrite b (at_ L) (t.encode col s.g d L)
    (t.selOk col smp = true →
      (whole → Effect (.pxld g d k) s m (s.setVlist d m (fun L => t.words col (leNat (memRead x.bytes (at_ L) (t.elem col)))) (if col then 4 else 1))) ∧
      Effect (.pxst g d k) s m { s with tiles := s.tiles.map fun y => if Tile.is x.lid x.handle x.tile y then { y with bytes := hit.foldl put y.bytes } else y }) ∧
    (t.selOk col smp = false →
      Outlawed (.pxld g d k) s ∧ Outlawed (.pxst g d k) s)) ∧
  (∀ (s : State) (g : Bool) (d : VReg) (k : BitVec 4), s.myTile = none → Outlawed (.pxld g d k) s ∧ Outlawed (.pxst g d k) s) ∧
  (∀ (s : State) (g : Bool) (d a : VReg) (b : VSrc),
    let m := s.g.lanes g
    let f := fun L : Lane => fragAt s.g a L
    let col := maskOf fun L => m.getLsbD L.val && (s.g.vb b L).getLsbD 3
    let t := (lanesOf m).foldl (State.liveFill f (s.g.vb b)) s
    let look := fun (back : Lane → Option Nat) (L : Lane) => t.liveLook (f L) (s.g.vb b L) L false (back L)
    let answered := fun back => (t.setVlist d m (fun L => (look back L).words) 1).setVlist d col (fun L => (look back L).words) 4
    let good := fun back => ∀ L : Lane, m.getLsbD L.val = true → (look back L).fault = none ∧ (look back L).words ≠ []
    let ls := s.g.liveLanes m (Instr.tsampSet g d a b).names a b
    let sees := fun L => s.prefixOf L (f L)
    let waits := ∃ y ∈ ls, s.liveWaits (s.orderNow 0) y = true
    (good sees → Effect (.tsampNow g d a b) s m (answered sees)) ∧
    (¬waits → good (fun _ => none) → Effect (.tsampSet g d a b) s m (answered fun _ => none)) ∧
    (waits → Issues (.tsampSet g d a b) s → Flows s (Instr.tsampSet g d a b).len → GoesOn (.tsampSet g d a b) s { s with g := { s.g with reads := s.g.reads ++
      [{ instr := .tsampSet g d a b, slot := s.g.sel, ipc := s.ipc, leaf := s.g.me.leaf.getD {}, regs := s.g.regs, depth := s.depthNow, no := s.noNow
         d := d, before := s.orderNow 0, lanes := ls }] } })) ∧
  (∀ (s : State) (f : Frag) (sel : Word) (t : Target), s.myLaunch.target? f.h = some t →
    s.liveTarget f sel = if f.x < t.w ∧ f.y < t.h ∧ sel.toNat < 16 ∧ t.selOk (sel.getLsbD 3) (sel.toNat % 8) = true then some t else none) ∧
  (∀ (s : State) (f : Frag) (sel : Word) (L : Lane) (sick : Bool) (back : Option Nat), let look := s.liveLook f sel L sick back
    (s.liveTarget f sel = none → look = { fault := some (0x04, 0) }) ∧
    ∀ t, s.liveTarget f sel = some t →
      let col := sel.getLsbD 3
      let n := t.elem col
      let block := blockOf f.x f.y
      let pix := pixOf f.x f.y
      (∀ x, s.tile? s.myLid f.h (t.tileOf f.x f.y) = some x →
        look = if sick = true ∨ memGet x.pois (copyAt col block pix (sel.toNat % 8) / 8) ≠ 0 then { fault := some (0x0D, 0) }
          else { words := t.words col (leNat (x.shows col block pix (sel.toNat % 8) n back)) }) ∧
      (∀ c va, s.livePlace L f sel t = some (.fault c va) → look = { fault := some (c, va) }) ∧
      (∀ va z, s.livePlace L f sel t = some (.park va z) → look = { park := some (va, z) }) ∧
      (∀ leaf pa va, s.livePlace L f sel t = some (.mem leaf pa va) →
        look = if sick = true ∨ s.datumPoison s.me.home s.latch.hurt n (some L) (.mem leaf pa va) = true then { fault := some (0x0D, va) }
          else { words := t.words col (leNat (s.view s.me.home leaf pa (vaOf va) n)) })) ∧
  (∀ (y : Tile) (col : Bool) (block pix smp n k : Nat),
    let old := y.past.filter fun e => e.1 = 64 * block + pix
    y.shows col block pix smp n none = memRead y.shown (copyAt col block pix smp) n ∧
    (∀ e, old[k]? = some e → y.shows col block pix smp n (some k) = ((if col then e.2.2 else e.2.1).drop (8 * smp)).take n) ∧
    (old[k]? = none → y.shows col block pix smp n (some k) = y.shows col block pix smp n none)) ∧
  (∀ (s : State) (x : LiveRead) (y : LiveLane), x.got.lookup y.lane = none →
    let f : Frag := { h := y.handle, x := y.x, y := y.y, psn := 0 }
    let L : Lane := Fin.ofNat 96 y.lane
    let waits := y.sick = false ∧ s.liveTarget f y.sel ≠ none ∧ ∃ q ∈ s.blockSlots s.myLaunch f, q.order < x.before
    let u := if y.sick then s else s.liveFill (fun _ => f) (fun _ => y.sel) L
    (waits → State.askLane (s, x) y = (s, x)) ∧
    (¬waits → State.askLane (s, x) y = (u, { x with got := x.got ++ [(y.lane, u.liveLook f y.sel L y.sick none)] }))) ∧
  (∀ (s : State) (g : Bool) (b : VSrc),
    let m := s.g.lanes g
    let good := ∀ L : Lane, m.getLsbD L.val = true → (s.g.vb b L).toNat < 256 ∧ (s.g.vb b L).toNat < s.myLaunch.targets.length
    (good → s.myWait = .granted → Effect (.tflush g b) s m s) ∧
    (good → m ≠ 0 → s.myWait = .none → Clean (.tflush g b) m s → Waits (.tflush g b) s fun u =>
      u.endTransaction.waitFor (.flush (((lanesOf m).map fun L => (s.g.vb b L).setWidth 8).eraseDups) (s.orderNow 0))) ∧
    (∀ hs n, good → m ≠ 0 → s.myWait = .flush hs n → Clean (.tflush g b) m s → Waits (.tflush g b) s fun u => u.waitFor (.flush hs n))) ∧
  ∀ (s : State) (gid : Nat) (k : Fin 2) (g : Machine.Group) (w : Workgroup) (la : Launch) (l : Entry) (hs : List Byte) (n : Nat),
    s.group? gid = some g → (g.slot k).leaf = some l → l.wait = .flush hs n → s.wg? g.wid = some w → s.launch? w.lid = some la →
    let drop := fun (t : State) (h : Byte) => match la.target? h with | some x => t.dropRange (s.who la.ctx g.core gid) x.base x.bytes | none => t
    exec (.tflushComplete gid k) s = .next (if ∃ q ∈ s.pixels, q.lid = w.lid ∧ q.handle ∈ hs ∧ q.order < n then s
      else (hs.foldl drop (s.flushTiles la fun x => hs.contains x.handle)).endWait gid k (.flush hs n))

/-- Fragments, pixel loads and stores, live reads. That a live read without a working copy reads at the home and looks at no
tag, that its faults carry the element's address, and which prefix of its retired slots each lane of `tsamp.now` sees, are the
model's choices (log 20). -/
def Obligations.PixelWords : Prop :=
  Clause.FragmentWords ∧ Clause.PixelWords

/-- R380, R381, R389 to R394: the texture words, where every active lane reads what it needs, and where a texel lies. How an
ASTC block decodes is taken from outside the spec (log 10). -/
def Obligations.TextureWords : Prop :=
  (∀ (s : State) (g : Bool) (d a b : VReg),
    let m := s.g.lanes g
    let word := fun (i : Instr) (n : Nat) (lane : List Nat → Lane → TexLane) =>
      let u := (lanesOf m).foldl (fun t L => (lane [] L).reads.foldl (fun t r => State.fillFor r.1 3 .normal (fun _ => r.2) t L) t) s
      let out := lane u.latch.hurt
      let saw := fun (t : State) (L : Lane) => (out L).reads.foldl (fun t r =>
        (if r.1 = 32 then (List.range 4).map (fun k => r.2.plus (8 * k)) else [r.2]).foldl (fun t r => t.sawPast (s.pastFrom r) r) t) t
      (∀ L : Lane, m.getLsbD L.val = true → (out L).stop = .go) → Effect i s m ((lanesOf m).foldl saw (u.setVlist d m (fun L => (out L).out) n))
    let with_ := fun (work : Tex → Word → Word → Word → TexWork) (hurt : List Nat) (L : Lane) =>
      s.texLane b (fun x L => work x (s.g.readV a L) (s.g.readV (vreg a 1) L) (s.g.readV (vreg a 2) L)) hurt false L
    word (.texSample g d a b) 4 (with_ sampleWork) ∧ word (.texFetch g d a b) 4 (with_ fetchWork) ∧
    word (.texGather4 g d a b) 4 (with_ gatherWork) ∧
    word (.texLod g d a b) 1 fun hurt L => s.withTex b hurt (lodSick s.g a L) L fun t => { stop := .go, out := [lodOf s.g a t L] }) ∧
  (∀ (s : State) (b : VReg) (hurt : List Nat) (sick : Bool) (L : Lane) (f : Tex → TexLane),
    let p := s.g.readV64 b L
    let r := s.texRes L p 32
    let ws := r.eights.flatMap fun r => s.texWords r 8
    let x := s.withTex b hurt sick L f
    s.latch.snap = none →
      (s.stopOf hurt L 32 r ≠ .go → x.stop = s.stopOf hurt L 32 r) ∧
      (s.stopOf hurt L 32 r = .go → (texOk ws = false → x.stop = .fault 0x04 p) ∧ (texOk ws = true → sick = true → x.stop = .fault 0x0D r.va) ∧
        (texOk ws = true → sick = false → x.stop = (f (texOf ws)).stop ∧ x.out = (f (texOf ws)).out ∧ x.reads = (32, r) :: (f (texOf ws)).reads))) ∧
  (∀ (t : Tex) (x : Texel), t.fmt = 3 ∨ t.fmt = 4 →
    let block := fun w0 w1 w2 w3 : Word => t.plain x [w0, w1, w2, w3]
    (∀ w0 w1 w2 w3, Astc.texel t.side (w3 ++ w2 ++ w1 ++ w0) (x.i % t.side) (x.j % t.side) = none →
      block w0 w1 w2 w3 = [0x3F800000, 0, 0x3F800000, 0x3F800000]) ∧
    (∀ c0 c1, block 0xFFFFFDFC 0xFFFFFFFF c0 c1 =
      [unorm (wbits c0 15 8), unorm (wbits c0 31 24), unorm (wbits c1 15 8), unorm (wbits c1 31 24)]) ∧
    ∀ w1 c0 c1, block 0xFFFFFFFC w1 c0 c1 = [0x3F800000, 0, 0x3F800000, 0x3F800000]) ∧
  ∀ (t : Tex) (i j l : Word),
    let inTex := l.toNat < t.levels ∧ 0 ≤ i.toInt ∧ i.toInt < max 1 (t.w / 2 ^ l.toNat : Nat) ∧ 0 ≤ j.toInt ∧ j.toInt < max 1 (t.h / 2 ^ l.toNat : Nat)
    (¬inTex → ∀ read, (fetchWork t i j l).out t read = [0, 0, 0, 0]) ∧
    (inTex → ∀ read, (fetchWork t i j l).out t read = t.plain { l := l.toNat, i := i.toNat, j := j.toNat } (read { l := l.toNat, i := i.toNat, j := j.toNat })) ∧
    (t.fmt = 2 → ∀ x w, t.plain x [w] = [if isNan32 w = true then 0x7FC00000 else w, 0, 0, 0x3F800000]) ∧
    (∀ x : Texel, t.fmt = 0 ∨ t.fmt = 2 → x.l = 0 → 0 < t.w → t.base + (x.j * t.w + x.i) * 4 < 2 ^ 52 → t.tag < 16 →
      t.pointers x = [BitVec.ofNat 64 (t.base + (x.j * t.w + x.i) * 4 + 2 ^ 56 * t.tag)])

/-- R359, R365, R366, R372, R374 to R378: the pixel method unit and the rasteriser node. How many bytes of the parameter buffer
a triangle takes is the model's free choice (log 20). -/
def Obligations.RasterSteps : Prop :=
  ∀ (s : State) (lid : Nat) (h : Byte) (k : Nat) (b : Fin 16) (l : Launch), s.launch? lid = some l →
    let free := ∀ g ∈ s.allGroups, ∀ m, g.gid ≠ 0 → g.method = some m → ¬(m.lid = lid ∧ m.handle = h ∧ m.tile = k ∧ m.block = b.val)
    (∀ t, l.target? h = some t → s.methodReady lid h t k b.val ≠ [] → free → (s.tile? lid h k).isSome = true → s.moving l.ctx = true →
      ∃ (u : State) (g : Machine.Group), exec (.methodGroupForm lid h k b) s = .next u ∧ u.others = s.others ++ [g] ∧
        (∀ L : Lane, g.amask.getLsbD L.val = (s.methodReady lid h t k b.val).any fun q => q.lane = L.val) ∧ g.exited = ~~~g.amask ∧
        g.pc = t.entry ∧ (∃ m, g.method = some m ∧ m.lid = lid ∧ m.handle = h ∧ m.tile = k ∧ m.block = b.val) ∧
        (∀ q L, (s.methodReady lid h t k b.val).find? (fun r => r.lane = L) = some q → L < 96 →
          g.readV 0 (Fin.ofNat 96 L) = q.depth ∧ ∀ j : Fin 4, g.readV (vreg 1 j.val) (Fin.ofNat 96 L) = q.colour[j]) ∧
        { u with others := s.others, pixels := s.pixels } = { s with host := { s.host with idle := 0 } }) ∧
    (∀ n, l.rast? = some n → s.moving l.ctx = true → (l.tris.length + 1) * Config.triBytes.val ≤ (l.stage n).desc[16].toNat * 4096 →
      let st := l.stage n
      let takes := fun (t : State) (r : List Word) => exec (.rasterRecord lid) s = .next (t.wake.takeTri l r)
      ¬(st.queue = [] ∧ st.ringCount = 0) →
        (∃ j r, st.queue[j]? = some r ∧ takes (s.updLaunch lid (Launch.updStage n fun st =>
            { st with queue := st.queue.eraseIdx j, quads := st.quads.erase r })) r) ∨
        (st.ringCount ≠ 0 ∧
          let u := s.devSee (s.who l.ctx 0 0) (ringAt st st.ringHead) (4 * stageWidth st)
          let r := (List.range (stageWidth st)).map fun i => u.devWord (s.who l.ctx 0 0) (ringAt st st.ringHead + 4 * i)
          takes (u.updLaunch lid (Launch.updStage n fun st =>
            { st with ringHead := (st.ringHead + 1) % stageRing st, ringCount := st.ringCount - 1, quads := st.quads.erase r })) r)) ∧
    (∀ n t, l.rast? = some n → l.target? h = some t → s.moving l.ctx = true → s.binned l = true →
      (s.tileTurn l k = true → l.tileDone h t k = false → exec (.rasterTile lid h k) s = .next (s.rasterQuad l h t k (l.doneQuads h k) n)) ∧
      (l.tileDone h t k = true → (∀ q ∈ s.pixels, ¬(q.lid = lid ∧ q.handle = h ∧ t.tileOf q.x q.y = k)) → (h, k) ∉ l.finished →
        exec (.tileCommit lid h k) s = .next ((s.flushTiles l fun x => x.handle = h && x.tile = k).updLaunch lid fun x =>
          { x with finished := x.finished ++ [(h, k)] }))) ∧
    (s.postsOver l = true → exec (.launchSlotsEnd lid) s =
      .next ((({ s with pixels := s.pixels.filter fun q => !(q.lid = lid && q.state = SlotState.opened) }.settlePixels).updLaunch lid fun x => { x with ended := true }).wake)) ∧
    (∀ (t : Tri) (px py : Int), let e := fun (i j : Nat) => edge (t.vertex i) (t.vertex j) px py
      let top := fun i j : Nat => topLeft (t.vertex i) (t.vertex j) = true
      (t.covers px py = true ↔ (0 < e 0 1 ∨ e 0 1 = 0 ∧ top 0 1) ∧ (0 < e 1 2 ∨ e 1 2 = 0 ∧ top 1 2) ∧ (0 < e 2 0 ∨ e 2 0 = 0 ∧ top 2 0)))


/-! ### The issue logic's and the device's own steps -/
/-- R27, R29, R68, R82, R110, R117, R186, R272: what the issue logic does of itself. That `sleep` may end at any time (log 8),
and that a group may be boosted at any time (log 5), are the model's choices. -/
def Obligations.IssueSteps : Prop :=
  (∀ (g : Machine.Group) (w l : Entry) (now : Nat) (k : Fin 2), oldest g.waiting = some w →
    (k = 1 ↔ (g.slot 1).since < (g.slot 0).since) → (g.slot k).leaf = some l →
    let h := g.force now
    (w.age < 512 → h = g) ∧
    (512 ≤ w.age → (h.slot k).leaf = some { w with age := 0 } ∧ h.slot (1 - k) = g.slot (1 - k) ∧ h.sel = g.sel ∧
      h.entries = g.entries.filter (fun e => e.id ≠ w.id) ++ [{ l with age := 0 }] ∧ h.regs = g.regs ∧ h.dead = g.dead ∧ h.exited = g.exited)) ∧
  (∀ (s : State) (w : Workgroup) (i : Nat), (∃ n, s.liveIndex w n) →
    let k := nextAfter ((s.rotationOf w).map (·.gidx)) i
    s.liveIndex w k ∧ (∀ n, s.liveIndex w n → i < n → i < k ∧ k ≤ n) ∧ (k ≤ i → ∀ n, s.liveIndex w n → k ≤ n) ∧
    (s.liveIndex w w.rotation → s.turnGidx w = w.rotation) ∧
    (¬s.liveIndex w w.rotation → s.turnGidx w = nextAfter ((s.rotationOf w).map (·.gidx)) w.rotation)) ∧
  ∀ (s : State) (gid : Nat) (k : Fin 2) (core : CoreId) (simd : Fin 4),
    (∀ g : Machine.Group, s.group? gid = some g → exec (.ageForce gid) s =
      .next (if g.status = .ready ∧ stageDet (s.stageOf g) = false then s.updGroup gid fun g => g.force s.fresh else s)) ∧
    (stageDet s.myStage = true → exec .turnPass s =
      .next { s with g := { s.g with turn := 1 - s.g.turn }, w := { s.w with rotation := nextAfter ((s.rotationOf s.w).map (·.gidx)) s.g.gidx } }) ∧
    exec (.sleepExpiry gid k) s = .next (s.updGroup gid fun g => g.setSlot k { g.slot k with leaf := (g.slot k).leaf.map fun l =>
      { l with wait := if l.wait = .sleep then .granted else l.wait, wait2 := if l.wait2 = .sleep then .granted else l.wait2 } }).wake ∧
    exec (.yieldPassEnd gid) s = .next (s.updGroup gid fun g => { g with passed := false }) ∧
    exec (.issueBoost gid) s = .next (s.updGroup gid fun g => { g with boost := true }) ∧
    (let waits := fun (g : Machine.Group) (j : Fin 2) => ∃ l, (g.slot j).leaf = some l ∧ (l.wait = .grow ∨ l.wait2 = .grow)
     let holds := ∃ g ∈ s.onUnit core simd, g.regs.extb = true ∧ ∃ j, waits g j;
      (holds → ∃ g ∈ s.onUnit core simd, g.regs.extb = true ∧ ∃ j, waits g j ∧ exec (.vgrowGrant core simd) s = .next (s.endWait g.gid j .grow)) ∧
      (¬holds → 0 < s.freeBlocks core simd → (∃ g ∈ s.onUnit core simd, Group.growing g = true) →
        ∃ (o : Machine.Group) (j : Fin 2), o ∈ s.onUnit core simd ∧ Group.growing o = true ∧ waits o j ∧
          (∀ g ∈ s.onUnit core simd, Group.growing g = true → o.admitted ≤ g.admitted) ∧
          exec (.vgrowGrant core simd) s = .next ((s.updGroup o.gid fun g => { g with regs := g.regs.grow }).endWait o.gid j .grow))) ∧
    ∀ g : Machine.Group, s.group? gid = some g →
      (∀ l, (g.slot k).leaf = some l → l.wait = .shrink ∨ l.wait2 = .shrink →
        (k = 1 → ∀ x, (g.slot 0).leaf = some x → x.wait ≠ .shrink ∧ x.wait2 ≠ .shrink) → (g.select k).mateBusy = false → g.parked = [] →
        exec (.vshrinkRelease gid) s = .next ((s.updGroup gid fun g => { g with regs := { g.regs with extb := false } }).endWait gid k .shrink)) ∧
      (g.status = .parked →
        ((∀ p ∈ g.parked, ∀ r ∈ p.parts, r.state ≠ 0) →
          exec (.pageFaultReplay gid) s = .next ((s.spillIn gid).updGroup gid fun g => { g with status := .ready })) ∧
        (∀ p ∈ g.parked, ∀ r ∈ p.parts, r.state = 0 → exec (.pageFaultReplay gid) s = .next s))

/-- R21, R22, R39, R125, R263, R264, R269, R271, R310: launches start, are admitted, and complete; workgroups retire and
restart. Which place and how many records the allocator takes is the model's free choice (log 20). That a new group's drain
status is INSUF (log 7), and that a restarted one has no dead lane and no unread record (log 6), are its choices. -/
def Obligations.LaunchSteps : Prop :=
  (∀ (q : Queue) (n : Nat) (st : Byte) (dead : Bool), q.completed ≤ n → n ∉ q.done → (∀ k ∈ q.done, q.completed < k) → q.done.Nodup →
    let r := q.finish n st dead
    (∀ k, q.completed ≤ k → k < r.completed → k = n ∨ k ∈ q.done) ∧ r.completed ≠ n ∧ r.completed ∉ q.done ∧ q.completed ≤ r.completed ∧
    (∀ k, k ∈ r.done ↔ (k = n ∨ k ∈ q.done) ∧ r.completed < k) ∧ r.status = st ∧ r.started = q.started) ∧
  (∀ (gid wid gidx : Nat) (core : CoreId) (at_ : Fin 4 × Fin 16) (st : Stage) (area : Nat) (on : Mask) (now : Nat) (recs : List (List Word)), on ≠ 0 →
    let g := newGroup gid wid gidx core at_ st area on now recs
    (∀ k : Fin 60, g.regs.s[k] = if k.val < wbits st.desc[1] 19 16 then st.desc[24 + k.val]?.getD 0 else 0) ∧
    (∀ (r : VReg) (L : Lane), g.regs.v[r][L] = (((recs[L.val]?).getD [])[r.val]?).getD 0) ∧ g.regs.trapcfg = st.desc[8] ∧
    { g.regs with s := Vector.replicate 60 0, v := Vector.replicate 64 (Vector.replicate 96 0), trapcfg := 0 } = { trapcfg := 0 } ∧
    g.me.leaf = some { emask := on, amask := on, pc := st.entry } ∧ g.mate.leaf = none ∧ g.entries = [] ∧ g.exited = ~~~on ∧ g.dead = 0 ∧
    g.status = .ready ∧ g.records = [] ∧ g.gidx = gidx ∧ g.core = core) ∧
  ∀ (s : State) (k : Nat),
    (∀ x : Queue, s.queue? k = some x → s.consumes x = true →
      let at_ := x.ring + 64 * (x.started % 2 ^ x.log2n)
      let a := s.arrayReads at_ 64
      let cmd : Vector Word 16 := Vector.ofFn fun j => a.plainWord (at_ + 4 * j.val)
      let r := (cmdWaits cmd).foldl (fun r w => r.devSee (r.who x.ctx 0 0) (sigVa (r.ctxDesc x.ctx) w.1) 8) a
      let d := r.ctxDesc x.ctx
      let t := r.updQueue k fun x => { x with started := x.started + 1 }
      let seen := if cmdWaits cmd = [] then t else t.dropEverywhere (r.who x.ctx 0 0)
      let good : Bool := cmd[9] = x.firstSeq + BitVec.ofNat 32 x.started
      let read := if cmdBad cmd || !good then seen else seen.draftSee (seen.who x.ctx 0 0) cmd
      let l : Launch := { lid := r.fresh, queue := k, num := x.started, ctx := x.ctx, cmd := cmd }
      let dr := read.draft x.ctx cmd good
      let m := { l with hdr := dr.hdr, stages := dr.stages, status := dr.status, targets := dr.targets }
      let met := ∀ w ∈ cmdWaits cmd, w.2 ≤ leNat (r.devRead (r.who x.ctx 0 0) (sigVa d w.1) 8)
      let known := ∀ i ∈ cmdSignals cmd, i < sigCount d
      (known → ¬met → exec (.launchStart k) s = .next s) ∧
      (¬known → exec (.launchStart k) s = .next (t.endLaunch { l with status := 1 } false)) ∧
      (known → met → dr.status ≠ 0 → exec (.launchStart k) s = .next (read.endLaunch m true)) ∧
      (known → met → dr.status = 0 → exec (.launchStart k) s = .next ({ read with launches := read.launches ++ [m] }.writeRecordOf k).wake)) ∧
    (∀ l : Launch, s.launch? k = some l →
      (s.launchOver l = true → exec (.launchComplete k) s = .next (((s.flushTiles l fun _ => true).writeBackAll fun x =>
        x.part = (s.who l.ctx 0 0).part && x.asid = (s.who l.ctx 0 0).asid).endLaunch l true)) ∧
      (∀ (c : CoreId), s.admits l.ctx = true → l.eligible 0 = true → s.preferred l 0 c = true → s.fits l 0 c (s.sharesNow l 0) = true →
        exec (.workgroupAdmit k 0 c) s = .next (s.admitRange l c)) ∧
      (∀ c, stageGang (l.stage 0) = 1 → ∃ w : Workgroup, (s.admitRange l c).otherWgs = s.otherWgs ++ [w] ∧ w.lid = l.lid ∧ w.core = c ∧ w.stage = 0 ∧
        w.linear = BitVec.ofNat 32 l.next ∧ w.x = BitVec.ofNat 32 (l.next % l.rangeX) ∧ w.y = BitVec.ofNat 32 (l.next / l.rangeX % l.rangeY) ∧
        w.z = BitVec.ofNat 32 (l.next / (l.rangeX * l.rangeY)) ∧ w.ngroups = stageGroups (l.stage 0) ∧ w.cm = [] ∧ w.rotation = 0) ∧
      (∀ (j : Fin 16) (c : CoreId), j ≠ 0 →
        let st := l.stage j.val
        let shares := s.sharesNow l j.val
        (shares.length = stageGang st ∧ (shares.map List.sum).sum ≤ st.held ∧ (∀ m ∈ shares, m.length ≤ stageGroups st ∧ ∀ n ∈ m, 1 ≤ n ∧ n ≤ 96) ∧
          (stageGang st ≤ st.held → ∀ m ∈ shares, m ≠ [])) ∧
        (s.admits l.ctx = true → l.eligible j.val = true → s.preferred l j.val c = true → s.fits l j.val c shares = true →
          exec (.workgroupAdmit k j c) s = .next (s.admitRecords l j.val c shares)))) ∧
    (∀ w : Workgroup, s.wg? k = some w → s.wgBusy k = false → ∃ u, exec (.workgroupRetire k) s = .next u ∧ u.wg? k = none ∧
      (∀ g ∈ u.allGroups, g.gid ≠ 0 → g.wid ≠ k) ∧
      u.launches = s.launches.map fun l => if l.lid = w.lid then { l with deadgroup := l.deadgroup || w.deadgroup } else l) ∧
    ∀ (c : Ctx) (d : Discarded) (core : CoreId), (s.ctxs.find? fun c => c.discarded.any fun d => d.wg.wid = k) = some c →
      (c.discarded.filter fun d => d.wg.wid = k) = [d] → d.wg.gang ≤ 1 → c.phase = .run →
      s.ownsCluster (ctxPart (s.ctxDesc c.ctx)) (clusterOf core) = true → s.gangPlace d.wg core = true →
      s.cmUsed core + d.wg.cmBytes ≤ Config.coreMemBytes →
      let st := ((s.launch? d.wg.lid).getD {}).stage d.wg.stage.val
      s.shareOk d.wg.lid d.wg.stage.val st core = true →
      (∀ places, s.placesOn (stageDet st) (stageExt st) d.groups.length core = some places →
        ∃ w : Workgroup, { w with cm := [] } = { d.wg with core := core, rotation := 0, cm := [] } ∧
          let who := s.who c.ctx core 0
          let r := d.groups.foldl (fun r g => r.devSee who (g.area + 48 * g.spill) 84) s
          exec (.regionRestart k core) s = .next (((({ r with
            otherWgs := r.otherWgs ++ [w]
            others := r.others ++ d.groups.zipIdx.map (restartGroup r who d core places) }.updCore core fun x =>
              if x.claim = some k then { x with orphan := false } else x).dropCopiesOf who 2).updCtx c.ctx fun y =>
                { y with discarded := y.discarded.filter fun z => z.wg.wid ≠ k }).endIdle.wake)) ∧
      (s.placesOn (stageDet st) (stageExt st) d.groups.length core = none → exec (.regionRestart k core) s = .next s) ∧
      ∀ (who : Who) (pl : List (Fin 4 × Fin 16)) (e : LostGroup × Nat), e.1.region ≠ .none →
        let g := restartGroup s who d core pl e
        let seed := s.readSeed who e.1
        let on := seed.mask &&& ~~~e.1.gone
        g.me.leaf = some { emask := on, amask := on, pc := seed.pc } ∧ g.regs.fmode = seed.fmode ∧
        (∀ i : Fin 16, g.readS (Fin.ofNat 64 i.val) = seed.s[i]) ∧ g.region = e.1.region ∧ g.status = .ready ∧ g.exited = e.1.gone ∧ g.records = []

/-- R273 to R278, R397: the pre-emption ladder, the save, the restore, and the death of a context. -/
def Clause.PreemptSteps : Prop :=
  ∀ (s : State) (c : Nat) (x : Ctx), s.ctx? c = some x →
    let args := addrArgs c 0
    let zeroGrace := x.desc[11].getLsbD 0 = true ∧ wbits x.desc[7] 15 0 = 0
    let phase := fun (p : Phase) (t : State) => t.updCtx c fun y => { y with phase := p }
    (x.phase = .run → ¬zeroGrace → Commands (.preempt c) s 4 args 0 (phase .soft)) ∧
    (x.phase = .run → zeroGrace → Commands (.preempt c) s 4 args 0 fun t => (phase .soft t).toHard c) ∧
    (x.phase ≠ .run → Commands (.preempt c) s 4 args 0 id) ∧
    (x.phase = .soft → Commands (.cancel c) s 5 args 0 fun t => (phase .run (t.mapGroups ((t.ctxGroups c).map (·.gid)) fun g =>
      if g.status = .stopped then { g with status := .ready } else g)).wake) ∧
    (x.phase ≠ .soft → Commands (.cancel c) s 5 args 0 id) ∧
    (x.phase = .soft → exec (.graceExpiry c) s = .next (s.toHard c)) ∧
    (x.phase = .hard ∨ x.phase = .saving → exec (.killExpiry c) s = .next (s.killContext c)) ∧
    (x.phase = .hard → s.quiet c = true → exec (.contextSave c) s = .next (s.save c)) ∧
    (x.phase = .saving → exec (.saveComplete c) s =
      .next ((phase .done (if x.saved then s.putSave c 1 [2] else s)).ctxEvent 4 c)) ∧
    (let st := wbits (s.saveWord c 1) 1 0;
      (x.phase = .done → st = 0 ∨ st = 2 → Starts (.restore c) s 6 args id) ∧
      (x.phase ≠ .done ∨ st = 1 ∨ st = 3 → Commands (.restore c) s 6 args 2 id) ∧
      (s.host.busy = some (.restore c) → st ≠ 2 → exec .commandCompletion s = .next
        ((s.updCtx c fun y => { ctx := y.ctx, desc := y.desc, lostRecords := y.lostRecords, faults := y.faults }).wake).finishCommand) ∧
      (s.host.busy = some (.restore c) → st = 2 → ∀ t, s.restore c x = some t → exec .commandCompletion s = .next t.finishCommand)) ∧
    (let t := s.toHard c;
      (∀ y, t.ctx? c = some y → y.phase = .hard) ∧ (∀ w ∈ t.ctxWgs c, t.turnOpen w = false → ∀ g ∈ t.ctxGroups c, g.wid = w.wid → g.status ≠ .ready)) ∧
    (let t := s.killContext c;
      (∀ y, t.ctx? c = some y → y.phase = .killed ∧ y.discarded = [] ∧ y.saved = false) ∧ t.ctxLaunches c = [] ∧
      (∀ q ∈ t.queues, q.ctx = c → t.consumes q = false) ∧ (∀ q ∈ t.queues, ∃ r ∈ s.queues, r.q = q.q ∧ r.completed = q.completed ∧ r.started = q.started) ∧
      ∀ y, y ≠ c → t.ctx? y = s.ctx? y)

/-- R277: a group that waits with nothing resident reads back from its record in the save area, but for the reserved fields of
its control registers, which read zero (R7). -/
def Clause.SavedGroupsReadBack : Prop :=
  ∀ (g : Machine.Group) (w : Nat → Word), g.ordered = [] → g.records = [] → g.regs.extb = false →
    (∀ k (h : k < g.words.length), w k = g.words[k]) →
    let h := g.ofWords w
    (∀ k : Fin 60, h.regs.s[k] = g.regs.s[k]) ∧ (∀ (r : VReg) (L : Lane), r.val < 32 → h.regs.v[r][L] = g.regs.v[r][L]) ∧
    (∀ (r : Fin 7) (L : Lane), h.regs.p[r][L] = g.regs.p[r][L]) ∧ h.regs.fmode = g.regs.fmode &&& 0x1FFF ∧ h.regs.fstat = g.regs.fstat &&& 0xFF ∧ h.dead = g.dead ∧
    h.regs.trapcfg = g.regs.trapcfg ∧ h.regs.lc = g.regs.lc ∧ h.regs.lactive = g.regs.lactive ∧ (∀ c : Fin 2, h.regs.xactl[c] = g.regs.xactl[c] &&& 0x3FFFFFFF) ∧ h.regs.retired = g.regs.retired

/-- The pre-emption ladder, save and restore. What the save area has no place for stays in the context's state (log 21). -/
def Obligations.PreemptionSteps : Prop :=
  Clause.PreemptSteps ∧ Clause.SavedGroupsReadBack


/-! ### The host -/
/-- R198, R278, R308 to R310, R313: host commands, one at a time, each with its result; while one is BUSY the others are
ignored. That CTXFREE is allowed in DONE and refused with discarded workgroups outside it (log 20), that RESOLVE and FATAL stay
BUSY until their answer is used, and that a function's reset is taken during a RESTORE (log 21), are the model's readings and
choices. -/
def Obligations.HostCommands : Prop :=
  (∀ (s : State) (ctx a : Nat) (q : Nat) (p : Fin 16) (asid : BitVec 12) (va : Nat) (place : Word), s.host.busy ≠ none →
    (∀ i ∈ ([.ctxbind ctx a, .ctxfree ctx, .qbind q a, .preempt ctx, .cancel ctx, .restore ctx, .invpage p asid va, .invas p asid, .invpart p,
      .resolve place, .fatal place, .resume ctx place, .hostEnd ctx place, .hostup] : List Instr), exec i s = .next s.endIdle) ∧
    ((∀ c, s.host.busy = some (.restore c) → ctxPart (s.ctxDesc c) ≠ p) → exec (.flr p) s = .next s.endIdle) ∧
    ∀ c, s.host.busy = some (.restore c) → ctxPart (s.ctxDesc c) = p →
      let t := { s.resetContext c with host := { s.host with busy := none } }
      exec (.flr p) s = exec (.flr p) t ∧ Starts (.flr p) t 15 (addrArgs p.val 0) id) ∧
  (∀ (s : State) (ctx a : Nat),
    let args := addrArgs ctx a
    let d : Vector Word 16 := Vector.ofFn fun k => ((s.asked args).arrayReads a 64).hostWord a k.val
    let good := ctx ≤ 65535 ∧ a % 64 = 0 ∧ a < 2 ^ 39 ∧ a % 2 ^ 31 < Config.carveOut
    args = #v[BitVec.ofNat 32 ctx, BitVec.ofNat 32 a, BitVec.ofNat 32 (a / 2 ^ 32)] ∧
    (¬good → Commands (.ctxbind ctx a) s 1 args 1 id) ∧
    (good → descBad d = true ∨ s.enabled (ctxPart d) = false → Commands (.ctxbind ctx a) s 1 args 2 fun t => t.arrayReads a 64) ∧
    (good → descBad d = false → s.enabled (ctxPart d) = true → Commands (.ctxbind ctx a) s 1 args 0 fun t => (t.arrayReads a 64).bindCtx ctx d) ∧
    ((s.bindCtx ctx d).ctx? ctx).map (·.desc) = some d ∧
    (s.ctx? ctx = none → Commands (.ctxfree ctx) s 2 (addrArgs ctx 0) 1 id) ∧
    ∀ c, s.ctx? ctx = some c →
      (s.ctxLaunches ctx ≠ [] ∨ c.phase = .saving ∨ (c.phase ≠ .done ∧ c.discarded ≠ []) → Commands (.ctxfree ctx) s 2 (addrArgs ctx 0) 2 id) ∧
      (s.ctxLaunches ctx = [] → c.phase ≠ .saving → c.phase = .done ∨ c.discarded = [] → Commands (.ctxfree ctx) s 2 (addrArgs ctx 0) 0 fun t => { t with
        ctxs := t.ctxs.filter fun x => x.ctx ≠ ctx, queues := t.queues.map fun q : Queue => if q.ctx = ctx then { q with closed := true } else q })) ∧
  (∀ (s : State) (q a : Nat),
    let good := q ≤ 4095 ∧ a % 32 = 0 ∧ a < 2 ^ 39 ∧ a % 2 ^ 31 < Config.carveOut
    let args := addrArgs q a
    let bad := queueBad ((s.asked args).arrayReads a 32) a
    (¬good → Commands (.qbind q a) s 3 args 1 id) ∧ (good → bad = true → Commands (.qbind q a) s 3 args 2 fun t => t.arrayReads a 32) ∧
    (good → bad = false → Commands (.qbind q a) s 3 args 0 fun t => (t.arrayReads a 32).bindQueue q a) ∧
    ∃ x : Queue, (s.bindQueue q a).queue? q = some x ∧ x.ring = (s.hostWord a 0).toNat + 2 ^ 32 * (s.hostWord a 1).toNat ∧
      x.log2n = (s.hostWord a 2).toNat % 32 ∧ x.ctx = (s.hostWord a 2).toNat / 2 ^ 16 ∧ x.firstSeq = s.hostWord a 5 ∧ x.count = 0 ∧ x.started = 0 ∧
      x.completed = 0 ∧ x.closed = false) ∧
  ∀ (s : State) (p : Fin 16) (asid : BitVec 12) (va : Nat) (ctx : Nat) (place : Word),
    let who := addrArgs (p.val + asid.toNat * 65536)
    (va < 2 ^ 52 → Starts (.invpage p asid va) s 7 (who va) id) ∧ (2 ^ 52 ≤ va → Commands (.invpage p asid va) s 7 (who va) 1 id) ∧
    Starts (.invas p asid) s 8 (who 0) id ∧ Starts (.invpart p) s 9 (addrArgs p.val 0) id ∧ Starts (.flr p) s 15 (addrArgs p.val 0) id ∧
    ((s.answer place false).1 = 1 → Commands (.resolve place) s 10 #v[place, 0, 0] 1 id) ∧
    ((s.answer place true).1 = 1 → Commands (.fatal place) s 11 #v[place, 0, 0] 1 id) ∧
    ((s.answer place false).1 = 0 → Starts (.resolve place) s 10 #v[place, 0, 0] fun t => (t.answer place false).2) ∧
    ((s.answer place true).1 = 0 → Starts (.fatal place) s 11 #v[place, 0, 0] fun t => (t.answer place true).2) ∧
    (∀ i : Instr, s.host.busy = some i →
      (i = .invpage p asid va → exec .commandCompletion s = .next (s.invalidate (fun l => l.part = p && l.asid = asid && l.sector / 512 = va / 65536)
        fun e => e.part = p && e.asid = asid && e.page = va / 65536).finishCommand) ∧
      (i = .invas p asid → exec .commandCompletion s = .next (s.invalidate (fun l => l.part = p && l.asid = asid) fun e => e.part = p && e.asid = asid).finishCommand) ∧
      (i = .invpart p → exec .commandCompletion s = .next (s.invalidate (fun l => l.part = p) fun e => e.part = p).finishCommand) ∧
      (i = .flr p → exec .commandCompletion s = .next (s.resetFunction p).finishCommand) ∧
      (i = .resolve place ∨ i = .fatal place → exec .commandCompletion s = .next (if s.answering place = true then s else s.finishCommand))) ∧
    (s.host.busy = none → exec .commandCompletion s = .next s) ∧
    (∀ (line : Line → Bool) (entry : Tlb → Bool), let t := s.invalidate line entry
      (∀ l ∈ t.l2, line l = false) ∧ (∀ e ∈ t.l1, line e.2 = false) ∧ (∀ e ∈ t.rlc, line e.2 = false) ∧ (∀ e ∈ t.tlb, entry e = false)) ∧
    s.finishCommand.host.busy = none ∧ s.finishCommand.host.op = s.host.op &&& 0x7FFFFFFF ∧
    Commands .hostup s 14 #v[0, 0, 0] 0 (fun t => { t with host := { t.host with linkDown := false } }.wake) ∧
    exec .hostLinkDown s = .next { s with host := { s.host with linkDown := true } } ∧
    (let args : Vector Word 3 := #v[BitVec.ofNat 32 ctx, place, 0];
      (s.atPlace ctx place = none → Commands (.resume ctx place) s 12 args 1 id ∧ Commands (.hostEnd ctx place) s 13 args 1 id) ∧
      ∀ g : Machine.Group, s.atPlace ctx place = some g →
        (g.status ≠ .halted → Commands (.resume ctx place) s 12 args 2 id ∧ Commands (.hostEnd ctx place) s 13 args 2 id) ∧
        (g.status = .halted → g.poisonHalt ≠ 0 → Commands (.resume ctx place) s 12 args 2 id) ∧
        (g.status = .halted → g.poisonHalt = 0 → Commands (.resume ctx place) s 12 args 0 fun t =>
          ((t.spillIn g.gid).updGroup g.gid fun x => { x with status := .ready }).wake) ∧
        (g.status = .halted → Commands (.hostEnd ctx place) s 13 args 0 fun t => t.endGroup g.gid g.sel))

/-- R290, R306, R307, R310 to R312: doorbells, the event ring, counters and other registers, and the host's memory accesses,
which are plain data. A base or a size of the event ring that is not legal, a doorbell's reading and an entry written in part
are the model's choices (log 20). -/
def Clause.HostRegisters : Prop :=
  (∀ (s : State) (q : Nat) (n : Word) (x : Queue), s.endIdle.queue? q = some x →
    let ahead := (n - BitVec.ofNat 32 x.started).toNat
    let bad := ahead < (x.count - BitVec.ofNat 32 x.started).toNat ∨ 2 ^ x.log2n < ahead
    (¬bad → exec (.doorbell q n) s = .next (s.endIdle.updQueue q fun x => { x with count := n }).wake) ∧
    (bad → exec (.doorbell q n) s =
      .next (s.endIdle.postEvent { kind := 7, part := ctxPart (s.ctxDesc x.ctx), ctx := 0xFFFF, code := BitVec.ofNat 32 q }))) ∧
  (∀ (s : State) (q : Nat) (n : Word), s.endIdle.queue? q = none → exec (.doorbell q n) s = .next s.endIdle) ∧
  (∀ (s : State) (e : Event),
    let room := (s.host.evhead - s.host.evack).toNat < 2 ^ s.host.evlog2
    let t := s.postEvent e
    (room → e.kind ≠ 1 ∨ s.host.held = [] → ∃ bs : List Byte, bs.length = 32 ∧
      t = { s.plainWrite (s.host.evbase + 32 * (s.host.evhead.toNat % 2 ^ s.host.evlog2)) bs with
              host := { s.host with evseq := s.host.evseq + 1, evhead := s.host.evhead + 1 } }) ∧
    (¬room → e.kind = 1 → t = { s with host := { s.host with held := s.host.held ++ [e] } }) ∧
    (¬room → e.kind ≠ 1 → t = { s with host := { s.host with evlost := BitVec.ofNat 32 (min (s.host.evlost.toNat + 1) 0xFFFFFFFF) } })) ∧
  (∀ (s : State) (x n : Word) (which : Fin 3) (off : Nat),
    let t := s.endIdle
    (∃ u, exec (.evack n) s = .next u ∧ u.host.evack = n ∧ (u.host.held = [] ∨ u.ringFull = true) ∧ ∃ k, u.host.held = s.host.held.drop k ∧
      u.host.evhead = s.host.evhead + BitVec.ofNat 32 k) ∧
    (let y : Word := match which with | 0 => x | 1 => x &&& 0x7F | 2 => x &&& 0x1F;
     let bad : Prop := match which with
      | 0 => x.toNat % 64 ≠ 0 | 1 => False | 2 => y.toNat < 8 ∨ 16 < y.toNat;
      (s.host.evhead ≠ s.host.evack ∨ bad → exec (.eventRingConfig which x) s = .next t) ∧
      (s.host.evhead = s.host.evack → ¬bad → ∃ h, exec (.eventRingConfig which x) s = .next { t with host := h } ∧ h.evhead = 0 ∧ h.evack = 0 ∧
        { h with evhead := s.host.evhead, evack := s.host.evack, evbase := s.host.evbase, evlog2 := s.host.evlog2 } = t.host ∧
        h.evbase = (if which = 0 then s.host.evbase / 2 ^ 32 * 2 ^ 32 + y.toNat else if which = 1 then s.host.evbase % 2 ^ 32 + y.toNat * 2 ^ 32
          else s.host.evbase) ∧ h.evlog2 = if which = 2 then y.toNat else s.host.evlog2)) ∧
    (x ≠ 0 → exec (.counterClear off x) s = .next t) ∧
    (off = 0x1024 → exec (.counterClear off 0) s = .next { t with host := { t.host with evlost := 0 } }) ∧
    (∀ (k : Fin 8) (j : Fin 7), off = 0x30000 + 32 * k.val + 4 * j.val → exec (.counterClear off 0) s =
      .next { t with dramStack := s.dramStack.set k { s.dramStack[k] with words := s.dramStack[k].words.set j 0 } }) ∧
    (∀ (k : Fin 2) (j : Fin 14), off = 0x31000 + 64 * k.val + 4 * j.val → exec (.counterClear off 0) s =
      .next { t with handoff := s.handoff.set k (s.handoff[k].set j 0) }) ∧
    (∀ (k : Fin 24) (j : Fin 4), off = 0x42000 + 16 * k.val + 4 * j.val → exec (.counterClear off 0) s =
      .next { t with ports := s.ports.set k { s.ports[k] with words := s.ports[k].words.set j 0 } }) ∧
    (∀ (p : Fin 16) (j : Fin 3), off = 0x20000 + 128 * p.val + 88 + 4 * j.val → exec (.counterClear off 0) s =
      .next (t.setPartWord p (Fin.ofNat 32 (22 + j.val)) 0)) ∧
    (off = 0 → exec (.registerWrite off x) s = .next { t with host := { t.host with devid := x &&& 0x7FF } }) ∧
    (off = 8 → exec (.registerWrite off x) s = .next { t with host := { t.host with ltr := x &&& 0xFFFF } }) ∧
    (∀ k : Fin 3, off = 0x1004 + 4 * k.val →
      (s.host.busy = none → exec (.registerWrite off x) s = .next (s.asked (s.host.arg.set k x))) ∧
      (s.host.busy ≠ none → exec (.registerWrite off x) s = .next t)) ∧
    (∀ k : Fin 3, off = 0x1010 + 4 * k.val → exec (.registerWrite off x) s = exec (.eventRingConfig k x) s) ∧
    (off = 0x1020 → exec (.registerWrite off x) s = exec (.evack x) s) ∧
    (∀ q, q < 4096 → off = 0x10000 + 8 * q → exec (.registerWrite off x) s = exec (.doorbell q x) s) ∧
    (∀ d : Nat, d < 1536 → off = 0x40000 + 4 * d → x &&& 0xFFFFFF ≠ 0 → exec (.registerWrite off x) s =
      .next { t with routes := (d, x &&& 0xFFFFFF) :: s.routes.filter fun e => e.1 ≠ d }) ∧
    (off = 4 ∨ off = 12 ∨ off = 0x1000 ∨ off = 0x101C → exec (.registerWrite off x) s = .next t) ∧
    (let out := fun n : Nat => ∃ k < n, 2 ^ 39 ≤ off + k ∨ Config.carveOut ≤ (off + k) % 2 ^ 31;
      (¬out 1 → exec (.hostMemoryAccess off none) s = .next (t.arrayRead off)) ∧ (out 1 → exec (.hostMemoryAccess off none) s = .next t) ∧
      (∀ bs : List Byte, (¬out bs.length → exec (.hostMemoryAccess off (some bs)) s = .next (t.plainPuts off bs).wake) ∧
        (out bs.length → exec (.hostMemoryAccess off (some bs)) s = .next t)) ∧
      ∀ n : Nat, let r := s.arrayReads off n
        (s.host.bootst.getLsbD 8 = false → s.hostRead off n = .silent ∧ s.hostWrite off n = .silent) ∧
        (s.host.bootst.getLsbD 8 = true → out n → s.hostRead off n = .error ∧ s.hostWrite off n = .error) ∧
        (s.host.bootst.getLsbD 8 = true → ¬out n → s.hostWrite off n = .done ∧
          s.hostRead off n = if ∃ k < n, r.poisoned (off + k) = true then .poison else .data (r.plainRead off n)))) ∧
  ∀ (s : State) (k : Fin 3) (p : Fin 16) (w : Fin 32) (i : Byte) (j : Fin 8) (die : Fin 2) (u : Fin 1024) (port : Fin 24) (d : Fin 1536),
    (∀ off, s.readBar off = if s.host.bootst.getLsbD 8 = true ∨ off = 4 then some (s.barWord off) else none) ∧
    s.barWord 0 = s.host.devid ∧ s.barWord 4 = s.host.bootst ∧ s.barWord 8 = s.host.ltr ∧ s.barWord 12 = s.host.idle ∧
    s.barWord 0x1000 = s.host.op ∧ s.barWord (0x1004 + 4 * k.val) = s.host.arg[k] ∧
    s.barWord 0x1010 = BitVec.ofNat 32 s.host.evbase ∧ s.barWord 0x1014 = BitVec.ofNat 32 (s.host.evbase / 2 ^ 32) ∧
    s.barWord 0x1018 = BitVec.ofNat 32 s.host.evlog2 ∧
    s.barWord 0x101C = s.host.evhead ∧ s.barWord 0x1020 = s.host.evack ∧ s.barWord 0x1024 = s.host.evlost ∧
    s.barWord (0x20000 + 128 * p.val + 4 * w.val) = s.partWord p w ∧
    s.barWord (0x21000 + 32 * i.toNat + 4 * j.val) = s.landing[i.toNat]!.words[j] ∧
    (∀ n : Fin 7, s.barWord (0x30000 + 32 * j.val + 4 * n.val) = s.dramStack[j].words[n]) ∧
    s.barWord (0x30000 + 32 * j.val + 28) = (if s.dramStack[j].up = true then 1 else 0) ∧
    (∀ n : Fin 14, s.barWord (0x31000 + 64 * die.val + 4 * n.val) = s.handoff[die][n]) ∧
    s.barWord (0x32000 + 4 * u.val) = BitVec.ofNat 32 ((s.spare u.val).state + 4 * (s.spare u.val).def0 + 256 * (s.spare u.val).def1) ∧
    s.barWord 0x33000 = s.smargin ∧ s.barWord 0x33004 = s.aclk ∧ s.barWord 0x33008 = s.service ∧
    s.barWord (0x40000 + 4 * d.val) = (s.routes.lookup d.val).getD 0 ∧
    (∀ n : Fin 4, s.barWord (0x42000 + 16 * port.val + 4 * n.val) = s.ports[port].words[n]) ∧
    ∀ off, off % 4 ≠ 0 ∨ 0x42180 ≤ off → s.barWord off = 0

/-- R291, R292, R297, R298: partition entries. -/
def Clause.PartitionSteps : Prop :=
  ∀ (s : State) (p : Fin 16),
    let t := s.endIdle
    let w0 := s.partWord p 0
    let put := fun (t : State) (k : Fin 32) (x : Word) => t.setPartWord p k x
    (w0.getLsbD 0 = true → exec (.partitionEnable p) s = .next t) ∧
    (w0.getLsbD 0 = false → s.enableError p = 0 → exec (.partitionEnable p) s = .next (put t 0 (w0 ||| 1))) ∧
    (∀ e, w0.getLsbD 0 = false → s.enableError p = e → e ≠ 0 →
      exec (.partitionEnable p) s = .next (put t 0 ((w0 &&& 0xFFFFFF0F) ||| BitVec.ofNat 32 (16 * e))) ∧ e ≤ 5) ∧
    (s.enableError p = 0 → ∀ q : Fin 16, q ≠ p → s.enabled q = true → ∀ (k : Fin 32) (j : Nat), 1 ≤ k.val → k.val ≤ 17 →
      ¬((s.partWord p k).getLsbD j = true ∧ (s.partWord q k).getLsbD j = true)) ∧
    ((∃ c ∈ s.ctxs, ctxPart c.desc = p) → exec (.partitionDisable p) s = .next t) ∧
    ((∀ c ∈ s.ctxs, ctxPart c.desc ≠ p) → exec (.partitionDisable p) s = .next (put t 0 (w0 &&& 0xFFFFFFFE))) ∧
    (let w := s.partWord p 21;
      (w.getLsbD 2 = true → exec (.flip p) s = .next t) ∧ (w.getLsbD 2 = false → exec (.flip p) s = .next (put t 21 ((w ^^^ 2) ||| 4))) ∧
      exec (.flipComplete p) s = .next (put s 21 (w &&& 0xFFFFFFFB)) ∧ exec (.wbreq p) s = .next (put t 21 (w ||| 8)) ∧
      (w.getLsbD 3 = false → exec (.wbreqComplete p) s = .next s) ∧
      (w.getLsbD 3 = true → exec (.wbreqComplete p) s = .next (put (s.writeBackAll fun l => l.part = p) 21
        ((s.writeBackAll fun l => l.part = p).partWord p 21 &&& 0xFFFFFFF7))))

/-- Doorbells, the event ring, registers and partition entries. That OP is written by the commands alone, and what bits of an
event ring's base and size are taken (log 20), and that host accesses and event records are plain data whatever key wrote the
place (log 12), are the model's readings and choices. -/
def Obligations.HostRegisters : Prop :=
  Clause.HostRegisters ∧ Clause.PartitionSteps


/-! ### Landings and links -/
/-- R281 to R285, R311: the landing table and reduction packets. A landing's work waits in its entry while a page of it is not
present. The write of an entry that is rejected, and the count of a packet that the table does not take, are the model's choices
(log 20). -/
def Clause.Landings : Prop :=
  (∀ (s : State) (i : Byte) (ws : List Word), ws.length = 8 →
    let e : Vector Word 8 := Vector.ofFn fun k => (ws[k.val]?).getD 0
    let old := s.landing[i.toNat]!.words
    ∃ new : Vector Word 8, exec (.landingEntryWrite i ws) s = .next { s.endIdle with landing := s.landing.set! i.toNat { words := new } } ∧
      (landBad e = true → new = old.set 0 (old[0] &&& 0xFFFFFFFE)) ∧
      (landBad e = false → (∀ k : Fin 8, k ≠ 0 → new[k] = e[k]) ∧ new[0] &&& 0xFFFFFF3F = e[0] &&& 0xFFF7FF3F ∧
        new[0] &&& 0xC0 = if e[0].getLsbD 0 = true then (0 : Word) else old[0] &&& (0xC0 : Word))) ∧
  (∀ e : Vector Word 8, landBad e = false ↔
    let f := fun (x : Word) (a n : Nat) => x.toNat / 2 ^ a % 2 ^ n
    f e[0] 2 2 ≠ 3 ∧ f e[0] 4 2 ≠ 3 ∧ (f e[0] 2 2 ≠ 0 → f e[0] 4 2 = 1) ∧ 2 ≤ f e[0] 8 11 ∧ f e[0] 8 11 ≤ 1536 ∧ e[1].toNat % 256 = 0 ∧
      e[4].toNat % 256 = 0 ∧ e[3].toNat % 32 = 0 ∧ 32 ≤ e[3].toNat ∧ e[3].toNat ≤ 2 ^ 31 ∧ e[6].toNat % 8 = 0) ∧
  (∀ (s : State) (i : Byte) (r off : Nat) (data : List Byte), data.length = 32 →
    let l := s.landing[i.toNat]!
    let e := l.words
    let who := s.landWho? e
    let takes := e[0].getLsbD 0 = true ∧ r < landRanks e ∧ off + 32 ≤ e[3].toNat
    (exec (.landingPacket i r off data) s =
      .next ((s.endIdle.updLanding i fun l => { l with jobs := l.jobs ++ [{ what := .packet r off data }] }).landGo i)) ∧
    ((∀ j ∈ l.jobs.head?, j.tag ≠ none) → l.jobs ≠ [] → exec (.landingPacket i r off data) s =
      .next (s.endIdle.updLanding i fun l => { l with jobs := l.jobs ++ [{ what := .packet r off data }] })) ∧
    (¬takes → s.landPacket i r off data = .done (s.landError who (landDst e + off)) []) ∧
    (takes → who = none → s.landPacket i r off data = .fault) ∧
    ∀ (w : Who), takes → who = some w →
      let place := s.landAcc who (if landMode e = true then landStage e + r * e[3].toNat + off else landDst e + off) 32
      let tally := s.landAcc who (landStage e + landRanks e * e[3].toNat + 4 * (off / 32)) 4
      (place = .fault → s.landPacket i r off data = .fault) ∧
      (∀ va b, place = .wait va b → s.landPacket i r off data = .wait va b) ∧
      ∀ (ld : Dword) (pd : Nat), place = .at_ ld pd →
        (tally = .fault → s.landPacket i r off data = .fault) ∧
        (∀ va b, tally = .wait va b → s.landPacket i r off data = .wait va b) ∧
        ∀ (lc : Dword) (pc : Nat), tally = .at_ lc pc → (r, off) ∉ l.seen → off ∉ l.spoilt →
          let u := s.landSee pc
          let n := leNat (u.landGet lc pc 4) + 1
          let put := if landMode e = true then u.landPut w ld pd data else u.landArrival e w ld pd data
          let t := (put.landPut w lc pc (leBytes 4 (n % 2 ^ 32))).updLanding i fun l => { l with seen := (r, off) :: l.seen }
          s.landPacket i r off data = .done t (if landMode e = true ∧ n = landRanks e then [.combine off, .finish] else [.finish])) ∧
  (∀ (s : State) (i : Byte) (off : Nat) (w : Who) (leaf : Dword) (pa : Nat) (src : List (Dword × Nat)),
    let l := s.landing[i.toNat]!
    let e := l.words
    s.landWho? e = some w → s.landAcc (some w) (landDst e + off) 32 = .at_ leaf pa → off ∉ l.spoilt →
    ((List.range (landRanks e)).map fun r => s.landAcc (some w) (landStage e + r * e[3].toNat + off) 32) = src.map (fun a => .at_ a.1 a.2) →
      s.landCombine i off = .done (s.landRanked e w leaf pa src) []) ∧
  (∀ (s : State) (i : Byte) (w : Who) (leaf : Dword) (pa : Nat) (faulted : Bool),
    let e := s.landing[i.toNat]!.words
    s.landWho? e = some w → s.landAcc (some w) (landSig e) 8 = .at_ leaf pa → (s.landSee pa).poisoned pa = false →
      let sum := (leNat ((s.landSee pa).landGet leaf pa 8) + (if faulted = true then 0x100000001 else 1)) % 2 ^ 64
      let t := (s.landSee pa).landPut w leaf pa (leBytes 8 sum)
      s.landSignal i faulted = .done (if faulted = true then t else t.updLanding i (landEnded false)) []) ∧
  (∀ (s : State) (i : Byte) (j : LandJob) (rest : List LandJob), s.landing[i.toNat]!.jobs = j :: rest → j.tag = none → ∀ n,
    let t := s.updLanding i fun l => { l with jobs := rest }
    (j.fatal = true ∨ t.landDo i j.what = .fault → s.landRun i (n + 1) = State.landRun i n (t.updLanding i (landFault j)).wake) ∧
    (j.fatal = false → ∀ va b, t.landDo i j.what = .wait va b →
      (s.landRun i (n + 1)).landing[i.toNat]!.jobs = { j with tag := some s.host.nextTag } :: rest)) ∧
  (∀ (l : Landing) (j : LandJob), (landEnded false l).words[0] &&& 0xC1 = 0x40 ∧ (landFault j l).words[0] &&& 0xC1 = 0x80) ∧
  (∀ (op : Word → Word → Word) (a b c d e : Word), treeCombine op 11 1 [a] = a ∧ treeCombine op 11 1 [a, b] = op a b ∧
    treeCombine op 11 1 [a, b, c] = op (op a b) c ∧ treeCombine op 11 1 [a, b, c, d] = op (op a b) (op c d) ∧
    treeCombine op 11 1 [a, b, c, d, e] = op (op (op a b) (op c d)) e) ∧
  ∀ v : List Word, v ≠ [] → v.length ≤ 2048 → treeCombine (· + ·) 11 1 v = v.foldl (· + ·) 0

/-- R289, R290, R314, R315: flits, replays and retrains of the links to the stacks and the Beljo ports; remote requests. -/
def Clause.LinkSteps : Prop :=
  (∀ (s : State) (k : Fin 8),
    let x := s.dramStack[k]
    let put := fun (y : Stack) => { s with dramStack := s.dramStack.set k y }
    let sat := fun w : Word => BitVec.ofNat 32 (min (w.toNat + 1) 0xFFFFFFFF)
    (x.up = true → x.retraining = false → x.failedReplays < 9 →
      exec (.stackFlitReceive k true) s = .next (put { x with failedReplays := 0, failedRetrains := 0 }) ∧
      exec (.stackFlitReceive k false) s = .next (put { x with
        failedReplays := x.failedReplays + 1
        words := if x.failedReplays < 8 then (x.words.set 0 (sat x.words[0])).set 1 (sat x.words[1]) else x.words.set 0 (sat x.words[0]) })) ∧
    (x.up = true → x.retraining = false → x.failedReplays = 9 →
      exec (.linkRetrain k) s = .next (put { x with retraining := true, words := x.words.set 2 (sat x.words[2]) })) ∧
    (x.up = false ∨ x.retraining = true ∨ 9 ≤ x.failedReplays → ∀ ok, exec (.stackFlitReceive k ok) s = .next s) ∧
    (x.up = false ∨ x.retraining = true ∨ x.failedReplays < 9 → exec (.linkRetrain k) s = .next s) ∧
    (x.retraining = false → ∀ ok, exec (.retrainComplete k ok) s = .next s) ∧
    (x.retraining = true → exec (.retrainComplete k true) s = .next (put { x with retraining := false, failedReplays := 0, failedRetrains := 0 }) ∧
      (x.failedRetrains < 2 → exec (.retrainComplete k false) s = .next (put { x with retraining := false, failedRetrains := x.failedRetrains + 1 })) ∧
      (2 ≤ x.failedRetrains → exec (.retrainComplete k false) s = .next
        ((put { x with retraining := false, failedRetrains := x.failedRetrains + 1, up := false }).postEvent
          { kind := 6, ctx := 0xFFFF, code := BitVec.ofNat 32 k.val }).wake))) ∧
  (∀ (s : State) (k : Fin 24), s.ports[k].up = true →
    let x := s.ports[k]
    let sat := fun w : Word => BitVec.ofNat 32 (min (w.toNat + 1) 0xFFFFFFFF)
    exec (.beljoFlitReceive k true) s = .next { s.endIdle with ports := s.ports.set k { x with failedReplays := 0, failedRetrains := 0, packets := x.packets + 1 } } ∧
    (x.failedReplays < 8 → exec (.beljoFlitReceive k false) s = .next { s with ports := s.ports.set k { x with
      failedReplays := x.failedReplays + 1, words := (x.words.set 0 (sat x.words[0])).set 1 (sat x.words[1]) } }) ∧
    (8 ≤ x.failedReplays → x.failedRetrains < 3 → exec (.beljoFlitReceive k false) s = .next { s with ports := s.ports.set k { x with
      failedReplays := 0, failedRetrains := x.failedRetrains + 1, words := (x.words.set 0 (sat x.words[0])).set 2 (sat x.words[2]) } }) ∧
    (8 ≤ x.failedReplays → 3 ≤ x.failedRetrains → exec (.beljoFlitReceive k false) s = .next
      (({ s with ports := s.ports.set k { x with failedReplays := x.failedReplays + 1, up := false, words := x.words.set 0 (sat x.words[0]) } }).postEvent
        { kind := 6, ctx := 0xFFFF, code := BitVec.ofNat 32 (0x100 + k.val) }).wake) ∧
    ∀ (gid : Nat) (m : Mask), exec (.remoteAccessTimeout k gid false m) s = .next { s with ports := s.ports.set k { x with words := x.words.set 3 (sat x.words[3]) } }) ∧
  (∀ (s : State) (k : Fin 24) (gid : Nat) (m : Mask), exec (.remoteAccessTimeout k gid true m) s =
    .next { s with silent := { port := k.val, gid := gid, lanes := m } :: s.silent }) ∧
  (∀ (s : State) (k : Fin 24) (ok : Bool), s.ports[k].up = false → exec (.beljoFlitReceive k ok) s = .next s) ∧
  ∀ (s : State) (p : Fin 16) (asid : BitVec 12) (who : Who) (ptr : Dword) (leaf : Dword) (pa : Nat) (v : Word) (bs : List Byte),
    let t := s.endIdle
    let home := who.home
    let va := ptr.toNat % 2 ^ 52
    let asks := fun (n : Nat) (write : Bool) => t.access home ptr n { write := write }
    (t.remoteWho? p asid = none → ∀ r, exec (.remoteAccess p asid r) s = .next t) ∧
    (t.remoteWho? p asid = some who →
    (∀ n b, asks n false = .ok leaf pa b → exec (.remoteAccess p asid (.load ptr n)) s = .next (t.fill home leaf pa va 0 .normal)) ∧
    (∀ n, (∀ l q b, asks n false ≠ .ok l q b) → exec (.remoteAccess p asid (.load ptr n)) s = .next t) ∧
    (∀ b, asks bs.length true = .ok leaf pa b →
      exec (.remoteAccess p asid (.store ptr bs)) s = .next (t.putBytes home leaf pa va .normal bs).wake) ∧
    (∀ (op : AOp) (x w : Nat) b, asks op.size true = .ok leaf pa b →
      let u := t.fill home leaf pa va 0 .normal
      exec (.remoteAccess p asid (.atomic op ptr x w)) s = .next (if u.datumPoison home u.latch.hurt op.size none (.mem leaf pa ptr) = true then u else
        u.putBytes home leaf pa va .normal (leBytes op.size (aopNew op (leNat (u.view home leaf pa va op.size)) x w))).wake) ∧
    (∀ op x w, (∀ l q b, asks op.size true ≠ .ok l q b) → exec (.remoteAccess p asid (.atomic op ptr x w)) s = .next t.wake) ∧
    ((∀ l q b, asks bs.length true ≠ .ok l q b) → exec (.remoteAccess p asid (.store ptr bs)) s = .next t.wake) ∧
    ∀ (flag : Dword) (add : Bool),
      let words := (List.range (bs.length / 4)).map fun k => (ptr + BitVec.ofNat 64 (4 * k), (bs.drop (4 * k)).take 4)
      let placed := (∀ e ∈ words, t.remotePlace who e.1 4 true ≠ none) ∧ t.remotePlace who flag 4 true ≠ none
      (¬placed → exec (.remoteAccess p asid (.signal ptr bs flag add v)) s = .next t) ∧
      (placed → exec (.remoteAccess p asid (.signal ptr bs flag add v)) s = .next
        (let u := words.foldl (fun u e => u.remoteStore who e.1 e.2) t
         if add = true then u.remoteAtomic who .add flag v.toNat 0 else u.remoteStore who flag (leBytes 4 v.toNat)).wake))


/-! ### The device -/
/-- R299 to R305, R316 to R318, R288: reset and boot, idle states, ageing, lane sparing, tests, keys, attestation, soft errors.
What a self-test finds is free, as is the count of errors that makes a lane defective (log 11). -/
def Clause.DeviceSteps : Prop :=
  (∀ (s : State) (a b c : BootImage), (∀ i ∈ [a, b, c], i.signed = true ∧ i.minimum ≤ i.version) →
    let mr := fun d : BitVec 256 => Config.sha256 (be256 0 ++ be256 d)
    ∃ t, exec (.deviceReset [a, b, c]) s = .next t ∧ t.host.bootst = 0x100 ∧ t.mr = #v[mr a.digest, mr b.digest, mr c.digest, mr 0] ∧
      t.versions[0] = BitVec.ofNat 32 a.version ∧ t.versions[1] = BitVec.ofNat 32 b.version ∧
      t.mem = s.mem ∧ t.tags = s.tags ∧ t.pois = s.pois ∧ t.recoded = s.recoded ∧ t.keyed = s.keyed ∧ t.keyVer = s.newKeys ∧ t.keyLoaded = [] ∧
      t.g = {} ∧ t.others = [] ∧ t.launches = [] ∧ t.queues = [] ∧ t.ctxs = [] ∧ (∀ p : Fin 16, t.enabled p = false) ∧ t.l1 = [] ∧ t.l2 = [] ∧
      t.stopped = false) ∧
  (∀ (s : State) (a : BootImage) (rest : List BootImage), a.signed = false ∨ a.version < a.minimum →
    ∃ t, exec (.deviceReset (a :: rest)) s = .next t ∧ t.host.bootst = 1) ∧
  (∀ (s : State) (k : Nat), (∃ e ∈ s.keyed, e.2.1 = k) → (s.newKeys.lookup k) = some ((s.keyNow k).2 + 1)) ∧
  (∀ s : State, (s.idleNow = false → exec .idleEntry s = .next s) ∧
    (s.idleNow = true ↔ (∀ g ∈ s.allGroups, g.gid = 0) ∧ (∀ c, s.host.busy ≠ some (.restore c)) ∧ (∀ q ∈ s.queues, q.closed = true ∨ q.count = BitVec.ofNat 32 q.started) ∧
      ∀ i : Fin 256, s.landing[i].words[0].getLsbD 0 = false) ∧
    (s.idleNow = true → ∃ t, exec .idleEntry s = .next t ∧
      t.host = { s.host with idle := if s.host.ltr.toNat < 2 then 0 else if s.host.ltr.toNat < 40 then 1 else if s.host.ltr.toNat < 400 then 2 else 3 } ∧
      (s.host.ltr.toNat < 40 → t = { s with host := t.host }) ∧ (40 ≤ s.host.ltr.toNat → t.l1 = [] ∧ t.l2 = [] ∧ t.rlc = [])) ∧
    exec .idleExit s = .next { s with host := { s.host with idle := 0 } } ∧
    (∃ t, exec .clockStep s = .next t ∧ { t with aclk := s.aclk, service := s.service, smargin := s.smargin } = s ∧
      (3050 ≤ s.aclk.toNat → t.aclk = s.aclk - 50 ∧ t.service = s.service) ∧ (s.aclk.toNat < 3050 → t.aclk = s.aclk ∧ t.service = 1)) ∧
    (3000 ≤ s.aclk.toNat → ∀ t, exec .clockStep s = .next t → 3000 ≤ t.aclk.toNat)) ∧
  (∀ (s : State) (u lane : Nat),
    let x := s.spare u
    let ground := lane ∈ x.failed ∨ Config.laneLimit < (x.errs.lookup lane).getD 0
    (u < 1024 → lane ≤ 32 → ground → x.state ≠ 2 → x.def0 = 63 → x.def1 = 63 →
      exec (.laneDefect u lane) s = .next (s.setSpare { x with state := 3, def0 := lane, def1 := 63 })) ∧
    (u < 1024 → lane ≤ 32 → ground → x.state ≠ 2 → x.def0 ≠ 63 → x.def0 ≠ lane → x.def1 = 63 →
      exec (.laneDefect u lane) s = .next (s.setSpare { x with state := 3, def1 := lane })) ∧
    (1024 ≤ u ∨ 32 < lane ∨ ¬ground ∨ x.state = 2 ∨ x.def0 = lane ∨ x.def1 ≠ 63 → exec (.laneDefect u lane) s = .next s) ∧
    (x.state = 3 → s.unitEmpty u = true → exec (.laneSpareSteer u) s = .next (s.setSpare { x with state := if x.def1 = 63 then 1 else 2 })) ∧
    (x.state ≠ 3 ∨ s.unitEmpty u = false → exec (.laneSpareSteer u) s = .next s) ∧
    (let quiet := (u < 1024 ∧ ∀ g ∈ s.allGroups, g.gid = 0 ∨ g.method ≠ none ∨ g.core.val ≠ u / 4) ∨
       (1024 ≤ u ∧ u < 1280 ∧ ∀ b ∈ s.basins, b.pa / 2 ^ 31 % 256 ≠ u - 1024);
      (quiet → exec (.selfTestStart u) s = .next (s.setSpare { x with testing := true })) ∧ (¬quiet → exec (.selfTestStart u) s = .next s)) ∧
    (x.testing = true → ∃ bad : List Nat, exec (.selfTestEnd u) s = .next (s.setSpare { x with testing := false, failed := bad ++ x.failed }) ∧
      bad.length ≤ 1 ∧ (∀ l ∈ bad, l < 33) ∧ (1024 ≤ u → bad = [])) ∧
    (x.testing = false → exec (.selfTestEnd u) s = .next s) ∧
    (s.setSpare x).spare u = x ∧ ∀ v, v ≠ u → (s.setSpare x).spare v = s.spare v) ∧
  (∀ (s : State) (k : Nat), 1 ≤ k → k ≤ 8191 →
    let idle := (∀ l ∈ s.l2, l.dmask = 0 ∨ leafKey l.leaf ≠ k) ∧ ∀ b ∈ s.basins, leafKey b.leaf ≠ k
    (¬idle → exec (.keyChange k) s = .next s) ∧
    (idle → ∃ t, exec (.keyChange k) s = .next t ∧ t.keyNow k = (k, (s.keyNow k).2 + 1) ∧ k ∈ t.keyLoaded ∧ (∀ j, j ≠ k → t.keyNow j = s.keyNow j) ∧
      { t with keyVer := s.keyVer, keyLoaded := s.keyLoaded } = s)) ∧
  (∀ (s : State) (p : Fin 16) (r : Fin 4) (d : BitVec 256) (nonce : List Byte),
    exec (.mrExtend p r d) s = .next { s with parts := s.parts.set p { s.parts[p] with
      mr := s.parts[p].mr.set r (Config.sha256 (be256 s.parts[p].mr[r] ++ be256 d)) } } ∧
    (nonce.length ≠ 32 → exec (.attestationReport p nonce) s = .next s) ∧
    (nonce.length = 32 → ∃ rep : List Byte, exec (.attestationReport p nonce) s = .next { s with parts := s.parts.set p { s.parts[p] with report := rep } } ∧
      rep.length = 16616 ∧ rep.take 4 = [1, 0, 0, 0] ∧ (rep.drop 24).take 32 = nonce ∧
      (rep.drop 60).take 8 = leBytes 4 s.versions[0].toNat ++ leBytes 4 s.versions[1].toNat ∧
      (rep.drop 72).take 256 = (s.mr.toList ++ s.parts[p].mr.toList).flatMap be256 ∧ (rep.drop 392).take 16224 = fitBytes 16224 (Config.slhSign (rep.take 392)))) ∧
  ∀ (s : State) (g : Nat) (unc : Bool) (die : Fin 2) (hop : Fin 7) (L : Lane) (second : Bool) (flip : BitVec 128) (core : CoreId) (n wid : Nat),
    exec (.softError (.array g unc)) s = .next { s with upsetBits := s.upsetBits ++ [{ granule := g, hop := 7, die := 0, unc := unc }] } ∧
    exec (.softError (.hop die hop g unc)) s = .next { s with upsetBits := s.upsetBits ++ [{ granule := g, hop := hop.val, die := die, unc := unc }] } ∧
    exec (.softError (.unit L second flip)) s = .next { s with upsets := s.upsets ++ [{ lane := L, second := second, flip := flip }] } ∧
    exec (.softError (.cell wid n)) s = .next { s with upsetCells := (wid, n) :: s.upsetCells } ∧
    (4 * n < Config.weightBytes → exec (.softError (.weights core n)) s = .next (s.updCore core fun c => { c with wbPois := memSet c.wbPois n 1 })) ∧
    (n < 65536 → exec (.softError (.accumulator core n)) s = .next (s.updCore core fun c => { c with accPois := memSet c.accPois n 1 })) ∧
    (∀ (w : Workgroup) (k : Nat), s.wg? w.wid = some w → 4 * k < w.cmBytes →
      exec (.softError (.coreMem w.wid k)) s = .next ((s.countHop (dieOf w.core) 13).updWg w.wid fun x => { x with cmPois := memSet x.cmPois k 1 })) ∧
    ∀ (x : Machine.Group) (r : VReg) (q : SReg), s.group? x.gid = some x →
      exec (.softError (.vector x.gid r L)) s = .next ((s.countHop (dieOf x.core) 12).updGroup x.gid fun y => { y with regs := { y.regs with
        vpois := y.regs.vpois.set r (y.regs.vpois[r] ||| (1#96 <<< L.val)) } }) ∧
      (q.val < 60 → exec (.softError (.scalar x.gid q)) s = .next ((s.countHop (dieOf x.core) 12).updGroup x.gid fun y => { y with regs := { y.regs with
        spois := y.regs.spois ||| (1#64 <<< q.val) } })) ∧
      (x.method = none → exec (.softError (.corrected x.gid L)) s =
        .next (let t := s.countHop (dieOf x.core) 9; t.setSpare ((s.spare (4 * x.core.val + x.simd.val)).count L)))

/-- Landings, links, reset, idle states, ageing, keys, attestation and soft errors. The context that a landing entry serves, its
pointers' tags and the retrain of a Beljo port (log 20), DRAM, tags and poison kept over a device reset and the keys' versions
(log 1), that a device's silence is known before the word that gets no answer (log 13), and the byte order of a digest in a
report (log 11), are the model's readings and choices; the margin is free (log 6). -/
def Obligations.DeviceSteps : Prop :=
  Clause.Landings ∧ Clause.LinkSteps ∧ Clause.DeviceSteps

end
end

