-- ==== Sys2Proof/Laws/State.lean ====
section
/-!
SUPPORT. Laws/State.lean: what each update of the state does to each of its fields.
-/
namespace Sys2Proof.Machine
noncomputable section

/-! ### withLatch -/
@[simp] theorem State.withLatch_g (s : State) (L : Latch) : (s.withLatch L).g = s.g := rfl
@[simp] theorem State.withLatch_others (s : State) (L : Latch) : (s.withLatch L).others = s.others := rfl
@[simp] theorem State.withLatch_w (s : State) (L : Latch) : (s.withLatch L).w = s.w := rfl
@[simp] theorem State.withLatch_otherWgs (s : State) (L : Latch) : (s.withLatch L).otherWgs = s.otherWgs := rfl
@[simp] theorem State.withLatch_latch (s : State) (L : Latch) : (s.withLatch L).latch = L := rfl
@[simp] theorem State.withLatch_cores (s : State) (L : Latch) : (s.withLatch L).cores = s.cores := rfl
@[simp] theorem State.withLatch_mem (s : State) (L : Latch) : (s.withLatch L).mem = s.mem := rfl
@[simp] theorem State.withLatch_tags (s : State) (L : Latch) : (s.withLatch L).tags = s.tags := rfl
@[simp] theorem State.withLatch_pois (s : State) (L : Latch) : (s.withLatch L).pois = s.pois := rfl
@[simp] theorem State.withLatch_recoded (s : State) (L : Latch) : (s.withLatch L).recoded = s.recoded := rfl
@[simp] theorem State.withLatch_keyed (s : State) (L : Latch) : (s.withLatch L).keyed = s.keyed := rfl
@[simp] theorem State.withLatch_keyVer (s : State) (L : Latch) : (s.withLatch L).keyVer = s.keyVer := rfl
@[simp] theorem State.withLatch_keyLoaded (s : State) (L : Latch) : (s.withLatch L).keyLoaded = s.keyLoaded := rfl
@[simp] theorem State.withLatch_l1 (s : State) (L : Latch) : (s.withLatch L).l1 = s.l1 := rfl
@[simp] theorem State.withLatch_l2 (s : State) (L : Latch) : (s.withLatch L).l2 = s.l2 := rfl
@[simp] theorem State.withLatch_rlc (s : State) (L : Latch) : (s.withLatch L).rlc = s.rlc := rfl
@[simp] theorem State.withLatch_icache (s : State) (L : Latch) : (s.withLatch L).icache = s.icache := rfl
@[simp] theorem State.withLatch_tlb (s : State) (L : Latch) : (s.withLatch L).tlb = s.tlb := rfl
@[simp] theorem State.withLatch_copies (s : State) (L : Latch) : (s.withLatch L).copies = s.copies := rfl
@[simp] theorem State.withLatch_nextCopy (s : State) (L : Latch) : (s.withLatch L).nextCopy = s.nextCopy := rfl
@[simp] theorem State.withLatch_basins (s : State) (L : Latch) : (s.withLatch L).basins = s.basins := rfl
@[simp] theorem State.withLatch_tickets (s : State) (L : Latch) : (s.withLatch L).tickets = s.tickets := rfl
@[simp] theorem State.withLatch_past (s : State) (L : Latch) : (s.withLatch L).past = s.past := rfl
@[simp] theorem State.withLatch_silent (s : State) (L : Latch) : (s.withLatch L).silent = s.silent := rfl
@[simp] theorem State.withLatch_launches (s : State) (L : Latch) : (s.withLatch L).launches = s.launches := rfl
@[simp] theorem State.withLatch_queues (s : State) (L : Latch) : (s.withLatch L).queues = s.queues := rfl
@[simp] theorem State.withLatch_ctxs (s : State) (L : Latch) : (s.withLatch L).ctxs = s.ctxs := rfl
@[simp] theorem State.withLatch_parts (s : State) (L : Latch) : (s.withLatch L).parts = s.parts := rfl
@[simp] theorem State.withLatch_mr (s : State) (L : Latch) : (s.withLatch L).mr = s.mr := rfl
@[simp] theorem State.withLatch_versions (s : State) (L : Latch) : (s.withLatch L).versions = s.versions := rfl
@[simp] theorem State.withLatch_host (s : State) (L : Latch) : (s.withLatch L).host = s.host := rfl
@[simp] theorem State.withLatch_landing (s : State) (L : Latch) : (s.withLatch L).landing = s.landing := rfl
@[simp] theorem State.withLatch_dramStack (s : State) (L : Latch) : (s.withLatch L).dramStack = s.dramStack := rfl
@[simp] theorem State.withLatch_handoff (s : State) (L : Latch) : (s.withLatch L).handoff = s.handoff := rfl
@[simp] theorem State.withLatch_upsetBits (s : State) (L : Latch) : (s.withLatch L).upsetBits = s.upsetBits := rfl
@[simp] theorem State.withLatch_upsetCells (s : State) (L : Latch) : (s.withLatch L).upsetCells = s.upsetCells := rfl
@[simp] theorem State.withLatch_stage2 (s : State) (L : Latch) : (s.withLatch L).stage2 = s.stage2 := rfl
@[simp] theorem State.withLatch_spares (s : State) (L : Latch) : (s.withLatch L).spares = s.spares := rfl
@[simp] theorem State.withLatch_ports (s : State) (L : Latch) : (s.withLatch L).ports = s.ports := rfl
@[simp] theorem State.withLatch_routes (s : State) (L : Latch) : (s.withLatch L).routes = s.routes := rfl
@[simp] theorem State.withLatch_smargin (s : State) (L : Latch) : (s.withLatch L).smargin = s.smargin := rfl
@[simp] theorem State.withLatch_aclk (s : State) (L : Latch) : (s.withLatch L).aclk = s.aclk := rfl
@[simp] theorem State.withLatch_service (s : State) (L : Latch) : (s.withLatch L).service = s.service := rfl
@[simp] theorem State.withLatch_pixels (s : State) (L : Latch) : (s.withLatch L).pixels = s.pixels := rfl
@[simp] theorem State.withLatch_lastPsn (s : State) (L : Latch) : (s.withLatch L).lastPsn = s.lastPsn := rfl
@[simp] theorem State.withLatch_tiles (s : State) (L : Latch) : (s.withLatch L).tiles = s.tiles := rfl
@[simp] theorem State.withLatch_cycle (s : State) (L : Latch) : (s.withLatch L).cycle = s.cycle := rfl
@[simp] theorem State.withLatch_upsets (s : State) (L : Latch) : (s.withLatch L).upsets = s.upsets := rfl
@[simp] theorem State.withLatch_plan (s : State) (L : Latch) : (s.withLatch L).plan = s.plan := rfl
@[simp] theorem State.withLatch_fresh (s : State) (L : Latch) : (s.withLatch L).fresh = s.fresh := rfl
/-! ### setRegs -/
@[simp] theorem State.setRegs_others (s : State) (f : Regs → Regs) : (s.setRegs f).others = s.others := rfl
@[simp] theorem State.setRegs_w (s : State) (f : Regs → Regs) : (s.setRegs f).w = s.w := rfl
@[simp] theorem State.setRegs_otherWgs (s : State) (f : Regs → Regs) : (s.setRegs f).otherWgs = s.otherWgs := rfl
@[simp] theorem State.setRegs_latch (s : State) (f : Regs → Regs) : (s.setRegs f).latch = s.latch := rfl
@[simp] theorem State.setRegs_cores (s : State) (f : Regs → Regs) : (s.setRegs f).cores = s.cores := rfl
@[simp] theorem State.setRegs_mem (s : State) (f : Regs → Regs) : (s.setRegs f).mem = s.mem := rfl
@[simp] theorem State.setRegs_tags (s : State) (f : Regs → Regs) : (s.setRegs f).tags = s.tags := rfl
@[simp] theorem State.setRegs_pois (s : State) (f : Regs → Regs) : (s.setRegs f).pois = s.pois := rfl
@[simp] theorem State.setRegs_recoded (s : State) (f : Regs → Regs) : (s.setRegs f).recoded = s.recoded := rfl
@[simp] theorem State.setRegs_keyed (s : State) (f : Regs → Regs) : (s.setRegs f).keyed = s.keyed := rfl
@[simp] theorem State.setRegs_keyVer (s : State) (f : Regs → Regs) : (s.setRegs f).keyVer = s.keyVer := rfl
@[simp] theorem State.setRegs_keyLoaded (s : State) (f : Regs → Regs) : (s.setRegs f).keyLoaded = s.keyLoaded := rfl
@[simp] theorem State.setRegs_l1 (s : State) (f : Regs → Regs) : (s.setRegs f).l1 = s.l1 := rfl
@[simp] theorem State.setRegs_l2 (s : State) (f : Regs → Regs) : (s.setRegs f).l2 = s.l2 := rfl
@[simp] theorem State.setRegs_rlc (s : State) (f : Regs → Regs) : (s.setRegs f).rlc = s.rlc := rfl
@[simp] theorem State.setRegs_icache (s : State) (f : Regs → Regs) : (s.setRegs f).icache = s.icache := rfl
@[simp] theorem State.setRegs_tlb (s : State) (f : Regs → Regs) : (s.setRegs f).tlb = s.tlb := rfl
@[simp] theorem State.setRegs_copies (s : State) (f : Regs → Regs) : (s.setRegs f).copies = s.copies := rfl
@[simp] theorem State.setRegs_nextCopy (s : State) (f : Regs → Regs) : (s.setRegs f).nextCopy = s.nextCopy := rfl
@[simp] theorem State.setRegs_basins (s : State) (f : Regs → Regs) : (s.setRegs f).basins = s.basins := rfl
@[simp] theorem State.setRegs_tickets (s : State) (f : Regs → Regs) : (s.setRegs f).tickets = s.tickets := rfl
@[simp] theorem State.setRegs_past (s : State) (f : Regs → Regs) : (s.setRegs f).past = s.past := rfl
@[simp] theorem State.setRegs_silent (s : State) (f : Regs → Regs) : (s.setRegs f).silent = s.silent := rfl
@[simp] theorem State.setRegs_launches (s : State) (f : Regs → Regs) : (s.setRegs f).launches = s.launches := rfl
@[simp] theorem State.setRegs_queues (s : State) (f : Regs → Regs) : (s.setRegs f).queues = s.queues := rfl
@[simp] theorem State.setRegs_ctxs (s : State) (f : Regs → Regs) : (s.setRegs f).ctxs = s.ctxs := rfl
@[simp] theorem State.setRegs_parts (s : State) (f : Regs → Regs) : (s.setRegs f).parts = s.parts := rfl
@[simp] theorem State.setRegs_mr (s : State) (f : Regs → Regs) : (s.setRegs f).mr = s.mr := rfl
@[simp] theorem State.setRegs_versions (s : State) (f : Regs → Regs) : (s.setRegs f).versions = s.versions := rfl
@[simp] theorem State.setRegs_host (s : State) (f : Regs → Regs) : (s.setRegs f).host = s.host := rfl
@[simp] theorem State.setRegs_landing (s : State) (f : Regs → Regs) : (s.setRegs f).landing = s.landing := rfl
@[simp] theorem State.setRegs_dramStack (s : State) (f : Regs → Regs) : (s.setRegs f).dramStack = s.dramStack := rfl
@[simp] theorem State.setRegs_handoff (s : State) (f : Regs → Regs) : (s.setRegs f).handoff = s.handoff := rfl
@[simp] theorem State.setRegs_upsetBits (s : State) (f : Regs → Regs) : (s.setRegs f).upsetBits = s.upsetBits := rfl
@[simp] theorem State.setRegs_upsetCells (s : State) (f : Regs → Regs) : (s.setRegs f).upsetCells = s.upsetCells := rfl
@[simp] theorem State.setRegs_stage2 (s : State) (f : Regs → Regs) : (s.setRegs f).stage2 = s.stage2 := rfl
@[simp] theorem State.setRegs_spares (s : State) (f : Regs → Regs) : (s.setRegs f).spares = s.spares := rfl
@[simp] theorem State.setRegs_ports (s : State) (f : Regs → Regs) : (s.setRegs f).ports = s.ports := rfl
@[simp] theorem State.setRegs_routes (s : State) (f : Regs → Regs) : (s.setRegs f).routes = s.routes := rfl
@[simp] theorem State.setRegs_smargin (s : State) (f : Regs → Regs) : (s.setRegs f).smargin = s.smargin := rfl
@[simp] theorem State.setRegs_aclk (s : State) (f : Regs → Regs) : (s.setRegs f).aclk = s.aclk := rfl
@[simp] theorem State.setRegs_service (s : State) (f : Regs → Regs) : (s.setRegs f).service = s.service := rfl
@[simp] theorem State.setRegs_pixels (s : State) (f : Regs → Regs) : (s.setRegs f).pixels = s.pixels := rfl
@[simp] theorem State.setRegs_lastPsn (s : State) (f : Regs → Regs) : (s.setRegs f).lastPsn = s.lastPsn := rfl
@[simp] theorem State.setRegs_tiles (s : State) (f : Regs → Regs) : (s.setRegs f).tiles = s.tiles := rfl
@[simp] theorem State.setRegs_cycle (s : State) (f : Regs → Regs) : (s.setRegs f).cycle = s.cycle := rfl
@[simp] theorem State.setRegs_upsets (s : State) (f : Regs → Regs) : (s.setRegs f).upsets = s.upsets := rfl
@[simp] theorem State.setRegs_plan (s : State) (f : Regs → Regs) : (s.setRegs f).plan = s.plan := rfl
@[simp] theorem State.setRegs_fresh (s : State) (f : Regs → Regs) : (s.setRegs f).fresh = s.fresh := rfl
/-! ### setLeaf -/
@[simp] theorem State.setLeaf_others (s : State) (f : Entry → Entry) : (s.setLeaf f).others = s.others := rfl
@[simp] theorem State.setLeaf_w (s : State) (f : Entry → Entry) : (s.setLeaf f).w = s.w := rfl
@[simp] theorem State.setLeaf_otherWgs (s : State) (f : Entry → Entry) : (s.setLeaf f).otherWgs = s.otherWgs := rfl
@[simp] theorem State.setLeaf_latch (s : State) (f : Entry → Entry) : (s.setLeaf f).latch = s.latch := rfl
@[simp] theorem State.setLeaf_cores (s : State) (f : Entry → Entry) : (s.setLeaf f).cores = s.cores := rfl
@[simp] theorem State.setLeaf_mem (s : State) (f : Entry → Entry) : (s.setLeaf f).mem = s.mem := rfl
@[simp] theorem State.setLeaf_tags (s : State) (f : Entry → Entry) : (s.setLeaf f).tags = s.tags := rfl
@[simp] theorem State.setLeaf_pois (s : State) (f : Entry → Entry) : (s.setLeaf f).pois = s.pois := rfl
@[simp] theorem State.setLeaf_recoded (s : State) (f : Entry → Entry) : (s.setLeaf f).recoded = s.recoded := rfl
@[simp] theorem State.setLeaf_keyed (s : State) (f : Entry → Entry) : (s.setLeaf f).keyed = s.keyed := rfl
@[simp] theorem State.setLeaf_keyVer (s : State) (f : Entry → Entry) : (s.setLeaf f).keyVer = s.keyVer := rfl
@[simp] theorem State.setLeaf_keyLoaded (s : State) (f : Entry → Entry) : (s.setLeaf f).keyLoaded = s.keyLoaded := rfl
@[simp] theorem State.setLeaf_l1 (s : State) (f : Entry → Entry) : (s.setLeaf f).l1 = s.l1 := rfl
@[simp] theorem State.setLeaf_l2 (s : State) (f : Entry → Entry) : (s.setLeaf f).l2 = s.l2 := rfl
@[simp] theorem State.setLeaf_rlc (s : State) (f : Entry → Entry) : (s.setLeaf f).rlc = s.rlc := rfl
@[simp] theorem State.setLeaf_icache (s : State) (f : Entry → Entry) : (s.setLeaf f).icache = s.icache := rfl
@[simp] theorem State.setLeaf_tlb (s : State) (f : Entry → Entry) : (s.setLeaf f).tlb = s.tlb := rfl
@[simp] theorem State.setLeaf_copies (s : State) (f : Entry → Entry) : (s.setLeaf f).copies = s.copies := rfl
@[simp] theorem State.setLeaf_nextCopy (s : State) (f : Entry → Entry) : (s.setLeaf f).nextCopy = s.nextCopy := rfl
@[simp] theorem State.setLeaf_basins (s : State) (f : Entry → Entry) : (s.setLeaf f).basins = s.basins := rfl
@[simp] theorem State.setLeaf_tickets (s : State) (f : Entry → Entry) : (s.setLeaf f).tickets = s.tickets := rfl
@[simp] theorem State.setLeaf_past (s : State) (f : Entry → Entry) : (s.setLeaf f).past = s.past := rfl
@[simp] theorem State.setLeaf_silent (s : State) (f : Entry → Entry) : (s.setLeaf f).silent = s.silent := rfl
@[simp] theorem State.setLeaf_launches (s : State) (f : Entry → Entry) : (s.setLeaf f).launches = s.launches := rfl
@[simp] theorem State.setLeaf_queues (s : State) (f : Entry → Entry) : (s.setLeaf f).queues = s.queues := rfl
@[simp] theorem State.setLeaf_ctxs (s : State) (f : Entry → Entry) : (s.setLeaf f).ctxs = s.ctxs := rfl
@[simp] theorem State.setLeaf_parts (s : State) (f : Entry → Entry) : (s.setLeaf f).parts = s.parts := rfl
@[simp] theorem State.setLeaf_mr (s : State) (f : Entry → Entry) : (s.setLeaf f).mr = s.mr := rfl
@[simp] theorem State.setLeaf_versions (s : State) (f : Entry → Entry) : (s.setLeaf f).versions = s.versions := rfl
@[simp] theorem State.setLeaf_host (s : State) (f : Entry → Entry) : (s.setLeaf f).host = s.host := rfl
@[simp] theorem State.setLeaf_landing (s : State) (f : Entry → Entry) : (s.setLeaf f).landing = s.landing := rfl
@[simp] theorem State.setLeaf_dramStack (s : State) (f : Entry → Entry) : (s.setLeaf f).dramStack = s.dramStack := rfl
@[simp] theorem State.setLeaf_handoff (s : State) (f : Entry → Entry) : (s.setLeaf f).handoff = s.handoff := rfl
@[simp] theorem State.setLeaf_upsetBits (s : State) (f : Entry → Entry) : (s.setLeaf f).upsetBits = s.upsetBits := rfl
@[simp] theorem State.setLeaf_upsetCells (s : State) (f : Entry → Entry) : (s.setLeaf f).upsetCells = s.upsetCells := rfl
@[simp] theorem State.setLeaf_stage2 (s : State) (f : Entry → Entry) : (s.setLeaf f).stage2 = s.stage2 := rfl
@[simp] theorem State.setLeaf_spares (s : State) (f : Entry → Entry) : (s.setLeaf f).spares = s.spares := rfl
@[simp] theorem State.setLeaf_ports (s : State) (f : Entry → Entry) : (s.setLeaf f).ports = s.ports := rfl
@[simp] theorem State.setLeaf_routes (s : State) (f : Entry → Entry) : (s.setLeaf f).routes = s.routes := rfl
@[simp] theorem State.setLeaf_smargin (s : State) (f : Entry → Entry) : (s.setLeaf f).smargin = s.smargin := rfl
@[simp] theorem State.setLeaf_aclk (s : State) (f : Entry → Entry) : (s.setLeaf f).aclk = s.aclk := rfl
@[simp] theorem State.setLeaf_service (s : State) (f : Entry → Entry) : (s.setLeaf f).service = s.service := rfl
@[simp] theorem State.setLeaf_pixels (s : State) (f : Entry → Entry) : (s.setLeaf f).pixels = s.pixels := rfl
@[simp] theorem State.setLeaf_lastPsn (s : State) (f : Entry → Entry) : (s.setLeaf f).lastPsn = s.lastPsn := rfl
@[simp] theorem State.setLeaf_tiles (s : State) (f : Entry → Entry) : (s.setLeaf f).tiles = s.tiles := rfl
@[simp] theorem State.setLeaf_cycle (s : State) (f : Entry → Entry) : (s.setLeaf f).cycle = s.cycle := rfl
@[simp] theorem State.setLeaf_upsets (s : State) (f : Entry → Entry) : (s.setLeaf f).upsets = s.upsets := rfl
@[simp] theorem State.setLeaf_plan (s : State) (f : Entry → Entry) : (s.setLeaf f).plan = s.plan := rfl
@[simp] theorem State.setLeaf_fresh (s : State) (f : Entry → Entry) : (s.setLeaf f).fresh = s.fresh := rfl
/-! ### orFlags -/
@[simp] theorem State.orFlags_others (s : State) (f : Byte) : (s.orFlags f).others = s.others := rfl
@[simp] theorem State.orFlags_w (s : State) (f : Byte) : (s.orFlags f).w = s.w := rfl
@[simp] theorem State.orFlags_otherWgs (s : State) (f : Byte) : (s.orFlags f).otherWgs = s.otherWgs := rfl
@[simp] theorem State.orFlags_cores (s : State) (f : Byte) : (s.orFlags f).cores = s.cores := rfl
@[simp] theorem State.orFlags_mem (s : State) (f : Byte) : (s.orFlags f).mem = s.mem := rfl
@[simp] theorem State.orFlags_tags (s : State) (f : Byte) : (s.orFlags f).tags = s.tags := rfl
@[simp] theorem State.orFlags_pois (s : State) (f : Byte) : (s.orFlags f).pois = s.pois := rfl
@[simp] theorem State.orFlags_recoded (s : State) (f : Byte) : (s.orFlags f).recoded = s.recoded := rfl
@[simp] theorem State.orFlags_keyed (s : State) (f : Byte) : (s.orFlags f).keyed = s.keyed := rfl
@[simp] theorem State.orFlags_keyVer (s : State) (f : Byte) : (s.orFlags f).keyVer = s.keyVer := rfl
@[simp] theorem State.orFlags_keyLoaded (s : State) (f : Byte) : (s.orFlags f).keyLoaded = s.keyLoaded := rfl
@[simp] theorem State.orFlags_l1 (s : State) (f : Byte) : (s.orFlags f).l1 = s.l1 := rfl
@[simp] theorem State.orFlags_l2 (s : State) (f : Byte) : (s.orFlags f).l2 = s.l2 := rfl
@[simp] theorem State.orFlags_rlc (s : State) (f : Byte) : (s.orFlags f).rlc = s.rlc := rfl
@[simp] theorem State.orFlags_icache (s : State) (f : Byte) : (s.orFlags f).icache = s.icache := rfl
@[simp] theorem State.orFlags_tlb (s : State) (f : Byte) : (s.orFlags f).tlb = s.tlb := rfl
@[simp] theorem State.orFlags_copies (s : State) (f : Byte) : (s.orFlags f).copies = s.copies := rfl
@[simp] theorem State.orFlags_nextCopy (s : State) (f : Byte) : (s.orFlags f).nextCopy = s.nextCopy := rfl
@[simp] theorem State.orFlags_basins (s : State) (f : Byte) : (s.orFlags f).basins = s.basins := rfl
@[simp] theorem State.orFlags_tickets (s : State) (f : Byte) : (s.orFlags f).tickets = s.tickets := rfl
@[simp] theorem State.orFlags_past (s : State) (f : Byte) : (s.orFlags f).past = s.past := rfl
@[simp] theorem State.orFlags_silent (s : State) (f : Byte) : (s.orFlags f).silent = s.silent := rfl
@[simp] theorem State.orFlags_launches (s : State) (f : Byte) : (s.orFlags f).launches = s.launches := rfl
@[simp] theorem State.orFlags_queues (s : State) (f : Byte) : (s.orFlags f).queues = s.queues := rfl
@[simp] theorem State.orFlags_ctxs (s : State) (f : Byte) : (s.orFlags f).ctxs = s.ctxs := rfl
@[simp] theorem State.orFlags_parts (s : State) (f : Byte) : (s.orFlags f).parts = s.parts := rfl
@[simp] theorem State.orFlags_mr (s : State) (f : Byte) : (s.orFlags f).mr = s.mr := rfl
@[simp] theorem State.orFlags_versions (s : State) (f : Byte) : (s.orFlags f).versions = s.versions := rfl
@[simp] theorem State.orFlags_host (s : State) (f : Byte) : (s.orFlags f).host = s.host := rfl
@[simp] theorem State.orFlags_landing (s : State) (f : Byte) : (s.orFlags f).landing = s.landing := rfl
@[simp] theorem State.orFlags_dramStack (s : State) (f : Byte) : (s.orFlags f).dramStack = s.dramStack := rfl
@[simp] theorem State.orFlags_handoff (s : State) (f : Byte) : (s.orFlags f).handoff = s.handoff := rfl
@[simp] theorem State.orFlags_upsetBits (s : State) (f : Byte) : (s.orFlags f).upsetBits = s.upsetBits := rfl
@[simp] theorem State.orFlags_upsetCells (s : State) (f : Byte) : (s.orFlags f).upsetCells = s.upsetCells := rfl
@[simp] theorem State.orFlags_stage2 (s : State) (f : Byte) : (s.orFlags f).stage2 = s.stage2 := rfl
@[simp] theorem State.orFlags_spares (s : State) (f : Byte) : (s.orFlags f).spares = s.spares := rfl
@[simp] theorem State.orFlags_ports (s : State) (f : Byte) : (s.orFlags f).ports = s.ports := rfl
@[simp] theorem State.orFlags_routes (s : State) (f : Byte) : (s.orFlags f).routes = s.routes := rfl
@[simp] theorem State.orFlags_smargin (s : State) (f : Byte) : (s.orFlags f).smargin = s.smargin := rfl
@[simp] theorem State.orFlags_aclk (s : State) (f : Byte) : (s.orFlags f).aclk = s.aclk := rfl
@[simp] theorem State.orFlags_service (s : State) (f : Byte) : (s.orFlags f).service = s.service := rfl
@[simp] theorem State.orFlags_pixels (s : State) (f : Byte) : (s.orFlags f).pixels = s.pixels := rfl
@[simp] theorem State.orFlags_lastPsn (s : State) (f : Byte) : (s.orFlags f).lastPsn = s.lastPsn := rfl
@[simp] theorem State.orFlags_tiles (s : State) (f : Byte) : (s.orFlags f).tiles = s.tiles := rfl
@[simp] theorem State.orFlags_cycle (s : State) (f : Byte) : (s.orFlags f).cycle = s.cycle := rfl
@[simp] theorem State.orFlags_upsets (s : State) (f : Byte) : (s.orFlags f).upsets = s.upsets := rfl
@[simp] theorem State.orFlags_plan (s : State) (f : Byte) : (s.orFlags f).plan = s.plan := rfl
@[simp] theorem State.orFlags_fresh (s : State) (f : Byte) : (s.orFlags f).fresh = s.fresh := rfl
/-! ### regrow -/
@[simp] theorem State.regrow_others (s : State) (f : Option (Fin 2)) : (s.regrow f).others = s.others := rfl
@[simp] theorem State.regrow_w (s : State) (f : Option (Fin 2)) : (s.regrow f).w = s.w := rfl
@[simp] theorem State.regrow_otherWgs (s : State) (f : Option (Fin 2)) : (s.regrow f).otherWgs = s.otherWgs := rfl
@[simp] theorem State.regrow_latch (s : State) (f : Option (Fin 2)) : (s.regrow f).latch = s.latch := rfl
@[simp] theorem State.regrow_cores (s : State) (f : Option (Fin 2)) : (s.regrow f).cores = s.cores := rfl
@[simp] theorem State.regrow_mem (s : State) (f : Option (Fin 2)) : (s.regrow f).mem = s.mem := rfl
@[simp] theorem State.regrow_tags (s : State) (f : Option (Fin 2)) : (s.regrow f).tags = s.tags := rfl
@[simp] theorem State.regrow_pois (s : State) (f : Option (Fin 2)) : (s.regrow f).pois = s.pois := rfl
@[simp] theorem State.regrow_recoded (s : State) (f : Option (Fin 2)) : (s.regrow f).recoded = s.recoded := rfl
@[simp] theorem State.regrow_keyed (s : State) (f : Option (Fin 2)) : (s.regrow f).keyed = s.keyed := rfl
@[simp] theorem State.regrow_keyVer (s : State) (f : Option (Fin 2)) : (s.regrow f).keyVer = s.keyVer := rfl
@[simp] theorem State.regrow_keyLoaded (s : State) (f : Option (Fin 2)) : (s.regrow f).keyLoaded = s.keyLoaded := rfl
@[simp] theorem State.regrow_l1 (s : State) (f : Option (Fin 2)) : (s.regrow f).l1 = s.l1 := rfl
@[simp] theorem State.regrow_l2 (s : State) (f : Option (Fin 2)) : (s.regrow f).l2 = s.l2 := rfl
@[simp] theorem State.regrow_rlc (s : State) (f : Option (Fin 2)) : (s.regrow f).rlc = s.rlc := rfl
@[simp] theorem State.regrow_icache (s : State) (f : Option (Fin 2)) : (s.regrow f).icache = s.icache := rfl
@[simp] theorem State.regrow_tlb (s : State) (f : Option (Fin 2)) : (s.regrow f).tlb = s.tlb := rfl
@[simp] theorem State.regrow_copies (s : State) (f : Option (Fin 2)) : (s.regrow f).copies = s.copies := rfl
@[simp] theorem State.regrow_nextCopy (s : State) (f : Option (Fin 2)) : (s.regrow f).nextCopy = s.nextCopy := rfl
@[simp] theorem State.regrow_basins (s : State) (f : Option (Fin 2)) : (s.regrow f).basins = s.basins := rfl
@[simp] theorem State.regrow_tickets (s : State) (f : Option (Fin 2)) : (s.regrow f).tickets = s.tickets := rfl
@[simp] theorem State.regrow_past (s : State) (f : Option (Fin 2)) : (s.regrow f).past = s.past := rfl
@[simp] theorem State.regrow_silent (s : State) (f : Option (Fin 2)) : (s.regrow f).silent = s.silent := rfl
@[simp] theorem State.regrow_launches (s : State) (f : Option (Fin 2)) : (s.regrow f).launches = s.launches := rfl
@[simp] theorem State.regrow_queues (s : State) (f : Option (Fin 2)) : (s.regrow f).queues = s.queues := rfl
@[simp] theorem State.regrow_ctxs (s : State) (f : Option (Fin 2)) : (s.regrow f).ctxs = s.ctxs := rfl
@[simp] theorem State.regrow_parts (s : State) (f : Option (Fin 2)) : (s.regrow f).parts = s.parts := rfl
@[simp] theorem State.regrow_mr (s : State) (f : Option (Fin 2)) : (s.regrow f).mr = s.mr := rfl
@[simp] theorem State.regrow_versions (s : State) (f : Option (Fin 2)) : (s.regrow f).versions = s.versions := rfl
@[simp] theorem State.regrow_host (s : State) (f : Option (Fin 2)) : (s.regrow f).host = s.host := rfl
@[simp] theorem State.regrow_landing (s : State) (f : Option (Fin 2)) : (s.regrow f).landing = s.landing := rfl
@[simp] theorem State.regrow_dramStack (s : State) (f : Option (Fin 2)) : (s.regrow f).dramStack = s.dramStack := rfl
@[simp] theorem State.regrow_handoff (s : State) (f : Option (Fin 2)) : (s.regrow f).handoff = s.handoff := rfl
@[simp] theorem State.regrow_upsetBits (s : State) (f : Option (Fin 2)) : (s.regrow f).upsetBits = s.upsetBits := rfl
@[simp] theorem State.regrow_upsetCells (s : State) (f : Option (Fin 2)) : (s.regrow f).upsetCells = s.upsetCells := rfl
@[simp] theorem State.regrow_stage2 (s : State) (f : Option (Fin 2)) : (s.regrow f).stage2 = s.stage2 := rfl
@[simp] theorem State.regrow_spares (s : State) (f : Option (Fin 2)) : (s.regrow f).spares = s.spares := rfl
@[simp] theorem State.regrow_ports (s : State) (f : Option (Fin 2)) : (s.regrow f).ports = s.ports := rfl
@[simp] theorem State.regrow_routes (s : State) (f : Option (Fin 2)) : (s.regrow f).routes = s.routes := rfl
@[simp] theorem State.regrow_smargin (s : State) (f : Option (Fin 2)) : (s.regrow f).smargin = s.smargin := rfl
@[simp] theorem State.regrow_aclk (s : State) (f : Option (Fin 2)) : (s.regrow f).aclk = s.aclk := rfl
@[simp] theorem State.regrow_service (s : State) (f : Option (Fin 2)) : (s.regrow f).service = s.service := rfl
@[simp] theorem State.regrow_pixels (s : State) (f : Option (Fin 2)) : (s.regrow f).pixels = s.pixels := rfl
@[simp] theorem State.regrow_lastPsn (s : State) (f : Option (Fin 2)) : (s.regrow f).lastPsn = s.lastPsn := rfl
@[simp] theorem State.regrow_tiles (s : State) (f : Option (Fin 2)) : (s.regrow f).tiles = s.tiles := rfl
@[simp] theorem State.regrow_cycle (s : State) (f : Option (Fin 2)) : (s.regrow f).cycle = s.cycle := rfl
@[simp] theorem State.regrow_upsets (s : State) (f : Option (Fin 2)) : (s.regrow f).upsets = s.upsets := rfl
@[simp] theorem State.regrow_plan (s : State) (f : Option (Fin 2)) : (s.regrow f).plan = s.plan := rfl
@[simp] theorem State.regrow_fresh (s : State) (f : Option (Fin 2)) : (s.regrow f).fresh = s.fresh := rfl
/-! ### wake -/
@[simp] theorem State.wake_w (s : State) : (s.wake).w = s.w := rfl
@[simp] theorem State.wake_otherWgs (s : State) : (s.wake).otherWgs = s.otherWgs := rfl
@[simp] theorem State.wake_latch (s : State) : (s.wake).latch = s.latch := rfl
@[simp] theorem State.wake_cores (s : State) : (s.wake).cores = s.cores := rfl
@[simp] theorem State.wake_mem (s : State) : (s.wake).mem = s.mem := rfl
@[simp] theorem State.wake_tags (s : State) : (s.wake).tags = s.tags := rfl
@[simp] theorem State.wake_pois (s : State) : (s.wake).pois = s.pois := rfl
@[simp] theorem State.wake_recoded (s : State) : (s.wake).recoded = s.recoded := rfl
@[simp] theorem State.wake_keyed (s : State) : (s.wake).keyed = s.keyed := rfl
@[simp] theorem State.wake_keyVer (s : State) : (s.wake).keyVer = s.keyVer := rfl
@[simp] theorem State.wake_keyLoaded (s : State) : (s.wake).keyLoaded = s.keyLoaded := rfl
@[simp] theorem State.wake_l1 (s : State) : (s.wake).l1 = s.l1 := rfl
@[simp] theorem State.wake_l2 (s : State) : (s.wake).l2 = s.l2 := rfl
@[simp] theorem State.wake_rlc (s : State) : (s.wake).rlc = s.rlc := rfl
@[simp] theorem State.wake_icache (s : State) : (s.wake).icache = s.icache := rfl
@[simp] theorem State.wake_tlb (s : State) : (s.wake).tlb = s.tlb := rfl
@[simp] theorem State.wake_copies (s : State) : (s.wake).copies = s.copies := rfl
@[simp] theorem State.wake_nextCopy (s : State) : (s.wake).nextCopy = s.nextCopy := rfl
@[simp] theorem State.wake_basins (s : State) : (s.wake).basins = s.basins := rfl
@[simp] theorem State.wake_tickets (s : State) : (s.wake).tickets = s.tickets := rfl
@[simp] theorem State.wake_past (s : State) : (s.wake).past = s.past := rfl
@[simp] theorem State.wake_silent (s : State) : (s.wake).silent = s.silent := rfl
@[simp] theorem State.wake_launches (s : State) : (s.wake).launches = s.launches := rfl
@[simp] theorem State.wake_queues (s : State) : (s.wake).queues = s.queues := rfl
@[simp] theorem State.wake_ctxs (s : State) : (s.wake).ctxs = s.ctxs := rfl
@[simp] theorem State.wake_parts (s : State) : (s.wake).parts = s.parts := rfl
@[simp] theorem State.wake_mr (s : State) : (s.wake).mr = s.mr := rfl
@[simp] theorem State.wake_versions (s : State) : (s.wake).versions = s.versions := rfl
@[simp] theorem State.wake_host (s : State) : (s.wake).host = s.host := rfl
@[simp] theorem State.wake_landing (s : State) : (s.wake).landing = s.landing := rfl
@[simp] theorem State.wake_dramStack (s : State) : (s.wake).dramStack = s.dramStack := rfl
@[simp] theorem State.wake_handoff (s : State) : (s.wake).handoff = s.handoff := rfl
@[simp] theorem State.wake_upsetBits (s : State) : (s.wake).upsetBits = s.upsetBits := rfl
@[simp] theorem State.wake_upsetCells (s : State) : (s.wake).upsetCells = s.upsetCells := rfl
@[simp] theorem State.wake_stage2 (s : State) : (s.wake).stage2 = s.stage2 := rfl
@[simp] theorem State.wake_spares (s : State) : (s.wake).spares = s.spares := rfl
@[simp] theorem State.wake_ports (s : State) : (s.wake).ports = s.ports := rfl
@[simp] theorem State.wake_routes (s : State) : (s.wake).routes = s.routes := rfl
@[simp] theorem State.wake_smargin (s : State) : (s.wake).smargin = s.smargin := rfl
@[simp] theorem State.wake_aclk (s : State) : (s.wake).aclk = s.aclk := rfl
@[simp] theorem State.wake_service (s : State) : (s.wake).service = s.service := rfl
@[simp] theorem State.wake_pixels (s : State) : (s.wake).pixels = s.pixels := rfl
@[simp] theorem State.wake_lastPsn (s : State) : (s.wake).lastPsn = s.lastPsn := rfl
@[simp] theorem State.wake_tiles (s : State) : (s.wake).tiles = s.tiles := rfl
@[simp] theorem State.wake_cycle (s : State) : (s.wake).cycle = s.cycle := rfl
@[simp] theorem State.wake_upsets (s : State) : (s.wake).upsets = s.upsets := rfl
@[simp] theorem State.wake_plan (s : State) : (s.wake).plan = s.plan := rfl
@[simp] theorem State.wake_fresh (s : State) : (s.wake).fresh = s.fresh := rfl
/-! ### tick -/
@[simp] theorem State.tick_g (s : State) : (s.tick).g = s.g := rfl
@[simp] theorem State.tick_others (s : State) : (s.tick).others = s.others := rfl
@[simp] theorem State.tick_w (s : State) : (s.tick).w = s.w := rfl
@[simp] theorem State.tick_otherWgs (s : State) : (s.tick).otherWgs = s.otherWgs := rfl
@[simp] theorem State.tick_latch (s : State) : (s.tick).latch = s.latch := rfl
@[simp] theorem State.tick_cores (s : State) : (s.tick).cores = s.cores := rfl
@[simp] theorem State.tick_mem (s : State) : (s.tick).mem = s.mem := rfl
@[simp] theorem State.tick_tags (s : State) : (s.tick).tags = s.tags := rfl
@[simp] theorem State.tick_pois (s : State) : (s.tick).pois = s.pois := rfl
@[simp] theorem State.tick_recoded (s : State) : (s.tick).recoded = s.recoded := rfl
@[simp] theorem State.tick_keyed (s : State) : (s.tick).keyed = s.keyed := rfl
@[simp] theorem State.tick_keyVer (s : State) : (s.tick).keyVer = s.keyVer := rfl
@[simp] theorem State.tick_keyLoaded (s : State) : (s.tick).keyLoaded = s.keyLoaded := rfl
@[simp] theorem State.tick_l1 (s : State) : (s.tick).l1 = s.l1 := rfl
@[simp] theorem State.tick_l2 (s : State) : (s.tick).l2 = s.l2 := rfl
@[simp] theorem State.tick_rlc (s : State) : (s.tick).rlc = s.rlc := rfl
@[simp] theorem State.tick_icache (s : State) : (s.tick).icache = s.icache := rfl
@[simp] theorem State.tick_tlb (s : State) : (s.tick).tlb = s.tlb := rfl
@[simp] theorem State.tick_copies (s : State) : (s.tick).copies = s.copies := rfl
@[simp] theorem State.tick_nextCopy (s : State) : (s.tick).nextCopy = s.nextCopy := rfl
@[simp] theorem State.tick_basins (s : State) : (s.tick).basins = s.basins := rfl
@[simp] theorem State.tick_tickets (s : State) : (s.tick).tickets = s.tickets := rfl
@[simp] theorem State.tick_past (s : State) : (s.tick).past = s.past := rfl
@[simp] theorem State.tick_silent (s : State) : (s.tick).silent = s.silent := rfl
@[simp] theorem State.tick_launches (s : State) : (s.tick).launches = s.launches := rfl
@[simp] theorem State.tick_queues (s : State) : (s.tick).queues = s.queues := rfl
@[simp] theorem State.tick_ctxs (s : State) : (s.tick).ctxs = s.ctxs := rfl
@[simp] theorem State.tick_parts (s : State) : (s.tick).parts = s.parts := rfl
@[simp] theorem State.tick_mr (s : State) : (s.tick).mr = s.mr := rfl
@[simp] theorem State.tick_versions (s : State) : (s.tick).versions = s.versions := rfl
@[simp] theorem State.tick_host (s : State) : (s.tick).host = s.host := rfl
@[simp] theorem State.tick_landing (s : State) : (s.tick).landing = s.landing := rfl
@[simp] theorem State.tick_dramStack (s : State) : (s.tick).dramStack = s.dramStack := rfl
@[simp] theorem State.tick_handoff (s : State) : (s.tick).handoff = s.handoff := rfl
@[simp] theorem State.tick_upsetBits (s : State) : (s.tick).upsetBits = s.upsetBits := rfl
@[simp] theorem State.tick_upsetCells (s : State) : (s.tick).upsetCells = s.upsetCells := rfl
@[simp] theorem State.tick_stage2 (s : State) : (s.tick).stage2 = s.stage2 := rfl
@[simp] theorem State.tick_spares (s : State) : (s.tick).spares = s.spares := rfl
@[simp] theorem State.tick_ports (s : State) : (s.tick).ports = s.ports := rfl
@[simp] theorem State.tick_routes (s : State) : (s.tick).routes = s.routes := rfl
@[simp] theorem State.tick_smargin (s : State) : (s.tick).smargin = s.smargin := rfl
@[simp] theorem State.tick_aclk (s : State) : (s.tick).aclk = s.aclk := rfl
@[simp] theorem State.tick_service (s : State) : (s.tick).service = s.service := rfl
@[simp] theorem State.tick_pixels (s : State) : (s.tick).pixels = s.pixels := rfl
@[simp] theorem State.tick_lastPsn (s : State) : (s.tick).lastPsn = s.lastPsn := rfl
@[simp] theorem State.tick_tiles (s : State) : (s.tick).tiles = s.tiles := rfl
@[simp] theorem State.tick_cycle (s : State) : (s.tick).cycle = s.cycle := rfl
@[simp] theorem State.tick_upsets (s : State) : (s.tick).upsets = s.upsets := rfl
@[simp] theorem State.tick_plan (s : State) : (s.tick).plan = s.plan := rfl
@[simp] theorem State.tick_fresh (s : State) : (s.tick).fresh = s.fresh + 1 := rfl
/-! ### updLaunch -/
@[simp] theorem State.updLaunch_g (s : State) (n : Nat) (f : Launch → Launch) : (s.updLaunch n f).g = s.g := rfl
@[simp] theorem State.updLaunch_others (s : State) (n : Nat) (f : Launch → Launch) : (s.updLaunch n f).others = s.others := rfl
@[simp] theorem State.updLaunch_w (s : State) (n : Nat) (f : Launch → Launch) : (s.updLaunch n f).w = s.w := rfl
@[simp] theorem State.updLaunch_otherWgs (s : State) (n : Nat) (f : Launch → Launch) : (s.updLaunch n f).otherWgs = s.otherWgs := rfl
@[simp] theorem State.updLaunch_latch (s : State) (n : Nat) (f : Launch → Launch) : (s.updLaunch n f).latch = s.latch := rfl
@[simp] theorem State.updLaunch_cores (s : State) (n : Nat) (f : Launch → Launch) : (s.updLaunch n f).cores = s.cores := rfl
@[simp] theorem State.updLaunch_mem (s : State) (n : Nat) (f : Launch → Launch) : (s.updLaunch n f).mem = s.mem := rfl
@[simp] theorem State.updLaunch_tags (s : State) (n : Nat) (f : Launch → Launch) : (s.updLaunch n f).tags = s.tags := rfl
@[simp] theorem State.updLaunch_pois (s : State) (n : Nat) (f : Launch → Launch) : (s.updLaunch n f).pois = s.pois := rfl
@[simp] theorem State.updLaunch_recoded (s : State) (n : Nat) (f : Launch → Launch) : (s.updLaunch n f).recoded = s.recoded := rfl
@[simp] theorem State.updLaunch_keyed (s : State) (n : Nat) (f : Launch → Launch) : (s.updLaunch n f).keyed = s.keyed := rfl
@[simp] theorem State.updLaunch_keyVer (s : State) (n : Nat) (f : Launch → Launch) : (s.updLaunch n f).keyVer = s.keyVer := rfl
@[simp] theorem State.updLaunch_keyLoaded (s : State) (n : Nat) (f : Launch → Launch) : (s.updLaunch n f).keyLoaded = s.keyLoaded := rfl
@[simp] theorem State.updLaunch_l1 (s : State) (n : Nat) (f : Launch → Launch) : (s.updLaunch n f).l1 = s.l1 := rfl
@[simp] theorem State.updLaunch_l2 (s : State) (n : Nat) (f : Launch → Launch) : (s.updLaunch n f).l2 = s.l2 := rfl
@[simp] theorem State.updLaunch_rlc (s : State) (n : Nat) (f : Launch → Launch) : (s.updLaunch n f).rlc = s.rlc := rfl
@[simp] theorem State.updLaunch_icache (s : State) (n : Nat) (f : Launch → Launch) : (s.updLaunch n f).icache = s.icache := rfl
@[simp] theorem State.updLaunch_tlb (s : State) (n : Nat) (f : Launch → Launch) : (s.updLaunch n f).tlb = s.tlb := rfl
@[simp] theorem State.updLaunch_copies (s : State) (n : Nat) (f : Launch → Launch) : (s.updLaunch n f).copies = s.copies := rfl
@[simp] theorem State.updLaunch_nextCopy (s : State) (n : Nat) (f : Launch → Launch) : (s.updLaunch n f).nextCopy = s.nextCopy := rfl
@[simp] theorem State.updLaunch_basins (s : State) (n : Nat) (f : Launch → Launch) : (s.updLaunch n f).basins = s.basins := rfl
@[simp] theorem State.updLaunch_tickets (s : State) (n : Nat) (f : Launch → Launch) : (s.updLaunch n f).tickets = s.tickets := rfl
@[simp] theorem State.updLaunch_past (s : State) (n : Nat) (f : Launch → Launch) : (s.updLaunch n f).past = s.past := rfl
@[simp] theorem State.updLaunch_silent (s : State) (n : Nat) (f : Launch → Launch) : (s.updLaunch n f).silent = s.silent := rfl
@[simp] theorem State.updLaunch_queues (s : State) (n : Nat) (f : Launch → Launch) : (s.updLaunch n f).queues = s.queues := rfl
@[simp] theorem State.updLaunch_ctxs (s : State) (n : Nat) (f : Launch → Launch) : (s.updLaunch n f).ctxs = s.ctxs := rfl
@[simp] theorem State.updLaunch_parts (s : State) (n : Nat) (f : Launch → Launch) : (s.updLaunch n f).parts = s.parts := rfl
@[simp] theorem State.updLaunch_mr (s : State) (n : Nat) (f : Launch → Launch) : (s.updLaunch n f).mr = s.mr := rfl
@[simp] theorem State.updLaunch_versions (s : State) (n : Nat) (f : Launch → Launch) : (s.updLaunch n f).versions = s.versions := rfl
@[simp] theorem State.updLaunch_host (s : State) (n : Nat) (f : Launch → Launch) : (s.updLaunch n f).host = s.host := rfl
@[simp] theorem State.updLaunch_landing (s : State) (n : Nat) (f : Launch → Launch) : (s.updLaunch n f).landing = s.landing := rfl
@[simp] theorem State.updLaunch_dramStack (s : State) (n : Nat) (f : Launch → Launch) : (s.updLaunch n f).dramStack = s.dramStack := rfl
@[simp] theorem State.updLaunch_handoff (s : State) (n : Nat) (f : Launch → Launch) : (s.updLaunch n f).handoff = s.handoff := rfl
@[simp] theorem State.updLaunch_upsetBits (s : State) (n : Nat) (f : Launch → Launch) : (s.updLaunch n f).upsetBits = s.upsetBits := rfl
@[simp] theorem State.updLaunch_upsetCells (s : State) (n : Nat) (f : Launch → Launch) : (s.updLaunch n f).upsetCells = s.upsetCells := rfl
@[simp] theorem State.updLaunch_stage2 (s : State) (n : Nat) (f : Launch → Launch) : (s.updLaunch n f).stage2 = s.stage2 := rfl
@[simp] theorem State.updLaunch_spares (s : State) (n : Nat) (f : Launch → Launch) : (s.updLaunch n f).spares = s.spares := rfl
@[simp] theorem State.updLaunch_ports (s : State) (n : Nat) (f : Launch → Launch) : (s.updLaunch n f).ports = s.ports := rfl
@[simp] theorem State.updLaunch_routes (s : State) (n : Nat) (f : Launch → Launch) : (s.updLaunch n f).routes = s.routes := rfl
@[simp] theorem State.updLaunch_smargin (s : State) (n : Nat) (f : Launch → Launch) : (s.updLaunch n f).smargin = s.smargin := rfl
@[simp] theorem State.updLaunch_aclk (s : State) (n : Nat) (f : Launch → Launch) : (s.updLaunch n f).aclk = s.aclk := rfl
@[simp] theorem State.updLaunch_service (s : State) (n : Nat) (f : Launch → Launch) : (s.updLaunch n f).service = s.service := rfl
@[simp] theorem State.updLaunch_pixels (s : State) (n : Nat) (f : Launch → Launch) : (s.updLaunch n f).pixels = s.pixels := rfl
@[simp] theorem State.updLaunch_lastPsn (s : State) (n : Nat) (f : Launch → Launch) : (s.updLaunch n f).lastPsn = s.lastPsn := rfl
@[simp] theorem State.updLaunch_tiles (s : State) (n : Nat) (f : Launch → Launch) : (s.updLaunch n f).tiles = s.tiles := rfl
@[simp] theorem State.updLaunch_cycle (s : State) (n : Nat) (f : Launch → Launch) : (s.updLaunch n f).cycle = s.cycle := rfl
@[simp] theorem State.updLaunch_upsets (s : State) (n : Nat) (f : Launch → Launch) : (s.updLaunch n f).upsets = s.upsets := rfl
@[simp] theorem State.updLaunch_plan (s : State) (n : Nat) (f : Launch → Launch) : (s.updLaunch n f).plan = s.plan := rfl
@[simp] theorem State.updLaunch_fresh (s : State) (n : Nat) (f : Launch → Launch) : (s.updLaunch n f).fresh = s.fresh := rfl
/-! ### updCtx -/
@[simp] theorem State.updCtx_g (s : State) (n : Nat) (f : Ctx → Ctx) : (s.updCtx n f).g = s.g := rfl
@[simp] theorem State.updCtx_others (s : State) (n : Nat) (f : Ctx → Ctx) : (s.updCtx n f).others = s.others := rfl
@[simp] theorem State.updCtx_w (s : State) (n : Nat) (f : Ctx → Ctx) : (s.updCtx n f).w = s.w := rfl
@[simp] theorem State.updCtx_otherWgs (s : State) (n : Nat) (f : Ctx → Ctx) : (s.updCtx n f).otherWgs = s.otherWgs := rfl
@[simp] theorem State.updCtx_latch (s : State) (n : Nat) (f : Ctx → Ctx) : (s.updCtx n f).latch = s.latch := rfl
@[simp] theorem State.updCtx_cores (s : State) (n : Nat) (f : Ctx → Ctx) : (s.updCtx n f).cores = s.cores := rfl
@[simp] theorem State.updCtx_mem (s : State) (n : Nat) (f : Ctx → Ctx) : (s.updCtx n f).mem = s.mem := rfl
@[simp] theorem State.updCtx_tags (s : State) (n : Nat) (f : Ctx → Ctx) : (s.updCtx n f).tags = s.tags := rfl
@[simp] theorem State.updCtx_pois (s : State) (n : Nat) (f : Ctx → Ctx) : (s.updCtx n f).pois = s.pois := rfl
@[simp] theorem State.updCtx_recoded (s : State) (n : Nat) (f : Ctx → Ctx) : (s.updCtx n f).recoded = s.recoded := rfl
@[simp] theorem State.updCtx_keyed (s : State) (n : Nat) (f : Ctx → Ctx) : (s.updCtx n f).keyed = s.keyed := rfl
@[simp] theorem State.updCtx_keyVer (s : State) (n : Nat) (f : Ctx → Ctx) : (s.updCtx n f).keyVer = s.keyVer := rfl
@[simp] theorem State.updCtx_keyLoaded (s : State) (n : Nat) (f : Ctx → Ctx) : (s.updCtx n f).keyLoaded = s.keyLoaded := rfl
@[simp] theorem State.updCtx_l1 (s : State) (n : Nat) (f : Ctx → Ctx) : (s.updCtx n f).l1 = s.l1 := rfl
@[simp] theorem State.updCtx_l2 (s : State) (n : Nat) (f : Ctx → Ctx) : (s.updCtx n f).l2 = s.l2 := rfl
@[simp] theorem State.updCtx_rlc (s : State) (n : Nat) (f : Ctx → Ctx) : (s.updCtx n f).rlc = s.rlc := rfl
@[simp] theorem State.updCtx_icache (s : State) (n : Nat) (f : Ctx → Ctx) : (s.updCtx n f).icache = s.icache := rfl
@[simp] theorem State.updCtx_tlb (s : State) (n : Nat) (f : Ctx → Ctx) : (s.updCtx n f).tlb = s.tlb := rfl
@[simp] theorem State.updCtx_copies (s : State) (n : Nat) (f : Ctx → Ctx) : (s.updCtx n f).copies = s.copies := rfl
@[simp] theorem State.updCtx_nextCopy (s : State) (n : Nat) (f : Ctx → Ctx) : (s.updCtx n f).nextCopy = s.nextCopy := rfl
@[simp] theorem State.updCtx_basins (s : State) (n : Nat) (f : Ctx → Ctx) : (s.updCtx n f).basins = s.basins := rfl
@[simp] theorem State.updCtx_tickets (s : State) (n : Nat) (f : Ctx → Ctx) : (s.updCtx n f).tickets = s.tickets := rfl
@[simp] theorem State.updCtx_past (s : State) (n : Nat) (f : Ctx → Ctx) : (s.updCtx n f).past = s.past := rfl
@[simp] theorem State.updCtx_silent (s : State) (n : Nat) (f : Ctx → Ctx) : (s.updCtx n f).silent = s.silent := rfl
@[simp] theorem State.updCtx_launches (s : State) (n : Nat) (f : Ctx → Ctx) : (s.updCtx n f).launches = s.launches := rfl
@[simp] theorem State.updCtx_queues (s : State) (n : Nat) (f : Ctx → Ctx) : (s.updCtx n f).queues = s.queues := rfl
@[simp] theorem State.updCtx_parts (s : State) (n : Nat) (f : Ctx → Ctx) : (s.updCtx n f).parts = s.parts := rfl
@[simp] theorem State.updCtx_mr (s : State) (n : Nat) (f : Ctx → Ctx) : (s.updCtx n f).mr = s.mr := rfl
@[simp] theorem State.updCtx_versions (s : State) (n : Nat) (f : Ctx → Ctx) : (s.updCtx n f).versions = s.versions := rfl
@[simp] theorem State.updCtx_host (s : State) (n : Nat) (f : Ctx → Ctx) : (s.updCtx n f).host = s.host := rfl
@[simp] theorem State.updCtx_landing (s : State) (n : Nat) (f : Ctx → Ctx) : (s.updCtx n f).landing = s.landing := rfl
@[simp] theorem State.updCtx_dramStack (s : State) (n : Nat) (f : Ctx → Ctx) : (s.updCtx n f).dramStack = s.dramStack := rfl
@[simp] theorem State.updCtx_handoff (s : State) (n : Nat) (f : Ctx → Ctx) : (s.updCtx n f).handoff = s.handoff := rfl
@[simp] theorem State.updCtx_upsetBits (s : State) (n : Nat) (f : Ctx → Ctx) : (s.updCtx n f).upsetBits = s.upsetBits := rfl
@[simp] theorem State.updCtx_upsetCells (s : State) (n : Nat) (f : Ctx → Ctx) : (s.updCtx n f).upsetCells = s.upsetCells := rfl
@[simp] theorem State.updCtx_stage2 (s : State) (n : Nat) (f : Ctx → Ctx) : (s.updCtx n f).stage2 = s.stage2 := rfl
@[simp] theorem State.updCtx_spares (s : State) (n : Nat) (f : Ctx → Ctx) : (s.updCtx n f).spares = s.spares := rfl
@[simp] theorem State.updCtx_ports (s : State) (n : Nat) (f : Ctx → Ctx) : (s.updCtx n f).ports = s.ports := rfl
@[simp] theorem State.updCtx_routes (s : State) (n : Nat) (f : Ctx → Ctx) : (s.updCtx n f).routes = s.routes := rfl
@[simp] theorem State.updCtx_smargin (s : State) (n : Nat) (f : Ctx → Ctx) : (s.updCtx n f).smargin = s.smargin := rfl
@[simp] theorem State.updCtx_aclk (s : State) (n : Nat) (f : Ctx → Ctx) : (s.updCtx n f).aclk = s.aclk := rfl
@[simp] theorem State.updCtx_service (s : State) (n : Nat) (f : Ctx → Ctx) : (s.updCtx n f).service = s.service := rfl
@[simp] theorem State.updCtx_pixels (s : State) (n : Nat) (f : Ctx → Ctx) : (s.updCtx n f).pixels = s.pixels := rfl
@[simp] theorem State.updCtx_lastPsn (s : State) (n : Nat) (f : Ctx → Ctx) : (s.updCtx n f).lastPsn = s.lastPsn := rfl
@[simp] theorem State.updCtx_tiles (s : State) (n : Nat) (f : Ctx → Ctx) : (s.updCtx n f).tiles = s.tiles := rfl
@[simp] theorem State.updCtx_cycle (s : State) (n : Nat) (f : Ctx → Ctx) : (s.updCtx n f).cycle = s.cycle := rfl
@[simp] theorem State.updCtx_upsets (s : State) (n : Nat) (f : Ctx → Ctx) : (s.updCtx n f).upsets = s.upsets := rfl
@[simp] theorem State.updCtx_plan (s : State) (n : Nat) (f : Ctx → Ctx) : (s.updCtx n f).plan = s.plan := rfl
@[simp] theorem State.updCtx_fresh (s : State) (n : Nat) (f : Ctx → Ctx) : (s.updCtx n f).fresh = s.fresh := rfl
/-! ### updGroup -/
@[simp] theorem State.updGroup_w (s : State) (n : Nat) (f : Group → Group) : (s.updGroup n f).w = s.w := rfl
@[simp] theorem State.updGroup_otherWgs (s : State) (n : Nat) (f : Group → Group) : (s.updGroup n f).otherWgs = s.otherWgs := rfl
@[simp] theorem State.updGroup_latch (s : State) (n : Nat) (f : Group → Group) : (s.updGroup n f).latch = s.latch := rfl
@[simp] theorem State.updGroup_cores (s : State) (n : Nat) (f : Group → Group) : (s.updGroup n f).cores = s.cores := rfl
@[simp] theorem State.updGroup_mem (s : State) (n : Nat) (f : Group → Group) : (s.updGroup n f).mem = s.mem := rfl
@[simp] theorem State.updGroup_tags (s : State) (n : Nat) (f : Group → Group) : (s.updGroup n f).tags = s.tags := rfl
@[simp] theorem State.updGroup_pois (s : State) (n : Nat) (f : Group → Group) : (s.updGroup n f).pois = s.pois := rfl
@[simp] theorem State.updGroup_recoded (s : State) (n : Nat) (f : Group → Group) : (s.updGroup n f).recoded = s.recoded := rfl
@[simp] theorem State.updGroup_keyed (s : State) (n : Nat) (f : Group → Group) : (s.updGroup n f).keyed = s.keyed := rfl
@[simp] theorem State.updGroup_keyVer (s : State) (n : Nat) (f : Group → Group) : (s.updGroup n f).keyVer = s.keyVer := rfl
@[simp] theorem State.updGroup_keyLoaded (s : State) (n : Nat) (f : Group → Group) : (s.updGroup n f).keyLoaded = s.keyLoaded := rfl
@[simp] theorem State.updGroup_l1 (s : State) (n : Nat) (f : Group → Group) : (s.updGroup n f).l1 = s.l1 := rfl
@[simp] theorem State.updGroup_l2 (s : State) (n : Nat) (f : Group → Group) : (s.updGroup n f).l2 = s.l2 := rfl
@[simp] theorem State.updGroup_rlc (s : State) (n : Nat) (f : Group → Group) : (s.updGroup n f).rlc = s.rlc := rfl
@[simp] theorem State.updGroup_icache (s : State) (n : Nat) (f : Group → Group) : (s.updGroup n f).icache = s.icache := rfl
@[simp] theorem State.updGroup_tlb (s : State) (n : Nat) (f : Group → Group) : (s.updGroup n f).tlb = s.tlb := rfl
@[simp] theorem State.updGroup_copies (s : State) (n : Nat) (f : Group → Group) : (s.updGroup n f).copies = s.copies := rfl
@[simp] theorem State.updGroup_nextCopy (s : State) (n : Nat) (f : Group → Group) : (s.updGroup n f).nextCopy = s.nextCopy := rfl
@[simp] theorem State.updGroup_basins (s : State) (n : Nat) (f : Group → Group) : (s.updGroup n f).basins = s.basins := rfl
@[simp] theorem State.updGroup_tickets (s : State) (n : Nat) (f : Group → Group) : (s.updGroup n f).tickets = s.tickets := rfl
@[simp] theorem State.updGroup_past (s : State) (n : Nat) (f : Group → Group) : (s.updGroup n f).past = s.past := rfl
@[simp] theorem State.updGroup_silent (s : State) (n : Nat) (f : Group → Group) : (s.updGroup n f).silent = s.silent := rfl
@[simp] theorem State.updGroup_launches (s : State) (n : Nat) (f : Group → Group) : (s.updGroup n f).launches = s.launches := rfl
@[simp] theorem State.updGroup_queues (s : State) (n : Nat) (f : Group → Group) : (s.updGroup n f).queues = s.queues := rfl
@[simp] theorem State.updGroup_ctxs (s : State) (n : Nat) (f : Group → Group) : (s.updGroup n f).ctxs = s.ctxs := rfl
@[simp] theorem State.updGroup_parts (s : State) (n : Nat) (f : Group → Group) : (s.updGroup n f).parts = s.parts := rfl
@[simp] theorem State.updGroup_mr (s : State) (n : Nat) (f : Group → Group) : (s.updGroup n f).mr = s.mr := rfl
@[simp] theorem State.updGroup_versions (s : State) (n : Nat) (f : Group → Group) : (s.updGroup n f).versions = s.versions := rfl
@[simp] theorem State.updGroup_host (s : State) (n : Nat) (f : Group → Group) : (s.updGroup n f).host = s.host := rfl
@[simp] theorem State.updGroup_landing (s : State) (n : Nat) (f : Group → Group) : (s.updGroup n f).landing = s.landing := rfl
@[simp] theorem State.updGroup_dramStack (s : State) (n : Nat) (f : Group → Group) : (s.updGroup n f).dramStack = s.dramStack := rfl
@[simp] theorem State.updGroup_handoff (s : State) (n : Nat) (f : Group → Group) : (s.updGroup n f).handoff = s.handoff := rfl
@[simp] theorem State.updGroup_upsetBits (s : State) (n : Nat) (f : Group → Group) : (s.updGroup n f).upsetBits = s.upsetBits := rfl
@[simp] theorem State.updGroup_upsetCells (s : State) (n : Nat) (f : Group → Group) : (s.updGroup n f).upsetCells = s.upsetCells := rfl
@[simp] theorem State.updGroup_stage2 (s : State) (n : Nat) (f : Group → Group) : (s.updGroup n f).stage2 = s.stage2 := rfl
@[simp] theorem State.updGroup_spares (s : State) (n : Nat) (f : Group → Group) : (s.updGroup n f).spares = s.spares := rfl
@[simp] theorem State.updGroup_ports (s : State) (n : Nat) (f : Group → Group) : (s.updGroup n f).ports = s.ports := rfl
@[simp] theorem State.updGroup_routes (s : State) (n : Nat) (f : Group → Group) : (s.updGroup n f).routes = s.routes := rfl
@[simp] theorem State.updGroup_smargin (s : State) (n : Nat) (f : Group → Group) : (s.updGroup n f).smargin = s.smargin := rfl
@[simp] theorem State.updGroup_aclk (s : State) (n : Nat) (f : Group → Group) : (s.updGroup n f).aclk = s.aclk := rfl
@[simp] theorem State.updGroup_service (s : State) (n : Nat) (f : Group → Group) : (s.updGroup n f).service = s.service := rfl
@[simp] theorem State.updGroup_pixels (s : State) (n : Nat) (f : Group → Group) : (s.updGroup n f).pixels = s.pixels := rfl
@[simp] theorem State.updGroup_lastPsn (s : State) (n : Nat) (f : Group → Group) : (s.updGroup n f).lastPsn = s.lastPsn := rfl
@[simp] theorem State.updGroup_tiles (s : State) (n : Nat) (f : Group → Group) : (s.updGroup n f).tiles = s.tiles := rfl
@[simp] theorem State.updGroup_cycle (s : State) (n : Nat) (f : Group → Group) : (s.updGroup n f).cycle = s.cycle := rfl
@[simp] theorem State.updGroup_upsets (s : State) (n : Nat) (f : Group → Group) : (s.updGroup n f).upsets = s.upsets := rfl
@[simp] theorem State.updGroup_plan (s : State) (n : Nat) (f : Group → Group) : (s.updGroup n f).plan = s.plan := rfl
@[simp] theorem State.updGroup_fresh (s : State) (n : Nat) (f : Group → Group) : (s.updGroup n f).fresh = s.fresh := rfl
/-! ### updWg -/
@[simp] theorem State.updWg_g (s : State) (n : Nat) (f : Workgroup → Workgroup) : (s.updWg n f).g = s.g := rfl
@[simp] theorem State.updWg_others (s : State) (n : Nat) (f : Workgroup → Workgroup) : (s.updWg n f).others = s.others := rfl
@[simp] theorem State.updWg_latch (s : State) (n : Nat) (f : Workgroup → Workgroup) : (s.updWg n f).latch = s.latch := rfl
@[simp] theorem State.updWg_cores (s : State) (n : Nat) (f : Workgroup → Workgroup) : (s.updWg n f).cores = s.cores := rfl
@[simp] theorem State.updWg_mem (s : State) (n : Nat) (f : Workgroup → Workgroup) : (s.updWg n f).mem = s.mem := rfl
@[simp] theorem State.updWg_tags (s : State) (n : Nat) (f : Workgroup → Workgroup) : (s.updWg n f).tags = s.tags := rfl
@[simp] theorem State.updWg_pois (s : State) (n : Nat) (f : Workgroup → Workgroup) : (s.updWg n f).pois = s.pois := rfl
@[simp] theorem State.updWg_recoded (s : State) (n : Nat) (f : Workgroup → Workgroup) : (s.updWg n f).recoded = s.recoded := rfl
@[simp] theorem State.updWg_keyed (s : State) (n : Nat) (f : Workgroup → Workgroup) : (s.updWg n f).keyed = s.keyed := rfl
@[simp] theorem State.updWg_keyVer (s : State) (n : Nat) (f : Workgroup → Workgroup) : (s.updWg n f).keyVer = s.keyVer := rfl
@[simp] theorem State.updWg_keyLoaded (s : State) (n : Nat) (f : Workgroup → Workgroup) : (s.updWg n f).keyLoaded = s.keyLoaded := rfl
@[simp] theorem State.updWg_l1 (s : State) (n : Nat) (f : Workgroup → Workgroup) : (s.updWg n f).l1 = s.l1 := rfl
@[simp] theorem State.updWg_l2 (s : State) (n : Nat) (f : Workgroup → Workgroup) : (s.updWg n f).l2 = s.l2 := rfl
@[simp] theorem State.updWg_rlc (s : State) (n : Nat) (f : Workgroup → Workgroup) : (s.updWg n f).rlc = s.rlc := rfl
@[simp] theorem State.updWg_icache (s : State) (n : Nat) (f : Workgroup → Workgroup) : (s.updWg n f).icache = s.icache := rfl
@[simp] theorem State.updWg_tlb (s : State) (n : Nat) (f : Workgroup → Workgroup) : (s.updWg n f).tlb = s.tlb := rfl
@[simp] theorem State.updWg_copies (s : State) (n : Nat) (f : Workgroup → Workgroup) : (s.updWg n f).copies = s.copies := rfl
@[simp] theorem State.updWg_nextCopy (s : State) (n : Nat) (f : Workgroup → Workgroup) : (s.updWg n f).nextCopy = s.nextCopy := rfl
@[simp] theorem State.updWg_basins (s : State) (n : Nat) (f : Workgroup → Workgroup) : (s.updWg n f).basins = s.basins := rfl
@[simp] theorem State.updWg_tickets (s : State) (n : Nat) (f : Workgroup → Workgroup) : (s.updWg n f).tickets = s.tickets := rfl
@[simp] theorem State.updWg_past (s : State) (n : Nat) (f : Workgroup → Workgroup) : (s.updWg n f).past = s.past := rfl
@[simp] theorem State.updWg_silent (s : State) (n : Nat) (f : Workgroup → Workgroup) : (s.updWg n f).silent = s.silent := rfl
@[simp] theorem State.updWg_launches (s : State) (n : Nat) (f : Workgroup → Workgroup) : (s.updWg n f).launches = s.launches := rfl
@[simp] theorem State.updWg_queues (s : State) (n : Nat) (f : Workgroup → Workgroup) : (s.updWg n f).queues = s.queues := rfl
@[simp] theorem State.updWg_ctxs (s : State) (n : Nat) (f : Workgroup → Workgroup) : (s.updWg n f).ctxs = s.ctxs := rfl
@[simp] theorem State.updWg_parts (s : State) (n : Nat) (f : Workgroup → Workgroup) : (s.updWg n f).parts = s.parts := rfl
@[simp] theorem State.updWg_mr (s : State) (n : Nat) (f : Workgroup → Workgroup) : (s.updWg n f).mr = s.mr := rfl
@[simp] theorem State.updWg_versions (s : State) (n : Nat) (f : Workgroup → Workgroup) : (s.updWg n f).versions = s.versions := rfl
@[simp] theorem State.updWg_host (s : State) (n : Nat) (f : Workgroup → Workgroup) : (s.updWg n f).host = s.host := rfl
@[simp] theorem State.updWg_landing (s : State) (n : Nat) (f : Workgroup → Workgroup) : (s.updWg n f).landing = s.landing := rfl
@[simp] theorem State.updWg_dramStack (s : State) (n : Nat) (f : Workgroup → Workgroup) : (s.updWg n f).dramStack = s.dramStack := rfl
@[simp] theorem State.updWg_handoff (s : State) (n : Nat) (f : Workgroup → Workgroup) : (s.updWg n f).handoff = s.handoff := rfl
@[simp] theorem State.updWg_upsetBits (s : State) (n : Nat) (f : Workgroup → Workgroup) : (s.updWg n f).upsetBits = s.upsetBits := rfl
@[simp] theorem State.updWg_upsetCells (s : State) (n : Nat) (f : Workgroup → Workgroup) : (s.updWg n f).upsetCells = s.upsetCells := rfl
@[simp] theorem State.updWg_stage2 (s : State) (n : Nat) (f : Workgroup → Workgroup) : (s.updWg n f).stage2 = s.stage2 := rfl
@[simp] theorem State.updWg_spares (s : State) (n : Nat) (f : Workgroup → Workgroup) : (s.updWg n f).spares = s.spares := rfl
@[simp] theorem State.updWg_ports (s : State) (n : Nat) (f : Workgroup → Workgroup) : (s.updWg n f).ports = s.ports := rfl
@[simp] theorem State.updWg_routes (s : State) (n : Nat) (f : Workgroup → Workgroup) : (s.updWg n f).routes = s.routes := rfl
@[simp] theorem State.updWg_smargin (s : State) (n : Nat) (f : Workgroup → Workgroup) : (s.updWg n f).smargin = s.smargin := rfl
@[simp] theorem State.updWg_aclk (s : State) (n : Nat) (f : Workgroup → Workgroup) : (s.updWg n f).aclk = s.aclk := rfl
@[simp] theorem State.updWg_service (s : State) (n : Nat) (f : Workgroup → Workgroup) : (s.updWg n f).service = s.service := rfl
@[simp] theorem State.updWg_pixels (s : State) (n : Nat) (f : Workgroup → Workgroup) : (s.updWg n f).pixels = s.pixels := rfl
@[simp] theorem State.updWg_lastPsn (s : State) (n : Nat) (f : Workgroup → Workgroup) : (s.updWg n f).lastPsn = s.lastPsn := rfl
@[simp] theorem State.updWg_tiles (s : State) (n : Nat) (f : Workgroup → Workgroup) : (s.updWg n f).tiles = s.tiles := rfl
@[simp] theorem State.updWg_cycle (s : State) (n : Nat) (f : Workgroup → Workgroup) : (s.updWg n f).cycle = s.cycle := rfl
@[simp] theorem State.updWg_upsets (s : State) (n : Nat) (f : Workgroup → Workgroup) : (s.updWg n f).upsets = s.upsets := rfl
@[simp] theorem State.updWg_plan (s : State) (n : Nat) (f : Workgroup → Workgroup) : (s.updWg n f).plan = s.plan := rfl
@[simp] theorem State.updWg_fresh (s : State) (n : Nat) (f : Workgroup → Workgroup) : (s.updWg n f).fresh = s.fresh := rfl
/-! ### updCore -/
@[simp] theorem State.updCore_g (s : State) (c : CoreId) (f : Core → Core) : (s.updCore c f).g = s.g := rfl
@[simp] theorem State.updCore_others (s : State) (c : CoreId) (f : Core → Core) : (s.updCore c f).others = s.others := rfl
@[simp] theorem State.updCore_w (s : State) (c : CoreId) (f : Core → Core) : (s.updCore c f).w = s.w := rfl
@[simp] theorem State.updCore_otherWgs (s : State) (c : CoreId) (f : Core → Core) : (s.updCore c f).otherWgs = s.otherWgs := rfl
@[simp] theorem State.updCore_latch (s : State) (c : CoreId) (f : Core → Core) : (s.updCore c f).latch = s.latch := rfl
@[simp] theorem State.updCore_mem (s : State) (c : CoreId) (f : Core → Core) : (s.updCore c f).mem = s.mem := rfl
@[simp] theorem State.updCore_tags (s : State) (c : CoreId) (f : Core → Core) : (s.updCore c f).tags = s.tags := rfl
@[simp] theorem State.updCore_pois (s : State) (c : CoreId) (f : Core → Core) : (s.updCore c f).pois = s.pois := rfl
@[simp] theorem State.updCore_recoded (s : State) (c : CoreId) (f : Core → Core) : (s.updCore c f).recoded = s.recoded := rfl
@[simp] theorem State.updCore_keyed (s : State) (c : CoreId) (f : Core → Core) : (s.updCore c f).keyed = s.keyed := rfl
@[simp] theorem State.updCore_keyVer (s : State) (c : CoreId) (f : Core → Core) : (s.updCore c f).keyVer = s.keyVer := rfl
@[simp] theorem State.updCore_keyLoaded (s : State) (c : CoreId) (f : Core → Core) : (s.updCore c f).keyLoaded = s.keyLoaded := rfl
@[simp] theorem State.updCore_l1 (s : State) (c : CoreId) (f : Core → Core) : (s.updCore c f).l1 = s.l1 := rfl
@[simp] theorem State.updCore_l2 (s : State) (c : CoreId) (f : Core → Core) : (s.updCore c f).l2 = s.l2 := rfl
@[simp] theorem State.updCore_rlc (s : State) (c : CoreId) (f : Core → Core) : (s.updCore c f).rlc = s.rlc := rfl
@[simp] theorem State.updCore_icache (s : State) (c : CoreId) (f : Core → Core) : (s.updCore c f).icache = s.icache := rfl
@[simp] theorem State.updCore_tlb (s : State) (c : CoreId) (f : Core → Core) : (s.updCore c f).tlb = s.tlb := rfl
@[simp] theorem State.updCore_copies (s : State) (c : CoreId) (f : Core → Core) : (s.updCore c f).copies = s.copies := rfl
@[simp] theorem State.updCore_nextCopy (s : State) (c : CoreId) (f : Core → Core) : (s.updCore c f).nextCopy = s.nextCopy := rfl
@[simp] theorem State.updCore_basins (s : State) (c : CoreId) (f : Core → Core) : (s.updCore c f).basins = s.basins := rfl
@[simp] theorem State.updCore_tickets (s : State) (c : CoreId) (f : Core → Core) : (s.updCore c f).tickets = s.tickets := rfl
@[simp] theorem State.updCore_past (s : State) (c : CoreId) (f : Core → Core) : (s.updCore c f).past = s.past := rfl
@[simp] theorem State.updCore_silent (s : State) (c : CoreId) (f : Core → Core) : (s.updCore c f).silent = s.silent := rfl
@[simp] theorem State.updCore_launches (s : State) (c : CoreId) (f : Core → Core) : (s.updCore c f).launches = s.launches := rfl
@[simp] theorem State.updCore_queues (s : State) (c : CoreId) (f : Core → Core) : (s.updCore c f).queues = s.queues := rfl
@[simp] theorem State.updCore_ctxs (s : State) (c : CoreId) (f : Core → Core) : (s.updCore c f).ctxs = s.ctxs := rfl
@[simp] theorem State.updCore_parts (s : State) (c : CoreId) (f : Core → Core) : (s.updCore c f).parts = s.parts := rfl
@[simp] theorem State.updCore_mr (s : State) (c : CoreId) (f : Core → Core) : (s.updCore c f).mr = s.mr := rfl
@[simp] theorem State.updCore_versions (s : State) (c : CoreId) (f : Core → Core) : (s.updCore c f).versions = s.versions := rfl
@[simp] theorem State.updCore_host (s : State) (c : CoreId) (f : Core → Core) : (s.updCore c f).host = s.host := rfl
@[simp] theorem State.updCore_landing (s : State) (c : CoreId) (f : Core → Core) : (s.updCore c f).landing = s.landing := rfl
@[simp] theorem State.updCore_dramStack (s : State) (c : CoreId) (f : Core → Core) : (s.updCore c f).dramStack = s.dramStack := rfl
@[simp] theorem State.updCore_handoff (s : State) (c : CoreId) (f : Core → Core) : (s.updCore c f).handoff = s.handoff := rfl
@[simp] theorem State.updCore_upsetBits (s : State) (c : CoreId) (f : Core → Core) : (s.updCore c f).upsetBits = s.upsetBits := rfl
@[simp] theorem State.updCore_upsetCells (s : State) (c : CoreId) (f : Core → Core) : (s.updCore c f).upsetCells = s.upsetCells := rfl
@[simp] theorem State.updCore_stage2 (s : State) (c : CoreId) (f : Core → Core) : (s.updCore c f).stage2 = s.stage2 := rfl
@[simp] theorem State.updCore_spares (s : State) (c : CoreId) (f : Core → Core) : (s.updCore c f).spares = s.spares := rfl
@[simp] theorem State.updCore_ports (s : State) (c : CoreId) (f : Core → Core) : (s.updCore c f).ports = s.ports := rfl
@[simp] theorem State.updCore_routes (s : State) (c : CoreId) (f : Core → Core) : (s.updCore c f).routes = s.routes := rfl
@[simp] theorem State.updCore_smargin (s : State) (c : CoreId) (f : Core → Core) : (s.updCore c f).smargin = s.smargin := rfl
@[simp] theorem State.updCore_aclk (s : State) (c : CoreId) (f : Core → Core) : (s.updCore c f).aclk = s.aclk := rfl
@[simp] theorem State.updCore_service (s : State) (c : CoreId) (f : Core → Core) : (s.updCore c f).service = s.service := rfl
@[simp] theorem State.updCore_pixels (s : State) (c : CoreId) (f : Core → Core) : (s.updCore c f).pixels = s.pixels := rfl
@[simp] theorem State.updCore_lastPsn (s : State) (c : CoreId) (f : Core → Core) : (s.updCore c f).lastPsn = s.lastPsn := rfl
@[simp] theorem State.updCore_tiles (s : State) (c : CoreId) (f : Core → Core) : (s.updCore c f).tiles = s.tiles := rfl
@[simp] theorem State.updCore_cycle (s : State) (c : CoreId) (f : Core → Core) : (s.updCore c f).cycle = s.cycle := rfl
@[simp] theorem State.updCore_upsets (s : State) (c : CoreId) (f : Core → Core) : (s.updCore c f).upsets = s.upsets := rfl
@[simp] theorem State.updCore_plan (s : State) (c : CoreId) (f : Core → Core) : (s.updCore c f).plan = s.plan := rfl
@[simp] theorem State.updCore_fresh (s : State) (c : CoreId) (f : Core → Core) : (s.updCore c f).fresh = s.fresh := rfl
/-! ### setPartWord -/
@[simp] theorem State.setPartWord_g (s : State) (p : Fin 16) (i : Fin 32) (w : Word) : (s.setPartWord p i w).g = s.g := rfl
@[simp] theorem State.setPartWord_others (s : State) (p : Fin 16) (i : Fin 32) (w : Word) : (s.setPartWord p i w).others = s.others := rfl
@[simp] theorem State.setPartWord_w (s : State) (p : Fin 16) (i : Fin 32) (w : Word) : (s.setPartWord p i w).w = s.w := rfl
@[simp] theorem State.setPartWord_otherWgs (s : State) (p : Fin 16) (i : Fin 32) (w : Word) : (s.setPartWord p i w).otherWgs = s.otherWgs := rfl
@[simp] theorem State.setPartWord_latch (s : State) (p : Fin 16) (i : Fin 32) (w : Word) : (s.setPartWord p i w).latch = s.latch := rfl
@[simp] theorem State.setPartWord_cores (s : State) (p : Fin 16) (i : Fin 32) (w : Word) : (s.setPartWord p i w).cores = s.cores := rfl
@[simp] theorem State.setPartWord_mem (s : State) (p : Fin 16) (i : Fin 32) (w : Word) : (s.setPartWord p i w).mem = s.mem := rfl
@[simp] theorem State.setPartWord_tags (s : State) (p : Fin 16) (i : Fin 32) (w : Word) : (s.setPartWord p i w).tags = s.tags := rfl
@[simp] theorem State.setPartWord_pois (s : State) (p : Fin 16) (i : Fin 32) (w : Word) : (s.setPartWord p i w).pois = s.pois := rfl
@[simp] theorem State.setPartWord_recoded (s : State) (p : Fin 16) (i : Fin 32) (w : Word) : (s.setPartWord p i w).recoded = s.recoded := rfl
@[simp] theorem State.setPartWord_keyed (s : State) (p : Fin 16) (i : Fin 32) (w : Word) : (s.setPartWord p i w).keyed = s.keyed := rfl
@[simp] theorem State.setPartWord_keyVer (s : State) (p : Fin 16) (i : Fin 32) (w : Word) : (s.setPartWord p i w).keyVer = s.keyVer := rfl
@[simp] theorem State.setPartWord_keyLoaded (s : State) (p : Fin 16) (i : Fin 32) (w : Word) : (s.setPartWord p i w).keyLoaded = s.keyLoaded := rfl
@[simp] theorem State.setPartWord_l1 (s : State) (p : Fin 16) (i : Fin 32) (w : Word) : (s.setPartWord p i w).l1 = s.l1 := rfl
@[simp] theorem State.setPartWord_l2 (s : State) (p : Fin 16) (i : Fin 32) (w : Word) : (s.setPartWord p i w).l2 = s.l2 := rfl
@[simp] theorem State.setPartWord_rlc (s : State) (p : Fin 16) (i : Fin 32) (w : Word) : (s.setPartWord p i w).rlc = s.rlc := rfl
@[simp] theorem State.setPartWord_icache (s : State) (p : Fin 16) (i : Fin 32) (w : Word) : (s.setPartWord p i w).icache = s.icache := rfl
@[simp] theorem State.setPartWord_tlb (s : State) (p : Fin 16) (i : Fin 32) (w : Word) : (s.setPartWord p i w).tlb = s.tlb := rfl
@[simp] theorem State.setPartWord_copies (s : State) (p : Fin 16) (i : Fin 32) (w : Word) : (s.setPartWord p i w).copies = s.copies := rfl
@[simp] theorem State.setPartWord_nextCopy (s : State) (p : Fin 16) (i : Fin 32) (w : Word) : (s.setPartWord p i w).nextCopy = s.nextCopy := rfl
@[simp] theorem State.setPartWord_basins (s : State) (p : Fin 16) (i : Fin 32) (w : Word) : (s.setPartWord p i w).basins = s.basins := rfl
@[simp] theorem State.setPartWord_tickets (s : State) (p : Fin 16) (i : Fin 32) (w : Word) : (s.setPartWord p i w).tickets = s.tickets := rfl
@[simp] theorem State.setPartWord_past (s : State) (p : Fin 16) (i : Fin 32) (w : Word) : (s.setPartWord p i w).past = s.past := rfl
@[simp] theorem State.setPartWord_silent (s : State) (p : Fin 16) (i : Fin 32) (w : Word) : (s.setPartWord p i w).silent = s.silent := rfl
@[simp] theorem State.setPartWord_launches (s : State) (p : Fin 16) (i : Fin 32) (w : Word) : (s.setPartWord p i w).launches = s.launches := rfl
@[simp] theorem State.setPartWord_queues (s : State) (p : Fin 16) (i : Fin 32) (w : Word) : (s.setPartWord p i w).queues = s.queues := rfl
@[simp] theorem State.setPartWord_ctxs (s : State) (p : Fin 16) (i : Fin 32) (w : Word) : (s.setPartWord p i w).ctxs = s.ctxs := rfl
@[simp] theorem State.setPartWord_mr (s : State) (p : Fin 16) (i : Fin 32) (w : Word) : (s.setPartWord p i w).mr = s.mr := rfl
@[simp] theorem State.setPartWord_versions (s : State) (p : Fin 16) (i : Fin 32) (w : Word) : (s.setPartWord p i w).versions = s.versions := rfl
@[simp] theorem State.setPartWord_host (s : State) (p : Fin 16) (i : Fin 32) (w : Word) : (s.setPartWord p i w).host = s.host := rfl
@[simp] theorem State.setPartWord_landing (s : State) (p : Fin 16) (i : Fin 32) (w : Word) : (s.setPartWord p i w).landing = s.landing := rfl
@[simp] theorem State.setPartWord_dramStack (s : State) (p : Fin 16) (i : Fin 32) (w : Word) : (s.setPartWord p i w).dramStack = s.dramStack := rfl
@[simp] theorem State.setPartWord_handoff (s : State) (p : Fin 16) (i : Fin 32) (w : Word) : (s.setPartWord p i w).handoff = s.handoff := rfl
@[simp] theorem State.setPartWord_upsetBits (s : State) (p : Fin 16) (i : Fin 32) (w : Word) : (s.setPartWord p i w).upsetBits = s.upsetBits := rfl
@[simp] theorem State.setPartWord_upsetCells (s : State) (p : Fin 16) (i : Fin 32) (w : Word) : (s.setPartWord p i w).upsetCells = s.upsetCells := rfl
@[simp] theorem State.setPartWord_stage2 (s : State) (p : Fin 16) (i : Fin 32) (w : Word) : (s.setPartWord p i w).stage2 = s.stage2 := rfl
@[simp] theorem State.setPartWord_spares (s : State) (p : Fin 16) (i : Fin 32) (w : Word) : (s.setPartWord p i w).spares = s.spares := rfl
@[simp] theorem State.setPartWord_ports (s : State) (p : Fin 16) (i : Fin 32) (w : Word) : (s.setPartWord p i w).ports = s.ports := rfl
@[simp] theorem State.setPartWord_routes (s : State) (p : Fin 16) (i : Fin 32) (w : Word) : (s.setPartWord p i w).routes = s.routes := rfl
@[simp] theorem State.setPartWord_smargin (s : State) (p : Fin 16) (i : Fin 32) (w : Word) : (s.setPartWord p i w).smargin = s.smargin := rfl
@[simp] theorem State.setPartWord_aclk (s : State) (p : Fin 16) (i : Fin 32) (w : Word) : (s.setPartWord p i w).aclk = s.aclk := rfl
@[simp] theorem State.setPartWord_service (s : State) (p : Fin 16) (i : Fin 32) (w : Word) : (s.setPartWord p i w).service = s.service := rfl
@[simp] theorem State.setPartWord_pixels (s : State) (p : Fin 16) (i : Fin 32) (w : Word) : (s.setPartWord p i w).pixels = s.pixels := rfl
@[simp] theorem State.setPartWord_lastPsn (s : State) (p : Fin 16) (i : Fin 32) (w : Word) : (s.setPartWord p i w).lastPsn = s.lastPsn := rfl
@[simp] theorem State.setPartWord_tiles (s : State) (p : Fin 16) (i : Fin 32) (w : Word) : (s.setPartWord p i w).tiles = s.tiles := rfl
@[simp] theorem State.setPartWord_cycle (s : State) (p : Fin 16) (i : Fin 32) (w : Word) : (s.setPartWord p i w).cycle = s.cycle := rfl
@[simp] theorem State.setPartWord_upsets (s : State) (p : Fin 16) (i : Fin 32) (w : Word) : (s.setPartWord p i w).upsets = s.upsets := rfl
@[simp] theorem State.setPartWord_plan (s : State) (p : Fin 16) (i : Fin 32) (w : Word) : (s.setPartWord p i w).plan = s.plan := rfl
@[simp] theorem State.setPartWord_fresh (s : State) (p : Fin 16) (i : Fin 32) (w : Word) : (s.setPartWord p i w).fresh = s.fresh := rfl
/-! ### countStack -/
@[simp] theorem State.countStack_g (s : State) (k : Fin 8) (i : Fin 7) (n : Nat) : (s.countStack k i n).g = s.g := rfl
@[simp] theorem State.countStack_others (s : State) (k : Fin 8) (i : Fin 7) (n : Nat) : (s.countStack k i n).others = s.others := rfl
@[simp] theorem State.countStack_w (s : State) (k : Fin 8) (i : Fin 7) (n : Nat) : (s.countStack k i n).w = s.w := rfl
@[simp] theorem State.countStack_otherWgs (s : State) (k : Fin 8) (i : Fin 7) (n : Nat) : (s.countStack k i n).otherWgs = s.otherWgs := rfl
@[simp] theorem State.countStack_latch (s : State) (k : Fin 8) (i : Fin 7) (n : Nat) : (s.countStack k i n).latch = s.latch := rfl
@[simp] theorem State.countStack_cores (s : State) (k : Fin 8) (i : Fin 7) (n : Nat) : (s.countStack k i n).cores = s.cores := rfl
@[simp] theorem State.countStack_mem (s : State) (k : Fin 8) (i : Fin 7) (n : Nat) : (s.countStack k i n).mem = s.mem := rfl
@[simp] theorem State.countStack_tags (s : State) (k : Fin 8) (i : Fin 7) (n : Nat) : (s.countStack k i n).tags = s.tags := rfl
@[simp] theorem State.countStack_pois (s : State) (k : Fin 8) (i : Fin 7) (n : Nat) : (s.countStack k i n).pois = s.pois := rfl
@[simp] theorem State.countStack_recoded (s : State) (k : Fin 8) (i : Fin 7) (n : Nat) : (s.countStack k i n).recoded = s.recoded := rfl
@[simp] theorem State.countStack_keyed (s : State) (k : Fin 8) (i : Fin 7) (n : Nat) : (s.countStack k i n).keyed = s.keyed := rfl
@[simp] theorem State.countStack_keyVer (s : State) (k : Fin 8) (i : Fin 7) (n : Nat) : (s.countStack k i n).keyVer = s.keyVer := rfl
@[simp] theorem State.countStack_keyLoaded (s : State) (k : Fin 8) (i : Fin 7) (n : Nat) : (s.countStack k i n).keyLoaded = s.keyLoaded := rfl
@[simp] theorem State.countStack_l1 (s : State) (k : Fin 8) (i : Fin 7) (n : Nat) : (s.countStack k i n).l1 = s.l1 := rfl
@[simp] theorem State.countStack_l2 (s : State) (k : Fin 8) (i : Fin 7) (n : Nat) : (s.countStack k i n).l2 = s.l2 := rfl
@[simp] theorem State.countStack_rlc (s : State) (k : Fin 8) (i : Fin 7) (n : Nat) : (s.countStack k i n).rlc = s.rlc := rfl
@[simp] theorem State.countStack_icache (s : State) (k : Fin 8) (i : Fin 7) (n : Nat) : (s.countStack k i n).icache = s.icache := rfl
@[simp] theorem State.countStack_tlb (s : State) (k : Fin 8) (i : Fin 7) (n : Nat) : (s.countStack k i n).tlb = s.tlb := rfl
@[simp] theorem State.countStack_copies (s : State) (k : Fin 8) (i : Fin 7) (n : Nat) : (s.countStack k i n).copies = s.copies := rfl
@[simp] theorem State.countStack_nextCopy (s : State) (k : Fin 8) (i : Fin 7) (n : Nat) : (s.countStack k i n).nextCopy = s.nextCopy := rfl
@[simp] theorem State.countStack_basins (s : State) (k : Fin 8) (i : Fin 7) (n : Nat) : (s.countStack k i n).basins = s.basins := rfl
@[simp] theorem State.countStack_tickets (s : State) (k : Fin 8) (i : Fin 7) (n : Nat) : (s.countStack k i n).tickets = s.tickets := rfl
@[simp] theorem State.countStack_past (s : State) (k : Fin 8) (i : Fin 7) (n : Nat) : (s.countStack k i n).past = s.past := rfl
@[simp] theorem State.countStack_silent (s : State) (k : Fin 8) (i : Fin 7) (n : Nat) : (s.countStack k i n).silent = s.silent := rfl
@[simp] theorem State.countStack_launches (s : State) (k : Fin 8) (i : Fin 7) (n : Nat) : (s.countStack k i n).launches = s.launches := rfl
@[simp] theorem State.countStack_queues (s : State) (k : Fin 8) (i : Fin 7) (n : Nat) : (s.countStack k i n).queues = s.queues := rfl
@[simp] theorem State.countStack_ctxs (s : State) (k : Fin 8) (i : Fin 7) (n : Nat) : (s.countStack k i n).ctxs = s.ctxs := rfl
@[simp] theorem State.countStack_parts (s : State) (k : Fin 8) (i : Fin 7) (n : Nat) : (s.countStack k i n).parts = s.parts := rfl
@[simp] theorem State.countStack_mr (s : State) (k : Fin 8) (i : Fin 7) (n : Nat) : (s.countStack k i n).mr = s.mr := rfl
@[simp] theorem State.countStack_versions (s : State) (k : Fin 8) (i : Fin 7) (n : Nat) : (s.countStack k i n).versions = s.versions := rfl
@[simp] theorem State.countStack_host (s : State) (k : Fin 8) (i : Fin 7) (n : Nat) : (s.countStack k i n).host = s.host := rfl
@[simp] theorem State.countStack_landing (s : State) (k : Fin 8) (i : Fin 7) (n : Nat) : (s.countStack k i n).landing = s.landing := rfl
@[simp] theorem State.countStack_handoff (s : State) (k : Fin 8) (i : Fin 7) (n : Nat) : (s.countStack k i n).handoff = s.handoff := rfl
@[simp] theorem State.countStack_upsetBits (s : State) (k : Fin 8) (i : Fin 7) (n : Nat) : (s.countStack k i n).upsetBits = s.upsetBits := rfl
@[simp] theorem State.countStack_upsetCells (s : State) (k : Fin 8) (i : Fin 7) (n : Nat) : (s.countStack k i n).upsetCells = s.upsetCells := rfl
@[simp] theorem State.countStack_stage2 (s : State) (k : Fin 8) (i : Fin 7) (n : Nat) : (s.countStack k i n).stage2 = s.stage2 := rfl
@[simp] theorem State.countStack_spares (s : State) (k : Fin 8) (i : Fin 7) (n : Nat) : (s.countStack k i n).spares = s.spares := rfl
@[simp] theorem State.countStack_ports (s : State) (k : Fin 8) (i : Fin 7) (n : Nat) : (s.countStack k i n).ports = s.ports := rfl
@[simp] theorem State.countStack_routes (s : State) (k : Fin 8) (i : Fin 7) (n : Nat) : (s.countStack k i n).routes = s.routes := rfl
@[simp] theorem State.countStack_smargin (s : State) (k : Fin 8) (i : Fin 7) (n : Nat) : (s.countStack k i n).smargin = s.smargin := rfl
@[simp] theorem State.countStack_aclk (s : State) (k : Fin 8) (i : Fin 7) (n : Nat) : (s.countStack k i n).aclk = s.aclk := rfl
@[simp] theorem State.countStack_service (s : State) (k : Fin 8) (i : Fin 7) (n : Nat) : (s.countStack k i n).service = s.service := rfl
@[simp] theorem State.countStack_pixels (s : State) (k : Fin 8) (i : Fin 7) (n : Nat) : (s.countStack k i n).pixels = s.pixels := rfl
@[simp] theorem State.countStack_lastPsn (s : State) (k : Fin 8) (i : Fin 7) (n : Nat) : (s.countStack k i n).lastPsn = s.lastPsn := rfl
@[simp] theorem State.countStack_tiles (s : State) (k : Fin 8) (i : Fin 7) (n : Nat) : (s.countStack k i n).tiles = s.tiles := rfl
@[simp] theorem State.countStack_cycle (s : State) (k : Fin 8) (i : Fin 7) (n : Nat) : (s.countStack k i n).cycle = s.cycle := rfl
@[simp] theorem State.countStack_upsets (s : State) (k : Fin 8) (i : Fin 7) (n : Nat) : (s.countStack k i n).upsets = s.upsets := rfl
@[simp] theorem State.countStack_plan (s : State) (k : Fin 8) (i : Fin 7) (n : Nat) : (s.countStack k i n).plan = s.plan := rfl
@[simp] theorem State.countStack_fresh (s : State) (k : Fin 8) (i : Fin 7) (n : Nat) : (s.countStack k i n).fresh = s.fresh := rfl
/-! ### endIdle -/
@[simp] theorem State.endIdle_g (s : State) : (s.endIdle).g = s.g := rfl
@[simp] theorem State.endIdle_others (s : State) : (s.endIdle).others = s.others := rfl
@[simp] theorem State.endIdle_w (s : State) : (s.endIdle).w = s.w := rfl
@[simp] theorem State.endIdle_otherWgs (s : State) : (s.endIdle).otherWgs = s.otherWgs := rfl
@[simp] theorem State.endIdle_latch (s : State) : (s.endIdle).latch = s.latch := rfl
@[simp] theorem State.endIdle_cores (s : State) : (s.endIdle).cores = s.cores := rfl
@[simp] theorem State.endIdle_mem (s : State) : (s.endIdle).mem = s.mem := rfl
@[simp] theorem State.endIdle_tags (s : State) : (s.endIdle).tags = s.tags := rfl
@[simp] theorem State.endIdle_pois (s : State) : (s.endIdle).pois = s.pois := rfl
@[simp] theorem State.endIdle_recoded (s : State) : (s.endIdle).recoded = s.recoded := rfl
@[simp] theorem State.endIdle_keyed (s : State) : (s.endIdle).keyed = s.keyed := rfl
@[simp] theorem State.endIdle_keyVer (s : State) : (s.endIdle).keyVer = s.keyVer := rfl
@[simp] theorem State.endIdle_keyLoaded (s : State) : (s.endIdle).keyLoaded = s.keyLoaded := rfl
@[simp] theorem State.endIdle_l1 (s : State) : (s.endIdle).l1 = s.l1 := rfl
@[simp] theorem State.endIdle_l2 (s : State) : (s.endIdle).l2 = s.l2 := rfl
@[simp] theorem State.endIdle_rlc (s : State) : (s.endIdle).rlc = s.rlc := rfl
@[simp] theorem State.endIdle_icache (s : State) : (s.endIdle).icache = s.icache := rfl
@[simp] theorem State.endIdle_tlb (s : State) : (s.endIdle).tlb = s.tlb := rfl
@[simp] theorem State.endIdle_copies (s : State) : (s.endIdle).copies = s.copies := rfl
@[simp] theorem State.endIdle_nextCopy (s : State) : (s.endIdle).nextCopy = s.nextCopy := rfl
@[simp] theorem State.endIdle_basins (s : State) : (s.endIdle).basins = s.basins := rfl
@[simp] theorem State.endIdle_tickets (s : State) : (s.endIdle).tickets = s.tickets := rfl
@[simp] theorem State.endIdle_past (s : State) : (s.endIdle).past = s.past := rfl
@[simp] theorem State.endIdle_silent (s : State) : (s.endIdle).silent = s.silent := rfl
@[simp] theorem State.endIdle_launches (s : State) : (s.endIdle).launches = s.launches := rfl
@[simp] theorem State.endIdle_queues (s : State) : (s.endIdle).queues = s.queues := rfl
@[simp] theorem State.endIdle_ctxs (s : State) : (s.endIdle).ctxs = s.ctxs := rfl
@[simp] theorem State.endIdle_parts (s : State) : (s.endIdle).parts = s.parts := rfl
@[simp] theorem State.endIdle_mr (s : State) : (s.endIdle).mr = s.mr := rfl
@[simp] theorem State.endIdle_versions (s : State) : (s.endIdle).versions = s.versions := rfl
@[simp] theorem State.endIdle_landing (s : State) : (s.endIdle).landing = s.landing := rfl
@[simp] theorem State.endIdle_dramStack (s : State) : (s.endIdle).dramStack = s.dramStack := rfl
@[simp] theorem State.endIdle_handoff (s : State) : (s.endIdle).handoff = s.handoff := rfl
@[simp] theorem State.endIdle_upsetBits (s : State) : (s.endIdle).upsetBits = s.upsetBits := rfl
@[simp] theorem State.endIdle_upsetCells (s : State) : (s.endIdle).upsetCells = s.upsetCells := rfl
@[simp] theorem State.endIdle_stage2 (s : State) : (s.endIdle).stage2 = s.stage2 := rfl
@[simp] theorem State.endIdle_spares (s : State) : (s.endIdle).spares = s.spares := rfl
@[simp] theorem State.endIdle_ports (s : State) : (s.endIdle).ports = s.ports := rfl
@[simp] theorem State.endIdle_routes (s : State) : (s.endIdle).routes = s.routes := rfl
@[simp] theorem State.endIdle_smargin (s : State) : (s.endIdle).smargin = s.smargin := rfl
@[simp] theorem State.endIdle_aclk (s : State) : (s.endIdle).aclk = s.aclk := rfl
@[simp] theorem State.endIdle_service (s : State) : (s.endIdle).service = s.service := rfl
@[simp] theorem State.endIdle_pixels (s : State) : (s.endIdle).pixels = s.pixels := rfl
@[simp] theorem State.endIdle_lastPsn (s : State) : (s.endIdle).lastPsn = s.lastPsn := rfl
@[simp] theorem State.endIdle_tiles (s : State) : (s.endIdle).tiles = s.tiles := rfl
@[simp] theorem State.endIdle_cycle (s : State) : (s.endIdle).cycle = s.cycle := rfl
@[simp] theorem State.endIdle_upsets (s : State) : (s.endIdle).upsets = s.upsets := rfl
@[simp] theorem State.endIdle_plan (s : State) : (s.endIdle).plan = s.plan := rfl
@[simp] theorem State.endIdle_fresh (s : State) : (s.endIdle).fresh = s.fresh := rfl
/-! ### setSpare -/
@[simp] theorem State.setSpare_g (s : State) (x : Spare) : (s.setSpare x).g = s.g := rfl
@[simp] theorem State.setSpare_others (s : State) (x : Spare) : (s.setSpare x).others = s.others := rfl
@[simp] theorem State.setSpare_w (s : State) (x : Spare) : (s.setSpare x).w = s.w := rfl
@[simp] theorem State.setSpare_otherWgs (s : State) (x : Spare) : (s.setSpare x).otherWgs = s.otherWgs := rfl
@[simp] theorem State.setSpare_latch (s : State) (x : Spare) : (s.setSpare x).latch = s.latch := rfl
@[simp] theorem State.setSpare_cores (s : State) (x : Spare) : (s.setSpare x).cores = s.cores := rfl
@[simp] theorem State.setSpare_mem (s : State) (x : Spare) : (s.setSpare x).mem = s.mem := rfl
@[simp] theorem State.setSpare_tags (s : State) (x : Spare) : (s.setSpare x).tags = s.tags := rfl
@[simp] theorem State.setSpare_pois (s : State) (x : Spare) : (s.setSpare x).pois = s.pois := rfl
@[simp] theorem State.setSpare_recoded (s : State) (x : Spare) : (s.setSpare x).recoded = s.recoded := rfl
@[simp] theorem State.setSpare_keyed (s : State) (x : Spare) : (s.setSpare x).keyed = s.keyed := rfl
@[simp] theorem State.setSpare_keyVer (s : State) (x : Spare) : (s.setSpare x).keyVer = s.keyVer := rfl
@[simp] theorem State.setSpare_keyLoaded (s : State) (x : Spare) : (s.setSpare x).keyLoaded = s.keyLoaded := rfl
@[simp] theorem State.setSpare_l1 (s : State) (x : Spare) : (s.setSpare x).l1 = s.l1 := rfl
@[simp] theorem State.setSpare_l2 (s : State) (x : Spare) : (s.setSpare x).l2 = s.l2 := rfl
@[simp] theorem State.setSpare_rlc (s : State) (x : Spare) : (s.setSpare x).rlc = s.rlc := rfl
@[simp] theorem State.setSpare_icache (s : State) (x : Spare) : (s.setSpare x).icache = s.icache := rfl
@[simp] theorem State.setSpare_tlb (s : State) (x : Spare) : (s.setSpare x).tlb = s.tlb := rfl
@[simp] theorem State.setSpare_copies (s : State) (x : Spare) : (s.setSpare x).copies = s.copies := rfl
@[simp] theorem State.setSpare_nextCopy (s : State) (x : Spare) : (s.setSpare x).nextCopy = s.nextCopy := rfl
@[simp] theorem State.setSpare_basins (s : State) (x : Spare) : (s.setSpare x).basins = s.basins := rfl
@[simp] theorem State.setSpare_tickets (s : State) (x : Spare) : (s.setSpare x).tickets = s.tickets := rfl
@[simp] theorem State.setSpare_past (s : State) (x : Spare) : (s.setSpare x).past = s.past := rfl
@[simp] theorem State.setSpare_silent (s : State) (x : Spare) : (s.setSpare x).silent = s.silent := rfl
@[simp] theorem State.setSpare_launches (s : State) (x : Spare) : (s.setSpare x).launches = s.launches := rfl
@[simp] theorem State.setSpare_queues (s : State) (x : Spare) : (s.setSpare x).queues = s.queues := rfl
@[simp] theorem State.setSpare_ctxs (s : State) (x : Spare) : (s.setSpare x).ctxs = s.ctxs := rfl
@[simp] theorem State.setSpare_parts (s : State) (x : Spare) : (s.setSpare x).parts = s.parts := rfl
@[simp] theorem State.setSpare_mr (s : State) (x : Spare) : (s.setSpare x).mr = s.mr := rfl
@[simp] theorem State.setSpare_versions (s : State) (x : Spare) : (s.setSpare x).versions = s.versions := rfl
@[simp] theorem State.setSpare_host (s : State) (x : Spare) : (s.setSpare x).host = s.host := rfl
@[simp] theorem State.setSpare_landing (s : State) (x : Spare) : (s.setSpare x).landing = s.landing := rfl
@[simp] theorem State.setSpare_dramStack (s : State) (x : Spare) : (s.setSpare x).dramStack = s.dramStack := rfl
@[simp] theorem State.setSpare_handoff (s : State) (x : Spare) : (s.setSpare x).handoff = s.handoff := rfl
@[simp] theorem State.setSpare_upsetBits (s : State) (x : Spare) : (s.setSpare x).upsetBits = s.upsetBits := rfl
@[simp] theorem State.setSpare_upsetCells (s : State) (x : Spare) : (s.setSpare x).upsetCells = s.upsetCells := rfl
@[simp] theorem State.setSpare_stage2 (s : State) (x : Spare) : (s.setSpare x).stage2 = s.stage2 := rfl
@[simp] theorem State.setSpare_ports (s : State) (x : Spare) : (s.setSpare x).ports = s.ports := rfl
@[simp] theorem State.setSpare_routes (s : State) (x : Spare) : (s.setSpare x).routes = s.routes := rfl
@[simp] theorem State.setSpare_smargin (s : State) (x : Spare) : (s.setSpare x).smargin = s.smargin := rfl
@[simp] theorem State.setSpare_aclk (s : State) (x : Spare) : (s.setSpare x).aclk = s.aclk := rfl
@[simp] theorem State.setSpare_service (s : State) (x : Spare) : (s.setSpare x).service = s.service := rfl
@[simp] theorem State.setSpare_pixels (s : State) (x : Spare) : (s.setSpare x).pixels = s.pixels := rfl
@[simp] theorem State.setSpare_lastPsn (s : State) (x : Spare) : (s.setSpare x).lastPsn = s.lastPsn := rfl
@[simp] theorem State.setSpare_tiles (s : State) (x : Spare) : (s.setSpare x).tiles = s.tiles := rfl
@[simp] theorem State.setSpare_cycle (s : State) (x : Spare) : (s.setSpare x).cycle = s.cycle := rfl
@[simp] theorem State.setSpare_upsets (s : State) (x : Spare) : (s.setSpare x).upsets = s.upsets := rfl
@[simp] theorem State.setSpare_plan (s : State) (x : Spare) : (s.setSpare x).plan = s.plan := rfl
@[simp] theorem State.setSpare_fresh (s : State) (x : Spare) : (s.setSpare x).fresh = s.fresh := rfl
/-! ### updLanding -/
@[simp] theorem State.updLanding_g (s : State) (i : Byte) (f : Landing → Landing) : (s.updLanding i f).g = s.g := rfl
@[simp] theorem State.updLanding_others (s : State) (i : Byte) (f : Landing → Landing) : (s.updLanding i f).others = s.others := rfl
@[simp] theorem State.updLanding_w (s : State) (i : Byte) (f : Landing → Landing) : (s.updLanding i f).w = s.w := rfl
@[simp] theorem State.updLanding_otherWgs (s : State) (i : Byte) (f : Landing → Landing) : (s.updLanding i f).otherWgs = s.otherWgs := rfl
@[simp] theorem State.updLanding_latch (s : State) (i : Byte) (f : Landing → Landing) : (s.updLanding i f).latch = s.latch := rfl
@[simp] theorem State.updLanding_cores (s : State) (i : Byte) (f : Landing → Landing) : (s.updLanding i f).cores = s.cores := rfl
@[simp] theorem State.updLanding_mem (s : State) (i : Byte) (f : Landing → Landing) : (s.updLanding i f).mem = s.mem := rfl
@[simp] theorem State.updLanding_tags (s : State) (i : Byte) (f : Landing → Landing) : (s.updLanding i f).tags = s.tags := rfl
@[simp] theorem State.updLanding_pois (s : State) (i : Byte) (f : Landing → Landing) : (s.updLanding i f).pois = s.pois := rfl
@[simp] theorem State.updLanding_recoded (s : State) (i : Byte) (f : Landing → Landing) : (s.updLanding i f).recoded = s.recoded := rfl
@[simp] theorem State.updLanding_keyed (s : State) (i : Byte) (f : Landing → Landing) : (s.updLanding i f).keyed = s.keyed := rfl
@[simp] theorem State.updLanding_keyVer (s : State) (i : Byte) (f : Landing → Landing) : (s.updLanding i f).keyVer = s.keyVer := rfl
@[simp] theorem State.updLanding_keyLoaded (s : State) (i : Byte) (f : Landing → Landing) : (s.updLanding i f).keyLoaded = s.keyLoaded := rfl
@[simp] theorem State.updLanding_l1 (s : State) (i : Byte) (f : Landing → Landing) : (s.updLanding i f).l1 = s.l1 := rfl
@[simp] theorem State.updLanding_l2 (s : State) (i : Byte) (f : Landing → Landing) : (s.updLanding i f).l2 = s.l2 := rfl
@[simp] theorem State.updLanding_rlc (s : State) (i : Byte) (f : Landing → Landing) : (s.updLanding i f).rlc = s.rlc := rfl
@[simp] theorem State.updLanding_icache (s : State) (i : Byte) (f : Landing → Landing) : (s.updLanding i f).icache = s.icache := rfl
@[simp] theorem State.updLanding_tlb (s : State) (i : Byte) (f : Landing → Landing) : (s.updLanding i f).tlb = s.tlb := rfl
@[simp] theorem State.updLanding_copies (s : State) (i : Byte) (f : Landing → Landing) : (s.updLanding i f).copies = s.copies := rfl
@[simp] theorem State.updLanding_nextCopy (s : State) (i : Byte) (f : Landing → Landing) : (s.updLanding i f).nextCopy = s.nextCopy := rfl
@[simp] theorem State.updLanding_basins (s : State) (i : Byte) (f : Landing → Landing) : (s.updLanding i f).basins = s.basins := rfl
@[simp] theorem State.updLanding_tickets (s : State) (i : Byte) (f : Landing → Landing) : (s.updLanding i f).tickets = s.tickets := rfl
@[simp] theorem State.updLanding_past (s : State) (i : Byte) (f : Landing → Landing) : (s.updLanding i f).past = s.past := rfl
@[simp] theorem State.updLanding_silent (s : State) (i : Byte) (f : Landing → Landing) : (s.updLanding i f).silent = s.silent := rfl
@[simp] theorem State.updLanding_launches (s : State) (i : Byte) (f : Landing → Landing) : (s.updLanding i f).launches = s.launches := rfl
@[simp] theorem State.updLanding_queues (s : State) (i : Byte) (f : Landing → Landing) : (s.updLanding i f).queues = s.queues := rfl
@[simp] theorem State.updLanding_ctxs (s : State) (i : Byte) (f : Landing → Landing) : (s.updLanding i f).ctxs = s.ctxs := rfl
@[simp] theorem State.updLanding_parts (s : State) (i : Byte) (f : Landing → Landing) : (s.updLanding i f).parts = s.parts := rfl
@[simp] theorem State.updLanding_mr (s : State) (i : Byte) (f : Landing → Landing) : (s.updLanding i f).mr = s.mr := rfl
@[simp] theorem State.updLanding_versions (s : State) (i : Byte) (f : Landing → Landing) : (s.updLanding i f).versions = s.versions := rfl
@[simp] theorem State.updLanding_host (s : State) (i : Byte) (f : Landing → Landing) : (s.updLanding i f).host = s.host := rfl
@[simp] theorem State.updLanding_dramStack (s : State) (i : Byte) (f : Landing → Landing) : (s.updLanding i f).dramStack = s.dramStack := rfl
@[simp] theorem State.updLanding_handoff (s : State) (i : Byte) (f : Landing → Landing) : (s.updLanding i f).handoff = s.handoff := rfl
@[simp] theorem State.updLanding_upsetBits (s : State) (i : Byte) (f : Landing → Landing) : (s.updLanding i f).upsetBits = s.upsetBits := rfl
@[simp] theorem State.updLanding_upsetCells (s : State) (i : Byte) (f : Landing → Landing) : (s.updLanding i f).upsetCells = s.upsetCells := rfl
@[simp] theorem State.updLanding_stage2 (s : State) (i : Byte) (f : Landing → Landing) : (s.updLanding i f).stage2 = s.stage2 := rfl
@[simp] theorem State.updLanding_spares (s : State) (i : Byte) (f : Landing → Landing) : (s.updLanding i f).spares = s.spares := rfl
@[simp] theorem State.updLanding_ports (s : State) (i : Byte) (f : Landing → Landing) : (s.updLanding i f).ports = s.ports := rfl
@[simp] theorem State.updLanding_routes (s : State) (i : Byte) (f : Landing → Landing) : (s.updLanding i f).routes = s.routes := rfl
@[simp] theorem State.updLanding_smargin (s : State) (i : Byte) (f : Landing → Landing) : (s.updLanding i f).smargin = s.smargin := rfl
@[simp] theorem State.updLanding_aclk (s : State) (i : Byte) (f : Landing → Landing) : (s.updLanding i f).aclk = s.aclk := rfl
@[simp] theorem State.updLanding_service (s : State) (i : Byte) (f : Landing → Landing) : (s.updLanding i f).service = s.service := rfl
@[simp] theorem State.updLanding_pixels (s : State) (i : Byte) (f : Landing → Landing) : (s.updLanding i f).pixels = s.pixels := rfl
@[simp] theorem State.updLanding_lastPsn (s : State) (i : Byte) (f : Landing → Landing) : (s.updLanding i f).lastPsn = s.lastPsn := rfl
@[simp] theorem State.updLanding_tiles (s : State) (i : Byte) (f : Landing → Landing) : (s.updLanding i f).tiles = s.tiles := rfl
@[simp] theorem State.updLanding_cycle (s : State) (i : Byte) (f : Landing → Landing) : (s.updLanding i f).cycle = s.cycle := rfl
@[simp] theorem State.updLanding_upsets (s : State) (i : Byte) (f : Landing → Landing) : (s.updLanding i f).upsets = s.upsets := rfl
@[simp] theorem State.updLanding_plan (s : State) (i : Byte) (f : Landing → Landing) : (s.updLanding i f).plan = s.plan := rfl
@[simp] theorem State.updLanding_fresh (s : State) (i : Byte) (f : Landing → Landing) : (s.updLanding i f).fresh = s.fresh := rfl
/-! ### withMod -/
@[simp] theorem State.withMod_g (s : State) (m : MemMod) : (s.withMod m).g = s.g := rfl
@[simp] theorem State.withMod_others (s : State) (m : MemMod) : (s.withMod m).others = s.others := rfl
@[simp] theorem State.withMod_w (s : State) (m : MemMod) : (s.withMod m).w = s.w := rfl
@[simp] theorem State.withMod_otherWgs (s : State) (m : MemMod) : (s.withMod m).otherWgs = s.otherWgs := rfl
@[simp] theorem State.withMod_cores (s : State) (m : MemMod) : (s.withMod m).cores = s.cores := rfl
@[simp] theorem State.withMod_mem (s : State) (m : MemMod) : (s.withMod m).mem = s.mem := rfl
@[simp] theorem State.withMod_tags (s : State) (m : MemMod) : (s.withMod m).tags = s.tags := rfl
@[simp] theorem State.withMod_pois (s : State) (m : MemMod) : (s.withMod m).pois = s.pois := rfl
@[simp] theorem State.withMod_recoded (s : State) (m : MemMod) : (s.withMod m).recoded = s.recoded := rfl
@[simp] theorem State.withMod_keyed (s : State) (m : MemMod) : (s.withMod m).keyed = s.keyed := rfl
@[simp] theorem State.withMod_keyVer (s : State) (m : MemMod) : (s.withMod m).keyVer = s.keyVer := rfl
@[simp] theorem State.withMod_keyLoaded (s : State) (m : MemMod) : (s.withMod m).keyLoaded = s.keyLoaded := rfl
@[simp] theorem State.withMod_l1 (s : State) (m : MemMod) : (s.withMod m).l1 = s.l1 := rfl
@[simp] theorem State.withMod_l2 (s : State) (m : MemMod) : (s.withMod m).l2 = s.l2 := rfl
@[simp] theorem State.withMod_rlc (s : State) (m : MemMod) : (s.withMod m).rlc = s.rlc := rfl
@[simp] theorem State.withMod_icache (s : State) (m : MemMod) : (s.withMod m).icache = s.icache := rfl
@[simp] theorem State.withMod_tlb (s : State) (m : MemMod) : (s.withMod m).tlb = s.tlb := rfl
@[simp] theorem State.withMod_copies (s : State) (m : MemMod) : (s.withMod m).copies = s.copies := rfl
@[simp] theorem State.withMod_nextCopy (s : State) (m : MemMod) : (s.withMod m).nextCopy = s.nextCopy := rfl
@[simp] theorem State.withMod_basins (s : State) (m : MemMod) : (s.withMod m).basins = s.basins := rfl
@[simp] theorem State.withMod_tickets (s : State) (m : MemMod) : (s.withMod m).tickets = s.tickets := rfl
@[simp] theorem State.withMod_past (s : State) (m : MemMod) : (s.withMod m).past = s.past := rfl
@[simp] theorem State.withMod_silent (s : State) (m : MemMod) : (s.withMod m).silent = s.silent := rfl
@[simp] theorem State.withMod_launches (s : State) (m : MemMod) : (s.withMod m).launches = s.launches := rfl
@[simp] theorem State.withMod_queues (s : State) (m : MemMod) : (s.withMod m).queues = s.queues := rfl
@[simp] theorem State.withMod_ctxs (s : State) (m : MemMod) : (s.withMod m).ctxs = s.ctxs := rfl
@[simp] theorem State.withMod_parts (s : State) (m : MemMod) : (s.withMod m).parts = s.parts := rfl
@[simp] theorem State.withMod_mr (s : State) (m : MemMod) : (s.withMod m).mr = s.mr := rfl
@[simp] theorem State.withMod_versions (s : State) (m : MemMod) : (s.withMod m).versions = s.versions := rfl
@[simp] theorem State.withMod_host (s : State) (m : MemMod) : (s.withMod m).host = s.host := rfl
@[simp] theorem State.withMod_landing (s : State) (m : MemMod) : (s.withMod m).landing = s.landing := rfl
@[simp] theorem State.withMod_dramStack (s : State) (m : MemMod) : (s.withMod m).dramStack = s.dramStack := rfl
@[simp] theorem State.withMod_handoff (s : State) (m : MemMod) : (s.withMod m).handoff = s.handoff := rfl
@[simp] theorem State.withMod_upsetBits (s : State) (m : MemMod) : (s.withMod m).upsetBits = s.upsetBits := rfl
@[simp] theorem State.withMod_upsetCells (s : State) (m : MemMod) : (s.withMod m).upsetCells = s.upsetCells := rfl
@[simp] theorem State.withMod_stage2 (s : State) (m : MemMod) : (s.withMod m).stage2 = s.stage2 := rfl
@[simp] theorem State.withMod_spares (s : State) (m : MemMod) : (s.withMod m).spares = s.spares := rfl
@[simp] theorem State.withMod_ports (s : State) (m : MemMod) : (s.withMod m).ports = s.ports := rfl
@[simp] theorem State.withMod_routes (s : State) (m : MemMod) : (s.withMod m).routes = s.routes := rfl
@[simp] theorem State.withMod_smargin (s : State) (m : MemMod) : (s.withMod m).smargin = s.smargin := rfl
@[simp] theorem State.withMod_aclk (s : State) (m : MemMod) : (s.withMod m).aclk = s.aclk := rfl
@[simp] theorem State.withMod_service (s : State) (m : MemMod) : (s.withMod m).service = s.service := rfl
@[simp] theorem State.withMod_pixels (s : State) (m : MemMod) : (s.withMod m).pixels = s.pixels := rfl
@[simp] theorem State.withMod_lastPsn (s : State) (m : MemMod) : (s.withMod m).lastPsn = s.lastPsn := rfl
@[simp] theorem State.withMod_tiles (s : State) (m : MemMod) : (s.withMod m).tiles = s.tiles := rfl
@[simp] theorem State.withMod_cycle (s : State) (m : MemMod) : (s.withMod m).cycle = s.cycle := rfl
@[simp] theorem State.withMod_upsets (s : State) (m : MemMod) : (s.withMod m).upsets = s.upsets := rfl
@[simp] theorem State.withMod_plan (s : State) (m : MemMod) : (s.withMod m).plan = s.plan := rfl
@[simp] theorem State.withMod_fresh (s : State) (m : MemMod) : (s.withMod m).fresh = s.fresh := rfl
/-! ### countHop -/
@[simp] theorem State.countHop_g (s : State) (d : Fin 2) (i : Fin 14) : (s.countHop d i).g = s.g := rfl
@[simp] theorem State.countHop_others (s : State) (d : Fin 2) (i : Fin 14) : (s.countHop d i).others = s.others := rfl
@[simp] theorem State.countHop_w (s : State) (d : Fin 2) (i : Fin 14) : (s.countHop d i).w = s.w := rfl
@[simp] theorem State.countHop_otherWgs (s : State) (d : Fin 2) (i : Fin 14) : (s.countHop d i).otherWgs = s.otherWgs := rfl
@[simp] theorem State.countHop_latch (s : State) (d : Fin 2) (i : Fin 14) : (s.countHop d i).latch = s.latch := rfl
@[simp] theorem State.countHop_cores (s : State) (d : Fin 2) (i : Fin 14) : (s.countHop d i).cores = s.cores := rfl
@[simp] theorem State.countHop_mem (s : State) (d : Fin 2) (i : Fin 14) : (s.countHop d i).mem = s.mem := rfl
@[simp] theorem State.countHop_tags (s : State) (d : Fin 2) (i : Fin 14) : (s.countHop d i).tags = s.tags := rfl
@[simp] theorem State.countHop_pois (s : State) (d : Fin 2) (i : Fin 14) : (s.countHop d i).pois = s.pois := rfl
@[simp] theorem State.countHop_recoded (s : State) (d : Fin 2) (i : Fin 14) : (s.countHop d i).recoded = s.recoded := rfl
@[simp] theorem State.countHop_keyed (s : State) (d : Fin 2) (i : Fin 14) : (s.countHop d i).keyed = s.keyed := rfl
@[simp] theorem State.countHop_keyVer (s : State) (d : Fin 2) (i : Fin 14) : (s.countHop d i).keyVer = s.keyVer := rfl
@[simp] theorem State.countHop_keyLoaded (s : State) (d : Fin 2) (i : Fin 14) : (s.countHop d i).keyLoaded = s.keyLoaded := rfl
@[simp] theorem State.countHop_l1 (s : State) (d : Fin 2) (i : Fin 14) : (s.countHop d i).l1 = s.l1 := rfl
@[simp] theorem State.countHop_l2 (s : State) (d : Fin 2) (i : Fin 14) : (s.countHop d i).l2 = s.l2 := rfl
@[simp] theorem State.countHop_rlc (s : State) (d : Fin 2) (i : Fin 14) : (s.countHop d i).rlc = s.rlc := rfl
@[simp] theorem State.countHop_icache (s : State) (d : Fin 2) (i : Fin 14) : (s.countHop d i).icache = s.icache := rfl
@[simp] theorem State.countHop_tlb (s : State) (d : Fin 2) (i : Fin 14) : (s.countHop d i).tlb = s.tlb := rfl
@[simp] theorem State.countHop_copies (s : State) (d : Fin 2) (i : Fin 14) : (s.countHop d i).copies = s.copies := rfl
@[simp] theorem State.countHop_nextCopy (s : State) (d : Fin 2) (i : Fin 14) : (s.countHop d i).nextCopy = s.nextCopy := rfl
@[simp] theorem State.countHop_basins (s : State) (d : Fin 2) (i : Fin 14) : (s.countHop d i).basins = s.basins := rfl
@[simp] theorem State.countHop_tickets (s : State) (d : Fin 2) (i : Fin 14) : (s.countHop d i).tickets = s.tickets := rfl
@[simp] theorem State.countHop_past (s : State) (d : Fin 2) (i : Fin 14) : (s.countHop d i).past = s.past := rfl
@[simp] theorem State.countHop_silent (s : State) (d : Fin 2) (i : Fin 14) : (s.countHop d i).silent = s.silent := rfl
@[simp] theorem State.countHop_launches (s : State) (d : Fin 2) (i : Fin 14) : (s.countHop d i).launches = s.launches := rfl
@[simp] theorem State.countHop_queues (s : State) (d : Fin 2) (i : Fin 14) : (s.countHop d i).queues = s.queues := rfl
@[simp] theorem State.countHop_ctxs (s : State) (d : Fin 2) (i : Fin 14) : (s.countHop d i).ctxs = s.ctxs := rfl
@[simp] theorem State.countHop_parts (s : State) (d : Fin 2) (i : Fin 14) : (s.countHop d i).parts = s.parts := rfl
@[simp] theorem State.countHop_mr (s : State) (d : Fin 2) (i : Fin 14) : (s.countHop d i).mr = s.mr := rfl
@[simp] theorem State.countHop_versions (s : State) (d : Fin 2) (i : Fin 14) : (s.countHop d i).versions = s.versions := rfl
@[simp] theorem State.countHop_host (s : State) (d : Fin 2) (i : Fin 14) : (s.countHop d i).host = s.host := rfl
@[simp] theorem State.countHop_landing (s : State) (d : Fin 2) (i : Fin 14) : (s.countHop d i).landing = s.landing := rfl
@[simp] theorem State.countHop_dramStack (s : State) (d : Fin 2) (i : Fin 14) : (s.countHop d i).dramStack = s.dramStack := rfl
@[simp] theorem State.countHop_upsetBits (s : State) (d : Fin 2) (i : Fin 14) : (s.countHop d i).upsetBits = s.upsetBits := rfl
@[simp] theorem State.countHop_upsetCells (s : State) (d : Fin 2) (i : Fin 14) : (s.countHop d i).upsetCells = s.upsetCells := rfl
@[simp] theorem State.countHop_stage2 (s : State) (d : Fin 2) (i : Fin 14) : (s.countHop d i).stage2 = s.stage2 := rfl
@[simp] theorem State.countHop_spares (s : State) (d : Fin 2) (i : Fin 14) : (s.countHop d i).spares = s.spares := rfl
@[simp] theorem State.countHop_ports (s : State) (d : Fin 2) (i : Fin 14) : (s.countHop d i).ports = s.ports := rfl
@[simp] theorem State.countHop_routes (s : State) (d : Fin 2) (i : Fin 14) : (s.countHop d i).routes = s.routes := rfl
@[simp] theorem State.countHop_smargin (s : State) (d : Fin 2) (i : Fin 14) : (s.countHop d i).smargin = s.smargin := rfl
@[simp] theorem State.countHop_aclk (s : State) (d : Fin 2) (i : Fin 14) : (s.countHop d i).aclk = s.aclk := rfl
@[simp] theorem State.countHop_service (s : State) (d : Fin 2) (i : Fin 14) : (s.countHop d i).service = s.service := rfl
@[simp] theorem State.countHop_pixels (s : State) (d : Fin 2) (i : Fin 14) : (s.countHop d i).pixels = s.pixels := rfl
@[simp] theorem State.countHop_lastPsn (s : State) (d : Fin 2) (i : Fin 14) : (s.countHop d i).lastPsn = s.lastPsn := rfl
@[simp] theorem State.countHop_tiles (s : State) (d : Fin 2) (i : Fin 14) : (s.countHop d i).tiles = s.tiles := rfl
@[simp] theorem State.countHop_cycle (s : State) (d : Fin 2) (i : Fin 14) : (s.countHop d i).cycle = s.cycle := rfl
@[simp] theorem State.countHop_upsets (s : State) (d : Fin 2) (i : Fin 14) : (s.countHop d i).upsets = s.upsets := rfl
@[simp] theorem State.countHop_plan (s : State) (d : Fin 2) (i : Fin 14) : (s.countHop d i).plan = s.plan := rfl
@[simp] theorem State.countHop_fresh (s : State) (d : Fin 2) (i : Fin 14) : (s.countHop d i).fresh = s.fresh := rfl

/-! ### The group under setRegs and setLeaf -/
@[simp] theorem State.setRegs_g_gid (s : State) (f : Regs → Regs) : (s.setRegs f).g.gid = s.g.gid := rfl
@[simp] theorem State.setRegs_g_admitted (s : State) (f : Regs → Regs) : (s.setRegs f).g.admitted = s.g.admitted := rfl
@[simp] theorem State.setRegs_g_wid (s : State) (f : Regs → Regs) : (s.setRegs f).g.wid = s.g.wid := rfl
@[simp] theorem State.setRegs_g_gidx (s : State) (f : Regs → Regs) : (s.setRegs f).g.gidx = s.g.gidx := rfl
@[simp] theorem State.setRegs_g_core (s : State) (f : Regs → Regs) : (s.setRegs f).g.core = s.g.core := rfl
@[simp] theorem State.setRegs_g_simd (s : State) (f : Regs → Regs) : (s.setRegs f).g.simd = s.g.simd := rfl
@[simp] theorem State.setRegs_g_gslot (s : State) (f : Regs → Regs) : (s.setRegs f).g.gslot = s.g.gslot := rfl
@[simp] theorem State.setRegs_g_method (s : State) (f : Regs → Regs) : (s.setRegs f).g.method = s.g.method := rfl
@[simp] theorem State.setRegs_g_regs (s : State) (f : Regs → Regs) : (s.setRegs f).g.regs = f s.g.regs := rfl
@[simp] theorem State.setRegs_g_me (s : State) (f : Regs → Regs) : (s.setRegs f).g.me = s.g.me := rfl
@[simp] theorem State.setRegs_g_sel (s : State) (f : Regs → Regs) : (s.setRegs f).g.sel = s.g.sel := rfl
@[simp] theorem State.setRegs_g_mate (s : State) (f : Regs → Regs) : (s.setRegs f).g.mate = s.g.mate := rfl
@[simp] theorem State.setRegs_g_turn (s : State) (f : Regs → Regs) : (s.setRegs f).g.turn = s.g.turn := rfl
@[simp] theorem State.setRegs_g_entries (s : State) (f : Regs → Regs) : (s.setRegs f).g.entries = s.g.entries := rfl
@[simp] theorem State.setRegs_g_nextEntry (s : State) (f : Regs → Regs) : (s.setRegs f).g.nextEntry = s.g.nextEntry := rfl
@[simp] theorem State.setRegs_g_dead (s : State) (f : Regs → Regs) : (s.setRegs f).g.dead = s.g.dead := rfl
@[simp] theorem State.setRegs_g_exited (s : State) (f : Regs → Regs) : (s.setRegs f).g.exited = s.g.exited := rfl
@[simp] theorem State.setRegs_g_startExited (s : State) (f : Regs → Regs) : (s.setRegs f).g.startExited = s.g.startExited := rfl
@[simp] theorem State.setRegs_g_records (s : State) (f : Regs → Regs) : (s.setRegs f).g.records = s.g.records := rfl
@[simp] theorem State.setRegs_g_lost (s : State) (f : Regs → Regs) : (s.setRegs f).g.lost = s.g.lost := rfl
@[simp] theorem State.setRegs_g_lostCount (s : State) (f : Regs → Regs) : (s.setRegs f).g.lostCount = s.g.lostCount := rfl
@[simp] theorem State.setRegs_g_divsp (s : State) (f : Regs → Regs) : (s.setRegs f).g.divsp = s.g.divsp := rfl
@[simp] theorem State.setRegs_g_spillN (s : State) (f : Regs → Regs) : (s.setRegs f).g.spillN = s.g.spillN := rfl
@[simp] theorem State.setRegs_g_status (s : State) (f : Regs → Regs) : (s.setRegs f).g.status = s.g.status := rfl
@[simp] theorem State.setRegs_g_haltCode (s : State) (f : Regs → Regs) : (s.setRegs f).g.haltCode = s.g.haltCode := rfl
@[simp] theorem State.setRegs_g_poisonHalt (s : State) (f : Regs → Regs) : (s.setRegs f).g.poisonHalt = s.g.poisonHalt := rfl
@[simp] theorem State.setRegs_g_parked (s : State) (f : Regs → Regs) : (s.setRegs f).g.parked = s.g.parked := rfl
@[simp] theorem State.setRegs_g_reads (s : State) (f : Regs → Regs) : (s.setRegs f).g.reads = s.g.reads := rfl
@[simp] theorem State.setRegs_g_debt (s : State) (f : Regs → Regs) : (s.setRegs f).g.debt = s.g.debt := rfl
@[simp] theorem State.setRegs_g_region (s : State) (f : Regs → Regs) : (s.setRegs f).g.region = s.g.region := rfl
@[simp] theorem State.setRegs_g_seed (s : State) (f : Regs → Regs) : (s.setRegs f).g.seed = s.g.seed := rfl
@[simp] theorem State.setRegs_g_restartable (s : State) (f : Regs → Regs) : (s.setRegs f).g.restartable = s.g.restartable := rfl
@[simp] theorem State.setRegs_g_barPhase (s : State) (f : Regs → Regs) : (s.setRegs f).g.barPhase = s.g.barPhase := rfl
@[simp] theorem State.setRegs_g_barPending (s : State) (f : Regs → Regs) : (s.setRegs f).g.barPending = s.g.barPending := rfl
@[simp] theorem State.setRegs_g_barSlot (s : State) (f : Regs → Regs) : (s.setRegs f).g.barSlot = s.g.barSlot := rfl
@[simp] theorem State.setRegs_g_sealedTo (s : State) (f : Regs → Regs) : (s.setRegs f).g.sealedTo = s.g.sealedTo := rfl
@[simp] theorem State.setRegs_g_failed (s : State) (f : Regs → Regs) : (s.setRegs f).g.failed = s.g.failed := rfl
@[simp] theorem State.setRegs_g_passed (s : State) (f : Regs → Regs) : (s.setRegs f).g.passed = s.g.passed := rfl
@[simp] theorem State.setRegs_g_boost (s : State) (f : Regs → Regs) : (s.setRegs f).g.boost = s.g.boost := rfl
@[simp] theorem State.setLeaf_g_gid (s : State) (f : Entry → Entry) : (s.setLeaf f).g.gid = s.g.gid := rfl
@[simp] theorem State.setLeaf_g_admitted (s : State) (f : Entry → Entry) : (s.setLeaf f).g.admitted = s.g.admitted := rfl
@[simp] theorem State.setLeaf_g_wid (s : State) (f : Entry → Entry) : (s.setLeaf f).g.wid = s.g.wid := rfl
@[simp] theorem State.setLeaf_g_gidx (s : State) (f : Entry → Entry) : (s.setLeaf f).g.gidx = s.g.gidx := rfl
@[simp] theorem State.setLeaf_g_core (s : State) (f : Entry → Entry) : (s.setLeaf f).g.core = s.g.core := rfl
@[simp] theorem State.setLeaf_g_simd (s : State) (f : Entry → Entry) : (s.setLeaf f).g.simd = s.g.simd := rfl
@[simp] theorem State.setLeaf_g_gslot (s : State) (f : Entry → Entry) : (s.setLeaf f).g.gslot = s.g.gslot := rfl
@[simp] theorem State.setLeaf_g_method (s : State) (f : Entry → Entry) : (s.setLeaf f).g.method = s.g.method := rfl
@[simp] theorem State.setLeaf_g_regs (s : State) (f : Entry → Entry) : (s.setLeaf f).g.regs = s.g.regs := rfl
@[simp] theorem State.setLeaf_g_sel (s : State) (f : Entry → Entry) : (s.setLeaf f).g.sel = s.g.sel := rfl
@[simp] theorem State.setLeaf_g_mate (s : State) (f : Entry → Entry) : (s.setLeaf f).g.mate = s.g.mate := rfl
@[simp] theorem State.setLeaf_g_turn (s : State) (f : Entry → Entry) : (s.setLeaf f).g.turn = s.g.turn := rfl
@[simp] theorem State.setLeaf_g_entries (s : State) (f : Entry → Entry) : (s.setLeaf f).g.entries = s.g.entries := rfl
@[simp] theorem State.setLeaf_g_nextEntry (s : State) (f : Entry → Entry) : (s.setLeaf f).g.nextEntry = s.g.nextEntry := rfl
@[simp] theorem State.setLeaf_g_dead (s : State) (f : Entry → Entry) : (s.setLeaf f).g.dead = s.g.dead := rfl
@[simp] theorem State.setLeaf_g_exited (s : State) (f : Entry → Entry) : (s.setLeaf f).g.exited = s.g.exited := rfl
@[simp] theorem State.setLeaf_g_startExited (s : State) (f : Entry → Entry) : (s.setLeaf f).g.startExited = s.g.startExited := rfl
@[simp] theorem State.setLeaf_g_records (s : State) (f : Entry → Entry) : (s.setLeaf f).g.records = s.g.records := rfl
@[simp] theorem State.setLeaf_g_lost (s : State) (f : Entry → Entry) : (s.setLeaf f).g.lost = s.g.lost := rfl
@[simp] theorem State.setLeaf_g_lostCount (s : State) (f : Entry → Entry) : (s.setLeaf f).g.lostCount = s.g.lostCount := rfl
@[simp] theorem State.setLeaf_g_divsp (s : State) (f : Entry → Entry) : (s.setLeaf f).g.divsp = s.g.divsp := rfl
@[simp] theorem State.setLeaf_g_spillN (s : State) (f : Entry → Entry) : (s.setLeaf f).g.spillN = s.g.spillN := rfl
@[simp] theorem State.setLeaf_g_status (s : State) (f : Entry → Entry) : (s.setLeaf f).g.status = s.g.status := rfl
@[simp] theorem State.setLeaf_g_haltCode (s : State) (f : Entry → Entry) : (s.setLeaf f).g.haltCode = s.g.haltCode := rfl
@[simp] theorem State.setLeaf_g_poisonHalt (s : State) (f : Entry → Entry) : (s.setLeaf f).g.poisonHalt = s.g.poisonHalt := rfl
@[simp] theorem State.setLeaf_g_parked (s : State) (f : Entry → Entry) : (s.setLeaf f).g.parked = s.g.parked := rfl
@[simp] theorem State.setLeaf_g_reads (s : State) (f : Entry → Entry) : (s.setLeaf f).g.reads = s.g.reads := rfl
@[simp] theorem State.setLeaf_g_debt (s : State) (f : Entry → Entry) : (s.setLeaf f).g.debt = s.g.debt := rfl
@[simp] theorem State.setLeaf_g_region (s : State) (f : Entry → Entry) : (s.setLeaf f).g.region = s.g.region := rfl
@[simp] theorem State.setLeaf_g_seed (s : State) (f : Entry → Entry) : (s.setLeaf f).g.seed = s.g.seed := rfl
@[simp] theorem State.setLeaf_g_restartable (s : State) (f : Entry → Entry) : (s.setLeaf f).g.restartable = s.g.restartable := rfl
@[simp] theorem State.setLeaf_g_barPhase (s : State) (f : Entry → Entry) : (s.setLeaf f).g.barPhase = s.g.barPhase := rfl
@[simp] theorem State.setLeaf_g_barPending (s : State) (f : Entry → Entry) : (s.setLeaf f).g.barPending = s.g.barPending := rfl
@[simp] theorem State.setLeaf_g_barSlot (s : State) (f : Entry → Entry) : (s.setLeaf f).g.barSlot = s.g.barSlot := rfl
@[simp] theorem State.setLeaf_g_sealedTo (s : State) (f : Entry → Entry) : (s.setLeaf f).g.sealedTo = s.g.sealedTo := rfl
@[simp] theorem State.setLeaf_g_failed (s : State) (f : Entry → Entry) : (s.setLeaf f).g.failed = s.g.failed := rfl
@[simp] theorem State.setLeaf_g_passed (s : State) (f : Entry → Entry) : (s.setLeaf f).g.passed = s.g.passed := rfl
@[simp] theorem State.setLeaf_g_boost (s : State) (f : Entry → Entry) : (s.setLeaf f).g.boost = s.g.boost := rfl
@[simp] theorem State.setLeaf_leaf (s : State) (f : Entry → Entry) : (s.setLeaf f).g.me.leaf = s.g.me.leaf.map f := rfl
@[simp] theorem State.setRegs_setRegs (s : State) (f h : Regs → Regs) : (s.setRegs f).setRegs h = s.setRegs fun r => h (f r) := rfl
@[simp] theorem State.setRegs_withLatch (s : State) (L : Latch) (f : Regs → Regs) : (s.withLatch L).setRegs f = (s.setRegs f).withLatch L := rfl
@[simp] theorem State.withLatch_withLatch (s : State) (L M : Latch) : (s.withLatch L).withLatch M = s.withLatch M := rfl

/-! ### Registers under writes (R22, R23) -/
/-- A predicate's write changes the predicates alone. -/
theorem Regs.setP_eq (r : Regs) (d : PReg) (m : Mask) (f : Lane → PVal) : r.setP d m f = { r with p := (r.setP d m f).p } := by
  unfold Regs.setP
  split <;> rfl
@[simp] theorem Regs.setP_lactive (r : Regs) (d : PReg) (m : Mask) (f : Lane → PVal) : (r.setP d m f).lactive = r.lactive := by
  rw [Regs.setP_eq]
@[simp] theorem Regs.setV_lactive (r : Regs) (d : VReg) (m : Mask) (f : Lane → Word) : (r.setV d m f).lactive = r.lactive := rfl

end
end Sys2Proof.Machine
end

