-- ==== Sys2Proof/Laws/Tree.lean ====
section
/-!
SUPPORT. Laws/Tree.lean: the rules of the divergence tree (R64-R67) change where a group's leaves stand, and nothing else.
-/
namespace Sys2Proof.Machine

/-- `g` with its leaves where `h` has them. -/
def Group.movedTo (g h : Group) : Group :=
  { g with
    me := { g.me with leaf := h.me.leaf, stalled := h.me.stalled, since := h.me.since }
    mate := { g.mate with leaf := h.mate.leaf, stalled := h.mate.stalled, since := h.mate.since }
    entries := h.entries }
/-- `h` is `g` but for where the leaves stand. -/
def Group.Moved (g h : Group) : Prop := h = g.movedTo h

theorem Group.Moved.refl (g : Group) : g.Moved g := rfl
theorem Group.Moved.trans {a b c : Group} (h : a.Moved b) (k : b.Moved c) : a.Moved c := by
  unfold Group.Moved at *
  rw [k, h]; rfl

theorem Group.dropEntry_moved (g : Group) (id : Nat) : g.Moved (g.dropEntry id) := rfl
theorem Group.setEntries_moved (g : Group) (l : List Entry) : g.Moved { g with entries := l } := rfl
theorem Group.setSlot_moved (g : Group) (k : Fin 2) (o : Option Entry) (b : Bool) (n : Nat) :
    g.Moved (g.setSlot k { g.slot k with leaf := o, stalled := b, since := n }) := by
  unfold Group.setSlot Group.slot
  split <;> rfl
theorem Group.free_moved (g : Group) (k : Fin 2) : g.Moved (g.setSlot k { g.slot k with leaf := none }) :=
  g.setSlot_moved k none (g.slot k).stalled (g.slot k).since
theorem Group.seat_moved (g : Group) (k : Fin 2) (l : Entry) (now : Nat) : g.Moved (g.seat k l now) := g.setSlot_moved k _ _ _
theorem Group.place_moved (g : Group) (k : Option (Fin 2)) (l : Entry) (now : Nat) : g.Moved (g.place k l now) := by
  unfold Group.place
  split
  · split
    · exact g.seat_moved ..
    · rfl
  · rfl
theorem Group.treeSuspended_moved {now : Nat} {g : Group} {r} (h : g.treeSuspended now = some r) : g.Moved r.1 := by
  unfold Group.treeSuspended at h
  split at h
  · split at h <;> (cases h; rfl)
  · split at h
    · cases h
    · split at h
      · cases h; exact (g.dropEntry_moved _).trans (Group.seat_moved ..)
      · split at h
        · cases h; exact (g.dropEntry_moved _).trans (Group.seat_moved ..)
        · cases h
theorem Group.treeSlot_moved {g : Group} {k : Fin 2} {r} (h : g.treeSlot k = some r) : g.Moved r.1 := by
  unfold Group.treeSlot at h
  split at h
  · cases h
  · dsimp only at h
    split at h
    · cases h; exact g.free_moved k
    · split at h
      · cases h; exact (g.free_moved k).trans (Group.setEntries_moved ..)
      · cases h
theorem Group.treeParent_moved {now : Nat} {g : Group} {f r} (h : g.treeParent now f = some r) : g.Moved r.1 := by
  unfold Group.treeParent at h
  split at h
  · dsimp only at h
    split at h
    · cases h; exact g.dropEntry_moved _
    · cases h; exact (g.dropEntry_moved _).trans (Group.place_moved ..)
  · split at h
    · dsimp only at h
      split at h
      · cases h; rfl
      · cases h; exact (g.setEntries_moved _).trans (Group.place_moved ..)
    · cases h
theorem orElse_cases {α : Type} {a : Option α} {b : Unit → Option α} {x : α} (h : a.orElse b = some x) : a = some x ∨ b () = some x := by
  cases a with
  | some y => exact .inl h
  | none => exact .inr h
theorem Group.treeStep_moved {now : Nat} {g : Group} {f r} (h : g.treeStep now f = some r) : g.Moved r.1 := by
  have slots : ((g.treeSlot 0).orElse fun _ => g.treeSlot 1) = some r → g.Moved r.1 := fun h =>
    (orElse_cases h).elim treeSlot_moved treeSlot_moved
  unfold Group.treeStep at h
  obtain h | h := orElse_cases h
  · split at h
    · exact (orElse_cases h).elim treeParent_moved slots
    · exact (orElse_cases h).elim slots treeParent_moved
  · exact treeSuspended_moved h
theorem Group.treeLoop_moved (now n : Nat) (g : Group) (f : Option (Fin 2)) : g.Moved (g.treeLoop now n f) := by
  induction n generalizing g f with
  | zero => rfl
  | succ n ih =>
    unfold Group.treeLoop
    split
    · rfl
    · exact (treeStep_moved (by assumption)).trans (ih ..)
theorem Group.regrow_moved (now : Nat) (g : Group) (f : Option (Fin 2)) : g.Moved (g.regrow now f) := treeLoop_moved ..

theorem State.regrow_moved (s : State) (f : Option (Fin 2)) : s.regrow f = { s with g := s.g.movedTo (s.regrow f).g } :=
  congrArg (fun g => ({ s with g := g } : State)) (s.g.regrow_moved s.fresh f)

end Sys2Proof.Machine
end

