-- ==== Sys2Proof/Laws/Issue.lean ====
section
/-!
SUPPORT. Laws/Issue.lean: what the issue of an undisturbed word leaves: its effect, gone on (R40, R75, R85-R89, R135, R396).
-/
namespace Sys2Proof.Machine
noncomputable section

/-! ### Going on -/
/-- `g` with other loop counters. -/
def Group.looped (g : Group) (lc : Vector Word 3) (la : BitVec 3) : Group := { g with regs := { g.regs with lc := lc, lactive := la } }

theorem State.goto_moves (s : State) (t : Word) (L : Latch) :
    (s.withLatch L).goto t = { s with latch := L, g := (s.g.looped s.g.regs.lc s.g.regs.lactive).movedTo (s.goto t).g } :=
  congrArg (fun g => ({ s with latch := L, g := g } : State))
    ((Group.Moved.trans (a := s.g) (b := (s.setLeaf fun l => { l.idle with pc := t, ws := 0, skip := none }).g)
      rfl (Group.regrow_moved s.fresh _ none)))

/-- One level of the loop end check. -/
theorem State.loopCheck_succ (p : Word) (n : Nat) (s : State) (k : Fin 3) (hk : topLevel s.g.regs.lactive = some k) :
    State.loopCheck p (n + 1) s =
      (if s.g.regs.lend[k] ≠ p then s.goto (p + 1)
      else if s.g.splitOpen then ((s.raise 0x0F s.g.amask).setRegs fun r => r.uninstall k).goto (p + 1)
      else if s.g.regs.lc[k].toNat > 1 then (s.setRegs fun r => { r with lc := r.lc.set k (r.lc[k] - 1) }).goto s.g.regs.lstart[k]
      else State.loopCheck p n (s.setRegs fun r => r.uninstall k)) := by
  conv => lhs; unfold State.loopCheck
  rw [hk]

/-- A loop check that cannot fault moves leaves and loop counters only, whatever the latch holds. -/
theorem State.loopCheck_moves (p : Word) (n : Nat) (s : State) (h : s.g.regs.lactive = 0 ∨ s.g.splitOpen = false) :
    ∃ h lc la, ∀ L, State.loopCheck p n (s.withLatch L) = { s with latch := L, g := (s.g.looped lc la).movedTo h } := by
  induction n generalizing s with
  | zero => exact ⟨_, _, _, fun L => s.goto_moves _ L⟩
  | succ n ih =>
    cases hk : topLevel s.g.regs.lactive with
    | none =>
      exact ⟨_, _, _, fun L => by unfold State.loopCheck; simp only [State.withLatch_g, hk]; exact s.goto_moves _ L⟩
    | some k =>
      have e0 := fun L : Latch => State.loopCheck_succ p n (s.withLatch L) k hk
      by_cases he : s.g.regs.lend[k] ≠ p
      · exact ⟨_, _, _, fun L => (e0 L).trans ((if_pos he).trans (s.goto_moves _ L))⟩
      · obtain h | h := h
        · rw [h] at hk; revert hk; simp [topLevel]
        · have e1 := fun L : Latch => (e0 L).trans ((if_neg he).trans (if_neg (c := (s.withLatch L).g.splitOpen = true) (by
            rw [State.withLatch_g, h]; decide)))
          by_cases hc : s.g.regs.lc[k].toNat > 1
          · let u := s.setRegs fun r => { r with lc := r.lc.set k (r.lc[k] - 1) }
            exact ⟨(u.goto s.g.regs.lstart[k]).g, u.g.regs.lc, s.g.regs.lactive, fun L => (e1 L).trans ((if_pos hc).trans
              (u.goto_moves s.g.regs.lstart[k] L))⟩
          · obtain ⟨x, lc, la, e⟩ := ih (s.setRegs fun r => r.uninstall k) (.inr h)
            exact ⟨x, lc, la, fun L => (e1 L).trans ((if_neg hc).trans (e L))⟩

/-- So does the way on from a word. -/
theorem State.advance_moves (s : State) (len : Nat) (h : Flows s len) :
    ∃ h lc la, ∀ L : Latch, L.only = none → (s.withLatch L).advance len = { s with latch := L, g := (s.g.looped lc la).movedTo h } := by
  unfold State.advance
  cases hl : s.g.me.leaf with
  | none => exact ⟨s.g, s.g.regs.lc, s.g.regs.lactive, fun L hL => by
      simp only [State.withLatch_g, State.withLatch_latch, hL, hl]; rfl⟩
  | some l =>
    by_cases hw : l.ws + len < 3
    · refine ⟨(s.setLeaf fun l => { l.idle with ws := l.ws + len }).g, s.g.regs.lc, s.g.regs.lactive,
        fun L hL => ?_⟩
      simp only [State.withLatch_g, State.withLatch_latch, hL, hl, if_pos hw]; rfl
    · unfold State.leave
      cases hs : l.skip with
      | some t => exact ⟨_, _, _, fun L hL => by
          simp only [State.withLatch_g, State.withLatch_latch, hL, hl, if_neg hw, hs]; exact s.goto_moves _ L⟩
      | none =>
        obtain ⟨x, lc, la, e⟩ := s.loopCheck_moves l.pc 3 ((h l hl).resolve_left hw)
        exact ⟨x, lc, la, fun L hL => by
          simp only [State.withLatch_g, State.withLatch_latch, hL, hl, if_neg hw, hs]; exact e L⟩

/-- What an issue may have left in its latch without anything to act on: flags and shadow counts. -/
structure Latch.Still (L : Latch) : Prop where
  stall : L.stall = false
  only : L.only = none
  first : L.first = false
  faults : L.faults = []
  dying : L.dying = 0
  soft : L.soft = none
  halting : L.halting = none
  skipped : L.skipped = false

theorem State.closeIssue_still (u : State) (h : u.latch.Still) (hd : u.g.debt = {}) (hr : u.g.status = .ready) :
    u.closeIssue = { u with latch := {} } := by
  have e : ({ u.g with debt := {} } : Group) = u.g := by rw [← hd]
  unfold State.closeIssue State.settle
  rw [h.first, hr, hd]
  unfold State.act Debt.add
  rw [h.faults, h.dying, h.soft, h.halting]
  exact congrArg (fun g => ({ u with latch := {}, g := g } : State)) e

/-- An undisturbed word reads the group as it stands. -/
theorem Issues.src {i : Instr} {s : State} (h : Issues i s) : s.src = s.g := by unfold State.src; rw [h.alone]; rfl
theorem Issues.lanesEq {i : Instr} {s : State} (h : Issues i s) (g : Bool) : s.lanes g = s.g.lanes g := by
  unfold State.lanes; rw [h.src, h.alone]; exact BitVec.and_allOnes

/-- The issue of an undisturbed word is its effect. -/
theorem issue_still {i : Instr} {body : State → State} {s : State} (hI : Issues i s) :
    issue i body s =
      (let t := body (s.withLatch { len := i.len, depth := some s.depthNow })
       if t.latch.stall then .next t else .next t.countRetired.closeIssue) := by
  have hc : s.canIssue = true := by unfold State.canIssue; rw [hI.src, hI.leaf, hI.ready]; rfl
  have hm : ¬ (((i.names.pipe = .M || i.names.pipe = .A) && s.lanes false = 0) = true) := by
    intro hx
    simp only [Bool.and_eq_true, Bool.or_eq_true, decide_eq_true_eq] at hx
    have := hI.lanes hx.1
    rw [hI.lanesEq] at hx
    exact this hx.2
  have hl : s.illegal i = false := by unfold State.illegal; rw [hI.allowed, hI.lawful, Bool.and_false]; rfl
  unfold issue
  rw [hc, hl, if_neg hm, hI.settled, hI.src, hI.landed, hI.sound]
  simp only [Bool.not_true, Bool.false_eq_true, if_false, ne_eq, not_true, decide_false, Bool.or_self, Bool.and_false]
  unfold State.withLatch
  rw [hI.alone]

/-- The law of sequential words: a body with effect `u` that has left nothing to act on. -/
theorem issueSeq_goesOn {i : Instr} {body : State → State} {s u : State} {L : Latch} (hx : exec i s = issueSeq i body s) (hI : Issues i s)
    (hu : body (s.withLatch { len := i.len, depth := some s.depthNow }) = u.withLatch L) (hL : L.Still) (h0 : u.latch.only = none)
    (hd : u.g.debt = {}) (hr : u.g.status = .ready) (hF : Flows u i.len) : GoesOn i s u := by
  obtain ⟨h, lc, la, e⟩ := u.advance_moves i.len hF
  unfold GoesOn
  rw [hx]
  unfold issueSeq
  rw [issue_still hI]
  have e1 : State.advance u i.len = { u with g := (u.g.looped lc la).movedTo h } := e u.latch h0
  simp only [hu]
  have hs : (u.withLatch L).latch.stall = false := hL.stall
  rw [hs]
  simp only [Bool.false_eq_true, if_false, e L hL.only, hL.stall]
  unfold State.countRetired
  simp only [hL.only, hL.skipped, Option.isSome_none, Bool.or_self, Bool.false_eq_true, if_false]
  have e2 := State.closeIssue_still ({ u with latch := L, g := (u.g.looped lc la).movedTo h }.setRegs fun r => { r with retired := r.retired + 1 })
    hL hd hr
  unfold State.onward
  rw [e1, e2]
  rfl

/-! ### Words that act lane by lane -/
theorem sift_clean {i : Instr} {s : State} {m : Mask} (h : s.src.poisonIn i.names.vr m = 0) : s.sift i.names m = (m, s) := by
  unfold State.sift State.consume
  rw [h]
  exact congrArg (fun x => (x, s)) BitVec.and_allOnes

theorem laneWord_effect {i : Instr} {s : State} {g : Bool} {d : VReg} {f : Group → Lane → Word} (hx : exec i s = laneWord i g d f s) :
    GivesV i s g d (f s.g) := by
  intro hI hF hC
  refine issueSeq_goesOn (L := { len := i.len, depth := some s.depthNow }) hx hI ?_ ⟨rfl, rfl, rfl, rfl, rfl, rfl, rfl, rfl⟩ ?_ hI.calm hI.ready hF
  · have h1 : (s.withLatch { len := i.len, depth := some s.depthNow }).src = s.g := rfl
    have h2 : (s.withLatch { len := i.len, depth := some s.depthNow }).lanes g = s.g.lanes g := BitVec.and_allOnes
    rw [h2, sift_clean (by rw [h1]; exact hC)]
    rfl
  · show s.latch.only = none
    rw [hI.alone]

theorem lanePred_effect {i : Instr} {s : State} {g : Bool} {d : PReg} {f : Group → Lane → PVal} (hx : exec i s = lanePred i g d f s) :
    GivesP i s g d (f s.g) := by
  intro hI hF hC
  refine issueSeq_goesOn (L := { len := i.len, depth := some s.depthNow }) hx hI ?_ ⟨rfl, rfl, rfl, rfl, rfl, rfl, rfl, rfl⟩ ?_ hI.calm hI.ready ?_
  · have h1 : (s.withLatch { len := i.len, depth := some s.depthNow }).src = s.g := rfl
    have h2 : (s.withLatch { len := i.len, depth := some s.depthNow }).lanes g = s.g.lanes g := BitVec.and_allOnes
    rw [h2, sift_clean (by rw [h1]; exact hC)]
    rfl
  · show s.latch.only = none
    rw [hI.alone]
  · intro l hl
    have := hF l hl
    rwa [← Regs.setP_lactive s.g.regs d (s.g.lanes g) (f s.g)] at this

/-! ### Words that act once for the group -/
/-- Masks, places and waits of the issuing leaf do not decide whether a split is open. -/
theorem Group.splitOpen_leaf (g : Group) (l k : Entry) (hl : g.me.leaf = some l) (h1 : k.kind = l.kind) (h2 : k.arr = l.arr) (h3 : k.id = l.id) :
    ({ g with me := { g.me with leaf := some k } } : Group).splitOpen = g.splitOpen := by
  have ha : Group.afterTrap { g with me := { g.me with leaf := some k } } = g.afterTrap := rfl
  have hb : g.afterTrap k = g.afterTrap l := by unfold Group.afterTrap; rw [h3]
  unfold Group.splitOpen Group.allEntries Group.residents
  rw [ha, hl]
  simp only [Option.toList, List.cons_append, List.filter_cons, hb]
  cases g.afterTrap l <;> simp [h1, h2, List.filter_cons]
  split <;> rfl
/-- A scalar's write touches registers or the active mask only. -/
theorem setS_latch (s : State) (d : SReg) (w : Word) (L : Latch) : (s.withLatch L).setS d w = (s.setS d w).withLatch L := by
  unfold State.setS State.setActive State.withLatch
  split
  · rfl
  · split
    · dsimp only; split <;> rfl
    · rfl
theorem setS_keeps (s : State) (d : SReg) (w : Word) :
    (s.setS d w).latch = s.latch ∧ (s.setS d w).g.debt = s.g.debt ∧ (s.setS d w).g.status = s.g.status ∧
    ∀ len, Flows s len → Flows (s.setS d w) len := by
  unfold State.setS State.setActive
  split
  · exact ⟨rfl, rfl, rfl, fun _ h => h⟩
  · split
    · cases hl : s.g.me.leaf with
      | none => exact ⟨rfl, rfl, rfl, fun _ h => h⟩
      | some l =>
        refine ⟨rfl, rfl, rfl, fun len h k hk => ?_⟩
        have e := Option.some.inj hk
        subst e
        exact (h l hl).imp_right (Or.imp_right fun h =>
          (s.g.splitOpen_leaf l { l with amask := setMaskWord s.g.amask (d.val - 60) w &&& l.emask } hl rfl rfl rfl).trans h)
    · exact ⟨rfl, rfl, rfl, fun _ h => h⟩
theorem scalarWord_effect {i : Instr} {s : State} {d : SReg} {f : Group → Word} (hx : exec i s = scalarWord i d f s) :
    GivesS i s d (f s.g) := by
  intro hI hF _
  obtain ⟨h1, h2, h3, h4⟩ := setS_keeps s d (f s.g)
  exact issueSeq_goesOn (L := { len := i.len, depth := some s.depthNow }) hx hI (setS_latch s d _ _) ⟨rfl, rfl, rfl, rfl, rfl, rfl, rfl, rfl⟩
    (by rw [h1, hI.alone]) (h2.trans hI.calm) (h3.trans hI.ready) (h4 _ hF)
theorem scalarPair_effect {i : Instr} {s : State} {d : SReg} {f : Group → Dword} (hx : exec i s = scalarPair i d f s) :
    GivesS64 i s d (f s.g) := by
  intro hI hF _
  obtain ⟨h1, h2, h3, h4⟩ := setS_keeps s d (pairLo (f s.g))
  obtain ⟨k1, k2, k3, k4⟩ := setS_keeps (s.setS d (pairLo (f s.g))) (sreg d 1) (pairHi (f s.g))
  refine issueSeq_goesOn (L := { len := i.len, depth := some s.depthNow }) hx hI ?_ ⟨rfl, rfl, rfl, rfl, rfl, rfl, rfl, rfl⟩
    ((congrArg Latch.only (k1.trans h1)).trans (by rw [hI.alone])) ((k2.trans h2).trans hI.calm) ((k3.trans h3).trans hI.ready) (k4 _ (h4 _ hF))
  show ((s.withLatch _).setS d _).setS (sreg d 1) _ = _
  rw [setS_latch, setS_latch]
  rfl

end
end Sys2Proof.Machine
end

