-- ==== Sys2Proof/Laws/Lanes.lean ====
section
/-!
SUPPORT. Laws/Lanes.lean: masks and lanes, lane words with flags, and floating-point words of a quiet issue (R89, R135, R141).
-/
namespace Sys2Proof.Machine
noncomputable section

/-! ### Masks -/
theorem maskTo_getLsbD (f : Nat → Bool) (n i : Nat) (hn : n ≤ 96) : (maskTo f n).getLsbD i = (decide (i < n) && f i) := by
  induction n with
  | zero => simp [maskTo]
  | succ n ih =>
    unfold maskTo
    rw [BitVec.getLsbD_or, ih (by omega)]
    by_cases h : f n
    · rw [if_pos h, BitVec.getLsbD_shiftLeft]
      by_cases hi : i < n
      · simp [hi, Nat.lt_succ_of_lt hi]
      · by_cases he : i = n
        · subst he; simp [h]; omega
        · have h1 : ¬ i < n + 1 := by omega
          have h2 : i - n ≠ 0 := by omega
          simp [hi, h1, h2]
    · rw [if_neg h]
      by_cases hi : i < n
      · simp [hi, Nat.lt_succ_of_lt hi]
      · by_cases he : i = n
        · subst he; simp [h]
        · have h1 : ¬ i < n + 1 := by omega
          simp [hi, h1]
@[simp] theorem maskOf_getLsbD (f : Lane → Bool) (L : Lane) : (maskOf f).getLsbD L.val = f L := by
  unfold maskOf
  rw [maskTo_getLsbD _ _ _ (by omega)]
  simp [L.isLt]
theorem mask_ext {m n : Mask} (h : ∀ L : Lane, m.getLsbD L.val = n.getLsbD L.val) : m = n := by
  apply BitVec.eq_of_getLsbD_eq
  intro i hi
  exact h ⟨i, hi⟩
@[simp] theorem mem_lanesOf (m : Mask) (L : Lane) : L ∈ lanesOf m ↔ m.getLsbD L.val = true := by
  unfold lanesOf
  simp

/-! ### Records that are not raised -/
theorem foldl_id {α β : Type} (l : List α) (f : β → α → β) (b : β) (h : ∀ b, ∀ a ∈ l, f b a = b) : l.foldl f b = b := by
  induction l generalizing b with
  | nil => rfl
  | cons a l ih =>
    rw [List.foldl_cons, h b a (List.mem_cons_self ..)]
    exact ih b fun b c hc => h b c (List.mem_cons_of_mem _ hc)
theorem raiseEach_none (s : State) (m : Mask) (c : Lane → Option (Byte × Dword)) (h : ∀ L : Lane, m.getLsbD L.val = true → c L = none) :
    s.raiseEach m c = s := by
  unfold State.raiseEach
  refine foldl_id _ _ _ fun t L hL => ?_
  rw [h L ((mem_lanesOf m L).mp hL)]
theorem foldl_congr_mem {α β : Type} (l : List α) (f g : β → α → β) (b : β) (h : ∀ b, ∀ a ∈ l, f b a = g b a) : l.foldl f b = l.foldl g b := by
  induction l generalizing b with
  | nil => rfl
  | cons a l ih =>
    rw [List.foldl_cons, List.foldl_cons, h b a (List.mem_cons_self ..)]
    exact ih _ fun b c hc => h b c (List.mem_cons_of_mem _ hc)
/-! ### Lane words with flags -/
theorem laneFlag_effect {i : Instr} {s : State} {g : Bool} {d : VReg} {f : Group → Lane → Word × Byte} (hx : exec i s = laneFlag i g d f s) :
    Effect i s (s.g.lanes g) ((s.setV d (s.g.lanes g) fun L => (f s.g L).1).orFlags
      ((lanesOf (s.g.lanes g)).foldl (fun a L => a ||| (f s.g L).2) 0)) := by
  intro hI hF hC
  refine issueSeq_goesOn (L := { len := i.len, depth := some s.depthNow, flags := 0 ||| (lanesOf (s.g.lanes g)).foldl (fun a L => a ||| (f s.g L).2) 0 })
    hx hI ?_ ⟨rfl, rfl, rfl, rfl, rfl, rfl, rfl, rfl⟩ ?_ hI.calm hI.ready hF
  · have h1 : (s.withLatch { len := i.len, depth := some s.depthNow }).src = s.g := rfl
    have h2 : (s.withLatch { len := i.len, depth := some s.depthNow }).lanes g = s.g.lanes g := BitVec.and_allOnes
    rw [h2, sift_clean (by rw [h1]; exact hC)]
    rfl
  · show s.latch.only = none
    rw [hI.alone]

/-! ### Floating-point words -/
/-- `put` reads the results of the lanes it writes only. -/
def PutLocal (put : Group → Mask → (Lane → BitVec 128) → State → State) : Prop :=
  ∀ g m x y s, (∀ L : Lane, m.getLsbD L.val = true → x L = y L) → put g m x s = put g m y s
/-- `put` touches the group's registers only. -/
def PutRegs (put : Group → Mask → (Lane → BitVec 128) → State → State) : Prop :=
  ∀ (g : Group) (m : Mask) (x : Lane → BitVec 128) (s : State), ∃ r : Regs, ∀ L : Latch, put g m x (s.withLatch L) = { s with latch := L, g := { s.g with regs := r } } ∧ r.lactive = s.g.regs.lactive
theorem setLanes_congr (old : Vector Word 96) (m : Mask) (f g : Lane → Word) (h : ∀ L : Lane, m.getLsbD L.val = true → f L = g L) :
    setLanes old m f = setLanes old m g := by
  unfold setLanes
  congr 1
  funext L
  split
  · exact h L ‹_›
  · rfl
theorem setV_congr (s : State) (d : VReg) (m : Mask) (f g : Lane → Word) (h : ∀ L : Lane, m.getLsbD L.val = true → f L = g L) :
    s.setV d m f = s.setV d m g := by
  have e : (fun r : Regs => r.setV d m f) = fun r : Regs => r.setV d m g := by
    funext r; unfold Regs.setV; rw [setLanes_congr _ m f g h]
  exact congrArg s.setRegs e
theorem setP_congr (s : State) (d : PReg) (m : Mask) (f g : Lane → PVal) (h : ∀ L : Lane, m.getLsbD L.val = true → f L = g L) :
    s.setP d m f = s.setP d m g := by
  have e : (fun r : Regs => r.setP d m f) = fun r : Regs => r.setP d m g := by
    funext r
    unfold Regs.setP
    split
    · rfl
    · have : (Vector.ofFn fun L : Lane => if m.getLsbD L.val then f L else r.p[d.val - 1][L]) =
          Vector.ofFn fun L : Lane => if m.getLsbD L.val then g L else r.p[d.val - 1][L] := by
        congr 1
        funext L
        split
        · exact h L ‹_›
        · rfl
      rw [this]
  exact congrArg s.setRegs e
theorem put32_local (d : VReg) : PutLocal (put32 d) := fun _ m _ _ s h => setV_congr s d m _ _ fun L hL => congrArg low32 (h L hL)
theorem put64_local (d : VReg) : PutLocal (put64 d) := by
  intro _ m x y s h
  unfold put64 State.setV64
  rw [setV_congr s d m _ (fun L => pairLo ((y L).setWidth 64)) fun L hL => congrArg (fun z : BitVec 128 => pairLo (z.setWidth 64)) (h L hL)]
  exact setV_congr _ _ m _ _ fun L hL => congrArg (fun z : BitVec 128 => pairHi (z.setWidth 64)) (h L hL)
theorem putP_local (d : PReg) : PutLocal (putP d) := fun _ m _ _ s h =>
  setP_congr s d m _ _ fun L hL => congrArg (fun z : BitVec 128 => pof (z.getLsbD 0)) (h L hL)
theorem put32_regs (d : VReg) : PutRegs (put32 d) := fun _ m x s => ⟨s.g.regs.setV d m fun L => low32 (x L), fun _ => ⟨rfl, rfl⟩⟩
theorem put64_regs (d : VReg) : PutRegs (put64 d) := fun _ m x s =>
  ⟨(s.g.regs.setV d m fun L => pairLo ((x L).setWidth 64)).setV (vreg d 1) m fun L => pairHi ((x L).setWidth 64), fun _ => ⟨rfl, rfl⟩⟩
theorem putP_regs (d : PReg) : PutRegs (putP d) := fun _ m x s =>
  ⟨s.g.regs.setP d m fun L => pof ((x L).getLsbD 0), fun _ => ⟨rfl, Regs.setP_lactive ..⟩⟩

theorem judge_quiet (fmode : Word) (L : Lane) (o : FOut) (hs : shm fmode = 0) (hf : o.fault = none) (ht : o.flags &&& ten fmode = 0) :
    judge fmode [] L o = { write := some o.val, flags := o.flags } := by
  unfold judge
  rw [hf, ht, hs]
  simp [flipOf]

theorem floatWord_effect {i : Instr} {s : State} {g : Bool} {f : Group → Lane → FOut}
    {put : Group → Mask → (Lane → BitVec 128) → State → State} (hx : exec i s = floatWord i g f put s)
    (hl : PutLocal put) (hr : PutRegs put) : GivesF i s g put (f s.g) := by
  rintro ⟨hq1, hq2, hq3⟩ hI hF hC
  obtain ⟨r, hp⟩ := hr s.g (s.g.lanes g) (fun L => (f s.g L).val) s
  let fl := flagsOf (s.g.lanes g) (f s.g)
  have h0 := (hp s.latch).1
  have hu : (put s.g (s.g.lanes g) (fun L => (f s.g L).val) s) = { s with g := { s.g with regs := r } } := h0
  rw [hu]
  refine issueSeq_goesOn (L := { len := i.len, depth := some s.depthNow, flags := 0 ||| fl }) hx hI ?_ ⟨rfl, rfl, rfl, rfl, rfl, rfl, rfl, rfl⟩ ?_
    hI.calm hI.ready ?_
  · have h1 : (s.withLatch { len := i.len, depth := some s.depthNow }).src = s.g := rfl
    have h2 : (s.withLatch { len := i.len, depth := some s.depthNow }).lanes g = s.g.lanes g := BitVec.and_allOnes
    have h3 : (s.withLatch { len := i.len, depth := some s.depthNow }).upsets = [] := hq1
    have hC' : s.g.poisonIn i.names.vr (s.g.lanes g) = 0 := hC
    unfold floatBody
    simp only [h1, h2, hC', h3]
    have hj : ∀ L : Lane, (s.g.lanes g).getLsbD L.val = true →
        judge s.g.regs.fmode [] L (f s.g L) = { write := some (f s.g L).val, flags := (f s.g L).flags } :=
      fun L hL => judge_quiet _ L _ hq2 (hq3 L hL).1 (hq3 L hL).2
    have hok : (maskOf fun L => (s.g.lanes g).getLsbD L.val && !(0 : Mask).getLsbD L.val && (judge s.g.regs.fmode [] L (f s.g L)).write.isSome) =
        s.g.lanes g := by
      refine mask_ext fun L => ?_
      rw [maskOf_getLsbD]
      by_cases hL : (s.g.lanes g).getLsbD L.val = true
      · rw [hj L hL, hL]; simp
      · rw [Bool.eq_false_iff.mpr hL]; rfl
    have hwell : ((lanesOf (s.g.lanes g)).filter fun L => !(0 : Mask).getLsbD L.val) = lanesOf (s.g.lanes g) := by
      rw [List.filter_eq_self]; intro L _; simp
    simp only [hok, hwell]
    rw [raiseEach_none _ _ _ (fun L hL => by rw [hj L hL]; simp)]
    rw [hl s.g (s.g.lanes g) _ (fun L => (f s.g L).val) _ (fun L hL => by rw [hj L hL]; rfl)]
    rw [(hp _).1]
    have hfl : (lanesOf (s.g.lanes g)).foldl (fun a L => a ||| (judge s.g.regs.fmode [] L (f s.g L)).flags) 0 = fl :=
      foldl_congr_mem _ _ _ _ fun b L hL => by rw [hj L ((mem_lanesOf _ L).mp hL)]
    have hct : (lanesOf (s.g.lanes g)).foldl (fun n L => n + (judge s.g.regs.fmode [] L (f s.g L)).count) 0 = 0 :=
      foldl_id _ _ _ fun b L hL => by rw [hj L ((mem_lanesOf _ L).mp hL)]; rfl
    have hdv : ((lanesOf (s.g.lanes g)).filter fun L => (judge s.g.regs.fmode [] L (f s.g L)).diverged) = [] := by
      rw [List.filter_eq_nil_iff]; intro L hL; rw [hj L ((mem_lanesOf _ L).mp hL)]; simp [Verdict.diverged]
    rw [hfl, hct, hdv]
    rfl
  · show s.latch.only = none
    rw [hI.alone]
  · intro l hl
    have := hF l hl
    rw [← (hp s.latch).2] at this
    exact this

end
end Sys2Proof.Machine
end

