-- ==== Sys2Proof/Laws/Memory.lean ====
section
/-!
SUPPORT. Laws/Memory.lean: every operation on a memory keeps its canonical form: addresses strictly rising, no entry 0.
-/
namespace Sys2Proof.Machine

theorem Memory.wf_iff (m : Memory) : m.wf = true ↔ m.Pairwise (fun c d => c.1 < d.1) ∧ ∀ c ∈ m, c.2 ≠ 0 := by
  simp [Memory.wf]

theorem memory_empty_wf : Memory.wf [] = true := by decide

/-- Writing a byte keeps the form. -/
theorem memSet_wf (m : Memory) (a : Nat) (b : Byte) (h : m.wf = true) : (memSet m a b).wf = true := by
  rw [Memory.wf_iff] at *
  obtain ⟨hp, hz⟩ := h
  have low : ∀ c ∈ m.filter (fun c => decide (c.1 < a)), c.1 < a := fun c hc => by simpa using (List.mem_filter.1 hc).2
  have high : ∀ c ∈ m.filter (fun c => decide (a < c.1)), a < c.1 := fun c hc => by simpa using (List.mem_filter.1 hc).2
  refine ⟨?_, fun c hc => ?_⟩
  · unfold memSet
    refine List.pairwise_append.2 ⟨List.pairwise_append.2 ⟨hp.filter _, ?_, ?_⟩, hp.filter _, ?_⟩
    · split <;> simp
    · intro c hc d hd
      split at hd
      · simp at hd
      · rw [List.mem_singleton.1 hd]; exact low c hc
    · intro c hc d hd
      rcases List.mem_append.1 hc with h | h
      · exact (low c h).trans (high d hd)
      · split at h
        · simp at h
        · rw [List.mem_singleton.1 h]; exact high d hd
  · unfold memSet at hc
    rcases List.mem_append.1 hc with h | h
    · rcases List.mem_append.1 h with h | h
      · exact hz c (List.mem_filter.1 h).1
      · split at h
        · simp at h
        · rw [List.mem_singleton.1 h]; assumption
    · exact hz c (List.mem_filter.1 h).1

/-- Writing bytes keeps the form. -/
theorem memWrite_wf (bs : List Byte) : ∀ (m : Memory) (a : Nat), m.wf = true → (memWrite m a bs).wf = true := by
  induction bs with
  | nil => exact fun _ _ h => h
  | cons b bs ih => exact fun m a h => ih _ _ (memSet_wf m a b h)

theorem memSetWord_wf (m : Memory) (a : Nat) (w : Word) (h : m.wf = true) : (memSetWord m a w).wf = true := memWrite_wf _ _ _ h

/-- Dropping entries keeps the form. -/
theorem memFilter_wf (m : Memory) (f : Host.Cell → Bool) (h : m.wf = true) : Memory.wf (m.filter f) = true := by
  rw [Memory.wf_iff] at *
  exact ⟨h.1.filter _, fun c hc => h.2 c (List.mem_filter.1 hc).1⟩

/-- A byte reads as its entry says. -/
theorem memGet_mem (m : Memory) (a : Nat) (b : Byte) (h : m.wf = true) (hm : (a, b) ∈ m) : memGet m a = b := by
  rw [Memory.wf_iff] at h
  obtain ⟨hp, -⟩ := h
  induction m with
  | nil => simp at hm
  | cons c m ih =>
    rcases List.mem_cons.1 hm with rfl | hm'
    · simp [memGet]
    · have hlt : c.1 < a := (List.pairwise_cons.1 hp).1 _ hm'
      have : (c.1 == a) = false := by simp; omega
      simpa [memGet, List.find?_cons, this] using ih hm' (List.pairwise_cons.1 hp).2

end Sys2Proof.Machine
end

