-- ==== Sys2Proof/Laws/PerInstr.lean ====
section
/-!
SUPPORT. Laws/PerInstr.lean: one lemma per constructor of Instr: no row that another agent performs is the meaning of a word, so that no
program issues one.
-/
namespace Sys2Proof.Laws.Encoded
open Sys2Proof Sys2Proof.Machine

/-- A row that another agent performs has no word. -/
def Statement (i : Instr) : Prop := isStep i = true → encode i = none

theorem notchTicket : Statement .notchTicket := fun _ => rfl
theorem fenceWbComplete (gid : Nat) (slot : Fin 2) : Statement (.fenceWbComplete gid slot) := fun _ => rfl
theorem copyAccept (cid : Nat) : Statement (.copyAccept cid) := fun _ => rfl
theorem copyComplete (cid : Nat) : Statement (.copyComplete cid) := fun _ => rfl
theorem putsigComplete (cid : Nat) : Statement (.putsigComplete cid) := fun _ => rfl
theorem qpopTake (gid : Nat) (slot : Fin 2) : Statement (.qpopTake gid slot) := fun _ => rfl
theorem basinPerform (bid : Nat) : Statement (.basinPerform bid) := fun _ => rfl
theorem matrixPerform (core : CoreId) : Statement (.matrixPerform core) := fun _ => rfl
theorem mmaComplete (core : CoreId) : Statement (.mmaComplete core) := fun _ => rfl
theorem spanSlave (core : CoreId) : Statement (.spanSlave core) := fun _ => rfl
theorem spanFree (core : CoreId) : Statement (.spanFree core) := fun _ => rfl
theorem reservationFree (core : CoreId) (rid : Fin 64) : Statement (.reservationFree core rid) := fun _ => rfl
theorem tflushComplete (gid : Nat) (slot : Fin 2) : Statement (.tflushComplete gid slot) := fun _ => rfl
theorem vgrowGrant (core : CoreId) (simd : Fin 4) : Statement (.vgrowGrant core simd) := fun _ => rfl
theorem vshrinkRelease (gid : Nat) : Statement (.vshrinkRelease gid) := fun _ => rfl
theorem illegalWord : Statement .illegalWord := fun h => nomatch (h : false = true)
theorem illegalPacket (k : Fin 3) : Statement (.illegalPacket k) := fun h => nomatch (h : false = true)
theorem fetchFault (fatal : Bool) : Statement (.fetchFault fatal) := fun h => nomatch (h : false = true)
theorem ageForce (gid : Nat) : Statement (.ageForce gid) := fun _ => rfl
theorem trapEntry (cause : Byte) (pc : Word) : Statement (.trapEntry cause pc) := fun h => nomatch (h : false = true)
theorem groupHalt (gid : Nat) (code : Word × Word) : Statement (.groupHalt gid code) := fun h => nomatch (h : false = true)
theorem pageFaultReplay (gid : Nat) : Statement (.pageFaultReplay gid) := fun _ => rfl
theorem workgroupRetire (wid : Nat) : Statement (.workgroupRetire wid) := fun _ => rfl
theorem sleepExpiry (gid : Nat) (slot : Fin 2) : Statement (.sleepExpiry gid slot) := fun _ => rfl
theorem yieldPassEnd (gid : Nat) : Statement (.yieldPassEnd gid) := fun _ => rfl
theorem issueBoost (gid : Nat) : Statement (.issueBoost gid) := fun _ => rfl
theorem turnPass : Statement .turnPass := fun h => nomatch (h : false = true)
theorem regionRestart (wid : Nat) (core : CoreId) : Statement (.regionRestart wid core) := fun _ => rfl
theorem launchStart (q : Nat) : Statement (.launchStart q) := fun _ => rfl
theorem launchComplete (lid : Nat) : Statement (.launchComplete lid) := fun _ => rfl
theorem launchSlotsEnd (lid : Nat) : Statement (.launchSlotsEnd lid) := fun _ => rfl
theorem workgroupAdmit (lid : Nat) (stage : Fin 16) (core : CoreId) : Statement (.workgroupAdmit lid stage core) := fun _ => rfl
theorem methodGroupForm (lid : Nat) (handle : Byte) (tile : Nat) (block : Fin 16) : Statement (.methodGroupForm lid handle tile block) := fun _ => rfl
theorem rasterRecord (lid : Nat) : Statement (.rasterRecord lid) := fun _ => rfl
theorem rasterTile (lid : Nat) (handle : Byte) (tile : Nat) : Statement (.rasterTile lid handle tile) := fun _ => rfl
theorem tileCommit (lid : Nat) (handle : Byte) (tile : Nat) : Statement (.tileCommit lid handle tile) := fun _ => rfl
theorem graceExpiry (ctx : Nat) : Statement (.graceExpiry ctx) := fun _ => rfl
theorem killExpiry (ctx : Nat) : Statement (.killExpiry ctx) := fun _ => rfl
theorem contextSave (ctx : Nat) : Statement (.contextSave ctx) := fun _ => rfl
theorem saveComplete (ctx : Nat) : Statement (.saveComplete ctx) := fun _ => rfl
theorem ctxbind (ctx : Nat) (addr : Nat) : Statement (.ctxbind ctx addr) := fun _ => rfl
theorem ctxfree (ctx : Nat) : Statement (.ctxfree ctx) := fun _ => rfl
theorem qbind (q : Nat) (addr : Nat) : Statement (.qbind q addr) := fun _ => rfl
theorem preempt (ctx : Nat) : Statement (.preempt ctx) := fun _ => rfl
theorem cancel (ctx : Nat) : Statement (.cancel ctx) := fun _ => rfl
theorem restore (ctx : Nat) : Statement (.restore ctx) := fun _ => rfl
theorem invpage (part : Fin 16) (asid : BitVec 12) (va : Nat) : Statement (.invpage part asid va) := fun _ => rfl
theorem invas (part : Fin 16) (asid : BitVec 12) : Statement (.invas part asid) := fun _ => rfl
theorem invpart (part : Fin 16) : Statement (.invpart part) := fun _ => rfl
theorem resolve (tag : Word) : Statement (.resolve tag) := fun _ => rfl
theorem fatal (tag : Word) : Statement (.fatal tag) := fun _ => rfl
theorem resume (ctx : Nat) (place : Word) : Statement (.resume ctx place) := fun _ => rfl
theorem hostEnd (ctx : Nat) (place : Word) : Statement (.hostEnd ctx place) := fun _ => rfl
theorem hostup : Statement .hostup := fun _ => rfl
theorem flr (fn : Fin 16) : Statement (.flr fn) := fun _ => rfl
theorem doorbell (q : Nat) (n : Word) : Statement (.doorbell q n) := fun _ => rfl
theorem evack (n : Word) : Statement (.evack n) := fun _ => rfl
theorem eventRingConfig (which : Fin 3) (x : Word) : Statement (.eventRingConfig which x) := fun _ => rfl
theorem counterClear (off : Nat) (x : Word) : Statement (.counterClear off x) := fun _ => rfl
theorem registerWrite (off : Nat) (x : Word) : Statement (.registerWrite off x) := fun _ => rfl
theorem partitionEnable (part : Fin 16) : Statement (.partitionEnable part) := fun _ => rfl
theorem partitionDisable (part : Fin 16) : Statement (.partitionDisable part) := fun _ => rfl
theorem flip (part : Fin 16) : Statement (.flip part) := fun _ => rfl
theorem flipComplete (part : Fin 16) : Statement (.flipComplete part) := fun _ => rfl
theorem wbreq (part : Fin 16) : Statement (.wbreq part) := fun _ => rfl
theorem wbreqComplete (part : Fin 16) : Statement (.wbreqComplete part) := fun _ => rfl
theorem landingEntryWrite (idx : Byte) (words : List Word) : Statement (.landingEntryWrite idx words) := fun _ => rfl
theorem landingPacket (idx : Byte) (rank : Nat) (off : Nat) (data : List Byte) : Statement (.landingPacket idx rank off data) := fun _ => rfl
theorem stackFlitReceive (stack : Fin 8) (ok : Bool) : Statement (.stackFlitReceive stack ok) := fun _ => rfl
theorem linkRetrain (stack : Fin 8) : Statement (.linkRetrain stack) := fun _ => rfl
theorem retrainComplete (stack : Fin 8) (ok : Bool) : Statement (.retrainComplete stack ok) := fun _ => rfl
theorem beljoFlitReceive (port : Fin 24) (ok : Bool) : Statement (.beljoFlitReceive port ok) := fun _ => rfl
theorem remoteAccess (part : Fin 16) (asid : BitVec 12) (req : RemoteReq) : Statement (.remoteAccess part asid req) := fun _ => rfl
theorem remoteAccessTimeout (port : Fin 24) (gid : Nat) (load : Bool) (lanes : Mask) : Statement (.remoteAccessTimeout port gid load lanes) := fun _ => rfl
theorem hostMemoryAccess (pa : Nat) (store : Option (List Byte)) : Statement (.hostMemoryAccess pa store) := fun _ => rfl
theorem hostLinkDown : Statement .hostLinkDown := fun _ => rfl
theorem deviceReset (images : List BootImage) : Statement (.deviceReset images) := fun _ => rfl
theorem idleEntry : Statement .idleEntry := fun _ => rfl
theorem idleExit : Statement .idleExit := fun _ => rfl
theorem clockStep : Statement .clockStep := fun _ => rfl
theorem laneDefect (unit : Nat) (lane : Nat) : Statement (.laneDefect unit lane) := fun _ => rfl
theorem laneSpareSteer (unit : Nat) : Statement (.laneSpareSteer unit) := fun _ => rfl
theorem selfTestStart (unit : Nat) : Statement (.selfTestStart unit) := fun _ => rfl
theorem selfTestEnd (unit : Nat) : Statement (.selfTestEnd unit) := fun _ => rfl
theorem keyChange (rid : Nat) : Statement (.keyChange rid) := fun _ => rfl
theorem attestationReport (part : Fin 16) (nonce : List Byte) : Statement (.attestationReport part nonce) := fun _ => rfl
theorem mrExtend (part : Fin 16) (reg : Fin 4) (digest : BitVec 256) : Statement (.mrExtend part reg digest) := fun _ => rfl
theorem softError (place : ErrPlace) : Statement (.softError place) := fun _ => rfl
theorem commandCompletion : Statement .commandCompletion := fun _ => rfl
theorem tileMoveComplete (core : CoreId) : Statement (.tileMoveComplete core) := fun _ => rfl
theorem add (m : Sat) (g : Bool) (d : VReg) (a : VReg) (b : VSrc) : Statement (.add m g d a b) := fun h => nomatch (h : false = true)
theorem sub (m : Sat) (g : Bool) (d : VReg) (a : VReg) (b : VSrc) : Statement (.sub m g d a b) := fun h => nomatch (h : false = true)
theorem minS (g : Bool) (d : VReg) (a : VReg) (b : VSrc) : Statement (.minS g d a b) := fun h => nomatch (h : false = true)
theorem maxS (g : Bool) (d : VReg) (a : VReg) (b : VSrc) : Statement (.maxS g d a b) := fun h => nomatch (h : false = true)
theorem minN (g : Bool) (d : VReg) (a : VReg) (b : VSrc) : Statement (.minN g d a b) := fun h => nomatch (h : false = true)
theorem maxN (g : Bool) (d : VReg) (a : VReg) (b : VSrc) : Statement (.maxN g d a b) := fun h => nomatch (h : false = true)
theorem absd (m : Sat) (g : Bool) (d : VReg) (a : VReg) (b : VSrc) : Statement (.absd m g d a b) := fun h => nomatch (h : false = true)
theorem and (g : Bool) (d : VReg) (a : VReg) (b : VSrc) : Statement (.and g d a b) := fun h => nomatch (h : false = true)
theorem or (g : Bool) (d : VReg) (a : VReg) (b : VSrc) : Statement (.or g d a b) := fun h => nomatch (h : false = true)
theorem xor (g : Bool) (d : VReg) (a : VReg) (b : VSrc) : Statement (.xor g d a b) := fun h => nomatch (h : false = true)
theorem andn (g : Bool) (d : VReg) (a : VReg) (b : VSrc) : Statement (.andn g d a b) := fun h => nomatch (h : false = true)
theorem shl (g : Bool) (d : VReg) (a : VReg) (b : VSrc) : Statement (.shl g d a b) := fun h => nomatch (h : false = true)
theorem shr (g : Bool) (d : VReg) (a : VReg) (b : VSrc) : Statement (.shr g d a b) := fun h => nomatch (h : false = true)
theorem sar (g : Bool) (d : VReg) (a : VReg) (b : VSrc) : Statement (.sar g d a b) := fun h => nomatch (h : false = true)
theorem mul (g : Bool) (d : VReg) (a : VReg) (b : VSrc) : Statement (.mul g d a b) := fun h => nomatch (h : false = true)
theorem mulhS (g : Bool) (d : VReg) (a : VReg) (b : VSrc) : Statement (.mulhS g d a b) := fun h => nomatch (h : false = true)
theorem mulhN (g : Bool) (d : VReg) (a : VReg) (b : VSrc) : Statement (.mulhN g d a b) := fun h => nomatch (h : false = true)
theorem mad (g : Bool) (d : VReg) (a : VReg) (b : VSrc) : Statement (.mad g d a b) := fun h => nomatch (h : false = true)
theorem dot4S8 (g : Bool) (d : VReg) (a : VReg) (b : VSrc) : Statement (.dot4S8 g d a b) := fun h => nomatch (h : false = true)
theorem popc (g : Bool) (d : VReg) (a : VReg) : Statement (.popc g d a) := fun h => nomatch (h : false = true)
theorem clz (g : Bool) (d : VReg) (a : VReg) : Statement (.clz g d a) := fun h => nomatch (h : false = true)
theorem eq (g : Bool) (d : PReg) (a : VReg) (b : VSrc) : Statement (.eq g d a b) := fun h => nomatch (h : false = true)
theorem ne (g : Bool) (d : PReg) (a : VReg) (b : VSrc) : Statement (.ne g d a b) := fun h => nomatch (h : false = true)
theorem ltS (g : Bool) (d : PReg) (a : VReg) (b : VSrc) : Statement (.ltS g d a b) := fun h => nomatch (h : false = true)
theorem leS (g : Bool) (d : PReg) (a : VReg) (b : VSrc) : Statement (.leS g d a b) := fun h => nomatch (h : false = true)
theorem ltN (g : Bool) (d : PReg) (a : VReg) (b : VSrc) : Statement (.ltN g d a b) := fun h => nomatch (h : false = true)
theorem leN (g : Bool) (d : PReg) (a : VReg) (b : VSrc) : Statement (.leN g d a b) := fun h => nomatch (h : false = true)
theorem test (g : Bool) (d : PReg) (a : VReg) (b : VSrc) : Statement (.test g d a b) := fun h => nomatch (h : false = true)
theorem addi (g : Bool) (d : VReg) (a : VReg) (i : BitVec 9) : Statement (.addi g d a i) := fun h => nomatch (h : false = true)
theorem andi (g : Bool) (d : VReg) (a : VReg) (i : BitVec 9) : Statement (.andi g d a i) := fun h => nomatch (h : false = true)
theorem ori (g : Bool) (d : VReg) (a : VReg) (i : BitVec 9) : Statement (.ori g d a i) := fun h => nomatch (h : false = true)
theorem xori (g : Bool) (d : VReg) (a : VReg) (i : BitVec 9) : Statement (.xori g d a i) := fun h => nomatch (h : false = true)
theorem shli (g : Bool) (d : VReg) (a : VReg) (i : BitVec 9) : Statement (.shli g d a i) := fun h => nomatch (h : false = true)
theorem shri (g : Bool) (d : VReg) (a : VReg) (i : BitVec 9) : Statement (.shri g d a i) := fun h => nomatch (h : false = true)
theorem sari (g : Bool) (d : VReg) (a : VReg) (i : BitVec 9) : Statement (.sari g d a i) := fun h => nomatch (h : false = true)
theorem movi (g : Bool) (d : VReg) (i : BitVec 9) : Statement (.movi g d i) := fun h => nomatch (h : false = true)
theorem mov (g : Bool) (d : VReg) (b : VSrc) : Statement (.mov g d b) := fun h => nomatch (h : false = true)
theorem sel (g : Bool) (d : VReg) (a : VReg) (b : VSrc) : Statement (.sel g d a b) := fun h => nomatch (h : false = true)
theorem selu (g : Bool) (d : VReg) (a : VReg) (b : VSrc) : Statement (.selu g d a b) := fun h => nomatch (h : false = true)
theorem bfeN (g : Bool) (d : VReg) (a : VReg) (b : VSrc) : Statement (.bfeN g d a b) := fun h => nomatch (h : false = true)
theorem bfeS (g : Bool) (d : VReg) (a : VReg) (b : VSrc) : Statement (.bfeS g d a b) := fun h => nomatch (h : false = true)
theorem bfi (g : Bool) (d : VReg) (a : VReg) (b : VSrc) : Statement (.bfi g d a b) := fun h => nomatch (h : false = true)
theorem laneid (g : Bool) (d : VReg) : Statement (.laneid g d) := fun h => nomatch (h : false = true)
theorem fadd (m : Rm) (g : Bool) (d : VReg) (a : VReg) (b : VSrc) : Statement (.fadd m g d a b) := fun h => nomatch (h : false = true)
theorem fsub (m : Rm) (g : Bool) (d : VReg) (a : VReg) (b : VSrc) : Statement (.fsub m g d a b) := fun h => nomatch (h : false = true)
theorem fmul (m : Rm) (g : Bool) (d : VReg) (a : VReg) (b : VSrc) : Statement (.fmul m g d a b) := fun h => nomatch (h : false = true)
theorem ffma (m : Rm) (g : Bool) (d : VReg) (a : VReg) (b : VSrc) : Statement (.ffma m g d a b) := fun h => nomatch (h : false = true)
theorem ffms (m : Rm) (g : Bool) (d : VReg) (a : VReg) (b : VSrc) : Statement (.ffms m g d a b) := fun h => nomatch (h : false = true)
theorem fnfma (m : Rm) (g : Bool) (d : VReg) (a : VReg) (b : VSrc) : Statement (.fnfma m g d a b) := fun h => nomatch (h : false = true)
theorem fmin (m : Rm) (g : Bool) (d : VReg) (a : VReg) (b : VSrc) : Statement (.fmin m g d a b) := fun h => nomatch (h : false = true)
theorem fmax (m : Rm) (g : Bool) (d : VReg) (a : VReg) (b : VSrc) : Statement (.fmax m g d a b) := fun h => nomatch (h : false = true)
theorem fdiv (m : Rm) (g : Bool) (d : VReg) (a : VReg) (b : VSrc) : Statement (.fdiv m g d a b) := fun h => nomatch (h : false = true)
theorem fsqrt (m : Rm) (g : Bool) (d : VReg) (a : VReg) : Statement (.fsqrt m g d a) := fun h => nomatch (h : false = true)
theorem frcp (g : Bool) (d : VReg) (a : VReg) : Statement (.frcp g d a) := fun h => nomatch (h : false = true)
theorem frsq (g : Bool) (d : VReg) (a : VReg) : Statement (.frsq g d a) := fun h => nomatch (h : false = true)
theorem fex2 (g : Bool) (d : VReg) (a : VReg) : Statement (.fex2 g d a) := fun h => nomatch (h : false = true)
theorem flg2 (g : Bool) (d : VReg) (a : VReg) : Statement (.flg2 g d a) := fun h => nomatch (h : false = true)
theorem fsin (g : Bool) (d : VReg) (a : VReg) : Statement (.fsin g d a) := fun h => nomatch (h : false = true)
theorem fcos (g : Bool) (d : VReg) (a : VReg) : Statement (.fcos g d a) := fun h => nomatch (h : false = true)
theorem feq (g : Bool) (d : PReg) (a : VReg) (b : VSrc) : Statement (.feq g d a b) := fun h => nomatch (h : false = true)
theorem fne (g : Bool) (d : PReg) (a : VReg) (b : VSrc) : Statement (.fne g d a b) := fun h => nomatch (h : false = true)
theorem flt (g : Bool) (d : PReg) (a : VReg) (b : VSrc) : Statement (.flt g d a b) := fun h => nomatch (h : false = true)
theorem fle (g : Bool) (d : PReg) (a : VReg) (b : VSrc) : Statement (.fle g d a b) := fun h => nomatch (h : false = true)
theorem funord (g : Bool) (d : PReg) (a : VReg) (b : VSrc) : Statement (.funord g d a b) := fun h => nomatch (h : false = true)
theorem fcls (g : Bool) (d : PReg) (a : VReg) (k : BitVec 6) : Statement (.fcls g d a k) := fun h => nomatch (h : false = true)
theorem dadd (m : Rm) (g : Bool) (d : VReg) (a : VReg) (b : VReg) : Statement (.dadd m g d a b) := fun h => nomatch (h : false = true)
theorem dsub (m : Rm) (g : Bool) (d : VReg) (a : VReg) (b : VReg) : Statement (.dsub m g d a b) := fun h => nomatch (h : false = true)
theorem dmul (m : Rm) (g : Bool) (d : VReg) (a : VReg) (b : VReg) : Statement (.dmul m g d a b) := fun h => nomatch (h : false = true)
theorem dfma (m : Rm) (g : Bool) (d : VReg) (a : VReg) (b : VReg) : Statement (.dfma m g d a b) := fun h => nomatch (h : false = true)
theorem ddiv (m : Rm) (g : Bool) (d : VReg) (a : VReg) (b : VReg) : Statement (.ddiv m g d a b) := fun h => nomatch (h : false = true)
theorem dsqrt (m : Rm) (g : Bool) (d : VReg) (a : VReg) : Statement (.dsqrt m g d a) := fun h => nomatch (h : false = true)
theorem hadd2 (m : Rm) (g : Bool) (d : VReg) (a : VReg) (b : VSrc) : Statement (.hadd2 m g d a b) := fun h => nomatch (h : false = true)
theorem hmul2 (m : Rm) (g : Bool) (d : VReg) (a : VReg) (b : VSrc) : Statement (.hmul2 m g d a b) := fun h => nomatch (h : false = true)
theorem hfma2 (m : Rm) (g : Bool) (d : VReg) (a : VReg) (b : VSrc) : Statement (.hfma2 m g d a b) := fun h => nomatch (h : false = true)
theorem badd2 (m : Rm) (g : Bool) (d : VReg) (a : VReg) (b : VSrc) : Statement (.badd2 m g d a b) := fun h => nomatch (h : false = true)
theorem bmul2 (m : Rm) (g : Bool) (d : VReg) (a : VReg) (b : VSrc) : Statement (.bmul2 m g d a b) := fun h => nomatch (h : false = true)
theorem bfma2 (m : Rm) (g : Bool) (d : VReg) (a : VReg) (b : VSrc) : Statement (.bfma2 m g d a b) := fun h => nomatch (h : false = true)
theorem cvtF32I32 (m : Rm) (g : Bool) (d : VReg) (a : VReg) : Statement (.cvtF32I32 m g d a) := fun h => nomatch (h : false = true)
theorem cvtI32F32 (m : Rm) (g : Bool) (d : VReg) (a : VReg) : Statement (.cvtI32F32 m g d a) := fun h => nomatch (h : false = true)
theorem cvtF32N32 (m : Rm) (g : Bool) (d : VReg) (a : VReg) : Statement (.cvtF32N32 m g d a) := fun h => nomatch (h : false = true)
theorem cvtN32F32 (m : Rm) (g : Bool) (d : VReg) (a : VReg) : Statement (.cvtN32F32 m g d a) := fun h => nomatch (h : false = true)
theorem cvtF32F16 (m : Rm) (g : Bool) (d : VReg) (a : VReg) : Statement (.cvtF32F16 m g d a) := fun h => nomatch (h : false = true)
theorem cvtF16x2F32 (m : Rm) (g : Bool) (d : VReg) (a : VReg) (b : VSrc) : Statement (.cvtF16x2F32 m g d a b) := fun h => nomatch (h : false = true)
theorem cvtF64F32 (m : Rm) (g : Bool) (d : VReg) (a : VReg) : Statement (.cvtF64F32 m g d a) := fun h => nomatch (h : false = true)
theorem cvtF32F64 (m : Rm) (g : Bool) (d : VReg) (a : VReg) : Statement (.cvtF32F64 m g d a) := fun h => nomatch (h : false = true)
theorem cvtF32Bf16 (m : Rm) (g : Bool) (d : VReg) (a : VReg) : Statement (.cvtF32Bf16 m g d a) := fun h => nomatch (h : false = true)
theorem cvtBf16x2F32 (m : Rm) (g : Bool) (d : VReg) (a : VReg) (b : VSrc) : Statement (.cvtBf16x2F32 m g d a b) := fun h => nomatch (h : false = true)
theorem cvtF32E4m3 (m : Rm) (g : Bool) (d : VReg) (a : VReg) : Statement (.cvtF32E4m3 m g d a) := fun h => nomatch (h : false = true)
theorem cvtE4m3x2F32 (m : Rm) (g : Bool) (d : VReg) (a : VReg) (b : VSrc) : Statement (.cvtE4m3x2F32 m g d a b) := fun h => nomatch (h : false = true)
theorem cvtF32E5m2 (m : Rm) (g : Bool) (d : VReg) (a : VReg) : Statement (.cvtF32E5m2 m g d a) := fun h => nomatch (h : false = true)
theorem cvtE5m2x2F32 (m : Rm) (g : Bool) (d : VReg) (a : VReg) (b : VSrc) : Statement (.cvtE5m2x2F32 m g d a b) := fun h => nomatch (h : false = true)
theorem unpk4S (m : Rm) (g : Bool) (d : VReg) (a : VReg) (b : VSrc) : Statement (.unpk4S m g d a b) := fun h => nomatch (h : false = true)
theorem unpk4N (m : Rm) (g : Bool) (d : VReg) (a : VReg) (b : VSrc) : Statement (.unpk4N m g d a b) := fun h => nomatch (h : false = true)
theorem iadd (m : IKind) (g : Bool) (d : VReg) (a : VReg) (b : VReg) : Statement (.iadd m g d a b) := fun h => nomatch (h : false = true)
theorem isub (m : IKind) (g : Bool) (d : VReg) (a : VReg) (b : VReg) : Statement (.isub m g d a b) := fun h => nomatch (h : false = true)
theorem imul (m : IKind) (g : Bool) (d : VReg) (a : VReg) (b : VReg) : Statement (.imul m g d a b) := fun h => nomatch (h : false = true)
theorem idiv (m : IKind) (g : Bool) (d : VReg) (a : VReg) (b : VReg) : Statement (.idiv m g d a b) := fun h => nomatch (h : false = true)
theorem isqr (m : IKind) (g : Bool) (d : VReg) (a : VReg) : Statement (.isqr m g d a) := fun h => nomatch (h : false = true)
theorem ihull (m : IKind) (g : Bool) (d : VReg) (a : VReg) (b : VReg) : Statement (.ihull m g d a b) := fun h => nomatch (h : false = true)
theorem isect (m : IKind) (g : Bool) (d : VReg) (a : VReg) (b : VReg) : Statement (.isect m g d a b) := fun h => nomatch (h : false = true)
theorem iwid (m : IKind) (g : Bool) (d : VReg) (a : VReg) : Statement (.iwid m g d a) := fun h => nomatch (h : false = true)
theorem isqrt (m : IKind) (g : Bool) (d : VReg) (a : VReg) : Statement (.isqrt m g d a) := fun h => nomatch (h : false = true)
theorem iabs (m : IKind) (g : Bool) (d : VReg) (a : VReg) : Statement (.iabs m g d a) := fun h => nomatch (h : false = true)
theorem ineg (m : IKind) (g : Bool) (d : VReg) (a : VReg) : Statement (.ineg m g d a) := fun h => nomatch (h : false = true)
theorem imid (m : IKind) (g : Bool) (d : VReg) (a : VReg) : Statement (.imid m g d a) := fun h => nomatch (h : false = true)
theorem isplit (m : IKind) (g : Bool) (d : VReg) (a : VReg) : Statement (.isplit m g d a) := fun h => nomatch (h : false = true)
theorem imake (m : IKind) (g : Bool) (d : VReg) (a : VReg) (b : VSrc) : Statement (.imake m g d a b) := fun h => nomatch (h : false = true)
theorem ipt (m : IKind) (g : Bool) (d : VReg) (a : VReg) : Statement (.ipt m g d a) := fun h => nomatch (h : false = true)
theorem ilt (m : IKind) (g : Bool) (d : PReg) (a : VReg) (b : VReg) : Statement (.ilt m g d a b) := fun h => nomatch (h : false = true)
theorem ile (m : IKind) (g : Bool) (d : PReg) (a : VReg) (b : VReg) : Statement (.ile m g d a b) := fun h => nomatch (h : false = true)
theorem ieq (m : IKind) (g : Bool) (d : PReg) (a : VReg) (b : VReg) : Statement (.ieq m g d a b) := fun h => nomatch (h : false = true)
theorem ine (m : IKind) (g : Bool) (d : PReg) (a : VReg) (b : VReg) : Statement (.ine m g d a b) := fun h => nomatch (h : false = true)
theorem isubset (m : IKind) (g : Bool) (d : PReg) (a : VReg) (b : VReg) : Statement (.isubset m g d a b) := fun h => nomatch (h : false = true)
theorem icont (m : IKind) (g : Bool) (d : PReg) (a : VReg) (b : VReg) : Statement (.icont m g d a b) := fun h => nomatch (h : false = true)
theorem iempty (m : IKind) (g : Bool) (d : PReg) (a : VReg) : Statement (.iempty m g d a) := fun h => nomatch (h : false = true)
theorem pand (g : Bool) (d : PReg) (a : PReg) (b : PReg) : Statement (.pand g d a b) := fun h => nomatch (h : false = true)
theorem por (g : Bool) (d : PReg) (a : PReg) (b : PReg) : Statement (.por g d a b) := fun h => nomatch (h : false = true)
theorem pnot (g : Bool) (d : PReg) (a : PReg) : Statement (.pnot g d a) := fun h => nomatch (h : false = true)
theorem pxor (g : Bool) (d : PReg) (a : PReg) (b : PReg) : Statement (.pxor g d a b) := fun h => nomatch (h : false = true)
theorem pdf (g : Bool) (d : PReg) (a : PReg) : Statement (.pdf g d a) := fun h => nomatch (h : false = true)
theorem pdt (g : Bool) (d : PReg) (a : PReg) : Statement (.pdt g d a) := fun h => nomatch (h : false = true)
theorem pset (g : Bool) (d : PReg) (k : BitVec 2) : Statement (.pset g d k) := fun h => nomatch (h : false = true)
theorem pund (g : Bool) (d : PReg) (a : PReg) : Statement (.pund g d a) := fun h => nomatch (h : false = true)
theorem shflIdx (g : Bool) (d : VReg) (a : VReg) (b : VSrc) : Statement (.shflIdx g d a b) := fun h => nomatch (h : false = true)
theorem shflUp (g : Bool) (d : VReg) (a : VReg) (b : VSrc) : Statement (.shflUp g d a b) := fun h => nomatch (h : false = true)
theorem shflDn (g : Bool) (d : VReg) (a : VReg) (b : VSrc) : Statement (.shflDn g d a b) := fun h => nomatch (h : false = true)
theorem shflXor (g : Bool) (d : VReg) (a : VReg) (b : VSrc) : Statement (.shflXor g d a b) := fun h => nomatch (h : false = true)
theorem bcast (g : Bool) (d : VReg) (a : VReg) (b : VSrc) : Statement (.bcast g d a b) := fun h => nomatch (h : false = true)
theorem redadd (g : Bool) (d : VReg) (a : VReg) : Statement (.redadd g d a) := fun h => nomatch (h : false = true)
theorem vote (g : Bool) (d : PReg) (a : PReg) : Statement (.vote g d a) := fun h => nomatch (h : false = true)
theorem ballot (g : Bool) (d : SReg) (a : PReg) : Statement (.ballot g d a) := fun h => nomatch (h : false = true)
theorem xaadd (x : Fin 2) (g : Bool) (a : VReg) : Statement (.xaadd x g a) := fun h => nomatch (h : false = true)
theorem xachk (x : Fin 2) : Statement (.xachk x) := fun h => nomatch (h : false = true)
theorem xadrn (x : Fin 2) (g : Bool) (d : VReg) : Statement (.xadrn x g d) := fun h => nomatch (h : false = true)
theorem xatst (x : Fin 2) (g : Bool) (d : PReg) (b : VSrc) : Statement (.xatst x g d b) := fun h => nomatch (h : false = true)
theorem xaclr (x : Fin 2) : Statement (.xaclr x) := fun h => nomatch (h : false = true)
theorem xard (x : Fin 2) (g : Bool) (d : VReg) (b : VSrc) : Statement (.xard x g d b) := fun h => nomatch (h : false = true)
theorem xastat (x : Fin 2) (g : Bool) (d : VReg) : Statement (.xastat x g d) := fun h => nomatch (h : false = true)
theorem sAdd (d : SReg) (a : SReg) (b : SSrc) : Statement (.sAdd d a b) := fun h => nomatch (h : false = true)
theorem sSub (d : SReg) (a : SReg) (b : SSrc) : Statement (.sSub d a b) := fun h => nomatch (h : false = true)
theorem sAnd (d : SReg) (a : SReg) (b : SSrc) : Statement (.sAnd d a b) := fun h => nomatch (h : false = true)
theorem sOr (d : SReg) (a : SReg) (b : SSrc) : Statement (.sOr d a b) := fun h => nomatch (h : false = true)
theorem sXor (d : SReg) (a : SReg) (b : SSrc) : Statement (.sXor d a b) := fun h => nomatch (h : false = true)
theorem sShl (d : SReg) (a : SReg) (b : SSrc) : Statement (.sShl d a b) := fun h => nomatch (h : false = true)
theorem sShr (d : SReg) (a : SReg) (b : SSrc) : Statement (.sShr d a b) := fun h => nomatch (h : false = true)
theorem sSar (d : SReg) (a : SReg) (b : SSrc) : Statement (.sSar d a b) := fun h => nomatch (h : false = true)
theorem sMul (d : SReg) (a : SReg) (b : SSrc) : Statement (.sMul d a b) := fun h => nomatch (h : false = true)
theorem sMulhS (d : SReg) (a : SReg) (b : SSrc) : Statement (.sMulhS d a b) := fun h => nomatch (h : false = true)
theorem sMulhN (d : SReg) (a : SReg) (b : SSrc) : Statement (.sMulhN d a b) := fun h => nomatch (h : false = true)
theorem sMinS (d : SReg) (a : SReg) (b : SSrc) : Statement (.sMinS d a b) := fun h => nomatch (h : false = true)
theorem sMaxS (d : SReg) (a : SReg) (b : SSrc) : Statement (.sMaxS d a b) := fun h => nomatch (h : false = true)
theorem sSltS (d : SReg) (a : SReg) (b : SSrc) : Statement (.sSltS d a b) := fun h => nomatch (h : false = true)
theorem sSltN (d : SReg) (a : SReg) (b : SSrc) : Statement (.sSltN d a b) := fun h => nomatch (h : false = true)
theorem sSeq (d : SReg) (a : SReg) (b : SSrc) : Statement (.sSeq d a b) := fun h => nomatch (h : false = true)
theorem sAddi (d : SReg) (a : SReg) (i : BitVec 10) : Statement (.sAddi d a i) := fun h => nomatch (h : false = true)
theorem sAndi (d : SReg) (a : SReg) (i : BitVec 10) : Statement (.sAndi d a i) := fun h => nomatch (h : false = true)
theorem sOri (d : SReg) (a : SReg) (i : BitVec 10) : Statement (.sOri d a i) := fun h => nomatch (h : false = true)
theorem sXori (d : SReg) (a : SReg) (i : BitVec 10) : Statement (.sXori d a i) := fun h => nomatch (h : false = true)
theorem sShli (d : SReg) (a : SReg) (i : BitVec 10) : Statement (.sShli d a i) := fun h => nomatch (h : false = true)
theorem sShri (d : SReg) (a : SReg) (i : BitVec 10) : Statement (.sShri d a i) := fun h => nomatch (h : false = true)
theorem sSari (d : SReg) (a : SReg) (i : BitVec 10) : Statement (.sSari d a i) := fun h => nomatch (h : false = true)
theorem sSltiS (d : SReg) (a : SReg) (i : BitVec 10) : Statement (.sSltiS d a i) := fun h => nomatch (h : false = true)
theorem sMovi (d : SReg) (i : BitVec 19) : Statement (.sMovi d i) := fun h => nomatch (h : false = true)
theorem movh (d : SReg) (i : BitVec 19) : Statement (.movh d i) := fun h => nomatch (h : false = true)
theorem add64 (d : SReg) (a : SReg) (b : SReg) : Statement (.add64 d a b) := fun h => nomatch (h : false = true)
theorem sub64 (d : SReg) (a : SReg) (b : SReg) : Statement (.sub64 d a b) := fun h => nomatch (h : false = true)
theorem addz64 (d : SReg) (a : SReg) (b : SSrc) : Statement (.addz64 d a b) := fun h => nomatch (h : false = true)
theorem mov64 (d : SReg) (a : SReg) : Statement (.mov64 d a) := fun h => nomatch (h : false = true)
theorem stov (d : VReg) (a : SReg) : Statement (.stov d a) := fun h => nomatch (h : false = true)
theorem vtos (d : SReg) (a : VReg) (b : SSrc) : Statement (.vtos d a b) := fun h => nomatch (h : false = true)
theorem vtosf (d : SReg) (a : VReg) : Statement (.vtosf d a) := fun h => nomatch (h : false = true)
theorem ssel (d : SReg) (a : SReg) (b : SSrc) : Statement (.ssel d a b) := fun h => nomatch (h : false = true)
theorem brp (s : Sense) (p : PReg) (t : BitVec 10) (r : BitVec 9) : Statement (.brp s p t r) := fun h => nomatch (h : false = true)
theorem brs (k : Cond) (a : SReg) (o : BitVec 16) : Statement (.brs k a o) := fun h => nomatch (h : false = true)
theorem jmp (o : BitVec 22) : Statement (.jmp o) := fun h => nomatch (h : false = true)
theorem call (o : BitVec 22) : Statement (.call o) := fun h => nomatch (h : false = true)
theorem ret : Statement .ret := fun h => nomatch (h : false = true)
theorem jmpr (a : SReg) : Statement (.jmpr a) := fun h => nomatch (h : false = true)
theorem callr (a : SReg) : Statement (.callr a) := fun h => nomatch (h : false = true)
theorem exit : Statement .exit := fun h => nomatch (h : false = true)
theorem kill : Statement .kill := fun h => nomatch (h : false = true)
theorem brk : Statement .brk := fun h => nomatch (h : false = true)
theorem nop : Statement .nop := fun h => nomatch (h : false = true)
theorem yield : Statement .yield := fun h => nomatch (h : false = true)
theorem brpl (s : Sense) (p : PReg) (r : BitVec 16) (off : Word) : Statement (.brpl s p r off) := fun h => nomatch (h : false = true)
theorem loop (l : Fin 3) (a : SReg) (e : BitVec 14) : Statement (.loop l a e) := fun h => nomatch (h : false = true)
theorem loopi (l : Fin 3) (k : BitVec 6) (e : BitVec 14) : Statement (.loopi l k e) := fun h => nomatch (h : false = true)
theorem lbrk (l : Fin 3) : Statement (.lbrk l) := fun h => nomatch (h : false = true)
theorem bar (n : Fin 16) : Statement (.bar n) := fun h => nomatch (h : false = true)
theorem bararr (n : Fin 16) : Statement (.bararr n) := fun h => nomatch (h : false = true)
theorem barwait (n : Fin 16) : Statement (.barwait n) := fun h => nomatch (h : false = true)
theorem abinit (d : SReg) (k : BitVec 13) : Statement (.abinit d k) := fun h => nomatch (h : false = true)
theorem abarr (d : SReg) (k : BitVec 13) : Statement (.abarr d k) := fun h => nomatch (h : false = true)
theorem abwait (d : SReg) (p : Bool) : Statement (.abwait d p) := fun h => nomatch (h : false = true)
theorem sleep (n : BitVec 13) : Statement (.sleep n) := fun h => nomatch (h : false = true)
theorem wtok (d : SReg) : Statement (.wtok d) := fun h => nomatch (h : false = true)
theorem rgn : Statement .rgn := fun h => nomatch (h : false = true)
theorem rgnT : Statement .rgnT := fun h => nomatch (h : false = true)
theorem rgnend : Statement .rgnend := fun h => nomatch (h : false = true)
theorem ld8n (m : MemMod) (g : Bool) (d : VReg) (ad : GAddr) : Statement (.ld8n m g d ad) := fun h => nomatch (h : false = true)
theorem ld8s (m : MemMod) (g : Bool) (d : VReg) (ad : GAddr) : Statement (.ld8s m g d ad) := fun h => nomatch (h : false = true)
theorem ld16n (m : MemMod) (g : Bool) (d : VReg) (ad : GAddr) : Statement (.ld16n m g d ad) := fun h => nomatch (h : false = true)
theorem ld16s (m : MemMod) (g : Bool) (d : VReg) (ad : GAddr) : Statement (.ld16s m g d ad) := fun h => nomatch (h : false = true)
theorem ld32 (m : MemMod) (g : Bool) (d : VReg) (ad : GAddr) : Statement (.ld32 m g d ad) := fun h => nomatch (h : false = true)
theorem ld64 (m : MemMod) (g : Bool) (d : VReg) (ad : GAddr) : Statement (.ld64 m g d ad) := fun h => nomatch (h : false = true)
theorem ld128 (m : MemMod) (g : Bool) (d : VReg) (ad : GAddr) : Statement (.ld128 m g d ad) := fun h => nomatch (h : false = true)
theorem ldi (m : MemMod) (g : Bool) (d : VReg) (ad : GAddr) : Statement (.ldi m g d ad) := fun h => nomatch (h : false = true)
theorem st8 (m : MemMod) (g : Bool) (d : VReg) (ad : GAddr) : Statement (.st8 m g d ad) := fun h => nomatch (h : false = true)
theorem st16 (m : MemMod) (g : Bool) (d : VReg) (ad : GAddr) : Statement (.st16 m g d ad) := fun h => nomatch (h : false = true)
theorem st32 (m : MemMod) (g : Bool) (d : VReg) (ad : GAddr) : Statement (.st32 m g d ad) := fun h => nomatch (h : false = true)
theorem st64 (m : MemMod) (g : Bool) (d : VReg) (ad : GAddr) : Statement (.st64 m g d ad) := fun h => nomatch (h : false = true)
theorem st128 (m : MemMod) (g : Bool) (d : VReg) (ad : GAddr) : Statement (.st128 m g d ad) := fun h => nomatch (h : false = true)
theorem sti (m : MemMod) (g : Bool) (d : VReg) (ad : GAddr) : Statement (.sti m g d ad) := fun h => nomatch (h : false = true)
theorem ldb8n (m : MemMod) (g : Bool) (d : VReg) (ad : BAddr) : Statement (.ldb8n m g d ad) := fun h => nomatch (h : false = true)
theorem ldb8s (m : MemMod) (g : Bool) (d : VReg) (ad : BAddr) : Statement (.ldb8s m g d ad) := fun h => nomatch (h : false = true)
theorem ldb16n (m : MemMod) (g : Bool) (d : VReg) (ad : BAddr) : Statement (.ldb16n m g d ad) := fun h => nomatch (h : false = true)
theorem ldb16s (m : MemMod) (g : Bool) (d : VReg) (ad : BAddr) : Statement (.ldb16s m g d ad) := fun h => nomatch (h : false = true)
theorem ldb32 (m : MemMod) (g : Bool) (d : VReg) (ad : BAddr) : Statement (.ldb32 m g d ad) := fun h => nomatch (h : false = true)
theorem ldb64 (m : MemMod) (g : Bool) (d : VReg) (ad : BAddr) : Statement (.ldb64 m g d ad) := fun h => nomatch (h : false = true)
theorem ldb128 (m : MemMod) (g : Bool) (d : VReg) (ad : BAddr) : Statement (.ldb128 m g d ad) := fun h => nomatch (h : false = true)
theorem ldbi (m : MemMod) (g : Bool) (d : VReg) (ad : BAddr) : Statement (.ldbi m g d ad) := fun h => nomatch (h : false = true)
theorem stb8 (m : MemMod) (g : Bool) (d : VReg) (ad : BAddr) : Statement (.stb8 m g d ad) := fun h => nomatch (h : false = true)
theorem stb16 (m : MemMod) (g : Bool) (d : VReg) (ad : BAddr) : Statement (.stb16 m g d ad) := fun h => nomatch (h : false = true)
theorem stb32 (m : MemMod) (g : Bool) (d : VReg) (ad : BAddr) : Statement (.stb32 m g d ad) := fun h => nomatch (h : false = true)
theorem stb64 (m : MemMod) (g : Bool) (d : VReg) (ad : BAddr) : Statement (.stb64 m g d ad) := fun h => nomatch (h : false = true)
theorem stb128 (m : MemMod) (g : Bool) (d : VReg) (ad : BAddr) : Statement (.stb128 m g d ad) := fun h => nomatch (h : false = true)
theorem stbi (m : MemMod) (g : Bool) (d : VReg) (ad : BAddr) : Statement (.stbi m g d ad) := fun h => nomatch (h : false = true)
theorem ldc8n (m : MemMod) (g : Bool) (d : VReg) (ad : CAddr) : Statement (.ldc8n m g d ad) := fun h => nomatch (h : false = true)
theorem ldc8s (m : MemMod) (g : Bool) (d : VReg) (ad : CAddr) : Statement (.ldc8s m g d ad) := fun h => nomatch (h : false = true)
theorem ldc16n (m : MemMod) (g : Bool) (d : VReg) (ad : CAddr) : Statement (.ldc16n m g d ad) := fun h => nomatch (h : false = true)
theorem ldc16s (m : MemMod) (g : Bool) (d : VReg) (ad : CAddr) : Statement (.ldc16s m g d ad) := fun h => nomatch (h : false = true)
theorem ldc32 (m : MemMod) (g : Bool) (d : VReg) (ad : CAddr) : Statement (.ldc32 m g d ad) := fun h => nomatch (h : false = true)
theorem ldc64 (m : MemMod) (g : Bool) (d : VReg) (ad : CAddr) : Statement (.ldc64 m g d ad) := fun h => nomatch (h : false = true)
theorem ldc128 (m : MemMod) (g : Bool) (d : VReg) (ad : CAddr) : Statement (.ldc128 m g d ad) := fun h => nomatch (h : false = true)
theorem ldci (m : MemMod) (g : Bool) (d : VReg) (ad : CAddr) : Statement (.ldci m g d ad) := fun h => nomatch (h : false = true)
theorem stc8 (m : MemMod) (g : Bool) (d : VReg) (ad : CAddr) : Statement (.stc8 m g d ad) := fun h => nomatch (h : false = true)
theorem stc16 (m : MemMod) (g : Bool) (d : VReg) (ad : CAddr) : Statement (.stc16 m g d ad) := fun h => nomatch (h : false = true)
theorem stc32 (m : MemMod) (g : Bool) (d : VReg) (ad : CAddr) : Statement (.stc32 m g d ad) := fun h => nomatch (h : false = true)
theorem stc64 (m : MemMod) (g : Bool) (d : VReg) (ad : CAddr) : Statement (.stc64 m g d ad) := fun h => nomatch (h : false = true)
theorem stc128 (m : MemMod) (g : Bool) (d : VReg) (ad : CAddr) : Statement (.stc128 m g d ad) := fun h => nomatch (h : false = true)
theorem stci (m : MemMod) (g : Bool) (d : VReg) (ad : CAddr) : Statement (.stci m g d ad) := fun h => nomatch (h : false = true)
theorem atomAdd (m : AtomMod) (g : Bool) (d : VReg) (ad : GAddr) : Statement (.atomAdd m g d ad) := fun h => nomatch (h : false = true)
theorem atomMinS (m : AtomMod) (g : Bool) (d : VReg) (ad : GAddr) : Statement (.atomMinS m g d ad) := fun h => nomatch (h : false = true)
theorem atomMaxS (m : AtomMod) (g : Bool) (d : VReg) (ad : GAddr) : Statement (.atomMaxS m g d ad) := fun h => nomatch (h : false = true)
theorem atomMinN (m : AtomMod) (g : Bool) (d : VReg) (ad : GAddr) : Statement (.atomMinN m g d ad) := fun h => nomatch (h : false = true)
theorem atomMaxN (m : AtomMod) (g : Bool) (d : VReg) (ad : GAddr) : Statement (.atomMaxN m g d ad) := fun h => nomatch (h : false = true)
theorem atomAnd (m : AtomMod) (g : Bool) (d : VReg) (ad : GAddr) : Statement (.atomAnd m g d ad) := fun h => nomatch (h : false = true)
theorem atomOr (m : AtomMod) (g : Bool) (d : VReg) (ad : GAddr) : Statement (.atomOr m g d ad) := fun h => nomatch (h : false = true)
theorem atomXor (m : AtomMod) (g : Bool) (d : VReg) (ad : GAddr) : Statement (.atomXor m g d ad) := fun h => nomatch (h : false = true)
theorem atomXchg (m : AtomMod) (g : Bool) (d : VReg) (ad : GAddr) : Statement (.atomXchg m g d ad) := fun h => nomatch (h : false = true)
theorem atomCas (m : AtomMod) (g : Bool) (d : VReg) (ad : GAddr) : Statement (.atomCas m g d ad) := fun h => nomatch (h : false = true)
theorem atomFadd (m : AtomMod) (g : Bool) (d : VReg) (ad : GAddr) : Statement (.atomFadd m g d ad) := fun h => nomatch (h : false = true)
theorem atomFmin (m : AtomMod) (g : Bool) (d : VReg) (ad : GAddr) : Statement (.atomFmin m g d ad) := fun h => nomatch (h : false = true)
theorem atomFmax (m : AtomMod) (g : Bool) (d : VReg) (ad : GAddr) : Statement (.atomFmax m g d ad) := fun h => nomatch (h : false = true)
theorem atomAdd64 (m : AtomMod) (g : Bool) (d : VReg) (ad : GAddr) : Statement (.atomAdd64 m g d ad) := fun h => nomatch (h : false = true)
theorem atomcAdd (m : Bool) (g : Bool) (d : VReg) (ad : CAddr) : Statement (.atomcAdd m g d ad) := fun h => nomatch (h : false = true)
theorem atomcMinS (m : Bool) (g : Bool) (d : VReg) (ad : CAddr) : Statement (.atomcMinS m g d ad) := fun h => nomatch (h : false = true)
theorem atomcMaxS (m : Bool) (g : Bool) (d : VReg) (ad : CAddr) : Statement (.atomcMaxS m g d ad) := fun h => nomatch (h : false = true)
theorem atomcOr (m : Bool) (g : Bool) (d : VReg) (ad : CAddr) : Statement (.atomcOr m g d ad) := fun h => nomatch (h : false = true)
theorem atomcXchg (m : Bool) (g : Bool) (d : VReg) (ad : CAddr) : Statement (.atomcXchg m g d ad) := fun h => nomatch (h : false = true)
theorem atomcCas (m : Bool) (g : Bool) (d : VReg) (ad : CAddr) : Statement (.atomcCas m g d ad) := fun h => nomatch (h : false = true)
theorem atomAddSc (g : Bool) (d : VReg) (ad : GAddr) : Statement (.atomAddSc g d ad) := fun h => nomatch (h : false = true)
theorem atomXchgSc (g : Bool) (d : VReg) (ad : GAddr) : Statement (.atomXchgSc g d ad) := fun h => nomatch (h : false = true)
theorem atomCasSc (g : Bool) (d : VReg) (ad : GAddr) : Statement (.atomCasSc g d ad) := fun h => nomatch (h : false = true)
theorem fenceAcq (k : FScope) : Statement (.fenceAcq k) := fun h => nomatch (h : false = true)
theorem fenceRel (k : FScope) : Statement (.fenceRel k) := fun h => nomatch (h : false = true)
theorem fenceAr (k : FScope) : Statement (.fenceAr k) := fun h => nomatch (h : false = true)
theorem fenceSc : Statement .fenceSc := fun h => nomatch (h : false = true)
theorem fenceWb (k : FScope) : Statement (.fenceWb k) := fun h => nomatch (h : false = true)
theorem fenceInval (k : FScope) : Statement (.fenceInval k) := fun h => nomatch (h : false = true)
theorem bfence (k : FScope) : Statement (.bfence k) := fun h => nomatch (h : false = true)
theorem pref (g : Bool) (ad : GAddr) : Statement (.pref g ad) := fun h => nomatch (h : false = true)
theorem prefL1 (g : Bool) (ad : GAddr) : Statement (.prefL1 g ad) := fun h => nomatch (h : false = true)
theorem resid (g : Bool) (k : Bool) (ad : GAddr) : Statement (.resid g k ad) := fun h => nomatch (h : false = true)
theorem cwb (g : Bool) (ad : GAddr) : Statement (.cwb g ad) := fun h => nomatch (h : false = true)
theorem cinv (g : Bool) (ad : GAddr) : Statement (.cinv g ad) := fun h => nomatch (h : false = true)
theorem settag (g : Bool) (d : VReg) (ad : GAddr) : Statement (.settag g d ad) := fun h => nomatch (h : false = true)
theorem gettag (g : Bool) (d : VReg) (ad : GAddr) : Statement (.gettag g d ad) := fun h => nomatch (h : false = true)
theorem cpyIn (d : SReg) (a : SReg) (b : SReg) : Statement (.cpyIn d a b) := fun h => nomatch (h : false = true)
theorem cpyOut (d : SReg) (a : SReg) (b : SReg) : Statement (.cpyOut d a b) := fun h => nomatch (h : false = true)
theorem cpyMc (d : SReg) (a : SReg) (b : SReg) : Statement (.cpyMc d a b) := fun h => nomatch (h : false = true)
theorem cpyCc (d : SReg) (a : SReg) (b : SReg) : Statement (.cpyCc d a b) := fun h => nomatch (h : false = true)
theorem cpy2d (d : SReg) (a : SReg) (b : SReg) : Statement (.cpy2d d a b) := fun h => nomatch (h : false = true)
theorem cpy2dmc (d : SReg) (a : SReg) (b : SReg) : Statement (.cpy2dmc d a b) := fun h => nomatch (h : false = true)
theorem cpyWb (d : SReg) (a : SReg) (b : SReg) : Statement (.cpyWb d a b) := fun h => nomatch (h : false = true)
theorem cseal (d : SReg) : Statement (.cseal d) := fun h => nomatch (h : false = true)
theorem cwait (d : SReg) (a : SReg) : Statement (.cwait d a) := fun h => nomatch (h : false = true)
theorem cpoll (d : SReg) (a : SReg) : Statement (.cpoll d a) := fun h => nomatch (h : false = true)
theorem putsig (d : SReg) (a : SReg) (b : SReg) : Statement (.putsig d a b) := fun h => nomatch (h : false = true)
theorem qpush (d : SReg) (a : QReg) (b : SReg) : Statement (.qpush d a b) := fun h => nomatch (h : false = true)
theorem qpop (d : SReg) (a : QReg) : Statement (.qpop d a) := fun h => nomatch (h : false = true)
theorem qpoll (d : SReg) (a : QReg) : Statement (.qpoll d a) := fun h => nomatch (h : false = true)
theorem baddS32 (g : Bool) (d : VReg) (ad : GAddr) : Statement (.baddS32 g d ad) := fun h => nomatch (h : false = true)
theorem baddF32 (g : Bool) (d : VReg) (ad : GAddr) : Statement (.baddF32 g d ad) := fun h => nomatch (h : false = true)
theorem baddBf16x2 (g : Bool) (d : VReg) (ad : GAddr) : Statement (.baddBf16x2 g d ad) := fun h => nomatch (h : false = true)
theorem bmaxF32 (g : Bool) (d : VReg) (ad : GAddr) : Statement (.bmaxF32 g d ad) := fun h => nomatch (h : false = true)
theorem bminF32 (g : Bool) (d : VReg) (ad : GAddr) : Statement (.bminF32 g d ad) := fun h => nomatch (h : false = true)
theorem mma (d : SReg) (a : SReg) : Statement (.mma d a) := fun h => nomatch (h : false = true)
theorem mld (d : SReg) (a : SReg) : Statement (.mld d a) := fun h => nomatch (h : false = true)
theorem mst (d : SReg) (a : SReg) : Statement (.mst d a) := fun h => nomatch (h : false = true)
theorem mzero (d : SReg) (a : SReg) : Statement (.mzero d a) := fun h => nomatch (h : false = true)
theorem mres (d : SReg) (a : SReg) : Statement (.mres d a) := fun h => nomatch (h : false = true)
theorem mrel (a : SReg) : Statement (.mrel a) := fun h => nomatch (h : false = true)
theorem mspan (d : SReg) (a : SReg) : Statement (.mspan d a) := fun h => nomatch (h : false = true)
theorem munspan : Statement .munspan := fun h => nomatch (h : false = true)
theorem frag (g : Bool) (d : VReg) (a : VReg) (b : VReg) : Statement (.frag g d a b) := fun h => nomatch (h : false = true)
theorem fragKill (g : Bool) (a : VReg) : Statement (.fragKill g a) := fun h => nomatch (h : false = true)
theorem fannc (g : Bool) (a : VReg) : Statement (.fannc g a) := fun h => nomatch (h : false = true)
theorem tsampNow (g : Bool) (d : VReg) (a : VReg) (b : VSrc) : Statement (.tsampNow g d a b) := fun h => nomatch (h : false = true)
theorem tsampSet (g : Bool) (d : VReg) (a : VReg) (b : VSrc) : Statement (.tsampSet g d a b) := fun h => nomatch (h : false = true)
theorem tflush (g : Bool) (b : VSrc) : Statement (.tflush g b) := fun h => nomatch (h : false = true)
theorem pxld (g : Bool) (d : VReg) (k : BitVec 4) : Statement (.pxld g d k) := fun h => nomatch (h : false = true)
theorem pxst (g : Bool) (d : VReg) (k : BitVec 4) : Statement (.pxst g d k) := fun h => nomatch (h : false = true)
theorem texSample (g : Bool) (d : VReg) (a : VReg) (b : VReg) : Statement (.texSample g d a b) := fun h => nomatch (h : false = true)
theorem texLod (g : Bool) (d : VReg) (a : VReg) (b : VReg) : Statement (.texLod g d a b) := fun h => nomatch (h : false = true)
theorem texFetch (g : Bool) (d : VReg) (a : VReg) (b : VReg) : Statement (.texFetch g d a b) := fun h => nomatch (h : false = true)
theorem texGather4 (g : Bool) (d : VReg) (a : VReg) (b : VReg) : Statement (.texGather4 g d a b) := fun h => nomatch (h : false = true)
theorem emit (g : Bool) (d : PReg) (a : VReg) (b : VReg) : Statement (.emit g d a b) := fun h => nomatch (h : false = true)
theorem spawn (g : Bool) (d : PReg) (a : VReg) (b : VReg) : Statement (.spawn g d a b) := fun h => nomatch (h : false = true)
theorem csrr (d : SReg) (k : BitVec 13) : Statement (.csrr d k) := fun h => nomatch (h : false = true)
theorem csrw (d : SReg) (k : BitVec 13) : Statement (.csrw d k) := fun h => nomatch (h : false = true)
theorem csrs (d : SReg) (k : BitVec 13) : Statement (.csrs d k) := fun h => nomatch (h : false = true)
theorem csrc (d : SReg) (k : BitVec 13) : Statement (.csrc d k) := fun h => nomatch (h : false = true)
theorem csrwi (v : BitVec 6) (k : BitVec 13) : Statement (.csrwi v k) := fun h => nomatch (h : false = true)
theorem vgrow : Statement .vgrow := fun h => nomatch (h : false = true)
theorem vgrowTry (d : SReg) : Statement (.vgrowTry d) := fun h => nomatch (h : false = true)
theorem vshrink : Statement .vshrink := fun h => nomatch (h : false = true)
theorem trap (n : BitVec 13) : Statement (.trap n) := fun h => nomatch (h : false = true)
theorem tret : Statement .tret := fun h => nomatch (h : false = true)
theorem lkill : Statement .lkill := fun h => nomatch (h : false = true)
theorem halt (n : BitVec 13) : Statement (.halt n) := fun h => nomatch (h : false = true)
theorem frec (d : SReg) : Statement (.frec d) := fun h => nomatch (h : false = true)
theorem poolGuard (x : BitVec 25) : Statement (.poolGuard x) := fun h => nomatch (h : false = true)

end Sys2Proof.Laws.Encoded
end

