-- ==== Sys2Proof/Laws/Values.lean ====
section
/-!
SUPPORT. Laws/Values.lean: from a word's shared form to what it gives, and the values of the integer operations as arithmetic (R90-R104).
-/
namespace Sys2Proof.Machine

/-- A lane word whose value is x gives it. -/
theorem givesV_of {i : Instr} {s : State} {g : Bool} {d : VReg} {f : Group → Lane → Word} {x : Lane → Word} (hx : exec i s = laneWord i g d f s)
   (h : ∀ L, f s.g L = x L) : GivesV i s g d x := (funext h : f s.g = x) ▸ laneWord_effect hx

/-- A lane word that writes a predicate. -/
theorem givesP_of {i : Instr} {s : State} {g : Bool} {d : PReg} {f : Group → Lane → PVal} {x : Lane → PVal} (hx : exec i s = lanePred i g d f s)
   (h : ∀ L, f s.g L = x L) : GivesP i s g d x := (funext h : f s.g = x) ▸ lanePred_effect hx

/-- A scalar word. -/
theorem givesS_of {i : Instr} {s : State} {d : SReg} {f : Group → Word} {x : Word} (hx : exec i s = scalarWord i d f s)
   (h : f s.g = x) : GivesS i s d x := h ▸ scalarWord_effect hx

/-- R90: shifts by any count, as products and quotients. -/
theorem shiftL_eq (a : Word) (n : Nat) : shiftL a n = BitVec.ofNat 32 (a.toNat * 2 ^ n) := by
  unfold shiftL
  split
  · apply BitVec.eq_of_toNat_eq
    simp
    rename_i h
    obtain ⟨k, rfl⟩ := Nat.exists_eq_add_of_le h
    rw [pow_add, ← mul_assoc, mul_comm (a.toNat) (2^32), mul_assoc]
    exact (Nat.mul_mod_right ..).symm
  · apply BitVec.eq_of_toNat_eq
    simp [Nat.shiftLeft_eq]
theorem shiftR_eq (a : Word) (n : Nat) : shiftR a n = BitVec.ofNat 32 (a.toNat / 2 ^ n) := by
  unfold shiftR
  split
  · apply BitVec.eq_of_toNat_eq
    rename_i h
    have : a.toNat < 2 ^ n := lt_of_lt_of_le a.isLt (Nat.pow_le_pow_right (by decide) h)
    simp [Nat.div_eq_of_lt this]
  · apply BitVec.eq_of_toNat_eq
    have := Nat.div_le_self a.toNat (2^n)
    have := a.isLt
    rw [BitVec.toNat_ofNat, Nat.mod_eq_of_lt (by omega)]
    simp [Nat.shiftRight_eq_div_pow]
theorem shiftSar_eq (a : Word) (n : Nat) : shiftSar a n = BitVec.ofInt 32 (a.toInt / 2 ^ n) := by
  unfold shiftSar
  rw [BitVec.sshiftRight_eq]
  congr 1
  by_cases h : n ≤ 31
  · rw [min_eq_left h, Int.shiftRight_eq_div_pow]; rfl
  · rw [min_eq_right (by omega), Int.shiftRight_eq_div_pow]
    have h1 := a.toInt_lt
    have h2 := a.le_toInt
    have h3 : (2:Int)^31 ≤ 2^n := by exact_mod_cast Nat.pow_le_pow_right (n := 2) (by decide) (by omega : 31 ≤ n)
    norm_num at h1 h2
    by_cases h0 : 0 ≤ a.toInt
    · rw [Int.ediv_eq_zero_of_lt h0 (by norm_num; omega), Int.ediv_eq_zero_of_lt h0 (by omega)]
    · have e1 : a.toInt / ((2 ^ 31 : Nat) : Int) = -1 := by norm_num; omega
      have e2 : a.toInt / (2:Int) ^ n = -1 := by
        apply Int.ediv_eq_neg_one_of_neg_of_le <;> omega
      rw [e1, e2]

/-- Flags of lanes, each nothing or the one flag c. -/
theorem foldl_or_flag (l : List Lane) (f : Lane → Byte) (c b : Byte) (h : ∀ L ∈ l, f L = 0 ∨ f L = c) :
   l.foldl (fun a L => a ||| f L) b = b ||| (if ∃ L ∈ l, f L = c then c else 0) := by
  induction l generalizing b with
  | nil => simp
  | cons x l ih =>
    rw [List.foldl_cons, ih _ fun L hL => h L (List.mem_cons_of_mem _ hL)]
    have hx := h x (List.mem_cons_self ..)
    by_cases hc : c = 0
    · subst hc; simp at hx; simp [hx]
    by_cases e : ∃ L ∈ l, f L = c
    · have e' : ∃ L ∈ x :: l, f L = c := by obtain ⟨L, h1, h2⟩ := e; exact ⟨L, List.mem_cons_of_mem _ h1, h2⟩
      rw [if_pos e, if_pos e']
      rcases hx with hx | hx <;> simp [hx, BitVec.or_assoc]
    · rw [if_neg e]
      rcases hx with hx | hx
      · have e' : ¬ ∃ L ∈ x :: l, f L = c := by
          rintro ⟨L, h1, h2⟩
          rcases List.mem_cons.mp h1 with rfl | h1
          · rw [hx] at h2; exact hc h2.symm
          · exact e ⟨L, h1, h2⟩
        rw [if_neg e', hx]; simp
      · rw [if_pos ⟨x, List.mem_cons_self .., hx⟩, hx]; simp

/-- A word whose lanes limit their result. -/
theorem givesLimited_of {i : Instr} {s : State} {g : Bool} {d : VReg} {f : Group → Lane → Word × Byte} {lo hi : Int} {x : Lane → Int} (hx : exec i s = laneFlag i g d f s)
   (h : ∀ L, f s.g L = (BitVec.ofInt 32 (limit lo hi (x L)), if limit lo hi (x L) ≠ x L then 0x80 else 0)) : GivesLimited i s g d lo hi x := by
  have := laneFlag_effect hx
  unfold GivesLimited
  have e1 : (fun L => (f s.g L).1) = fun L => BitVec.ofInt 32 (limit lo hi (x L)) := by funext L; rw [h]
  have e2 : (lanesOf (s.g.lanes g)).foldl (fun a L => a ||| (f s.g L).2) 0 = if ∃ L : Lane, (s.g.lanes g).getLsbD L.val = true ∧ limit lo hi (x L) ≠ x L then 0x80 else 0 := by
    rw [foldl_or_flag _ _ 0x80 0]
    · have : (∃ L ∈ lanesOf (s.g.lanes g), (f s.g L).2 = 0x80) ↔ ∃ L : Lane, (s.g.lanes g).getLsbD L.val = true ∧ limit lo hi (x L) ≠ x L := by
        refine exists_congr fun L => ?_
        rw [mem_lanesOf, h]
        refine and_congr_right fun _ => ?_
        by_cases hh : limit lo hi (x L) = x L <;> simp [hh]
      rw [if_congr this rfl rfl]; simp
    · intro L _; rw [h]; by_cases hh : limit lo hi (x L) = x L <;> simp [hh]
  rw [e1, e2] at this
  exact this

/-- R92: the limits of s32 and n32. -/
theorem clampS_eq (x : Int) : clampS x = (BitVec.ofInt 32 (limit (-2 ^ 31) (2 ^ 31 - 1) x), if limit (-2 ^ 31) (2 ^ 31 - 1) x ≠ x then 0x80 else 0) := by
  unfold clampS limit flagSAT
  by_cases h1 : x < -2147483648
  · rw [if_pos h1]
    have : max (-2 ^ 31) (min (2 ^ 31 - 1) x) = -2147483648 := by norm_num; omega
    rw [this, if_pos (by omega)]; rfl
  · rw [if_neg h1]
    by_cases h2 : x > 2147483647
    · have : max (-2 ^ 31) (min (2 ^ 31 - 1) x) = 2147483647 := by norm_num; omega
      rw [this, if_pos h2, if_pos (by omega)]; rfl
    · have : max (-2 ^ 31) (min (2 ^ 31 - 1) x) = x := by norm_num; omega
      rw [if_neg h2, this, if_neg (by simp)]
theorem clampN_eq (x : Int) : clampN x = (BitVec.ofInt 32 (limit 0 (2 ^ 32 - 1) x), if limit 0 (2 ^ 32 - 1) x ≠ x then 0x80 else 0) := by
  unfold clampN limit flagSAT
  by_cases h1 : x < 0
  · rw [if_pos h1]
    have : max 0 (min (2 ^ 32 - 1) x) = 0 := by norm_num; omega
    rw [this, if_pos (by omega)]; rfl
  · rw [if_neg h1]
    by_cases h2 : x > 4294967295
    · have : max 0 (min (2 ^ 32 - 1) x) = 4294967295 := by norm_num; omega
      rw [this, if_pos h2, if_pos (by omega)]; rfl
    · have : max 0 (min (2 ^ 32 - 1) x) = x := by norm_num; omega
      rw [if_neg h2, this, if_neg (by simp)]
theorem orFlags_zero (s : State) : s.orFlags 0 = s := by unfold State.orFlags; simp

/-- A word with flags, of which none is raised. -/
theorem givesV_of_flags {i : Instr} {s : State} {g : Bool} {d : VReg} {f : Group → Lane → Word × Byte} {x : Lane → Word} (hx : exec i s = laneFlag i g d f s)
   (h : ∀ L, f s.g L = (x L, 0)) : GivesV i s g d x := by
  have := laneFlag_effect hx
  have e1 : (fun L => (f s.g L).1) = x := by funext L; rw [h]
  rw [e1, foldl_id _ _ _ (fun b L _ => by simp [h]), orFlags_zero] at this
  exact this
theorem absDiff_eq (a b : Int) : absDiff a b = |a - b| := by unfold absDiff; split <;> [rw [abs_of_neg (by omega)]; rw [abs_of_nonneg (by omega)]]; omega

/-- Counts of bits. -/
theorem length_range_filter (n : Nat) (f : Nat → Bool) : ((List.range n).filter f).length = ∑ i : Fin n, (f i.val).toNat := by
  induction n with
  | zero => rfl
  | succ n ih =>
    rw [Fin.sum_univ_castSucc, List.range_succ, List.filter_append, List.length_append, ih]
    congr 1
    simp only [List.filter_cons, List.filter_nil, Fin.val_last]
    cases f n <;> rfl
theorem signExtend_eq {n : Nat} (i : BitVec n) : i.signExtend 32 = BitVec.ofInt 32 i.toInt := rfl

/-- R98: the tables, by rank. -/
theorem rank_and (p q : PVal) : pAnd p q = PVal.ofRank (min p.rank q.rank) := by cases p <;> cases q <;> rfl
theorem rank_or (p q : PVal) : pOr p q = PVal.ofRank (max p.rank q.rank) := by cases p <;> cases q <;> rfl
theorem rank_xor (p q : PVal) : pXor p q = if p.rank = 1 ∨ q.rank = 1 then .u else truth (p.rank ≠ q.rank) := by cases p <;> cases q <;> rfl
theorem rank_not (p : PVal) : pNot p = PVal.ofRank (2 - p.rank) := by cases p <;> rfl
theorem rank_df (p : PVal) : pof (pRead p = .t) = truth (p.rank = 2) := by cases p <;> rfl
theorem rank_dt (p : PVal) : pof (pRead p ≠ .f) = truth (p.rank ≠ 0) := by cases p <;> rfl
theorem rank_und (p : PVal) : pof (pRead p = .u) = truth (p.rank = 1) := by cases p <;> rfl

/-- R97: bit fields. -/
theorem wbits_eq (w : Word) (hi lo : Nat) : wbits w hi lo = w.toNat / 2 ^ lo % 2 ^ (hi + 1 - lo) := by
  unfold wbits bits; rw [Nat.shiftRight_eq_div_pow]
theorem bfMask_toNat (n : Nat) (h : n ≤ 32) : (bfMask n).toNat = 2 ^ n - 1 := by
  unfold bfMask
  rw [BitVec.toNat_ofNat]
  apply Nat.mod_eq_of_lt
  have := Nat.pow_le_pow_right (n := 2) (by decide) h
  have := Nat.two_pow_pos n
  omega
theorem extractN_eq (a b : Word) : extractN a b = BitVec.ofNat 32 (a.toNat / 2 ^ (b.toNat % 32) % 2 ^ (min (b.toNat / 256 % 64) (32 - b.toNat % 32))) := by
  have hp : bfPos b = b.toNat % 32 := by unfold bfPos; rw [wbits_eq]; norm_num
  have hw : bfWid b = min (b.toNat / 256 % 64) (32 - b.toNat % 32) := by unfold bfWid; rw [hp, wbits_eq]; norm_num
  unfold extractN
  rw [hp, hw]
  apply BitVec.eq_of_toNat_eq
  rw [BitVec.toNat_and, bfMask_toNat _ (by omega), Nat.and_two_pow_sub_one_eq_mod, BitVec.toNat_ushiftRight, Nat.shiftRight_eq_div_pow, BitVec.toNat_ofNat]
  symm
  apply Nat.mod_eq_of_lt
  refine lt_of_lt_of_le (Nat.mod_lt _ (Nat.two_pow_pos _)) (Nat.pow_le_pow_right (by decide) (by omega))
/-- A word that writes a pair. -/
theorem givesS64_of {i : Instr} {s : State} {d : SReg} {f : Group → Dword} {x : Dword} (hx : exec i s = scalarPair i d f s)
   (h : f s.g = x) : GivesS64 i s d x := h ▸ scalarPair_effect hx

/-- A pair as a number. -/
theorem readS64_nat (g : Group) (r : SReg) : (g.readS64 r).toNat = (g.readS r).toNat + 2 ^ 32 * (g.readS (sreg r 1)).toNat := by
  unfold Group.readS64 joinPair
  rw [BitVec.toNat_append, Nat.shiftLeft_eq, Nat.mul_comm, ← Nat.two_pow_add_eq_or_of_lt (g.readS r).isLt]
  omega

end Sys2Proof.Machine
end

