-- ==== Sys2Proof/Tests/Slice0.lean ====
section
/-!
SUPPORT. Tests/Slice0.lean: the model's own tests: ill-formed terms, words of the spec, small steps, and states that meet the hypotheses of
the statements in Certificates/Slice0/Obligations.lean.
-/
set_option maxRecDepth 100000
namespace Sys2Proof.Tests
open Sys2Proof Sys2Proof.Machine

/-! ### A small machine -/
/-- One group of 96 live lanes at word 0 of packet 0, changed by `f`; its workgroup, launch and context. -/
def root : Entry := { emask := allLanes, amask := allLanes }
def st (f : Machine.Group → Machine.Group := id) : State :=
  { g := f { gid := 1, wid := 1, me := { leaf := some root } }, w := { wid := 1, lid := 1 }, launches := [{ lid := 1, stages := [{}] }], ctxs := [{}] }
/-- An undisturbed issue of `i` there, as `Issues`, `Flows` and `Clean` ask for it. -/
def here (s : State) (i : Instr) : Bool :=
  i.len == 1 && !s.barred i && decide (s.g.poisonIn i.names.vr allLanes = 0) && decide (s.g.regs.pending = 0) && decide (s.g.regs.spois = 0) &&
  decide (s.latch = {}) && decide (s.g.me.leaf = some root) && decide (s.g.status = .ready) && decide (s.g.debt = {}) && decide (s.g.reads = []) &&
  !s.outlaw i

theorem witness_of_here (s : State) (i : Instr) (h : here s i = true) : Issues i s ∧ Flows s i.len ∧ Clean i allLanes s := by
  simp only [here, Bool.and_eq_true, beq_iff_eq, Bool.not_eq_true', decide_eq_true_eq] at h
  obtain ⟨⟨⟨⟨⟨⟨⟨⟨⟨⟨hl, hb⟩, hp⟩, h1⟩, h2⟩, h3⟩, h4⟩, h5⟩, h6⟩, h7⟩, h8⟩ := h
  refine ⟨⟨?_, by rw [h4]; rfl, h5, h6, hb, h8, by rw [h1]; simp, by simp [State.livePending, State.src, h3, h7], by rw [h2]; simp, fun _ => ?_⟩, ?_, hp⟩
  · rw [h3, hl]
  · have : s.g.amask = allLanes := by simp [Group.amask, h4, root]
    rw [this]; decide
  · intro l hs; rw [h4] at hs; cases hs; rw [hl]; left; decide

/-! ### Ill-formed terms: one for each check of WellFormed, which it refuses -/
theorem test_wf_refuses_1 : ([
  .add .wrap false 0 0 (.reg 63), .sub .wrap false 0 0 (.reg 63), .minS false 0 0 (.reg 63), .maxS false 0 0 (.reg 63),
   .minN false 0 0 (.reg 63), .maxN false 0 0 (.reg 63), .absd .wrap false 0 0 (.reg 63), .and false 0 0 (.reg 63),
   .or false 0 0 (.reg 63), .xor false 0 0 (.reg 63), .andn false 0 0 (.reg 63), .shl false 0 0 (.reg 63),
   .shr false 0 0 (.reg 63), .sar false 0 0 (.reg 63), .mul false 0 0 (.reg 63), .mulhS false 0 0 (.reg 63),
   .mulhN false 0 0 (.reg 63), .mad false 0 0 (.reg 63), .dot4S8 false 0 0 (.reg 63), .eq false 0 0 (.reg 63),
   .ne false 0 0 (.reg 63), .ltS false 0 0 (.reg 63), .leS false 0 0 (.reg 63), .ltN false 0 0 (.reg 63),
   .leN false 0 0 (.reg 63), .test false 0 0 (.reg 63), .mov false 0 (.reg 63), .sel false 0 0 (.reg 63),
   .selu false 0 0 (.reg 63), .bfeN false 0 0 (.reg 63), .bfeS false 0 0 (.reg 63), .bfi false 0 0 (.reg 63),
   .fadd .dyn false 0 0 (.reg 63), .fsub .dyn false 0 0 (.reg 63), .fmul .dyn false 0 0 (.reg 63),
   .ffma .dyn false 0 0 (.reg 63)] : List Instr).all (fun i => !i.wf) = true := by decide
theorem test_wf_refuses_2 : ([
  .ffms .dyn false 0 0 (.reg 63), .fnfma .dyn false 0 0 (.reg 63), .fmin .dyn false 0 0 (.reg 63),
   .fmax .dyn false 0 0 (.reg 63), .fdiv .dyn false 0 0 (.reg 63), .feq false 0 0 (.reg 63), .fne false 0 0 (.reg 63),
   .flt false 0 0 (.reg 63), .fle false 0 0 (.reg 63), .funord false 0 0 (.reg 63), .fcls false 0 0 63,
   .dadd .dyn false 1 0 0, .dadd .dyn false 0 1 0, .dadd .dyn false 0 0 1, .dsub .dyn false 1 0 0, .dsub .dyn false 0 1 0,
   .dsub .dyn false 0 0 1, .dmul .dyn false 1 0 0, .dmul .dyn false 0 1 0, .dmul .dyn false 0 0 1, .dfma .dyn false 1 0 0,
   .dfma .dyn false 0 1 0, .dfma .dyn false 0 0 1, .ddiv .dyn false 1 0 0, .ddiv .dyn false 0 1 0, .ddiv .dyn false 0 0 1,
   .dsqrt .dyn false 1 0, .dsqrt .dyn false 0 1, .hadd2 .dyn false 0 0 (.reg 63), .hmul2 .dyn false 0 0 (.reg 63),
   .hfma2 .dyn false 0 0 (.reg 63), .badd2 .dyn false 0 0 (.reg 63), .bmul2 .dyn false 0 0 (.reg 63),
   .bfma2 .dyn false 0 0 (.reg 63), .cvtF16x2F32 .dyn false 0 0 (.reg 63), .cvtF64F32 .dyn false 1 0] : List Instr).all (fun i => !i.wf) = true := by decide
theorem test_wf_refuses_3 : ([
  .cvtF32F64 .dyn false 0 1, .cvtBf16x2F32 .dyn false 0 0 (.reg 63), .cvtE4m3x2F32 .dyn false 0 0 (.reg 63),
   .cvtE5m2x2F32 .dyn false 0 0 (.reg 63), .unpk4S .dyn false 0 0 (.reg 63), .unpk4N .dyn false 0 0 (.reg 63),
   .iadd .f32 false 1 0 0, .iadd .f32 false 0 1 0, .iadd .f32 false 0 0 1, .isub .f32 false 1 0 0, .isub .f32 false 0 1 0,
   .isub .f32 false 0 0 1, .imul .f32 false 1 0 0, .imul .f32 false 0 1 0, .imul .f32 false 0 0 1, .idiv .f32 false 1 0 0,
   .idiv .f32 false 0 1 0, .idiv .f32 false 0 0 1, .isqr .f32 false 1 0, .isqr .f32 false 0 1, .ihull .f32 false 1 0 0,
   .ihull .f32 false 0 1 0, .ihull .f32 false 0 0 1, .isect .f32 false 1 0 0, .isect .f32 false 0 1 0,
   .isect .f32 false 0 0 1, .iwid .f64 false 1 0, .iwid .f32 false 0 1, .isqrt .f32 false 1 0, .isqrt .f32 false 0 1,
   .iabs .f32 false 1 0, .iabs .f32 false 0 1, .ineg .f32 false 1 0, .ineg .f32 false 0 1, .imid .f64 false 1 0,
   .imid .f32 false 0 1] : List Instr).all (fun i => !i.wf) = true := by decide
theorem test_wf_refuses_4 : ([
  .isplit .f32 false 1 0, .isplit .f32 false 2 1, .isplit .f32 false 0 0, .imake .f32 false 1 0 (.reg 0),
   .imake .f64 false 0 1 (.reg 0), .imake .f64 false 0 0 (.lit 0), .ipt .f32 false 1 0, .ipt .f64 false 0 1,
   .ilt .f32 false 0 1 0, .ilt .f32 false 0 0 1, .ile .f32 false 0 1 0, .ile .f32 false 0 0 1, .ieq .f32 false 0 1 0,
   .ieq .f32 false 0 0 1, .ine .f32 false 0 1 0, .ine .f32 false 0 0 1, .isubset .f32 false 0 1 0, .isubset .f32 false 0 0 1,
   .icont .f32 false 0 1 0, .icont .f32 false 0 0 1, .iempty .f32 false 0 1, .pset false 0 3, .shflIdx false 0 0 (.reg 63),
   .shflUp false 0 0 (.reg 63), .shflDn false 0 0 (.reg 63), .shflXor false 0 0 (.reg 63), .bcast false 0 0 (.reg 63),
   .ballot false 60 0, .xadrn 0 false 1, .xatst 0 false 0 (.reg 63), .xard 0 false 0 (.reg 63), .xard 0 false 1 (.reg 0),
   .sAdd 0 0 (.reg 63), .sSub 0 0 (.reg 63), .sAnd 0 0 (.reg 63), .sOr 0 0 (.reg 63)] : List Instr).all (fun i => !i.wf) = true := by decide
theorem test_wf_refuses_5 : ([
  .sXor 0 0 (.reg 63), .sShl 0 0 (.reg 63), .sShr 0 0 (.reg 63), .sSar 0 0 (.reg 63), .sMul 0 0 (.reg 63),
   .sMulhS 0 0 (.reg 63), .sMulhN 0 0 (.reg 63), .sMinS 0 0 (.reg 63), .sMaxS 0 0 (.reg 63), .sSltS 0 0 (.reg 63),
   .sSltN 0 0 (.reg 63), .sSeq 0 0 (.reg 63), .add64 1 0 0, .add64 0 1 0, .add64 0 0 1, .sub64 1 0 0, .sub64 0 1 0,
   .sub64 0 0 1, .addz64 0 0 (.reg 63), .addz64 1 0 (.reg 0), .addz64 0 1 (.reg 0), .mov64 1 0, .mov64 0 1,
   .vtos 0 0 (.reg 63), .ssel 0 0 (.reg 63), .loop 0 0 0, .loopi 0 1 0, .abinit 0 0, .abarr 0 0,
   .ld8n .relaxed false 0 (.flat 1), .ld8s .relaxed false 0 (.flat 1), .ld16n .relaxed false 0 (.flat 1),
   .ld16s .relaxed false 0 (.flat 1), .ld32 .relaxed false 0 (.flat 1), .ld64 .relaxed false 0 (.flat 1),
   .ld64 .relaxed false 1 (.flat 0)] : List Instr).all (fun i => !i.wf) = true := by decide
theorem test_wf_refuses_6 : ([
  .ld128 .relaxed false 0 (.flat 1), .ld128 .relaxed false 2 (.flat 0), .ldi .relaxed false 0 (.flat 1),
   .ldi .relaxed false 1 (.flat 0), .st8 .relaxed false 0 (.flat 1), .st16 .relaxed false 0 (.flat 1),
   .st32 .relaxed false 0 (.flat 1), .st64 .relaxed false 0 (.flat 1), .st64 .relaxed false 1 (.flat 0),
   .st128 .relaxed false 0 (.flat 1), .st128 .relaxed false 2 (.flat 0), .sti .relaxed false 0 (.flat 1),
   .sti .relaxed false 1 (.flat 0), .ldb8n .relaxed false 0 ⟨2, 0⟩, .ldb8s .relaxed false 0 ⟨2, 0⟩,
   .ldb16n .relaxed false 0 ⟨2, 0⟩, .ldb16s .relaxed false 0 ⟨2, 0⟩, .ldb32 .relaxed false 0 ⟨2, 0⟩,
   .ldb64 .relaxed false 0 ⟨2, 0⟩, .ldb64 .relaxed false 1 ⟨0, 0⟩, .ldb128 .relaxed false 0 ⟨2, 0⟩,
   .ldb128 .relaxed false 2 ⟨0, 0⟩, .ldbi .relaxed false 0 ⟨2, 0⟩, .ldbi .relaxed false 1 ⟨0, 0⟩,
   .stb8 .relaxed false 0 ⟨2, 0⟩, .stb16 .relaxed false 0 ⟨2, 0⟩, .stb32 .relaxed false 0 ⟨2, 0⟩,
   .stb64 .relaxed false 0 ⟨2, 0⟩, .stb64 .relaxed false 1 ⟨0, 0⟩, .stb128 .relaxed false 0 ⟨2, 0⟩,
   .stb128 .relaxed false 2 ⟨0, 0⟩, .stbi .relaxed false 0 ⟨2, 0⟩, .stbi .relaxed false 1 ⟨0, 0⟩,
   .ldc64 .relaxed false 1 ⟨63, 0⟩, .ldc128 .relaxed false 2 ⟨63, 0⟩, .ldci .relaxed false 1 ⟨63, 0⟩] : List Instr).all (fun i => !i.wf) = true := by decide
theorem test_wf_refuses_7 : ([
  .stc64 .relaxed false 1 ⟨63, 0⟩, .stc128 .relaxed false 2 ⟨63, 0⟩, .stci .relaxed false 1 ⟨63, 0⟩,
   .atomAdd ⟨.core, false⟩ false 0 (.flat 1), .atomMinS ⟨.core, false⟩ false 0 (.flat 1),
   .atomMaxS ⟨.core, false⟩ false 0 (.flat 1), .atomMinN ⟨.core, false⟩ false 0 (.flat 1),
   .atomMaxN ⟨.core, false⟩ false 0 (.flat 1), .atomAnd ⟨.core, false⟩ false 0 (.flat 1),
   .atomOr ⟨.core, false⟩ false 0 (.flat 1), .atomXor ⟨.core, false⟩ false 0 (.flat 1),
   .atomXchg ⟨.core, false⟩ false 0 (.flat 1), .atomCas ⟨.core, false⟩ false 0 (.flat 1),
   .atomCas ⟨.core, false⟩ false 1 (.flat 0), .atomFadd ⟨.core, false⟩ false 0 (.flat 1),
   .atomFmin ⟨.core, false⟩ false 0 (.flat 1), .atomFmax ⟨.core, false⟩ false 0 (.flat 1),
   .atomAdd64 ⟨.core, false⟩ false 0 (.flat 1), .atomAdd64 ⟨.core, false⟩ false 1 (.flat 0), .atomcCas false false 1 ⟨63, 0⟩,
   .atomAddSc false 0 (.flat 1), .atomXchgSc false 0 (.flat 1), .atomCasSc false 0 (.flat 1), .atomCasSc false 1 (.flat 0),
   .pref false (.flat 1), .prefL1 false (.flat 1), .resid false false (.flat 1), .cwb false (.flat 1), .cinv false (.flat 1),
   .settag false 0 (.flat 1), .gettag false 0 (.flat 1), .cpyIn 60 0 0, .cpyIn 0 4 0, .cpyOut 60 0 0, .cpyOut 0 4 0,
   .cpyMc 60 0 0] : List Instr).all (fun i => !i.wf) = true := by decide
theorem test_wf_refuses_8 : ([
  .cpyMc 0 4 0, .cpyCc 60 0 0, .cpyCc 0 4 0, .cpy2d 60 0 0, .cpy2d 0 4 0, .cpy2dmc 60 0 0, .cpy2dmc 0 4 0, .cpyWb 60 0 0,
   .cpyWb 0 4 0, .cseal 60, .cwait 60 0, .cpoll 60 0, .putsig 60 0 0, .putsig 0 4 0, .putsig 0 0 60, .qpush 0 8 0, .qpop 0 8,
   .qpoll 0 8, .baddS32 false 0 (.flat 1), .baddF32 false 0 (.flat 1), .baddBf16x2 false 0 (.flat 1),
   .bmaxF32 false 0 (.flat 1), .bminF32 false 0 (.flat 1), .mma 60 0, .mma 0 4, .mld 60 0, .mld 0 60, .mst 60 0, .mst 0 60,
   .mzero 60 0, .mres 60 0, .mres 0 1, .mres 0 60, .mspan 60 0, .frag false 0 1 0, .frag false 0 0 2] : List Instr).all (fun i => !i.wf) = true := by decide
theorem test_wf_refuses_9 : ([
  .fragKill false 1, .fannc false 1, .tsampNow false 0 0 (.reg 63), .tsampNow false 2 0 (.reg 0),
   .tsampNow false 0 1 (.reg 0), .tsampSet false 0 0 (.reg 63), .tsampSet false 2 0 (.reg 0), .tsampSet false 0 1 (.reg 0),
   .tflush false (.reg 63), .pxld false 1 8, .pxst false 1 8, .texSample false 2 0 0, .texSample false 0 2 0,
   .texSample false 0 0 1, .texLod false 0 2 0, .texLod false 0 0 1, .texFetch false 2 0 0, .texFetch false 0 2 0,
   .texFetch false 0 0 1, .texGather4 false 2 0 0, .texGather4 false 0 2 0, .texGather4 false 0 0 1, .emit false 0 1 0,
   .emit false 0 0 1, .spawn false 0 1 0, .spawn false 0 0 1, .csrr 0 0x007, .csrw 0 0x007, .csrs 0 0x007, .csrc 0 0x007,
   .csrwi 1 0x007, .vgrowTry 63, .frec 4] : List Instr).all (fun i => !i.wf) = true := by decide
theorem test_wf_refuses_bases : ([.ld32 .relaxed false 0 (.base 1 0), .ld32 .relaxed false 0 (.base 62 0), .ldb32 .relaxed false 0 ⟨60, 0⟩,
   .frec 56, .frec 4, .putsig 0 8 58, .ballot false 2 0] : List Instr).all (fun i => !i.wf) = true := by decide
theorem test_wf_accepts : ([.ld32 .relaxed false 0 (.base 60 0), .ldb32 .relaxed false 0 ⟨56, 0⟩, .frec 48, .cseal 63, .putsig 59 48 56,
   .add .wrap false 0 0 (.lit 63), .loop 0 0 1] : List Instr).all (·.wf) = true := by decide

/-! ### Words written out in the spec, by family -/
/-- 05: the integer examples of R92 to R97. -/
theorem test_decode_integer :
    decode 0x02083042 0 = some (.add .satS false 3 1 (.reg 2)) ∧ decode 0x05805106 0 = some (.sar false 5 4 (.reg 6)) ∧
    decode 0x07007209 0 = some (.dot4S8 false 7 8 (.reg 9)) ∧ decode 0x08803042 0 = some (.ltS false 3 1 (.reg 2)) ∧
    decode 0x0A0105FD 0 = some (.addi false 2 2 (-3)) ∧ decode 0x0C409042 0 = some (.sel false 9 1 (.reg 2)) ∧
    decode 0x0D0040FF 0x804 = some (.bfeS false 4 3 (.lit 0x804)) ∧ decode 0x0D800000 0 = some (.laneid false 0) := by decide
/-- R98, R99: predicates and shuffles. -/
theorem test_decode_predicate :
    decode 0x26004083 0 = some (.pand false 4 2 3) ∧ decode 0x27803002 0 = some (.pset false 3 2) ∧
    decode 0x28C0617F 1 = some (.shflXor false 6 5 (.lit 1)) := by decide
/-- R101 to R105: scalars. -/
theorem test_decode_scalar :
    decode 0x30C3EFD6 0 = some (.sOr 62 63 (.reg 22)) ∧ decode 0x33409105 0 = some (.sSltS 9 4 (.reg 5)) ∧
    decode 0x345060FF 0 = some (.sAndi 16 24 0xFF) ∧ decode 0x369FFFFF 0 = some (.sMovi 19 (-1)) ∧
    decode 0x3A00208C 0 = some (.add64 2 2 12) ∧ decode 0x3C00A440 0 = some (.stov 10 17) := by decide
/-- 05: control and waits. -/
theorem test_decode_control :
    decode 0x44000002 0 = some (.jmp 2) ∧ decode 0x44400028 0 = some (.call 40) ∧ decode 0x4A014003 0 = some (.loop 0 5 3) ∧
    decode 0x4A800000 0 = some (.lbrk 0) ∧ decode 0x47800000 0 = some .nop ∧ decode 0xC7800000 0 = some .nop ∧
    decode 0x4C28C001 0 = some (.abwait 6 true) ∧ decode 0x76028008 0 = some (.csrr 20 0x008) ∧ decode 0x78230000 0 = some (.frec 24) := by decide
theorem test_decode_branch : decode 0x40080604 0 = some (.brp .t 1 3 4) ∧ decode 0x42100005 0 = some (.brs .z 16 5) ∧
    decode 0x7E000000 0 = some (.poolGuard 0) ∧ decode 0x00000000 0 = none ∧ decode 0x7C000000 0 = none := by decide
/-- 08, 09, 11: floating point, intervals, the accumulator. -/
theorem test_decode_float :
    decode 0x10183042 0 = some (.fadd .rd false 3 1 (.reg 2)) ∧ decode 0x12105042 0 = some (.fdiv .rz false 5 1 (.reg 2)) ∧
    decode 0x16C04002 0 = some (.dfma .dyn false 4 0 2) ∧ decode 0x18803042 0 = some (.hfma2 .dyn false 3 1 (.reg 2)) ∧
    decode 0x20388310 0 = some (.iadd .f64 false 8 12 16) ∧ decode 0x2C480000 0 = some (.xachk 1) := by decide
/-- 13: memory. -/
theorem test_decode_memory :
    decode 0x504031BF 0 = some (.ld8s .relaxed false 3 (.flat 6)) ∧ decode 0x53800142 0 = none ∧
    decode 0x524031BF 0 = some (.st16 .relaxed false 3 (.flat 6)) ∧ decode 0x5E6841C2 0 = some (.atomCas ⟨.device, true⟩ false 4 (.base 2 7)) ∧
    decode 0x6000207F 0 = some (.atomcAdd false false 2 ⟨63, 1⟩) ∧ decode 0x628041BF 0 = some (.atomCasSc false 4 (.flat 6)) ∧
    decode 0x64000003 0 = some (.fenceAcq .device) ∧ decode 0x660001BF 0 = some (.pref false (.flat 6)) ∧
    decode 0x674031BF 0 = some (.settag false 3 (.flat 6)) := by decide
/-- 14, 17, 22: engines, queues, matrix words. -/
theorem test_decode_engine :
    decode 0x6801421E 0 = some (.cpyIn 20 8 30) ∧ decode 0x6A004048 0 = some (.qpush 4 1 8) ∧ decode 0x74001002 0 = some (.emit false 1 0 2) ∧
    decode 0x6E194240 0 = some (.mzero 20 9) ∧ decode 0x6E280680 0 = some (.mrel 26) ∧ decode 0x6E32EE80 0 = some (.mspan 46 58) := by decide

/-! ### Every word has a state in which it issues undisturbed (`Issues`, `Flows`, `Clean`) -/
theorem witness_issues_1 : ([
  .add .wrap false 0 0 (.reg 0), .sub .wrap false 0 0 (.reg 0), .minS false 0 0 (.reg 0), .maxS false 0 0 (.reg 0),
   .minN false 0 0 (.reg 0), .maxN false 0 0 (.reg 0), .absd .wrap false 0 0 (.reg 0), .and false 0 0 (.reg 0),
   .or false 0 0 (.reg 0), .xor false 0 0 (.reg 0), .andn false 0 0 (.reg 0), .shl false 0 0 (.reg 0),
   .shr false 0 0 (.reg 0), .sar false 0 0 (.reg 0), .mul false 0 0 (.reg 0), .mulhS false 0 0 (.reg 0),
   .mulhN false 0 0 (.reg 0), .mad false 0 0 (.reg 0), .dot4S8 false 0 0 (.reg 0), .popc false 0 0, .clz false 0 0,
   .eq false 0 0 (.reg 0), .ne false 0 0 (.reg 0), .ltS false 0 0 (.reg 0), .leS false 0 0 (.reg 0), .ltN false 0 0 (.reg 0),
   .leN false 0 0 (.reg 0), .test false 0 0 (.reg 0), .addi false 0 0 1, .andi false 0 0 1, .ori false 0 0 1,
   .xori false 0 0 1, .shli false 0 0 1, .shri false 0 0 1, .sari false 0 0 1, .movi false 0 1, .mov false 0 (.reg 0),
   .sel false 0 0 (.reg 0), .selu false 0 0 (.reg 0), .bfeN false 0 0 (.reg 0), .bfeS false 0 0 (.reg 0),
   .bfi false 0 0 (.reg 0), .laneid false 0, .fadd .dyn false 0 0 (.reg 0), .fsub .dyn false 0 0 (.reg 0)] : List Instr).all (here st) = true := by decide
theorem witness_issues_2 : ([
  .fmul .dyn false 0 0 (.reg 0), .ffma .dyn false 0 0 (.reg 0), .ffms .dyn false 0 0 (.reg 0), .fnfma .dyn false 0 0 (.reg 0),
   .fmin .dyn false 0 0 (.reg 0), .fmax .dyn false 0 0 (.reg 0), .fdiv .dyn false 0 0 (.reg 0), .fsqrt .dyn false 0 0,
   .frcp false 0 0, .frsq false 0 0, .fex2 false 0 0, .flg2 false 0 0, .fsin false 0 0, .fcos false 0 0,
   .feq false 0 0 (.reg 0), .fne false 0 0 (.reg 0), .flt false 0 0 (.reg 0), .fle false 0 0 (.reg 0),
   .funord false 0 0 (.reg 0), .fcls false 0 0 1, .dadd .dyn false 0 0 0, .dsub .dyn false 0 0 0, .dmul .dyn false 0 0 0,
   .dfma .dyn false 0 0 0, .ddiv .dyn false 0 0 0, .dsqrt .dyn false 0 0, .hadd2 .dyn false 0 0 (.reg 0),
   .hmul2 .dyn false 0 0 (.reg 0), .hfma2 .dyn false 0 0 (.reg 0), .badd2 .dyn false 0 0 (.reg 0),
   .bmul2 .dyn false 0 0 (.reg 0), .bfma2 .dyn false 0 0 (.reg 0), .cvtF32I32 .dyn false 0 0, .cvtI32F32 .dyn false 0 0,
   .cvtF32N32 .dyn false 0 0, .cvtN32F32 .dyn false 0 0, .cvtF32F16 .dyn false 0 0, .cvtF16x2F32 .dyn false 0 0 (.reg 0),
   .cvtF64F32 .dyn false 0 0, .cvtF32F64 .dyn false 0 0, .cvtF32Bf16 .dyn false 0 0, .cvtBf16x2F32 .dyn false 0 0 (.reg 0),
   .cvtF32E4m3 .dyn false 0 0, .cvtE4m3x2F32 .dyn false 0 0 (.reg 0), .cvtF32E5m2 .dyn false 0 0] : List Instr).all (here st) = true := by decide
theorem witness_issues_3 : ([
  .cvtE5m2x2F32 .dyn false 0 0 (.reg 0), .unpk4S .dyn false 0 0 (.reg 0), .unpk4N .dyn false 0 0 (.reg 0),
   .iadd .f32 false 0 0 0, .isub .f32 false 0 0 0, .imul .f32 false 0 0 0, .idiv .f32 false 0 0 0, .isqr .f32 false 0 0,
   .ihull .f32 false 0 0 0, .isect .f32 false 0 0 0, .iwid .f32 false 0 0, .isqrt .f32 false 0 0, .iabs .f32 false 0 0,
   .ineg .f32 false 0 0, .imid .f32 false 0 0, .isplit .f32 false 2 0, .imake .f32 false 0 0 (.reg 0), .ipt .f32 false 0 0,
   .ilt .f32 false 0 0 0, .ile .f32 false 0 0 0, .ieq .f32 false 0 0 0, .ine .f32 false 0 0 0, .isubset .f32 false 0 0 0,
   .icont .f32 false 0 0 0, .iempty .f32 false 0 0, .pand false 0 0 0, .por false 0 0 0, .pnot false 0 0, .pxor false 0 0 0,
   .pdf false 0 0, .pdt false 0 0, .pset false 0 1, .pund false 0 0, .shflIdx false 0 0 (.reg 0), .shflUp false 0 0 (.reg 0),
   .shflDn false 0 0 (.reg 0), .shflXor false 0 0 (.reg 0), .bcast false 0 0 (.reg 0), .redadd false 0 0, .vote false 0 0,
   .ballot false 0 0] : List Instr).all (here st) = true := by decide
theorem witness_issues_4 : ([
  .sAdd 0 0 (.reg 0), .sSub 0 0 (.reg 0), .sAnd 0 0 (.reg 0),
   .sOr 0 0 (.reg 0), .sXor 0 0 (.reg 0), .sShl 0 0 (.reg 0), .sShr 0 0 (.reg 0), .sSar 0 0 (.reg 0), .sMul 0 0 (.reg 0),
   .sMulhS 0 0 (.reg 0), .sMulhN 0 0 (.reg 0), .sMinS 0 0 (.reg 0), .sMaxS 0 0 (.reg 0), .sSltS 0 0 (.reg 0),
   .sSltN 0 0 (.reg 0), .sSeq 0 0 (.reg 0), .sAddi 0 0 1, .sAndi 0 0 1, .sOri 0 0 1, .sXori 0 0 1, .sShli 0 0 1, .sShri 0 0 1,
   .sSari 0 0 1, .sSltiS 0 0 1, .sMovi 0 1, .movh 0 1, .add64 0 0 0, .sub64 0 0 0, .addz64 0 0 (.reg 0), .mov64 0 0,
   .stov 0 0, .vtos 0 0 (.reg 0), .vtosf 0 0, .ssel 0 0 (.reg 0), .brp .t 0 1 1, .brs .z 0 1, .jmp 1, .call 1, .ret, .jmpr 0,
   .callr 0, .exit] : List Instr).all (here st) = true := by decide
theorem witness_issues_5 : ([
  .kill, .brk, .nop, .yield, .loop 0 0 1, .loopi 0 1 1, .lbrk 0, .bar 0, .bararr 0, .barwait 0, .abinit 0 1, .abarr 0 1,
   .abwait 0 false, .sleep 1, .wtok 0, .rgn, .rgnT, .rgnend, .ld8n .relaxed false 0 (.flat 0),
   .ld8s .relaxed false 0 (.flat 0), .ld16n .relaxed false 0 (.flat 0), .ld16s .relaxed false 0 (.flat 0),
   .ld32 .relaxed false 0 (.flat 0), .ld64 .relaxed false 0 (.flat 0), .ld128 .relaxed false 0 (.flat 0),
   .ldi .relaxed false 0 (.flat 0), .st8 .relaxed false 0 (.flat 0), .st16 .relaxed false 0 (.flat 0),
   .st32 .relaxed false 0 (.flat 0), .st64 .relaxed false 0 (.flat 0), .st128 .relaxed false 0 (.flat 0),
   .sti .relaxed false 0 (.flat 0), .ldb8n .relaxed false 0 ⟨0, 0⟩, .ldb8s .relaxed false 0 ⟨0, 0⟩,
   .ldb16n .relaxed false 0 ⟨0, 0⟩, .ldb16s .relaxed false 0 ⟨0, 0⟩, .ldb32 .relaxed false 0 ⟨0, 0⟩,
   .ldb64 .relaxed false 0 ⟨0, 0⟩, .ldb128 .relaxed false 0 ⟨0, 0⟩, .ldbi .relaxed false 0 ⟨0, 0⟩,
   .stb8 .relaxed false 0 ⟨0, 0⟩, .stb16 .relaxed false 0 ⟨0, 0⟩, .stb32 .relaxed false 0 ⟨0, 0⟩,
   .stb64 .relaxed false 0 ⟨0, 0⟩, .stb128 .relaxed false 0 ⟨0, 0⟩] : List Instr).all (here st) = true := by decide
theorem witness_issues_6 : ([
  .stbi .relaxed false 0 ⟨0, 0⟩, .ldc8n .relaxed false 0 ⟨63, 0⟩, .ldc8s .relaxed false 0 ⟨63, 0⟩,
   .ldc16n .relaxed false 0 ⟨63, 0⟩, .ldc16s .relaxed false 0 ⟨63, 0⟩, .ldc32 .relaxed false 0 ⟨63, 0⟩,
   .ldc64 .relaxed false 0 ⟨63, 0⟩, .ldc128 .relaxed false 0 ⟨63, 0⟩, .ldci .relaxed false 0 ⟨63, 0⟩,
   .stc8 .relaxed false 0 ⟨63, 0⟩, .stc16 .relaxed false 0 ⟨63, 0⟩, .stc32 .relaxed false 0 ⟨63, 0⟩,
   .stc64 .relaxed false 0 ⟨63, 0⟩, .stc128 .relaxed false 0 ⟨63, 0⟩, .stci .relaxed false 0 ⟨63, 0⟩,
   .atomAdd ⟨.core, false⟩ false 0 (.flat 0), .atomMinS ⟨.core, false⟩ false 0 (.flat 0),
   .atomMaxS ⟨.core, false⟩ false 0 (.flat 0), .atomMinN ⟨.core, false⟩ false 0 (.flat 0),
   .atomMaxN ⟨.core, false⟩ false 0 (.flat 0), .atomAnd ⟨.core, false⟩ false 0 (.flat 0),
   .atomOr ⟨.core, false⟩ false 0 (.flat 0), .atomXor ⟨.core, false⟩ false 0 (.flat 0),
   .atomXchg ⟨.core, false⟩ false 0 (.flat 0), .atomCas ⟨.core, false⟩ false 0 (.flat 0),
   .atomFadd ⟨.core, false⟩ false 0 (.flat 0), .atomFmin ⟨.core, false⟩ false 0 (.flat 0),
   .atomFmax ⟨.core, false⟩ false 0 (.flat 0), .atomAdd64 ⟨.core, false⟩ false 0 (.flat 0), .atomcAdd false false 0 ⟨63, 0⟩,
   .atomcMinS false false 0 ⟨63, 0⟩, .atomcMaxS false false 0 ⟨63, 0⟩, .atomcOr false false 0 ⟨63, 0⟩,
   .atomcXchg false false 0 ⟨63, 0⟩, .atomcCas false false 0 ⟨63, 0⟩, .atomAddSc false 0 (.flat 0),
   .atomXchgSc false 0 (.flat 0), .atomCasSc false 0 (.flat 0), .fenceAcq .core, .fenceRel .core, .fenceAr .core, .fenceSc,
   .fenceWb .core, .fenceInval .core, .bfence .core] : List Instr).all (here st) = true := by decide
theorem witness_issues_7 : ([
  .pref false (.flat 0), .prefL1 false (.flat 0), .resid false false (.flat 0), .cwb false (.flat 0), .cinv false (.flat 0),
   .settag false 0 (.flat 0), .gettag false 0 (.flat 0), .cpyIn 0 0 0, .cpyOut 0 0 0, .cpyMc 0 0 0, .cpyCc 0 0 0,
   .cpy2d 0 0 0, .cpy2dmc 0 0 0, .cpyWb 0 0 0, .cseal 0, .cwait 0 0, .cpoll 0 0, .putsig 0 0 0, .baddS32 false 0 (.flat 0), .baddF32 false 0 (.flat 0), .baddBf16x2 false 0 (.flat 0),
   .bmaxF32 false 0 (.flat 0), .bminF32 false 0 (.flat 0), .mma 0 0, .mld 0 0, .mst 0 0, .mzero 0 0, .mres 0 0, .mrel 0,
   .mspan 0 0, .munspan, .frag false 0 0 0, .fragKill false 0, .fannc false 0, .tsampNow false 0 0 (.reg 0),
   .tsampSet false 0 0 (.reg 0), .tflush false (.reg 0), .texSample false 0 0 0,
   .texLod false 0 0 0, .texFetch false 0 0 0] : List Instr).all (here st) = true := by decide
theorem witness_issues_8 : ([
  .texGather4 false 0 0 0, .csrr 0 0, .csrw 0 0, .csrs 0 0, .csrc 0 0, .csrwi 1 0,
   .vshrink, .trap 1, .tret, .lkill, .halt 1, .frec 0, .poolGuard 1] : List Instr).all (here st) = true := by decide
theorem witness_issues_long : (∃ s : State, Issues (.brpl .t 0 1 1) s ∧ Flows s 2) ∧
    (∃ s : State, Issues (.add .wrap false 3 1 (.lit 5)) s ∧ Flows s 2 ∧ Clean (.add .wrap false 3 1 (.lit 5)) allLanes s) := by
  refine ⟨⟨(st).withLatch { len := 2 }, ⟨by decide, rfl, rfl, by decide, by decide, by decide, by decide, by decide, by decide, fun _ => by decide⟩, ?_⟩,
    ⟨(st).withLatch { len := 2 }, ⟨by decide, rfl, rfl, by decide, by decide, by decide, by decide, by decide, by decide, fun _ => by decide⟩, ?_, by unfold Clean; decide⟩⟩ <;>
  · intro l hl; cases hl; left; decide

/-! ### States and operands that meet the statements' other hypotheses -/
theorem witness_encoded :
    (∃ w, encode (.add .satN true 63 62 (.lit 7)) = some w ∧ (Instr.add .satN true 63 62 (.lit 7)).wf = true ∧ w.toNat < 0x30000000) ∧
    (∃ w, encode (.csrwi 63 0x0F0) = some w ∧ (Instr.csrwi 63 0x0F0).wf = true ∧ 0x50000000 ≤ w.toNat) ∧
    (∃ w, encode (.lbrk 2) = some w ∧ 0x30000000 ≤ w.toNat ∧ w.toNat < 0x50000000) ∧
    decode 0x80000000 0 = none ∧ decode 0x82083042 0 = some (.add .satS false 3 1 (.reg 2)) :=
  ⟨⟨_, rfl, by decide, by decide⟩, ⟨_, rfl, by decide, by decide⟩, ⟨_, rfl, by decide, by decide⟩, by decide, by decide⟩
/-- A packet that opens with `nop` where the next step fetches. -/
def fetching : State := (st).withFetchWord 32 0x47800000
theorem witness_fetch : fetching.access fetching.me.home (BitVec.ofNat 64 0) 4 { fetch := true, tags := false } = .ok 1 0 false ∧ fetching.oldCode 0 = none := by decide
/-- The group's workgroup still holds a copy of the code as it was, `sleep 0`, since then stored over. -/
def codeHeld : State := { fetching with icache := [(2, { part := 0, asid := 0, sector := 0, ctx := 0, leaf := 1, pa := 0, data := memWrite [] 0 [0, 0, 0, 0x4E] })] }
theorem witness_old_code : (codeHeld.oldCode 0).isSome = true := by decide
theorem witness_step : fetching.stopped = false ∧ fetching.move = .issue 1 ∧ (fetching.front 1).g.parked = [] ∧
    (fetching.front 1).g.me.leaf = some root ∧ (fetching.front 1).fetchPacket 0 = .words 0x47800000 0x47800000 0x47800000 ∧
    (fetching.front 1).offender 0x47800000 0x47800000 0x47800000 3 0 false = none ∧
    (pword 0x47800000 0x47800000 0x47800000 0).instr = some .nop ∧ (pword 0x47800000 0x47800000 0x47800000 0).chains = false := by decide
/-- A chained pair, `addi v2, v2, 1` and `s.addi s5, s5, 1`. -/
def pairing : State := { fetching with mem := memSetWord (memSetWord (memSetWord [] 0 0x8A010401) 4 0x34051401) 8 0x47800000 }
theorem witness_pair : pairing.move = .issue 1 ∧ (pairing.front 1).fetchPacket 0 = .words 0x8A010401 0x34051401 0x47800000 ∧
    (pairing.front 1).offender 0x8A010401 0x34051401 0x47800000 3 0 false = none ∧
    (pword 0x8A010401 0x34051401 0x47800000 0).chains = true ∧ (pword 0x8A010401 0x34051401 0x47800000 0).guard = false ∧
    (pword 0x8A010401 0x34051401 0x47800000 0).next = 1 ∧ (pword 0x8A010401 0x34051401 0x47800000 1).guard = false ∧
    (pword 0x8A010401 0x34051401 0x47800000 0).instr = some (.addi false 2 2 1) ∧ (pword 0x8A010401 0x34051401 0x47800000 1).instr = some (.sAddi 5 5 1) := by decide
/-- Both words run: neither waits, nor does the dry run of the second. -/
theorem witness_pair_runs : let c := (pairing.front 1).keepCode 0
    let b := pword 0x8A010401 0x34051401 0x47800000 1
    ∃ u d v : State, exec (.addi false 2 2 1) (c.withLatch (c.latchFor 1 true true)) = .next u ∧ u.latch.stall = false ∧ u.latch.party = false ∧
      exec (.sAddi 5 5 1) (c.atSecond b c.readGroup) = .next d ∧ d.latch.stall = false ∧ d.latch.party = false ∧
      exec (.sAddi 5 5 1) { u.setLeaf (fun x => { x with wait := c.myWait2 }) with
        latch := { u.latch with first := false, len := b.len, depth := none, skipped := false, no := u.latch.no.map (· + 1) } } = .next v ∧
      v.latch.stall = false := ⟨_, _, _, rfl, by decide, by decide, rfl, by decide, by decide, rfl, by decide⟩
theorem witness_agent_step : ({ st with plan := [.agent .idleExit] } : State).stopped = false ∧ isStep .idleExit = true := by decide
theorem witness_stopped : ({ st with host := { bootst := 1 } } : State).stopped = true := by decide
theorem witness_memory : Memory.wf [(3, 1), (2 ^ 39 - 1, 255)] = true ∧ (st).memOk = true := by decide
theorem witness_memory_step : ∃ s t : State, s.memOk = true ∧ step s = .next t := ⟨{ st with g := {} }, _, by decide, rfl⟩
theorem witness_mask_scalar : ∃ l, (st).g.me.leaf = some l := ⟨root, rfl⟩
theorem witness_no_words : (fld 0x02C00000 25 6 = 1 ∧ fld 0x02C00000 22 3 = 3) ∧ (fld 0x03C00000 25 6 = 1 ∧ fld 0x03C00000 22 3 = 7) ∧
    (fld 0x02180000 25 6 = 1 ∧ 2 < fld 0x02180000 19 3) ∧ (fld 0x07400001 25 6 = 3 ∧ fld 0x07400001 22 3 = 5 ∧ fld 0x07400001 0 6 ≠ 0) ∧
    (fld 0x0BC00200 25 6 = 5 ∧ fld 0x0BC00200 22 3 = 7 ∧ fld 0x0BC00200 9 6 ≠ 0) ∧
    (fld 0x26800001 25 6 = 0x13 ∧ fld 0x26800001 22 3 = 2 ∧ fld 0x26800001 0 6 ≠ 0) ∧
    (fld 0x27800003 25 6 = 0x13 ∧ fld 0x27800003 22 3 = 6 ∧ 3 ≤ fld 0x27800003 0 6) := by decide
/-- The only entry is the root leaf. -/
theorem witness_single : Single (st) root := ⟨rfl, rfl, by decide, rfl, rfl, rfl⟩
theorem witness_goes_on : (st).latch.only = none ∧ Flows (st) 1 ∧ (∃ l, (st).g.me.leaf = some l ∧ l.ws + 1 < 3) ∧
    ∃ l, (st fun g => { g with me := { leaf := some { root with ws := 2 } } }).g.me.leaf = some l ∧ 3 ≤ l.ws + 1 ∧ l.skip = none :=
  ⟨rfl, fun l h => by cases h; left; decide, ⟨_, rfl, by decide⟩, ⟨_, rfl, by decide, rfl⟩⟩
/-- Levels 0 and 1 stand, level 1 ending at packet 4 with one turn left. -/
def looping : State := st fun g => { g with regs := { g.regs with lactive := 3, lc := #v[5, 1, 0], lend := #v[9, 4, 0], lstart := #v[1, 2, 0] } }
theorem witness_loops : looping.g.regs.lactive.getLsbD 1 = true ∧ looping.g.regs.lactive.getLsbD 2 = false ∧ looping.g.regs.lend[1] = 4 ∧
    looping.g.splitOpen = false ∧ looping.g.regs.lc[1].toNat ≤ 1 ∧ looping.g.regs.lend[1] ≠ 9 ∧ 1 < looping.g.regs.lc[0].toNat := by decide
/-- A split is open. -/
def split : State := st fun g => { g with
  regs := { g.regs with lactive := 1 }, nextEntry := 3
  entries := [{ kind := .split, id := 0, emask := allLanes, pc := 7 }]
  me := { leaf := some { id := 1, parent := some 0, emask := 5, amask := 5, pc := 1, rpc := 7 } } }
theorem witness_split_open : split.g.splitOpen = true := by decide
theorem witness_shuffle : (st).g.regs.vpois[3] &&& (st).g.amask = 0 ∧ (st).g.amask.getLsbD 95 = true ∧ (st).g.dead.getLsbD 95 = false := by decide
/-- Lane 95 is dead. -/
def oneDead : State := st fun g => { g with dead := 1#96 <<< 95, me := { leaf := some { root with emask := allLanes >>> 1, amask := allLanes >>> 1 } } }
theorem witness_absent_lane : oneDead.g.amask.getLsbD 95 = false ∧ oneDead.g.dead.getLsbD 95 = true ∧ oneDead.g.amask ≠ 0 := by decide
/-- No lane is active. -/
def noneActive : State := st fun g => { g with me := { leaf := some { root with amask := 0 } } }
theorem witness_no_lane : noneActive.g.amask = 0 := by decide
theorem witness_finite : (Val.fin true 1 (-3)).finite ∧ (Val.fin true 1 (-3)).real < 0 ∧ (Val.fin false 0 5).real = 0 ∧ 0 < (Val.fin false 1 0).real ∧
    Val.isNan (fp32.val 0x7FC00000) = true ∧ Val.isNan (fp32.val 0x7F800000) = false ∧ Val.lt (fp32.val 0x80000001) (fp32.val 1) = true := by
  refine ⟨trivial, by norm_num [Val.real], by norm_num [Val.real], by norm_num [Val.real], by decide, by decide, by decide⟩
theorem witness_rounding : ∃ (m : Nat) (e : Int) (x : ℚ), 0 < m ∧ (m : ℚ) * 2 ^ e < x ∧ x < (m + 1 : ℚ) * 2 ^ e ∧ 2 ^ (fp32.fw + 2) ≤ m :=
  ⟨2 ^ 25, 0, 2 ^ 25 + 1 / 2, by norm_num, by norm_num, by norm_num, by decide⟩
theorem witness_largest_finite : 0x7F7FFFFF < 2 * fp32.signBit ∧ (fp32.val 0x7F7FFFFF).finite ∧ (fe4m3.val 0x7E).finite ∧ (fp64.val 0x8000000000000001).finite :=
  ⟨by decide, trivial, trivial, trivial⟩
theorem witness_quiet : Quiet (st) allLanes fun _ => { val := 0x3F800000, flags := 0x10 } := ⟨rfl, rfl, fun _ _ => ⟨rfl, by show (0x10 : Byte) &&& ten (st).g.regs.fmode = 0; decide⟩⟩
/-- 1.0 computed, and a shadow of 1.0. -/
def checked : FOut := { val := 0x3F800000, flags := 0x10, pieces := [{ fmt := fp32, good := 0x3F800000, key := 0x3F800000 }] }
def flips (second : Bool) : List Upset := [{ lane := 95, second := second, flip := 0x80000000 }]
theorem witness_verdicts : checked.fault = none ∧ checked.pieces ≠ [] ∧ checked.flags &&& BitVec.ofNat 8 (0x400 / 64 % 32) ≠ 0 ∧
    checked.flags &&& BitVec.ofNat 8 (0x1800 / 64 % 32) = 0 ∧ 0x1800 / 2 ^ 11 % 4 = 3 ∧
    checked.pieces.any (fun p => p.diverges (checked.val ^^^ flipOf (flips false) 95 false)) = true ∧
    checked.pieces.any (fun p => p.diverges (checked.val ^^^ flipOf (flips false) 95 true)) = false ∧
    checked.pieces.any (fun p => p.diverges (checked.val ^^^ flipOf (flips true) 95 true)) = true := by decide
theorem witness_intervals : (⟨0xBF800000, 0x3F800000⟩ : Iv).kind fp32 = .valid ∧ (⟨0x7F800000, 0xFF800000⟩ : Iv).kind fp32 = .empty ∧
    (⟨0x3F800000, 0xBF800000⟩ : Iv).kind fp32 = .malformed := by decide
theorem witness_inside : inside (.fin true 1 0) (.inf false) 3 := ⟨.inr ⟨trivial, by norm_num [Val.real]⟩, .inl rfl⟩
theorem witness_split_intervals : (∀ L : Lane, ((st).g.readIv .f32 2 L).kind fp32 = .valid) ∧
    ∀ L : Lane, ((st fun g => { g with regs := { g.regs with v := (Vector.replicate 64 (Vector.replicate 96 0x7F800000)).set 3 (Vector.replicate 96 0xFF800000) } }).g.readIv .f32 2 L).kind fp32 = .empty := by decide
/-- Context 0 from v0 on with depth 2, one entry held. -/
def series : State := st fun g => { g with regs := { g.regs with xactl := #v[0x00240080, 0] } }
theorem witness_accumulator : (let w := series.g.regs.xactl[0]
      w.toNat % 64 % 2 = 0 ∧ w.toNat / 2 ^ 6 % 8 = 2 ∧ w.toNat / 2 ^ 9 % 4 = 0 ∧ w.toNat % 64 + 2 * (3 + 2) ≤ 32 ∧ w.getLsbD 11 = false ∧
      w.toNat / 2 ^ 21 % 8 = 1) ∧
    series.g.regs.spois = 0 ∧ series.g.regs.pending = 0 ∧ (∀ v : VReg, series.g.regs.vpois[v] = 0) ∧
    ([.xaadd 0 false 0, .xachk 0, .xadrn 0 false 0, .xatst 0 false 0 (.reg 0), .xaclr 0, .xard 0 false 0 (.reg 0),
      .xastat 0 false 0] : List Instr).all (here series) = true := by decide
/-- XACTL words for AccumulatorIllegal, one for each ground, and for AccumulatorEstimate: depth 2 with 0, 1 and 2 entries, and a weighted mix. -/
theorem witness_accumulator_words :
    (0x81 : Word).toNat % 64 % 2 = 1 ∧ (0x40 : Word).toNat / 2 ^ 6 % 8 < 2 ∧ 2 ≤ (0x480 : Word).toNat / 2 ^ 9 % 4 ∧
    64 < (0xB8 : Word).toNat % 64 + 2 * (3 + (0xB8 : Word).toNat / 2 ^ 6 % 8) ∧ 32 < (0x98 : Word).toNat % 64 + 2 * (3 + (0x98 : Word).toNat / 2 ^ 6 % 8) ∧
    60 < (0x3B000280 : Word).toNat / 2 ^ 24 % 64 + 2 ∧ (0x3B000280 : Word).toNat / 2 ^ 9 % 4 = 1 ∧ (0x880 : Word).getLsbD 11 = true ∧
    (0x00440080 : Word).toNat / 2 ^ 21 % 8 = 2 ∧ (0x08440280 : Word).toNat / 2 ^ 21 % 8 = 2 ∧ finite64 0x3FF0000000000000 = true ∧
    finite64 0x7FF0000000000000 = false ∧ Stands (.xachk 1) (st) ∧ (st).g.regs.xactl[1].toNat / 2 ^ 6 % 8 < 2 := by
  refine ⟨by decide, by decide, by decide, by decide, by decide, by decide, by decide, by decide, by decide, by decide, by decide, by decide,
    ⟨rfl, rfl, rfl⟩, by decide⟩
theorem witness_lowest_lane : (st).g.lanes false = allLanes ∧ ∀ L : Lane, (0 : Lane) ≤ L := ⟨by decide, fun _ => Fin.zero_le _⟩

/-- p1 is true in lane 0 alone. -/
def parted : State := st fun g => { g with regs := { g.regs with p := g.regs.p.set 0 ((Vector.replicate 96 .f).set 0 .t) } }
theorem witness_branches : root.amask &&& (maskOf fun L => meets (parted.g.readP 1 L) (senseCode .t)) = 1 ∧
    (∀ L : Lane, root.amask.getLsbD L.val = true → meets (parted.g.readP 0 L) (senseCode .t) = true) ∧
    (∀ L : Lane, root.amask.getLsbD L.val = true → ¬meets (parted.g.readP 0 L) (senseCode .f) = true) ∧ parted.g.regs.lactive = 0 ∧
    (parted.g.readS 0).toInt = 0 := by decide
theorem witness_parted : Single parted root ∧ Quits parted := ⟨⟨rfl, rfl, by decide, rfl, rfl, rfl⟩, .inl rfl⟩
/-- One child of a split has arrived; the other stands before the reconvergence packet. -/
def merging : State := st fun g => { g with
  nextEntry := 3, me := { leaf := some { id := 2, parent := some 0, emask := 5, amask := 5, pc := 6, rpc := 7 } }
  entries := [{ kind := .split, id := 0, emask := allLanes, pc := 7 }, { id := 1, parent := some 0, emask := allLanes &&& ~~~5, arr := true, pc := 7, rpc := 7 }] }
theorem witness_merge : ∃ l p a, merging.g.me.leaf = some l ∧ merging.g.mate.leaf = none ∧ merging.g.entries = [p, a] ∧ l.kind = .leaf ∧ l.arr = false ∧
    l.emask ≠ 0 ∧ l.parent = some p.id ∧ l.rpc ≠ 0xFFFFFFFF ∧ p.kind = .split ∧ p.emask ≠ 0 ∧ p.parent = none ∧ p.rpc = 0xFFFFFFFF ∧ p.pc = l.rpc ∧
    a.kind = .leaf ∧ a.arr = true ∧ a.parent = some p.id ∧ p.id ≠ a.id ∧ p.id ≠ l.id ∧ a.id ≠ l.id :=
  ⟨_, _, _, rfl, rfl, rfl, by decide⟩
/-- A function that one call has entered. -/
def called : State := st fun g => { g with
  nextEntry := 2, me := { leaf := some { id := 1, parent := some 0, emask := allLanes, amask := allLanes, pc := 40 } }
  entries := [{ kind := .call, id := 0, emask := allLanes, amask := 0, pc := 0xFFFFFFFF, rpc := 1 }] }
theorem witness_return : ∃ l c, called.g.me.leaf = some l ∧ called.g.entries = [c] ∧ c.kind = .call ∧ l.parent = some c.id ∧ c.id ≠ l.id ∧
    c.emask ≠ 0 ∧ c.pc = 0xFFFFFFFF ∧ c.amask ||| l.emask = c.emask := ⟨_, _, rfl, rfl, by decide⟩
theorem witness_exits : ((noneActive.setLeaf fun l => { l with amask := 7 }).g.amask = 7) ∧ root.emask &&& ((st).g.dead ||| (st).g.exited) = 0 ∧
    (st).g.startExited ≠ allLanes ∧ (st).g.method = none ∧ (st).g.region = .none ∧ (st).g.dead ||| (st).g.exited ||| root.emask = allLanes := by decide
/-- A group inside its handler. -/
def trapped : State := { st with g := (st).g.enterTrap 8 0x10 5 }
theorem witness_traps : (st).g.openTrap = none ∧ (st).g.status = .ready ∧ (st).g.dead ||| (st).g.exited ≠ allLanes ∧ trapped.g.openTrap ≠ none ∧
    trapped.g.entries.getLast? = trapped.g.openTrap ∧
    trapped.g.tretTrap = trapped.g.openTrap ∧ (st).g.tretTrap = none ∧ ((st).g.allEntries.map (·.id)).Nodup ∧
    (∀ e ∈ (st).g.allEntries, e.id < (st fun g => { g with nextEntry := 1 }).g.nextEntry) := by decide
theorem witness_halt : (st fun g => { g with method := some {} }).g.method ≠ none ∧ (st).g.gid ≠ 0 := by decide
theorem witness_records : (st).g.records.length < 128 ∧ 128 ≤ (st fun g => { g with records := List.replicate 128 (Vector.replicate 8 0) }).g.records.length ∧
    (st).g.records = [] := by decide
/-- A fault of lane 95 whose class says trap, kill, or halt. -/
def notes (act : Nat) : List FaultNote := [{ ipc := 4, lane := 95, cause := 0x01, act := act }]
theorem witness_actions : actionOf 0 0x01 = 0 ∧ actionOf 0x55555555 0x01 = 1 ∧ 2 ≤ actionOf 0xFFFFFFFF 0x01 ∧ notes 0 ≠ [] ∧
    (∀ n ∈ notes 1, n.lane < 96) ∧ ((st).kill (noteMask ((notes 1).filter fun n => n.act = 1))).g.status ≠ .retired ∧
    (notes 2).find? (fun n => decide (2 ≤ n.act)) = some { ipc := 4, lane := 95, cause := 0x01, act := 2 } ∧ (st).g.status ≠ .retired ∧
    (notes 0).find? (fun n => decide (2 ≤ n.act)) = none ∧ (notes 0).head? = some { ipc := 4, lane := 95, cause := 0x01, act := 0 } := by decide
theorem witness_no_instruction : (st).latch = {} ∧ (st).g.me.leaf.isSome = true ∧ (st).g.amask ≠ 0 := by decide

/-- The issuing slot waits on `x`. -/
def waiting (x : Wait) : State := st fun g => { g with me := { leaf := some { root with wait := x } } }
theorem witness_waits : (st).myWait = .none ∧ (waiting .granted).myWait = .granted ∧ (waiting .ticket).myWait = .ticket ∧
    (waiting (.barred 15)).myWait = .barred 15 ∧ (waiting (.pop 0 7)).myWait = .pop 0 7 := by decide
theorem witness_pending : (st fun g => { g with regs := { g.regs with pending := 1#64 <<< 59 } }).g.regs.pending.getLsbD 59 = true := by decide
/-- Barrier 15: this group's phase stands open in slot 0, or its phase is over. -/
def atBarrier (ended : Bool) : State :=
  { st (fun g => { g with barPending := 0x8000 }) with w := { wid := 1, lid := 1, barPhase := if ended then 0x8000 else 0 } }
theorem witness_barriers : (atBarrier false).g.barPending.getLsbD 15 = true ∧ (atBarrier false).w.barPhase.getLsbD 15 = (atBarrier false).g.barPhase.getLsbD 15 ∧
    (atBarrier true).w.barPhase.getLsbD 15 ≠ (atBarrier true).g.barPhase.getLsbD 15 ∧ (st).g.barPending.getLsbD 15 = false ∧
    (st).expected 1 ≤ (st).w.barArrived[(15 : Fin 16)] + 1 := by decide
theorem witness_arrivals : barPend 0x300000005 = 3 ∧ 0x300000005 < 2 ^ 64 ∧ barPend 0x7FFFFFFF00000000 = 0x7FFFFFFF ∧ barPh 0x300000005 = 0 ∧
    barPh 0x8000000300000005 = 1 := by decide
/-- A workgroup with 64 KiB of core memory and one word of it listed. -/
def withCore : State := { st with w := { wid := 1, lid := 1, cmBytes := 65536, cm := [(65535, 7)] } }
theorem witness_core_memory : withCore.cmPlace withCore.w (withCore.g.readS 0) 8 = .ok (1, 0) ∧ withCore.cmPoisoned 1 0 8 = false ∧
    withCore.wg? 1 = some withCore.w ∧ withCore.member? withCore.w 0 = some withCore.w := by decide
theorem witness_regions : (st).g.region ≠ .trans ∧ (st).myPhase ≠ .soft ∧ root.arr = false ∧ root.ws < 2 := by decide
/-- A group of an ext-mode stage, with or without the block. -/
def extended (b : Bool) : State :=
  { st (fun g => { g with regs := { g.regs with extb := b } }) with launches := [{ lid := 1, stages := [{ desc := (Vector.replicate 32 0).set 1 0x10 }] }] }
theorem witness_extended : (extended true).myStage.desc[1].getLsbD 4 = true ∧ 2 ≤ (extended false).freeBlocks 0 0 ∧ (extended false).othersGrow = false ∧
    ((extended false).onUnit 0 0).any Group.growing = false ∧ (extended true).g.mateBusy = false ∧ (extended true).g.parked = [] ∧ (extended false).myWait = .none ∧
    here (extended true) .vgrow = true ∧ here (extended false) (.vgrowTry 0) = true := by decide
/-- 15 more groups leave the unit one free block or none. -/
def crowded (n : Nat) : State := { extended false with others := (List.range n).map fun k => { gid := k + 2, wid := 1, gslot := Fin.ofNat 16 (k + 1), regs := { extb := true } } }
theorem witness_crowded : (crowded 8).freeBlocks 0 0 = 0 ∧ (crowded 7).freeBlocks 0 0 < 2 := by decide
theorem witness_csr_numbers : (0x37 < 0x38 ∧ ¬(0x38 < 0x38)) ∧ 0x3B < 0x3C ∧ (0x080 : Nat) ∉ [0x000, 0x001, 0x002, 0x003, 0x004, 0x030, 0x031, 0x070] := by decide

/-! ### Memory -/
/-- The page at 0 is mapped to frame 0 of channel 0: writable, or as `leaf` says. -/
def mapped (leaf : Dword := 1) : State :=
  { withCore with
    tlb := [{ part := 0, asid := 0, page := 0, leaf := leaf, frame := 0 }]
    parts := Vector.replicate 16 ({ word := ((((Vector.replicate 32 0).set 0 1).set 1 1).set 2 1).set 7 1 } : Part) }
theorem witness_access : ((mapped).access (mapped).me 0 8 { write := true, tags := false } = .ok 1 0 false) ∧
    ((mapped).access (mapped).me 4 8 { write := true } = .fault 0x03) ∧ ((mapped).access (mapped).me (1#64 <<< 60) 4 {} = .fault 0x06) ∧
    ((mapped).access (mapped).me (BitVec.ofNat 64 windowBase) 4 {} = .window 0) ∧ (mapped).heldLine (mapped).me 0 = none ∧
    (mapped).translate (mapped).me 0 = .page 1 ∧ (mapped).frameOf (mapped).me 0 1 = some 0 ∧ (mapped).channelOf 0 0 = some 0 ∧ channelOfPa (leafFrame 1) = 0 ∧
    (mapped).keyOk 0 0 = true ∧ ((mapped).access (mapped).me 65536 4 {} = .park false) := by decide
/-- Its port 0 is the partition's, or no port is. -/
def remotely (port : Bool) (leaf : Dword) : State :=
  { mapped leaf with parts := (mapped).parts.set 0 { word := (mapped).parts[0].word.set 16 (if port then 0x10000 else 0) } }
/-- A remote page; pages that may not be written or fetched from, that are not TAGGED, or whose granules have another tag. -/
theorem witness_refused : (remotely false 0x101).access (mapped).me 0 4 {} = .fault 0x14 ∧ (remotely true 0x101).access (mapped).me 0 4 {} = .remote 0x101 ∧
    (remotely true 0x101 |>.access (mapped).me 0 4 { tagged := true }) = .fault 0x06 ∧ (mapped 3).access (mapped).me 0 4 { write := true } = .fault 0x06 ∧
    (mapped 5).access (mapped).me 0 4 { fetch := true } = .fault 0x07 ∧ (mapped 0x21).access (mapped).me (1#64 <<< 56) 4 {} = .fault 0x05 ∧
    (mapped 0x21).tagSeen none 0 ≠ tagOfPtr (1#64 <<< 56) ∧ (mapped 0x8000000001).keyOk 0 1 = false := by decide
theorem witness_address : (mapped).latch.snap = none ∧ (mapped).latch.fatal = 0 ∧ vaOf ((mapped).g.readS64 0) + 0 < 2 ^ 52 ∧
    (mapped).resolveG (.flat 2) 4 { write := true } true 95 = .mem 1 0 0 ∧ (mapped).resolveC ⟨63, 1⟩ 4 95 = .core 1 0 0 ∧
    (mapped).resolveB ⟨0, 1⟩ 4 { write := true } 95 = .fault 0x04 0 := by decide
theorem witness_drop : ((mapped).setS 1 (1#32 <<< 28)).resolveB ⟨0, 1⟩ 4 {} 95 = .drop 0 := by decide
theorem witness_loads : CleanCaches (mapped) ∧ ((mapped).resolveG (.flat 2) 4 {} true 95).reaches = true ∧
    (mapped).datumPoison (mapped).me [] 4 (some 95) ((mapped).resolveG (.flat 2) 4 {} true 95) = false ∧
    badIv ((mapped).loadVal 8 ((mapped).resolveG (.flat 2) 8 {} true 95)) = false ∧ badIv ((mapped).g.storeVal 2 8 95) = false :=
  ⟨⟨rfl, fun _ h => by cases h⟩, by decide, by decide, by decide, by decide⟩
/-- Four tables of page 0 at 0x1000, 0x2000, 0x3000 and 0x4000 of channel 0, and a leaf for frame 0x10000. -/
def tables : State := { mapped with
  tlb := [], ctxs := [{ desc := (Vector.replicate 16 0).set 0 0x1000 }]
  mem := memSetWord (memSetWord (memSetWord (memSetWord [] 0x1000 0x2001) 0x2000 0x3001) 0x3000 0x4001) 0x4000 0x10001 }
theorem witness_walk : tables.translate tables.me 0 = .page 0x10001 ∧ tables.frameOf tables.me 0 0x10001 = some 0x10000 ∧
    (tables.partWord tables.me.part 0).getLsbD 2 = false ∧ tables.tlb? tables.me 0 = none ∧ tables.poisoned 0x1000 = false ∧ tables.entryOf 0 (ctxRoot (tables.ctxDesc 0)) 43 = 0x2001 ∧
    tables.translate tables.me (2 ^ 43) = .absent false := by decide
theorem witness_stored : (mapped).cacheable (mapped).me 1 0 = true ∧ (mapped).linkUp 0 = true ∧ leafDlog 1 = false ∧ (∀ c ∈ (mapped).cores, c.commit = []) ∧
    (∃ leaf : Dword, (mapped).cacheable (mapped).me leaf 0 = false ∧ leafDlog leaf = false) := by
  refine ⟨by decide, by decide, by decide, by decide, ⟨0x11, by decide⟩⟩
/-- The operands of the memory witnesses above also issue undisturbed, with every lane at address 0. -/
theorem witness_memory_issues : here (mapped) (.ld32 .relaxed false 4 (.flat 2)) = true ∧ here (mapped) (.ld64 .relaxed false 4 (.flat 2)) = true ∧
    here (mapped) (.ldc32 .relaxed false 4 ⟨63, 1⟩) = true ∧ here ((mapped).setS 1 (1#32 <<< 28)) (.ldb32 .relaxed false 4 ⟨0, 1⟩) = true ∧
    here (mapped) (.st32 .relaxed false 4 (.flat 2)) = true ∧ here (mapped) (.sti .bypass false 4 (.flat 2)) = true := by decide
theorem witness_atomics : here (mapped) (.atomAdd ⟨.device, true⟩ false 4 (.flat 2)) = true ∧ here (mapped) (.atomcCas true false 4 ⟨63, 1⟩) = true ∧
    (mapped).endTransaction = mapped ∧ (mapped).g.region ≠ .trans ∧ (∀ h ∈ (mapped).others, h.gid ≠ (mapped).g.gid) := by decide
/-- Lane 95 alone is active there. -/
def mappedOne : State := { mapped with g := { (mapped).g with me := { leaf := some { root with amask := 1#96 <<< 95 } } } }
theorem witness_atomic_good : (mappedOne.endTransaction.resolveG (.flat 2) 4 { write := true } false 95).reaches = true ∧
    (mappedOne.atHome (1#96 <<< 95) (mappedOne.resolveG (.flat 2) 4 { write := true } false)).datumPoison mappedOne.me.home [] 4 (some 95)
      (mappedOne.resolveG (.flat 2) 4 { write := true } false 95) = false ∧
    (mappedOne.endTransaction.resolveC ⟨63, 1⟩ 4 95).reaches = true ∧ (mappedOne.resolveSc (.flat 2) 95).reaches = true ∧ mappedOne.g.lanes false = 1#96 <<< 95 ∧
    here { mappedOne with g := (mapped).g } (.atomAddSc false 4 (.flat 2)) = true := by decide
/-- The same where the issuing word holds its ticket, or waits for it. -/
def mappedWait (x : Wait) : State := { mapped with g := (waiting x).g }
theorem witness_tickets : (mappedWait .ticketed).myWait = .ticketed ∧ (mappedWait .ticket).myWait = .ticket ∧
    (mappedWait .ticket).ticketWaits = [(1, 0)] ∧ (mapped).ticketWaits = [] ∧
    Issues (.atomCasSc false 4 (.flat 2)) (mappedWait .ticketed) ∧ Issues .fenceSc (mappedWait .ticket) :=
  ⟨rfl, rfl, by decide, by decide, ⟨rfl, rfl, rfl, by decide, by decide, by decide, by decide, by decide, by decide, fun _ => by decide⟩,
    ⟨rfl, rfl, rfl, by decide, by decide, by decide, by decide, by decide, by decide, fun _ => by decide⟩⟩
/-- Context 0 holds a line with a byte that is not in DRAM yet; a Basin operation of the group is under way. -/
def dirty : State := { mapped with
  l2 := [{ part := 0, asid := 0, sector := 0, ctx := 0, leaf := 1, pa := 0, data := [(3, 9)], dmask := 8 }]
  basins := [{ id := 1, gid := 1, op := .addS32, pa := 4, va := 4, leaf := 1, part := 0, asid := 0, value := 7 }] }
theorem witness_fences : (∃ l ∈ dirty.l2, l.part = dirty.me.part ∧ l.asid = dirty.me.asid ∧ l.dmask ≠ 0) ∧ (∃ b ∈ dirty.basins, b.gid = dirty.g.gid) ∧
    (∀ l ∈ (mapped).l2, ¬(l.part = (mapped).me.part ∧ l.dmask ≠ 0)) ∧ (mapped).basins = [] ∧
    (mappedWait .writeBack).group? 1 = some (mappedWait .writeBack).g ∧ (mappedWait .writeBack).ctxOfGroup (mappedWait .writeBack).g = some 0 ∧
    dirty.upsetBits = [] := by decide
/-- A page of tagged granules. -/
def taggedPage : State := mapped 0x21
theorem witness_lines : leafTagged 0x21 = true ∧ leafDlog 0x21 = false ∧
    (∀ L : Lane, (mapped).resolveG (.flat 2) 1 {} false L = .mem 1 0 0 ∧
      taggedPage.resolveG (.flat 2) 1 { write := true, tags := false, tagged := true } false L = .mem 0x21 0 0 ∧
      taggedPage.resolveG (.flat 2) 1 { tags := false } false L = .mem 0x21 0 0 ∧ ((mapped).g.gptr (.flat 2) L) = (0, false)) ∧
    ptrBad 0 = false ∧ vaOf 0 < windowBase ∧ (mapped).me.engine = false ∧
    (∀ L : Lane, ((mapped).setV 3 allLanes fun _ => 1#32 <<< 28).resolveG (.flat 2) 1 {} false L = .fault 0x06 (1#64 <<< 60)) ∧
    here (mapped) (.cinv false (.flat 2)) = true ∧ here taggedPage (.settag false 4 (.flat 2)) = true := by decide
theorem witness_basins : (∀ L : Lane, (mapped).resolveSc (.flat 2) L = .mem 1 0 0) ∧ here (mapped) (.baddS32 false 4 (.flat 2)) = true ∧
    (dirty.basins.map (·.id)).Nodup ∧ (∃ b ∈ dirty.basins, b.pa % 4 = 0 ∧ dirty.poisoned b.pa = false ∧ leafDlog b.leaf = false) ∧ (mapped).l2 = [] ∧
    (mapped).myStage.desc[1].getLsbD 7 = false ∧ (mapped).upsetBits = [] := by decide
/-- Another group of the workgroup is halted. -/
def halted : State := { withCore with others := [{ gid := 2, wid := 1, gslot := 1, status := .halted }] }
theorem witness_window : (halted.window? halted.myCtx 0x20000 true).map (·.gid) = some 2 ∧ (halted.window? halted.myCtx 0x20000 false).isSome = true ∧
    (halted.window? halted.myCtx 0x28000 false).isSome = true ∧ (halted.window? halted.myCtx 0x30000 false).isSome = true ∧ halted.g.gid ≠ 2 ∧
    (halted.allGroups.map (·.gid)).Nodup := by decide

/-! ### Engines and queues -/
/-- The partition owns the copy engine of cluster 0. -/
def owning : State := { mapped with parts := (mapped).parts.set 0 { word := (mapped).parts[0].word.set 15 1 } }
/-- A copy of 4 bytes from address 0 to core memory, with barrier word 1. -/
def aCopy : Copy :=
  { id := 1, kind := 0, gid := 1, wid := 1, core := 0, ctx := 0, part := 0, asid := 0, place := 0, ipc := 0, desc := #v[0, 0, 64, 0, 4, 1, 0, 0]
    opb := 0x100, token := 9, batch := 1 }
def copying (f : Copy → Copy := id) : State := { owning with copies := [f aCopy] }
theorem witness_copies : owning.ownsEngine = true ∧ (mapped).ownsEngine = false ∧ owning.inFlight owning.g.gid < 64 ∧
    here owning (.cpyIn 9 10 20) = true ∧ 64 ≤ ({ owning with copies := (List.range 64).map fun k => { aCopy with id := k } } : State).inFlight 1 ∧
    owning.latch.snap = none ∧ (owning.openBatches.filter fun b => b ≤ owning.g.sealedTo).length < 255 := by decide
theorem witness_batches :
    255 ≤ (({ owning with g := { owning.g with sealedTo := 300 }, copies := (List.range 255).map fun k => { aCopy with id := k, batch := k + 1 } } : State).openBatches.filter
      fun b => b ≤ 300).length ∧
    owning.g.sealedTo = 0 ∧ owning.g.readS 4 = BitVec.ofNat 32 0 ∧ 2 ^ 31 ≤ (BitVec.ofNat 32 0 - BitVec.ofNat 32 1 : Word).toNat ∧
    (∀ c ∈ owning.copies, c.gid = owning.g.gid → 0 < c.batch) ∧ ¬(∀ c ∈ (copying).copies, c.gid = 1 → 1 < c.batch) ∧
    (∃ g : Machine.Group, ∃ f ∈ g.failed, f.1 ≤ 3 ∧ (∀ h ∈ g.failed, h.1 ≤ 3 → h ≠ f → f.2.1 < h.2.1)) :=
  ⟨by decide, rfl, by decide, by decide, by decide, by decide, ⟨{ failed := [(2, 1, 7), (3, 4, 8)] }, (2, 1, 7), by decide, by decide, by decide⟩⟩
theorem witness_copy_accept : (copying).copies.find? (fun x => x.id = 1) = some aCopy ∧ aCopy.ok = true ∧ aCopy.accepted = false ∧
    Copy.ok { aCopy with desc := #v[2, 0, 64, 0, 4, 1, 0, 0] } = false ∧ aCopy.multi = false ∧ aCopy.kind ≠ 10 := by decide
def accepted (f : Copy → Copy := id) : Copy := f { aCopy with accepted := true }
theorem witness_copy_runs : (copying fun _ => accepted).meets (accepted) = .clear ∧ (copying).wg? 1 = some (copying).w ∧
    (accepted).bar + 8 ≤ (copying).w.cmBytes ∧
    (copying).meets (accepted fun c => { c with desc := #v[0, 0, 0x20000, 0, 4, 1, 0, 0] }) = .fault 0x04 := by decide
theorem witness_copy_parks : ∃ p, (copying).meets (accepted fun c => { c with desc := #v[0, 1, 64, 0, 4, 1, 0, 0] }) = .park p false false := ⟨1#64 <<< 32, by decide⟩
/-- A put of 4 bytes from core memory with its flag, both to page 0. -/
def aPut : Copy := { accepted with kind := 10, desc := #v[0, 0x80000000, 64, 0, 4, 1, 0, 0], flag := #v[128, 0, 1, 1] }
theorem witness_putsig :
    let fl := match (copying).engRes aPut.who 1 true (.glob (joinPair 128 0)) with | .window _ => .fault 0x06 | r => r
    aPut.ok = true ∧ (copying fun _ => aPut).meets aPut = .clear ∧ firstBar [(true, fl)] = .clear ∧
    (∀ p ∈ (copying).engPairs aPut, remoteDev p.2 = remoteDev fl) ∧
    (copying fun c => { aPut with desc := c.desc.set 3 0x10000000 }).meets { aPut with desc := aPut.desc.set 3 0x10000000 } = .fault 0x06 ∧
    firstBar [(true, match (copying).engRes aPut.who 1 true (.glob (BitVec.ofNat 64 windowBase)) with | .window _ => .fault 0x06 | r => r)] = .fault 0x06 := by decide
/-- A multicast of 4 bytes from address 0 to offset 64 of the core memory of core 0 of the cluster, or of no core. -/
def aMulti (cmask : Word) : Copy := { accepted with kind := 2, opb := 0x100 ||| cmask }
theorem witness_multicast : (aMulti 1).multi = true ∧ (aMulti 1).ok = true ∧ (aMulti 0).named = [] ∧ (aMulti 1).named ≠ [] ∧
    (copying).receivers (aMulti 1) = [(copying).w] ∧ (copying).multiFailed (aMulti 1) = 0 ∧ (copying).multiFailed (aMulti 3) = 2 ∧
    firstBar (((aMulti 1).places.map fun p => (copying).engRes (aMulti 1).who 1 false ((aMulti 1).srcAt p.1 p.2)).map fun r => (false, r)) = .clear ∧
    (copying).upsetCells = [] ∧ (aMulti 1).bar ≠ 0 ∧ (∃ e ∈ [(((0, 0) : Nat × Nat), (7 : Word), false)], (1, (aMulti 1).desc[2].toNat % 2 ^ 20 + 4 * e.1.2) ∈ [(1, 64)]) := by decide
/-- Stage 0 feeds stage 1, which queue 3 names; it holds `n` records of width 4. -/
def queues (n : Nat) (f : Machine.Group → Machine.Group := id) : State := { st f with launches := [{ lid := 1, stages := [
  { desc := (((Vector.replicate 32 0).set 1 0x800).set 9 0x1000).set 10 8 },
  { desc := (Vector.replicate 32 0).set 3 0x3002, queue := List.replicate n [1, 2, 3, 4] }] }] }
theorem witness_queues : (queues 1).boundQueue 3 = some 1 ∧ (queues 1).boundQueue 2 = none ∧ stageWidth ((queues 1).myLaunch.stage 1) = 4 ∧
    ((queues 1).myLaunch.stage 1).queue.length < ((queues 1).myLaunch.stage 1).desc[3].toNat % 2 ^ 11 ∧
    ((queues 2).myLaunch.stage 1).desc[3].toNat % 2 ^ 11 ≤ ((queues 2).myLaunch.stage 1).queue.length ∧
    ((queues 2).myLaunch.stage 1).desc[6].toNat % 2 ^ 21 ≤ ((queues 2).myLaunch.stage 1).ringCount ∧ ((queues 0).myLaunch.stage 1).ringCount = 0 ∧ ((queues 1).myLaunch.stage 1).queue ≠ [] ∧
    ((queues 0).myLaunch.stage 1).queue = [] ∧ (queues 0).myWait = .none ∧ here (queues 1) (.qpush 9 3 10) = true ∧ here (queues 1) (.qpop 9 3) = true ∧
    here (queues 1) (.qpoll 9 3) = true ∧
    (queues 1).g.regs.pending = 0 ∧ stageDet (queues 1).myStage = false ∧ 60 < 57 + stageWidth ((queues 1).myLaunch.stage 1) ∧
    (queues 1).g.regs.spois = 0 := by decide
theorem witness_pop_taken : ∃ l, (queues 1 fun g => { g with me := { leaf := some { root with wait := .pop 9 3 } } }).g.me.leaf = some l ∧
    l.wait = .pop 9 3 ∧ l.chained = false := ⟨_, rfl, rfl, rfl⟩
/-- The queue is full on chip; its ring in memory has room. -/
def overflowing : Stage := { desc := ((Vector.replicate 32 0).set 3 0x3002).set 6 4, queue := List.replicate 2 [1, 2, 3, 4], ringCount := 3 }
theorem witness_ring : overflowing.desc[3].toNat % 2 ^ 11 ≤ overflowing.queue.length ∧ overflowing.ringCount < overflowing.desc[6].toNat % 2 ^ 21 := by decide
/-- One lane is active, and its records are intervals 1..2; or the issuing workgroup is of stage 1, which may spawn. -/
def oneLane (g : Machine.Group) : Machine.Group :=
  { g with me := { leaf := some { root with amask := 1 } }, regs := { g.regs with v := ((Vector.replicate 64 (Vector.replicate 96 0)).set 2 (Vector.replicate 96 0x3F800000)).set 3 (Vector.replicate 96 0x40000000) } }
def spawning (n : Nat) : State := { queues 0 oneLane with
  w := { wid := 1, lid := 1, stage := 1 }
  launches := [{ lid := 1, stages := [{}, { desc := ((Vector.replicate 32 0).set 1 0x1000).set 3 0x3002, queue := List.replicate n [1, 2, 3, 4] }] }] }
theorem witness_emit : (queues 1 oneLane).emitTo = some 1 ∧ (st).emitTo = none ∧ (spawning 0).spawnTo = some 1 ∧ (queues 1).spawnTo = none ∧
    ((queues 1 oneLane).myLaunch.stage 1).queue.length + (lanesOf ((queues 1 oneLane).g.lanes false)).length ≤ ((queues 1 oneLane).myLaunch.stage 1).desc[3].toNat % 2 ^ 11 ∧
    ((spawning 0).myLaunch.stage 1).queue.length + (lanesOf ((spawning 0).g.lanes false)).length ≤ ((spawning 0).myLaunch.stage 1).desc[3].toNat % 2 ^ 11 ∧
    ((spawning 2).myLaunch.stage 1).desc[3].toNat % 2 ^ 11 ≤ ((spawning 2).myLaunch.stage 1).queue.length ∧
    (∀ L : Lane, (spawning 0).g.ivKind 2 L = .valid) ∧ (queues 1 oneLane).g.lanes false ≠ 0 ∧
    Issues (.emit false 1 2 4) (queues 1 oneLane) ∧ Issues (.spawn false 1 2 4) (spawning 0) :=
  ⟨by decide, by decide, by decide, by decide, by decide, by decide, by decide, by decide, by decide,
    ⟨rfl, rfl, rfl, by decide, by decide, by decide, by decide, by decide, by decide, fun _ => by decide⟩, ⟨rfl, rfl, rfl, by decide, by decide, by decide, by decide, by decide, by decide, fun _ => by decide⟩⟩
theorem witness_spawn_empty : ∀ L : Lane, ((spawning 0).setVs 2 1 (fun _ => 0xFF8000007F800000) 2).g.lanes false = 1 ∧
    ((1 : Mask).getLsbD L.val = true → ((spawning 0).setVs 2 1 (fun _ => 0xFF8000007F800000) 2).g.ivKind 2 L = .empty) := by decide

/-! ### The matrix array -/
/-- A matrix word of the issuing workgroup in core 0's order. -/
def mop (k : MKind) (d : Vector Word 8) (on : Bool := false) : MOp :=
  { id := 5, kind := k, gid := 1, wid := 1, token := 9, desc := d, ipc := 0, started := on }
/-- Reservation 0: 64 columns of 16 INT8 rows. -/
def weights : Vector Word 4 := #v[2 ^ 31, 0x400800, 0x100040, 0]
def matrix (o : MOp) (f : Core → Core := id) : State := { mapped with cores := [f { id := 0, claim := some 1, res := [(0, weights)], order := [o] }] }
def d1 (x : Word) (y : Word := 0) : Vector Word 8 := #v[x, y, 0, 0, 0, 0, 0, 0]
def nextIs (o : MOp) : Bool :=
  let c := (matrix o).core? 0
  decide (c.claim = some o.wid) && decide (c.master = none) && decide (c.nextOp = some o)
theorem witness_matrix_room : ((mapped).core? 0).order.length < 8 ∧ ¬((matrix (mop .mzero (d1 1)) fun c => { c with order := List.replicate 8 (mop .mzero (d1 1)) }).core? 0).order.length < 8 ∧
    here (mapped) (.mma 9 16) = true ∧ here (mapped) .munspan = true ∧ (mop .mma (d1 0)).gid = (mapped).g.gid := by decide
theorem witness_matrix_next : nextIs (mop .mzero (d1 0x8001)) = true ∧ nextIs (mop .mzero (d1 0x10000)) = true ∧ nextIs (mop .mres (d1 0)) = true ∧
    mresIllegal 0 0 = true ∧ nextIs (mop .mres (d1 0x400100 0x100001)) = true ∧ mresIllegal 0x400100 0x100001 = false ∧
    nextIs (mop .mrel (d1 0)) = true ∧ (((matrix (mop .mrel (d1 0))).core? 0).res? 0).isSome = true ∧ nextIs (mop .mrel (d1 64)) = true ∧
    nextIs (mop .munspan (d1 0)) = true ∧ nextIs (mop .mspan (d1 0)) = true ∧ nextIs (mop .mma (d1 0)) = true ∧ nextIs (mop .mld (d1 0)) = true ∧
    nextIs (mop .mst (d1 0)) = true ∧ ((mapped).core? 0).nextOp = none := by decide
theorem witness_matrix_space : ((matrix (mop .mzero (d1 1))).core? 0).freeId = some 1 ∧ ((matrix (mop .mzero (d1 1))).core? 0).freeRun 256 = some 2048 ∧
    ((matrix (mop .mzero (d1 1))).core? 0).freeRun 1048576 = none ∧ mresIllegal 0x4FFFFF 0x100001 = false ∧
    ((matrix (mop .mrel (d1 0) true)).core? 0).openOp .mrel = some (mop .mrel (d1 0) true) ∧ (matrix (mop .mrel (d1 0) true)).resInUse 0 0 = false ∧
    ((matrix (mop .munspan (d1 0) true)).core? 0).openOp .munspan = some (mop .munspan (d1 0) true) := by decide
/-- A gang of two on cores 0 and 1, each with the claim of its core, and `mspan` of both. -/
def ganged (on : Bool) : State := { mapped with
  w := { withCore.w with gang := 2, gangId := 7 }
  otherWgs := [{ wid := 2, lid := 1, rank := 1, gang := 2, gangId := 7, core := 1 }]
  cores := [{ id := 0, claim := some 1, order := [mop .mspan (d1 1) on] }, { id := 1, claim := some 2 }] }
theorem witness_span : (ganged false).wg? 1 = some (ganged false).w ∧ ((ganged false).followers (ganged false).w 0 1).length + 1 = spanSize 1 ∧
    (ganged false).w.rank + spanSize 1 ≤ (ganged false).w.gang ∧ ((ganged false).core? 0).nextOp = some (mop .mspan (d1 1)) ∧
    (∀ f ∈ (ganged false).followers (ganged false).w 0 1, ((ganged false).core? f.1).master = none ∧ ((ganged false).core? f.1).spanCode = 0 ∧
      ((ganged false).core? f.1).claim = some f.2.wid) ∧ ((ganged true).core? 0).openOp .mspan = some (mop .mspan (d1 1) true) ∧
    (∀ k ∈ (spanCores 0 1).drop 1, ∀ x ∈ ((ganged true).core? k).order, (mop .mspan (d1 1) true).mark ≤ x.id) := by decide
theorem witness_span_busy : ((({ (ganged true) with cores := (ganged true).cores.map fun c => { c with master := if c.id = 1 then some 5 else none } } : State).core? 1).master ≠ none) ∧
    (spanCores 0 1).drop 1 = [1] ∧ ((ganged true).core? 1).spanCode = 0 := by decide
/-- No workgroup holds the core. -/
def unclaimed (k : MKind) : Core := (matrix (mop k (d1 0)) fun c => { c with claim := none }).core? 0
theorem witness_unclaimed : (unclaimed .mzero).order.head? = some (mop .mzero (d1 0)) ∧ (∀ x ∈ (unclaimed .mzero).order, x.started = false) ∧
    (unclaimed .mzero).master = none ∧ (unclaimed .mzero).claim = none ∧ (mop .mzero (d1 0)).claims = true ∧ (mop .mzero (d1 0)).lead = none ∧
    (unclaimed .mst).claim ≠ some (mop .mst (d1 0)).wid ∧ ((matrix (mop .mst (d1 0) true)).core? 0).unordered 1 0 = false := by decide
/-- 64 × 64 INT8 sums over K = 16. -/
def product : Vector Word 8 := #v[0x4000000, 0x100010, 0, 0x4010040, 0, 0, 0, 0]
theorem witness_product : nextIs (mop .mma product) = true ∧ ((matrix (mop .mma product)).core? 0).res? (mdesc product).rid = some (resOf weights) ∧
    mmaIllegal product 0 [some (resOf weights)] = false ∧ mmaBounds product 0 withCore.w [some (resOf weights)] [some withCore.w] = false ∧
    mmaIllegal (d1 0) 0 [((matrix (mop .mma (d1 0))).core? 0).res? 0] = true ∧ withCore.w.core = 0 ∧
    ((matrix (mop .mma product true)).core? 0).openOp .mma = some (mop .mma product true) ∧ (matrix (mop .mma product)).wg? 1 = some withCore.w ∧
    (mdesc product).trow * 64 + (mdesc product).m ≤ 256 ∧ (mdesc product).tcol * 64 + (mdesc product).n ≤ 256 := by decide
theorem witness_sums : ([(.fin false 1 0 : Val), .fin true 3 2]) ≠ [] ∧ (∀ v ∈ [(.fin false 1 0 : Val), .fin true 3 2], v.finite) ∧
    ∀ m ≤ 2, (-2 ^ 31 : Int) ≤ 5 + ∑ _k ∈ Finset.range (16 * m), (3 : Int) * (-1) ∧ 5 + ∑ _k ∈ Finset.range (16 * m), (3 : Int) * (-1) < 2 ^ 31 := by
  refine ⟨by decide, fun v h => by simp only [List.mem_cons, List.not_mem_nil, or_false] at h; rcases h with rfl | rfl <;> trivial, fun m hm => ?_⟩
  simp only [Finset.sum_const, Finset.card_range, nsmul_eq_mul]; push_cast; omega
/-- A tile of 32-bit elements with rows of 256 bytes from address 0. -/
def tileDesc : Vector Word 8 := #v[0, 0, 256, 0x70, 0, 0, 0, 0]
def moving (k : MKind) : State := matrix (mop k tileDesc true)
theorem witness_tile_moves : tileCause tileDesc = none ∧ tileCause (d1 0 0x100000) ≠ none ∧ tileFmt tileDesc = 7 ∧
    ((moving .mld).core? 0).order.find? (fun x => x.started && (x.kind = .mld || x.kind = .mst)) = some (mop .mld tileDesc true) ∧
    ((moving .mst).core? 0).master = none := by decide
theorem witness_tile_reads : firstBar ((tileWords tileDesc).map fun p => (false, (moving .mld).tileRes 0 (mop .mld tileDesc true) false p)) = .clear := by decide
theorem witness_tile_writes : firstBar ((tileWords tileDesc).map fun p => (true, (moving .mst).tileRes 0 (mop .mst tileDesc true) true p)) = .clear := by decide

/-! ### Pixels and textures -/
/-- A 32 × 32 target with depth and 8-bit colour, one sample. -/
def targetWords : Vector Word 16 := #v[0, 0, 0x200020, 5, 0x40, 0, 0, 0, 0, 0, 0, 0, 0, 0, 0, 0]
def slotAt (x : Nat) (st : SlotState) (f : PixSlot → PixSlot := id) : PixSlot :=
  f { lid := 1, handle := 0, x := x, y := 0, psn := 1, order := 3, coverage := 1, state := st }
/-- Lane 0 is active; v2 and v3 are the fragment (0, 0) with PSN 2. -/
def fragLane (g : Machine.Group) : Machine.Group :=
  { g with me := { leaf := some { root with amask := 1 } }, regs := { g.regs with v := ((Vector.replicate 64 (Vector.replicate 96 0)).set 3 (Vector.replicate 96 2)).set 9 (Vector.replicate 96 8) } }
def drawing (px : List PixSlot) (f : Machine.Group → Machine.Group := id) : State := { mapped with
  g := f (fragLane (mapped).g), launches := [{ lid := 1, stages := [{}], targets := [targetWords] }], pixels := px, tiles := [{ lid := 1, handle := 0, tile := 0 }] }
def lane0 (s : State) (i : Instr) : Bool := i.len == 1 && !s.barred i && decide (s.g.poisonIn i.names.vr (s.g.lanes false) = 0) && decide (s.latch = {}) &&
  decide (s.g.regs.pending = 0) && decide (s.g.regs.spois = 0) && decide (s.g.status = .ready) && decide (s.g.debt = {}) && decide (s.g.amask = 1) &&
  !s.outlaw i && decide (s.g.reads = [])
theorem witness_fragments : (drawing []).myLaunch.rast? = none ∧
    (State.annLanes (drawing []).myLaunch (drawing []).g 2 0 (lanesOf ((drawing []).g.lanes false)) (drawing []).endTransaction).2 = [] ∧
    ¬(∃ L : Lane, ((drawing []).g.lanes false).getLsbD L.val = true ∧ 512 < ((State.annLanes (drawing []).myLaunch (drawing []).g 2 0
      (lanesOf ((drawing []).g.lanes false)) (drawing []).endTransaction).1.blockSlots (drawing []).myLaunch (fragAt (drawing []).g 2 L)).length) ∧
    lane0 (drawing []) (.fannc false 2) = true ∧ lane0 (drawing []) (.frag false 4 2 5) = true ∧
    (State.postLanes (drawing []).myLaunch false false (drawing []).g 4 2 5 0 (lanesOf ((drawing []).g.lanes false))
      (drawing [slotAt 0 .opened fun q => { q with psn := 2 }]).endTransaction).2 = [] ∧
    (State.postLanes (drawing []).myLaunch false true (drawing []).g 0 2 0 0 (lanesOf ((drawing []).g.lanes false))
      (drawing [slotAt 0 .opened fun q => { q with psn := 2 }]).endTransaction).2 = [] := by decide
theorem witness_full_block : 512 < ((State.annLanes (drawing []).myLaunch (drawing []).g 2 0 (lanesOf ((drawing []).g.lanes false))
    (drawing (List.replicate 512 (slotAt 1 .opened))).endTransaction).1.blockSlots (drawing []).myLaunch (fragAt (drawing []).g 2 0)).length := by decide
theorem witness_announcements : (drawing []).myLaunch.target? 0 = some (targetOf targetWords) ∧ (drawing []).annFault (drawing []).myLaunch (fragAt (drawing []).g 2 0) = none ∧
    (drawing []).annFault (drawing []).myLaunch { h := 0, x := 32, y := 0, psn := 2 } = some 0x04 ∧
    ({ drawing [] with lastPsn := [((1, 0, 0, 0), 2)] } : State).annFault (drawing []).myLaunch (fragAt (drawing []).g 2 0) = some 0x0E ∧
    (drawing []).myLaunch.inside (fragAt (drawing []).g 2 0) = true ∧ (drawing []).myLaunch.inside { h := 1, x := 0, y := 0, psn := 2 } = false ∧
    (drawing []).openSlot (drawing []).myLaunch (fragAt (drawing []).g 2 0) = none ∧
    ((drawing [slotAt 0 .opened fun q => { q with psn := 2 }]).openSlot (drawing []).myLaunch (fragAt (drawing []).g 2 0)).isSome = true := by decide
/-- Stage 0 has a rasteriser node. -/
def rastStage : Stage := { desc := ((Vector.replicate 32 0).set 1 0x2000).set 16 1, queue := [[0, 0, 0, 0]] }
theorem witness_rast : ({ drawing [] with launches := [{ lid := 1, stages := [rastStage] }] } : State).myLaunch.rast? ≠ none := by decide
/-- A method group of block 0. -/
def method : State := drawing [slotAt 0 .running fun q => { q with runner := 1 }] fun g => { g with method := some { lid := 1 } }
theorem witness_pixels : method.myTile = some ({ lid := 1 }, targetOf targetWords, { lid := 1, handle := 0, tile := 0 }) ∧
    (targetOf targetWords).selOk true 0 = true ∧ (targetOf targetWords).selOk false 1 = false ∧ lane0 method (.pxld false 4 8) = true ∧
    lane0 method (.pxst false 4 8) = true ∧ (drawing []).myTile = none := by decide
theorem witness_live_reads :
    let s := (lanesOf ((drawing []).g.lanes false)).foldl (State.liveFill (fun L => fragAt (drawing []).g 2 L) ((drawing []).g.vb (.reg 9))) (drawing [])
    let f := fragAt (drawing []).g 2 0
    s.liveTarget f 8 = some (targetOf targetWords) ∧ (drawing []).g.vb (.reg 9) 0 = 8 ∧ (drawing []).g.lanes false = 1 ∧
    (s.liveLook f 8 0 false none).fault = none ∧ (s.liveLook f 8 0 false none).words ≠ [] ∧ (drawing []).liveTarget { h := 1, x := 0, y := 0, psn := 0 } 8 = none ∧
    ((drawing []).tile? (drawing []).myLid 0 ((targetOf targetWords).tileOf 0 0)).isSome = true ∧
    lane0 (drawing []) (.tsampNow false 4 2 (.reg 9)) = true ∧ lane0 (drawing []) (.tsampSet false 4 2 (.reg 9)) = true := by decide
theorem witness_live_prefix : (drawing []).prefixOf 0 (fragAt (drawing []).g 2 0) = some 0 ∧
    ((drawing []).liveLook (fragAt (drawing []).g 2 0) 8 0 false (some 0)).fault = none ∧
    ((drawing []).liveLook (fragAt (drawing []).g 2 0) 8 0 false (some 0)).words ≠ [] := by
  refine ⟨?_, by decide, by decide⟩
  show some (_ % (0 + 1)) = some 0
  rw [Nat.mod_one]
/-- A `tsamp.set` at `drawing px` waits or not. -/
noncomputable def awaits (px : List PixSlot) : Bool :=
  ((drawing px).g.liveLanes 1 (Instr.tsampSet false 4 2 (.reg 9)).names 2 (.reg 9)).any ((drawing px).liveWaits ((drawing px).orderNow 0))
theorem witness_live_waits : awaits [] = false ∧ awaits [slotAt 1 .opened] = true := by decide
/-- Without a working copy the element lies in target memory; a page that is not there parks, one that the partition may not read faults. -/
theorem witness_live_places : let s := fun m : State => { m with launches := (drawing []).launches, g := (drawing []).g }
    (s (mapped)).livePlace 0 { h := 0, x := 0, y := 0, psn := 0 } 0 (targetOf targetWords) matches some (.mem 1 0 0) ∧
    ({ s (mapped) with tlb := [] } : State).livePlace 0 { h := 0, x := 0, y := 0, psn := 0 } 0 (targetOf targetWords) matches some (.park 0 false) ∧
    (s (remotely false 0x101)).livePlace 0 { h := 0, x := 0, y := 0, psn := 0 } 0 (targetOf targetWords) matches some (.fault 0x14 0) := by decide
/-- A pixel has shown one state before. -/
theorem witness_shown_before : let y : Tile := { lid := 1, handle := 0, tile := 0, past := [(65, [1], [2])] }
    (y.past.filter fun e => e.1 = 64 * 1 + 1)[0]? = some (65, [1], [2]) ∧ (y.past.filter fun e => e.1 = 64 * 1 + 1)[1]? = none := by decide
theorem witness_read_asks : let s := drawing [slotAt 1 .opened]
    let y : LiveLane := { lane := 0, sick := false, handle := 0, x := 0, y := 0, sel := 8 }
    y.sick = false ∧ s.liveTarget { h := y.handle, x := y.x, y := y.y, psn := 0 } y.sel ≠ none ∧
    (∃ q ∈ s.blockSlots s.myLaunch { h := y.handle, x := y.x, y := y.y, psn := 0 }, q.order < 2 ^ 40) ∧
    ({ instr := .nop } : LiveRead).got.lookup y.lane = none := by decide
theorem witness_flush : ((drawing []).g.vb (.reg 8) 0).toNat < (drawing []).myLaunch.targets.length ∧ (drawing []).g.lanes false ≠ 0 ∧
    lane0 (drawing []) (.tflush false (.reg 8)) = true ∧ (mappedWait (.flush [0] 9)).group? 1 = some (mappedWait (.flush [0] 9)).g ∧
    (mappedWait (.flush [0] 9)).wg? 1 = some withCore.w ∧ ((mappedWait (.flush [0] 9)).launch? 1).isSome = true := by decide
/-- A 1 × 1 texture of one 32-bit channel, described at address 0, with its texel at address 256. -/
def textured : State := { drawing [] with mem := memSetWord (memSetWord (memSetWord [] 0 256) 8 0x10001) 12 0x12 }
def texWorks (hurt : List Nat) (L : Lane) : TexLane :=
  textured.texLane 4 (fun x L => sampleWork x (textured.g.readV 6 L) (textured.g.readV 7 L) (textured.g.readV 8 L)) hurt false L
/-- The lines that the lane's reads need are kept. -/
def texFilled : State := (lanesOf (textured.g.lanes false)).foldl (fun t L =>
  (texWorks [] L).reads.foldl (fun t r => State.fillFor r.1 3 .normal (fun _ => r.2) t L) t) textured
theorem witness_textures :
    (∀ L : Lane, (textured.g.lanes false).getLsbD L.val = true → (texWorks texFilled.latch.hurt L).stop = .go ∧
      (textured.withTex 4 texFilled.latch.hurt (lodSick textured.g 6 L) L fun t => { stop := .go, out := [lodOf textured.g 6 t L] }).stop = .go) ∧
    lane0 textured (.texSample false 10 6 4) = true ∧ lane0 textured (.texLod false 10 6 4) = true := by decide
theorem witness_descriptors : textured.latch.snap = none ∧ textured.stopOf [] 0 32 (textured.texRes 0 (textured.g.readV64 4 0) 32) = .go ∧
    texOk ((textured.texRes 0 (textured.g.readV64 4 0) 32).eights.flatMap fun r => textured.texWords r 8) = true ∧
    texOk (((drawing []).texRes 0 0 32).eights.flatMap fun r => (drawing []).texWords r 8) = false ∧
    textured.stopOf [] 0 32 (.park 65536 false) ≠ .go := by decide
def aTexture : Tex := { base := 256, tag := 3, w := 4, h := 4, fmt := 2, levels := 1, filt := 0, au := 0, av := 0 }
theorem witness_texels : (0 : Word).toNat < aTexture.levels ∧ (3 : Word).toInt < max 1 (aTexture.w / 2 ^ 0 : Nat) ∧ ¬(4 : Word).toInt < max 1 (aTexture.w / 2 ^ 0 : Nat) ∧
    aTexture.base + (3 * aTexture.w + 3) * 4 < 2 ^ 52 ∧ aTexture.tag < 16 := by decide
/-- A launch with a rasteriser node and one triangle over the whole tile, or none. -/
def rastering (ts : List Tri) (q : List (List Word)) (px : List PixSlot := []) : State := { drawing px with
  g := {}, w := {}, ctxs := [{}], launches := [{ lid := 1, stages := [{}, { rastStage with queue := q }, { desc := (Vector.replicate 32 0).set 3 0xF004 }], targets := [targetWords], tris := ts }] }
def wide : Tri := { vert := #v[0, 0, 0, 0x3F800000, 0x42000000, 0, 0, 0x3F800000, 0, 0x42000000, 0, 0x3F800000], attr := #v[0, 0, 0], psn := 1, handle := 0 }
theorem witness_raster : ∃ l, (rastering [] [[0, 0, 0, 0]]).launch? 1 = some l ∧ l.rast? = some 1 ∧ l.target? 0 = some (targetOf targetWords) ∧
    (rastering [] []).moving l.ctx = true ∧ (l.stage 1).queue ≠ [] ∧ l.tris.length = 0 ∧ (l.stage 1).desc[16].toNat = 1 ∧
    (rastering [] [] [slotAt 0 .filled]).methodReady 1 0 (targetOf targetWords) 0 0 ≠ [] ∧ ((rastering [] []).tile? 1 0 0).isSome = true ∧
    (∀ g ∈ (rastering [] []).allGroups, g.gid = 0) := ⟨_, rfl, by decide⟩
theorem witness_room_for_a_triangle : (0 + 1) * Config.triBytes.val ≤ 1 * 4096 := by have := Config.triBytes.isLt; omega
theorem witness_raster_tiles : ∃ l m, (rastering [wide] []).launch? 1 = some l ∧ (rastering [wide] []).binned l = true ∧ (rastering [wide] []).tileTurn l 0 = true ∧
    l.tileDone 0 (targetOf targetWords) 0 = false ∧ (rastering [] []).launch? 1 = some m ∧ (rastering [] []).binned m = true ∧
    m.tileDone 0 (targetOf targetWords) 0 = true ∧ (rastering [] []).pixels = [] ∧ (0, 0) ∉ m.finished ∧ (rastering [] []).postsOver m = true :=
  ⟨_, _, rfl, by decide, by decide, by decide, rfl, by decide⟩

/-! ### The issue logic, launches, contexts -/
/-- Two leaves resident, a third waiting, for `n` issues. -/
def threeLeaves (n : Nat) : State := st fun g => { g with
  nextEntry := 4, entries := [{ id := 0, kind := .split, emask := allLanes }, { id := 3, parent := some 0, emask := 8, amask := 8, age := n }]
  me := { leaf := some { id := 1, parent := some 0, emask := 1, amask := 1 }, since := 4 }, mate := { leaf := some { id := 2, parent := some 0, emask := 6, amask := 6 }, since := 2 } }
theorem witness_waiting_leaf : (oldest (threeLeaves 512).g.waiting).map (·.age) = some 512 ∧ (oldest (threeLeaves 511).g.waiting).map (·.age) = some 511 ∧
    ((1 : Fin 2) = 1 ↔ ((threeLeaves 512).g.slot 1).since < ((threeLeaves 512).g.slot 0).since) ∧ ((threeLeaves 512).g.slot 1).leaf.isSome = true := by decide
theorem witness_rotation : (st).liveIndex (st).w 0 := ⟨(st).g, by decide, by decide, by decide, by decide, rfl⟩
theorem witness_det : stageDet ({ st with launches := [{ lid := 1, stages := [{ desc := (Vector.replicate 32 0).set 1 0x80 }] }] } : State).myStage = true := by decide
/-- The other slot's `vgrow` has taken the block for both. -/
def grown : State := waiting .grow |>.updGroup 1 fun g => { g with regs := { g.regs with extb := true } }
theorem witness_grown : ∃ g ∈ grown.onUnit 0 0, g.regs.extb = true ∧ ∃ j l, (g.slot j).leaf = some l ∧ l.wait = .grow :=
  ⟨grown.g, by decide, rfl, 0, { root with wait := .grow }, rfl, rfl⟩
theorem witness_growing : 0 < (waiting .grow).freeBlocks 0 0 ∧ (∃ g ∈ (waiting .grow).onUnit 0 0, Group.growing g = true) := by decide
theorem witness_shrinking : (waiting .shrink).group? 1 = some (waiting .shrink).g ∧ ((waiting .shrink).g.select 0).mateBusy = false := by decide
/-- The group is parked on one page, which the host has resolved or not. -/
def parked (n : Nat) : State := st fun g => { g with
  status := .parked, parked := [{ instr := .nop, slot := 0, ipc := 0, regs := {}, leaf := root, parts := [{ page := 1, ptr := 65536, lanes := 1, write := false, fetch := false, second := false, state := n }] }] }
theorem witness_parked : (parked 1).group? 1 = some (parked 1).g ∧ (parked 1).g.status = .parked ∧ (∀ p ∈ (parked 1).g.parked, ∀ r ∈ p.parts, r.state ≠ 0) ∧
    (∃ p ∈ (parked 0).g.parked, ∃ r ∈ p.parts, r.state = 0) := by decide
def aQueue : Queue := { q := 3, ring := 0x1000, log2n := 4, ctx := 0, wb := 0x2000, firstSeq := 1, count := 1, done := [2, 3] }
theorem witness_queue : aQueue.completed ≤ 1 ∧ 1 ∉ aQueue.done ∧ (∀ k ∈ aQueue.done, aQueue.completed < k) ∧ aQueue.done.Nodup := by decide
/-- A queue whose command waits for nothing, signals nothing, or names a signal that is not there, or one that is not there yet. -/
def queued (w8 w10 w11 sigs : Word) : State := { mapped with
  ctxs := [{ desc := (Vector.replicate 16 0).set 10 sigs }], queues := [aQueue]
  mem := memSetWord (memSetWord (memSetWord [] 0x1020 w8) 0x1028 w10) 0x102C w11 }
theorem witness_commands : (queued 0 0 0 0).queue? 3 = some aQueue ∧ (queued 0 0 0 0).consumes aQueue = true ∧ (queued 4 0 1 1).consumes aQueue = true ∧
    (let cmd : Vector Word 16 := Vector.ofFn fun j => memWord (queued 4 0 1 1).mem (aQueue.ring + 4 * j.val)
     (∀ i ∈ cmdSignals cmd, i < sigCount ((queued 4 0 1 1).ctxDesc 0)) ∧ ¬(∀ i ∈ cmdSignals cmd, i < sigCount ((queued 4 0 1 0).ctxDesc 0)) ∧
     ¬(∀ w ∈ cmdWaits cmd, w.2 ≤ leNat ((queued 4 0 1 1).devRead ((queued 4 0 1 1).who 0 0 0) (sigVa ((queued 4 0 1 1).ctxDesc 0) w.1) 8))) ∧
    ((queued 0 0 0 0).draft 0 (Vector.ofFn fun j => memWord (queued 0 0 0 0).mem (aQueue.ring + 4 * j.val)) true).status ≠ 0 := by decide
/-- A launch of one stage with one workgroup of one group left to start, in a context whose partition owns cluster 0. -/
def starting (n : Nat) (q : List (List Word)) : State := { mapped with
  g := {}, w := {}, ctxs := [{}]
  launches := [{ lid := 1, cmd := (Vector.replicate 16 0).set 6 (BitVec.ofNat 32 n), hdr := (Vector.replicate 16 0).set 8 1
                 stages := [{}, { desc := (Vector.replicate 32 0).set 3 0x3002, queue := q }] }] }
theorem witness_admission : ∃ l, (starting 1 []).launch? 1 = some l ∧ (starting 1 []).admits l.ctx = true ∧ l.eligible 0 = true ∧
    (starting 1 []).preferred l 0 0 = true ∧ (starting 1 []).fits l 0 0 ((starting 1 []).sharesNow l 0) = true ∧ stageGang (l.stage 0) = 1 := ⟨_, rfl, by decide⟩
theorem witness_record_admission : ∃ l, (starting 0 [[1, 2, 3, 4]]).launch? 1 = some l ∧ (starting 0 [[1, 2, 3, 4]]).admits l.ctx = true ∧
    l.eligible 1 = true ∧ (starting 0 [[1, 2, 3, 4]]).preferred l 1 0 = true ∧ stageGang (l.stage 1) ≤ (l.stage 1).held ∧
    (starting 0 [[1, 2, 3, 4]]).fits l 1 0 ((starting 0 [[1, 2, 3, 4]]).sharesNow l 1) = true := ⟨_, rfl, by decide, by decide, by decide, by decide, by decide⟩
theorem witness_launch_over : ∃ l, (starting 0 []).launch? 1 = some l ∧ (starting 0 []).launchOver l = true := ⟨_, rfl, by decide⟩
theorem witness_start_lanes : (0x7 : Mask) ≠ 0 ∧ ({ (st) with g := { (st).g with status := .retired } } : State).wgBusy 1 = false ∧
    ({ (st) with g := { (st).g with status := .retired } } : State).wg? 1 = some (st).w := by decide
/-- A workgroup that a HARD pre-emption discarded at a region's seed. -/
def discarded : Discarded := { wg := { wid := 9, lid := 1 }, groups := [{ region := .plain }] }
def restarting : State := { starting 0 [] with ctxs := [{ discarded := [discarded] }] }
theorem witness_restart : restarting.ctxs.find? (fun c => c.discarded.any fun d => d.wg.wid = 9) = some { discarded := [discarded] } ∧
    ([discarded].filter fun d => d.wg.wid = 9) = [discarded] ∧ discarded.wg.gang ≤ 1 ∧ ({ discarded := [discarded] } : Ctx).phase = .run ∧
    restarting.ownsCluster (ctxPart (Vector.replicate 16 0)) (clusterOf 0) = true ∧ restarting.gangPlace discarded.wg 0 = true ∧
    restarting.cmUsed 0 + discarded.wg.cmBytes ≤ Config.coreMemBytes ∧ restarting.shareOk 1 0 (((restarting.launch? 1).getD {}).stage 0) 0 = true ∧
    (restarting.placesOn false false 1 0).isSome = true ∧ restarting.placesOn false false 65 0 = none ∧ (∀ e ∈ discarded.groups, e.region ≠ .none) := by decide
/-- Context 0 in a phase of the ladder, its save area at address 0 holding STATE `st`. -/
def ladder (p : Phase) (f : Ctx → Ctx := id) (w : Word := 0) : State := { mapped with ctxs := [f { phase := p }], mem := memSetWord [] 4 w }
def noGrace (c : Ctx) : Ctx := { c with desc := c.desc.set 11 1 }
theorem witness_ladder : (ladder .run).ctx? 0 = some { phase := .run } ∧ (ladder .soft).ctx? 0 = some { phase := .soft } ∧ (ladder .run).host.busy = none ∧
    (noGrace {}).desc[11].getLsbD 0 = true ∧ wbits (noGrace {}).desc[7] 15 0 = 0 ∧ ({ ladder .hard with w := { (ladder .hard).w with stopped := true } } : State).quiet 0 = true ∧
    wbits ((ladder .done).saveWord 0 1) 1 0 = 0 ∧ wbits ((ladder .done id 2).saveWord 0 1) 1 0 = 2 ∧ wbits ((ladder .done id 1).saveWord 0 1) 1 0 = 1 := by decide
theorem witness_restore : (({ ladder .done id 2 with host := { busy := some (.restore 0) } } : State).restore 0 { phase := .done }).isSome = true := by decide
theorem witness_saved_group : ({} : Machine.Group).ordered = [] ∧ ({} : Machine.Group).records = [] ∧ ({} : Machine.Group).regs.extb = false ∧
    ∃ w : Nat → Word, ∀ k (h : k < ({} : Machine.Group).words.length), w k = ({} : Machine.Group).words[k] :=
  ⟨rfl, rfl, rfl, fun k => (({} : Machine.Group).words[k]?).getD 0, fun k h => by beta_reduce; rw [List.getElem?_eq_getElem h]; rfl⟩

/-! ### The host, links and the device -/
theorem witness_host_busy : ({ st with host := { busy := some (.flr 0) } } : State).host.busy ≠ none ∧
    ctxPart (({ st with host := { busy := some (.restore 0) } } : State).ctxDesc 0) = 0 ∧ ctxPart ((st).ctxDesc 0) ≠ 1 ∧
    ((parked 0).answer 7 false).1 = 1 ∧ ((parked 0).answer 0 false).1 = 0 ∧ (parked 1).answering 0 = true ∧ (st).answering 0 = false := by decide
theorem witness_good_addresses : ((0 : Nat) ≤ 65535 ∧ 64 % 64 = 0 ∧ 64 < 2 ^ 39 ∧ 64 % 2 ^ 31 < Config.carveOut) ∧ descBad (Vector.replicate 16 0) = false ∧
    descBad ((Vector.replicate 16 0).set 15 1) = true ∧ (mapped).enabled (ctxPart (Vector.replicate 16 0)) = true ∧ (mapped).ctx? 0 ≠ none ∧
    (mapped).ctx? 7 = none ∧ (starting 0 []).ctxLaunches 0 ≠ [] ∧ (ladder .run).ctx? 0 ≠ none ∧
    ({ ladder .run with launches := [] } : State).ctxLaunches 0 = [] := by decide
/-- A queue description at address 0: ring at 4096, 16 commands, record at 8192. -/
def queueAt : State := { mapped with mem := memSetWord (memSetWord (memSetWord [] 0 4096) 8 4) 12 8192 }
theorem witness_queue_good : queueBad queueAt 0 = false ∧ queueBad (mapped) 0 = true ∧ ¬(4096 ≤ 4095) ∧ (3 : Nat) ≤ 4095 := by decide
theorem witness_placed : (halted.atPlace 0 (placeOf { (st).g with gid := 2, gslot := 1 } 0)).map (·.gid) = some 2 ∧ (halted.atPlace 0 (placeOf (st).g 0)).map (·.gid) = some 1 ∧
    (st).g.status ≠ .halted ∧ halted.atPlace 0 0xFFFFFFFF = none ∧ ({ halted.others[0] with poisonHalt := 1 } : Machine.Group).poisonHalt ≠ 0 := by decide
theorem witness_doorbell : (queued 0 0 0 0).endIdle.queue? 3 = some aQueue ∧
    ¬((2 - BitVec.ofNat 32 aQueue.started : Word).toNat < (aQueue.count - BitVec.ofNat 32 aQueue.started).toNat ∨ 2 ^ aQueue.log2n < (2 - BitVec.ofNat 32 aQueue.started : Word).toNat) ∧
    (2 ^ aQueue.log2n < (17 - BitVec.ofNat 32 aQueue.started : Word).toNat) ∧
    ((0 - BitVec.ofNat 32 aQueue.started : Word).toNat < (aQueue.count - BitVec.ofNat 32 aQueue.started).toNat) := by decide
theorem witness_event_ring : ((st).host.evhead - (st).host.evack).toNat < 2 ^ (st).host.evlog2 ∧ (st).host.held = [] ∧
    ¬((({ st with host := { evhead := 256 } } : State).host.evhead - 0).toNat < 2 ^ 8) ∧ (st).host.evhead = (st).host.evack ∧
    ¬((0xF0 &&& 0x1F : Word).toNat < 8 ∨ 16 < (0xF0 &&& 0x1F : Word).toNat) ∧ (0xF4 : Word).toNat % 64 ≠ 0 := by decide
theorem witness_offsets : (0x30000 + 32 * 7 + 4 * 6 = 0x300F8) ∧ 0x31000 + 64 * 1 + 4 * 13 = 0x31074 ∧ 0x42000 + 16 * 23 + 4 * 3 = 0x4217C ∧
    0x20000 + 128 * 15 + 88 + 4 * 2 = 0x207E0 ∧ 0x40000 + 4 * 1535 = 0x417FC ∧ ((0x1000001 : Word) &&& 0xFFFFFF) ≠ 0 ∧
    Config.carveOut % 2 ^ 31 = Config.carveOut ∧ Config.carveOut - 1 < 2 ^ 39 := by decide
/-- Partition 1 owns what no other does, or what partition 0 owns already. -/
def entering (f : Part → Part) : State := { mapped with parts := (mapped).parts.set 1 (f { word := ((Vector.replicate 32 0).set 1 2).set 7 2 }) }
theorem witness_partitions : (entering id).enableError 1 = 0 ∧ ((entering id).partWord 1 0).getLsbD 0 = false ∧ (entering id).enabled 0 = true ∧
    (entering fun p => { p with word := p.word.set 1 1 }).enableError 1 = 1 ∧ ((mapped).partWord 0 0).getLsbD 0 = true ∧
    (∃ c ∈ (mapped).ctxs, ctxPart c.desc = 0) ∧ (∀ c ∈ (mapped).ctxs, ctxPart c.desc ≠ 1) ∧ ((mapped).partWord 0 21).getLsbD 2 = false ∧
    ((mapped).flip 0).partWord 0 21 = 6 ∧ (((mapped).wbreq 0).partWord 0 21).getLsbD 3 = true := by decide
/-- Landing entry 0: two ranks of 32 bytes at address 0, staging at 256, with `n` contributions counted. -/
def landing (mode : Word) (n : Word) : State := { mapped with
  landing := (mapped).landing.set 0 { words := #v[0x201 ||| mode, 0, 0, 32, 256, 0, 0, 0] }, mem := memSetWord [] 320 n }
def landed (m : Word) : Vector Word 8 := #v[0x201 ||| m, 0, 0, 32, 256, 0, 0, 0]
theorem witness_landing_entry : (landed 0)[0].getLsbD 0 = true ∧ 1 < landRanks (landed 0) ∧ 0 + 32 ≤ (landed 0)[3].toNat ∧ landMode (landed 0) = false ∧
    landMode (landed 2) = true ∧ 1 < landRanks (landed 2) ∧ landBad ((landed 0).set 6 8) = false ∧ landBad ((landed 0).set 6 1) = true := by decide
theorem witness_landing_places : (landing 0 1).landing[0].words = landed 0 ∧ (landing 2 1).landWho? (landed 2) = some ((landing 2 1).who 0 0 0) ∧
    (landing 0 1).landPlaces (landed 0) ((landing 0 1).landWho? (landed 0)) 1 0 = (.at_ 1 0, .at_ 1 320) ∧
    (landing 2 1).landPlaces (landed 2) ((landing 2 1).landWho? (landed 2)) 1 0 = (.at_ 1 288, .at_ 1 320) ∧
    (landing 2 1).landAcc (some ((landing 2 1).who 0 0 0)) 65536 32 = .wait 65536 false ∧ (landing 2 1).landAcc none 0 32 = .fault ∧
    (landing 2 1).landAcc (some ((landing 2 1).who 0 0 0)) (landSig (landed 2)) 8 = .at_ 1 0 ∧ ((landing 2 1).landSee 0).poisoned 0 = false ∧
    (1, 0) ∉ (landing 2 1).landing[0].seen ∧ 0 ∉ (landing 2 1).landing[0].spoilt := by decide
/-- The entry's first work waits for the host, or may go on. -/
def landingWork (tag : Option Word) (what : LandDo) (fatal : Bool := false) : State :=
  { landing 2 1 with landing := (landing 2 1).landing.set 0 { words := landed 2, jobs := [{ what := what, tag := tag, fatal := fatal }] } }
theorem witness_landing_work : (∀ j ∈ (landingWork (some 0) .finish).landing[0].jobs.head?, j.tag ≠ none) ∧ (landingWork (some 0) .finish).landing[0].jobs ≠ [] ∧
    (landingWork none .finish).landing[0].jobs = [{ what := .finish }] ∧
    (List.range (landRanks (landed 2))).map (fun r => (landing 2 1).landAcc (some ((landing 2 1).who 0 0 0)) (landStage (landed 2) + r * (landed 2)[3].toNat + 0) 32) =
      [(1, 256), (1, 288)].map (fun a => LandAcc.at_ a.1 a.2) := by decide
theorem witness_landing_waits : ({ landing 2 1 with landing := (landing 2 1).landing.set 0 { words := (landed 2).set 6 65536 } } : State).landDo 0 (.signal false) matches .wait 65536 false ∧
    (landingWork none (.packet 0 65504 [])).landDo 0 (.signal false) matches .done _ _ ∧
    ({ landingWork none (.signal true) with ctxs := [] } : State).landDo 0 (.signal true) matches .fault := by decide
theorem witness_landing_counts : leNat ((landing 2 1).landGet 1 320 4) + 1 = landRanks (landed 2) ∧
    leNat ((landing 2 0).landGet 1 320 4) + 1 ≠ landRanks (landed 2) := by decide
theorem witness_links : (st).dramStack[7].up = true ∧ (st).dramStack[7].retraining = false ∧ (st).dramStack[7].failedReplays < 9 ∧
    ({ failedReplays := 9 } : Stack).up = true ∧ ({ retraining := true, failedRetrains := 2 } : Stack).retraining = true ∧ (st).ports[23].up = true ∧
    ({ failedReplays := 8, failedRetrains := 3 } : Port).up = true := by decide
theorem witness_remote_requests : (mapped).endIdle.remoteWho? 0 0 = some ((mapped).who 0 0 0) ∧ (mapped).endIdle.remoteWho? 1 0 = none ∧
    (mapped).endIdle.access ((mapped).who 0 0 0).home (BitVec.ofNat 64 8) 4 { write := false, tags := false } = .ok 1 8 false ∧
    (mapped).endIdle.access ((mapped).who 0 0 0).home (BitVec.ofNat 64 8) 4 { write := true, tags := false } = .ok 1 8 false ∧
    (mapped).endIdle.remotePlace ((mapped).who 0 0 0) 65536 4 true = none ∧
    ((mapped).endIdle.remotePlace ((mapped).who 0 0 0) 8 4 true).isSome = true := by decide
def image (v : Nat) : BootImage := { digest := 7, signed := true, version := v, minimum := 2 }
theorem witness_boot : (∀ i ∈ [image 2, image 3, image 4], i.signed = true ∧ i.minimum ≤ i.version) ∧ (image 1).version < (image 1).minimum ∧
    ({} : State).idleNow = true ∧ (st).idleNow = false ∧ 3000 ≤ ({} : State).aclk.toNat ∧ 3050 ≤ ({} : State).aclk.toNat := by decide
theorem witness_spares : (({} : State).spare 3).state ≠ 2 ∧ (({} : State).spare 3).def0 = 63 ∧ ({ unit := 3, state := 3, def0 := 4 } : Spare).def1 = 63 ∧
    (({ spares := [{ unit := 3, state := 3, def0 := 4 }] } : State).spare 3).state = 3 ∧ ({} : State).unitEmpty 3 = true ∧
    (({ spares := [{ unit := 3, testing := true }] } : State).spare 3).testing = true ∧ 32 ∈ ({ unit := 3, failed := [32] } : Spare).failed ∧
    (({} : State).quietUnit 1023 = true ∧ ({} : State).quietUnit 1279 = true ∧ ({} : State).quietUnit 1280 = false ∧ dirty.quietUnit 1024 = false) := by decide
theorem witness_lane_limit : Config.laneLimit < ((({ unit := 3, errs := [(32, Config.laneLimit + 1)] } : Spare).errs.lookup 32).getD 0) := Nat.lt_succ_self _
theorem witness_keys : 1 ≤ 8191 ∧ (∀ l ∈ dirty.l2, l.dmask = 0 ∨ leafKey l.leaf ≠ 8191) ∧ (∀ b ∈ dirty.basins, leafKey b.leaf ≠ 8191) := by decide
theorem witness_core_words : (mapped).wg? (mapped).w.wid = some (mapped).w ∧ 4 * 16383 < (mapped).w.cmBytes := by decide

/-! ### More of the statements' hypotheses -/
/-- `parted` where lane 1 has exited and packet 0 ends the innermost loop level. -/
def partedLoop : State := { parted with g := { parted.g with exited := 2, regs := { parted.g.regs with lactive := 1 } } }
theorem witness_branch_in_loop : Single partedLoop root ∧ topLevel partedLoop.g.regs.lactive = some 0 ∧ partedLoop.g.regs.lend[0] = root.pc ∧ root.arr = false ∧
    root.skip = none ∧ topLevel looping.g.regs.lactive = some 1 ∧ looping.g.regs.lend[1] ≠ root.pc := ⟨⟨rfl, rfl, by decide, rfl, rfl, rfl⟩, by decide⟩
/-- The group's transactional region holds a store of one byte to address 8; or a split is open. -/
def heldStore : Held := { gid := 1, part := 0, asid := 0, ctx := 0, va := 8, leaf := 1, pa := 8, bytes := [7] }
def holding : State := { mapped with g := { (mapped).g with region := .trans }, cores := [{ id := 0, commit := [heldStore] }] }
theorem witness_held_stores : holding.g.region = .trans ∧ ((holding.core? holding.g.core).commit.filter fun h => h.gid = holding.g.gid) ≠ [] ∧ holding.g.regionOk = true ∧
    here holding .rgnend = true ∧ split.g.regionOk = false ∧ heldStore.win = none ∧ leafRem heldStore.leaf = false ∧
    (mapped).access (mapped).me.home (BitVec.ofNat 64 8) 1 { write := true, tags := false } = .ok 1 8 false := by decide
/-- Barrier 15 in the phase that the other slot has arrived in; and one of two groups has arrived. -/
theorem witness_barrier_waits : (atBarrier false).g.barSlot.getLsbD 15 = ((atBarrier false).g.sel == 1) ∧
    ({ atBarrier false with g := { (atBarrier false).g with barSlot := 0x8000 } } : State).g.barSlot.getLsbD 15 ≠ ((atBarrier false).g.sel == 1) ∧
    (st).w.wid ≠ 0 ∧ halted.w.barArrived[(15 : Fin 16)] + 1 < halted.expected halted.w.wid ∧ (waiting (.barred 15)).g.slot 0 = (waiting (.barred 15)).g.me := by decide
theorem witness_no_word_waiter : ∀ g ∈ (st).allGroups, ∀ (k : Fin 2) (l : Entry), (g.slot k).leaf = some l → l.wait ≠ .onWord 1 0 ∧ l.wait2 ≠ .onWord 1 0 := by
  intro g hg k l h
  have hg : g = (st).g := by simpa [State.allGroups, st] using hg
  subst hg
  match k with
  | 0 => cases h; decide
  | 1 => cases h
theorem witness_shrink_waits : ({ st with g := (parked 0).g } : State).g.parked ≠ [] ∧ (split).g.mateBusy = false ∧
    ({ split with g := { split.g with mate := { leaf := some { root with wait := .ticket } } } } : State).g.mateBusy = true := by decide
theorem witness_nothing_past : (mapped).past = [] ∧ ({ st with launches := [{ lid := 1, stages := [{ desc := (Vector.replicate 32 0).set 1 0x80 }] }] } : State).detGroup (st).g = true := by decide
/-- The L1 of the core holds the line at 0 of a remote TAGGED page. -/
def heldFar (port : Bool) : State :=
  { remotely port 0x121 with l1 := [(0, { part := 0, asid := 0, sector := 0, ctx := 0, leaf := 0x121, pa := 0, tags := Vector.replicate 4 3 })] }
theorem witness_held_far : (heldFar false).access (heldFar false).me 0 4 {} = .fault 0x14 ∧ (heldFar true).access (heldFar true).me 0 4 {} = .fault 0x05 ∧
    (heldFar true).access (heldFar true).me (3#64 <<< 56) 4 {} = .remote 0x121 := by decide
theorem witness_grants : (mapped).ticketOut = false ∧ (mappedWait .ticket).ticketOut = false ∧ (mappedWait .ticket).ticketWaits ≠ [] ∧
    (mappedWait .ticketed).ticketOut = true := by decide
/-- A record lies in the ring in memory. -/
theorem witness_ring_records : overflowing.ringCount ≠ 0 := by decide
theorem witness_copy_refused : (mapped).ownsEngine = false ∧ (mapped).barred (.cpyIn 9 10 20) = false ∧ (mapped).g.amask ≠ 0 ∧ Stands (.cpyIn 9 10 20) (mapped) :=
  ⟨by decide, by decide, by decide, ⟨rfl, rfl, rfl⟩⟩
/-- Where a flag lies: on this device, as the payload does, or on device 1, as it does not. -/
theorem witness_flag_devices : (copying).deviceOf aPut.who (joinPair aPut.flag[0] aPut.flag[1]) = some none ∧
    (∀ p ∈ (copying).engPairs aPut, remoteDev p.2 = none) ∧ ptrBad 128 = false ∧ vaOf 128 < windowBase ∧ (copying).heldLine aPut.who (vaOf 128) = none ∧
    (copying).translate aPut.who (vaOf 128) = .page 1 ∧
    (remotely true 0x10101).deviceOf aPut.who 128 = some (some 1) ∧ (∃ p ∈ (copying).engPairs aPut, remoteDev p.2 ≠ some 1) := by decide
/-- A follower's core that the span's word 5 has claimed, and the span once it may be slaved. -/
theorem witness_bids : (((ganged false).updCore 1 fun c => { c with bid := some 5 }).core? 1).bid = some (mop .mspan (d1 1)).id ∧
    ((ganged true).core? 0).master = none ∧ (∀ k ∈ (spanCores 0 (wbits (mop .mspan (d1 1) true).desc[0] 1 0)).drop 1, ((ganged true).core? k).master = none ∧ ((ganged true).core? k).spanCode = 0) ∧
    (∃ w, (ganged true).wg? 1 = some w ∧ ∀ k ∈ (spanCores 0 (wbits (mop .mspan (d1 1) true).desc[0] 1 0)).drop 1,
      ((ganged true).memberOn w k).map (·.wid) = some 2 ∧ ((ganged true).core? k).claim = some 2) ∧
    ((({ ganged true with cores := (ganged true).cores.map fun c => if c.id = 1 then { c with claim := none } else c } : State).core? 1).claim = none) := by
  refine ⟨by decide, by decide, by decide, ⟨_, rfl, by decide⟩, by decide⟩
/-- A fragment of a lane with a poisoned operand, and a pixel block without poison. -/
theorem witness_sick_lane : (1 : Mask).getLsbD (0 : Lane).val = true ∧ (0 : Mask).getLsbD (0 : Lane).val = false ∧
    (∀ n : Nat, memGet ({ lid := 1, handle := 0, tile := 0 } : Tile).pois n = 0) := ⟨by decide, by decide, fun n => by rfl⟩
theorem witness_host_offsets : (mapped).host.bootst.getLsbD 8 = true ∧ ({ st with host := { bootst := 1 } } : State).host.bootst.getLsbD 8 = false ∧
    (∃ k < 1, 2 ^ 39 ≤ 2 ^ 39 + k ∨ Config.carveOut ≤ (2 ^ 39 + k) % 2 ^ 31) ∧ ¬(∃ k < 2, 2 ^ 39 ≤ 8 + k ∨ Config.carveOut ≤ (8 + k) % 2 ^ 31) ∧
    (∃ k < 2, 2 ^ 39 ≤ Config.carveOut - 1 + k ∨ Config.carveOut ≤ (Config.carveOut - 1 + k) % 2 ^ 31) :=
  ⟨by decide, by decide, ⟨0, by decide, by decide⟩, by decide, ⟨1, by decide, by decide⟩⟩
/-- What a request from another device asks of page 0, where the granules' tags are 0. -/
theorem witness_remote_asks : (mapped).endIdle.access ((mapped).who 0 0 0).home 8 4 {} = .ok 1 8 false ∧
    (mapped).endIdle.access ((mapped).who 0 0 0).home 8 4 { write := true } = .ok 1 8 false ∧
    (mapped 0x21).endIdle.access ((mapped).who 0 0 0).home (8 + (1#64 <<< 56)) 4 {} = .fault 0x05 := by decide
/-- The command as the launch reads it, through the array. -/
theorem witness_command_read : let s := queued 4 0 1 1
    (Vector.ofFn fun j : Fin 16 => (s.arrayReads aQueue.ring 64).plainWord (aQueue.ring + 4 * j.val)) =
      (Vector.ofFn fun j : Fin 16 => memWord s.mem (aQueue.ring + 4 * j.val) : Vector Word 16) := by decide

/-- Places that a program may read and write, and a work area of 4 KiB from address 4096, which it may not. -/
def workArea : State := { st with launches := [{ lid := 1, hdr := ((Vector.replicate 16 0).set 6 4096).set 8 1, stages := [{}] }] }
theorem witness_off_limits : (mapped).offLimits (mapped).me false 0 16 = false ∧ (mapped).offLimits (mapped).me true 0 16 = false ∧
    ({} : State).launches = [] ∧ (∀ e ∈ ({} : State).landing.toList, e.words[0].getLsbD 0 = false) ∧
    (∃ l ∈ workArea.launches, l.work = (4096, 4096) ∧ ctxPart (workArea.ctxDesc l.ctx) = workArea.me.part ∧ ctxAsid (workArea.ctxDesc l.ctx) = workArea.me.asid) ∧
    (∀ g ∈ workArea.allGroups, g.status ≠ .halted ∧ g.status ≠ .parked) := by decide

/-! ### One word, with the results that the spec's examples state -/
noncomputable def after (i : Instr) (s : State) : State := match exec i s with | .next t => t | _ => {}
/-- Lane 95 alone is active. -/
def one : State := st fun g => { g with me := { leaf := some { root with amask := 1#96 <<< 95 } } }
/-- Every lane of the listed vectors holds the word; the scalars likewise. -/
def vecs (l : List (VReg × Word)) (s : State := one) : State := l.foldl (fun s p => s.setV p.1 allLanes fun _ => p.2) s
def scs (l : List (SReg × Word)) (s : State := st) : State := l.foldl (fun s p => s.setS p.1 p.2) s
def v95 (r : VReg) (s : State) : Word := s.g.readV r 95
def fst (s : State) : Word := s.g.regs.fstat
/-- 05: R92, R93, R94. -/
theorem test_add_sat : let t := after (.add .satS false 3 1 (.reg 2)) (vecs [(1, 0x7FFFFFF0), (2, 0x20)])
    v95 3 t = 0x7FFFFFFF ∧ fst t = 0x80 := by decide
theorem test_sar : v95 5 (after (.sar false 5 4 (.reg 6)) (vecs [(4, 0x80000010), (6, 4)])) = 0xF8000001 := by decide
theorem test_dot4 : v95 7 (after (.dot4S8 false 7 8 (.reg 9)) (vecs [(8, 0xFF020301), (9, 0x04040404), (7, 10)])) = 30 := by decide
/-- R95: `lt.s` is true and `lt.n` false. -/
theorem test_compare : (after (.ltS false 3 1 (.reg 2)) (vecs [(1, 0xFFFFFFFF), (2, 1)])).g.readP 3 95 = .t ∧
    (after (.ltN false 3 1 (.reg 2)) (vecs [(1, 0xFFFFFFFF), (2, 1)])).g.readP 3 95 = .f := by decide
/-- R96, R97. -/
theorem test_addi : v95 2 (after (.addi false 2 2 (-3)) (vecs [(2, 7)])) = 4 := by decide
theorem test_bfe : v95 4 (after (.bfeS false 4 3 (.lit 0x804)) ((vecs [(3, 0xF80)]).withLatch { len := 2 })) = 0xFFFFFFF8 := by decide
/-- R98: true and undecided give undecided. -/
theorem test_pand : (after (.pand false 4 2 3) (((st).setP 2 allLanes fun _ => .t).setP 3 allLanes fun _ => .u)).g.readP 4 0 = .u := by decide
/-- R99: lane 8 is dead, lanes 0-15 but it are active; lane 9 reads 0 and ABSENT is set. -/
theorem test_shuffle :
    let t := after (.shflXor false 6 5 (.lit 1)) ({ vecs [(5, 77)] with
      g := { (vecs [(5, 77)]).g with dead := 0x100, me := { leaf := some { root with emask := allLanes &&& ~~~0x100, amask := 0xFEFF } } }, latch := { len := 2 } })
    t.g.readV 6 9 = 0 ∧ t.g.readV 6 10 = 77 ∧ t.g.readV 6 8 = 0 ∧ fst t = 0x40 := by decide
/-- R101, R104. -/
theorem test_scalar_compare : (after (.sSltS 9 4 (.reg 5)) (scs [(4, 0xFFFFFFFE), (5, 3)])).g.readS 9 = 1 := by decide
theorem test_add64 : let t := after (.add64 2 2 12) (scs [(2, 0x30000000), (3, 0), (12, 0x10000), (13, 0)])
    t.g.readS 2 = 0x30010000 ∧ t.g.readS 3 = 0 := by decide
/-- R108: from packet 13 to packet 18. -/
theorem test_brs : ((after (.brs .z 16 5) (st fun g => { g with me := { leaf := some { root with pc := 13 } } })).g.me.leaf.map (·.pc)) = some 18 := by decide
/-- 09: R150, R154, R155, R157, R158, R160, R163. -/
theorem test_fadd : let t := after (.fadd .rd false 3 1 (.reg 2)) (vecs [(1, 0x3F800000), (2, 0xBF800000)])
    v95 3 t = 0x80000000 ∧ fst t = 0 := by decide
theorem test_ffma : v95 6 (after (.ffma .dyn false 6 1 (.reg 2)) (vecs [(1, 0x40000000), (2, 0x40400000), (6, 0x3F800000)])) = 0x40E00000 := by decide
theorem test_fmin : v95 4 (after (.fmin .dyn false 4 1 (.reg 2)) (vecs [(1, 0x7FC00000), (2, 0x80000000)])) = 0x80000000 := by decide
theorem test_fdiv : let t := after (.fdiv .rz false 5 1 (.reg 2)) (vecs [(1, 0x3F800000), (2, 0x40400000)])
    v95 5 t = 0x3EAAAAAA ∧ fst t = 0x10 := by decide
theorem test_flt : (after (.flt false 3 1 (.reg 2)) (vecs [(1, 0x80000000)])).g.readP 3 95 = .f := by decide
theorem test_dfma : let t := after (.dfma .dyn false 4 0 2) (vecs [(1, 0x3FF80000), (3, 0x40000000), (5, 0x3FD00000)])
    v95 5 t = 0x400A0000 ∧ v95 4 t = 0 := by decide
theorem test_hfma2 : v95 3 (after (.hfma2 .dyn false 3 1 (.reg 2)) (vecs [(1, 0x40003C00), (2, 0x42004000), (3, 0x3C003C00)])) = 0x47004200 := by decide
/-- 09: intervals. -/
theorem test_iadd : let t := after (.iadd .f32 false 4 0 2) (vecs [(0, 0x3F800000), (1, 0x3F800000), (2, 0x33800000), (3, 0x33800000)])
    v95 4 t = 0x3F800000 ∧ v95 5 t = 0x3F800001 ∧ fst t = 0x10 := by decide
theorem test_idiv : let t := after (.idiv .f32 false 4 0 2) (vecs [(0, 0x3F800000), (1, 0x40000000), (2, 0xBF800000), (3, 0x3F800000)])
    v95 4 t = 0xFF800000 ∧ v95 5 t = 0x7F800000 ∧ fst t = 0 := by decide
/-- 16: R243, R245, R247, on a page mapped to address 0. -/
theorem test_load_sign : v95 3 (after (.ld8s .relaxed false 3 (.flat 6)) { mapped with mem := [(0, 0x9C)] }) = 0xFFFFFF9C := by decide
theorem test_store_bytes : let t := after (.st16 .relaxed false 3 (.flat 6)) (vecs [(3, 0x1234ABCD)] mappedOne)
    t.view t.me 1 0 0 3 = [0xCD, 0xAB, 0] := by decide
/-- Three lanes add 1 to X = 10 and receive 10, 11 and 12. -/
theorem test_atomic : let s := vecs [(4, 1)] { mapped with mem := [(0, 10)], g := { (mapped).g with me := { leaf := some { root with amask := 7 } } } }
    let t := after (.atomAdd ⟨.device, true⟩ false 4 (.flat 6)) s
    [t.g.readV 4 0, t.g.readV 4 1, t.g.readV 4 2, t.g.readV 4 3] = [10, 11, 12, 1] ∧ t.view t.me 1 0 0 4 = [13, 0, 0, 0] := by decide
noncomputable def stepped (s : State) : State := match step s with | .next t => t | _ => {}
/-- A step fetches the `nop` and runs it: its slot stands at word 1. -/
theorem test_step : ((stepped fetching).group? 1).map (fun g => g.me.leaf.map fun l : Entry => l.ws) = some (some 1) := by decide

end Sys2Proof.Tests
end

