-- ==== Sys2Proof/Proofs/Decoder.lean ====
section
/-!
PROOFS. Proofs/Decoder.lean: a word that decodes is its instruction's own word (R47, R51). A format is the list of its fields'
widths, lowest first (R50); a word is its fields put together in any format, and each major's decoder reads a word back in the
format in which `encode` writes it.
-/
namespace Sys2Proof

/-! ### Fields -/
/-- The fields of a word from bit `lo` on, in the widths of `ns`, put together. -/
def join (w : Word) : Nat → List Nat → Nat
  | _, [] => 0
  | lo, n :: ns => fld w lo n + 2 ^ n * join w (lo + n) ns

theorem join_eq_fld (w : Word) (ns : List Nat) (lo : Nat) : join w lo ns = fld w lo ns.sum := by
  induction ns generalizing lo with
  | nil => simp [join, fld, Nat.mod_one]
  | cons n ns ih => rw [join, ih, List.sum_cons, fld, fld, fld, pow_add, ← Nat.div_div_eq_div_mul, pow_add, Nat.mod_mul]

/-- The fields of a format that fills bits 30:0 make up the word but for its chain bit. -/
theorem word_eq_of_join {w : Word} {n : Nat} (ns : List Nat) (hs : ns.sum = 31) (hn : n = join w 0 ns) :
    word n = w &&& 0x7FFFFFFF := by
  have h31 : (0x7FFFFFFF : Word).toNat = 2 ^ 31 - 1 := rfl
  apply BitVec.eq_of_toNat_eq
  rw [hn, join_eq_fld, hs, BitVec.toNat_and, h31, Nat.and_two_pow_sub_one_eq_mod, fld, word, BitVec.toNat_ofNat]
  omega

/-- A field of zeros from one of bits 5:0 on keeps the B field from announcing a literal. -/
theorem fld_ne_63 {w : Word} {lo n : Nat} (h : fld w lo n = 0) (hlo : lo < 6 := by decide) (hn : n ≠ 0 := by decide) :
    fld w 0 6 ≠ 63 := by
  obtain ⟨k, rfl⟩ := Nat.exists_eq_succ_of_ne_zero hn
  have hb : w.toNat / 2 ^ lo % 2 = 0 := by
    rw [fld, pow_succ', Nat.mod_mul] at h
    omega
  simp only [fld]
  interval_cases lo <;> omega

/-! ### Operands as fields -/
theorem reg_val (w : Word) (lo : Nat) : (reg w lo).val = fld w lo 6 := rfl
theorem pred_val (w : Word) (lo : Nat) : (pred w lo).val = fld w lo 3 := rfl
theorem bit_toNat (w : Word) (lo : Nat) : (bit w lo).toNat = fld w lo 1 := by
  have := fld_lt w lo 1
  unfold bit
  obtain h | h : fld w lo 1 = 0 ∨ fld w lo 1 = 1 := by omega
  all_goals rw [h]; rfl
theorem ofNat_fld_toNat (w : Word) (lo n : Nat) : (BitVec.ofNat n (fld w lo n)).toNat = fld w lo n := by
  rw [BitVec.toNat_ofNat, Nat.mod_eq_of_lt (fld_lt w lo n)]
theorem vsrc_code (w lit : Word) : (vsrc w lit).code = fld w 0 6 := by
  unfold vsrc
  split
  · next h => exact h.symm
  · rfl
theorem ssrc_code (w lit : Word) : (ssrc w lit).code = fld w 0 6 := by
  unfold ssrc
  split
  · next h => exact h.symm
  · rfl
theorem gaddr_code (w : Word) : (gaddr w).code = fld w 6 6 * 64 + fld w 0 6 := by
  unfold gaddr
  split
  · next h => rw [h]; rfl
  · rfl
theorem vsrc_literal (w lit : Word) : (vsrc w lit).literal = if fld w 0 6 = 63 then some lit else none := by
  unfold vsrc
  split <;> rfl
theorem ssrc_literal (w lit : Word) : (ssrc w lit).literal = if fld w 0 6 = 63 then some lit else none := by
  unfold ssrc
  split <;> rfl

/-! ### Modifiers as fields: each code is read back (R52, R53, R251) -/
theorem Sat.code_ofCode {n : Nat} {m : Sat} (h : Sat.ofCode n = some m) : m.code = n := by
  unfold Sat.ofCode at h
  split at h <;> cases h <;> rfl
theorem Rm.code_ofCode {n : Nat} {m : Rm} (h : Rm.ofCode n = some m) : m.code = n := by
  unfold Rm.ofCode at h
  split at h <;> cases h <;> rfl
theorem IKind.code_ofCode {n : Nat} {m : IKind} (h : IKind.ofCode n = some m) : m.code = n := by
  unfold IKind.ofCode at h
  split at h <;> cases h <;> rfl
theorem FScope.code_ofCode {n : Nat} {m : FScope} (h : FScope.ofCode n = some m) : m.code = n := by
  unfold FScope.ofCode at h
  split at h <;> cases h <;> rfl
theorem Sense.code_ofCode {n : Nat} {m : Sense} (h : Sense.ofCode n = some m) : m.code = n := by
  unfold Sense.ofCode at h
  split at h <;> cases h <;> rfl
theorem Cond.code_ofCode {n : Nat} {m : Cond} (h : Cond.ofCode n = some m) : m.code = n := by
  unfold Cond.ofCode at h
  split at h <;> cases h <;> rfl
theorem levelOf_val {n : Nat} {l : Fin 3} (h : levelOf n = some l) : l.val = n := by
  unfold levelOf at h
  split at h <;> cases h <;> rfl
theorem Scope.code_ofCode {n : Nat} (h : n < 4) : (Scope.ofCode n).code = n := by
  interval_cases n <;> rfl
theorem MemMod.code_ofCode {w : Word} {lo : Nat} {m : MemMod} (h : MemMod.ofCode (fld w lo 3) = some m) : m.code = fld w lo 3 := by
  have := fld_lt w lo 3
  generalize fld w lo 3 = n at *
  interval_cases n <;> cases h <;> rfl
theorem AtomMod.code_ofCode {w : Word} {lo : Nat} {m : AtomMod} (h : AtomMod.ofCode (fld w lo 3) = some m) : m.code = fld w lo 3 := by
  have := fld_lt w lo 3
  generalize fld w lo 3 = n at *
  interval_cases n <;> cases h <;> rfl

/-! ### Literals (R45) -/
theorem ownsLiteral_of_takes {w : Word} {M : Nat} (hM : fld w 25 6 = M) (ht : takesLiteral M = true) :
    ownsLiteral w = (fld w 0 6 == 63) := by
  have h24 : M ≠ 0x24 := by rintro rfl; exact absurd ht (by decide)
  simp [ownsLiteral, hM, ht, h24]
theorem ownsLiteral_of_not_takes {w : Word} {M : Nat} (hM : fld w 25 6 = M) (ht : takesLiteral M = false) (h24 : M ≠ 0x24) :
    ownsLiteral w = false := by
  simp [ownsLiteral, hM, ht, h24]

/-! ### What a decoder owes -/
/-- The word `w` is the instruction's own, and `lit` its literal where it owns one. -/
def Own (w lit : Word) (i : Instr) : Prop :=
  encode i = some (w &&& 0x7FFFFFFF) ∧ i.literal = if ownsLiteral w then some lit else none
/-- A decoder's answer is no instruction, or one whose own word `w` is where it is well formed. -/
def Owns (w lit : Word) (o : Option Instr) : Prop := ∀ i, o = some i → i.wf = true → Own w lit i

section
variable {w lit : Word} {i : Instr} {n M : Nat}

theorem owns_none (w lit : Word) : Owns w lit none := fun _ h => nomatch h
theorem owns_ite {c : Prop} [Decidable c] {o : Option Instr} (h : c → Owns w lit o) : Owns w lit (if c then o else none) := by
  split
  · exact h ‹_›
  · exact owns_none w lit
/-- A modifier is read back as its code. -/
theorem owns_bind {α : Type} {x : Option α} {code : α → Nat} {f : α → Option Instr} (hc : ∀ {m}, x = some m → code m = n)
    (h : ∀ m, code m = n → Owns w lit (f m)) : Owns w lit (x.bind f) := by
  cases x with
  | none => exact owns_none w lit
  | some m => exact h m (hc rfl)
/-- An instruction whose word is put together from the fields of `w` in the format `ns`. -/
theorem owns_word (ns : List Nat) (he : encode i = some (word n))
    (hl : i.wf = true → i.literal = if ownsLiteral w then some lit else none)
    (hn : n = join w 0 ns := by
      simp +arith only [join, zero_add, Nat.reduceAdd, Nat.reducePow, Nat.mul_add, Nat.reduceMul, reg_val, pred_val, bit_toNat,
        vsrc_code, ssrc_code, gaddr_code, ofNat_fld_toNat, *])
    (hs : ns.sum = 31 := by decide) : Owns w lit (some i) := by
  rintro _ ⟨⟩ hw
  exact ⟨he.trans (congrArg some (word_eq_of_join ns hs hn)), hl hw⟩

/-- The literal of an instruction whose operand b may be one. -/
theorem literal_of_src (hM : fld w 25 6 = M) (hl : i.literal = if fld w 0 6 = 63 then some lit else none)
    (ht : takesLiteral M = true := by decide) : i.wf = true → i.literal = if ownsLiteral w then some lit else none := fun _ => by
  rw [hl, ownsLiteral_of_takes hM ht]
  simp only [beq_iff_eq]
/-- An instruction without a literal, of a major whose B field may announce one. -/
theorem literal_of_reg (hM : fld w 25 6 = M) (hl : i.literal = none) (hb : i.wf = true → fld w 0 6 ≠ 63)
    (ht : takesLiteral M = true := by decide) : i.wf = true → i.literal = if ownsLiteral w then some lit else none := fun hw => by
  rw [hl, ownsLiteral_of_takes hM ht, beq_false_of_ne (hb hw)]
  rfl
/-- An instruction of a major without literals. -/
theorem literal_of_plain (hM : fld w 25 6 = M) (hl : i.literal = none) (ht : takesLiteral M = false := by decide)
    (h24 : M ≠ 0x24 := by decide) : i.wf = true → i.literal = if ownsLiteral w then some lit else none := fun _ => by
  rw [hl, ownsLiteral_of_not_takes hM ht h24]
  rfl

/-! A last register operand that starts a pair or a quad is not register 63 (R23), and class 63 is no class (R157). -/
theorem pair_ne_63 {x : Bool} (h : (x && pair (reg w 0)) = true) : fld w 0 6 ≠ 63 := by
  intro e
  simp [pair, reg_val, e] at h
theorem quad_ne_63 {x : Bool} (h : (x && quad (reg w 0)) = true) : fld w 0 6 ≠ 63 := by
  intro e
  simp [quad, reg_val, e] at h
theorem interval_ne_63 {x : Bool} {m : IKind} (h : (x && m.intervalOk (reg w 0)) = true) : fld w 0 6 ≠ 63 := by
  intro e
  cases m <;> simp [IKind.intervalOk, pair, quad, reg_val, e] at h
theorem class_ne_63 (h : (BitVec.ofNat 6 (fld w 0 6) != 63) = true) : fld w 0 6 ≠ 63 := by
  intro e
  simp [e] at h
end

/-! ### The majors (R54) -/
section
variable {w lit : Word}
-- Elaborated side by side, more than forty of these proofs would need more threads than memory holds stacks for.
set_option Elab.async false

theorem dec01_owns (hM : fld w 25 6 = 0x01) : Owns w lit (dec01 w lit) := by
  unfold dec01
  split
  case h_1 | h_2 | h_7 =>
    exact owns_bind Sat.code_ofCode fun _ _ => owns_word [6, 6, 6, 1, 3, 3, 6] rfl (literal_of_src hM (vsrc_literal w lit))
  case h_3 | h_4 | h_5 | h_6 => exact owns_ite fun _ => owns_word [6, 6, 6, 1, 3, 3, 6] rfl (literal_of_src hM (vsrc_literal w lit))
  case h_8 => exact owns_none w lit

theorem dec02_owns (hM : fld w 25 6 = 0x02) : Owns w lit (dec02 w lit) := by
  unfold dec02
  split
  case h_1 | h_2 | h_3 | h_4 | h_5 | h_6 | h_7 =>
    exact owns_ite fun _ => owns_word [6, 6, 6, 1, 3, 3, 6] rfl (literal_of_src hM (vsrc_literal w lit))
  case h_8 => exact owns_none w lit

theorem dec03_owns (hM : fld w 25 6 = 0x03) : Owns w lit (dec03 w lit) := by
  unfold dec03
  split
  case h_1 | h_2 | h_3 | h_4 | h_5 => exact owns_ite fun _ => owns_word [6, 6, 6, 1, 3, 3, 6] rfl (literal_of_src hM (vsrc_literal w lit))
  case h_6 | h_7 => exact owns_ite fun hz => owns_word [6, 6, 6, 1, 3, 3, 6] rfl (literal_of_reg hM rfl fun _ => fld_ne_63 hz.1)
  case h_8 => exact owns_none w lit

theorem dec04_owns (hM : fld w 25 6 = 0x04) : Owns w lit (dec04 w lit) := by
  unfold dec04
  split
  case h_1 | h_2 | h_3 | h_4 | h_5 | h_6 | h_7 =>
    exact owns_ite fun _ => owns_word [6, 6, 3, 3, 1, 3, 3, 6] rfl (literal_of_src hM (vsrc_literal w lit))
  case h_8 => exact owns_none w lit

theorem dec05_owns (hM : fld w 25 6 = 0x05) : Owns w lit (dec05 w lit) := by
  unfold dec05
  split
  case h_1 | h_2 | h_3 | h_4 | h_5 | h_6 | h_7 => exact owns_word [9, 6, 6, 1, 3, 6] rfl (literal_of_plain hM rfl)
  case h_8 => exact owns_ite fun _ => owns_word [9, 6, 6, 1, 3, 6] rfl (literal_of_plain hM rfl)
  case h_9 => exact owns_none w lit

theorem dec06_owns (hM : fld w 25 6 = 0x06) : Owns w lit (dec06 w lit) := by
  unfold dec06
  split
  case h_1 | h_2 | h_3 | h_4 | h_5 | h_6 =>
    exact owns_ite fun _ => owns_word [6, 6, 6, 1, 3, 3, 6] rfl (literal_of_src hM (vsrc_literal w lit))
  case h_7 => exact owns_ite fun hz => owns_word [12, 6, 1, 3, 3, 6] rfl (literal_of_reg hM rfl fun _ => fld_ne_63 hz.1)
  case h_8 => exact owns_none w lit

theorem dec08_owns (hM : fld w 25 6 = 0x08) : Owns w lit (dec08 w lit) := by
  unfold dec08
  split
  case h_1 | h_2 | h_3 | h_4 | h_5 | h_6 | h_7 | h_8 =>
    exact owns_bind Rm.code_ofCode fun _ _ => owns_word [6, 6, 6, 1, 3, 3, 6] rfl (literal_of_src hM (vsrc_literal w lit))
  case h_9 => exact owns_none w lit

theorem dec09_owns (hM : fld w 25 6 = 0x09) : Owns w lit (dec09 w lit) := by
  unfold dec09
  split
  case h_1 => exact owns_bind Rm.code_ofCode fun _ _ => owns_word [6, 6, 6, 1, 3, 3, 6] rfl (literal_of_src hM (vsrc_literal w lit))
  case h_2 =>
    exact owns_ite fun hz => owns_bind Rm.code_ofCode fun _ _ =>
      owns_word [6, 6, 6, 1, 3, 3, 6] rfl (literal_of_reg hM rfl fun _ => fld_ne_63 hz)
  case h_3 | h_4 | h_5 | h_6 | h_7 | h_8 =>
    exact owns_ite fun hz => owns_word [6, 6, 6, 1, 3, 3, 6] rfl (literal_of_reg hM rfl fun _ => fld_ne_63 hz.1)
  case h_9 => exact owns_none w lit

theorem dec0A_owns (hM : fld w 25 6 = 0x0A) : Owns w lit (dec0A w lit) := by
  unfold dec0A
  split
  case h_1 | h_2 | h_3 | h_4 | h_5 =>
    exact owns_ite fun _ => owns_word [6, 6, 3, 3, 1, 3, 3, 6] rfl (literal_of_src hM (vsrc_literal w lit))
  case h_6 => exact owns_ite fun _ => owns_word [6, 6, 3, 3, 1, 3, 3, 6] rfl (literal_of_reg hM rfl class_ne_63)
  case h_7 => exact owns_none w lit

theorem dec0B_owns (hM : fld w 25 6 = 0x0B) : Owns w lit (dec0B w lit) := by
  unfold dec0B
  split
  case h_1 | h_2 | h_3 | h_4 | h_5 =>
    exact owns_bind Rm.code_ofCode fun _ _ => owns_word [6, 6, 6, 1, 3, 3, 6] rfl (literal_of_reg hM rfl pair_ne_63)
  case h_6 =>
    exact owns_ite fun hz => owns_bind Rm.code_ofCode fun _ _ =>
      owns_word [6, 6, 6, 1, 3, 3, 6] rfl (literal_of_reg hM rfl fun _ => fld_ne_63 hz)
  case h_7 => exact owns_none w lit

theorem dec0C_owns (hM : fld w 25 6 = 0x0C) : Owns w lit (dec0C w lit) := by
  unfold dec0C
  split
  case h_1 | h_2 | h_3 | h_4 | h_5 | h_6 =>
    exact owns_bind Rm.code_ofCode fun _ _ => owns_word [6, 6, 6, 1, 3, 3, 6] rfl (literal_of_src hM (vsrc_literal w lit))
  case h_7 => exact owns_none w lit

theorem dec0D_owns (hM : fld w 25 6 = 0x0D) : Owns w lit (dec0D w lit) := by
  unfold dec0D
  split
  case h_1 | h_2 | h_3 | h_4 | h_5 | h_7 | h_8 =>
    exact owns_ite fun hz => owns_bind Rm.code_ofCode fun _ _ =>
      owns_word [6, 6, 6, 1, 3, 3, 6] rfl (literal_of_reg hM rfl fun _ => fld_ne_63 hz)
  case h_6 => exact owns_bind Rm.code_ofCode fun _ _ => owns_word [6, 6, 6, 1, 3, 3, 6] rfl (literal_of_src hM (vsrc_literal w lit))
  case h_9 => exact owns_none w lit

theorem dec0E_owns (hM : fld w 25 6 = 0x0E) : Owns w lit (dec0E w lit) := by
  unfold dec0E
  split
  case h_1 | h_3 | h_5 =>
    exact owns_ite fun hz => owns_bind Rm.code_ofCode fun _ _ =>
      owns_word [6, 6, 6, 1, 3, 3, 6] rfl (literal_of_reg hM rfl fun _ => fld_ne_63 hz)
  case h_2 | h_4 | h_6 | h_7 | h_8 =>
    exact owns_bind Rm.code_ofCode fun _ _ => owns_word [6, 6, 6, 1, 3, 3, 6] rfl (literal_of_src hM (vsrc_literal w lit))
  case h_9 => exact owns_none w lit

theorem dec10_owns (hM : fld w 25 6 = 0x10) : Owns w lit (dec10 w lit) := by
  unfold dec10
  split
  case h_1 | h_2 | h_3 | h_4 | h_6 | h_7 =>
    exact owns_bind IKind.code_ofCode fun _ _ => owns_word [6, 6, 6, 1, 3, 3, 6] rfl (literal_of_reg hM rfl interval_ne_63)
  case h_5 | h_8 =>
    exact owns_ite fun hz => owns_bind IKind.code_ofCode fun _ _ =>
      owns_word [6, 6, 6, 1, 3, 3, 6] rfl (literal_of_reg hM rfl fun _ => fld_ne_63 hz)
  case h_9 => exact owns_none w lit

theorem dec11_owns (hM : fld w 25 6 = 0x11) : Owns w lit (dec11 w lit) := by
  unfold dec11
  split
  case h_1 | h_2 | h_3 | h_4 | h_5 | h_7 =>
    exact owns_ite fun hz => owns_bind IKind.code_ofCode fun _ _ =>
      owns_word [6, 6, 6, 1, 3, 3, 6] rfl (literal_of_reg hM rfl fun _ => fld_ne_63 hz)
  case h_6 => exact owns_bind IKind.code_ofCode fun _ _ => owns_word [6, 6, 6, 1, 3, 3, 6] rfl (literal_of_src hM (vsrc_literal w lit))
  case h_8 => exact owns_none w lit

theorem dec12_owns (hM : fld w 25 6 = 0x12) : Owns w lit (dec12 w lit) := by
  unfold dec12
  split
  case h_1 | h_2 | h_3 | h_4 | h_5 | h_6 =>
    exact owns_ite fun _ => owns_bind IKind.code_ofCode fun _ _ =>
      owns_word [6, 6, 3, 3, 1, 3, 3, 6] rfl (literal_of_reg hM rfl interval_ne_63)
  case h_7 =>
    exact owns_ite fun hz => owns_bind IKind.code_ofCode fun _ _ =>
      owns_word [6, 6, 3, 3, 1, 3, 3, 6] rfl (literal_of_reg hM rfl fun _ => fld_ne_63 hz.1)
  case h_8 => exact owns_none w lit

theorem dec13_owns (hM : fld w 25 6 = 0x13) : Owns w lit (dec13 w lit) := by
  unfold dec13
  split
  case h_1 | h_2 | h_4 =>
    exact owns_ite fun hz => owns_word [3, 3, 3, 3, 3, 3, 1, 3, 3, 6] rfl (literal_of_reg hM rfl fun _ => fld_ne_63 hz.1)
  case h_3 | h_5 | h_6 | h_8 =>
    exact owns_ite fun hz => owns_word [6, 3, 3, 3, 3, 1, 3, 3, 6] rfl (literal_of_reg hM rfl fun _ => fld_ne_63 hz.1)
  case h_7 => exact owns_ite fun hz => owns_word [2, 10, 3, 3, 1, 3, 3, 6] rfl (literal_of_reg hM rfl fun _ => fld_ne_63 hz.1)
  case h_9 => exact owns_none w lit

theorem dec14_owns (hM : fld w 25 6 = 0x14) : Owns w lit (dec14 w lit) := by
  unfold dec14
  split
  case h_1 | h_2 | h_3 | h_4 | h_5 => exact owns_ite fun _ => owns_word [6, 6, 6, 1, 3, 3, 6] rfl (literal_of_src hM (vsrc_literal w lit))
  case h_6 => exact owns_ite fun hz => owns_word [6, 6, 6, 1, 3, 3, 6] rfl (literal_of_reg hM rfl fun _ => fld_ne_63 hz.1)
  case h_7 => exact owns_ite fun hz => owns_word [6, 3, 3, 3, 3, 1, 3, 3, 6] rfl (literal_of_reg hM rfl fun _ => fld_ne_63 hz.1)
  case h_8 => exact owns_ite fun hz => owns_word [6, 3, 3, 6, 1, 3, 3, 6] rfl (literal_of_reg hM rfl fun _ => fld_ne_63 hz.1)
  case h_9 => exact owns_none w lit

theorem dec16_owns (hM : fld w 25 6 = 0x16) : Owns w lit (dec16 w lit) := by
  unfold dec16
  split
  case h_1 => exact owns_ite fun hz => owns_word [6, 6, 6, 1, 1, 2, 3, 6] rfl (literal_of_reg hM rfl fun _ => fld_ne_63 hz.1)
  case h_2 | h_5 => exact owns_ite fun hz => owns_word [19, 1, 2, 3, 6] rfl (literal_of_reg hM rfl fun _ => fld_ne_63 hz.1)
  case h_3 | h_7 => exact owns_ite fun hz => owns_word [12, 6, 1, 1, 2, 3, 6] rfl (literal_of_reg hM rfl fun _ => fld_ne_63 hz.1)
  case h_4 => exact owns_ite fun _ => owns_word [6, 6, 3, 3, 1, 1, 2, 3, 6] rfl (literal_of_src hM (vsrc_literal w lit))
  case h_6 => exact owns_ite fun _ => owns_word [6, 6, 6, 1, 1, 2, 3, 6] rfl (literal_of_src hM (vsrc_literal w lit))
  case h_8 => exact owns_none w lit

theorem dec18_owns (hM : fld w 25 6 = 0x18) : Owns w lit (dec18 w lit) := by
  unfold dec18
  split
  case h_1 | h_2 | h_3 | h_4 | h_5 | h_6 | h_7 | h_8 =>
    exact owns_ite fun _ => owns_word [6, 6, 6, 4, 3, 6] rfl (literal_of_src hM (ssrc_literal w lit))
  case h_9 => exact owns_none w lit

theorem dec19_owns (hM : fld w 25 6 = 0x19) : Owns w lit (dec19 w lit) := by
  unfold dec19
  split
  case h_1 | h_2 | h_3 | h_4 | h_5 | h_6 | h_7 | h_8 =>
    exact owns_ite fun _ => owns_word [6, 6, 6, 4, 3, 6] rfl (literal_of_src hM (ssrc_literal w lit))
  case h_9 => exact owns_none w lit

theorem dec1A_owns (hM : fld w 25 6 = 0x1A) : Owns w lit (dec1A w lit) := by
  unfold dec1A
  split
  case h_1 | h_2 | h_3 | h_4 | h_5 | h_6 | h_7 | h_8 => exact owns_word [10, 6, 6, 3, 6] rfl (literal_of_plain hM rfl)
  case h_9 => exact owns_none w lit

theorem dec1B_owns (hM : fld w 25 6 = 0x1B) : Owns w lit (dec1B w lit) := by
  unfold dec1B
  exact owns_word [19, 6, 6] rfl (literal_of_plain hM rfl)

theorem dec1C_owns (hM : fld w 25 6 = 0x1C) : Owns w lit (dec1C w lit) := by
  unfold dec1C
  exact owns_word [19, 6, 6] rfl (literal_of_plain hM rfl)

theorem dec1D_owns (hM : fld w 25 6 = 0x1D) : Owns w lit (dec1D w lit) := by
  unfold dec1D
  split
  case h_1 | h_2 => exact owns_ite fun _ => owns_word [6, 6, 6, 4, 3, 6] rfl (literal_of_reg hM rfl pair_ne_63)
  case h_3 => exact owns_ite fun _ => owns_word [6, 6, 6, 4, 3, 6] rfl (literal_of_src hM (ssrc_literal w lit))
  case h_4 => exact owns_ite fun hz => owns_word [6, 6, 6, 4, 3, 6] rfl (literal_of_reg hM rfl fun _ => fld_ne_63 hz.1)
  case h_5 => exact owns_none w lit

theorem dec1E_owns (hM : fld w 25 6 = 0x1E) : Owns w lit (dec1E w lit) := by
  unfold dec1E
  split
  case h_1 | h_3 => exact owns_ite fun hz => owns_word [6, 6, 6, 4, 3, 6] rfl (literal_of_reg hM rfl fun _ => fld_ne_63 hz.1)
  case h_2 | h_4 => exact owns_ite fun _ => owns_word [6, 6, 6, 4, 3, 6] rfl (literal_of_src hM (ssrc_literal w lit))
  case h_5 => exact owns_none w lit

theorem dec20_owns (hM : fld w 25 6 = 0x20) : Owns w lit (dec20 w lit) := by
  unfold dec20
  exact owns_bind Sense.code_ofCode fun _ _ => owns_word [9, 10, 3, 3, 6] rfl (literal_of_plain hM rfl)

theorem dec21_owns (hM : fld w 25 6 = 0x21) : Owns w lit (dec21 w lit) := by
  unfold dec21
  exact owns_bind Cond.code_ofCode fun _ _ => owns_word [16, 6, 3, 6] rfl (literal_of_plain hM rfl)

theorem dec22_owns (hM : fld w 25 6 = 0x22) : Owns w lit (dec22 w lit) := by
  unfold dec22
  split
  case h_1 | h_2 => exact owns_word [22, 3, 6] rfl (literal_of_plain hM rfl)
  case h_3 => exact owns_none w lit

theorem dec23_owns (hM : fld w 25 6 = 0x23) : Owns w lit (dec23 w lit) := by
  unfold dec23
  split
  case h_1 | h_4 | h_5 | h_6 | h_7 | h_8 => exact owns_ite fun hz => owns_word [22, 3, 6] rfl (literal_of_reg hM rfl fun _ => fld_ne_63 hz)
  case h_2 | h_3 => exact owns_ite fun hz => owns_word [6, 6, 10, 3, 6] rfl (literal_of_reg hM rfl fun _ => fld_ne_63 hz.1)
  case h_9 => exact owns_none w lit

theorem dec24_owns (hM : fld w 25 6 = 0x24) : Owns w lit (dec24 w lit) := by
  unfold dec24
  have ho : ownsLiteral w = true := by unfold ownsLiteral; rw [hM]; rfl
  exact owns_ite fun _ => owns_bind Sense.code_ofCode fun _ _ => owns_word [3, 16, 3, 3, 6] rfl fun _ => by rw [ho]; rfl

theorem dec25_owns (hM : fld w 25 6 = 0x25) : Owns w lit (dec25 w lit) := by
  unfold dec25
  split
  case h_1 | h_2 => exact owns_bind levelOf_val fun _ _ => owns_word [14, 6, 2, 3, 6] rfl (literal_of_plain hM rfl)
  case h_3 => exact owns_ite fun _ => owns_bind levelOf_val fun _ _ => owns_word [20, 2, 3, 6] rfl (literal_of_plain hM rfl)
  case h_4 => exact owns_none w lit

theorem dec26_owns (hM : fld w 25 6 = 0x26) : Owns w lit (dec26 w lit) := by
  unfold dec26
  split
  case h_1 | h_2 | h_3 => exact owns_ite fun _ => owns_word [4, 15, 6, 6] rfl (literal_of_plain hM rfl)
  case h_4 | h_5 => exact owns_word [13, 6, 6, 6] rfl (literal_of_plain hM rfl)
  case h_6 => exact owns_ite fun _ => owns_word [1, 12, 6, 6, 6] rfl (literal_of_plain hM rfl)
  case h_7 | h_8 => exact owns_ite fun _ => owns_word [13, 6, 6, 6] rfl (literal_of_plain hM rfl)
  case h_9 | h_10 | h_11 => exact owns_ite fun _ => owns_word [19, 6, 6] rfl (literal_of_plain hM rfl)
  case h_12 => exact owns_none w lit

theorem dec28_owns (hM : fld w 25 6 = 0x28) : Owns w lit (dec28 w lit) := by
  unfold dec28
  split
  case h_1 | h_2 | h_3 | h_4 | h_5 | h_6 | h_7 | h_8 =>
    exact owns_bind MemMod.code_ofCode fun _ _ => owns_word [6, 6, 6, 1, 3, 3, 6] rfl (literal_of_plain hM rfl)
  case h_9 => exact owns_none w lit

theorem dec29_owns (hM : fld w 25 6 = 0x29) : Owns w lit (dec29 w lit) := by
  unfold dec29
  split
  case h_1 | h_2 | h_3 | h_4 | h_5 | h_6 =>
    exact owns_bind MemMod.code_ofCode fun _ _ => owns_word [6, 6, 6, 1, 3, 3, 6] rfl (literal_of_plain hM rfl)
  case h_7 => exact owns_none w lit

theorem dec2A_owns (hM : fld w 25 6 = 0x2A) : Owns w lit (dec2A w lit) := by
  unfold dec2A
  split
  case h_1 | h_2 | h_3 | h_4 | h_5 | h_6 | h_7 | h_8 =>
    exact owns_bind MemMod.code_ofCode fun _ _ => owns_word [6, 6, 6, 1, 3, 3, 6] rfl (literal_of_plain hM rfl)
  case h_9 => exact owns_none w lit

theorem dec2B_owns (hM : fld w 25 6 = 0x2B) : Owns w lit (dec2B w lit) := by
  unfold dec2B
  split
  case h_1 | h_2 | h_3 | h_4 | h_5 | h_6 =>
    exact owns_bind MemMod.code_ofCode fun _ _ => owns_word [6, 6, 6, 1, 3, 3, 6] rfl (literal_of_plain hM rfl)
  case h_7 => exact owns_none w lit

theorem dec2C_owns (hM : fld w 25 6 = 0x2C) : Owns w lit (dec2C w lit) := by
  unfold dec2C
  split
  case h_1 | h_2 | h_3 | h_4 | h_5 | h_6 | h_7 | h_8 =>
    exact owns_bind MemMod.code_ofCode fun _ _ => owns_word [6, 6, 6, 1, 3, 3, 6] rfl (literal_of_plain hM rfl)
  case h_9 => exact owns_none w lit

theorem dec2D_owns (hM : fld w 25 6 = 0x2D) : Owns w lit (dec2D w lit) := by
  unfold dec2D
  split
  case h_1 | h_2 | h_3 | h_4 | h_5 | h_6 =>
    exact owns_bind MemMod.code_ofCode fun _ _ => owns_word [6, 6, 6, 1, 3, 3, 6] rfl (literal_of_plain hM rfl)
  case h_7 => exact owns_none w lit

theorem dec2E_owns (hM : fld w 25 6 = 0x2E) : Owns w lit (dec2E w lit) := by
  unfold dec2E
  split
  case h_1 | h_2 | h_3 | h_4 | h_5 | h_6 | h_7 | h_8 =>
    exact owns_bind AtomMod.code_ofCode fun _ _ => owns_word [6, 6, 6, 1, 3, 3, 6] rfl (literal_of_plain hM rfl)
  case h_9 => exact owns_none w lit

theorem dec2F_owns (hM : fld w 25 6 = 0x2F) : Owns w lit (dec2F w lit) := by
  unfold dec2F
  split
  case h_1 | h_2 | h_3 | h_4 | h_5 | h_6 =>
    exact owns_bind AtomMod.code_ofCode fun _ _ => owns_word [6, 6, 6, 1, 3, 3, 6] rfl (literal_of_plain hM rfl)
  case h_7 => exact owns_none w lit

theorem dec30_owns (hM : fld w 25 6 = 0x30) : Owns w lit (dec30 w lit) := by
  unfold dec30
  split
  case h_1 | h_2 | h_3 | h_4 | h_5 | h_6 => exact owns_ite fun _ => owns_word [6, 6, 6, 1, 1, 2, 3, 6] rfl (literal_of_plain hM rfl)
  case h_7 => exact owns_none w lit

theorem dec31_owns (hM : fld w 25 6 = 0x31) : Owns w lit (dec31 w lit) := by
  unfold dec31
  split
  case h_1 | h_2 | h_3 => exact owns_ite fun _ => owns_word [6, 6, 6, 1, 3, 3, 6] rfl (literal_of_plain hM rfl)
  case h_4 => exact owns_none w lit

theorem dec32_owns (hM : fld w 25 6 = 0x32) : Owns w lit (dec32 w lit) := by
  unfold dec32
  split
  case h_1 | h_2 | h_3 | h_5 | h_6 | h_7 =>
    exact owns_ite fun _ => owns_bind FScope.code_ofCode fun _ _ => owns_word [3, 16, 6, 6] rfl (literal_of_plain hM rfl)
  case h_4 => exact owns_ite fun _ => owns_word [19, 6, 6] rfl (literal_of_plain hM rfl)
  case h_8 => exact owns_none w lit

theorem dec33_owns (hM : fld w 25 6 = 0x33) : Owns w lit (dec33 w lit) := by
  unfold dec33
  split
  case h_1 | h_2 | h_4 | h_5 | h_6 | h_7 => exact owns_ite fun _ => owns_word [6, 6, 6, 1, 3, 3, 6] rfl (literal_of_plain hM rfl)
  case h_3 => exact owns_ite fun _ => owns_word [6, 6, 1, 5, 1, 3, 3, 6] rfl (literal_of_plain hM rfl)
  case h_8 => exact owns_none w lit

theorem dec34_owns (hM : fld w 25 6 = 0x34) : Owns w lit (dec34 w lit) := by
  unfold dec34
  split
  case h_1 | h_2 | h_3 | h_4 | h_5 | h_6 | h_7 | h_9 | h_10 | h_11 =>
    exact owns_ite fun _ => owns_word [6, 6, 6, 1, 6, 6] rfl (literal_of_plain hM rfl)
  case h_8 => exact owns_ite fun _ => owns_word [12, 6, 1, 6, 6] rfl (literal_of_plain hM rfl)
  case h_12 => exact owns_none w lit

theorem dec35_owns (hM : fld w 25 6 = 0x35) : Owns w lit (dec35 w lit) := by
  unfold dec35
  split
  case h_1 | h_2 | h_3 => exact owns_ite fun _ => owns_word [6, 6, 6, 1, 6, 6] rfl (literal_of_plain hM rfl)
  case h_4 => exact owns_none w lit

theorem dec36_owns (hM : fld w 25 6 = 0x36) : Owns w lit (dec36 w lit) := by
  unfold dec36
  split
  case h_1 | h_2 | h_3 | h_4 | h_5 => exact owns_ite fun _ => owns_word [6, 6, 6, 1, 3, 3, 6] rfl (literal_of_plain hM rfl)
  case h_6 => exact owns_none w lit

theorem dec37_owns (hM : fld w 25 6 = 0x37) : Owns w lit (dec37 w lit) := by
  unfold dec37
  split
  case h_1 | h_2 | h_3 | h_4 | h_5 | h_7 => exact owns_ite fun _ => owns_word [6, 6, 6, 1, 6, 6] rfl (literal_of_plain hM rfl)
  case h_6 => exact owns_ite fun _ => owns_word [6, 6, 7, 6, 6] rfl (literal_of_plain hM rfl)
  case h_8 => exact owns_ite fun _ => owns_word [19, 6, 6] rfl (literal_of_plain hM rfl)
  case h_9 => exact owns_none w lit

theorem dec38_owns (hM : fld w 25 6 = 0x38) : Owns w lit (dec38 w lit) := by
  unfold dec38
  split
  case h_1 => exact owns_ite fun _ => owns_word [6, 6, 6, 1, 3, 3, 6] rfl (literal_of_reg hM rfl quad_ne_63)
  case h_2 | h_3 => exact owns_ite fun hz => owns_word [6, 6, 6, 1, 3, 3, 6] rfl (literal_of_reg hM rfl fun _ => fld_ne_63 hz.1)
  case h_4 | h_5 => exact owns_ite fun _ => owns_word [6, 6, 6, 1, 3, 3, 6] rfl (literal_of_src hM (vsrc_literal w lit))
  case h_6 => exact owns_ite fun _ => owns_word [6, 12, 1, 3, 3, 6] rfl (literal_of_src hM (vsrc_literal w lit))
  case h_7 | h_8 => exact owns_ite fun hz => owns_word [4, 8, 6, 1, 3, 3, 6] rfl (literal_of_reg hM rfl fun _ => fld_ne_63 hz.1)
  case h_9 => exact owns_none w lit

theorem dec39_owns (hM : fld w 25 6 = 0x39) : Owns w lit (dec39 w lit) := by
  unfold dec39
  split
  case h_1 | h_2 | h_3 | h_4 => exact owns_ite fun _ => owns_word [6, 6, 6, 1, 3, 3, 6] rfl (literal_of_reg hM rfl pair_ne_63)
  case h_5 => exact owns_none w lit

theorem dec3A_owns (hM : fld w 25 6 = 0x3A) : Owns w lit (dec3A w lit) := by
  unfold dec3A
  split
  case h_1 | h_2 => exact owns_ite fun _ => owns_word [6, 6, 3, 3, 1, 3, 3, 6] rfl (literal_of_reg hM rfl pair_ne_63)
  case h_3 => exact owns_none w lit

theorem dec3B_owns (hM : fld w 25 6 = 0x3B) : Owns w lit (dec3B w lit) := by
  unfold dec3B
  split
  case h_1 | h_2 | h_3 | h_4 | h_5 => exact owns_word [13, 6, 6, 6] rfl (literal_of_plain hM rfl)
  case h_6 | h_8 => exact owns_ite fun _ => owns_word [19, 6, 6] rfl (literal_of_plain hM rfl)
  case h_7 => exact owns_ite fun _ => owns_word [13, 6, 6, 6] rfl (literal_of_plain hM rfl)
  case h_9 => exact owns_none w lit

theorem dec3C_owns (hM : fld w 25 6 = 0x3C) : Owns w lit (dec3C w lit) := by
  unfold dec3C
  split
  case h_1 | h_4 | h_5 => exact owns_ite fun _ => owns_word [13, 6, 6, 6] rfl (literal_of_plain hM rfl)
  case h_2 | h_3 => exact owns_ite fun _ => owns_word [19, 6, 6] rfl (literal_of_plain hM rfl)
  case h_6 => exact owns_none w lit

theorem dec3F_owns (hM : fld w 25 6 = 0x3F) : Owns w lit (dec3F w lit) := by
  unfold dec3F
  exact owns_word [25, 6] rfl (literal_of_plain hM rfl)

theorem decodeFields_owns (w lit : Word) : Owns w lit (decodeFields w lit) := by
  unfold decodeFields
  split
  case h_1 hM => exact dec01_owns hM
  case h_2 hM => exact dec02_owns hM
  case h_3 hM => exact dec03_owns hM
  case h_4 hM => exact dec04_owns hM
  case h_5 hM => exact dec05_owns hM
  case h_6 hM => exact dec06_owns hM
  case h_7 hM => exact dec08_owns hM
  case h_8 hM => exact dec09_owns hM
  case h_9 hM => exact dec0A_owns hM
  case h_10 hM => exact dec0B_owns hM
  case h_11 hM => exact dec0C_owns hM
  case h_12 hM => exact dec0D_owns hM
  case h_13 hM => exact dec0E_owns hM
  case h_14 hM => exact dec10_owns hM
  case h_15 hM => exact dec11_owns hM
  case h_16 hM => exact dec12_owns hM
  case h_17 hM => exact dec13_owns hM
  case h_18 hM => exact dec14_owns hM
  case h_19 hM => exact dec16_owns hM
  case h_20 hM => exact dec18_owns hM
  case h_21 hM => exact dec19_owns hM
  case h_22 hM => exact dec1A_owns hM
  case h_23 hM => exact dec1B_owns hM
  case h_24 hM => exact dec1C_owns hM
  case h_25 hM => exact dec1D_owns hM
  case h_26 hM => exact dec1E_owns hM
  case h_27 hM => exact dec20_owns hM
  case h_28 hM => exact dec21_owns hM
  case h_29 hM => exact dec22_owns hM
  case h_30 hM => exact dec23_owns hM
  case h_31 hM => exact dec24_owns hM
  case h_32 hM => exact dec25_owns hM
  case h_33 hM => exact dec26_owns hM
  case h_34 hM => exact dec28_owns hM
  case h_35 hM => exact dec29_owns hM
  case h_36 hM => exact dec2A_owns hM
  case h_37 hM => exact dec2B_owns hM
  case h_38 hM => exact dec2C_owns hM
  case h_39 hM => exact dec2D_owns hM
  case h_40 hM => exact dec2E_owns hM
  case h_41 hM => exact dec2F_owns hM
  case h_42 hM => exact dec30_owns hM
  case h_43 hM => exact dec31_owns hM
  case h_44 hM => exact dec32_owns hM
  case h_45 hM => exact dec33_owns hM
  case h_46 hM => exact dec34_owns hM
  case h_47 hM => exact dec35_owns hM
  case h_48 hM => exact dec36_owns hM
  case h_49 hM => exact dec37_owns hM
  case h_50 hM => exact dec38_owns hM
  case h_51 hM => exact dec39_owns hM
  case h_52 hM => exact dec3A_owns hM
  case h_53 hM => exact dec3B_owns hM
  case h_54 hM => exact dec3C_owns hM
  case h_55 hM => exact dec3F_owns hM
  case h_56 => exact owns_none w lit
end

/-- Settles O5: each major's decoder answers with the instruction whose word it read. -/
theorem onlyEncodedWordsDecode : Obligations.OnlyEncodedWordsDecode := by
  intro w lit i h
  obtain ⟨hd, hw⟩ := Option.filter_eq_some_iff.mp h
  exact ⟨hw, decodeFields_owns w lit i hd hw⟩

end Sys2Proof
end

