-- ==== Sys2Proof/Proofs/MemoryReads.lean ====
section
/-!
PROOFS. Proofs/MemoryReads.lean: what a memory reads after a write, and why its canonical form is one list for each content (R4).
-/
namespace Sys2Proof.Machine

/-! ### Writing -/
/-- Dropping entries by address leaves the entry found at every address that stays. -/
theorem find?_filter_addr (m : Memory) (f : Nat → Bool) (b : Nat) :
    (m.filter fun c => f c.1).find? (fun c => c.1 == b) = if f b then m.find? fun c => c.1 == b else none := by
  induction m with
  | nil => simp
  | cons c m ih =>
    rw [List.filter_cons, List.find?_cons]
    by_cases hb : c.1 = b
    · subst hb
      cases hf : f c.1 <;> simp [hf, ih]
    · have hb' : (c.1 == b) = false := beq_false_of_ne hb
      cases hf : f c.1 <;> simp [hb', ih]

/-- The entry of a byte at `a`; a byte 0 has none. -/
theorem find?_entry (a b : Nat) (x : Byte) :
    (if x = 0 then [] else [(a, x)] : Memory).find? (fun c => c.1 == b) = if b = a ∧ x ≠ 0 then some (a, x) else none := by
  by_cases hx : x = 0
  · rw [if_pos hx, if_neg fun h => h.2 hx, List.find?_nil]
  · rw [if_neg hx]
    by_cases hb : b = a
    · rw [if_pos ⟨hb, hx⟩, hb]
      exact List.find?_cons_of_pos (p := fun c : Host.Cell => c.1 == a) (beq_self_eq_true a)
    · simp [hb, Ne.symm hb]

/-- The entry found at `b` after a byte is written at `a`. -/
theorem find?_memSet (m : Memory) (a b : Nat) (x : Byte) :
    (memSet m a x).find? (fun c => c.1 == b) =
      if b = a then (if x ≠ 0 then some (a, x) else none) else m.find? fun c => c.1 == b := by
  unfold memSet
  rw [List.find?_append, List.find?_append, find?_filter_addr m (fun n => decide (n < a)), find?_entry,
    find?_filter_addr m (fun n => decide (a < n))]
  obtain h | rfl | h := Nat.lt_trichotomy b a
  · simp [h, h.ne, h.asymm]
  · simp
  · simp [h, h.ne', h.asymm]

theorem memGet_memSet (m : Memory) (a b : Nat) (x : Byte) : memGet (memSet m a x) b = if b = a then x else memGet m b := by
  unfold memGet
  rw [find?_memSet]
  by_cases hb : b = a
  · rw [if_pos hb, if_pos hb]
    by_cases hx : x = 0
    · rw [if_neg (not_not_intro hx), hx]; rfl
    · rw [if_pos hx]; rfl
  · rw [if_neg hb, if_neg hb]

theorem memGet_memWrite (xs : List Byte) : ∀ (m : Memory) (a b : Nat),
    memGet (memWrite m a xs) b = if h : a ≤ b ∧ b - a < xs.length then xs[b - a]'h.2 else memGet m b := by
  induction xs with
  | nil => intro m a b; simp [memWrite]
  | cons x xs ih =>
    intro m a b
    rw [memWrite, ih, memGet_memSet]
    obtain h | rfl | h := Nat.lt_trichotomy b a
    · have h1 : ¬ a + 1 ≤ b := by omega
      have h2 : ¬ a ≤ b := by omega
      simp [h1, h2, h.ne]
    · simp
    · obtain ⟨k, rfl⟩ := Nat.exists_eq_add_of_lt h
      have h1 : a + k + 1 - (a + 1) = k := by omega
      have h2 : a + k + 1 - a = k + 1 := by omega
      have h3 : a + 1 ≤ a + k + 1 := by omega
      have h4 : a ≤ a + k + 1 := by omega
      have h5 : a + k + 1 ≠ a := by omega
      simp [h1, h2, h3, h4, h5]

/-! ### The canonical form -/
/-- In canonical form the entries are the addresses that do not read 0, each with what it reads. -/
theorem mem_iff_memGet {m : Memory} (h : m.wf = true) (a : Nat) (b : Byte) : (a, b) ∈ m ↔ b ≠ 0 ∧ memGet m a = b := by
  constructor
  · exact fun hm => ⟨((Memory.wf_iff m).mp h).2 _ hm, memGet_mem m a b h hm⟩
  · rintro ⟨hb, hg⟩
    unfold memGet at hg
    cases hf : m.find? fun c => c.1 == a with
    | none => rw [hf] at hg; exact absurd hg.symm hb
    | some c =>
      have hc : c = (a, b) := by
        rw [hf] at hg
        exact Prod.ext (by simpa using List.find?_some hf) hg
      exact hc ▸ List.mem_of_find?_eq_some hf

/-- Two rising lists with the same entries are the same list. -/
theorem eq_of_memGet_eq {m n : Memory} (hm : m.wf = true) (hn : n.wf = true) (h : ∀ a, memGet m a = memGet n a) : m = n := by
  have hanti : Std.Antisymm fun c d : Host.Cell => c.1 < d.1 := ⟨fun _ _ h k => absurd h k.asymm⟩
  have hirr : Std.Irrefl fun c d : Host.Cell => c.1 < d.1 := ⟨fun _ => Nat.lt_irrefl _⟩
  refine List.Pairwise.eq_of_mem_iff ((Memory.wf_iff m).mp hm).1 ((Memory.wf_iff n).mp hn).1 fun ⟨a, b⟩ => ?_
  rw [mem_iff_memGet hm, mem_iff_memGet hn, h]

/-- Settles O9. -/
theorem memoryReadsBack : Obligations.MemoryReadsBack :=
  ⟨fun m a b x xs => ⟨memGet_memSet m a b x, memGet_memWrite xs m a b⟩, fun _ _ => eq_of_memGet_eq⟩

end Sys2Proof.Machine
end

