-- ==== Sys2Proof/Proofs/Registers.lean ====
section
/-!
PROOFS. Proofs/Registers.lean: what a register reads after a write of a vector register, a predicate, a scalar or a flag (R22, R24, R89),
and the lanes that a guard leaves active (R9, R53).
-/
namespace Sys2Proof.Machine

/-! ### Vector registers -/
theorem State.readV_setV (s : State) (d r : VReg) (m : Mask) (x : Lane → Word) (L : Lane) :
    (s.setV d m x).g.readV r L = if r = d ∧ m.getLsbD L.val = true then x L else s.g.readV r L := by
  show (s.g.regs.v.set d (setLanes s.g.regs.v[d] m x))[r][L] = _
  by_cases h : r = d
  · subst h
    simp [setLanes, Group.readV]
  · have h' : d.val ≠ r.val := fun e => h (Fin.ext e.symm)
    simp [h, h', Group.readV, Vector.getElem_set_ne]
theorem State.vpois_setV (s : State) (d r : VReg) (m : Mask) (x : Lane → Word) :
    (s.setV d m x).g.regs.vpois[r] = if r = d then s.g.regs.vpois[r] &&& ~~~m else s.g.regs.vpois[r] := by
  show (s.g.regs.vpois.set d (s.g.regs.vpois[d] &&& ~~~m))[r] = _
  by_cases h : r = d
  · subst h
    simp
  · have h' : d.val ≠ r.val := fun e => h (Fin.ext e.symm)
    simp [h, h', Vector.getElem_set_ne]

/-! ### Predicates -/
theorem Group.readP_zero (g : Group) (L : Lane) : g.readP 0 L = .t := rfl
theorem State.readP_setP (s : State) (d r : PReg) (m : Mask) (x : Lane → PVal) (L : Lane) :
    (s.setP d m x).g.readP r L = if r = d ∧ r ≠ 0 ∧ m.getLsbD L.val = true then x L else s.g.readP r L := by
  unfold State.setP Regs.setP Group.readP
  by_cases hr : r = 0
  · subst hr
    simp
  · have hr' : r.val ≠ 0 := fun e => hr (Fin.ext e)
    by_cases hd : d = 0
    · subst hd
      simp [hr]
    · have hd' : d.val ≠ 0 := fun e => hd (Fin.ext e)
      by_cases h : r = d
      · subst h
        simp [hr, hr']
      · have h' : d.val - 1 ≠ r.val - 1 := fun e => h (Fin.ext (by omega))
        simp [h, hr', hd', h', Vector.getElem_set_ne]
theorem State.setP_frame (s : State) (d : PReg) (m : Mask) (x : Lane → PVal) :
    ({ s.setP d m x with g := { (s.setP d m x).g with regs := { (s.setP d m x).g.regs with p := s.g.regs.p } } } : State) = s := by
  unfold State.setP State.setRegs
  dsimp only
  rw [Regs.setP_eq]

/-! ### Scalars -/
theorem maskWord_getLsbD (m : Mask) {k i : Nat} (hi : i < 32) : (maskWord m k).getLsbD i = m.getLsbD (32 * k + i) := by
  simp [maskWord, hi]
theorem setMaskWord_getLsbD (m : Mask) (w : Word) {k i : Nat} (hi : i < 96) :
    (setMaskWord m k w).getLsbD i = if i / 32 = k then w.getLsbD (i % 32) else m.getLsbD i := by
  simp only [setMaskWord, BitVec.getLsbD_or, BitVec.getLsbD_and, BitVec.getLsbD_not, BitVec.getLsbD_shiftLeft, BitVec.getLsbD_setWidth,
    BitVec.getLsbD_allOnes]
  obtain h | h | h := Nat.lt_trichotomy (i / 32) k
  · have h1 : i < 32 * k := by omega
    simp [h.ne, h1, hi]
  · have h1 : ¬ i < 32 * k := by omega
    have h2 : i - 32 * k = i % 32 := by omega
    have h3 : i % 32 < 32 := Nat.mod_lt _ (by decide)
    have h4 : i % 32 < 96 := by omega
    simp [h, h1, h2, h3, h4, hi]
  · have h1 : ¬ i < 32 * k := by omega
    have h2 : ¬ i - 32 * k < 32 := by omega
    have h3 : w.getLsbD (i - 32 * k) = false := BitVec.getLsbD_of_ge _ _ (by omega)
    simp [h.ne', h1, h2, h3, hi]

theorem State.setS_of_lt {s : State} {d : SReg} {x : Word} (h : d.val < 60) :
    s.setS d x = s.setRegs fun r => { r with s := r.s.set d.val x, spois := r.spois &&& ~~~(1#64 <<< d.val) } := dif_pos h
theorem State.setS_mask {s : State} {d : SReg} {x : Word} {l : Entry} (h : 60 ≤ d.val) (h' : d.val < 63) (hl : s.g.me.leaf = some l) :
    s.setS d x = { s with g := { s.g with me := { s.g.me with
      leaf := some { l with amask := setMaskWord l.amask (d.val - 60) x &&& l.emask } } } } := by
  have ha : s.g.amask = l.amask := by unfold Group.amask; rw [hl]
  unfold State.setS State.setActive
  rw [dif_neg (by omega), if_pos h', hl, ha]
theorem State.setS_zero {s : State} {d : SReg} {x : Word} (h : d.val = 63) : s.setS d x = s := by
  unfold State.setS
  rw [dif_neg (by omega), if_neg (by omega)]
theorem Group.readS_zero {g : Group} {d : SReg} (h : d.val = 63) : g.readS d = 0 := by
  unfold Group.readS
  rw [dif_neg (by omega), if_neg (by omega)]
theorem Group.readS_mask (g : Group) (k : Fin 3) : g.readS (Fin.ofNat 64 (60 + k.val)) = maskWord g.amask k.val := by
  fin_cases k <;> rfl
theorem State.readS_setS {s : State} {d : SReg} {x : Word} (h : d.val < 60) (r : SReg) :
    (s.setS d x).g.readS r = if r = d then x else s.g.readS r := by
  rw [State.setS_of_lt h]
  unfold Group.readS
  by_cases hr : r.val < 60
  · by_cases hd : r = d
    · subst hd
      simp [hr]
    · have hd' : d.val ≠ r.val := fun e => hd (Fin.ext e.symm)
      simp [hr, hd, hd', Vector.getElem_set_ne]
  · have hd : r ≠ d := fun e => hr (e ▸ h)
    rw [dif_neg hr, dif_neg hr, if_neg hd]
    rfl
/-- A write of s60-s62 takes a third of the active mask, within the lanes the leaf owns. -/
theorem State.amask_setS {s : State} {d : SReg} {x : Word} {l : Entry} (h : 60 ≤ d.val) (h' : d.val < 63) (hl : s.g.me.leaf = some l)
    (L : Lane) : (s.setS d x).g.amask.getLsbD L.val =
      ((if L.val / 32 = d.val - 60 then x.getLsbD (L.val % 32) else l.amask.getLsbD L.val) && l.emask.getLsbD L.val) := by
  rw [State.setS_mask h h' hl, ← setMaskWord_getLsbD l.amask x L.isLt, ← BitVec.getLsbD_and]
  rfl

/-! ### Flags and guards -/
theorem State.fstat_orFlags (s : State) (f : Byte) (i : Nat) :
    (s.orFlags f).g.regs.fstat.getLsbD i = (s.g.regs.fstat.getLsbD i || f.getLsbD i) := by
  show (s.g.regs.fstat ||| f.setWidth 32).getLsbD i = _
  rw [BitVec.getLsbD_or, BitVec.getLsbD_setWidth]
  by_cases hi : i < 32
  · simp [hi]
  · simp [hi, BitVec.getLsbD_of_ge f i (by omega)]
theorem Group.guardReg_eq (g : Group) : g.guardReg = Fin.ofNat 8 (g.regs.guard.toNat % 8) := by
  unfold Group.guardReg
  rw [wbits_eq]
  norm_num
theorem Group.guardSense_eq (g : Group) : g.guardSense = g.regs.guard.toNat / 8 % 8 := by
  unfold Group.guardSense
  rw [wbits_eq]
  norm_num
theorem Group.lanes_guarded (g : Group) (L : Lane) : (g.lanes true).getLsbD L.val = (g.amask.getLsbD L.val &&
    meets (g.readP (Fin.ofNat 8 (g.regs.guard.toNat % 8)) L) (g.regs.guard.toNat / 8 % 8)) := by
  show (g.amask &&& g.guardMask).getLsbD L.val = _
  rw [BitVec.getLsbD_and, Group.guardMask, maskOf_getLsbD, Group.guardReg_eq, Group.guardSense_eq]

/-! ### The clauses -/
theorem vectorRegisterWrites : Clause.VectorRegisterWrites :=
  fun s d m x => ⟨fun r L => s.readV_setV d r m x L, fun r => s.vpois_setV d r m x, rfl⟩
theorem predicateWrites : Clause.PredicateWrites :=
  fun s d m x => ⟨fun r L => s.readP_setP d r m x L, s.g.readP_zero, s.setP_frame d m x⟩
theorem scalarWrites : Clause.ScalarWrites := by
  intro s d x
  refine ⟨fun h => ⟨State.readS_setS h, ?_⟩, fun h h' l hl => ⟨State.amask_setS h h' hl, ?_⟩,
    fun h => ⟨State.setS_zero h, Group.readS_zero h⟩, fun k i hi => ?_⟩
  · rw [State.setS_of_lt h]
    exact ⟨rfl, rfl⟩
  · rw [State.setS_mask h h' hl]
    exact ⟨rfl, rfl⟩
  · rw [Group.readS_mask, maskWord_getLsbD _ hi]
theorem flagsAreSticky : Clause.FlagsAreSticky := fun s f i => ⟨s.fstat_orFlags f i, rfl⟩
theorem guardedLanes : Clause.GuardedLanes := fun g L => ⟨rfl, g.lanes_guarded L⟩

/-- Settles O12. -/
theorem registerWrites : Obligations.RegisterWrites :=
  ⟨vectorRegisterWrites, predicateWrites, scalarWrites, flagsAreSticky, guardedLanes⟩

end Sys2Proof.Machine
end

