-- ==== Sys2Proof/Proofs/Fetch.lean ====
section
/-!
PROOFS. Proofs/Fetch.lean: a packet's word is four bytes, least significant first (R40), as memory or an older copy holds them (R42).
-/
namespace Sys2Proof.Machine
noncomputable section

/-- Four bytes, least significant first, as a word (R4). -/
theorem ofNat_leNat_four (b0 b1 b2 b3 : Byte) :
    BitVec.ofNat 32 (leNat [b0, b1, b2, b3]) =
      BitVec.ofNat 32 (b0.toNat + 2 ^ 8 * b1.toNat + 2 ^ 16 * b2.toNat + 2 ^ 24 * b3.toNat) := by
  congr 1
  simp only [leNat]
  omega

/-- A fetch that reaches memory faults on poison where no older copy of the code is held. (The definition is unfolded as a function:
unfolded at its arguments, its match would have the kernel evaluate the whole access.) -/
theorem State.fetchWord_ok {s : State} {p : Word} {k : Nat} {leaf : Dword} {pa : Nat} {held : Bool}
    (ha : s.access s.me.home (s.fetchPtr p k) 4 { fetch := true, tags := false } = .ok leaf pa held) :
    s.fetchWord p k =
      if (s.oldCode (vaOf (s.fetchPtr p k))).isNone && s.sick s.me.home pa (vaOf (s.fetchPtr p k)) then .fault 0x0D
      else .word (s.codeWord leaf pa (vaOf (s.fetchPtr p k))) := by
  have hf : State.fetchWord = State.fetchWord := rfl
  conv_rhs at hf => delta State.fetchWord
  rw [hf]
  dsimp only
  rw [ha]

theorem State.codeWord_of_none {s : State} {leaf : Dword} {pa va : Nat} (ho : s.oldCode va = none) :
    s.codeWord leaf pa va = BitVec.ofNat 32 (leNat (s.view s.me.home leaf pa va 4)) := by
  unfold State.codeWord
  rw [ho]

/-- With an older copy, the word is the present one or that copy's. -/
theorem State.codeWord_of_some {s : State} {leaf : Dword} {pa va : Nat} {l : Line} (ho : s.oldCode va = some l) :
    s.codeWord leaf pa va = BitVec.ofNat 32 (leNat (s.view s.me.home leaf pa va 4)) ∨
    s.codeWord leaf pa va = BitVec.ofNat 32 (leNat (memRead l.data (va % 128) 4)) := by
  unfold State.codeWord
  rw [ho]
  dsimp only
  split
  · exact .inl rfl
  · split
    · exact .inr rfl
    · exact .inl rfl

/-- Settles O6: the bytes are those of the view, and of the copy, at the packet word's place. -/
theorem fetchReadsPacketWords : Obligations.FetchReadsPacketWords := by
  intro s p k leaf pa held at_ word ha
  have hf : s.fetchWord p k = if (s.oldCode (vaOf at_)).isNone && s.sick s.me.home pa (vaOf at_) then .fault 0x0D
      else .word (s.codeWord leaf pa (vaOf at_)) := State.fetchWord_ok ha
  refine ⟨_, _, _, _, rfl, fun ho => ?_, fun l ho => ⟨_, _, _, _, rfl, ?_⟩⟩
  · rw [hf, ho, State.codeWord_of_none ho]
    exact congrArg (fun w => if s.sick s.me.home pa (vaOf at_) = true then Fetch.fault 0x0D else .word w) (ofNat_leNat_four ..)
  · rw [hf, ho]
    exact (State.codeWord_of_some ho).imp (fun h => congrArg Fetch.word (h.trans (ofNat_leNat_four ..)))
      (fun h => congrArg Fetch.word (h.trans (ofNat_leNat_four ..)))

end
end Sys2Proof.Machine
end

