-- ==== Sys2Proof/Proofs/ControlRegisters.lean ====
section
/-!
PROOFS. Proofs/ControlRegisters.lean: what an undisturbed word of `csrr`, `csrw`, `csrs`, `csrc` and `csrwi` does (R118, R119), and what
the registers read (R30).
-/
namespace Sys2Proof.Machine
noncomputable section

/-! ### Register writes -/
/-- What a write of the register with number k does. -/
theorem Regs.csrSet_eq (r : Regs) (k : BitVec 13) (w : Word) : r.csrSet k.toNat w =
    if k = 0x000 then { r with fmode := w &&& 0x1FFF } else if k = 0x001 then { r with fstat := w &&& 0xFF }
    else if k = 0x002 then { r with guard := w &&& 0x3F } else if k = 0x003 then { r with trapcfg := w }
    else if k = 0x004 then { r with trapvec := w } else if k = 0x070 then { r with shdcnt := w }
    else if k = 0x030 then { r with xactl := r.xactl.set 0 (xactlWrite r.xactl[0] w) }
    else if k = 0x031 then { r with xactl := r.xactl.set 1 (xactlWrite r.xactl[1] w) } else r := by
  have hk : k = BitVec.ofNat 13 k.toNat := by rw [BitVec.ofNat_toNat, BitVec.setWidth_eq]
  have ne : ∀ j : BitVec 13, (k.toNat = j.toNat → False) → k ≠ j := fun _ h e => h (congrArg BitVec.toNat e)
  unfold Regs.csrSet
  split
  case h_9 h0 h1 h2 h3 h4 h30 h31 h70 =>
    exact ((if_neg (ne 0x000 h0)).trans <| (if_neg (ne 0x001 h1)).trans <| (if_neg (ne 0x002 h2)).trans <| (if_neg (ne 0x003 h3)).trans <|
      (if_neg (ne 0x004 h4)).trans <| (if_neg (ne 0x070 h70)).trans <| (if_neg (ne 0x030 h30)).trans (if_neg (ne 0x031 h31))).symm
  all_goals
    next h =>
    rw [h] at hk
    subst hk
    rfl
/-- A number that is not RW writes nothing (R7). -/
theorem Regs.csrSet_of_not_rw {n : Nat} (r : Regs) (w : Word) (h : n ∉ [0x000, 0x001, 0x002, 0x003, 0x004, 0x030, 0x031, 0x070]) :
    r.csrSet n w = r := by
  unfold Regs.csrSet
  split
  case h_9 => rfl
  all_goals exact absurd (by decide) h
/-- No write installs or removes a loop. -/
theorem Regs.csrSet_lactive (r : Regs) (n : Nat) (w : Word) : (r.csrSet n w).lactive = r.lactive := by
  unfold Regs.csrSet
  split <;> rfl

theorem satInc_zero (w : Word) : satInc w 0 = w := by
  have := w.isLt
  unfold satInc
  rw [Nat.add_zero, Nat.min_eq_left (by omega), BitVec.ofNat_toNat, BitVec.setWidth_eq]
/-- A word that issues by itself finds no flags or shadow counts of a partner to keep (R43). -/
theorem State.csrWrite_begun (s : State) (i : Instr) (n : Nat) (w : Word) :
    (s.begun i).csrWrite n w = (s.setRegs fun r => r.csrSet n w).withLatch (s.begun i).latch := by
  have hr : ∀ r : Regs, (if n = 0x001 then { r with fstat := r.fstat ||| (0 : Byte).setWidth 32 }
      else if n = 0x070 then { r with shdcnt := satInc r.shdcnt 0 } else r) = r := by
    intro r
    have hz : r.fstat ||| (0 : Byte).setWidth 32 = r.fstat := BitVec.or_zero
    rw [satInc_zero, hz]
    split
    · rfl
    · split <;> rfl
  exact congrArg (fun f : Regs → Regs => (s.setRegs f).withLatch (s.begun i).latch) (funext fun r => hr (r.csrSet n w))

theorem csrWrite_effect {i : Instr} {s : State} {k : BitVec 13} {w : Word} {body : State → State} (hx : exec i s = issueSeq i body s)
    (hb : Issues i s → body (s.begun i) = (s.begun i).csrWrite k.toNat w) : Effect i s 0 (s.setRegs fun r => r.csrSet k.toNat w) := by
  intro hI hF _
  refine issueSeq_goesOn (L := (s.begun i).latch) hx hI ((hb hI).trans (s.csrWrite_begun i _ _))
    ⟨rfl, rfl, rfl, rfl, rfl, rfl, rfl, rfl⟩ ?_ hI.calm hI.ready
    fun l hl => (hF l hl).imp_right (Or.imp_left (Regs.csrSet_lactive ..).trans)
  show s.latch.only = none
  rw [hI.alone]

/-! ### Register reads -/
theorem State.cycleNow_begun {i : Instr} {s : State} (hI : Issues i s) : (s.begun i).cycleNow = s.cycleNow := by
  have hs : (s.begun i).src = s.src := hI.src.symm
  unfold State.cycleNow
  rw [hs]
  rfl
theorem State.csr_begun {i : Instr} {s : State} (hI : Issues i s) (r : Group) (n : Nat) : (s.begun i).csr r n = s.csr r n := by
  unfold State.csr
  rw [State.cycleNow_begun hI]
  rfl

theorem csrr_effect {s t : State} {d : SReg} {k : BitVec 13} {x : Word}
    (hr : Issues (.csrr d k) s → (s.begun (.csrr d k)).csrRead k.toNat = (x, t.withLatch (s.begun (.csrr d k)).latch))
    (hl : t.latch = s.latch) (hd : t.g.debt = s.g.debt) (hs : t.g.status = s.g.status) (hf : ∀ len, Flows s len → Flows t len) :
    Effect (.csrr d k) s 0 (t.setS d x) := by
  intro hI hF _
  obtain ⟨h1, h2, h3, h4⟩ := setS_keeps t d x
  refine issueSeq_goesOn (L := (s.begun (.csrr d k)).latch) (body := fun s => let (x, t) := s.csrRead k.toNat; t.setS d x) rfl hI ?_
    ⟨rfl, rfl, rfl, rfl, rfl, rfl, rfl, rfl⟩ ?_ (h2.trans (hd.trans hI.calm)) (h3.trans (hs.trans hI.ready)) (h4 _ (hf _ hF))
  · show ((s.begun (.csrr d k)).csrRead k.toNat).2.setS d ((s.begun (.csrr d k)).csrRead k.toNat).1 = _
    rw [hr hI]
    exact setS_latch ..
  · rw [h1, hl, hI.alone]

/-- Every register but CYCLE and RETIRED is read without a capture (R119). -/
theorem State.csrRead_plain {s : State} {n : Nat} (h : n < 0x38 ∨ 0x3B < n) : s.csrRead n = (s.csr s.src n, s) := by
  unfold State.csrRead
  split
  case h_5 => rfl
  all_goals omega

/-- The low halves capture the high ones, and the high ones read what was captured (R119). -/
theorem State.csrRead_cycleLo (s : State) : s.csrRead 0x038 =
    (pairLo s.cycleNow, { s with g := { s.g with me := { s.g.me with cycCap := some (pairHi s.cycleNow) } } }) := rfl
theorem State.csrRead_cycleHi (s : State) : s.csrRead 0x039 =
    (s.src.me.cycCap.getD (pairHi s.cycleNow), { s with g := { s.g with me := { s.g.me with cycCap := none } } }) := rfl

theorem controlRegisters_clause : Clause.ControlRegisters := by
  intro s d k v x old into
  have hinto : ∀ w, into w = s.setRegs fun r => r.csrSet k.toNat w := fun w =>
    congrArg s.setRegs (funext fun r => (r.csrSet_eq k w).symm)
  have hold : ∀ {i : Instr}, Issues i s → (s.begun i).csr (s.begun i).src k.toNat = old := fun hI => State.csr_begun hI s.g k.toNat
  refine ⟨?_, ?_, ?_, ?_, fun hk => ?_, fun hk => ?_, fun hk => ?_, fun hk => ?_, fun hk => ?_⟩
  · exact hinto x ▸ csrWrite_effect (body := fun s => s.csrWrite k.toNat (s.src.readS d)) rfl fun _ => rfl
  · refine hinto (old ||| x) ▸ csrWrite_effect (body := fun s => s.csrWrite k.toNat (s.csr s.src k.toNat ||| s.src.readS d)) rfl fun hI => ?_
    rw [hold hI]
    rfl
  · refine hinto (old &&& ~~~x) ▸ csrWrite_effect (body := fun s => s.csrWrite k.toNat (s.csr s.src k.toNat &&& ~~~s.src.readS d)) rfl fun hI => ?_
    rw [hold hI]
    rfl
  · exact hinto (BitVec.ofNat 32 v.toNat) ▸ csrWrite_effect (body := fun s => s.csrWrite k.toNat (v.setWidth 32)) rfl fun _ =>
      congrArg _ (BitVec.ofNat_toNat 32 v).symm
  · exact csrr_effect (fun hI => (State.csrRead_plain hk).trans (congrArg (·, _) (hold hI))) rfl rfl rfl fun _ h => h
  all_goals subst hk
  · refine csrr_effect (fun hI => (State.csrRead_cycleLo _).trans ?_) rfl rfl rfl fun _ h => h
    rw [State.cycleNow_begun hI]
    rfl
  · refine csrr_effect (fun hI => (State.csrRead_cycleHi _).trans ?_) rfl rfl rfl fun _ h => h
    rw [State.cycleNow_begun hI]
    rfl
  · exact csrr_effect (fun _ => rfl) rfl rfl rfl fun _ h => h
  · exact csrr_effect (fun _ => rfl) rfl rfl rfl fun _ h => h

/-! ### Values (R30) -/
theorem Group.divsp_lo (g : Group) : pairLo g.divspNow = BitVec.ofNat 32 (g.divsp.toNat + 48 * (g.depth - 8)) := by
  apply BitVec.eq_of_toNat_eq
  simp only [pairLo, Group.divspNow, BitVec.toNat_setWidth, BitVec.toNat_add, BitVec.toNat_ofNat]
  omega
theorem pairHi_eq_ofNat (x : Dword) : pairHi x = BitVec.ofNat 32 (x.toNat / 2 ^ 32) := by
  apply BitVec.eq_of_toNat_eq
  rw [pairHi, BitVec.toNat_setWidth, BitVec.toNat_ushiftRight, Nat.shiftRight_eq_div_pow, BitVec.toNat_ofNat]
theorem dieOf_val (c : CoreId) : (dieOf c).val = c.val / 128 :=
  Nat.mod_eq_of_lt (by omega)

theorem controlRegisterValues : Clause.ControlRegisterValues := by
  refine ⟨fun s => ?_, fun r n w h => r.csrSet_of_not_rw w h⟩
  have masks : ∀ k : Fin 3, s.csr s.g (0x008 + k.val) = maskWord s.g.faultm k.val ∧ s.csr s.g (0x00B + k.val) = maskWord s.g.dead k.val ∧
      s.csr s.g (0x020 + k.val) = s.g.regs.lc[k] ∧ s.csr s.g (0x023 + k.val) = s.g.regs.lstart[k] ∧
      s.csr s.g (0x026 + k.val) = s.g.regs.lend[k] := by
    intro k
    fin_cases k <;> exact ⟨rfl, rfl, rfl, rfl, rfl⟩
  have shape : ∀ k : Fin 4, s.csr s.g (0x050 + k.val) = s.myLaunch.cmd[2 + k.val] := by
    intro k
    fin_cases k <;> rfl
  exact ⟨masks, rfl, rfl, rfl, rfl, rfl, rfl, rfl, s.g.divsp_lo, pairHi_eq_ofNat _, rfl, (BitVec.ofNat_toNat ..).symm, rfl, rfl, rfl, rfl,
    rfl, rfl, rfl, rfl, rfl, congrArg (BitVec.ofNat 32) (dieOf_val s.g.core), shape, rfl, rfl, rfl, rfl, rfl, rfl, rfl⟩

/-- Settles O41. -/
theorem controlRegisters : Obligations.ControlRegisters := ⟨controlRegisters_clause, controlRegisterValues⟩

end
end Sys2Proof.Machine
end

