-- ==== Sys2Proof/Proofs/FaultRecords.lean ====
section
/-!
PROOFS. Proofs/FaultRecords.lean: what a lane's fault writes, loses and notes (R15, R78, R79), and what `frec` reads (R16).
-/
namespace Sys2Proof.Machine
noncomputable section

/-! ### A record is written or lost -/
theorem pairLo_eq_ofNat (x : Dword) : pairLo x = BitVec.ofNat 32 x.toNat := rfl

/-- With room, the record joins the unread ones. -/
theorem State.writeRecord_of_room {s : State} (cause : Byte) (lane : Nat) (va : Dword) (hm : s.g.method = none)
    (h : s.g.records.length < 128) :
    s.writeRecord cause lane va = { s with g := { s.g with records := s.g.records ++ [s.record cause lane va] } } := by
  unfold State.writeRecord
  rw [hm]
  exact if_pos h
/-- With none, the fault is lost: for the group, for its context and for its partition. -/
theorem State.writeRecord_of_full {s : State} (cause : Byte) (L : Lane) (va : Dword) (hm : s.g.method = none)
    (h : 128 ≤ s.g.records.length) :
    s.writeRecord cause L.val va =
      { (s.updCtx s.myCtx fun c => { c with lostRecords := c.lostRecords + 1 }).countPart
          (ctxPart ((s.updCtx s.myCtx fun c => { c with lostRecords := c.lostRecords + 1 }).ctxDesc s.myCtx)) 24 1 with
        g := { s.g with lost := s.g.lost ||| (1#96 <<< L.val), lostCount := s.g.lostCount + 1 } } := by
  unfold State.writeRecord
  rw [hm]
  refine (if_neg (Nat.not_lt.mpr h)).trans ?_
  dsimp only
  rw [if_pos L.isLt]
  rfl

/-- All that a record, written or lost, can change. -/
theorem State.writeRecord_changes (s : State) (cause : Byte) (lane : Nat) (va : Dword) : ∃ ctxs parts records lost lostCount,
    s.writeRecord cause lane va =
      { s with ctxs := ctxs, parts := parts, g := { s.g with records := records, lost := lost, lostCount := lostCount } } := by
  unfold State.writeRecord
  split
  · exact ⟨_, s.parts, s.g.records, s.g.lost, s.g.lostCount, rfl⟩
  · split
    · exact ⟨s.ctxs, s.parts, _, s.g.lost, s.g.lostCount, rfl⟩
    · exact ⟨_, _, s.g.records, _, _, rfl⟩
/-- What the fault leads to does not depend on what became of its record (R78, R79). -/
theorem State.writeRecord_latch (s : State) (cause : Byte) (lane : Nat) (va : Dword) : (s.writeRecord cause lane va).latch = s.latch := by
  obtain ⟨_, _, _, _, _, h⟩ := s.writeRecord_changes cause lane va
  rw [h]
theorem State.writeRecord_note (s : State) (cause : Byte) (lane : Nat) (va : Dword) (c : Byte) (k : Nat) :
    (s.writeRecord cause lane va).note c k = s.note c k := by
  obtain ⟨_, _, _, _, _, h⟩ := s.writeRecord_changes cause lane va
  rw [h]
  unfold State.note State.src
  cases s.latch.snap <;> rfl

theorem State.raise1_latch (s : State) (cause : Byte) (L : Lane) (va : Dword) :
    (s.raise1 cause L va).latch = { s.latch with faults := s.latch.faults ++ [s.note cause L.val] } := by
  unfold State.raise1
  dsimp only
  rw [State.writeRecord_note, State.writeRecord_latch]
theorem State.raise1_eq_withLatch (s : State) (cause : Byte) (L : Lane) (va : Dword) :
    s.raise1 cause L va = (s.writeRecord cause L.val va).withLatch (s.raise1 cause L va).latch := rfl

/-- A context that is found is found again, changed. -/
theorem State.ctx?_updCtx (s : State) (n : Nat) (f : Ctx → Ctx) (hf : ∀ c, (f c).ctx = c.ctx) :
    (s.updCtx n f).ctx? n = (s.ctx? n).map f := by
  unfold State.ctx? State.updCtx
  induction s.ctxs with
  | nil => rfl
  | cons x xs ih =>
    by_cases hx : x.ctx = n
    · simp [hx, hf]
    · simpa [hx] using ih

/-- R15's eight words, for a group that runs no methods. -/
theorem State.record_words {s : State} (cause : Byte) (lane : Nat) (va : Dword) (hm : s.g.method = none) :
    let r := s.record cause lane va
    r[0] = BitVec.ofNat 32 (cause.toNat + 2 ^ 8 * lane + 2 ^ 15 * s.g.sel.val + 2 ^ 16 * s.depthNow) ∧ r[1] = s.ipc ∧
    r[2] = BitVec.ofNat 32 va.toNat ∧ r[3] = BitVec.ofNat 32 (va.toNat / 2 ^ 32) ∧
    r[4] = BitVec.ofNat 32 (s.g.core.val + 2 ^ 8 * s.g.simd.val + 2 ^ 10 * s.g.gslot.val + 2 ^ 16 * s.myCtx) ∧
    r[5] = BitVec.ofNat 32 s.w.stage.val ∧ r[6] = s.w.linear ∧ r[7] = 0 := by
  have place : placeOf s.g s.myCtx =
      BitVec.ofNat 32 (s.g.core.val + 2 ^ 8 * s.g.simd.val + 2 ^ 10 * s.g.gslot.val + 2 ^ 16 * s.myCtx) := by
    unfold placeOf
    rw [hm]
    exact congrArg (BitVec.ofNat 32) (by omega)
  have plain : ¬s.g.method.isSome = true := by rw [hm]; exact Bool.false_ne_true
  exact ⟨congrArg (BitVec.ofNat 32) (by omega), rfl, pairLo_eq_ofNat va, pairHi_eq_ofNat va, place, if_neg plain, if_neg plain, rfl⟩

theorem faultRecords_clause : Clause.FaultRecords := by
  intro s cause L va hm t
  have ht : t = (s.writeRecord cause L.val va).withLatch t.latch := s.raise1_eq_withLatch cause L va
  refine ⟨s.raise1_latch cause L va, fun h => ?_, fun h => ?_⟩
  · rw [ht, State.writeRecord_of_room cause L.val va hm h]
    exact ⟨rfl, s.record cause L.val va, rfl, State.record_words cause L.val va hm⟩
  · rw [ht, State.writeRecord_of_full cause L va hm h]
    exact ⟨rfl, s.ctx?_updCtx _ _ fun _ => rfl⟩

/-! ### `frec` -/
theorem setSs_latch (s : State) (d : SReg) (ws : List Word) (L : Latch) : (s.withLatch L).setSs d ws = (s.setSs d ws).withLatch L := by
  induction ws generalizing s d with
  | nil => rfl
  | cons w ws ih => exact (congrArg (·.setSs (sreg d 1) ws) (setS_latch s d w L)).trans (ih _ _)
/-- Writes of scalars keep what decides how the issue of their word ends. -/
theorem setSs_keeps (s : State) (d : SReg) (ws : List Word) :
    (s.setSs d ws).latch = s.latch ∧ (s.setSs d ws).g.debt = s.g.debt ∧ (s.setSs d ws).g.status = s.g.status ∧
    ∀ len, Flows s len → Flows (s.setSs d ws) len := by
  induction ws generalizing s d with
  | nil => exact ⟨rfl, rfl, rfl, fun _ h => h⟩
  | cons w ws ih =>
    obtain ⟨h1, h2, h3, h4⟩ := setS_keeps s d w
    obtain ⟨k1, k2, k3, k4⟩ := ih (s.setS d w) (sreg d 1)
    exact ⟨k1.trans h1, k2.trans h2, k3.trans h3, fun len h => k4 len (h4 len h)⟩

/-- A word that leaves other records and lost faults, and then writes scalars. -/
theorem recordRead_effect {i : Instr} {s : State} {d : SReg} {rs : List (Vector Word 8)} {lost : Mask} {ws : List Word}
    {body : State → State} (hx : exec i s = issueSeq i body s)
    (hb : body (s.begun i) = { s.begun i with g := { s.g with records := rs, lost := lost } }.setSs d ws) :
    Effect i s 0 ({ s with g := { s.g with records := rs, lost := lost } }.setSs d ws) := by
  intro hI hF _
  obtain ⟨h1, h2, h3, h4⟩ := setSs_keeps { s with g := { s.g with records := rs, lost := lost } } d ws
  refine issueSeq_goesOn (L := (s.begun i).latch) hx hI (hb.trans (setSs_latch { s with g := _ } d ws _))
    ⟨rfl, rfl, rfl, rfl, rfl, rfl, rfl, rfl⟩ ?_ (h2.trans hI.calm) (h3.trans hI.ready) (h4 _ hF)
  rw [h1]
  show s.latch.only = none
  rw [hI.alone]

theorem exec_frec (d : SReg) (s : State) : exec (.frec d) s = execFrec d s := rfl

theorem recordReads : Clause.RecordReads := by
  intro s d _ _
  refine ⟨fun r rs hr => recordRead_effect (lost := s.g.lost) (exec_frec d s) ?_,
    fun hr => recordRead_effect (rs := s.g.records) (exec_frec d s) ?_⟩
  · have hsrc : (s.begun (.frec d)).src.records = r :: rs := hr
    have htail : s.g.records.tail = rs := congrArg List.tail hr
    dsimp only
    rw [hsrc, ← htail]
    rfl
  · have hsrc : (s.begun (.frec d)).src.records = [] := hr
    have hlost : s.g.lost &&& ~~~s.g.lost = 0 := BitVec.and_not_self s.g.lost
    dsimp only
    rw [hsrc, ← hlost]
    rfl

/-- Settles O36, by whether the group has room for a record, and by whether one stands unread. -/
theorem faultRecords : Obligations.FaultRecords := ⟨faultRecords_clause, recordReads⟩

end
end Sys2Proof.Machine
end

