-- ==== Sys2Proof/Proofs/FaultActions.lean ====
section
/-!
PROOFS. Proofs/FaultActions.lean: what TRAPCFG says of a cause (R32), what the faults of an issue lead to (R79, R80), and the faults of
words and packets that are no instructions (R41, R47-R49).
-/
namespace Sys2Proof.Machine
noncomputable section

/-! ### TRAPCFG -/
theorem actionOf_eq (cfg : Word) (c : Byte) : actionOf cfg c = cfg.toNat / 2 ^ classShift c % 4 := by
  unfold actionOf
  rw [wbits_eq, show classShift c + 1 + 1 - classShift c = 2 by omega]
  norm_num
/-- The causes that R32 puts into a class select the class's two bits. -/
theorem actionOf_class {cfg : Word} {c : Byte} {k : Nat} (h : classShift c = 2 * k) : actionOf cfg c = cfg.toNat / 4 ^ k % 4 := by
  rw [actionOf_eq, h, pow_mul]
  norm_num

/-! ### Acting on faults -/
theorem State.kill_zero (s : State) : s.kill 0 = s := if_pos rfl
theorem State.haltFor_cause (s : State) (pc : Word) (c : Byte) :
    s.haltFor pc (causeWord c) = (s.setRegs fun r => { r with trappc := pc, trapcause := causeWord c }).haltGroup 2 pc (causeWord c) := by
  have h : (causeWord c).getLsbD 31 = false := by
    unfold causeWord
    rw [BitVec.getLsbD_setWidth, BitVec.getLsbD_of_ge c 31 (by decide)]
    rfl
  unfold State.haltFor
  rw [h]
  rfl

theorem State.actOn_of_halt {s : State} {l : List FaultNote} {n : FaultNote} (soft : Option (Word × Word))
    (h : l.find? (fun n => decide (2 ≤ n.act)) = some n) : s.actOn l soft = s.faultHalt n := by
  unfold State.actOn
  rw [show (l.find? fun n => decide (n.act ≥ 2)) = some n from h]
theorem State.actOn_of_trap {s : State} {l : List FaultNote} {n : FaultNote} (soft : Option (Word × Word))
    (h : l.find? (fun n => decide (2 ≤ n.act)) = none) (h0 : l.find? (fun n => decide (n.act = 0)) = some n) :
    s.actOn l soft = s.enterTrap n.ipc (causeWord n.cause) := by
  unfold State.actOn
  rw [show (l.find? fun n => decide (n.act ≥ 2)) = none from h, h0]
theorem State.actOn_of_kill {s : State} {l : List FaultNote} (h : ∀ n ∈ l, n.act = 1) : s.actOn l none = s := by
  have h2 : (l.find? fun n => decide (n.act ≥ 2)) = none := List.find?_eq_none.mpr fun n hn => by simp [h n hn]
  have h0 : (l.find? fun n => decide (n.act = 0)) = none := List.find?_eq_none.mpr fun n hn => by simp [h n hn]
  unfold State.actOn
  rw [h2, h0]

/-- Outside a handler the lanes whose class says kill die first; a group that is not retired by that acts on the rest (R79). -/
theorem State.act_outside {s : State} {l : List FaultNote} (hl : l ≠ [])
    (hv : (s.kill (noteMask (l.filter fun n => n.act = 1))).g.status ≠ .retired) :
    s.act false { faults := l } = (s.kill (noteMask (l.filter fun n => n.act = 1))).actOn l none := by
  have hp : s.g.poisonHalt ||| 0 = s.g.poisonHalt := BitVec.or_zero
  have hm : (0 : Mask) ||| noteMask (l.filter fun n => n.act = 1) = noteMask (l.filter fun n => n.act = 1) := BitVec.zero_or
  unfold State.act
  simp only [List.isEmpty_eq_false_iff.mpr hl, Bool.false_and, Bool.false_eq_true, if_false, hp, hm, if_neg hv]
/-- Inside a handler the first fault is DOUBLE (R80). -/
theorem State.act_inside {s : State} {l : List FaultNote} {n : FaultNote} (hn : l.head? = some n) (hs : s.g.status ≠ .retired) :
    s.act true { faults := l } = s.doubleFault n.ipc (causeWord n.cause) := by
  have hp : s.g.poisonHalt ||| 0 = s.g.poisonHalt := BitVec.or_zero
  have hm : (0 : Mask) ||| 0 = 0 := BitVec.or_zero
  obtain ⟨ms, rfl⟩ := List.head?_eq_some_iff.mp hn
  unfold State.act
  simp only [List.isEmpty_cons, Bool.false_and, Bool.false_eq_true, if_false, if_true, hp, hm, State.kill_zero, if_neg hs]

/-! ### The order of faults -/
/-- No fault of the list stands after a later one: issue order, and lane order within a word (R79). -/
def NotesSorted (l : List FaultNote) : Prop := l.Pairwise fun a b => ¬(b.no < a.no ∨ b.no = a.no ∧ b.lane < a.lane)
theorem FaultNote.before_iff (a b : FaultNote) : a.before b = true ↔ a.no < b.no ∨ a.no = b.no ∧ a.lane < b.lane := by
  simp [FaultNote.before]
theorem mem_insertNote (n m : FaultNote) (l : List FaultNote) : m ∈ insertNote n l ↔ m = n ∨ m ∈ l := by
  induction l with
  | nil => exact List.mem_cons
  | cons x xs ih =>
    unfold insertNote
    split
    · exact List.mem_cons
    · rw [List.mem_cons, ih, List.mem_cons]
      exact or_left_comm
theorem insertNote_sorted {n : FaultNote} {l : List FaultNote} (h : NotesSorted l) : NotesSorted (insertNote n l) := by
  induction l with
  | nil => exact List.pairwise_singleton ..
  | cons x xs ih =>
    obtain ⟨hx, hxs⟩ := List.pairwise_cons.mp h
    unfold insertNote
    split
    case isTrue hb =>
      rw [FaultNote.before_iff] at hb
      refine List.pairwise_cons.mpr ⟨fun b hm => ?_, h⟩
      obtain rfl | hm := List.mem_cons.mp hm
      · omega
      · have := hx b hm
        omega
    case isFalse hb =>
      rw [FaultNote.before_iff] at hb
      refine List.pairwise_cons.mpr ⟨fun b hm => ?_, ih hxs⟩
      obtain rfl | hm := (mem_insertNote ..).mp hm
      · exact hb
      · exact hx b hm
theorem mem_foldl_insertNote (m : FaultNote) (new l : List FaultNote) :
    m ∈ new.foldl (fun d n => insertNote n d) l ↔ m ∈ l ∨ m ∈ new := by
  induction new generalizing l with
  | nil => simp
  | cons x xs ih =>
    rw [List.foldl_cons, ih, mem_insertNote, List.mem_cons, or_assoc, or_left_comm]
theorem foldl_insertNote_sorted (new : List FaultNote) {l : List FaultNote} (h : NotesSorted l) :
    NotesSorted (new.foldl (fun d n => insertNote n d) l) := by
  induction new generalizing l with
  | nil => exact h
  | cons x xs ih => exact ih (insertNote_sorted h)

theorem faultActions_clause : Clause.FaultActions := by
  refine ⟨fun cfg c hc => actionOf_class ?_, ?_⟩
  · revert c
    decide
  · rintro s d l rfl - hl
    refine ⟨fun hv => ⟨fun n hn => ?_, fun hn n h0 => ?_, fun hk => ?_⟩, fun hs n hn => ?_, fun x => ⟨fun n => ?_, fun h => ?_⟩⟩
    · rw [State.act_outside hl hv, State.actOn_of_halt none hn]
      exact State.haltFor_cause _ n.ipc n.cause
    · rw [State.act_outside hl hv, State.actOn_of_trap none hn h0]
      rfl
    · rw [State.act_outside hl hv, State.actOn_of_kill hk]
    · rw [State.act_inside hn hs]
      rfl
    · exact mem_foldl_insertNote n x.faults l
    · exact foldl_insertNote_sorted x.faults h

/-! ### Words and packets that are no instructions -/
theorem exec_illegalWord (s : State) : exec .illegalWord s = execIllegalWord s := rfl
theorem exec_illegalPacket (k : Fin 3) (s : State) : exec (.illegalPacket k) s = execIllegalPacket k s := rfl
theorem exec_fetchFault (fatal : Bool) (s : State) : exec (.fetchFault fatal) s = execFetchFault fatal s := rfl
theorem exec_poolGuard (x : BitVec 25) (s : State) : exec (.poolGuard x) s = execPoolGuard x s := rfl

theorem State.canIssue_of_ready {s : State} (hL : s.latch = {}) (hl : s.g.me.leaf.isSome = true) (hr : s.g.status = .ready) :
    s.canIssue = true := by
  unfold State.canIssue State.src
  rw [hL, hr]
  simpa using hl
theorem State.lanes_false {s : State} (hL : s.latch = {}) : s.lanes false = s.g.amask := by
  unfold State.lanes State.src
  rw [hL]
  exact BitVec.and_allOnes
theorem State.fetchFault_eq {s : State} (hL : s.latch = {}) (c : Byte) (hc : c ≠ 0x0D) :
    s.fetchFault c = (s.raise c s.g.amask).leave.closeIssue := by
  unfold State.fetchFault
  rw [if_neg hc, State.lanes_false hL]

/-- Raising a cause adds faults to the latch and no more. -/
theorem State.raise_latch (s : State) (c : Byte) (m : Mask) : ∃ fs, (s.raise c m).latch = { s.latch with faults := fs } := by
  unfold State.raise
  generalize lanesOf m = ls
  induction ls generalizing s with
  | nil => exact ⟨s.latch.faults, rfl⟩
  | cons L ls ih =>
    obtain ⟨fs, h⟩ := ih (s.raise1 c L 0)
    refine ⟨fs, ?_⟩
    rw [List.foldl_cons, h, State.raise1_latch]
/-- A word that is neither a replay nor skipped counts in RETIRED (R396). -/
theorem State.countRetired_raise {s : State} (hL : s.latch = {}) (c : Byte) (m : Mask) :
    (s.raise c m).countRetired = (s.raise c m).setRegs fun r => { r with retired := r.retired + 1 } := by
  obtain ⟨fs, h⟩ := s.raise_latch c m
  unfold State.countRetired
  rw [h, hL]
  rfl

theorem noInstructionFaults : Clause.NoInstructionFaults := by
  intro s k x hL hl hr
  have hc : s.canIssue = true := State.canIssue_of_ready hL hl hr
  have hm : s.lanes false = s.g.amask := State.lanes_false hL
  have hlen : s.latch.len = 1 := by rw [hL]
  refine ⟨?_, ?_, ?_, ?_, _, ?_, rfl⟩
  · rw [exec_illegalWord, execIllegalWord, if_pos hc, hlen, State.illegalWord, hm, State.countRetired_raise hL]
  · rw [exec_poolGuard, execPoolGuard, if_pos hc, hm]
  · rw [exec_fetchFault, execFetchFault, if_pos hc, if_neg Bool.false_ne_true, State.fetchFault_eq hL _ (by decide)]
  · rw [exec_fetchFault, execFetchFault, if_pos hc, if_pos rfl, State.fetchFault_eq hL _ (by decide)]
  · rw [exec_illegalPacket, execIllegalPacket, if_pos hc, hm]
    rfl

/-- Settles O37, by what the first fault's class says, and by the cases of `no instruction`. -/
theorem faultActions : Obligations.FaultActions := ⟨faultActions_clause, noInstructionFaults⟩

end
end Sys2Proof.Machine
end

