-- ==== Sys2Proof/Proofs/IssueSteps.lean ====
section
/-!
PROOFS. Proofs/IssueSteps.lean: what the issue logic does of itself: forced leaves (R68), turns (R185, R186), the ends of waits (R27, R29,
R110, R117), boosts (R272) and replays (R82).
-/
namespace Sys2Proof.Machine
noncomputable section

/-! ### The issuing slot -/
@[simp] theorem Group.select_sel (g : Group) (k : Fin 2) : (g.select k).sel = k := by
  unfold Group.select
  split
  case isTrue h => exact h.symm
  case isFalse => rfl
theorem Group.select_me (g : Group) (k : Fin 2) : (g.select k).me = g.slot k := by
  unfold Group.select Group.slot
  split <;> rfl
/-- What a slot holds does not depend on which one issues. -/
@[simp] theorem Group.slot_select (g : Group) (k j : Fin 2) : (g.select k).slot j = g.slot j := by
  by_cases hk : k = g.sel
  · unfold Group.select
    rw [if_pos hk]
  · unfold Group.select Group.slot
    rw [if_neg hk]
    by_cases hj : j = k
    · rw [if_pos hj, if_neg fun e => hk (hj.symm.trans e)]
    · rw [if_neg hj, if_pos (show j = g.sel by omega)]
/-- Selecting a slot leaves everything but the slots. -/
theorem Group.select_rest (g : Group) (k : Fin 2) : (g.select k).entries = g.entries ∧ (g.select k).regs = g.regs ∧
    (g.select k).dead = g.dead ∧ (g.select k).exited = g.exited := by
  unfold Group.select
  split <;> exact ⟨rfl, rfl, rfl, rfl⟩
/-- Which leaves wait for a slot is a matter of the entries that hold none. -/
theorem Group.waiting_of_entries {g h : Group} (e : g.entries = h.entries) : g.waiting = h.waiting := by
  unfold Group.waiting Group.afterTrap Group.saved Group.openTrap
  rw [e]
theorem Group.waiting_select (g : Group) (k : Fin 2) : (g.select k).waiting = g.waiting :=
  Group.waiting_of_entries (g.select_rest k).1

/-! ### A forced leaf (R68) -/
/-- The oldest waiting leaf takes the issuing slot, and that slot's leaf waits in its place. -/
theorem Group.swapIn_spec {g : Group} {l w : Entry} (now : Nat) (hl : g.me.leaf = some l) (hw : oldest g.waiting = some w) :
    (g.swapIn now).me.leaf = some { w with age := 0 } ∧ (g.swapIn now).mate = g.mate ∧ (g.swapIn now).sel = g.sel ∧
    (g.swapIn now).entries = g.entries.filter (fun e => e.id ≠ w.id) ++ [{ l with age := 0 }] ∧
    (g.swapIn now).regs = g.regs ∧ (g.swapIn now).dead = g.dead ∧ (g.swapIn now).exited = g.exited := by
  unfold Group.swapIn
  rw [hl, hw]
  exact ⟨rfl, rfl, rfl, rfl, rfl, rfl, rfl⟩
theorem Group.force_eq {g : Group} {w : Entry} {k : Fin 2} (now : Nat) (hw : oldest g.waiting = some w)
    (hk : k = 1 ↔ (g.slot 1).since < (g.slot 0).since) :
    g.force now = if w.age < 512 then g else ((g.select k).swapIn now).select g.sel := by
  have e : (if (g.slot 1).since < (g.slot 0).since then 1 else 0 : Fin 2) = k := by
    split
    case isTrue h => exact (hk.mpr h).symm
    case isFalse h => exact (show k = 0 by have := mt hk.mp h; omega).symm
  unfold Group.force
  rw [hw]
  dsimp only
  rw [e]

theorem forced_leaf (g : Group) (w l : Entry) (now : Nat) (k : Fin 2) (hw : oldest g.waiting = some w)
    (hk : k = 1 ↔ (g.slot 1).since < (g.slot 0).since) (hl : (g.slot k).leaf = some l) :
    (w.age < 512 → g.force now = g) ∧
    (512 ≤ w.age → ((g.force now).slot k).leaf = some { w with age := 0 } ∧ (g.force now).slot (1 - k) = g.slot (1 - k) ∧
      (g.force now).sel = g.sel ∧ (g.force now).entries = g.entries.filter (fun e => e.id ≠ w.id) ++ [{ l with age := 0 }] ∧
      (g.force now).regs = g.regs ∧ (g.force now).dead = g.dead ∧ (g.force now).exited = g.exited) := by
  rw [Group.force_eq now hw hk]
  refine ⟨fun h => if_pos h, fun h => ?_⟩
  rw [if_neg (by omega)]
  obtain ⟨he, hr, hd, hx⟩ := g.select_rest k
  obtain ⟨ume, umate, usel, ue, ur, ud, ux⟩ := Group.swapIn_spec (g := g.select k) (l := l) (w := w) now
    ((congrArg Slot.leaf (g.select_me k)).trans hl) ((congrArg oldest (g.waiting_select k)).trans hw)
  generalize (g.select k).swapIn now = u at *
  obtain ⟨ve, vr, vd, vx⟩ := u.select_rest g.sel
  have hs : k = u.sel := (usel.trans (g.select_sel k)).symm
  have hmine : u.slot k = u.me := if_pos hs
  have hother : u.slot (1 - k) = u.mate := if_neg (by omega)
  have hmate : (g.select k).slot (1 - k) = (g.select k).mate := if_neg (by rw [Group.select_sel]; omega)
  refine ⟨?_, ?_, u.select_sel _, ve.trans (ue.trans ?_), vr.trans (ur.trans hr), vd.trans (ud.trans hd), vx.trans (ux.trans hx)⟩
  · rw [Group.slot_select, hmine, ume]
  · rw [Group.slot_select, hother, umate, ← hmate, Group.slot_select]
  · rw [he]

/-! ### The turn of a rotation (R185, R186) -/
theorem foldl_min_mem (a : Nat) (l : List Nat) : l.foldl min a ∈ a :: l := List.min?_mem List.min?_cons'
theorem foldl_min_le (a : Nat) (l : List Nat) {n : Nat} (h : n ∈ a :: l) : l.foldl min a ≤ n :=
  (List.min?_eq_some_iff.mp (List.min?_cons' (x := a) (xs := l))).2 n h

/-- The next index after `i` is the lowest above it, or, where there is none, the lowest of all. -/
theorem nextAfter_spec {l : List Nat} (hl : l ≠ []) (i : Nat) : nextAfter l i ∈ l ∧
    (∀ n ∈ l, i < n → i < nextAfter l i ∧ nextAfter l i ≤ n) ∧ (nextAfter l i ≤ i → ∀ n ∈ l, nextAfter l i ≤ n) := by
  cases hf : l.filter (fun j => decide (i < j)) with
  | nil =>
    obtain ⟨b, bs, rfl⟩ := List.exists_cons_of_ne_nil hl
    have e : nextAfter (b :: bs) i = bs.foldl min b := by
      unfold nextAfter
      rw [hf, List.headD_cons, List.foldl_cons, min_self]
    have hlow : ∀ n ∈ b :: bs, ¬ i < n := fun n hn h => by
      have : n ∈ (b :: bs).filter fun j => decide (i < j) := List.mem_filter.mpr ⟨hn, decide_eq_true h⟩
      rw [hf] at this
      exact absurd this List.not_mem_nil
    rw [e]
    exact ⟨foldl_min_mem b bs, fun n hn h => absurd h (hlow n hn), fun _ n hn => foldl_min_le b bs hn⟩
  | cons a as =>
    have e : nextAfter l i = as.foldl min a := by
      unfold nextAfter
      rw [hf]
    have hm : as.foldl min a ∈ l.filter fun j => decide (i < j) := hf ▸ foldl_min_mem a as
    obtain ⟨hmem, hgt⟩ := List.mem_filter.mp hm
    have hgt : i < as.foldl min a := of_decide_eq_true hgt
    rw [e]
    refine ⟨hmem, fun n hn h => ⟨hgt, foldl_min_le a as ?_⟩, fun h => absurd hgt (by omega)⟩
    rw [← hf]
    exact List.mem_filter.mpr ⟨hn, decide_eq_true h⟩

theorem State.mem_rotation (s : State) (w : Workgroup) (n : Nat) : n ∈ (s.rotationOf w).map (·.gidx) ↔ s.liveIndex w n := by
  unfold State.rotationOf State.liveIndex
  simp only [List.mem_map, List.mem_filter, Bool.and_eq_true, decide_eq_true_eq]
  exact exists_congr fun g => by tauto
theorem State.turnGidx_eq (s : State) (w : Workgroup) : s.turnGidx w =
    if w.rotation ∈ (s.rotationOf w).map (·.gidx) then w.rotation else nextAfter ((s.rotationOf w).map (·.gidx)) w.rotation := by
  unfold State.turnGidx
  simp only [List.contains_iff_mem]

theorem turns (s : State) (w : Workgroup) (i : Nat) (hw : ∃ n, s.liveIndex w n) :
    let k := nextAfter ((s.rotationOf w).map (·.gidx)) i
    s.liveIndex w k ∧ (∀ n, s.liveIndex w n → i < n → i < k ∧ k ≤ n) ∧ (k ≤ i → ∀ n, s.liveIndex w n → k ≤ n) ∧
    (s.liveIndex w w.rotation → s.turnGidx w = w.rotation) ∧
    (¬s.liveIndex w w.rotation → s.turnGidx w = nextAfter ((s.rotationOf w).map (·.gidx)) w.rotation) := by
  obtain ⟨n, hn⟩ := hw
  obtain ⟨h1, h2, h3⟩ := nextAfter_spec (List.ne_nil_of_mem ((s.mem_rotation w n).mpr hn)) i
  simp only [s.mem_rotation] at h1 h2 h3
  rw [s.turnGidx_eq]
  exact ⟨h1, h2, h3, fun h => if_pos ((s.mem_rotation w _).mpr h), fun h => if_neg (mt (s.mem_rotation w _).mp h)⟩

/-! ### Ends of waits (R27, R29, R117) -/
theorem Entry.endWait_of_ne {w : Wait} (h : w ≠ .ticket) (l : Entry) : l.endWait w = { l with
    wait := if l.wait = w then .granted else l.wait, wait2 := if l.wait2 = w then .granted else l.wait2 } := by
  unfold Entry.endWait
  simp only [if_neg h]
theorem Entry.waitsIn_iff (l : Entry) (w : Wait) : l.waitsIn (· = w) = true ↔ l.wait = w ∨ l.wait2 = w := by
  simp [Entry.waitsIn]

/-- A word of the leaf in slot j waits for w. -/
def Group.slotWaits (g : Group) (w : Wait) (j : Fin 2) : Prop := ∃ l, (g.slot j).leaf = some l ∧ (l.wait = w ∨ l.wait2 = w)
theorem Group.slotWaits_iff (g : Group) (w : Wait) (j : Fin 2) :
    g.slotWaits w j ↔ (g.slot j).leaf.any (Entry.waitsIn (· = w)) = true := by
  unfold Group.slotWaits
  simp only [Option.any_eq_true, Entry.waitsIn_iff]
theorem Group.waitsIn_iff (g : Group) (w : Wait) : g.waitsIn (· = w) = true ↔ ∃ j, g.slotWaits w j := by
  have hme : g.slot g.sel = g.me := if_pos rfl
  have hmate : g.slot (1 - g.sel) = g.mate := if_neg (by omega)
  unfold Group.waitsIn
  rw [Bool.or_eq_true, ← hme, ← hmate, ← slotWaits_iff, ← slotWaits_iff]
  refine ⟨fun h => h.elim (⟨_, ·⟩) (⟨_, ·⟩), fun ⟨j, h⟩ => ?_⟩
  by_cases hj : j = g.sel
  · exact .inl (hj ▸ h)
  · exact .inr ((show j = 1 - g.sel by omega) ▸ h)
theorem Group.waitingSlot_eq_zero {g : Group} {w : Wait} (h : g.slotWaits w 0) : g.waitingSlot w = 0 :=
  if_pos ((g.slotWaits_iff w 0).mp h)
theorem Group.waitingSlot_eq_one {g : Group} {w : Wait} (h : ¬g.slotWaits w 0) : g.waitingSlot w = 1 :=
  if_neg (mt (g.slotWaits_iff w 0).mpr h)
theorem Group.slotWaits_waitingSlot {g : Group} {w : Wait} (h : ∃ j, g.slotWaits w j) : g.slotWaits w (g.waitingSlot w) := by
  by_cases h0 : g.slotWaits w 0
  · rwa [Group.waitingSlot_eq_zero h0]
  · rw [Group.waitingSlot_eq_one h0]
    obtain ⟨j, hj⟩ := h
    have : j ≠ 0 := fun e => h0 (e ▸ hj)
    rwa [show j = 1 by omega] at hj
theorem Group.growing_iff (g : Group) : g.growing = true ↔ g.regs.extb = false ∧ ∃ j, g.slotWaits .grow j := by
  unfold Group.growing
  rw [Bool.and_eq_true, g.waitsIn_iff, Bool.not_eq_true']

/-- The first admitted of a list. -/
theorem foldl_admitted (g : Group) (gs : List Group) :
    let o := gs.foldl (fun a b => if b.admitted < a.admitted then b else a) g
    o ∈ g :: gs ∧ ∀ h ∈ g :: gs, o.admitted ≤ h.admitted := by
  induction gs generalizing g with
  | nil => exact ⟨List.mem_singleton.mpr rfl, fun h hh => (List.mem_singleton.mp hh) ▸ le_refl _⟩
  | cons x xs ih =>
    obtain ⟨hm, hle⟩ := ih (if x.admitted < g.admitted then x else g)
    have hx : (if x.admitted < g.admitted then x else g).admitted ≤ g.admitted ∧
        (if x.admitted < g.admitted then x else g).admitted ≤ x.admitted := by
      split <;> exact ⟨by omega, by omega⟩
    have h0 := hle _ List.mem_cons_self
    refine ⟨?_, fun h hh => ?_⟩
    · obtain e | hm := List.mem_cons.mp hm
      · rw [List.foldl_cons, e]
        split
        · exact List.mem_cons_of_mem _ List.mem_cons_self
        · exact List.mem_cons_self
      · exact List.mem_cons_of_mem _ (List.mem_cons_of_mem _ hm)
    · obtain rfl | hh := List.mem_cons.mp hh
      · exact h0.trans hx.1
      · obtain rfl | hh := List.mem_cons.mp hh
        · exact h0.trans hx.2
        · exact hle h (List.mem_cons_of_mem _ hh)

/-! ### The steps -/
theorem exec_ageForce (gid : Nat) (s : State) : exec (.ageForce gid) s = execAgeForce gid s := rfl
theorem exec_turnPass (s : State) : exec .turnPass s = execTurnPass s := rfl
theorem exec_sleepExpiry (gid : Nat) (k : Fin 2) (s : State) : exec (.sleepExpiry gid k) s = .next (s.endWait gid k .sleep) := rfl
theorem exec_vgrowGrant (core : CoreId) (simd : Fin 4) (s : State) : exec (.vgrowGrant core simd) s = execVgrowGrant core simd s := rfl
theorem exec_vshrinkRelease (gid : Nat) (s : State) : exec (.vshrinkRelease gid) s = execVshrinkRelease gid s := rfl
theorem exec_pageFaultReplay (gid : Nat) (s : State) : exec (.pageFaultReplay gid) s = execPageFaultReplay gid s := rfl

theorem exec_ageForce_of_group {s : State} {gid : Nat} {g : Group} (hg : s.group? gid = some g) :
    exec (.ageForce gid) s =
      .next (if g.status = .ready ∧ stageDet (s.stageOf g) = false then s.updGroup gid fun g => g.force s.fresh else s) := by
  rw [exec_ageForce, execAgeForce, hg]
  dsimp only
  by_cases h : g.status = .ready ∧ stageDet (s.stageOf g) = false
  · rw [if_pos h, if_pos (by rw [h.1, h.2]; rfl)]
  · rw [if_neg h, if_neg]
    simpa using h

/-- A group that holds the block already waits for none (R29). -/
theorem exec_vgrowGrant_of_held {s : State} {core : CoreId} {simd : Fin 4}
    (h : ∃ g ∈ s.onUnit core simd, g.regs.extb = true ∧ ∃ j, g.slotWaits .grow j) :
    ∃ g ∈ s.onUnit core simd, g.regs.extb = true ∧ ∃ j, g.slotWaits .grow j ∧
      exec (.vgrowGrant core simd) s = .next (s.endWait g.gid j .grow) := by
  rw [exec_vgrowGrant, execVgrowGrant]
  cases hf : (s.onUnit core simd).find? fun g => g.regs.extb && g.waitsIn (· = .grow) with
  | none =>
    obtain ⟨g, hm, hx, hw⟩ := h
    exact absurd (by rw [hx, (g.waitsIn_iff _).mpr hw]; rfl) (List.find?_eq_none.mp hf g hm)
  | some g =>
    have hb := List.find?_some hf
    obtain ⟨hx, hw⟩ := Bool.and_eq_true_iff.mp hb
    exact ⟨g, List.mem_of_find?_eq_some hf, hx, _, Group.slotWaits_waitingSlot ((g.waitsIn_iff _).mp hw), rfl⟩
/-- A free block goes to the group that was admitted first (R27). -/
theorem exec_vgrowGrant_of_free {s : State} {core : CoreId} {simd : Fin 4}
    (h : ¬∃ g ∈ s.onUnit core simd, g.regs.extb = true ∧ ∃ j, g.slotWaits .grow j) (hfree : 0 < s.freeBlocks core simd)
    (hg : ∃ g ∈ s.onUnit core simd, g.growing = true) :
    ∃ (o : Group) (j : Fin 2), o ∈ s.onUnit core simd ∧ o.growing = true ∧ o.slotWaits .grow j ∧
      (∀ g ∈ s.onUnit core simd, g.growing = true → o.admitted ≤ g.admitted) ∧
      exec (.vgrowGrant core simd) s =
        .next ((s.updGroup o.gid fun g => { g with regs := g.regs.grow }).endWait o.gid j .grow) := by
  have hf : ((s.onUnit core simd).find? fun g => g.regs.extb && g.waitsIn (· = .grow)) = none :=
    List.find?_eq_none.mpr fun g hm hx => by
      obtain ⟨hx, hw⟩ := Bool.and_eq_true_iff.mp hx
      exact h ⟨g, hm, hx, (g.waitsIn_iff _).mp hw⟩
  cases hl : (s.onUnit core simd).filter Group.growing with
  | nil =>
    obtain ⟨g, hm, hgr⟩ := hg
    exact absurd (List.mem_filter.mpr ⟨hm, hgr⟩) (hl ▸ List.not_mem_nil)
  | cons x xs =>
    obtain ⟨hm, hle⟩ := foldl_admitted x xs
    rw [← hl] at hm hle
    obtain ⟨hon, hgr⟩ := List.mem_filter.mp hm
    refine ⟨_, _, hon, hgr, Group.slotWaits_waitingSlot ((Group.growing_iff _).mp hgr).2, fun g hg hgr =>
      hle g (List.mem_filter.mpr ⟨hg, hgr⟩), ?_⟩
    rw [exec_vgrowGrant, execVgrowGrant, hf]
    dsimp only
    rw [if_neg (by omega), hl]

theorem exec_vshrinkRelease_of_idle {s : State} {gid : Nat} {k : Fin 2} {g : Group} (hg : s.group? gid = some g)
    (hw : g.slotWaits .shrink k) (hk : k = 1 → ¬g.slotWaits .shrink 0) (hb : (g.select k).mateBusy = false) (hp : g.parked = []) :
    exec (.vshrinkRelease gid) s =
      .next ((s.updGroup gid fun g => { g with regs := { g.regs with extb := false } }).endWait gid k .shrink) := by
  have hs : g.waitingSlot .shrink = k := by
    by_cases h0 : k = 0
    · exact h0 ▸ Group.waitingSlot_eq_zero (h0 ▸ hw)
    · have h1 : k = 1 := by omega
      exact h1 ▸ Group.waitingSlot_eq_one (hk h1)
  have hp' : (g.select k).parked = [] := by
    unfold Group.select
    split
    · exact hp
    · exact hp
  rw [exec_vshrinkRelease, execVshrinkRelease, hg]
  dsimp only
  rw [hs, Group.usesBlock, hb, hp', (g.waitsIn_iff .shrink).mpr ⟨k, hw⟩]
  rfl

theorem exec_pageFaultReplay_of_answered {s : State} {gid : Nat} {g : Group} (hg : s.group? gid = some g) (hs : g.status = .parked)
    (h : ∀ p ∈ g.parked, ∀ r ∈ p.parts, r.state ≠ 0) :
    exec (.pageFaultReplay gid) s = .next ((s.spillIn gid).updGroup gid fun g => { g with status := .ready }) := by
  rw [exec_pageFaultReplay, execPageFaultReplay, hg]
  exact if_pos (by simpa [hs] using h)
theorem exec_pageFaultReplay_of_open {s : State} {gid : Nat} {g : Group} (hg : s.group? gid = some g) {p : Parked} (hp : p ∈ g.parked)
    {r : Replay} (hr : r ∈ p.parts) (h0 : r.state = 0) : exec (.pageFaultReplay gid) s = .next s := by
  rw [exec_pageFaultReplay, execPageFaultReplay, hg]
  refine if_neg fun h => ?_
  obtain ⟨-, h⟩ := Bool.and_eq_true_iff.mp h
  simpa [h0] using List.all_eq_true.mp (List.all_eq_true.mp h p hp) r hr

/-- Settles O55, step by step. -/
theorem issueSteps : Obligations.IssueSteps := by
  refine ⟨forced_leaf, turns, fun s gid k core simd => ⟨fun g hg => exec_ageForce_of_group hg, fun hd => ?_, ?_, rfl, rfl,
    ⟨exec_vgrowGrant_of_held, exec_vgrowGrant_of_free⟩, fun g hg => ⟨fun l hl hw hk hb hp => ?_, fun hs => ⟨?_, ?_⟩⟩⟩⟩
  · rw [exec_turnPass, execTurnPass, if_pos hd]
    rfl
  · rw [exec_sleepExpiry, State.endWait]
    have e : Entry.endWait .sleep = fun l : Entry => { l with
        wait := if l.wait = .sleep then .granted else l.wait, wait2 := if l.wait2 = .sleep then .granted else l.wait2 } :=
      funext fun l => l.endWait_of_ne (by decide)
    unfold Slot.endWait
    rw [e]
  · exact exec_vshrinkRelease_of_idle hg ⟨l, hl, hw⟩ (fun h1 ⟨x, hx, hxw⟩ => by
      obtain ⟨hx1, hx2⟩ := hk h1 x hx
      exact hxw.elim hx1 hx2) hb hp
  · exact exec_pageFaultReplay_of_answered hg hs
  · exact fun p hp r hr h0 => exec_pageFaultReplay_of_open hg hp hr h0

end
end Sys2Proof.Machine
end

