-- ==== Sys2Proof/Proofs/LaunchSteps.lean ====
section
/-!
PROOFS. Proofs/LaunchSteps.lean: launches start, are admitted and complete (R263, R264, R269, R271, R310); workgroups retire (R39) and
restart (R35).
-/
namespace Sys2Proof.Machine
noncomputable section

/-! ### A queue's completed commands (R310) -/
/-- The count rises over numbers of the list, to one that is not there or as far as the fuel goes. -/
theorem settleDone_spec (n c : Nat) (l : List Nat) :
    c ≤ settleDone n c l ∧ (∀ k, c ≤ k → k < settleDone n c l → k ∈ l) ∧ (settleDone n c l ∉ l ∨ settleDone n c l = c + n) := by
  induction n generalizing c with
  | zero => exact ⟨le_refl c, fun k h1 h2 => absurd (h1.trans_lt h2) (lt_irrefl c), .inr rfl⟩
  | succ n ih =>
    unfold settleDone
    by_cases hc : c ∈ l
    · rw [if_pos (List.contains_iff_mem.mpr hc)]
      obtain ⟨h1, h2, h3⟩ := ih (c + 1)
      refine ⟨by omega, fun k hk hk' => ?_, h3.imp_right fun h => by omega⟩
      obtain rfl | hlt := hk.eq_or_lt
      · exact hc
      · exact h2 k hlt hk'
    · rw [if_neg (mt List.contains_iff_mem.mp hc)]
      exact ⟨le_refl c, fun k h1 h2 => absurd (h1.trans_lt h2) (lt_irrefl c), .inl hc⟩
/-- A list of n numbers cannot hold n + 1 of them in a row, so the count ends at a number that is not there. -/
theorem settleDone_not_mem (c : Nat) (l : List Nat) : settleDone l.length c l ∉ l := by
  intro hm
  obtain ⟨-, h2, h3⟩ := settleDone_spec l.length c l
  have he := h3.resolve_left (not_not_intro hm)
  have hsub : List.range' c (l.length + 1) ⊆ l := fun k hk => by
    obtain ⟨h, h'⟩ := List.mem_range'_1.mp hk
    by_cases hlast : k = c + l.length
    · rw [hlast, ← he]
      exact hm
    · exact h2 k h (by omega)
  have := (List.subperm_of_subset List.nodup_range' hsub).length_le
  rw [List.length_range'] at this
  omega

theorem Queue.finish_spec (q : Queue) (n : Nat) (st : Byte) (dead : Bool) :
    let r := q.finish n st dead
    (∀ k, q.completed ≤ k → k < r.completed → k = n ∨ k ∈ q.done) ∧ r.completed ≠ n ∧ r.completed ∉ q.done ∧ q.completed ≤ r.completed ∧
    (∀ k, k ∈ r.done ↔ (k = n ∨ k ∈ q.done) ∧ r.completed < k) ∧ r.status = st ∧ r.started = q.started := by
  obtain ⟨h1, h2, -⟩ := settleDone_spec (n :: q.done).length q.completed (n :: q.done)
  have h3 := settleDone_not_mem q.completed (n :: q.done)
  refine ⟨fun k hk hk' => List.mem_cons.mp (h2 k hk hk'), fun e => h3 (List.mem_cons.mpr (.inl e)),
    fun e => h3 (List.mem_cons_of_mem _ e), h1, fun k => ?_, rfl, rfl⟩
  unfold Queue.finish
  rw [List.mem_filter, List.mem_cons]
  refine and_congr_right fun hk => ?_
  have hne : k ≠ settleDone (n :: q.done).length q.completed (n :: q.done) := fun e => h3 (e ▸ List.mem_cons.mpr hk)
  simp only [decide_eq_true_eq]
  omega

/-! ### The start of a group (R21, R22, R269) -/
theorem newGroup_spec (gid wid gidx : Nat) (core : CoreId) (at_ : Fin 4 × Fin 16) (st : Stage) (area : Nat) (on : Mask) (now : Nat)
    (recs : List (List Word)) (hon : on ≠ 0) :
    let g := newGroup gid wid gidx core at_ st area on now recs
    (∀ k : Fin 60, g.regs.s[k] = if k.val < wbits st.desc[1] 19 16 then st.desc[24 + k.val]?.getD 0 else 0) ∧
    (∀ (r : VReg) (L : Lane), g.regs.v[r][L] = (((recs[L.val]?).getD [])[r.val]?).getD 0) ∧ g.regs.trapcfg = st.desc[8] ∧
    { g.regs with s := Vector.replicate 60 0, v := Vector.replicate 64 (Vector.replicate 96 0), trapcfg := 0 } = { trapcfg := 0 } ∧
    g.me.leaf = some { emask := on, amask := on, pc := st.entry } ∧ g.mate.leaf = none ∧ g.entries = [] ∧ g.exited = ~~~on ∧ g.dead = 0 ∧
    g.status = .ready ∧ g.records = [] ∧ g.gidx = gidx ∧ g.core = core := by
  refine ⟨fun k => ?_, fun r L => ?_, rfl, rfl, ?_, rfl, rfl, rfl, rfl, if_neg hon, rfl, rfl, rfl⟩
  · exact Vector.getElem_ofFn k.isLt
  · show (Vector.ofFn fun r : Fin 64 => Vector.ofFn fun L : Fin 96 => (((recs[L.val]?).getD [])[r.val]?).getD 0)[r.val][L.val] = _
    rw [Vector.getElem_ofFn r.isLt, Vector.getElem_ofFn L.isLt]
  · unfold newGroup
    dsimp only
    rw [if_neg hon]

/-! ### Records for the groups that start (R125, R270) -/
theorem State.groupShares_spec (s : State) (m groups avail : Nat) :
    (s.groupShares m groups avail).sum ≤ avail ∧ (s.groupShares m groups avail).length ≤ groups ∧
    (∀ n ∈ s.groupShares m groups avail, 1 ≤ n ∧ n ≤ 96) ∧ (1 ≤ groups → 1 ≤ avail → s.groupShares m groups avail ≠ []) := by
  induction groups generalizing avail with
  | zero => exact ⟨Nat.zero_le _, le_refl _, fun n hn => absurd hn List.not_mem_nil, fun h => absurd h (by omega)⟩
  | succ g ih =>
    unfold State.groupShares
    by_cases ha : avail = 0
    · rw [if_pos ha]
      exact ⟨Nat.zero_le _, Nat.zero_le _, fun n hn => absurd hn List.not_mem_nil, fun _ h => absurd ha (by omega)⟩
    · rw [if_neg ha]
      have hc := Nat.mod_lt (s.free 7 ((m * 64 + g) * 2 ^ 32 + avail)) (show 0 < min 96 avail by omega)
      generalize s.free 7 ((m * 64 + g) * 2 ^ 32 + avail) % min 96 avail = c at hc
      obtain ⟨h1, h2, h3, -⟩ := ih (avail - (1 + c))
      dsimp only
      refine ⟨?_, ?_, fun n hn => ?_, fun _ _ => List.cons_ne_nil _ _⟩
      · rw [List.sum_cons]
        omega
      · rw [List.length_cons]
        omega
      · obtain rfl | hn := List.mem_cons.mp hn
        · omega
        · exact h3 n hn
/-- Each member of a gang takes no more than there is, and, where there are records for all, at least one. -/
theorem State.gangShares_spec (s : State) {groups : Nat} (hg : 1 ≤ groups) (n avail : Nat) :
    (s.gangShares groups n avail).length = n ∧ ((s.gangShares groups n avail).map List.sum).sum ≤ avail ∧
    (∀ m ∈ s.gangShares groups n avail, m.length ≤ groups ∧ ∀ k ∈ m, 1 ≤ k ∧ k ≤ 96) ∧
    (n ≤ avail → ∀ m ∈ s.gangShares groups n avail, m ≠ []) := by
  induction n generalizing avail with
  | zero => exact ⟨rfl, Nat.zero_le _, fun m hm => absurd hm List.not_mem_nil, fun _ m hm => absurd hm List.not_mem_nil⟩
  | succ n ih =>
    unfold State.gangShares
    obtain ⟨h1, h2, h3, h4⟩ := s.groupShares_spec n groups (if avail > n then avail - n else min 1 avail)
    have hmine : (if avail > n then avail - n else min 1 avail) ≤ avail := by split <;> omega
    have hrest : n + 1 ≤ avail → (if avail > n then avail - n else min 1 avail) = avail - n := fun h => if_pos (by omega)
    generalize (if avail > n then avail - n else min 1 avail) = own at *
    obtain ⟨k1, k2, k3, k4⟩ := ih (avail - (s.groupShares n groups own).sum)
    dsimp only
    refine ⟨congrArg (· + 1) k1, ?_, fun m hm => ?_, fun h m hm => ?_⟩
    · rw [List.map_cons, List.sum_cons]
      omega
    · obtain rfl | hm := List.mem_cons.mp hm
      · exact ⟨h2, h3⟩
      · exact k3 m hm
    · have := hrest h
      obtain rfl | hm := List.mem_cons.mp hm
      · exact h4 hg (by omega)
      · exact k4 (by omega) m hm
theorem State.sharesNow_spec (s : State) (l : Launch) {k : Nat} (hk : k ≠ 0) :
    (s.sharesNow l k).length = stageGang (l.stage k) ∧ ((s.sharesNow l k).map List.sum).sum ≤ (l.stage k).held ∧
    (∀ m ∈ s.sharesNow l k, m.length ≤ stageGroups (l.stage k) ∧ ∀ n ∈ m, 1 ≤ n ∧ n ≤ 96) ∧
    (stageGang (l.stage k) ≤ (l.stage k).held → ∀ m ∈ s.sharesNow l k, m ≠ []) := by
  unfold State.sharesNow
  dsimp only
  rw [if_neg hk]
  exact s.gangShares_spec (Nat.le_add_left 1 _) _ _

/-! ### Starting a launch (R264) -/
theorem exec_launchStart (q : Nat) (s : State) : exec (.launchStart q) s = execLaunchStart q s := rfl
theorem exec_launchComplete (lid : Nat) (s : State) : exec (.launchComplete lid) s = execLaunchComplete lid s := rfl
theorem exec_workgroupAdmit (lid : Nat) (k : Fin 16) (core : CoreId) (s : State) :
    exec (.workgroupAdmit lid k core) s = execWorkgroupAdmit lid k core s := rfl
theorem exec_workgroupRetire (wid : Nat) (s : State) : exec (.workgroupRetire wid) s = execWorkgroupRetire wid s := rfl
theorem exec_regionRestart (wid : Nat) (core : CoreId) (s : State) : exec (.regionRestart wid core) s = execRegionRestart wid core s := rfl

/-- What follows once a command's signals are known and met: the program is read, and the launch starts or ends. -/
def startRead (q : Nat) (l : Launch) (good : Bool) (u : State) : Out :=
  let read := if cmdBad l.cmd || !good then u else u.draftSee (u.who l.ctx 0 0) l.cmd
  let dr := read.draft l.ctx l.cmd good
  let m := { l with hdr := dr.hdr, stages := dr.stages, status := dr.status, targets := dr.targets }
  if dr.status ≠ 0 then .next (read.endLaunch m true)
  else .next ({ read with launches := read.launches ++ [m] }.writeRecordOf q).wake
/-- What follows the read of a command and of the signals it waits for, which has left `r` of the state `s`. -/
def startCommand (s : State) (q : Nat) (x : Queue) (r : State) (cmd : Vector Word 16) : Out :=
  let d := r.ctxDesc x.ctx
  let known := (cmdSignals cmd).all fun i => i < sigCount d
  let met := (cmdWaits cmd).all fun w => leNat (r.devRead (r.who x.ctx 0 0) (sigVa d w.1) 8) ≥ w.2
  if known && !met then .next s
  else
    let t := r.updQueue q fun x => { x with started := x.started + 1 }
    let seen := if known && !(cmdWaits cmd).isEmpty then t.dropEverywhere (r.who x.ctx 0 0) else t
    let l : Launch := { lid := r.fresh, queue := q, num := x.started, ctx := x.ctx, cmd := cmd }
    if !known then .next (seen.endLaunch { l with status := 1 } false)
    else startRead q l (cmd[9] = x.firstSeq + BitVec.ofNat 32 x.started) seen

theorem exec_launchStart_of_consumes {s : State} {k : Nat} {x : Queue} (hx : s.queue? k = some x) (hc : s.consumes x = true) :
    let a := s.arrayReads x.nextAt 64
    let cmd : Vector Word 16 := Vector.ofFn fun j => a.plainWord (x.nextAt + 4 * j.val)
    exec (.launchStart k) s = startCommand s k x (a.commandSee x cmd) cmd := by
  rw [exec_launchStart]
  unfold execLaunchStart
  rw [hx]
  exact if_neg (by rw [hc]; decide)

theorem startCommand_spec (s : State) (k : Nat) (x : Queue) (r : State) (cmd : Vector Word 16) :
    let d := r.ctxDesc x.ctx
    let t := r.updQueue k fun x => { x with started := x.started + 1 }
    let seen := if cmdWaits cmd = [] then t else t.dropEverywhere (r.who x.ctx 0 0)
    let l : Launch := { lid := r.fresh, queue := k, num := x.started, ctx := x.ctx, cmd := cmd }
    let met := ∀ w ∈ cmdWaits cmd, w.2 ≤ leNat (r.devRead (r.who x.ctx 0 0) (sigVa d w.1) 8)
    let known := ∀ i ∈ cmdSignals cmd, i < sigCount d
    (known → ¬met → startCommand s k x r cmd = .next s) ∧
    (¬known → startCommand s k x r cmd = .next (t.endLaunch { l with status := 1 } false)) ∧
    (known → met → startCommand s k x r cmd = startRead k l (cmd[9] = x.firstSeq + BitVec.ofNat 32 x.started) seen) := by
  intro d t seen l met known
  have hmet : ((cmdWaits cmd).all fun w => decide (leNat (r.devRead (r.who x.ctx 0 0) (sigVa d w.1) 8) ≥ w.2)) = decide met := by
    rw [Bool.eq_iff_iff, List.all_eq_true, decide_eq_true_iff]
    exact forall₂_congr fun w _ => decide_eq_true_iff
  have hknown : ((cmdSignals cmd).all fun i => decide (i < sigCount d)) = decide known := by
    rw [Bool.eq_iff_iff, List.all_eq_true, decide_eq_true_iff]
    exact forall₂_congr fun i _ => decide_eq_true_iff
  refine ⟨fun h1 h2 => if_pos ?_, fun h1 => (if_neg ?_).trans ((if_pos ?_).trans ?_), fun h1 h2 => (if_neg ?_).trans ((if_neg ?_).trans ?_)⟩
  · rw [hmet, hknown, decide_eq_true h1, decide_eq_false h2]
    rfl
  · rw [hknown, decide_eq_false h1]
    exact Bool.false_ne_true
  · rw [hknown, decide_eq_false h1]
    rfl
  · refine congrArg (fun u => Host.Outcome.next (State.endLaunch u { l with status := 1 } false)) (if_neg ?_)
    rw [hknown, decide_eq_false h1]
    exact Bool.false_ne_true
  · rw [hmet, hknown, decide_eq_true h1, decide_eq_true h2]
    decide
  · rw [hknown, decide_eq_true h1]
    decide
  · refine congrArg (startRead k l (cmd[9] = x.firstSeq + BitVec.ofNat 32 x.started)) ?_
    rw [hknown, decide_eq_true h1]
    show _ = if cmdWaits cmd = [] then t else _
    cases cmdWaits cmd <;> rfl

/-- The four ends of a command's start, for an outcome `o` that is its start. -/
theorem startCommand_cases {s : State} {k : Nat} {x : Queue} {r : State} {cmd : Vector Word 16} {o : Out}
    (h : o = startCommand s k x r cmd) :
    let d := r.ctxDesc x.ctx
    let t := r.updQueue k fun x => { x with started := x.started + 1 }
    let seen := if cmdWaits cmd = [] then t else t.dropEverywhere (r.who x.ctx 0 0)
    let good : Bool := cmd[9] = x.firstSeq + BitVec.ofNat 32 x.started
    let read := if cmdBad cmd || !good then seen else seen.draftSee (seen.who x.ctx 0 0) cmd
    let l : Launch := { lid := r.fresh, queue := k, num := x.started, ctx := x.ctx, cmd := cmd }
    let dr := read.draft x.ctx cmd good
    let m := { l with hdr := dr.hdr, stages := dr.stages, status := dr.status, targets := dr.targets }
    let met := ∀ w ∈ cmdWaits cmd, w.2 ≤ leNat (r.devRead (r.who x.ctx 0 0) (sigVa d w.1) 8)
    let known := ∀ i ∈ cmdSignals cmd, i < sigCount d
    (known → ¬met → o = .next s) ∧ (¬known → o = .next (t.endLaunch { l with status := 1 } false)) ∧
    (known → met → dr.status ≠ 0 → o = .next (read.endLaunch m true)) ∧
    (known → met → dr.status = 0 → o = .next ({ read with launches := read.launches ++ [m] }.writeRecordOf k).wake) := by
  intro d t seen good read l dr m met known
  obtain ⟨h1, h2, h3⟩ := startCommand_spec s k x r cmd
  exact ⟨fun hk hm => h.trans (h1 hk hm), fun hk => h.trans (h2 hk), fun hk hm hd => (h.trans (h3 hk hm)).trans (if_pos hd),
    fun hk hm hd => (h.trans (h3 hk hm)).trans (if_neg (not_not_intro hd))⟩

/-! ### Admission (R18, R19, R269) -/
theorem State.addWg_otherWgs (s : State) (l : Launch) (k : Nat) (w : Workgroup) (areas : List Nat) (sh0 : Nat) (recs : List (List (List Word))) :
    (s.addWg l k w areas sh0 recs).otherWgs = s.otherWgs ++ [w] := rfl
theorem State.foldl_addWg_otherWgs (l : Launch) (w : Nat → Workgroup) (areas : Nat → List Nat) (sh0 : Nat) (recs : List (List (List Word)))
    (rs : List Nat) (s : State) :
    (rs.foldl (fun t r => t.addWg l 0 (w r) (areas r) sh0 recs) s).otherWgs = s.otherWgs ++ rs.map w := by
  induction rs generalizing s with
  | nil => exact (List.append_nil _).symm
  | cons r rs ih => rw [List.foldl_cons, ih, State.addWg_otherWgs, List.map_cons, List.append_assoc, List.singleton_append]
theorem State.admitRange_otherWgs (s : State) (l : Launch) (core : CoreId) : (s.admitRange l core).otherWgs =
    s.otherWgs ++ (List.range (stageGang (l.stage 0))).map fun r => rangeWg s l core (l.next + r) r :=
  State.foldl_addWg_otherWgs ..
theorem exec_workgroupAdmit_of_fits {s : State} {lid : Nat} {l : Launch} {j : Fin 16} {core : CoreId} (hl : s.launch? lid = some l)
    (ha : s.admits l.ctx = true) (he : l.eligible j.val = true) (hp : s.preferred l j.val core = true)
    (hf : s.fits l j.val core (s.sharesNow l j.val) = true) :
    exec (.workgroupAdmit lid j core) s =
      .next (if j.val = 0 then s.admitRange l core else s.admitRecords l j.val core (s.sharesNow l j.val)) := by
  rw [exec_workgroupAdmit, execWorkgroupAdmit, hl]
  dsimp only
  rw [ha, he, hp, hf]
  exact (apply_ite Host.Outcome.next ..).symm

/-! ### Retirement (R39) -/
theorem State.freeWg_launches (s : State) (w : Workgroup) : (s.freeWg w).launches = s.launches := by
  unfold State.freeWg
  dsimp only
  rw [State.wake_launches]
  exact (apply_ite State.launches ..).trans (ite_self _)
theorem State.freeWg_w (s : State) (w : Workgroup) : (s.freeWg w).w = if s.w.wid = w.wid then {} else s.w := by
  unfold State.freeWg
  dsimp only
  rw [State.wake_w]
  split <;> rfl
theorem State.freeWg_otherWgs (s : State) (w : Workgroup) : (s.freeWg w).otherWgs = s.otherWgs.filter fun x => x.wid ≠ w.wid := by
  unfold State.freeWg
  dsimp only
  rw [State.wake_otherWgs]
  split <;> rfl
theorem State.freeWg_g (s : State) (w : Workgroup) : (s.freeWg w).g = (if s.g.wid = w.wid then {} else s.g : Group).wake := by
  unfold State.freeWg
  dsimp only
  split <;> rfl
theorem State.freeWg_others (s : State) (w : Workgroup) :
    (s.freeWg w).others = (s.others.filter fun g => g.wid ≠ w.wid).map Group.wake := by
  unfold State.freeWg
  dsimp only
  split <;> rfl

theorem State.wg?_some {s : State} {wid : Nat} {w : Workgroup} (h : s.wg? wid = some w) : w ∈ s.allWgs ∧ w.wid = wid ∧ wid ≠ 0 := by
  have hp := List.find?_some h
  simp only [Bool.and_eq_true, decide_eq_true_eq] at hp
  exact ⟨List.mem_of_find?_eq_some h, hp⟩
/-- A workgroup that has left is found no more. -/
theorem State.wg?_freeWg (s : State) (w : Workgroup) : (s.freeWg w).wg? w.wid = none := by
  refine List.find?_eq_none.mpr fun x hx hp => ?_
  simp only [Bool.and_eq_true, decide_eq_true_eq] at hp
  obtain ⟨he, h0⟩ := hp
  unfold State.allWgs at hx
  rw [State.freeWg_w, State.freeWg_otherWgs] at hx
  obtain rfl | hx := List.mem_cons.mp hx
  · split at he
    · exact h0 he.symm
    · contradiction
  · simpa [he] using (List.mem_filter.mp hx).2
/-- Its groups have left with it. -/
theorem State.freeWg_groups (s : State) (w : Workgroup) : ∀ g ∈ (s.freeWg w).allGroups, g.gid ≠ 0 → g.wid ≠ w.wid := by
  intro g hg h0
  unfold State.allGroups at hg
  rw [State.freeWg_g, State.freeWg_others] at hg
  obtain rfl | hg := List.mem_cons.mp hg
  · revert h0
    split
    · exact fun h0 => absurd rfl h0
    · exact fun _ => ‹_›
  · obtain ⟨x, hx, rfl⟩ := List.mem_map.mp hg
    exact of_decide_eq_true (List.mem_filter.mp hx).2

theorem workgroupRetires (s : State) (k : Nat) (w : Workgroup) (hw : s.wg? k = some w) (hb : s.wgBusy k = false) :
    ∃ u, exec (.workgroupRetire k) s = .next u ∧ u.wg? k = none ∧ (∀ g ∈ u.allGroups, g.gid ≠ 0 → g.wid ≠ k) ∧
      u.launches = s.launches.map fun l => if l.lid = w.lid then { l with deadgroup := l.deadgroup || w.deadgroup } else l := by
  obtain ⟨-, rfl, -⟩ := State.wg?_some hw
  let u := s.updLaunch w.lid fun l => { l with deadgroup := l.deadgroup || w.deadgroup }
  refine ⟨u.freeWg w, ?_, u.wg?_freeWg w, u.freeWg_groups w, u.freeWg_launches w⟩
  rw [exec_workgroupRetire, execWorkgroupRetire, hw]
  exact if_neg (by rw [hb]; decide)

/-! ### Restart (R35) -/
theorem restartGroup_spec (s : State) (who : Who) (d : Discarded) (core : CoreId) (pl : List (Fin 4 × Fin 16)) (e : LostGroup × Nat)
    (he : e.1.region ≠ .none) :
    let g := restartGroup s who d core pl e
    let seed := s.readSeed who e.1
    let on := seed.mask &&& ~~~e.1.gone
    g.me.leaf = some { emask := on, amask := on, pc := seed.pc } ∧ g.regs.fmode = seed.fmode ∧
    (∀ i : Fin 16, g.readS (Fin.ofNat 64 i.val) = seed.s[i]) ∧ g.region = e.1.region ∧ g.status = .ready ∧ g.exited = e.1.gone ∧
    g.records = [] := by
  refine ⟨?_, rfl, fun i => ?_, rfl, if_neg he, if_neg he, rfl⟩
  · unfold restartGroup
    dsimp only
    rw [if_neg he]
  · have hi : (Fin.ofNat 64 i.val).val = i.val := Nat.mod_eq_of_lt (by omega)
    unfold Group.readS
    rw [dif_pos (by omega)]
    simp only [hi]
    exact (Vector.getElem_ofFn (by omega)).trans (dif_pos i.isLt)

/-- A workgroup outside a gang restarts alone. -/
theorem exec_regionRestart_alone {s : State} {k : Nat} {c : Ctx} {d : Discarded} (core : CoreId)
    (hc : (s.ctxs.find? fun c => c.discarded.any fun d => d.wg.wid = k) = some c)
    (hd : (c.discarded.filter fun d => d.wg.wid = k) = [d]) (hg : d.wg.gang ≤ 1) (hp : c.phase = .run) :
    exec (.regionRestart k core) s = .next ((s.restartWg c.ctx d core).getD s) := by
  have hf : (c.discarded.find? fun d => d.wg.wid = k) = some d := by
    rw [← List.head?_filter, hd]
    rfl
  have hgang : (c.discarded.filter fun e => e.wg.wid = k || (decide (d.wg.gang > 1) && e.wg.gangId = d.wg.gangId)) = [d] := by
    rw [decide_eq_false (by omega : ¬ d.wg.gang > 1)]
    simpa using hd
  have hcore : Fin.ofNat 256 (core.val + d.wg.rank - d.wg.rank) = core :=
    Fin.ext (by rw [Nat.add_sub_cancel]; exact Nat.mod_eq_of_lt core.isLt)
  rw [exec_regionRestart, execRegionRestart, hc]
  dsimp only
  rw [hf]
  dsimp only
  rw [if_pos hp, hgang, State.restartGang, hcore]
  cases s.restartWg c.ctx d core <;> rfl

section
variable {s : State} {k : Nat} {c : Ctx} {d : Discarded} {core : CoreId}
  (hc : (s.ctxs.find? fun c => c.discarded.any fun d => d.wg.wid = k) = some c)
  (hd : (c.discarded.filter fun d => d.wg.wid = k) = [d]) (hg : d.wg.gang ≤ 1) (hp : c.phase = .run)
  (ho : s.ownsCluster (ctxPart (s.ctxDesc c.ctx)) (clusterOf core) = true) (hgp : s.gangPlace d.wg core = true)
  (hcm : s.cmUsed core + d.wg.cmBytes ≤ Config.coreMemBytes)
  (hs : s.shareOk d.wg.lid d.wg.stage.val (((s.launch? d.wg.lid).getD {}).stage d.wg.stage.val) core = true)
include hc hd hg hp ho hgp hcm hs

theorem exec_regionRestart_of_places {places : List (Fin 4 × Fin 16)}
    (hpl : s.placesOn (stageDet (((s.launch? d.wg.lid).getD {}).stage d.wg.stage.val))
      (stageExt (((s.launch? d.wg.lid).getD {}).stage d.wg.stage.val)) d.groups.length core = some places) :
    ∃ w : Workgroup, { w with cm := [] } = { d.wg with core := core, rotation := 0, cm := [] } ∧
      let who := s.who c.ctx core 0
      let r := d.groups.foldl (fun r g => r.devSee who (g.area + 48 * g.spill) 84) s
      exec (.regionRestart k core) s = .next (((({ r with
        otherWgs := r.otherWgs ++ [w]
        others := r.others ++ d.groups.zipIdx.map (restartGroup r who d core places) }.updCore core fun x =>
          if x.claim = some k then { x with orphan := false } else x).dropCopiesOf who 2).updCtx c.ctx fun y =>
            { y with discarded := y.discarded.filter fun z => z.wg.wid ≠ k }).endIdle.wake) := by
  have hk : d.wg.wid = k := by
    have hm : d ∈ c.discarded.filter fun d => d.wg.wid = k := hd ▸ List.mem_singleton.mpr rfl
    simpa using (List.mem_filter.mp hm).2
  let r := d.groups.foldl (fun r g => r.devSee (s.who c.ctx core 0) (g.area + 48 * g.spill) 84) s
  refine ⟨{ d.wg with
    core := core, cm := memWrite [] 0 ((List.range d.wg.cmBytes).map fun j => Config.byte (r.fresh * 2 ^ 20 + j)), rotation := 0 }, rfl, ?_⟩
  rw [exec_regionRestart_alone core hc hd hg hp, State.restartWg]
  dsimp only
  rw [ho, hgp, hs, decide_eq_false (by omega), hpl, hk]
  rfl
theorem exec_regionRestart_of_full
    (hpl : s.placesOn (stageDet (((s.launch? d.wg.lid).getD {}).stage d.wg.stage.val))
      (stageExt (((s.launch? d.wg.lid).getD {}).stage d.wg.stage.val)) d.groups.length core = none) :
    exec (.regionRestart k core) s = .next s := by
  rw [exec_regionRestart_alone core hc hd hg hp, State.restartWg]
  dsimp only
  rw [ho, hgp, hs, decide_eq_false (by omega), hpl]
  rfl
end

/-- Settles O56, step by step. -/
theorem launchSteps : Obligations.LaunchSteps := by
  refine ⟨fun q n st dead _ _ _ _ => q.finish_spec n st dead, newGroup_spec, fun s k => ⟨fun x hx hc => ?_, fun l hl =>
    ⟨fun ho => ?_, fun c ha he hp hf => exec_workgroupAdmit_of_fits (j := 0) hl ha he hp hf, fun c h1 => ?_, fun j c hj => ?_⟩,
    workgroupRetires s k, fun c d core hc hd hg hp ho hgp hcm hs =>
    ⟨fun places hpl => exec_regionRestart_of_places hc hd hg hp ho hgp hcm hs hpl,
      exec_regionRestart_of_full hc hd hg hp ho hgp hcm hs, fun who pl e => restartGroup_spec s who d core pl e⟩⟩⟩
  · intro at_ a cmd r
    have h : exec (.launchStart k) s = startCommand s k x r cmd := exec_launchStart_of_consumes hx hc
    clear_value r cmd
    exact startCommand_cases h
  · rw [exec_launchComplete, execLaunchComplete, hl]
    exact if_neg (by rw [ho]; decide)
  · have h := s.admitRange_otherWgs l c
    rw [h1] at h
    exact ⟨rangeWg s l c l.next 0, h, rfl, Fin.ext (Nat.mod_eq_of_lt c.isLt), rfl, rfl, rfl, rfl, rfl, rfl, rfl, rfl⟩
  · have hj0 : j.val ≠ 0 := fun e => hj (Fin.ext e)
    exact ⟨s.sharesNow_spec l hj0, fun ha he hp hf => (exec_workgroupAdmit_of_fits hl ha he hp hf).trans (by rw [if_neg hj0])⟩

end
end Sys2Proof.Machine
end

