-- ==== Sys2Proof/Proofs/AtomicWords.lean ====
section
/-!
PROOFS. Proofs/AtomicWords.lean: the statement about tickets (R250) fails for a leaf whose two words both wait for one.
-/
namespace Sys2Proof.Machine
noncomputable section

/-- A leaf of which both words of a pair wait for a ticket. -/
def bothAwaitTicket : Entry := { wait := .ticket, wait2 := .ticket }
/-- A machine whose only group has that leaf. -/
def ticketPair : State := { g := { gid := 1, me := { leaf := some bothAwaitTicket } } }

/-- The end of a wait for a ticket reaches both words of a pair. -/
theorem bothAwaitTicket_endWait : bothAwaitTicket.endWait .ticket = { bothAwaitTicket with wait := .ticketed, wait2 := .ticketed } := rfl
theorem ticketPair_endWait : (ticketPair.endWait 1 ticketPair.g.sel .ticket).g.me.leaf = some (bothAwaitTicket.endWait .ticket) := rfl

/-- Refutes O46: the last clause of `Clause.TicketedWords` says that a granted ticket changes the wait of the leaf's first word
alone, but where the second word of the pair waits for a ticket too, its wait ends with it. -/
theorem not_atomicWords : ¬ Obligations.AtomicWords := by
  rintro ⟨-, -, -, -, granted⟩
  have h := granted ticketPair bothAwaitTicket (by decide) rfl rfl
  have hwait2 := congrArg (Option.map Entry.wait2) (ticketPair_endWait.symm.trans h)
  rw [bothAwaitTicket_endWait] at hwait2
  exact absurd hwait2 (by decide)

end
end Sys2Proof.Machine
end

