-- ==== Sys2Proof/Proofs/CleanFills.lean ====
section
/-!
PROOFS. Proofs/CleanFills.lean: where no soft error waits and no L2 sector is dirty, a read of the array finds nothing and a fill adds
copies and changes nothing else (R199, R201, R303).
-/
namespace Sys2Proof.Machine
noncomputable section

/-! ### Reads of an array without soft errors -/
theorem State.cross_clean {s : State} (h : s.upsetBits = []) (grans : List Nat) (hop : Nat) (die : Fin 2) :
    s.cross grans hop die = (s, []) := by
  have hs : ({ s with upsetBits := [] } : State) = s := by rw [← h]
  unfold State.cross
  rw [h]
  exact congrArg (·, []) hs
theorem State.arrayRead_clean {s : State} (h : s.upsetBits = []) (pa : Nat) : s.arrayRead pa = s := by
  unfold State.arrayRead
  rw [State.cross_clean h]
theorem State.arrayReads_clean {s : State} (h : s.upsetBits = []) (pa n : Nat) : s.arrayReads pa n = s := by
  unfold State.arrayReads
  exact List.foldl_fixed' (f := fun t k => State.arrayRead t (pa / 128 * 128 + 128 * k)) (fun _ => State.arrayRead_clean h _) _
theorem State.lift_clean {s : State} (h : s.upsetBits = []) (pa : Nat) : s.lift pa = (s, []) := by
  unfold State.lift
  rw [State.arrayRead_clean h, State.cross_clean h]
  dsimp only
  rw [State.cross_clean h]
  rfl
theorem State.doomed_clean {s : State} (h : s.upsetBits = []) (pa : Nat) : s.doomed pa = false := by
  unfold State.doomed
  rw [h]
  rfl
theorem State.addTlb_clean {s : State} (h : s.upsetBits = []) (who : Who) (leaf : Dword) (pa va : Nat) :
    ∃ tl, s.addTlb who leaf pa va = { s with tlb := tl } := by
  unfold State.addTlb State.readWalk
  by_cases hc : (s.tlb? who va).isSome = true
  · rw [if_pos hc]
    exact ⟨s.tlb, rfl⟩
  · rw [if_neg hc, if_neg hc, List.foldl_fixed' fun _ => State.arrayRead_clean h _]
    exact ⟨_, rfl⟩

/-! ### Evictions without dirty sectors -/
theorem State.writeBackAll_clean {s : State} (h : ∀ l ∈ s.l2, l.dmask = 0) (f : Line → Bool) : s.writeBackAll f = s := by
  unfold State.writeBackAll
  rw [List.filter_eq_nil_iff.mpr fun l hl => by simp [h l hl]]
  rfl
theorem State.evict_clean {s : State} (h : ∀ l ∈ s.l2, l.dmask = 0) (f : Line → Bool) :
    s.evict f = { s with l2 := s.l2.filter fun l => !f l } := by
  unfold State.evict
  rw [State.writeBackAll_clean h]

/-! ### What a fill brings -/
/-- `l` is a copy of what `x` is a copy of, with no more dirty bytes. -/
structure Line.Like (l x : Line) : Prop where
  part : x.part = l.part
  asid : x.asid = l.asid
  sector : x.sector = l.sector
  leaf : x.leaf = l.leaf
  pa : x.pa = l.pa
  data : x.data = l.data
  dmask : l.dmask = 0 ∨ l.dmask = x.dmask
/-- The state holds a copy like this one, or the array does. -/
def State.holds (s : State) (l : Line) : Prop :=
  (∃ x ∈ s.copiesHeld, l.Like x) ∨ l.dmask = 0 ∧ ∀ k < 128, memGet l.data k = s.baseByte l.leaf (l.pa + k) (l.sector * 128 + k)
/-- The two states differ in copies alone, and `t` has none that `s` does not hold. -/
def State.Copied (s t : State) : Prop := t.uncached = s.uncached ∧ ∀ l ∈ t.copiesHeld, s.holds l

theorem State.mem_copiesHeld {s : State} {l : Line} : l ∈ s.copiesHeld ↔ l ∈ s.l2 ∨ (∃ e ∈ s.rlc, e.2 = l) ∨ ∃ e ∈ s.l1, e.2 = l := by
  simp [State.copiesHeld]
theorem Line.Like.refl (l : Line) : l.Like l := ⟨rfl, rfl, rfl, rfl, rfl, rfl, .inr rfl⟩
theorem State.holds_of_mem {s : State} {l : Line} (h : l ∈ s.copiesHeld) : s.holds l := .inl ⟨l, h, .refl l⟩
theorem State.holds.like {s : State} {l x : Line} (h : s.holds x) (hl : l.Like x) : s.holds l := by
  obtain ⟨hp, ha, hs, hle, hpa, hd, hm⟩ := hl
  obtain ⟨y, hy, kp, ka, ks, kle, kpa, kd, km⟩ | ⟨h0, hb⟩ := h
  · refine .inl ⟨y, hy, kp.trans hp, ka.trans ha, ks.trans hs, kle.trans hle, kpa.trans hpa, kd.trans hd, ?_⟩
    obtain hm | hm := hm
    · exact .inl hm
    · rw [hm]
      exact km
  · refine .inr ⟨?_, ?_⟩
    · obtain hm | hm := hm
      · exact hm
      · rw [hm, h0]
    · rw [← hle, ← hpa, ← hs, ← hd]
      exact hb
theorem State.holds.copyOf {s : State} {l : Line} (h : s.holds l) : s.copyOf l :=
  h.imp_left fun ⟨x, hx, hl⟩ => ⟨x, hx, hl.part, hl.asid, hl.sector, hl.data, hl.dmask⟩
theorem State.Copied.onlyCopies {s t : State} (h : s.Copied t) : OnlyCopies s t := fun l hl => (h.2 l hl).copyOf
theorem State.baseByte_uncached (s : State) (leaf : Dword) (pa va : Nat) : s.uncached.baseByte leaf pa va = s.baseByte leaf pa va := rfl
theorem State.Copied.refl (s : State) : s.Copied s := ⟨rfl, fun _ => State.holds_of_mem⟩
theorem State.Copied.holds {s t : State} (h : s.Copied t) {l : Line} (hl : t.holds l) : s.holds l := by
  obtain ⟨x, hx, hl⟩ | ⟨h0, hb⟩ := hl
  · exact (h.2 x hx).like hl
  · refine .inr ⟨h0, fun k hk => (hb k hk).trans ?_⟩
    rw [← State.baseByte_uncached, h.1, State.baseByte_uncached]
theorem State.Copied.trans {s t u : State} (h : s.Copied t) (h' : t.Copied u) : s.Copied u :=
  ⟨h'.1.trans h.1, fun l hl => h.holds (h'.2 l hl)⟩
theorem State.Copied.upsetBits {s t : State} (h : s.Copied t) : t.upsetBits = s.upsetBits := by
  change t.uncached.upsetBits = s.uncached.upsetBits
  rw [h.1]

/-! One lemma for each step of a fill. -/
theorem State.Copied.addTlb {s : State} (h : s.upsetBits = []) (who : Who) (leaf : Dword) (pa va : Nat) :
    s.Copied (s.addTlb who leaf pa va) := by
  obtain ⟨tl, e⟩ := State.addTlb_clean h who leaf pa va
  rw [e]
  exact ⟨rfl, fun _ => State.holds_of_mem⟩
/-- What `addL2` leaves behind: the line in its place, before some of the others. -/
theorem State.addL2_clean {s : State} (h : ∀ l ∈ s.l2, l.dmask = 0) (l : Line) (who : Who) (va : Nat) :
    ∃ (w : Fin 16) (m : Option Nat) (o : Byte) (rest : List Line),
      s.addL2 l who va = { s with l2 := { l with way := w, mark := m, occ := o } :: rest } ∧
      ∀ x ∈ rest, x ∈ s.l2 ∧ lineAt who va x = false := by
  unfold State.addL2
  dsimp only
  split
  · refine ⟨_, _, _, _, rfl, fun x hx => ?_⟩
    obtain ⟨hx, hl⟩ := List.mem_filter.mp hx
    exact ⟨hx, by simpa using hl⟩
  · rw [State.evict_clean h]
    refine ⟨_, _, _, _, rfl, fun x hx => ?_⟩
    obtain ⟨hx, hl⟩ := List.mem_filter.mp hx
    exact ⟨(List.mem_filter.mp hx).1, by simpa using hl⟩
theorem State.Copied.addL2 {s : State} (h : ∀ l ∈ s.l2, l.dmask = 0) {l : Line} (hl : s.holds l) (who : Who) (va : Nat) :
    s.Copied (s.addL2 l who va) := by
  obtain ⟨w, m, o, rest, e, hrest⟩ := State.addL2_clean h l who va
  rw [e]
  refine ⟨rfl, fun x hx => ?_⟩
  obtain hx | hx := State.mem_copiesHeld.mp hx
  · obtain rfl | hx := List.mem_cons.mp hx
    · exact hl.like ⟨rfl, rfl, rfl, rfl, rfl, rfl, .inr rfl⟩
    · exact State.holds_of_mem (State.mem_copiesHeld.mpr (.inl (hrest x hx).1))
  · exact State.holds_of_mem (State.mem_copiesHeld.mpr (.inr hx))
theorem mem_addCopy {κ : Type} [DecidableEq κ] {k : κ} {cap c : Nat} {x : Line} {l : List (κ × Line)} {e : κ × Line}
    (h : e ∈ addCopy k cap c x l) : e = (k, x) ∨ e ∈ l := by
  unfold addCopy at h
  exact (List.mem_cons.mp h).imp_right fun h => List.mem_of_mem_filter (List.mem_of_mem_filter h)
theorem State.Copied.addRlc {s : State} {l x : Line} (hx : s.holds x) (hl : { l with dmask := 0, mark := none }.Like x) (who : Who) :
    s.Copied (s.addRlc who l) := by
  refine ⟨rfl, fun y hy => ?_⟩
  obtain hy | ⟨e, he, rfl⟩ | hy := State.mem_copiesHeld.mp hy
  · exact State.holds_of_mem (State.mem_copiesHeld.mpr (.inl hy))
  · obtain rfl | he := mem_addCopy he
    · exact hx.like hl
    · exact State.holds_of_mem (State.mem_copiesHeld.mpr (.inr (.inl ⟨e, he, rfl⟩)))
  · exact State.holds_of_mem (State.mem_copiesHeld.mpr (.inr (.inr hy)))
theorem State.Copied.addL1 {s : State} {l x : Line} (hx : s.holds x) (hl : { l with dmask := 0, mark := none }.Like x) (who : Who) :
    s.Copied (s.addL1 who l) := by
  refine ⟨rfl, fun y hy => ?_⟩
  obtain hy | hy | ⟨e, he, rfl⟩ := State.mem_copiesHeld.mp hy
  · exact State.holds_of_mem (State.mem_copiesHeld.mpr (.inl hy))
  · exact State.holds_of_mem (State.mem_copiesHeld.mpr (.inr (.inl hy)))
  · obtain rfl | he := mem_addCopy he
    · exact hx.like hl
    · exact State.holds_of_mem (State.mem_copiesHeld.mpr (.inr (.inr ⟨e, he, rfl⟩)))
/-- The line that answers is a copy that the state holds. -/
theorem State.heldLine_mem {s : State} {who : Who} {va : Nat} {l : Line} (h : s.heldLine who va = some l) : l ∈ s.copiesHeld := by
  have h2 : s.l2Line who va = some l → l ∈ s.copiesHeld := fun h => State.mem_copiesHeld.mpr (.inl (List.mem_of_find?_eq_some h))
  have hr : s.rlcLine who va = some l → l ∈ s.copiesHeld := fun h => by
    obtain ⟨e, he, rfl⟩ := Option.map_eq_some_iff.mp h
    exact State.mem_copiesHeld.mpr (.inr (.inl ⟨e, List.mem_of_find?_eq_some he, rfl⟩))
  have h1 : s.l1Line who va = some l → l ∈ s.copiesHeld := fun h => by
    obtain ⟨e, he, rfl⟩ := Option.map_eq_some_iff.mp h
    exact State.mem_copiesHeld.mpr (.inr (.inr ⟨e, List.mem_of_find?_eq_some he, rfl⟩))
  unfold State.heldLine at h
  split at h
  · exact h2 h
  · rw [Option.orElse_eq_or, Option.orElse_eq_or] at h
    obtain h | ⟨-, h⟩ := Option.or_eq_some_iff.mp h
    · split at h
      · contradiction
      · exact h1 h
    · exact (Option.or_eq_some_iff.mp h).elim hr fun h => h2 h.2
/-- A line read from the array has the array's bytes. -/
theorem memGet_newLine_data (s : State) (who : Who) (leaf : Dword) (pa va : Nat) (pol : Pol) {k : Nat} (hk : k < 128) :
    memGet (newLine s who leaf pa va pol).data k = s.baseByte leaf (pa / 128 * 128 + k) (va / 128 * 128 + k) := by
  unfold newLine
  dsimp only
  rw [memGet_memWrite]
  simp [hk]
theorem State.holds_newLine (s : State) (who : Who) (leaf : Dword) (pa va : Nat) (pol : Pol) (grans : List Nat) :
    s.holds ((newLine s who leaf pa va pol).hurt grans) :=
  .inr ⟨rfl, fun _ hk => memGet_newLine_data s who leaf pa va pol hk⟩

/-! The fill in its three stages: the home, the remote line cache, L1. -/
def State.fillHome (s : State) (who : Who) (leaf : Dword) (pa va : Nat) (pol : Pol) (got : Bool) : State :=
  let t := if got then s else s.addTlb who leaf pa va
  if s.cacheable who leaf va && !got then t.addL2 ((newLine t who leaf pa va pol).hurt []) who va else t
def State.fillRlc (s : State) (who : Who) (va : Nat) (pol : Pol) (into : Bool) : State :=
  if into then (match s.l2Line who va with | some l => s.addRlc who (l.under pol) | none => s) else s
def State.fillL1 (s : State) (who : Who) (va : Nat) (pol : Pol) (into : Bool) : State :=
  if into then (match s.heldLine who va with | some l => s.addL1 who ((l.under pol).hurt []) | none => s) else s
theorem State.Copied.fillHome {s : State} (h : CleanCaches s) (who : Who) (leaf : Dword) (pa va : Nat) (pol : Pol) (got : Bool) :
    s.Copied (s.fillHome who leaf pa va pol got) := by
  unfold State.fillHome
  dsimp only
  cases got with
  | true =>
    rw [Bool.and_comm]
    exact .refl s
  | false =>
    have h1 := State.Copied.addTlb h.1 who leaf pa va
    have h2 : (s.addTlb who leaf pa va).l2 = s.l2 := by
      obtain ⟨tl, e⟩ := State.addTlb_clean h.1 who leaf pa va
      rw [e]
    rw [if_neg Bool.false_ne_true]
    split
    · exact h1.trans (.addL2 (by rw [h2]; exact h.2) (State.holds_newLine ..) ..)
    · exact h1
theorem State.Copied.fillRlc (s : State) (who : Who) (va : Nat) (pol : Pol) (into : Bool) : s.Copied (s.fillRlc who va pol into) := by
  unfold State.fillRlc
  cases into with
  | false => exact .refl s
  | true =>
    cases hl : s.l2Line who va with
    | none => exact .refl s
    | some l =>
      refine .addRlc (State.holds_of_mem (State.mem_copiesHeld.mpr (.inl (List.mem_of_find?_eq_some hl)))) ?_ who
      exact ⟨rfl, rfl, rfl, rfl, rfl, rfl, .inl rfl⟩
theorem State.Copied.fillL1 (s : State) (who : Who) (va : Nat) (pol : Pol) (into : Bool) : s.Copied (s.fillL1 who va pol into) := by
  unfold State.fillL1
  cases into with
  | false => exact .refl s
  | true =>
    cases hl : s.heldLine who va with
    | none => exact .refl s
    | some l =>
      change s.Copied (s.addL1 who ((l.under pol).hurt []))
      exact .addL1 (l := (l.under pol).hurt []) (State.holds_of_mem (State.heldLine_mem hl)) ⟨rfl, rfl, rfl, rfl, rfl, rfl, .inl rfl⟩ who
theorem State.hurt_append_nil (s : State) : { s with latch := { s.latch with hurt := s.latch.hurt ++ [] } } = s := by
  rw [List.append_nil]
theorem State.Copied.parts {s t : State} (h : s.Copied t) : t.parts = s.parts := by
  change t.uncached.parts = s.uncached.parts
  rw [h.1]
theorem State.ownChannels_of_parts {s t : State} (h : t.parts = s.parts) : t.ownChannels = s.ownChannels :=
  congrArg (fun (ps : Vector Part 16) (p : Fin 16) => ownList (partField ps[p] 7 8) 256) h
theorem State.ownSlices_of_parts {s t : State} (h : t.parts = s.parts) : t.ownSlices = s.ownSlices :=
  congrArg (fun (ps : Vector Part 16) (p : Fin 16) (die : Nat) => (ownList (partField ps[p] 2 5) 160).filter fun i => i / 80 == die) h
theorem State.channelOf_of_parts {s t : State} (h : t.parts = s.parts) : t.channelOf = s.channelOf :=
  congrArg (fun (f : Fin 16 → List Nat) p va => pick (f p) (hashPage va)) (State.ownChannels_of_parts h)
theorem State.homeOf_of_parts {s t : State} (h : t.parts = s.parts) : t.homeOf = s.homeOf := by
  delta State.homeOf
  rw [State.channelOf_of_parts h, State.ownSlices_of_parts h]
theorem State.cacheable_of_parts {s t : State} (h : t.parts = s.parts) : t.cacheable = s.cacheable := by
  funext who leaf va
  unfold State.cacheable
  rw [State.homeOf_of_parts h]
theorem State.fill_clean {s : State} (h : CleanCaches s) (who : Who) (leaf : Dword) (pa va deep : Nat) (pol : Pol) :
    let inL1 := !who.engine && !who.bypass && (s.l1Line who va).isSome
    let inR := !who.engine && (s.rlcLine who va).isSome
    let keep := s.cacheable who leaf va
    let far := (s.homeOf who.part va).any fun h => h / 80 ≠ (dieOf who.core).val
    s.fill who leaf pa va deep pol =
      ((s.fillHome who leaf pa va pol (s.heldLine who va).isSome).fillRlc who va pol (deep ≥ 1 && keep && far && !inL1 && !inR)).fillL1
        who va pol (deep ≥ 2 && keep && !inL1 && leafCp leaf = 0 && pol ≠ .bypass) := by
  intro inL1 inR keep far
  have hhome := State.Copied.fillHome h who leaf pa va pol (s.heldLine who va).isSome
  have hrlc := hhome.trans (.fillRlc _ who va pol (deep ≥ 1 && keep && far && !inL1 && !inR))
  have hl1 := hrlc.trans (.fillL1 _ who va pol (deep ≥ 2 && keep && !inL1 && leafCp leaf = 0 && pol ≠ .bypass))
  unfold State.fill
  extract_lets got t keep'
  have ht : s.Copied t := by
    cases hg : got with
    | true => simpa only [t, hg] using .refl s
    | false => simpa only [t, hg] using .addTlb h.1 ..
  have hkeep : keep' = keep := congrFun₃ (State.cacheable_of_parts ht.parts) who leaf va
  clear_value keep'
  obtain rfl := hkeep.symm
  split
  next t' up e =>
    rw [State.lift_clean (ht.upsetBits.trans h.1), ite_self] at e
    obtain ⟨rfl, rfl⟩ := Prod.mk.inj e
    extract_lets home far' rlc src
    have hhome' : home = s.fillHome who leaf pa va pol got := rfl
    clear_value home
    subst hhome'
    have hfar : far' = far := congrArg (fun f : Fin 16 → Nat → Option Nat =>
      (f who.part va).any fun h => h / 80 ≠ (dieOf who.core).val) (State.homeOf_of_parts hhome.parts)
    clear_value far'
    subst hfar
    have hrlc' : rlc = (s.fillHome who leaf pa va pol got).fillRlc who va pol (deep ≥ 1 && keep && far && !inL1 && !inR) := rfl
    clear_value rlc
    subst hrlc'
    split
    next r up2 e2 =>
      rw [State.cross_clean (hrlc.upsetBits.trans h.1), ite_self] at e2
      obtain ⟨rfl, rfl⟩ := Prod.mk.inj e2
      extract_lets l1
      replace hl1 : s.Copied l1 := hl1
      change _ = l1
      have hends : l1.cross [pa / 32] 6 (dieOf who.core) = (l1, []) := State.cross_clean (hl1.upsetBits.trans h.1) ..
      split
      · rw [hends]
        change { l1 with latch := { l1.latch with hurt := l1.latch.hurt ++ [] ++ [] ++ [] } } = l1
        rw [List.append_nil, List.append_nil, List.append_nil]
      · split
        · rfl
        · exact l1.hurt_append_nil
theorem State.Copied.fill {s : State} (h : CleanCaches s) (who : Who) (leaf : Dword) (pa va deep : Nat) (pol : Pol) :
    s.Copied (s.fill who leaf pa va deep pol) := by
  rw [State.fill_clean h]
  exact ((State.Copied.fillHome h ..).trans (.fillRlc ..)).trans (.fillL1 ..)
/-- A fill at the home, the line's bytes being asked for there. -/
theorem State.fill_home_clean {s : State} (h : CleanCaches s) (who : Who) (leaf : Dword) (pa va : Nat) (pol : Pol) :
    s.fill who leaf pa va 0 pol = s.fillHome who leaf pa va pol (s.heldLine who va).isSome :=
  State.fill_clean h who leaf pa va 0 pol

end
end Sys2Proof.Machine
end

