-- ==== Sys2Proof/Proofs/ArrayWrites.lean ====
section
/-!
PROOFS. Proofs/ArrayWrites.lean: what a write to an array without soft errors leaves there (R202, R286-R288, R302): the bytes written are
read again under the leaf's key, every other byte reads as before, and a granule written whole loses its poison.
-/
namespace Sys2Proof.Machine
noncomputable section

/-! ### Searches by key -/
theorem lookup_filter_key {β : Type} (p : Nat → Bool) (l : List (Nat × β)) (a : Nat) :
    (l.filter fun c => p c.1).lookup a = if p a then l.lookup a else none := by
  induction l with
  | nil => simp
  | cons c l ih =>
    obtain ⟨k, v⟩ := c
    by_cases ha : a = k
    · subst ha
      cases hp : p a with
      | true => simp [hp]
      | false => simp [hp, ih]
    · have hak : (a == k) = false := beq_false_of_ne ha
      cases hp : p k with
      | true => simp [hp, ih, List.lookup_cons, hak]
      | false => simp [hp, ih, List.lookup_cons, hak]
theorem lookup_range_map {β : Type} (b n : Nat) (v : β) (a : Nat) :
    ((List.range n).map fun k => (b + k, v)).lookup a = if b ≤ a ∧ a < b + n then some v else none := by
  induction n with
  | zero => exact (if_neg (by omega)).symm
  | succ n ih =>
    rw [List.range_succ, List.map_append, List.lookup_append, ih, List.map_singleton, List.lookup_cons, List.lookup_nil]
    by_cases hlt : b ≤ a ∧ a < b + n
    · rw [if_pos hlt, if_pos (by omega)]
      rfl
    · rw [if_neg hlt]
      by_cases ha : a = b + n
      · simp [ha]
      · rw [if_neg (by omega), beq_false_of_ne ha]
        rfl

/-! ### The bytes of a write -/
theorem foldl_memSet_zipIdx (spa o : Nat) (bs : List Byte) (n : Nat) (m : Memory) :
    ((bs.zipIdx n).map fun b => (o + b.2, b.1)).foldl (fun m c => memSet m (spa + c.1) c.2) m = memWrite m (spa + (o + n)) bs := by
  induction bs generalizing n m with
  | nil => rfl
  | cons b bs ih =>
    rw [List.zipIdx_cons, List.map_cons, List.foldl_cons, ih]
    rfl
/-- No more than its own granule is written whole. -/
theorem clearWhole_zipIdx (g o : Nat) (bs : List Byte) (m : Memory) (ho : o < 128) (hlen : o % 32 + bs.length ≤ 32) :
    clearWhole g (bs.zipIdx.map fun b => (o + b.2, b.1)) m = if bs.length = 32 then memSet m (g + o / 32) 0 else m := by
  have hcount : ∀ k, ((bs.zipIdx.map fun b => (o + b.2, b.1)).filter fun c => c.1 / 32 = k).length = if k = o / 32 then bs.length else 0 := by
    intro k
    by_cases hk : k = o / 32
    · rw [if_pos hk, List.filter_eq_self.mpr, List.length_map, List.length_zipIdx]
      intro c hc
      obtain ⟨b, hb, rfl⟩ := List.mem_map.mp hc
      have := List.snd_lt_of_mem_zipIdx hb
      simp
      omega
    · rw [if_neg hk, List.filter_eq_nil_iff.mpr, List.length_nil]
      intro c hc
      obtain ⟨b, hb, rfl⟩ := List.mem_map.mp hc
      have := List.snd_lt_of_mem_zipIdx hb
      simp
      omega
  unfold clearWhole
  simp only [hcount]
  have h4 : o / 32 < 4 := by omega
  generalize o / 32 = k at h4
  generalize bs.length = n at *
  by_cases hn : n = 32
  · subst hn
    interval_cases k <;> rfl
  · rw [if_neg hn]
    refine foldl_id _ _ _ fun m j _ => if_neg ?_
    split <;> omega

/-! ### A write to the array -/
/-- The bytes that are encrypted anew with a write: those of the sector's unit, or of the whole block on a page with CMP. -/
def State.writeUnit (s : State) (leaf : Dword) (spa : Nat) : Nat × Nat :=
  if leafCmp leaf then (spa / 256 * 256, 256) else s.unitOf spa
/-- The array before the bytes are written into it: the unit under the leaf's key. -/
def State.rekeyed (s : State) (leaf : Dword) (spa : Nat) : Memory :=
  let u := s.writeUnit leaf spa
  if (List.range (u.2 / 128)).all fun k => s.keyAt (u.1 + 128 * k) = s.keyNow (leafKey leaf) then s.mem
  else memWrite s.mem u.1 ((List.range u.2).map fun k => s.dramByte leaf (u.1 + k))
def State.keyedAs (s : State) (key : Nat × Nat) (u : Nat × Nat) : List (Nat × Nat × Nat) :=
  (if key = (0, 0) then [] else (List.range (u.2 / 128)).map fun k => (u.1 / 128 + k, key)) ++
    s.keyed.filter fun c : Nat × Nat × Nat => !(c.1 * 128 ≥ u.1 && c.1 * 128 < u.1 + u.2)
theorem State.dramWrite_clean {s : State} (h : s.upsetBits = []) (leaf : Dword) (spa : Nat) (l : List (Nat × Byte)) (hup : s.linkUp spa = true) :
    let m := l.foldl (fun m c => memSet m (spa + c.1) c.2) (s.rekeyed leaf spa)
    s.dramWrite leaf spa l = { s with
      mem := m
      keyed := s.keyedAs (s.keyNow (leafKey leaf)) (s.writeUnit leaf spa)
      recoded := (if leafCmp leaf && recodable (memRead m (s.writeUnit leaf spa).1 256) then [spa / 256] else []) ++ s.recoded.filter fun b => b ≠ spa / 256
      pois := Machine.clearWhole (spa / 32) l s.pois } := by
  unfold State.dramWrite
  rw [if_neg (by rw [hup]; decide)]
  simp only [State.arrayReads_clean h, ite_self]
  rfl

/-- The unit is the sector, of a raw block and a page without CMP, or the sector's block. -/
theorem State.writeUnit_cases (s : State) (leaf : Dword) {spa : Nat} (ha : spa % 128 = 0) :
    s.writeUnit leaf spa = (spa, 128) ∧ leafCmp leaf = false ∧ s.recoded.contains (spa / 256) = false ∨
      s.writeUnit leaf spa = (spa / 256 * 256, 256) := by
  unfold State.writeUnit State.unitOf
  cases hc : leafCmp leaf with
  | true => exact .inr rfl
  | false =>
    cases hr : s.recoded.contains (spa / 256) with
    | true => exact .inr rfl
    | false => exact .inl ⟨Prod.ext (by change spa / 128 * 128 = spa; omega) rfl, rfl, rfl⟩
/-- The unit starts at a sector, is of whole sectors, and has the sector in it. -/
theorem State.writeUnit_spec (s : State) (leaf : Dword) {spa : Nat} (ha : spa % 128 = 0) :
    (s.writeUnit leaf spa).1 % 128 = 0 ∧ (s.writeUnit leaf spa).2 % 128 = 0 ∧ (s.writeUnit leaf spa).1 ≤ spa ∧
      spa + 128 ≤ (s.writeUnit leaf spa).1 + (s.writeUnit leaf spa).2 := by
  obtain ⟨h, -, -⟩ | h := s.writeUnit_cases leaf ha
  · rw [h]
    dsimp only
    omega
  · rw [h]
    dsimp only
    omega
theorem lookup_keyedAs (s : State) (key u : Nat × Nat) (hu1 : u.1 % 128 = 0) (hu2 : u.2 % 128 = 0) (a : Nat) :
    ((s.keyedAs key u).lookup (a / 128)).getD (0, 0) = if u.1 ≤ a ∧ a < u.1 + u.2 then key else s.keyAt a := by
  unfold State.keyedAs
  rw [List.lookup_append, lookup_filter_key fun x => !(x * 128 ≥ u.1 && x * 128 < u.1 + u.2)]
  have hpre : (if key = (0, 0) then [] else (List.range (u.2 / 128)).map fun k => (u.1 / 128 + k, key)).lookup (a / 128) =
      if key ≠ (0, 0) ∧ u.1 ≤ a ∧ a < u.1 + u.2 then some key else none := by
    by_cases hk : key = (0, 0)
    · rw [if_pos hk, if_neg fun h => h.1 hk]
      rfl
    · rw [if_neg hk, lookup_range_map]
      exact if_congr ⟨fun h => ⟨hk, by omega⟩, fun h => by omega⟩ rfl rfl
  rw [hpre]
  by_cases hin : u.1 ≤ a ∧ a < u.1 + u.2
  · rw [if_pos hin]
    by_cases hk : key = (0, 0)
    · rw [if_neg fun h => h.1 hk, if_neg (by simp; omega), hk]
      rfl
    · rw [if_pos ⟨hk, hin⟩]
      rfl
  · rw [if_neg hin, if_neg fun h => hin h.2, if_pos (by simp; omega)]
    rfl
theorem State.keyAt_of_sector (s : State) {a b : Nat} (h : a / 128 = b / 128) : s.keyAt a = s.keyAt b := by
  unfold State.keyAt
  rw [h]
theorem State.memGet_rekeyed (s : State) (leaf : Dword) {spa : Nat} (ha : spa % 128 = 0) (a : Nat) :
    memGet (s.rekeyed leaf spa) a =
      if (s.writeUnit leaf spa).1 ≤ a ∧ a < (s.writeUnit leaf spa).1 + (s.writeUnit leaf spa).2 then s.dramByte leaf a else memGet s.mem a := by
  obtain ⟨h1, h2, -, -⟩ := s.writeUnit_spec leaf ha
  unfold State.rekeyed
  dsimp only
  generalize s.writeUnit leaf spa = u at *
  split
  next hall =>
    split
    next hin =>
      have hkey : s.keyAt a = s.keyNow (leafKey leaf) := by
        have hk := List.all_eq_true.mp hall ((a - u.1) / 128) (List.mem_range.mpr (by omega))
        rw [← of_decide_eq_true hk]
        exact s.keyAt_of_sector (by omega)
      unfold State.dramByte
      rw [if_pos hkey]
    next => rfl
  next =>
    have hl : ((List.range u.2).map fun k => s.dramByte leaf (u.1 + k)).length = u.2 := by rw [List.length_map, List.length_range]
    rw [memGet_memWrite]
    by_cases hin : u.1 ≤ a ∧ a < u.1 + u.2
    · rw [dif_pos (by omega), if_pos hin, List.getElem_map, List.getElem_range, Nat.add_sub_cancel' hin.1]
    · rw [dif_neg (by omega), if_neg hin]

/-- The unit of a byte outside the unit that is written is outside it too. -/
theorem State.unitOf_disjoint (s : State) (leaf : Dword) {spa a b : Nat} (hspa : spa % 128 = 0)
    (ha : ¬((s.writeUnit leaf spa).1 ≤ a ∧ a < (s.writeUnit leaf spa).1 + (s.writeUnit leaf spa).2))
    (hb : (s.unitOf a).1 ≤ b ∧ b < (s.unitOf a).1 + (s.unitOf a).2) :
    ¬((s.writeUnit leaf spa).1 ≤ b ∧ b < (s.writeUnit leaf spa).1 + (s.writeUnit leaf spa).2) := by
  have hu := s.writeUnit_cases leaf hspa
  unfold State.unitOf at hb
  by_cases hr : s.recoded.contains (a / 256) = true
  · rw [if_pos hr] at hb
    obtain ⟨hu, -, hn⟩ | hu := hu
    · have hne : a / 256 ≠ spa / 256 := fun e => by rw [e, hn] at hr; contradiction
      rw [hu]
      dsimp only at hb ⊢
      omega
    · rw [hu] at ha ⊢
      dsimp only at ha hb ⊢
      omega
  · rw [if_neg hr] at hb
    obtain ⟨hu, -, -⟩ | hu := hu
    · rw [hu] at ha ⊢
      dsimp only at ha hb ⊢
      omega
    · rw [hu] at ha ⊢
      dsimp only at ha hb ⊢
      omega
theorem channelOfPa_of_sector {a b : Nat} (h : a / 128 = b / 128) : channelOfPa a = channelOfPa b := by
  unfold channelOfPa
  have hshift : ∀ n : Nat, n >>> 31 = n / 128 / 2 ^ 24 := fun n => by rw [Nat.shiftRight_eq_div_pow]; omega
  rw [hshift, hshift, h]

section
variable {s : State} (h : s.upsetBits = []) (leaf : Dword) (pa : Nat) (bs : List Byte) (hup : s.linkUp pa = true)
  (hlen : pa % 32 + bs.length ≤ 32)
/-- The bytes from `pa` of one granule, as a write to their sector takes them. -/
def granuleBytes (pa : Nat) (bs : List Byte) : List (Nat × Byte) := bs.zipIdx.map fun b => (pa % 128 + b.2, b.1)
theorem foldl_memSet_granuleBytes (m : Memory) :
    (granuleBytes pa bs).foldl (fun m c => memSet m (pa / 128 * 128 + c.1) c.2) m = memWrite m pa bs := by
  have e : pa / 128 * 128 + (pa % 128 + 0) = pa := by omega
  exact (foldl_memSet_zipIdx (pa / 128 * 128) (pa % 128) bs 0 m).trans (by rw [e])
include hup
theorem State.linkUp_sector : s.linkUp (pa / 128 * 128) = true :=
  (congrArg (fun c => s.dramStack[Fin.ofNat 8 (c / 32)].up) (channelOfPa_of_sector (Nat.mul_div_cancel (pa / 128) (by decide)))).trans hup
include h
theorem State.dramWrite_granule_mem :
    (s.dramWrite leaf (pa / 128 * 128) (granuleBytes pa bs)).mem = memWrite (s.rekeyed leaf (pa / 128 * 128)) pa bs := by
  rw [State.dramWrite_clean h leaf _ _ (State.linkUp_sector pa hup)]
  exact foldl_memSet_granuleBytes pa bs _
theorem State.dramWrite_granule_keyAt (a : Nat) :
    (s.dramWrite leaf (pa / 128 * 128) (granuleBytes pa bs)).keyAt a =
      if (s.writeUnit leaf (pa / 128 * 128)).1 ≤ a ∧ a < (s.writeUnit leaf (pa / 128 * 128)).1 + (s.writeUnit leaf (pa / 128 * 128)).2
      then s.keyNow (leafKey leaf) else s.keyAt a := by
  obtain ⟨h1, h2, -, -⟩ := s.writeUnit_spec leaf (Nat.mul_mod_left (pa / 128) 128)
  rw [State.dramWrite_clean h leaf _ _ (State.linkUp_sector pa hup)]
  exact lookup_keyedAs s _ _ h1 h2 a
theorem State.dramWrite_granule_unitOf {a : Nat}
    (ha : ¬((s.writeUnit leaf (pa / 128 * 128)).1 ≤ a ∧ a < (s.writeUnit leaf (pa / 128 * 128)).1 + (s.writeUnit leaf (pa / 128 * 128)).2)) :
    (s.dramWrite leaf (pa / 128 * 128) (granuleBytes pa bs)).unitOf a = s.unitOf a := by
  rw [State.dramWrite_clean h leaf _ _ (State.linkUp_sector pa hup)]
  unfold State.unitOf
  dsimp only
  generalize memRead _ _ 256 = block
  have hrec : ((if leafCmp leaf && recodable block then [pa / 128 * 128 / 256] else []) ++
      s.recoded.filter fun b => b ≠ pa / 128 * 128 / 256).contains (a / 256) = s.recoded.contains (a / 256) := by
    obtain ⟨hu, hc, hr⟩ | hu := s.writeUnit_cases leaf (Nat.mul_mod_left (pa / 128) 128)
    · rw [hc]
      by_cases he : a / 256 = pa / 128 * 128 / 256
      · rw [he, hr]
        simp
      · simp [he]
    · rw [hu] at ha
      dsimp only at ha
      have he : a / 256 ≠ pa / 128 * 128 / 256 := by omega
      split <;> simp [he]
  rw [hrec]
include hlen
theorem State.dramWrite_granule_pois :
    (s.dramWrite leaf (pa / 128 * 128) (granuleBytes pa bs)).pois = if bs.length = 32 then memSet s.pois (pa / 32) 0 else s.pois := by
  rw [State.dramWrite_clean h leaf _ _ (State.linkUp_sector pa hup)]
  have e : pa / 128 * 128 / 32 + pa % 128 / 32 = pa / 32 := by omega
  exact (clearWhole_zipIdx _ _ bs s.pois (by omega) (by omega)).trans (by rw [e])
theorem State.dramWrite_granule_dramByte (a : Nat) :
    (s.dramWrite leaf (pa / 128 * 128) (granuleBytes pa bs)).dramByte leaf a =
      if h : pa ≤ a ∧ a - pa < bs.length then bs[a - pa]'h.2 else s.dramByte leaf a := by
  have hspa := Nat.mul_mod_left (pa / 128) 128
  obtain ⟨-, -, h1, h2⟩ := s.writeUnit_spec leaf hspa
  have hkey := State.dramWrite_granule_keyAt h leaf pa bs hup
  have hmem := State.dramWrite_granule_mem h leaf pa bs hup
  have hnow : (s.dramWrite leaf (pa / 128 * 128) (granuleBytes pa bs)).keyNow (leafKey leaf) = s.keyNow (leafKey leaf) := by
    rw [State.dramWrite_clean h leaf _ _ (State.linkUp_sector pa hup)]
    rfl
  have hget : ∀ b, memGet (memWrite (s.rekeyed leaf (pa / 128 * 128)) pa bs) b = _ := memGet_memWrite bs _ pa
  simp only [s.memGet_rekeyed leaf hspa] at hget
  unfold State.dramByte
  rw [hmem, hkey, hnow]
  by_cases hin : (s.writeUnit leaf (pa / 128 * 128)).1 ≤ a ∧ a < (s.writeUnit leaf (pa / 128 * 128)).1 + (s.writeUnit leaf (pa / 128 * 128)).2
  · rw [if_pos hin, if_pos rfl, hget, if_pos hin]
    rfl
  · have hout : ∀ b, ¬((s.writeUnit leaf (pa / 128 * 128)).1 ≤ b ∧
        b < (s.writeUnit leaf (pa / 128 * 128)).1 + (s.writeUnit leaf (pa / 128 * 128)).2) →
        memGet (memWrite (s.rekeyed leaf (pa / 128 * 128)) pa bs) b = memGet s.mem b := fun b hb => by
      rw [hget, if_neg hb, dif_neg (by omega)]
    rw [if_neg hin, dif_neg (by omega), hout a hin, State.dramWrite_granule_unitOf h leaf pa bs hup hin]
    have hunit : memRead (memWrite (s.rekeyed leaf (pa / 128 * 128)) pa bs) (s.unitOf a).1 (s.unitOf a).2 =
        memRead s.mem (s.unitOf a).1 (s.unitOf a).2 := by
      refine List.map_congr_left fun k hk => hout _ (State.unitOf_disjoint s leaf hspa hin ?_)
      have := List.mem_range.mp hk
      omega
    rw [hunit]
end

/-! ### A write changes the array alone -/
/-- The state with another's array: bytes, keys, recoded blocks, poison and the counters of the stacks. -/
def State.withArray (s u : State) : State :=
  { s with mem := u.mem, keyed := u.keyed, recoded := u.recoded, pois := u.pois, dramStack := u.dramStack }
/-- The two states differ in the array alone. -/
def ArrayOnly (s t : State) : Prop := t = s.withArray t
theorem ArrayOnly.refl (s : State) : ArrayOnly s s := rfl
theorem ArrayOnly.trans {s t u : State} (h : ArrayOnly s t) (h' : ArrayOnly t u) : ArrayOnly s u := by
  have e : t.withArray u = (s.withArray t).withArray u := congrArg (·.withArray u) h
  exact Eq.trans h' e
theorem ArrayOnly.upsetBits {s t : State} (h : ArrayOnly s t) : t.upsetBits = s.upsetBits := by
  have e : t.upsetBits = (s.withArray t).upsetBits := congrArg State.upsetBits h
  exact e
theorem ArrayOnly.dramWrite {s : State} (h : s.upsetBits = []) (leaf : Dword) (spa : Nat) (l : List (Nat × Byte)) :
    ArrayOnly s (s.dramWrite leaf spa l) := by
  cases hup : s.linkUp spa with
  | true =>
    rw [State.dramWrite_clean h leaf spa l hup]
    rfl
  | false =>
    unfold State.dramWrite
    rw [if_pos (by rw [hup]; rfl)]
    rfl
theorem ArrayOnly.foldl {α : Type} {f : State → α → State} (l : List α) {s : State} (h : s.upsetBits = [])
    (hf : ∀ (t : State) (a : α), t.upsetBits = [] → ArrayOnly t (f t a)) : ArrayOnly s (l.foldl f s) := by
  induction l generalizing s with
  | nil => exact .refl s
  | cons a l ih => exact (hf s a h).trans (ih ((hf s a h).upsetBits.trans h))
theorem ArrayOnly.logWrite {s : State} (h : s.upsetBits = []) (p : Fin 16) (leaf : Dword) (pa : Nat) : ArrayOnly s (s.logWrite p leaf pa) := by
  unfold State.logWrite
  dsimp only
  split
  · refine .foldl _ h fun t bank ht => ?_
    rw [State.arrayRead_clean ht]
    exact .dramWrite ht ..
  · exact .refl s
theorem ArrayOnly.writeSector {s : State} (h : s.upsetBits = []) (p : Fin 16) (leaf : Dword) (spa : Nat) (l : List (Nat × Byte)) :
    ArrayOnly s (s.writeSector p leaf spa l) := by
  have hd := ArrayOnly.dramWrite h leaf spa l
  have hl := hd.trans (.logWrite (hd.upsetBits.trans h) p leaf spa)
  unfold State.writeSector
  dsimp only
  split
  · exact .refl s
  · split
    · exact hl.trans rfl
    · exact hl
theorem State.logWrite_of_unlogged (s : State) (p : Fin 16) {leaf : Dword} (pa : Nat) (hlog : leafDlog leaf = false) : s.logWrite p leaf pa = s :=
  if_neg (by rw [hlog]; exact Bool.false_ne_true)
/-- A page that is not logged: what the write to the array leaves, and a counter. -/
theorem State.writeSector_of_unlogged (s : State) (p : Fin 16) {leaf : Dword} {spa : Nat} (l : List (Nat × Byte)) (hup : s.linkUp spa = true)
    (hlog : leafDlog leaf = false) : ∃ d, s.writeSector p leaf spa l = { s.dramWrite leaf spa l with dramStack := d } := by
  unfold State.writeSector
  rw [if_neg (by rw [hup]; decide), State.logWrite_of_unlogged _ p spa hlog]
  dsimp only
  split
  · exact ⟨_, rfl⟩
  · exact ⟨_, rfl⟩

end
end Sys2Proof.Machine
end

