-- ==== Sys2Proof/Proofs/StoredBytes.lean ====
section
/-!
PROOFS. Proofs/StoredBytes.lean: where stored bytes are read again (R199, R201, R202, R205, R302).
-/
namespace Sys2Proof.Machine
noncomputable section

/-- A search after a change that the search does not see. -/
theorem find?_map_ite {α : Type} {p q : α → Bool} {f : α → α} (l : List α) (h : ∀ x, p x = true → q (f x) = q x) :
    (l.map fun x => if p x then f x else x).find? q = (l.find? q).map fun x => if p x then f x else x := by
  rw [List.find?_map]
  congr 2
  funext x
  change q (if p x then f x else x) = q x
  split
  · exact h x ‹_›
  · rfl

/-! ### Core memory (R205) -/
theorem State.wg?_updWg (s : State) (wid v : Nat) {f : Workgroup → Workgroup} (hf : ∀ w, (f w).wid = w.wid) :
    (s.updWg wid f).wg? v = (s.wg? v).map fun w => if w.wid = wid then f w else w := by
  have h := find?_map_ite (p := fun w : Workgroup => w.wid = wid) (q := fun w => w.wid = v && v ≠ 0) (f := f) s.allWgs
    fun w _ => by rw [hf w]
  simp only [decide_eq_true_eq] at h
  exact h
theorem memGet_cmPut (w : Workgroup) (off : Nat) (bs : List Byte) (a : Nat) : memGet (w.cmPut off bs).cm a =
    if h : off ≤ a ∧ a - off < bs.length then bs[a - off]'h.2 else memGet w.cm a := memGet_memWrite bs w.cm off a
theorem State.cmWrite_spec (s : State) (wid off : Nat) (bs : List Byte) (w : Workgroup) (hw : s.wg? wid = some w) :
    let t := s.cmWrite wid off bs
    (∃ w', t.wg? wid = some w' ∧ ∀ a : Nat, memGet w'.cm a = if h : off ≤ a ∧ a - off < bs.length then bs[a - off]'h.2 else memGet w.cm a) ∧
    (∀ v, v ≠ wid → t.wg? v = s.wg? v) ∧ { t with w := s.w, otherWgs := s.otherWgs } = s := by
  have hwid : w.wid = wid := (State.wg?_some hw).2.1
  have ht := fun v => s.wg?_updWg wid v (f := Workgroup.cmPut off bs) fun _ => rfl
  refine ⟨⟨w.cmPut off bs, ?_, memGet_cmPut w off bs⟩, fun v hv => ?_, rfl⟩
  · refine (ht wid).trans ?_
    rw [hw]
    exact congrArg some (if_pos hwid)
  · refine (ht v).trans ?_
    cases hx : s.wg? v with
    | none => rfl
    | some x => exact congrArg some (if_neg fun e => hv ((State.wg?_some hx).2.1.symm.trans e))

/-! ### Acquires (R201) -/
theorem Line.drop_like (l : Line) : l.drop.Like l := ⟨rfl, rfl, rfl, rfl, rfl, rfl, .inr rfl⟩
/-- A change of some members, if it is made. -/
theorem mem_ite_map_ite {α : Type} {c : Prop} [Decidable c] {p : α → Bool} {f : α → α} {l : List α} {y : α}
    (h : y ∈ if c then l.map (fun x => if p x then f x else x) else l) : ∃ x ∈ l, y = x ∧ (c → p x = false) ∨ c ∧ p x = true ∧ y = f x := by
  by_cases hc : c
  · rw [if_pos hc] at h
    obtain ⟨x, hx, rfl⟩ := List.mem_map.mp h
    by_cases hp : p x = true
    · exact ⟨x, hx, .inr ⟨hc, hp, if_pos hp⟩⟩
    · exact ⟨x, hx, .inl ⟨if_neg hp, fun _ => Bool.not_eq_true _ ▸ hp⟩⟩
  · rw [if_neg hc] at h
    exact ⟨y, h, .inl ⟨rfl, fun h => absurd h hc⟩⟩

/-- A copy in L1, in the remote line cache or in L2 after an acquire: it was there, or it is one that the acquire has dropped. -/
theorem State.mem_dropCopiesOf_l1 {s : State} {who : Who} {level : Nat} {e : CoreId × Line} (h : e ∈ (s.dropCopiesOf who level).l1) :
    ∃ x ∈ s.l1, e = x ∧ (1 ≤ level → ¬(x.1 = who.core ∧ x.2.part = who.part ∧ x.2.asid = who.asid)) ∨ e = (x.1, x.2.drop) := by
  obtain ⟨x, hx, ⟨he, hp⟩ | ⟨-, -, he⟩⟩ := mem_ite_map_ite
    (p := fun x : CoreId × Line => x.1 = who.core && (x.2.part = who.part && x.2.asid = who.asid)) h
  · exact ⟨x, hx, .inl ⟨he, fun hl => by simpa using hp hl⟩⟩
  · exact ⟨x, hx, .inr he⟩
theorem State.mem_dropCopiesOf_rlc {s : State} {who : Who} {level : Nat} {e : Fin 2 × Line} (h : e ∈ (s.dropCopiesOf who level).rlc) :
    ∃ x ∈ s.rlc, e = x ∧ (2 ≤ level → ¬(x.1 = dieOf who.core ∧ x.2.part = who.part ∧ x.2.asid = who.asid)) ∨ e = (x.1, x.2.drop) := by
  obtain ⟨x, hx, ⟨he, hp⟩ | ⟨-, -, he⟩⟩ := mem_ite_map_ite
    (p := fun x : Fin 2 × Line => x.1 = dieOf who.core && (x.2.part = who.part && x.2.asid = who.asid)) h
  · exact ⟨x, hx, .inl ⟨he, fun hl => by simpa using hp hl⟩⟩
  · exact ⟨x, hx, .inr he⟩
theorem State.mem_dropCopiesOf_l2 {s : State} {who : Who} {level : Nat} {l : Line} (h : l ∈ (s.dropCopiesOf who level).l2) :
    ∃ x ∈ s.l2, l = x ∧ (3 ≤ level → ¬((x.part = who.part ∧ x.asid = who.asid) ∧ x.dmask = 0)) ∨ l = x.drop := by
  obtain ⟨x, hx, ⟨he, hp⟩ | ⟨-, -, he⟩⟩ := mem_ite_map_ite
    (p := fun x : Line => (x.part = who.part && x.asid = who.asid) && x.dmask = 0) (f := Line.drop) h
  · exact ⟨x, hx, .inl ⟨he, fun hl => by simpa using hp hl⟩⟩
  · exact ⟨x, hx, .inr he⟩
theorem State.Copied.dropCopiesOf (s : State) (who : Who) (level : Nat) : s.Copied (s.dropCopiesOf who level) := by
  refine ⟨rfl, fun l hl => ?_⟩
  have kept : ∀ {x : Line}, x ∈ s.copiesHeld → l = x ∨ l = x.drop → s.holds l := by
    rintro x hx (rfl | rfl)
    · exact State.holds_of_mem hx
    · exact (State.holds_of_mem hx).like x.drop_like
  obtain h | ⟨e, h, rfl⟩ | ⟨e, h, rfl⟩ := State.mem_copiesHeld.mp hl
  · obtain ⟨x, hx, hlx⟩ := State.mem_dropCopiesOf_l2 h
    exact kept (State.mem_copiesHeld.mpr (.inl hx)) (hlx.imp_left And.left)
  · obtain ⟨x, hx, hlx⟩ := State.mem_dropCopiesOf_rlc h
    exact kept (State.mem_copiesHeld.mpr (.inr (.inl ⟨x, hx, rfl⟩))) (hlx.imp (congrArg Prod.snd ·.1) (congrArg Prod.snd))
  · obtain ⟨x, hx, hlx⟩ := State.mem_dropCopiesOf_l1 h
    exact kept (State.mem_copiesHeld.mpr (.inr (.inr ⟨x, hx, rfl⟩))) (hlx.imp (congrArg Prod.snd ·.1) (congrArg Prod.snd))
theorem State.dropCopies_spec (s : State) (level : Nat) :
    let t := s.dropCopies level
    let mine := fun l : Line => l.part = s.me.part ∧ l.asid = s.me.asid
    t.uncached = s.uncached ∧ OnlyCopies s t ∧ (∀ l ∈ s.l2, l.dmask ≠ 0 → l ∈ t.l2) ∧ (level < 3 → t.l2 = s.l2) ∧ (level < 2 → t.rlc = s.rlc) ∧
    (level = 0 → t.l1 = s.l1) ∧
    (1 ≤ level → ∀ e ∈ t.l1, e.1 = s.g.core → mine e.2 → e.2.live = false) ∧
    (2 ≤ level → ∀ e ∈ t.rlc, e.1 = dieOf s.g.core → mine e.2 → e.2.live = false) ∧
    (3 ≤ level → ∀ l ∈ t.l2, mine l → l.dmask = 0 → l.live = false) := by
  have hcopied := State.Copied.dropCopiesOf s s.me level
  refine ⟨hcopied.1, hcopied.onlyCopies, fun l hl hd => ?_, fun h => if_neg (by omega), fun h => if_neg (by omega), fun h => if_neg (by omega),
    fun h e he hc hm => ?_, fun h e he hc hm => ?_, fun h l hl hm hd => ?_⟩
  · change l ∈ if level ≥ 3 then _ else _
    split
    · refine List.mem_map.mpr ⟨l, hl, if_neg ?_⟩
      simpa using fun _ _ => hd
    · exact hl
  · obtain ⟨x, -, ⟨rfl, hx⟩ | rfl⟩ := State.mem_dropCopiesOf_l1 he
    · exact absurd ⟨hc, hm⟩ (hx h)
    · rfl
  · obtain ⟨x, -, ⟨rfl, hx⟩ | rfl⟩ := State.mem_dropCopiesOf_rlc he
    · exact absurd ⟨hc, hm⟩ (hx h)
    · rfl
  · obtain ⟨x, -, ⟨rfl, hx⟩ | rfl⟩ := State.mem_dropCopiesOf_l2 hl
    · exact absurd ⟨hm, hd⟩ (hx h)
    · rfl

/-! ### The storing core's copies (R199) -/
/-- The storing core's L1 copy takes the bytes or goes, and its die's remote-line copy goes. -/
def State.shed (s : State) (who : Who) (va : Nat) (pol : Pol) (bs : List Byte) : State := (s.storeL1 who va pol bs).dropRlc (dieOf who.core) who va
theorem State.shed_eq (s : State) (who : Who) (va : Nat) (pol : Pol) (bs : List Byte) : ∃ l1 rlc, s.shed who va pol bs = { s with l1 := l1, rlc := rlc } := by
  unfold State.shed State.storeL1
  split
  · exact ⟨_, _, rfl⟩
  · split
    · exact ⟨_, _, rfl⟩
    · exact ⟨_, _, rfl⟩
theorem CleanCaches.shed {s : State} (h : CleanCaches s) (who : Who) (va : Nat) (pol : Pol) (bs : List Byte) : CleanCaches (s.shed who va pol bs) := by
  obtain ⟨l1, rlc, e⟩ := s.shed_eq who va pol bs
  rw [e]
  exact h
theorem State.cacheable_shed (s : State) (who : Who) (leaf : Dword) (va : Nat) (pol : Pol) (bs : List Byte) :
    (s.shed who va pol bs).cacheable who leaf va = s.cacheable who leaf va := by
  refine congrFun₃ (State.cacheable_of_parts ?_) who leaf va
  obtain ⟨l1, rlc, e⟩ := s.shed_eq who va pol bs
  rw [e]
theorem State.putBytes_of_cacheable {s : State} {who : Who} {leaf : Dword} {va : Nat} (h : s.cacheable who leaf va = true) (pa : Nat) (pol : Pol)
    (bs : List Byte) :
    let u := (s.shed who va pol bs).fill who.home leaf pa va 0 pol
    s.putBytes who leaf pa va pol bs = { u with l2 := updL2 who va (Line.put bs (va % 128)) u.l2 } :=
  if_pos ((s.cacheable_shed who leaf va pol bs).trans h)
theorem State.putBytes_of_uncacheable {s : State} {who : Who} {leaf : Dword} {va : Nat} (h : s.cacheable who leaf va = false) (pa : Nat) (pol : Pol)
    (bs : List Byte) :
    s.putBytes who leaf pa va pol bs = ((s.shed who va pol bs).addTlb who leaf pa va).writeSector who.part leaf (pa / 128 * 128) (granuleBytes pa bs) :=
  if_neg (ne_true_of_eq_false ((s.cacheable_shed who leaf va pol bs).trans h))

/-! ### A sector's line in L2 -/
theorem Line.hit_of_sector (who : Who) {a va : Nat} (h : a / 128 = va / 128) : Line.hit who a = Line.hit who va := by
  funext l
  unfold Line.hit lineAt
  rw [h]
theorem lineAt_of_hit {who : Who} {va : Nat} {l : Line} (h : l.hit who va = true) : lineAt who va l = true := (Bool.and_eq_true_iff.mp h).2
theorem Line.hit_put (who : Who) (a : Nat) (bs : List Byte) (off : Nat) (l : Line) : (l.put bs off).hit who a = l.hit who a := rfl
theorem memGet_write_data (l : Line) (bs : List Byte) (off k : Nat) : memGet (l.write bs off).data k =
    if h : off ≤ k ∧ k - off < bs.length then bs[k - off]'h.2 else memGet l.data k := memGet_memWrite bs l.data off k
/-- A byte of the sector, after a store of bytes of one granule into a copy of it. -/
theorem memGet_write_sector {va a : Nat} (bs : List Byte) (ha : a / 128 = va / 128) (l : Line) :
    memGet (l.write bs (va % 128)).data (a % 128) = if h : va ≤ a ∧ a - va < bs.length then bs[a - va]'h.2 else memGet l.data (a % 128) := by
  rw [memGet_write_data]
  by_cases h : va ≤ a ∧ a - va < bs.length
  · have e : a % 128 - va % 128 = a - va := by omega
    rw [dif_pos h, dif_pos (by omega)]
    simp only [e]
  · rw [dif_neg h, dif_neg (by omega)]
theorem find?_hit_updL2 (who : Who) (va : Nat) (bs : List Byte) (off : Nat) (l : List Line) :
    (updL2 who va (Line.put bs off) l).find? (Line.hit who va) = (l.find? (Line.hit who va)).map (Line.put bs off) := by
  refine (find?_map_ite (p := lineAt who va) l fun x _ => Line.hit_put who va bs off x).trans ?_
  cases h : l.find? (Line.hit who va) with
  | none => rfl
  | some x => exact congrArg some (if_pos (lineAt_of_hit (List.find?_some h)))
theorem getLsbD_granules (p : Nat → Bool) {j : Nat} (hj : j < 4) :
    (BitVec.ofNat 4 ((List.range 4).foldl (fun a k => if p k then a + 2 ^ k else a) 0)).getLsbD j = p j := by
  have hall : ∀ (b : Fin 4 → Bool) (i : Fin 4), (BitVec.ofNat 4 ((List.finRange 4).foldl (fun a k => if b k then a + 2 ^ k.val else a) 0)).getLsbD i = b i := by
    decide
  exact hall (fun k => p k) ⟨j, hj⟩
theorem lineAt_newLine (s : State) (who : Who) (leaf : Dword) (pa va : Nat) (pol : Pol) : lineAt who va (newLine s who leaf pa va pol) = true := by
  simp [lineAt, newLine]
theorem Line.hurt_nil_pois (l : Line) : (l.hurt []).pois = l.pois := BitVec.or_zero
/-- The line that a store finds in L2, or brings there. -/
def State.brought (s : State) (who : Who) (leaf : Dword) (pa va : Nat) (pol : Pol) : Line :=
  (s.l2Line who va).getD (newLine s who.home leaf pa va pol)
theorem State.linkUp_of_sector (s : State) {a b : Nat} (h : a / 128 = b / 128) : s.linkUp a = s.linkUp b :=
  congrArg (fun c => s.dramStack[Fin.ofNat 8 (c / 32)].up) (channelOfPa_of_sector h)
theorem State.poisoned_of_granule {s : State} (h : s.upsetBits = []) {a b : Nat} (hab : a / 32 = b / 32) : s.poisoned a = s.poisoned b := by
  unfold State.poisoned
  rw [State.doomed_clean h, State.doomed_clean h, hab, s.linkUp_of_sector (show a / 128 = b / 128 by omega)]
section
variable {s : State} {who : Who} {leaf : Dword} {pa va : Nat} (pol : Pol) (hpa : pa % 128 = va % 128) (hrem : leafRem leaf = false)
  (h : CleanCaches s)
include hpa hrem
theorem State.memGet_brought {a : Nat} (ha : a / 128 = va / 128) :
    memGet (s.brought who leaf pa va pol).data (a % 128) = s.viewByte who.home leaf (pa - va % 128 + a % 128) a := by
  have hheld : s.heldLine who.home a = s.l2Line who va := congrArg (fun f => s.l2.find? f) (Line.hit_of_sector who ha)
  unfold State.viewByte
  rw [show s.heldByte who.home a = none from rfl, hheld]
  unfold State.brought
  cases s.l2Line who va with
  | some l => rfl
  | none =>
    refine (memGet_newLine_data s who.home leaf pa va pol (Nat.mod_lt a (by decide))).trans ?_
    unfold State.baseByte
    rw [hrem, show pa / 128 * 128 + a % 128 = pa - va % 128 + a % 128 by omega]
    rfl
include h
theorem State.pois_brought : (s.brought who leaf pa va pol).pois.getLsbD (va % 128 / 32) = s.sick who.home pa va := by
  have hheld : s.heldLine who.home va = s.l2Line who va := rfl
  unfold State.sick
  rw [show s.heldByte who.home va = none from rfl, hheld]
  unfold State.brought
  cases s.l2Line who va with
  | some l => rfl
  | none =>
    have hj : va % 128 / 32 < 4 := by omega
    refine (getLsbD_granules (fun k => !leafRem leaf && s.poisoned (pa / 128 * 128 + 32 * k)) hj).trans ?_
    rw [hrem]
    refine State.poisoned_of_granule h.1 ?_
    omega
end
/-- A store at the home of a sector: the storing core's copies follow, the sector's line, which has been brought to L2, takes the bytes,
and no other line comes. -/
theorem State.putBytes_home {s : State} {who : Who} {leaf : Dword} {va : Nat} (h : CleanCaches s) (hc : s.cacheable who leaf va = true)
    (pa : Nat) (pol : Pol) (bs : List Byte) :
    ∃ (tl : List Tlb) (l2 : List Line) (x : Line), s.putBytes who leaf pa va pol bs = { s.shed who va pol bs with tlb := tl, l2 := l2 } ∧
      (∀ y ∈ l2, lineAt who va y = false → y ∈ s.l2) ∧ l2.find? (Line.hit who va) = some (x.put bs (va % 128)) ∧
      x.data = (s.brought who leaf pa va pol).data ∧ x.pois = (s.brought who leaf pa va pol).pois := by
  have hshed := CleanCaches.shed h who va pol bs
  have hhome : ∀ l : List Line, (∀ y ∈ l, lineAt who va y = false → y ∈ s.l2) →
      ∀ y ∈ updL2 who va (Line.put bs (va % 128)) l, lineAt who va y = false → y ∈ s.l2 := by
    intro l hl y hy hn
    obtain ⟨z, hz, rfl⟩ := List.mem_map.mp hy
    by_cases hp : lineAt who va z = true
    · rw [if_pos hp] at hn
      exact absurd (hn.symm.trans hp) Bool.false_ne_true
    · rw [if_neg hp]
      exact hl z hz (Bool.eq_false_iff.mpr hp)
  rw [State.putBytes_of_cacheable hc, State.fill_home_clean hshed]
  unfold State.brought
  obtain ⟨l1, rlc, e⟩ := s.shed_eq who va pol bs
  rw [e]
  rw [e] at hshed
  unfold State.fillHome
  dsimp only
  cases hl : s.l2Line who va with
  | some l =>
    have hgot : (State.heldLine { s with l1 := l1, rlc := rlc } who.home va).isSome = true := congrArg Option.isSome hl
    rw [hgot, Bool.not_true, Bool.and_false]
    refine ⟨s.tlb, _, l, rfl, hhome s.l2 fun y hy _ => hy, ?_, rfl, rfl⟩
    exact (find?_hit_updL2 who va bs _ s.l2).trans (congrArg (Option.map _) hl)
  | none =>
    have hgot : (State.heldLine { s with l1 := l1, rlc := rlc } who.home va).isSome = false := congrArg Option.isSome hl
    have hkeep : State.cacheable { s with l1 := l1, rlc := rlc } who.home leaf va = true :=
      (congrFun₃ (State.cacheable_of_parts (by rfl)) who.home leaf va).trans hc
    obtain ⟨tl, e1⟩ := State.addTlb_clean hshed.1 who.home leaf pa va
    rw [hgot, hkeep, if_neg Bool.false_ne_true, e1]
    obtain ⟨w, m, o, rest, e2, hrest⟩ := State.addL2_clean (s := { s with l1 := l1, rlc := rlc, tlb := tl }) hshed.2
      ((newLine { s with l1 := l1, rlc := rlc, tlb := tl } who.home leaf pa va pol).hurt []) who.home va
    rw [Bool.not_false, Bool.and_true, if_pos rfl, e2]
    refine ⟨tl, _, _, rfl, hhome _ fun y hy hn => ?_, (find?_hit_updL2 who va bs _ _).trans (congrArg (Option.map _) (List.find?_cons_of_pos ?_)), ?_, ?_⟩
    · obtain rfl | hy := List.mem_cons.mp hy
      · exact absurd (hn.symm.trans (lineAt_newLine s who.home leaf pa va pol)) Bool.false_ne_true
      · exact (hrest y hy).1
    · exact lineAt_newLine s who.home leaf pa va pol
    · rfl
    · exact Line.hurt_nil_pois _

/-! ### Reading the stored bytes again -/
theorem State.heldByte_of_no_commit {s : State} (h : ∀ c ∈ s.cores, c.commit = []) (who : Who) (va : Nat) : s.heldByte who va = none := by
  have hm : (s.cores.filter fun c => c.id = who.core).flatMap (·.commit) = [] :=
    List.flatMap_eq_nil_iff.mpr fun c hc => h c (List.mem_of_mem_filter hc)
  unfold State.heldByte
  dsimp only
  rw [hm]
  exact ite_self _
theorem State.shed_rlcLine (s : State) (who : Who) {a va : Nat} (ha : a / 128 = va / 128) (pol : Pol) (bs : List Byte) :
    (s.shed who va pol bs).rlcLine who a = none := by
  refine Option.map_eq_none_iff.mpr (List.find?_eq_none.mpr fun e he hp => ?_)
  rw [Line.hit_of_sector who ha] at hp
  obtain ⟨hd, hh⟩ := Bool.and_eq_true_iff.mp hp
  have hn := (List.mem_filter.mp he).2
  rw [hd, lineAt_of_hit hh] at hn
  contradiction
/-- A line of L1 that answers the storing core has the bytes. -/
theorem State.shed_l1Line {s : State} {who : Who} (hw : who.engine = false) {a va : Nat} (ha : a / 128 = va / 128) (pol : Pol) (bs : List Byte)
    {x : Line} (hx : (s.shed who va pol bs).l1Line who a = some x) : ∃ y : Line, x = y.write bs (va % 128) := by
  unfold State.l1Line at hx
  rw [Line.hit_of_sector who ha] at hx
  unfold State.shed State.storeL1 at hx
  rw [if_neg (by rw [hw]; exact Bool.false_ne_true)] at hx
  obtain ⟨e, he, rfl⟩ := Option.map_eq_some_iff.mp hx
  have hp := List.find?_some he
  have hm := List.mem_of_find?_eq_some he
  clear hx he
  obtain ⟨hc, hh⟩ := Bool.and_eq_true_iff.mp hp
  split at hm
  · have hn := (List.mem_filter.mp hm).2
    rw [hc, lineAt_of_hit hh] at hn
    contradiction
  · obtain ⟨z, hz, rfl⟩ := List.mem_map.mp hm
    by_cases hp : (decide (z.1 = who.core) && lineAt who va z.2) = true
    · rw [if_pos hp]
      exact ⟨z.2, rfl⟩
    · rw [if_neg hp] at hc hh
      exact absurd (Bool.and_eq_true_iff.mpr ⟨hc, lineAt_of_hit hh⟩) hp

/-- What a store of bytes of one granule leaves as it was, wherever they go. -/
theorem State.putBytes_frame {s : State} (h : CleanCaches s) (who : Who) (leaf : Dword) (pa va : Nat) (pol : Pol) (bs : List Byte) :
    let t := s.putBytes who leaf pa va pol bs
    t.tags = s.tags ∧ t.w = s.w ∧ t.otherWgs = s.otherWgs ∧ t.g = s.g ∧ t.others = s.others ∧
    ∀ x ∈ t.l2, lineAt who va x = false → x ∈ s.l2 := by
  obtain ⟨l1, rlc, e⟩ := s.shed_eq who va pol bs
  intro t
  cases hc : s.cacheable who leaf va with
  | true =>
    obtain ⟨tl, l2, x, ht, hl2, -⟩ := State.putBytes_home h hc pa pol bs
    rw [e] at ht
    have ht : t = _ := ht
    rw [ht]
    exact ⟨rfl, rfl, rfl, rfl, rfl, hl2⟩
  | false =>
    have hs := CleanCaches.shed h who va pol bs
    obtain ⟨tl, e1⟩ := State.addTlb_clean hs.1 who leaf pa va
    have ht : ArrayOnly _ t := State.putBytes_of_uncacheable hc pa pol bs ▸ ArrayOnly.writeSector (by rw [e1]; exact hs.1) ..
    rw [e1, e] at ht
    have ht : t = _ := ht
    rw [ht]
    exact ⟨rfl, rfl, rfl, rfl, rfl, fun x hx _ => hx⟩

section
variable {s : State} {who : Who} {leaf : Dword} {pa va : Nat} (pol : Pol) (bs : List Byte) (hlen : va % 32 + bs.length ≤ 32)
  (hpa : pa % 128 = va % 128) (hrem : leafRem leaf = false) (h : CleanCaches s)
include hpa hrem h
/-- At the home, and without held stores at the storing core. -/
theorem State.putBytes_views (hc : s.cacheable who leaf va = true) {a : Nat} (ha : a / 128 = va / 128) :
    let t := s.putBytes who leaf pa va pol bs
    (t.viewByte who.home leaf (pa - va % 128 + a % 128) a =
      if h : va ≤ a ∧ a - va < bs.length then bs[a - va]'h.2 else s.viewByte who.home leaf (pa - va % 128 + a % 128) a) ∧
    ((∀ c ∈ s.cores, c.commit = []) → ∀ hin : va ≤ a ∧ a - va < bs.length,
      t.viewByte who leaf (pa - va % 128 + a % 128) a = bs[a - va]'hin.2) := by
  intro t
  obtain ⟨tl, l2, x, ht, -, hfind, hdata, -⟩ := State.putBytes_home h hc pa pol bs
  have ht : t = { s.shed who va pol bs with tlb := tl, l2 := l2 } := ht
  have hl2 : ∀ w : Who, w.part = who.part → w.asid = who.asid → t.l2Line w a = some (x.put bs (va % 128)) := fun w hp hs => by
    have hhit : Line.hit w a = Line.hit who va := by
      rw [Line.hit_of_sector w ha]
      unfold Line.hit lineAt
      rw [hp, hs]
    rw [← hfind, ht]
    exact congrArg (fun f => l2.find? f) hhit
  have hbyte : memGet (x.put bs (va % 128)).data (a % 128) =
      if h : va ≤ a ∧ a - va < bs.length then bs[a - va]'h.2 else s.viewByte who.home leaf (pa - va % 128 + a % 128) a := by
    refine (memGet_write_sector bs ha x).trans ?_
    rw [hdata, State.memGet_brought pol hpa hrem ha]
  have hhome : t.heldLine who.home a = some (x.put bs (va % 128)) := hl2 who.home rfl rfl
  refine ⟨?_, fun hcommit hin => ?_⟩
  · unfold State.viewByte
    rw [hhome, show t.heldByte who.home a = none from rfl]
    exact hbyte
  · have hcores : t.cores = s.cores := by
      rw [ht]
      obtain ⟨l1, rlc, e⟩ := s.shed_eq who va pol bs
      rw [e]
    rw [dif_pos hin] at hbyte
    unfold State.viewByte
    rw [State.heldByte_of_no_commit (hcores ▸ hcommit)]
    have hline : ∃ y : Line, t.heldLine who a = some y ∧ memGet y.data (a % 128) = bs[a - va]'hin.2 := by
      cases hw : who.engine with
      | true =>
        refine ⟨_, ?_, hbyte⟩
        unfold State.heldLine
        rw [hw]
        exact hl2 who rfl rfl
      | false =>
        have hr : t.rlcLine who a = none := by
          rw [ht]
          exact s.shed_rlcLine who ha pol bs
        have hl1 : ∀ y, (if who.bypass then none else t.l1Line who a) = some y → ∃ z : Line, y = z.write bs (va % 128) := by
          intro y hy
          split at hy
          · contradiction
          · rw [ht] at hy
            exact State.shed_l1Line hw ha pol bs hy
        unfold State.heldLine
        rw [hw, if_neg Bool.false_ne_true, hr, hl2 who rfl rfl]
        cases hy : if who.bypass then none else t.l1Line who a with
        | none => exact ⟨_, rfl, hbyte⟩
        | some y =>
          obtain ⟨z, rfl⟩ := hl1 y hy
          exact ⟨_, rfl, (memGet_write_sector bs ha z).trans (dif_pos hin)⟩
    obtain ⟨y, hy, hb⟩ := hline
    rw [hy]
    exact hb
include hlen
theorem State.putBytes_sick (hc : s.cacheable who leaf va = true) :
    (s.putBytes who leaf pa va pol bs).sick who.home pa va = if bs.length = 32 then false else s.sick who.home pa va := by
  obtain ⟨tl, l2, x, ht, -, hfind, -, hpois⟩ := State.putBytes_home h hc pa pol bs
  rw [ht]
  have hheld : State.heldLine { s.shed who va pol bs with tlb := tl, l2 := l2 } who.home va = some (x.put bs (va % 128)) := hfind
  unfold State.sick
  rw [hheld, show State.heldByte { s.shed who va pol bs with tlb := tl, l2 := l2 } who.home va = none from rfl]
  change (x.put bs (va % 128)).pois.getLsbD (va % 128 / 32) = if bs.length = 32 then false else s.sick who.home pa va
  unfold Line.put Line.write
  dsimp only
  split
  · have hj : va % 128 / 32 < 4 := by omega
    rw [BitVec.getLsbD_and, BitVec.getLsbD_not, BitVec.getLsbD_shiftLeft]
    simp [hj]
  · rw [hpois]
    exact State.pois_brought pol hpa hrem h
omit hlen hpa hrem
theorem State.putBytes_home_array (hc : s.cacheable who leaf va = true) (pa : Nat) :
    (s.putBytes who leaf pa va pol bs).mem = s.mem ∧ (s.putBytes who leaf pa va pol bs).pois = s.pois := by
  obtain ⟨tl, l2, x, ht, -⟩ := State.putBytes_home h hc pa pol bs
  obtain ⟨l1, rlc, e⟩ := s.shed_eq who va pol bs
  rw [ht, e]
  exact ⟨rfl, rfl⟩
/-- At the channel. -/
theorem State.putBytes_channel (hlen : pa % 32 + bs.length ≤ 32) (hc : s.cacheable who leaf va = false) (hup : s.linkUp pa = true) (hlog : leafDlog leaf = false) :
    let t := s.putBytes who leaf pa va pol bs
    (∀ a : Nat, t.dramByte leaf a = if h : pa ≤ a ∧ a - pa < bs.length then bs[a - pa]'h.2 else s.dramByte leaf a) ∧
    t.pois = if bs.length = 32 then memSet s.pois (pa / 32) 0 else s.pois := by
  intro t
  have hs := CleanCaches.shed h who va pol bs
  obtain ⟨l1, rlc, e⟩ := s.shed_eq who va pol bs
  obtain ⟨tl, e1⟩ := State.addTlb_clean hs.1 who leaf pa va
  have ht : t = _ := State.putBytes_of_uncacheable hc pa pol bs
  rw [e] at e1
  rw [e, e1] at ht
  obtain ⟨d, e2⟩ := State.writeSector_of_unlogged { s with l1 := l1, rlc := rlc, tlb := tl } who.part (leaf := leaf) (spa := pa / 128 * 128)
    (granuleBytes pa bs) (State.linkUp_sector pa hup) hlog
  rw [e2] at ht
  have hclean : State.upsetBits { s with l1 := l1, rlc := rlc, tlb := tl } = [] := h.1
  rw [ht]
  exact ⟨State.dramWrite_granule_dramByte hclean leaf pa bs hup hlen, State.dramWrite_granule_pois hclean leaf pa bs hup hlen⟩
end

theorem storedBytes_clause : Clause.StoredBytes := by
  refine ⟨fun s who leaf pa va pol bs hlen hpa hrem h => ?_, State.cmWrite_spec, fun s who leaf pa va deep pol h => ?_, State.dropCopies_spec⟩
  · obtain ⟨h1, h2, h3, h4, h5, h6⟩ := State.putBytes_frame h who leaf pa va pol bs
    refine ⟨h1, h2, h3, h4, h5, h6, fun hc => ?_, fun hc hup hlog => ?_, fun hc hcommit a hin => ?_⟩
    · obtain ⟨hm, hp⟩ := State.putBytes_home_array pol bs h hc pa
      exact ⟨hm, hp, fun a ha => (State.putBytes_views pol bs hpa hrem h hc ha).1, State.putBytes_sick pol bs hlen hpa hrem h hc⟩
    · exact State.putBytes_channel pol bs h (by omega) hc hup hlog
    · exact (State.putBytes_views pol bs hpa hrem h hc (by omega)).2 hcommit hin
  · exact ⟨(State.Copied.fill h ..).onlyCopies, (State.Copied.fill h ..).1⟩

end
end Sys2Proof.Machine
end

