-- ==== Sys2Proof/Proofs/RegisterWindow.lean ====
section
/-!
PROOFS. Proofs/RegisterWindow.lean: which group an offset of the register window names, what is read there and what a write changes
(R37, R38).
-/
namespace Sys2Proof.Machine
noncomputable section

/-! ### What an offset names (R37) -/
theorem bits_eq (x hi lo : Nat) : bits x hi lo = x / 2 ^ lo % 2 ^ (hi + 1 - lo) := by
  unfold bits
  rw [Nat.shiftRight_eq_div_pow]
theorem winOf_eq (off : Nat) : winOf off =
    { lane := off / 4 % 128, reg := off / 2 ^ 9 % 64, cls := off / 2 ^ 15 % 4, gslot := off / 2 ^ 17 % 16, simd := off / 2 ^ 21 % 4,
      core := off / 2 ^ 23 % 256, csr := off / 4 % 2 ^ 13 } := by
  unfold winOf
  simp only [bits_eq]
  rfl
theorem State.window?_some {s : State} {ctx off : Nat} {write : Bool} {h : Group} (hw : s.window? ctx off write = some h) :
    off % 4 = 0 ∧ s.winGroup ctx (winOf off) = some h ∧ winOk h (winOf off) = true ∧ (write = true → h.status = .halted ∨ h.status = .parked) := by
  unfold State.window? at hw
  split at hw
  · contradiction
  next hn =>
    split at hw
    · contradiction
    · split at hw
      next g hg hok =>
        obtain rfl := Option.some.inj hw
        obtain ⟨h1, h2⟩ := Bool.and_eq_true_iff.mp hok
        exact ⟨not_not.mp hn, hg, h1, fun e => by simpa [e] using h2⟩
      · contradiction
theorem State.winGroup_some {s : State} {ctx : Nat} {x : Win} {h : Group} (hw : s.winGroup ctx x = some h) :
    h ∈ s.allGroups ∧ h.gid ≠ 0 ∧ h.method = none ∧ h.core.val = x.core ∧ h.simd.val = x.simd ∧ h.gslot.val = x.gslot ∧ s.ctxOfGroup h = some ctx := by
  have hp := List.find?_some hw
  simp only [Bool.and_eq_true, decide_eq_true_eq, Option.isNone_iff_eq_none] at hp
  obtain ⟨⟨⟨⟨⟨h1, h2⟩, h3⟩, h4⟩, h5⟩, h6⟩ := hp
  exact ⟨List.mem_of_find?_eq_some hw, h1, h2, h3, h4, h5, h6⟩

/-! ### A group of its number -/
theorem State.group?_updGroup (s : State) (gid k : Nat) {f : Group → Group} (hf : ∀ g, (f g).gid = g.gid) :
    (s.updGroup gid f).group? k = (s.group? k).map fun g => if g.gid = gid then f g else g := by
  have h := find?_map_ite (p := fun g : Group => g.gid = gid) (q := fun g => g.gid = k && k ≠ 0) (f := f) s.allGroups
    fun g _ => by rw [hf g]
  simp only [decide_eq_true_eq] at h
  exact h
theorem State.group?_gid {s : State} {k : Nat} {g : Group} (h : s.group? k = some g) : g.gid = k := by
  have hp := List.find?_some h
  simp only [Bool.and_eq_true, decide_eq_true_eq] at hp
  exact hp.1
theorem State.group?_of_mem {s : State} (hn : (s.allGroups.map (·.gid)).Nodup) {g : Group} (hm : g ∈ s.allGroups) (h0 : g.gid ≠ 0) :
    s.group? g.gid = some g := by
  have hsome : (s.group? g.gid).isSome = true := List.find?_isSome.mpr ⟨g, hm, by simpa using h0⟩
  obtain ⟨x, hx⟩ := Option.isSome_iff_exists.mp hsome
  rw [hx, List.inj_on_of_nodup_map hn (List.mem_of_find?_eq_some hx) hm (State.group?_gid hx)]

/-! ### A write through the window (R38) -/
/-- A group as a write to its registers leaves it, whichever slot issues. -/
theorem Group.select_setRegs (h : Group) (f : Regs → Regs) (p : BitVec 64 → BitVec 64) :
    ({ h.select 0 with regs := f (h.select 0).regs, poisonHalt := p (h.select 0).poisonHalt } : Group).select h.sel =
      { h with regs := f h.regs, poisonHalt := p h.poisonHalt } := by
  unfold Group.select
  by_cases h0 : 0 = h.sel
  · rw [if_pos h0]
    exact if_pos rfl
  · rw [if_neg h0]
    exact if_neg fun e => h0 e.symm
theorem pOfBits_setWidth (w : Word) : pOfBits (w.setWidth 2) =
    if w.toNat % 4 = 0 then .f else if w.toNat % 4 = 1 then .t else if w.toNat % 4 = 2 then .u else .never := by
  have heq : ∀ k : Nat, k < 4 → (w.setWidth 2 = BitVec.ofNat 2 k ↔ w.toNat % 4 = k) := fun k hk => by
    rw [← BitVec.toNat_inj, BitVec.toNat_setWidth, BitVec.toNat_ofNat]
    omega
  unfold pOfBits
  exact if_congr (heq 0 (by decide)) rfl (if_congr (heq 1 (by decide)) rfl (if_congr (heq 2 (by decide)) rfl rfl))
/-- What a write through the window makes of its group. -/
def Group.windowed (s : State) (x : Win) (w : Word) (h : Group) : Group := (State.winSet x w { s with g := h.select 0 }).g.select h.sel
section
variable (s : State) {x : Win} (w : Word) (h : Group)
theorem Group.windowed_vector (hx : x.cls = 0) :
    h.windowed s x w = { h with regs := h.regs.setV (Fin.ofNat 64 x.reg) (1#96 <<< x.lane) fun _ => w } := by
  unfold Group.windowed State.winSet
  rw [hx]
  exact h.select_setRegs (·.setV (Fin.ofNat 64 x.reg) (1#96 <<< x.lane) fun _ => w) id
theorem Group.windowed_scalar (hx : x.cls = 1) (hr : x.reg < 60) :
    h.windowed s x w = { h with
      regs := { h.regs with s := h.regs.s.set x.reg w, spois := h.regs.spois &&& ~~~(1#64 <<< x.reg) }
      poisonHalt := h.poisonHalt &&& ~~~(1#64 <<< x.reg) } := by
  have hk : (Fin.ofNat 64 x.reg).val = x.reg := Nat.mod_eq_of_lt (by omega)
  unfold Group.windowed State.winSet State.setS
  rw [hx]
  simp only [hk, dif_pos hr]
  exact h.select_setRegs (fun r => { r with s := r.s.set x.reg w, spois := r.spois &&& ~~~(1#64 <<< x.reg) }) (· &&& ~~~(1#64 <<< x.reg))
theorem Group.windowed_predicate (hx : x.cls = 2) :
    h.windowed s x w = { h with regs := h.regs.setP (Fin.ofNat 8 x.reg) (1#96 <<< x.lane) fun _ => pOfBits (w.setWidth 2) } := by
  unfold Group.windowed State.winSet
  rw [hx]
  exact h.select_setRegs (·.setP (Fin.ofNat 8 x.reg) (1#96 <<< x.lane) fun _ => pOfBits (w.setWidth 2)) id
theorem Group.windowed_csr (hx : x.cls = 3) : h.windowed s x w = { h with regs := h.regs.csrSet x.csr w } := by
  unfold Group.windowed State.winSet
  rw [hx]
  exact h.select_setRegs (·.csrSet x.csr w) id
end
theorem State.setActive_gid (s : State) (m : Mask) : (s.setActive m).g.gid = s.g.gid := by
  unfold State.setActive
  split <;> rfl
theorem State.setS_gid (s : State) (d : SReg) (w : Word) : (s.setS d w).g.gid = s.g.gid := by
  unfold State.setS
  split
  · rfl
  · split
    · exact s.setActive_gid _
    · rfl
theorem Group.select_gid (g : Group) (k : Fin 2) : (g.select k).gid = g.gid := by
  unfold Group.select
  split <;> rfl
theorem State.winSet_gid (s : State) (x : Win) (w : Word) : (State.winSet x w s).g.gid = s.g.gid := by
  unfold State.winSet
  split
  · rfl
  · exact s.setS_gid _ _
  · rfl
  · rfl
theorem Group.windowed_gid (s : State) (x : Win) (w : Word) (h : Group) : (h.windowed s x w).gid = h.gid :=
  (Group.select_gid ..).trans ((State.winSet_gid ..).trans (h.select_gid 0))
theorem State.winWrite_eq (s : State) (g : Group) (x : Win) (w : Word) : s.winWrite g x w = s.updGroup g.gid (Group.windowed s x w) := rfl

theorem leNat_leBytes (n x : Nat) : leNat (leBytes n x) = x % 256 ^ n := by
  induction n generalizing x with
  | zero => exact (Nat.mod_one x).symm
  | succ n ih =>
    unfold leBytes leNat
    rw [ih, BitVec.toNat_ofNat]
    exact (Nat.mod_mul (x := x) (a := 256) (b := 256 ^ n)).symm.trans (by rw [Nat.pow_succ'])
theorem ofNat_toNat_self (w : Word) : BitVec.ofNat 32 w.toNat = w := by
  rw [BitVec.ofNat_toNat, BitVec.setWidth_eq]
theorem ofNat_leBytes_four (w : Word) : BitVec.ofNat 32 (leNat (leBytes 4 w.toNat)) = w := by
  rw [leNat_leBytes, show 256 ^ 4 = 2 ^ 32 by norm_num, Nat.mod_eq_of_lt w.isLt]
  exact ofNat_toNat_self w

/-! ### Words through the window -/
section
variable {s : State} {h : Group} {off : Nat}
theorem State.loadVal_window (hw : s.window? s.myCtx off false = some h) (hn : s.heldWin off = none) (va : Dword) :
    BitVec.ofNat 32 (s.loadVal 4 (.window off va)) = s.winRead h (winOf off) := by
  unfold State.loadVal State.valAs
  dsimp only
  rw [hw, hn]
  exact ofNat_toNat_self _
theorem State.storeAt_window (hw : s.window? s.myCtx off true = some h) (hr : s.g.region ≠ .trans) (pol : Pol) (va : Dword) (w : Word) :
    s.storeAt pol (.window off va) (leBytes 4 w.toNat) = s.updGroup h.gid (Group.windowed s (winOf off) w) := by
  unfold State.storeAt
  dsimp only
  rw [if_neg hr, hw, ofNat_leBytes_four]
  exact s.winWrite_eq h _ w
/-- The named group is changed, and no other. -/
theorem State.group?_windowed (hm : h ∈ s.allGroups) (h0 : h.gid ≠ 0) (hn : (s.allGroups.map (·.gid)).Nodup) (x : Win) (w : Word) :
    (s.updGroup h.gid (Group.windowed s x w)).group? h.gid = some (h.windowed s x w) ∧
    ∀ k, k ≠ h.gid → (s.updGroup h.gid (Group.windowed s x w)).group? k = s.group? k := by
  have hgid := Group.windowed_gid s x w
  refine ⟨?_, fun k hk => ?_⟩
  · rw [s.group?_updGroup _ _ hgid, State.group?_of_mem hn hm h0]
    exact congrArg some (if_pos rfl)
  · rw [s.group?_updGroup _ _ hgid]
    cases hg : s.group? k with
    | none => rfl
    | some g => exact congrArg some (if_neg fun e => hk ((State.group?_gid hg).symm.trans e))
end

theorem registerWindow_names (s : State) (ctx off : Nat) (write : Bool) (h : Group) (hw : s.window? ctx off write = some h) :
    off % 4 = 0 ∧ h ∈ s.allGroups ∧ h.gid ≠ 0 ∧ h.method = none ∧ h.core.val = off / 2 ^ 23 % 256 ∧
    h.simd.val = off / 2 ^ 21 % 4 ∧ h.gslot.val = off / 2 ^ 17 % 16 ∧ s.ctxOfGroup h = some ctx ∧
    (write = true → h.status = .halted ∨ h.status = .parked) ∧
    (off / 2 ^ 15 % 4 = 0 → off / 4 % 128 < 96 ∧ (off / 2 ^ 9 % 64 < 32 ∨ h.regs.extb = true)) := by
  obtain ⟨ha, hg, hok, hst⟩ := State.window?_some hw
  obtain ⟨hm, h0, hme, hc, hsi, hsl, hx⟩ := State.winGroup_some hg
  rw [winOf_eq] at hc hsi hsl hok
  refine ⟨ha, hm, h0, hme, hc, hsi, hsl, hx, hst, fun hcls => ?_⟩
  unfold winOk at hok
  dsimp only at hok
  rw [hcls] at hok
  simpa using hok

theorem Group.readS_set {h : Group} {r : Nat} {w : Word} {x : BitVec 64} {p : BitVec 64} (hr : r < 60) :
    Group.readS { h with regs := { h.regs with s := h.regs.s.set r w, spois := x }, poisonHalt := p } (Fin.ofNat 64 r) = w := by
  have hk : (Fin.ofNat 64 r).val = r := Nat.mod_eq_of_lt (by omega)
  unfold Group.readS
  simp only [hk, dif_pos hr]
  exact Vector.getElem_set_self hr

theorem registerWindow_clause : Clause.RegisterWindow := by
  refine ⟨registerWindow_names, fun s h off va pol w hr hn => ?_⟩
  have hread := State.loadVal_window hr hn va
  rw [winOf_eq] at hread
  refine ⟨fun hc => hread.trans ?_, fun hc => hread.trans ?_, fun hc => hread.trans ?_, fun hw htr hnd => ?_⟩
  · simp only [State.winRead, hc]
  · simp only [State.winRead, hc]
  · simp only [State.winRead, hc]
  · obtain ⟨-, hm, h0, -⟩ := registerWindow_names s _ off true h hw
    have ht := State.storeAt_window hw htr pol va w
    rw [winOf_eq] at ht
    obtain ⟨hself, hothers⟩ := State.group?_windowed hm h0 hnd (winOf off) w
    rw [winOf_eq] at hself hothers
    rw [ht]
    refine ⟨hothers, rfl, fun hc => ?_, fun hc hlt => ?_, fun hc => ?_, fun hc => ?_⟩
    · rw [hself, Group.windowed_vector s w h hc]
    · rw [hself, Group.windowed_scalar s w h hc hlt]
      exact ⟨_, rfl, Group.readS_set hlt, rfl⟩
    · rw [hself, Group.windowed_predicate s w h hc, pOfBits_setWidth]
      have hcases : w.toNat % 4 = 0 ∨ w.toNat % 4 = 1 ∨ w.toNat % 4 = 2 ∨ w.toNat % 4 = 3 := by omega
      obtain h4 | h4 | h4 | h4 := hcases <;> (rw [h4]; rfl)
    · rw [hself, Group.windowed_csr s w h hc]

/-- Settles O43, by the frames of a fill and of a store without soft errors and dirty lines, and the windowed group. -/
theorem storedBytes : Obligations.StoredBytes := ⟨storedBytes_clause, registerWindow_clause⟩

end
end Sys2Proof.Machine
end

