-- ==== Sys2Proof/Proofs/ExtendedBlock.lean ====
section
/-!
PROOFS. Proofs/ExtendedBlock.lean: words that are ILLEGAL where they stand (R47), words that wait, and the extended block (R26-R29).
-/
namespace Sys2Proof.Machine
noncomputable section

/-! ### Ends of an issue without an effect -/
theorem Stands.src {i : Instr} {s : State} (h : Stands i s) : s.src = s.g := by
  unfold State.src
  rw [h.alone]
  rfl
theorem issue_outlawed {i : Instr} {body : State → State} {s : State} (hx : exec i s = issue i body s) (ho : Stands i s → s.outlaw i = true) :
    Outlawed i s := by
  intro hS
  have hc : s.canIssue = true := by
    unfold State.canIssue
    rw [hS.src, hS.leaf, hS.ready]
    rfl
  have hi : s.illegal i = true := by
    unfold State.illegal
    rw [ho hS, hS.alone]
    exact Bool.or_true _
  have hm : s.lanes false = s.g.amask := by
    unfold State.lanes
    rw [hS.src, hS.alone]
    exact BitVec.and_allOnes
  have hw : s.illegalWord i.len = ((if s.g.amask = 0 then s
      else (s.raise 0x01 s.g.amask).setRegs fun r => { r with retired := r.retired + 1 }).advance i.len).closeIssue := by
    obtain ⟨fs, h⟩ := s.raise_latch 0x01 s.g.amask
    unfold State.illegalWord State.countRetired
    rw [hm]
    dsimp only
    rw [h, hS.alone]
    rfl
  rw [hx, ← hw]
  exact (if_neg (by rw [hc]; exact Bool.false_ne_true)).trans (if_pos hi)
theorem issueSeq_outlawed {i : Instr} {body : State → State} {s : State} (hx : exec i s = issueSeq i body s) (ho : Stands i s → s.outlaw i = true) :
    Outlawed i s := issue_outlawed hx ho
theorem issueSeq_waits {i : Instr} {body : State → State} {s : State} (hx : exec i s = issueSeq i body s) (hI : Issues i s)
    (hs : (body (s.begun i)).latch.stall = true) : exec i s = .next (body (s.begun i)) := by
  have hb : body (s.withLatch { len := i.len, depth := some s.depthNow }) = body (s.begun i) := rfl
  rw [hx]
  unfold issueSeq
  rw [issue_still hI]
  dsimp only
  rw [hb, if_pos hs, if_pos hs]
theorem issueSeq_effect {i : Instr} {body : State → State} {s u : State} (hx : exec i s = issueSeq i body s) (hI : Issues i s)
    (hu : body (s.begun i) = u.withLatch { len := i.len, depth := some s.depthNow }) (h0 : u.latch = s.latch)
    (hd : u.g.debt = s.g.debt) (hr : u.g.status = s.g.status) (hF : Flows u i.len) : GoesOn i s u :=
  issueSeq_goesOn hx hI hu ⟨rfl, rfl, rfl, rfl, rfl, rfl, rfl, rfl⟩ (by rw [h0, hI.alone]) (hd.trans hI.calm) (hr.trans hI.ready) hF
theorem waitFor_stall (s : State) (w : Wait) : (s.waitFor w).latch.stall = true := rfl

/-! ### The extended block -/
theorem Regs.grow_extb (r : Regs) : r.grow.extb = true := by
  unfold Regs.grow
  rfl
theorem Regs.grow_lactive (r : Regs) : r.grow.lactive = r.lactive := by
  unfold Regs.grow
  rfl
theorem Regs.grow_v (r : Regs) (k : VReg) : r.grow.v[k] = if k.val < 32 then r.v[k] else Vector.replicate 96 0 := by
  unfold Regs.grow
  exact Vector.getElem_ofFn k.isLt
theorem Regs.grow_rest (r : Regs) : { r.grow with extb := r.extb, v := r.v, vpois := r.vpois } = r := by
  unfold Regs.grow
  rfl
theorem exec_vgrow (s : State) : exec .vgrow s = execVgrow s := rfl
theorem exec_vgrowTry (d : SReg) (s : State) : exec (.vgrowTry d) s = execVgrowTry d s := rfl
theorem exec_vshrink (s : State) : exec .vshrink s = execVshrink s := rfl
theorem Flows.setRegs {s : State} {len : Nat} (h : Flows s len) {f : Regs → Regs} (hf : (f s.g.regs).lactive = s.g.regs.lactive) :
    Flows (s.setRegs f) len := by
  intro l hl
  change _ ∨ (f s.g.regs).lactive = 0 ∨ _
  rw [hf]
  exact h l hl
theorem Flows.wake {s : State} {len : Nat} (h : Flows s len) : Flows s.wake len := h
/-- A change of the group's registers is blind to the latch. -/
theorem setRegs_effect {i : Instr} {body : State → State} {s : State} {f : Regs → Regs} (hx : exec i s = issueSeq i body s)
    (hu : body (s.begun i) = (s.begun i).setRegs f) (hf : (f s.g.regs).lactive = s.g.regs.lactive) : Effect i s 0 (s.setRegs f) := fun hI hF _ =>
  issueSeq_effect hx hI hu rfl rfl rfl (hF.setRegs hf)
theorem setS_effect {i : Instr} {body : State → State} {s u : State} {d : SReg} {x : Word} (hx : exec i s = issueSeq i body s)
    (hu : body (s.begun i) = (u.withLatch { len := i.len, depth := some s.depthNow }).setS d x) (h0 : u.latch = s.latch) (hd : u.g.debt = s.g.debt)
    (hr : u.g.status = s.g.status) (hF : Flows s i.len → Flows u i.len) : Effect i s 0 (u.setS d x) := fun hI hFs _ => by
  obtain ⟨h1, h2, h3, h4⟩ := setS_keeps u d x
  exact issueSeq_effect hx hI (hu.trans (setS_latch ..)) (h1.trans h0) (h2.trans hd) (h3.trans hr) (h4 _ (hF hFs))
theorem setRegs_setS_effect {i : Instr} {body : State → State} {s : State} {f : Regs → Regs} {d : SReg} {x : Word}
    (hx : exec i s = issueSeq i body s) (hu : body (s.begun i) = ((s.begun i).setRegs f).setS d x) (hf : (f s.g.regs).lactive = s.g.regs.lactive) :
    Effect i s 0 ((s.setRegs f).setS d x) :=
  setS_effect (u := s.setRegs f) hx hu rfl rfl rfl fun hF => hF.setRegs hf

section
variable {s : State} {d : SReg}
theorem vgrow_held (h : s.g.regs.extb = true) : Effect .vgrow s 0 s := fun hI hF _ =>
  issueSeq_effect (exec_vgrow s) hI (if_pos h) rfl rfl rfl hF
theorem vgrow_takes (h : s.g.regs.extb = false) (hw : s.myWait ≠ .grow) (hf : 1 ≤ s.freeBlocks s.g.core s.g.simd) (ho : s.othersGrow = false) :
    Effect .vgrow s 0 (s.setRegs Regs.grow) := by
  refine setRegs_effect (exec_vgrow s) ((if_neg (ne_true_of_eq_false h)).trans (if_pos ?_)) s.g.regs.grow_lactive
  rw [show (s.begun .vgrow).othersGrow = false from ho]
  simp only [Bool.not_false, Bool.and_true, Bool.and_eq_true, decide_eq_true_eq]
  exact ⟨hw, hf⟩
theorem vgrow_waits (h : s.g.regs.extb = false) (hw : s.myWait = .grow ∨ s.freeBlocks s.g.core s.g.simd = 0 ∨ s.othersGrow = true) :
    Waits .vgrow s fun u => u.waitFor .grow := fun hI => by
  have hb : (if (s.begun .vgrow).g.regs.extb then s.begun .vgrow
      else if (s.begun .vgrow).myWait ≠ .grow && (s.begun .vgrow).freeBlocks (s.begun .vgrow).g.core (s.begun .vgrow).g.simd ≥ 1 &&
        !(s.begun .vgrow).othersGrow then (s.begun .vgrow).setRegs Regs.grow
      else (s.begun .vgrow).waitFor .grow) = (s.begun .vgrow).waitFor .grow := by
    refine (if_neg (ne_true_of_eq_false h)).trans (if_neg ?_)
    simp only [Bool.and_eq_true, decide_eq_true_eq, Bool.not_eq_true']
    rintro ⟨⟨h1, h2⟩, h3⟩
    obtain hw | hw | hw := hw
    · exact h1 hw
    · exact absurd h2 (by change ¬ s.freeBlocks s.g.core s.g.simd ≥ 1; omega)
    · exact Bool.false_ne_true (h3.symm.trans hw)
  refine (issueSeq_waits (exec_vgrow s) hI ?_).trans (congrArg _ hb)
  exact (congrArg (fun u : State => u.latch.stall) hb).trans (waitFor_stall _ _)
theorem vgrowTry_held (h : s.g.regs.extb = true) : GivesS (.vgrowTry d) s d 1 :=
  setS_effect (exec_vgrowTry d s) (if_pos h) rfl rfl rfl id
theorem vgrowTry_takes (h : s.g.regs.extb = false) (hg : (s.onUnit s.g.core s.g.simd).any Group.growing = false)
    (hf : 2 ≤ s.freeBlocks s.g.core s.g.simd) : Effect (.vgrowTry d) s 0 ((s.setRegs Regs.grow).setS d 1) := by
  refine setRegs_setS_effect (exec_vgrowTry d s) ((if_neg (ne_true_of_eq_false h)).trans (if_pos ?_)) s.g.regs.grow_lactive
  rw [show ((s.begun (.vgrowTry d)).onUnit (s.begun (.vgrowTry d)).g.core (s.begun (.vgrowTry d)).g.simd).any Group.growing = false from hg]
  exact decide_eq_true hf
theorem vgrowTry_fails (h : s.g.regs.extb = false)
    (hf : (s.onUnit s.g.core s.g.simd).any Group.growing = true ∨ s.freeBlocks s.g.core s.g.simd < 2) : GivesS (.vgrowTry d) s d 0 := by
  refine setS_effect (exec_vgrowTry d s) ((if_neg (ne_true_of_eq_false h)).trans (if_neg ?_)) rfl rfl rfl id
  simp only [Bool.and_eq_true, decide_eq_true_eq, Bool.not_eq_true']
  rintro ⟨hg, hb⟩
  obtain hf | hf := hf
  · exact Bool.false_ne_true (hg.symm.trans hf)
  · exact absurd (show 2 ≤ s.freeBlocks s.g.core s.g.simd from hb) (by omega)
theorem vshrink_free (h : s.g.regs.extb = false) : Effect .vshrink s 0 s := fun hI hF _ =>
  issueSeq_effect (exec_vshrink s) hI (if_pos (by rw [show (s.begun .vshrink).g.regs.extb = false from h]; rfl)) rfl rfl rfl hF
theorem vshrink_releases (h : s.g.regs.extb = true) (hu : s.g.usesBlock = false) :
    Effect .vshrink s 0 ((s.setRegs fun r => { r with extb := false }).wake) := fun hI hF _ => by
  refine issueSeq_effect (exec_vshrink s) hI ((if_neg ?_).trans (if_neg (ne_true_of_eq_false hu))) rfl rfl rfl (Flows.wake (hF.setRegs rfl))
  rw [show (s.begun .vshrink).g.regs.extb = true from h]
  exact Bool.false_ne_true
theorem vshrink_waits (h : s.g.regs.extb = true) (hu : s.g.usesBlock = true) : Waits .vshrink s fun u => u.waitFor .shrink := fun hI => by
  have hb : (if !(s.begun .vshrink).g.regs.extb then s.begun .vshrink
      else if (s.begun .vshrink).g.usesBlock then (s.begun .vshrink).waitFor .shrink
      else ((s.begun .vshrink).setRegs fun r => { r with extb := false }).wake) = (s.begun .vshrink).waitFor .shrink := by
    refine (if_neg ?_).trans (if_pos hu)
    rw [show (s.begun .vshrink).g.regs.extb = true from h]
    exact Bool.false_ne_true
  refine (issueSeq_waits (exec_vshrink s) hI ?_).trans (congrArg _ hb)
  exact (congrArg (fun u : State => u.latch.stall) hb).trans (waitFor_stall _ _)
theorem vgrow_outlawed (h : s.myStage.desc[1].getLsbD 4 = false) : Outlawed .vgrow s ∧ Outlawed (.vgrowTry d) s := by
  have ho : (!stageExt s.myStage) = true := by
    unfold stageExt
    rw [h]
    rfl
  exact ⟨issueSeq_outlawed (exec_vgrow s) fun _ => ho, issueSeq_outlawed (exec_vgrowTry d s) fun _ => ho⟩
end
theorem Group.usesBlock_iff (g : Group) : g.usesBlock = true ↔ g.mateBusy = true ∨ g.parked ≠ [] := by
  simp [Group.usesBlock]

theorem extendedBlock_clause : Clause.ExtendedBlock := by
  refine ⟨fun r k => ⟨r.grow_extb, r.grow_v k, r.grow_rest⟩, fun s d => ⟨fun _ => ⟨fun h => ⟨vgrow_held h, vgrowTry_held h⟩, vgrow_takes, vgrow_waits, vgrowTry_takes, vgrowTry_fails⟩,
    vgrow_outlawed, vshrink_free, fun h hm hp => vshrink_releases h ?_, fun h hu => vshrink_waits h ((s.g.usesBlock_iff).mpr hu)⟩⟩
  refine Bool.eq_false_iff.mpr fun hu => ?_
  obtain hu | hu := (s.g.usesBlock_iff).mp hu
  · exact Bool.false_ne_true (hm.symm.trans hu)
  · exact hu hp

end
end Sys2Proof.Machine
end

