-- ==== Sys2Proof/Proofs/MemoryFrames.lean ====
section
/-!
PROOFS. Proofs/MemoryFrames.lean: what the memory subsystem's operations change, and what they do not look at. They change the array, the
caches and the counters alone, and do the same whatever the groups, the workgroups and the latch.
-/
namespace Sys2Proof.Machine
noncomputable section

/-! ### The two halves of a state -/
/-- The state with another's memory: array, caches, soft errors and counters. -/
def State.stored (s u : State) : State :=
  { s with mem := u.mem, pois := u.pois, recoded := u.recoded, keyed := u.keyed, l1 := u.l1, l2 := u.l2, rlc := u.rlc, tlb := u.tlb,
           ports := u.ports, dramStack := u.dramStack, handoff := u.handoff, upsetBits := u.upsetBits }
/-- The state with another's groups and latch. -/
def State.fronted (s t : State) : State := { s with g := t.g, others := t.others, latch := t.latch }
/-- The operation changes memory alone, and does not look at the groups or the latch. -/
structure Inner (f : State → State) : Prop where
  keeps : ∀ s, f s = s.stored (f s)
  blind : ∀ s t, f (s.fronted t) = (f s).fronted t
/-- The value does not depend on the groups or the latch. -/
def Blind {α : Type} (v : State → α) : Prop := ∀ s t : State, v (s.fronted t) = v s

theorem Inner.id : Inner fun s => s := ⟨fun _ => rfl, fun _ _ => rfl⟩
theorem Inner.comp {f g : State → State} (hg : Inner g) (hf : Inner f) : Inner fun s => g (f s) := by
  refine ⟨fun s => ?_, fun s t => ?_⟩
  · have h1 : (f s).stored (g (f s)) = (s.stored (f s)).stored (g (f s)) := congrArg (fun u : State => u.stored (g (f s))) (hf.keeps s)
    exact (hg.keeps (f s)).trans h1
  · exact (congrArg g (hf.blind s t)).trans (hg.blind (f s) t)
/-- An operation chosen by a value that does not depend on them. -/
theorem Inner.of {α : Type} {v : State → α} {f : α → State → State} (hv : Blind v) (hf : ∀ a, Inner (f a)) : Inner fun s => f (v s) s := by
  refine ⟨fun s => (hf (v s)).keeps s, fun s t => ?_⟩
  exact (congrArg (fun a => f a (s.fronted t)) (hv s t)).trans ((hf (v s)).blind s t)
theorem Inner.ite {c : State → Bool} {f g : State → State} (hc : Blind c) (hf : Inner f) (hg : Inner g) : Inner fun s => if c s then f s else g s :=
  Inner.of (f := fun b s => if b then f s else g s) hc fun b => by
    cases b with
    | true => exact hf
    | false => exact hg
theorem Inner.foldl {α : Type} {f : State → α → State} (l : List α) (hf : ∀ a, Inner fun s => f s a) : Inner fun s => l.foldl f s := by
  induction l with
  | nil => exact .id
  | cons a l ih => exact ih.comp (hf a)
theorem Blind.of {α β : Type} {v : State → α} (hv : Blind v) (k : α → β) : Blind fun s => k (v s) := fun s t => congrArg k (hv s t)
theorem Blind.comp {α : Type} {v : State → α} {f : State → State} (hv : Blind v) (hf : Inner f) : Blind fun s => v (f s) :=
  fun s t => (congrArg v (hf.blind s t)).trans (hv (f s) t)

/-! ### The array -/
theorem Inner.countStack (k : Fin 8) (i : Fin 7) (n : Nat) : Inner fun s => s.countStack k i n := ⟨fun _ => rfl, fun _ _ => rfl⟩
theorem Inner.countHop (die : Fin 2) (i : Fin 14) : Inner fun s => s.countHop die i := ⟨fun _ => rfl, fun _ _ => rfl⟩
theorem Inner.setPoison (g : Nat) (on : Bool) : Inner fun s => s.setPoison g on := ⟨fun _ => rfl, fun _ _ => rfl⟩
theorem Inner.meet (hop : Nat) (die : Fin 2) (e : HopError) : Inner fun s => State.meet hop die s e := by
  unfold State.meet
  by_cases h7 : hop = 7
  · simp only [if_pos h7]
    refine Inner.comp (f := fun s => s.countStack (stackOfPa (e.granule * 32)) (if e.unc then 4 else 3) 1) (g := fun t =>
      if !e.unc then t
      else if t.recoded.contains (e.granule / 8) then (List.range 8).foldl (fun t k => t.setPoison (e.granule / 8 * 8 + k) true) t
      else t.setPoison e.granule true) ?_ (.countStack ..)
    exact .ite (fun _ _ => rfl) .id (.ite (fun _ _ => rfl) (.foldl _ fun _ => .setPoison ..) (.setPoison ..))
  · simp only [if_neg h7]
    exact Inner.comp (f := fun s => s.countHop die (Fin.ofNat 14 hop)) (g := fun t =>
      if hop < 5 then t else t.countHop die (Fin.ofNat 14 ((if e.unc then 10 else 7) + (hop - 5)))) (by
        by_cases h5 : hop < 5
        · simp only [if_pos h5]
          exact .id
        · simp only [if_neg h5]
          exact .countHop ..) (.countHop ..)
theorem Inner.cross (grans : List Nat) (hop : Nat) (die : Fin 2) : Inner fun s => (s.cross grans hop die).1 := by
  let met := fun (e : HopError) => grans.contains e.granule && e.hop = hop && (hop = 7 || e.die = die)
  refine Inner.of (v := fun s : State => s.upsetBits.filter met) (f := fun hit s => hit.foldl (State.meet hop die)
    { s with upsetBits := s.upsetBits.filter fun e => !met e }) (fun _ _ => rfl) fun hit => ?_
  exact (Inner.foldl hit fun e => .meet hop die e).comp ⟨fun _ => rfl, fun _ _ => rfl⟩
theorem Blind.cross (grans : List Nat) (hop : Nat) (die : Fin 2) : Blind fun s => (s.cross grans hop die).2 := fun _ _ => rfl
theorem Inner.arrayRead (pa : Nat) : Inner fun s => s.arrayRead pa :=
  Inner.of (v := fun s : State => s.recoded.contains (pa / 256)) (f := fun b s =>
    (s.cross (if b then (List.range 6).map fun k => pa / 256 * 8 + k else sectorGranules pa) 7 (dieOfPa pa)).1) (fun _ _ => rfl) fun _ => .cross ..
theorem Inner.arrayReads (pa n : Nat) : Inner fun s => s.arrayReads pa n := .foldl _ fun _ => .arrayRead _

theorem Blind.dramByte (leaf : Dword) (pa : Nat) : Blind fun s => s.dramByte leaf pa := fun _ _ => rfl
/-- The last step of a write to the array, under a key and over the unit `u`. -/
def State.putUnit (s : State) (leaf : Dword) (spa : Nat) (l : List (Nat × Byte)) (key u : Nat × Nat) : State :=
  let m0 := if (List.range (u.2 / 128)).all fun k => s.keyAt (u.1 + 128 * k) = key then s.mem
    else memWrite s.mem u.1 ((List.range u.2).map fun k => s.dramByte leaf (u.1 + k))
  let m := l.foldl (fun m c => memSet m (spa + c.1) c.2) m0
  { s with
    mem := m
    keyed := s.keyedAs key u
    recoded := (if leafCmp leaf && recodable (memRead m u.1 256) then [spa / 256] else []) ++ s.recoded.filter fun b => b ≠ spa / 256
    pois := Machine.clearWhole (spa / 32) l s.pois }
theorem Inner.putUnit (leaf : Dword) (spa : Nat) (l : List (Nat × Byte)) (key u : Nat × Nat) : Inner fun s => s.putUnit leaf spa l key u :=
  ⟨fun _ => rfl, fun _ _ => rfl⟩
theorem State.dramWrite_eq (s : State) (leaf : Dword) (spa : Nat) (l : List (Nat × Byte)) :
    s.dramWrite leaf spa l =
      if !s.linkUp spa then s
      else (if l.length < (s.writeUnit leaf spa).2 && ((s.writeUnit leaf spa).2 = 256 || s.keyAt spa ≠ s.keyNow (leafKey leaf)) then
          s.arrayReads (s.writeUnit leaf spa).1 (s.writeUnit leaf spa).2 else s).putUnit leaf spa l (s.keyNow (leafKey leaf)) (s.writeUnit leaf spa) := rfl
theorem Inner.dramWrite (leaf : Dword) (spa : Nat) (l : List (Nat × Byte)) : Inner fun s => s.dramWrite leaf spa l := by
  simp only [State.dramWrite_eq]
  refine .ite (fun _ _ => rfl) .id ?_
  refine Inner.of (v := fun s : State => (s.keyNow (leafKey leaf), s.writeUnit leaf spa, decide (s.keyAt spa ≠ s.keyNow (leafKey leaf))))
    (f := fun x s => (if l.length < x.2.1.2 && (x.2.1.2 = 256 || x.2.2) then s.arrayReads x.2.1.1 x.2.1.2 else s).putUnit leaf spa l x.1 x.2.1)
    (fun _ _ => rfl) fun x => ?_
  exact (Inner.putUnit leaf spa l x.1 x.2.1).comp (.ite (fun _ _ => rfl) (.arrayReads ..) .id)
theorem Inner.plainWrite (a : Nat) (bs : List Byte) : Inner fun s => s.plainWrite a bs := .dramWrite ..
/-- The number of a sector in the log of a partition, and where the log begins (R296). -/
def State.logNum (s : State) (p : Fin 16) (leaf : Dword) (pa : Nat) : Nat :=
  let gpa := leafFrame leaf + pa % 65536
  let idx := if (s.partWord p 0).getLsbD 2 then channelOfPa gpa else (s.ownChannels p).idxOf (channelOfPa gpa)
  idx * 12582912 + offsetOfPa gpa / 128
def State.logBase (s : State) (p : Fin 16) : Nat := (s.partWord p 19).toNat + (s.partWord p 20).toNat * 2 ^ 32
/-- One bit of the log is set. -/
def State.logBit (s : State) (a k : Nat) : State := (s.arrayRead a).plainWrite a [s.dramByte 0 a ||| (1#8 <<< k)]
theorem State.logWrite_eq (s : State) (p : Fin 16) (leaf : Dword) (pa : Nat) : s.logWrite p leaf pa =
    if leafDlog leaf && (s.partWord p 21).getLsbD 0 then
      (s.logBanks (s.partWord p 21)).foldl (fun t bank =>
        t.logBit (s.logBase p + bank * (s.ownChannels p).length * 1572864 + s.logNum p leaf pa / 8) (s.logNum p leaf pa % 8)) s
    else s := rfl
theorem Inner.logBit (a k : Nat) : Inner fun s => s.logBit a k :=
  Inner.of (v := fun s : State => s.dramByte 0 a) (f := fun b s => (s.arrayRead a).plainWrite a [b ||| (1#8 <<< k)]) (Blind.dramByte 0 a)
    fun _ => (Inner.plainWrite ..).comp (.arrayRead a)
theorem Inner.logWrite (p : Fin 16) (leaf : Dword) (pa : Nat) : Inner fun s => s.logWrite p leaf pa := by
  simp only [State.logWrite_eq]
  refine .ite (fun _ _ => rfl) ?_ .id
  refine Inner.of (v := fun s : State => (s.logBanks (s.partWord p 21), s.logBase p, (s.ownChannels p).length, s.logNum p leaf pa))
    (f := fun x s => x.1.foldl (fun t bank => t.logBit (x.2.1 + bank * x.2.2.1 * 1572864 + x.2.2.2 / 8) (x.2.2.2 % 8)) s) (fun _ _ => rfl) fun x => ?_
  exact .foldl _ fun _ => .logBit ..
theorem Inner.writeSector (p : Fin 16) (leaf : Dword) (spa : Nat) (l : List (Nat × Byte)) : Inner fun s => s.writeSector p leaf spa l := by
  refine .ite (fun _ _ => rfl) .id ?_
  refine Inner.comp (f := fun s => (s.dramWrite leaf spa l).logWrite p leaf spa) (g := fun s =>
    if leafCmp leaf && !s.recoded.contains (spa / 256) then s.countStack (stackOfPa spa) 5 1 else s) ?_ ((Inner.logWrite ..).comp (.dramWrite ..))
  exact .ite (fun _ _ => rfl) (.countStack ..) .id


/-! ### The caches -/
theorem Inner.putLine (l : Line) : Inner fun s => s.putLine l := by
  refine Inner.comp (g := fun s => (List.range 4).foldl (fun s k =>
    if l.pois.getLsbD k && (List.range 32).any fun j => l.dmask.getLsbD (32 * k + j) then s.setPoison (l.pa / 32 + k) true else s) s)
    (f := fun s => s.writeSector l.part l.leaf l.pa l.dirtyBytes) (.foldl _ fun k => .ite (fun _ _ => rfl) (.setPoison ..) .id) (.writeSector ..)
theorem Inner.setL2 (f : List Line → List Line) : Inner fun s => { s with l2 := f s.l2 } := ⟨fun _ => rfl, fun _ _ => rfl⟩
theorem Inner.writeBack (l : Line) : Inner fun s => s.writeBack l :=
  Inner.comp (g := fun s => { s with l2 := s.l2.map fun x => if l.same x then { x with dmask := 0 } else x })
    (f := fun s => if l.dmask = 0 then s else s.putLine l) (.setL2 _) (by
      by_cases h : l.dmask = 0
      · simp only [if_pos h]
        exact .id
      · simp only [if_neg h]
        exact .putLine l)
theorem Inner.writeBackAll (f : Line → Bool) : Inner fun s => s.writeBackAll f :=
  Inner.of (v := fun s : State => s.l2.filter fun l => f l && l.dmask ≠ 0) (f := fun ls s => ls.foldl State.writeBack s) (fun _ _ => rfl)
    fun _ => .foldl _ fun l => .writeBack l
theorem Inner.evict (f : Line → Bool) : Inner fun s => s.evict f := (Inner.setL2 fun l2 => l2.filter fun l => !f l).comp (.writeBackAll f)
theorem Blind.homeOf : Blind State.homeOf := fun _ _ => State.homeOf_of_parts rfl
theorem Blind.cacheable : Blind State.cacheable := fun _ _ => State.cacheable_of_parts rfl
theorem Blind.inSet (p : Fin 16) (va : Nat) : Blind fun s => s.inSet p va :=
  Blind.homeOf.of fun (h : Fin 16 → Nat → Option Nat) (l : Line) =>
    decide (h l.part (l.sector * 128) = h p va) && decide (Config.l2Set (l.sector / 2) = Config.l2Set (va / 256))
theorem Blind.wayFor (who : Who) (va : Nat) : Blind fun s => s.wayFor who va := fun s t => by
  change (s.fronted t).wayFor who va = s.wayFor who va
  unfold State.wayFor
  rw [show (s.fronted t).inSet who.part va = s.inSet who.part va from Blind.inSet who.part va s t]
  rfl
/-- A sector takes its place in L2, beside what its kin has. -/
def State.placeL2 (s : State) (l : Line) (who : Who) (va : Nat) (w : Fin 16) : State :=
  let kin := s.l2.find? (sameLine who va)
  { s with
    l2 := { l with way := w, mark := kin.bind (·.mark), occ := (kin.map (·.occ)).getD l.occ } :: s.l2.filter fun x => !lineAt who va x }
theorem Inner.placeL2 (l : Line) (who : Who) (va : Nat) (w : Fin 16) : Inner fun s => s.placeL2 l who va w := ⟨fun _ => rfl, fun _ _ => rfl⟩
theorem Inner.addL2 (l : Line) (who : Who) (va : Nat) : Inner fun s => s.addL2 l who va := by
  refine Inner.of (v := fun s : State => (s.wayFor who va, s.inSet who.part va, (fillWays (s.ctxDesc who.ctx)).length))
    (f := fun x s => (if s.l2.length < x.2.2 then s else s.evict fun y => !sameLine who va y && x.2.1 y && y.way = x.1).placeL2 l who va x.1)
    (fun s t => ?_) fun x => ?_
  · exact Prod.ext (Blind.wayFor who va s t) (Prod.ext (Blind.inSet who.part va s t) rfl)
  · refine (Inner.placeL2 l who va x.1).comp (Inner.of (v := fun s : State => s.l2.length) (f := fun n s => if n < x.2.2 then s else s.evict _) (fun _ _ => rfl) fun n => ?_)
    by_cases h : n < x.2.2
    · simp only [if_pos h]
      exact .id
    · simp only [if_neg h]
      exact .evict _

/-! ### Page walks and the access check -/
theorem Blind.hostPa : Blind State.hostPa := fun s t => by
  delta State.hostPa
  rw [show (s.fronted t).partWord = s.partWord from rfl, show (s.fronted t).ownChannels = s.ownChannels from rfl,
    show (s.fronted t).stage2 = s.stage2 from rfl]
theorem Blind.tableEntry : Blind State.tableEntry := fun s t => by
  delta State.tableEntry
  rw [Blind.hostPa s t, show (s.fronted t).ownChannels = s.ownChannels from rfl, show (s.fronted t).poisoned = s.poisoned from rfl,
    show (s.fronted t).dramByte = s.dramByte from rfl]
theorem Blind.walk : Blind State.walk := fun s t => by
  delta State.walk State.walk._f
  rw [Blind.tableEntry s t]
theorem Blind.walkPlaces : Blind State.walkPlaces := fun s t => by
  delta State.walkPlaces State.walkPlaces._f
  rw [Blind.tableEntry s t, Blind.hostPa s t]
theorem Blind.pair {α β : Type} {v : State → α} {w : State → β} (hv : Blind v) (hw : Blind w) : Blind fun s => (v s, w s) :=
  fun s t => Prod.ext (hv s t) (hw s t)
theorem Blind.tlb? : Blind State.tlb? := fun _ _ => rfl
theorem Blind.ctxDesc : Blind State.ctxDesc := fun _ _ => rfl
theorem Blind.heldLine : Blind State.heldLine := fun _ _ => rfl
theorem Blind.translate : Blind State.translate := fun s t => by
  delta State.translate
  rw [Blind.tlb? s t, Blind.walk s t, Blind.ctxDesc s t]
theorem Blind.frameOf : Blind State.frameOf := fun s t => by
  delta State.frameOf
  rw [Blind.tlb? s t, Blind.hostPa s t]
theorem Blind.channelOf : Blind State.channelOf := fun _ _ => State.channelOf_of_parts rfl
theorem Blind.coloured : Blind State.coloured := fun s t => by
  delta State.coloured
  rw [show (s.fronted t).partWord = s.partWord from rfl, show (s.fronted t).ownChannels = s.ownChannels from rfl, Blind.channelOf s t]
theorem Blind.keyOk : Blind State.keyOk := fun s t => by
  delta State.keyOk
  rw [show (s.fronted t).partWord = s.partWord from rfl, show (s.fronted t).keyLoaded = s.keyLoaded from rfl]
theorem Blind.ownsPort : Blind State.ownsPort := fun s t => by
  delta State.ownsPort
  rw [show (s.fronted t).engines = s.engines from rfl]
theorem Blind.tagOk : Blind State.tagOk := fun _ _ => rfl
theorem Blind.placed : Blind State.placed := fun s t => by
  delta State.placed
  rw [Blind.ownsPort s t, Blind.keyOk s t, Blind.coloured s t, Blind.frameOf s t, Blind.tagOk s t]
theorem Blind.atLine : Blind State.atLine := fun s t => by
  delta State.atLine
  rw [Blind.ownsPort s t, Blind.tagOk s t]
theorem Blind.access : Blind State.access := fun s t => by
  delta State.access
  rw [Blind.heldLine s t, Blind.atLine s t, Blind.translate s t, Blind.placed s t]
theorem Blind.routePorts : Blind State.routePorts := fun s t => by
  delta State.routePorts
  rw [show (s.fronted t).routes = s.routes from rfl, show (s.fronted t).engines = s.engines from rfl]
theorem Blind.route? : Blind State.route? := fun s t => by
  delta State.route?
  rw [Blind.routePorts s t, show (s.fronted t).ports = s.ports from rfl]

/-! ### Fills at the home -/
theorem Inner.readWalk (who : Who) (va : Nat) : Inner fun s => s.readWalk who va := by
  refine .ite (Blind.tlb?.of fun f => (f who va).isSome) .id ?_
  refine Inner.of (v := fun s : State => s.walkPlaces who.part (ctxRoot (s.ctxDesc who.ctx)) va [43, 34, 25, 16])
    (f := fun l s => l.foldl State.arrayRead s) ((Blind.walkPlaces.pair Blind.ctxDesc).of fun x => x.1 who.part (ctxRoot (x.2 who.ctx)) va [43, 34, 25, 16])
    fun _ => .foldl _ fun pa => .arrayRead pa
/-- A unit takes a translation in (R196). -/
def State.putTlb (s : State) (who : Who) (leaf : Dword) (pa va : Nat) (ch : Fin 16 → Nat → Option Nat) : State :=
  let unit := fun (t : Tlb) => ch t.part (t.page * 65536) = ch who.part va
  let own := s.tlb.filter unit
  let out := own[s.free 5 va % (if own.length < Config.tlbEntries then own.length + 1 else own.length)]?
  { s with
    tlb := { part := who.part, asid := who.asid, page := va / 65536, leaf := leaf, frame := pa - va % 65536 } :: s.tlb.filter fun t => some t ≠ out }
theorem Inner.addTlb (who : Who) (leaf : Dword) (pa va : Nat) : Inner fun s => s.addTlb who leaf pa va := by
  refine .ite (Blind.tlb?.of fun f => (f who va).isSome) .id ?_
  refine Inner.comp (g := fun s => s.putTlb who leaf pa va s.channelOf) (f := fun s => s.readWalk who va) ?_ (.readWalk who va)
  exact Inner.of (f := fun ch s => s.putTlb who leaf pa va ch) Blind.channelOf fun ch => ⟨fun _ => rfl, fun _ _ => rfl⟩
theorem Inner.lift (pa : Nat) : Inner fun s => (s.lift pa).1 :=
  (Inner.cross (sectorGranules pa) 4 (dieOfPa pa)).comp ((Inner.cross (sectorGranules pa) ((stackOfPa pa).val % 4) (dieOfPa pa)).comp (.arrayRead pa))
theorem Blind.lift (pa : Nat) : Blind fun s => (s.lift pa).2 := by
  have h1 := Inner.arrayRead pa
  have h2 := (Inner.cross (sectorGranules pa) ((stackOfPa pa).val % 4) (dieOfPa pa)).comp h1
  exact (((Blind.cross (sectorGranules pa) ((stackOfPa pa).val % 4) (dieOfPa pa)).comp h1).pair
    ((Blind.cross (sectorGranules pa) 4 (dieOfPa pa)).comp h2)).of fun x => x.1 ++ x.2
theorem Blind.newLine (who : Who) (leaf : Dword) (pa va : Nat) (pol : Pol) : Blind fun s => newLine s who leaf pa va pol := fun _ _ => rfl
theorem Inner.dropRlc (die : Fin 2) (who : Who) (va : Nat) : Inner fun s => s.dropRlc die who va := ⟨fun _ => rfl, fun _ _ => rfl⟩
theorem Inner.storeL1 (who : Who) (va : Nat) (pol : Pol) (bs : List Byte) : Inner fun s => s.storeL1 who va pol bs := by
  unfold State.storeL1
  split
  · exact .id
  · split
    · exact ⟨fun _ => rfl, fun _ _ => rfl⟩
    · exact ⟨fun _ => rfl, fun _ _ => rfl⟩
theorem Inner.putFar (who : Who) (va : Nat) (pol : Pol) (bs : List Byte) : Inner fun s => s.putFar who va pol bs := (Inner.dropRlc ..).comp (.storeL1 ..)
theorem Inner.countPort (k : Fin 24) (i : Fin 4) : Inner fun s => s.countPort k i := ⟨fun _ => rfl, fun _ _ => rfl⟩
/-- A fill at the home of a page that has one: the line is there, or it is brought. -/
def State.bring (s : State) (who : Who) (leaf : Dword) (pa va : Nat) (pol : Pol) : State :=
  let r := (s.addTlb who leaf pa va).lift pa
  r.1.addL2 ((newLine r.1 who leaf pa va pol).hurt r.2) who va
theorem Inner.bring (who : Who) (leaf : Dword) (pa va : Nat) (pol : Pol) : Inner fun s => s.bring who leaf pa va pol := by
  refine Inner.comp (g := fun t => (t.lift pa).1.addL2 ((newLine (t.lift pa).1 who leaf pa va pol).hurt (t.lift pa).2) who va)
    (f := fun s => s.addTlb who leaf pa va) ?_ (.addTlb ..)
  refine Inner.of (v := fun t => (newLine (t.lift pa).1 who leaf pa va pol).hurt (t.lift pa).2) (f := fun l t => (t.lift pa).1.addL2 l who va)
    ((((Blind.newLine who leaf pa va pol).comp (.lift pa)).pair (.lift pa)).of fun x => x.1.hurt x.2) fun l => ?_
  exact (Inner.addL2 l who va).comp (.lift pa)
theorem Inner.parts {f : State → State} (hf : Inner f) (s : State) : (f s).parts = s.parts := by
  have e : (f s).parts = (s.stored (f s)).parts := congrArg State.parts (hf.keeps s)
  exact e
theorem State.fill_home (s : State) (who : Who) (leaf : Dword) (pa va : Nat) (pol : Pol) (hc : s.cacheable who leaf va = true) :
    s.fill who.home leaf pa va 0 pol = if (s.l2Line who va).isSome then s else s.bring who.home leaf pa va pol := by
  have hkeep : ∀ u : State, u.parts = s.parts → u.cacheable who.home leaf va = true := fun u hu =>
    (congrFun₃ (State.cacheable_of_parts hu) who.home leaf va).trans hc
  unfold State.fill
  extract_lets inL1 inR got t keep
  have hgot : got = (s.l2Line who va).isSome := rfl
  clear_value got
  subst hgot
  cases hg : (s.l2Line who va).isSome with
  | true =>
    have ht : t = s := if_pos hg
    have hk : keep = true := hkeep t (by rw [ht])
    clear_value keep
    subst hk
    clear_value t
    subst ht
    split
    next u up e =>
      obtain ⟨rfl, rfl⟩ := Prod.mk.inj (e.symm.trans (if_pos rfl))
      rfl
  | false =>
    have ht : t = s.addTlb who.home leaf pa va := if_neg (ne_true_of_eq_false hg)
    have hk : keep = true := hkeep t (by rw [ht]; exact (Inner.addTlb who.home leaf pa va).parts s)
    clear_value keep
    subst hk
    clear_value t
    subst ht
    split
    next u up e =>
      have e := e.symm.trans (if_neg Bool.false_ne_true)
      rw [if_neg Bool.false_ne_true]
      unfold State.bring
      rw [← e]
      rfl

/-! ### Stores -/
theorem Inner.shed (who : Who) (va : Nat) (pol : Pol) (bs : List Byte) : Inner fun s => s.shed who va pol bs := .putFar who va pol bs
theorem State.putBytes_eq (s : State) (who : Who) (leaf : Dword) (pa va : Nat) (pol : Pol) (bs : List Byte) :
    s.putBytes who leaf pa va pol bs =
      let t := s.shed who va pol bs
      if s.cacheable who leaf va then
        { (if (t.l2Line who va).isSome then t else t.bring who.home leaf pa va pol) with
          l2 := updL2 who va (Line.put bs (va % 128)) (if (t.l2Line who va).isSome then t else t.bring who.home leaf pa va pol).l2 }
      else (t.addTlb who leaf pa va).writeSector who.part leaf (pa / 128 * 128) (granuleBytes pa bs) := by
  dsimp only
  split
  next h =>
    rw [State.putBytes_of_cacheable h, State.fill_home _ _ _ _ _ _ ((s.cacheable_shed who leaf va pol bs).trans h)]
  next h => exact State.putBytes_of_uncacheable (Bool.eq_false_iff.mpr h) pa pol bs
theorem Inner.putBytes (who : Who) (leaf : Dword) (pa va : Nat) (pol : Pol) (bs : List Byte) : Inner fun s => s.putBytes who leaf pa va pol bs := by
  simp only [State.putBytes_eq]
  refine .ite (Blind.cacheable.of fun f => f who leaf va) ?_ ?_
  · refine Inner.comp (g := fun t => { (if (t.l2Line who va).isSome then t else t.bring who.home leaf pa va pol) with
          l2 := updL2 who va (Line.put bs (va % 128)) (if (t.l2Line who va).isSome then t else t.bring who.home leaf pa va pol).l2 }) ?_ (.shed who va pol bs)
    exact (Inner.setL2 (updL2 who va (Line.put bs (va % 128)))).comp (.ite (fun _ _ => rfl) .id (.bring ..))
  · exact (Inner.writeSector who.part leaf (pa / 128 * 128) (granuleBytes pa bs)).comp ((Inner.addTlb who leaf pa va).comp (.shed who va pol bs))
theorem Inner.putRemote (who : Who) (leaf : Dword) (va : Nat) (pol : Pol) (bs : List Byte) : Inner fun s => s.putRemote who leaf va pol bs := by
  refine Inner.comp (g := fun s => if (s.route? who.part leaf).isSome then s
    else match s.routePorts who.part leaf with
      | k :: _ => s.countPort (Fin.ofNat 24 k) 3
      | [] => s) (f := fun s => s.putFar who va pol bs) ?_ (.putFar ..)
  refine .ite (Blind.route?.of fun f => (f who.part leaf).isSome) .id ?_
  refine Inner.of (v := fun s : State => s.routePorts who.part leaf) (f := fun l s => match l with
      | k :: _ => s.countPort (Fin.ofNat 24 k) 3
      | [] => s) (Blind.routePorts.of fun f => f who.part leaf) fun l => ?_
  cases l with
  | nil => exact .id
  | cons k l => exact .countPort ..
theorem Inner.devPut (who : Who) (va : Nat) (bs : List Byte) : Inner fun s => s.devPut who va bs := by
  refine Inner.of (v := fun s : State => s.access who.home (BitVec.ofNat 64 va) bs.length { write := true, tags := false }) (f := fun a s => match a with
    | .ok leaf pa _ => s.putBytes who.home leaf pa va .normal bs
    | _ => s) (Blind.access.of fun f => f who.home (BitVec.ofNat 64 va) bs.length { write := true, tags := false }) fun a => ?_
  cases a with
  | ok leaf pa held => exact .putBytes ..
  | _ => exact .id
theorem Inner.devPuts (who : Who) (va : Nat) (ws : List Word) : Inner fun s => s.devPuts who va ws := .foldl _ fun _ => .devPut ..
/-- The group that holds a store, as its access is made. -/
def Held.who (h : Held) (core : CoreId) : Who := { core := core, ctx := h.ctx, part := h.part, asid := h.asid, gid := h.gid }
/-- A held store to memory, where the access check has led to `a`. -/
def State.performAt (s : State) (core : CoreId) (h : Held) (a : Acc) : State :=
  if leafRem h.leaf then s.putRemote (h.who core) h.leaf h.va h.pol h.bytes
  else match a with
    | .ok leaf pa _ => s.putBytes (h.who core) leaf pa h.va h.pol h.bytes
    | _ => (s.shed (h.who core) h.va h.pol h.bytes).writeSector h.part h.leaf (h.pa / 128 * 128) (granuleBytes h.pa h.bytes)
/-- Where a held store leads now. (The definition is unfolded as a function: at its arguments the kernel would evaluate the access.) -/
theorem State.performHeld_of_memory (s : State) (core : CoreId) {h : Held} (hw : h.win = none) :
    s.performHeld core h =
      s.performAt core h (s.access (h.who core).home (BitVec.ofNat 64 h.va) h.bytes.length { write := true, tags := false }) := by
  have hf : State.performHeld = State.performHeld := rfl
  conv_rhs at hf => delta State.performHeld
  rw [hf]
  dsimp only
  rw [hw]
  unfold State.performAt Held.who
  generalize s.access _ _ _ _ = a
  cases a <;> rfl
theorem Inner.performHeld (core : CoreId) {h : Held} (hw : h.win = none) : Inner fun s => s.performHeld core h := by
  simp only [fun s : State => s.performHeld_of_memory core hw]
  refine Inner.of (f := fun a s => s.performAt core h a)
    (Blind.access.of fun f => f (h.who core).home (BitVec.ofNat 64 h.va) h.bytes.length { write := true, tags := false }) fun a => ?_
  unfold State.performAt
  refine .ite (fun _ _ => rfl) (.putRemote ..) ?_
  cases a with
  | ok leaf pa held => exact .putBytes ..
  | _ => exact (Inner.writeSector ..).comp (.shed ..)

end
end Sys2Proof.Machine
end

