-- ==== Sys2Proof/Proofs/Regions.lean ====
section
/-!
PROOFS. Proofs/Regions.lean: restartable regions open and close (R33, R34), and held stores are performed (R36).
-/
namespace Sys2Proof.Machine
noncomputable section

/-! ### Held stores and the latch (R36) -/
/-- The operation neither looks at the latch nor changes it. -/
def LatchBlind (f : State → State) : Prop := ∀ (s : State) (L : Latch), f (s.withLatch L) = (f s).withLatch L
/-- What an issue needs to close without more: the latch, and the group's faults, status and loops, stand as they were. -/
structure State.Calm (s t : State) : Prop where
  latch : t.latch = s.latch
  debt : t.g.debt = s.g.debt
  status : t.g.status = s.g.status
  lactive : t.g.regs.lactive = s.g.regs.lactive
theorem State.Calm.refl (s : State) : s.Calm s := ⟨rfl, rfl, rfl, rfl⟩
theorem State.Calm.trans {s t u : State} (h : s.Calm t) (h' : t.Calm u) : s.Calm u :=
  ⟨h'.latch.trans h.latch, h'.debt.trans h.debt, h'.status.trans h.status, h'.lactive.trans h.lactive⟩
theorem Inner.front {f : State → State} (hf : Inner f) (s : State) : (f s).g = s.g ∧ (f s).others = s.others ∧ (f s).latch = s.latch := by
  rw [hf.keeps s]
  exact ⟨rfl, rfl, rfl⟩
theorem Inner.latchBlind {f : State → State} (hf : Inner f) : LatchBlind f := by
  intro s L
  obtain ⟨hg, ho, -⟩ := hf.front s
  refine (hf.blind s (s.withLatch L)).trans ?_
  unfold State.fronted State.withLatch
  rw [← hg, ← ho]
theorem Inner.calm {f : State → State} (hf : Inner f) (s : State) : s.Calm (f s) := by
  obtain ⟨hg, -, hl⟩ := hf.front s
  exact ⟨hl, by rw [hg], by rw [hg], by rw [hg]⟩
theorem LatchBlind.foldl {α : Type} {f : State → α → State} (l : List α) (hf : ∀ a, LatchBlind fun s => f s a) : LatchBlind fun s => l.foldl f s := by
  induction l with
  | nil => exact fun _ _ => rfl
  | cons a l ih => exact fun s L => (congrArg (fun u => l.foldl f u) (hf a s L)).trans (ih (f s a) L)
theorem State.Calm.foldl {α : Type} {f : State → α → State} (l : List α) (hf : ∀ s a, State.Calm s (f s a)) (s : State) : s.Calm (l.foldl f s) := by
  induction l generalizing s with
  | nil => exact .refl s
  | cons a l ih => exact (hf s a).trans (ih (f s a))

/-! ### Held stores to the register window -/
theorem State.setActive_g (s t : State) (h : s.g = t.g) (m : Mask) : (s.setActive m).g = (t.setActive m).g := by
  unfold State.setActive
  rw [h]
  split
  · rfl
  · exact h
theorem State.setS_g (s t : State) (h : s.g = t.g) (d : SReg) (w : Word) : (s.setS d w).g = (t.setS d w).g := by
  unfold State.setS State.setRegs
  rw [h]
  split
  · rfl
  · split
    · exact State.setActive_g s t h _
    · exact h
/-- What the window writes depends on its group alone. -/
theorem Group.windowed_eq (s t : State) (x : Win) (w : Word) : Group.windowed s x w = Group.windowed t x w := by
  funext h
  have hset : (State.winSet x w { s with g := h.select 0 }).g = (State.winSet x w { t with g := h.select 0 }).g := by
    unfold State.winSet
    split
    · rfl
    · exact congrArg (fun g : Group => { g with poisonHalt := g.poisonHalt &&& ~~~(1#64 <<< x.reg) })
        (State.setS_g { s with g := h.select 0 } { t with g := h.select 0 } rfl _ _)
    · rfl
    · rfl
  unfold Group.windowed
  rw [hset]
theorem State.setS_lactive (s : State) (d : SReg) (w : Word) : (s.setS d w).g.regs.lactive = s.g.regs.lactive := by
  unfold State.setS State.setActive
  split
  · rfl
  · split
    · split <;> rfl
    · rfl
theorem State.winSet_keeps (s : State) (x : Win) (w : Word) : (State.winSet x w s).g.debt = s.g.debt ∧ (State.winSet x w s).g.status = s.g.status ∧
    (State.winSet x w s).g.regs.lactive = s.g.regs.lactive := by
  unfold State.winSet
  split
  · exact ⟨rfl, rfl, Regs.setV_lactive ..⟩
  · obtain ⟨-, hd, hs, -⟩ := setS_keeps s (Fin.ofNat 64 x.reg) w
    exact ⟨hd, hs, s.setS_lactive _ _⟩
  · exact ⟨rfl, rfl, Regs.setP_lactive ..⟩
  · exact ⟨rfl, rfl, Regs.csrSet_lactive ..⟩
theorem Group.select_keeps (g : Group) (k : Fin 2) : (g.select k).debt = g.debt ∧ (g.select k).status = g.status ∧ (g.select k).regs = g.regs := by
  unfold Group.select
  split <;> exact ⟨rfl, rfl, rfl⟩
theorem Group.windowed_keeps (s : State) (x : Win) (w : Word) (h : Group) :
    (h.windowed s x w).debt = h.debt ∧ (h.windowed s x w).status = h.status ∧ (h.windowed s x w).regs.lactive = h.regs.lactive := by
  obtain ⟨d1, s1, r1⟩ := h.select_keeps 0
  obtain ⟨d2, s2, l2⟩ := State.winSet_keeps { s with g := h.select 0 } x w
  obtain ⟨d3, s3, r3⟩ := (State.winSet x w { s with g := h.select 0 }).g.select_keeps h.sel
  exact ⟨d3.trans (d2.trans d1), s3.trans (s2.trans s1), (congrArg Regs.lactive r3).trans (l2.trans (congrArg Regs.lactive r1))⟩
theorem State.performHeld_of_window {s : State} (core : CoreId) {h : Held} {off : Nat} (hw : h.win = some off) :
    (s.window? h.ctx off true = none → s.performHeld core h = s) ∧
    ∀ g, s.window? h.ctx off true = some g →
      s.performHeld core h = s.updGroup g.gid (Group.windowed s (winOf off) (BitVec.ofNat 32 (leNat h.bytes))) := by
  have hf : State.performHeld = State.performHeld := rfl
  conv_rhs at hf => delta State.performHeld
  rw [hf]
  dsimp only
  rw [hw]
  refine ⟨fun hn => ?_, fun g hg => ?_⟩
  · dsimp only
    rw [hn]
  · dsimp only
    rw [hg]
    rfl
theorem State.performHeld_latchBlind (core : CoreId) (h : Held) : LatchBlind fun s => s.performHeld core h := by
  cases hw : h.win with
  | none => exact (Inner.performHeld core hw).latchBlind
  | some off =>
    intro s L
    obtain ⟨hnone, hsome⟩ := State.performHeld_of_window (s := s) core hw
    obtain ⟨hnone', hsome'⟩ := State.performHeld_of_window (s := s.withLatch L) core hw
    have hwin : (s.withLatch L).window? h.ctx off true = s.window? h.ctx off true := rfl
    change (s.withLatch L).performHeld core h = (s.performHeld core h).withLatch L
    cases hg : s.window? h.ctx off true with
    | none => rw [hnone hg, hnone' (hwin.trans hg)]
    | some g =>
      rw [hsome g hg, hsome' g (hwin.trans hg), Group.windowed_eq (s.withLatch L) s]
      rfl
theorem State.updGroup_calm (s : State) (gid : Nat) {f : Group → Group}
    (hf : ∀ g, (f g).debt = g.debt ∧ (f g).status = g.status ∧ (f g).regs.lactive = g.regs.lactive) : s.Calm (s.updGroup gid f) := by
  obtain ⟨h1, h2, h3⟩ := hf s.g
  have hg : (s.updGroup gid f).g = if s.g.gid = gid then f s.g else s.g := rfl
  by_cases h : s.g.gid = gid
  · rw [if_pos h] at hg
    exact ⟨rfl, by rw [hg, h1], by rw [hg, h2], by rw [hg, h3]⟩
  · rw [if_neg h] at hg
    exact ⟨rfl, by rw [hg], by rw [hg], by rw [hg]⟩
theorem State.performHeld_calm (core : CoreId) (s : State) (h : Held) : s.Calm (s.performHeld core h) := by
  cases hw : h.win with
  | none => exact (Inner.performHeld core hw).calm s
  | some off =>
    obtain ⟨hnone, hsome⟩ := State.performHeld_of_window (s := s) core hw
    cases hg : s.window? h.ctx off true with
    | none =>
      rw [hnone hg]
      exact .refl s
    | some g =>
      rw [hsome g hg]
      exact s.updGroup_calm _ (Group.windowed_keeps s _ _)

/-! ### Commits (R34, R36) -/
theorem State.commitMine_of_none {s : State} (h : s.g.region = .trans → ∀ x ∈ (s.core? s.g.core).commit, x.gid ≠ s.g.gid) : s.commitMine = s := by
  unfold State.commitMine
  split
  next hr =>
    have hm : (s.core? s.g.core).commit.filter (fun x => x.gid = s.g.gid) = [] := List.filter_eq_nil_iff.mpr fun x hx => by simpa using h hr x hx
    unfold State.commitGroup
    rw [hm]
    rfl
  · rfl
/-- The stores that a core holds for a group, performed, after which the others stay. -/
def State.committed (s : State) (core : CoreId) (l rest : List Held) : State :=
  l.foldl (fun t h => t.performHeld core h) (s.updCore core fun c => { c with commit := rest })
theorem State.committed_latchBlind (core : CoreId) (l rest : List Held) : LatchBlind fun s => s.committed core l rest := fun s L =>
  LatchBlind.foldl l (fun h => State.performHeld_latchBlind core h) (s.updCore core fun c => { c with commit := rest }) L
theorem State.committed_calm (s : State) (core : CoreId) (l rest : List Held) : s.Calm (s.committed core l rest) :=
  State.Calm.trans (t := s.updCore core fun c => { c with commit := rest }) ⟨rfl, rfl, rfl, rfl⟩
    (.foldl l (fun t h => State.performHeld_calm core t h) _)
theorem State.commitMine_of_some {s : State} (hr : s.g.region = .trans)
    (h : (s.core? s.g.core).commit.filter (fun x => x.gid = s.g.gid) ≠ []) :
    s.commitMine = s.committed s.g.core ((s.core? s.g.core).commit.filter fun x => x.gid = s.g.gid)
      ((s.core? s.g.core).commit.filter fun x => x.gid ≠ s.g.gid) := by
  unfold State.commitMine State.commitGroup
  rw [if_pos hr]
  exact if_neg (by simpa using h)

/-! ### The words (R34) -/
theorem State.advance_of_place {u : State} {l : Entry} {len : Nat} (hL : u.latch.only = none) (hl : u.g.me.leaf = some l) (h : l.ws + len < 3) :
    u.advance len = u.setLeaf fun l => { l.idle with ws := l.ws + len } := by
  unfold State.advance
  rw [hL, hl]
  dsimp only
  rw [if_neg (by simp), if_pos h]
theorem exec_rgn (s : State) : exec .rgn s = execRgn s := rfl
theorem exec_rgnT (s : State) : exec .rgnT s = execRgnT s := rfl
theorem exec_rgnend (s : State) : exec .rgnend s = execRgnend s := rfl
theorem rgn_outlawed {s : State} (h : s.g.regionOk = false) : Outlawed .rgn s ∧ Outlawed .rgnT s ∧ Outlawed .rgnend s := by
  have ho : ∀ {i}, Stands i s → (!s.src.regionOk) = true := fun hS => by
    rw [hS.src, h]
    rfl
  exact ⟨issue_outlawed (exec_rgn s) ho, issue_outlawed (exec_rgnT s) ho, issueSeq_outlawed (exec_rgnend s) ho⟩
theorem Group.regionOk_lactive {g : Group} (h : g.regionOk = true) : g.regs.lactive = 0 := by
  unfold Group.regionOk at h
  simp only [Bool.and_eq_true, decide_eq_true_eq] at h
  exact h.2
/-- The group's region is over. -/
def State.closed (s : State) : State := { s with g := { s.g with region := .none, restartable := false } }
/-- A region closes once what it holds is performed. -/
theorem rgnend_effect {s : State} {f : State → State} (hblind : LatchBlind f) (hcalm : s.Calm (f s)) (hc : ∀ L, (s.withLatch L).commitMine = f (s.withLatch L))
    (hl : s.g.regs.lactive = 0) : Effect .rgnend s 0 (f s).closed := fun hI _ _ => by
  refine issueSeq_effect (exec_rgnend s) hI ?_ hcalm.latch hcalm.debt hcalm.status fun _ _ => .inr (.inl (hcalm.lactive.trans hl))
  change State.closed (s.begun .rgnend).commitMine = _
  rw [show (s.begun .rgnend).commitMine = f (s.begun .rgnend) from hc _, show f (s.begun .rgnend) = (f s).withLatch _ from hblind s _]
  rfl
theorem endTransaction_eq {s : State} (hr : s.g.region = .trans) :
    let all := (s.core? s.g.core).commit
    let u := s.committed s.g.core all []
    s.endTransaction = { u with
      g := { u.g with restartable := false }
      others := u.others.map fun g => if all.any (fun h => h.gid = g.gid) then { g with restartable := false } else g } := by
  intro all u
  have hspoil : ∀ b : Bool, ({ (if b then { u.g with restartable := false } else u.g : Group) with restartable := false } : Group) =
      { u.g with restartable := false } := fun b => by cases b <;> rfl
  unfold State.endTransaction
  rw [if_pos hr]
  exact congrArg (fun g => ({ u with
    g := g
    others := u.others.map fun g => if all.any (fun h => h.gid = g.gid) then { g with restartable := false } else g } : State)) (hspoil _)

section
variable {s : State} {l : Entry} (hleaf : s.g.me.leaf = some l) (hws : l.ws < 2) (hp : s.myPhase ≠ .soft)
  (hn : s.g.region = .trans → ∀ h ∈ (s.core? s.g.core).commit, h.gid ≠ s.g.gid)
/-- The seed of a region that opens at the issuing leaf. -/
def Group.seedAt (g : Group) (l : Entry) : Seed :=
  { s := Vector.ofFn fun k => g.readS (Fin.ofNat 64 k.val), pc := l.pc, mask := l.emask, fmode := g.regs.fmode }
/-- The state after a region of kind `r` has opened. -/
def State.opened (s : State) (l : Entry) (r : Region) : State :=
  { s with g := { s.g with region := r, restartable := true, seed := s.g.seedAt l } }.devPuts (s.groupWho s.g) (s.g.divsp.toNat + 48 * s.g.spillN)
    ((s.g.seedAt l).s.toList ++ [l.pc, maskWord l.emask 0, maskWord l.emask 1, maskWord l.emask 2, s.g.regs.fmode])
theorem State.opened_front (s : State) (l : Entry) (r : Region) :
    (s.opened l r).g = { s.g with region := r, restartable := true, seed := s.g.seedAt l } ∧ (s.opened l r).latch = s.latch := by
  obtain ⟨hg, -, hl⟩ := (Inner.devPuts (s.groupWho s.g) (s.g.divsp.toNat + 48 * s.g.spillN)
    ((s.g.seedAt l).s.toList ++ [l.pc, maskWord l.emask 0, maskWord l.emask 1, maskWord l.emask 2, s.g.regs.fmode])).front
    { s with g := { s.g with region := r, restartable := true, seed := s.g.seedAt l } }
  exact ⟨hg, hl⟩
/-- The seed that an opening region takes. -/
def State.seedNow (s : State) : Seed :=
  { s := Vector.ofFn fun k => s.src.readS (Fin.castLE (by decide) k), pc := s.g.pc, mask := s.src.owned, fmode := s.src.regs.fmode }
theorem State.openRegion_eq (s : State) (r : Region) : s.openRegion r =
    ({ s.commitMine with g := { s.commitMine.g with region := r, restartable := true, seed := s.commitMine.seedNow } } : State).putSeed := rfl
theorem State.opened_phase (s : State) (l : Entry) (r : Region) (L : Latch) (f : Entry → Entry) :
    (((s.opened l r).withLatch L).setLeaf f).myPhase = s.myPhase := by
  have h := (Inner.devPuts (s.groupWho s.g) (s.g.divsp.toNat + 48 * s.g.spillN)
    ((s.g.seedAt l).s.toList ++ [l.pc, maskWord l.emask 0, maskWord l.emask 1, maskWord l.emask 2, s.g.regs.fmode])).keeps
    { s with g := { s.g with region := r, restartable := true, seed := s.g.seedAt l } }
  unfold State.opened
  rw [h]
  rfl
theorem State.stopInSoft_of_phase {s : State} (h : s.myPhase ≠ .soft) : s.stopInSoft = s := by
  unfold State.stopInSoft
  rw [decide_eq_false h]
  rfl
include hleaf
theorem State.seedNow_begun (i : Instr) : (s.begun i).seedNow = s.g.seedAt l := by
  have hpc : s.g.pc = l.pc := by
    unfold Group.pc
    rw [hleaf]
  have howned : s.g.owned = l.emask := by
    unfold Group.owned
    rw [hleaf]
  have hk : ∀ k : Fin 16, (Fin.castLE (by decide) k : Fin 64) = Fin.ofNat 64 k.val := fun k => Fin.ext (Nat.mod_eq_of_lt (by omega)).symm
  unfold State.seedNow Group.seedAt
  rw [show (s.begun i).src = s.g from rfl, show (s.begun i).g.pc = l.pc from hpc, howned]
  simp only [hk]
include hn
theorem State.openRegion_begun (i : Instr) (r : Region) : (s.begun i).openRegion r = (s.opened l r).withLatch { len := i.len, depth := some s.depthNow } := by
  have hc : (s.begun i).commitMine = s.begun i := State.commitMine_of_none hn
  rw [State.openRegion_eq, hc, State.seedNow_begun hleaf i]
  exact (Inner.devPuts _ _ _).latchBlind { s with g := { s.g with region := r, restartable := true, seed := s.g.seedAt l } } _
omit hn
include hws
theorem State.opened_advance (r : Region) (L : Latch) (hL : L.only = none) :
    ((s.opened l r).withLatch L).advance 1 = ((s.opened l r).withLatch L).setLeaf fun l => { l.idle with ws := l.ws + 1 } := by
  have hl : ((s.opened l r).withLatch L).g.me.leaf = some l := by
    rw [State.withLatch_g, (s.opened_front l r).1]
    exact hleaf
  exact State.advance_of_place (by rw [State.withLatch_latch, hL]) hl (by omega)
include hn hp
theorem rgn_effect {i : Instr} {r : Region} (hlen : i.len = 1) (hx : exec i s = issue i (fun s => ((s.openRegion r).advance 1).stopInSoft) s) :
    Effect i s 0 (s.opened l r) := fun hI hF _ => by
  obtain ⟨hg, hl⟩ := s.opened_front l r
  have hopen := State.openRegion_begun hleaf hn i r
  have hx' : exec i s = issueSeq i (fun s => s.openRegion r) s := by
    have hb : (s.begun i).openRegion r = (s.opened l r).withLatch { len := i.len, depth := some s.depthNow } := hopen
    have hgoes : ((s.begun i).openRegion r).latch.stall = false := by rw [hb]; rfl
    have hon : (((s.begun i).openRegion r).advance 1).stopInSoft =
        if ((s.begun i).openRegion r).latch.stall then (s.begun i).openRegion r else ((s.begun i).openRegion r).advance i.len := by
      rw [hgoes, if_neg Bool.false_ne_true, hlen, hb, State.opened_advance hleaf hws r _ rfl]
      exact State.stopInSoft_of_phase (ne_of_eq_of_ne (s.opened_phase l r _ _) hp)
    unfold issueSeq
    rw [hx, issue_still hI, issue_still hI]
    dsimp only
    rw [show (s.withLatch { len := i.len, depth := some s.depthNow }) = s.begun i from rfl, hon]
  refine issueSeq_effect hx' hI hopen hl ?_ ?_ ?_
  · rw [hg]
  · rw [hg]
  · intro k hk
    rw [hg] at hk
    obtain rfl := Option.some.inj (hleaf.symm.trans hk)
    exact .inl (by omega)
end

theorem regions_clause : Clause.Regions := by
  refine ⟨fun s l h _ hws hla hp hn => ⟨rgn_effect h.leaf hws hp hn rfl (exec_rgn s), rgn_effect h.leaf hws hp hn rfl (exec_rgnT s), ?_⟩,
    fun s => rgn_outlawed, fun s hr => ⟨fun hm hok => ?_, endTransaction_eq hr⟩, fun s core h leaf pa held hw hrem ha => ?_⟩
  · exact rgnend_effect (f := fun s => s) (fun _ _ => rfl) (.refl s) (fun L => State.commitMine_of_none hn) hla
  · exact rgnend_effect (State.committed_latchBlind _ _ _) (s.committed_calm _ _ _) (fun L => State.commitMine_of_some (s := s.withLatch L) hr hm)
      (Group.regionOk_lactive hok)
  · rw [State.performHeld_of_memory s core hw]
    unfold State.performAt
    rw [hrem, if_neg Bool.false_ne_true, show s.access (h.who core).home (BitVec.ofNat 64 h.va) h.bytes.length { write := true, tags := false } = _ from ha]
    rfl

/-- Settles O40, by the latch-blindness of what a commit performs, and the cases of `vgrow` and `vshrink`. -/
theorem regionsAndBlocks : Obligations.RegionsAndBlocks := ⟨regions_clause, extendedBlock_clause⟩

end
end Sys2Proof.Machine
end

