-- ==== Sys2Proof/Proofs/Encoder.lean ====
section
/-!
PROOFS. Proofs/Encoder.lean: every well-formed instruction's own word decodes to it (R45, R50, R54). The fields of a word put together are
what was put there, in each of the few formats that `encode` writes; the decoder of the word's major then finds the instruction's operands.
-/
namespace Sys2Proof

/-! ### Parts of fields, and fields side by side -/
theorem fld_low (w : Word) (lo m n : Nat) : fld w lo m = fld w lo (m + n) % 2 ^ m := by
  rw [fld, fld, pow_add, Nat.mod_mul_right_mod]
theorem fld_high (w : Word) (lo m n : Nat) : fld w (lo + m) n = fld w lo (m + n) / 2 ^ m := by
  rw [fld, fld, pow_add, pow_add, ← Nat.div_div_eq_div_mul, Nat.mod_mul_right_div_self]
theorem fld_append (w : Word) (lo m n : Nat) : fld w lo (m + n) = fld w lo m + 2 ^ m * fld w (lo + m) n := by
  simpa [join] using (join_eq_fld w [m, n] lo).symm
theorem bit_of_fld {w : Word} {lo : Nat} {g : Bool} (h : fld w lo 1 = g.toNat) : bit w lo = g := by
  rw [bit, h]
  cases g <;> rfl
/-- A predicate in the D field (R50). -/
theorem fld_predD (w : Word) : fld w 12 3 = fld w 12 6 % 2 ^ 3 ∧ fld w 15 3 = fld w 12 6 / 2 ^ 3 := ⟨fld_low w 12 3 3, fld_high w 12 3 3⟩
/-- A predicate in the A field. -/
theorem fld_predA (w : Word) : fld w 6 3 = fld w 6 6 % 2 ^ 3 ∧ fld w 9 3 = fld w 6 6 / 2 ^ 3 := ⟨fld_low w 6 3 3, fld_high w 6 3 3⟩
/-- A predicate in the B field. -/
theorem fld_predB (w : Word) : fld w 0 3 = fld w 0 6 % 2 ^ 3 ∧ fld w 3 3 = fld w 0 6 / 2 ^ 3 := ⟨fld_low w 0 3 3, fld_high w 0 3 3⟩
/-- An accumulator context, or a mode of one bit, in the MOD field. -/
theorem fld_mod1 (w : Word) : fld w 19 1 = fld w 19 3 % 2 ^ 1 ∧ fld w 20 2 = fld w 19 3 / 2 ^ 1 := ⟨fld_low w 19 1 2, fld_high w 19 1 2⟩
/-- A mode of one bit in the D field. -/
theorem fld_lowD1 (w : Word) : bit w 12 = (fld w 12 6 % 2 ^ 1 == 1) ∧ fld w 13 5 = fld w 12 6 / 2 ^ 1 :=
  ⟨by rw [bit, fld_low w 12 1 5], fld_high w 12 1 5⟩
/-- The acq_rel bit of a core-memory atomic. -/
theorem bit_mod (w : Word) : bit w 19 = (fld w 19 3 % 2 ^ 1 == 1) := by rw [bit, fld_low w 19 1 2]
/-- The parts and the whole of the fields of the words with a six-bit operation. -/
theorem fld_low13 (w : Word) : fld w 0 4 = fld w 0 13 % 2 ^ 4 := fld_low w 0 4 9
theorem fld_high13 (w : Word) : fld w 4 15 = fld w 0 13 / 2 ^ 4 + 2 ^ 9 * fld w 13 6 :=
  (fld_append w 4 9 6).trans (congrArg (· + 2 ^ 9 * fld w 13 6) (fld_high w 0 4 9))
theorem fld_low3 (w : Word) : fld w 0 3 = fld w 0 13 % 2 ^ 3 ∧ fld w 3 16 = fld w 0 13 / 2 ^ 3 + 2 ^ 10 * fld w 13 6 :=
  ⟨fld_low w 0 3 10, (fld_append w 3 10 6).trans (congrArg (· + 2 ^ 10 * fld w 13 6) (fld_high w 0 3 10))⟩
theorem fld_low19 (w : Word) : fld w 0 19 = fld w 0 13 + 2 ^ 13 * fld w 13 6 := fld_append w 0 13 6
/-- The D and the A field together. -/
theorem fld_da (w : Word) : fld w 6 12 = fld w 6 6 + 2 ^ 6 * fld w 12 6 := fld_append w 6 6 6
/-- The A and the B field together. -/
theorem fld_ab (w : Word) : fld w 0 12 = fld w 0 6 + 2 ^ 6 * fld w 6 6 := fld_append w 0 6 6

/-! ### The fields of a word put together (R50) -/
/-- The number that fields make: a list of widths and values, lowest first. -/
def put : List (Nat × Nat) → Nat
  | [] => 0
  | (n, v) :: fs => v + 2 ^ n * put fs
/-- Every value fits its field. -/
def Fits : List (Nat × Nat) → Prop
  | [] => True
  | (n, v) :: fs => v < 2 ^ n ∧ Fits fs
/-- The word has these fields from bit `lo` on. -/
def HasFields (w : Word) : Nat → List (Nat × Nat) → Prop
  | _, [] => True
  | lo, (n, v) :: fs => fld w lo n = v ∧ HasFields w (lo + n) fs
/-- The bits that the fields take. -/
def width (fs : List (Nat × Nat)) : Nat := (fs.map (·.1)).sum

theorem put_lt {fs : List (Nat × Nat)} (h : Fits fs) : put fs < 2 ^ width fs := by
  induction fs with
  | nil => exact Nat.one_pos
  | cons f fs ih =>
    obtain ⟨hv, hfs⟩ := h
    have hle : 2 ^ f.1 * (put fs + 1) ≤ 2 ^ f.1 * 2 ^ width fs := Nat.mul_le_mul_left _ (ih hfs)
    calc put (f :: fs) = f.2 + 2 ^ f.1 * put fs := rfl
      _ < 2 ^ f.1 * (put fs + 1) := by rw [Nat.mul_succ]; omega
      _ ≤ 2 ^ width (f :: fs) := by rw [width, List.map_cons, List.sum_cons, pow_add]; exact hle
theorem hasFields_of_fld {w : Word} {fs : List (Nat × Nat)} (hfit : Fits fs) {lo : Nat} (h : fld w lo (width fs) = put fs) :
    HasFields w lo fs := by
  induction fs generalizing lo with
  | nil => trivial
  | cons f fs ih =>
    obtain ⟨hv, hfs⟩ := hfit
    have h : fld w lo (f.1 + width fs) = f.2 + 2 ^ f.1 * put fs := h
    refine ⟨?_, ih hfs ?_⟩
    · rw [fld_low w lo f.1 (width fs), h, Nat.add_mul_mod_self_left, Nat.mod_eq_of_lt hv]
    · rw [fld_high, h, Nat.add_mul_div_left _ _ (Nat.two_pow_pos _), Nat.div_eq_of_lt hv, Nat.zero_add]
theorem hasFields_word {fs : List (Nat × Nat)} (hfit : Fits fs) (hw : width fs ≤ 32) : HasFields (word (put fs)) 0 fs := by
  refine hasFields_of_fld hfit ?_
  have hlt := put_lt hfit
  rw [fld, word, BitVec.toNat_ofNat, Nat.mod_eq_of_lt (hlt.trans_le (Nat.pow_le_pow_right Nat.two_pos hw)), pow_zero, Nat.div_one,
    Nat.mod_eq_of_lt hlt]

/-! ### Operands -/
theorem VSrc.code_lt (b : VSrc) : b.code < 64 := by cases b with
  | reg r => exact r.isLt
  | lit _ => exact Nat.lt_succ_self _
theorem SSrc.code_lt (b : SSrc) : b.code < 64 := by cases b with
  | reg r => exact r.isLt
  | lit _ => exact Nat.lt_succ_self _
theorem vsrc_of_code {w lit : Word} {b : VSrc} (hb : b.ok) (h : fld w 0 6 = b.code) : vsrc w (b.literal.getD lit) = b := by
  cases b with
  | reg r =>
    have hr : r.val ≠ 63 := by simpa [VSrc.ok, Fin.ext_iff] using hb
    have h : fld w 0 6 = r.val := h
    simp [vsrc, reg, h, hr]
  | lit x => simp [vsrc, h, VSrc.code, VSrc.literal]
theorem ssrc_of_code {w lit : Word} {b : SSrc} (hb : b.ok) (h : fld w 0 6 = b.code) : ssrc w (b.literal.getD lit) = b := by
  cases b with
  | reg r =>
    have hr : r.val ≠ 63 := by simpa [SSrc.ok, Fin.ext_iff] using hb
    have h : fld w 0 6 = r.val := h
    simp [ssrc, reg, h, hr]
  | lit x => simp [ssrc, h, SSrc.code, SSrc.literal]

/-- The register in an address's A field. -/
def GAddr.vreg : GAddr → VReg
  | .flat a => a
  | .base _ a => a
/-- The B field of an address: 63 in the flat form (R51). -/
def GAddr.sb : GAddr → Fin 64
  | .flat _ => 63
  | .base s _ => s
theorem GAddr.code_eq (ad : GAddr) : ad.code = ad.vreg.val * 64 + ad.sb.val := by cases ad <;> rfl
theorem gaddr_of_fields {w : Word} {ad : GAddr} (hok : ad.ok = true) (ha : fld w 6 6 = ad.vreg.val) (hs : fld w 0 6 = ad.sb.val) :
    gaddr w = ad := by
  cases ad with
  | flat a => simp [gaddr, reg, ha, hs, GAddr.vreg, GAddr.sb]
  | base s a =>
    have hs' : s.val ≠ 63 := by
      rintro h
      simp [GAddr.ok, h] at hok
    have hs : fld w 0 6 = s.val := hs
    simp [gaddr, reg, ha, hs, hs', GAddr.vreg]
theorem IKind.ok_of_pointSrcOk {m : IKind} {b : VSrc} {x : Bool} (h : (x && m.pointSrcOk b) = true) : b.ok = true := by
  obtain ⟨-, h⟩ := Bool.and_eq_true_iff.mp h
  cases m with
  | f64 => cases b with
    | reg r =>
      refine bne_iff_ne.mpr ?_
      rintro rfl
      exact absurd h (by decide)
    | lit _ => rfl
  | _ => exact h

/-! ### Modifiers: a mode's code fits its field and names the mode (R52, R53, R251) -/
theorem Sat.code_lt (m : Sat) : m.code < 8 := by cases m <;> decide
theorem Rm.code_lt (m : Rm) : m.code < 8 := by cases m <;> decide
theorem IKind.code_lt (m : IKind) : m.code < 8 := by cases m <;> decide
theorem FScope.code_lt (k : FScope) : k.code < 8 := by cases k <;> decide
theorem Sense.code_lt (s : Sense) : s.code < 8 := by cases s <;> decide
theorem Cond.code_lt (k : Cond) : k.code < 8 := by cases k <;> decide
theorem Scope.code_lt (c : Scope) : c.code < 4 := by cases c <;> decide
theorem MemMod.code_lt (m : MemMod) : m.code < 8 := by
  cases m with
  | ordered c => exact Nat.add_lt_add_left c.code_lt 4
  | _ => decide
theorem AtomMod.code_lt (m : AtomMod) : m.code < 8 := by
  have := m.scope.code_lt
  have := m.ar.toNat_lt
  unfold AtomMod.code
  omega

@[simp] theorem Sat.ofCode_code (m : Sat) : Sat.ofCode m.code = some m := by cases m <;> rfl
@[simp] theorem Rm.ofCode_code (m : Rm) : Rm.ofCode m.code = some m := by cases m <;> rfl
@[simp] theorem IKind.ofCode_code (m : IKind) : IKind.ofCode m.code = some m := by cases m <;> rfl
@[simp] theorem FScope.ofCode_code (k : FScope) : FScope.ofCode k.code = some k := by cases k <;> rfl
@[simp] theorem Sense.ofCode_code (s : Sense) : Sense.ofCode s.code = some s := by cases s <;> rfl
@[simp] theorem Cond.ofCode_code (k : Cond) : Cond.ofCode k.code = some k := by cases k <;> rfl
@[simp] theorem MemMod.ofCode_code (m : MemMod) : MemMod.ofCode m.code = some m := by
  cases m with
  | ordered c => cases c <;> rfl
  | _ => rfl
@[simp] theorem AtomMod.ofCode_code (m : AtomMod) : AtomMod.ofCode m.code = some m := by
  obtain ⟨c, r⟩ := m
  cases c <;> cases r <;> rfl
@[simp] theorem levelOf_level (l : Fin 3) : levelOf l.val = some l := by fin_cases l <;> rfl

@[simp] theorem bool_toNat_beq_one (g : Bool) : (g.toNat == 1) = g := by cases g <;> rfl

/-! ### One equation for each major (R54) -/
section
variable {w lit : Word}
-- As in Proofs/Decoder.lean: so many proofs side by side would need more threads than memory holds stacks for.
set_option Elab.async false

theorem decodeFields_01 (hM : fld w 25 6 = 0x01) : decodeFields w lit = dec01 w lit := by rw [decodeFields, hM]; rfl
theorem decodeFields_02 (hM : fld w 25 6 = 0x02) : decodeFields w lit = dec02 w lit := by rw [decodeFields, hM]; rfl
theorem decodeFields_03 (hM : fld w 25 6 = 0x03) : decodeFields w lit = dec03 w lit := by rw [decodeFields, hM]; rfl
theorem decodeFields_04 (hM : fld w 25 6 = 0x04) : decodeFields w lit = dec04 w lit := by rw [decodeFields, hM]; rfl
theorem decodeFields_05 (hM : fld w 25 6 = 0x05) : decodeFields w lit = dec05 w lit := by rw [decodeFields, hM]; rfl
theorem decodeFields_06 (hM : fld w 25 6 = 0x06) : decodeFields w lit = dec06 w lit := by rw [decodeFields, hM]; rfl
theorem decodeFields_08 (hM : fld w 25 6 = 0x08) : decodeFields w lit = dec08 w lit := by rw [decodeFields, hM]; rfl
theorem decodeFields_09 (hM : fld w 25 6 = 0x09) : decodeFields w lit = dec09 w lit := by rw [decodeFields, hM]; rfl
theorem decodeFields_0A (hM : fld w 25 6 = 0x0A) : decodeFields w lit = dec0A w lit := by rw [decodeFields, hM]; rfl
theorem decodeFields_0B (hM : fld w 25 6 = 0x0B) : decodeFields w lit = dec0B w lit := by rw [decodeFields, hM]; rfl
theorem decodeFields_0C (hM : fld w 25 6 = 0x0C) : decodeFields w lit = dec0C w lit := by rw [decodeFields, hM]; rfl
theorem decodeFields_0D (hM : fld w 25 6 = 0x0D) : decodeFields w lit = dec0D w lit := by rw [decodeFields, hM]; rfl
theorem decodeFields_0E (hM : fld w 25 6 = 0x0E) : decodeFields w lit = dec0E w lit := by rw [decodeFields, hM]; rfl
theorem decodeFields_10 (hM : fld w 25 6 = 0x10) : decodeFields w lit = dec10 w lit := by rw [decodeFields, hM]; rfl
theorem decodeFields_11 (hM : fld w 25 6 = 0x11) : decodeFields w lit = dec11 w lit := by rw [decodeFields, hM]; rfl
theorem decodeFields_12 (hM : fld w 25 6 = 0x12) : decodeFields w lit = dec12 w lit := by rw [decodeFields, hM]; rfl
theorem decodeFields_13 (hM : fld w 25 6 = 0x13) : decodeFields w lit = dec13 w lit := by rw [decodeFields, hM]; rfl
theorem decodeFields_14 (hM : fld w 25 6 = 0x14) : decodeFields w lit = dec14 w lit := by rw [decodeFields, hM]; rfl
theorem decodeFields_16 (hM : fld w 25 6 = 0x16) : decodeFields w lit = dec16 w lit := by rw [decodeFields, hM]; rfl
theorem decodeFields_18 (hM : fld w 25 6 = 0x18) : decodeFields w lit = dec18 w lit := by rw [decodeFields, hM]; rfl
theorem decodeFields_19 (hM : fld w 25 6 = 0x19) : decodeFields w lit = dec19 w lit := by rw [decodeFields, hM]; rfl
theorem decodeFields_1A (hM : fld w 25 6 = 0x1A) : decodeFields w lit = dec1A w lit := by rw [decodeFields, hM]; rfl
theorem decodeFields_1B (hM : fld w 25 6 = 0x1B) : decodeFields w lit = dec1B w lit := by rw [decodeFields, hM]; rfl
theorem decodeFields_1C (hM : fld w 25 6 = 0x1C) : decodeFields w lit = dec1C w lit := by rw [decodeFields, hM]; rfl
theorem decodeFields_1D (hM : fld w 25 6 = 0x1D) : decodeFields w lit = dec1D w lit := by rw [decodeFields, hM]; rfl
theorem decodeFields_1E (hM : fld w 25 6 = 0x1E) : decodeFields w lit = dec1E w lit := by rw [decodeFields, hM]; rfl
theorem decodeFields_20 (hM : fld w 25 6 = 0x20) : decodeFields w lit = dec20 w lit := by rw [decodeFields, hM]; rfl
theorem decodeFields_21 (hM : fld w 25 6 = 0x21) : decodeFields w lit = dec21 w lit := by rw [decodeFields, hM]; rfl
theorem decodeFields_22 (hM : fld w 25 6 = 0x22) : decodeFields w lit = dec22 w lit := by rw [decodeFields, hM]; rfl
theorem decodeFields_23 (hM : fld w 25 6 = 0x23) : decodeFields w lit = dec23 w lit := by rw [decodeFields, hM]; rfl
theorem decodeFields_24 (hM : fld w 25 6 = 0x24) : decodeFields w lit = dec24 w lit := by rw [decodeFields, hM]; rfl
theorem decodeFields_25 (hM : fld w 25 6 = 0x25) : decodeFields w lit = dec25 w lit := by rw [decodeFields, hM]; rfl
theorem decodeFields_26 (hM : fld w 25 6 = 0x26) : decodeFields w lit = dec26 w lit := by rw [decodeFields, hM]; rfl
theorem decodeFields_28 (hM : fld w 25 6 = 0x28) : decodeFields w lit = dec28 w lit := by rw [decodeFields, hM]; rfl
theorem decodeFields_29 (hM : fld w 25 6 = 0x29) : decodeFields w lit = dec29 w lit := by rw [decodeFields, hM]; rfl
theorem decodeFields_2A (hM : fld w 25 6 = 0x2A) : decodeFields w lit = dec2A w lit := by rw [decodeFields, hM]; rfl
theorem decodeFields_2B (hM : fld w 25 6 = 0x2B) : decodeFields w lit = dec2B w lit := by rw [decodeFields, hM]; rfl
theorem decodeFields_2C (hM : fld w 25 6 = 0x2C) : decodeFields w lit = dec2C w lit := by rw [decodeFields, hM]; rfl
theorem decodeFields_2D (hM : fld w 25 6 = 0x2D) : decodeFields w lit = dec2D w lit := by rw [decodeFields, hM]; rfl
theorem decodeFields_2E (hM : fld w 25 6 = 0x2E) : decodeFields w lit = dec2E w lit := by rw [decodeFields, hM]; rfl
theorem decodeFields_2F (hM : fld w 25 6 = 0x2F) : decodeFields w lit = dec2F w lit := by rw [decodeFields, hM]; rfl
theorem decodeFields_30 (hM : fld w 25 6 = 0x30) : decodeFields w lit = dec30 w lit := by rw [decodeFields, hM]; rfl
theorem decodeFields_31 (hM : fld w 25 6 = 0x31) : decodeFields w lit = dec31 w lit := by rw [decodeFields, hM]; rfl
theorem decodeFields_32 (hM : fld w 25 6 = 0x32) : decodeFields w lit = dec32 w lit := by rw [decodeFields, hM]; rfl
theorem decodeFields_33 (hM : fld w 25 6 = 0x33) : decodeFields w lit = dec33 w lit := by rw [decodeFields, hM]; rfl
theorem decodeFields_34 (hM : fld w 25 6 = 0x34) : decodeFields w lit = dec34 w lit := by rw [decodeFields, hM]; rfl
theorem decodeFields_35 (hM : fld w 25 6 = 0x35) : decodeFields w lit = dec35 w lit := by rw [decodeFields, hM]; rfl
theorem decodeFields_36 (hM : fld w 25 6 = 0x36) : decodeFields w lit = dec36 w lit := by rw [decodeFields, hM]; rfl
theorem decodeFields_37 (hM : fld w 25 6 = 0x37) : decodeFields w lit = dec37 w lit := by rw [decodeFields, hM]; rfl
theorem decodeFields_38 (hM : fld w 25 6 = 0x38) : decodeFields w lit = dec38 w lit := by rw [decodeFields, hM]; rfl
theorem decodeFields_39 (hM : fld w 25 6 = 0x39) : decodeFields w lit = dec39 w lit := by rw [decodeFields, hM]; rfl
theorem decodeFields_3A (hM : fld w 25 6 = 0x3A) : decodeFields w lit = dec3A w lit := by rw [decodeFields, hM]; rfl
theorem decodeFields_3B (hM : fld w 25 6 = 0x3B) : decodeFields w lit = dec3B w lit := by rw [decodeFields, hM]; rfl
theorem decodeFields_3C (hM : fld w 25 6 = 0x3C) : decodeFields w lit = dec3C w lit := by rw [decodeFields, hM]; rfl
theorem decodeFields_3F (hM : fld w 25 6 = 0x3F) : decodeFields w lit = dec3F w lit := by rw [decodeFields, hM]; rfl
end

/-! ### Reading a word back -/
/-- The decoder reads the instruction's own word as the instruction. -/
def Reads (i : Instr) : Prop := ∀ w lit, i.wf = true → encode i = some w → decodeFields w (i.literal.getD lit) = some i

section
variable {i : Instr} {K n m d a b k : Nat} {g : Bool}
/-- The instruction whose word is put together from the fields `fs`. -/
theorem reads_fields (fs : List (Nat × Nat)) (he : encode i = some (word n))
    (hi : ∀ {w} lit, HasFields w 0 fs → i.wf = true → decodeFields w (i.literal.getD lit) = some i)
    (hn : n = put fs := by simp only [put, Nat.reducePow]; omega)
    (hfit : Fits fs := by simp only [Fits, Nat.reducePow, and_true]; omega) (hw : width fs = 31 := by rfl) : Reads i := by
  rintro w lit hwf hw'
  obtain rfl := Option.some.inj (he.symm.trans hw')
  rw [hn]
  exact hi lit (hasFields_word hfit (by omega)) hwf

/-! Format V3: MOD, G and three operands, below the bits `K` of a major and a sub-operation. -/
/-- The fields of format V3. -/
abbrev FieldsV3 (w : Word) (K m : Nat) (g : Bool) (d a b : Nat) : Prop :=
  fld w 25 6 = K / 2 ^ 25 ∧ fld w 22 3 = K / 2 ^ 22 % 2 ^ 3 ∧ fld w 19 3 = m ∧ bit w 18 = g ∧ fld w 12 6 = d ∧ fld w 6 6 = a ∧ fld w 0 6 = b
/-- Format V3 with `n` for the word's number. -/
theorem reads_v3cut (K m : Nat) (g : Bool) (d a b : Nat) (he : encode i = some (word n))
    (hi : ∀ {w} lit, FieldsV3 w K m g d a b → i.wf = true → decodeFields w (i.literal.getD lit) = some i)
    (hn : n = K + m * 524288 + g.toNat * 262144 + d * 4096 + a * 64 + b := by omega)
    (hm : m < 8 := by omega) (hd : d < 64 := by omega) (ha : a < 64 := by omega) (hb : b < 64 := by omega)
    (hK : K % 2 ^ 22 = 0 ∧ K < 2 ^ 31 := by decide) : Reads i := by
  have hg := g.toNat_lt
  refine reads_fields [(6, b), (6, a), (6, d), (1, g.toNat), (3, m), (3, K / 2 ^ 22 % 2 ^ 3), (6, K / 2 ^ 25)] he fun {w} lit h hwf => ?_
  obtain ⟨hb, ha, hd, hg, hm, hs, hM, -⟩ := h
  exact hi lit ⟨hM, hs, hm, bit_of_fld hg, hd, ha, hb⟩ hwf
theorem reads_v3 (he : encode i = some (word (K + m * 524288 + g.toNat * 262144 + d * 4096 + a * 64 + b)))
    (hi : ∀ {w lit}, FieldsV3 w K m g d a b → decodeFields w lit = some i)
    (hm : m < 8 := by omega) (hd : d < 64 := by omega) (ha : a < 64 := by omega) (hb : b < 64 := by omega)
    (hK : K % 2 ^ 22 = 0 ∧ K < 2 ^ 31 := by decide) : Reads i :=
  reads_v3cut K m g d a b he (fun _ h _ => hi h) rfl hm hd ha hb hK
/-- Operand b may be a literal (R45). -/
theorem reads_v3srcCut {b : VSrc} (K m : Nat) (g : Bool) (d a : Nat) (he : encode i = some (word n))
    (hi : ∀ {w lit}, FieldsV3 w K m g d a b.code → vsrc w lit = b → decodeFields w lit = some i)
    (hn : n = K + m * 524288 + g.toNat * 262144 + d * 4096 + a * 64 + b.code := by omega)
    (hm : m < 8 := by omega) (hd : d < 64 := by omega) (ha : a < 64 := by omega) (hb : i.wf = true → b.ok = true := by exact id)
    (hl : i.literal = b.literal := by rfl) (hK : K % 2 ^ 22 = 0 ∧ K < 2 ^ 31 := by decide) : Reads i := by
  refine reads_v3cut K m g d a b.code he (fun lit h hwf => ?_) hn hm hd ha b.code_lt hK
  obtain ⟨-, -, -, -, -, -, h0⟩ := id h
  exact hi h (by rw [hl, vsrc_of_code (hb hwf) h0])
theorem reads_v3src {b : VSrc} (he : encode i = some (word (K + m * 524288 + g.toNat * 262144 + d * 4096 + a * 64 + b.code)))
    (hi : ∀ {w lit}, FieldsV3 w K m g d a b.code → vsrc w lit = b → decodeFields w lit = some i)
    (hm : m < 8 := by omega) (hd : d < 64 := by omega) (ha : a < 64 := by omega) (hb : i.wf = true → b.ok = true := by exact id)
    (hl : i.literal = b.literal := by rfl) (hK : K % 2 ^ 22 = 0 ∧ K < 2 ^ 31 := by decide) : Reads i :=
  reads_v3srcCut K m g d a he hi rfl hm hd ha hb hl hK
/-- A flat or scalar-base address (R51). -/
theorem reads_v3addrCut {ad : GAddr} (K m : Nat) (g : Bool) (d : Nat) (he : encode i = some (word n))
    (hi : ∀ {w lit}, FieldsV3 w K m g d ad.vreg.val ad.sb.val → gaddr w = ad → decodeFields w lit = some i)
    (hn : n = K + m * 524288 + g.toNat * 262144 + d * 4096 + ad.code := by omega)
    (hm : m < 8 := by omega) (hd : d < 64 := by omega) (hok : i.wf = true → ad.ok = true := by exact id)
    (hK : K % 2 ^ 22 = 0 ∧ K < 2 ^ 31 := by decide) : Reads i := by
  have hn : n = K + m * 524288 + g.toNat * 262144 + d * 4096 + ad.vreg.val * 64 + ad.sb.val := by rw [hn, GAddr.code_eq, ← Nat.add_assoc]
  refine reads_v3cut K m g d ad.vreg ad.sb he (fun lit h hwf => ?_) hn hm hd ad.vreg.isLt ad.sb.isLt hK
  obtain ⟨-, -, -, -, -, ha, hs⟩ := id h
  exact hi h (gaddr_of_fields (hok hwf) ha hs)
theorem reads_v3addr {ad : GAddr} (he : encode i = some (word (K + m * 524288 + g.toNat * 262144 + d * 4096 + ad.code)))
    (hi : ∀ {w lit}, FieldsV3 w K m g d ad.vreg.val ad.sb.val → gaddr w = ad → decodeFields w lit = some i)
    (hm : m < 8 := by omega) (hd : d < 64 := by omega) (hok : i.wf = true → ad.ok = true := by exact id)
    (hK : K % 2 ^ 22 = 0 ∧ K < 2 ^ 31 := by decide) : Reads i :=
  reads_v3addrCut K m g d he hi rfl hm hd hok hK
/-- A buffer or a core-memory address (R51). -/
theorem reads_v3pair (he : encode i = some (word (K + m * 524288 + g.toNat * 262144 + d * 4096 + (a * 64 + b))))
    (hi : ∀ {w lit}, FieldsV3 w K m g d a b → decodeFields w lit = some i)
    (hm : m < 8 := by omega) (hd : d < 64 := by omega) (ha : a < 64 := by omega) (hb : b < 64 := by omega)
    (hK : K % 2 ^ 22 = 0 ∧ K < 2 ^ 31 := by decide) : Reads i :=
  reads_v3cut K m g d a b he (fun _ h _ => hi h) (Nat.add_assoc _ _ _).symm hm hd ha hb hK

/-! Format S3: three operands below a major and a sub-operation. -/
/-- The fields of format S3. -/
abbrev FieldsS3 (w : Word) (K d a b : Nat) : Prop :=
  fld w 25 6 = K / 2 ^ 25 ∧ fld w 22 3 = K / 2 ^ 22 % 2 ^ 3 ∧ fld w 18 4 = 0 ∧ fld w 12 6 = d ∧ fld w 6 6 = a ∧ fld w 0 6 = b
theorem s3_fields (he : encode i = some (word (K + d * 4096 + a * 64 + b)))
    (hi : ∀ {w} lit, FieldsS3 w K d a b → i.wf = true → decodeFields w (i.literal.getD lit) = some i)
    (hd : d < 64) (ha : a < 64) (hb : b < 64) (hK : K % 2 ^ 22 = 0 ∧ K < 2 ^ 31) : Reads i := by
  refine reads_fields [(6, b), (6, a), (6, d), (4, 0), (3, K / 2 ^ 22 % 2 ^ 3), (6, K / 2 ^ 25)] he fun {w} lit h hwf => ?_
  obtain ⟨hb, ha, hd, h0, hs, hM, -⟩ := h
  exact hi lit ⟨hM, hs, h0, hd, ha, hb⟩ hwf
theorem reads_s3 (he : encode i = some (word (K + d * 4096 + a * 64 + b)))
    (hi : ∀ {w lit}, FieldsS3 w K d a b → decodeFields w lit = some i)
    (hd : d < 64 := by omega) (ha : a < 64 := by omega) (hb : b < 64 := by omega)
    (hK : K % 2 ^ 22 = 0 ∧ K < 2 ^ 31 := by decide) : Reads i :=
  s3_fields he (fun _ h _ => hi h) hd ha hb hK
theorem reads_s3src {b : SSrc} (he : encode i = some (word (K + d * 4096 + a * 64 + b.code)))
    (hi : ∀ {w lit}, FieldsS3 w K d a b.code → ssrc w lit = b → decodeFields w lit = some i)
    (hd : d < 64 := by omega) (ha : a < 64 := by omega) (hb : i.wf = true → b.ok = true := by exact id)
    (hl : i.literal = b.literal := by rfl) (hK : K % 2 ^ 22 = 0 ∧ K < 2 ^ 31 := by decide) : Reads i := by
  refine s3_fields he (fun lit h hwf => ?_) hd ha b.code_lt hK
  obtain ⟨-, -, -, -, -, h0⟩ := id h
  exact hi h (by rw [hl, ssrc_of_code (hb hwf) h0])

/-! The words of a major with an operation of six bits: three registers, or a register and 13 bits. -/
/-- The fields of the engines' and matrix words. -/
abbrev FieldsOp3 (w : Word) (K d a b : Nat) : Prop :=
  fld w 25 6 = K / 2 ^ 25 ∧ fld w 19 6 = K / 2 ^ 19 % 2 ^ 6 ∧ fld w 18 1 = 0 ∧ fld w 12 6 = d ∧ fld w 6 6 = a ∧ fld w 0 6 = b
theorem reads_op3 (he : encode i = some (word (K + d * 4096 + a * 64 + b)))
    (hi : ∀ {w lit}, FieldsOp3 w K d a b → decodeFields w lit = some i)
    (hd : d < 64 := by omega) (ha : a < 64 := by omega) (hb : b < 64 := by omega)
    (hK : K % 2 ^ 19 = 0 ∧ K < 2 ^ 31 := by decide) : Reads i := by
  refine reads_fields [(6, b), (6, a), (6, d), (1, 0), (6, K / 2 ^ 19 % 2 ^ 6), (6, K / 2 ^ 25)] he fun {w} lit h _ => ?_
  obtain ⟨hb, ha, hd, h0, hs, hM, -⟩ := h
  exact hi ⟨hM, hs, h0, hd, ha, hb⟩
/-- The fields of the wait, fence and system words. -/
abbrev FieldsOp13 (w : Word) (K d k : Nat) : Prop :=
  fld w 25 6 = K / 2 ^ 25 ∧ fld w 19 6 = K / 2 ^ 19 % 2 ^ 6 ∧ fld w 13 6 = d ∧ fld w 0 13 = k
theorem reads_op13 (he : encode i = some (word (K + d * 8192 + k)))
    (hi : ∀ {w lit}, FieldsOp13 w K d k → decodeFields w lit = some i)
    (hd : d < 64 := by omega) (hk : k < 8192 := by omega) (hK : K % 2 ^ 19 = 0 ∧ K < 2 ^ 31 := by decide) : Reads i := by
  refine reads_fields [(13, k), (6, d), (6, K / 2 ^ 19 % 2 ^ 6), (6, K / 2 ^ 25)] he fun {w} lit h _ => ?_
  obtain ⟨hk, hd, hs, hM, -⟩ := h
  exact hi ⟨hM, hs, hd, hk⟩

/-! Immediate words. -/
/-- The fields of the lanes' immediate words. -/
abbrev FieldsImm9 (w : Word) (K : Nat) (g : Bool) (d a k : Nat) : Prop :=
  fld w 25 6 = K / 2 ^ 25 ∧ fld w 22 3 = K / 2 ^ 22 % 2 ^ 3 ∧ bit w 21 = g ∧ fld w 15 6 = d ∧ fld w 9 6 = a ∧ fld w 0 9 = k
theorem reads_imm9 (he : encode i = some (word (K + g.toNat * 2097152 + d * 32768 + a * 512 + k)))
    (hi : ∀ {w lit}, FieldsImm9 w K g d a k → decodeFields w lit = some i)
    (hd : d < 64 := by omega) (ha : a < 64 := by omega) (hk : k < 512 := by omega)
    (hK : K % 2 ^ 22 = 0 ∧ K < 2 ^ 31 := by decide) : Reads i := by
  have hg := g.toNat_lt
  refine reads_fields [(9, k), (6, a), (6, d), (1, g.toNat), (3, K / 2 ^ 22 % 2 ^ 3), (6, K / 2 ^ 25)] he fun {w} lit h _ => ?_
  obtain ⟨hk, ha, hd, hg, hs, hM, -⟩ := h
  exact hi ⟨hM, hs, bit_of_fld hg, hd, ha, hk⟩
/-- The fields of the scalar immediate words. -/
abbrev FieldsImm10 (w : Word) (K d a k : Nat) : Prop :=
  fld w 25 6 = K / 2 ^ 25 ∧ fld w 22 3 = K / 2 ^ 22 % 2 ^ 3 ∧ fld w 16 6 = d ∧ fld w 10 6 = a ∧ fld w 0 10 = k
theorem reads_imm10 (he : encode i = some (word (K + d * 65536 + a * 1024 + k)))
    (hi : ∀ {w lit}, FieldsImm10 w K d a k → decodeFields w lit = some i)
    (hd : d < 64 := by omega) (ha : a < 64 := by omega) (hk : k < 1024 := by omega)
    (hK : K % 2 ^ 22 = 0 ∧ K < 2 ^ 31 := by decide) : Reads i := by
  refine reads_fields [(10, k), (6, a), (6, d), (3, K / 2 ^ 22 % 2 ^ 3), (6, K / 2 ^ 25)] he fun {w} lit h _ => ?_
  obtain ⟨hk, ha, hd, hs, hM, -⟩ := h
  exact hi ⟨hM, hs, hd, ha, hk⟩
/-- The fields of the words without an operand, or with one that takes all 22 bits. -/
abbrev FieldsJ22 (w : Word) (K k : Nat) : Prop := fld w 25 6 = K / 2 ^ 25 ∧ fld w 22 3 = K / 2 ^ 22 % 2 ^ 3 ∧ fld w 0 22 = k
theorem reads_j22 (he : encode i = some (word (K + k)))
    (hi : ∀ {w lit}, FieldsJ22 w K k → decodeFields w lit = some i)
    (hk : k < 4194304 := by omega) (hK : K % 2 ^ 22 = 0 ∧ K < 2 ^ 31 := by decide) : Reads i := by
  refine reads_fields [(22, k), (3, K / 2 ^ 22 % 2 ^ 3), (6, K / 2 ^ 25)] he fun {w} lit h _ => ?_
  obtain ⟨hk, hs, hM, -⟩ := h
  exact hi ⟨hM, hs, hk⟩
end
-- Majors whose words share a format share a case, and each word uses its own major's equations alone.
set_option linter.unusedSimpArgs false in
/-- Every word is read back: the instruction's format gives the fields of its word, and its major's decoder names the operands. -/
theorem reads_all (i : Instr) : Reads i := by
  cases i
  -- Integer words of the lanes
  case add | sub | absd => exact reads_v3src rfl (fun h hb => by simp [decodeFields_01, dec01, h, reg, hb]) (Sat.code_lt _)
  case minS | maxS | minN | maxN | and | or | xor | andn | shl | shr | sar | mul | mulhS | mulhN | mad | dot4S8 |
      sel | selu | bfeN | bfeS | bfi =>
    exact reads_v3src (m := 0) rfl fun h hb => by
      simp [decodeFields_01, dec01, decodeFields_02, dec02, decodeFields_03, dec03, decodeFields_06, dec06, h, reg, hb]
  case popc | clz => exact reads_v3 (m := 0) (b := 0) rfl fun h => by simp [decodeFields_03, dec03, h, reg]
  case eq | ne | ltS | leS | ltN | leN | test =>
    exact reads_v3src (m := 0) rfl fun h hb => by simp [decodeFields_04, dec04, h, reg, pred, hb, fld_predD, Nat.mod_eq_of_lt, Nat.div_eq_of_lt]
  case addi | andi | ori | xori | shli | shri | sari => exact reads_imm9 rfl fun h => by simp [decodeFields_05, dec05, h, reg]
  case movi g d k =>
    have hg := g.toNat_lt
    exact reads_fields [(9, k.toNat), (6, 0), (6, d.val), (1, g.toNat), (3, 7), (6, 0x05)] rfl fun _ h _ => by
      simp_all [HasFields, decodeFields_05, dec05, reg, bit]
  case mov g d b => exact reads_v3srcCut (b := b) 0x0C000000 0 g d 0 rfl fun h hb => by simp [decodeFields_06, dec06, h, reg, hb]
  case laneid g d => exact reads_v3cut 0x0D800000 0 g d 0 0 rfl fun _ h _ => by simp [decodeFields_06, dec06, h, reg, fld_ab]
  -- Floating-point words
  case fadd | fsub | fmul | ffma | ffms | fnfma | fmin | fmax | fdiv | hadd2 | hmul2 | hfma2 | badd2 | bmul2 | bfma2 | cvtF16x2F32 |
      cvtBf16x2F32 | cvtE4m3x2F32 | cvtE5m2x2F32 | unpk4S | unpk4N =>
    exact reads_v3src rfl (fun h hb => by
      simp [decodeFields_08, dec08, decodeFields_09, dec09, decodeFields_0C, dec0C, decodeFields_0D, dec0D, decodeFields_0E,
        dec0E, h, reg, hb]) (Rm.code_lt _)
  case fsqrt | dsqrt | cvtF32I32 | cvtI32F32 | cvtF32N32 | cvtN32F32 | cvtF32F16 | cvtF64F32 | cvtF32F64 |
      cvtF32Bf16 | cvtF32E4m3 | cvtF32E5m2 =>
    exact reads_v3 (b := 0) rfl (fun h => by
      simp [decodeFields_09, dec09, decodeFields_0B, dec0B, decodeFields_0D, dec0D, decodeFields_0E, dec0E, h, reg]) (Rm.code_lt _)
  case frcp | frsq | fex2 | flg2 | fsin | fcos => exact reads_v3 (m := 0) (b := 0) rfl fun h => by simp [decodeFields_09, dec09, h, reg]
  case feq | fne | flt | fle | funord =>
    exact reads_v3src (m := 0) rfl fun h hb => by simp [decodeFields_0A, dec0A, h, reg, pred, hb, fld_predD, Nat.mod_eq_of_lt, Nat.div_eq_of_lt]
  case fcls => exact reads_v3 (m := 0) rfl fun h => by simp [decodeFields_0A, dec0A, h, reg, pred, fld_predD, Nat.mod_eq_of_lt, Nat.div_eq_of_lt]
  case dadd | dsub | dmul | dfma | ddiv => exact reads_v3 rfl (fun h => by simp [decodeFields_0B, dec0B, h, reg]) (Rm.code_lt _)
  -- Interval words
  case iadd | isub | imul | idiv | ihull | isect => exact reads_v3 rfl (fun h => by simp [decodeFields_10, dec10, h, reg]) (IKind.code_lt _)
  case isqr | iwid | isqrt | iabs | ineg | imid | isplit | ipt =>
    exact reads_v3 (b := 0) rfl (fun h => by simp [decodeFields_10, dec10, decodeFields_11, dec11, h, reg]) (IKind.code_lt _)
  case imake =>
    exact reads_v3src rfl (fun h hb => by simp [decodeFields_11, dec11, h, reg, hb]) (IKind.code_lt _) (hb := IKind.ok_of_pointSrcOk)
  case ilt | ile | ieq | ine | isubset | icont =>
    exact reads_v3 rfl (fun h => by simp [decodeFields_12, dec12, h, reg, pred, fld_predD, Nat.mod_eq_of_lt, Nat.div_eq_of_lt]) (IKind.code_lt _)
  case iempty =>
    exact reads_v3 (b := 0) rfl (fun h => by
      simp [decodeFields_12, dec12, h, reg, pred, fld_predD, Nat.mod_eq_of_lt, Nat.div_eq_of_lt]) (IKind.code_lt _)
  -- Predicates, shuffles and the accumulator
  case pand | por | pxor =>
    exact reads_v3 (m := 0) rfl fun h => by
      simp [decodeFields_13, dec13, h, pred, fld_predD, fld_predA, fld_predB, Nat.mod_eq_of_lt, Nat.div_eq_of_lt]
  case pnot | pdf | pdt | pund | vote =>
    exact reads_v3 (m := 0) (b := 0) rfl fun h => by
      simp [decodeFields_13, dec13, decodeFields_14, dec14, h, pred, fld_predD, fld_predA, Nat.mod_eq_of_lt, Nat.div_eq_of_lt]
  case pset g d k =>
    have hg := g.toNat_lt
    exact reads_fields [(2, k.toNat), (10, 0), (3, d.val), (3, 0), (1, g.toNat), (3, 0), (3, 6), (6, 0x13)] rfl fun _ h _ => by
      simp_all [HasFields, decodeFields_13, dec13, pred, bit]
  case shflIdx | shflUp | shflDn | shflXor | bcast => exact reads_v3src (m := 0) rfl fun h hb => by simp [decodeFields_14, dec14, h, reg, hb]
  case redadd => exact reads_v3 (m := 0) (b := 0) rfl fun h => by simp [decodeFields_14, dec14, h, reg]
  case ballot =>
    exact reads_v3 (m := 0) (b := 0) rfl fun h => by simp [decodeFields_14, dec14, h, reg, pred, fld_predA, Nat.mod_eq_of_lt, Nat.div_eq_of_lt]
  case xaadd x g a =>
    exact reads_v3cut 0x2C000000 x g 0 a 0 rfl fun _ h _ => by
      simp [decodeFields_16, dec16, h, reg, fld_mod1, Nat.mod_eq_of_lt x.isLt, Nat.div_eq_of_lt x.isLt]
  case xachk x =>
    exact reads_fields [(19, 0), (1, x.val), (2, 0), (3, 1), (6, 0x16)] rfl fun _ h _ => by
      simp_all [HasFields, decodeFields_16, dec16]
  case xaclr x =>
    exact reads_fields [(19, 0), (1, x.val), (2, 0), (3, 4), (6, 0x16)] rfl fun _ h _ => by
      simp_all [HasFields, decodeFields_16, dec16]
  case xadrn x g d =>
    exact reads_v3cut 0x2C800000 x g d 0 0 rfl fun _ h _ => by
      simp [decodeFields_16, dec16, h, reg, fld_mod1, fld_ab, Nat.mod_eq_of_lt x.isLt, Nat.div_eq_of_lt x.isLt]
  case xastat x g d =>
    exact reads_v3cut 0x2D800000 x g d 0 0 rfl fun _ h _ => by
      simp [decodeFields_16, dec16, h, reg, fld_mod1, fld_ab, Nat.mod_eq_of_lt x.isLt, Nat.div_eq_of_lt x.isLt]
  case xatst x g d b =>
    exact reads_v3srcCut (b := b) 0x2CC00000 x g d 0 rfl fun h hb => by
      simp [decodeFields_16, dec16, h, pred, hb, fld_mod1, fld_predD, Nat.mod_eq_of_lt x.isLt, Nat.div_eq_of_lt x.isLt, Nat.mod_eq_of_lt,
        Nat.div_eq_of_lt]
  case xard x g d b =>
    exact reads_v3srcCut 0x2D400000 x g d 0 rfl (fun h hb => by
      simp [decodeFields_16, dec16, h, reg, hb, fld_mod1, Nat.mod_eq_of_lt x.isLt, Nat.div_eq_of_lt x.isLt])
      (hb := fun h => (Bool.and_eq_true_iff.mp h).1)
  -- Scalar words
  case sAdd | sSub | sAnd | sOr | sXor | sShl | sShr | sSar | sMul | sMulhS | sMulhN | sMinS | sMaxS | sSltS | sSltN | sSeq | vtos | ssel =>
    exact reads_s3src rfl fun h hb => by simp [decodeFields_18, dec18, decodeFields_19, dec19, decodeFields_1E, dec1E, h, reg, hb]
  case sAddi | sAndi | sOri | sXori | sShli | sShri | sSari | sSltiS => exact reads_imm10 rfl fun h => by simp [decodeFields_1A, dec1A, h, reg]
  case sMovi d k =>
    exact reads_fields [(19, k.toNat), (6, d.val), (6, 0x1B)] rfl fun _ h _ => by
      simp_all [HasFields, decodeFields_1B, dec1B, reg]
  case movh d k =>
    exact reads_fields [(19, k.toNat), (6, d.val), (6, 0x1C)] rfl fun _ h _ => by
      simp_all [HasFields, decodeFields_1C, dec1C, reg]
  case add64 | sub64 => exact reads_s3 rfl fun h => by simp [decodeFields_1D, dec1D, h, reg]
  case addz64 =>
    exact reads_s3src rfl (fun h hb => by simp [decodeFields_1D, dec1D, h, reg, hb])
      (hb := fun h => (Bool.and_eq_true_iff.mp (Bool.and_eq_true_iff.mp h).1).1)
  case mov64 | stov | vtosf => exact reads_s3 (b := 0) rfl fun h => by simp [decodeFields_1D, dec1D, decodeFields_1E, dec1E, h, reg]
  -- Control and waits
  case brp s p t r =>
    have hs := s.code_lt
    exact reads_fields [(9, r.toNat), (10, t.toNat), (3, p.val), (3, s.code), (6, 0x20)] rfl fun _ h _ => by
      simp_all [HasFields, decodeFields_20, dec20, pred]
  case brs k a o =>
    have hk := k.code_lt
    exact reads_fields [(16, o.toNat), (6, a.val), (3, k.code), (6, 0x21)] rfl fun _ h _ => by
      simp_all [HasFields, decodeFields_21, dec21, reg]
  case jmp | call => exact reads_j22 rfl fun h => by simp [decodeFields_22, dec22, h]
  case ret | exit | kill | brk | nop | yield => exact reads_j22 (k := 0) rfl fun h => by simp [decodeFields_23, dec23, h]
  case jmpr a =>
    exact reads_fields [(6, 0), (6, a.val), (10, 0), (3, 1), (6, 0x23)] rfl fun _ h _ => by
      simp_all [HasFields, decodeFields_23, dec23, reg]
  case callr a =>
    exact reads_fields [(6, 0), (6, a.val), (10, 0), (3, 2), (6, 0x23)] rfl fun _ h _ => by
      simp_all [HasFields, decodeFields_23, dec23, reg]
  case brpl s p r off =>
    have hs := s.code_lt
    exact reads_fields [(3, 0), (16, r.toNat), (3, p.val), (3, s.code), (6, 0x24)] rfl fun _ h _ => by
      simp_all [HasFields, decodeFields_24, dec24, pred, Instr.literal]
  case loop l a e =>
    exact reads_fields [(14, e.toNat), (6, a.val), (2, l.val), (3, 0), (6, 0x25)] rfl fun _ h _ => by
      simp_all [HasFields, decodeFields_25, dec25, reg]
  case loopi l k e =>
    exact reads_fields [(14, e.toNat), (6, k.toNat), (2, l.val), (3, 1), (6, 0x25)] rfl fun _ h _ => by
      simp_all [HasFields, decodeFields_25, dec25]
  case lbrk l =>
    exact reads_fields [(20, 0), (2, l.val), (3, 2), (6, 0x25)] rfl fun _ h _ => by
      simp_all [HasFields, decodeFields_25, dec25]
  case bar | bararr | barwait =>
    exact reads_op13 (d := 0) rfl fun h => by simp [decodeFields_26, dec26, h, fld_low13, fld_high13, Nat.mod_eq_of_lt, Nat.div_eq_of_lt]
  case abinit | abarr => exact reads_op13 rfl fun h => by simp [decodeFields_26, dec26, h, reg]
  case abwait d p =>
    have hp := p.toNat_lt
    exact reads_fields [(1, p.toNat), (12, 0), (6, d.val), (6, 5), (6, 0x26)] rfl fun _ h _ => by
      simp_all [HasFields, decodeFields_26, dec26, reg, bit]
  case sleep => exact reads_op13 (d := 0) rfl fun h => by simp [decodeFields_26, dec26, h]
  case wtok => exact reads_op13 (k := 0) rfl fun h => by simp [decodeFields_26, dec26, h, reg]
  case rgn | rgnT | rgnend => exact reads_op13 (d := 0) (k := 0) rfl fun h => by simp [decodeFields_26, dec26, h, fld_low19]
  -- Loads, stores and atomics
  case ld8n | ld8s | ld16n | ld16s | ld32 | st8 | st16 | st32 =>
    exact reads_v3addr rfl (fun h ha => by simp [decodeFields_28, dec28, decodeFields_29, dec29, h, reg, ha]) (MemMod.code_lt _)
  case ld64 | ld128 | ldi | st64 | st128 | sti =>
    exact reads_v3addr rfl (fun h ha => by simp [decodeFields_28, dec28, decodeFields_29, dec29, h, reg, ha]) (MemMod.code_lt _)
      (hok := fun h => (Bool.and_eq_true_iff.mp h).1)
  case ldb8n | ldb8s | ldb16n | ldb16s | ldb32 | ldb64 | ldb128 | ldbi | stb8 | stb16 | stb32 | stb64 | stb128 | stbi |
      ldc8n | ldc8s | ldc16n | ldc16s | ldc32 | ldc64 | ldc128 | ldci | stc8 | stc16 | stc32 | stc64 | stc128 | stci =>
    exact reads_v3pair rfl (fun h => by
      simp [decodeFields_2A, dec2A, decodeFields_2B, dec2B, decodeFields_2C, dec2C, decodeFields_2D, dec2D, h, reg]) (MemMod.code_lt _)
  case atomAdd | atomMinS | atomMaxS | atomMinN | atomMaxN | atomAnd | atomOr | atomXor | atomXchg | atomFadd | atomFmin | atomFmax =>
    exact reads_v3addr rfl (fun h ha => by simp [decodeFields_2E, dec2E, decodeFields_2F, dec2F, h, reg, ha]) (AtomMod.code_lt _)
  case atomCas | atomAdd64 =>
    exact reads_v3addr rfl (fun h ha => by simp [decodeFields_2F, dec2F, h, reg, ha]) (AtomMod.code_lt _)
      (hok := fun h => (Bool.and_eq_true_iff.mp h).1)
  case atomcAdd m g d ad | atomcMinS m g d ad | atomcMaxS m g d ad | atomcOr m g d ad | atomcXchg m g d ad | atomcCas m g d ad =>
    have hm := m.toNat_lt
    exact reads_v3pair (m := m.toNat) rfl fun h => by
      simp [decodeFields_30, dec30, h, reg, bit_mod, fld_mod1, Nat.mod_eq_of_lt hm, Nat.div_eq_of_lt hm]
  case atomAddSc | atomXchgSc => exact reads_v3addr (m := 0) rfl fun h ha => by simp [decodeFields_31, dec31, h, reg, ha]
  case atomCasSc =>
    exact reads_v3addr (m := 0) rfl (fun h ha => by simp [decodeFields_31, dec31, h, reg, ha]) (hok := fun h => (Bool.and_eq_true_iff.mp h).1)
  -- Fences, hints, engines and queues
  case fenceAcq k | fenceRel k | fenceAr k | fenceWb k | fenceInval k | bfence k =>
    have hk := k.code_lt
    exact reads_op13 (d := 0) rfl fun h => by simp [decodeFields_32, dec32, h, fld_low3, Nat.mod_eq_of_lt, Nat.div_eq_of_lt, hk]
  case fenceSc => exact reads_op13 (K := 0x64180000) (d := 0) (k := 3) rfl fun h => by simp [decodeFields_32, dec32, h, fld_low19]
  case pref g ad => exact reads_v3addrCut (ad := ad) 0x66000000 0 g 0 rfl fun h ha => by simp [decodeFields_33, dec33, h, ha]
  case prefL1 g ad => exact reads_v3addrCut (ad := ad) 0x66400000 0 g 0 rfl fun h ha => by simp [decodeFields_33, dec33, h, ha]
  case cwb g ad => exact reads_v3addrCut (ad := ad) 0x66C00000 0 g 0 rfl fun h ha => by simp [decodeFields_33, dec33, h, ha]
  case cinv g ad => exact reads_v3addrCut (ad := ad) 0x67000000 0 g 0 rfl fun h ha => by simp [decodeFields_33, dec33, h, ha]
  case resid g k ad =>
    have hk := k.toNat_lt
    exact reads_v3addr (m := 0) (d := k.toNat) rfl fun h ha => by
      simp [decodeFields_33, dec33, h, ha, fld_lowD1, Nat.mod_eq_of_lt, Nat.div_eq_of_lt, hk]
  case settag | gettag => exact reads_v3addr (m := 0) rfl fun h ha => by simp [decodeFields_33, dec33, h, reg, ha]
  case cpyIn | cpyOut | cpyMc | cpyCc | cpy2d | cpy2dmc | cpyWb | putsig | qpush =>
    exact reads_op3 rfl fun h => by simp [decodeFields_34, dec34, decodeFields_35, dec35, h, reg]
  case cseal d =>
    exact reads_fields [(12, 0), (6, d.val), (1, 0), (6, 7), (6, 0x34)] rfl fun _ h _ => by
      simp_all [HasFields, decodeFields_34, dec34, reg]
  case cwait | cpoll | qpop | qpoll => exact reads_op3 (b := 0) rfl fun h => by simp [decodeFields_34, dec34, decodeFields_35, dec35, h, reg]
  case baddS32 | baddF32 | baddBf16x2 | bmaxF32 | bminF32 =>
    exact reads_v3addr (m := 0) rfl fun h ha => by simp [decodeFields_36, dec36, h, reg, ha]
  -- Matrix, graphics and system words
  case mma | mld | mst | mzero | mres | mspan => exact reads_op3 (b := 0) rfl fun h => by simp [decodeFields_37, dec37, h, reg]
  case mrel a =>
    exact reads_fields [(6, 0), (6, a.val), (7, 0), (6, 5), (6, 0x37)] rfl fun _ h _ => by
      simp_all [HasFields, decodeFields_37, dec37, reg]
  case munspan | vgrow | vshrink | tret | lkill =>
    exact reads_op13 (d := 0) (k := 0) rfl fun h => by
      simp [decodeFields_37, dec37, decodeFields_3B, dec3B, decodeFields_3C, dec3C, h, fld_low19]
  case frag | texSample | texLod | texFetch | texGather4 =>
    exact reads_v3 (m := 0) rfl fun h => by simp [decodeFields_38, dec38, decodeFields_39, dec39, h, reg]
  case fragKill g a => exact reads_v3cut 0x70400000 0 g 0 a 0 rfl fun _ h _ => by simp [decodeFields_38, dec38, h, reg]
  case fannc g a => exact reads_v3cut 0x70800000 0 g 0 a 0 rfl fun _ h _ => by simp [decodeFields_38, dec38, h, reg]
  case tsampNow | tsampSet =>
    exact reads_v3src (m := 0) rfl (fun h hb => by simp [decodeFields_38, dec38, h, reg, hb])
      (hb := fun h => (Bool.and_eq_true_iff.mp (Bool.and_eq_true_iff.mp h).1).1)
  case tflush g b => exact reads_v3srcCut (b := b) 0x71400000 0 g 0 0 rfl fun h hb => by simp [decodeFields_38, dec38, h, hb, fld_da]
  case pxld g d k =>
    have hg := g.toNat_lt
    exact reads_fields [(4, k.toNat), (8, 0), (6, d.val), (1, g.toNat), (3, 0), (3, 6), (6, 0x38)] rfl fun _ h _ => by
      simp_all [HasFields, decodeFields_38, dec38, reg, bit]
  case pxst g d k =>
    have hg := g.toNat_lt
    exact reads_fields [(4, k.toNat), (8, 0), (6, d.val), (1, g.toNat), (3, 0), (3, 7), (6, 0x38)] rfl fun _ h _ => by
      simp_all [HasFields, decodeFields_38, dec38, reg, bit]
  case emit | spawn =>
    exact reads_v3 (m := 0) rfl fun h => by simp [decodeFields_3A, dec3A, h, reg, pred, fld_predD, Nat.mod_eq_of_lt, Nat.div_eq_of_lt]
  case csrr | csrw | csrs | csrc => exact reads_op13 rfl fun h => by simp [decodeFields_3B, dec3B, h, reg]
  case csrwi => exact reads_op13 rfl fun h => by simp [decodeFields_3B, dec3B, h]
  case vgrowTry | frec => exact reads_op13 (k := 0) rfl fun h => by simp [decodeFields_3B, dec3B, decodeFields_3C, dec3C, h, reg]
  case trap | halt => exact reads_op13 (d := 0) rfl fun h => by simp [decodeFields_3C, dec3C, h]
  case poolGuard x =>
    exact reads_fields [(25, x.toNat), (6, 0x3F)] rfl fun _ h _ => by
      simp_all [HasFields, decodeFields_3F, dec3F]
  -- The steps of other agents have no word.
  all_goals exact fun _ _ _ h => nomatch h

/-- R45, R54: a well-formed instruction's word, with its literal behind it, decodes to the instruction. -/
theorem decode_encode {i : Instr} {w : Word} (lit : Word) (hwf : i.wf = true) (he : encode i = some w) :
    decode w (i.literal.getD lit) = some i := by
  rw [decode, reads_all i w lit hwf he, Option.filter_some, if_pos hwf]

/-- Settles O2: `decode_encode` holds of every word. -/
theorem vectorWordsDecode : Obligations.VectorWordsDecode := fun _ _ lit hwf he _ => decode_encode lit hwf he
/-- Settles O3: `decode_encode` holds of every word. -/
theorem scalarWordsDecode : Obligations.ScalarWordsDecode := fun _ _ lit hwf he _ _ => decode_encode lit hwf he
/-- Settles O4: `decode_encode` holds of every word. -/
theorem memoryWordsDecode : Obligations.MemoryWordsDecode := fun _ _ lit hwf he _ => decode_encode lit hwf he
end Sys2Proof
end

