-- ==== Sys2Proof/Proofs/GoingOn.lean ====
section
/-!
PROOFS. Proofs/GoingOn.lean: a word that takes its slot on ends every wait of its leaf and the leaf's place in issue order (R40, R44);
the clause on the next word of the packet keeps the latter.
-/
namespace Sys2Proof.Machine
noncomputable section

/-- A slot that goes on within its packet keeps no place in issue order. -/
theorem State.onward_no {u : State} {l : Entry} {len : Nat} (hL : u.latch.only = none) (hl : u.g.me.leaf = some l) (h : l.ws + len < 3) :
    (u.onward len).g.me.leaf.map (·.no) = some none := by
  unfold State.onward
  rw [State.advance_of_place hL hl h]
  show ((u.setLeaf fun l => { l.idle with ws := l.ws + len }).g.me.leaf.map (·.no)) = some none
  rw [State.setLeaf_leaf, hl]
  rfl

/-- A word of the leaf has issued as the first of all, and its place in issue order is noted (R79). -/
def placedState : State := { g := { me := { leaf := some { no := some 1 } } } }

/-- Refutes O14: where the leaf holds the place in issue order of a word that had begun and waited, going on to the next word of the packet
drops it (`Entry.idle`), while the clause says that of the leaf's waits only `wait`, `held` and `chained` end. -/
theorem not_slotsGoOn : ¬ Obligations.SlotsGoOn := by
  unfold Obligations.SlotsGoOn Clause.WordsGoOn
  rintro ⟨goes, -⟩
  have flows : Flows placedState 1 := fun l hl => .inl (by cases hl; decide)
  obtain ⟨-, -, next, -⟩ := goes placedState 1 rfl flows
  have kept := congrArg (fun t => t.g.me.leaf.map (·.no)) (next _ rfl (by decide))
  rw [State.onward_no rfl rfl (by decide)] at kept
  exact absurd kept (by decide)

end
end Sys2Proof.Machine
end

