-- ==== Sys2Proof/Proofs/Branches.lean ====
section
/-!
PROOFS. Proofs/Branches.lean: an undisturbed control-transfer word that only moves leaves leaves its slot where its body does, and counts
(R46, R396); jumps, scalar branches, and branches on which the lanes agree (R53, R64, R107, R108).
-/
namespace Sys2Proof.Machine
noncomputable section

/-! ### Words that only move leaves -/
/-- At `s` the body `f` moves leaves and loop counters only, whatever the latch holds. -/
def Shifts (f : State → State) (s : State) : Prop :=
  ∃ h lc la, ∀ L : Latch, f (s.withLatch L) = { s with latch := L, g := (s.g.looped lc la).movedTo h }

theorem State.goto_shifts (s : State) (t : Word) : Shifts (fun s => s.goto t) s := ⟨_, _, _, s.goto_moves t⟩
theorem State.leave_of_skip {s : State} {l : Entry} {t : Word} (hl : s.g.me.leaf = some l) (hs : l.skip = some t) : s.leave = s.goto t := by
  unfold State.leave
  rw [hl]
  dsimp only
  rw [hs]
theorem State.leave_of_sequence {s : State} {l : Entry} (hl : s.g.me.leaf = some l) (hs : l.skip = none) :
    s.leave = State.loopCheck l.pc 3 s := by
  unfold State.leave
  rw [hl]
  dsimp only
  rw [hs]
theorem State.leave_of_vacant {s : State} (hl : s.g.me.leaf = none) : s.leave = s := by
  unfold State.leave
  rw [hl]
theorem State.leave_shifts {s : State} (h : Quits s) : Shifts State.leave s := by
  cases hl : s.g.me.leaf with
  | none => exact ⟨s.g, s.g.regs.lc, s.g.regs.lactive, fun L => State.leave_of_vacant hl⟩
  | some l =>
    cases hs : l.skip with
    | some t =>
      obtain ⟨g, lc, la, e⟩ := s.goto_shifts t
      exact ⟨g, lc, la, fun L => (State.leave_of_skip (s := s.withLatch L) hl hs).trans (e L)⟩
    | none =>
      obtain ⟨g, lc, la, e⟩ := s.loopCheck_moves l.pc 3 h
      exact ⟨g, lc, la, fun L => (State.leave_of_sequence (s := s.withLatch L) hl hs).trans (e L)⟩

/-- The law of control-transfer words: one whose body does what `f` does, which only moves leaves, leaves its slot there. -/
theorem moves_of_shifts {i : Instr} {body f : State → State} {s : State} (hx : exec i s = issueCtl i body s) (hf : Shifts f s)
    (hb : body (s.begun i) = f (s.begun i)) : Moves i s (f s) := by
  intro hI
  obtain ⟨h, lc, la, e⟩ := hf
  have here : f s = { s with latch := s.latch, g := (s.g.looped lc la).movedTo h } := e s.latch
  have begun : body (s.begun i) = { s with latch := (s.begun i).latch, g := (s.g.looped lc la).movedTo h } := hb.trans (e _)
  rw [hx, issueCtl, issue_still hI]
  show (let t := body (s.begun i); if t.latch.stall then Host.Outcome.next t else .next t.countRetired.closeIssue) = _
  rw [begun, here]
  exact congrArg Host.Outcome.next (State.closeIssue_still
    ({ s with latch := (s.begun i).latch, g := (s.g.looped lc la).movedTo h }.setRegs fun r => { r with retired := r.retired + 1 })
    ⟨rfl, rfl, rfl, rfl, rfl, rfl, rfl, rfl⟩ hI.calm hI.ready)

/-! ### What a word reads as its effect begins -/
theorem State.begun_src (i : Instr) (s : State) : (s.begun i).src = s.g := rfl
theorem State.begun_lanes (i : Instr) (s : State) (g : Bool) : (s.begun i).lanes g = s.g.lanes g := BitVec.and_allOnes

/-! ### Jumps and scalar branches (R53, R107, R108) -/
theorem exec_jmp (o : BitVec 22) (s : State) : exec (.jmp o) s = issueCtl (.jmp o) (fun s => s.goto (s.g.pc + o.signExtend 32)) s := rfl
theorem exec_jmpr (a : SReg) (s : State) : exec (.jmpr a) s = issueCtl (.jmpr a) (fun s => s.goto (s.src.readS a)) s := rfl
theorem exec_brs (k : Cond) (a : SReg) (o : BitVec 16) (s : State) : exec (.brs k a o) s = issueCtl (.brs k a o)
    (fun s => if condHolds k (s.src.readS a) then s.goto (s.g.pc + o.signExtend 32) else s.leave) s := rfl

/-- The conditions of `brs` speak of the scalar as a signed number. -/
theorem condHolds_iff (k : Cond) (w : Word) : condHolds k w = true ↔ match k with
    | .z => w.toInt = 0 | .nz => w.toInt ≠ 0 | .ltz => w.toInt < 0 | .gez => 0 ≤ w.toInt | .gtz => 0 < w.toInt | .lez => w.toInt ≤ 0
    | .always => True := by
  have zero : w = 0#32 ↔ w.toInt = 0 := BitVec.toInt_inj.symm
  cases k <;> simp [condHolds, zero]

theorem jmp_moves (s : State) (j : BitVec 22) : Moves (.jmp j) s (s.goto (s.g.pc + BitVec.ofInt 32 j.toInt)) :=
  moves_of_shifts (exec_jmp j s) (s.goto_shifts _) rfl
theorem jmpr_moves (s : State) (a : SReg) : Moves (.jmpr a) s (s.goto (s.g.readS a)) :=
  moves_of_shifts (exec_jmpr a s) (s.goto_shifts _) rfl
theorem brs_moves_of_holds {s : State} {k : Cond} {a : SReg} (o : BitVec 16) (h : condHolds k (s.g.readS a) = true) :
    Moves (.brs k a o) s (s.goto (s.g.pc + BitVec.ofInt 32 o.toInt)) :=
  moves_of_shifts (exec_brs k a o s) (s.goto_shifts _) (if_pos h)
theorem brs_moves_of_not {s : State} {k : Cond} {a : SReg} (o : BitVec 16) (h : ¬ condHolds k (s.g.readS a) = true) (hq : Quits s) :
    Moves (.brs k a o) s s.leave :=
  moves_of_shifts (exec_brs k a o s) (State.leave_shifts hq) (if_neg h)

theorem jumpsAndScalarBranches : Clause.JumpsAndScalarBranches := by
  intro s k a o j x holds
  have cond : condHolds k (s.g.readS a) = true ↔ holds := condHolds_iff k _
  exact ⟨jmp_moves s j, jmpr_moves s a, fun h => brs_moves_of_holds o (cond.mpr h), fun h => brs_moves_of_not o (mt cond.mp h)⟩

/-! ### Branches on which the lanes agree (R64) -/
theorem exec_brp (sn : Sense) (p : PReg) (t : BitVec 10) (r : BitVec 9) (s : State) :
    exec (.brp sn p t r) s = issueCtl (.brp sn p t r) (fun s => s.branch sn p (t.signExtend 32) r.toNat) s := rfl
theorem exec_brpl (sn : Sense) (p : PReg) (r : BitVec 16) (off : Word) (s : State) :
    exec (.brpl sn p r off) s = issueCtl (.brpl sn p r off) (fun s => s.branch sn p off r.toNat) s := rfl

/-- The lanes that take a branch on P[p]. -/
def Group.takers (g : Group) (sn : Sense) (p : PReg) : Mask := maskOf fun L => meets (g.readP p L) (senseCode sn)

theorem and_takers_of_all {m : Mask} {g : Group} {sn : Sense} {p : PReg}
    (h : ∀ L : Lane, m.getLsbD L.val = true → meets (g.readP p L) (senseCode sn) = true) : m &&& g.takers sn p = m := by
  refine mask_ext fun L => ?_
  rw [BitVec.getLsbD_and, Group.takers, maskOf_getLsbD]
  cases hm : m.getLsbD L.val with
  | false => rfl
  | true => rw [h L hm]; rfl
theorem and_takers_of_none {m : Mask} {g : Group} {sn : Sense} {p : PReg}
    (h : ∀ L : Lane, m.getLsbD L.val = true → ¬ meets (g.readP p L) (senseCode sn) = true) : m &&& g.takers sn p = 0 := by
  refine mask_ext fun L => ?_
  rw [BitVec.getLsbD_and, Group.takers, maskOf_getLsbD]
  cases hm : m.getLsbD L.val with
  | false => exact (BitVec.getLsbD_zero).symm
  | true => rw [Bool.eq_false_iff.mpr (h L hm)]; exact (BitVec.getLsbD_zero).symm

/-- A branch that every active lane takes, and there is one, goes to its target. -/
theorem State.branch_of_all {s : State} {l : Entry} {sn : Sense} {p : PReg} (off : Word) (roff : Nat) (hl : s.g.me.leaf = some l)
    (h0 : s.lanes false ≠ 0) (h : s.lanes false &&& s.src.takers sn p = s.lanes false) : s.branch sn p off roff = s.goto (l.pc + off) := by
  unfold State.branch
  rw [hl]
  dsimp only
  rw [show (s.lanes false &&& maskOf fun L => Machine.meets (s.src.readP p L) (senseCode sn)) = s.lanes false from h, if_neg h0,
    if_pos (BitVec.and_not_self _)]
/-- A branch that no active lane takes leaves the packet. -/
theorem State.branch_of_none {s : State} {l : Entry} {sn : Sense} {p : PReg} (off : Word) (roff : Nat) (hl : s.g.me.leaf = some l)
    (h : s.lanes false &&& s.src.takers sn p = 0) : s.branch sn p off roff = s.leave := by
  unfold State.branch
  rw [hl]
  dsimp only
  rw [if_pos (show (s.lanes false &&& maskOf fun L => Machine.meets (s.src.readP p L) (senseCode sn)) = 0 from h)]

theorem uniformBranches : Clause.UniformBranches := by
  intro s sn p t r r' off l takes hl
  have lanes : ∀ i : Instr, (s.begun i).lanes false = l.amask := fun i => by
    rw [State.begun_lanes]
    unfold Group.lanes Group.amask
    rw [hl]
    rfl
  refine ⟨fun h0 h => ?_, fun h hq => ?_⟩
  · have allTake : l.amask &&& s.g.takers sn p = l.amask := and_takers_of_all h
    have body : ∀ i off n, (s.begun i).branch sn p off n = (s.begun i).goto (l.pc + off) := fun i off n =>
      State.branch_of_all off n hl (by rwa [lanes]) (by rw [lanes, State.begun_src, allTake])
    exact ⟨moves_of_shifts (exec_brp sn p t r s) (s.goto_shifts _) (body _ _ _),
      moves_of_shifts (exec_brpl sn p r' off s) (s.goto_shifts _) (body _ _ _)⟩
  · have noneTakes : l.amask &&& s.g.takers sn p = 0 := and_takers_of_none h
    have body : ∀ i off n, (s.begun i).branch sn p off n = (s.begun i).leave := fun i off n =>
      State.branch_of_none off n hl (by rw [lanes, State.begun_src, noneTakes])
    exact ⟨moves_of_shifts (exec_brp sn p t r s) (State.leave_shifts hq) (body _ _ _),
      moves_of_shifts (exec_brpl sn p r' off s) (State.leave_shifts hq) (body _ _ _)⟩

/-- Settles O31, by the law of words that only move leaves: a word whose lanes agree either goes to its target or leaves its packet. -/
theorem branches : Obligations.Branches := ⟨jumpsAndScalarBranches, uniformBranches⟩

end
end Sys2Proof.Machine
end

