-- ==== Sys2Proof/Proofs/Waits.lean ====
section
/-!
PROOFS. Proofs/Waits.lean: hints, sleeps, token waits and `yield` (R56, R110, R117).
-/
namespace Sys2Proof.Machine
noncomputable section

/-! ### Words that do nothing, or wait -/
/-- A sequential word that leaves the state alone goes on. -/
theorem goesOn_of_idle {i : Instr} {body : State → State} {s : State} (hx : exec i s = issueSeq i body s)
    (hb : body (s.begun i) = s.begun i) : Effect i s 0 s := fun hI hF _ =>
  issueSeq_goesOn (L := (s.begun i).latch) hx hI hb ⟨rfl, rfl, rfl, rfl, rfl, rfl, rfl, rfl⟩ (by rw [hI.alone]) hI.calm hI.ready hF
/-- A sequential word that stalls leaves its slot at what it has done. -/
theorem waits_of_stall {i : Instr} {body f : State → State} {s : State} (hx : exec i s = issueSeq i body s)
    (hb : body (s.begun i) = f (s.begun i)) (hf : (f (s.begun i)).latch.stall = true) : Waits i s f := by
  intro hI
  rw [hx, issueSeq, issue_still hI]
  show (let t := (let t := body (s.begun i); if t.latch.stall then t else t.advance i.len)
    if t.latch.stall then Host.Outcome.next t else .next t.countRetired.closeIssue) = _
  simp only [hb, hf, if_true]

theorem exec_nop (s : State) : exec .nop s = issueSeq .nop (fun s => s) s := rfl
theorem exec_sleep (n : BitVec 13) (s : State) : exec (.sleep n) s =
    issueSeq (.sleep n) (fun s => if n = 0 || s.myWait = .granted then s else s.waitFor .sleep) s := rfl
theorem exec_wtok (d : SReg) (s : State) : exec (.wtok d) s = issueSeq (.wtok d) (fun s => s) s := rfl

/-- When `sleep` goes on at once. -/
theorem sleepOver_iff (n : BitVec 13) (s : State) :
    (decide (n = 0) || decide (s.myWait = .granted)) = true ↔ n = 0 ∨ s.myWait = .granted := by
  rw [Bool.or_eq_true, decide_eq_true_eq, decide_eq_true_eq]
theorem sleep_goes_on {n : BitVec 13} {s : State} (h : n = 0 ∨ s.myWait = .granted) : Effect (.sleep n) s 0 s :=
  goesOn_of_idle (exec_sleep n s) (if_pos ((sleepOver_iff n (s.begun _)).mpr h))
theorem sleep_waits {n : BitVec 13} {s : State} (hn : n ≠ 0) (hw : s.myWait ≠ .granted) :
    Waits (.sleep n) s fun u => u.waitFor .sleep :=
  waits_of_stall (exec_sleep n s) (if_neg (mt (sleepOver_iff n (s.begun _)).mp (not_or.mpr ⟨hn, hw⟩))) rfl

theorem regBits_self (d : SReg) : (regBits [d]).getLsbD d.val = true := by
  revert d
  decide
/-- A word that is not ILLEGAL where it stands and names a scalar with a pending token stalls (R117, R233). -/
theorem wtok_stalls {d : SReg} {s : State} (hp : s.g.regs.pending.getLsbD d.val = true) (hL : s.latch = { len := 1 })
    (hl : s.g.me.leaf.isSome = true) (hr : s.g.status = .ready) (hm : s.g.method = none) : exec (.wtok d) s = .next s.stallNow := by
  have src : s.src = s.g := by unfold State.src; rw [hL]; rfl
  have issues : s.canIssue = true := by unfold State.canIssue; rw [src, hl, hr]; rfl
  have legal : s.illegal (.wtok d) = false := by
    unfold State.illegal State.barred
    rw [hm]
    exact Bool.and_false _
  have pending : s.src.regs.pending &&& regBits ((Instr.wtok d).names.sr ++ (Instr.wtok d).names.sw) ≠ 0 := fun h => by
    have bit : (s.g.regs.pending &&& regBits [d]).getLsbD d.val = false := (congrArg (·.getLsbD d.val) (src ▸ h)).trans BitVec.getLsbD_zero
    rw [BitVec.getLsbD_and, hp, regBits_self] at bit
    exact Bool.noConfusion bit
  have scalar : ¬ (((Instr.wtok d).names.pipe = .M || (Instr.wtok d).names.pipe = .A) && s.lanes false = 0) = true := by
    rw [show (Instr.wtok d).names.pipe = .S from rfl]
    exact Bool.false_ne_true
  rw [exec_wtok, issueSeq, issue, issues, legal, if_neg (by decide), if_neg (by decide), if_neg scalar,
    if_pos (by rw [decide_eq_true pending]; exact Bool.true_or _)]

/-! ### `yield` (R110) -/
theorem exec_yield (s : State) : exec .yield s = issue .yield (fun s =>
    let t := s.advance 1
    let u := { t with g := { t.g with passed := true } }
    if s.latch.first then u else u.swapAfter s.myId) s := rfl

/-- `g` once its issuing leaf has yielded and stands at its next word. -/
def Group.yielded (g : Group) : Group :=
  { g with passed := true, me := { g.me with leaf := g.me.leaf.map fun l => { l.idle with ws := l.ws + 1 } } }
theorem Group.yielded_waiting (g : Group) : g.yielded.waiting = g.waiting := Group.waiting_of_entries rfl
theorem Group.yielded_leaf {g : Group} {l : Entry} (hl : g.me.leaf = some l) :
    g.yielded.me.leaf = some { l.idle with ws := l.ws + 1 } := by
  unfold Group.yielded
  rw [hl]
  rfl

/-- The swap leaves what a group owes and its state alone. -/
theorem Group.swapIn_keeps (g : Group) (now : Nat) : (g.swapIn now).debt = g.debt ∧ (g.swapIn now).status = g.status := by
  unfold Group.swapIn
  split <;> exact ⟨rfl, rfl⟩
theorem Group.swapIn_of_none {g : Group} (now : Nat) (h : oldest g.waiting = none) : g.swapIn now = g := by
  unfold Group.swapIn
  rw [h]
  cases g.me.leaf <;> rfl

/-- Within its packet `yield` takes the slot on, lets other groups pass, and swaps. -/
theorem yield_swaps {s : State} {l : Entry} (hl : s.g.me.leaf = some l) (hw : l.ws < 2) (hI : Issues .yield s) :
    exec .yield s = .next ({ s with g := s.g.yielded.swapIn s.fresh }).moved := by
  have place : (s.begun .yield).advance 1 = (s.begun .yield).setLeaf fun l => { l.idle with ws := l.ws + 1 } :=
    State.advance_of_place (u := s.begun .yield) rfl hl (by omega)
  have same : ({ s with latch := (s.begun .yield).latch, g := s.g.yielded } : State).myId = (s.begun .yield).myId := by
    unfold State.myId
    show (match s.g.yielded.me.leaf with | some l => l.id | none => 0) = (match s.g.me.leaf with | some l => l.id | none => 0)
    rw [Group.yielded_leaf hl, hl]
    rfl
  have swapped : ({ s with latch := (s.begun .yield).latch, g := s.g.yielded } : State).swapAfter (s.begun .yield).myId =
      { s with latch := (s.begun .yield).latch, g := s.g.yielded.swapIn s.fresh } := if_pos same
  obtain ⟨debt, status⟩ := s.g.yielded.swapIn_keeps s.fresh
  rw [exec_yield, issue_still hI]
  show (let t := (let t := (s.begun .yield).advance 1
    ({ t with g := { t.g with passed := true } } : State).swapAfter (s.begun .yield).myId)
    if t.latch.stall then Host.Outcome.next t else .next t.countRetired.closeIssue) = _
  rw [place]
  show (let t := ({ s with latch := (s.begun .yield).latch, g := s.g.yielded } : State).swapAfter (s.begun .yield).myId
    if t.latch.stall then Host.Outcome.next t else .next t.countRetired.closeIssue) = _
  rw [swapped]
  exact congrArg Host.Outcome.next (State.closeIssue_still
    (({ s with latch := (s.begun .yield).latch, g := s.g.yielded.swapIn s.fresh } : State).setRegs fun r => { r with retired := r.retired + 1 })
    ⟨rfl, rfl, rfl, rfl, rfl, rfl, rfl, rfl⟩ (debt.trans hI.calm) (status.trans hI.ready))

/-- A group with no other entry has no leaf to swap in. -/
theorem yield_alone {s : State} {l : Entry} (h : Single s l) (hw : l.ws < 2) (hI : Issues .yield s) :
    ∃ u, exec .yield s = .next u ∧ u.rest = s.rest ∧ u.g = { s.g with
      passed := true, me := { s.g.me with leaf := some { l.idle with ws := l.ws + 1 } }
      regs := { s.g.regs with retired := s.g.regs.retired + 1 } } := by
  have noSwap : s.g.yielded.swapIn s.fresh = s.g.yielded :=
    Group.swapIn_of_none _ (by rw [Group.yielded_waiting, Group.waiting, h.rest]; rfl)
  refine ⟨_, yield_swaps h.leaf hw hI, rfl, ?_⟩
  rw [noSwap, Group.yielded, h.leaf]
  rfl
/-- The oldest waiting leaf takes the slot of the leaf that yields. -/
theorem yield_to_oldest {s : State} {l w : Entry} (hl : s.g.me.leaf = some l) (hw : l.ws < 2) (ho : oldest s.g.waiting = some w)
    (hI : Issues .yield s) : ∃ u, exec .yield s = .next u ∧ u.rest = s.rest ∧ u.g = { s.g with
      passed := true, regs := { s.g.regs with retired := s.g.regs.retired + 1 }
      entries := (s.g.entries.filter fun e => e.id ≠ w.id) ++ [{ ({ l.idle with ws := l.ws + 1 } : Entry) with age := 0 }]
      me := { s.g.me with leaf := some { w with age := 0 }, stalled := false, since := s.fresh } } := by
  refine ⟨_, yield_swaps hl hw hI, rfl, ?_⟩
  rw [Group.swapIn, Group.yielded_leaf hl, Group.yielded_waiting, ho]
  rfl

/-- Settles O38, by the laws of words that do nothing or stall, and by what the swap of `yield` finds. -/
theorem nopsAndWaits : Obligations.NopsAndWaits := fun s _ _ =>
  ⟨goesOn_of_idle (exec_nop s) rfl, sleep_goes_on (.inl rfl), goesOn_of_idle (exec_wtok _ s) rfl, sleep_waits,
    fun _ hg => sleep_goes_on (.inr hg), wtok_stalls, fun _ => yield_alone, fun _ _ hl hw ho => yield_to_oldest hl hw ho⟩

end
end Sys2Proof.Machine
end

