-- ==== Sys2Proof/Proofs/StepRuns.lean ====
section
/-!
PROOFS. Proofs/StepRuns.lean: a step runs the word or the chained pair at which the issuing slot stands, or the row that the plan names
(R40, R43, R67, R68, R185).
-/
namespace Sys2Proof.Machine
noncomputable section

/-! ### Outcomes -/
theorem mapOut_mapOut (x : Out) (f g : State → State) : mapOut (mapOut x f) g = mapOut x fun s => g (f s) := by
  cases x <;> rfl

/-! ### What a step turns to -/
theorem step_of_issue {s : State} {gid : Nat} (hs : s.stopped = false) (hm : s.move = .issue gid) :
    step s = mapOut (s.issueGroup gid) fun t => { t.follow with silent := [] }.pass := by
  unfold step State.moveOn
  rw [hs, hm]
  rfl
theorem step_of_agent {s : State} {i : Instr} (hs : s.stopped = false) (hm : s.move = .agent i) :
    step s = mapOut (exec i (s.withLatch {})) fun t => (t.follow.afterAgent i).pass := by
  unfold step State.moveOn
  rw [hs, hm]
  rfl
theorem State.move_of_plan {s : State} {i : Instr} {rest : List Turn} (hp : s.plan = .agent i :: rest) (hi : isStep i = true) :
    s.move = .agent i := by
  unfold State.move
  rw [hp]
  exact if_pos hi
/-- The opportunity of a group whose slot holds the leaf `l`, none of whose words is parked. -/
theorem State.issueGroup_of_todo {s t : State} {gid : Nat} {l : Entry} {d : Todo} (ht : s.front gid = t) (hp : t.g.parked = [])
    (hl : t.g.me.leaf = some l) (hd : t.todo l = d) : s.issueGroup gid =
      mapOut ((t.keepCode l.pc).doIt d) fun u =>
        t.orderPast l.id ((d.words.any fun p => p.instr.any Instr.acquires) && !u.latch.stall)
          (u.afterIssue gid (t.detGroup t.g) (t.g.me.leaf.isSome && t.g.mate.leaf.isSome)) := by
  unfold State.issueGroup
  rw [ht]
  dsimp only
  rw [hp, hl]
  dsimp only
  rw [hd]
  exact if_neg Bool.false_ne_true
/-- What is issued where the slot stands at word `k` of a packet none of whose words offends: a pair, or one word (R43, R48). -/
def todoAt (w0 w1 w2 : Word) (k : Nat) : Todo :=
  let a := pword w0 w1 w2 k
  let b := pword w0 w1 w2 a.next
  if a.chains && !a.guard && a.next < 3 && !b.guard then .pair a b else .one a
theorem todoAt_of_last {w0 w1 w2 : Word} {k : Nat} (h : (pword w0 w1 w2 k).chains = false) :
    todoAt w0 w1 w2 k = .one (pword w0 w1 w2 k) := by
  unfold todoAt
  exact if_neg (by rw [h]; exact Bool.false_ne_true)
theorem todoAt_of_pair {w0 w1 w2 : Word} {k : Nat} (hc : (pword w0 w1 w2 k).chains = true) (hg : (pword w0 w1 w2 k).guard = false)
    (hn : (pword w0 w1 w2 k).next < 3) (hb : (pword w0 w1 w2 (pword w0 w1 w2 k).next).guard = false) :
    todoAt w0 w1 w2 k = .pair (pword w0 w1 w2 k) (pword w0 w1 w2 (pword w0 w1 w2 k).next) := by
  unfold todoAt
  exact if_pos (by rw [hc, hg, hb, decide_eq_true hn]; rfl)
/-- `State.todo` stands here as a function `f` that equals it: unfolded at a state, its equation makes the kernel evaluate the fetch. -/
theorem State.todo_of_words {t : State} {l : Entry} {w0 w1 w2 : Word} (hf : t.fetchPacket l.pc = .words w0 w1 w2)
    (ho : l.ws = 0 → t.offender w0 w1 w2 3 0 false = none) : t.todo l = todoAt w0 w1 w2 l.ws := by
  have sound : (if l.ws = 0 then t.offender w0 w1 w2 3 0 false else none) = none := by
    split
    · exact ho ‹_›
    · rfl
  suffices unfolded : ∀ f, f = State.todo → f t l = todoAt w0 w1 w2 l.ws from unfolded _ rfl
  intro f e
  delta State.todo at e
  subst e
  beta_reduce
  rw [hf]
  dsimp only
  rw [sound]
  rfl

/-! ### One word -/
theorem PWord.run_of_instr {p : PWord} {i : Instr} (h : p.instr = some i) (s : State) : p.run s = exec i s := by
  unfold PWord.run
  rw [h]

theorem stepRunsDecodedWord : Clause.StepRunsDecodedWord := by
  intro s gid l w0 w1 w2 i t c a hs hm hp hl hf ho hi hc
  have todo : t.todo l = .one a := (State.todo_of_words hf ho).trans (todoAt_of_last hc)
  have acquires : ((Todo.one a).words.any fun p => p.instr.any Instr.acquires) = i.acquires := by
    show (a.instr.any Instr.acquires || false) = i.acquires
    rw [hi, Bool.or_false]
    rfl
  rw [step_of_issue hs hm, State.issueGroup_of_todo rfl hp hl todo, mapOut_mapOut, acquires]
  show mapOut (c.issueOne a) _ = _
  rw [State.issueOne, PWord.run_of_instr hi, mapOut_mapOut]

/-! ### A chained pair -/
theorem State.swapAfter_latch (s : State) (id : Nat) : (s.swapAfter id).latch = s.latch := by
  unfold State.swapAfter
  split <;> rfl

/-- The second word of a pair that does not wait ends the pair, with the swap of a `yield` that came first. -/
theorem State.secondWord_of_next {c u v : State} {b : PWord} {j : Instr} (swap : Bool) (hj : b.instr = some j)
    (hv : exec j { u.setLeaf (fun x => { x with wait := c.myWait2 }) with
      latch := { u.latch with first := false, len := b.len, depth := none, skipped := false, no := u.latch.no.map (· + 1) } } = .next v)
    (hs : v.latch.stall = false) : c.secondWord b swap u = .next (if swap then v.swapAfter c.myId else v) := by
  unfold State.secondWord
  simp only [PWord.run_of_instr hj]
  refine (congrArg (mapOut · _) hv).trans (congrArg Host.Outcome.next ?_)
  exact if_neg (by rw [hs]; exact Bool.false_ne_true)
/-- A pair whose first word does not wait goes on to its second, where that would not have held the pair back. -/
theorem State.issuePair_of_next {c u : State} {a b : PWord} {i j : Instr} (hi : a.instr = some i) (hj : b.instr = some j)
    (hu : exec i (c.withLatch (c.latchFor a.len true true)) = .next u) (hstall : u.latch.stall = false) (hparty : u.latch.party = false)
    (hd : c.heldRegs = none → ∃ d, exec j (c.atSecond b c.readGroup) = .next d ∧ d.latch.stall = false ∧ d.latch.party = false) :
    c.issuePair a b = c.secondWord b (i = Instr.yield && !c.barred .yield) u := by
  have swap : (decide (a.instr = some Instr.yield) && !c.barred .yield) = (decide (i = Instr.yield) && !c.barred .yield) := by
    rw [hi]
    simp only [Option.some.injEq]
  unfold State.issuePair
  rw [PWord.run_of_instr hi, hu, swap]
  simp only [bindOut, hstall, hparty, Bool.and_false, Bool.false_eq_true, if_false]
  cases hh : c.heldRegs with
  | some r => rfl
  | none =>
    obtain ⟨d, hd, dstall, dparty⟩ := hd hh
    simp only [PWord.run_of_instr hj, hd, Latch.stuck, hstall, dstall, dparty, Option.isSome_none, Bool.false_eq_true, if_false,
      Bool.false_and, Bool.or_self]

theorem stepRunsPair : Clause.StepRunsPair := by
  intro s gid l w0 w1 w2 i j u v t c a b hs hm hp hl hf ho hc hg hn hbg hi hj hu hstall hparty hd hv hvs
  have todo : t.todo l = .pair a b := (State.todo_of_words hf ho).trans (todoAt_of_pair hc hg hn hbg)
  have acquires : ((Todo.pair a b).words.any fun p => p.instr.any Instr.acquires) = (i.acquires || j.acquires) := by
    show (a.instr.any Instr.acquires || (b.instr.any Instr.acquires || false)) = _
    rw [hi, hj, Bool.or_false]
    rfl
  have did : c.doIt (.pair a b) = .next (if i = Instr.yield && !c.barred .yield then v.swapAfter c.myId else v) :=
    (State.issuePair_of_next hi hj hu hstall hparty hd).trans (State.secondWord_of_next _ hj hv hvs)
  have still : (if i = Instr.yield && !c.barred .yield then v.swapAfter c.myId else v).latch.stall = false := by
    split
    · rw [State.swapAfter_latch, hvs]
    · exact hvs
  rw [step_of_issue hs hm, State.issueGroup_of_todo rfl hp hl todo, mapOut_mapOut, acquires, did]
  show Host.Outcome.next _ = _
  beta_reduce
  rw [still, Bool.not_false, Bool.and_true]

/-! ### Another agent's step -/
theorem stepRunsAgent : Clause.StepRunsAgent := fun _ _ _ hs hp hi => step_of_agent hs (State.move_of_plan hp hi)

/-- Settles O7, by what the step turns to: one word, a pair whose words do not wait, or the plan's row. -/
theorem stepRunsDecodedInstruction : Obligations.StepRunsDecodedInstruction := ⟨stepRunsDecodedWord, stepRunsPair, stepRunsAgent⟩

end
end Sys2Proof.Machine
end

