-- ==== Sys2Proof/Proofs/LaneVerdicts.lean ====
section
/-!
PROOFS. Proofs/LaneVerdicts.lean: what becomes of a lane's result (R76, R135, R141).
-/
namespace Sys2Proof.Machine
noncomputable section

theorem ten_eq (w : Word) : ten w = BitVec.ofNat 8 (w.toNat / 64 % 32) := congrArg (BitVec.ofNat 8) (wbits_eq w 10 6)
theorem shm_eq (w : Word) : shm w = w.toNat / 2 ^ 11 % 4 := wbits_eq w 12 11

/-- Some shadowed piece of a lane's result differs from `x`. -/
def FOut.diverges (o : FOut) (x : BitVec 128) : Bool := o.pieces.any fun p => p.diverges x

/-- A lane that faults keeps its destination. -/
theorem judge_of_fault {o : FOut} {c : Byte} (w : Word) (ups : List Upset) (L : Lane) (h : o.fault = some c) :
    judge w ups L o = { fault := some c } := by
  unfold judge
  rw [h]
/-- So does one that raises an enabled flag. -/
theorem judge_of_trap {w : Word} {o : FOut} (ups : List Upset) (L : Lane) (hf : o.fault = none) (ht : o.flags &&& ten w ≠ 0) :
    judge w ups L o = { flags := o.flags, fault := some 0x0B } := by
  unfold judge
  rw [hf]
  exact if_pos ht
/-- What the shadow unit makes of a result that it checks, `x` at the first attempt and `y` at the retry. -/
theorem judge_of_checked {w : Word} {o : FOut} (ups : List Upset) (L : Lane) (hf : o.fault = none) (ht : o.flags &&& ten w = 0)
    (hp : o.pieces ≠ []) :
    let x := o.val ^^^ flipOf ups L false
    let y := o.val ^^^ flipOf ups L true
    judge w ups L o =
      if shm w = 0 || !o.diverges x then { write := some x, flags := o.flags }
      else if shm w = 1 then { write := some x, flags := o.flags, count := 1 }
      else if shm w = 2 then { fault := some 0x0C }
      else if o.diverges y then { fault := some 0x0C, count := 1 }
      else { write := some y, flags := o.flags, count := 1 } := by
  unfold judge
  rw [hf]
  exact (if_neg (not_not.mpr ht)).trans (if_neg (by simpa using hp))

/-- Settles O27, by the cases of the judge: a fault, an enabled flag, and the four modes of the shadow. -/
theorem laneVerdicts : Obligations.LaneVerdicts := by
  intro w ups L o v first again bad
  rw [← ten_eq, ← shm_eq]
  refine ⟨fun c => judge_of_fault w ups L, judge_of_trap ups L, fun hf ht hp => ?_⟩
  have checked : v = _ := judge_of_checked ups L hf ht hp
  change v = if shm w = 0 || !bad first then { write := some first, flags := o.flags }
    else if shm w = 1 then { write := some first, flags := o.flags, count := 1 }
    else if shm w = 2 then { fault := some 0x0C }
    else if bad again then { fault := some 0x0C, count := 1 }
    else { write := some again, flags := o.flags, count := 1 } at checked
  rw [checked]
  refine ⟨?_, fun h1 h => ?_, fun h2 h => ?_, fun h3 h h' => ?_, fun h3 h h' => ?_⟩
  · rintro (h | h) <;> simp [h]
  · simp [h1, h]
  · simp [h2, h]
  · simp [h3, h, h']
  · simp [h3, h, h']

end
end Sys2Proof.Machine
end

