-- ==== Sys2Proof/Proofs/TreeAtRest.lean ====
section
/-!
PROOFS. Proofs/TreeAtRest.lean: when the tree rules have nothing to change (R64-R67), what that means for a group whose only entry is its
root leaf, and what the issue of a control-transfer word comes to.
-/
namespace Sys2Proof.Machine
noncomputable section

/-! ### A tree at rest (R64-R67) -/
/-- The leaf stays in its slot: it owns a lane and does not stand at its reconvergence packet. -/
structure Entry.Stays (l : Entry) : Prop where
  owns : l.emask ≠ 0
  apart : l.atRpc = false
theorem Entry.not_atRpc {l : Entry} (h : l.pc ≠ l.rpc) : l.atRpc = false := by
  unfold Entry.atRpc
  simp [h]
theorem Entry.atRpc_of_place {l : Entry} (hk : l.kind = .leaf) (ha : l.arr = false) (hr : l.rpc ≠ 0xFFFFFFFF) (hp : l.pc = l.rpc) (hw : l.ws = 0) :
    l.atRpc = true := by
  unfold Entry.atRpc
  rw [hk, ha, hp, hw, decide_eq_true hr]
  simp
/-- No tree rule applies: every leaf stays in its slot, each call entry waits for lanes and each split parent for a child, and no leaf waits
for a slot. -/
structure Group.AtRest (g : Group) : Prop where
  stay : ∀ l ∈ g.residents, l.Stays
  calls : ∀ e ∈ g.entries, e.kind = .call → e.emask ≠ 0 ∧ e.amask ≠ e.emask
  splits : ∀ e ∈ g.entries, e.kind = .split → e.emask ≠ 0 ∧ g.splitDone e = false
  seated : ∀ e ∈ g.entries, e.kind ≠ .leaf

theorem Group.slot_sel (g : Group) : g.slot g.sel = g.me := if_pos rfl
theorem Group.slot_other (g : Group) : g.slot (1 - g.sel) = g.mate := if_neg (by omega)
theorem Group.mem_residents_of_slot {g : Group} {k : Fin 2} {l : Entry} (h : (g.slot k).leaf = some l) : l ∈ g.residents := by
  unfold Group.residents
  rw [List.mem_append, Option.mem_toList, Option.mem_toList]
  unfold Group.slot at h
  split at h
  · exact .inl h
  · exact .inr h
theorem Group.slot_of_mem_residents {g : Group} {l : Entry} (h : l ∈ g.residents) : ∃ k, (g.slot k).leaf = some l := by
  unfold Group.residents at h
  rw [List.mem_append, Option.mem_toList, Option.mem_toList] at h
  obtain h | h := h
  · exact ⟨g.sel, by rw [g.slot_sel]; exact h⟩
  · exact ⟨1 - g.sel, by rw [g.slot_other]; exact h⟩

theorem Group.treeSlot_of_vacant {g : Group} {k : Fin 2} (h : (g.slot k).leaf = none) : g.treeSlot k = none := by
  unfold Group.treeSlot
  rw [h]
theorem Group.treeSlot_of_stays {g : Group} {k : Fin 2} {l : Entry} (h : (g.slot k).leaf = some l) (hs : l.Stays) : g.treeSlot k = none := by
  unfold Group.treeSlot
  rw [h]
  exact (if_neg hs.owns).trans (if_neg (by rw [hs.apart]; exact Bool.false_ne_true))
theorem Group.treeParent_of_waiting {g : Group} (now : Nat) (f : Option (Fin 2))
    (hc : ∀ e ∈ g.entries, e.kind = .call → e.emask ≠ 0 ∧ e.amask ≠ e.emask)
    (hs : ∀ e ∈ g.entries, e.kind = .split → e.emask ≠ 0 ∧ g.splitDone e = false) : g.treeParent now f = none := by
  have calls : (g.entries.find? fun e => e.kind = .call && (e.emask = 0 || e.amask = e.emask)) = none :=
    List.find?_eq_none.mpr fun e he h => by
      simp only [Bool.and_eq_true, Bool.or_eq_true, decide_eq_true_eq] at h
      obtain ⟨h0, h1⟩ := hc e he h.1
      exact h.2.elim h0 h1
  have splits : (g.entries.find? fun e => e.kind = .split && (e.emask = 0 || g.splitDone e)) = none :=
    List.find?_eq_none.mpr fun e he h => by
      simp only [Bool.and_eq_true, Bool.or_eq_true, decide_eq_true_eq] at h
      obtain ⟨h0, h1⟩ := hs e he h.1
      exact h.2.elim h0 fun h => Bool.noConfusion (h1.symm.trans h)
  unfold Group.treeParent
  rw [calls]
  dsimp only
  rw [splits]
theorem Group.treeSuspended_of_seated {g : Group} (now : Nat) (h : ∀ e ∈ g.entries, e.kind ≠ .leaf) : g.treeSuspended now = none := by
  have gone : (g.entries.find? fun e => e.kind = .leaf && !g.saved e && (e.emask = 0 || e.atRpc)) = none :=
    List.find?_eq_none.mpr fun e he => by simp [h e he]
  have none_waits : g.waiting = [] := List.filter_eq_nil_iff.mpr fun e he => by simp [h e he]
  unfold Group.treeSuspended
  rw [gone, none_waits]
  rfl

theorem Group.AtRest.treeStep {g : Group} (h : g.AtRest) (now : Nat) (f : Option (Fin 2)) : g.treeStep now f = none := by
  have slots : ∀ k, g.treeSlot k = none := fun k => by
    cases hk : (g.slot k).leaf with
    | none => exact Group.treeSlot_of_vacant hk
    | some l => exact Group.treeSlot_of_stays hk (h.stay l (Group.mem_residents_of_slot hk))
  unfold Group.treeStep
  simp only [slots, Group.treeParent_of_waiting now f h.calls h.splits, Group.treeSuspended_of_seated now h.seated]
  cases f <;> rfl
/-- Where no rule applies, the rules leave the tree alone, whatever fuel they have. -/
theorem Group.AtRest.treeLoop {g : Group} (h : g.AtRest) (now n : Nat) (f : Option (Fin 2)) : g.treeLoop now n f = g := by
  cases n with
  | zero => rfl
  | succ n =>
    unfold Group.treeLoop
    rw [h.treeStep]
theorem Group.AtRest.regrow {g : Group} (h : g.AtRest) (now : Nat) (f : Option (Fin 2)) : g.regrow now f = g := h.treeLoop ..
/-- A rule that applies is followed. -/
theorem Group.treeLoop_of_step {g g' : Group} {now n : Nat} {f f' : Option (Fin 2)} (h : g.treeStep now f = some (g', f')) :
    g.treeLoop now (n + 1) f = g'.treeLoop now n f' := by
  conv => lhs; unfold Group.treeLoop
  rw [h]
theorem State.regrow_of_rest {s : State} (h : s.g.AtRest) (f : Option (Fin 2)) : s.regrow f = s :=
  congrArg (fun g => ({ s with g := g } : State)) (h.regrow s.fresh f)

/-! ### A parent goes on (R65, R72) -/
/-- A leaf takes the issuing slot. -/
theorem Group.seat_sel (g : Group) (l : Entry) (now : Nat) :
    g.seat g.sel l now = { g with me := { g.me with leaf := some { l with age := 0, arr := false }, stalled := false, since := now } } := by
  unfold Group.seat
  rw [g.slot_sel]
  exact if_pos rfl
theorem Group.place_sel {g : Group} (h : g.me.leaf = none) (l : Entry) (now : Nat) : g.place (some g.sel) l now = g.seat g.sel l now := by
  unfold Group.place
  dsimp only
  rw [g.slot_sel, h]
  rfl
/-- The issuing leaf arrives and frees its slot, where the other slot is free. -/
theorem Group.slots_of_arrival {g : Group} {l : Entry} (hl : g.me.leaf = some l) (hm : g.mate.leaf = none) (h0 : l.emask ≠ 0) (ha : l.atRpc = true) :
    ((g.treeSlot 0).orElse fun _ => g.treeSlot 1) =
      some ({ g with me := { g.me with leaf := none }, entries := g.entries ++ [{ l with arr := true }] }, some g.sel) := by
  have mine : g.treeSlot g.sel = some ({ g with me := { g.me with leaf := none }, entries := g.entries ++ [{ l with arr := true }] }, some g.sel) := by
    unfold Group.treeSlot Group.setSlot
    rw [g.slot_sel, hl]
    dsimp only
    rw [if_neg h0, if_pos ha, if_pos rfl]
  have other : g.treeSlot (1 - g.sel) = none := Group.treeSlot_of_vacant (by rw [g.slot_other, hm])
  obtain h | h : g.sel = 0 ∨ g.sel = 1 := by omega
  · rw [h] at mine
    rw [mine, h]
    rfl
  · rw [h] at mine other
    rw [show g.treeSlot 0 = none from other, mine, h]
    rfl
/-- A call entry whose lanes are all back becomes a leaf again (R72). -/
theorem Group.treeParent_of_return {g : Group} {c : Entry} (now : Nat) (f : Option (Fin 2)) (h0 : c.emask ≠ 0)
    (hf : g.entries.find? (fun e => e.kind = .call && (e.emask = 0 || e.amask = e.emask)) = some c) :
    g.treeParent now f = some ((g.dropEntry c.id).place f { c with kind := .leaf, pc := c.rpc, ws := 0, rpc := c.pc } now, none) := by
  unfold Group.treeParent
  rw [hf]
  exact if_neg h0
/-- A split parent whose children are done takes their place (R65). -/
theorem Group.treeParent_of_merge {g : Group} {p : Entry} (now : Nat) (f : Option (Fin 2)) (hc : ∀ e ∈ g.entries, e.kind ≠ .call)
    (h0 : p.emask ≠ 0) (hf : g.entries.find? (fun e => e.kind = .split && (e.emask = 0 || g.splitDone e)) = some p) :
    g.treeParent now f = some (({ g with entries := g.entries.filter fun c => c.id ≠ p.id && c.parent ≠ some p.id } : Group).place f
      { p with kind := .leaf, ws := 0, amask := p.emask } now, none) := by
  have calls : (g.entries.find? fun e => e.kind = .call && (e.emask = 0 || e.amask = e.emask)) = none :=
    List.find?_eq_none.mpr fun e he => by simp [hc e he]
  unfold Group.treeParent
  rw [calls]
  dsimp only
  rw [hf]
  exact if_neg h0

/-! ### A group whose only entry is its root leaf (R63) -/
theorem Entry.stays_of_root {l : Entry} (h : l.emask ≠ 0) (hr : l.rpc = 0xFFFFFFFF) : l.Stays :=
  ⟨h, by unfold Entry.atRpc; rw [hr]; simp⟩
theorem Group.atRest_of_roots {g : Group} (he : g.entries = []) (hs : ∀ l ∈ g.residents, l.emask ≠ 0 ∧ l.rpc = 0xFFFFFFFF) : g.AtRest where
  stay l hl := Entry.stays_of_root (hs l hl).1 (hs l hl).2
  calls e h := by rw [he] at h; exact absurd h List.not_mem_nil
  splits e h := by rw [he] at h; exact absurd h List.not_mem_nil
  seated e h := by rw [he] at h; exact absurd h List.not_mem_nil
theorem Single.residents {s : State} {l : Entry} (h : Single s l) : s.g.residents = [l] := by
  unfold Group.residents
  rw [h.leaf, h.mate]
  rfl
theorem Single.atRest {s : State} {l : Entry} (h : Single s l) : s.g.AtRest :=
  Group.atRest_of_roots h.rest fun k hk => by
    rw [h.residents, List.mem_singleton] at hk
    exact hk ▸ ⟨h.owns, h.root⟩
theorem Single.setLeaf {s : State} {l : Entry} (h : Single s l) {f : Entry → Entry} (hk : (f l).kind = l.kind) (he : (f l).emask ≠ 0)
    (hr : (f l).rpc = l.rpc) : Single (s.setLeaf f) (f l) :=
  ⟨by rw [State.setLeaf_leaf, h.leaf]; rfl, hk.trans h.kind, he, hr.trans h.root, h.mate, h.rest⟩
theorem Single.setRegs {s : State} {l : Entry} (h : Single s l) (f : Regs → Regs) : Single (s.setRegs f) l :=
  ⟨h.leaf, h.kind, h.owns, h.root, h.mate, h.rest⟩
theorem Single.begun {s : State} {l : Entry} (h : Single s l) (i : Instr) : Single (s.begun i) l :=
  ⟨h.leaf, h.kind, h.owns, h.root, h.mate, h.rest⟩
/-- R40, R65: the root leaf goes where it is sent. -/
theorem Single.goto {s : State} {l : Entry} (h : Single s l) (t : Word) : s.goto t = s.standAt t :=
  State.regrow_of_rest (h.setLeaf (f := fun l => { l.idle with pc := t, ws := 0, skip := none }) rfl h.owns rfl).atRest none
theorem Single.openTrap {s : State} {l : Entry} (h : Single s l) : s.g.openTrap = none := by
  unfold Group.openTrap
  rw [h.rest]
  rfl
theorem Single.amask {s : State} {l : Entry} (h : Single s l) : s.g.amask = l.amask := by
  unfold Group.amask
  rw [h.leaf]

/-! ### What moving leaves does to the latch -/
@[simp] theorem State.raise_stall (s : State) (c : Byte) (m : Mask) : (s.raise c m).latch.stall = s.latch.stall := by
  obtain ⟨fs, h⟩ := s.raise_latch c m
  rw [h]
@[simp] theorem State.loopCheck_stall (p : Word) (n : Nat) (s : State) : (State.loopCheck p n s).latch.stall = s.latch.stall := by
  induction n generalizing s with
  | zero => rfl
  | succ n ih =>
    cases hk : topLevel s.g.regs.lactive with
    | none => unfold State.loopCheck; rw [hk]; rfl
    | some k =>
      rw [State.loopCheck_succ p n s k hk]
      split
      · rfl
      · split
        · exact s.raise_stall 0x0F s.g.amask
        · split
          · rfl
          · exact ih _
@[simp] theorem State.leave_stall (s : State) : s.leave.latch.stall = s.latch.stall := by
  unfold State.leave
  split
  · rfl
  · split
    · rfl
    · exact State.loopCheck_stall ..
@[simp] theorem State.advance_stall (s : State) (len : Nat) : (s.advance len).latch.stall = s.latch.stall := by
  unfold State.advance
  split
  · rfl
  · split
    · rfl
    · split
      · rfl
      · exact s.leave_stall

/-! ### The state beside the issuing group -/
@[simp] theorem State.setLeaf_rest (s : State) (f : Entry → Entry) : (s.setLeaf f).rest = s.rest := rfl
@[simp] theorem State.moved_rest (s : State) : s.moved.rest = s.rest := rfl

/-! ### The issue of a word that does not wait -/
/-- What an issue may have left in its latch that calls for nothing, whether or not its word was skipped. -/
structure Latch.Quiet (L : Latch) : Prop where
  first : L.first = false
  faults : L.faults = []
  dying : L.dying = 0
  soft : L.soft = none
  halting : L.halting = none
/-- An issue that has left nothing to act on ends, whatever has become of the group's leaves. -/
theorem State.closeIssue_quiet {u : State} (h : u.latch.Quiet) (hd : u.g.debt = {}) (hp : u.g.status ≠ .parked) :
    u.closeIssue = { u with latch := {} } := by
  have e : ({ u.g with debt := {} } : Group) = u.g := by rw [← hd]
  unfold State.closeIssue State.settle
  rw [h.first, hd]
  unfold State.act Debt.add Debt.stops
  rw [h.faults, h.dying, h.soft, h.halting, decide_eq_false hp]
  exact congrArg (fun g => ({ u with latch := {}, g := g } : State)) e
/-- A word that does not wait counts, and what its faults call for follows. -/
theorem does_of_issue {i : Instr} {body f : State → State} {s : State} (hx : exec i s = issue i body s)
    (hb : body (s.begun i) = f (s.begun i)) (hs : (f (s.begun i)).latch.stall = false) : Does i s f := by
  intro hI
  rw [hx, issue_still hI]
  show (let t := body (s.begun i); if t.latch.stall then Host.Outcome.next t else .next t.countRetired.closeIssue) = _
  simp only [hb, hs, Bool.false_eq_true, if_false]
theorem does_of_issueSeq {i : Instr} {body f : State → State} {s : State} (hx : exec i s = issueSeq i body s)
    (hb : body (s.begun i) = f (s.begun i)) (hs : (f (s.begun i)).latch.stall = false) : Does i s fun u => (f u).advance i.len :=
  does_of_issue (body := fun s => let t := body s; if t.latch.stall then t else t.advance i.len) hx
    (by simp only [hb, hs, Bool.false_eq_true, if_false]) (by rw [State.advance_stall, hs])
/-- One whose effect is `u`, in a group that owes nothing and is not parked, leaves `u`. -/
theorem Does.moved {i : Instr} {f : State → State} {s u : State} (h : Does i s f) (hI : Issues i s)
    (hu : f (s.begun i) = u.withLatch (s.begun i).latch) (hd : u.g.debt = {}) (hp : u.g.status ≠ .parked) : exec i s = .next u.moved := by
  rw [h hI, hu]
  exact congrArg Host.Outcome.next (State.closeIssue_quiet
    (u := (u.setRegs fun r => { r with retired := r.retired + 1 }).withLatch (s.begun i).latch)
    ⟨rfl, rfl, rfl, rfl, rfl⟩ hd hp)
/-! ### Words that call for the handler or a halt (R79) -/
/-- Whatever the word calls for stands in the latch as a soft trap or a halt alone. -/
structure Latch.Calls (L : Latch) : Prop where
  snap : L.snap = none
  first : L.first = false
  skipped : L.skipped = false
  only : L.only = none
  faults : L.faults = []
  dying : L.dying = 0
  poison : L.poison = 0
theorem Latch.Calls.debt {L : Latch} (h : L.Calls) : ({} : Debt).add L = { soft := L.soft, halting := L.halting } := by
  unfold Debt.add
  rw [h.faults, h.dying, h.poison]
  exact congrArg₂ (fun (d : Mask) (p : BitVec 64) => ({ soft := L.soft, halting := L.halting, dying := d, poison := p } : Debt)) BitVec.or_zero
    BitVec.or_zero
/-- Where no word of the group is under way, what the word calls for follows at once. -/
theorem State.closeIssue_of_calls {u : State} {L : Latch} (hL : L.Calls) (hd : u.g.debt = {}) (hr : u.g.status = .ready) (hb : u.g.busy = false) :
    (u.withLatch L).closeIssue = State.act (u.withLatch {}) u.g.openTrap.isSome { soft := L.soft, halting := L.halting } := by
  have inside : (u.withLatch L).src = u.g := by
    unfold State.src
    rw [State.withLatch_latch, hL.snap]
    rfl
  have same : ({ u.g with debt := {} } : Group) = u.g := by rw [← hd]
  have runs : u.g.status ≠ .parked := by
    rw [hr]
    decide
  unfold State.closeIssue State.settle
  rw [inside, State.withLatch_latch, hL.first, State.withLatch_g, hd, hL.debt, hb, decide_eq_false runs]
  dsimp only
  rw [Bool.and_false]
  exact congrArg (fun g => State.act { u with latch := {}, g := g } u.g.openTrap.isSome { soft := L.soft, halting := L.halting }) same
theorem Does.calls {i : Instr} {f : State → State} {s u : State} {L : Latch} (h : Does i s f) (hI : Issues i s) (hu : f (s.begun i) = u.withLatch L)
    (hL : L.Calls) (hd : u.g.debt = {}) (hr : u.g.status = .ready) (hb : u.g.busy = false) :
    exec i s = .next (State.act ((u.setRegs fun r => { r with retired := r.retired + 1 }).withLatch {}) u.g.openTrap.isSome
      { soft := L.soft, halting := L.halting }) := by
  have counted : (u.withLatch L).countRetired = (u.setRegs fun r => { r with retired := r.retired + 1 }).withLatch L := by
    unfold State.countRetired
    rw [State.withLatch_latch, hL.only, hL.skipped]
    rfl
  rw [h hI, hu, counted, State.closeIssue_of_calls (u := u.setRegs fun r => { r with retired := r.retired + 1 }) hL hd hr hb]
  rfl

end
end Sys2Proof.Machine
end

