-- ==== Sys2Proof/Proofs/Loops.lean ====
section
/-!
PROOFS. Proofs/Loops.lean: loop levels are installed, checked and left (R74, R75, R112, R113).
-/
namespace Sys2Proof.Machine
noncomputable section

/-! ### The loop end check (R75) -/
/-- The highest installed level is the one above which none is. -/
theorem topLevel_eq {a : BitVec 3} {k : Fin 3} (hk : a.getLsbD k.val = true) (h : ∀ j : Fin 3, k < j → a.getLsbD j.val = false) :
    topLevel a = some k := by
  revert a k
  decide
theorem loopEndCheck : Clause.LoopEndCheck := by
  intro s p k n hk htop off
  rw [State.loopCheck_succ p n s k (topLevel_eq hk htop)]
  refine ⟨fun he => if_pos he, fun he ho hc => ?_, fun he ho hc => ?_, fun he ho => ?_⟩
  · rw [if_neg (not_not.mpr he), ho, if_neg Bool.false_ne_true, if_pos hc]
  · rw [if_neg (not_not.mpr he), ho, if_neg Bool.false_ne_true, if_neg (by omega)]
    rfl
  · rw [if_neg (not_not.mpr he), if_pos ho]
    rfl

/-! ### Installation (R74, R112) -/
theorem exec_loop (n : Fin 3) (a : SReg) (e : BitVec 14) (s : State) :
    exec (.loop n a e) s = issueSeq (.loop n a e) (fun s => s.loopInstall n (s.src.readS a) e) s := rfl
theorem exec_loopi (n : Fin 3) (k : BitVec 6) (e : BitVec 14) (s : State) :
    exec (.loopi n k e) s = issueSeq (.loopi n k e) (fun s => s.loopInstall n (k.setWidth 32) e) s := rfl

/-- Level n can be installed: no split is open, and neither it nor a level above it is installed. -/
def Group.loopFree (g : Group) (n : Fin 3) : Prop :=
  g.splitOpen = false ∧ ∀ j : Fin 3, n ≤ j → g.regs.lactive.getLsbD j.val = false
theorem noneFrom_iff (a : BitVec 3) (n : Fin 3) : a >>> n.val = 0 ↔ ∀ j : Fin 3, n ≤ j → a.getLsbD j.val = false := by
  revert a n
  decide
theorem Group.loopFree_iff (g : Group) (n : Fin 3) :
    g.loopFree n ↔ ¬(g.splitOpen || decide (g.regs.lactive >>> n.val ≠ 0)) = true := by
  unfold Group.loopFree
  rw [← noneFrom_iff, Bool.or_eq_true, decide_eq_true_eq, not_or, not_not, Bool.not_eq_true]

theorem State.loopInstall_of_count {s : State} {n : Fin 3} {c : Word} (e : BitVec 14) (h : s.g.loopFree n) (hc : c ≠ 0) :
    s.loopInstall n c e = s.setRegs fun r => { r with
      lc := r.lc.set n c, lstart := r.lstart.set n (s.g.pc + 1), lend := r.lend.set n (s.g.pc + BitVec.ofNat 32 e.toNat)
      lactive := r.lactive ||| (1#3 <<< n.val) } := by
  rw [BitVec.ofNat_toNat]
  exact (if_neg ((s.g.loopFree_iff n).mp h)).trans (if_neg hc)
theorem State.loopInstall_of_zero {s : State} {n : Fin 3} (e : BitVec 14) (h : s.g.loopFree n) :
    s.loopInstall n 0 e = s.setLeaf fun l => { l with skip := some (s.g.pc + BitVec.ofNat 32 e.toNat + 1) } := by
  rw [BitVec.ofNat_toNat]
  exact (if_neg ((s.g.loopFree_iff n).mp h)).trans (if_pos rfl)
theorem State.loopInstall_of_fault {s : State} {n : Fin 3} (c : Word) (e : BitVec 14) (h : ¬s.g.loopFree n) :
    s.loopInstall n c e = s.raise 0x0F (s.lanes false) :=
  if_pos (not_not.mp (mt (s.g.loopFree_iff n).mpr h))

/-- Where the issuing leaf goes on does not decide whether a split is open. -/
theorem State.setLeaf_splitOpen (s : State) {f : Entry → Entry} (h : ∀ l, (f l).kind = l.kind ∧ (f l).arr = l.arr ∧ (f l).id = l.id) :
    (s.setLeaf f).g.splitOpen = s.g.splitOpen := by
  cases hl : s.g.me.leaf with
  | none =>
    have same : ({ s.g.me with leaf := s.g.me.leaf.map f } : Slot) = s.g.me := by rw [hl]; exact congrArg (fun o => { s.g.me with leaf := o }) hl.symm
    exact congrArg (fun m => Group.splitOpen { s.g with me := m }) same
  | some l =>
    obtain ⟨kind, arr, id⟩ := h l
    have moved : ({ s.g.me with leaf := s.g.me.leaf.map f } : Slot) = { s.g.me with leaf := some (f l) } := by rw [hl]; rfl
    exact (congrArg (fun m => Group.splitOpen { s.g with me := m }) moved).trans (s.g.splitOpen_leaf l (f l) hl kind arr id)

/-- A loop word, whose count the group gives as it stands. -/
theorem loopWord_effect {i : Instr} {s : State} {n : Fin 3} {c : Word} {e : BitVec 14} {f : State → Word}
    (hx : exec i s = issueSeq i (fun s => s.loopInstall n (f s) e) s) (hf : f (s.begun i) = c) (hlen : i.len = 1) :
    (s.g.loopFree n → c ≠ 0 → Effect i s 0 (s.setRegs fun r => { r with
      lc := r.lc.set n c, lstart := r.lstart.set n (s.g.pc + 1), lend := r.lend.set n (s.g.pc + BitVec.ofNat 32 e.toNat)
      lactive := r.lactive ||| (1#3 <<< n.val) })) ∧
    (s.g.loopFree n → c = 0 → Effect i s 0 (s.setLeaf fun l => { l with skip := some (s.g.pc + BitVec.ofNat 32 e.toNat + 1) })) ∧
    (¬s.g.loopFree n → Does i s fun u => (u.raise 0x0F s.g.amask).advance 1) := by
  refine ⟨fun h hc hI _ _ => ?_, fun h hc hI _ _ => ?_, fun h => ?_⟩
  · refine issueSeq_effect hx hI ?_ rfl rfl rfl fun _ _ => .inr (.inr h.1)
    rw [hf, State.loopInstall_of_count (s := s.begun i) e h hc]
    rfl
  · refine issueSeq_effect hx hI ?_ rfl rfl rfl fun _ _ => .inr (.inr ((s.setLeaf_splitOpen ?_).trans h.1))
    · rw [hf, hc, State.loopInstall_of_zero (s := s.begun i) e h]
      rfl
    · exact fun _ => ⟨rfl, rfl, rfl⟩
  · have body : (s.begun i).loopInstall n (f (s.begun i)) e = (s.begun i).raise 0x0F s.g.amask := by
      rw [State.loopInstall_of_fault (s := s.begun i) _ e h, State.begun_lanes]
      rfl
    have := does_of_issueSeq (f := fun u => u.raise 0x0F s.g.amask) hx body (State.raise_stall ..)
    rwa [hlen] at this

/-! ### Leaving a level (R113) -/
theorem exec_lbrk (n : Fin 3) (s : State) : exec (.lbrk n) s = issueCtl (.lbrk n) (fun s =>
    if !s.g.regs.lactive.getLsbD n.val || s.g.splitOpen then (s.raise 0x0F (s.lanes false)).leave
    else (s.setRegs fun r => r.uninstallFrom n.val).goto (s.g.regs.lend[n] + 1)) s := rfl
theorem Regs.uninstallFrom_eq (r : Regs) (n : Fin 3) : r.uninstallFrom n.val = { r with
    lc := Vector.ofFn fun j => if n ≤ j ∧ r.lactive.getLsbD j.val = true then 0 else r.lc[j]
    lactive := r.lactive &&& BitVec.ofNat 3 (2 ^ n.val - 1) } := by
  unfold Regs.uninstallFrom
  simp only [Bool.and_eq_true, decide_eq_true_eq, ge_iff_le, Fin.le_def]
theorem State.uninstallFrom_shifts (s : State) (n : Fin 3) (t : Word) : Shifts (fun u => (u.setRegs fun r => r.uninstallFrom n.val).goto t) s :=
  ⟨_, (s.g.regs.uninstallFrom n.val).lc, (s.g.regs.uninstallFrom n.val).lactive, fun L => (s.setRegs fun r => r.uninstallFrom n.val).goto_moves t L⟩
theorem lbrk_moves {s : State} {n : Fin 3} (hn : s.g.regs.lactive.getLsbD n.val = true) (ho : s.g.splitOpen = false) :
    Moves (.lbrk n) s ((s.setRegs fun r => r.uninstallFrom n.val).goto (s.g.regs.lend[n] + 1)) :=
  moves_of_shifts (exec_lbrk n s) (s.uninstallFrom_shifts n _)
    (if_neg (by rw [show (s.begun (.lbrk n)).g = s.g from rfl, hn, ho]; exact Bool.false_ne_true))
theorem lbrk_faults {s : State} {n : Fin 3} (h : s.g.regs.lactive.getLsbD n.val = false ∨ s.g.splitOpen = true) :
    Does (.lbrk n) s fun u => (u.raise 0x0F s.g.amask).leave := by
  have bad : (!s.g.regs.lactive.getLsbD n.val || s.g.splitOpen) = true := by
    obtain h | h := h <;> rw [h]
    · rfl
    · exact Bool.or_true _
  refine does_of_issue (exec_lbrk n s) ((if_pos bad).trans ?_) ((State.leave_stall _).trans (State.raise_stall ..))
  rw [State.begun_lanes]
  rfl

theorem loops : Clause.Loops := by
  intro s n a k e free does
  refine ⟨loopWord_effect (exec_loop n a e s) rfl rfl, loopWord_effect (exec_loopi n k e s) (BitVec.ofNat_toNat ..).symm rfl, fun hn ho => ?_, lbrk_faults⟩
  have := lbrk_moves hn ho
  simp only [Regs.uninstallFrom_eq] at this
  exact this

/-- Settles O15, by the cases of the end check, and by what a loop word finds installed. -/
theorem loopLevels : Obligations.LoopLevels := ⟨loopEndCheck, loops⟩

end
end Sys2Proof.Machine
end

