-- ==== Sys2Proof/Proofs/Divergence.lean ====
section
/-!
PROOFS. Proofs/Divergence.lean: branches that divide the lanes of a group's only leaf (R64, R75), and leaves that merge (R65).
-/
namespace Sys2Proof.Machine
noncomputable section

/-! ### A leaf is divided (R64) -/
/-- The leaf `l` has become a split parent of the lanes `F` that fall through and the lanes `T` that go to the target. -/
def State.divided (s : State) (l : Entry) (T F : Mask) (target rpc : Word) : State := { s with g := s.g.split l T F target rpc s.fresh }

/-- A branch on which the lanes disagree divides its leaf, while the tree has room. -/
theorem State.branch_of_divided {s : State} {l : Entry} {sn : Sense} {p : PReg} {T F : Mask} {rpc : Word} {off : Word} {roff : Nat}
    (hl : s.g.me.leaf = some l) (hT : s.lanes false &&& s.src.takers sn p = T) (hF : s.lanes false &&& ~~~T = F)
    (hr : (if roff = 0 then l.rpc else l.pc + BitVec.ofNat 32 roff) = rpc) (hT0 : T ≠ 0) (hF0 : F ≠ 0) (hd : s.g.depth + 2 ≤ s.g.entryLimit) :
    s.branch sn p off roff = (s.divided l T F (l.pc + off) rpc).leave := by
  unfold State.branch
  rw [hl]
  dsimp only
  rw [show (s.lanes false &&& maskOf fun L => Machine.meets (s.src.readP p L) (senseCode sn)) = T from hT, hF, hr, if_neg hT0, if_neg hF0,
    if_neg (Nat.not_lt.mpr hd)]
  rfl

section
variable {s : State} {l : Entry} (h : Single s l) (T F : Mask) (target rpc : Word)
include h
theorem Single.depth : s.g.depth = 1 := by
  unfold Group.depth Group.allEntries
  rw [h.residents, h.rest]
  rfl
theorem Single.divided_g : (s.divided l T F target rpc).g = { s.g with
    nextEntry := s.g.nextEntry + 2, entries := [{ l.idle with kind := .split, amask := 0, pc := rpc, ws := 0, skip := none }]
    me := { s.g.me with
      leaf := some { l with id := s.g.nextEntry, parent := some l.id, emask := F, amask := F, rpc := rpc, age := 0 }, since := s.fresh }
    mate := { s.g.mate with
      leaf := some { id := s.g.nextEntry + 1, parent := some l.id, emask := T, amask := T, pc := target, rpc := rpc }
      stalled := false, since := s.fresh } } := by
  have free : s.g.mate.leaf.isNone = true := by rw [h.mate]; rfl
  show s.g.split l T F target rpc s.fresh = _
  unfold Group.split
  dsimp only
  rw [if_pos free, h.rest]
  rfl
theorem Single.divided_leaf : (s.divided l T F target rpc).g.me.leaf =
    some { l with id := s.g.nextEntry, parent := some l.id, emask := F, amask := F, rpc := rpc, age := 0 } := by
  rw [h.divided_g]
theorem Single.divided_splitOpen : (s.divided l T F target rpc).g.splitOpen = true := by
  rw [h.divided_g]
  unfold Group.splitOpen Group.allEntries
  simp [Group.afterTrap, Group.openTrap, List.filter_append]
/-- The fall-through leaf goes on to the next packet, where neither leaf merges at once. -/
theorem Single.divided_goto (ha : l.arr = false) (hT : T ≠ 0) (hF : F ≠ 0) (hn : l.pc + 1 ≠ rpc) (ht : target ≠ rpc) :
    (s.divided l T F target rpc).goto (l.pc + 1) = (s.divided l T F target rpc).standAt (l.pc + 1) := by
  refine State.regrow_of_rest ?_ none
  unfold State.setLeaf
  rw [h.divided_g]
  refine ⟨fun k hk => ?_, fun e he => ?_, fun e he => ?_, fun e he => ?_⟩
  · obtain rfl | rfl : k = _ ∨ k = _ := by simpa [Group.residents] using hk
    · exact ⟨hF, Entry.not_atRpc hn⟩
    · exact ⟨hT, Entry.not_atRpc ht⟩
  all_goals obtain rfl := List.mem_singleton.mp he
  · exact fun hk => nomatch hk
  · refine fun _ => ⟨h.owns, ?_⟩
    unfold Group.splitDone Group.allEntries Group.residents
    simp [ha, Entry.idle]
  · exact fun hk => nomatch hk
end

/-! ### The end check of a divided leaf (R75) -/
/-- Where the packet ends no innermost level, the slot goes on to the next packet. -/
theorem State.loopCheck_of_elsewhere {s : State} {p : Word} (n : Nat) (h : ∀ k, topLevel s.g.regs.lactive = some k → s.g.regs.lend[k] ≠ p) :
    State.loopCheck p (n + 1) s = s.goto (p + 1) := by
  cases hk : topLevel s.g.regs.lactive with
  | none => unfold State.loopCheck; rw [hk]
  | some k => exact (State.loopCheck_succ p n s k hk).trans (if_pos (h k hk))
/-- Where it ends one while a split is open, the level is uninstalled with a fault. -/
theorem State.loopCheck_of_split {s : State} {p : Word} {k : Fin 3} (n : Nat) (hk : topLevel s.g.regs.lactive = some k) (he : s.g.regs.lend[k] = p)
    (ho : s.g.splitOpen = true) : State.loopCheck p (n + 1) s = ((s.raise 0x0F s.g.amask).setRegs fun r => r.uninstall k).goto (p + 1) :=
  (State.loopCheck_succ p n s k hk).trans ((if_neg (not_not.mpr he)).trans (if_pos ho))

/-! ### The words (R64, R106) -/
section
variable {s : State} {l : Entry} {sn : Sense} {p : PReg} {T F : Mask} {rpc off : Word} {roff : Nat} {i : Instr}
  (hx : exec i s = issueCtl i (fun s => s.branch sn p off roff) s) (h : Single s l) (hs : l.skip = none)
  (hT : l.amask &&& s.g.takers sn p = T) (hF : l.amask &&& ~~~T = F) (hr : (if roff = 0 then l.rpc else l.pc + BitVec.ofNat 32 roff) = rpc)
  (hT0 : T ≠ 0) (hF0 : F ≠ 0)
include h hs hT hF hr hT0 hF0
theorem Single.begun_branch (i : Instr) :
    (s.begun i).branch sn p off roff = State.loopCheck l.pc 3 ((s.begun i).divided l T F (l.pc + off) rpc) := by
  have lanes : (s.begun i).lanes false = l.amask := (State.begun_lanes i s false).trans h.amask
  have room : (s.begun i).g.depth + 2 ≤ (s.begun i).g.entryLimit := by
    rw [(h.begun i).depth]
    unfold Group.entryLimit
    omega
  rw [State.branch_of_divided (h.begun i).leaf (by rw [lanes]; exact hT) (by rw [lanes]; exact hF) hr hT0 hF0 room]
  exact (State.leave_of_sequence ((h.begun i).divided_leaf T F (l.pc + off) rpc) hs :)
include hx
/-- A branch that divides the leaf leaves it divided, the fall-through leaf at the next packet. -/
theorem branch_divides (ha : l.arr = false) (he : ∀ k, topLevel s.g.regs.lactive = some k → s.g.regs.lend[k] ≠ l.pc) (hn : l.pc + 1 ≠ rpc)
    (ht : l.pc + off ≠ rpc) (hI : Issues i s) : exec i s = .next ((s.divided l T F (l.pc + off) rpc).standAt (l.pc + 1)).moved := by
  have body : (s.begun i).branch sn p off roff = ((s.begun i).divided l T F (l.pc + off) rpc).standAt (l.pc + 1) := by
    rw [h.begun_branch hs hT hF hr hT0 hF0 i, State.loopCheck_of_elsewhere 2 (by rw [(h.begun i).divided_g]; exact he),
      (h.begun i).divided_goto T F _ rpc ha hT0 hF0 hn ht]
  have front : ((s.divided l T F (l.pc + off) rpc).standAt (l.pc + 1)).g.debt = s.g.debt ∧
      ((s.divided l T F (l.pc + off) rpc).standAt (l.pc + 1)).g.status = s.g.status := by
    unfold State.standAt
    rw [State.setLeaf_g_debt, State.setLeaf_g_status, h.divided_g]
    exact ⟨rfl, rfl⟩
  refine (does_of_issue (f := fun s => s.branch sn p off roff) hx rfl (by rw [body]; rfl)).moved hI (body.trans rfl) (front.1.trans hI.calm) ?_
  rw [front.2, hI.ready]
  decide
/-- Where its packet ends the innermost level, the level is uninstalled with a fault of the lanes that fall through. -/
theorem branch_checked {k : Fin 3} (hk : topLevel s.g.regs.lactive = some k) (he : s.g.regs.lend[k] = l.pc) : Does i s fun u =>
    ((({ u with g := u.g.split l T F (l.pc + off) rpc s.fresh } : State).raise 0x0F F).setRegs fun r => r.uninstall k).goto (l.pc + 1) := by
  refine does_of_issue hx ?_ (State.raise_stall ..)
  have amask : ((s.begun i).divided l T F (l.pc + off) rpc).g.amask = F := by
    rw [(h.begun i).divided_g]
    rfl
  rw [h.begun_branch hs hT hF hr hT0 hF0 i, State.loopCheck_of_split 2 (by rw [(h.begun i).divided_g]; exact hk)
    (by rw [(h.begun i).divided_g]; exact he) ((h.begun i).divided_splitOpen ..), amask]
  rfl
end

theorem divergentBranches : Clause.DivergentBranches := by
  intro s sn p t r r' off l T F splits checked target rpc rpc' h ha hs hT hF
  have zero : ∀ {n : Nat} (x : BitVec n), (if x.toNat = 0 then l.rpc else l.pc + BitVec.ofNat 32 x.toNat) =
      if x = 0 then l.rpc else l.pc + BitVec.ofNat 32 x.toNat := fun x =>
    if_congr (BitVec.toNat_inj (y := 0)) rfl rfl
  have parts : ∀ i target rpc, (l.pc + 1 ≠ rpc → target ≠ rpc → Issues i s →
      exec i s = .next ((s.divided l T F target rpc).standAt (l.pc + 1)).moved) → splits i target rpc := fun i target rpc moves hn ht hI => by
    have g := h.divided_g T F target rpc
    refine ⟨_, moves hn ht hI, rfl, congrArg Group.entries g, ?_, congrArg (·.mate.leaf) g, ?_, ?_⟩
    · exact congrArg (fun g : Machine.Group => g.me.leaf.map fun l' => { l'.idle with pc := l.pc + 1, ws := 0, skip := none }) g
    · refine (congrArg (fun g : Machine.Group =>
        { g with me := s.g.me, mate := s.g.mate, entries := [], nextEntry := s.g.nextEntry, regs := s.g.regs }) g).trans ?_
      exact congrArg (fun es => ({ s.g with entries := es } : Machine.Group)) h.rest.symm
    · exact congrArg (fun g : Machine.Group => { g.regs with retired := g.regs.retired + 1 }) g
  refine ⟨fun he => ⟨parts _ _ _ ?_, parts _ _ _ ?_⟩, fun k hk he => ⟨?_, ?_⟩⟩
  · exact branch_divides (exec_brp sn p t r s) h hs rfl rfl (zero r) hT hF ha he
  · exact branch_divides (exec_brpl sn p r' off s) h hs rfl rfl (zero r') hT hF ha he
  · exact branch_checked (exec_brp sn p t r s) h hs rfl rfl (zero r) hT hF hk he
  · exact branch_checked (exec_brpl sn p r' off s) h hs rfl rfl (zero r') hT hF hk he

/-! ### Leaves merge (R65) -/
theorem leavesMerge : Clause.LeavesMerge := by
  intro s l p a hl hm hE hlk hla hl0 hlp hlr hpk hp0 hpp hpr hpc hak haa hap hpa hpl hal
  let l' : Entry := { l.idle with pc := l.rpc, ws := 0, skip := none }
  let p' : Entry := { p with kind := .leaf, ws := 0, amask := p.emask }
  let g := (s.setLeaf fun l' => { l'.idle with pc := l.rpc, ws := 0, skip := none }).g
  let g1 : Machine.Group := { g with me := { g.me with leaf := none }, entries := g.entries ++ [{ l' with arr := true }] }
  let g2 : Machine.Group := { g1 with
    entries := [], me := { g1.me with leaf := some { p' with age := 0, arr := false }, stalled := false, since := s.fresh } }
  have atEnd : l'.atRpc = true := Entry.atRpc_of_place hlk hla hlr rfl rfl
  have leaf : g.me.leaf = some l' := by
    show s.g.me.leaf.map _ = _
    rw [hl]
    rfl
  have entries : g1.entries = [p, a, { l' with arr := true }] := by
    show s.g.entries ++ _ = _
    rw [hE]
    rfl
  have arrives : g.treeStep s.fresh none = some (g1, some g.sel) := by
    unfold Group.treeStep
    rw [Group.slots_of_arrival leaf hm hl0 atEnd]
    rfl
  have done : g1.splitDone p = true := by
    unfold Group.splitDone Group.allEntries Group.residents
    rw [entries, show g1.mate.leaf = none from hm]
    simp [g1, hpp, haa, hap]
  have merges : g1.treeStep s.fresh (some g.sel) = some (g2, none) := by
    have none_calls : ∀ e ∈ g1.entries, e.kind ≠ .call := by
      rw [entries]
      simp [hpk, hak, l', Entry.idle, hlk]
    have found : g1.entries.find? (fun e => e.kind = .split && (e.emask = 0 || g1.splitDone e)) = some p := by
      rw [entries]
      simp [hpk, done]
    have left : (g1.entries.filter fun c => c.id ≠ p.id && c.parent ≠ some p.id) = [] := by
      rw [entries]
      simp [hap, l', Entry.idle, hlp]
    unfold Group.treeStep
    rw [Group.treeParent_of_merge s.fresh (some g.sel) none_calls hp0 found, left]
    show some (Group.place { g1 with entries := [] } (some g1.sel) p' s.fresh, none) = _
    rw [Group.place_sel (g := { g1 with entries := [] }) rfl, Group.seat_sel]
  have rest : g2.AtRest := Group.atRest_of_roots rfl fun k hk => by
    unfold Group.residents at hk
    rw [show g2.mate.leaf = none from hm] at hk
    obtain rfl := List.mem_singleton.mp hk
    exact ⟨hp0, hpr⟩
  have merged : (s.goto l.rpc).g = g2 := by
    show g.treeLoop s.fresh (3 * g.depth + 8) none = g2
    rw [Group.treeLoop_of_step arrives, Group.treeLoop_of_step merges, rest.treeLoop]
  rw [merged]
  refine ⟨?_, hm, rfl, rfl, rfl⟩
  rw [← hpc]

/-- Settles O32, by what a leaf's division leaves at rest, and by the arrival that lets its parent go on. -/
theorem divergence : Obligations.Divergence := ⟨divergentBranches, leavesMerge⟩

end
end Sys2Proof.Machine
end

