-- ==== Sys2Proof/Proofs/CallsAndExits.lean ====
section
/-!
PROOFS. Proofs/CallsAndExits.lean: calls and returns (R72), and lanes that leave by `exit`, `kill` and `lkill` (R66, R85, R86, R109).
-/
namespace Sys2Proof.Machine
noncomputable section

/-! ### Masks -/
theorem and_not_ne_of_subset {a e : Mask} (h : a &&& e = a) (h0 : a ≠ 0) : e &&& ~~~a ≠ e := fun k => h0 (by
  calc a = a &&& (e &&& ~~~a) := by rw [k, h]
    _ = a &&& ~~~a &&& e := by ac_rfl
    _ = 0 := by rw [BitVec.and_not_self]; exact BitVec.zero_and)
theorem and_not_ne_zero_of_subset {a e : Mask} (h : a &&& e = a) (hne : a ≠ e) : e &&& ~~~a ≠ 0 := fun k => hne (by
  refine mask_ext fun L => ?_
  have hL := congrArg (·.getLsbD L.val) h
  have kL := (congrArg (·.getLsbD L.val) k).trans BitVec.getLsbD_zero
  simp only [BitVec.getLsbD_and, BitVec.getLsbD_not, L.isLt, decide_true, Bool.true_and] at hL kL
  cases ha : a.getLsbD L.val <;> simp_all)
theorem and_not_or_of_disjoint {e g : Mask} (a : Mask) (h : e &&& g = 0) : e &&& ~~~(g ||| a) = e &&& ~~~a := by
  refine mask_ext fun L => ?_
  have hL := (congrArg (·.getLsbD L.val) h).trans BitVec.getLsbD_zero
  simp only [BitVec.getLsbD_and, BitVec.getLsbD_not, BitVec.getLsbD_or, L.isLt, decide_true, Bool.true_and] at hL ⊢
  cases he : e.getLsbD L.val <;> simp_all
theorem and_not_or_self (g a : Mask) : a &&& ~~~(g ||| a) = 0 := by
  calc a &&& ~~~(g ||| a) = a &&& ~~~a &&& ~~~g := by rw [BitVec.not_or]; ac_rfl
    _ = 0 := by rw [BitVec.and_not_self]; exact BitVec.zero_and

/-! ### Calls (R72) -/
theorem exec_call (o : BitVec 22) (s : State) : exec (.call o) s = issueCtl (.call o) (fun s => s.callTo (s.g.pc + o.signExtend 32)) s := rfl
theorem exec_callr (a : SReg) (s : State) : exec (.callr a) s = issueCtl (.callr a) (fun s => s.callTo (s.src.readS a)) s := rfl

/-- The leaf `l` has become a call entry, and its active lanes start at the target. -/
def State.called (s : State) (l : Entry) (target : Word) : State := { s with g := { s.g with
  nextEntry := s.g.nextEntry + 1
  entries := [{ l.idle with kind := .call, pc := l.rpc, ws := 0, rpc := l.pc + 1, amask := l.emask &&& ~~~l.amask, skip := none }]
  me := { s.g.me with
    leaf := some { id := s.g.nextEntry, parent := some l.id, emask := l.amask, amask := l.amask, pc := target }, since := s.fresh } } }

section
variable {s : State} {l : Entry} (h : Single s l) (h0 : l.amask ≠ 0) (hsub : l.amask &&& l.emask = l.amask)
include h h0 hsub
theorem Single.called_atRest (target : Word) : (s.called l target).g.AtRest := by
  refine ⟨fun k hk => ?_, fun e he _ => ?_, fun e he hk => ?_, fun e he hk => ?_⟩
  · unfold Group.residents at hk
    rw [show (s.called l target).g.mate.leaf = none from h.mate] at hk
    obtain rfl := List.mem_singleton.mp hk
    exact Entry.stays_of_root h0 rfl
  all_goals obtain rfl := List.mem_singleton.mp he
  · exact ⟨h.owns, and_not_ne_of_subset hsub h0⟩
  · exact nomatch hk
  · exact nomatch hk
theorem Single.callTo (target : Word) : s.callTo target = s.called l target := by
  have room : ¬(s.g.depth + 1 > s.g.entryLimit) := by
    unfold Group.depth Group.allEntries Group.entryLimit
    rw [h.residents, h.rest]
    show ¬(1 + 1 > _)
    omega
  unfold State.callTo
  rw [h.leaf]
  dsimp only
  rw [if_neg room, h.rest]
  exact State.regrow_of_rest (h.called_atRest h0 hsub target) none
theorem call_moves {i : Instr} {f : State → Word} (hx : exec i s = issueCtl i (fun s => s.callTo (f s)) s) {target : Word}
    (hf : f (s.begun i) = target) : Moves i s (s.called l target) := fun hI => by
  have body : (s.begun i).callTo (f (s.begun i)) = (s.called l target).withLatch (s.begun i).latch := by
    rw [hf, (h.begun i).callTo h0 hsub]
    rfl
  exact (does_of_issue (f := fun s => s.callTo (f s)) hx rfl (by rw [body]; rfl)).moved hI body hI.calm
    (by rw [show (s.called l target).g.status = s.g.status from rfl, hI.ready]; decide)
end

/-! ### Returns (R72, R107) -/
/-- What `ret` does once it is issued. -/
def State.ret (s : State) : State :=
  match s.g.me.leaf with
  | none => s
  | some l => match s.g.upToCall (s.g.depth + 1) l.parent with
    | none => s.illegalCtl
    | some path => { s with g := s.g.giveBack l path }.regrow (some s.g.sel)
theorem exec_ret (s : State) : exec .ret s = issueCtl .ret State.ret s := rfl
theorem State.ret_of_path {s : State} {l : Entry} {path : List Entry} (hl : s.g.me.leaf = some l)
    (hp : s.g.upToCall (s.g.depth + 1) l.parent = some path) : s.ret = { s with g := s.g.giveBack l path }.regrow (some s.g.sel) := by
  unfold State.ret
  rw [hl]
  dsimp only
  rw [hp]

section
variable {g : Machine.Group} {l c : Entry} (hl : g.me.leaf = some l) (he : g.entries = [c]) (hc : c.kind = .call) (hp : l.parent = some c.id)
include he hc
theorem Group.upToCall_of_call (n : Nat) : g.upToCall (n + 1) (some c.id) = some [c] := by
  unfold Group.upToCall
  rw [he]
  simp [hc]
/-- The issuing slot is free and every lane of the call entry is back. -/
def Group.returned (g : Machine.Group) (c : Entry) : Machine.Group :=
  { g with entries := [{ c with amask := c.emask }], me := { g.me with leaf := none } }
theorem Group.giveBack_of_call (hm : c.amask ||| l.emask = c.emask) : g.giveBack l [c] = g.returned c := by
  unfold Group.giveBack Group.returned
  rw [he]
  simp [hc, hm]
omit he
theorem Group.regrow_returned (hmate : g.mate.leaf = none) (h0 : c.emask ≠ 0) (hr : c.pc = 0xFFFFFFFF) (now : Nat) :
    (g.returned c).regrow now (some g.sel) = { g with entries := [], me := { g.me with
      leaf := some { c with kind := .leaf, pc := c.rpc, ws := 0, rpc := c.pc, amask := c.emask, age := 0, arr := false }
      stalled := false, since := now } } := by
  have found : (g.returned c).entries.find? (fun e => e.kind = .call && (e.emask = 0 || e.amask = e.emask)) = some { c with amask := c.emask } := by
    simp [Group.returned, hc]
  have left : (g.returned c).dropEntry c.id = { g.returned c with entries := [] } := by
    simp [Group.dropEntry, Group.returned]
  have returns : (g.returned c).treeStep now (some g.sel) = some ({ g with entries := [], me := { g.me with
      leaf := some { c with kind := .leaf, pc := c.rpc, ws := 0, rpc := c.pc, amask := c.emask, age := 0, arr := false }
      stalled := false, since := now } }, none) := by
    unfold Group.treeStep
    rw [Group.treeParent_of_return (c := { c with amask := c.emask }) now (some g.sel) h0 found, left]
    show some (Group.place { g.returned c with entries := [] } (some g.sel)
      { c with kind := .leaf, pc := c.rpc, ws := 0, rpc := c.pc, amask := c.emask } now, none) = _
    rw [show g.sel = ({ g.returned c with entries := [] } : Machine.Group).sel from rfl, Group.place_sel rfl, Group.seat_sel]
    rfl
  unfold Group.regrow
  rw [Group.treeLoop_of_step returns]
  refine Group.AtRest.treeLoop (Group.atRest_of_roots rfl fun k hk => ?_) ..
  unfold Group.residents at hk
  rw [hmate] at hk
  obtain rfl := List.mem_singleton.mp hk
  exact ⟨h0, hr⟩
end

theorem callsAndReturns : Clause.CallsAndReturns := by
  intro s l o a called
  refine ⟨fun h h0 hsub _ => ⟨?_, ?_⟩, fun c hl hm he hc hp hid h0 hr hback hI => ?_⟩
  · exact call_moves h h0 hsub (exec_call o s) (by
      show s.g.pc + _ = _
      unfold Group.pc
      rw [h.leaf]
      rfl)
  · exact call_moves h h0 hsub (exec_callr a s) rfl
  · let u : State := { s with g := { s.g with entries := [], me := { s.g.me with
      leaf := some { c with kind := .leaf, pc := c.rpc, ws := 0, rpc := c.pc, amask := c.emask, age := 0, arr := false }
      stalled := false, since := s.fresh } } }
    have path : (s.begun .ret).g.upToCall ((s.begun .ret).g.depth + 1) l.parent = some [c] := by
      rw [hp]
      exact Group.upToCall_of_call he hc _
    have returned : ({ s.begun .ret with g := (s.begun .ret).g.giveBack l [c] } : State).regrow (some (s.begun .ret).g.sel) =
        u.withLatch (s.begun .ret).latch := by
      rw [Group.giveBack_of_call (g := (s.begun .ret).g) he hc hback]
      unfold State.regrow
      exact congrArg (fun g => ({ s with latch := (s.begun .ret).latch, g := g } : State)) (Group.regrow_returned hc hm h0 hr s.fresh)
    have body : (s.begun .ret).ret = u.withLatch (s.begun .ret).latch := (State.ret_of_path (s := s.begun .ret) hl path).trans returned
    refine ⟨u.moved, (does_of_issue (f := fun t => u.withLatch t.latch) (exec_ret s) body rfl).moved hI rfl hI.calm ?_, rfl, rfl, hm, rfl, rfl⟩
    rw [show u.g.status = s.g.status from rfl, hI.ready]
    decide

/-! ### Lanes leave a group (R66, R86) -/
theorem State.retirePixels_of_plain {s : State} (h : s.g.method = none) : s.retirePixels = s := by
  unfold State.retirePixels
  rw [h]
/-- A group that keeps a lane in its only leaf goes on with what is left. -/
theorem Single.removeLanes {s : State} {l : Entry} (h : Single s l) (hm : s.g.method = none)
    (hleft : l.emask &&& ~~~(s.g.dead ||| s.g.exited) ≠ 0) :
    s.removeLanes = s.setLeaf (Entry.strip (s.g.dead ||| s.g.exited)) := by
  have mate : s.g.mate.strip (s.g.dead ||| s.g.exited) = s.g.mate := by
    unfold Slot.strip
    rw [h.mate]
    exact congrArg (fun o => ({ s.g.mate with leaf := o } : Slot)) h.mate.symm
  have entries : s.g.entries.map (Entry.strip (s.g.dead ||| s.g.exited)) = s.g.entries := by
    rw [h.rest]
    rfl
  have strip : ({ s with g := s.g.strip } : State) = s.setLeaf (Entry.strip (s.g.dead ||| s.g.exited)) :=
    congrArg₂ (fun m es => ({ s with
      g := { s.g with me := s.g.me.strip (s.g.dead ||| s.g.exited), mate := m, entries := es } } : State)) mate entries
  have stays : (s.setLeaf (Entry.strip (s.g.dead ||| s.g.exited))).g.gone = false := decide_eq_false fun all => hleft (by
    rw [show s.g.dead ||| s.g.exited = allLanes from all]
    exact (congrArg (l.emask &&& ·) BitVec.not_allOnes).trans BitVec.and_zero)
  unfold State.removeLanes
  rw [strip, State.retirePixels_of_plain (s := s.setLeaf _) hm,
    State.regrow_of_rest (h.setLeaf (f := Entry.strip (s.g.dead ||| s.g.exited)) rfl hleft rfl).atRest]
  unfold State.retireIfGone
  rw [stays]
  rfl

/-- A completed phase ends waits, and changes nothing else of a group. -/
theorem State.completeBars_front (s : State) (wid : Nat) : (s.completeBars wid).latch = s.latch ∧
    (s.completeBars wid).g.status = s.g.status ∧ (s.completeBars wid).g.dead = s.g.dead ∧ (s.completeBars wid).g.exited = s.g.exited ∧
    (s.completeBars wid).g.debt = s.g.debt ∧ (s.g.me.leaf = none → (s.completeBars wid).g.me.leaf = none) := by
  have pass : ∀ full : Fin 16 → Bool, (s.g.passBars full).status = s.g.status ∧ (s.g.passBars full).dead = s.g.dead ∧
      (s.g.passBars full).exited = s.g.exited ∧ (s.g.passBars full).debt = s.g.debt ∧
      (s.g.me.leaf = none → (s.g.passBars full).me.leaf = none) := fun full => ⟨rfl, rfl, rfl, rfl, fun h => by
    show s.g.me.leaf.map _ = none
    rw [h]
    rfl⟩
  unfold State.completeBars
  refine ⟨rfl, ?_⟩
  show (Group.wake _).status = _ ∧ (Group.wake _).dead = _ ∧ (Group.wake _).exited = _ ∧ (Group.wake _).debt = _ ∧ (_ → (Group.wake _).me.leaf = _)
  dsimp only [State.updWg]
  split
  · exact pass _
  · exact ⟨rfl, rfl, rfl, rfl, id⟩

/-- What the retirement of a group leaves of it. -/
structure State.Retires (s u : State) : Prop where
  latch : u.latch = s.latch
  status : u.g.status = .retired
  dead : u.g.dead = s.g.dead
  exited : u.g.exited = s.g.exited
  debt : u.g.debt = s.g.debt
  leaf : u.g.me.leaf = none

theorem State.retireIfGone_retires {s : State} (hg : s.g.gone = true) (hs : s.g.status ≠ .retired) (hr : s.g.region ≠ .trans) :
    s.Retires s.retireIfGone := by
  unfold State.retireIfGone
  rw [hg, decide_eq_true hs]
  dsimp only [Bool.and_true, if_true]
  rw [if_neg hr]
  obtain ⟨latch, status, dead, exited, debt, leaf⟩ := State.completeBars_front ({ s with
    g := { s.g with
      status := .retired, region := .none
      me := { s.g.me with leaf := none }, mate := { s.g.mate with leaf := none }, entries := [], reads := [] }
    w := { s.w with deadgroup := s.w.deadgroup || s.g.allDied } } : State) s.g.wid
  exact ⟨latch, status, dead, exited, debt, leaf rfl⟩
/-- A group that no lane is left in retires, whatever its tree looks like. -/
theorem State.removeLanes_retires {s : State} (hm : s.g.method = none) (hg : s.g.gone = true) (hs : s.g.status ≠ .retired)
    (hr : s.g.region ≠ .trans) : s.Retires s.removeLanes := by
  unfold State.removeLanes
  rw [State.retirePixels_of_plain (s := ({ s with g := s.g.strip } : State)) hm, State.regrow_moved]
  obtain ⟨latch, status, dead, exited, debt, leaf⟩ := State.retireIfGone_retires
    (s := { ({ s with g := s.g.strip } : State) with g := s.g.strip.movedTo (({ s with g := s.g.strip } : State).regrow none).g }) hg hs hr
  exact ⟨latch, status, dead, exited, debt, leaf⟩

/-! ### The words (R66, R86, R109) -/
/-- The active lanes leave as `f` has it, and the leaf goes on if it is still there. -/
def State.takeOut (f : Mask → State → State) (s : State) : State :=
  let m := s.lanes false
  if m = s.g.owned && m ≠ 0 then f m s else (f m s).leaveIfLeft s.myId
/-- What `lkill` does once it is issued: in the first word of a pair, or a replay, the lanes die when the pair ends. -/
def State.lkill (s : State) : State :=
  let m := s.lanes false
  if s.latch.first || s.latch.snap.isSome then { s with latch := { s.latch with dying := s.latch.dying ||| m } }.advance 1
  else
    let t := s.kill m
    if t.myId = s.myId && t.g.status ≠ .retired then t.advance 1 else t
theorem exec_exit (s : State) : exec .exit s = issueCtl .exit (State.takeOut fun m s => s.exitLanes m) s := rfl
theorem exec_kill (s : State) : exec .kill s = issueCtl .kill (State.takeOut fun m s => s.kill m) s := rfl
theorem exec_lkill (s : State) : exec .lkill s = issue .lkill State.lkill s := rfl

/-- The lanes of `d` die and those of `x` exit. -/
def State.losing (s : State) (d x : Mask) : State := { s with g := { s.g with dead := s.g.dead ||| d, exited := s.g.exited ||| x } }
theorem State.exitLanes_eq {s : State} {m : Mask} (h : m ≠ 0) : s.exitLanes m = (s.losing 0 m).removeLanes := by
  unfold State.exitLanes State.losing
  rw [if_neg h, show s.g.dead ||| 0 = s.g.dead from BitVec.or_zero]
theorem State.kill_eq {s : State} {m : Mask} (h : m ≠ 0) : s.kill m = (s.losing m 0).removeLanes := by
  unfold State.kill State.losing
  rw [if_neg h, show s.g.exited ||| 0 = s.g.exited from BitVec.or_zero]

/-- A group whose only leaf `l` issues a word that takes its active lanes out (R66, R86). -/
structure Leaving (s : State) (l : Entry) : Prop where
  single : Single s l
  skip : l.skip = none
  flat : s.g.regs.lactive = 0
  plain : s.g.method = none
  still : l.emask &&& (s.g.dead ||| s.g.exited) = 0
  inside : l.amask &&& l.emask = l.amask
  some_active : l.amask ≠ 0

/-- What `l` keeps once its active lanes are out. -/
def Entry.remains (l : Entry) : Entry := { l with emask := l.emask &&& ~~~l.amask, amask := 0 }
/-- The group without the active lanes of its leaf, of which `d` are dead and `x` have exited. -/
def State.without (s : State) (d x : Mask) : State := (s.losing d x).setLeaf Entry.remains

section
variable {s : State} {l : Entry} (h : Leaving s l)
include h
theorem Leaving.begun (i : Instr) : Leaving (s.begun i) l :=
  ⟨h.single.begun i, h.skip, h.flat, h.plain, h.still, h.inside, h.some_active⟩
theorem Leaving.owned : s.g.owned = l.emask := by
  unfold Group.owned
  rw [h.single.leaf]
theorem Leaving.losing (d x : Mask) : Single (s.losing d x) l :=
  ⟨h.single.leaf, h.single.kind, h.single.owns, h.single.root, h.single.mate, h.single.rest⟩

section
variable (hne : l.amask ≠ l.emask) {d x : Mask} (hdx : d ||| x = l.amask)
include hne
theorem Leaving.without_single (d x : Mask) : Single (s.without d x) l.remains :=
  (h.losing d x).setLeaf rfl (and_not_ne_zero_of_subset h.inside hne) rfl
include hdx
theorem Leaving.removeLanes : (s.losing d x).removeLanes = s.without d x := by
  have gone : (s.losing d x).g.dead ||| (s.losing d x).g.exited = s.g.dead ||| s.g.exited ||| l.amask := by
    rw [← hdx]
    show s.g.dead ||| d ||| (s.g.exited ||| x) = _
    ac_rfl
  have strip : l.strip (s.g.dead ||| s.g.exited ||| l.amask) = l.remains := by
    unfold Entry.strip Entry.remains
    rw [and_not_or_of_disjoint l.amask h.still, and_not_or_self]
  rw [(h.losing d x).removeLanes h.plain (by
    rw [gone, and_not_or_of_disjoint l.amask h.still]
    exact and_not_ne_zero_of_subset h.inside hne), gone]
  unfold State.without State.setLeaf
  rw [(h.losing d x).leaf]
  exact congrArg (fun k => ({ s.losing d x with g := { (s.losing d x).g with me := { s.g.me with leaf := some k } } } : State)) strip
omit hdx
/-- The leaf goes on at the next packet. -/
theorem Leaving.leaveIfLeft (hr : s.g.status = .ready) (hid : s.myId = l.id) :
    (s.without d x).leaveIfLeft s.myId = (s.without d x).standAt (l.pc + 1) := by
  have hs := h.without_single hne d x
  have goes : (s.without d x).leave = (s.without d x).standAt (l.pc + 1) := by
    rw [State.leave_of_sequence hs.leaf h.skip]
    unfold State.loopCheck
    rw [show (s.without d x).g.regs.lactive = 0 from h.flat]
    exact hs.goto (l.pc + 1)
  unfold State.leaveIfLeft
  rw [hs.leaf]
  dsimp only
  rw [hid, show (s.without d x).g.status = .ready from hr]
  exact (if_pos (by rw [show l.remains.id = l.id from rfl, decide_eq_true rfl]; rfl)).trans goes
end

/-- A word whose effect is `u`, in a group with the lanes `d` dead and `x` exited that stays ready, leaves it so. -/
theorem Leaving.word_goes {i : Instr} {body : State → State} {d x : Mask} {f : Entry → Entry} (hx : exec i s = issue i body s) (hI : Issues i s)
    (hb : body (s.begun i) = ((s.begun i).without d x).setLeaf f) : ∃ u, exec i s = .next u ∧ u.g.me.leaf = some (f l.remains) ∧
      u.g.dead = s.g.dead ||| d ∧ u.g.exited = s.g.exited ||| x ∧ u.g.status = .ready ∧
      u.g.regs = { s.g.regs with retired := s.g.regs.retired + 1 } ∧ u.rest = s.rest := by
  have leaf : ((s.without d x).setLeaf f).g.me.leaf = some (f l.remains) := by
    show (s.g.me.leaf.map Entry.remains).map f = _
    rw [h.single.leaf]
    rfl
  have ready : ((s.without d x).setLeaf f).g.status = .ready := hI.ready
  have begun : ((s.begun i).without d x).setLeaf f = ((s.without d x).setLeaf f).withLatch (s.begun i).latch := rfl
  have still : (body (s.begun i)).latch.stall = false := congrArg (fun t => t.latch.stall) (hb.trans begun)
  have goes : exec i s = .next ((s.without d x).setLeaf f).moved :=
    (does_of_issue (f := body) hx rfl still).moved hI (hb.trans begun) hI.calm (by rw [ready]; decide)
  have rest : (((s.without d x).setLeaf f).moved).rest = s.rest := by
    rw [State.moved_rest, State.setLeaf_rest, State.without, State.setLeaf_rest]
    rfl
  exact ⟨_, goes, leaf, rfl, rfl, ready, rfl, rest⟩
/-- One that leaves no lane in the group retires it. -/
theorem Leaving.word_retires {i : Instr} {body : State → State} {d x : Mask} (hx : exec i s = issue i body s) (hI : Issues i s)
    (hr : s.g.region = .none) (hall : s.g.dead ||| d ||| (s.g.exited ||| x) = allLanes)
    (hb : (((s.begun i).losing d x).removeLanes.g.status = .retired → body (s.begun i) = ((s.begun i).losing d x).removeLanes)) :
    ∃ u, exec i s = .next u ∧ u.g.status = .retired ∧ u.g.dead = s.g.dead ||| d ∧ u.g.exited = s.g.exited ||| x ∧ u.g.me.leaf = none := by
  have ready : s.g.status ≠ .retired := by
    rw [hI.ready]
    decide
  have region : s.g.region ≠ .trans := by
    rw [hr]
    decide
  have r : ((s.begun i).losing d x).Retires ((s.begun i).losing d x).removeLanes :=
    State.removeLanes_retires (s := (s.begun i).losing d x) h.plain (decide_eq_true hall) ready region
  generalize ((s.begun i).losing d x).removeLanes = u at hb r
  refine ⟨u.moved, (does_of_issue (f := fun _ => u) hx (hb r.status) (by rw [r.latch]; rfl)).moved hI ?_ (r.debt.trans hI.calm) ?_,
    r.status, r.dead, r.exited, r.leaf⟩
  · exact congrArg u.withLatch r.latch
  · rw [r.status]
    decide
end

/-! What the bodies of the three words come to. -/
section
variable {s : State} {l : Entry} (h : Leaving s l)
include h
theorem Leaving.begun_lanes (i : Instr) : (s.begun i).lanes false = l.amask := (State.begun_lanes i s false).trans h.single.amask
theorem Leaving.begun_myId (i : Instr) : (s.begun i).myId = l.id := by
  unfold State.myId
  rw [show (s.begun i).g.me.leaf = some l from h.single.leaf]

/-- `exit` and `kill`, by what `f` does with the active lanes: a leaf that keeps lanes goes on at the next packet. -/
theorem Leaving.body_goes {f : Mask → State → State} {d x : Mask} (i : Instr) (hr : s.g.status = .ready) (hne : l.amask ≠ l.emask)
    (hdx : d ||| x = l.amask) (hf : f l.amask (s.begun i) = ((s.begun i).losing d x).removeLanes) :
    (s.begun i).takeOut f = ((s.begun i).without d x).standAt (l.pc + 1) := by
  unfold State.takeOut
  dsimp only
  rw [h.begun_lanes i, (h.begun i).owned, hf, decide_eq_false hne, (h.begun i).removeLanes hne hdx]
  exact (if_neg Bool.false_ne_true).trans ((h.begun i).leaveIfLeft hne hr (h.begun_myId i))
theorem Leaving.body_retires {f : Mask → State → State} (i : Instr) (heq : l.amask = l.emask) :
    (s.begun i).takeOut f = f l.amask (s.begun i) := by
  unfold State.takeOut
  dsimp only
  rw [h.begun_lanes i, (h.begun i).owned, decide_eq_true heq, decide_eq_true h.some_active]
  rfl
/-- `lkill` goes on in its packet. -/
theorem Leaving.lkill_goes (hr : s.g.status = .ready) (hne : l.amask ≠ l.emask) (hw : l.ws < 2) :
    (s.begun .lkill).lkill = ((s.begun .lkill).without l.amask 0).setLeaf fun k => { k.idle with ws := l.ws + 1 } := by
  have single := (h.begun .lkill).without_single hne l.amask 0
  have myId : ((s.begun .lkill).without l.amask 0).myId = (s.begun .lkill).myId := by
    rw [h.begun_myId]
    unfold State.myId
    rw [single.leaf]
    rfl
  have stays : ((s.begun .lkill).without l.amask 0).g.status = .ready := hr
  have killed : (s.begun .lkill).kill l.amask = (s.begun .lkill).without l.amask 0 :=
    (State.kill_eq h.some_active).trans ((h.begun .lkill).removeLanes hne BitVec.or_zero)
  unfold State.lkill
  dsimp only
  rw [h.begun_lanes, killed, decide_eq_true myId, stays]
  refine (if_neg Bool.false_ne_true).trans ((if_pos rfl).trans ?_)
  rw [State.advance_of_place rfl single.leaf (show l.ws + 1 < 3 by omega)]
  unfold State.setLeaf
  rw [single.leaf]
  rfl
theorem Leaving.lkill_retires (hret : ((s.begun .lkill).kill l.amask).g.status = .retired) :
    (s.begun .lkill).lkill = (s.begun .lkill).kill l.amask := by
  unfold State.lkill
  dsimp only
  rw [h.begun_lanes, hret]
  exact (if_neg Bool.false_ne_true).trans (if_neg (by rw [decide_eq_false (not_not.mpr rfl), Bool.and_false]; exact Bool.false_ne_true))
end

theorem lanesLeave : Clause.LanesLeave := by
  intro s l hs hskip hla hm hr hstill hin h0 _ left
  have h : Leaving s l := ⟨hs, hskip, hla, hm, hstill, hin, h0⟩
  have zero : ∀ m : Mask, m ||| 0 = m := fun m => BitVec.or_zero
  have stand : ({ l.remains.idle with pc := l.pc + 1, ws := 0, skip := none } : Entry) = left :=
    congrArg (fun o => ({ left with skip := o } : Entry)) hskip.symm
  refine ⟨fun hne => ⟨fun hI => ?_, fun hI => ?_, fun hI hw => ?_⟩, fun heq hall => ⟨fun hI => ?_, fun hI => ?_, fun hI => ?_⟩⟩
  · obtain ⟨u, run, leaf, dead, exited, status, regs, rest⟩ := h.word_goes (d := 0) (exec_exit s) hI
      (h.body_goes (f := fun m s => s.exitLanes m) .exit hI.ready hne BitVec.zero_or (State.exitLanes_eq h0))
    exact ⟨u, run, leaf.trans (congrArg some stand), exited, dead.trans (zero _), status, regs, rest⟩
  · obtain ⟨u, run, leaf, dead, exited, status, regs, rest⟩ := h.word_goes (x := 0) (exec_kill s) hI
      (h.body_goes (f := fun m s => s.kill m) .kill hI.ready hne BitVec.or_zero (State.kill_eq h0))
    exact ⟨u, run, leaf.trans (congrArg some stand), dead, exited.trans (zero _), status, regs, rest⟩
  · obtain ⟨u, run, leaf, dead, exited, status, regs, rest⟩ := h.word_goes (exec_lkill s) hI (h.lkill_goes hI.ready hne hw)
    exact ⟨u, run, dead, exited.trans (zero _), leaf, status, regs, rest⟩
  · have gone : s.g.dead ||| 0 ||| (s.g.exited ||| l.amask) = allLanes := by
      rw [zero, heq, ← BitVec.or_assoc, hall]
    obtain ⟨u, run, status, -, exited, leaf⟩ := h.word_retires (exec_exit s) hI hr gone fun _ =>
      (h.body_retires (f := fun m s => s.exitLanes m) .exit heq).trans (State.exitLanes_eq h0)
    exact ⟨u, run, status, exited, leaf⟩
  all_goals
    have gone : s.g.dead ||| l.amask ||| (s.g.exited ||| 0) = allLanes := by
      rw [zero, heq, ← hall]
      ac_rfl
  · obtain ⟨u, run, status, dead, -, leaf⟩ := h.word_retires (exec_kill s) hI hr gone fun _ =>
      (h.body_retires (f := fun m s => s.kill m) .kill heq).trans (State.kill_eq h0)
    exact ⟨u, run, status, dead, leaf⟩
  · obtain ⟨u, run, status, dead, -, leaf⟩ := h.word_retires (exec_lkill s) hI hr gone fun hret =>
      (h.lkill_retires (by rw [State.kill_eq h0]; exact hret)).trans (State.kill_eq h0)
    exact ⟨u, run, status, dead, leaf⟩

/-- Settles O33, by the call entry that a call leaves at rest and a last return ends, and by what is left of a leaf whose active lanes go. -/
theorem callsAndExits : Obligations.CallsAndExits := ⟨callsAndReturns, lanesLeave⟩

end
end Sys2Proof.Machine
end

