-- ==== Sys2Proof/Proofs/Traps.lean ====
section
/-!
PROOFS. Proofs/Traps.lean: taking an exception (R83), by a word (R109, R120) and by the issue logic (R80).
-/
namespace Sys2Proof.Machine
noncomputable section

/-! ### Slots and seats -/
theorem Group.slot_seat_same (g : Machine.Group) (k : Fin 2) (l : Entry) (now : Nat) :
    ((g.seat k l now).slot k).leaf = some { l with age := 0, arr := false } := by
  unfold Group.seat Group.setSlot Group.slot
  by_cases h : k = g.sel
  · simp only [if_pos h]
  · simp only [if_neg h]
theorem Group.slot_seat_other (g : Machine.Group) {j k : Fin 2} (hjk : j ≠ k) (l : Entry) (now : Nat) : (g.seat k l now).slot j = g.slot j := by
  unfold Group.seat Group.setSlot Group.slot
  by_cases h : k = g.sel
  · simp only [if_pos h, if_neg (h ▸ hjk)]
  · simp only [if_neg h, if_pos (show j = g.sel by omega)]
/-- Seating a leaf changes its slot alone. -/
theorem Group.seat_keeps (g : Machine.Group) (k : Fin 2) (l : Entry) (now : Nat) : (g.seat k l now).entries = g.entries ∧
    (g.seat k l now).regs = g.regs ∧ { g.seat k l now with me := g.me, mate := g.mate } = g := by
  unfold Group.seat Group.setSlot
  split <;> exact ⟨rfl, rfl, rfl⟩

/-! ### Entry to the handler (R83) -/
/-- The entry that keeps the resident leaves. -/
def Group.trapFor (g : Machine.Group) (cause : Word) : Entry :=
  { kind := .trap, id := g.nextEntry, emask := g.live, slact := g.regs.lactive, cause := cause.setWidth 8
    slot0 := (g.slot 0).leaf.map (·.id), slot1 := (g.slot 1).leaf.map (·.id) }
/-- The group with its leaves put away and no slot taken. -/
def Group.putAway (g : Machine.Group) (pc cause : Word) : Machine.Group :=
  { g with
    entries := g.entries ++ g.residents ++ [g.trapFor cause], nextEntry := g.nextEntry + 2
    regs := { g.regs with lactive := 0, trappc := pc, trapcause := cause }
    me := { g.me with leaf := none, stalled := false }, mate := { g.mate with leaf := none, stalled := false } }
theorem Group.enterTrap_eq (g : Machine.Group) (pc cause : Word) (now : Nat) : g.enterTrap pc cause now = (g.putAway pc cause).seat 0
    { id := g.nextEntry + 1, parent := some g.nextEntry, emask := g.live, amask := g.live, pc := g.regs.trapvec } now := rfl
theorem Group.slot_putAway (g : Machine.Group) (pc cause : Word) (k : Fin 2) : ((g.putAway pc cause).slot k).leaf = none := by
  unfold Group.slot
  split <;> rfl

theorem trapEntrySaves : Clause.TrapEntrySaves := by
  intro g pc cause now h id
  obtain ⟨entries, regs, rest⟩ := (g.putAway pc cause).seat_keeps 0
    { id := g.nextEntry + 1, parent := some g.nextEntry, emask := g.live, amask := g.live, pc := g.regs.trapvec } now
  refine ⟨regs, entries.trans ?_, Group.slot_seat_same .., ?_, ?_⟩
  · exact congrArg (· ++ [g.trapFor cause]) (List.append_assoc ..).symm
  · exact (congrArg Slot.leaf (Group.slot_seat_other _ (by decide) _ now)).trans (g.slot_putAway pc cause 1)
  · exact congrArg (fun u : Machine.Group =>
      { u with regs := g.regs, entries := g.entries, nextEntry := g.nextEntry, me := g.me, mate := g.mate }) rest

/-! ### `trap` and `brk` (R109, R120) -/
theorem exec_trap (n : BitVec 13) (s : State) :
    exec (.trap n) s = issueCtl (.trap n) (fun s => s.softTrap (0x10 ||| (n.setWidth 32 <<< 16))) s := rfl
theorem exec_brk (s : State) : exec .brk s = issueCtl .brk (fun s => s.softTrap 0x11) s := rfl

/-- SOFT with its number: 0x10 below n. -/
theorem softCause (n : BitVec 13) : (0x10 ||| (n.setWidth 32 <<< 16) : Word) = BitVec.ofNat 32 (0x10 + 2 ^ 16 * n.toNat) := by
  have hn : n.toNat < 2 ^ 13 := n.isLt
  apply BitVec.eq_of_toNat_eq
  rw [BitVec.toNat_or, BitVec.toNat_shiftLeft, BitVec.toNat_setWidth]
  show 16 ||| (n.toNat % 2 ^ 32) <<< 16 % 2 ^ 32 = (16 + 2 ^ 16 * n.toNat) % 2 ^ 32
  rw [Nat.mod_eq_of_lt (show n.toNat < 2 ^ 32 by omega), Nat.shiftLeft_eq, Nat.mod_eq_of_lt (show n.toNat * 2 ^ 16 < 2 ^ 32 by omega),
    Nat.mod_eq_of_lt (show 16 + 2 ^ 16 * n.toNat < 2 ^ 32 by omega), Nat.add_comm, Nat.or_comm, Nat.mul_comm n.toNat]
  exact (Nat.two_pow_add_eq_or_of_lt (by decide) n.toNat).symm

/-- A soft trap alone leads to the handler. -/
theorem State.act_soft {s : State} (c pc : Word) (hs : s.g.status = .ready) : s.act false { soft := some (c, pc) } = s.enterTrap pc c := by
  have hp : s.g.poisonHalt ||| 0 = s.g.poisonHalt := BitVec.or_zero
  have hm : (0 : Mask) ||| noteMask ([].filter fun n : FaultNote => n.act = 1) = 0 := BitVec.or_zero
  have hv : s.g.status ≠ .retired := by
    rw [hs]
    decide
  unfold State.act
  simp only [Option.isNone_some, Bool.and_false, Bool.false_and, Bool.false_eq_true, if_false, hp, hm, State.kill_zero, if_neg hv]
  rfl

/-- No word of the group is under way once its only leaf stands anew. -/
theorem Single.standAt_busy {s : State} {l : Entry} (h : Single s l) (hr : s.g.reads = []) (t : Word) : (s.standAt t).g.busy = false := by
  unfold Group.busy Group.mateBusy Slot.busy
  rw [show (s.standAt t).g.me.leaf = s.g.me.leaf.map _ from rfl, h.leaf, show (s.standAt t).g.mate.leaf = none from h.mate,
    show (s.standAt t).g.reads = [] from hr]
  rfl
/-- A word that calls for the handler enters it from the next packet. -/
theorem softTrap_enters {i : Instr} {c : Word} {s : State} {l : Entry} (hx : exec i s = issueCtl i (fun s => s.softTrap c) s) (h : Single s l)
    (hr : s.g.reads = []) (hI : Issues i s) :
    exec i s = .next ((((s.standAt (l.pc + 1)).setRegs fun r => { r with retired := r.retired + 1 }).withLatch {}).enterTrap
      ((l.pc + 1) * 4) c) := by
  have hpc : s.g.pc = l.pc := by
    unfold Group.pc
    rw [h.leaf]
  have body : (s.begun i).softTrap c =
      (s.standAt (l.pc + 1)).withLatch { (s.begun i).latch with soft := some (c, (l.pc + 1) * 4) } := by
    unfold State.softTrap
    rw [show (s.begun i).src.openTrap = none from h.openTrap, show (s.begun i).g.pc = l.pc from hpc]
    show ({ (s.begun i).goto (l.pc + 1) with latch := _ } : State) = _
    rw [(h.begun i).goto]
    rfl
  have does : Does i s fun s => s.softTrap c :=
    does_of_issue hx rfl (by show ((s.begun i).softTrap c).latch.stall = false; rw [body]; rfl)
  rw [does.calls hI body ⟨rfl, rfl, rfl, rfl, rfl, rfl, rfl⟩ hI.calm hI.ready (h.standAt_busy hr _),
    show (s.standAt (l.pc + 1)).g.openTrap = none from h.openTrap]
  exact congrArg Host.Outcome.next (State.act_soft c ((l.pc + 1) * 4) hI.ready)

theorem softTraps : Clause.SoftTraps := by
  intro s l n h hr enters
  have parts : ∀ i c, exec i s = issueCtl i (fun s => s.softTrap c) s → enters i c := fun i c hx hI =>
    ⟨_, softTrap_enters hx h hr hI, rfl, rfl⟩
  exact ⟨parts _ _ ((exec_trap n s).trans (by rw [softCause])), parts _ _ (exec_brk s)⟩

/-! ### The issue logic's own entry (R80, R83) -/
theorem exec_trapEntry (cause : Byte) (pc : Word) (s : State) : exec (.trapEntry cause pc) s = execTrapEntry cause pc s := rfl
theorem trapEntryAndDouble : Clause.TrapEntryAndDouble := by
  intro s cause pc hs hg hb
  have goes : ¬(s.g.status = .retired || s.g.gone || s.g.busy) = true := by
    unfold Group.gone
    rw [hs, hb, decide_eq_false hg]
    decide
  rw [exec_trapEntry, execTrapEntry, if_neg goes]
  refine ⟨fun h => ?_, fun h => ?_⟩
  · rw [h]
    rfl
  · rw [if_pos (Option.isSome_iff_ne_none.mpr h)]
    rfl

/-- Settles O34, by what a trap entry keeps, and by the ends of an issue that calls for the handler. -/
theorem trapEntry : Obligations.TrapEntry := ⟨trapEntrySaves, softTraps, trapEntryAndDouble⟩

end
end Sys2Proof.Machine
end

