-- ==== Sys2Proof/Proofs/ReturnsAndHalts.lean ====
section
/-!
PROOFS. Proofs/ReturnsAndHalts.lean: the return from an exception (R84), and halts by `halt n` and by the issue logic (R69, R79, R121).
-/
namespace Sys2Proof.Machine
noncomputable section

/-! ### Entry and return (R83, R84) -/

theorem find_by_id {l : List Entry} (hn : (l.map (·.id)).Nodup) {e : Entry} (he : e ∈ l) : l.find? (fun x => some x.id = some e.id) = some e := by
  induction l with
  | nil => exact absurd he List.not_mem_nil
  | cons x xs ih =>
    obtain ⟨hx, hxs⟩ := List.nodup_cons.mp hn
    obtain rfl | he := List.mem_cons.mp he
    · simp
    · have : x.id ≠ e.id := fun h => hx (show x.id ∈ xs.map (·.id) from h ▸ List.mem_map_of_mem he)
      rw [List.find?_cons_of_neg (by simpa using this)]
      exact ih hxs he

theorem Group.residents_perm (g : Machine.Group) : (g.entries ++ g.residents).Perm g.allEntries := List.perm_append_comm

section
variable {g : Machine.Group} (hn : (g.allEntries.map (·.id)).Nodup) (hlt : ∀ e ∈ g.allEntries, e.id < g.nextEntry) (pc cause : Word)
include hn hlt
/-- The ids stay distinct when the leaves are put away. -/
theorem Group.putAway_nodup : ((g.putAway pc cause).entries.map (·.id)).Nodup := by
  have old : ((g.entries ++ g.residents).map (·.id)).Nodup := (g.residents_perm.map _).nodup_iff.mpr hn
  show ((g.entries ++ g.residents ++ [g.trapFor cause]).map (·.id)).Nodup
  rw [List.map_append, List.nodup_append]
  refine ⟨old, List.nodup_singleton _, fun i hi j hj => ?_⟩
  obtain ⟨e, he, rfl⟩ := List.mem_map.mp hi
  obtain rfl := List.mem_singleton.mp hj
  exact Nat.ne_of_lt (hlt e (g.residents_perm.mem_iff.mp he))
/-- The return finds the leaf that each slot held. -/
theorem Group.putAway_find (k : Fin 2) :
    (g.putAway pc cause).entries.find? (fun e => some e.id = (g.slot k).leaf.map (·.id)) = (g.slot k).leaf := by
  cases hk : (g.slot k).leaf with
  | none => exact List.find?_eq_none.mpr fun e _ => by simp
  | some l =>
    exact find_by_id (Group.putAway_nodup hn hlt pc cause)
      (List.mem_append_left _ (List.mem_append_right _ (Group.mem_residents_of_slot hk)))
/-- It leaves the entries that were there before. -/
theorem Group.putAway_filter : ((g.putAway pc cause).entries.filter fun e =>
    e.id ≠ g.nextEntry && some e.id ≠ (g.slot 0).leaf.map (·.id) && some e.id ≠ (g.slot 1).leaf.map (·.id)) = g.entries := by
  have kept : ∀ e ∈ g.entries, (decide (e.id ≠ g.nextEntry) && decide (some e.id ≠ (g.slot 0).leaf.map (·.id)) &&
      decide (some e.id ≠ (g.slot 1).leaf.map (·.id))) = true := fun e he => by
    have apart : ∀ k, some e.id ≠ (g.slot k).leaf.map (·.id) := fun k h => by
      cases hk : (g.slot k).leaf with
      | none => rw [hk] at h; cases h
      | some l =>
        rw [hk] at h
        unfold Group.allEntries at hn
        rw [List.map_append, List.nodup_append] at hn
        exact hn.2.2 l.id (List.mem_map_of_mem (Group.mem_residents_of_slot hk)) e.id (List.mem_map_of_mem he) (Option.some.inj h).symm
    rw [decide_eq_true (Nat.ne_of_lt (hlt e (List.mem_append_right _ he))), decide_eq_true (apart 0), decide_eq_true (apart 1)]
    rfl
  have gone : ∀ e ∈ g.residents, ¬(decide (e.id ≠ g.nextEntry) && decide (some e.id ≠ (g.slot 0).leaf.map (·.id)) &&
      decide (some e.id ≠ (g.slot 1).leaf.map (·.id))) = true := fun e he => by
    obtain ⟨k, hk⟩ := Group.slot_of_mem_residents he
    obtain rfl | rfl : k = 0 ∨ k = 1 := by omega
    · simp [hk]
    · simp [hk]
  show (g.entries ++ g.residents ++ [g.trapFor cause]).filter _ = g.entries
  rw [List.filter_append, List.filter_append, List.filter_eq_self.mpr kept, List.filter_eq_nil_iff.mpr gone]
  simp [Group.trapFor]
end

/-- A leaf, if there is one, takes a slot. -/
def Group.seatAny (g : Machine.Group) (k : Fin 2) (o : Option Entry) (now : Nat) : Machine.Group :=
  match o with | some l => g.seat k l now | none => g
theorem Group.slot_seatAny_same {g : Machine.Group} {k : Fin 2} (h : (g.slot k).leaf = none) (o : Option Entry) (now : Nat) :
    ((g.seatAny k o now).slot k).leaf = o.map fun l => { l with age := 0, arr := false } := by
  cases o with
  | none => exact h
  | some l => exact g.slot_seat_same k l now
theorem Group.slot_seatAny_other (g : Machine.Group) {j k : Fin 2} (hjk : j ≠ k) (o : Option Entry) (now : Nat) :
    (g.seatAny k o now).slot j = g.slot j := by
  cases o with
  | none => rfl
  | some l => exact g.slot_seat_other hjk l now
theorem Group.seatAny_keeps (g : Machine.Group) (k : Fin 2) (o : Option Entry) (now : Nat) :
    (g.seatAny k o now).entries = g.entries ∧ (g.seatAny k o now).regs = g.regs := by
  cases o with
  | none => exact ⟨rfl, rfl⟩
  | some l => exact ⟨(g.seat_keeps k l now).1, (g.seat_keeps k l now).2.1⟩
/-- The group that a handler leaves: its slots free, the entries `es`, and the loop levels that stood at entry. -/
def Group.cleared (g : Machine.Group) (t : Entry) (es : List Entry) : Machine.Group :=
  { g with
    entries := es
    regs := { g.regs with
      lactive := t.slact, lc := Vector.ofFn fun n => if (g.regs.lactive &&& ~~~t.slact).getLsbD n.val then 0 else g.regs.lc[n] }
    me := { g.me with leaf := none, stalled := false }, mate := { g.mate with leaf := none, stalled := false } }
theorem Group.leaveTrap_eq (g : Machine.Group) (t : Entry) (now : Nat) : g.leaveTrap t now =
    ((g.cleared t (g.entries.filter fun e => e.id ≠ t.id && some e.id ≠ t.slot0 && some e.id ≠ t.slot1)).seatAny 0
      (g.entries.find? fun e => some e.id = t.slot0) now).seatAny 1 (g.entries.find? fun e => some e.id = t.slot1) now := by
  unfold Group.leaveTrap Group.seatAny
  rfl
theorem Group.slot_cleared (g : Machine.Group) (t : Entry) (es : List Entry) (k : Fin 2) : ((g.cleared t es).slot k).leaf = none := by
  unfold Group.slot
  split <;> rfl

/-- A handler that has nothing installed gives the group back what its entry took. -/
theorem leaveTrap_enterTrap {g : Machine.Group} (pc cause : Word) (now then_ : Nat) (hn : (g.allEntries.map (·.id)).Nodup)
    (hlt : ∀ e ∈ g.allEntries, e.id < g.nextEntry) :
    let h := (g.enterTrap pc cause now).leaveTrap (g.trapFor cause) then_
    (∀ k : Fin 2, (h.slot k).leaf = (g.slot k).leaf.map fun l => { l with age := 0, arr := false }) ∧ h.entries = g.entries ∧
    h.regs = { g.regs with trappc := pc, trapcause := cause } := by
  intro h
  obtain ⟨entries, regs, -⟩ := (g.putAway pc cause).seat_keeps 0
    { id := g.nextEntry + 1, parent := some g.nextEntry, emask := g.live, amask := g.live, pc := g.regs.trapvec } now
  rw [← Group.enterTrap_eq] at entries regs
  let c := (g.enterTrap pc cause now).cleared (g.trapFor cause) g.entries
  have back : h = (c.seatAny 0 (g.slot 0).leaf then_).seatAny 1 (g.slot 1).leaf then_ := by
    show (g.enterTrap pc cause now).leaveTrap (g.trapFor cause) then_ = _
    rw [Group.leaveTrap_eq, entries]
    rw [show (g.trapFor cause).slot0 = (g.slot 0).leaf.map (·.id) from rfl, show (g.trapFor cause).slot1 = (g.slot 1).leaf.map (·.id) from rfl,
      show (g.trapFor cause).id = g.nextEntry from rfl, Group.putAway_find hn hlt, Group.putAway_find hn hlt, Group.putAway_filter hn hlt]
  have none_dropped : c.regs = { g.regs with trappc := pc, trapcause := cause } := by
    show ({ (g.enterTrap pc cause now).regs with
      lactive := g.regs.lactive
      lc := Vector.ofFn fun n => if ((g.enterTrap pc cause now).regs.lactive &&& ~~~g.regs.lactive).getLsbD n.val then 0 else
        (g.enterTrap pc cause now).regs.lc[n] } : Regs) = _
    rw [regs]
    have lc : (Vector.ofFn fun n : Fin 3 => if ((0 : BitVec 3) &&& ~~~g.regs.lactive).getLsbD n.val then 0 else g.regs.lc[n]) = g.regs.lc := by
      ext i hi
      simp
    exact congrArg (fun lc => ({ g.regs with trappc := pc, trapcause := cause, lc := lc } : Regs)) lc
  have free : ∀ k, (c.slot k).leaf = none := fun k => Group.slot_cleared _ _ _ k
  obtain ⟨e0, r0⟩ := c.seatAny_keeps 0 (g.slot 0).leaf then_
  obtain ⟨e1, r1⟩ := (c.seatAny 0 (g.slot 0).leaf then_).seatAny_keeps 1 (g.slot 1).leaf then_
  rw [back]
  refine ⟨fun k => ?_, e1.trans e0, r1.trans (r0.trans none_dropped)⟩
  obtain rfl | rfl : k = 0 ∨ k = 1 := by omega
  · rw [Group.slot_seatAny_other _ (by decide), Group.slot_seatAny_same (free 0)]
  · rw [Group.slot_seatAny_same]
    rw [Group.slot_seatAny_other _ (by decide), free 1]

/-! ### `tret` (R84) -/
/-- What `tret` does once it is issued. -/
def State.tret (s : State) : State :=
  match s.g.tretTrap with
  | none => s.illegalCtl
  | some t => { s with g := s.g.leaveTrap t s.fresh }.regrow none
theorem exec_tret (s : State) : exec .tret s = issueCtl .tret State.tret s := rfl
theorem State.tret_of_some {s : State} {t : Entry} (h : s.g.tretTrap = some t) : s.tret = { s with g := s.g.leaveTrap t s.fresh }.regrow none := by
  unfold State.tret
  rw [h]
theorem State.tret_of_none {s : State} (h : s.g.tretTrap = none) : s.tret = s.illegalCtl := by
  unfold State.tret
  rw [h]

theorem Group.Moved.calm {g h : Machine.Group} (m : g.Moved h) : h.debt = g.debt ∧ h.status = g.status := by
  unfold Group.Moved at m
  rw [m]
  exact ⟨rfl, rfl⟩
/-- What the group owes, and whether it runs, a return leaves alone. -/
theorem Group.leaveTrap_calm (g : Machine.Group) (t : Entry) (now : Nat) : (g.leaveTrap t now).debt = g.debt ∧ (g.leaveTrap t now).status = g.status := by
  have seats : ∀ (u : Machine.Group) (k : Fin 2) (o : Option Entry), (u.seatAny k o now).debt = u.debt ∧ (u.seatAny k o now).status = u.status :=
    fun u k o => by
      cases o with
      | none => exact ⟨rfl, rfl⟩
      | some l => exact (u.seat_moved k l now).calm
  rw [Group.leaveTrap_eq]
  obtain ⟨d1, s1⟩ := seats ((g.cleared t (g.entries.filter fun e => e.id ≠ t.id && some e.id ≠ t.slot0 && some e.id ≠ t.slot1)).seatAny 0
    (g.entries.find? fun e => some e.id = t.slot0) now) 1 (g.entries.find? fun e => some e.id = t.slot1)
  obtain ⟨d0, s0⟩ := seats (g.cleared t (g.entries.filter fun e => e.id ≠ t.id && some e.id ≠ t.slot0 && some e.id ≠ t.slot1)) 0
    (g.entries.find? fun e => some e.id = t.slot0)
  exact ⟨d1.trans d0, s1.trans s0⟩
theorem tret_moves {s : State} {t : Entry} (ht : s.g.tretTrap = some t) :
    Moves .tret s ({ s with g := s.g.leaveTrap t s.fresh }.regrow none) := fun hI => by
  obtain ⟨debt, status⟩ := s.g.leaveTrap_calm t s.fresh
  have moved : (({ s with g := s.g.leaveTrap t s.fresh } : State).regrow none).g.debt = (s.g.leaveTrap t s.fresh).debt ∧
      (({ s with g := s.g.leaveTrap t s.fresh } : State).regrow none).g.status = (s.g.leaveTrap t s.fresh).status :=
    (Group.regrow_moved s.fresh (s.g.leaveTrap t s.fresh) none).calm
  have body : (s.begun .tret).tret = ({ s with g := s.g.leaveTrap t s.fresh }.regrow none).withLatch (s.begun .tret).latch :=
    State.tret_of_some (s := s.begun .tret) ht
  refine (does_of_issue (f := fun u => ({ s with g := s.g.leaveTrap t s.fresh }.regrow none).withLatch u.latch) (exec_tret s) body rfl).moved hI rfl
    (moved.1.trans (debt.trans hI.calm)) ?_
  rw [moved.2, status, hI.ready]
  decide

/-! With no active lane (R47, R396). -/
theorem State.raise_zero (s : State) (c : Byte) : s.raise c 0 = s := by
  have none_active : lanesOf 0 = [] := List.filter_eq_nil_iff.mpr fun L _ => by simp
  unfold State.raise
  rw [none_active]
  rfl
/-- A loop end check with no active lane raises nothing: it moves leaves and loop counters only. -/
theorem State.loopCheck_shifts_of_vacant (p : Word) (n : Nat) {s : State} (h : s.g.amask = 0) : Shifts (fun s => State.loopCheck p n s) s := by
  induction n generalizing s with
  | zero => exact s.goto_shifts _
  | succ n ih =>
    cases hk : topLevel s.g.regs.lactive with
    | none => exact ⟨_, _, _, fun L => by unfold State.loopCheck; simp only [State.withLatch_g, hk]; exact s.goto_moves _ L⟩
    | some k =>
      have check := fun L : Latch => State.loopCheck_succ p n (s.withLatch L) k hk
      by_cases he : s.g.regs.lend[k] ≠ p
      · exact ⟨_, _, _, fun L => (check L).trans ((if_pos he).trans (s.goto_moves _ L))⟩
      · by_cases ho : s.g.splitOpen = true
        · refine ⟨((s.setRegs fun r => r.uninstall k).goto (p + 1)).g, (s.g.regs.uninstall k).lc, (s.g.regs.uninstall k).lactive, fun L => ?_⟩
          have quiet : (s.withLatch L).raise 0x0F (s.withLatch L).g.amask = s.withLatch L := by
            rw [State.withLatch_g, h]
            exact State.raise_zero ..
          refine (check L).trans ((if_neg he).trans ((if_pos ho).trans ?_))
          rw [quiet]
          exact (s.setRegs fun r => r.uninstall k).goto_moves (p + 1) L
        · by_cases hc : s.g.regs.lc[k].toNat > 1
          · let u := s.setRegs fun r => { r with lc := r.lc.set k (r.lc[k] - 1) }
            exact ⟨(u.goto s.g.regs.lstart[k]).g, u.g.regs.lc, s.g.regs.lactive, fun L => (check L).trans ((if_neg he).trans
              ((if_neg ho).trans ((if_pos hc).trans (u.goto_moves s.g.regs.lstart[k] L))))⟩
          · obtain ⟨x, lc, la, e⟩ := ih (s := s.setRegs fun r => r.uninstall k) h
            exact ⟨x, lc, la, fun L => (check L).trans ((if_neg he).trans ((if_neg ho).trans ((if_neg hc).trans (e L))))⟩
theorem State.leave_shifts_of_vacant {s : State} (h : s.g.amask = 0) : Shifts State.leave s := by
  cases hl : s.g.me.leaf with
  | none => exact ⟨s.g, s.g.regs.lc, s.g.regs.lactive, fun L => State.leave_of_vacant hl⟩
  | some l =>
    cases hs : l.skip with
    | some t =>
      obtain ⟨g, lc, la, e⟩ := s.goto_shifts t
      exact ⟨g, lc, la, fun L => (State.leave_of_skip (s := s.withLatch L) hl hs).trans (e L)⟩
    | none =>
      obtain ⟨g, lc, la, e⟩ := State.loopCheck_shifts_of_vacant l.pc 3 h
      exact ⟨g, lc, la, fun L => (State.leave_of_sequence (s := s.withLatch L) hl hs).trans (e L)⟩

theorem tret_illegal {s : State} (ht : s.g.tretTrap = none) (h0 : s.g.amask ≠ 0) : Does .tret s fun u => (u.raise 0x01 s.g.amask).leave := by
  have lanes : (s.begun .tret).lanes false = s.g.amask := State.begun_lanes .tret s false
  refine does_of_issue (exec_tret s) ((State.tret_of_none (s := s.begun .tret) ht).trans ?_) ((State.leave_stall _).trans (State.raise_stall ..))
  unfold State.illegalCtl State.illegalHere
  rw [lanes, if_neg h0]
theorem tret_skipped {s : State} (ht : s.g.tretTrap = none) (h0 : s.g.amask = 0) (hI : Issues .tret s) :
    exec .tret s = .next { s.leave with latch := {} } := by
  obtain ⟨x, lc, la, e⟩ := State.leave_shifts_of_vacant h0
  let L : Latch := { (s.begun .tret).latch with skipped := true }
  let u : State := { s with latch := L, g := (s.g.looped lc la).movedTo x }
  have lanes : (s.begun .tret).lanes false = 0 := (State.begun_lanes .tret s false).trans h0
  have body : (s.begun .tret).illegalCtl = u := by
    unfold State.illegalCtl State.illegalHere
    rw [if_pos lanes]
    exact e L
  have does := does_of_issue (f := fun _ => u) (exec_tret s) ((State.tret_of_none (s := s.begun .tret) ht).trans body) rfl
  rw [does hI, show s.leave = _ from e s.latch]
  exact congrArg Host.Outcome.next (State.closeIssue_quiet (u := u) ⟨rfl, rfl, rfl, rfl, rfl⟩ hI.calm
    (by rw [show u.g.status = .ready from hI.ready]; decide))

theorem trapReturn : Clause.TrapReturn := by
  refine ⟨fun g pc cause now then_ t hn hlt ht => ?_, fun s t => tret_moves, fun s ht => ⟨tret_illegal ht, tret_skipped ht⟩⟩
  obtain rfl : g.trapFor cause = t := by
    have entries : (g.enterTrap pc cause now).entries = g.entries ++ g.residents ++ [g.trapFor cause] := ((g.putAway pc cause).seat_keeps 0 _ now).1
    rw [entries, List.getLast?_concat] at ht
    exact Option.some.inj ht
  exact leaveTrap_enterTrap pc cause now then_ hn hlt

/-! ### `halt n` (R121) -/
theorem exec_halt (n : BitVec 13) (s : State) : exec (.halt n) s = issueCtl (.halt n) (fun s =>
    let t := s.leave
    { t with latch := { t.latch with halting := some (s.ipc, n.setWidth 32) } }) s := rfl

theorem Single.withLatch {s : State} {l : Entry} (h : Single s l) (L : Latch) : Single (s.withLatch L) l :=
  ⟨h.leaf, h.kind, h.owns, h.root, h.mate, h.rest⟩
/-- A group's only leaf stands anew once its slot leaves its packet, where the loop end check cannot fault. -/
theorem Single.loopCheck {s : State} {l : Entry} (h : Single s l) (hq : Quits s) (p : Word) (n : Nat) :
    ∃ r t, ∀ L, State.loopCheck p n (s.withLatch L) = ((s.setRegs fun _ => r).standAt t).withLatch L := by
  induction n generalizing s with
  | zero => exact ⟨s.g.regs, p + 1, fun L => (h.withLatch L).goto _⟩
  | succ n ih =>
    cases hk : topLevel s.g.regs.lactive with
    | none =>
      refine ⟨s.g.regs, p + 1, fun L => ?_⟩
      unfold State.loopCheck
      simp only [State.withLatch_g, hk]
      exact (h.withLatch L).goto _
    | some k =>
      have check := fun L : Latch => State.loopCheck_succ p n (s.withLatch L) k hk
      by_cases he : s.g.regs.lend[k] ≠ p
      · exact ⟨s.g.regs, p + 1, fun L => (check L).trans ((if_pos he).trans ((h.withLatch L).goto _))⟩
      · have ho : ¬s.g.splitOpen = true := by
          obtain hq | hq := hq
          · rw [hq] at hk
            revert hk
            simp [topLevel]
          · rw [hq]
            exact Bool.false_ne_true
        by_cases hc : s.g.regs.lc[k].toNat > 1
        · let r : Regs := { s.g.regs with lc := s.g.regs.lc.set k (s.g.regs.lc[k] - 1) }
          exact ⟨r, s.g.regs.lstart[k], fun L => (check L).trans ((if_neg he).trans ((if_neg ho).trans ((if_pos hc).trans
            (((h.setRegs fun _ => r).withLatch L).goto s.g.regs.lstart[k]))))⟩
        · obtain ⟨r, t, e⟩ := ih (h.setRegs fun r => r.uninstall k) (.inr (Bool.not_eq_true _ ▸ ho))
          exact ⟨r, t, fun L => (check L).trans ((if_neg he).trans ((if_neg ho).trans ((if_neg hc).trans (e L))))⟩

theorem Single.leave {s : State} {l : Entry} (h : Single s l) (hq : Quits s) :
    ∃ r t, ∀ L, (s.withLatch L).leave = ((s.setRegs fun _ => r).standAt t).withLatch L := by
  cases hs : l.skip with
  | some t => exact ⟨s.g.regs, t, fun L => (State.leave_of_skip (s := s.withLatch L) h.leaf hs).trans ((h.withLatch L).goto t)⟩
  | none =>
    obtain ⟨r, t, e⟩ := h.loopCheck hq l.pc 3
    exact ⟨r, t, fun L => (State.leave_of_sequence (s := s.withLatch L) h.leaf hs).trans (e L)⟩

/-- The code of `halt n` leaves TRAPPC and TRAPCAUSE alone. -/
theorem State.haltFor_own (s : State) (pc n : Word) : s.haltFor pc (0x80000000 ||| n) = s.haltGroup 2 pc (0x80000000 ||| n) := by
  have own : (0x80000000 ||| n : Word).getLsbD 31 = true := by
    rw [BitVec.getLsbD_or]
    exact Bool.true_or _
  unfold State.haltFor
  rw [if_pos own]
/-- A halt alone stops the group. -/
theorem State.act_halting {s : State} (pc n : Word) (hs : s.g.status = .ready) :
    s.act false { halting := some (pc, n) } = s.haltGroup 2 pc (0x80000000 ||| n) := by
  have hp : s.g.poisonHalt ||| 0 = s.g.poisonHalt := BitVec.or_zero
  have hm : (0 : Mask) ||| noteMask ([].filter fun n : FaultNote => n.act = 1) = 0 := BitVec.or_zero
  have hv : s.g.status ≠ .retired := by
    rw [hs]
    decide
  rw [← State.haltFor_own]
  unfold State.act
  simp only [Option.isNone_some, Bool.and_false, Bool.false_eq_true, if_false, hp, hm, State.kill_zero, if_neg hv]
  exact if_pos hs
theorem halt_stops {s : State} {l : Entry} (n : BitVec 13) (h : Single s l) (hr : s.g.reads = []) (hq : Quits s) (hI : Issues (.halt n) s) :
    exec (.halt n) s = .next (((s.leave.setRegs fun r => { r with retired := r.retired + 1 }).withLatch {}).haltGroup 2 s.g.ipc
      (0x80000000 ||| n.setWidth 32)) := by
  obtain ⟨r, t, left⟩ := h.leave hq
  have does : Does (.halt n) s fun s => let t := s.leave; { t with latch := { t.latch with halting := some (s.ipc, n.setWidth 32) } } :=
    does_of_issue (exec_halt n s) rfl (State.leave_stall _)
  have body : (let t := (s.begun (.halt n)).leave
      ({ t with latch := { t.latch with halting := some ((s.begun (.halt n)).ipc, n.setWidth 32) } } : State)) =
      ((s.setRegs fun _ => r).standAt t).withLatch { (s.begun (.halt n)).latch with halting := some (s.g.ipc, n.setWidth 32) } := by
    rw [show (s.begun (.halt n)).leave = _ from left (s.begun (.halt n)).latch]
    rfl
  have stands : Single (s.setRegs fun _ => r) l := h.setRegs _
  rw [does.calls hI body ⟨rfl, rfl, rfl, rfl, rfl, rfl, rfl⟩ hI.calm hI.ready (stands.standAt_busy hr t),
    show ((s.setRegs fun _ => r).standAt t).g.openTrap = none from h.openTrap, show s.leave = _ from left s.latch]
  exact congrArg Host.Outcome.next (State.act_halting s.g.ipc (n.setWidth 32) hI.ready)

/-! ### A halt by the issue logic (R69, R79) -/
theorem exec_groupHalt (gid : Nat) (code : Word × Word) (s : State) : exec (.groupHalt gid code) s = execGroupHalt gid code s := rfl
theorem State.group?_self {s : State} (h : s.g.gid ≠ 0) : s.group? s.g.gid = some s.g := by
  unfold State.group? State.allGroups
  simp [h]
theorem State.focus_self (s : State) : s.focus s.g.gid s.g.sel = s := by
  unfold State.focus Group.select
  simp
/-- Telling the host leaves the groups alone. -/
theorem State.hostEvent_g (s : State) (kind : Byte) (ipc code : Word) : (s.hostEvent kind ipc code).g = s.g := by
  unfold State.hostEvent State.postEvent
  split
  · split <;> rfl
  · exact ((Inner.plainWrite ..).front s).1
/-- The group `g`, halted for the word `pc`. -/
def Group.haltedFor (g : Machine.Group) (pc code : Word) : Machine.Group :=
  { g with
    status := .halted, haltCode := code
    regs := if code.getLsbD 31 = true then g.regs else { g.regs with trappc := pc, trapcause := code } }
theorem State.haltFor_eq (s : State) (pc code : Word) :
    s.haltFor pc code = ({ s with g := s.g.haltedFor pc code } : State).hostEvent 2 pc code := by
  unfold State.haltFor State.haltGroup Group.haltedFor
  split <;> rfl
theorem State.spillOut_of_method {s : State} {gid : Nat} {g : Machine.Group} (hg : s.group? gid = some g) (hm : g.method ≠ none) :
    s.spillOut gid = s := by
  unfold State.spillOut
  rw [hg]
  simp [Option.isSome_iff_ne_none, hm]
theorem State.spillOut_of_halted {s : State} {gid : Nat} {g : Machine.Group} (hg : s.group? gid = some g) (hm : g.method = none)
    (hs : g.status = .halted) : s.spillOut gid =
      s.devPuts (s.groupWho g) g.divsp.toNat (g.spilled.flatMap (Entry.words (g.ordered.map (·.id)))) := by
  unfold State.spillOut
  rw [hg]
  simp [hm, hs]
theorem groupHalt_stops {s : State} (pc code : Word) (hg : s.g.gid ≠ 0) (hs : s.g.status = .ready) (hb : s.g.busy = false) :
    exec (.groupHalt s.g.gid (pc, code)) s =
      .next ((({ s with g := s.g.haltedFor pc code } : State).hostEvent 2 pc code).spillOut s.g.gid) := by
  rw [exec_groupHalt, execGroupHalt, State.group?_self hg]
  simp only [hs, hb, decide_true, Bool.not_false, Bool.and_true, if_true, State.focus_self, State.haltFor_eq]

theorem halts : Clause.Halts := by
  refine ⟨fun s l n => halt_stops n, fun s pc code hg hs hb => ?_⟩
  have halted := groupHalt_stops pc code hg hs hb
  have front : (({ s with g := s.g.haltedFor pc code } : State).hostEvent 2 pc code).group? s.g.gid = some (s.g.haltedFor pc code) := by
    have own := State.hostEvent_g { s with g := s.g.haltedFor pc code } 2 pc code
    have found := State.group?_self (s := ({ s with g := s.g.haltedFor pc code } : State).hostEvent 2 pc code) (by rw [own]; exact hg)
    rw [own] at found
    exact found
  exact ⟨fun hm => halted.trans (congrArg Host.Outcome.next (State.spillOut_of_method front hm)),
    fun hm => halted.trans (congrArg Host.Outcome.next (State.spillOut_of_halted front hm rfl)), rfl⟩

/-- Settles O35: a return undoes what the entry did, and a halt is where the issue's end or the issue logic leads. -/
theorem trapReturnAndHalt : Obligations.TrapReturnAndHalt := ⟨trapReturn, halts⟩

end
end Sys2Proof.Machine
end

