-- ==== Sys2Proof/Proofs/MemoryAccesses.lean ====
section
/-!
PROOFS. Proofs/MemoryAccesses.lean: the address forms of a lane (R192, R204, R205), the checks of one access in their order (R76), and the
walk of a page (R193).
-/
namespace Sys2Proof.Machine
noncomputable section

/-! ### Bits and fields -/
theorem getLsbD_iff {n : Nat} (x : BitVec n) (k : Nat) : x.getLsbD k = true ↔ x.toNat / 2 ^ k % 2 = 1 := by
  rw [← BitVec.testBit_toNat, Nat.testBit_eq_decide_div_mod_eq, decide_eq_true_eq]
/-- The upper bits of a word beside a number below them. -/
theorem upper_or_low (b : Dword) {v : Nat} (hv : v < 2 ^ 52) :
    (b &&& ~~~0xFFFFFFFFFFFFF#64) ||| BitVec.ofNat 64 (v % 2 ^ 52) = BitVec.ofNat 64 (b.toNat / 2 ^ 52 * 2 ^ 52 + v) := by
  have upper : b &&& ~~~0xFFFFFFFFFFFFF#64 = BitVec.ofNat 64 (b.toNat / 2 ^ 52 * 2 ^ 52) := by
    apply BitVec.eq_of_getLsbD_eq
    intro i hi
    have mask : (0xFFFFFFFFFFFFF#64).getLsbD i = decide (i < 52) := by
      rw [show (0xFFFFFFFFFFFFF#64) = BitVec.ofNat 64 (2 ^ 52 - 1) from rfl, BitVec.getLsbD_ofNat, Nat.testBit_two_pow_sub_one, decide_eq_true hi]
      rfl
    rw [BitVec.getLsbD_and, BitVec.getLsbD_not, mask, BitVec.getLsbD_ofNat, ← Nat.shiftRight_eq_div_pow, ← Nat.shiftLeft_eq,
      Nat.testBit_shiftLeft, Nat.testBit_shiftRight, ← BitVec.testBit_toNat]
    by_cases h : i < 52
    · simp [h]
    · simp [hi, h, show 52 ≤ i by omega]
  have hb : b.toNat < 2 ^ 64 := b.isLt
  apply BitVec.eq_of_toNat_eq
  rw [upper, BitVec.toNat_or, BitVec.toNat_ofNat, BitVec.toNat_ofNat, BitVec.toNat_ofNat, Nat.mod_eq_of_lt (show b.toNat / 2 ^ 52 * 2 ^ 52 < 2 ^ 64 by omega),
    Nat.mod_eq_of_lt hv, Nat.mod_eq_of_lt (show v < 2 ^ 64 by omega), Nat.mod_eq_of_lt (show b.toNat / 2 ^ 52 * 2 ^ 52 + v < 2 ^ 64 by omega)]
  rw [← Nat.shiftLeft_eq]
  exact (Nat.shiftLeft_add_eq_or_of_lt hv _).symm

/-! ### Address forms (R192, R204, R205) -/
section
variable {s : State} (hs : s.latch.snap = none) (hf : s.latch.fatal = 0)
include hs
theorem State.src_plain : s.src = s.g := by
  unfold State.src
  rw [hs]
  rfl
section
variable (b : SReg) (a : VReg) (n : Nat) (L : Lane)
/-- The address that a lane presents in the core-memory form. -/
def Group.cmAddr (g : Machine.Group) (b : SReg) (a : VReg) (L : Lane) : Word := (if b = 63 then 0 else g.readS b) + g.readV a L
theorem State.src_cmAddr : (if b.val = 63 then 0 else s.src.readS b) + s.src.readV a L = s.g.cmAddr b a L := by
  have named : (b.val = 63) = (b = 63) := propext ⟨fun h => Fin.ext h, fun h => h ▸ rfl⟩
  rw [State.src_plain hs]
  simp only [named, Group.cmAddr]
theorem State.resolveC_of_error {e : Byte} (h : s.cmPlace s.w (s.g.cmAddr b a L) n = .error e) :
    s.resolveC ⟨b, a⟩ n L = .fault e ((s.g.cmAddr b a L).setWidth 64) := by
  unfold State.resolveC
  simp only [State.src_cmAddr hs, h]
theorem State.resolveC_of_place {wid off : Nat} (h : s.cmPlace s.w (s.g.cmAddr b a L) n = .ok (wid, off)) :
    s.resolveC ⟨b, a⟩ n L = .core wid off ((s.g.cmAddr b a L).setWidth 64) := by
  unfold State.resolveC
  simp only [State.src_cmAddr hs, h]
end
include hf
omit hs in
theorem State.orFatal_none (L : Lane) (p : Dword) (r : LRes) : s.orFatal L p r = r := by
  unfold State.orFatal
  simp [hf]
theorem State.resolveG_eq (ad : GAddr) (n : Nat) (m : Ask) (win : Bool) (L : Lane) : s.resolveG ad n m win L =
    if (s.g.gptr ad L).2 = true then .fault 0x06 (s.g.gptr ad L).1 else s.resolve (s.g.gptr ad L).1 n m win (some L) := by
  unfold State.resolveG
  rw [State.src_plain hs]
  simp only [State.orFatal_none hf]
end
/-! Where a core-memory address leads, by its fields (R205). -/
section
variable {s : State} {w : Workgroup} {c : Word} {n : Nat}
theorem wbits_above (c : Word) : (wbits c 31 23 ≠ 0) = (2 ^ 23 ≤ c.toNat) := by
  have hc : c.toNat < 2 ^ 32 := c.isLt
  rw [wbits_eq, Nat.mod_eq_of_lt (show c.toNat / 2 ^ 23 < 2 ^ (31 + 1 - 23) by omega)]
  exact propext (by omega)
theorem wbits_rank (c : Word) : wbits c 22 20 = c.toNat / 2 ^ 20 % 8 := wbits_eq ..
theorem wbits_low (c : Word) : wbits c 19 0 = c.toNat % 2 ^ 20 := by
  rw [wbits_eq, Nat.pow_zero, Nat.div_one]
theorem State.cmPlace_beyond (h : 2 ^ 23 ≤ c.toNat) : s.cmPlace w c n = .error 0x06 := by
  unfold State.cmPlace
  exact if_pos (wbits_above c ▸ h)
variable (h : c.toNat < 2 ^ 23)
include h
theorem State.cmPlace_misaligned (ha : c.toNat % n ≠ 0) : s.cmPlace w c n = .error 0x03 := by
  unfold State.cmPlace
  rw [if_neg (by rw [wbits_above]; omega), if_pos ha]
variable (ha : c.toNat % n = 0)
include ha
theorem State.cmPlace_no_member (hg : w.gang ≤ c.toNat / 2 ^ 20 % 8) : s.cmPlace w c n = .error 0x14 := by
  unfold State.cmPlace
  rw [if_neg (by rw [wbits_above]; omega), if_neg (not_not.mpr ha), wbits_rank, if_pos hg]
theorem State.cmPlace_of_member {k : Workgroup} (hg : c.toNat / 2 ^ 20 % 8 < w.gang) (hk : s.member? w (c.toNat / 2 ^ 20 % 8) = some k) :
    s.cmPlace w c n = if c.toNat % 2 ^ 20 + n ≤ k.cmBytes then .ok (k.wid, c.toNat % 2 ^ 20) else .error 0x04 := by
  unfold State.cmPlace
  rw [if_neg (by rw [wbits_above]; omega), if_neg (not_not.mpr ha), wbits_rank, if_neg (Nat.not_le.mpr hg), hk, wbits_low]
  exact (if_congr Nat.not_le.symm rfl rfl).trans (ite_not ..)
end
/-- The buffer form by the fields of its descriptor (R204). -/
theorem State.resolveB_eq {s : State} (hs : s.latch.snap = none) (hf : s.latch.fatal = 0) (b : SReg) (a : VReg) (n : Nat) (m : Ask) (L : Lane) :
    let x := (s.g.readV a L).toNat
    let w1 := (s.g.readS (sreg b 1)).toNat
    let stride := (s.g.readS (sreg b 3)).toNat
    let o := if stride = 0 then x else x * stride
    let va := (s.g.readS b).toNat + 2 ^ 32 * (w1 % 2 ^ 20) + o
    let p := BitVec.ofNat 64 (va % 2 ^ 52 + 2 ^ 56 * (w1 / 2 ^ 24 % 16))
    s.resolveB ⟨b, a⟩ n m L =
      if w1 / 2 ^ 20 % 16 ≠ 0 ∨ w1 / 2 ^ 29 ≠ 0 ∨ windowBase ≤ va then .fault 0x06 p
      else if va % n ≠ 0 then .fault 0x03 p
      else if (s.g.readS (sreg b 2)).toNat < o + n then (if w1 / 2 ^ 28 % 2 = 1 then .drop p else .fault 0x04 p)
      else s.resolve p n m false (some L) := by
  intro x w1 stride o va p
  have hw : w1 < 2 ^ 32 := (s.g.readS (sreg b 1)).isLt
  have f19 : wbits (s.g.readS (sreg b 1)) 19 0 = w1 % 2 ^ 20 := wbits_low _
  have f27 : wbits (s.g.readS (sreg b 1)) 27 24 = w1 / 2 ^ 24 % 16 := wbits_eq ..
  have f23 : wbits (s.g.readS (sreg b 1)) 23 20 = w1 / 2 ^ 20 % 16 := wbits_eq ..
  have f31 : wbits (s.g.readS (sreg b 1)) 31 29 = w1 / 2 ^ 29 := by
    rw [wbits_eq]
    exact Nat.mod_eq_of_lt (by omega)
  unfold State.resolveB
  rw [State.src_plain hs]
  simp only [State.orFatal_none hf, f19, f27, f23, f31, getLsbD_iff, Nat.mul_comm _ (2 ^ 32), Nat.mul_comm _ (2 ^ 56), ge_iff_le, gt_iff_lt,
    Bool.or_eq_true, decide_eq_true_eq, or_assoc]
  rfl

theorem addressForms : Clause.AddressForms := by
  intro s L b a n m win hs hf hn x base c rank off w1 limit stride o va p
  have buffer := State.resolveB_eq hs hf b a n m L
  dsimp only at buffer
  refine ⟨State.resolveG_eq hs hf .., fun h => ?_, fun h => ?_, fun h => ?_, fun h ha => ?_, fun h ha hg => ?_, fun k h ha hg hk => ?_, fun h => ?_,
    fun h20 h29 hv => ?_⟩
  · rw [State.resolveG_eq hs hf]
    refine (if_neg ?_).trans (congrArg (fun p => s.resolve p n m win (some L)) ?_)
    · show ¬decide (2 ^ 52 ≤ base + x) = true
      rw [decide_eq_true_eq]
      omega
    · exact (upper_or_low (s.g.readS64 b) h).trans (by rw [Nat.add_assoc])
  · rw [State.resolveG_eq hs hf]
    exact ⟨_, if_pos (decide_eq_true (show 2 ^ 52 ≤ base + x from h))⟩
  · exact State.resolveC_of_error hs b a n L (State.cmPlace_beyond h)
  · exact State.resolveC_of_error hs b a n L (State.cmPlace_misaligned h ha)
  · exact State.resolveC_of_error hs b a n L (State.cmPlace_no_member h ha hg)
  · have place := State.cmPlace_of_member h ha hg hk
    by_cases hb : off + n ≤ k.cmBytes
    · rw [if_pos hb]
      exact State.resolveC_of_place hs b a n L (place.trans (if_pos hb))
    · rw [if_neg hb]
      exact State.resolveC_of_error hs b a n L (place.trans (if_neg hb))
  · rw [buffer]
    exact if_pos h
  · rw [buffer]
    exact if_neg (by rintro (h | h | h); exacts [h h20, h h29, Nat.not_le.mpr hv h])

/-! ### The checks of one access (R76) -/
theorem ptrBad_iff (p : Dword) : ptrBad p = false ↔ p.toNat / 2 ^ 52 % 16 = 0 ∧ p.toNat / 2 ^ 60 = 0 := by
  have hp : p.toNat < 2 ^ 64 := p.isLt
  have top : bits p.toNat 63 60 = p.toNat / 2 ^ 60 := by
    rw [bits_eq]
    exact Nat.mod_eq_of_lt (by omega)
  unfold ptrBad
  rw [top, bits_eq]
  simp
/-- The page does not let the access through, and why: a store to a read-only page, an access by a word that needs tags to a page without,
a fetch of a page that holds no code (R193). -/
def Ask.Refuses (m : Ask) (leaf : Dword) (c : Byte) : Prop :=
  m.write = true ∧ leafRo leaf = true ∧ c = 0x06 ∨
  ¬(m.write = true ∧ leafRo leaf = true) ∧ m.tagged = true ∧ leafTagged leaf = false ∧ c = 0x06 ∨
  ¬(m.write = true ∧ leafRo leaf = true) ∧ ¬(m.tagged = true ∧ leafTagged leaf = false) ∧ m.fetch = true ∧ leafXn leaf = true ∧ c = 0x07
theorem Ask.refuse_iff (m : Ask) (leaf : Dword) (c : Byte) : m.refuse leaf = some c ↔ m.Refuses leaf c := by
  unfold Ask.refuse Ask.Refuses
  simp only [Bool.and_eq_true, Bool.not_eq_true']
  by_cases hw : m.write = true ∧ leafRo leaf = true
  · rw [if_pos hw]
    refine ⟨fun h => .inl ⟨hw.1, hw.2, (Option.some.inj h).symm⟩, ?_⟩
    rintro (⟨-, -, rfl⟩ | ⟨h, -⟩ | ⟨h, -⟩)
    exacts [rfl, absurd hw h, absurd hw h]
  · rw [if_neg hw]
    by_cases ht : m.tagged = true ∧ leafTagged leaf = false
    · rw [if_pos ht]
      refine ⟨fun h => .inr (.inl ⟨hw, ht.1, ht.2, (Option.some.inj h).symm⟩), ?_⟩
      rintro (⟨h, h', -⟩ | ⟨-, -, -, rfl⟩ | ⟨-, h, -⟩)
      exacts [absurd ⟨h, h'⟩ hw, rfl, absurd ht h]
    · rw [if_neg ht]
      by_cases hx : m.fetch = true ∧ leafXn leaf = true
      · rw [if_pos hx]
        refine ⟨fun h => .inr (.inr ⟨hw, ht, hx.1, hx.2, (Option.some.inj h).symm⟩), ?_⟩
        rintro (⟨h, h', -⟩ | ⟨-, h, h', -⟩ | ⟨-, -, -, -, rfl⟩)
        exacts [absurd ⟨h, h'⟩ hw, absurd ⟨h, h'⟩ ht, rfl]
      · rw [if_neg hx]
        refine ⟨fun h => absurd h.symm (Option.some_ne_none c), ?_⟩
        rintro (⟨h, h', -⟩ | ⟨-, h, h', -⟩ | ⟨-, -, h, h', -⟩)
        exacts [absurd ⟨h, h'⟩ hw, absurd ⟨h, h'⟩ ht, absurd ⟨h, h'⟩ hx]
theorem Ask.refuse_none {m : Ask} {leaf : Dword} (h : ∀ c, ¬m.Refuses leaf c) : m.refuse leaf = none :=
  Option.eq_none_iff_forall_ne_some.mpr fun c hc => h c ((m.refuse_iff leaf c).mp hc)
/-- The tag of the pointer is compared, and differs from that of a first or last byte (R206). -/
def State.TagDiffers (s : State) (m : Ask) (leaf : Dword) (held : Option Line) (pa n : Nat) (tag : BitVec 4) : Prop :=
  m.fetch = false ∧ m.tags = true ∧ leafTagged leaf = true ∧ ¬(s.tagSeen held pa = tag ∧ s.tagSeen held (pa + n - 1) = tag)
theorem State.tagDiffers_iff (s : State) (m : Ask) (leaf : Dword) (held : Option Line) (pa n : Nat) (tag : BitVec 4) :
    (!m.fetch && m.tags && !s.tagOk held leaf pa n tag) = true ↔ s.TagDiffers m leaf held pa n tag := by
  unfold State.tagOk State.TagDiffers
  simp only [Bool.and_eq_true, Bool.not_eq_true', Bool.or_eq_false_iff, Bool.not_eq_false', Bool.and_eq_false_iff, decide_eq_false_iff_not,
    not_and_or, and_assoc]
/-- The frame lies where its page is steered (R196, R197). -/
theorem State.coloured_iff (s : State) (who : Who) (va : Nat) (leaf : Dword) : s.coloured who va leaf = true ↔
    if (s.partWord who.part 0).getLsbD 2 = true then
      ∃ k, (s.ownChannels who.part)[channelOfPa (leafFrame leaf)]? = some k ∧ s.channelOf who.part va = some k
    else s.channelOf who.part va = some (channelOfPa (leafFrame leaf)) := by
  unfold State.coloured
  by_cases hn : (s.partWord who.part 0).getLsbD 2 = true
  · rw [if_pos hn, if_pos hn, Bool.and_eq_true, decide_eq_true_eq, Option.isSome_iff_exists]
    exact ⟨fun ⟨same, k, hk⟩ => ⟨k, same.trans hk, hk⟩, fun ⟨k, hk, hc⟩ => ⟨hk.trans hc.symm, k, hc⟩⟩
  · rw [if_neg hn, if_neg hn, decide_eq_true_eq]
    exact eq_comm

/-! The order of the checks, up to where the page or a line decides. -/
section
variable (s : State) (who : Who) {p : Dword} {n : Nat} (m : Ask)
theorem State.access_of_bad (h : ¬ptrBad p = false) : s.access who p n m = .fault 0x06 := by
  unfold State.access
  exact if_pos (Bool.not_eq_false _ ▸ h)
variable (h : ptrBad p = false)
include h
theorem State.access_beyond (hv : windowBase + windowSize ≤ vaOf p) : s.access who p n m = .fault 0x06 := by
  unfold State.access
  rw [h]
  simp [show windowBase ≤ vaOf p by omega, show ¬vaOf p - windowBase < windowSize by omega]
theorem State.access_window (hv : windowBase ≤ vaOf p) (hw : vaOf p < windowBase + windowSize) :
    s.access who p n m = .window (vaOf p - windowBase) := by
  unfold State.access
  rw [h]
  simp [hv, show vaOf p - windowBase < windowSize by omega]
variable (hv : vaOf p < windowBase)
include hv
theorem State.access_misaligned (ha : vaOf p % n ≠ 0) : s.access who p n m = .fault 0x03 := by
  unfold State.access
  rw [h]
  simp [Nat.not_le.mpr hv, ha]
variable (ha : vaOf p % n = 0)
include ha
theorem State.access_line {l : Line} (hl : s.heldLine who (vaOf p) = some l) : s.access who p n m = s.atLine who (vaOf p) n (tagOfPtr p) m l := by
  unfold State.access
  rw [h]
  simp [Nat.not_le.mpr hv, ha, hl]
variable (hl : s.heldLine who (vaOf p) = none)
include hl
theorem State.access_absent {b : Bool} (ht : s.translate who (vaOf p) = .absent b) : s.access who p n m = .park b := by
  unfold State.access
  rw [h]
  simp [Nat.not_le.mpr hv, ha, hl, ht]
theorem State.access_unmapped {c : Byte} (ht : s.translate who (vaOf p) = .bad c) : s.access who p n m = .fault c := by
  unfold State.access
  rw [h]
  simp [Nat.not_le.mpr hv, ha, hl, ht]
theorem State.access_page {leaf : Dword} (ht : s.translate who (vaOf p) = .page leaf) :
    s.access who p n m = s.placed who (vaOf p) n (tagOfPtr p) m leaf := by
  unfold State.access
  rw [h]
  simp [Nat.not_le.mpr hv, ha, hl, ht]
end

/-! What a page decides (R193, R196, R206, R254, R293). -/
section
variable {s : State} {who : Who} (va n : Nat) (tag : BitVec 4) {m : Ask} {leaf : Dword}
theorem State.placed_remote (hr : leafRem leaf = true) :
    (s.ownsPort who.part = false → s.placed who va n tag m leaf = .fault 0x14) ∧
    (s.ownsPort who.part = true →
      (∀ c, m.Refuses leaf c → s.placed who va n tag m leaf = .fault c) ∧
      ((∀ c, ¬m.Refuses leaf c) → s.placed who va n tag m leaf = if s.keyOk who.part (leafKey leaf) then .remote leaf else .fault 0x15)) := by
  unfold State.placed
  rw [if_pos hr]
  refine ⟨fun ho => ?_, fun ho => ⟨fun c hc => ?_, fun hc => ?_⟩⟩
  · simp [ho]
  · simp [ho, (m.refuse_iff leaf c).mpr hc]
  · simp [ho, Ask.refuse_none hc]
variable (hr : leafRem leaf = false)
include hr
theorem State.placed_elsewhere (hc : ¬s.coloured who va leaf = true) : s.placed who va n tag m leaf = .fault 0x06 := by
  unfold State.placed
  simp [hr, hc]
variable (hc : s.coloured who va leaf = true)
include hc
theorem State.placed_parked (hf : s.frameOf who va leaf = none) : s.placed who va n tag m leaf = .park true := by
  unfold State.placed
  simp [hr, hc, hf]
theorem State.placed_local {frame : Nat} (hf : s.frameOf who va leaf = some frame) :
    let pa := frame + va % 65536
    (∀ c, m.Refuses leaf c → s.placed who va n tag m leaf = .fault c) ∧
    ((∀ c, ¬m.Refuses leaf c) → s.keyOk who.part (leafKey leaf) = false → s.placed who va n tag m leaf = .fault 0x15) ∧
    ((∀ c, ¬m.Refuses leaf c) → s.keyOk who.part (leafKey leaf) = true → s.TagDiffers m leaf none pa n tag →
      s.placed who va n tag m leaf = .fault 0x05) ∧
    ((∀ c, ¬m.Refuses leaf c) → s.keyOk who.part (leafKey leaf) = true → ¬s.TagDiffers m leaf none pa n tag →
      s.placed who va n tag m leaf = .ok leaf pa false) := by
  unfold State.placed
  refine ⟨fun c hm => ?_, fun hm hk => ?_, fun hm hk ht => ?_, fun hm hk ht => ?_⟩
  · simp only [hr, hc, hf, (m.refuse_iff leaf c).mpr hm, Bool.not_true, Bool.false_eq_true, if_false]
  · simp only [hr, hc, hf, Ask.refuse_none hm, hk, Bool.not_true, Bool.not_false, Bool.false_eq_true, if_false, if_true]
  · rw [← State.tagDiffers_iff, Bool.and_comm (!m.fetch)] at ht
    simp only [hr, hc, hf, Ask.refuse_none hm, hk, Bool.not_true, Bool.false_eq_true, if_false, if_pos ht]
  · rw [← State.tagDiffers_iff, Bool.and_comm (!m.fetch)] at ht
    simp only [hr, hc, hf, Ask.refuse_none hm, hk, Bool.not_true, Bool.false_eq_true, if_false, if_neg ht]
end
/-- What a line that a cache holds decides (R206). -/
theorem State.atLine_checks (s : State) (who : Who) (va n : Nat) (tag : BitVec 4) (m : Ask) (l : Line) :
    let pa := l.pa + va % 128
    let acc := s.atLine who va n tag m l
    (leafRem l.leaf = true → s.ownsPort who.part = false → acc = .fault 0x14) ∧
    (leafRem l.leaf = true → s.ownsPort who.part = true →
      (s.TagDiffers m l.leaf (some l) pa n tag → acc = .fault 0x05) ∧
      (¬s.TagDiffers m l.leaf (some l) pa n tag →
        (∀ c, m.Refuses l.leaf c → acc = .fault c) ∧ ((∀ c, ¬m.Refuses l.leaf c) → acc = .remote l.leaf))) ∧
    (leafRem l.leaf = false →
      (s.TagDiffers m l.leaf (some l) pa n tag → acc = .fault 0x05) ∧
      (¬s.TagDiffers m l.leaf (some l) pa n tag →
        (∀ c, m.Refuses l.leaf c → acc = .fault c) ∧ ((∀ c, ¬m.Refuses l.leaf c) → acc = .ok l.leaf pa true))) := by
  simp only [← State.tagDiffers_iff]
  unfold State.atLine
  refine ⟨fun hr ho => ?_, fun hr ho => ⟨fun ht => ?_, fun ht => ⟨fun c hc => ?_, fun hc => ?_⟩⟩,
    fun hr => ⟨fun ht => ?_, fun ht => ⟨fun c hc => ?_, fun hc => ?_⟩⟩⟩
  · simp only [hr, ho, Bool.not_false, if_true]
  · simp only [hr, ho, Bool.not_true, Bool.false_eq_true, if_true, if_false, if_pos ht]
  · simp only [hr, ho, Bool.not_true, Bool.false_eq_true, if_true, if_false, if_neg ht, (m.refuse_iff l.leaf c).mpr hc]
  · simp only [hr, ho, Bool.not_true, Bool.false_eq_true, if_true, if_false, if_neg ht, Ask.refuse_none hc]
  · simp only [hr, Bool.false_eq_true, if_false, if_pos ht]
  · simp only [hr, Bool.false_eq_true, if_false, if_neg ht, (m.refuse_iff l.leaf c).mpr hc]
  · simp only [hr, Bool.false_eq_true, if_false, if_neg ht, Ask.refuse_none hc]

theorem accessChecks : Clause.AccessChecks := by
  intro s who p n m hn va acc good chan colour refused allowed tagBad
  have plain : good → ptrBad p = false := (ptrBad_iff p).mpr
  refine ⟨fun h => s.access_of_bad who m fun hp => h ((ptrBad_iff p).mp hp), fun h => s.access_beyond who m (plain h),
    fun h => s.access_window who m (plain h), fun h => s.access_misaligned who m (plain h), fun h hv ha hl => ?_, fun l h hv ha hl => ?_⟩
  · refine ⟨fun b => s.access_absent who m (plain h) hv ha hl, fun c => s.access_unmapped who m (plain h) hv ha hl, fun leaf ht hr => ?_,
      fun leaf ht hr => ?_⟩
    · rw [show acc = _ from s.access_page who m (plain h) hv ha hl ht]
      exact State.placed_remote va n (tagOfPtr p) hr
    · rw [show acc = _ from s.access_page who m (plain h) hv ha hl ht, show colour leaf ↔ _ from (s.coloured_iff who va leaf).symm]
      exact ⟨State.placed_elsewhere va n (tagOfPtr p) hr, State.placed_parked va n (tagOfPtr p) hr,
        fun frame hc hf => State.placed_local va n (tagOfPtr p) hr hc hf⟩
  · rw [show acc = _ from s.access_line who m (plain h) hv ha hl]
    exact s.atLine_checks who va n (tagOfPtr p) m l

/-! ### Table entries (R193, R302) -/
theorem leNat_lt (l : List Byte) : leNat l < 256 ^ l.length := by
  induction l with
  | nil => exact Nat.one_pos
  | cons b bs ih =>
    have hb : b.toNat < 256 := b.isLt
    rw [leNat, List.length_cons, Nat.pow_succ]
    omega
theorem State.entryOf_lt (s : State) (va tbl lo : Nat) : s.entryOf va tbl lo < 2 ^ 64 := by
  have h := leNat_lt (s.plainRead (tbl + 8 * (va / 2 ^ lo % 512)) 8)
  rwa [show (s.plainRead (tbl + 8 * (va / 2 ^ lo % 512)) 8).length = 8 by simp [State.plainRead]] at h
/-- Bytes of one granule are poisoned together. -/
theorem State.poisoned_together (s : State) {a b : Nat} (h : a / 32 = b / 32) : s.poisoned a = s.poisoned b := by
  have block : a / 256 = b / 256 := by omega
  unfold State.poisoned State.doomed
  rw [s.linkUp_of_sector (show a / 128 = b / 128 by omega), block, h]
/-- An entry that is not poisoned reads as the device reads plain data. -/
theorem State.read_entry {s : State} {a : Nat} (ha : a % 8 = 0) (hp : s.poisoned a = false) :
    ((List.range 8).map fun k => s.dramByte 0 (a + k)) = s.plainRead a 8 := by
  refine List.map_congr_left fun k hk => ?_
  have hk : k < 8 := List.mem_range.mp hk
  unfold State.plainByte
  rw [s.poisoned_together (show (a + k) / 32 = a / 32 by omega), hp]
  rfl

/-- The partition holds the table at `t`. -/
def State.HoldsTable (s : State) (p : Fin 16) (t : Nat) : Prop :=
  t % 2 ^ 31 < Config.carveOut ∧ (s.ownChannels p).contains (channelOfPa t) = true
section
variable {s : State} {p : Fin 16} (hn : (s.partWord p 0).getLsbD 2 = false)
include hn
theorem State.hostPa_direct (t : Nat) : s.hostPa p t = some (some t) := by
  unfold State.hostPa
  rw [hn]
  rfl
theorem State.tableEntry_elsewhere {t : Nat} (h : ¬s.HoldsTable p t) (idx : Nat) : s.tableEntry p t idx = .error (.bad 0x06) := by
  unfold State.tableEntry
  rw [State.hostPa_direct hn]
  by_cases ho : t % 2 ^ 31 < Config.carveOut
  · have hc : ¬(s.ownChannels p).contains (channelOfPa t) = true := fun hc => h ⟨ho, hc⟩
    rw [if_neg (show ¬offsetOfPa t ≥ Config.carveOut from Nat.not_le.mpr ho)]
    simp only [hc, Bool.not_false, if_true]
  · exact if_pos (Nat.not_lt.mp ho)
theorem State.tableEntry_held {t : Nat} (h : s.HoldsTable p t) (idx : Nat) : s.tableEntry p t idx =
    if s.poisoned (t + 8 * idx) then .error (.bad 0x0D) else .ok (leNat ((List.range 8).map fun k => s.dramByte 0 (t + 8 * idx + k))) := by
  unfold State.tableEntry
  rw [State.hostPa_direct hn, if_neg (show ¬offsetOfPa t ≥ Config.carveOut from Nat.not_le.mpr h.1)]
  simp only [h.2, Bool.not_true, Bool.false_eq_true, if_false]
theorem State.tableEntry_poisoned {t idx : Nat} (h : s.HoldsTable p t) (hp : s.poisoned (t + 8 * idx) = true) :
    s.tableEntry p t idx = .error (.bad 0x0D) := (State.tableEntry_held hn h idx).trans (if_pos hp)
theorem State.tableEntry_read {t va lo : Nat} (h : s.HoldsTable p t) (ha : t % 8 = 0) (hp : s.poisoned (t + 8 * (va / 2 ^ lo % 512)) = false) :
    s.tableEntry p t (va / 2 ^ lo % 512) = .ok (s.entryOf va t lo) := by
  rw [State.tableEntry_held hn h, if_neg (by rw [hp]; exact Bool.false_ne_true), State.read_entry (by omega) hp]
  rfl
end

/-! ### The walk of a page (R193) -/
theorem reserved_iff {e : Nat} (he : e < 2 ^ 64) : (bits e 11 1 ≠ 0 || bits e 63 39 ≠ 0) = true ↔ e / 2 % 2 ^ 11 ≠ 0 ∨ e / 2 ^ 39 ≠ 0 := by
  rw [bits_eq, bits_eq, Nat.mod_eq_of_lt (show e / 2 ^ 39 < 2 ^ (63 + 1 - 39) by omega), Bool.or_eq_true, decide_eq_true_eq, decide_eq_true_eq]
  rfl
section
variable {s : State} {p : Fin 16} {va t lo : Nat} {rest : List Nat}
theorem State.walk_refused {r : Tr} (h : s.tableEntry p t (va / 2 ^ lo % 512) = .error r) : s.walk p t va (lo :: rest) = r := by
  rw [← Nat.shiftRight_eq_div_pow] at h
  cases rest <;> simp only [State.walk, h]
variable {e : Nat} (h : s.tableEntry p t (va / 2 ^ lo % 512) = .ok e)
include h
theorem State.walk_absent (h0 : e % 2 = 0) : s.walk p t va (lo :: rest) = .absent false := by
  rw [← Nat.shiftRight_eq_div_pow] at h
  cases rest <;> simp only [State.walk, h, if_pos h0]
variable (he : e < 2 ^ 64) (h1 : e % 2 = 1)
include he h1
theorem State.walk_reserved {lo' : Nat} (hr : e / 2 % 2 ^ 11 ≠ 0 ∨ e / 2 ^ 39 ≠ 0) : s.walk p t va (lo :: lo' :: rest) = .bad 0x06 := by
  rw [← Nat.shiftRight_eq_div_pow] at h
  simp only [State.walk, h, if_neg (show ¬e % 2 = 0 by omega)]
  exact if_pos ((reserved_iff he).mpr hr)
/-- A sound entry of a table leads to the next one. -/
theorem State.walk_next {lo' : Nat} (ha : e / 2 % 2 ^ 11 = 0) (hb : e / 2 ^ 39 = 0) :
    s.walk p t va (lo :: lo' :: rest) = s.walk p (nextTable e) va (lo' :: rest) := by
  have next : bits e 38 12 * 4096 = nextTable e := congrArg (· * 4096) (bits_eq ..)
  rw [← Nat.shiftRight_eq_div_pow] at h
  rw [← next]
  conv => lhs; unfold State.walk
  simp only [h, if_neg (show ¬e % 2 = 0 by omega)]
  exact if_neg (mt (reserved_iff he).mp (by rintro (h | h); exacts [h ha, h hb]))
/-- What the last table's entry, a leaf, says. -/
theorem State.walk_leaf : s.walk p t va [lo] =
    if e / 2 ^ 9 % 2 ^ 7 ≠ 0 ∨ e / 2 ^ 52 ≠ 0 ∨ e / 8 % 4 = 3 then .bad 0x06
    else if e / 2 ^ 8 % 2 = 1 then (if e / 2 ^ 16 % 2 ^ 11 ≤ 1535 then .page (BitVec.ofNat 64 e) else .bad 0x06)
    else if leafFrame (BitVec.ofNat 64 e) % 2 ^ 31 < Config.carveOut then .page (BitVec.ofNat 64 e) else .bad 0x06 := by
  have value : (BitVec.ofNat 64 e).toNat = e := Nat.mod_eq_of_lt he
  have policy : leafCp (BitVec.ofNat 64 e) = e / 8 % 4 := by
    unfold leafCp
    rw [bits_eq, value]
    rfl
  have remote : leafRem (BitVec.ofNat 64 e) = true ↔ e / 2 ^ 8 % 2 = 1 := by
    unfold leafRem
    rw [getLsbD_iff, value]
  rw [← Nat.shiftRight_eq_div_pow] at h
  simp only [State.walk, h, if_neg (show ¬e % 2 = 0 by omega)]
  refine if_congr ?_ rfl (if_congr remote ?_ ?_)
  · rw [policy, bits_eq, bits_eq, Nat.mod_eq_of_lt (show e / 2 ^ 52 < 2 ^ (63 + 1 - 52) by omega)]
    simp only [Bool.or_eq_true, decide_eq_true_eq, or_assoc]
  · rw [bits_eq]
    exact (if_congr Nat.not_le.symm rfl rfl).trans (ite_not ..)
  · exact (if_congr Nat.not_lt.symm rfl rfl).trans (ite_not ..)
end

/-- A table that the partition holds and whose entry for `va` is not poisoned: the entry reads as plain data. -/
structure State.ReadsTable (s : State) (p : Fin 16) (va t lo : Nat) : Prop where
  held : s.HoldsTable p t
  aligned : t % 8 = 0
  sound : s.poisoned (t + 8 * (va / 2 ^ lo % 512)) = false
theorem nextTable_aligned (e : Nat) : nextTable e % 8 = 0 := by
  unfold nextTable
  omega
theorem ctxRoot_aligned (d : Vector Word 16) : ctxRoot d % 8 = 0 := by
  unfold ctxRoot
  omega
/-- A sound entry leads to a table that can be read. -/
theorem State.walk_down {s : State} {p : Fin 16} {va t lo lo' : Nat} (rest : List Nat) (hn : (s.partWord p 0).getLsbD 2 = false)
    (ht : s.ReadsTable p va t lo)
    (he : s.entryOf va t lo % 2 = 1 ∧ s.entryOf va t lo / 2 % 2 ^ 11 = 0 ∧ s.entryOf va t lo / 2 ^ 39 = 0 ∧
      s.HoldsTable p (nextTable (s.entryOf va t lo)) ∧ s.poisoned (nextTable (s.entryOf va t lo) + 8 * (va / 2 ^ lo' % 512)) = false) :
    s.walk p t va (lo :: lo' :: rest) = s.walk p (nextTable (s.entryOf va t lo)) va (lo' :: rest) ∧
    s.ReadsTable p va (nextTable (s.entryOf va t lo)) lo' :=
  have ⟨h1, ha, hb, held, sound⟩ := he
  ⟨State.walk_next (State.tableEntry_read hn ht.held ht.aligned ht.sound) (s.entryOf_lt va t lo) h1 ha hb, held, nextTable_aligned _, sound⟩

theorem pageWalks : Clause.PageWalks := by
  intro s who va root e0 e1 e2 e3 here sound table leaf hn htlb
  have walked : s.translate who va = s.walk who.part root va [43, 34, 25, 16] := by
    unfold State.translate
    rw [htlb]
  have aligned : root % 8 = 0 := ctxRoot_aligned _
  have place : leafFrame leaf = e3 / 2 ^ 16 % 2 ^ 23 * 65536 := by
    unfold leafFrame
    rw [bits_eq, show leaf.toNat = e3 from Nat.mod_eq_of_lt (s.entryOf_lt va _ 16)]
  have frame : s.frameOf who va leaf = some (leafFrame leaf) := by
    unfold State.frameOf
    rw [htlb, State.hostPa_direct hn]
    rfl
  rw [walked]
  refine ⟨fun h => State.walk_refused (State.tableEntry_elsewhere hn h _),
    fun h hp => State.walk_refused (State.tableEntry_poisoned hn h (Bool.not_eq_false _ ▸ hp)), fun h hp => ?_, place, frame⟩
  have first : s.ReadsTable who.part va root 43 := ⟨h, aligned, hp⟩
  have entry := State.tableEntry_read hn first.held first.aligned first.sound
  have fourth : table e0 34 → table e1 25 → table e2 16 →
      s.walk who.part root va [43, 34, 25, 16] = s.walk who.part (nextTable e2) va [16] ∧ s.ReadsTable who.part va (nextTable e2) 16 :=
    fun t0 t1 t2 => by
      obtain ⟨w0, r0⟩ := State.walk_down [25, 16] hn first t0
      obtain ⟨w1, r1⟩ := State.walk_down [16] hn r0 t1
      obtain ⟨w2, r2⟩ := State.walk_down [] hn r1 t2
      exact ⟨w0.trans (w1.trans w2), r2⟩
  have last : ∀ {t}, s.ReadsTable who.part va t 16 → s.tableEntry who.part t (va / 2 ^ 16 % 512) = .ok (s.entryOf va t 16) :=
    fun r => State.tableEntry_read hn r.held r.aligned r.sound
  have bound : e3 < 2 ^ 64 := s.entryOf_lt va _ 16
  refine ⟨State.walk_absent entry, fun h1 => State.walk_reserved entry (s.entryOf_lt va root 43) h1, fun t0 t1 t2 h0 => ?_,
    fun t0 t1 t2 h1 bad => ?_, fun t0 t1 t2 h1 h9 h52 hcp => ?_⟩
  · obtain ⟨w, r⟩ := fourth t0 t1 t2
    exact w.trans (State.walk_absent (last r) h0)
  · obtain ⟨w, r⟩ := fourth t0 t1 t2
    exact w.trans ((State.walk_leaf (last r) bound h1).trans (if_pos bad))
  · obtain ⟨w, r⟩ := fourth t0 t1 t2
    have fine : ¬(e3 / 2 ^ 9 % 2 ^ 7 ≠ 0 ∨ e3 / 2 ^ 52 ≠ 0 ∨ e3 / 8 % 4 = 3) := by
      rintro (h | h | h)
      exacts [h h9, h h52, hcp h]
    have ends := w.trans ((State.walk_leaf (last r) bound h1).trans (if_neg fine))
    exact ⟨fun hr => ends.trans (if_neg (by omega)), fun hr => ends.trans (if_pos hr)⟩

/-- Settles O42, by one lemma per outcome of a form, of a check and of a table entry. -/
theorem memoryAccesses : Obligations.MemoryAccesses := ⟨addressForms, accessChecks, pageWalks⟩

end
end Sys2Proof.Machine
end

