-- ==== Sys2Proof/Proofs/IntegerWords.lean ====
section
/-!
PROOFS. Proofs/IntegerWords.lean: the words of majors 0x01 to 0x05 and 0x13 as arithmetic on what the lanes hold (R91-R96, R98), the fields
of theirs that must be 0, and the words that the spec writes out. `exec` of a word is the word's own function, so that `.refl (execAdd …)`
says what it runs.
-/
namespace Sys2Proof

/-! ### Words that are no instruction (R47, R51) -/
theorem decode_eq_none {w lit : Word} (h : decodeFields w lit = none) : decode w lit = none := by rw [decode, h]; rfl
theorem Sat.ofCode_eq_none {n : Nat} (h : 2 < n) : Sat.ofCode n = none := by
  unfold Sat.ofCode
  split
  case h_4 => rfl
  all_goals omega

theorem noWord_01 : Machine.NoWord 1 7 := fun _ _ hM hs => decode_eq_none (by rw [decodeFields_01 hM, dec01, hs]; rfl)
theorem noWord_02 : Machine.NoWord 2 7 := fun _ _ hM hs => decode_eq_none (by rw [decodeFields_02 hM, dec02, hs]; rfl)
theorem noWord_03 : Machine.NoWord 3 7 := fun _ _ hM hs => decode_eq_none (by rw [decodeFields_03 hM, dec03, hs]; rfl)
theorem noWord_04 : Machine.NoWord 4 7 := fun _ _ hM hs => decode_eq_none (by rw [decodeFields_04 hM, dec04, hs]; rfl)

section
variable {w lit : Word}

/-- MOD of major 0x01 is one of three saturation codes, and 0 where the operation does not saturate (R52). -/
theorem decode_01_mod (hM : fld w 25 6 = 1) (h : 2 < fld w 19 3 ∨ (2 ≤ fld w 22 3 ∧ fld w 22 3 ≤ 5 ∧ fld w 19 3 ≠ 0)) :
    decode w lit = none := by
  refine decode_eq_none ?_
  rw [decodeFields_01 hM, dec01]
  split
  case h_1 | h_2 | h_7 => rw [Sat.ofCode_eq_none (by omega)]; rfl
  case h_3 | h_4 | h_5 | h_6 => exact if_neg (by omega)
  case h_8 => rfl
/-- A bit count has no second operand. -/
theorem decode_03_unary (hM : fld w 25 6 = 3) (hs : fld w 22 3 = 5 ∨ fld w 22 3 = 6) (h : fld w 0 6 ≠ 0) : decode w lit = none := by
  refine decode_eq_none ?_
  rw [decodeFields_03 hM, dec03]
  obtain hs | hs := hs <;> rw [hs] <;> exact if_neg fun hz => h hz.1
theorem decode_05_movi (hM : fld w 25 6 = 5) (hs : fld w 22 3 = 7) (h : fld w 9 6 ≠ 0) : decode w lit = none := by
  refine decode_eq_none ?_
  rw [decodeFields_05 hM, dec05, hs]
  exact if_neg h
theorem decode_13_unary (hM : fld w 25 6 = 0x13) (hs : fld w 22 3 ∈ [2, 4, 5, 7]) (h : fld w 0 6 ≠ 0) : decode w lit = none := by
  refine decode_eq_none ?_
  rw [decodeFields_13 hM, dec13]
  simp only [List.mem_cons, List.not_mem_nil, or_false] at hs
  obtain hs | hs | hs | hs := hs <;> rw [hs] <;> exact if_neg fun hz => h hz.1
/-- `pset` has no source, and its constants are 0, 1 and 2. -/
theorem decode_13_pset (hM : fld w 25 6 = 0x13) (hs : fld w 22 3 = 6) (h : fld w 6 6 ≠ 0 ∨ 3 ≤ fld w 0 6) : decode w lit = none := by
  by_cases hz : fld w 2 10 = 0 ∧ fld w 15 3 = 0 ∧ fld w 19 3 = 0
  · have source : fld w 2 10 = fld w 2 4 + 2 ^ 4 * fld w 6 6 := fld_append w 2 4 6
    have const : fld w 0 6 = fld w 0 2 + 2 ^ 2 * fld w 2 4 := fld_append w 0 2 4
    have three : fld w 0 2 = 3 := by
      have := fld_lt w 0 2
      omega
    rw [decode, decodeFields_13 hM, dec13, hs, three]
    exact congrArg (Option.filter _) (if_pos hz)
  · refine decode_eq_none ?_
    rw [decodeFields_13 hM, dec13, hs]
    exact if_neg hz
end

/-- Settles O1, by running the decoder on each word. -/
theorem decodesSpecWords : Obligations.DecodesSpecWords := by
  unfold Obligations.DecodesSpecWords
  decide

end Sys2Proof

namespace Sys2Proof.Machine

/-! ### Predicates (R91, R98) -/
theorem sensesOfPredicates : Clause.SensesOfPredicates := by
  intro p
  cases p <;> decide
theorem predicateLogic_clause : Clause.PredicateLogic := by
  intro s g d a b x y
  exact ⟨givesP_of (.refl (execPand g d a b s)) fun _ => rank_and .., givesP_of (.refl (execPor g d a b s)) fun _ => rank_or ..,
    givesP_of (.refl (execPxor g d a b s)) fun _ => rank_xor .., givesP_of (.refl (execPnot g d a s)) fun _ => rank_not _,
    givesP_of (.refl (execPdf g d a s)) fun _ => rank_df _, givesP_of (.refl (execPdt g d a s)) fun _ => rank_dt _,
    givesP_of (.refl (execPund g d a s)) fun _ => rank_und _,
    givesP_of (.refl (execPset g d 0 s)) fun _ => rfl, givesP_of (.refl (execPset g d 1 s)) fun _ => rfl, givesP_of (.refl (execPset g d 2 s)) fun _ => rfl⟩
theorem predicateEncodings : Clause.PredicateEncodings :=
  ⟨fun _ _ => decode_13_unary, fun _ _ => decode_13_pset, by decide⟩

/-- Settles O13: a sense asks for a rank, and each word of R98 is a table of ranks. -/
theorem predicateLogic : Obligations.PredicateLogic := ⟨sensesOfPredicates, predicateLogic_clause, predicateEncodings⟩

/-! ### Sums, limits and compares (R92, R95) -/
theorem minS32_eq (a b : Word) : minS32 a b = BitVec.ofInt 32 (min a.toInt b.toInt) := by
  unfold minS32
  split
  · next h => rw [min_eq_left h, BitVec.ofInt_toInt]
  · next h => rw [min_eq_right (by omega), BitVec.ofInt_toInt]
theorem maxS32_eq (a b : Word) : maxS32 a b = BitVec.ofInt 32 (max a.toInt b.toInt) := by
  unfold maxS32
  split
  · next h => rw [max_eq_right h, BitVec.ofInt_toInt]
  · next h => rw [max_eq_left (by omega), BitVec.ofInt_toInt]
theorem ofInt_toNat (a : Word) : BitVec.ofInt 32 (a.toNat : Int) = a := by
  rw [BitVec.ofInt_natCast, BitVec.ofNat_toNat, BitVec.setWidth_eq]
theorem minN32_eq (a b : Word) : minN32 a b = BitVec.ofInt 32 (min (a.toNat : Int) b.toNat) := by
  unfold minN32
  split
  · next h => rw [min_eq_left (by exact_mod_cast h), ofInt_toNat]
  · next h => rw [min_eq_right (by omega), ofInt_toNat]
theorem maxN32_eq (a b : Word) : maxN32 a b = BitVec.ofInt 32 (max (a.toNat : Int) b.toNat) := by
  unfold maxN32
  split
  · next h => rw [max_eq_right (by exact_mod_cast h), ofInt_toNat]
  · next h => rw [max_eq_left (by omega), ofInt_toNat]
theorem narrow_absDiff_wrap (a b : Word) : narrow .wrap absDiff a b = (BitVec.ofInt 32 |a.toInt - b.toInt|, 0) := by
  rw [← absDiff_eq]
  rfl
theorem narrow_absDiff_satS (a b : Word) : narrow .satS absDiff a b = clampS |a.toInt - b.toInt| := by
  rw [← absDiff_eq]
  rfl
theorem narrow_absDiff_satN (a b : Word) : narrow .satN absDiff a b = clampN |(a.toNat : Int) - b.toNat| := by
  rw [← absDiff_eq]
  rfl

theorem integerArithmetic : Clause.IntegerArithmetic := by
  intro s g d a b x y xn yn
  exact ⟨givesV_of_flags (.refl (execAdd .wrap g d a b s)) fun _ => rfl, givesV_of_flags (.refl (execSub .wrap g d a b s)) fun _ => rfl,
    givesV_of_flags (.refl (execAbsd .wrap g d a b s)) fun _ => narrow_absDiff_wrap ..,
    givesLimited_of (.refl (execAdd .satS g d a b s)) fun _ => clampS_eq _, givesLimited_of (.refl (execSub .satS g d a b s)) fun _ => clampS_eq _,
    givesLimited_of (.refl (execAbsd .satS g d a b s)) fun _ => (narrow_absDiff_satS ..).trans (clampS_eq _),
    givesLimited_of (.refl (execAdd .satN g d a b s)) fun _ => clampN_eq _, givesLimited_of (.refl (execSub .satN g d a b s)) fun _ => clampN_eq _,
    givesLimited_of (.refl (execAbsd .satN g d a b s)) fun _ => (narrow_absDiff_satN ..).trans (clampN_eq _),
    givesV_of (.refl (execMinS g d a b s)) fun _ => minS32_eq .., givesV_of (.refl (execMaxS g d a b s)) fun _ => maxS32_eq ..,
    givesV_of (.refl (execMinN g d a b s)) fun _ => minN32_eq .., givesV_of (.refl (execMaxN g d a b s)) fun _ => maxN32_eq ..⟩

/-- A compare writes true or false. -/
theorem pof_eq_truth (p : Prop) [Decidable p] : pof (decide p) = truth p := by
  unfold pof truth
  by_cases h : p <;> simp [h]
theorem integerCompares : Clause.IntegerCompares := by
  intro s g d a b x y
  exact ⟨givesP_of (.refl (execEq g d a b s)) fun _ => pof_eq_truth _, givesP_of (.refl (execNe g d a b s)) fun _ => pof_eq_truth _,
    givesP_of (.refl (execLtS g d a b s)) fun _ => pof_eq_truth _, givesP_of (.refl (execLeS g d a b s)) fun _ => pof_eq_truth _,
    givesP_of (.refl (execLtN g d a b s)) fun _ => pof_eq_truth _, givesP_of (.refl (execLeN g d a b s)) fun _ => pof_eq_truth _,
    givesP_of (.refl (execTest g d a b s)) fun _ => pof_eq_truth _⟩
theorem integerEncodings : Clause.IntegerEncodings := ⟨noWord_01, noWord_04, fun _ _ => decode_01_mod, by decide⟩

/-- Settles O16: each word is the exact result, cut to its low bits or held to its range; the compares decide their relation. -/
theorem integerWords : Obligations.IntegerWords := ⟨integerArithmetic, integerCompares, integerEncodings⟩

/-! ### Logic and shifts (R90, R93) -/
theorem logicAndShifts : Clause.LogicAndShifts := by
  intro s g d a b x y
  exact ⟨givesV_of (.refl (execAnd g d a b s)) fun _ => rfl, givesV_of (.refl (execOr g d a b s)) fun _ => rfl,
    givesV_of (.refl (execXor g d a b s)) fun _ => rfl, givesV_of (.refl (execAndn g d a b s)) fun _ => rfl,
    givesV_of (.refl (execShl g d a b s)) fun _ => shiftL_eq .., givesV_of (.refl (execShr g d a b s)) fun _ => shiftR_eq ..,
    givesV_of (.refl (execSar g d a b s)) fun _ => shiftSar_eq ..⟩

/-! ### Products and bit counts (R94) -/
theorem mul_eq_ofNat (a b : Word) : a * b = BitVec.ofNat 32 (a.toNat * b.toNat) := by
  rw [BitVec.ofNat_mul]
  simp
theorem mad_eq_ofNat (a b d : Word) : a * b + d = BitVec.ofNat 32 (a.toNat * b.toNat + d.toNat) := by
  rw [BitVec.ofNat_add, ← mul_eq_ofNat]
  simp
theorem byteS_eq (w : Word) (i : Nat) : byteS w i = (w.extractLsb' (8 * i) 8).toInt := by
  unfold byteS
  rw [BitVec.setWidth_ushiftRight_eq_extractLsb]
theorem dot4_eq (a b d : Word) : dot4 a b d = BitVec.ofInt 32 (d.toInt +
    ∑ i : Fin 4, (a.extractLsb' (8 * i.val) 8).toInt * (b.extractLsb' (8 * i.val) 8).toInt) := by
  simp only [dot4, byteS_eq, Fin.sum_univ_four]
  congr 1
  simp only [add_assoc]
  rfl
theorem onesIn_eq (a : Word) : onesIn a = ∑ i : Fin 32, (a.getLsbD i.val).toNat := length_range_filter 32 fun i => a.getLsbD i

/-- The first k places satisfy p and the next, if there is one, does not. -/
theorem length_takeWhile_range {p : Nat → Bool} {n k : Nat} (hk : k ≤ n) (below : ∀ i < k, p i = true) (at_ : k < n → p k = false) :
    ((List.range n).takeWhile p).length = k := by
  obtain ⟨m, rfl⟩ := Nat.exists_eq_add_of_le hk
  rw [List.range_add, List.takeWhile_append_of_pos fun i hi => below i (List.mem_range.mp hi)]
  cases m with
  | zero => simp
  | succ m => simp [List.range_succ_eq_map, at_ (by omega)]
theorem leadingZeros_eq (a : Word) : leadingZeros a = 32 - Nat.size a.toNat := by
  have width : Nat.size a.toNat ≤ 32 := Nat.size_le.mpr a.isLt
  refine length_takeWhile_range (by omega) (fun i hi => ?_) fun h => ?_
  · have high : a.toNat < 2 ^ (31 - i) := Nat.size_le.mp (by omega)
    rw [BitVec.getLsbD, Nat.testBit_lt_two_pow high]
    rfl
  · have top : 2 ^ (Nat.size a.toNat - 1) ≤ a.toNat := Nat.lt_size.mp (by omega)
    have place : 31 - (32 - Nat.size a.toNat) = Nat.size a.toNat - 1 := by omega
    have bound : a.toNat < 2 ^ (Nat.size a.toNat - 1 + 1) := Nat.size_le.mp (by omega)
    rw [place, BitVec.getLsbD, Nat.testBit_eq_decide_div_mod_eq, Nat.div_eq_of_lt_le (k := 1) (by omega) (by omega)]
    rfl

theorem productsAndCounts : Clause.ProductsAndCounts := by
  intro s g d a b x y z byte
  exact ⟨givesV_of (.refl (execMul g d a b s)) fun _ => mul_eq_ofNat .., givesV_of (.refl (execMulhS g d a b s)) fun _ => rfl,
    givesV_of (.refl (execMulhN g d a b s)) fun _ => rfl, givesV_of (.refl (execMad g d a b s)) fun _ => mad_eq_ofNat ..,
    givesV_of (.refl (execDot4S8 g d a b s)) fun _ => dot4_eq .., givesV_of (.refl (execPopc g d a s)) fun _ => congrArg _ (onesIn_eq _),
    givesV_of (.refl (execClz g d a s)) fun _ => congrArg _ (leadingZeros_eq _)⟩
theorem logicEncodings : Clause.LogicEncodings := ⟨noWord_02, noWord_03, fun _ _ => decode_03_unary, by decide⟩

/-- Settles O17: shifts are products and quotients by powers of 2, whatever the count, and the bit counts are sums and sizes. -/
theorem logicAndProducts : Obligations.LogicAndProducts := ⟨logicAndShifts, productsAndCounts, logicEncodings⟩

/-! ### Immediates (R96) -/
theorem immediateWords_clause : Clause.ImmediateWords := by
  intro s g d a i x k
  exact ⟨givesV_of (.refl (execAddi g d a i s)) fun _ => rfl, givesV_of (.refl (execAndi g d a i s)) fun _ => rfl,
    givesV_of (.refl (execOri g d a i s)) fun _ => rfl, givesV_of (.refl (execXori g d a i s)) fun _ => rfl,
    givesV_of (.refl (execShli g d a i s)) fun _ => shiftL_eq .., givesV_of (.refl (execShri g d a i s)) fun _ => shiftR_eq ..,
    givesV_of (.refl (execSari g d a i s)) fun _ => shiftSar_eq .., givesV_of (.refl (execMovi g d i s)) fun _ => rfl⟩
theorem immediateEncodings : Clause.ImmediateEncodings := ⟨fun _ _ => decode_05_movi, by decide⟩

/-- Settles O18: the words of R92 and R93 with the immediate, sign-extended or as a count, in the second operand's place. -/
theorem immediateWords : Obligations.ImmediateWords := ⟨immediateWords_clause, immediateEncodings⟩

end Sys2Proof.Machine
end

