-- ==== Sys2Proof/Proofs/Shuffles.lean ====
section
/-!
PROOFS. Proofs/Shuffles.lean: moves, selects and bit fields (R97), shuffles (R99), and sums, votes and ballots of the active lanes (R100).
-/
namespace Sys2Proof.Machine
noncomputable section

/-! ### Bit fields (R97) -/
theorem bfPos_eq (b : Word) : bfPos b = b.toNat % 32 := by
  unfold bfPos
  rw [wbits_eq]
  norm_num
theorem bfWid_eq (b : Word) : bfWid b = min (b.toNat / 256 % 64) (32 - b.toNat % 32) := by
  unfold bfWid
  rw [bfPos_eq, wbits_eq]
  norm_num
theorem bfWid_le (b : Word) : bfWid b ≤ 32 := (min_le_right _ _).trans (Nat.sub_le ..)

/-- A field of w bits whose top bit is set is its value less 2^w, in as many bits as there are. -/
theorem or_not_bfMask {x : Word} {w : Nat} (hw : w ≤ 32) (hx : x.toNat < 2 ^ w) : x ||| ~~~bfMask w = BitVec.ofInt 32 (x.toNat - 2 ^ w) := by
  have apart : x &&& ~~~bfMask w = 0#32 := by
    have inside : x &&& bfMask w = x := by
      apply BitVec.eq_of_toNat_eq
      rw [BitVec.toNat_and, bfMask_toNat w hw, Nat.and_two_pow_sub_one_eq_mod, Nat.mod_eq_of_lt hx]
    rw [← inside, BitVec.and_assoc, BitVec.and_not_self]
    exact BitVec.and_zero
  have mask : ~~~bfMask w = BitVec.ofInt 32 (-2 ^ w) := by
    have size : ((2 ^ w - 1 : Nat) : Int) = 2 ^ w - 1 := by
      have := Nat.two_pow_pos w
      push_cast [this]
      ring
    rw [BitVec.not_eq_neg_add, bfMask, ← BitVec.ofInt_natCast, size]
    rw [← neg_add', show 1#32 = BitVec.ofInt 32 1 from rfl, ← BitVec.ofInt_add, Int.sub_add_cancel, BitVec.ofInt_neg]
  rw [← BitVec.add_eq_or_of_and_eq_zero _ _ apart, mask, Int.sub_eq_add_neg, BitVec.ofInt_add, ofInt_toNat]

theorem extractN_toNat (a b : Word) : (extractN a b).toNat = a.toNat / 2 ^ bfPos b % 2 ^ bfWid b := by
  unfold extractN
  rw [BitVec.toNat_and, bfMask_toNat _ (bfWid_le b), Nat.and_two_pow_sub_one_eq_mod, BitVec.toNat_ushiftRight, Nat.shiftRight_eq_div_pow]
theorem extractS_eq (a b : Word) : extractS a b =
    if bfWid b = 0 ∨ a.toNat / 2 ^ bfPos b % 2 ^ bfWid b < 2 ^ (bfWid b - 1) then BitVec.ofNat 32 (a.toNat / 2 ^ bfPos b % 2 ^ bfWid b)
    else BitVec.ofInt 32 ((a.toNat / 2 ^ bfPos b % 2 ^ bfWid b : Nat) - 2 ^ bfWid b) := by
  have small : (extractN a b).toNat < 2 ^ bfWid b := by
    rw [extractN_toNat]
    exact Nat.mod_lt _ (Nat.two_pow_pos _)
  have sign : bfWid b ≠ 0 → ((extractN a b).getLsbD (bfWid b - 1) = true ↔ ¬ (extractN a b).toNat < 2 ^ (bfWid b - 1)) := fun h => by
    have split : 2 ^ bfWid b = 2 ^ (bfWid b - 1) * 2 := by rw [← pow_succ, Nat.sub_add_cancel (by omega)]
    rw [getLsbD_iff]
    obtain h | h := Nat.lt_or_ge (extractN a b).toNat (2 ^ (bfWid b - 1))
    · rw [Nat.div_eq_of_lt h]
      simp [h]
    · rw [Nat.div_eq_of_lt_le (k := 1) (by omega) (by omega)]
      simp [h]
  have value : BitVec.ofNat 32 (extractN a b).toNat = extractN a b := by rw [BitVec.ofNat_toNat, BitVec.setWidth_eq]
  rw [← extractN_toNat, value]
  unfold extractS
  by_cases h0 : bfWid b = 0
  · simp [h0]
  · by_cases hs : (extractN a b).toNat < 2 ^ (bfWid b - 1)
    · simp [h0, hs, (sign h0).not.mpr (not_not.mpr hs)]
    · simp [h0, hs, (sign h0).mpr hs, or_not_bfMask (bfWid_le b) small]

/-- The places that a field takes. -/
theorem bfMask_shiftLeft (w p : Nat) (hw : w ≤ 32) : bfMask w <<< p = BitVec.ofNat 32 ((2 ^ w - 1) * 2 ^ p) := by
  apply BitVec.eq_of_toNat_eq
  rw [BitVec.toNat_shiftLeft, bfMask_toNat w hw, Nat.shiftLeft_eq, BitVec.toNat_ofNat]
theorem shiftLeft_eq_ofNat (a : Word) (p : Nat) : a <<< p = BitVec.ofNat 32 (a.toNat * 2 ^ p) := by
  apply BitVec.eq_of_toNat_eq
  rw [BitVec.toNat_shiftLeft, Nat.shiftLeft_eq, BitVec.toNat_ofNat]
theorem insertBits_eq (d a b : Word) : insertBits d a b =
    (d &&& ~~~BitVec.ofNat 32 ((2 ^ bfWid b - 1) * 2 ^ bfPos b)) |||
      (BitVec.ofNat 32 (a.toNat * 2 ^ bfPos b) &&& BitVec.ofNat 32 ((2 ^ bfWid b - 1) * 2 ^ bfPos b)) := by
  unfold insertBits
  rw [bfMask_shiftLeft _ _ (bfWid_le b), shiftLeft_eq_ofNat]

/-! ### Moves and selects (R97) -/
/-- `selu` on what a predicate reads. -/
theorem selu_eq (p : PVal) (x y z : Word) : (match p with | .t => x | .f => y | _ => z) = if p = .t then x else if p = .f then y else z := by
  cases p <;> rfl

theorem movesAndFields : Clause.MovesAndFields := by
  intro s g d a b x y z p pos wid fields m
  have place : ∀ L, bfPos (y L) = pos L := fun L => bfPos_eq _
  have width : ∀ L, bfWid (y L) = wid L := fun L => bfWid_eq _
  have guard : ∀ L, s.g.readP s.g.guardReg L = p L := fun L => by rw [Group.guardReg_eq]
  refine ⟨givesV_of (.refl (execMov g d b s)) fun _ => rfl, givesV_of (.refl (execSel g d a b s)) fun L => ?_,
    givesV_of (.refl (execSelu g d a b s)) fun L => ?_, givesV_of (.refl (execBfeN g d a b s)) fun _ => extractN_eq ..,
    givesV_of (.refl (execBfeS g d a b s)) fun L => ?_, givesV_of (.refl (execBfi g d a b s)) fun L => ?_,
    givesV_of (.refl (execLaneid g d s)) fun _ => rfl⟩
  · rw [guard, Group.guardSense_eq]
  · rw [guard]
    exact selu_eq ..
  · show extractS (x L) (y L) = _
    rw [extractS_eq, place, width]
  · show insertBits (z L) (x L) (y L) = _
    rw [insertBits_eq, place, width]

/-! ### Words that raise a flag -/
/-- A sequential word that does `u`, blind to the latch, and raises flags. -/
theorem flagged_effect {i : Instr} {body : State → State} {s u : State} {m : Mask} {f : Byte} (hx : exec i s = issueSeq i body s)
    (hb : Issues i s → Clean i m s → body (s.begun i) = (u.withLatch (s.begun i).latch).orFlags f) (h0 : u.latch = s.latch)
    (hd : u.g.debt = s.g.debt) (hr : u.g.status = s.g.status) (hF : ∀ len, Flows s len → Flows u len) : Effect i s m (u.orFlags f) :=
  fun hI hFs hC => issueSeq_goesOn (u := u.orFlags f) (L := { len := i.len, depth := some s.depthNow, flags := 0 ||| f }) hx hI
    ((hb hI hC).trans rfl) ⟨rfl, rfl, rfl, rfl, rfl, rfl, rfl, rfl⟩ ((congrArg Latch.only h0).trans (by rw [hI.alone])) (hd.trans hI.calm)
    (hr.trans hI.ready) (hF _ hFs)
/-- To raise a flag on a condition is to raise it or none. -/
theorem ite_orFlags {c : Bool} {p : Prop} [Decidable p] (h : c = true ↔ p) (s : State) (f : Byte) :
    (if c then s.orFlags f else s) = s.orFlags (if p then f else 0) := by
  by_cases hp : p
  · rw [if_pos (h.mpr hp), if_pos hp]
  · rw [if_neg (mt h.mp hp), if_neg hp, orFlags_zero]

/-! ### The lane that a shuffle takes (R99) -/
/-- There is a lane k, it is active and it is not dead. -/
def Group.here (g : Machine.Group) (k : Int) : Prop := 0 ≤ k ∧ k < 96 ∧ g.amask.getLsbD k.toNat = true ∧ g.dead.getLsbD k.toNat = false
/-- A lane that keeps its own value where there is no lane k. -/
def keepsOwn (edge : Bool) (k : Int) : Prop := edge = true ∧ (k < 0 ∨ 96 ≤ k)
/-- The lane whose value lane L takes. -/
def Group.source (g : Machine.Group) (edge : Bool) (k : Int) (L : Lane) : Option Lane :=
  if edge = true ∧ (k < 0 ∨ 96 ≤ k) then some L else if 0 ≤ k then g.present k.toNat else none

section
variable {g : Machine.Group} {edge : Bool} {k : Int} {L : Lane}

theorem Group.present_of_here (h : g.here k) : g.present k.toNat = some (Fin.ofNat 96 k.toNat) := by
  obtain ⟨h0, h96, active, alive⟩ := h
  have lt : k.toNat < 96 := by omega
  unfold Group.present
  rw [dif_pos lt, active, alive]
  exact congrArg some (Fin.ext (Nat.mod_eq_of_lt lt).symm)
theorem Group.present_of_absent {n : Nat} (h : ¬g.here n) : g.present n = none := by
  unfold Group.present
  split
  · next lt =>
    refine if_neg fun ha => h ?_
    rw [Bool.and_eq_true, Bool.not_eq_true'] at ha
    exact ⟨Int.natCast_nonneg n, by omega, ha⟩
  · rfl
theorem Group.source_of_keeps (h : keepsOwn edge k) : g.source edge k L = some L := if_pos h
theorem Group.source_of_here (hk : ¬keepsOwn edge k) (h : g.here k) : g.source edge k L = some (Fin.ofNat 96 k.toNat) :=
  (if_neg hk).trans ((if_pos h.1).trans (Group.present_of_here h))
theorem Group.source_of_absent (hk : ¬keepsOwn edge k) (h : ¬g.here k) : g.source edge k L = none := by
  refine (if_neg hk).trans ?_
  split
  · next h0 =>
    refine Group.present_of_absent ?_
    rwa [Int.toNat_of_nonneg h0]
  · rfl
theorem Group.source_of_inside (h : 0 ≤ k ∧ k < 96) : g.source edge k L = g.present k.toNat :=
  (if_neg (by omega)).trans (if_pos h.1)
/-- Only an index that may leave the group keeps a lane's own value. -/
theorem Group.source_natCast (n : Nat) : g.source false n L = g.present n :=
  (if_neg fun h => Bool.false_ne_true h.1).trans (if_pos (Int.natCast_nonneg n))
theorem Group.source_isNone : (g.source edge k L).isNone = true ↔ ¬keepsOwn edge k ∧ ¬g.here k := by
  by_cases hk : keepsOwn edge k
  · simp [Group.source_of_keeps hk, hk]
  · by_cases h : g.here k
    · simp [Group.source_of_here hk h, h]
    · simp [Group.source_of_absent hk h, hk, h]
/-- A lane takes from an active lane only. -/
theorem Group.amask_of_source (hL : g.amask.getLsbD L.val = true) {j : Lane} (h : g.source edge k L = some j) : g.amask.getLsbD j.val = true := by
  by_cases hk : keepsOwn edge k
  · rw [Group.source_of_keeps hk] at h
    cases h
    exact hL
  · by_cases hh : g.here k
    · rw [Group.source_of_here hk hh] at h
      cases h
      have place : (Fin.ofNat 96 k.toNat).val = k.toNat := Nat.mod_eq_of_lt (by have := hh.2.1; omega)
      rw [place]
      exact hh.2.2.1
    · rw [Group.source_of_absent hk hh] at h
      cases h
end

theorem Group.amask_of_lanes {g : Machine.Group} {b : Bool} {L : Lane} (h : (g.lanes b).getLsbD L.val = true) : g.amask.getLsbD L.val = true := by
  unfold Group.lanes at h
  split at h
  · rw [BitVec.getLsbD_and, Bool.and_eq_true] at h
    exact h.1
  · exact h
theorem maskOf_eq_zero {f : Lane → Bool} (h : ∀ L, f L = false) : maskOf f = 0 :=
  mask_ext fun L => (maskOf_getLsbD f L).trans ((h L).trans BitVec.getLsbD_zero.symm)

/-- No lane takes a poisoned element where no active lane holds one (R85). -/
theorem Group.no_source_poisoned {g : Machine.Group} {b edge : Bool} {a : VReg} {j : Lane → Int} (h : g.regs.vpois[a] &&& g.amask = 0) :
    (maskOf fun L => (g.lanes b).getLsbD L.val && ((g.source edge (j L) L).any fun k => g.regs.vpois[a].getLsbD k.val)) = 0 := by
  refine maskOf_eq_zero fun L => Bool.eq_false_iff.mpr fun hL => ?_
  rw [Bool.and_eq_true, Option.any_eq_true] at hL
  obtain ⟨hL, k, hk, poisoned⟩ := hL
  have active := Group.amask_of_source (Group.amask_of_lanes hL) hk
  have clash := congrArg (·.getLsbD k.val) h
  rw [BitVec.getLsbD_and, poisoned, active] at clash
  exact Bool.noConfusion (clash.trans BitVec.getLsbD_zero)

/-! ### Shuffles (R99) -/
/-- The law of shuffles: where no lane's index is poisoned, each active lane takes from the lane that `pick` names. -/
theorem givesShuffled_of {i : Instr} {s : State} {g : Bool} {d a : VReg} {edge : Bool} {j : Lane → Int}
    {pick : Machine.Group → Mask → Lane → Option Lane} {bad : Machine.Group → Mask → Mask} (hx : exec i s = shuffle i g d a pick bad s)
    (hb : bad s.g (s.g.lanes g) = 0) (hp : ∀ L, pick s.g (s.g.lanes g) L = s.g.source edge (j L) L) : GivesShuffled i s g d a edge j := by
  unfold GivesShuffled
  intro here keeps m sound
  have value : (s.setV d m fun L => match s.g.source edge (j L) L with | some k => s.g.readV a k | none => 0) = s.setV d m fun L =>
      if keeps (j L) then s.g.readV a L else if here (j L) then s.g.readV a (Fin.ofNat 96 (j L).toNat) else 0 := by
    refine setV_congr _ _ _ _ _ fun L _ => ?_
    by_cases hk : keeps (j L)
    · rw [if_pos hk, Group.source_of_keeps hk]
    · rw [if_neg hk]
      by_cases hh : here (j L)
      · rw [if_pos hh, Group.source_of_here hk hh]
      · rw [if_neg hh, Group.source_of_absent hk hh]
  have absent : ((lanesOf m).any fun L => (s.g.source edge (j L) L).isNone) = true ↔
      ∃ L : Lane, m.getLsbD L.val = true ∧ ¬keeps (j L) ∧ ¬here (j L) := by
    rw [List.any_eq_true]
    exact exists_congr fun L => and_congr (mem_lanesOf m L) Group.source_isNone
  refine flagged_effect hx (fun hI hC => ?_) rfl rfl rfl fun _ h => h
  have lanes : (s.begun i).lanes g = m := s.begun_lanes i g
  have well : s.g.poisonIn i.names.vr m = 0 := hC
  have all : m &&& ~~~(0 : Mask) = m := BitVec.and_allOnes
  have none : (0 : Mask) ||| 0 = 0 := BitVec.or_zero
  dsimp only
  rw [s.begun_src i, lanes, well, all, hb, funext hp, Group.no_source_poisoned sound, none, all, ← ite_orFlags absent, ← value]
  rfl

theorem wbits_low7 (w : Word) : wbits w 6 0 = w.toNat % 128 := by
  rw [wbits_eq]
  norm_num
/-- The lowest lane of a mask. -/
theorem lowest_eq_some {m : Mask} {L : Lane} (hL : m.getLsbD L.val = true) (h : ∀ k : Lane, m.getLsbD k.val = true → L ≤ k) :
    lowest m = some L := by
  have sorted : (lanesOf m).Pairwise (· < ·) := (List.pairwise_lt_finRange 96).filter _
  unfold lowest
  match e : lanesOf m with
  | [] =>
    have mem := (mem_lanesOf m L).mpr hL
    rw [e] at mem
    cases mem
  | x :: xs =>
    rw [e] at sorted
    have mem := (mem_lanesOf m L).mpr hL
    rw [e] at mem
    have hx : L ≤ x := h x ((mem_lanesOf m x).mp (e ▸ List.mem_cons_self))
    obtain rfl | mem := List.mem_cons.mp mem
    · rfl
    · exact absurd ((List.pairwise_cons.mp sorted).1 L mem) (not_lt.mpr hx)
theorem lowest_zero : lowest 0 = none := by decide

theorem shuffles : Clause.Shuffles := by
  intro s g d a b y
  have low : ∀ L, wbits (s.g.vb b L) 6 0 = y L % 128 := fun L => wbits_low7 _
  refine ⟨givesShuffled_of (.refl (execShflIdx g d a b s)) rfl fun L => ?_, givesShuffled_of (.refl (execShflUp g d a b s)) rfl fun L => ?_,
    givesShuffled_of (.refl (execShflDn g d a b s)) rfl fun L => ?_, givesShuffled_of (.refl (execShflXor g d a b s)) rfl fun L => ?_,
    fun L0 h0 least sound => givesShuffled_of (.refl (execBcast g d a b s)) ?_ fun L => ?_⟩
  · rw [low]
    exact (Group.source_natCast _).symm
  · have lane := L.isLt
    by_cases h : y L ≤ L.val
    · rw [if_pos h, Group.source_of_inside (by omega)]
      exact congrArg s.g.present (show L.val - y L = _ by omega)
    · rw [if_neg h, Group.source_of_keeps ⟨rfl, by omega⟩]
  · by_cases h : L.val + y L < 96
    · rw [if_pos h, Group.source_of_inside (by omega)]
      exact congrArg s.g.present (show L.val + y L = _ by omega)
    · rw [if_neg h, Group.source_of_keeps ⟨rfl, by omega⟩]
  · rw [low]
    exact (Group.source_natCast _).symm
  · rw [lowest_eq_some h0 least]
    refine if_neg fun h => ?_
    obtain ⟨v, hv, poisoned⟩ := List.any_eq_true.mp h
    exact Bool.false_ne_true ((sound v hv).symm.trans poisoned)
  · rw [lowest_eq_some h0 least]
    dsimp only
    rw [low]
    exact (Group.source_natCast _).symm

/-! ### Sums, votes and ballots (R100) -/
theorem exec_redadd (g : Bool) (d a : VReg) (s : State) : exec (.redadd g d a) s = issueSeq (.redadd g d a) (fun s =>
    let r := s.src
    let m := s.lanes g
    if r.regs.vpois[a] &&& m ≠ 0 then s.consume m
    else
      let sum := (lanesOf m).foldl (fun acc L => acc + r.readV a L) (0 : Word)
      s.setV d m fun _ => sum) s := rfl
theorem exec_vote (g : Bool) (d a : PReg) (s : State) : exec (.vote g d a) s = issueSeq (.vote g d a) (fun s =>
    let r := s.src
    let m := s.lanes g
    let x := if (lanesOf m).all fun L => r.readP a L = .t then .t else if (lanesOf m).all fun L => r.readP a L = .f then .f else .u
    s.setP d m fun _ => x) s := rfl
theorem exec_ballot (g : Bool) (d : SReg) (a : PReg) (s : State) : exec (.ballot g d a) s = issueSeq (.ballot g d a) (fun s =>
    let r := s.src
    let m := s.lanes g
    let x := maskOf fun L => m.getLsbD L.val && r.readP a L = .t
    s.setSs d [maskWord x 0, maskWord x 1, maskWord x 2]) s := rfl

/-- A sum of words wraps as its exact value does. -/
theorem foldl_add_eq (l : List Lane) (f : Lane → Word) (n : Nat) :
    l.foldl (fun acc L => acc + f L) (BitVec.ofNat 32 n) = BitVec.ofNat 32 (n + (l.map fun L => (f L).toNat).sum) := by
  induction l generalizing n with
  | nil => rfl
  | cons x l ih =>
    have word : BitVec.ofNat 32 n + f x = BitVec.ofNat 32 (n + (f x).toNat) := by rw [BitVec.ofNat_add, BitVec.ofNat_toNat, BitVec.setWidth_eq]
    rw [List.foldl_cons, word, ih, List.map_cons, List.sum_cons, Nat.add_assoc]
theorem sum_map_filter {α : Type} (l : List α) (p : α → Bool) (f : α → Nat) :
    ((l.filter p).map f).sum = (l.map fun x => if p x = true then f x else 0).sum := by
  induction l with
  | nil => rfl
  | cons x l ih => by_cases h : p x = true <;> simp [h, ih]
theorem sum_lanesOf (m : Mask) (f : Lane → Nat) : ((lanesOf m).map f).sum = ∑ L : Lane, if m.getLsbD L.val = true then f L else 0 := by
  rw [Fin.sum_univ_def]
  exact sum_map_filter (List.finRange 96) (fun L => m.getLsbD L.val) f
theorem redadd_gives {s : State} {g : Bool} {d a : VReg} (h : s.g.regs.vpois[a] &&& s.g.lanes g = 0) : GivesV (.redadd g d a) s g d fun _ =>
    BitVec.ofNat 32 (∑ L : Lane, if (s.g.lanes g).getLsbD L.val = true then (s.g.readV a L).toNat else 0) := fun hI hF _ => by
  refine issueSeq_effect (exec_redadd g d a s) hI ?_ rfl rfl rfl hF
  have sum : (lanesOf (s.g.lanes g)).foldl (fun acc L => acc + s.g.readV a L) (0 : Word) =
      BitVec.ofNat 32 (∑ L : Lane, if (s.g.lanes g).getLsbD L.val = true then (s.g.readV a L).toNat else 0) := by
    rw [← sum_lanesOf, ← Nat.zero_add (List.sum _)]
    exact foldl_add_eq _ _ 0
  dsimp only
  rw [s.begun_src, s.begun_lanes, if_neg (not_not.mpr h), sum]
  rfl
theorem all_lanesOf (m : Mask) (f : Lane → PVal) (v : PVal) :
    ((lanesOf m).all fun L => f L = v) = true ↔ ∀ L : Lane, m.getLsbD L.val = true → f L = v := by
  simp [List.all_eq_true]
theorem vote_gives (s : State) (g : Bool) (d a : PReg) : GivesP (.vote g d a) s g d fun _ =>
    if ∀ L : Lane, (s.g.lanes g).getLsbD L.val = true → s.g.readP a L = .t then .t
    else if ∀ L : Lane, (s.g.lanes g).getLsbD L.val = true → s.g.readP a L = .f then .f else .u := fun hI hF _ => by
  refine issueSeq_effect (exec_vote g d a s) hI ?_ rfl rfl rfl fun l hl => ?_
  · dsimp only
    simp only [s.begun_src, s.begun_lanes, all_lanesOf]
    rfl
  · have := hF l hl
    rwa [← Regs.setP_lactive s.g.regs d (s.g.lanes g)] at this
theorem maskWord_eq_of_bits {m : Mask} {k : Fin 3} {w : Word}
    (h : ∀ (i : Fin 32) (L : Lane), L.val = 32 * k.val + i.val → (w.getLsbD i.val = true ↔ m.getLsbD L.val = true)) : maskWord m k.val = w :=
  BitVec.eq_of_getLsbD_eq fun i hi => by
    rw [maskWord_getLsbD m hi]
    exact Bool.eq_iff_iff.mpr (h ⟨i, hi⟩ ⟨32 * k.val + i, by omega⟩ rfl).symm
/-- A sequential word that writes scalars. -/
theorem setSs_effect {i : Instr} {body : State → State} {s : State} {d : SReg} {ws : List Word} (hx : exec i s = issueSeq i body s)
    (hb : body (s.begun i) = (s.begun i).setSs d ws) : Effect i s 0 (s.setSs d ws) := fun hI hF _ => by
  obtain ⟨h1, h2, h3, h4⟩ := setSs_keeps s d ws
  exact issueSeq_effect hx hI (hb.trans (setSs_latch ..)) h1 h2 h3 (h4 _ hF)
theorem ballot_writes {s : State} {g : Bool} {d : SReg} {a : PReg} {w : Fin 3 → Word} (h : ∀ (k : Fin 3) (i : Fin 32) (L : Lane),
      L.val = 32 * k.val + i.val → ((w k).getLsbD i.val = true ↔ (s.g.lanes g).getLsbD L.val = true ∧ s.g.readP a L = .t)) :
    Effect (.ballot g d a) s 0 (s.setSs d [w 0, w 1, w 2]) := by
  refine setSs_effect (exec_ballot g d a s) ?_
  have word : ∀ k : Fin 3, maskWord (maskOf fun L => (s.g.lanes g).getLsbD L.val && s.g.readP a L = .t) k.val = w k := fun k =>
    maskWord_eq_of_bits fun i L hL => (h k i L hL).trans (by rw [maskOf_getLsbD, Bool.and_eq_true, decide_eq_true_eq])
  dsimp only
  rw [s.begun_src, s.begun_lanes, ← word 0, ← word 1, ← word 2]
  rfl

theorem reductions : Clause.Reductions := by
  intro s g d a dp ap ds m act
  exact ⟨redadd_gives, vote_gives s g dp ap, fun w hw => ballot_writes hw⟩

/-- Settles O19: fields as quotients and remainders, one law for the five shuffles, and folds over the active lanes as sums and
quantifiers. -/
theorem movesShufflesReductions : Obligations.MovesShufflesReductions := ⟨movesAndFields, shuffles, reductions⟩

end
end Sys2Proof.Machine
end

