-- ==== Sys2Proof/Proofs/ScalarWords.lean ====
section
/-!
PROOFS. Proofs/ScalarWords.lean: scalar arithmetic, constants and pairs (R101-R104), and moves between scalars and lanes (R105).
-/
namespace Sys2Proof.Machine
noncomputable section

/-! ### Scalar arithmetic (R101, R102) -/
theorem sltS_signExtend (x : Word) (i : BitVec 10) : sltS x (i.signExtend 32) = if x.toInt < i.toInt then 1 else 0 := by
  unfold sltS
  rw [BitVec.toInt_signExtend_of_le (by decide)]

theorem scalarArithmetic_clause : Clause.ScalarArithmetic := by
  intro s d a b i x y k
  exact ⟨givesS_of (.refl (execSAdd d a b s)) rfl, givesS_of (.refl (execSSub d a b s)) rfl, givesS_of (.refl (execSAnd d a b s)) rfl,
    givesS_of (.refl (execSOr d a b s)) rfl, givesS_of (.refl (execSXor d a b s)) rfl, givesS_of (.refl (execSShl d a b s)) (shiftL_eq ..),
    givesS_of (.refl (execSShr d a b s)) (shiftR_eq ..), givesS_of (.refl (execSSar d a b s)) (shiftSar_eq ..),
    givesS_of (.refl (execSMul d a b s)) (mul_eq_ofNat ..), givesS_of (.refl (execSMulhS d a b s)) rfl, givesS_of (.refl (execSMulhN d a b s)) rfl,
    givesS_of (.refl (execSMinS d a b s)) (minS32_eq ..), givesS_of (.refl (execSMaxS d a b s)) (maxS32_eq ..),
    givesS_of (.refl (execSSltS d a b s)) rfl, givesS_of (.refl (execSSltN d a b s)) rfl, givesS_of (.refl (execSSeq d a b s)) rfl,
    givesS_of (.refl (execSAddi d a i s)) rfl, givesS_of (.refl (execSAndi d a i s)) rfl, givesS_of (.refl (execSOri d a i s)) rfl,
    givesS_of (.refl (execSXori d a i s)) rfl, givesS_of (.refl (execSShli d a i s)) (shiftL_eq ..),
    givesS_of (.refl (execSShri d a i s)) (shiftR_eq ..), givesS_of (.refl (execSSari d a i s)) (shiftSar_eq ..),
    givesS_of (.refl (execSSltiS d a i s)) (sltS_signExtend ..)⟩
theorem scalarEncodings : Clause.ScalarEncodings := by
  unfold Clause.ScalarEncodings
  decide

/-- Settles O20: the words of the lanes' arithmetic, once for the group. -/
theorem scalarArithmetic : Obligations.ScalarArithmetic := ⟨scalarArithmetic_clause, scalarEncodings⟩

/-! ### Constants and pairs (R103, R104) -/
theorem movh_eq (i : BitVec 19) (x : Word) : (i.setWidth 32 <<< 13) ||| (x &&& 0x1FFF) = BitVec.ofNat 32 (i.toNat * 2 ^ 13 + x.toNat % 2 ^ 13) := by
  have fits : i.toNat * 2 ^ 13 + x.toNat % 2 ^ 13 < 2 ^ 32 := by
    have := i.isLt
    omega
  have high : i.toNat * 2 ^ 13 < 2 ^ 32 := (Nat.le_add_right ..).trans_lt fits
  have low : (x &&& 0x1FFF).toNat = x.toNat % 2 ^ 13 := by
    rw [BitVec.toNat_and]
    exact Nat.and_two_pow_sub_one_eq_mod x.toNat 13
  have shifted : (i.setWidth 32 <<< 13).toNat = i.toNat <<< 13 := by
    rw [BitVec.toNat_shiftLeft, BitVec.toNat_setWidth, Nat.mod_eq_of_lt (a := i.toNat) (by omega), Nat.shiftLeft_eq, Nat.mod_eq_of_lt high]
  apply BitVec.eq_of_toNat_eq
  rw [BitVec.toNat_or, low, shifted, ← Nat.shiftLeft_add_eq_or_of_lt (Nat.mod_lt _ (Nat.two_pow_pos 13)), Nat.shiftLeft_eq, BitVec.toNat_ofNat]
  exact (Nat.mod_eq_of_lt fits).symm

/-- The number that the pair S[r], S[r + 1] holds. -/
def Group.pairNat (g : Machine.Group) (r : SReg) : Nat := (g.readS r).toNat + 2 ^ 32 * (g.readS (sreg r 1)).toNat
theorem Group.readS64_eq (g : Machine.Group) (r : SReg) : g.readS64 r = BitVec.ofNat 64 (g.pairNat r) := by
  rw [Group.pairNat, ← readS64_nat, BitVec.ofNat_toNat, BitVec.setWidth_eq]
theorem add64_eq (g : Machine.Group) (a b : SReg) : g.readS64 a + g.readS64 b = BitVec.ofNat 64 (g.pairNat a + g.pairNat b) := by
  rw [BitVec.ofNat_add, g.readS64_eq, g.readS64_eq]
theorem sub64_eq (g : Machine.Group) (a b : SReg) : g.readS64 a - g.readS64 b = BitVec.ofInt 64 (g.pairNat a - g.pairNat b) := by
  rw [Int.sub_eq_add_neg, BitVec.ofInt_add, BitVec.ofInt_neg, BitVec.ofInt_natCast, BitVec.ofInt_natCast, g.readS64_eq, g.readS64_eq, BitVec.sub_eq_add_neg]
theorem addz64_eq (g : Machine.Group) (a : SReg) (w : Word) : g.readS64 a + w.setWidth 64 = BitVec.ofNat 64 (g.pairNat a + w.toNat) := by
  rw [BitVec.ofNat_add, g.readS64_eq, BitVec.ofNat_toNat]

theorem scalarConstantsAndPairs : Clause.ScalarConstantsAndPairs := by
  intro s d a b c i pair
  exact ⟨givesS_of (.refl (execSMovi d i s)) rfl, givesS_of (.refl (execMovh d i s)) (movh_eq ..),
    givesS64_of (.refl (execAdd64 d a b s)) (add64_eq ..), givesS64_of (.refl (execSub64 d a b s)) (sub64_eq ..),
    givesS64_of (.refl (execAddz64 d a c s)) (addz64_eq ..), givesS64_of (.refl (execMov64 d a s)) (Group.readS64_eq ..)⟩

/-! ### Between scalars and lanes (R105) -/
theorem exec_stov (d : VReg) (a : SReg) (s : State) : exec (.stov d a) s =
    issueSeq (.stov d a) (fun s => s.setV d (s.lanes false) fun _ => s.src.readS a) s := rfl
theorem stov_writes (s : State) (d : VReg) (a : SReg) : Effect (.stov d a) s 0 (s.setV d s.g.amask fun _ => s.g.readS a) := fun hI hF _ => by
  refine issueSeq_effect (exec_stov d a s) hI ?_ rfl rfl rfl hF
  rw [s.begun_lanes]
  rfl

section
variable {i : Instr} {s : State} {d : SReg} {a : VReg} {j : Machine.Group → Option Lane}

/-- A scalar that takes an element of a lane. -/
theorem fromLane_gives {L : Lane} (hx : exec i s = fromLane i d a j s) (hj : j s.g = some L) (hp : s.g.regs.vpois[a].getLsbD L.val = false) :
    GivesS i s d (s.g.readV a L) := by
  refine setS_effect (u := s) hx ?_ rfl rfl rfl id
  rw [s.begun_src, hj]
  exact if_neg (ne_true_of_eq_false hp)
/-- Where there is no such lane, the scalar takes 0. -/
theorem fromLane_absent (hx : exec i s = fromLane i d a j s) (hj : j s.g = none) : Effect i s 0 ((s.setS d 0).orFlags 0x40) := by
  obtain ⟨h1, h2, h3, h4⟩ := setS_keeps s d 0
  refine flagged_effect hx (fun _ _ => ?_) h1 h2 h3 h4
  rw [s.begun_src, hj, ← setS_latch]
  rfl
end

theorem scalarsAndLanes_clause : Clause.ScalarsAndLanes := by
  intro s ds as d a b j here
  have low : wbits (s.g.sb b) 6 0 = j := wbits_low7 _
  refine ⟨stov_writes s d as, fun L hL hh hp => fromLane_gives (.refl (execVtos ds a b s)) ?_ (hL ▸ hp), fun h =>
    fromLane_absent (.refl (execVtos ds a b s)) ?_, fun L hh least => fromLane_gives (.refl (execVtosf ds a s)) (lowest_eq_some hh.1 least),
    fun h => fromLane_absent (.refl (execVtosf ds a s)) (by rw [h]; exact lowest_zero), givesS_of (.refl (execSsel ds as b s)) rfl⟩
  · rw [low, ← hL]
    have lane : s.g.here L.val := ⟨Int.natCast_nonneg _, by exact_mod_cast L.isLt, hL ▸ hh⟩
    exact (Group.present_of_here lane).trans (congrArg some (Fin.ext (Nat.mod_eq_of_lt L.isLt)))
  · rw [low]
    refine Group.present_of_absent fun hh => ?_
    obtain h | h := h
    · exact absurd hh.2.1 (by omega)
    · exact h hh.2.2

/-- Settles O21: pairs as numbers of 64 bits, and an element of a lane that is there or absent. -/
theorem scalarsAndLanes : Obligations.ScalarsAndLanes := ⟨scalarsAndLanes_clause, scalarConstantsAndPairs⟩

end
end Sys2Proof.Machine
end

