-- ==== Sys2Proof/Proofs/Barriers.lean ====
section
/-!
PROOFS. Proofs/Barriers.lean: arrivals on a workgroup's barriers, the completion of a phase and the waits for it (R115), and arrival barrier
words in core memory (R116).
-/
namespace Sys2Proof.Machine
noncomputable section

/-! ### Sets of barriers as words -/
/-- The number whose bits are the members of `f`. -/
def bitsOf {n : Nat} (f : Fin n → Bool) : Nat := (List.finRange n).foldl (fun a k => if f k then a + 2 ^ k.val else a) 0
theorem bitsOf_succ {n : Nat} (f : Fin (n + 1) → Bool) :
    bitsOf f = if f (Fin.last n) then bitsOf (fun k : Fin n => f k.castSucc) + 2 ^ n else bitsOf fun k : Fin n => f k.castSucc := by
  unfold bitsOf
  rw [List.finRange_succ_last, List.foldl_append, List.foldl_map]
  rfl
theorem bitsOf_lt {n : Nat} (f : Fin n → Bool) : bitsOf f < 2 ^ n := by
  induction n with
  | zero => exact Nat.one_pos
  | succ n ih =>
    have := ih fun k => f k.castSucc
    rw [bitsOf_succ, pow_succ]
    split <;> omega
theorem bitsOf_testBit {n : Nat} (f : Fin n → Bool) (k : Fin n) : (bitsOf f).testBit k.val = f k := by
  induction n with
  | zero => exact k.elim0
  | succ n ih =>
    have low := bitsOf_lt fun k : Fin n => f k.castSucc
    rw [bitsOf_succ]
    induction k using Fin.lastCases with
    | last =>
      split
      · next h => rw [Nat.add_comm, Fin.val_last, Nat.testBit_two_pow_add_eq, Nat.testBit_lt_two_pow low, h]; rfl
      · next h => rw [Fin.val_last, Nat.testBit_lt_two_pow low]; exact (Bool.eq_false_iff.mpr h).symm
    | cast k =>
      split
      · rw [Nat.add_comm, Fin.val_castSucc, Nat.testBit_two_pow_add_gt k.isLt]; exact ih _ k
      · exact ih _ k
theorem ofNat_bitsOf (f : Fin 16 → Bool) (n : Fin 16) : (BitVec.ofNat 16 (bitsOf f)).getLsbD n.val = f n := by
  rw [BitVec.getLsbD_ofNat, bitsOf_testBit, decide_eq_true n.isLt, Bool.true_and]
theorem bitSet_getLsbD (m : BitVec 16) (n : Fin 16) (b : Bool) (k : Fin 16) :
    (bitSet m n b).getLsbD k.val = if k = n then b else m.getLsbD k.val := by
  have one : (1#16 <<< n.val).getLsbD k.val = decide (k = n) := by
    revert n k
    decide
  cases b with
  | false =>
    show (m &&& ~~~(1#16 <<< n.val)).getLsbD k.val = _
    rw [BitVec.getLsbD_and, BitVec.getLsbD_not, one, decide_eq_true k.isLt]
    by_cases h : k = n <;> simp [h]
  | true =>
    show (m ||| (1#16 <<< n.val)).getLsbD k.val = _
    rw [BitVec.getLsbD_or, one]
    by_cases h : k = n <;> simp [h]
theorem bitSet_same (m : BitVec 16) (n : Fin 16) (b : Bool) : (bitSet m n b).getLsbD n.val = b := (bitSet_getLsbD ..).trans (if_pos rfl)
theorem bitSet_of_bit {m : BitVec 16} {n : Fin 16} {b : Bool} (h : m.getLsbD n.val = b) : bitSet m n b = m := by
  apply BitVec.eq_of_getLsbD_eq
  intro i hi
  have bit := bitSet_getLsbD m n b ⟨i, hi⟩
  split at bit
  · next e => rw [bit, ← h, ← e]
  · exact bit

/-! ### A phase completes (R115) -/
theorem Workgroup.barFull_iff (w : Workgroup) (e : Nat) (n : Fin 16) : w.barFull e n = true ↔ e ≤ w.barArrived[n] ∧ 0 < w.barArrived[n] := by
  unfold Workgroup.barFull
  rw [Bool.and_eq_true, decide_eq_true_eq, decide_eq_true_eq]
theorem Workgroup.completeBars_arrived (w : Workgroup) (e : Nat) (n : Fin 16) :
    (w.completeBars e).barArrived[n] = if w.barFull e n = true then 0 else w.barArrived[n] := Vector.getElem_ofFn n.isLt
theorem Workgroup.completeBars_phase (w : Workgroup) (e : Nat) (n : Fin 16) :
    (w.completeBars e).barPhase.getLsbD n.val = (w.barPhase.getLsbD n.val ^^ w.barFull e n) := by
  show (w.barPhase ^^^ BitVec.ofNat 16 (bitsOf (w.barFull e))).getLsbD n.val = _
  rw [BitVec.getLsbD_xor, ofNat_bitsOf]
theorem Group.passBars_pending (full : Fin 16 → Bool) (g : Machine.Group) (n : Fin 16) : (g.passBars full).barPending.getLsbD n.val =
    (g.barPending.getLsbD n.val && !(full n && g.allEntries.any fun e => e.wait = .barred n || e.wait2 = .barred n)) := by
  show (g.barPending &&& ~~~BitVec.ofNat 16 (bitsOf fun n => full n && g.allEntries.any fun e => e.wait = .barred n || e.wait2 = .barred n)).getLsbD
    n.val = _
  rw [BitVec.getLsbD_and, BitVec.getLsbD_not, ofNat_bitsOf, decide_eq_true n.isLt, Bool.true_and]
theorem Group.passBars_slot (full : Fin 16 → Bool) {g : Machine.Group} {k : Fin 2} {l : Entry} (h : (g.slot k).leaf = some l) :
    ((g.passBars full).slot k).leaf = some (l.passBars full) := by
  unfold Group.slot at h ⊢
  show (if k = g.sel then _ else _ : Slot).leaf = _
  split at h
  · next e => rw [if_pos e]; exact congrArg (Option.map _) h
  · next e => rw [if_neg e]; exact congrArg (Option.map _) h

/-! ### What decides how a slot goes on -/
/-- What of an entry decides whether a split is open. -/
def Entry.key (e : Entry) : EKind × Bool × Nat := (e.kind, e.arr, e.id)
/-- `Group.splitOpen` on the keys of the group's entries, those that wait and all. -/
def splitOpenKeys (es all : List (EKind × Bool × Nat)) : Bool :=
  let l := all.filter fun k => match es.find? fun k => k.1 = .trap with | some t => decide (t.2.2 < k.2.2) | none => true
  (l.filter fun k => k.1 = .leaf && !k.2.1).length ≠ 1 || l.any fun k => k.1 = .split
theorem Group.splitOpen_eq_keys (g : Machine.Group) : g.splitOpen = splitOpenKeys (g.entries.map Entry.key) (g.allEntries.map Entry.key) := by
  have after : (fun k : EKind × Bool × Nat => match (g.entries.map Entry.key).find? fun k => k.1 = .trap with
      | some t => decide (t.2.2 < k.2.2) | none => true) ∘ Entry.key = g.afterTrap := by
    funext e
    unfold Group.afterTrap Group.openTrap
    show (match (g.entries.map Entry.key).find? _ with | some t => _ | none => _) = _
    rw [List.find?_map]
    show (match (g.entries.find? fun e => e.kind = .trap).map Entry.key with | some t => _ | none => _) = _
    cases g.entries.find? fun e => e.kind = .trap <;> rfl
  unfold Group.splitOpen splitOpenKeys
  dsimp only
  rw [List.filter_map, after, List.filter_map, List.length_map, List.any_map]
  rfl
/-- Where entries keep their keys and the issuing leaf its word, the slot goes on as it would have. -/
theorem Flows.of_keys {s u : State} {len : Nat} (h : Flows s len) (ha : u.g.regs.lactive = s.g.regs.lactive)
    (hw : u.g.me.leaf.map (·.ws) = s.g.me.leaf.map (·.ws)) (he : u.g.entries.map Entry.key = s.g.entries.map Entry.key)
    (hr : u.g.residents.map Entry.key = s.g.residents.map Entry.key) : Flows u len := by
  intro l hl
  have split : u.g.splitOpen = s.g.splitOpen := by
    rw [Group.splitOpen_eq_keys, Group.splitOpen_eq_keys]
    unfold Group.allEntries
    rw [List.map_append, List.map_append, he, hr]
  rw [hl] at hw
  obtain ⟨k, hk, ws⟩ := Option.map_eq_some_iff.mp hw.symm
  rw [ha, split, ← show k.ws = l.ws from ws]
  exact h k hk
theorem Group.residents_keys {g h : Machine.Group} (hm : h.me.leaf.map Entry.key = g.me.leaf.map Entry.key)
    (ht : h.mate.leaf.map Entry.key = g.mate.leaf.map Entry.key) : h.residents.map Entry.key = g.residents.map Entry.key := by
  have list : ∀ o : Option Entry, o.toList.map Entry.key = (o.map Entry.key).toList := fun o => by cases o <;> rfl
  unfold Group.residents
  rw [List.map_append, List.map_append, list, list, list, list, hm, ht]

/-! ### A phase completes in the state -/
/-- The barriers of workgroup `wid` whose phase the arrivals complete. -/
def State.fullBars (s : State) (wid : Nat) : Fin 16 → Bool := ((s.wg? wid).getD {}).barFull (s.expected wid)
def Group.completed (g : Machine.Group) (wid : Nat) (full : Fin 16 → Bool) : Machine.Group := (if g.wid = wid then g.passBars full else g).wake
theorem State.completeBars_g (s : State) (wid : Nat) : (s.completeBars wid).g = s.g.completed wid (s.fullBars wid) := rfl
theorem State.completeBars_allGroups (s : State) (wid : Nat) :
    (s.completeBars wid).allGroups = s.allGroups.map fun h => h.completed wid (s.fullBars wid) := by
  show _ :: List.map Group.wake (List.map _ s.others) = _
  rw [List.map_map]
  rfl
theorem State.completeBars_w (s : State) : (s.completeBars s.w.wid).w = s.w.completeBars (s.expected s.w.wid) := if_pos rfl
theorem State.completeBars_withLatch (s : State) (wid : Nat) (L : Latch) :
    (s.withLatch L).completeBars wid = (s.completeBars wid).withLatch L := rfl
theorem State.fullBars_front (s : State) (h : s.w.wid ≠ 0) : s.fullBars s.w.wid = s.w.barFull (s.expected s.w.wid) := by
  have front : s.wg? s.w.wid = some s.w := List.find?_cons_of_pos (by simp [h])
  unfold State.fullBars
  rw [front]
  rfl
/-- Where too few have arrived in the front workgroup, no phase of the barrier completes. -/
theorem State.fullBars_of_few {s : State} {n : Fin 16} (h : s.w.barArrived[n] < s.expected s.w.wid) : s.fullBars s.w.wid n = false := by
  by_cases h0 : s.w.wid = 0
  · have nobody : s.wg? s.w.wid = none := by
      rw [h0]
      exact List.find?_eq_none.mpr fun _ _ => by simp
    have empty : ({} : Workgroup).barArrived[n] = 0 := Vector.getElem_replicate n.isLt
    refine Bool.eq_false_iff.mpr fun full => ?_
    unfold State.fullBars at full
    rw [nobody] at full
    have := (Workgroup.barFull_iff {} _ n).mp full
    omega
  · rw [s.fullBars_front h0]
    refine Bool.eq_false_iff.mpr fun full => ?_
    have := (Workgroup.barFull_iff _ _ n).mp full
    omega

theorem Entry.passBars_key (full : Fin 16 → Bool) (e : Entry) : (e.passBars full).key = e.key := rfl
theorem Group.completed_flows (g : Machine.Group) (wid : Nat) (full : Fin 16 → Bool) :
    let h := g.completed wid full
    h.regs = g.regs ∧ h.me.leaf.map (·.ws) = g.me.leaf.map (·.ws) ∧ h.entries.map Entry.key = g.entries.map Entry.key ∧
    h.residents.map Entry.key = g.residents.map Entry.key := by
  have leaf : ∀ {α : Type} (f : Entry → α), (∀ e : Entry, f (e.passBars full) = f e) → ∀ o : Option Entry,
      (o.map (Entry.passBars full)).map f = o.map f := fun f hf o => by
    cases o with
    | none => rfl
    | some e => exact congrArg some (hf e)
  unfold Group.completed
  split
  · refine ⟨rfl, leaf _ (fun _ => rfl) _, ?_, Group.residents_keys (leaf _ (fun _ => rfl) _) (leaf _ (fun _ => rfl) _)⟩
    show (g.entries.map (Entry.passBars full)).map Entry.key = _
    rw [List.map_map]
    rfl
  · exact ⟨rfl, rfl, rfl, rfl⟩
theorem Flows.completeBars {s : State} {len : Nat} (h : Flows s len) (wid : Nat) : Flows (s.completeBars wid) len := by
  obtain ⟨regs, ws, entries, residents⟩ := s.g.completed_flows wid (s.fullBars wid)
  exact h.of_keys (congrArg Regs.lactive regs) ws entries residents

/-! ### Arrivals and waits (R115) -/
/-- The group's arrival at barrier n in the phase that is open, before it is seen whether it completes the phase. -/
def State.arriving (s : State) (n : Fin 16) : State :=
  { s with
    w := { s.w with barArrived := s.w.barArrived.set n (s.w.barArrived[n] + 1) }
    g := { s.g with
      barPhase := bitSet s.g.barPhase n (s.w.barPhase.getLsbD n.val)
      barPending := bitSet s.g.barPending n true
      barSlot := bitSet s.g.barSlot n (s.g.sel == 1) } }
/-- The group's arrival at barrier n. -/
def State.arrived (s : State) (n : Fin 16) : State := (s.arriving n).completeBars s.w.wid
/-- The group's arrival at barrier n is no longer pending. -/
def State.arrivalOver (s : State) (n : Fin 16) : State := { s with g := { s.g with barPending := bitSet s.g.barPending n false } }
/-- The group has arrived at barrier n, and the phase has not completed since. -/
def State.ArrivalOpen (s : State) (n : Fin 16) : Prop :=
  s.g.barPending.getLsbD n.val = true ∧ s.w.barPhase.getLsbD n.val = s.g.barPhase.getLsbD n.val

section
variable {s : State} {n : Fin 16}

theorem State.barOpen_iff : s.barOpen n = true ↔ s.ArrivalOpen n := by
  unfold State.barOpen State.ArrivalOpen
  rw [Bool.and_eq_true, beq_iff_eq]
theorem State.arriveBar_of_closed (h : ¬s.ArrivalOpen n) : s.arriveBar n = some (s.arrived n) := if_neg (mt State.barOpen_iff.mp h)
theorem State.arriveBar_of_other (h : s.ArrivalOpen n) (ho : s.g.barSlot.getLsbD n.val ≠ (s.g.sel == 1)) : s.arriveBar n = some s :=
  (if_pos (State.barOpen_iff.mpr h)).trans (if_pos ho)
theorem State.arriveBar_of_same (h : s.ArrivalOpen n) (ho : s.g.barSlot.getLsbD n.val = (s.g.sel == 1)) : s.arriveBar n = none :=
  (if_pos (State.barOpen_iff.mpr h)).trans (if_neg (not_not.mpr ho))
theorem State.waitBar_of_idle (h : s.g.barPending.getLsbD n.val = false) : s.waitBar n = some s := if_pos (by rw [h]; rfl)
theorem State.waitBar_of_open (h : s.ArrivalOpen n) : s.waitBar n = none :=
  (if_neg (by rw [h.1]; exact Bool.false_ne_true)).trans (if_pos (beq_iff_eq.mpr h.2))
/-- Once the phase has changed, an arrival is over, whether it was pending or not. -/
theorem State.waitBar_of_passed (h : s.w.barPhase.getLsbD n.val ≠ s.g.barPhase.getLsbD n.val) : s.waitBar n = some (s.arrivalOver n) := by
  cases hp : s.g.barPending.getLsbD n.val with
  | false =>
    have same : s.arrivalOver n = s := by unfold State.arrivalOver; rw [bitSet_of_bit hp]
    rw [State.waitBar_of_idle hp, same]
  | true => exact (if_neg (by rw [hp]; exact Bool.false_ne_true)).trans (if_neg (mt beq_iff_eq.mp h))

theorem State.arriving_expected (wid : Nat) : (s.arriving n).expected wid = s.expected wid := by
  unfold State.expected
  show (List.filter _ (_ :: s.others)).length = (List.filter _ (_ :: s.others)).length
  rw [List.filter_cons, List.filter_cons]
  show (if (decide (s.g.wid = wid) && decide (s.g.gid ≠ 0) && decide (s.g.status ≠ .retired)) = true then _ else _ : List _).length = _
  split <;> rfl
theorem State.arriving_count : (s.arriving n).w.barArrived[n] = s.w.barArrived[n] + 1 := Vector.getElem_set_self n.isLt
/-- The group stands in the phase that it arrived in. -/
theorem State.arrived_phase : (s.arrived n).g.barPhase.getLsbD n.val = s.w.barPhase.getLsbD n.val := by
  have kept : (s.arrived n).g.barPhase = (s.arriving n).g.barPhase := by
    unfold State.arrived
    rw [State.completeBars_g]
    unfold Group.completed
    split <;> rfl
  rw [kept]
  exact bitSet_same ..
theorem State.arrived_front_phase : (s.arrived n).w.barPhase.getLsbD n.val =
    (s.w.barPhase.getLsbD n.val ^^ (s.arriving n).w.barFull (s.expected s.w.wid) n) := by
  have front : (s.arrived n).w = (s.arriving n).w.completeBars ((s.arriving n).expected s.w.wid) := (s.arriving n).completeBars_w
  rw [front, State.arriving_expected, Workgroup.completeBars_phase]
  rfl
/-- The last arrival of a phase is over at once. -/
theorem State.waitBar_arrived_last (h : s.expected s.w.wid ≤ s.w.barArrived[n] + 1) :
    (s.arrived n).waitBar n = some ((s.arrived n).arrivalOver n) := by
  refine State.waitBar_of_passed ?_
  have full : (s.arriving n).w.barFull (s.expected s.w.wid) n = true := (Workgroup.barFull_iff ..).mpr (by rw [State.arriving_count]; omega)
  rw [State.arrived_front_phase, State.arrived_phase, full]
  cases s.w.barPhase.getLsbD n.val <;> decide
/-- An earlier arrival waits. -/
theorem State.waitBar_arrived_early (h : s.w.barArrived[n] + 1 < s.expected s.w.wid) : (s.arrived n).waitBar n = none := by
  have few : (s.arriving n).fullBars s.w.wid n = false :=
    State.fullBars_of_few (s := s.arriving n) (by rw [State.arriving_count]; exact h.trans_eq (State.arriving_expected _).symm)
  have open_ : (s.arriving n).w.barFull (s.expected s.w.wid) n = false := Bool.eq_false_iff.mpr fun full => by
    have := (Workgroup.barFull_iff ..).mp full
    rw [State.arriving_count] at this
    omega
  have pending : (s.arrived n).g.barPending.getLsbD n.val = true := by
    unfold State.arrived
    rw [State.completeBars_g]
    unfold Group.completed
    split
    · show ((s.arriving n).g.passBars _).barPending.getLsbD n.val = true
      rw [Group.passBars_pending, few]
      exact (Bool.and_true _).trans (bitSet_same ..)
    · exact bitSet_same ..
  refine State.waitBar_of_open ⟨pending, ?_⟩
  rw [State.arrived_front_phase, State.arrived_phase, open_, Bool.xor_false]
end

theorem exec_bararr (n : Fin 16) (s : State) : exec (.bararr n) s =
    issueSeq (.bararr n) (fun s => match s.arriveBar n with | some t => t | none => s.waitFor (.rearm n)) s := rfl
theorem exec_barwait (n : Fin 16) (s : State) : exec (.barwait n) s = issueSeq (.barwait n) (fun s =>
    if s.myWait = .granted then s else match s.waitBar n with | some t => t | none => s.waitFor (.barred n)) s := rfl
theorem exec_bar (n : Fin 16) (s : State) : exec (.bar n) s = issueSeq (.bar n) (fun s =>
    if s.myWait = .granted then s
    else if s.myWait = .barred n then s.waitFor (.barred n)
    else
      match s.arriveBar n with
      | none => s.waitFor (.rearm n)
      | some t => match t.waitBar n with | some u => u | none => t.waitFor (.barred n)) s := rfl

/-- A sequential word whose effect moves no leaf and is blind to the latch. -/
theorem quiet_effect {i : Instr} {body : State → State} {s u : State} (hx : exec i s = issueSeq i body s)
    (hb : Issues i s → body (s.begun i) = u.withLatch (s.begun i).latch) (h0 : u.latch = s.latch) (hd : u.g.debt = s.g.debt)
    (hr : u.g.status = s.g.status) (hF : ∀ len, Flows s len → Flows u len) : Effect i s 0 u :=
  fun hI hFs _ => issueSeq_effect hx hI (hb hI) h0 hd hr (hF _ hFs)

section
variable {s : State} {n : Fin 16}
theorem State.arrived_keeps : (s.arrived n).latch = s.latch ∧ (s.arrived n).g.debt = s.g.debt ∧ (s.arrived n).g.status = s.g.status ∧
    ∀ len, Flows s len → Flows (s.arrived n) len := by
  obtain ⟨latch, status, -, -, debt, -⟩ := (s.arriving n).completeBars_front s.w.wid
  exact ⟨latch, debt, status, fun len h => Flows.completeBars (s := s.arriving n) h s.w.wid⟩

theorem bararr_arrives (h : ¬s.ArrivalOpen n) : Effect (.bararr n) s 0 (s.arrived n) := by
  obtain ⟨latch, debt, status, flows⟩ := s.arrived_keeps (n := n)
  refine quiet_effect (exec_bararr n s) (fun _ => ?_) latch debt status flows
  rw [State.arriveBar_of_closed (s := s.begun _) h]
  rfl
theorem bararr_again (h : s.ArrivalOpen n) (ho : s.g.barSlot.getLsbD n.val ≠ (s.g.sel == 1)) : Effect (.bararr n) s 0 s := by
  refine goesOn_of_idle (exec_bararr n s) ?_
  rw [State.arriveBar_of_other (s := s.begun _) h ho]
theorem bararr_waits (h : s.ArrivalOpen n) (ho : s.g.barSlot.getLsbD n.val = (s.g.sel == 1)) :
    Waits (.bararr n) s fun u => u.waitFor (.rearm n) := by
  refine waits_of_stall (exec_bararr n s) ?_ rfl
  rw [State.arriveBar_of_same (s := s.begun _) h ho]
theorem barwait_idle (h : s.g.barPending.getLsbD n.val = false) : Effect (.barwait n) s 0 s := by
  refine goesOn_of_idle (exec_barwait n s) ?_
  rw [State.waitBar_of_idle (s := s.begun _) h]
  exact ite_self _
theorem barwait_passed (hw : s.myWait ≠ .granted) (h : s.w.barPhase.getLsbD n.val ≠ s.g.barPhase.getLsbD n.val) :
    Effect (.barwait n) s 0 (s.arrivalOver n) := by
  refine quiet_effect (exec_barwait n s) (fun _ => (if_neg hw).trans ?_) rfl rfl rfl fun _ h => h
  rw [State.waitBar_of_passed (s := s.begun _) h]
  rfl
theorem barwait_waits (hw : s.myWait ≠ .granted) (h : s.ArrivalOpen n) : Waits (.barwait n) s fun u => u.waitFor (.barred n) := by
  refine waits_of_stall (exec_barwait n s) ((if_neg hw).trans ?_) rfl
  rw [State.waitBar_of_open (s := s.begun _) h]
theorem barrier_granted (hw : s.myWait = .granted) : Effect (.barwait n) s 0 s ∧ Effect (.bar n) s 0 s :=
  ⟨goesOn_of_idle (exec_barwait n s) (if_pos hw), goesOn_of_idle (exec_bar n s) (if_pos hw)⟩

theorem bar_waits_on (hw : s.myWait = .barred n) : Waits (.bar n) s fun u => u.waitFor (.barred n) := by
  have ungranted : s.myWait ≠ .granted := by rw [hw]; exact nofun
  exact waits_of_stall (exec_bar n s) ((if_neg ungranted).trans (if_pos hw)) rfl

section
variable (hg : s.myWait ≠ .granted) (hb : s.myWait ≠ .barred n)
include hg hb
theorem bar_last (h : ¬s.ArrivalOpen n) (hl : s.expected s.w.wid ≤ s.w.barArrived[n] + 1) :
    Effect (.bar n) s 0 ((s.arrived n).arrivalOver n) := by
  obtain ⟨latch, debt, status, flows⟩ := s.arrived_keeps (n := n)
  refine quiet_effect (exec_bar n s) (fun _ => (if_neg hg).trans ((if_neg hb).trans ?_)) latch debt status flows
  rw [State.arriveBar_of_closed (s := s.begun _) h]
  dsimp only
  rw [State.waitBar_arrived_last (s := s.begun _) hl]
  rfl
theorem bar_early (h : ¬s.ArrivalOpen n) (he : s.w.barArrived[n] + 1 < s.expected s.w.wid) :
    Waits (.bar n) s fun u => (u.arrived n).waitFor (.barred n) := by
  refine waits_of_stall (exec_bar n s) ((if_neg hg).trans ((if_neg hb).trans ?_)) rfl
  rw [State.arriveBar_of_closed (s := s.begun _) h]
  dsimp only
  rw [State.waitBar_arrived_early (s := s.begun _) he]
theorem bar_joins (h : s.ArrivalOpen n) (ho : s.g.barSlot.getLsbD n.val ≠ (s.g.sel == 1)) :
    Waits (.bar n) s fun u => u.waitFor (.barred n) := by
  refine waits_of_stall (exec_bar n s) ((if_neg hg).trans ((if_neg hb).trans ?_)) rfl
  rw [State.arriveBar_of_other (s := s.begun _) h ho]
  dsimp only
  rw [State.waitBar_of_open (s := s.begun _) h]
theorem bar_rearms (h : s.ArrivalOpen n) (ho : s.g.barSlot.getLsbD n.val = (s.g.sel == 1)) :
    Waits (.bar n) s fun u => u.waitFor (.rearm n) := by
  refine waits_of_stall (exec_bar n s) ((if_neg hg).trans ((if_neg hb).trans ?_)) rfl
  rw [State.arriveBar_of_same (s := s.begun _) h ho]
end
end

theorem barriers_clause : Clause.Barriers := by
  refine ⟨fun w e n => ?_, fun s wid => s.completeBars_allGroups wid,
    fun full h k l n => ⟨fun hl => Group.passBars_slot full hl, Group.passBars_pending ..⟩,
    fun s n => ⟨bararr_arrives, bararr_again, bararr_waits, barwait_idle, fun hg _ => barwait_passed hg, barwait_waits,
      barrier_granted, bar_waits_on,
      fun hg hb => ⟨fun h _ => bar_last hg hb h, bar_early hg hb, bar_joins hg hb, bar_rearms hg hb⟩⟩⟩
  · intro full
    have reached : w.barFull e n = true ↔ full := w.barFull_iff e n
    rw [Workgroup.completeBars_arrived, Workgroup.completeBars_phase, if_congr reached rfl rfl]
    refine ⟨rfl, ?_⟩
    by_cases h : full
    · rw [if_pos h, reached.mpr h, Bool.xor_true]
    · rw [if_neg h, Bool.eq_false_iff.mpr (mt reached.mp h), Bool.xor_false]

/-! ### Arrival barrier words (R116) -/
theorem mkBar_fields {e p h : Nat} (he : e < 2 ^ 32) (hp : p < 2 ^ 31) (hh : h < 2) :
    barExpected (mkBar e p h) = e ∧ barPend (mkBar e p h) = p ∧ barPh (mkBar e p h) = h := by
  unfold barExpected barPend barPh mkBar
  omega
theorem bar_bounds (x : Nat) : barExpected x < 2 ^ 32 ∧ barPend x < 2 ^ 31 ∧ barPh x < 2 := by
  unfold barExpected barPend barPh
  omega
theorem barFaulted_iff (x : Nat) : barFaulted x = true ↔ barPend x = 0x7FFFFFFF := decide_eq_true_iff
section
variable {k x : Nat}
theorem arriveWord_of_faulted (h : barPend x = 0x7FFFFFFF) : arriveWord k x = x := if_pos ((barFaulted_iff x).mpr h)
/-- The fields of a word that is not FAULTED after k arrivals; how many it expects stays. -/
theorem arriveWord_of_more (h : barPend x ≠ 0x7FFFFFFF) (hk : barPend x < k) : barExpected (arriveWord k x) = barExpected x ∧
    barPend (arriveWord k x) = 0x7FFFFFFF ∧ barPh (arriveWord k x) = barPh x := by
  obtain ⟨e, p, ph⟩ := bar_bounds x
  rw [show arriveWord k x = _ from (if_neg (mt (barFaulted_iff x).mp h)).trans (if_pos hk)]
  exact mkBar_fields e (by decide) ph
theorem arriveWord_of_fewer (h : barPend x ≠ 0x7FFFFFFF) (hk : k < barPend x) : barExpected (arriveWord k x) = barExpected x ∧
    barPend (arriveWord k x) = barPend x - k ∧ barPh (arriveWord k x) = barPh x := by
  obtain ⟨e, p, ph⟩ := bar_bounds x
  rw [show arriveWord k x = _ from (if_neg (mt (barFaulted_iff x).mp h)).trans ((if_neg (by omega)).trans (if_neg (by omega)))]
  exact mkBar_fields e (by omega) ph
theorem arriveWord_of_last (h : barPend x ≠ 0x7FFFFFFF) (hk : k = barPend x) : barExpected (arriveWord k x) = barExpected x ∧
    barPend (arriveWord k x) = barExpected x % 2 ^ 31 ∧ barPh (arriveWord k x) = 1 - barPh x := by
  obtain ⟨e, p, ph⟩ := bar_bounds x
  rw [show arriveWord k x = _ from (if_neg (mt (barFaulted_iff x).mp h)).trans ((if_neg (by omega)).trans (if_pos hk.symm))]
  exact mkBar_fields e (by omega) (by omega)
theorem arriveWord_expected (k x : Nat) : barExpected (arriveWord k x) = barExpected x := by
  by_cases h : barPend x = 0x7FFFFFFF
  · rw [arriveWord_of_faulted h]
  · obtain hk | hk | hk := Nat.lt_trichotomy k (barPend x)
    · exact (arriveWord_of_fewer h hk).1
    · exact (arriveWord_of_last h hk).1
    · exact (arriveWord_of_more h hk).1
end

/-- Where no slot waits on the word, no wait ends. -/
theorem Slot.freeWaiter_of_none {wid off : Nat} {x : Slot} (h : ∀ l, x.leaf = some l → l.wait ≠ .onWord wid off ∧ l.wait2 ≠ .onWord wid off)
    (go : Bool) : x.freeWaiter wid off go = x := by
  have leaf : x.leaf.map (fun l => ({ l with
      wait := if l.wait = .onWord wid off && go then .granted else l.wait
      wait2 := if l.wait2 = .onWord wid off && go then .granted else l.wait2 } : Entry)) = x.leaf := by
    cases hl : x.leaf with
    | none => rfl
    | some l =>
      obtain ⟨h1, h2⟩ := h l hl
      simp [h1, h2]
  exact congrArg (fun o => { x with leaf := o }) leaf
theorem State.freeWaiters_of_none {s : State} {wid off : Nat} (h : ∀ g ∈ s.allGroups, ∀ (k : Fin 2) (l : Entry), (g.slot k).leaf = some l →
    l.wait ≠ .onWord wid off ∧ l.wait2 ≠ .onWord wid off) : s.freeWaiters wid off = s := by
  have same : ∀ g ∈ s.allGroups, ∀ a b : Bool, ({ g with
      me := g.me.freeWaiter wid off a, mate := g.mate.freeWaiter wid off b } : Machine.Group) = g := fun g hg a b => by
    have me := Slot.freeWaiter_of_none (x := g.me) (fun l hl => h g hg g.sel l (by rw [g.slot_sel]; exact hl)) a
    have mate := Slot.freeWaiter_of_none (x := g.mate) (fun l hl => h g hg (1 - g.sel) l (by rw [g.slot_other]; exact hl)) b
    rw [me, mate]
  unfold State.freeWaiters
  dsimp only
  rw [same s.g List.mem_cons_self, List.map_congr_left (g := id) fun g hg => same g (List.mem_cons_of_mem _ hg) _ _, List.map_id]
theorem State.freeWaiters_flows (s : State) (wid off : Nat) {len : Nat} (h : Flows s len) : Flows (s.freeWaiters wid off) len := by
  have leaf : ∀ {α : Type} (f : Entry → α), (∀ (e : Entry) (a b : Wait), f { e with wait := a, wait2 := b } = f e) → ∀ (x : Slot) (go : Bool),
      (x.freeWaiter wid off go).leaf.map f = x.leaf.map f := fun f hf x go => by
    unfold Slot.freeWaiter
    cases x.leaf with
    | none => rfl
    | some e => exact congrArg some (hf ..)
  exact h.of_keys rfl (leaf _ (fun _ _ _ => rfl) _ _) rfl
    (Group.residents_keys (leaf _ (fun _ _ _ => rfl) _ _) (leaf _ (fun _ _ _ => rfl) _ _))

theorem exec_abinit (d : SReg) (k : BitVec 13) (s : State) : exec (.abinit d k) s = issueSeq (.abinit d k) (fun s =>
    match s.cmPlace s.w (s.src.readS d) 8 with
    | .error c => (lanesOf (s.lanes false)).foldl (fun t L => t.raise1 c L ((s.src.readS d).setWidth 64)) s
    | .ok (wid, off) => ((s.freeWaiters wid off).cmWrite wid off (leBytes 8 (mkBar k.toNat k.toNat 0))).wake) s := rfl
theorem exec_abarr (d : SReg) (k : BitVec 13) (s : State) : exec (.abarr d k) s = issueSeq (.abarr d k) (fun s =>
    s.withBarWord d fun wid off s => s.updBarWord wid off (arriveWord k.toNat)) s := rfl
theorem exec_abwait (d : SReg) (p : Bool) (s : State) : exec (.abwait d p) s = issueSeq (.abwait d p) (fun s => s.withBarWord d fun wid off s =>
    let x := leNat (s.cmRead wid off 8)
    if s.myWait = .granted || barPh x ≠ (if p then 1 else 0) || barFaulted x then
      (s.dropCopies (if wid = s.g.wid then 0 else 1)).acquireBar wid off
    else s.waitFor (.onWord wid off)) s := rfl

/-- The wait is over: it was granted, or the phase has changed, or the word is FAULTED. -/
def State.WordPassed (s : State) (p : Bool) (x : Nat) : Prop := s.myWait = .granted ∨ barPh x ≠ p.toNat ∨ barPend x = 0x7FFFFFFF
theorem State.wordPassed_iff (s : State) (p : Bool) (x : Nat) :
    (s.myWait = .granted || barPh x ≠ (if p then 1 else 0) || barFaulted x) = true ↔ s.WordPassed p x := by
  have phase : (if p then 1 else 0) = p.toNat := by cases p <;> rfl
  rw [phase, Bool.or_eq_true, Bool.or_eq_true, decide_eq_true_eq, decide_eq_true_eq, barFaulted_iff, or_assoc]
  rfl
/-- What an acquire of the issuing group drops does not depend on how its word issues. -/
theorem State.dropCopies_begun {i : Instr} {s : State} (hI : Issues i s) (level : Nat) :
    (s.begun i).dropCopies level = (s.dropCopies level).withLatch (s.begun i).latch := by
  have who : (s.begun i).me = s.me := by
    unfold State.me
    rw [hI.alone]
    rfl
  unfold State.dropCopies
  rw [who]
  rfl

section
variable {s : State} {d : SReg} {wid off : Nat} (hp : s.cmPlace s.w (s.g.readS d) 8 = .ok (wid, off))
include hp
theorem State.begun_withBarWord (i : Instr) (f : Nat → Nat → State → State) (h : s.cmPoisoned wid off 8 = false) :
    (s.begun i).withBarWord d f = f wid off (s.begun i) := by
  have place : (s.begun i).cmPlace (s.begun i).w ((s.begun i).src.readS d) 8 = .ok (wid, off) := hp
  unfold State.withBarWord
  dsimp only
  rw [place]
  exact if_neg (ne_true_of_eq_false h)
theorem abinit_writes (k : BitVec 13) : Effect (.abinit d k) s 0
    (((s.freeWaiters wid off).cmWrite wid off (leBytes 8 (k.toNat + 2 ^ 32 * k.toNat))).wake) := by
  have place : (s.begun (.abinit d k)).cmPlace (s.begun (.abinit d k)).w ((s.begun (.abinit d k)).src.readS d) 8 = .ok (wid, off) := hp
  have word : mkBar k.toNat k.toNat 0 = k.toNat + 2 ^ 32 * k.toNat := by unfold mkBar; omega
  refine quiet_effect (exec_abinit d k s) (fun _ => ?_) rfl rfl rfl fun len h => (s.freeWaiters_flows wid off h).wake
  rw [place]
  dsimp only
  rw [word]
  rfl
variable (hs : s.cmPoisoned wid off 8 = false)
include hs
theorem abarr_arrives (k : BitVec 13) : Effect (.abarr d k) s 0
    ((s.cmWrite wid off (leBytes 8 (arriveWord k.toNat (leNat (s.cmRead wid off 8))))).wake) := by
  refine quiet_effect (exec_abarr d k s) (fun _ => ?_) rfl rfl rfl fun _ h => h.wake
  rw [State.begun_withBarWord hp _ _ hs]
  rfl

theorem abwait_acquires {p : Bool} (h : s.WordPassed p (leNat (s.cmRead wid off 8))) : Effect (.abwait d p) s 0
    ((s.dropCopies (if wid = s.g.wid then 0 else 1)).acquireBar wid off) := by
  refine quiet_effect (exec_abwait d p s) (fun hI => (State.begun_withBarWord hp _ _ hs).trans
    ((if_pos ((State.wordPassed_iff (s.begun _) p _).mpr h)).trans ?_)) rfl rfl rfl fun _ h => h
  rw [State.dropCopies_begun hI]
  rfl
theorem abwait_waits {p : Bool} (h : ¬s.WordPassed p (leNat (s.cmRead wid off 8))) :
    Waits (.abwait d p) s fun u => u.waitFor (.onWord wid off) :=
  waits_of_stall (exec_abwait d p s) ((State.begun_withBarWord hp _ _ hs).trans (if_neg (mt (State.wordPassed_iff (s.begun _) p _).mp h))) rfl
end

theorem arrivalBarriers : Clause.ArrivalBarriers := by
  refine ⟨fun k x _ => ⟨arriveWord_expected k x, arriveWord_of_faulted, fun h hk => (arriveWord_of_more h hk).2,
      fun h hk => (arriveWord_of_fewer h hk).2, fun h hk => (arriveWord_of_last h hk).2⟩,
    fun s wid off => State.freeWaiters_of_none,
    fun s d k p wid off hp => ⟨abinit_writes hp k, fun hs => ⟨abarr_arrives hp hs k, abwait_acquires hp hs,
      fun hw ph pend => abwait_waits hp hs ?_⟩⟩⟩
  rintro (h | h | h)
  · exact hw h
  · exact h ph
  · exact pend h

/-- Settles O39: a phase completes for the workgroup whose arrivals fill it and for the slots that wait for it, and each barrier word is
one case of the two tests `arriveBar` and `waitBar`, or of the barrier word's own fields. -/
theorem barriers : Obligations.Barriers := ⟨barriers_clause, arrivalBarriers⟩

end
end Sys2Proof.Machine
end

