-- ==== Sys2Proof/Proofs/Basins.lean ====
section
/-!
PROOFS. Proofs/Basins.lean: what an effect may leave for its word's issue to close, Basin operations on their way and at their stack (R240, R280), and
the Basin words (R261).
-/
namespace Sys2Proof.Machine
noncomputable section

/-! ### What an effect may leave -/
/-- What the word's issue needs to close without more stands as it was, and the slot goes on as it would have. -/
structure State.Smooth (s t : State) : Prop extends State.Calm s t where
  gid : t.g.gid = s.g.gid
  flows : ∀ n, Flows s n → Flows t n
theorem State.Smooth.refl (s : State) : s.Smooth s := ⟨.refl s, rfl, fun _ h => h⟩
theorem State.Smooth.trans {s t u : State} (h : s.Smooth t) (h' : t.Smooth u) : s.Smooth u :=
  ⟨h.toCalm.trans h'.toCalm, h'.gid.trans h.gid, fun n hF => h'.flows n (h.flows n hF)⟩
/-- The issuing group has changed in nothing but its mark of a restartable region. -/
theorem State.Smooth.of_front {s t : State} {b : Bool} (hl : t.latch = s.latch) (hg : t.g = { s.g with restartable := b }) : s.Smooth t := by
  refine ⟨⟨hl, by rw [hg], by rw [hg], by rw [hg]⟩, by rw [hg], fun n hF l hleaf => ?_⟩
  rw [hg] at hleaf ⊢
  exact hF l hleaf
theorem Inner.smooth {f : State → State} (hf : Inner f) (s : State) : s.Smooth (f s) := by
  obtain ⟨hg, -, hl⟩ := hf.front s
  exact .of_front (b := s.g.restartable) hl hg
theorem State.Smooth.wake (s : State) : s.Smooth s.wake := ⟨⟨rfl, rfl, rfl, rfl⟩, rfl, fun _ h => h⟩
theorem State.setSs_gid (s : State) (d : SReg) (ws : List Word) : (s.setSs d ws).g.gid = s.g.gid := by
  induction ws generalizing s d with
  | nil => rfl
  | cons w ws ih => exact (ih (s.setS d w) (sreg d 1)).trans (s.setS_gid d w)
theorem State.Smooth.setSs (s : State) (d : SReg) (ws : List Word) : s.Smooth (s.setSs d ws) := by
  obtain ⟨h1, h2, h3, h4⟩ := setSs_keeps s d ws
  refine ⟨⟨h1, h2, h3, ?_⟩, s.setSs_gid d ws, h4⟩
  clear h1 h2 h3 h4
  induction ws generalizing s d with
  | nil => rfl
  | cons w ws ih => exact (ih (s.setS d w) (sreg d 1)).trans (s.setS_lactive d w)
theorem State.Smooth.setP (s : State) (d : PReg) (m : Mask) (f : Lane → PVal) : s.Smooth (s.setP d m f) :=
  ⟨⟨rfl, rfl, rfl, Regs.setP_lactive ..⟩, rfl, fun _ h => h.setRegs (Regs.setP_lactive ..)⟩
/-- The law of sequential words, for a body whose effect is smooth. -/
theorem smooth_effect {i : Instr} {body : State → State} {s u : State} {m : Mask} (hx : exec i s = issueSeq i body s) (hu : Issues i s → s.Smooth u)
    (hb : Issues i s → Clean i m s → body (s.begun i) = u.withLatch (s.begun i).latch) : Effect i s m u := fun hI hF hC =>
  have smooth := hu hI
  issueSeq_effect hx hI (hb hI hC) smooth.latch smooth.debt smooth.status (smooth.flows _ hF)

/-! ### An operation goes on its way (R240, R261) -/
theorem Inner.dropL1 (core : CoreId) (who : Who) (va : Nat) : Inner fun s => s.dropL1 core who va := ⟨fun _ => rfl, fun _ _ => rfl⟩
/-- The operation that a lane sends, with its number. -/
def State.basinOf (s : State) (op : BasinOp) (leaf : Dword) (pa : Nat) (va : Dword) (v : Word) (n : Nat) : Basin :=
  { id := n, gid := s.g.gid, core := s.g.core, op := op, pa := pa, va := vaOf va, leaf := leaf, part := s.me.part, asid := s.me.asid, value := v }
/-- A number that no operation under way has. -/
def State.nextBasin (s : State) : Nat := (s.basins.map (·.id)).foldl max 0 + 1
/-- What sending does to translations and copies. -/
def State.basinWay (s : State) (leaf : Dword) (pa : Nat) (va : Dword) : State := (s.addTlb s.me leaf pa (vaOf va)).dropL1 s.g.core s.me (vaOf va)
theorem Inner.basinWay (who : Who) (core : CoreId) (leaf : Dword) (pa va : Nat) : Inner fun s => (s.addTlb who leaf pa va).dropL1 core who va :=
  (Inner.dropL1 core who va).comp (.addTlb who leaf pa va)
theorem State.sendBasin_eq (s : State) (op : BasinOp) (leaf : Dword) (pa : Nat) (va : Dword) (v : Word) :
    s.sendBasin op leaf pa va v = { s.basinWay leaf pa va with basins := s.basins ++ [s.basinOf op leaf pa va v s.nextBasin] } := by
  have hk : s.basinWay leaf pa va = s.stored (s.basinWay leaf pa va) := (Inner.basinWay s.me s.g.core leaf pa (vaOf va)).keeps s
  have ht : s.addTlb s.me leaf pa (vaOf va) = s.stored (s.addTlb s.me leaf pa (vaOf va)) := (Inner.addTlb s.me leaf pa (vaOf va)).keeps s
  unfold State.sendBasin State.basinWay State.basinOf State.nextBasin
  rw [ht]
  rfl

theorem State.basinWay_latchBlind (leaf : Dword) (pa : Nat) (va : Dword) : LatchBlind fun s => s.basinWay leaf pa va := fun s L =>
  (Inner.basinWay s.me s.g.core leaf pa (vaOf va)).latchBlind s L
theorem State.sendBasin_latchBlind (op : BasinOp) (leaf : Dword) (pa : Nat) (va : Dword) (v : Word) : LatchBlind fun s => s.sendBasin op leaf pa va v :=
  fun s L => by
    have hw : (s.withLatch L).basinWay leaf pa va = (s.basinWay leaf pa va).withLatch L := State.basinWay_latchBlind leaf pa va s L
    change (s.withLatch L).sendBasin op leaf pa va v = (s.sendBasin op leaf pa va v).withLatch L
    rw [State.sendBasin_eq, State.sendBasin_eq, hw]
    rfl
theorem State.basinWay_stored (s : State) (leaf : Dword) (pa : Nat) (va : Dword) : s.basinWay leaf pa va = s.stored (s.basinWay leaf pa va) :=
  (Inner.basinWay s.me s.g.core leaf pa (vaOf va)).keeps s
/-- An operation on its way leaves the groups and the launches alone. -/
theorem State.sendBasin_front (s : State) (op : BasinOp) (leaf : Dword) (pa : Nat) (va : Dword) (v : Word) :
    (s.sendBasin op leaf pa va v).latch = s.latch ∧ (s.sendBasin op leaf pa va v).g = s.g := by
  rw [State.sendBasin_eq, State.basinWay_stored]
  exact ⟨rfl, rfl⟩
theorem le_foldl_max (l : List Nat) (m : Nat) : m ≤ l.foldl max m ∧ ∀ a ∈ l, a ≤ l.foldl max m := by
  induction l generalizing m with
  | nil => exact ⟨le_rfl, fun _ h => absurd h List.not_mem_nil⟩
  | cons b l ih =>
    obtain ⟨hm, hl⟩ := ih (max m b)
    refine ⟨(le_max_left m b).trans hm, fun a ha => ?_⟩
    obtain rfl | ha := List.mem_cons.mp ha
    · exact (le_max_right m a).trans hm
    · exact hl a ha
theorem State.lt_nextBasin {s : State} {b : Basin} (h : b ∈ s.basins) : b.id < s.nextBasin :=
  Nat.lt_succ_of_le ((le_foldl_max _ 0).2 _ (List.mem_map_of_mem h))

/-! ### An operation reaches its stack (R280) -/
theorem Inner.toArray (who : Who) (va : Nat) : Inner fun s => s.toArray who va :=
  (Inner.dropRlc ..).comp ((Inner.dropL1 ..).comp (.evict _))
/-- The word at its place in the array, as the operation reads it. -/
def State.wordAt (s : State) (leaf : Dword) (pa : Nat) : Word := BitVec.ofNat 32 (leNat ((List.range 4).map fun k => s.dramByte leaf (pa + k)))
/-- The result is written over it. -/
def State.writeCombined (s : State) (part : Fin 16) (leaf : Dword) (pa : Nat) (x : Word) : State :=
  s.writeSector part leaf (pa / 128 * 128) (granuleBytes pa (leBytes 4 x.toNat))
theorem State.combineAt_eq (s : State) (part : Fin 16) (leaf : Dword) (pa : Nat) (op : BasinOp) (v : Word) :
    s.combineAt part leaf pa op v = if (s.arrayRead pa).poisoned pa then s.arrayRead pa
      else (s.arrayRead pa).writeCombined part leaf pa (op.combine ((s.arrayRead pa).wordAt leaf pa) v) := rfl
theorem Blind.poisoned (pa : Nat) : Blind fun s => s.poisoned pa := fun _ _ => rfl
theorem Blind.wordAt (leaf : Dword) (pa : Nat) : Blind fun s => s.wordAt leaf pa := fun _ _ => rfl
theorem Inner.combineAt (part : Fin 16) (leaf : Dword) (pa : Nat) (op : BasinOp) (v : Word) : Inner fun s => s.combineAt part leaf pa op v := by
  simp only [State.combineAt_eq]
  refine Inner.comp (f := fun s => s.arrayRead pa)
    (g := fun s => if s.poisoned pa then s else s.writeCombined part leaf pa (op.combine (s.wordAt leaf pa) v)) ?_ (.arrayRead pa)
  exact .ite (.poisoned pa) .id (Inner.of (f := fun x s => s.writeCombined part leaf pa (op.combine x v)) (.wordAt leaf pa) fun _ => .writeSector ..)
theorem Inner.performBasin (b : Basin) : Inner fun s => s.performBasin b := (Inner.combineAt ..).comp (.toArray ..)
theorem State.flushBasins_eq (s : State) (gid : Nat) : s.flushBasins gid =
    { (s.basins.filter fun b => b.gid = gid).foldl State.performBasin s with basins := s.basins.filter fun b => !decide (b.gid = gid) } := by
  unfold State.flushBasins
  rw [List.partition_eq_filter_filter]
  rfl
theorem State.flushBasins_latchBlind (gid : Nat) : LatchBlind fun s => s.flushBasins gid := fun s L => by
  have h := (Inner.foldl (s.basins.filter fun b => b.gid = gid) Inner.performBasin).latchBlind s L
  change (s.withLatch L).flushBasins gid = (s.flushBasins gid).withLatch L
  rw [State.flushBasins_eq, State.flushBasins_eq]
  exact congrArg (fun t : State => { t with basins := s.basins.filter fun b => !decide (b.gid = gid) }) h
theorem State.Smooth.flushBasins (s : State) (gid : Nat) : s.Smooth (s.flushBasins gid) := by
  obtain ⟨hg, -, hl⟩ := (Inner.foldl (s.basins.filter fun b => b.gid = gid) Inner.performBasin).front s
  rw [State.flushBasins_eq]
  exact .of_front (b := s.g.restartable) hl hg
theorem find?_basin {l : List Basin} {b : Basin} (h : b ∈ l) (hn : (l.map (·.id)).Nodup) : (l.find? fun x => x.id = b.id) = some b := by
  induction l with
  | nil => contradiction
  | cons x l ih =>
    obtain ⟨hx, hl⟩ := List.nodup_cons.mp hn
    obtain rfl | hb := List.mem_cons.mp h
    · exact List.find?_cons_of_pos (decide_eq_true rfl)
    · have hne : x.id ≠ b.id := fun e => hx (List.mem_map.mpr ⟨b, hb, e.symm⟩)
      rw [List.find?_cons_of_neg (by simpa using hne), ih hb hl]
theorem exec_basinPerform (bid : Nat) (s : State) : exec (.basinPerform bid) s = execBasinPerform bid s := rfl
theorem basinPerform_performs {s : State} {b : Basin} (h : b ∈ s.basins) (hn : (s.basins.map (·.id)).Nodup) :
    exec (.basinPerform b.id) s = .next { s.performBasin b with basins := s.basins.filter fun x => x.id ≠ b.id }.wake := by
  rw [exec_basinPerform, execBasinPerform, find?_basin h hn]

/-- Without lines in L2 and soft errors, performing an operation combines the word in the array. -/
theorem State.performBasin_combines {s : State} {b : Basin} (hl : s.l2 = []) (he : s.upsetBits = []) (hp : s.poisoned b.pa = false) :
    ∃ l1 rlc, s.performBasin b = ({ s with l1 := l1, rlc := rlc } : State).writeCombined b.part b.leaf b.pa (b.op.combine (s.wordAt b.leaf b.pa) b.value) := by
  have way : ∃ l1 rlc, s.toArray { core := b.core, part := b.part, asid := b.asid, gid := b.gid } b.va = { s with l1 := l1, rlc := rlc } := by
    unfold State.toArray
    rw [State.evict_clean (by rw [hl]; exact fun _ h => absurd h List.not_mem_nil), hl, List.filter_nil, ← hl]
    exact ⟨_, _, rfl⟩
  obtain ⟨l1, rlc, e⟩ := way
  refine ⟨l1, rlc, ?_⟩
  unfold State.performBasin
  rw [e, State.combineAt_eq, State.arrayRead_clean (by exact he)]
  exact if_neg (ne_true_of_eq_false hp)
theorem leBytes_getElem (n x k : Nat) (h : k < (leBytes n x).length) : (leBytes n x)[k] = BitVec.ofNat 8 (x / 256 ^ k) := by
  induction n generalizing x k with
  | zero => contradiction
  | succ n ih =>
    cases k with
    | zero => exact (congrArg (BitVec.ofNat 8) (Nat.div_one x)).symm
    | succ k =>
      refine (ih (x / 256) k (Nat.lt_of_succ_lt_succ h)).trans (congrArg (BitVec.ofNat 8) ?_)
      rw [Nat.div_div_eq_div_mul, Nat.pow_succ, Nat.mul_comm 256]
theorem leBytes_length (n x : Nat) : (leBytes n x).length = n := by
  induction n generalizing x with
  | zero => rfl
  | succ n ih => exact congrArg Nat.succ (ih (x / 256))
theorem ofNat_div_byte (w : Word) (k : Nat) : BitVec.ofNat 8 (w.toNat / 256 ^ k) = (w >>> (8 * k)).setWidth 8 := by
  apply BitVec.eq_of_toNat_eq
  rw [BitVec.toNat_setWidth, BitVec.toNat_ushiftRight, BitVec.toNat_ofNat, Nat.shiftRight_eq_div_pow, Nat.pow_mul]
theorem State.dramByte_performBasin {s : State} {b : Basin} (ha : b.pa % 4 = 0) (hl : s.l2 = []) (he : s.upsetBits = []) (hp : s.poisoned b.pa = false)
    (hd : leafDlog b.leaf = false) (a : Nat) :
    (s.performBasin b).dramByte b.leaf a = if b.pa ≤ a ∧ a - b.pa < 4
      then ((b.op.combine (s.wordAt b.leaf b.pa) b.value) >>> (8 * (a - b.pa))).setWidth 8 else s.dramByte b.leaf a := by
  obtain ⟨l1, rlc, e⟩ := State.performBasin_combines hl he hp
  generalize b.op.combine (s.wordAt b.leaf b.pa) b.value = x at e ⊢
  have hup : s.linkUp b.pa = true := by
    unfold State.poisoned at hp
    simp only [Bool.or_eq_false_iff, Bool.not_eq_false'] at hp
    exact hp.1.2
  have hlen := leBytes_length 4 x.toNat
  obtain ⟨d, e2⟩ := State.writeSector_of_unlogged ({ s with l1 := l1, rlc := rlc } : State) b.part (leaf := b.leaf) (spa := b.pa / 128 * 128)
    (granuleBytes b.pa (leBytes 4 x.toNat)) (State.linkUp_sector b.pa hup) hd
  have byte := State.dramWrite_granule_dramByte (s := { s with l1 := l1, rlc := rlc }) he b.leaf b.pa (leBytes 4 x.toNat) hup (by omega) a
  rw [e, State.writeCombined, e2]
  refine Eq.trans byte ?_
  by_cases hin : b.pa ≤ a ∧ a - b.pa < 4
  · rw [if_pos hin, ← ofNat_div_byte]
    exact (dif_pos ⟨hin.1, by omega⟩).trans (leBytes_getElem 4 x.toNat _ _)
  · rw [if_neg hin]
    exact dif_neg fun h => hin ⟨h.1, by omega⟩

/-! ### Where an access leads, as its word issues (R76) -/
section
variable {i : Instr} {s : State} (hI : Issues i s)
include hI
theorem Issues.begun_me : (s.begun i).me = s.me := by
  unfold State.me
  rw [hI.alone]
  rfl
theorem Issues.begun_resolve : (s.begun i).resolve = s.resolve := by
  have access : (s.begun i).access = s.access := Blind.access s (s.begun i)
  have lost : (s.begun i).farLost = s.farLost := by
    delta State.farLost
    rw [show (s.begun i).route? = s.route? from Blind.route? s (s.begun i)]
    rfl
  delta State.resolve
  rw [access, lost, hI.begun_me, show (s.begun i).heldLine = s.heldLine from rfl, show (s.begun i).answerOf = s.answerOf from rfl,
    show (s.begun i).window? = s.window? from rfl, show (s.begun i).myCtx = s.myCtx from rfl]
theorem Issues.begun_resolveG : (s.begun i).resolveG = s.resolveG := by
  have fatal : (s.begun i).orFatal = s.orFatal := by
    delta State.orFatal
    rw [hI.alone]
    rfl
  delta State.resolveG
  rw [hI.begun_resolve, fatal, hI.src, State.begun_src]
theorem Issues.begun_resolveSc : (s.begun i).resolveSc = s.resolveSc := by
  have page : (s.begun i).pageLeaf = s.pageLeaf := by
    delta State.pageLeaf
    rw [hI.begun_me, show (s.begun i).heldLine = s.heldLine from rfl, show (s.begun i).translate = s.translate from Blind.translate s (s.begun i)]
  delta State.resolveSc
  rw [hI.begun_resolveG, page]
theorem Issues.begun_offLimits : (s.begun i).offLimits (s.begun i).me = s.offLimits s.me := by
  rw [hI.begun_me]
  rfl
end

/-! ### The words (R240, R261) -/
/-- The operations of the lanes `ls`. -/
def State.sendBasins (s : State) (op : BasinOp) (leaf : Lane → Dword) (pa : Lane → Nat) (va : Lane → Dword) (v : Lane → Word) (ls : List Lane) : State :=
  ls.foldl (fun t L => t.sendBasin op (leaf L) (pa L) (va L) (v L)) s
section
variable (op : BasinOp) (leaf : Lane → Dword) (pa : Lane → Nat) (va : Lane → Dword) (v : Lane → Word) (ls : List Lane)
theorem State.sendBasins_latchBlind : LatchBlind fun s => s.sendBasins op leaf pa va v ls :=
  LatchBlind.foldl ls fun L => State.sendBasin_latchBlind op (leaf L) (pa L) (va L) (v L)
theorem State.sendBasins_front (s : State) : (s.sendBasins op leaf pa va v ls).latch = s.latch ∧ (s.sendBasins op leaf pa va v ls).g = s.g := by
  induction ls generalizing s with
  | nil => exact ⟨rfl, rfl⟩
  | cons L ls ih =>
    obtain ⟨hl, hg⟩ := s.sendBasin_front op (leaf L) (pa L) (va L) (v L)
    obtain ⟨kl, kg⟩ := ih (s.sendBasin op (leaf L) (pa L) (va L) (v L))
    exact ⟨kl.trans hl, kg.trans hg⟩
end
theorem parksOf_of_mem {m : Mask} {r : Lane → LRes} (write : Bool)
    (h : ∀ L : Lane, m.getLsbD L.val = true → ∃ leaf pa va, r L = .mem leaf pa va) : parksOf write m r = [] :=
  foldl_id _ _ _ fun b L hL => by
    obtain ⟨leaf, pa, va, e⟩ := h L ((mem_lanesOf m L).mp hL)
    rw [e]
theorem State.parkOn_nil (s : State) (i : Instr) : s.parkOn i [] = s := rfl

section
variable {s : State} {g : Bool} {d : VReg} {ad : GAddr} {leaf : Lane → Dword} {pa : Lane → Nat} {va : Lane → Dword} {op : BasinOp} {i : Instr}
  (hx : exec i s = basinWord i op g d ad s) (hr : s.g.region ≠ .trans)
  (hmem : ∀ L : Lane, (s.g.lanes g).getLsbD L.val = true →
    s.resolveSc ad L = .mem (leaf L) (pa L) (va L) ∧ s.offLimits s.me true (vaOf (va L)) 4 = false)
include hx hr hmem
theorem basinWord_effect : Effect i s (s.g.lanes g) (
    let t := s.sendBasins op leaf pa va (s.g.readV d) (lanesOf (s.g.lanes g))
    if stageDet s.myStage then t.flushBasins s.g.gid else t) := by
  obtain ⟨hlatch, hg⟩ := s.sendBasins_front op leaf pa va (s.g.readV d) (lanesOf (s.g.lanes g))
  have sent : s.Smooth (s.sendBasins op leaf pa va (s.g.readV d) (lanesOf (s.g.lanes g))) := .of_front (b := s.g.restartable) hlatch hg
  refine smooth_effect hx (fun _ => ?_) fun hI hC => ?_
  · dsimp only
    split
    · exact sent.trans (.flushBasins ..)
    · exact sent
  · have sound : (s.begun i).src.poisonIn i.names.vr (s.g.lanes g) = 0 := hC
    have lanes : s.g.lanes g &&& ~~~(0 : Mask) = s.g.lanes g := BitVec.and_allOnes
    have calm : ∀ L : Lane, (s.g.lanes g).getLsbD L.val = true → plainFault 0 (s.resolveSc ad) L = none := fun L hL => by
      unfold plainFault
      rw [(hmem L hL).1]
      exact if_neg (by simp)
    have parks : parksOf true (s.g.lanes g) (s.resolveSc ad) = [] := parksOf_of_mem true fun L hL => ⟨_, _, _, (hmem L hL).1⟩
    have sends : ∀ f : State → Lane → State,
        (∀ t, ∀ L ∈ lanesOf (s.g.lanes g), f t L = t.sendBasin op (leaf L) (pa L) (va L) (s.g.readV d L)) →
        (lanesOf (s.g.lanes g)).foldl f (s.begun i) =
          (s.sendBasins op leaf pa va (s.g.readV d) (lanesOf (s.g.lanes g))).withLatch (s.begun i).latch := fun f hf =>
      (foldl_congr_mem _ _ _ _ hf).trans (State.sendBasins_latchBlind op leaf pa va (s.g.readV d) (lanesOf (s.g.lanes g)) s _)
    dsimp only
    rw [State.begun_lanes, sound, lanes, if_neg (show (s.begun i).g.region ≠ .trans from hr), hI.begun_resolveSc, raiseEach_none _ _ _ calm, parks,
      State.parkOn_nil, hI.begun_offLimits, State.begun_src, sends]
    · change (if stageDet s.myStage then State.flushBasins _ s.g.gid else _) = _
      split
      · exact State.flushBasins_latchBlind s.g.gid _ _
      · rfl
    · intro t L hL
      obtain ⟨hm, ho⟩ := hmem L ((mem_lanesOf _ L).mp hL)
      rw [hm]
      dsimp only
      rw [ho]
      rfl
end
theorem exec_baddS32 (g : Bool) (d : VReg) (ad : GAddr) (s : State) : exec (.baddS32 g d ad) s = basinWord (.baddS32 g d ad) .addS32 g d ad s := rfl
theorem exec_baddF32 (g : Bool) (d : VReg) (ad : GAddr) (s : State) : exec (.baddF32 g d ad) s = basinWord (.baddF32 g d ad) .addF32 g d ad s := rfl
theorem exec_baddBf16x2 (g : Bool) (d : VReg) (ad : GAddr) (s : State) :
    exec (.baddBf16x2 g d ad) s = basinWord (.baddBf16x2 g d ad) .addBf16 g d ad s := rfl
theorem exec_bmaxF32 (g : Bool) (d : VReg) (ad : GAddr) (s : State) : exec (.bmaxF32 g d ad) s = basinWord (.bmaxF32 g d ad) .maxF32 g d ad s := rfl
theorem exec_bminF32 (g : Bool) (d : VReg) (ad : GAddr) (s : State) : exec (.bminF32 g d ad) s = basinWord (.bminF32 g d ad) .minF32 g d ad s := rfl

theorem basinWords : Clause.BasinWords := by
  refine ⟨fun s g d ad leaf pa va => ?_, fun s op leaf va pa v => ⟨s.nextBasin, ?_, fun b hb => (State.lt_nextBasin hb).ne⟩,
    fun s b => basinPerform_performs, fun s b ha hl he hp hd => ⟨State.dramByte_performBasin ha hl he hp hd, fun h => by rw [h]; rfl⟩⟩
  · intro m hr hmem sent does
    have word : ∀ {i : Instr} {op : BasinOp}, exec i s = basinWord i op g d ad s → does i op := fun {i op} hx => by
      have effect := basinWord_effect hx hr hmem
      refine ⟨fun h => ?_, fun h => ?_⟩
      · rwa [stageDet, h, if_neg Bool.false_ne_true] at effect
      · rwa [stageDet, h, if_pos rfl] at effect
    exact ⟨word (exec_baddS32 g d ad s), word (exec_baddF32 g d ad s), word (exec_baddBf16x2 g d ad s), word (exec_bmaxF32 g d ad s),
      word (exec_bminF32 g d ad s)⟩
  · rw [State.sendBasin_eq]
    rfl

end
end Sys2Proof.Machine
end

