-- ==== Sys2Proof/Proofs/Queues.lean ====
section
/-!
PROOFS. Proofs/Queues.lean: what the end of a region leaves alone (R36), records that come to a stage's queue and leave it (R125, R239), and
the queue words (R123, R124, R259, R260, R262).
-/
namespace Sys2Proof.Machine
noncomputable section

/-! ### What a region's end leaves (R36) -/
/-- The issuing group's launch, workgroup and registers stand as they were. -/
structure State.SameWork (s t : State) : Prop where
  latch : t.latch = s.latch
  g : t.g = { s.g with restartable := t.g.restartable }
  w : t.w = s.w
  launches : t.launches = s.launches
  ctxs : t.ctxs = s.ctxs
theorem State.SameWork.refl (s : State) : s.SameWork s := ⟨rfl, rfl, rfl, rfl, rfl⟩
theorem State.SameWork.trans {s t u : State} (h : s.SameWork t) (h' : t.SameWork u) : s.SameWork u :=
  ⟨h'.latch.trans h.latch, h'.g.trans (by rw [h.g]), h'.w.trans h.w, h'.launches.trans h.launches, h'.ctxs.trans h.ctxs⟩
theorem Inner.sameWork {f : State → State} (hf : Inner f) (s : State) : s.SameWork (f s) := by
  rw [hf.keeps s]
  exact ⟨rfl, rfl, rfl, rfl, rfl⟩
section
variable {s t : State} (h : s.SameWork t)
include h
theorem State.SameWork.smooth : s.Smooth t := .of_front h.latch h.g
theorem State.SameWork.myLid : t.myLid = s.myLid := by
  unfold State.myLid
  rw [h.g, h.w]
theorem State.SameWork.myLaunch : t.myLaunch = s.myLaunch := by
  unfold State.myLaunch State.launch?
  rw [h.launches, h.myLid]
theorem State.SameWork.myCtx : t.myCtx = s.myCtx := congrArg Launch.ctx h.myLaunch
theorem State.SameWork.who : t.who = s.who := by
  delta State.who State.ctxDesc State.ctx?
  rw [h.ctxs]
theorem State.SameWork.readS : t.g.readS = s.g.readS := by rw [h.g]; rfl
theorem State.SameWork.readV : t.g.readV = s.g.readV := by rw [h.g]; rfl
theorem State.SameWork.lanes (g : Bool) : t.g.lanes g = s.g.lanes g := by rw [h.g]; rfl
theorem State.SameWork.poisonIn : t.g.poisonIn = s.g.poisonIn := by rw [h.g]; rfl
end
section
variable {s : State} (hr : s.g.status = .ready) (hn : ∀ x ∈ s.others, x.gid ≠ s.g.gid)
include hr hn
/-- A held store does not reach the registers of a group that runs. -/
theorem State.performHeld_sameWork (core : CoreId) (h : Held) :
    s.SameWork (s.performHeld core h) ∧ ∀ x ∈ (s.performHeld core h).others, x.gid ≠ s.g.gid := by
  cases hw : h.win with
  | none =>
    have inner := Inner.performHeld core hw
    exact ⟨inner.sameWork s, by rw [(inner.front s).2.1]; exact hn⟩
  | some off =>
    obtain ⟨hnone, hsome⟩ := State.performHeld_of_window (s := s) core hw
    cases hg : s.window? h.ctx off true with
    | none =>
      rw [hnone hg]
      exact ⟨.refl s, hn⟩
    | some g =>
      obtain ⟨-, hgrp, -, hst⟩ := State.window?_some hg
      have other : s.g.gid ≠ g.gid := by
        obtain rfl | hm := List.mem_cons.mp (State.winGroup_some hgrp).1
        · obtain e | e := hst rfl <;> exact absurd (hr.symm.trans e) (by decide)
        · exact (hn g hm).symm
      have front : (s.updGroup g.gid (Group.windowed s (winOf off) (BitVec.ofNat 32 (leNat h.bytes)))).g = s.g := if_neg other
      rw [hsome g hg]
      refine ⟨⟨rfl, by rw [front], rfl, rfl, rfl⟩, fun x hx => ?_⟩
      obtain ⟨y, hy, rfl⟩ := List.mem_map.mp hx
      split
      · rw [Group.windowed_gid]
        exact hn y hy
      · exact hn y hy
theorem State.committed_sameWork (core : CoreId) (l rest : List Held) : s.SameWork (s.committed core l rest) := by
  have fold : ∀ t : State, s.SameWork t → (∀ x ∈ t.others, x.gid ≠ s.g.gid) → s.SameWork (l.foldl (fun t h => t.performHeld core h) t) := by
    induction l with
    | nil => exact fun t h _ => h
    | cons h l ih =>
      intro t ht ho
      have gid : t.g.gid = s.g.gid := by rw [ht.g]
      obtain ⟨hs, hx⟩ := State.performHeld_sameWork (s := t) (by rw [ht.g]; exact hr) (gid ▸ ho) core h
      exact ih _ (ht.trans hs) (gid ▸ hx)
  exact fold _ ⟨rfl, rfl, rfl, rfl, rfl⟩ hn
end
theorem State.endTransaction_of_open {s : State} (h : s.g.region ≠ .trans) : s.endTransaction = s := if_neg h
theorem State.endTransaction_latchBlind : LatchBlind State.endTransaction := fun s L => by
  by_cases hr : s.g.region = .trans
  · have hb := State.committed_latchBlind s.g.core (s.core? s.g.core).commit [] s L
    have e := endTransaction_eq (s := s.withLatch L) hr
    dsimp only at e hb
    rw [show State.committed (s.withLatch L) (s.withLatch L).g.core ((s.withLatch L).core? (s.withLatch L).g.core).commit [] = _ from hb] at e
    rw [e, endTransaction_eq hr]
    rfl
  · rw [State.endTransaction_of_open hr]
    exact State.endTransaction_of_open hr
theorem State.endTransaction_sameWork {s : State} (hr : s.g.status = .ready) (hn : s.g.region = .trans → ∀ x ∈ s.others, x.gid ≠ s.g.gid) :
    s.SameWork s.endTransaction := by
  by_cases ht : s.g.region = .trans
  · rw [endTransaction_eq ht]
    have h := State.committed_sameWork hr (hn ht) s.g.core (s.core? s.g.core).commit []
    refine ⟨h.latch, ?_, h.w, h.launches, h.ctxs⟩
    dsimp only
    rw [h.g]
  · rw [State.endTransaction_of_open ht]
    exact .refl s

/-! ### The device's own reads -/
theorem Inner.devSee (who : Who) (va n : Nat) : Inner fun s => s.devSee who va n := by
  refine .foldl _ fun k => ?_
  refine Inner.of (v := fun s : State => s.access who.home (BitVec.ofNat 64 (if k = 0 then va else va / 128 * 128 + 128 * k)) 1 { tags := false })
    (f := fun a s => match a with
      | .ok _ pa false => (s.readWalk who.home (if k = 0 then va else va / 128 * 128 + 128 * k)).arrayRead pa
      | _ => s) (Blind.access.of fun f => f who.home (BitVec.ofNat 64 (if k = 0 then va else va / 128 * 128 + 128 * k)) 1 { tags := false }) fun a => ?_
  cases a with
  | ok leaf pa held =>
    cases held with
    | true => exact .id
    | false => exact (Inner.arrayRead pa).comp (.readWalk ..)
  | _ => exact .id
theorem Blind.devByte : Blind State.devByte := fun s t => by
  delta State.devByte
  rw [Blind.access s t, show (s.fronted t).sick = s.sick from rfl, show (s.fronted t).viewByte = s.viewByte from rfl]
  rfl
theorem Blind.devWord : Blind State.devWord := fun s t => by
  delta State.devWord State.devRead
  rw [Blind.devByte s t]
theorem State.devWord_withLatch (s : State) (L : Latch) : (s.withLatch L).devWord = s.devWord := Blind.devWord s (s.withLatch L)

/-! ### Records come (R239, R259) -/
/-- The stage of a launch, as queue words look at it. -/
def State.stageAt (s : State) (lid k : Nat) : Stage := ((s.launch? lid).getD {}).stage k
section
variable {s : State} {lid ctx k : Nat} {r : List Word}
theorem State.pushOf_chip (h : (s.stageAt lid k).queue.length < stageChip (s.stageAt lid k)) :
    s.pushOf lid ctx k r = some (s.updLaunch lid (Launch.updStage k fun st => { st with queue := st.queue ++ [r] })).wake := if_pos h
variable (hc : stageChip (s.stageAt lid k) ≤ (s.stageAt lid k).queue.length)
include hc
theorem State.pushOf_ring (h : (s.stageAt lid k).ringCount < stageRing (s.stageAt lid k)) :
    s.pushOf lid ctx k r = some ((s.devPuts (s.who ctx 0 0) (ringAt (s.stageAt lid k) ((s.stageAt lid k).ringHead + (s.stageAt lid k).ringCount)) r).updLaunch lid
      (Launch.updStage k fun st => { st with ringCount := st.ringCount + 1 })).wake :=
  (if_neg (Nat.not_lt.mpr hc)).trans (if_pos h)
theorem State.pushOf_full (h : stageRing (s.stageAt lid k) ≤ (s.stageAt lid k).ringCount) : s.pushOf lid ctx k r = none :=
  (if_neg (Nat.not_lt.mpr hc)).trans (if_neg (Nat.not_lt.mpr h))
end
section
variable (s : State) (lid ctx k : Nat) (r : List Word)
/-- A push, by where the record finds room. -/
theorem State.pushOf_cases :
    (s.stageAt lid k).queue.length < stageChip (s.stageAt lid k) ∨
    stageChip (s.stageAt lid k) ≤ (s.stageAt lid k).queue.length ∧ (s.stageAt lid k).ringCount < stageRing (s.stageAt lid k) ∨
    stageChip (s.stageAt lid k) ≤ (s.stageAt lid k).queue.length ∧ stageRing (s.stageAt lid k) ≤ (s.stageAt lid k).ringCount := by omega
theorem State.pushOf_withLatch (L : Latch) : (s.withLatch L).pushOf lid ctx k r = (s.pushOf lid ctx k r).map (·.withLatch L) := by
  obtain h | ⟨hc, h⟩ | ⟨hc, h⟩ := s.pushOf_cases lid k
  · rw [State.pushOf_chip h, State.pushOf_chip (s := s.withLatch L) h]
    rfl
  · have blind := (Inner.devPuts (s.who ctx 0 0) (ringAt (s.stageAt lid k) ((s.stageAt lid k).ringHead + (s.stageAt lid k).ringCount)) r).latchBlind s L
    rw [State.pushOf_ring hc h, State.pushOf_ring (s := s.withLatch L) hc h]
    exact congrArg (fun t : State => some (t.updLaunch lid (Launch.updStage k fun st => { st with ringCount := st.ringCount + 1 })).wake) blind
  · rw [State.pushOf_full hc h, State.pushOf_full (s := s.withLatch L) hc h]
    rfl
theorem State.updLaunch_smooth (lid : Nat) (f : Launch → Launch) : s.Smooth (s.updLaunch lid f) := .of_front (b := s.g.restartable) rfl rfl
theorem State.pushOf_smooth {t : State} (h : s.pushOf lid ctx k r = some t) : s.Smooth t := by
  obtain hc | ⟨hc, hr⟩ | ⟨hc, hr⟩ := s.pushOf_cases lid k
  · rw [State.pushOf_chip hc] at h
    obtain rfl := Option.some.inj h
    exact (s.updLaunch_smooth ..).trans (.wake _)
  · rw [State.pushOf_ring hc hr] at h
    obtain rfl := Option.some.inj h
    exact ((Inner.devPuts ..).smooth s).trans ((State.updLaunch_smooth ..).trans (.wake _))
  · rw [State.pushOf_full hc hr] at h
    contradiction
theorem State.push_withLatch (L : Latch) : (s.withLatch L).push k r = (s.push k r).map (·.withLatch L) := s.pushOf_withLatch s.myLid s.myCtx k r L
end

/-! ### Records go (R125, R260) -/
/-- The record that leaves, among those on chip and the ring's oldest. -/
def State.leavingAt (s : State) (lid k n : Nat) : Nat :=
  s.free 6 n % ((s.stageAt lid k).queue.length + (if (s.stageAt lid k).ringCount = 0 then 0 else 1))
/-- Record `r`, the j-th on chip, has left. -/
def State.leftChip (s : State) (lid k j : Nat) (r : List Word) : State :=
  (s.updLaunch lid (Launch.updStage k fun st => { st with queue := st.queue.eraseIdx j, quads := st.quads.erase r })).wake
/-- The state once the ring's oldest record has been read. -/
def State.seenRing (s : State) (ctx : Nat) (st : Stage) : State := s.devSee (s.who ctx 0 0) (ringAt st st.ringHead) (4 * stageWidth st)
/-- The words at the oldest record's place, as the device sees them. -/
def State.ringWords (s : State) (ctx : Nat) (st : Stage) : List Word :=
  (List.range (stageWidth st)).map fun i => s.devWord (s.who ctx 0 0) (ringAt st st.ringHead + 4 * i)
/-- The ring's oldest record. -/
def State.ringRecord (s : State) (ctx : Nat) (st : Stage) : List Word := (s.seenRing ctx st).ringWords ctx st
theorem State.ringRecord_eq (s : State) (ctx : Nat) (st : Stage) :
    s.ringRecord ctx st = (List.range (stageWidth st)).map fun i => (s.seenRing ctx st).devWord (s.who ctx 0 0) (ringAt st st.ringHead + 4 * i) := by
  unfold State.ringRecord State.ringWords
  rw [show (s.seenRing ctx st).who = s.who from ((Inner.devSee ..).sameWork s).who]
/-- The ring's oldest record has left. -/
def State.leftRing (s : State) (lid ctx k : Nat) (st : Stage) : State :=
  ((s.seenRing ctx st).updLaunch lid (Launch.updStage k fun u =>
    { u with ringHead := (u.ringHead + 1) % stageRing u, ringCount := u.ringCount - 1, quads := u.quads.erase (s.ringRecord ctx st) })).wake
section
variable {s : State} {lid ctx k n : Nat}
theorem State.popOf_chip {r : List Word} (h : (s.stageAt lid k).queue[s.leavingAt lid k n]? = some r) :
    s.popOf lid ctx k n = some (r, s.leftChip lid k (s.leavingAt lid k n) r) := by
  unfold State.popOf
  change (match (s.stageAt lid k).queue[s.leavingAt lid k n]? with | some r => _ | none => _) = _
  rw [h]
  rfl
variable (h : (s.stageAt lid k).queue[s.leavingAt lid k n]? = none)
include h
theorem State.popOf_empty (hr : (s.stageAt lid k).ringCount = 0) : s.popOf lid ctx k n = none := by
  unfold State.popOf
  change (match (s.stageAt lid k).queue[s.leavingAt lid k n]? with | some r => _ | none => _) = _
  rw [h]
  exact if_pos hr
theorem State.popOf_ring (hr : (s.stageAt lid k).ringCount ≠ 0) :
    s.popOf lid ctx k n = some (s.ringRecord ctx (s.stageAt lid k), s.leftRing lid ctx k (s.stageAt lid k)) := by
  unfold State.popOf
  change (match (s.stageAt lid k).queue[s.leavingAt lid k n]? with | some r => _ | none => _) = _
  rw [h]
  exact if_neg hr
end
/-- `r` is a record of the issuing group's stage `k`, and `t` the state once it has left. -/
def State.Pops (s : State) (k : Nat) (r : List Word) (t : State) : Prop :=
  (∃ j, (s.myLaunch.stage k).queue[j]? = some r ∧ t = s.leftChip s.myLid k j r) ∨
  (s.myLaunch.stage k).ringCount ≠ 0 ∧ r = s.ringRecord s.myCtx (s.myLaunch.stage k) ∧ t = s.leftRing s.myLid s.myCtx k (s.myLaunch.stage k)
section
variable {s : State} {k : Nat}
theorem State.seenRing_withLatch (s : State) (ctx : Nat) (st : Stage) (L : Latch) : (s.withLatch L).seenRing ctx st = (s.seenRing ctx st).withLatch L :=
  (Inner.devSee ..).latchBlind s L
theorem State.ringRecord_withLatch (s : State) (ctx : Nat) (st : Stage) (L : Latch) : (s.withLatch L).ringRecord ctx st = s.ringRecord ctx st := by
  rw [State.ringRecord_eq, State.ringRecord_eq, State.seenRing_withLatch, State.devWord_withLatch, show (s.withLatch L).who = s.who from rfl]
theorem State.updLaunch_withLatch (s : State) (L : Latch) (lid : Nat) (f : Launch → Launch) :
    (s.withLatch L).updLaunch lid f = (s.updLaunch lid f).withLatch L := rfl
theorem State.wake_withLatch (s : State) (L : Latch) : (s.withLatch L).wake = s.wake.withLatch L := rfl
theorem State.leftRing_withLatch (s : State) (lid ctx k : Nat) (st : Stage) (L : Latch) :
    (s.withLatch L).leftRing lid ctx k st = (s.leftRing lid ctx k st).withLatch L := by
  unfold State.leftRing
  rw [State.seenRing_withLatch, State.ringRecord_withLatch, State.updLaunch_withLatch, State.wake_withLatch]
/-- A stage that holds a record gives one, whatever the latch. -/
theorem State.pop_pops (h : ¬((s.myLaunch.stage k).queue = [] ∧ (s.myLaunch.stage k).ringCount = 0)) :
    ∃ r t, s.Pops k r t ∧ ∀ L, (s.withLatch L).pop k = some (r, t.withLatch L) := by
  cases hj : (s.stageAt s.myLid k).queue[s.leavingAt s.myLid k 0]? with
  | some r => exact ⟨r, _, .inl ⟨_, hj, rfl⟩, fun L => State.popOf_chip (s := s.withLatch L) hj⟩
  | none =>
    have hr : (s.stageAt s.myLid k).ringCount ≠ 0 := fun hr => by
      have hq : (s.stageAt s.myLid k).queue.length ≠ 0 := fun e => h ⟨List.length_eq_zero_iff.mp e, hr⟩
      have hle := List.getElem?_eq_none_iff.mp hj
      unfold State.leavingAt at hle
      rw [if_pos hr] at hle
      exact absurd (Nat.mod_lt _ (Nat.pos_of_ne_zero hq)) (Nat.not_lt.mpr hle)
    refine ⟨_, _, .inr ⟨hr, rfl, rfl⟩, fun L => (State.popOf_ring (s := s.withLatch L) hj hr).trans ?_⟩
    rw [State.ringRecord_withLatch, State.leftRing_withLatch]
    rfl
theorem State.pop_empty (hq : (s.myLaunch.stage k).queue = []) (hr : (s.myLaunch.stage k).ringCount = 0) : s.pop k = none :=
  State.popOf_empty (by rw [show (s.stageAt s.myLid k).queue = [] from hq]; rfl) hr
theorem State.Pops.smooth {r : List Word} {t : State} (h : s.Pops k r t) : s.Smooth t := by
  obtain ⟨j, -, rfl⟩ | ⟨-, -, rfl⟩ := h
  · exact (s.updLaunch_smooth ..).trans (.wake _)
  · exact ((Inner.devSee ..).smooth s).trans ((State.updLaunch_smooth ..).trans (.wake _))
end

/-! ### Queue words (R259, R260) -/
theorem exec_qpush (d : SReg) (q : QReg) (b : SReg) (s : State) : exec (.qpush d q b) s = execQpush d q b s := rfl
theorem exec_qpop (d : SReg) (q : QReg) (s : State) : exec (.qpop d q) s = execQpop d q s := rfl
theorem exec_qpoll (d : SReg) (q : QReg) (s : State) : exec (.qpoll d q) s = execQpoll d q s := rfl
theorem exec_qpopTake (gid : Nat) (k : Fin 2) (s : State) : exec (.qpopTake gid k) s = execQpopTake gid k s := rfl
/-- Scalars that are neither awaited nor poisoned hold nothing back. -/
theorem State.withScalars_of_sound {s : State} {reads writes : List SReg} (f : State → State)
    (hp : s.src.regs.pending &&& regBits (reads ++ writes) = 0) (hs : s.src.regs.spois &&& regBits reads = 0) : s.withScalars reads writes f = f s :=
  (if_neg (not_not.mpr hp)).trans (if_neg (not_not.mpr hs))
theorem State.Smooth.dropCopies (s : State) (level : Nat) : s.Smooth (s.dropCopies level) := .of_front (b := s.g.restartable) rfl rfl
theorem State.queueBad_of_unbound {s : State} {q : QReg} (h : s.boundQueue q = none) (r extra : Nat) : s.queueBad q r extra = true := by
  unfold State.queueBad
  rw [h]
theorem State.begun_endTransaction (s : State) (i : Instr) : (s.begun i).endTransaction = s.endTransaction.withLatch (s.begun i).latch :=
  State.endTransaction_latchBlind s _
/-- A record is offered to a stage's queue, and S[d] tells whether there was room. -/
def State.offer (s : State) (k : Nat) (r : List Word) (d : SReg) : State :=
  match s.push k r with
  | some t => t.setS d 1
  | none => s.setS d 0
section
variable (k : Nat) (r : List Word) (d : SReg)
theorem State.offer_of_room {s t : State} (h : s.push k r = some t) : s.offer k r d = t.setS d 1 := by
  unfold State.offer
  rw [h]
theorem State.offer_of_full {s : State} (h : s.push k r = none) : s.offer k r d = s.setS d 0 := by
  unfold State.offer
  rw [h]
theorem State.offer_latchBlind : LatchBlind fun s => s.offer k r d := fun s L => by
  have hp := s.push_withLatch k r L
  change (s.withLatch L).offer k r d = (s.offer k r d).withLatch L
  cases ht : s.push k r with
  | some t =>
    rw [ht] at hp
    rw [State.offer_of_room k r d hp, State.offer_of_room k r d ht, setS_latch]
  | none =>
    rw [ht] at hp
    rw [State.offer_of_full k r d hp, State.offer_of_full k r d ht, setS_latch]
theorem State.offer_smooth (s : State) : s.Smooth (s.offer k r d) := by
  cases ht : s.push k r with
  | some t =>
    rw [State.offer_of_room k r d ht]
    exact (s.pushOf_smooth _ _ k r ht).trans (.setSs t d [1])
  | none =>
    rw [State.offer_of_full k r d ht]
    exact .setSs s d [0]
end
section
variable {s : State} {d b : SReg} {q : QReg} {k : Nat}
theorem qpush_outlawed (h : s.queueBad q b.val 0 = true) : Outlawed (.qpush d q b) s := issueSeq_outlawed (exec_qpush d q b s) fun _ => h
theorem qpop_outlawed (h : s.queueBad q d.val 0 = true) : Outlawed (.qpop d q) s := issueSeq_outlawed (exec_qpop d q s) fun _ => h
theorem qpoll_outlawed (h : s.queueBad q d.val 1 = true) : Outlawed (.qpoll d q) s := issueSeq_outlawed (exec_qpoll d q s) fun _ => h
variable (hk : s.boundQueue q = some k)
include hk
theorem State.queueBad_of_bound {r extra : Nat} (h : 60 < r + stageWidth (s.myLaunch.stage k) + extra) : s.queueBad q r extra = true := by
  unfold State.queueBad
  rw [hk]
  exact decide_eq_true h
/-- `qpush` offers its record once the region has ended. -/
theorem qpush_effect (hn : s.g.region = .trans → ∀ h ∈ s.others, h.gid ≠ s.g.gid)
    (hp : s.g.regs.pending &&& regBits (regRun b (stageWidth (s.myLaunch.stage k))) = 0)
    (hs : s.g.regs.spois &&& regBits (regRun b (stageWidth (s.myLaunch.stage k))) = 0) :
    Effect (.qpush d q b) s 0 (s.endTransaction.offer k (s.g.readSs b (stageWidth (s.myLaunch.stage k))) d) := by
  refine smooth_effect (exec_qpush d q b s) (fun hI => (State.endTransaction_sameWork hI.ready hn).smooth.trans (State.offer_smooth ..)) fun hI _ => ?_
  have record : s.endTransaction.g.readSs b (stageWidth (s.myLaunch.stage k)) = s.g.readSs b (stageWidth (s.myLaunch.stage k)) := by
    delta Group.readSs
    rw [(State.endTransaction_sameWork hI.ready hn).readS]
  dsimp only
  rw [show (s.begun (.qpush d q b)).boundQueue q = some k from hk]
  dsimp only
  rw [State.withScalars_of_sound _ (by rw [List.append_nil]; exact hp) (by exact hs), s.begun_endTransaction, ← record]
  exact State.offer_latchBlind ..
variable (hp : s.g.regs.pending &&& regBits (regRun d (stageWidth (s.myLaunch.stage k))) = 0)
include hp
/-- `qpop` takes a record. -/
theorem qpop_effect {t : State} {r : List Word} (h : s.Pops k r t) (hpop : ∀ L, (s.withLatch L).pop k = some (r, t.withLatch L)) :
    Effect (.qpop d q) s 0 ((t.dropCopies 2).setSs d r) := by
  refine smooth_effect (exec_qpop d q s) (fun _ => h.smooth.trans ((State.Smooth.dropCopies t 2).trans (.setSs ..))) fun hI _ => ?_
  rw [show (s.begun (.qpop d q)).boundQueue q = some k from hk]
  dsimp only
  rw [State.withScalars_of_sound _ (by exact hp) BitVec.and_zero, State.tryPop, show (s.begun (.qpop d q)).pop k = _ from hpop _]
  exact setSs_latch (t.dropCopies 2) d r _
theorem qpop_waits (hq : (s.myLaunch.stage k).queue = []) (hr : (s.myLaunch.stage k).ringCount = 0) :
    Waits (.qpop d q) s fun u => u.waitFor (.pop d q) := by
  refine waits_of_stall (exec_qpop d q s) ?_ (waitFor_stall ..)
  rw [show (s.begun (.qpop d q)).boundQueue q = some k from hk]
  dsimp only
  rw [State.withScalars_of_sound _ (by exact hp) BitVec.and_zero, State.tryPop, State.pop_empty (by exact hq) (by exact hr)]
  rfl
omit hp
variable (hout : s.g.regs.pending &&& regBits (regRun d (stageWidth (s.myLaunch.stage k) + 1)) = 0)
include hout
theorem qpoll_effect {t : State} {r : List Word} (h : s.Pops k r t) (hpop : ∀ L, (s.withLatch L).pop k = some (r, t.withLatch L)) :
    Effect (.qpoll d q) s 0 ((t.dropCopies 2).setSs d (1 :: r)) := by
  refine smooth_effect (exec_qpoll d q s) (fun _ => h.smooth.trans ((State.Smooth.dropCopies t 2).trans (.setSs ..))) fun hI _ => ?_
  rw [show (s.begun (.qpoll d q)).boundQueue q = some k from hk]
  dsimp only
  rw [State.withScalars_of_sound _ (by exact hout) BitVec.and_zero, show (s.begun (.qpoll d q)).pop k = _ from hpop _]
  exact setSs_latch (t.dropCopies 2) d (1 :: r) _
theorem qpoll_empty (hq : (s.myLaunch.stage k).queue = []) (hr : (s.myLaunch.stage k).ringCount = 0) : GivesS (.qpoll d q) s d 0 := by
  refine smooth_effect (exec_qpoll d q s) (fun _ => .setSs s d [0]) fun hI _ => ?_
  rw [show (s.begun (.qpoll d q)).boundQueue q = some k from hk]
  dsimp only
  rw [State.withScalars_of_sound _ (by exact hout) BitVec.and_zero, State.pop_empty (by exact hq) (by exact hr)]
  exact setS_latch ..
end

/-! ### A waiting `qpop` completes (R260) -/
theorem State.onward_front {u : State} {len : Nat} (h : Flows u len) (h0 : u.latch.only = none) :
    (u.onward len).g.gid = u.g.gid ∧ (u.onward len).g.status = u.g.status := by
  obtain ⟨x, lc, la, e⟩ := u.advance_moves len h
  unfold State.onward
  rw [show u.advance len = _ from e u.latch h0]
  exact ⟨rfl, rfl⟩
theorem State.spillOut_of_ready {s : State} (hg : s.g.gid ≠ 0) (hr : s.g.status = .ready) : s.spillOut s.g.gid = s := by
  unfold State.spillOut
  rw [State.group?_self hg]
  simp [hr]
/-- The step that completes it does what the word would do. -/
theorem qpopTake_completes {s u : State} {d : SReg} {q : QReg} (hg : s.g.gid ≠ 0) (hw : s.myWait = .pop d q)
    (hc : ∀ l, s.g.me.leaf = some l → l.chained = false) (hd : stageDet s.myStage = false) (hI : Issues (.qpop d q) s)
    (hgo : GoesOn (.qpop d q) s u) (hF : Flows u 1) (hu : s.Smooth u) :
    exec (.qpopTake s.g.gid s.g.sel) s = .next (u.onward 1) := by
  obtain ⟨l, hl⟩ := Option.isSome_iff_exists.mp hI.leaf
  have hwait : l.wait = .pop d q := by
    unfold State.myWait at hw
    rwa [hl] at hw
  have hlatch : ({ s with latch := {} } : State) = s := by
    have e : s.latch = {} := hI.alone
    rw [← e]
  have hgo : execQpop d q s = .next (u.onward 1) := hgo
  obtain ⟨gid, status⟩ := State.onward_front hF (by rw [hu.latch, hI.alone])
  have spill := State.spillOut_of_ready (s := u.onward 1) (by rw [gid, hu.gid]; exact hg) (by rw [status, hu.status]; exact hI.ready)
  rw [gid, hu.gid] at spill
  rw [exec_qpopTake, execQpopTake]
  rw [State.focus_self, hl]
  dsimp only
  rw [hwait]
  dsimp only
  rw [hc l hl, hd, hlatch, hgo, if_neg (by simpa using hg)]
  exact congrArg Host.Outcome.next spill

/-! ### Records of lanes (R123, R124, R262) -/
section
variable (s : State) (k : Nat) (skip : Lane → Bool) (f : Lane → List Word) (L : Lane) (ls : List Lane)
/-- The record that a lane pushes. -/
def State.laneRecord (s : State) (k : Nat) (f : Lane → List Word) (L : Lane) : List Word := padTo (stageWidth (s.myLaunch.stage k)) (f L)
variable {s k skip f L ls}
theorem State.pushLanes_skip (h : skip L = true) :
    s.pushLanes k skip f (L :: ls) = ((s.pushLanes k skip f ls).1, (L.val, .t) :: (s.pushLanes k skip f ls).2) := if_pos h
theorem State.pushLanes_room {t : State} (h : skip L = false) (hp : s.push k (s.laneRecord k f L) = some t) :
    s.pushLanes k skip f (L :: ls) = ((t.pushLanes k skip f ls).1, (L.val, .t) :: (t.pushLanes k skip f ls).2) := by
  refine (if_neg (ne_true_of_eq_false h)).trans ?_
  rw [show s.push k (padTo (stageWidth (s.myLaunch.stage k)) (f L)) = some t from hp]
theorem State.pushLanes_full (h : skip L = false) (hp : s.push k (s.laneRecord k f L) = none) :
    s.pushLanes k skip f (L :: ls) = ((s.pushLanes k skip f ls).1, (L.val, .f) :: (s.pushLanes k skip f ls).2) := by
  refine (if_neg (ne_true_of_eq_false h)).trans ?_
  rw [show s.push k (padTo (stageWidth (s.myLaunch.stage k)) (f L)) = none from hp]
theorem State.pushLanes_withLatch (s : State) (k : Nat) (skip : Lane → Bool) (f : Lane → List Word) (ls : List Lane) (A : Latch) :
    (s.withLatch A).pushLanes k skip f ls = ((s.pushLanes k skip f ls).1.withLatch A, (s.pushLanes k skip f ls).2) := by
  induction ls generalizing s with
  | nil => rfl
  | cons L ls ih =>
    cases h : skip L with
    | true => rw [State.pushLanes_skip h, State.pushLanes_skip h, ih]
    | false =>
      have hp := s.push_withLatch k (s.laneRecord k f L) A
      cases ht : s.push k (s.laneRecord k f L) with
      | some t =>
        rw [ht] at hp
        rw [State.pushLanes_room h ht, State.pushLanes_room (s := s.withLatch A) h hp, ih]
      | none =>
        rw [ht] at hp
        rw [State.pushLanes_full h ht, State.pushLanes_full (s := s.withLatch A) h hp, ih]
theorem State.pushLanes_smooth (s : State) (k : Nat) (skip : Lane → Bool) (f : Lane → List Word) (ls : List Lane) :
    s.Smooth (s.pushLanes k skip f ls).1 := by
  induction ls generalizing s with
  | nil => exact .refl s
  | cons L ls ih =>
    cases h : skip L with
    | true =>
      rw [State.pushLanes_skip h]
      exact ih s
    | false =>
      cases ht : s.push k (s.laneRecord k f L) with
      | some t =>
        rw [State.pushLanes_room h ht]
        exact (s.pushOf_smooth _ _ k _ ht).trans (ih t)
      | none =>
        rw [State.pushLanes_full h ht]
        exact ih s
/-- Which lanes of the list are passed over decides. -/
theorem State.pushLanes_congr {skip' : Lane → Bool} (h : ∀ L ∈ ls, skip L = skip' L) : s.pushLanes k skip f ls = s.pushLanes k skip' f ls := by
  induction ls generalizing s with
  | nil => rfl
  | cons L ls ih =>
    have hl := h L (List.mem_cons_self ..)
    have ih : ∀ s : State, s.pushLanes k skip f ls = s.pushLanes k skip' f ls := fun s => ih fun K hK => h K (List.mem_cons_of_mem _ hK)
    cases hs : skip L with
    | true => rw [State.pushLanes_skip hs, State.pushLanes_skip (hl.symm.trans hs), ih]
    | false =>
      cases ht : s.push k (s.laneRecord k f L) with
      | some t => rw [State.pushLanes_room hs ht, State.pushLanes_room (hl.symm.trans hs) ht, ih]
      | none => rw [State.pushLanes_full hs ht, State.pushLanes_full (hl.symm.trans hs) ht, ih]
/-- Lanes that push nothing. -/
theorem State.pushLanes_none (h : ∀ L ∈ ls, skip L = true) : s.pushLanes k skip f ls = (s, ls.map fun L => (L.val, .t)) := by
  induction ls with
  | nil => rfl
  | cons L ls ih => rw [State.pushLanes_skip (h L (List.mem_cons_self ..)), ih fun K hK => h K (List.mem_cons_of_mem _ hK), List.map_cons]
/-- No lane finds room in a queue that is full. -/
theorem State.pushLanes_refused (hc : stageChip (s.myLaunch.stage k) ≤ (s.myLaunch.stage k).queue.length)
    (hr : stageRing (s.myLaunch.stage k) ≤ (s.myLaunch.stage k).ringCount) :
    s.pushLanes k (fun _ => false) f ls = (s, ls.map fun L => (L.val, .f)) := by
  induction ls with
  | nil => rfl
  | cons L ls ih => rw [State.pushLanes_full rfl (State.pushOf_full (by exact hc) (by exact hr)), ih, List.map_cons]
end

/-! Pushes on chip add up. -/
theorem Launch.updStage_updStage (k : Nat) (f g : Stage → Stage) (l : Launch) : (l.updStage k f).updStage k g = l.updStage k fun st => g (f st) := by
  unfold Launch.updStage
  dsimp only
  rw [List.mapIdx_mapIdx]
  congr 2
  funext i st
  dsimp only [Function.comp]
  split <;> rfl
theorem Launch.updStage_lid (k : Nat) (f : Stage → Stage) (l : Launch) : (l.updStage k f).lid = l.lid := rfl
theorem State.updLaunch_updLaunch (s : State) (lid : Nat) {f g : Launch → Launch} (hf : ∀ l, (f l).lid = l.lid) :
    (s.updLaunch lid f).updLaunch lid g = s.updLaunch lid fun l => g (f l) := by
  have same : ∀ l : Launch, (if (if l.lid = lid then f l else l).lid = lid then g (if l.lid = lid then f l else l) else if l.lid = lid then f l else l) =
      if l.lid = lid then g (f l) else l := fun l => by
    by_cases h : l.lid = lid
    · rw [if_pos h, if_pos ((hf l).trans h), if_pos h]
    · rw [if_neg h, if_neg h, if_neg h]
  unfold State.updLaunch
  dsimp only
  rw [List.map_map]
  congr 1
  exact List.map_congr_left fun l _ => same l
theorem State.wake_queued (s : State) (k : Nat) (f : List (List Word) → List (List Word)) : s.wake.queued k f = (s.queued k f).wake := rfl
theorem State.wake_wake (s : State) : s.wake.wake = s.wake := by
  unfold State.wake
  dsimp only
  rw [List.map_map]
  rfl
theorem State.queued_queued (s : State) (k : Nat) (f g : List (List Word) → List (List Word)) :
    (s.queued k f).queued k g = s.queued k fun l => g (f l) := by
  refine (s.updLaunch_updLaunch s.myLid (Launch.updStage_lid k _)).trans ?_
  simp only [Launch.updStage_updStage]
  rfl
/-- The stage with other records, where it has a queue on chip. -/
theorem State.stage_queued {s : State} {k : Nat} (h : 0 < stageChip (s.myLaunch.stage k)) (f : List (List Word) → List (List Word)) :
    (s.queued k f).myLaunch.stage k = { s.myLaunch.stage k with queue := f (s.myLaunch.stage k).queue } := by
  have found : (s.queued k f).launch? s.myLid = (s.launch? s.myLid).map fun l => if l.lid = s.myLid then l.updStage k fun st => { st with queue := f st.queue } else l := by
    have e := find?_map_ite (p := fun l : Launch => l.lid = s.myLid) (q := fun l : Launch => l.lid = s.myLid)
      (f := Launch.updStage k fun st => { st with queue := f st.queue }) s.launches fun l _ => rfl
    simp only [decide_eq_true_eq] at e
    exact e
  have none_empty : stageChip ((({} : Launch).stages[k]?).getD {}) = 0 := by
    rw [show ({} : Launch).stages = [] from rfl, List.getElem?_nil]
    rfl
  unfold State.myLaunch at h ⊢
  rw [show (s.queued k f).myLid = s.myLid from rfl, found]
  cases hl : s.launch? s.myLid with
  | none =>
    rw [hl] at h
    exact absurd h (Nat.not_lt.mpr none_empty.le)
  | some l =>
    have lid : l.lid = s.myLid := by simpa using List.find?_some (show s.launches.find? (fun l => l.lid = s.myLid) = some l from hl)
    rw [hl] at h
    simp only [Option.map_some, Option.getD_some, if_pos lid] at h ⊢
    unfold Launch.stage at h ⊢
    cases hs : l.stages[k]? with
    | none =>
      rw [hs] at h
      exact absurd h (by decide)
    | some st => simp [Launch.updStage, hs]
/-- The on-chip part takes the records of all the lanes. -/
theorem State.pushLanes_chip {s : State} {k : Nat} {f : Lane → List Word} (L : Lane) (ls : List Lane)
    (h : (s.myLaunch.stage k).queue.length + (L :: ls).length ≤ stageChip (s.myLaunch.stage k)) :
    s.pushLanes k (fun _ => false) f (L :: ls) =
      ((s.queued k fun l => l ++ (L :: ls).map (s.laneRecord k f)).wake, (L :: ls).map fun L => (L.val, .t)) := by
  induction ls generalizing s L with
  | nil =>
    have hp : s.push k (s.laneRecord k f L) = some (s.queued k fun l => l ++ [s.laneRecord k f L]).wake :=
      State.pushOf_chip (by rw [List.length_singleton] at h; exact h)
    rw [State.pushLanes_room rfl hp]
    rfl
  | cons K ls ih =>
    rw [List.length_cons, List.length_cons] at h
    have hp : s.push k (s.laneRecord k f L) = some (s.queued k fun l => l ++ [s.laneRecord k f L]).wake :=
      State.pushOf_chip (show (s.myLaunch.stage k).queue.length < stageChip (s.myLaunch.stage k) by omega)
    have stage : (s.queued k fun l => l ++ [s.laneRecord k f L]).wake.myLaunch.stage k =
        { s.myLaunch.stage k with queue := (s.myLaunch.stage k).queue ++ [s.laneRecord k f L] } := State.stage_queued (by omega) _
    have record : (s.queued k fun l => l ++ [s.laneRecord k f L]).wake.laneRecord k f = s.laneRecord k f := by
      funext M
      change padTo (stageWidth ((s.queued k fun l => l ++ [s.laneRecord k f L]).wake.myLaunch.stage k)) (f M) = _
      rw [stage]
      rfl
    rw [State.pushLanes_room rfl hp, ih K (by
      rw [stage]
      change ((s.myLaunch.stage k).queue ++ [s.laneRecord k f L]).length + _ ≤ stageChip (s.myLaunch.stage k)
      rw [List.length_append, List.length_singleton, List.length_cons]
      omega), record, State.wake_queued, State.wake_wake, State.queued_queued]
    simp only [List.append_assoc, List.map_cons, List.cons_append, List.nil_append]
theorem lookup_lanes {ls : List Lane} {L : Lane} (v : PVal) (h : L ∈ ls) : (ls.map fun K => (K.val, v)).lookup L.val = some v := by
  induction ls with
  | nil => contradiction
  | cons K ls ih =>
    rw [List.map_cons, List.lookup_cons]
    obtain rfl | hm := List.mem_cons.mp h
    · rw [beq_self_eq_true]
    · split
      · rfl
      · exact ih hm

/-! ### Lane queue words (R123, R124, R262) -/
theorem exec_emit (g : Bool) (d : PReg) (a b : VReg) (s : State) :
    exec (.emit g d a b) s = pushWord (.emit g d a b) g d a b false State.emitTo s := rfl
theorem exec_spawn (g : Bool) (d : PReg) (a b : VReg) (s : State) :
    exec (.spawn g d a b) s = pushWord (.spawn g d a b) g d a b true State.spawnTo s := rfl
theorem emit_outlawed {s : State} {g : Bool} {d : PReg} {a b : VReg} (h : s.emitTo = none) : Outlawed (.emit g d a b) s :=
  issueSeq_outlawed (exec_emit g d a b s) fun _ => Option.isNone_iff_eq_none.mpr h
theorem spawn_outlawed {s : State} {g : Bool} {d : PReg} {a b : VReg} (h : s.spawnTo = none) : Outlawed (.spawn g d a b) s :=
  issueSeq_outlawed (exec_spawn g d a b s) fun _ => Option.isNone_iff_eq_none.mpr h
/-- The words of lane L in V[a], V[a + 1], V[b] and V[b + 1]. -/
def Group.laneWords (g : Machine.Group) (a b : VReg) (L : Lane) : List Word := [g.readV a L, g.readV (vreg a 1) L, g.readV b L, g.readV (vreg b 1) L]
/-- The state that the lanes' pushes leave, with P[d] telling which have found room. -/
def State.pushAll (s : State) (k : Nat) (d : PReg) (m : Mask) (skip : Lane → Bool) (f : Lane → List Word) : State :=
  (s.pushLanes k skip f (lanesOf m)).1.setP d m fun L => ((s.pushLanes k skip f (lanesOf m)).2.lookup L.val).getD .f
theorem maskOf_mem_lanesOf (m : Mask) : (maskOf fun L => (lanesOf m).any fun K => K = L) = m :=
  mask_ext fun L => by
    rw [maskOf_getLsbD, Bool.eq_iff_iff, List.any_eq_true, ← mem_lanesOf]
    simp
section
variable {s : State} {i : Instr} {g : Bool} {d : PReg} {a b : VReg} {spawn : Bool} {kf : State → Option Nat} {k : Nat}
theorem pushWord_effect (hx : exec i s = pushWord i g d a b spawn kf s) (hk : kf (s.begun i) = some k)
    (hn : s.g.region = .trans → ∀ h ∈ s.others, h.gid ≠ s.g.gid)
    (hv : ∀ L : Lane, (s.g.lanes g).getLsbD L.val = true → (spawn && decide (s.g.ivKind a L = .malformed)) = false) :
    Effect i s (s.g.lanes g) (s.endTransaction.pushAll k d (s.g.lanes g) (fun L => spawn && decide (s.g.ivKind a L = .empty)) (s.g.laneWords a b)) := by
  refine smooth_effect hx (fun hI => (State.endTransaction_sameWork hI.ready hn).smooth.trans
    ((State.pushLanes_smooth ..).trans (.setP ..))) fun hI hC => ?_
  have same := State.endTransaction_sameWork hI.ready hn
  have src : (s.endTransaction.withLatch (s.begun i).latch).src = s.endTransaction.g := rfl
  have lanes : (s.endTransaction.withLatch (s.begun i).latch).lanes g = s.g.lanes g := BitVec.and_allOnes.trans (same.lanes g)
  have sound : s.g.poisonIn i.names.vr (s.g.lanes g) = 0 := hC
  have whole : s.g.lanes g &&& ~~~(0 : Mask) = s.g.lanes g := BitVec.and_allOnes
  dsimp only
  rw [hk]
  dsimp only
  rw [s.begun_endTransaction, src, lanes, same.poisonIn, same.readV, sound, whole]
  have calm : ∀ L : Lane, (s.g.lanes g).getLsbD L.val = true →
      (if (0 : Mask).getLsbD L.val = true then some ((0x0D : Byte), (0 : Dword))
        else if (spawn && decide (s.g.ivKind a L = .malformed)) = true then some (0x0A, 0) else none) = none := fun L hL => by
    rw [if_neg (by simp), hv L hL]
    rfl
  have all : ((lanesOf (s.g.lanes g)).filter fun L => !(spawn && decide (s.g.ivKind a L = .malformed))) = lanesOf (s.g.lanes g) :=
    List.filter_eq_self.mpr fun L hL => by rw [hv L ((mem_lanesOf _ L).mp hL)]; rfl
  unfold Group.ivKind at calm all
  rw [raiseEach_none _ _ _ calm, all, maskOf_mem_lanesOf, State.pushLanes_withLatch]
  rfl
end
section
variable {s : State} {k : Nat} {d : PReg} {m : Mask} {skip : Lane → Bool} {f : Lane → List Word}
theorem State.pushAll_congr {skip' : Lane → Bool} (h : ∀ L : Lane, m.getLsbD L.val = true → skip L = skip' L) :
    s.pushAll k d m skip f = s.pushAll k d m skip' f := by
  unfold State.pushAll
  rw [State.pushLanes_congr fun L hL => h L ((mem_lanesOf m L).mp hL)]
/-- All the lanes are told the same. -/
theorem State.pushAll_of {t : State} {v : PVal} (h : s.pushLanes k skip f (lanesOf m) = (t, (lanesOf m).map fun L => (L.val, v))) :
    s.pushAll k d m skip f = t.setP d m fun _ => v := by
  unfold State.pushAll
  rw [h]
  exact setP_congr _ _ _ _ _ fun L hL => congrArg (·.getD .f) (lookup_lanes v ((mem_lanesOf m L).mpr hL))
theorem State.pushAll_none (h : ∀ L : Lane, m.getLsbD L.val = true → skip L = true) : s.pushAll k d m skip f = s.setP d m fun _ => .t :=
  State.pushAll_of (State.pushLanes_none fun L hL => h L ((mem_lanesOf m L).mp hL))
theorem State.pushAll_refused (hc : stageChip (s.myLaunch.stage k) ≤ (s.myLaunch.stage k).queue.length)
    (hr : stageRing (s.myLaunch.stage k) ≤ (s.myLaunch.stage k).ringCount) : s.pushAll k d m (fun _ => false) f = s.setP d m fun _ => .f :=
  State.pushAll_of (State.pushLanes_refused hc hr)
theorem lanesOf_ne_nil (h : m ≠ 0) : lanesOf m ≠ [] := fun e => h (mask_ext fun L => by
  have none : ¬m.getLsbD L.val = true := fun hL => List.not_mem_nil (e ▸ (mem_lanesOf m L).mpr hL)
  rw [Bool.eq_false_iff.mpr none]
  simp)
theorem State.pushAll_chip (h : (s.myLaunch.stage k).queue.length + (lanesOf m).length ≤ stageChip (s.myLaunch.stage k)) (hm : m ≠ 0) :
    s.pushAll k d m (fun _ => false) f = (s.queued k fun l => l ++ (lanesOf m).map (s.laneRecord k f)).wake.setP d m fun _ => .t := by
  refine State.pushAll_of ?_
  obtain ⟨L, ls, e⟩ := List.exists_cons_of_ne_nil (lanesOf_ne_nil hm)
  rw [e] at h ⊢
  exact State.pushLanes_chip L ls h
end
theorem Effect.congr {i : Instr} {s u v : State} {m : Mask} (h : Effect i s m u) (e : Issues i s → u = v) : Effect i s m v :=
  fun hI hF hC => e hI ▸ h hI hF hC
section
variable {s : State} {i : Instr} {m : Mask} {k : Nat} {d : PReg} {a b : VReg} (hn : s.g.region = .trans → ∀ h ∈ s.others, h.gid ≠ s.g.gid)
  (h : Effect i s m (s.endTransaction.pushAll k d m (fun _ => false) (s.g.laneWords a b)))
include hn h
theorem pushAll_effect_chip (hc : (s.myLaunch.stage k).queue.length + (lanesOf m).length ≤ stageChip (s.myLaunch.stage k)) (hm : m ≠ 0) :
    Effect i s m ((s.endTransaction.queued k fun l => l ++ (lanesOf m).map (pushRecord s.g a b (stageWidth (s.myLaunch.stage k)))).wake.setP d m fun _ => .t) :=
  h.congr fun hI => by
    have launch := (State.endTransaction_sameWork hI.ready hn).myLaunch
    have record : s.endTransaction.laneRecord k (s.g.laneWords a b) = pushRecord s.g a b (stageWidth (s.myLaunch.stage k)) := by
      unfold State.laneRecord
      rw [launch]
      rfl
    rw [State.pushAll_chip (by rwa [launch]) hm, record]
theorem pushAll_effect_refused (hc : stageChip (s.myLaunch.stage k) ≤ (s.myLaunch.stage k).queue.length)
    (hr : stageRing (s.myLaunch.stage k) ≤ (s.myLaunch.stage k).ringCount) : Effect i s m (s.endTransaction.setP d m fun _ => .f) :=
  h.congr fun hI => by
    have launch := (State.endTransaction_sameWork hI.ready hn).myLaunch
    exact State.pushAll_refused (by rwa [launch]) (by rwa [launch])
end

/-! ### The clauses -/
/-- The end of a region leaves the stage as queue words look at it. -/
theorem State.endTransaction_stageAt {s : State} (hr : s.g.status = .ready) (hn : s.g.region = .trans → ∀ x ∈ s.others, x.gid ≠ s.g.gid) (k : Nat) :
    s.endTransaction.stageAt s.endTransaction.myLid k = s.myLaunch.stage k := congrArg (Launch.stage · k) (State.endTransaction_sameWork hr hn).myLaunch
section
variable {s : State} {d b : SReg} {q : QReg} {k : Nat} (hk : s.boundQueue q = some k)
include hk
section
variable (hn : s.g.region = .trans → ∀ h ∈ s.others, h.gid ≠ s.g.gid)
  (hp : s.g.regs.pending &&& regBits (regRun b (stageWidth (s.myLaunch.stage k))) = 0)
  (hs : s.g.regs.spois &&& regBits (regRun b (stageWidth (s.myLaunch.stage k))) = 0)
include hn hp hs
theorem qpush_effect_chip (hc : (s.myLaunch.stage k).queue.length < stageChip (s.myLaunch.stage k)) :
    Effect (.qpush d q b) s 0 ((s.endTransaction.queued k fun l => l ++ [s.g.readSs b (stageWidth (s.myLaunch.stage k))]).wake.setS d 1) :=
  (qpush_effect hk hn hp hs).congr fun hI => by
    have stage := State.endTransaction_stageAt hI.ready hn k
    exact State.offer_of_room _ _ _ (State.pushOf_chip (by rwa [stage]))
theorem qpush_effect_ring (hc : stageChip (s.myLaunch.stage k) ≤ (s.myLaunch.stage k).queue.length)
    (hr : (s.myLaunch.stage k).ringCount < stageRing (s.myLaunch.stage k)) :
    Effect (.qpush d q b) s 0 (((s.endTransaction.devPuts (s.who s.myCtx 0 0)
      (ringAt (s.myLaunch.stage k) ((s.myLaunch.stage k).ringHead + (s.myLaunch.stage k).ringCount)) (s.g.readSs b (stageWidth (s.myLaunch.stage k)))).updLaunch s.myLid
        (Launch.updStage k fun st => { st with ringCount := st.ringCount + 1 })).wake.setS d 1) :=
  (qpush_effect hk hn hp hs).congr fun hI => by
    have same := State.endTransaction_sameWork hI.ready hn
    have stage := State.endTransaction_stageAt hI.ready hn k
    have room := State.pushOf_ring (ctx := s.endTransaction.myCtx) (r := s.g.readSs b (stageWidth (s.myLaunch.stage k)))
      (by rwa [stage]) (by rwa [stage])
    rw [stage, same.myLid, same.myCtx, same.who] at room
    exact State.offer_of_room _ _ _ (by rw [State.push, same.myLid, same.myCtx, room])
theorem qpush_effect_full (hc : stageChip (s.myLaunch.stage k) ≤ (s.myLaunch.stage k).queue.length)
    (hr : stageRing (s.myLaunch.stage k) ≤ (s.myLaunch.stage k).ringCount) : Effect (.qpush d q b) s 0 (s.endTransaction.setS d 0) :=
  (qpush_effect hk hn hp hs).congr fun hI => by
    have stage := State.endTransaction_stageAt hI.ready hn k
    exact State.offer_of_full _ _ _ (State.pushOf_full (by rwa [stage]) (by rwa [stage]))
end
end
/-- The record that left is one on chip or the ring's oldest. -/
theorem State.Pops.taken {s : State} {k : Nat} {r : List Word} {t : State} (h : s.Pops k r t) {f : State → List Word → Prop} (hf : f (t.dropCopies 2) r) :
    let st := s.myLaunch.stage k
    (∃ j r, st.queue[j]? = some r ∧ f ((s.updLaunch s.myLid (Launch.updStage k fun st =>
        { st with queue := st.queue.eraseIdx j, quads := st.quads.erase r })).wake.dropCopies 2) r) ∨
      (let seen := s.devSee (s.who s.myCtx 0 0) (ringAt st st.ringHead) (4 * stageWidth st)
       let r := (List.range (stageWidth st)).map fun i => seen.devWord (s.who s.myCtx 0 0) (ringAt st st.ringHead + 4 * i)
       st.ringCount ≠ 0 ∧ f ((seen.updLaunch s.myLid (Launch.updStage k fun st =>
          { st with ringHead := (st.ringHead + 1) % stageRing st, ringCount := st.ringCount - 1, quads := st.quads.erase r })).wake.dropCopies 2) r) := by
  obtain ⟨j, hj, rfl⟩ | ⟨hr, rfl, rfl⟩ := h
  · exact .inl ⟨j, r, hj, hf⟩
  · refine .inr ⟨hr, ?_⟩
    unfold State.leftRing at hf
    rw [State.ringRecord_eq] at hf
    exact hf

/-- A record that leaves by `qpop`, at once or once its wait has ended. -/
theorem qpop_takes {s : State} {d : SReg} {q : QReg} {k : Nat} {r : List Word} {t : State} (hk : s.boundQueue q = some k)
    (hp : s.g.regs.pending &&& regBits (regRun d (stageWidth (s.myLaunch.stage k))) = 0)
    (h : s.Pops k r t) (hpop : ∀ L, (s.withLatch L).pop k = some (r, t.withLatch L)) :
    Effect (.qpop d q) s 0 ((t.dropCopies 2).setSs d r) ∧
      (s.g.gid ≠ 0 → s.myWait = .pop d q → (∀ l, s.g.me.leaf = some l → l.chained = false) → s.myStage.desc[1].getLsbD 7 = false →
        Issues (.qpop d q) s → Flows s 1 → exec (.qpopTake s.g.gid s.g.sel) s = .next (((t.dropCopies 2).setSs d r).onward 1)) := by
  have effect := qpop_effect hk hp h hpop
  have smooth : s.Smooth ((t.dropCopies 2).setSs d r) := h.smooth.trans ((State.Smooth.dropCopies t 2).trans (.setSs ..))
  refine ⟨effect, fun hg hw hc hd hI hF => ?_⟩
  exact qpopTake_completes hg hw hc hd hI (effect hI hF rfl) (smooth.flows _ hF) smooth

theorem queueWords : Clause.QueueWords := by
  refine ⟨fun s d b q k hk hn => ?_, fun s d b q hk => ?_, fun s g d a b hn => ?_⟩
  · intro st w out r taken
    have takes : ∀ {f : State → List Word → Prop} {r : List Word} {t : State}, s.Pops k r t → f (t.dropCopies 2) r → taken f := fun h hf => h.taken hf
    clear_value taken
    refine ⟨fun _ hp hs => ⟨qpush_effect_chip hk hn hp hs, qpush_effect_ring hk hn hp hs, qpush_effect_full hk hn hp hs⟩, fun _ => rfl,
      fun _ hp he => ?_, fun _ hp hq hr => qpop_waits hk hp hq hr, fun _ hp => ⟨fun he => ?_, qpoll_empty hk hp⟩,
      fun h => qpush_outlawed (State.queueBad_of_bound hk h), fun h => qpop_outlawed (State.queueBad_of_bound hk h),
      fun h => qpoll_outlawed (State.queueBad_of_bound hk h)⟩
    · obtain ⟨r, t, hpops, hpop⟩ := State.pop_pops he
      exact takes hpops (qpop_takes hk hp hpops hpop)
    · obtain ⟨r, t, hpops, hpop⟩ := State.pop_pops he
      exact takes hpops (qpoll_effect hk hp hpops hpop)
  · have bad := State.queueBad_of_unbound hk
    exact ⟨qpush_outlawed (bad _ _), qpop_outlawed (bad _ _), qpoll_outlawed (bad _ _)⟩
  · intro m word
    have lanes : ∀ {i : Instr} {k : Nat}, Effect i s m (s.endTransaction.pushAll k d m (fun _ => false) (s.g.laneWords a b)) → word i k :=
      fun h => ⟨pushAll_effect_chip hn h, pushAll_effect_refused hn h, h⟩
    refine ⟨fun k hk => lanes (pushWord_effect (exec_emit g d a b s) hk hn fun _ _ => rfl), emit_outlawed, fun k hk hv => lanes ?_, spawn_outlawed,
      fun ⟨k, hk⟩ hv => ?_⟩
    · have effect := pushWord_effect (exec_spawn g d a b s) hk hn fun L hL => by rw [hv L hL]; rfl
      rwa [State.pushAll_congr fun L hL => show _ = false by rw [hv L hL]; rfl] at effect
    · have effect := pushWord_effect (exec_spawn g d a b s) hk hn fun L hL => by rw [hv L hL]; rfl
      rwa [State.pushAll_none fun L hL => by rw [hv L hL]; rfl] at effect

/-- Settles O48: its clauses on Basin words and on queue words. -/
theorem basinsAndQueues : Obligations.BasinsAndQueues := ⟨basinWords, queueWords⟩

end
end Sys2Proof.Machine
end

