-- ==== Sys2Proof/Proofs/FloatValues.lean ====
section
/-!
PROOFS. Proofs/FloatValues.lean: values as rational numbers, and the exact results of sums, products, quotients and roots (R131, R153, R155).
-/
namespace Sys2Proof.Machine

/-! ### Values as rational numbers -/
theorem Exact.real_val (n : Bool) (m : Nat) (e : Int) (st : Bool) : (Exact.val n m e st).real = (Val.fin n m e).real := rfl
theorem Val.real_zero (n : Bool) (e : Int) : (Val.fin n 0 e).real = 0 := by simp [Val.real]
theorem Val.real_neg (v : Val) : v.neg.real = -v.real := by
  cases v with
  | fin n m e => cases n <;> simp [Val.neg, Val.real]
  | _ => simp [Val.neg, Val.real]
theorem Val.finite_neg {v : Val} (h : v.finite) : v.neg.finite := by
  cases v with
  | fin n m e => trivial
  | _ => exact h
theorem Val.finite_iff {v : Val} : v.finite ↔ ∃ n m e, v = .fin n m e := by
  cases v with
  | fin n m e => exact ⟨fun _ => ⟨n, m, e, rfl⟩, fun _ => trivial⟩
  | _ => exact ⟨fun h => h.elim, fun ⟨_, _, _, h⟩ => nomatch h⟩
theorem Val.abs_real (n : Bool) (m : Nat) (e : Int) : |(Val.fin n m e).real| = m * 2 ^ e := by
  cases n <;> simp [Val.real, abs_mul, abs_of_pos (zpow_pos (two_pos : (0 : ℚ) < 2) e)]
theorem Val.real_eq_zero_iff (n : Bool) (m : Nat) (e : Int) : (Val.fin n m e).real = 0 ↔ m = 0 := by
  rw [← abs_eq_zero, Val.abs_real]
  simp [zpow_ne_zero]
theorem Val.real_neg_iff (n : Bool) {m : Nat} (e : Int) (hm : m ≠ 0) : (Val.fin n m e).real < 0 ↔ n = true := by
  have hp : (0 : ℚ) < m * 2 ^ e := by positivity
  cases n <;> simp [Val.real, hp, hp.le, not_lt.mpr]
/-- A shift of the exponent, made up for in the magnitude. -/
theorem two_zpow_toNat {e e0 : Int} (h : e0 ≤ e) : (2 : ℚ) ^ (e - e0).toNat * 2 ^ e0 = 2 ^ e := by
  rw [← zpow_natCast, Int.toNat_of_nonneg (by omega), ← zpow_add₀ two_ne_zero, sub_add_cancel]
theorem scaled_real (n : Bool) (m : Nat) {e e0 : Int} (h : e0 ≤ e) :
    (scaled n m (e - e0).toNat : ℚ) * 2 ^ e0 = (Val.fin n m e).real := by
  rw [Val.real, ← two_zpow_toNat h]
  cases n <;> simp [scaled, mul_assoc]

/-! ### Sums and products (R131, R153) -/
theorem addFin_is (md : Mode) (na nb : Bool) (ma mb : Nat) (ea eb : Int) :
    (addFin md na ma ea nb mb eb).is ((Val.fin na ma ea).real + (Val.fin nb mb eb).real) := by
  have ha := scaled_real na ma (min_le_left ea eb)
  have hb := scaled_real nb mb (min_le_right ea eb)
  rw [← ha, ← hb, ← add_mul, ← Int.cast_add]
  unfold addFin
  dsimp only
  generalize scaled na ma _ + scaled nb mb _ = x
  split
  next h => exact ⟨⟨_, _, _, rfl⟩, by rw [h, Exact.real_val, Val.real_zero, Int.cast_zero, zero_mul]⟩
  next h =>
    refine ⟨⟨_, _, _, rfl⟩, ?_⟩
    obtain hx | hx := lt_or_ge x 0
    · simp [Exact.real, hx, abs_of_neg]
    · simp [Exact.real, not_lt.mpr hx, abs_of_nonneg hx]
theorem addV_is (md : Mode) {a b : Val} (ha : a.finite) (hb : b.finite) : (addV md a b).is (a.real + b.real) := by
  obtain ⟨na, ma, ea, rfl⟩ := Val.finite_iff.mp ha
  obtain ⟨nb, mb, eb, rfl⟩ := Val.finite_iff.mp hb
  exact addFin_is ..
theorem addV_sub_is (md : Mode) {a b : Val} (ha : a.finite) (hb : b.finite) : (addV md a b.neg).is (a.real - b.real) := by
  rw [sub_eq_add_neg, ← Val.real_neg]
  exact addV_is md ha (Val.finite_neg hb)
theorem real_mul (na nb : Bool) (ma mb : Nat) (ea eb : Int) :
    (Val.fin (na != nb) (ma * mb) (ea + eb)).real = (Val.fin na ma ea).real * (Val.fin nb mb eb).real := by
  have e : (2 : ℚ) ^ (ea + eb) = 2 ^ ea * 2 ^ eb := zpow_add₀ two_ne_zero ..
  cases na <;> cases nb <;> simp [Val.real, e] <;> ring
theorem mulV_is {a b : Val} (ha : a.finite) (hb : b.finite) : (mulV a b).is (a.real * b.real) := by
  obtain ⟨na, ma, ea, rfl⟩ := Val.finite_iff.mp ha
  obtain ⟨nb, mb, eb, rfl⟩ := Val.finite_iff.mp hb
  exact ⟨⟨_, _, _, rfl⟩, real_mul ..⟩
theorem fmaV_is (md : Mode) {a b d : Val} (ha : a.finite) (hb : b.finite) (hd : d.finite) : (fmaV md a b d).is (a.real * b.real + d.real) := by
  obtain ⟨⟨n, m, e, h⟩, hr⟩ := mulV_is ha hb
  have hf : fmaV md a b d = addV md (.fin n m e) d := by unfold fmaV; rw [h]
  rw [hf, ← hr, h]
  exact addV_is md (a := .fin n m e) trivial hd

/-! ### NaNs (R131, R153) -/
theorem Val.snan_neg (v : Val) : v.neg.snan = v.snan := by cases v <;> rfl
theorem Val.isNan_neg (v : Val) : v.neg.isNan = v.isNan := by cases v <;> rfl
theorem addV_of_nan (md : Mode) {a b : Val} (h : a.isNan = true ∨ b.isNan = true) : addV md a b = .nan (a.snan || b.snan) := by
  cases a <;> cases b <;> simp [addV, Val.snan, Val.isNan] at h ⊢
theorem mulV_of_nan {a b : Val} (h : a.isNan = true ∨ b.isNan = true) : mulV a b = .nan (a.snan || b.snan) := by
  cases a <;> cases b <;> simp [mulV, Val.snan, Val.isNan] at h ⊢
theorem fmaV_of_mul_nan (md : Mode) {a b d : Val} {inv : Bool} (h : mulV a b = .nan inv) : fmaV md a b d = .nan (inv || d.snan) := by
  unfold fmaV
  rw [h]

theorem exactSumsAndProducts : Clause.FloatExactResults := by
  intro md a b d
  refine ⟨fun ha hb hd => ⟨addV_is md ha hb, addV_sub_is md ha hb, mulV_is ha hb, fmaV_is md ha hb hd, ?_, ?_⟩, fun na nb ea eb => ?_,
    fun n m e hm => ?_, fun h => ⟨addV_of_nan md h, ?_, mulV_of_nan h, fmaV_of_mul_nan md (mulV_of_nan h)⟩,
    fun n k e => ⟨rfl, ?_, ?_, ?_⟩⟩
  · rw [sub_eq_add_neg, ← Val.real_neg]
    exact fmaV_is md ha hb (Val.finite_neg hd)
  · rw [← neg_mul, ← Val.real_neg]
    exact fmaV_is md (Val.finite_neg ha) hb hd
  · exact if_pos (by cases na <;> cases nb <;> simp [scaled])
  · have e0 : scaled n m (e - min e e).toNat + scaled (!n) m (e - min e e).toNat = 0 := by cases n <;> simp [scaled]
    refine (if_pos e0).trans ?_
    cases n <;> rfl
  · change addV md a b.neg = _
    rw [addV_of_nan md (h.imp_right (b.isNan_neg.trans ·)), Val.snan_neg]
  · exact fmaV_of_mul_nan md (a := .fin n 0 e) (b := .inf k) (inv := true) rfl
  · cases k <;> rfl
  · cases k <;> rfl

/-! ### Quotients and roots (R155) -/
theorem lt_two_pow_bitLen (m : Nat) : m < 2 ^ bitLen m := by
  unfold bitLen
  split
  next h => rw [h]; exact Nat.one_pos
  next h => exact Nat.lt_log2_self
theorem two_pow_bitLen_le {m : Nat} (h : m ≠ 0) : 2 ^ (bitLen m - 1) ≤ m := by
  unfold bitLen
  rw [if_neg h]
  exact Nat.log2_self_le h
theorem bitLen_pos {m : Nat} (h : m ≠ 0) : 1 ≤ bitLen m := by
  unfold bitLen
  rw [if_neg h]
  omega
/-- A quotient cut to an integer, and what is left of it. -/
theorem natDiv_bounds (x : Nat) {d : Nat} (hd : 0 < d) :
    ((x / d : Nat) : ℚ) ≤ (x : ℚ) / d ∧ (x : ℚ) / d < ((x / d : Nat) : ℚ) + 1 ∧ (x % d = 0 ↔ ((x / d : Nat) : ℚ) = (x : ℚ) / d) := by
  have hq : (0 : ℚ) < d := Nat.cast_pos.mpr hd
  refine ⟨Nat.cast_div_le, ?_, ?_⟩
  · rw [← Nat.floor_div_eq_div (K := ℚ)]
    exact Nat.lt_floor_add_one _
  · rw [eq_div_iff hq.ne', ← Nat.dvd_iff_mod_eq_zero, ← Nat.cast_mul, Nat.cast_inj]
    exact ⟨fun h => Nat.div_mul_cancel h, fun h => ⟨x / d, by rw [Nat.mul_comm]; exact h.symm⟩⟩
theorem real_div (na nb : Bool) (ma mb : Nat) (ea eb : Int) (k : Nat) :
    |(Val.fin na ma ea).real / (Val.fin nb mb eb).real| = ((ma * 2 ^ k : Nat) : ℚ) / mb * 2 ^ (ea - eb - k) := by
  rw [abs_div, Val.abs_real, Val.abs_real, zpow_sub₀ two_ne_zero, zpow_sub₀ two_ne_zero, zpow_natCast]
  push_cast
  have := pow_ne_zero k (two_ne_zero (α := ℚ))
  field_simp
theorem divV_fin (prec : Nat) (na nb : Bool) {ma mb : Nat} (ea eb : Int) (ha : ma ≠ 0) (hb : mb ≠ 0) :
    divV prec (.fin na ma ea) (.fin nb mb eb) =
      (.val (na != nb) (ma * 2 ^ (prec + bitLen mb) / mb) (ea - eb - (prec + bitLen mb : Nat)) (decide (ma * 2 ^ (prec + bitLen mb) % mb ≠ 0)), false) := by
  simp only [divV, if_neg ha, if_neg hb]
theorem divV_enough (prec : Nat) {ma mb : Nat} (ha : ma ≠ 0) (hb : mb ≠ 0) : 2 ^ prec ≤ ma * 2 ^ (prec + bitLen mb) / mb := by
  rw [Nat.le_div_iff_mul_le (Nat.pos_of_ne_zero hb), pow_add]
  calc 2 ^ prec * mb ≤ 2 ^ prec * 2 ^ bitLen mb := Nat.mul_le_mul_left _ (lt_two_pow_bitLen mb).le
    _ ≤ ma * (2 ^ prec * 2 ^ bitLen mb) := Nat.le_mul_of_pos_left _ (Nat.pos_of_ne_zero ha)
theorem real_div_neg_iff (na nb : Bool) {ma mb : Nat} (ea eb : Int) (ha : ma ≠ 0) (hb : mb ≠ 0) :
    (na != nb) = true ↔ (Val.fin na ma ea).real / (Val.fin nb mb eb).real < 0 := by
  have pos : ∀ (n : Bool) {m : Nat} (e : Int), m ≠ 0 → (0 < (Val.fin n m e).real ↔ n = false) := fun n m e h => by
    rw [lt_iff_le_and_ne, ← not_lt, Val.real_neg_iff n e h, ne_comm, Ne, Val.real_eq_zero_iff]
    simp [h]
  rw [div_neg_iff, Val.real_neg_iff na ea ha, Val.real_neg_iff nb eb hb, pos na ea ha, pos nb eb hb]
  cases na <;> cases nb <;> simp
/-- R155: a quotient, cut. -/
theorem divV_cut (prec : Nat) {a b : Val} (fa : a.finite) (fb : b.finite) (hb : b.real ≠ 0) (ha : a.real ≠ 0) :
    ∃ n m e st, divV prec a b = (.val n m e st, false) ∧ (n = true ↔ a.real / b.real < 0) ∧
      (m : ℚ) * 2 ^ e ≤ |a.real / b.real| ∧ |a.real / b.real| < (m + 1 : ℚ) * 2 ^ e ∧
      (st = false ↔ (m : ℚ) * 2 ^ e = |a.real / b.real|) ∧ 2 ^ prec ≤ m := by
  obtain ⟨na, ma, ea, rfl⟩ := Val.finite_iff.mp fa
  obtain ⟨nb, mb, eb, rfl⟩ := Val.finite_iff.mp fb
  rw [Ne, Val.real_eq_zero_iff] at ha hb
  obtain ⟨low, high, rest⟩ := natDiv_bounds (ma * 2 ^ (prec + bitLen mb)) (Nat.pos_of_ne_zero hb)
  have unit : (0 : ℚ) < 2 ^ (ea - eb - (prec + bitLen mb : Nat)) := zpow_pos two_pos _
  refine ⟨_, _, _, _, divV_fin prec na nb ea eb ha hb, real_div_neg_iff na nb ea eb ha hb, ?_, ?_, ?_, divV_enough prec ha hb⟩ <;>
    rw [real_div na nb ma mb ea eb (prec + bitLen mb)]
  · exact (mul_le_mul_iff_left₀ unit).mpr low
  · exact (mul_lt_mul_iff_left₀ unit).mpr high
  · rw [mul_left_inj' unit.ne', ← rest]
    simp

/-- The bit by bit root is the integer square root. -/
theorem isqrtFrom_eq (n k r : Nat) (hr : r * r ≤ n) (hk : n < (r + 2 ^ (k + 1)) * (r + 2 ^ (k + 1))) : isqrtFrom n k r = Nat.sqrt n := by
  induction k generalizing r with
  | zero =>
    unfold isqrtFrom
    split
    next h => exact (Nat.eq_sqrt.mpr ⟨h, hk⟩)
    next h => exact (Nat.eq_sqrt.mpr ⟨hr, not_le.mp h⟩)
  | succ k ih =>
    unfold isqrtFrom
    split
    next h => exact ih _ h (by rwa [add_assoc, ← two_mul, ← pow_succ'])
    next h => exact ih _ hr (not_le.mp h)
theorem natSqrt_eq (n : Nat) : natSqrt n = Nat.sqrt n := by
  refine isqrtFrom_eq n _ 0 (Nat.zero_le n) ?_
  rw [zero_add, ← pow_add]
  exact (lt_two_pow_bitLen n).trans_le (Nat.pow_le_pow_right two_pos (by omega))
/-- The magnitude and half the exponent that a root is taken of, the exponent made even. -/
def rootMag (m : Nat) (e : Int) : Nat := if e % 2 ≠ 0 then m * 2 else m
def rootExp (e : Int) : Int := (if e % 2 ≠ 0 then e - 1 else e) / 2
theorem rootMag_rootExp (m : Nat) (e : Int) : (rootMag m e : ℚ) * (2 ^ rootExp e) ^ 2 = m * 2 ^ e := by
  unfold rootMag rootExp
  rw [← zpow_natCast, ← zpow_mul]
  split
  next h =>
    rw [show (e - 1) / 2 * (2 : Nat) = e - 1 by omega, zpow_sub_one₀ two_ne_zero]
    push_cast
    ring
  next h => rw [show e / 2 * (2 : Nat) = e by omega]
theorem rootMag_pos {m : Nat} (e : Int) (h : m ≠ 0) : 0 < rootMag m e := by
  unfold rootMag
  split <;> omega
theorem sqrtV_fin (prec : Nat) {m : Nat} (e : Int) (hm : m ≠ 0) :
    sqrtV prec (.fin false m e) = .val false (Nat.sqrt (rootMag m e * 2 ^ (2 * (prec + 2)))) (rootExp e - (prec + 2 : Nat))
      (decide (Nat.sqrt (rootMag m e * 2 ^ (2 * (prec + 2))) * Nat.sqrt (rootMag m e * 2 ^ (2 * (prec + 2))) ≠ rootMag m e * 2 ^ (2 * (prec + 2)))) := by
  simp only [sqrtV, if_neg hm, Bool.false_eq_true, if_false, natSqrt_eq]
  rfl
/-- R155: a root, cut. -/
theorem sqrtV_cut (prec : Nat) {a : Val} (fa : a.finite) (ha : 0 < a.real) :
    ∃ m e st, sqrtV prec a = .val false m e st ∧ ((m : ℚ) * 2 ^ e) ^ 2 ≤ a.real ∧ a.real < ((m + 1 : ℚ) * 2 ^ e) ^ 2 ∧
      (st = false ↔ ((m : ℚ) * 2 ^ e) ^ 2 = a.real) ∧ 2 ^ prec ≤ m := by
  obtain ⟨n, m, e, rfl⟩ := Val.finite_iff.mp fa
  have hm : m ≠ 0 := fun h => ha.ne' ((Val.real_eq_zero_iff n m e).mpr h)
  have hn : n = false := by
    rw [← Bool.not_eq_true, ← Val.real_neg_iff n e hm]
    exact ha.not_gt
  subst hn
  have unit : (0 : ℚ) < (2 ^ (rootExp e - (prec + 2 : Nat))) ^ 2 := by positivity
  have real : (Val.fin false m e).real = ((rootMag m e * 2 ^ (2 * (prec + 2)) : Nat) : ℚ) * (2 ^ (rootExp e - (prec + 2 : Nat))) ^ 2 := by
    have up := pow_ne_zero (prec + 2) (two_ne_zero (α := ℚ))
    rw [← abs_of_pos ha, Val.abs_real, ← rootMag_rootExp, zpow_sub₀ two_ne_zero, zpow_natCast, pow_mul']
    push_cast
    field_simp
  have enough : 2 ^ prec ≤ Nat.sqrt (rootMag m e * 2 ^ (2 * (prec + 2))) := by
    rw [Nat.le_sqrt, ← pow_add]
    exact (Nat.pow_le_pow_right two_pos (by omega)).trans (Nat.le_mul_of_pos_left _ (rootMag_pos e hm))
  have low := Nat.sqrt_le (rootMag m e * 2 ^ (2 * (prec + 2)))
  have high := Nat.lt_succ_sqrt (rootMag m e * 2 ^ (2 * (prec + 2)))
  refine ⟨_, _, _, sqrtV_fin prec e hm, ?_, ?_, ?_, enough⟩ <;> rw [real, mul_pow]
  · rw [mul_le_mul_iff_left₀ unit, sq]
    exact_mod_cast low
  · rw [mul_lt_mul_iff_left₀ unit, sq]
    exact_mod_cast high
  · rw [mul_left_inj' unit.ne', decide_eq_false_iff_not, not_not, sq, ← Nat.cast_mul, Nat.cast_inj]

theorem quotientsAndRoots : Clause.QuotientsAndRoots := by
  intro prec a b fa fb
  refine ⟨divV_cut prec fa fb, sqrtV_cut prec fa, fun hb ha => ?_, fun n k x e hx => ?_, fun n x e hx => ⟨?_, rfl⟩⟩
  · obtain ⟨na, ma, ea, rfl⟩ := Val.finite_iff.mp fa
    obtain ⟨nb, mb, eb, rfl⟩ := Val.finite_iff.mp fb
    rw [Val.real_eq_zero_iff] at ha hb
    subst ha hb
    rfl
  · simp only [divV, if_true, if_neg hx]
  · exact (if_neg hx).trans (if_pos rfl)

/-- Settles O22: sums over a common exponent, products, and quotients and roots as integers cut from scaled ones. -/
theorem floatExactResults : Obligations.FloatExactResults := ⟨exactSumsAndProducts, quotientsAndRoots⟩

end Sys2Proof.Machine
end

