-- ==== Sys2Proof/Proofs/FloatRounding.lean ====
section
/-!
PROOFS. Proofs/FloatRounding.lean: cutting an exact result, the neighbours between which it is rounded, and bit patterns and their values (R127, R128,
R131, R134).
-/
namespace Sys2Proof.Machine

/-! ### Cutting an exact result (R131) -/
/-- The exact result ± (m + δ) × 2^e has the magnitude x: δ is 0 exactly where nothing is left over. -/
structure Holds (m : Nat) (e : Int) (st : Bool) (x : ℚ) : Prop where
  whole : st = false → x = m * 2 ^ e
  above : st = true → (m : ℚ) * 2 ^ e < x ∧ x < (m + 1 : ℚ) * 2 ^ e
theorem Holds.exact (m : Nat) (e : Int) : Holds m e false (m * 2 ^ e) := ⟨fun _ => rfl, fun h => Bool.noConfusion h⟩
theorem Holds.fraction {m : Nat} {e : Int} {st : Bool} {x : ℚ} (h : Holds m e st x) :
    ∃ ε : ℚ, 0 ≤ ε ∧ ε < 1 ∧ x = (m + ε) * 2 ^ e ∧ (st = false ↔ ε = 0) := by
  have unit : (0 : ℚ) < 2 ^ e := zpow_pos two_pos _
  cases st with
  | false => exact ⟨0, le_rfl, one_pos, by rw [h.whole rfl, add_zero], by simp⟩
  | true =>
    obtain ⟨low, high⟩ := h.above rfl
    rw [← lt_div_iff₀ unit] at low
    rw [← div_lt_iff₀ unit] at high
    refine ⟨x / 2 ^ e - m, by linarith, by linarith, by field_simp; ring, ?_⟩
    simp only [Bool.true_eq_false, false_iff]
    exact (sub_pos.mpr low).ne'
/-- What a fraction is to the rounding: nothing, less than half, half, more than half. -/
def restOf (δ : ℚ) : Nat := if δ = 0 then 0 else if δ < 1 / 2 then 1 else if δ = 1 / 2 then 2 else 3
theorem restOf_eq_zero {δ : ℚ} : restOf δ = 0 ↔ δ = 0 := by
  unfold restOf
  split_ifs <;> simp_all
theorem restOf_eq_two {δ : ℚ} : restOf δ = 2 ↔ δ = 1 / 2 := by
  unfold restOf
  split_ifs with h1 h2 h3
  · rw [h1]; norm_num
  · simpa using ne_of_lt h2
  · simpa using h3
  · simpa using h3
theorem restOf_eq_three {δ : ℚ} : restOf δ = 3 ↔ 1 / 2 < δ := by
  unfold restOf
  split_ifs with h1 h2 h3
  · rw [h1]; norm_num
  · simpa using h2.le
  · rw [h3]; norm_num
  · simpa using lt_of_le_of_ne (not_lt.mp h2) (Ne.symm h3)
theorem two_le_restOf {δ : ℚ} : 2 ≤ restOf δ ↔ 1 / 2 ≤ δ := by
  unfold restOf
  split_ifs with h1 h2 h3
  · rw [h1]; norm_num
  · simpa using h2
  · rw [h3]; norm_num
  · simpa using not_lt.mp h2
/-- The remainder of a cut, r places of 2 × half and a fraction ε of one more. -/
theorem rest_of_cut {r half : Nat} {st : Bool} {ε : ℚ} (h0 : 0 ≤ ε) (h1 : ε < 1) (hs : st = false ↔ ε = 0) (hh : 0 < half) :
    (if r = 0 && !st then 0 else if r < half then 1 else if r = half && !st then 2 else 3) = restOf ((r + ε) / (2 * half : Nat)) := by
  have pos : (0 : ℚ) < half := Nat.cast_pos.mpr hh
  have rpos : (0 : ℚ) ≤ r := Nat.cast_nonneg r
  have zero : (r + ε) / (2 * half : Nat) = 0 ↔ (r = 0 && !st) = true := by
    rw [div_eq_zero_iff, add_eq_zero_iff_of_nonneg rpos h0, Bool.and_eq_true, decide_eq_true_eq, Bool.not_eq_true', hs]
    simp [hh.ne']
  have below : (r + ε) / (2 * half : Nat) < 1 / 2 ↔ r < half := by
    have scale : (r + ε) / (2 * half : Nat) < 1 / 2 ↔ r + ε < half := by
      push_cast
      rw [div_lt_iff₀ (by positivity)]
      constructor <;> intro h <;> linarith
    rw [scale]
    constructor <;> intro h
    · exact_mod_cast lt_of_le_of_lt (le_add_of_nonneg_right h0) h
    · have : (r : ℚ) + 1 ≤ half := by exact_mod_cast h
      linarith
  have middle : (r + ε) / (2 * half : Nat) = 1 / 2 ↔ r + ε = half := by
    push_cast
    rw [div_eq_iff (by positivity)]
    constructor <;> intro h <;> linarith
  have halved : ¬r < half → ((r + ε) / (2 * half : Nat) = 1 / 2 ↔ (r = half && !st) = true) := fun hr => by
    have hr : (half : ℚ) ≤ r := by exact_mod_cast not_lt.mp hr
    rw [middle, Bool.and_eq_true, decide_eq_true_eq, Bool.not_eq_true', hs]
    constructor <;> intro h
    · have : ε = 0 := by linarith
      exact ⟨by rw [this, add_zero] at h; exact_mod_cast h, this⟩
    · rw [h.1, h.2, add_zero]
  unfold restOf
  rw [if_congr zero rfl rfl, if_congr below rfl rfl]
  by_cases hr : r < half
  · rw [if_pos hr, if_pos hr]
  · rw [if_neg hr, if_neg hr, if_congr (halved hr) rfl rfl]
/-- R131: a cut at 2^q is the magnitude's whole part, and tells what its fraction is to the rounding. -/
theorem cutAt_spec {m : Nat} {e : Int} {st : Bool} {x : ℚ} (h : Holds m e st x) {q : Int} (hq : st = true → e < q) :
    ∃ δ : ℚ, 0 ≤ δ ∧ δ < 1 ∧ x = ((cutAt m e st q).1 + δ) * 2 ^ q ∧ (cutAt m e st q).2 = restOf δ := by
  unfold cutAt
  split
  next hle =>
    have hst : st = false := Bool.eq_false_iff.mpr fun hs => absurd (hq hs) (not_lt.mpr hle)
    refine ⟨0, le_rfl, one_pos, ?_, by simp [hst, restOf]⟩
    rw [h.whole hst, ← two_zpow_toNat hle]
    push_cast
    ring
  next hlt =>
    obtain ⟨ε, h0, h1, hx, hs⟩ := h.fraction
    obtain ⟨k, hk⟩ : ∃ k : Nat, (q - e).toNat = k + 1 := ⟨(q - e).toNat - 1, by omega⟩
    have whole : (m : ℚ) = (m / 2 ^ (k + 1) : Nat) * 2 ^ (k + 1) + (m % 2 ^ (k + 1) : Nat) := by exact_mod_cast (Nat.div_add_mod' m (2 ^ (k + 1))).symm
    have small : ((m % 2 ^ (k + 1) : Nat) : ℚ) + 1 ≤ 2 ^ (k + 1) := by exact_mod_cast Nat.mod_lt m (Nat.two_pow_pos (k + 1))
    have unit : (0 : ℚ) < 2 ^ (k + 1) := by positivity
    rw [hk]
    refine ⟨((m % 2 ^ (k + 1) : Nat) + ε) / (2 * 2 ^ k : Nat), by positivity, ?_, ?_, ?_⟩
    · push_cast
      rw [← pow_succ', div_lt_one unit]
      linarith
    · have := two_zpow_toNat (not_le.mp hlt).le
      rw [hk] at this
      rw [hx, ← this]
      conv_lhs => rw [whole]
      push_cast
      rw [← pow_succ']
      field_simp
      ring
    · simp only [Nat.add_sub_cancel]
      exact rest_of_cut h0 h1 hs (Nat.two_pow_pos k)

/-! ### The mode's choice (R131) -/
theorem roundsUp_iff (md : Mode) (neg : Bool) (n : Nat) (δ : ℚ) :
    roundsUp md neg n (restOf δ) = true ↔ takesUpper md neg (decide (n % 2 = 1)) δ (1 - δ) := by
  have more : 1 - δ < δ ↔ 1 / 2 < δ := by constructor <;> intro h <;> linarith
  have same : 1 - δ = δ ↔ δ = 1 / 2 := by constructor <;> intro h <;> linarith
  have least : 1 - δ ≤ δ ↔ 1 / 2 ≤ δ := by constructor <;> intro h <;> linarith
  cases md with
  | rne =>
    change (decide (restOf δ = 3) || decide (restOf δ = 2) && decide (n % 2 = 1)) = true ↔ 1 - δ < δ ∨ 1 - δ = δ ∧ decide (n % 2 = 1) = true
    rw [Bool.or_eq_true, Bool.and_eq_true, decide_eq_true_eq, decide_eq_true_eq, restOf_eq_three, restOf_eq_two, more, same]
  | rz => exact ⟨Bool.noConfusion, False.elim⟩
  | rd =>
    change (neg && decide (restOf δ ≠ 0)) = true ↔ neg = true ∧ δ ≠ 0
    rw [Bool.and_eq_true, decide_eq_true_eq, Ne, restOf_eq_zero]
  | ru =>
    change (!neg && decide (restOf δ ≠ 0)) = true ↔ neg = false ∧ δ ≠ 0
    rw [Bool.and_eq_true, decide_eq_true_eq, Ne, restOf_eq_zero, Bool.not_eq_true']
  | rna =>
    change decide (2 ≤ restOf δ) = true ↔ 1 - δ ≤ δ
    rw [decide_eq_true_eq, two_le_restOf, least]
/-- Only the distances' ratio decides. -/
theorem takesUpper_scale (md : Mode) (neg odd : Bool) (a b : ℚ) {c : ℚ} (hc : 0 < c) :
    takesUpper md neg odd (a * c) (b * c) ↔ takesUpper md neg odd a b := by
  cases md <;> simp only [takesUpper, mul_lt_mul_iff_left₀ hc, mul_le_mul_iff_left₀ hc, mul_left_inj' hc.ne', mul_ne_zero_iff, ne_eq, hc.ne', not_false_eq_true, and_true]

/-! ### Magnitude bits and their values (R127) -/
/-- The bits of exponent field E, or of E + 1 and E + 2, with the whole of a significand n. -/
theorem Fmt.mval_place (f : Fmt) (E n : Nat) (hE : E ≠ 0 → 2 ^ f.fw ≤ n) (hn : n ≤ 2 ^ (f.fw + 1)) :
    f.mval (E * 2 ^ f.fw + n) = n * 2 ^ ((E : Int) + 1 - f.bias - f.fw) := by
  have pos := Nat.two_pow_pos f.fw
  have quot : ∀ j, n = j * 2 ^ f.fw + n % 2 ^ f.fw → (E * 2 ^ f.fw + n) / 2 ^ f.fw = E + j := fun j h => by
    rw [h, ← add_assoc, ← add_mul, Nat.add_comm, Nat.add_mul_div_right _ _ pos, Nat.div_eq_of_lt (Nat.mod_lt _ pos), Nat.zero_add]
  have rem : (E * 2 ^ f.fw + n) % 2 ^ f.fw = n % 2 ^ f.fw := Nat.mul_add_mod_self_right ..
  unfold Fmt.mval
  rw [rem]
  obtain h0 | h0 := lt_or_ge n (2 ^ f.fw)
  · obtain rfl : E = 0 := Classical.byContradiction fun h => absurd (hE h) (not_le.mpr h0)
    rw [quot 0 (by rw [Nat.mod_eq_of_lt h0]; omega), if_pos rfl]
    norm_num
  · obtain h1 | h1 := lt_or_eq_of_le hn
    · have hm : n % 2 ^ f.fw = n - 2 ^ f.fw := by
        rw [pow_succ] at h1
        rw [Nat.mod_eq_sub_mod h0, Nat.mod_eq_of_lt (by omega)]
      rw [quot 1 (by omega), if_neg (Nat.succ_ne_zero E), hm, Nat.add_sub_cancel' h0]
      push_cast
      ring_nf
    · have hm : n % 2 ^ f.fw = 0 := by rw [h1, pow_succ]; exact Nat.mul_mod_right ..
      rw [quot 2 (by rw [hm, h1, pow_succ]; omega), if_neg (Nat.succ_ne_zero _), hm, h1, Nat.add_zero]
      push_cast
      rw [show (E : Int) + 2 - f.bias - f.fw = (E + 1 - f.bias - f.fw) + 1 by ring, zpow_add_one₀ two_ne_zero]
      ring
/-- Every magnitude is a place: an exponent field, at least 1, and a significand. -/
theorem Fmt.exists_place (f : Fmt) (c : Nat) : ∃ E n : Nat, c = E * 2 ^ f.fw + n ∧ (E ≠ 0 → 2 ^ f.fw ≤ n) ∧ n < 2 ^ (f.fw + 1) := by
  have pos := Nat.two_pow_pos f.fw
  have split := Nat.div_add_mod' c (2 ^ f.fw)
  have low := Nat.mod_lt c pos
  cases h : c / 2 ^ f.fw with
  | zero => exact ⟨0, c, by omega, fun h => absurd rfl h, by rw [h] at split; rw [pow_succ]; omega⟩
  | succ E =>
    rw [h, Nat.succ_mul] at split
    exact ⟨E, 2 ^ f.fw + c % 2 ^ f.fw, by omega, fun _ => Nat.le_add_right .., by rw [pow_succ]; omega⟩
theorem Fmt.mval_strictMono (f : Fmt) : StrictMono f.mval := by
  refine strictMono_nat_of_lt_succ fun c => ?_
  obtain ⟨E, n, rfl, hE, hn⟩ := f.exists_place c
  rw [add_assoc, f.mval_place E n hE hn.le, f.mval_place E (n + 1) (fun h => (hE h).trans (Nat.le_succ n)) hn]
  exact (mul_lt_mul_iff_left₀ (zpow_pos two_pos _)).mpr (Nat.cast_lt.mpr n.lt_succ_self)
theorem Fmt.mval_zero (f : Fmt) : f.mval 0 = 0 := by simp [Fmt.mval]
theorem Fmt.mval_minNormal (f : Fmt) : f.mval f.minNormal = 2 ^ (1 - (f.bias : Int)) := by
  have h := f.mval_place 0 (2 ^ f.fw) (fun h => absurd rfl h) (Nat.pow_le_pow_right two_pos (Nat.le_succ _))
  rw [Nat.zero_mul, Nat.zero_add] at h
  unfold Fmt.minNormal
  rw [h]
  push_cast
  rw [← zpow_natCast, ← zpow_add₀ two_ne_zero]
  congr 1
  ring

/-! ### One rounding (R131, R134) -/
section
variable (f : Fmt) (md : Mode) (neg : Bool) (m : Nat) (e : Int) (st : Bool)
/-- The exponent of the magnitude's leading bit, and of the last place that the format keeps of it. -/
def topOf : Int := e + bitLen m - 1
def Fmt.lastPlace : Int := max (topOf m e - f.fw) (1 - (f.bias : Int) - f.fw)
/-- The significand that the mode picks, the magnitude cut at 2^q. -/
def pickedAt (q : Int) : Nat :=
  if roundsUp md neg (cutAt m e st q).1 (cutAt m e st q).2 then (cutAt m e st q).1 + 1 else (cutAt m e st q).1
/-- The magnitude bits that the mode picks. -/
def Fmt.picked : Nat := (f.lastPlace m e + f.bias + f.fw - 1).toNat * 2 ^ f.fw + pickedAt md neg m e st (f.lastPlace m e)
/-- Tiny after rounding: the result, its exponent unbounded, lies below the normal numbers (R134). -/
def Fmt.isTiny : Bool :=
  decide ((if pickedAt md neg m e st (topOf m e - f.fw) = 2 ^ (f.fw + 1) then topOf m e + 1 else topOf m e) < 1 - (f.bias : Int))
theorem roundMag_eq : roundMag f md neg m e st =
    if f.infBits ≤ f.picked md neg m e st then
      { bits := signed f neg (if f.e4m3 then f.maxBits else if toInf md neg then f.infBits else f.maxBits), flags := 20 }
    else
      { bits := signed f neg (f.picked md neg m e st)
        flags := if (cutAt m e st (f.lastPlace m e)).2 = 0 then 0 else if f.isTiny md neg m e st then 24 else 16
        tiny := f.isTiny md neg m e st } := rfl
theorem roundMag_of_overflow (h : f.infBits ≤ f.picked md neg m e st) : roundMag f md neg m e st =
    { bits := signed f neg (if f.e4m3 then f.maxBits else if toInf md neg then f.infBits else f.maxBits), flags := 20 } :=
  (roundMag_eq ..).trans (if_pos h)
theorem roundMag_of_fits (h : f.picked md neg m e st < f.infBits) : roundMag f md neg m e st =
    { bits := signed f neg (f.picked md neg m e st)
      flags := if (cutAt m e st (f.lastPlace m e)).2 = 0 then 0 else if f.isTiny md neg m e st then 24 else 16
      tiny := f.isTiny md neg m e st } :=
  (roundMag_eq ..).trans (if_neg (not_le.mpr h))
end
/-- What is left over lies below the last place where the magnitude has two bits more than the format. -/
theorem Fmt.lastPlace_gt (f : Fmt) {m : Nat} (e : Int) (hw : 2 ^ (f.fw + 2) ≤ m) : e < f.lastPlace m e := by
  have : f.fw + 2 < bitLen m := (Nat.pow_lt_pow_iff_right (one_lt_two)).mp (hw.trans_lt (lt_two_pow_bitLen m))
  unfold Fmt.lastPlace topOf
  omega
section
variable {m : Nat} {e : Int} {st : Bool} {x : ℚ} (h : Holds m e st x)
include h
theorem Holds.le_top (hm : 0 < m) : (2 : ℚ) ^ topOf m e ≤ x := by
  have low : (m : ℚ) * 2 ^ e ≤ x := by
    cases st with
    | false => exact (h.whole rfl).ge
    | true => exact (h.above rfl).1.le
  have lead : (2 : ℚ) ^ (bitLen m - 1) ≤ m := by exact_mod_cast two_pow_bitLen_le hm.ne'
  refine le_trans ?_ low
  rw [show topOf m e = (bitLen m - 1 : Nat) + e by have := bitLen_pos hm.ne'; unfold topOf; omega, zpow_add₀ two_ne_zero, zpow_natCast]
  exact (mul_le_mul_iff_left₀ (zpow_pos two_pos e)).mpr lead
theorem Holds.lt_top : x < (2 : ℚ) ^ (topOf m e + 1) := by
  have high : x < (m + 1 : ℚ) * 2 ^ e := by
    cases st with
    | false => rw [h.whole rfl]; exact (mul_lt_mul_iff_left₀ (zpow_pos two_pos e)).mpr (lt_add_one _)
    | true => exact (h.above rfl).2
  have lead : (m : ℚ) + 1 ≤ 2 ^ bitLen m := by exact_mod_cast lt_two_pow_bitLen m
  refine lt_of_lt_of_le high ?_
  rw [show topOf m e + 1 = (bitLen m : Int) + e by unfold topOf; omega, zpow_add₀ two_ne_zero, zpow_natCast]
  exact (mul_le_mul_iff_left₀ (zpow_pos two_pos e)).mpr lead
/-- A tiny result's magnitude lies below the normal numbers. -/
theorem Holds.lt_of_tiny {f : Fmt} {md : Mode} {neg : Bool} (ht : f.isTiny md neg m e st = true) : x < 2 ^ (1 - (f.bias : Int)) := by
  refine lt_of_lt_of_le (h.lt_top) (zpow_le_zpow_right₀ one_le_two ?_)
  have := of_decide_eq_true ht
  split at this <;> omega
/-- The significand that is cut off at the format's last place, below the value, is one of the format. -/
theorem Holds.cut_place (hm : 0 < m) (f : Fmt) {δ : ℚ} {n : Nat} (h0 : 0 ≤ δ) (h1 : δ < 1) (hx : x = (n + δ) * 2 ^ f.lastPlace m e) :
    n < 2 ^ (f.fw + 1) ∧ ((f.lastPlace m e + f.bias + f.fw - 1).toNat ≠ 0 → 2 ^ f.fw ≤ n) := by
  have unit : (0 : ℚ) < 2 ^ f.lastPlace m e := zpow_pos two_pos _
  constructor
  · have high : (n : ℚ) * 2 ^ f.lastPlace m e < 2 ^ (f.fw + 1) * 2 ^ f.lastPlace m e :=
      calc (n : ℚ) * 2 ^ f.lastPlace m e ≤ x := by rw [hx]; exact (mul_le_mul_iff_left₀ unit).mpr (le_add_of_nonneg_right h0)
        _ < 2 ^ (topOf m e + 1) := h.lt_top
        _ ≤ 2 ^ (((f.fw + 1 : Nat) : Int) + f.lastPlace m e) := zpow_le_zpow_right₀ one_le_two (by unfold Fmt.lastPlace; omega)
        _ = 2 ^ (f.fw + 1) * 2 ^ f.lastPlace m e := by rw [zpow_add₀ two_ne_zero, zpow_natCast]
    exact_mod_cast (mul_lt_mul_iff_left₀ unit).mp high
  · intro hE
    have low : (2 : ℚ) ^ f.fw * 2 ^ f.lastPlace m e < (n + 1) * 2 ^ f.lastPlace m e :=
      calc (2 : ℚ) ^ f.fw * 2 ^ f.lastPlace m e = 2 ^ ((f.fw : Int) + f.lastPlace m e) := by rw [zpow_add₀ two_ne_zero, zpow_natCast]
        _ ≤ 2 ^ topOf m e := zpow_le_zpow_right₀ one_le_two (by unfold Fmt.lastPlace at hE ⊢; omega)
        _ ≤ x := h.le_top hm
        _ < (n + 1) * 2 ^ f.lastPlace m e := by rw [hx]; exact (mul_lt_mul_iff_left₀ unit).mpr (by linarith)
    exact Nat.lt_succ_iff.mp (by exact_mod_cast (mul_lt_mul_iff_left₀ unit).mp low)
end
/-- `c`, one of the magnitude bits `lo` and `lo + 1` that x lies between, is the mode's pick. -/
structure Fmt.Picks (f : Fmt) (md : Mode) (neg : Bool) (x : ℚ) (lo c : Nat) : Prop where
  low : f.mval lo ≤ x
  high : x < f.mval (lo + 1)
  one : c = lo ∨ c = lo + 1
  upper : c = lo + 1 ↔ takesUpper md neg (decide (lo % 2 = 1)) (x - f.mval lo) (f.mval (lo + 1) - x)
/-- R131, R134: rounding picks a neighbour, and the cut leaves nothing where the lower one is the value. -/
theorem Holds.picks {f : Fmt} (hf : 0 < f.fw) {m : Nat} {e : Int} {st : Bool} {x : ℚ} (hm : 0 < m) (h : Holds m e st x) (hw : st = true → 2 ^ (f.fw + 2) ≤ m)
    (md : Mode) (neg : Bool) :
    ∃ lo, f.Picks md neg x lo (f.picked md neg m e st) ∧ ((cutAt m e st (f.lastPlace m e)).2 = 0 ↔ f.mval lo = x) := by
  obtain ⟨δ, h0, h1, hx, hr⟩ := cutAt_spec h (q := f.lastPlace m e) fun hs => f.lastPlace_gt e (hw hs)
  obtain ⟨hn, hE⟩ := h.cut_place hm f h0 h1 hx
  have unit : (0 : ℚ) < 2 ^ f.lastPlace m e := zpow_pos two_pos _
  have place : ((f.lastPlace m e + f.bias + f.fw - 1).toNat : Int) + 1 - f.bias - f.fw = f.lastPlace m e := by unfold Fmt.lastPlace; omega
  have pick := roundsUp_iff md neg (cutAt m e st (f.lastPlace m e)).1 δ
  rw [← hr] at pick
  unfold Fmt.picked pickedAt
  generalize (f.lastPlace m e + f.bias + f.fw - 1).toNat = E at *
  generalize (cutAt m e st (f.lastPlace m e)).1 = n, (cutAt m e st (f.lastPlace m e)).2 = rest at *
  have lower := f.mval_place E n hE hn.le
  have upper := f.mval_place E (n + 1) (fun h => (hE h).trans (Nat.le_succ n)) hn
  rw [place] at lower upper
  push_cast at upper
  have parity : (E * 2 ^ f.fw + n) % 2 = n % 2 := by
    obtain ⟨k, hk⟩ : ∃ k, f.fw = k + 1 := ⟨f.fw - 1, by omega⟩
    rw [hk, pow_succ, ← mul_assoc]
    omega
  refine ⟨E * 2 ^ f.fw + n, ⟨?_, ?_, ?_, ?_⟩, ?_⟩
  · rw [lower, hx]
    exact (mul_le_mul_iff_left₀ unit).mpr (le_add_of_nonneg_right h0)
  · rw [add_assoc, upper, hx]
    exact (mul_lt_mul_iff_left₀ unit).mpr (by linarith)
  · split <;> omega
  · rw [add_assoc _ n 1, lower, upper, hx, parity, ← sub_mul, ← sub_mul, takesUpper_scale _ _ _ _ _ unit,
      show (n + δ : ℚ) - n = δ by ring, show (n + 1 : ℚ) - (n + δ) = 1 - δ by ring, ← pick]
    split <;> simp_all
  · rw [hr, restOf_eq_zero, lower, hx, mul_left_inj' unit.ne']
    simp

/-! ### Bit patterns and their values (R127, R128) -/
section
variable (f : Fmt) (n : Bool) (c b : Nat)
/-- The significand and the exponent of finite magnitude bits. -/
def Fmt.sig : Nat := if c / 2 ^ f.fw = 0 then c % 2 ^ f.fw else 2 ^ f.fw + c % 2 ^ f.fw
def Fmt.exp : Int := if c / 2 ^ f.fw = 0 then 1 - (f.bias : Int) - f.fw else (c / 2 ^ f.fw : Nat) - (f.bias : Int) - f.fw
theorem Fmt.mval_eq : f.mval c = f.sig c * 2 ^ f.exp c := by
  unfold Fmt.mval Fmt.sig Fmt.exp
  split
  next h =>
    have h' : c = c % 2 ^ f.fw := by have := Nat.div_add_mod c (2 ^ f.fw); rw [h] at this; omega
    rw [← h']
  next h => rfl
theorem Fmt.sig_lt : f.sig c < 2 ^ (f.fw + 1) := by
  have := Nat.mod_lt c (Nat.two_pow_pos f.fw)
  unfold Fmt.sig
  rw [pow_succ]
  split <;> omega
theorem Fmt.sig_eq_zero_iff : f.sig c = 0 ↔ c = 0 := by
  have pos := Nat.two_pow_pos f.fw
  have := Nat.div_add_mod c (2 ^ f.fw)
  unfold Fmt.sig
  split
  next h => rw [h] at this; omega
  next h => exact ⟨fun h' => by omega, fun h' => absurd (by rw [h', Nat.zero_div]) h⟩
theorem Fmt.infBits_lt_signBit : f.infBits < f.signBit := by
  unfold Fmt.infBits Fmt.signBit
  split
  · exact Nat.sub_lt (Nat.two_pow_pos _) Nat.one_pos
  · rw [pow_add]
    exact Nat.mul_lt_mul_of_pos_right (Nat.sub_lt (Nat.two_pow_pos _) Nat.one_pos) (Nat.two_pow_pos _)
theorem Fmt.mag_lt : f.mag b < f.signBit := Nat.mod_lt _ (Nat.two_pow_pos _)
theorem Fmt.mag_signed {c : Nat} (h : c < f.signBit) : f.mag (signed f n c) = c := by
  unfold Fmt.mag signed
  split
  · rw [Nat.add_mod_right, Nat.mod_eq_of_lt h]
  · exact Nat.mod_eq_of_lt h
theorem Fmt.neg_signed {c : Nat} (h : c < f.signBit) : f.neg (signed f n c) = n := by
  have pos : 0 < f.signBit := Nat.two_pow_pos _
  unfold Fmt.neg signed
  cases n with
  | true => rw [if_pos rfl, Nat.add_div_right _ pos, Nat.div_eq_of_lt h]; rfl
  | false => rw [if_neg Bool.false_ne_true, Nat.div_eq_of_lt h]; rfl
theorem Fmt.signed_neg_mag {b : Nat} (h : b < 2 * f.signBit) : signed f (f.neg b) (f.mag b) = b := by
  have pos : 0 < f.signBit := Nat.two_pow_pos _
  have two : b / f.signBit < 2 := Nat.div_lt_of_lt_mul (by rwa [Nat.mul_comm])
  have split := Nat.div_add_mod b f.signBit
  unfold Fmt.neg Fmt.mag signed
  obtain h0 | h1 := Nat.le_one_iff_eq_zero_or_eq_one.mp (Nat.lt_succ_iff.mp two)
  · rw [h0] at split ⊢
    simpa using split
  · rw [h1] at split ⊢
    simp only [decide_true, Nat.one_mod, if_true]
    omega
theorem Fmt.val_of_lt {b : Nat} (h : f.mag b < f.infBits) : f.val b = .fin (f.neg b) (f.sig (f.mag b)) (f.exp (f.mag b)) := by
  have special : ¬((!f.e4m3 && f.mag b / 2 ^ f.fw = 2 ^ f.ew - 1) = true) := by
    rw [Bool.and_eq_true, Bool.not_eq_true', decide_eq_true_eq]
    rintro ⟨h4, hx⟩
    refine absurd h (not_lt.mpr ?_)
    unfold Fmt.infBits
    rw [h4, ← hx]
    exact Nat.div_mul_le_self ..
  unfold Fmt.val Fmt.sig Fmt.exp
  dsimp only
  rw [if_neg (by simp [h.ne]), if_neg special]
  split <;> rfl
theorem Fmt.mag_lt_of_finite {b : Nat} (h : (f.val b).finite) : f.mag b < f.infBits := by
  refine Classical.byContradiction fun hge => ?_
  have hge := not_lt.mp hge
  have lt := f.mag_lt b
  unfold Fmt.val at h
  dsimp only at h
  cases h4 : f.e4m3 with
  | true =>
    have : f.infBits = f.signBit - 1 := by unfold Fmt.infBits; rw [h4]; rfl
    rw [h4, if_pos (by simp; omega)] at h
    exact h
  | false =>
    have inf : f.infBits = (2 ^ f.ew - 1) * 2 ^ f.fw := by unfold Fmt.infBits; rw [h4]; rfl
    have lo : 2 ^ f.ew - 1 ≤ f.mag b / 2 ^ f.fw := (Nat.le_div_iff_mul_le (Nat.two_pow_pos _)).mpr (inf ▸ hge)
    have hi : f.mag b / 2 ^ f.fw < 2 ^ f.ew := Nat.div_lt_of_lt_mul (by rw [Nat.mul_comm, ← pow_add]; exact lt)
    rw [h4, if_neg (by simp), if_pos (by simp; omega)] at h
    split at h <;> exact h
theorem Fmt.val_infBits (h4 : f.e4m3 = false) : f.val (signed f n f.infBits) = .inf n := by
  have lt := f.infBits_lt_signBit
  have inf : f.infBits = (2 ^ f.ew - 1) * 2 ^ f.fw := by unfold Fmt.infBits; rw [h4]; rfl
  unfold Fmt.val
  dsimp only
  rw [f.mag_signed n lt, f.neg_signed n lt, h4, if_neg (by simp), inf, Nat.mul_div_cancel _ (Nat.two_pow_pos _), Nat.mul_mod_left, if_pos (by simp), if_pos rfl]
/-- A finite pattern's value. -/
theorem Fmt.real_val {b : Nat} (h : f.mag b < f.infBits) : (f.val b).finite ∧ (f.val b).real = (if f.neg b then -1 else 1) * f.mval (f.mag b) := by
  rw [f.val_of_lt h, f.mval_eq]
  exact ⟨trivial, mul_assoc ..⟩
end

/-! ### A rounding, and a value of the format rounded (R127, R128, R134) -/
theorem fw_pos : ∀ f ∈ [fp64, fp32, fp16, bf16, fe4m3, fe5m2], 0 < f.fw := by decide
theorem roundingPicksNeighbours : Clause.RoundingPicksNeighbours := by
  intro f md neg m e st x hf hm hx ha r
  have h : Holds m e st x := ⟨hx, fun hs => ⟨(ha hs).1, (ha hs).2.1⟩⟩
  obtain ⟨lo, picks, exact⟩ := h.picks (fw_pos f hf) hm (fun hs => (ha hs).2.2) md neg
  refine ⟨lo, f.picked md neg m e st, picks.low, picks.high, picks.one, picks.upper, fun hc => ?_, fun hc => ?_⟩
  · have hr : r = _ := roundMag_of_fits f md neg m e st hc
    rw [hr, ← exact]
    refine ⟨rfl, ?_⟩
    dsimp only
    split
    next h0 => exact ⟨fun _ => h0, fun _ => rfl⟩
    next h0 => exact ⟨fun h => absurd h (by split <;> decide), fun h => absurd h h0⟩
  · have hr : r = _ := roundMag_of_overflow f md neg m e st hc
    rw [hr]
    exact ⟨rfl, rfl⟩
theorem finish_zero (f : Fmt) (md : Mode) (fl n : Bool) (e : Int) : finish f md fl (.val n 0 e false) = { bits := signed f n 0 } := rfl
theorem finish_val (f : Fmt) (md : Mode) (n : Bool) {m : Nat} (e : Int) (hm : 0 < m) :
    finish f md false (.val n m e false) = roundMag f md n m e false := if_neg (by simp [hm.ne'])
/-- No mode leaves a value that has nothing below it. -/
theorem not_takesUpper_zero {md : Mode} {neg odd : Bool} {above : ℚ} (h : 0 < above) : ¬takesUpper md neg odd 0 above := by
  cases md with
  | rne => exact fun up => up.elim h.not_gt fun e => h.ne' e.1
  | rz => exact id
  | rd => exact fun up => up.2 rfl
  | ru => exact fun up => up.2 rfl
  | rna => exact not_le.mpr h
/-- A value of the format is its own lower neighbour. -/
theorem Fmt.Picks.of_value {f : Fmt} {md : Mode} {neg : Bool} {x : ℚ} {lo c k : Nat} (h : f.Picks md neg x lo c) (hx : f.mval k = x) : lo = k ∧ c = k := by
  have mono := f.mval_strictMono
  obtain rfl : lo = k := by
    have h1 := mono.le_iff_le.mp (h.low.trans hx.ge)
    have h2 := mono.lt_iff_lt.mp (hx.trans_lt h.high)
    omega
  refine ⟨rfl, h.one.resolve_right fun hc => ?_⟩
  have up := h.upper.mp hc
  rw [hx, sub_self] at up
  exact not_takesUpper_zero (sub_pos.mpr h.high) up
theorem roundsUp_zero (md : Mode) (neg : Bool) (n : Nat) : roundsUp md neg n 0 = false := by cases md <;> simp [roundsUp]
/-- A magnitude with no more bits than the format's significand is tiny where it lies below the normal numbers. -/
theorem Fmt.isTiny_of_short (f : Fmt) (md : Mode) (neg : Bool) {m : Nat} (e : Int) (hm : 0 < m) (hs : m < 2 ^ (f.fw + 1)) :
    f.isTiny md neg m e false = decide ((m : ℚ) * 2 ^ e < 2 ^ (1 - (f.bias : Int))) := by
  have holds := Holds.exact m e
  have len : bitLen m ≤ f.fw + 1 := by
    have := two_pow_bitLen_le hm.ne'
    have := (Nat.pow_lt_pow_iff_right (one_lt_two)).mp (this.trans_lt hs)
    omega
  have cut : cutAt m e false (topOf m e - f.fw) = (m * 2 ^ (e - (topOf m e - f.fw)).toNat, 0) := if_pos (by unfold topOf; omega)
  have short : m * 2 ^ (e - (topOf m e - f.fw)).toNat ≠ 2 ^ (f.fw + 1) := by
    refine ne_of_lt (lt_of_lt_of_le (Nat.mul_lt_mul_of_pos_right (lt_two_pow_bitLen m) (Nat.two_pow_pos _)) ?_)
    rw [← pow_add]
    exact Nat.pow_le_pow_right two_pos (by unfold topOf; omega)
  unfold Fmt.isTiny pickedAt
  rw [cut, roundsUp_zero, if_neg Bool.false_ne_true, if_neg short]
  refine decide_eq_decide.mpr ⟨fun h => holds.lt_top.trans_le (zpow_le_zpow_right₀ one_le_two (by omega)), fun h => ?_⟩
  exact (zpow_lt_zpow_iff_right₀ one_lt_two).mp ((holds.le_top hm).trans_lt h)
theorem finiteValuesRoundToThemselves : Clause.FiniteValuesRoundToThemselves := by
  intro f md b hf hb fin
  have lt := f.mag_lt_of_finite fin
  have whole := f.signed_neg_mag hb
  rw [f.val_of_lt lt]
  change finish f md false (.val (f.neg b) (f.sig (f.mag b)) (f.exp (f.mag b)) false) = _
  by_cases h0 : f.mag b = 0
  · rw [(f.sig_eq_zero_iff _).mpr h0, finish_zero]
    rw [h0] at whole
    rw [whole]
    unfold Fmt.isSub
    rw [h0]
    rfl
  · have hm : 0 < f.sig (f.mag b) := Nat.pos_of_ne_zero (mt (f.sig_eq_zero_iff _).mp h0)
    have holds := Holds.exact (f.sig (f.mag b)) (f.exp (f.mag b))
    rw [← f.mval_eq] at holds
    obtain ⟨lo, picks, exact⟩ := holds.picks (fw_pos f hf) hm Bool.noConfusion md (f.neg b)
    obtain ⟨hlo, hc⟩ := picks.of_value rfl
    have tiny : f.isTiny md (f.neg b) (f.sig (f.mag b)) (f.exp (f.mag b)) false = f.isSub b := by
      rw [f.isTiny_of_short md _ _ hm (f.sig_lt _), ← f.mval_eq, ← f.mval_minNormal]
      unfold Fmt.isSub
      simp [f.mval_strictMono.lt_iff_lt, h0]
    rw [finish_val _ _ _ _ hm, roundMag_of_fits _ _ _ _ _ _ (hc.trans_lt lt), hc, whole, tiny, if_pos (exact.mpr (congrArg f.mval hlo))]

/-- Settles O23: the cut leaves a fraction between 0 and 1, which the mode looks at, and a value of the format leaves none. -/
theorem floatRounding : Obligations.FloatRounding := ⟨roundingPicksNeighbours, finiteValuesRoundToThemselves⟩

end Sys2Proof.Machine
end

