-- ==== Sys2Proof/Proofs/FloatOrder.lean ====
section
/-!
PROOFS. Proofs/FloatOrder.lean: the order of values, conversion to integers, and special cases (R136, R154, R156, R157).
-/
namespace Sys2Proof.Machine

/-! ### The order of values (R157) -/
theorem Val.lt_iff {a b : Val} (ha : a.finite) (hb : b.finite) : Val.lt a b = true ↔ a.real < b.real := by
  obtain ⟨na, ma, ea, rfl⟩ := Val.finite_iff.mp ha
  obtain ⟨nb, mb, eb, rfl⟩ := Val.finite_iff.mp hb
  change decide (scaled na ma (ea - min ea eb).toNat < scaled nb mb (eb - min ea eb).toNat) = true ↔ _
  rw [decide_eq_true_eq, ← scaled_real na ma (min_le_left ea eb), ← scaled_real nb mb (min_le_right ea eb),
    mul_lt_mul_iff_left₀ (zpow_pos two_pos _), Int.cast_lt]
theorem Val.isNan_of_finite {a : Val} (h : a.finite) : a.isNan = false := by
  obtain ⟨n, m, e, rfl⟩ := Val.finite_iff.mp h
  rfl
theorem Val.le_iff {a b : Val} (ha : a.finite) (hb : b.finite) : Val.le a b = true ↔ a.real ≤ b.real := by
  unfold Val.le
  rw [Val.isNan_of_finite ha, Val.isNan_of_finite hb, ← not_lt, ← Val.lt_iff hb ha]
  simp
theorem Val.eq_iff {a b : Val} (ha : a.finite) (hb : b.finite) : Val.eq a b = true ↔ a.real = b.real := by
  have order : a.real = b.real ↔ ¬a.real < b.real ∧ ¬b.real < a.real := by rw [not_lt, not_lt, and_comm, ← le_antisymm_iff]
  unfold Val.eq
  rw [Val.isNan_of_finite ha, Val.isNan_of_finite hb, order, ← Val.lt_iff hb ha, ← Val.lt_iff ha hb]
  simp
theorem Val.lt_of_nan {a b : Val} (h : a.isNan = true ∨ b.isNan = true) : Val.lt a b = false := by
  cases a <;> cases b <;> simp [Val.lt, Val.isNan] at h ⊢
theorem floatOrder : Clause.FloatOrder := by
  intro a b
  refine ⟨fun ha hb => ⟨Val.lt_iff ha hb, Val.eq_iff ha hb, Val.le_iff ha hb⟩, fun ha => ?_, fun h => ⟨Val.lt_of_nan h, ?_, ?_⟩⟩
  · obtain ⟨n, m, e, rfl⟩ := Val.finite_iff.mp ha
    exact ⟨rfl, rfl, rfl, rfl⟩
  · unfold Val.eq
    obtain h | h := h <;> simp [h]
  · unfold Val.le
    obtain h | h := h <;> simp [h]

/-! ### Integers (R136) -/
/-- Between the magnitudes q and q + 1, of the sign n, the mode takes the upper one for q + δ where `up`. -/
structure Rounds (md : Mode) (n : Bool) (q : Nat) (δ : ℚ) (up : Bool) : Prop where
  nonneg : 0 ≤ δ
  below : δ < 1
  choice : up = true ↔ takesUpper md n (decide (q % 2 = 1)) δ (1 - δ)
/-- A sign, the magnitude picked, and the integer of both. -/
def signOf (n : Bool) : Int := if n then -1 else 1
def magOf (q : Nat) (up : Bool) : Nat := if up then q + 1 else q
def pickOf (n : Bool) (q : Nat) (up : Bool) : Int := signOf n * magOf q up
@[push_cast] theorem pickOf_cast (n : Bool) (q : Nat) (up : Bool) : (pickOf n q up : ℚ) = signOf n * magOf q up := Int.cast_mul ..
theorem toIntegral_eq (md : Mode) (n : Bool) (m : Nat) (e : Int) : toIntegral md n m e =
    (if n then -(magOf (cutAt m e false 0).1 (roundsUp md n (cutAt m e false 0).1 (cutAt m e false 0).2) : Int)
      else magOf (cutAt m e false 0).1 (roundsUp md n (cutAt m e false 0).1 (cutAt m e false 0).2), decide ((cutAt m e false 0).2 ≠ 0)) := rfl
/-- R136: a value is ±(q + δ), and the integer ±q or ±(q + 1), inexact where δ is not 0. -/
theorem toIntegral_spec (md : Mode) (n : Bool) (m : Nat) (e : Int) :
    ∃ q δ up nx, Rounds md n q δ up ∧ (Val.fin n m e).real = signOf n * (q + δ) ∧ (nx = true ↔ δ ≠ 0) ∧ toIntegral md n m e = (pickOf n q up, nx) := by
  obtain ⟨δ, h0, h1, hx, hr⟩ := cutAt_spec (Holds.exact m e) (q := 0) Bool.noConfusion
  rw [zpow_zero, mul_one] at hx
  refine ⟨(cutAt m e false 0).1, δ, roundsUp md n (cutAt m e false 0).1 (cutAt m e false 0).2, decide ((cutAt m e false 0).2 ≠ 0),
    ⟨h0, h1, ?_⟩, ?_, ?_, ?_⟩
  · rw [hr]
    exact roundsUp_iff ..
  · rw [← hx]
    cases n <;> simp [Val.real, signOf]
  · rw [decide_eq_true_eq, hr, Ne, restOf_eq_zero]
  · rw [toIntegral_eq]
    cases n <;> simp [pickOf, signOf]
theorem abs_signOf (n : Bool) {x : ℚ} (hx : 0 ≤ x) : |(signOf n : ℚ) * x| = x := by
  cases n <;> simp [signOf, abs_of_nonneg hx]
section
variable {md : Mode} {n : Bool} {q : Nat} {δ : ℚ} {up : Bool} (h : Rounds md n q δ up)
include h
theorem Rounds.of_up (hu : up = true) : 0 < δ := by
  refine lt_of_le_of_ne h.nonneg fun h0 => ?_
  have := h.choice.mp hu
  rw [← h0] at this
  exact not_takesUpper_zero (by norm_num) this
theorem Rounds.dist : |(pickOf n q up : ℚ) - signOf n * (q + δ)| = if up then 1 - δ else δ := by
  have h0 := h.nonneg
  have h1 := h.below
  have sign : |(signOf n : ℚ)| = 1 := by cases n <;> simp [signOf]
  push_cast
  rw [← mul_sub, abs_mul, sign, one_mul]
  cases up with
  | false => simp [magOf, abs_of_nonneg h0]
  | true =>
    rw [show ((magOf q true : Nat) : ℚ) - (q + δ) = 1 - δ by simp only [magOf, if_true]; push_cast; ring]
    exact abs_of_pos (by linarith)
theorem Rounds.dist_lt : |(pickOf n q up : ℚ) - signOf n * (q + δ)| < 1 := by
  rw [h.dist]
  cases up with
  | false => exact h.below
  | true => exact sub_lt_self _ (h.of_up rfl)
theorem Rounds.eq_iff : (pickOf n q up : ℚ) = signOf n * (q + δ) ↔ δ = 0 := by
  rw [← sub_eq_zero, ← abs_eq_zero, h.dist]
  cases up with
  | false => rfl
  | true => exact ⟨fun e => absurd h.below (by simp only [if_true] at e; linarith), fun e => absurd (h.of_up rfl) e.not_gt⟩
theorem Rounds.mag_le (hu : up = false) : (magOf q up : ℚ) ≤ q + δ := by
  rw [hu]
  exact le_add_of_nonneg_right h.nonneg
theorem Rounds.le_mag (hu : δ ≠ 0 → up = true) : (q + δ : ℚ) ≤ magOf q up := by
  have := h.below
  by_cases h0 : δ = 0
  · rw [h0]
    cases up <;> simp [magOf]
  · rw [hu h0]
    simp only [magOf, if_true]
    push_cast
    linarith
end
section
variable {n : Bool} {q : Nat} {δ : ℚ} {up : Bool}
theorem Rounds.rd_le (h : Rounds .rd n q δ up) : (pickOf n q up : ℚ) ≤ signOf n * (q + δ) := by
  cases n with
  | false =>
    have := h.mag_le (Bool.eq_false_iff.mpr fun hu => Bool.noConfusion (h.choice.mp hu).1)
    simpa [pickOf_cast, signOf] using this
  | true =>
    have := h.le_mag fun h0 => h.choice.mpr ⟨rfl, h0⟩
    simpa [pickOf_cast, signOf] using this
theorem Rounds.le_ru (h : Rounds .ru n q δ up) : signOf n * (q + δ) ≤ (pickOf n q up : ℚ) := by
  cases n with
  | true =>
    have := h.mag_le (Bool.eq_false_iff.mpr fun hu => Bool.noConfusion (h.choice.mp hu).1)
    simpa [pickOf_cast, signOf] using this
  | false =>
    have := h.le_mag fun h0 => h.choice.mpr ⟨rfl, h0⟩
    simpa [pickOf_cast, signOf] using this
theorem Rounds.rz_le (h : Rounds .rz n q δ up) : |(pickOf n q up : ℚ)| ≤ |signOf n * (q + δ)| := by
  have := h.nonneg
  rw [abs_signOf n (by positivity)]
  push_cast
  rw [abs_signOf n (Nat.cast_nonneg _)]
  exact h.mag_le (Bool.eq_false_iff.mpr fun hu => h.choice.mp hu)
variable {md : Mode} (h : Rounds md n q δ up)
include h
theorem Rounds.nearest (hm : md = .rne ∨ md = .rna) : |(pickOf n q up : ℚ) - signOf n * (q + δ)| ≤ 1 / 2 := by
  have choice := h.choice
  rw [h.dist]
  cases up with
  | true =>
    simp only [true_iff] at choice
    obtain rfl | rfl := hm
    · obtain h1 | h1 := choice <;> simp only [if_true] <;> linarith
    · have : 1 - δ ≤ δ := choice
      simp only [if_true]
      linarith
  | false =>
    simp only [Bool.false_eq_true, false_iff] at choice
    simp only [Bool.false_eq_true, if_false]
    obtain rfl | rfl := hm
    · have := not_lt.mp (not_or.mp choice).1
      linarith
    · have : ¬1 - δ ≤ δ := choice
      linarith
theorem Rounds.half (hd : |(pickOf n q up : ℚ) - signOf n * (q + δ)| = 1 / 2) : δ = 1 / 2 := by
  rw [h.dist] at hd
  split at hd <;> linarith
end
theorem Rounds.rne_even {n : Bool} {q : Nat} {up : Bool} (h : Rounds .rne n q (1 / 2) up) : pickOf n q up % 2 = 0 := by
  have odd : up = true ↔ q % 2 = 1 := by
    rw [h.choice]
    change (1 - 1 / 2 : ℚ) < 1 / 2 ∨ (1 - 1 / 2 : ℚ) = 1 / 2 ∧ decide (q % 2 = 1) = true ↔ _
    norm_num
  unfold pickOf signOf magOf
  cases up <;> cases n <;> simp at odd ⊢ <;> omega
theorem Rounds.rna_away {n : Bool} {q : Nat} {up : Bool} (h : Rounds .rna n q (1 / 2) up) :
    |(signOf n : ℚ) * (q + 1 / 2)| < |(pickOf n q up : ℚ)| := by
  obtain rfl : up = true := h.choice.mpr (show (1 - 1 / 2 : ℚ) ≤ 1 / 2 by norm_num)
  push_cast
  rw [abs_signOf n (by positivity), abs_signOf n (Nat.cast_nonneg _)]
  simp only [magOf, if_true]
  push_cast
  linarith
theorem toInteger_fin (md : Mode) (lo hi : Int) (n : Bool) (m : Nat) (e : Int) :
    toInteger md lo hi (.fin n m e) =
      if (toIntegral md n m e).1 < lo then (lo, 1) else if (toIntegral md n m e).1 > hi then (hi, 1)
      else ((toIntegral md n m e).1, if (toIntegral md n m e).2 then 16 else 0) := rfl
theorem floatToInteger : Clause.FloatToInteger := by
  intro md lo hi v hlo hhi fin r
  obtain ⟨n, m, e, rfl⟩ := Val.finite_iff.mp fin
  obtain ⟨q, δ, up, nx, h, real, hnx, ht⟩ := toIntegral_spec md n m e
  have hr : r = _ := toInteger_fin md lo hi n m e
  simp only [ht] at hr
  refine ⟨pickOf n q up, ?_⟩
  rw [real, hr]
  refine ⟨h.dist_lt, fun hm => (hm ▸ h).rd_le, fun hm => (hm ▸ h).le_ru, fun hm => (hm ▸ h).rz_le, h.nearest, fun hm hd => ?_, fun hm hd => ?_,
    fun hz => if_pos hz, fun hz => ?_, fun hl hh => ?_⟩
  · subst hm
    exact (h.half hd ▸ h).rne_even
  · subst hm
    rw [h.half hd]
    exact (h.half hd ▸ h).rna_away
  · rw [if_neg (by omega), if_pos hz]
  · rw [if_neg (not_lt.mpr hl), if_neg (not_lt.mpr hh)]
    refine congrArg (Prod.mk _) ?_
    rw [if_congr h.eq_iff rfl rfl]
    cases nx <;> simp_all

/-! ### Special cases (R154, R156) -/
theorem Val.not_nan_of_lt {a b : Val} (h : Val.lt a b = true) : a.isNan = false ∧ b.isNan = false := by
  refine ⟨Bool.eq_false_iff.mpr fun ha => ?_, Bool.eq_false_iff.mpr fun hb => ?_⟩
  · exact Bool.false_ne_true ((Val.lt_of_nan (.inl ha)).symm.trans h)
  · exact Bool.false_ne_true ((Val.lt_of_nan (.inr hb)).symm.trans h)
section
variable (f : Fmt) {a b : Nat}
/-- R154: a number beats a NaN. -/
theorem minMax_number_nan (ha : (f.val a).isNan = false) (hb : (f.val b).isNan = true) :
    (minNum f a b).bits = a ∧ (minNum f b a).bits = a ∧ (maxNum f a b).bits = a ∧ (maxNum f b a).bits = a := by
  unfold minNum maxNum
  simp [ha, hb]
theorem minMax_lt (h : Val.lt (f.val a) (f.val b) = true) : (minNum f a b).bits = a ∧ (maxNum f a b).bits = b := by
  obtain ⟨ha, hb⟩ := Val.not_nan_of_lt h
  have ne : Val.eq (f.val a) (f.val b) = false := by
    unfold Val.eq
    simp [h]
  unfold minNum maxNum
  simp [ha, hb, ne, h]
end
theorem fp32_mag (b : Nat) : fp32.mag b = b % 2 ^ 31 := rfl
/-- R156: an inexact result keeps its magnitude, or is flushed. -/
theorem inexactBits_mag_le (fl n : Bool) {c : Nat} (hc : c < fp32.signBit) : fp32.mag (inexactBits fl n c).bits ≤ c := by
  have zero : fp32.mag (signed fp32 n 0) = 0 := fp32.mag_signed n (Nat.two_pow_pos _)
  unfold inexactBits
  split
  · cases fl with
    | true => exact zero.trans_le (Nat.zero_le c)
    | false => exact (fp32.mag_signed n hc).le
  · exact (fp32.mag_signed n hc).le
theorem trigOk_mag_le {cos neg : Bool} {m : Nat} {e : Int} {y : Word} (h : trigOk cos neg m e y = true) : fp32.mag y.toNat ≤ 0x3F800000 := by
  unfold trigOk at h
  split at h
  next => exact of_decide_eq_true (Bool.and_eq_true _ _ ▸ h).1
  next => exact Bool.noConfusion h
/-- R156: no sine or cosine exceeds 1. -/
theorem trigAt_mag_le (fn : Config.Fn) (cos neg : Bool) (m : Nat) (e : Int) (a : Word) (fl : Bool) :
    fp32.mag (trigAt fn cos neg m e a fl).bits ≤ 0x3F800000 := by
  unfold trigAt
  split
  · cases cos with
    | true => exact Nat.le_refl 0x3F800000
    | false => exact (fp32.mag_signed neg (Nat.two_pow_pos _)).trans_le (Nat.zero_le _)
  · extract_lets t near y
    have hy : fp32.mag y ≤ 0x3F800000 := by
      by_cases ok : trigOk cos neg m e (Config.trig fn a) = true
      · rw [show y = (Config.trig fn a).toNat from if_pos ok]
        exact trigOk_mag_le ok
      · rw [show y = near from if_neg ok, fp32.mag_signed _ ((Nat.min_le_left ..).trans_lt (by decide))]
        exact Nat.min_le_left ..
    split
    · exact hy
    · exact (inexactBits_mag_le fl _ (fp32.mag_lt y)).trans hy
theorem fnResult_trig {a : Word} (h : (fp32.val a.toNat).finite) (fl : Bool) :
    ∃ n m e, fnResult .sin fl a = trigAt .sin false n m e a fl ∧ fnResult .cos fl a = trigAt .cos true n m e a fl := by
  obtain ⟨n, m, e, hv⟩ := Val.finite_iff.mp h
  refine ⟨n, m, e, ?_, ?_⟩ <;> unfold fnResult <;> rw [hv]
theorem fnResult_nans (k : Config.Fn) (fl : Bool) :
    fnResult k fl 0x7FC00000 = { bits := 0x7FC00000 } ∧ fnResult k fl 0x7F800001 = { bits := 0x7FC00000, flags := 1 } := by
  cases k <;> exact ⟨rfl, rfl⟩
theorem floatSpecialCases : Clause.FloatSpecialCases := by
  refine ⟨fun a b => minMax_number_nan fp32, by decide, by decide, by decide, by decide, fun a b => minMax_lt fp32, fun fl =>
    ⟨fun k => fnResult_nans k fl, rfl, rfl, rfl, rfl, rfl, rfl, rfl, rfl, rfl, rfl, rfl, rfl, rfl, rfl, rfl, rfl, rfl, rfl, rfl, rfl, rfl, fun a h => ?_⟩⟩
  obtain ⟨n, m, e, hs, hc⟩ := fnResult_trig h fl
  rw [hs, hc, ← fp32_mag, ← fp32_mag]
  exact ⟨trigAt_mag_le .sin false n m e a fl, trigAt_mag_le .cos true n m e a fl⟩

/-- Settles O24: values scaled to one exponent, the integers beside a value, and the special cases one by one. -/
theorem floatOrderAndSpecials : Obligations.FloatOrderAndSpecials := ⟨floatOrder, floatToInteger, floatSpecialCases⟩

end Sys2Proof.Machine
end

