-- ==== Sys2Proof/Proofs/IntervalBounds.lean ====
section
/-!
PROOFS. Proofs/IntervalBounds.lean: bounds rounded outwards, and sums, differences and products of intervals (R133, R144, R146).
-/
namespace Sys2Proof.Machine

/-! ### Bounds (R133, R144) -/
/-- The mode of an upper or a lower bound. -/
def boundMode (up : Bool) : Mode := if up then .ru else .rd
theorem takesUpper_boundMode (up n odd : Bool) (below above : ℚ) : takesUpper (boundMode up) n odd below above ↔ up ≠ n ∧ below ≠ 0 := by
  cases up <;> cases n <;> simp [takesUpper, boundMode]
theorem toInf_boundMode (up n : Bool) : toInf (boundMode up) n = (up != n) := by cases up <;> cases n <;> rfl
section
variable {f : Fmt} {up n : Bool} {x : ℚ} {lo c : Nat} (h : f.Picks (boundMode up) n x lo c)
include h
theorem Fmt.Picks.towards (hn : up = n) : f.mval c ≤ x := by
  rw [h.one.resolve_right fun hc => ((takesUpper_boundMode ..).mp (h.upper.mp hc)).1 hn]
  exact h.low
theorem Fmt.Picks.away (hn : up ≠ n) : x ≤ f.mval c := by
  by_cases hx : f.mval lo = x
  · rw [(h.of_value hx).2, hx]
  · rw [h.upper.mpr ((takesUpper_boundMode ..).mpr ⟨hn, sub_ne_zero.mpr (Ne.symm hx)⟩)]
    exact h.high.le
end
/-- The magnitude bits `c` of a bound for the magnitude x: they reach it, or are infinity's, where the bound lies away from 0, and else stay
below it. -/
def Fmt.Bounds (f : Fmt) (away : Prop) (x : ℚ) (c : Nat) : Prop :=
  (away → c = f.infBits ∨ c < f.infBits ∧ x ≤ f.mval c) ∧ (¬away → c < f.infBits ∧ f.mval c ≤ x)
theorem Fmt.Bounds.le_infBits {f : Fmt} {away : Prop} {x : ℚ} {c : Nat} (h : f.Bounds away x c) : c ≤ f.infBits := by
  by_cases ha : away
  · obtain h | h := h.1 ha
    · exact h.le
    · exact h.1.le
  · exact (h.2 ha).1.le
theorem bound_bits (f : Fmt) (up fl : Bool) (e : Exact) : (bound f up fl e).bits =
    if fl && (finish f (boundMode up) false e).tiny then
      signed f (f.neg (finish f (boundMode up) false e).bits) (if up = f.neg (finish f (boundMode up) false e).bits then 0 else f.minNormal)
    else (finish f (boundMode up) false e).bits := by
  unfold bound
  rw [show (if up then Mode.ru else Mode.rd) = boundMode up from rfl]
  generalize finish f (boundMode up) false e = r
  dsimp only
  split
  · generalize f.neg _ = n
    cases up <;> cases n <;> simp [signed]
  · rfl
/-- The formats of intervals. -/
theorem intervalFmt {f : Fmt} (hf : f = fp32 ∨ f = fp64) : f.e4m3 = false ∧ 0 < f.fw ∧ 0 < f.infBits ∧ f.minNormal < f.infBits := by
  obtain rfl | rfl := hf <;> decide
theorem bound_mag {f : Fmt} (hf : f = fp32 ∨ f = fp64) (up fl n : Bool) (m : Nat) (e : Int) :
    ∃ c, (bound f up fl (.val n m e false)).bits = signed f n c ∧ f.Bounds (up ≠ n) (m * 2 ^ e) c := by
  obtain ⟨h4, hw, hi, hn⟩ := intervalFmt hf
  rw [bound_bits]
  obtain rfl | hm := Nat.eq_zero_or_pos m
  · rw [finish_zero, Bool.and_false, if_neg Bool.false_ne_true]
    have zero : ((0 : Nat) : ℚ) * 2 ^ e = f.mval 0 := by rw [f.mval_zero, Nat.cast_zero, zero_mul]
    exact ⟨0, rfl, fun _ => .inr ⟨hi, zero.le⟩, fun _ => ⟨hi, zero.ge⟩⟩
  · have holds := Holds.exact m e
    obtain ⟨lo, picks, -⟩ := holds.picks hw hm Bool.noConfusion (boundMode up) n
    rw [finish_val _ _ _ _ hm]
    obtain hc | hc := lt_or_ge (f.picked (boundMode up) n m e false) f.infBits
    · rw [roundMag_of_fits _ _ _ _ _ _ hc]
      dsimp only
      rw [f.neg_signed n (hc.trans f.infBits_lt_signBit)]
      split
      next ht =>
        have tiny := holds.lt_of_tiny (Bool.and_eq_true _ _ ▸ ht).2
        rw [← f.mval_minNormal] at tiny
        refine ⟨_, rfl, fun ha => ?_, fun ha => ?_⟩
        · rw [if_neg ha]
          exact .inr ⟨hn, tiny.le⟩
        · rw [if_pos (not_not.mp ha), f.mval_zero]
          exact ⟨hi, by positivity⟩
      next => exact ⟨_, rfl, fun ha => .inr ⟨hc, picks.away ha⟩, fun ha => ⟨hc, picks.towards (not_not.mp ha)⟩⟩
    · rw [roundMag_of_overflow _ _ _ _ _ _ hc, h4, toInf_boundMode, Bool.and_false, if_neg Bool.false_ne_true]
      refine ⟨_, rfl, fun ha => .inl ?_, fun ha => ?_⟩
      · simp [ha]
      · obtain rfl := not_not.mp ha
        have max : f.maxBits < f.infBits := Nat.sub_lt hi Nat.one_pos
        simp only [Bool.false_eq_true, if_false, bne_self_eq_false]
        exact ⟨max, (f.mval_strictMono.monotone (max.le.trans hc)).trans (picks.towards rfl)⟩

/-! ### Values as bounds (R144) -/
/-- b is a bound of x: an upper one, `up`, or a lower one. -/
def OnSide (up : Bool) (b x : ℚ) : Prop := if up then x ≤ b else b ≤ x
theorem OnSide.refl (up : Bool) (x : ℚ) : OnSide up x x := by cases up <;> exact le_refl x
theorem OnSide.trans {up : Bool} {a b x : ℚ} (h : OnSide up a b) (h' : OnSide up b x) : OnSide up a x := by
  cases up with
  | true => exact le_trans h' h
  | false => exact le_trans h h'
theorem OnSide.add {up : Bool} {a b x y : ℚ} (h : OnSide up a x) (h' : OnSide up b y) : OnSide up (a + b) (x + y) := by
  cases up <;> exact add_le_add h h'
theorem OnSide.neg {up : Bool} {b x : ℚ} (h : OnSide up b x) : OnSide (!up) (-b) (-x) := by
  cases up <;> exact neg_le_neg h
/-- The value is a bound of x, the infinite one among them. -/
def Val.Bounds (up : Bool) (v : Val) (x : ℚ) : Prop := v = .inf (!up) ∨ v.finite ∧ OnSide up v.real x
def Exact.Bounds (up : Bool) (e : Exact) (x : ℚ) : Prop := e = .inf (!up) ∨ (∃ n m k, e = .val n m k false) ∧ OnSide up e.real x
theorem inside_iff (l h : Val) (x : ℚ) : inside l h x ↔ l.Bounds false x ∧ h.Bounds true x := Iff.rfl
theorem Val.Bounds.neg {up : Bool} {v : Val} {x : ℚ} (h : v.Bounds up x) : v.neg.Bounds (!up) (-x) := by
  obtain rfl | ⟨fin, side⟩ := h
  · exact .inl rfl
  · refine .inr ⟨Val.finite_neg fin, ?_⟩
    rw [Val.real_neg]
    exact side.neg
theorem Fmt.two_pow_width (f : Fmt) : 2 ^ f.width = 2 * f.signBit := pow_succ' ..
theorem Fmt.signed_lt (f : Fmt) (n : Bool) {c : Nat} (h : c ≤ f.infBits) : signed f n c < 2 ^ f.width := by
  have := f.infBits_lt_signBit
  rw [f.two_pow_width]
  unfold signed
  split <;> omega
theorem Fmt.real_signed (f : Fmt) (n : Bool) {c : Nat} (h : c < f.infBits) :
    (f.val (signed f n c)).finite ∧ (f.val (signed f n c)).real = (if n then -1 else 1) * f.mval c := by
  have lt := h.trans f.infBits_lt_signBit
  have := f.real_val (b := signed f n c) (by rwa [f.mag_signed n lt])
  rwa [f.mag_signed n lt, f.neg_signed n lt] at this
/-- A bound of the magnitude is one of the value. -/
theorem Fmt.Bounds.value {f : Fmt} (h4 : f.e4m3 = false) {up n : Bool} {m : Nat} {e : Int} {c : Nat} (h : f.Bounds (up ≠ n) (m * 2 ^ e) c) :
    (f.val (signed f n c)).Bounds up (Val.fin n m e).real := by
  obtain ⟨away, toward⟩ := h
  by_cases ha : up ≠ n
  · obtain rfl := Bool.eq_not_of_ne ha.symm
    obtain rfl | ⟨hc, hx⟩ := away ha
    · exact .inl (f.val_infBits _ h4)
    · obtain ⟨fin, real⟩ := f.real_signed (!up) hc
      refine .inr ⟨fin, ?_⟩
      rw [real]
      cases up <;> simpa [OnSide, Val.real] using hx
  · obtain ⟨hc, hx⟩ := toward ha
    obtain ⟨fin, real⟩ := f.real_signed n hc
    refine .inr ⟨fin, ?_⟩
    rw [real, ← not_not.mp ha]
    cases up <;> simpa [OnSide, Val.real] using hx
/-- R144: what a bound is rounded to is a bound. -/
theorem bound_bounds {f : Fmt} (hf : f = fp32 ∨ f = fp64) {up : Bool} (fl : Bool) {e : Exact} {x : ℚ} (h : e.Bounds up x) :
    (f.val (bound f up fl e).bits).Bounds up x ∧ (bound f up fl e).bits < 2 ^ f.width := by
  obtain ⟨h4, -⟩ := intervalFmt hf
  obtain rfl | ⟨⟨n, m, k, rfl⟩, side⟩ := h
  · have infinite : (bound f up fl (.inf !up)).bits = signed f (!up) f.infBits := by
      rw [bound_bits]
      simp [finish, h4]
    rw [infinite]
    exact ⟨.inl (f.val_infBits _ h4), f.signed_lt _ le_rfl⟩
  · obtain ⟨c, hc, bounds⟩ := bound_mag hf up fl n m k
    rw [hc]
    refine ⟨?_, f.signed_lt n bounds.le_infBits⟩
    exact (bounds.value h4).imp_right fun ⟨fin, h⟩ => ⟨fin, h.trans side⟩
theorem boundsRoundOutwards : Clause.BoundsRoundOutwards := fun _ fl n m e hf =>
  ⟨(bound_bounds hf fl (.inr ⟨⟨n, m, e, rfl⟩, OnSide.refl false _⟩)).1, (bound_bounds hf fl (.inr ⟨⟨n, m, e, rfl⟩, OnSide.refl true _⟩)).1⟩
/-- An interval whose bounds are rounded from bounds of x holds x. -/
theorem boundsOut_inside {f : Fmt} (hf : f = fp32 ∨ f = fp64) (shadowed fl : Bool) {lo hi : Exact} {x : ℚ} (hl : lo.Bounds false x) (hh : hi.Bounds true x) :
    inside ((boundsOut f shadowed fl lo hi).lo f) ((boundsOut f shadowed fl lo hi).hi f) x := by
  obtain ⟨bl, wl⟩ := bound_bounds hf fl hl
  obtain ⟨bh, wh⟩ := bound_bounds hf fl hh
  have wide : 2 ^ f.width * 2 ^ f.width ≤ 2 ^ 128 := by obtain rfl | rfl := hf <;> decide
  have packed : (boundsOut f shadowed fl lo hi).val.toNat = (bound f false fl lo).bits + 2 ^ f.width * (bound f true fl hi).bits := by
    refine (BitVec.toNat_ofNat ..).trans (Nat.mod_eq_of_lt (lt_of_lt_of_le ?_ wide))
    calc _ < 2 ^ f.width + 2 ^ f.width * (bound f true fl hi).bits := Nat.add_lt_add_right wl _
      _ = 2 ^ f.width * ((bound f true fl hi).bits + 1) := by ring
      _ ≤ _ := Nat.mul_le_mul_left _ wh
  unfold FOut.lo FOut.hi
  rw [packed, Nat.add_mul_mod_self_left, Nat.mod_eq_of_lt wl, Nat.add_mul_div_left _ _ (Nat.two_pow_pos _), Nat.div_eq_of_lt wl, Nat.zero_add,
    Nat.mod_eq_of_lt wh]
  exact ⟨bl, bh⟩

/-! ### Sums of bounds (R146) -/
theorem addV_bounds {up : Bool} (md : Mode) {a b : Val} {x y : ℚ} (ha : a.Bounds up x) (hb : b.Bounds up y) : (addV md a b).Bounds up (x + y) := by
  obtain rfl | ⟨fa, sa⟩ := ha
  · refine .inl ?_
    obtain rfl | ⟨fb, -⟩ := hb
    · exact if_pos rfl
    · obtain ⟨n, m, e, rfl⟩ := Val.finite_iff.mp fb
      rfl
  · obtain rfl | ⟨fb, sb⟩ := hb
    · obtain ⟨n, m, e, rfl⟩ := Val.finite_iff.mp fa
      exact .inl rfl
    · obtain ⟨whole, real⟩ := addV_is md fa fb
      refine .inr ⟨whole, ?_⟩
      rw [real]
      exact sa.add sb
theorem addV_neg_bounds {up : Bool} (md : Mode) {a b : Val} {x y : ℚ} (ha : a.Bounds up x) (hb : b.Bounds (!up) y) :
    (addV md a b.neg).Bounds up (x - y) := by
  have h := hb.neg
  rw [Bool.not_not] at h
  rw [sub_eq_add_neg]
  exact addV_bounds md ha h

/-! ### Products of bounds (R146) -/
/-- A rational number among the products of bounds. -/
def keyOf (x : ℚ) : WithBot (WithTop ℚ) := ((x : WithTop ℚ) : WithBot (WithTop ℚ))
theorem keyOf_le {x y : ℚ} : keyOf x ≤ keyOf y ↔ x ≤ y := WithBot.coe_le_coe.trans WithTop.coe_le_coe
theorem keyOf_lt {x y : ℚ} : keyOf x < keyOf y ↔ x < y := WithBot.coe_lt_coe.trans WithTop.coe_lt_coe
theorem bot_lt_keyOf (x : ℚ) : ⊥ < keyOf x := WithBot.bot_lt_coe _
theorem keyOf_lt_top (x : ℚ) : keyOf x < ⊤ := WithBot.coe_lt_coe.mpr (WithTop.coe_lt_top x)
/-- Products of bounds in their order, the infinities at its ends. -/
def Ratio.key : Ratio → WithBot (WithTop ℚ)
  | .inf n => if n then ⊥ else ⊤
  | .rat n m d e => keyOf ((Val.fin n m e).real / d)
/-- A ratio that a product of bounds can be: whole, or an infinity. -/
def Ratio.Whole : Ratio → Prop
  | .inf _ => True
  | .rat _ _ d _ => d = 1
theorem mulBound_whole (a b : Val) : (mulBound a b).Whole := by
  unfold mulBound
  split
  case h_4 => trivial
  case h_5 => trivial
  all_goals split <;> trivial
theorem Ratio.lt_iff {a b : Ratio} (ha : a.Whole) (hb : b.Whole) : Ratio.lt a b = true ↔ a.key < b.key := by
  cases a with
  | inf na =>
    cases b with
    | inf nb => cases na <;> cases nb <;> simp [Ratio.lt, Ratio.key]
    | rat nb mb db eb => cases na <;> simp [Ratio.lt, Ratio.key, bot_lt_keyOf]
  | rat na ma da ea =>
    cases b with
    | inf nb => cases nb <;> simp [Ratio.lt, Ratio.key, keyOf_lt_top]
    | rat nb mb db eb =>
      obtain rfl : da = 1 := ha
      obtain rfl : db = 1 := hb
      have order := Val.lt_iff (a := .fin na ma ea) (b := .fin nb mb eb) trivial trivial
      simp only [Ratio.lt, Ratio.key, Nat.mul_one, Nat.cast_one, div_one, keyOf_lt]
      exact order
theorem Ratio.min_spec {a b : Ratio} (ha : a.Whole) (hb : b.Whole) : (a.min b).Whole ∧ (a.min b).key = Min.min a.key b.key := by
  unfold Ratio.min
  by_cases h : Ratio.lt b a = true
  · rw [if_pos h]
    exact ⟨hb, (min_eq_right ((Ratio.lt_iff hb ha).mp h).le).symm⟩
  · rw [if_neg h]
    exact ⟨ha, (min_eq_left (not_lt.mp (mt (Ratio.lt_iff hb ha).mpr h))).symm⟩
theorem Ratio.max_spec {a b : Ratio} (ha : a.Whole) (hb : b.Whole) : (a.max b).Whole ∧ (a.max b).key = Max.max a.key b.key := by
  unfold Ratio.max
  by_cases h : Ratio.lt a b = true
  · rw [if_pos h]
    exact ⟨hb, (max_eq_right ((Ratio.lt_iff ha hb).mp h).le).symm⟩
  · rw [if_neg h]
    exact ⟨ha, (max_eq_left (not_lt.mp (mt (Ratio.lt_iff ha hb).mpr h))).symm⟩
theorem Ratio.exact_under (prec : Nat) {r : Ratio} {x : ℚ} (hr : r.Whole) (h : r.key ≤ keyOf x) : (r.exact prec).Bounds false x := by
  cases r with
  | inf n =>
    cases n with
    | true => exact .inl rfl
    | false => exact absurd h (keyOf_lt_top x).not_ge
  | rat n m d e =>
    obtain rfl : d = 1 := hr
    refine .inr ⟨⟨n, m, e, rfl⟩, ?_⟩
    have : (Val.fin n m e).real / (1 : Nat) ≤ x := keyOf_le.mp h
    simpa [OnSide, Ratio.exact, Exact.real_val] using this
theorem Ratio.exact_over (prec : Nat) {r : Ratio} {x : ℚ} (hr : r.Whole) (h : keyOf x ≤ r.key) : (r.exact prec).Bounds true x := by
  cases r with
  | inf n =>
    cases n with
    | true => exact absurd h (bot_lt_keyOf x).not_ge
    | false => exact .inl rfl
  | rat n m d e =>
    obtain rfl : d = 1 := hr
    refine .inr ⟨⟨n, m, e, rfl⟩, ?_⟩
    have : x ≤ (Val.fin n m e).real / (1 : Nat) := keyOf_le.mp h
    simpa [OnSide, Ratio.exact, Exact.real_val] using this
/-- The product of two bounds, by what they are. -/
theorem mulBound_fin (na nb : Bool) (ma mb : Nat) (ea eb : Int) :
    (mulBound (.fin na ma ea) (.fin nb mb eb)).key = keyOf ((Val.fin na ma ea).real * (Val.fin nb mb eb).real) := by
  rw [← real_mul]
  by_cases h : ma = 0 ∨ mb = 0
  · have zero : (Val.fin (na != nb) (ma * mb) (ea + eb)).real = 0 := (Val.real_eq_zero_iff ..).mpr (mul_eq_zero.mpr h)
    rw [zero, show mulBound (.fin na ma ea) (.fin nb mb eb) = ratioZero from if_pos (by simpa using h)]
    simp [Ratio.key, ratioZero, Val.real_zero]
  · rw [show mulBound (.fin na ma ea) (.fin nb mb eb) = .rat (na != nb) (ma * mb) 1 (ea + eb) from if_neg (by simpa using h)]
    simp [Ratio.key]
theorem mulBound_inf_fin (k n : Bool) {m : Nat} (e : Int) :
    mulBound (.inf k) (.fin n m e) = if m = 0 then ratioZero else .inf (k != n) := rfl
theorem mulBound_comm (a b : Val) : mulBound a b = mulBound b a := by
  cases a <;> cases b <;> simp [mulBound, Nat.mul_comm, Int.add_comm, or_comm, bne_comm]
theorem mulBound_neg_neg (a b : Val) : mulBound a.neg b.neg = mulBound a b := by
  cases a <;> cases b <;> simp [mulBound, Val.neg]
theorem ratioZero_key : ratioZero.key = keyOf 0 := by simp [Ratio.key, ratioZero, Val.real_zero]
theorem mulBound_inf_under {b : Val} (x : ℚ) {y : ℚ} (fb : b.finite) (hb : b.real ≤ y) (hy : y ≤ 0) :
    (mulBound (.inf false) b).key ≤ keyOf (x * y) := by
  obtain ⟨n, m, e, rfl⟩ := Val.finite_iff.mp fb
  rw [mulBound_inf_fin]
  split
  next hm =>
    rw [hm, Val.real_zero] at hb
    rw [ratioZero_key, keyOf_le, le_antisymm hy hb, mul_zero]
  next hm =>
    have neg : (Val.fin n m e).real < 0 := lt_of_le_of_ne (hb.trans hy) (mt (Val.real_eq_zero_iff n m e).mp hm)
    rw [(Val.real_neg_iff n e hm).mp neg]
    exact bot_le
/-- An upper bound that is not negative, times a lower one that is not positive, lies below the product of what they bound. -/
theorem mulBound_under {a b : Val} {x y : ℚ} (ha : a.Bounds true x) (hb : b.Bounds false y) (hx : 0 ≤ x) (hy : y ≤ 0) :
    (mulBound a b).key ≤ keyOf (x * y) := by
  obtain rfl | ⟨fa, sa⟩ := ha
  · obtain rfl | ⟨fb, sb⟩ := hb
    · exact bot_le
    · exact mulBound_inf_under x fb sb hy
  · obtain rfl | ⟨fb, sb⟩ := hb
    · have := mulBound_inf_under (-y) (y := -x) (Val.finite_neg fa) (by rw [Val.real_neg]; exact neg_le_neg sa) (neg_nonpos.mpr hx)
      rwa [neg_mul_neg, mul_comm y x, show Val.inf false = (Val.inf true).neg from rfl, mulBound_neg_neg, mulBound_comm] at this
    · obtain ⟨na, ma, ea, rfl⟩ := Val.finite_iff.mp fa
      obtain ⟨nb, mb, eb, rfl⟩ := Val.finite_iff.mp fb
      have sa : x ≤ (Val.fin na ma ea).real := sa
      have sb : (Val.fin nb mb eb).real ≤ y := sb
      rw [mulBound_fin, keyOf_le]
      exact (mul_le_mul_of_nonneg_left sb (hx.trans sa)).trans (mul_le_mul_of_nonpos_right sa hy)
/-- A lower bound is not negative, or is one of 0. -/
theorem Val.Bounds.nonneg_or {a : Val} {x : ℚ} (ha : a.Bounds false x) : (a.finite ∧ 0 ≤ a.real ∧ a.real ≤ x) ∨ a.Bounds false 0 := by
  obtain h | ⟨fa, side⟩ := ha
  · exact .inr (.inl h)
  · obtain h | h := le_total 0 a.real
    · exact .inl ⟨fa, h, side⟩
    · exact .inr (.inr ⟨fa, h⟩)
theorem Val.Bounds.weaken {up : Bool} {a : Val} {x y : ℚ} (ha : a.Bounds up x) (h : OnSide up x y) : a.Bounds up y :=
  ha.imp_right fun ⟨fa, side⟩ => ⟨fa, side.trans h⟩
/-- Two numbers that are not negative: the product of a lower bound and one more lies below theirs. -/
theorem mulBound_under_pos {al ah bl bh : Val} {x y : ℚ} (hal : al.Bounds false x) (hah : ah.Bounds true x) (hbl : bl.Bounds false y)
    (hbh : bh.Bounds true y) (hx : 0 ≤ x) (hy : 0 ≤ y) :
    (mulBound al bl).key ≤ keyOf (x * y) ∨ (mulBound al bh).key ≤ keyOf (x * y) ∨ (mulBound ah bl).key ≤ keyOf (x * y) := by
  have pos : keyOf (0 * 0) ≤ keyOf (x * y) := keyOf_le.mpr (by rw [zero_mul]; exact mul_nonneg hx hy)
  obtain ⟨fa, a0, ax⟩ | ha := hal.nonneg_or
  · obtain ⟨fb, b0, bx⟩ | hb := hbl.nonneg_or
    · obtain ⟨na, ma, ea, rfl⟩ := Val.finite_iff.mp fa
      obtain ⟨nb, mb, eb, rfl⟩ := Val.finite_iff.mp fb
      exact .inl (by rw [mulBound_fin, keyOf_le]; exact mul_le_mul ax bx b0 hx)
    · exact .inr (.inr ((mulBound_under (hah.weaken hx) hb le_rfl le_rfl).trans pos))
  · refine .inr (.inl (le_trans ?_ pos))
    rw [mulBound_comm]
    exact mulBound_under (hbh.weaken hy) ha le_rfl le_rfl
/-- The least product of two bounds, and the greatest. -/
def least (al ah bl bh : Val) : WithBot (WithTop ℚ) :=
  min (min (min (mulBound al bl).key (mulBound al bh).key) (mulBound ah bl).key) (mulBound ah bh).key
def greatest (al ah bl bh : Val) : WithBot (WithTop ℚ) :=
  max (max (max (mulBound al bl).key (mulBound al bh).key) (mulBound ah bl).key) (mulBound ah bh).key
theorem least_le {al ah bl bh : Val} {x y : ℚ} (hal : al.Bounds false x) (hah : ah.Bounds true x) (hbl : bl.Bounds false y)
    (hbh : bh.Bounds true y) : least al ah bl bh ≤ keyOf (x * y) := by
  unfold least
  simp only [min_le_iff]
  obtain hx | hx := le_total 0 x <;> obtain hy | hy := le_total 0 y
  · have := mulBound_under_pos hal hah hbl hbh hx hy
    tauto
  · exact .inl (.inr (mulBound_under hah hbl hx hy))
  · refine .inl (.inl (.inr ?_))
    rw [mulBound_comm, mul_comm]
    exact mulBound_under hbh hal hy hx
  · have := mulBound_under_pos hah.neg hal.neg hbh.neg hbl.neg (neg_nonneg.mpr hx) (neg_nonneg.mpr hy)
    simp only [mulBound_neg_neg, neg_mul_neg] at this
    tauto
/-- p is a product's negative: it lies below the negatives of what the product lies above. -/
def Opposite (p q : Ratio) : Prop := ∀ z, p.key ≤ keyOf (-z) ↔ keyOf z ≤ q.key
theorem opposite_zero : Opposite ratioZero ratioZero := fun z => by
  rw [ratioZero_key, keyOf_le, keyOf_le, le_neg, neg_zero]
theorem opposite_inf (k : Bool) : Opposite (.inf !k) (.inf k) := fun z => by
  cases k
  · exact ⟨fun _ => le_top, fun _ => bot_le⟩
  · exact ⟨fun h => absurd h (keyOf_lt_top _).not_ge, fun h => absurd h (bot_lt_keyOf _).not_ge⟩
theorem mulBound_neg (a b : Val) : Opposite (mulBound a.neg b) (mulBound a b) := by
  have infs : ∀ k j : Bool, Opposite (.inf ((!k) != j)) (.inf (k != j)) := fun k j => by
    rw [Bool.not_bne]
    exact opposite_inf _
  cases a with
  | nan s => exact opposite_zero
  | inf k =>
    cases b with
    | nan s => exact opposite_zero
    | inf j => exact infs k j
    | fin n m e =>
      by_cases h : m = 0
      · simpa [mulBound, Val.neg, h] using opposite_zero
      · simpa [mulBound, Val.neg, h] using infs k n
  | fin n m e =>
    cases b with
    | nan s => exact opposite_zero
    | inf j =>
      by_cases h : m = 0
      · simpa [mulBound, Val.neg, h] using opposite_zero
      · simpa [mulBound, Val.neg, h] using infs n j
    | fin j l k =>
      intro z
      rw [show (Val.fin n m e).neg = .fin (!n) m e from rfl, mulBound_fin, mulBound_fin, keyOf_le, keyOf_le,
        show (Val.fin (!n) m e).real = -(Val.fin n m e).real from Val.real_neg (.fin n m e), neg_mul, neg_le_neg_iff]
theorem le_greatest {al ah bl bh : Val} {x y : ℚ} (hal : al.Bounds false x) (hah : ah.Bounds true x) (hbl : bl.Bounds false y)
    (hbh : bh.Bounds true y) : keyOf (x * y) ≤ greatest al ah bl bh := by
  have := least_le hah.neg hal.neg hbl hbh
  unfold least at this
  simp only [min_le_iff, neg_mul, (mulBound_neg _ _ _)] at this
  unfold greatest
  simp only [le_max_iff]
  tauto
theorem extremes_inside {f : Fmt} (hf : f = fp32 ∨ f = fp64) (shadowed fl : Bool) {al ah bl bh : Val} {x y : ℚ} (hal : al.Bounds false x)
    (hah : ah.Bounds true x) (hbl : bl.Bounds false y) (hbh : bh.Bounds true y) :
    inside ((extremes f shadowed fl mulBound al ah bl bh).lo f) ((extremes f shadowed fl mulBound al ah bl bh).hi f) (x * y) := by
  obtain ⟨w1, k1⟩ := Ratio.min_spec (mulBound_whole al bl) (mulBound_whole al bh)
  obtain ⟨w2, k2⟩ := Ratio.min_spec w1 (mulBound_whole ah bl)
  obtain ⟨w3, k3⟩ := Ratio.min_spec w2 (mulBound_whole ah bh)
  obtain ⟨v1, j1⟩ := Ratio.max_spec (mulBound_whole al bl) (mulBound_whole al bh)
  obtain ⟨v2, j2⟩ := Ratio.max_spec v1 (mulBound_whole ah bl)
  obtain ⟨v3, j3⟩ := Ratio.max_spec v2 (mulBound_whole ah bh)
  refine boundsOut_inside hf shadowed fl (Ratio.exact_under _ w3 ?_) (Ratio.exact_over _ v3 ?_)
  · rw [k3, k2, k1]
    exact least_le hal hah hbl hbh
  · rw [j3, j2, j1]
    exact le_greatest hal hah hbl hbh
theorem intervalsEnclose : Clause.IntervalsEnclose := by
  intro f fl a b x y hf _ _ ha hb sum diff prod
  obtain ⟨al, ah⟩ := (inside_iff ..).mp ha
  obtain ⟨bl, bh⟩ := (inside_iff ..).mp hb
  exact ⟨boundsOut_inside hf true fl (addV_bounds .rd al bl) (addV_bounds .ru ah bh),
    boundsOut_inside hf true fl (addV_neg_bounds .rd al bh) (addV_neg_bounds .ru ah bl), extremes_inside hf true fl al ah bl bh⟩

/-- Settles O28: a bound lies on its side of the exact value, and one of the corners' products on each side of a product. -/
theorem intervalBounds : Obligations.IntervalBounds := ⟨boundsRoundOutwards, intervalsEnclose⟩

end Sys2Proof.Machine
end

