-- ==== Sys2Proof/Proofs/FloatConversions.lean ====
section
/-!
PROOFS. Proofs/FloatConversions.lean: floating-point compares, class tests and conversions, and the expansion of nibbles (R130, R136, R157, R158, R161, R162).
-/
namespace Sys2Proof.Machine
noncomputable section

/-! ### Floating-point words -/
/-- A floating-point word whose lanes' outcomes are `o`. -/
theorem givesF_of {i : Instr} {s : State} {g : Bool} {f : Group → Lane → FOut} {o : Lane → FOut}
    {put : Group → Mask → (Lane → BitVec 128) → State → State} (hl : PutLocal put) (hr : PutRegs put) (hx : exec i s = floatWord i g f put s)
    (h : ∀ L, f s.g L = o L) : GivesF i s g put o := (funext h : f s.g = o) ▸ floatWord_effect hx hl hr
theorem givesF_reg {i : Instr} {s : State} {g : Bool} {d : VReg} {f : Group → Lane → FOut} {o : Lane → FOut}
    (hx : exec i s = floatWord i g f (put32 d) s) (h : ∀ L, f s.g L = o L) : GivesF i s g (put32 d) o := givesF_of (put32_local d) (put32_regs d) hx h
theorem givesF_pair {i : Instr} {s : State} {g : Bool} {d : VReg} {f : Group → Lane → FOut} {o : Lane → FOut}
    (hx : exec i s = floatWord i g f (put64 d) s) (h : ∀ L, f s.g L = o L) : GivesF i s g (put64 d) o := givesF_of (put64_local d) (put64_regs d) hx h
theorem givesF_pred {i : Instr} {s : State} {g : Bool} {d : PReg} {f : Group → Lane → FOut} {o : Lane → FOut}
    (hx : exec i s = floatWord i g f (putP d) s) (h : ∀ L, f s.g L = o L) : GivesF i s g (putP d) o := givesF_of (putP_local d) (putP_regs d) hx h

/-! ### Compares and class tests (R130, R157, R158) -/
section
variable {i : Instr} {s : State} {g : Bool} {d : PReg} {a : VReg} {b : VSrc} {rel : Val → Val → Bool}
/-- A relation for which signalling NaNs alone are invalid. -/
theorem compare_quiet (hx : exec i s = compare32 i false g d a b rel s) :
    GivesF i s g (putP d) fun L =>
      { val := if rel (fp32.val (s.g.fa a L)) (fp32.val (s.g.fb b L)) then 1 else 0
        flags := if (fp32.val (s.g.fa a L)).snan || (fp32.val (s.g.fb b L)).snan then 1 else 0 } :=
  givesF_pred hx fun L => by
    simp only [Bool.false_and, Bool.or_false]
    rfl
/-- A relation for which every NaN is invalid. -/
theorem compare_loud (hx : exec i s = compare32 i true g d a b rel s) :
    GivesF i s g (putP d) fun L =>
      { val := if rel (fp32.val (s.g.fa a L)) (fp32.val (s.g.fb b L)) then 1 else 0
        flags := if (fp32.val (s.g.fa a L)).isNan || (fp32.val (s.g.fb b L)).isNan then 1 else 0 } :=
  givesF_pred hx fun L => by
    have nans : ∀ x y : Val, (x.snan || y.snan || (true && (x.isNan || y.isNan))) = (x.isNan || y.isNan) := fun x y => by
      cases x <;> cases y <;> simp [Val.snan, Val.isNan]
    simp only [nans]
    rfl
end
/-- The class of a pattern, and the mask bit that asks for it. -/
theorem Fmt.cls_eq_eight_iff (f : Fmt) (b : Nat) : f.cls b = 8 ↔ (f.val b).snan = true := by
  unfold Fmt.cls
  cases f.val b with
  | nan s => cases s <;> simp [Val.snan]
  | inf n => cases n <;> simp [Val.snan]
  | fin n m e =>
    simp only [Val.snan]
    split_ifs <;> simp
theorem Fmt.cls_le (f : Fmt) (b : Nat) : f.cls b ≤ 9 := by
  unfold Fmt.cls
  split <;> split_ifs <;> omega
theorem classBit_test (k : BitVec 6) {c : Nat} (hc : c ≤ 9) :
    k.getLsbD (classBit c) = ((k.getLsbD 0 && (c = 0 || c = 7)) || (k.getLsbD 1 && (c = 1 || c = 6)) ||
      (k.getLsbD 2 && (c = 2 || c = 5)) || (k.getLsbD 3 && (c = 3 || c = 4)) || (k.getLsbD 4 && c = 8) || (k.getLsbD 5 && c = 9)) := by
  interval_cases c <;> simp [classBit]
theorem fcls_gives {s : State} {g : Bool} {d : PReg} {a : VReg} {k : BitVec 6} :
    GivesF (.fcls g d a k) s g (putP d) fun L =>
      { val := if k.getLsbD (classBit (fp32.cls (s.g.fa a L))) then 1 else 0
        flags := if fp32.cls (s.g.fa a L) = 8 then 1 else 0 } :=
  givesF_pred (show exec (.fcls g d a k) s = execFcls g d a k s from rfl) fun L => by
    simp only [Fmt.cls_eq_eight_iff]
    rfl
section
variable (g : Bool) (d : PReg) (a : VReg) (b : VSrc) (s : State)
theorem exec_feq : exec (.feq g d a b) s = compare32 (.feq g d a b) false g d a b Val.eq s := rfl
theorem exec_fne : exec (.fne g d a b) s = compare32 (.fne g d a b) false g d a b (fun x y => !Val.eq x y) s := rfl
theorem exec_flt : exec (.flt g d a b) s = compare32 (.flt g d a b) true g d a b Val.lt s := rfl
theorem exec_fle : exec (.fle g d a b) s = compare32 (.fle g d a b) true g d a b Val.le s := rfl
theorem exec_funord : exec (.funord g d a b) s = compare32 (.funord g d a b) false g d a b (fun x y => x.isNan || y.isNan) s := rfl
end
theorem floatCompareWords : Clause.FloatCompareWords := by
  intro s g d a b k w xb x y quiet loud cls
  have feq := compare_quiet (exec_feq g d a b s)
  have fne := compare_quiet (exec_fne g d a b s)
  have flt := compare_loud (exec_flt g d a b s)
  have fle := compare_loud (exec_fle g d a b s)
  have unordered := compare_quiet (exec_funord g d a b s)
  have fcls := fcls_gives (s := s) (g := g) (d := d) (a := a) (k := k)
  simp only [fun L => classBit_test k (fp32.cls_le (s.g.fa a L))] at fcls
  exact ⟨feq, fne, flt, fle, unordered, fcls⟩

/-! ### Conversions (R136, R161) -/
section
variable {i : Instr} {s : State} {g : Bool} {d a : VReg} {b : VSrc} {m : Rm}
theorem plain_gives {f : Group → Lane → Rounded} (hx : exec i s = plain32 i g d f s) : GivesF i s g (put32 d) fun L => (f s.g L).out :=
  givesF_reg hx fun _ => rfl
theorem toInt_gives {lo hi : Int} (hx : exec i s = toIntWord i lo hi m g d a s) :
    GivesF i s g (put32 d) fun L =>
      { val := (BitVec.ofInt 32 (toInteger (m.mode s.g.regs.fmode) lo hi (fp32.val (s.g.fa a L))).1).setWidth 128
        flags := (toInteger (m.mode s.g.regs.fmode) lo hi (fp32.val (s.g.fa a L))).2 } :=
  givesF_reg hx fun _ => rfl
theorem pack_gives {dst : Fmt} (hx : exec i s = packWord i dst m g d a b s) :
    GivesF i s g (put32 d) fun L =>
      { val := BitVec.ofNat 128 ((cvtOut fp32 dst s.g.regs.fmode (m.mode s.g.regs.fmode) (s.g.readV a L).toNat).bits +
          2 ^ dst.width * (cvtOut fp32 dst s.g.regs.fmode (m.mode s.g.regs.fmode) (s.g.vb b L).toNat).bits)
        flags := (cvtOut fp32 dst s.g.regs.fmode (m.mode s.g.regs.fmode) (s.g.readV a L).toNat).flags |||
          (cvtOut fp32 dst s.g.regs.fmode (m.mode s.g.regs.fmode) (s.g.vb b L).toNat).flags } :=
  givesF_reg hx fun _ => rfl
theorem widen_gives {src : Fmt} (hx : exec i s = widenWord i src m g d a s) :
    GivesF i s g (put32 d) fun L => (cvtOut src fp32 s.g.regs.fmode (m.mode s.g.regs.fmode) ((s.g.readV a L).toNat % 2 ^ src.width)).out :=
  plain_gives hx
end
section
variable (m : Rm) (g : Bool) (d a : VReg) (b : VSrc) (s : State)
theorem exec_cvtF32I32 : exec (.cvtF32I32 m g d a) s = plain32 (.cvtF32I32 m g d a) g d
    (fun r L => finish fp32 (m.mode r.regs.fmode) (ftzo r.regs.fmode) (ofInteger (r.readV a L).toInt)) s := rfl
theorem exec_cvtF32N32 : exec (.cvtF32N32 m g d a) s = plain32 (.cvtF32N32 m g d a) g d
    (fun r L => finish fp32 (m.mode r.regs.fmode) (ftzo r.regs.fmode) (ofInteger (r.readV a L).toNat)) s := rfl
theorem exec_cvtI32F32 : exec (.cvtI32F32 m g d a) s = toIntWord (.cvtI32F32 m g d a) (-2 ^ 31) (2 ^ 31 - 1) m g d a s := rfl
theorem exec_cvtN32F32 : exec (.cvtN32F32 m g d a) s = toIntWord (.cvtN32F32 m g d a) 0 (2 ^ 32 - 1) m g d a s := rfl
theorem exec_cvtF32F16 : exec (.cvtF32F16 m g d a) s = widenWord (.cvtF32F16 m g d a) fp16 m g d a s := rfl
theorem exec_cvtF32Bf16 : exec (.cvtF32Bf16 m g d a) s = widenWord (.cvtF32Bf16 m g d a) bf16 m g d a s := rfl
theorem exec_cvtF32E4m3 : exec (.cvtF32E4m3 m g d a) s = widenWord (.cvtF32E4m3 m g d a) fe4m3 m g d a s := rfl
theorem exec_cvtF32E5m2 : exec (.cvtF32E5m2 m g d a) s = widenWord (.cvtF32E5m2 m g d a) fe5m2 m g d a s := rfl
theorem exec_cvtF16x2F32 : exec (.cvtF16x2F32 m g d a b) s = packWord (.cvtF16x2F32 m g d a b) fp16 m g d a b s := rfl
theorem exec_cvtBf16x2F32 : exec (.cvtBf16x2F32 m g d a b) s = packWord (.cvtBf16x2F32 m g d a b) bf16 m g d a b s := rfl
theorem exec_cvtE4m3x2F32 : exec (.cvtE4m3x2F32 m g d a b) s = packWord (.cvtE4m3x2F32 m g d a b) fe4m3 m g d a b s := rfl
theorem exec_cvtE5m2x2F32 : exec (.cvtE5m2x2F32 m g d a b) s = packWord (.cvtE5m2x2F32 m g d a b) fe5m2 m g d a b s := rfl
theorem exec_cvtF64F32 : exec (.cvtF64F32 m g d a) s = floatWord (.cvtF64F32 m g d a) g
    (fun r L => (cvtOut fp32 fp64 r.regs.fmode (m.mode r.regs.fmode) (r.readV a L).toNat).out) (put64 d) s := rfl
theorem exec_cvtF32F64 : exec (.cvtF32F64 m g d a) s = plain32 (.cvtF32F64 m g d a) g d
    (fun r L => cvtOut fp64 fp32 r.regs.fmode (m.mode r.regs.fmode) (r.readV64 a L).toNat) s := rfl
theorem exec_unpk4N : exec (.unpk4N m g d a b) s = laneWord (.unpk4N m g d a b) g d (fun r L => unpack4 false (r.readV a L) (r.vb b L)) s := rfl
theorem exec_unpk4S : exec (.unpk4S m g d a b) s = laneWord (.unpk4S m g d a b) g d (fun r L => unpack4 true (r.readV a L) (r.vb b L)) s := rfl
end

/-! ### Nibbles (R162) -/
/-- Four bytes as a number. -/
theorem bytes_toNat (x y z w : Byte) : (x ++ y ++ z ++ w).toNat = w.toNat + z.toNat * 2 ^ 8 + y.toNat * 2 ^ 16 + x.toNat * 2 ^ 24 := by
  have join : ∀ (n : Nat) (u : BitVec n) (v : Byte), (u ++ v).toNat = u.toNat * 2 ^ 8 + v.toNat := fun n u v => by
    rw [BitVec.toNat_append, Nat.shiftLeft_eq, Nat.mul_comm, ← Nat.two_pow_add_eq_or_of_lt v.isLt]
  rw [join, join, join]
  ring
/-- Nibble i of half y mod 2 of a word. -/
def nibbleAt (x y i : Nat) : Nat := x / 2 ^ (4 * (4 * (y % 2) + i)) % 16
theorem nibbleAt_eq (a b : Word) (i : Nat) :
    ((a >>> ((if b.getLsbD 0 then 16 else 0) + 4 * i)).setWidth 4).toNat = nibbleAt a.toNat b.toNat i := by
  have half : (if b.getLsbD 0 then 16 else 0) = 16 * (b.toNat % 2) := by
    rw [BitVec.getLsbD, Nat.testBit_zero]
    split <;> simp_all
  rw [BitVec.toNat_setWidth, BitVec.toNat_ushiftRight, Nat.shiftRight_eq_div_pow, half]
  unfold nibbleAt
  congr 3
  ring
theorem nibble_zero_extended (q : BitVec 4) : (q.setWidth 8).toNat = q.toNat := by
  rw [BitVec.toNat_setWidth, Nat.mod_eq_of_lt (q.isLt.trans (by decide))]
theorem nibble_sign_extended : ∀ q : BitVec 4, (q.signExtend 8).toNat = if q.toNat < 8 then q.toNat else q.toNat + 240 := by decide
/-- The byte that nibble i becomes, its sign extended or not. -/
def byteOf (sx : Bool) (q : Nat) : Nat := if sx then (if q < 8 then q else q + 240) else q
theorem byteOf_eq (sx : Bool) (q : BitVec 4) : (if sx then q.signExtend 8 else q.setWidth 8 : Byte).toNat = byteOf sx q.toNat := by
  cases sx with
  | false => exact nibble_zero_extended q
  | true => exact nibble_sign_extended q
/-- R162: four nibbles as bytes. -/
theorem unpack4_eq (sx : Bool) (a b : Word) :
    unpack4 sx a b = BitVec.ofNat 32 (∑ i : Fin 4, byteOf sx (nibbleAt a.toNat b.toNat i.val) * 2 ^ (8 * i.val)) := by
  have bytes : (unpack4 sx a b).toNat = ∑ i : Fin 4, byteOf sx (nibbleAt a.toNat b.toNat i.val) * 2 ^ (8 * i.val) := by
    unfold unpack4
    dsimp only
    rw [bytes_toNat, byteOf_eq, byteOf_eq, byteOf_eq, byteOf_eq, nibbleAt_eq, nibbleAt_eq, nibbleAt_eq, nibbleAt_eq, Fin.sum_univ_four]
    simp
  rw [← bytes, BitVec.ofNat_toNat, BitVec.setWidth_eq]
theorem conversionWords : Clause.ConversionWords := by
  intro s m g d a b w md x y fromInt toInt cvt pack nibble
  have fromSigned := plain_gives (exec_cvtF32I32 m g d a s)
  have fromUnsigned := plain_gives (exec_cvtF32N32 m g d a s)
  have toSigned := toInt_gives (exec_cvtI32F32 m g d a s)
  have toUnsigned := toInt_gives (exec_cvtN32F32 m g d a s)
  have ofF16 := widen_gives (exec_cvtF32F16 m g d a s)
  have ofBf16 := widen_gives (exec_cvtF32Bf16 m g d a s)
  have ofE4m3 := widen_gives (exec_cvtF32E4m3 m g d a s)
  have ofE5m2 := widen_gives (exec_cvtF32E5m2 m g d a s)
  have toF16 := pack_gives (exec_cvtF16x2F32 m g d a b s)
  have toBf16 := pack_gives (exec_cvtBf16x2F32 m g d a b s)
  have toE4m3 := pack_gives (exec_cvtE4m3x2F32 m g d a b s)
  have toE5m2 := pack_gives (exec_cvtE5m2x2F32 m g d a b s)
  have toF64 := givesF_pair (exec_cvtF64F32 m g d a s) fun _ => rfl
  have ofF64 := plain_gives (exec_cvtF32F64 m g d a s)
  have zeroExtended := givesV_of (exec_unpk4N m g d a b s) fun L => unpack4_eq false (s.g.readV a L) (s.g.vb b L)
  have signExtended := givesV_of (exec_unpk4S m g d a b s) fun L => unpack4_eq true (s.g.readV a L) (s.g.vb b L)
  exact ⟨fromSigned, fromUnsigned, toSigned, toUnsigned, ofF16, ofBf16, ofE4m3, ofE5m2, toF16, toBf16, toE4m3, toE5m2, toF64, ofF64, zeroExtended, signExtended⟩

/-- Settles O26: each compare and conversion is its value function, lane by lane, and four nibbles are four bytes. -/
theorem floatComparesAndConversions : Obligations.FloatComparesAndConversions := ⟨floatCompareWords, conversionWords⟩

end
end Sys2Proof.Machine
end

