-- ==== Sys2Proof/Proofs/MatrixWords.lean ====
section
/-!
PROOFS. Proofs/MatrixWords.lean: matrix words as they enter their core's order, and as they end (R142, R233, R337, R342, R348 to R352).
-/
namespace Sys2Proof.Machine
noncomputable section

/-! ### Matrix words as they issue (R342, R348 to R352) -/
theorem State.performHeld_fresh (s : State) (core : CoreId) (h : Held) : (s.performHeld core h).fresh = s.fresh := by
  cases hw : h.win with
  | none => rw [(Inner.performHeld core hw).keeps s]; rfl
  | some off =>
    obtain ⟨hnone, hsome⟩ := State.performHeld_of_window (s := s) core hw
    cases hg : s.window? h.ctx off true with
    | none => rw [hnone hg]
    | some g => rw [hsome g hg]; rfl
theorem State.endTransaction_fresh (s : State) : s.endTransaction.fresh = s.fresh := by
  have fold : ∀ (l : List Held) (t : State), (l.foldl (fun t h => t.performHeld s.g.core h) t).fresh = t.fresh := fun l => by
    induction l with
    | nil => exact fun t => rfl
    | cons h l ih => exact fun t => (ih _).trans (t.performHeld_fresh s.g.core h)
  by_cases ht : s.g.region = .trans
  · rw [endTransaction_eq ht]
    exact fold _ _
  · rw [State.endTransaction_of_open ht]
/-- A core whose order has taken a word in. -/
def Core.take (o : MOp) (c : Core) : Core := { c with order := c.order ++ [o] }
/-- The word has entered its core's order, and its token is pending. -/
def State.ordered (t : State) (core : CoreId) (o : MOp) : State := (t.updCore core (Core.take o)).setPending o.token true
theorem State.Smooth.setPending (s : State) (d : SReg) (on : Bool) : s.Smooth (s.setPending d on) := by
  unfold State.setPending
  split
  · exact .refl s
  · exact ⟨⟨rfl, rfl, rfl, rfl⟩, rfl, fun _ h => h⟩
theorem State.Smooth.updCore (s : State) (c : CoreId) (f : Core → Core) : s.Smooth (s.updCore c f) := ⟨⟨rfl, rfl, rfl, rfl⟩, rfl, fun _ h => h⟩
theorem State.setPending_withLatch (s : State) (d : SReg) (on : Bool) (L : Latch) : (s.withLatch L).setPending d on = (s.setPending d on).withLatch L := by
  unfold State.setPending
  split <;> rfl
/-- The word reads what the end of a region leaves alone. -/
theorem State.SameWork.matrixOp {i : Instr} {s t : State} (hs : s.SameWork t) (hf : t.fresh = s.fresh) (alone : s.latch = { len := i.len })
    (kind : MKind) (d a : SReg) (n : Nat) : (t.withLatch (s.begun i).latch).matrixOp kind d a n = s.matrixOp kind d a n := by
  have hipc : (t.withLatch (s.begun i).latch).ipc = s.ipc := by
    change t.g.ipc = s.latch.ipc.getD s.g.ipc
    rw [alone, hs.g]
    rfl
  have regs : t.g.regs = s.g.regs := by rw [hs.g]
  have gid : t.g.gid = s.g.gid := by rw [hs.g]
  have wid : t.g.wid = s.g.wid := by rw [hs.g]
  unfold State.matrixOp
  rw [hipc]
  simp only [State.withLatch_g, State.withLatch_fresh, hf, regs, gid, wid, hs.readS]
section
variable {i : Instr} {s : State} {kind : MKind} {d a : SReg} {n : Nat} (hx : exec i s = matrixWord i kind d a n s)
include hx
theorem matrix_stalls (h : ¬(s.core? s.g.core).order.length < 8) : Waits i s State.stallNow :=
  waits_of_stall hx (if_pos (not_lt.mp h)) rfl
/-- A word for which there is room enters the order of `t`, the state once what it ends is over. -/
theorem matrix_enters {t : State} (ht : Issues i s → s.SameWork t ∧ t.fresh = s.fresh)
    (hb : (if kind = .mld || kind = .mst then (s.begun i).endTransaction else s.begun i) = t.withLatch (s.begun i).latch)
    (h : (s.core? s.g.core).order.length < 8) : Effect i s 0 (t.ordered s.g.core (s.matrixOp kind d a n)) := by
  refine smooth_effect hx (fun hI => ?_) fun hI _ => ?_
  · exact (ht hI).1.smooth.trans ((State.Smooth.updCore ..).trans (.setPending ..))
  · obtain ⟨hs, hf⟩ := ht hI
    have core : t.g.core = s.g.core := by rw [hs.g]
    refine (if_neg (not_le.mpr h)).trans ?_
    rw [hb]
    change (t.withLatch (s.begun i).latch).ordered t.g.core ((t.withLatch (s.begun i).latch).matrixOp kind d a n) = _
    rw [hs.matrixOp hf hI.alone, core]
    exact State.setPending_withLatch (t.updCore s.g.core (Core.take (s.matrixOp kind d a n))) d true _
/-- A word that ends no region. -/
theorem matrix_word (hk : ¬(kind = .mld || kind = .mst) = true) :
    ((s.core? s.g.core).order.length < 8 → Effect i s 0 (s.ordered s.g.core (s.matrixOp kind d a n))) ∧
      (¬(s.core? s.g.core).order.length < 8 → Waits i s State.stallNow) :=
  ⟨matrix_enters hx (fun _ => ⟨.refl s, rfl⟩) (if_neg hk), matrix_stalls hx⟩
/-- A tile move, which ends a region first (R36). -/
theorem matrix_move (hk : (kind = .mld || kind = .mst) = true) (hn : s.g.region = .trans → ∀ x ∈ s.others, x.gid ≠ s.g.gid) :
    ((s.core? s.g.core).order.length < 8 → Effect i s 0 (s.endTransaction.ordered s.g.core (s.matrixOp kind d a n))) ∧
      (¬(s.core? s.g.core).order.length < 8 → Waits i s State.stallNow) :=
  ⟨matrix_enters hx (fun hI => ⟨State.endTransaction_sameWork hI.ready hn, s.endTransaction_fresh⟩)
    ((if_pos hk).trans (s.begun_endTransaction i)), matrix_stalls hx⟩
end
section
variable (s : State) (d a : SReg)
theorem exec_mma : exec (.mma d a) s = matrixWord (.mma d a) .mma d a 8 s := rfl
theorem exec_mld : exec (.mld d a) s = matrixWord (.mld d a) .mld d a 4 s := rfl
theorem exec_mst : exec (.mst d a) s = matrixWord (.mst d a) .mst d a 4 s := rfl
theorem exec_mzero : exec (.mzero d a) s = matrixWord (.mzero d a) .mzero d a 1 s := rfl
theorem exec_mres : exec (.mres d a) s = matrixWord (.mres d a) .mres d a 2 s := rfl
theorem exec_mrel : exec (.mrel a) s = matrixWord (.mrel a) .mrel 63 a 1 s := rfl
theorem exec_mspan : exec (.mspan d a) s = matrixWord (.mspan d a) .mspan d a 1 s := rfl
theorem exec_munspan : exec .munspan s = matrixWord .munspan .munspan 63 63 0 s := rfl
end
theorem matrixWordsEnter : Clause.MatrixWords := fun s d a hn =>
  ⟨matrix_word (exec_mma s d a) (by decide), matrix_move (exec_mld s d a) (by decide) hn, matrix_move (exec_mst s d a) (by decide) hn,
    matrix_word (exec_mzero s d a) (by decide), matrix_word (exec_mres s d a) (by decide), matrix_word (exec_mrel s a) (by decide),
    matrix_word (exec_mspan s d a) (by decide), matrix_word (exec_munspan s) (by decide)⟩

/-! ### The end of a matrix word (R142, R233, R337) -/
/-- The core of a list that has the number c. -/
def coreIn (l : List Core) (c : CoreId) : Core := (l.find? fun x => decide (x.id = c)).getD { id := c }
theorem State.core?_eq (s : State) (c : CoreId) : s.core? c = coreIn s.cores c := rfl
theorem coreIn_id (l : List Core) (c : CoreId) : (coreIn l c).id = c := by
  unfold coreIn
  cases h : l.find? fun x => decide (x.id = c) with
  | none => rfl
  | some x => simpa using List.find?_some h
theorem coreIn_cons {l : List Core} {c : CoreId} {x : Core} (h : x.id = c) : coreIn (x :: l) c = x := by
  unfold coreIn
  rw [List.find?_cons_of_pos (by simpa using h)]
  rfl
/-- A change that keeps the numbers, and the core that stands for one not listed, is a change of each core. -/
theorem coreIn_map (l : List Core) (c : CoreId) {f : Core → Core} (hf : ∀ x, (f x).id = x.id) (hd : f { id := c } = { id := c }) :
    coreIn (l.map f) c = f (coreIn l c) := by
  have same : ((fun x : Core => decide (x.id = c)) ∘ f) = fun x => decide (x.id = c) := funext fun x => by
    change decide ((f x).id = c) = _
    rw [hf]
  unfold coreIn
  rw [List.find?_map, same]
  cases l.find? fun x => decide (x.id = c) with
  | none => exact hd.symm
  | some x => rfl
/-- A core without the words of its order that have a number, and one without its place in a span's `mma`. -/
def Core.without (id : Nat) (c : Core) : Core := { c with order := c.order.filter fun o => decide (o.id ≠ id) }
def Core.unled (id : Nat) (c : Core) : Core := { c with order := c.order.filter fun o => !(decide (o.id = id) && o.lead.isSome) }
theorem State.dropOp_cores (s : State) (core : CoreId) (id : Nat) :
    (s.dropOp core id).cores = ((s.core? core).without id :: s.cores.filter fun x => decide (x.id ≠ core)).map (Core.unled id) := rfl
theorem State.dropOp_order (s : State) (core : CoreId) (id : Nat) :
    ((s.dropOp core id).core? core).order = (s.core? core).order.filter fun o => decide (o.id ≠ id) := by
  rw [State.core?_eq, s.dropOp_cores, coreIn_map (f := Core.unled id) _ _ (fun _ => rfl) rfl, coreIn_cons (x := (s.core? core).without id) (coreIn_id s.cores core)]
  refine List.filter_eq_self.mpr fun o ho => ?_
  have : o.id ≠ id := of_decide_eq_true (List.mem_filter.mp ho).2
  simp [this]
/-- The registers once a matrix word has ended with `w`. -/
def MOp.landed (o : MOp) (w : Word) (r : Regs) : Regs :=
  { r.land o.token w with
    fstat := if o.sat then (r.land o.token w).fstat ||| flagSAT.setWidth 32 else (r.land o.token w).fstat
    shdcnt := if o.miss then satInc (r.land o.token w).shdcnt 1 else (r.land o.token w).shdcnt }
theorem Regs.land_flags (d : SReg) (w : Word) (r : Regs) : (r.land d w).fstat = r.fstat ∧ (r.land d w).shdcnt = r.shdcnt := by
  unfold Regs.land
  split <;> exact ⟨rfl, rfl⟩
theorem State.endMOp_front (s : State) (core : CoreId) {o : MOp} (w : Word) (hg : o.gid = s.g.gid) :
    (s.endMOp core o w).g = { s.g.wake with regs := o.landed w s.g.regs } ∧ (s.endMOp core o w).mem = s.mem ∧ (s.endMOp core o w).w = s.w := by
  unfold State.endMOp
  by_cases hk : o.kind = .mst
  · rw [if_pos hk]
    exact ⟨if_pos hg.symm, rfl, rfl⟩
  · rw [if_neg hk]
    exact ⟨if_pos hg.symm, rfl, rfl⟩
theorem State.endMOp_order (s : State) (core : CoreId) (o : MOp) (w : Word) :
    ((s.endMOp core o w).core? core).order = (s.core? core).order.filter fun x => decide (x.id ≠ o.id) := by
  unfold State.endMOp
  by_cases hk : o.kind = .mst
  · rw [if_pos hk]
    exact State.dropOp_order (s.dropCopiesOf (s.opWho core o) 1) core o.id
  · rw [if_neg hk]
    exact s.dropOp_order core o.id
section
variable (g : Group) (o : MOp) (w : Word)
theorem MOp.landed_s (r : Regs) (h : o.token.val < 60) : (o.landed w r).s = r.s.set o.token.val w := by
  unfold MOp.landed Regs.land
  rw [dif_pos h]
theorem MOp.landed_none (r : Regs) (h : ¬o.token.val < 60) : (o.landed w r).s = r.s := by
  unfold MOp.landed Regs.land
  rw [dif_neg h]
theorem Group.readS_landed_same (h : o.token.val < 60) : ({ g with regs := o.landed w g.regs } : Group).readS o.token = w := by
  unfold Group.readS
  rw [dif_pos h]
  simp only [MOp.landed_s o w g.regs h, Vector.getElem_set_self]
theorem Group.readS_landed_other {r : SReg} (h : r ≠ o.token) : ({ g with regs := o.landed w g.regs } : Group).readS r = g.readS r := by
  unfold Group.readS
  by_cases hr : r.val < 60
  · rw [dif_pos hr, dif_pos hr]
    by_cases ht : o.token.val < 60
    · have ne : o.token.val ≠ r.val := fun e => h (Fin.ext e.symm)
      simp only [MOp.landed_s o w g.regs ht, Vector.getElem_set_ne _ _ ne]
    · simp only [MOp.landed_none o w g.regs ht]
  · rw [dif_neg hr, dif_neg hr]
    rfl
theorem MOp.landed_pending (r : Regs) (h : o.token.val < 60) : (o.landed w r).pending.getLsbD o.token.val = false := by
  unfold MOp.landed Regs.land
  rw [dif_pos h]
  simp [o.token.isLt]
end
theorem satInc_one (w : Word) : (satInc w 1).toNat = min (w.toNat + 1) (2 ^ 32 - 1) := by
  unfold satInc
  rw [BitVec.toNat_ofNat]
  exact Nat.mod_eq_of_lt ((Nat.min_le_right ..).trans_lt (by decide))
theorem matrixTokens : Clause.MatrixTokens := by
  intro s core o w hg t
  obtain ⟨front, mem, wg⟩ := s.endMOp_front core w hg
  obtain ⟨fstat, shdcnt⟩ := Regs.land_flags o.token w s.g.regs
  rw [show t.g = _ from front]
  refine ⟨s.endMOp_order core o w, fun h => ⟨Group.readS_landed_same s.g.wake o w h, o.landed_pending w s.g.regs h⟩, fun r hr => Group.readS_landed_other s.g.wake o w hr, ?_, ?_, mem, wg⟩
  · unfold MOp.landed
    rw [fstat]
    rfl
  · unfold MOp.landed
    rw [shdcnt]
    cases o.miss with
    | true => exact satInc_one s.g.regs.shdcnt
    | false => rfl

/-- Settles O50: what the end of a region leaves of a word's operands, and what the end of a word changes of its core and its group. -/
theorem matrixWords : Obligations.MatrixWords := ⟨matrixWordsEnter, matrixTokens⟩

end
end Sys2Proof.Machine
end
